-- ==== Sys2Proof/Word.lean ====
section
/-!
DEFINITION. The word types of the module and their plainest arithmetic (00_scope R2, R3).
-/

namespace Sys2Proof

/-- A 64-bit register or address. -/
abbrev W := BitVec 64

/-- One byte of memory. -/
abbrev Byte := BitVec 8

/-- A 512-byte vector register (10_core R197), byte 0 least significant. -/
abbrev VReg := BitVec 4096

/-- A mask register of 1,024 bits (10_core R197). -/
abbrev KReg := BitVec 1024

/-- A bundle of four 32-bit slots (12_encoding R239). -/
abbrev Bundle := BitVec 128

/-- The field [hi:lo] of a number, as an unsigned number (00_scope R2). -/
def fld (w hi lo : Nat) : Nat := w / 2 ^ lo % 2 ^ (hi + 1 - lo)

/-- One bit of a number. -/
def bitOf (w i : Nat) : Bool := w / 2 ^ i % 2 == 1

/-- A Boolean as a bit. -/
def b2n (b : Bool) : Nat := if b then 1 else 0

/-- The vector of the values of a function. -/
def tabulate {α : Type} {n : Nat} (f : Fin n → α) : Vector α n := ⟨⟨List.ofFn f⟩, by simp⟩

end Sys2Proof
end

