-- ==== Sys2Proof/Syntax.lean ====
section
/-!
DEFINITION. The syntax: one constructor of `Instr` for each row of the table of operations and events
(spec/opcode_table.json). Rows with an encoding carry the fields of their slot or micro-word
(12_encoding R239 to R263); rows without one are the steps of the module's agents and carry what the
step names (which core, which register, the value written).
-/

namespace Sys2Proof

/-! ### Names of places -/

/-- The two compute dies (01_module R8). -/
inductive Die where | e | w
  deriving DecidableEq, Repr

/-- A logical core: die E holds 0 to 127, die W holds 128 to 255 (00_scope R1). -/
abbrev CoreId := Fin 256

/-- A partition (03_host R50), which is also the number of its VF minus 1 (R37). -/
abbrev PartId := Fin 8

/-- The two copy contexts (16_sync R348: tc0, tc1). -/
abbrev Ctx := Fin 2

/-- The register files that hold long-latency destinations (10_core R198). -/
inductive RFile where | s | v
  deriving DecidableEq, Repr

/-- A source field with a wait bit: [top] wait, six bits of register number (12_encoding R242, R245). -/
structure Src where
  wait : Bool
  reg  : BitVec 6
  deriving DecidableEq, Repr

/-- The kinds of s.fence (14_scalar R298). -/
inductive FenceKind where | acq | rel | acqrel | sc
  deriving DecidableEq, Repr

/-- The fields of a C slot (12_encoding R247): quad, promise register, completion queue, flags. -/
structure CFields where
  quad  : BitVec 4
  prom  : BitVec 6
  cqv   : Bool
  cq    : BitVec 4
  rel   : Bool
  acq   : Bool
  scope : BitVec 3
  deriving DecidableEq, Repr

/-- The fields of m.call and m.gang (12_encoding R246). -/
structure CallFields where
  routine : BitVec 8
  bank    : BitVec 3
  gv      : Bool
  gq      : BitVec 4
  gcnt    : BitVec 4
  z       : Bool
  deriving DecidableEq, Repr

/-- The fields of the load micro-words lda, ldb, ldk, ldv (12_encoding R263). -/
structure LoadFields where
  base   : BitVec 3
  stride : BitVec 3
  rows   : BitVec 6
  buf    : BitVec 2
  deriving DecidableEq, Repr

/-! ### What events carry -/

/-- The engines that report faults, by their number in TRAPCAUSE.ENGINE (07_faults R130). -/
inductive Engine where | vec0 | vec1 | matrix | copy0 | copy1
  deriving DecidableEq, Repr

/-- A part of a core site that boot test tries (01_module R12, R13). -/
inductive SitePart where
  /-- its matrix engine, its sequencer, one of its memories -/
  | matrix | sequencer | memory
  /-- one of its two vector or copy instances -/
  | vec (i : Fin 2) | copy (i : Fin 2)
  deriving DecidableEq, Repr

/-- What boot test finds (01_module R12, R13, R16), as firmware reports it. -/
structure BootReport where
  /-- the parts of core sites, 136 on a die, that fail boot test after SRAM repair -/
  failed : List (Die × Fin 136 × SitePart)
  /-- some core array has fewer than two unused repair rows or columns (R16, bit 2) -/
  lowSram : Bool
  /-- some HBM pseudo-channel has no unused repair row (R16, bit 3) -/
  lowHbm : Bool
  /-- ports running on one lane, by die (R16, bit 4) -/
  oneLaneE : List (Fin 72)
  oneLaneW : List (Fin 72)
  /-- FABCTL fields given at boot (02_fabric R20): NX − 1, NY − 1, NZ − 1 and this module's x, y, z -/
  dims : List (BitVec 4)
  deriving DecidableEq, Repr, Inhabited

/-- A part of a site has failed boot test. -/
def BootReport.lost (r : BootReport) (d : Die) (i : Fin 136) (x : SitePart) : Bool := r.failed.contains (d, i, x)

/-- A site is bad (R12, R13): its matrix engine, its sequencer or a memory fails, or both instances of a pair. -/
def BootReport.bad (r : BootReport) (d : Die) (i : Fin 136) : Bool :=
  r.lost d i .matrix || r.lost d i .sequencer || r.lost d i .memory ||
  (r.lost d i (.vec 0) && r.lost d i (.vec 1)) || (r.lost d i (.copy 0) && r.lost d i (.copy 1))

/-- The good sites of a die, ascending: its logical cores stand on the first 128 of them (R12). -/
def BootReport.good (r : BootReport) (d : Die) : List (Fin 136) := (List.finRange 136).filter fun i => !r.bad d i
def BootReport.goodE (r : BootReport) : Nat := (r.good .e).length
def BootReport.goodW (r : BootReport) : Nat := (r.good .w).length

/-- The site of a logical core; none when it is absent (R12). -/
def BootReport.site (r : BootReport) (c : CoreId) : Option (Fin 136) :=
  if c.val < 128 then (r.good .e)[c.val]? else (r.good .w)[c.val - 128]?

/-- Some part of the site of a core is lost. -/
def BootReport.coreLost (r : BootReport) (c : CoreId) (x : SitePart) : Bool :=
  (r.site c).any fun i => r.lost (if c.val < 128 then .e else .w) i x

/-- Logical cores with a lost vector instance, and with a lost copy instance (R13). -/
def BootReport.lostVec (r : BootReport) : List CoreId :=
  (List.finRange 256).filter fun c => r.coreLost c (.vec 0) || r.coreLost c (.vec 1)
def BootReport.lostCopy (r : BootReport) : List CoreId :=
  (List.finRange 256).filter fun c => r.coreLost c (.copy 0) || r.coreLost c (.copy 1)

/-- Where a word is poisoned or corrected (01_module R17). -/
inductive Place where
  | mem (pa : BitVec 44)
  | scratch (c : CoreId) (off : BitVec 22)
  | acc (c : CoreId) (bank : BitVec 3) (row : BitVec 6) (col : BitVec 7)
  | vreg (c : CoreId) (r : BitVec 6) (word : BitVec 6)
  /-- an 8-byte word of a core's satchel, which holds the core's memories one after another (07_faults R145) -/
  | satchel (c : CoreId) (word : BitVec 20)
  /-- a bundle of the idle instruction half -/
  | half (c : CoreId) (b : BitVec 12)
  deriving DecidableEq, Repr

/-- The input of a router at which a packet header arrives: one of the die's ports or an endpoint
of the die that injects (02_fabric R23, R25). -/
inductive RouterIn where
  | port (p : Fin 72)
  | inject
  deriving DecidableEq, Repr

/-- A fabric packet: the header's fields at their bytes (02_fabric R21) and the data flits' bytes. -/
structure FabPacket where
  /-- bytes 0 to 7: the routing word -/
  route : W
  /-- bytes 8 and 9: source device coordinate in [12:0] -/
  src : BitVec 16
  /-- byte 10: source crossbar port -/
  sport : Byte
  /-- bytes 11 and 12: request tag -/
  tag : BitVec 16
  /-- bytes 13 to 15, zero -/
  resv : BitVec 24
  /-- bytes 16 to 23: target virtual address -/
  va : W
  /-- bytes 24 to 47: operands -/
  op0 : W
  op1 : W
  op2 : W
  /-- bytes 48 to 55: byte count and byte enables -/
  cnt : W
  /-- bytes 56 to 63, reserved -/
  resv2 : W
  /-- the byte enables: for each byte of the count its bits that are enabled; empty when all are -/
  ens : List Byte
  /-- data of the data flits, at most 256 bytes -/
  data : List Byte
  deriving DecidableEq, Repr, Inhabited

/-- A flow: destination module and traffic class (02_fabric R29). -/
structure Flow where
  dst : BitVec 12
  tc  : BitVec 2
  deriving DecidableEq, Repr

/-- The control register blocks (03_host R52, 04_spaces R75). -/
inductive CtlBlock where
  /-- the module block, and the blocks of a die and of a partition -/
  | module
  | die (d : Die)
  | part (p : PartId)
  /-- the range stores and the group table -/
  | ranges
  | groups
  deriving DecidableEq, Repr

/-- A public key of 1,952 bytes (03_host R55). -/
abbrev PubKey := BitVec 15616

/-- The holders of access tables (03_host R52). -/
inductive Target where
  | slice (d : Die) (i : Fin 32)
  | scratch (c : CoreId)
  | heath (d : Die) (i : Fin 4)
  | control (b : CtlBlock)
  | keys
  deriving DecidableEq, Repr

/-- A register or structure a plain write reaches (04_spaces R75, 03_host R39, 02_fabric R23, R30). -/
inductive RegTarget where
  | control (pa : BitVec 44)
  | windowC (fn : Fin 9) (off : BitVec 16)
  | route (d : Die) (bank : Bool) (dim : Fin 3) (i : Fin 16)
  | member (d : Die) (port : Option (Fin 72)) (i : Fin 64) (part : PartId) (valid : Bool)
  | jobKey (p : PartId)
  | reserve (p : PartId) (home : Fin 4)
  deriving DecidableEq, Repr

/-- A successor entry (06_scheduler R107): early, bits [30:16], which are zero, and the node. -/
structure SuccEntry where
  early : Bool
  resv  : BitVec 15
  node  : BitVec 16
  deriving DecidableEq, Repr

/-- A tile operand word (06_scheduler R106): handle, row, column. -/
structure Opnd where
  handle : BitVec 32
  row : BitVec 16
  col : BitVec 16
  deriving DecidableEq, Repr

/-- A node descriptor with its extension, code segment and successor list (06_scheduler R106, R107,
13_assembly R283). -/
structure NodeDesc where
  codeOff : Nat
  code    : List Bundle
  entry   : Nat
  opnds   : List Opnd
  /-- the operand words at and above NOPND, zero -/
  spare   : List W
  /-- SUCCOFF -/
  succOff : Nat
  demand  : BitVec 8
  engines : BitVec 8
  prio    : BitVec 8
  redun   : BitVec 8
  nsave   : BitVec 8
  keep    : BitVec 16
  preds   : BitVec 16
  succs   : List SuccEntry
  frame   : BitVec 16
  lift    : BitVec 16
  gm      : List (BitVec 8)
  gmv     : BitVec 8
  pin     : BitVec 16
  /-- bytes 98 to 127, zero -/
  tail    : Nat
  keepmap : W
  xclr    : BitVec 8
  deriving DecidableEq, Repr

/-- An extent record and its initial bytes (13_assembly R284). -/
structure ExtentRec where
  size : Nat
  attr : W
  init : List Byte
  deriving DecidableEq, Repr

/-- What firmware chooses for an extent (13_assembly R284): range entry, offset and physical base. -/
structure ExtentPlace where
  index : Fin 2048
  base  : Nat
  pbase : Nat
  deriving DecidableEq, Repr

/-- A graph's pool record (13_assembly R285). -/
structure PoolRec where
  geom  : W
  pages : W
  logN  : BitVec 16
  deriving DecidableEq, Repr

/-- A matrix routine of a graph (13_assembly R286). -/
structure Routine where
  num   : BitVec 8
  words : List (BitVec 32)
  deriving DecidableEq, Repr

/-- A graph image (13_assembly R283 to R286): what firmware reads from a file. -/
structure GraphImage where
  nodes     : List NodeDesc
  extents   : List ExtentRec
  groups    : List (BitVec 256)
  routines  : List Routine
  /-- templates: PATTERN and MASK -/
  templates : List (Bundle × Bundle)
  pool      : Option PoolRec
  deriving DecidableEq, Repr, Inhabited

/-- What an event is given: which core, register, value or packet it concerns. An event has no encoding,
so these stand in the state while it happens (field `inp`); each event names the ones it reads. -/
structure EventArgs where
  core : CoreId := 0
  dst : CoreId := 0
  ctx : Ctx := 0
  eng : Engine := .vec0
  die : Die := .e
  fport : Fin 72 := 0
  xport : Fin 128 := 0
  vc : Fin 8 := 0
  slot : Fin 64 := 0
  part : PartId := 0
  fn : Fin 9 := 0
  queue : Fin 16 := 0
  n : Nat := 0
  word : W := 0
  words : List W := []
  off : W := 0
  bytes : List Byte := []
  key : PubKey := 0
  ok : Bool := false
  /-- a flit fails its CRC (02_fabric R21) -/
  crc : Bool := false
  /-- the verdicts of the two invigilators differ (09_redundancy R186) -/
  split : Bool := false
  file : RFile := .s
  reg : BitVec 6 := 0
  place : Place := .scratch 0 0
  rin : RouterIn := .inject
  pkt : FabPacket := default
  flow : Flow := ⟨0, 0⟩
  target : Target := .keys
  rtarget : RegTarget := .jobKey 0
  places : List ExtentPlace := []
  boot : BootReport := default
  deriving DecidableEq, Repr

/-! ### The operations and events -/

/-- The rows of the table of operations and events: the operations with fields, then the operations and the
events without. The stop bit G of a slot (12_encoding R239) belongs to the slot's group and not to its
operation: the group decoder reads it. (Lean compiles at most 244 constructors that carry fields, so an event
finds what it concerns in the state, see `EventArgs`.) -/
inductive Instr where
  /-- s.add (R291): sd := s(a) + s(b). -/
  | sAdd (d : BitVec 6) (a : Src) (b : Src)
  /-- s.sub (R291): sd := s(a) − s(b). -/
  | sSub (d : BitVec 6) (a : Src) (b : Src)
  /-- s.mul (R291): Low 64 bits of the product. -/
  | sMul (d : BitVec 6) (a : Src) (b : Src)
  /-- s.mulh (R291): High 64 bits of the signed product. -/
  | sMulh (d : BitVec 6) (a : Src) (b : Src)
  /-- s.mulhn (R291): High 64 bits of the unsigned product. -/
  | sMulhn (d : BitVec 6) (a : Src) (b : Src)
  /-- s.div (R292): Signed quotient; never traps. -/
  | sDiv (d : BitVec 6) (a : Src) (b : Src)
  /-- s.divn (R292): Unsigned quotient. -/
  | sDivn (d : BitVec 6) (a : Src) (b : Src)
  /-- s.rem (R292): Signed remainder. -/
  | sRem (d : BitVec 6) (a : Src) (b : Src)
  /-- s.remn (R292): Unsigned remainder. -/
  | sRemn (d : BitVec 6) (a : Src) (b : Src)
  /-- s.and (R291): Bitwise and. -/
  | sAnd (d : BitVec 6) (a : Src) (b : Src)
  /-- s.or (R291): Bitwise or. -/
  | sOr (d : BitVec 6) (a : Src) (b : Src)
  /-- s.xor (R291): Bitwise xor. -/
  | sXor (d : BitVec 6) (a : Src) (b : Src)
  /-- s.andn (R291): s(a) and not s(b). -/
  | sAndn (d : BitVec 6) (a : Src) (b : Src)
  /-- s.sll (R291): Shift left logical. -/
  | sSll (d : BitVec 6) (a : Src) (b : Src)
  /-- s.srl (R291): Shift right logical. -/
  | sSrl (d : BitVec 6) (a : Src) (b : Src)
  /-- s.sra (R291): Shift right arithmetic. -/
  | sSra (d : BitVec 6) (a : Src) (b : Src)
  /-- s.min (R291): Signed minimum. -/
  | sMin (d : BitVec 6) (a : Src) (b : Src)
  /-- s.max (R291): Signed maximum. -/
  | sMax (d : BitVec 6) (a : Src) (b : Src)
  /-- s.minn (R291): Unsigned minimum. -/
  | sMinn (d : BitVec 6) (a : Src) (b : Src)
  /-- s.maxn (R291): Unsigned maximum. -/
  | sMaxn (d : BitVec 6) (a : Src) (b : Src)
  /-- s.slt (R291): Signed set-less-than. -/
  | sSlt (d : BitVec 6) (a : Src) (b : Src)
  /-- s.sltn (R291): Unsigned set-less-than. -/
  | sSltn (d : BitVec 6) (a : Src) (b : Src)
  /-- s.sel (R291): sd := s(a) if s(d) ≠ 0, else s(b). -/
  | sSel (d : BitVec 6) (a : Src) (b : Src)
  /-- s.mov (R291): sd := s(a). -/
  | sMov (d : BitVec 6) (a : Src)
  /-- s.clz (R291): Count of leading zero bits. -/
  | sClz (d : BitVec 6) (a : Src)
  /-- s.ctz (R291): Count of trailing zero bits. -/
  | sCtz (d : BitVec 6) (a : Src)
  /-- s.popc (R291): Count of set bits. -/
  | sPopc (d : BitVec 6) (a : Src)
  /-- s.bswap (R291): Byte reversal. -/
  | sBswap (d : BitVec 6) (a : Src)
  /-- s.addi (R293): sd := s(a) + Imm(). -/
  | sAddi (d : BitVec 6) (a : Src) (i : BitVec 8)
  /-- s.muli (R293): Low 64 bits of s(a) × Imm(). -/
  | sMuli (d : BitVec 6) (a : Src) (i : BitVec 8)
  /-- s.andi (R293): Bitwise and with the immediate. -/
  | sAndi (d : BitVec 6) (a : Src) (i : BitVec 8)
  /-- s.ori (R293): Bitwise or with the immediate. -/
  | sOri (d : BitVec 6) (a : Src) (i : BitVec 8)
  /-- s.xori (R293): Bitwise xor with the immediate. -/
  | sXori (d : BitVec 6) (a : Src) (i : BitVec 8)
  /-- s.slli (R293): Shift left by imm8[5:0]. -/
  | sSlli (d : BitVec 6) (a : Src) (i : BitVec 6)
  /-- s.srli (R293): Shift right logical by imm8[5:0]. -/
  | sSrli (d : BitVec 6) (a : Src) (i : BitVec 6)
  /-- s.srai (R293): Shift right arithmetic by imm8[5:0]. -/
  | sSrai (d : BitVec 6) (a : Src) (i : BitVec 6)
  /-- s.slti (R293): Signed compare with the immediate. -/
  | sSlti (d : BitVec 6) (a : Src) (i : BitVec 8)
  /-- s.sltni (R293): Unsigned compare with the immediate. -/
  | sSltni (d : BitVec 6) (a : Src) (i : BitVec 8)
  /-- s.li (R293): sd := Imm(). -/
  | sLi (d : BitVec 6) (i : BitVec 8)
  /-- s.lih (R293): Sets the high word: sd := s(a)[31:0] + Imm() × 2^32. -/
  | sLih (d : BitVec 6) (a : Src) (i : BitVec 8)
  /-- s.ld.b (R295): Loads a byte, sign-extended. -/
  | sLdB (d : BitVec 6) (a : Src) (i : BitVec 8)
  /-- s.ld.bn (R295): Loads a byte, zero-extended. -/
  | sLdBn (d : BitVec 6) (a : Src) (i : BitVec 8)
  /-- s.ld.h (R295): Loads a halfword, sign-extended. -/
  | sLdH (d : BitVec 6) (a : Src) (i : BitVec 8)
  /-- s.ld.hn (R295): Loads a halfword, zero-extended. -/
  | sLdHn (d : BitVec 6) (a : Src) (i : BitVec 8)
  /-- s.ld.w (R295): Loads a word, sign-extended. -/
  | sLdW (d : BitVec 6) (a : Src) (i : BitVec 8)
  /-- s.ld.wn (R295): Loads a word, zero-extended. -/
  | sLdWn (d : BitVec 6) (a : Src) (i : BitVec 8)
  /-- s.ld.d (R295): Loads a doubleword. -/
  | sLdD (d : BitVec 6) (a : Src) (i : BitVec 8)
  /-- s.st.b (R295): Stores a byte. -/
  | sStB (d : BitVec 6) (a : Src) (i : BitVec 8)
  /-- s.st.h (R295): Stores a halfword. -/
  | sStH (d : BitVec 6) (a : Src) (i : BitVec 8)
  /-- s.st.w (R295): Stores a word. -/
  | sStW (d : BitVec 6) (a : Src) (i : BitVec 8)
  /-- s.st.d (R295): Stores a doubleword. -/
  | sStD (d : BitVec 6) (a : Src) (i : BitVec 8)
  /-- s.ld.acq.w (R297): Acquire load of a word. -/
  | sLdAcqW (d : BitVec 6) (a : Src) (i : BitVec 8)
  /-- s.ld.acq.d (R297): Acquire load of a doubleword. -/
  | sLdAcqD (d : BitVec 6) (a : Src) (i : BitVec 8)
  /-- s.st.rel.w (R297): Release store of a word. -/
  | sStRelW (d : BitVec 6) (a : Src) (i : BitVec 8)
  /-- s.st.rel.d (R297): Release store of a doubleword. -/
  | sStRelD (d : BitVec 6) (a : Src) (i : BitVec 8)
  /-- s.cmp.eq (R294): p(d) := s(a) = s(b). -/
  | sCmpEq (p : BitVec 3) (a : Src) (b : Src)
  /-- s.cmp.ne (R294): p(d) := s(a) ≠ s(b). -/
  | sCmpNe (p : BitVec 3) (a : Src) (b : Src)
  /-- s.cmp.lt (R294): Signed less-than. -/
  | sCmpLt (p : BitVec 3) (a : Src) (b : Src)
  /-- s.cmp.ge (R294): Signed greater-or-equal. -/
  | sCmpGe (p : BitVec 3) (a : Src) (b : Src)
  /-- s.cmp.ltn (R294): Unsigned less-than. -/
  | sCmpLtn (p : BitVec 3) (a : Src) (b : Src)
  /-- s.cmp.gen (R294): Unsigned greater-or-equal. -/
  | sCmpGen (p : BitVec 3) (a : Src) (b : Src)
  /-- s.cmpi.eq (R294): Equality with the immediate. -/
  | sCmpiEq (p : BitVec 3) (a : Src) (i : BitVec 8)
  /-- s.cmpi.ne (R294): Inequality with the immediate. -/
  | sCmpiNe (p : BitVec 3) (a : Src) (i : BitVec 8)
  /-- s.cmpi.lt (R294): Signed less-than the immediate. -/
  | sCmpiLt (p : BitVec 3) (a : Src) (i : BitVec 8)
  /-- s.cmpi.ge (R294): Signed greater-or-equal to the immediate. -/
  | sCmpiGe (p : BitVec 3) (a : Src) (i : BitVec 8)
  /-- s.fence (R298): Fence of the given kind and scope. -/
  | sFence (k : FenceKind) (s : BitVec 3)
  /-- s.csrr (R299): Reads a control register. -/
  | sCsrr (d : BitVec 6) (c : BitVec 8)
  /-- s.csrw (R299): Writes a control register and returns the old value. -/
  | sCsrw (d : BitVec 6) (a : Src) (c : BitVec 8)
  /-- s.csrs (R299): Sets bits of a control register. -/
  | sCsrs (d : BitVec 6) (a : Src) (c : BitVec 8)
  /-- s.csrc (R299): Clears bits of a control register. -/
  | sCsrc (d : BitVec 6) (a : Src) (c : BitVec 8)
  /-- s.rdcyc (R302): Reads CYC. -/
  | sRdcyc (d : BitVec 6)
  /-- b.br (R303): Branches by offset. -/
  | bBr (o : BitVec 18)
  /-- b.bp (R303): Branches on a predicate; may split under a lift. -/
  | bBp (p : BitVec 3) (n : Bool) (o : BitVec 18)
  /-- b.jal (R303): Branches and links into s60. -/
  | bJal (o : BitVec 18)
  /-- b.jr (R303): Jumps to a bundle given by a register. -/
  | bJr (r : BitVec 6)
  /-- b.loop (R305): Opens a hardware loop with a register count. -/
  | bLoop (c : BitVec 6) (o : BitVec 12)
  /-- b.loopi (R305): Opens a hardware loop with an immediate count. -/
  | bLoopi (c : BitVec 8) (o : BitVec 10)
  /-- b.trap (R307): Raises SW_TRAP when the condition holds. -/
  | bTrap (p : BitVec 3) (n : Bool) (c : BitVec 18)
  /-- b.task (R314): Enqueues a new node instance (device-side launch). -/
  | bTask (i : BitVec 6) (b : BitVec 6) (s : BitVec 6)
  /-- b.swap (R315): Exchanges the active and idle instruction halves. -/
  | bSwap (x : BitVec 12)
  /-- b.sleep (R317): Holds until the promise's DUE. -/
  | bSleep (r : BitVec 6)
  /-- b.park (R122): Parks the node on a gm entry. -/
  | bPark (m : BitVec 2)
  /-- v.fadd (R389): Float add. -/
  | vFadd (d : BitVec 6) (a : Src) (b : Src) (z : Bool)
  /-- v.fsub (R389): Float subtract. -/
  | vFsub (d : BitVec 6) (a : Src) (b : Src) (z : Bool)
  /-- v.fmul (R389): Float multiply. -/
  | vFmul (d : BitVec 6) (a : Src) (b : Src) (z : Bool)
  /-- v.fma (R389): Fused multiply-add. -/
  | vFma (d : BitVec 6) (a : Src) (b : Src) (z : Bool)
  /-- v.fms (R389): Fused multiply-subtract. -/
  | vFms (d : BitVec 6) (a : Src) (b : Src) (z : Bool)
  /-- v.fmin (R389): Float minimum. -/
  | vFmin (d : BitVec 6) (a : Src) (b : Src) (z : Bool)
  /-- v.fmax (R389): Float maximum. -/
  | vFmax (d : BitVec 6) (a : Src) (b : Src) (z : Bool)
  /-- v.fabs (R389): Float absolute value. -/
  | vFabs (d : BitVec 6) (a : Src) (z : Bool)
  /-- v.fneg (R389): Float negation. -/
  | vFneg (d : BitVec 6) (a : Src) (z : Bool)
  /-- v.fcmp.eq (R391): Float equality compare into kd. -/
  | vFcmpEq (k : BitVec 3) (a : Src) (b : Src)
  /-- v.fcmp.lt (R391): Float less-than compare. -/
  | vFcmpLt (k : BitVec 3) (a : Src) (b : Src)
  /-- v.fcmp.le (R391): Float less-or-equal compare. -/
  | vFcmpLe (k : BitVec 3) (a : Src) (b : Src)
  /-- v.fcmp.un (R391): Float unordered compare. -/
  | vFcmpUn (k : BitVec 3) (a : Src) (b : Src)
  /-- v.add (R390): Integer add. -/
  | vAdd (d : BitVec 6) (a : Src) (b : Src) (z : Bool)
  /-- v.sub (R390): Integer subtract. -/
  | vSub (d : BitVec 6) (a : Src) (b : Src) (z : Bool)
  /-- v.mul (R390): Integer multiply. -/
  | vMul (d : BitVec 6) (a : Src) (b : Src) (z : Bool)
  /-- v.mulh (R390): Signed high multiply. -/
  | vMulh (d : BitVec 6) (a : Src) (b : Src) (z : Bool)
  /-- v.mulhn (R390): Unsigned high multiply. -/
  | vMulhn (d : BitVec 6) (a : Src) (b : Src) (z : Bool)
  /-- v.and (R390): Bitwise and. -/
  | vAnd (d : BitVec 6) (a : Src) (b : Src) (z : Bool)
  /-- v.or (R390): Bitwise or. -/
  | vOr (d : BitVec 6) (a : Src) (b : Src) (z : Bool)
  /-- v.xor (R390): Bitwise xor. -/
  | vXor (d : BitVec 6) (a : Src) (b : Src) (z : Bool)
  /-- v.andn (R390): a and not b. -/
  | vAndn (d : BitVec 6) (a : Src) (b : Src) (z : Bool)
  /-- v.shl (R390): Shift left. -/
  | vShl (d : BitVec 6) (a : Src) (b : Src) (z : Bool)
  /-- v.shr (R390): Shift right logical. -/
  | vShr (d : BitVec 6) (a : Src) (b : Src) (z : Bool)
  /-- v.sra (R390): Shift right arithmetic. -/
  | vSra (d : BitVec 6) (a : Src) (b : Src) (z : Bool)
  /-- v.min (R390): Integer minimum. -/
  | vMin (d : BitVec 6) (a : Src) (b : Src) (z : Bool)
  /-- v.max (R390): Integer maximum. -/
  | vMax (d : BitVec 6) (a : Src) (b : Src) (z : Bool)
  /-- v.minn (R390): Unsigned minimum. -/
  | vMinn (d : BitVec 6) (a : Src) (b : Src) (z : Bool)
  /-- v.maxn (R390): Unsigned maximum. -/
  | vMaxn (d : BitVec 6) (a : Src) (b : Src) (z : Bool)
  /-- v.abs (R390): Integer absolute value. -/
  | vAbs (d : BitVec 6) (a : Src) (z : Bool)
  /-- v.icmp.eq (R391): Raw equality compare. -/
  | vIcmpEq (k : BitVec 3) (a : Src) (b : Src)
  /-- v.icmp.lt (R391): Integer less-than compare. -/
  | vIcmpLt (k : BitVec 3) (a : Src) (b : Src)
  /-- v.icmp.ltn (R391): Unsigned less-than compare. -/
  | vIcmpLtn (k : BitVec 3) (a : Src) (b : Src)
  /-- v.addsat (R390): Saturating add. -/
  | vAddsat (d : BitVec 6) (a : Src) (b : Src) (z : Bool)
  /-- v.subsat (R390): Saturating subtract. -/
  | vSubsat (d : BitVec 6) (a : Src) (b : Src) (z : Bool)
  /-- v.mov (R393): Register move. -/
  | vMov (d : BitVec 6) (a : Src) (z : Bool)
  /-- v.sel (R393): Select by mask. -/
  | vSel (d : BitVec 6) (a : Src) (b : Src) (z : Bool)
  /-- v.bcast (R393): Broadcast from an s register. -/
  | vBcast (d : BitVec 6) (a : Src) (z : Bool)
  /-- v.ins (R393): Insert one element. -/
  | vIns (d : BitVec 6) (a : Src) (b : Src) (z : Bool)
  /-- v.ext (R393): Extract one element. -/
  | vExt (d : BitVec 6) (a : Src) (b : Src) (z : Bool)
  /-- v.iota (R393): Writes lane indices. -/
  | vIota (d : BitVec 6) (z : Bool)
  /-- v.perm (R393): Permute by an index vector. -/
  | vPerm (d : BitVec 6) (a : Src) (b : Src) (z : Bool)
  /-- v.rot (R393): Rotate elements. -/
  | vRot (d : BitVec 6) (a : Src) (b : Src) (z : Bool)
  /-- v.zip (R393): Interleave. -/
  | vZip (d : BitVec 6) (a : Src) (b : Src) (z : Bool)
  /-- v.unzip (R393): De-interleave. -/
  | vUnzip (d : BitVec 6) (a : Src) (b : Src) (z : Bool)
  /-- v.cvt (R394): Format conversion. -/
  | vCvt (d : BitVec 6) (a : Src) (f : BitVec 5) (z : Bool)
  /-- v.widen (R395): Widens into a pair or quad. -/
  | vWiden (d : BitVec 6) (a : Src) (q : Bool) (f : BitVec 5) (z : Bool)
  /-- v.narrow (R395): Narrows from a pair or quad. -/
  | vNarrow (d : BitVec 6) (a : Src) (q : Bool) (f : BitVec 5) (z : Bool)
  /-- v.pack6 (R396): Packs bytes into 6-bit slots. -/
  | vPack6 (d : BitVec 6) (a : Src) (z : Bool)
  /-- v.unpack6 (R396): Unpacks 6-bit slots into bytes. -/
  | vUnpack6 (d : BitVec 6) (a : Src) (z : Bool)
  /-- v.packq4 (R397): Encodes Q4X or Q4Y. -/
  | vPackq4 (d : BitVec 6) (a : Src) (z : Bool)
  /-- v.unpackq4 (R397): Decodes Q4X or Q4Y. -/
  | vUnpackq4 (d : BitVec 6) (a : Src) (z : Bool)
  /-- v.setfmt (R398): Writes VFMT. -/
  | vSetfmt (a : Src)
  /-- v.radd (R399): Integer sum reduction. -/
  | vRadd (d : BitVec 6) (a : Src) (z : Bool)
  /-- v.rmax (R399): Integer max reduction. -/
  | vRmax (d : BitVec 6) (a : Src) (z : Bool)
  /-- v.rmin (R399): Integer min reduction. -/
  | vRmin (d : BitVec 6) (a : Src) (z : Bool)
  /-- v.rfadd (R399): Float pairwise sum reduction. -/
  | vRfadd (d : BitVec 6) (a : Src) (z : Bool)
  /-- v.rfmax (R399): Float max reduction. -/
  | vRfmax (d : BitVec 6) (a : Src) (z : Bool)
  /-- v.rfmin (R399): Float min reduction. -/
  | vRfmin (d : BitVec 6) (a : Src) (z : Bool)
  /-- v.scan.add (R400): Integer inclusive scan. -/
  | vScanAdd (d : BitVec 6) (a : Src) (z : Bool)
  /-- v.scan.fadd (R400): Float inclusive scan. -/
  | vScanFadd (d : BitVec 6) (a : Src) (z : Bool)
  /-- v.rcp (R401): Reciprocal (SFU). -/
  | vRcp (d : BitVec 6) (a : Src) (z : Bool)
  /-- v.rsqrt (R401): Reciprocal square root. -/
  | vRsqrt (d : BitVec 6) (a : Src) (z : Bool)
  /-- v.sqrt (R401): Square root. -/
  | vSqrt (d : BitVec 6) (a : Src) (z : Bool)
  /-- v.exp2 (R401): Base-2 exponential. -/
  | vExp2 (d : BitVec 6) (a : Src) (z : Bool)
  /-- v.log2 (R401): Base-2 logarithm. -/
  | vLog2 (d : BitVec 6) (a : Src) (z : Bool)
  /-- v.tanh (R401): Hyperbolic tangent. -/
  | vTanh (d : BitVec 6) (a : Src) (z : Bool)
  /-- v.erf (R401): Error function. -/
  | vErf (d : BitVec 6) (a : Src) (z : Bool)
  /-- v.ld (R402): Contiguous vector load. -/
  | vLd (d : BitVec 6) (a : Src) (o : BitVec 7) (z : Bool)
  /-- v.st (R402): Contiguous vector store. -/
  | vSt (d : BitVec 6) (a : Src) (o : BitVec 7)
  /-- v.ldx (R402): Indexed vector load. -/
  | vLdx (d : BitVec 6) (a : Src) (b : Src) (z : Bool)
  /-- v.stx (R402): Indexed vector store. -/
  | vStx (d : BitVec 6) (a : Src) (b : Src)
  /-- v.lds (R402): Strided vector load. -/
  | vLds (d : BitVec 6) (a : Src) (b : Src) (z : Bool)
  /-- v.sts (R402): Strided vector store. -/
  | vSts (d : BitVec 6) (a : Src) (b : Src)
  /-- v.rda (R405): Reads an accumulator row. -/
  | vRda (d : BitVec 6) (a : Src) (n : BitVec 3) (z : Bool)
  /-- v.wra (R405): Writes an accumulator row. -/
  | vWra (d : BitVec 6) (a : Src) (n : BitVec 3)
  /-- v.adda (R405): Adds into an accumulator row. -/
  | vAdda (d : BitVec 6) (a : Src) (n : BitVec 3)
  /-- v.qpop (R406): Pops a queue entry into a vector register. -/
  | vQpop (d : BitVec 6) (q : BitVec 4) (z : Bool)
  /-- v.qpush (R406): Pushes a vector register onto a queue. -/
  | vQpush (q : BitVec 4) (a : Src)
  /-- v.kand (R407): Mask and. -/
  | vKand (d : BitVec 3) (a : BitVec 3) (b : BitVec 3)
  /-- v.kor (R407): Mask or. -/
  | vKor (d : BitVec 3) (a : BitVec 3) (b : BitVec 3)
  /-- v.kxor (R407): Mask xor. -/
  | vKxor (d : BitVec 3) (a : BitVec 3) (b : BitVec 3)
  /-- v.knot (R407): Mask not. -/
  | vKnot (d : BitVec 3) (a : BitVec 3)
  /-- v.kpopc (R407): Counts set mask bits. -/
  | vKpopc (d : BitVec 6) (k : BitVec 3)
  /-- v.kfirst (R407): Finds the lowest set mask bit. -/
  | vKfirst (d : BitVec 6) (k : BitVec 3)
  /-- v.kset (R407): Builds a mask from nonzero elements. -/
  | vKset (k : BitVec 3) (a : Src)
  /-- v.lred (R408): Reduces over an axis tag. -/
  | vLred (d : BitVec 6) (a : Src) (s : BitVec 3) (t : BitVec 2) (z : Bool)
  /-- v.lpick (R409): Picks a member of the innermost tag. -/
  | vLpick (d : BitVec 6) (a : Src) (b : Src) (z : Bool)
  /-- v.lbcast (R409): Broadcasts over an axis tag. -/
  | vLbcast (d : BitVec 6) (a : Src) (t : BitVec 2) (z : Bool)
  /-- m.call (R418): Issues a routine call on a bank. -/
  | mCall (c : CallFields)
  /-- m.setp (R416): Writes a pm register. -/
  | mSetp (p : BitVec 3) (s : BitVec 6)
  /-- m.getp (R416): Reads a pm register (may be pending). -/
  | mGetp (p : BitVec 3) (d : BitVec 6)
  /-- m.zacc (R421): Zeroes an accumulator bank. -/
  | mZacc (n : BitVec 3)
  /-- m.uld (R421): Writes a bank to scratch, converted. -/
  | mUld (n : BitVec 3) (s : BitVec 6) (f : BitVec 5)
  /-- m.gang (R438): Issues a matrix-gang call. -/
  | mGang (c : CallFields)
  /-- c.copy (R327): Strided copy. -/
  | cCopy (c : CFields)
  /-- c.copyi (R327): Copy by a row list. -/
  | cCopyi (c : CFields)
  /-- c.gath (R327): Gather. -/
  | cGath (c : CFields)
  /-- c.scat (R327): Scatter. -/
  | cScat (c : CFields)
  /-- c.fill (R327): Fill. -/
  | cFill (c : CFields)
  /-- c.pref (R329): Prefetches translations. -/
  | cPref (c : CFields)
  /-- c.relay (R331): Relays a blob along a chain. -/
  | cRelay (c : CFields)
  /-- c.decomp (R332): Decompresses bundles. -/
  | cDecomp (c : CFields)
  /-- c.acc.add (R334): Integer accumulate-on-write. -/
  | cAccAdd (c : CFields)
  /-- c.acc.fadd (R334): Float or FX128 accumulate-on-write. -/
  | cAccFadd (c : CFields)
  /-- c.acc.max (R334): Max accumulate-on-write. -/
  | cAccMax (c : CFields)
  /-- c.acc.min (R334): Min accumulate-on-write. -/
  | cAccMin (c : CFields)
  /-- c.acc.or (R334): Or accumulate-on-write. -/
  | cAccOr (c : CFields)
  /-- c.acc.and (R334): And accumulate-on-write. -/
  | cAccAnd (c : CFields)
  /-- c.fop.add (R335): Fetch-and-add. -/
  | cFopAdd (c : CFields)
  /-- c.fop.min (R335): Fetch-and-min. -/
  | cFopMin (c : CFields)
  /-- c.fop.max (R335): Fetch-and-max. -/
  | cFopMax (c : CFields)
  /-- c.fop.and (R335): Fetch-and-and. -/
  | cFopAnd (c : CFields)
  /-- c.fop.or (R335): Fetch-and-or. -/
  | cFopOr (c : CFields)
  /-- c.fop.xor (R335): Fetch-and-xor. -/
  | cFopXor (c : CFields)
  /-- c.fop.swap (R335): Atomic swap. -/
  | cFopSwap (c : CFields)
  /-- c.fop.cas (R335): Compare-and-swap. -/
  | cFopCas (c : CFields)
  /-- c.get (R330): Copies from a remote module. -/
  | cGet (c : CFields)
  /-- c.put (R330): Copies to a remote module. -/
  | cPut (c : CFields)
  /-- c.kvput (R336): Writes (and may publish) key and value rows. -/
  | cKvput (c : CFields)
  /-- c.kvapp (R95): Appends a batch of tokens through the pool manager. -/
  | cKvapp (c : CFields)
  /-- c.kvinv (R99): TRUNC, CLOSE or REPLACE on the key-value tables. -/
  | cKvinv (c : CFields)
  /-- c.recast (R79): Changes an extent's role and format. -/
  | cRecast (n : BitVec 4) (p : BitVec 6) (v : Bool) (q : BitVec 4) (s : BitVec 3)
  /-- c.sbar (R166): Stream barrier over earlier copy commands. -/
  | cSbar (p : BitVec 6) (v : Bool) (q : BitVec 4) (x : Bool) (y : Bool) (w : Bool)
  /-- c.migr (R339): Migrates a page. -/
  | cMigr (c : CFields)
  /-- q.qcfg (R345): Configures a queue. -/
  | qQcfg (x : BitVec 4) (a : BitVec 6)
  /-- q.qpush (R346): Pushes a word. -/
  | qQpush (x : BitVec 4) (a : BitVec 6)
  /-- q.qpop (R346): Pops a word. -/
  | qQpop (x : BitVec 4) (d : BitVec 6)
  /-- q.qpeek (R346): Peeks at an entry. -/
  | qQpeek (x : BitVec 4) (d : BitVec 6) (i : BitVec 6)
  /-- q.qcnt (R346): Returns the queue's entry count. -/
  | qQcnt (x : BitVec 4) (d : BitVec 6)
  /-- q.tlwait (R348): Waits on a timeline. -/
  | qTlwait (t : BitVec 2) (a : BitVec 6)
  /-- q.tlsig (R349): Advances ts as a release. -/
  | qTlsig (a : BitVec 6)
  /-- q.tlrd (R351): Reads a timeline. -/
  | qTlrd (t : BitVec 2) (d : BitVec 6)
  /-- q.tlwaitx (R350): Waits on another core's ts. -/
  | qTlwaitx (d : BitVec 6) (a : BitVec 6)
  /-- q.bar (R353): Holds at a roll call, optionally swapping banks. -/
  | qBar (m : BitVec 2) (s : Bool)
  /-- q.slack (R354): Sets SLACK.LIMIT and clears DEBT. -/
  | qSlack (a : BitVec 6)
  /-- q.fin (R359): Takes an inbox word into a pending destination. -/
  | qFin (d : BitVec 6)
  /-- q.fout (R358): Places a word in the outbox. -/
  | qFout (d : BitVec 6) (a : BitVec 6)
  /-- q.promise (R352): Forms a promise for a command. -/
  | qPromise (t : BitVec 2) (d : BitVec 6) (a : BitVec 6)
  /-- q.lift (R360): Enters a lift level. -/
  | qLift (t : BitVec 2) (a : BitVec 6)
  /-- q.lmask (R362): Sets LMASK under its ceiling. -/
  | qLmask (a : BitVec 6)
  /-- u.lda (R424): Loads A rows into a buffer. -/
  | uLda (l : LoadFields)
  /-- u.ldb (R424): Loads B rows into a buffer. -/
  | uLdb (l : LoadFields)
  /-- u.ldk (R425): Tile fetch of key rows. -/
  | uLdk (l : LoadFields)
  /-- u.ldv (R425): Tile fetch of value rows. -/
  | uLdv (l : LoadFields)
  /-- u.mma (R428): Multiply-accumulate of buffers into the bank. -/
  | uMma (a : BitVec 2) (b : BitVec 2) (k : BitVec 8)
  /-- u.step (R429): Adds one working parameter to another. -/
  | uStep (d : BitVec 3) (i : BitVec 3)
  /-- u.loop (R429): Opens a micro-loop. -/
  | uLoop (c : BitVec 3) (l : BitVec 12)
  /-- u.gate (R430): Waits for queue entries. -/
  | uGate (q : BitVec 4) (n : BitVec 4)
  /-- u.pop (R430): Waits for and pops queue entries. -/
  | uPop (q : BitVec 4) (n : BitVec 4)
  /-- u.push (R430): Pushes a working parameter after earlier writebacks. -/
  | uPush (q : BitVec 4) (p : BitVec 3)
  /-- u.scale (R431): Loads block scales for a buffer. -/
  | uScale (b : BitVec 2) (p : BitVec 3)
  /-- u.chk (R432): Tests a buffer for non-finite values. -/
  | uChk (b : BitVec 2)
  /-- u.wb (R433): Writes the last mma rectangle to memory. -/
  | uWb (p : BitVec 3) (f : BitVec 5)
  /-- u.sig (R434): Completes pending m.getp of a pm early. -/
  | uSig (p : BitVec 3)
  /-- b.tret (R308): Returns from the handler by the trap's class. -/
  | bTret
  /-- b.done (R311): Ends the node on its seat as a release, after engines complete. -/
  | bDone
  /-- b.yield (R312): Offers the node's cores for pre-emption. -/
  | bYield
  /-- b.trig (R313): Releases and counts the seat toward early edges. -/
  | bTrig
  /-- b.join (R310): Acts on the innermost split entry. -/
  | bJoin
  /-- q.frame (R355): Waits for the next frame start. -/
  | qFrame
  /-- q.ifence (R356): Orders instruction fetch of the idle half. -/
  | qIfence
  /-- q.lend (R361): Leaves the innermost lift level. -/
  | qLend
  /-- u.endl (R429): Ends a micro-loop iteration. -/
  | uEndl
  /-- u.end (R429): Ends the routine. -/
  | uEnd
  /-- BOOT (R12): At power-up, boot test runs, SRAM repair is applied, logical cores are mapped onto good sites, and MODSTAT and REASON are evaluated. -/
  | boot
  /-- THERMAL_ALARM (R11): A junction reaching 95 °C, or an arithmetic budget that can only be held by delaying a timetable partition, sets the thermal alarm in telemetry. -/
  | thermalAlarm
  /-- THERMAL_SHUTDOWN (R11): A junction reaching 105 °C makes the scheduler force-swap every partition and then hold all cores halted. -/
  | thermalShutdown
  /-- THERMAL_RECOVERY (R11): A junction falling below 90 °C releases the cores held after a thermal shutdown. -/
  | thermalRecovery
  /-- HBM_ROW_REPAIR (R14): At the next refresh window, firmware replaces a failing HBM row by post-package repair. -/
  | hbmRowRepair
  /-- FABRIC_LANE_FAILURE (R14): A failing fabric lane leaves its port running on one lane at half bandwidth and may set a REASON bit. -/
  | fabricLaneFailure
  /-- CORRECTABLE_ERROR (R140): A correctable error in scratch, the accumulator store or the vector registers freezes the core, its engines and FRAMECNT (the whole partition in timetable mode). -/
  | correctableError
  /-- FREEZE_END (R140): After 8 ac cycles per event, a correctable-error freeze ends and the core resumes. -/
  | freezeEnd
  /-- WORD_POISONED (R17): An uncorrectable error poisons the word, and the event is counted in telemetry. -/
  | wordPoisoned
  /-- FLIT_REPLAY (R21): A flit that fails its link CRC is replayed from the sender's replay buffer, and duplicates are discarded. -/
  | flitReplay
  /-- ROUTER_PACKET_ARRIVE (R23): A packet header arrives at a router input; it is checked against R22 and R30, then routed by its bank's tables or dropped. -/
  | routerPacketArrive
  /-- CREDIT_RETURN (R25): A receiver frees a flit buffer and returns a credit to the upstream output virtual channel. -/
  | creditReturn
  /-- HEDGE_QUEUE_ASSIGN (R29): When an output virtual channel's free-buffer count has stayed zero for 512 ac cycles with a waiting header, a free hedge queue is assigned to the flow and a congestion notice is sent upstream. -/
  | hedgeQueueAssign
  /-- HEDGE_QUEUE_RELEASE (R29): A hedge queue that has stayed empty for 1,024 ac cycles is released, and a hedge release notice is sent upstream. -/
  | hedgeQueueRelease
  /-- CONGESTION_NOTICE (R29): On arrival of a congestion notice, an upstream router assigns a hedge queue and passes the notice on, or an injecting endpoint halves its rate for the flow. -/
  | congestionNotice
  /-- HEDGE_RELEASE_NOTICE (R29): On arrival of a hedge release notice, the hedging step is undone and the endpoint restores its full rate. -/
  | hedgeReleaseNotice
  /-- READ_REQUEST (R32): A fabric read request arrives at its target endpoint, is checked against the membership and access tables, translated and served, and a read response is returned. -/
  | readRequest
  /-- WRITE_REQUEST (R32): A fabric write request (including a relay open marker) arrives, is checked and translated, is performed, and a completion acknowledgement is returned. -/
  | writeRequest
  /-- ACCUMULATE_REQUEST (R32): A fabric accumulate request arrives and is performed once at the memory port that owns the location. -/
  | accumulateRequest
  /-- FETCH_OP_REQUEST (R32): A fabric fetch-op request arrives, is performed once at the owning memory port, and its old value is returned in the acknowledgement. -/
  | fetchOpRequest
  /-- READ_RESPONSE (R32): A read response with data arrives at the issuing copy engine and is written to the destination, or discarded after the request's timeout. -/
  | readResponse
  /-- COMPLETION_ACKNOWLEDGEMENT (R32): A completion acknowledgement, carrying status and any old value, arrives at the issuing copy engine. -/
  | completionAcknowledgement
  /-- RELAY_DATA (R35): A relay chunk arrives, is written to the local stream extent, hashed if signed, and forwarded to the next module. -/
  | relayData
  /-- INBOX_WORD (R34): An inbox word arrives at its destination core; it is placed in the 64-word inbox or refused when the inbox is full, and a pending q.fin takes it. -/
  | inboxWord
  /-- INBOX_REFUSAL (R34): An inbox refusal arrives at the source outbox, which schedules a resend of the word. -/
  | inboxRefusal
  /-- OUTBOX_RESEND (R34): 256 ac cycles after a refusal, the outbox resends the refused word. -/
  | outboxResend
  /-- OUTBOX_SEND (R358): Once every earlier access of the core is performed at the send's scope, the outbox sends a word as a release, or drops it. -/
  | outboxSend
  /-- REQUEST_TIMEOUT (R31): A fabric request unanswered 100 µs after injection times out; the command completes with error status. -/
  | requestTimeout
  /-- RELAY_OPEN_RETRY (R35): A relay open answered with retry status is retried every 1 µs. -/
  | relayOpenRetry
  /-- RELAY_STALL_TIMEOUT (R331): A receiving relay module whose chunks stop for 100 µs completes its command with error status. -/
  | relayStallTimeout
  /-- FABCTL_WRITE (R27): A firmware write of FABCTL; a change of INJBANK switches each endpoint to the new routing bank at a packet boundary. -/
  | fabctlWrite
  /-- REGISTER_WRITE (R75): A write to a control register or structure that has no row of its own takes effect under its field rules. -/
  | registerWrite
  /-- WINDOW_D_READ (R38): A host read of a VF's window D is translated and checked; it completes with data or with Completer Abort, after earlier posted writes are acknowledged. -/
  | windowDRead
  /-- WINDOW_D_WRITE (R38): A host posted write to window D is translated and checked, then performed or discarded, with FNERR counting a failure. -/
  | windowDWrite
  /-- HOST_WRITE_FORWARD (R47): A non-relaxed posted write goes to its target once every earlier posted write from the same requester has been acknowledged. -/
  | hostWriteForward
  /-- UNSUPPORTED_REQUEST (R36): An AtomicOp, ATS, PASID or page request at the host port is answered with Unsupported Request. -/
  | unsupportedRequest
  /-- FNERR_WRITE (R39): Any write to FNERR clears FNERR and FNERRADDR. -/
  | fnerrWrite
  /-- LQCFG_WRITE (R41): A write to LQCFG; setting EN checks the configuration and resets the queue registers, and clearing EN stops the reading of records. -/
  | lqcfgWrite
  /-- LQPI_WRITE (R42): A write to LQPI raises the producer index, or is ignored and sets ERR 2. -/
  | lqpiWrite
  /-- SKIP (R43): Writing LQCTL.SKIP completes a halted record as failed and resumes the queue, or clears ERR. -/
  | skip
  /-- LAUNCH_RECORD_READ (R43): The die E scheduler reads and copies the next launch record and checks it; a record that fails halts the queue with an ERR code. -/
  | launchRecordRead
  /-- RECORD_START (R109): Once its waits are met and group entries are free, a launch record starts: group entries are allocated, predecessor counts set, and root nodes placed in the ready pool. -/
  | recordStart
  /-- VF_FLR (R49): A function-level reset of a VF quiesces its partition, fails its incomplete records, and resets its window C registers. -/
  | vfFlr
  /-- PF_FLR (R49): A function-level reset of the PF resets every VF in the same way. -/
  | pfFlr
  /-- OWNER (R56): The first mailbox command fuses the owner ML-DSA-65 public key. -/
  | owner
  /-- INSTALL (R56): A signed mailbox command fills an empty or revoked key slot with a publisher key. -/
  | install
  /-- REVOKE (R56): A signed mailbox command marks an active key slot as revoked. -/
  | revoke
  /-- ACCESS_TABLE_WRITE (R54): A firmware write of an access-table entry governs every request that reaches that target's check after the write. -/
  | accessTableWrite
  /-- PARTMAP_WRITE (R50): A firmware write of PARTMAP changes the classrooms each partition owns. -/
  | partmapWrite
  /-- SIGNATURE_VERIFY_END (R83): When WDONE reaches LIMIT, the security block verifies the signed extent against its key slot and sets VERIFIED on success. -/
  | signatureVerifyEnd
  /-- XLATINV_WRITE (R77): Writing XLATINV with GO = 1 drops every cached translation overlapping the range in the partition. -/
  | xlatinvWrite
  /-- XLATINV_COMPLETE (R77): Once walks that read the old entries have finished, XLATINV.GO clears. -/
  | xlatinvComplete
  /-- RANGE_ENTRY_WRITE (R77): A firmware write of a range entry updates both dies' range stores and invalidates range caches and overlapping TLB entries. -/
  | rangeEntryWrite
  /-- PAGE_WALK_DONE (R76): A page-table walk finishes, fills the TLBs, or raises TRANSLATION_FAULT. -/
  | pageWalkDone
  /-- STREAM_READ_DELIVER (R65): Once WDONE covers a waiting stream read claim, its data is delivered. -/
  | streamReadDeliver
  /-- STREAM_READ_TIMEOUT (R65): A stream read that has waited more than 100 µs completes with error status. -/
  | streamReadTimeout
  /-- RECAST_DRAIN_END (R79): Once earlier accesses and combining buffers for the range are drained, a recast proceeds to rewrite and replicate. -/
  | recastDrainEnd
  /-- RECAST_REWRITE_END (R79): Once the in-place rewrite and replication end, the recast flips the role, releases held accesses, and advances its timeline. -/
  | recastRewriteEnd
  /-- MIGRATION_POLICY (R85): A firmware access-count policy starts migration of a HOME = 1 page by setting MIG and sending closes. -/
  | migrationPolicy
  /-- MIGRATION_PORTS_CLOSED (R85): Once every old-home port has closed, the migration engine copies the page to its new home. -/
  | migrationPortsClosed
  /-- MIGRATION_COPY_DONE (R85): After the copy, the migration engine writes the new page entry, clears MIG, and invalidates the entry. -/
  | migrationCopyDone
  /-- MOVED_COMPLETION (R85): An issuer receiving a moved completion holds its operations to the page, retranslates until MIG = 0, and reissues them in order. -/
  | movedCompletion
  /-- KVGEOM_WRITE (R88): A firmware write of KVGEOM; setting EN checks the geometry and writes the free-list ring. -/
  | kvgeomWrite
  /-- KVQLOGN_WRITE (R87): A write of KVQLOGN clears its written and dropped counts. -/
  | kvqlognWrite
  /-- KVQREL_WRITE (R102): A write of KVQREL returns the named quarantined page to the free list. -/
  | kvqrelWrite
  /-- POOL_MANAGER_REQUEST (R90): The pool manager performs one append, release or replacement request indivisibly, in arrival order. -/
  | poolManagerRequest
  /-- GRAPH_LOAD (R105): Firmware checks and loads a graph image into a partition and returns a handle, or refuses the load. -/
  | graphLoad
  /-- DISPATCH_DECISION (R112): Every 8 ac cycles, a die's scheduler dispatches the first pool node with a free placement, by priority and weighted round robin. -/
  | dispatchDecision
  /-- FREE_CORE_SUMMARY (R112): Every 64 ac cycles, each scheduler sends the other die a summary of its free cores. -/
  | freeCoreSummary
  /-- POOL_MOVE (R112): A node that has waited 2 µs without a placement, while the other die's summary shows one, moves to the other die's pool. -/
  | poolMove
  /-- PLACEMENT_RESERVE (R125): A gang or redundant node that has waited 1 ms reserves a placement. -/
  | placementReserve
  /-- NODE_START (R115): A dispatched node starts on all its seats and replicas in one cycle, with registers reset and operands written. -/
  | nodeStart
  /-- TASK_POOL_INSERT (R119): The scheduler inserts a b.task instance into the pool, or writes status 1 when no entry is free. -/
  | taskPoolInsert
  /-- ROLL_CALL_COMPLETE (R118): When every member is held (and, for swap, shadow writes are performed), PHASE increments, banks swap, members issue, and parked nodes return. -/
  | rollCallComplete
  /-- WATCHDOG_EXPIRY (R149): A node that has not ended or yielded within WDOG × 64 µs forces a swap of its partition and fails with WATCHDOG. -/
  | watchdogExpiry
  /-- STAMP_OVERRUN (R207): A timed group not ready on its target cycle raises STAMP_OVERRUN. -/
  | stampOverrun
  /-- TRAP_ENTRY (R134): After the drain, the sequencer writes the trap registers, sets HM and issues at TVEC, or fails the node (dump or quiesce). -/
  | trapEntry
  /-- ENGINE_FAULT_REPORT (R136): An engine that faults on a command stops it, records progress, holds later commands, and reports an asynchronous trap. -/
  | engineFaultReport
  /-- FORCED_SWAP (R145): The scheduler halts every core of a partition between groups and drains them. -/
  | forcedSwap
  /-- SWAP_QUIESCE_END (R145): Once outstanding fabric and host requests are answered or timed out, each core saves its context to a satchel and the incoming contexts are restored. -/
  | swapQuiesceEnd
  /-- SWAP_RESUME (R147): When firmware returns the partition, swapped nodes resume in one cycle with pending producers rearmed. -/
  | swapResume
  /-- DUMP_WRITTEN (R150): Firmware finishes writing the dump, and the failed node's cores are released. -/
  | dumpWritten
  /-- DUMPACK_WRITE (R151): Writing 1 to DUMPACK.PEND acknowledges the dump. -/
  | dumpackWrite
  /-- HALF_RETENTION_ENTRY (R142): An idle instruction half untouched for 65,536 ac cycles enters DEC-TED retention. -/
  | halfRetentionEntry
  /-- RETENTION_EXIT_END (R142): 256 ac cycles after a write or b.swap finds a half in retention, the half leaves retention and the waiting access proceeds. -/
  | retentionExitEnd
  /-- PRODUCER_FILL (R139): A long-latency producer (SFU, promise return, m.getp, q.fin) writes its empty destination, which becomes full. -/
  | producerFill
  /-- LOAD_DATA_RETURN (R195): Data of a scalar or vector load from memory returns and is written to its register. -/
  | loadDataReturn
  /-- WRITE_ACKNOWLEDGEMENT (R158): A write's acknowledgement reaches the issuer, which may release held release stores. -/
  | writeAcknowledgement
  /-- COMPARE_VERDICT (R182): 24 ac cycles after the last replica arrives, the invigilators agree (the buffer drains and SIG resets) or disagree (mismatch or retirement). -/
  | compareVerdict
  /-- FORWARDED_VALUE_ARRIVE (R178): A value forwarded from the leader arrives at a follower and fills its destination. -/
  | forwardedValueArrive
  /-- ENGINE_COMMAND_START (R205): An engine starts its head command once its register operands are full and any gate is met. -/
  | engineCommandStart
  /-- SLACK_STALL_RELEASE (R206): When DEBT exceeds LIMIT, issue stalls until every command queue empties; DEBT is then reset and issue resumes. -/
  | slackStallRelease
  /-- PROMISE_WRITE (R318): Four ac cycles after a copy command issues, its promise is written into PROM. -/
  | promiseWrite
  /-- COPY_REQUEST_ISSUE (R323): A copy engine sends the next request of a running transfer, reading its source and writing its destination. -/
  | copyRequestIssue
  /-- COPY_COMMAND_COMPLETE (R324): When every request is performed or acknowledged, the command writes its result word, pushes its completion entry, and advances its timeline. -/
  | copyCommandComplete
  /-- SLEEP_WAKE (R317): When CYC reaches a promise's DUE, a held b.sleep issues and either acquires or raises MISSED_PROMISE. -/
  | sleepWake
  /-- TS_UPDATE_ARRIVE (R350): A core's new ts reaches another core over VC3 and may release a waiting q.tlwaitx. -/
  | tsUpdateArrive
  /-- XBAR_ARBITRATE (R380): Each crossbar output grants at most one packet per ac cycle, by age promotion or weighted round robin. -/
  | xbarArbitrate
  /-- XBARWT_WRITE (R379): A write of XBARWT reloads the round-robin counters of every output from the next cycle. -/
  | xbarwtWrite
  /-- SLICE_TAKE_PACKET (R381): A memory slice takes one packet per cycle from its receive buffer, reads first. -/
  | sliceTakePacket
  /-- SLICE_READ_DATA (R381): 40 ac cycles after a read is taken, its data enters the slice port's VC2 queue. -/
  | sliceReadData
  /-- SLICE_WRITE_COMPLETE (R381): A queued write completes after 4 ac cycles, and its acknowledgement enters VC2. -/
  | sliceWriteComplete
  /-- SLICE_REFRESH_START (R382): Once in every 5,850 ac cycles, a slice begins a 96-cycle refresh in which it takes and writes nothing. -/
  | sliceRefreshStart
  /-- SLICE_REFRESH_END (R382): 96 ac cycles after it begins, a slice refresh ends. -/
  | sliceRefreshEnd
  /-- MATRIX_CALL_START (R418): A queued call starts once earlier tm commands are done and its gate and push queue allow it; micro-word 0 executes. -/
  | matrixCallStart
  /-- MATRIX_ROW_COMPLETE (R426): A load-pipe row (or tile-fetch row) completes into its buffer line. -/
  | matrixRowComplete
  /-- MATRIX_CALL_COMPLETE (R419): A call completes: bank rounding, flags, parameter write-back, gate pop and tm advance. -/
  | matrixCallComplete
  /-- ZACC_COMPLETE (R421): 16 ac cycles after it starts, m.zacc completes with the bank zeroed. -/
  | zaccComplete
  /-- ULD_COMPLETE (R421): m.uld completes with the bank converted and written to scratch. -/
  | uldComplete
  /-- GETP_WRITE (R416): A pending m.getp with no running call writes pmN into its destination 2 ac cycles after issue. -/
  | getpWrite
  deriving DecidableEq, Repr

end Sys2Proof
end

