-- ==== Sys2Proof/WellFormed.lean ====
section
/-!
DEFINITION. Which instructions are well formed: the field values the encodings admit
(12_encoding R246 to R255, R262 reasons 5 and 6). `Instr.violation` gives the reason number of R262.
-/

namespace Sys2Proof

/-- The register formats: codes 0 to 16 and 25 (11_formats R221). -/
def isRegFmt (f : Nat) : Bool := f ≤ 16 || f == 25

/-- The flags and completion queue of a C slot: CQ is zero without CQV (reason 5), a scope above 4 is
forbidden (reason 6; 12_encoding R247). -/
def CFields.violation (c : CFields) : Option Nat :=
  if c.cqv = false ∧ c.cq ≠ 0 then some 5
  else if c.scope.toNat > 4 then some 6 else none

/-- The gate of a call: zero fields without GV (reason 5), a count of at least 1 with it (reason 6;
12_encoding R246). -/
def CallFields.violation (c : CallFields) : Option Nat :=
  if c.gv = false ∧ (c.gq ≠ 0 ∨ c.gcnt ≠ 0) then some 5
  else if c.gv = true ∧ c.gcnt = 0 then some 6 else none

/-- The first rule of R262 (reason 5 or 6) that the instruction's fields break. Rows the match does not
name have no field that an encoding could fill wrongly. -/
def Instr.violation : Instr → Option Nat
  | .sFence _ s => if s.toNat > 4 then some 6 else none
  | .bLoopi c _ => if c = 0 then some 6 else none
  | .bTask _ b _ => if b.toNat > 57 then some 6 else none
  | .vCvt _ _ f _ => if isRegFmt f.toNat then none else some 6
  | .vWiden d _ q _ _ => if d.toNat % (if q then 4 else 2) = 0 then none else some 6
  | .vNarrow _ a q _ _ => if a.reg.toNat % (if q then 4 else 2) = 0 then none else some 6
  | .vLred _ _ s t _ => if s.toNat > 5 ∨ t = 0 then some 6 else none
  | .vLbcast _ _ t _ => if t = 0 then some 6 else none
  | .mCall c | .mGang c => c.violation
  | .cCopy c | .cCopyi c | .cGath c | .cScat c | .cFill c | .cPref c | .cRelay c
  | .cDecomp c | .cAccAdd c | .cAccFadd c | .cAccMax c | .cAccMin c | .cAccOr c
  | .cAccAnd c | .cFopAdd c | .cFopMin c | .cFopMax c | .cFopAnd c | .cFopOr c
  | .cFopXor c | .cFopSwap c | .cFopCas c | .cGet c | .cPut c | .cKvput c
  | .cKvapp c | .cKvinv c | .cMigr c => c.violation
  | .cRecast _ _ v q s =>
    if v = false ∧ q ≠ 0 then some 5 else if s.toNat > 4 then some 6 else none
  | .cSbar _ v q x y w =>
    if v = false ∧ q ≠ 0 then some 5 else if x = false ∧ y = false ∧ w = false then some 6 else none
  | .qBar m s => if s = true ∧ m ≠ 0 then some 6 else none
  | .qLift t _ => if t = 0 then some 6 else none
  | .uGate _ n | .uPop _ n => if n = 0 then some 6 else none
  | _ => none

/-- The instruction's fields hold values its encoding admits. -/
def Instr.wf (i : Instr) : Bool := i.violation.isNone

end Sys2Proof
end

