-- ==== Sys2Proof/Decode.lean ====
section
/-!
DEFINITION. The decoder of one slot and of one micro-word, total on any word (12_encoding R239 to R256,
R263, R264), and after it the encoder, written from the same tables. A rejected word is named: reserved
(R256, ILLEGAL_OP) or a reason of ILLEGAL_BUNDLE (R262).
-/

namespace Sys2Proof

/-- Why a slot is no operation: a reserved code (R256), or the reason number of R262. A micro-word has
the same names for a reserved word and for a field that is not as R264 asks. -/
inductive SlotErr where
  | reserved
  | reason (n : Nat)
  deriving DecidableEq, Repr

/-- Accept `i` when the bits that must be zero are zero (R262 reason 5). -/
def zchk (z : Nat) (i : Instr) : Except SlotErr Instr :=
  if z = 0 then .ok i else .error (.reason 5)

/-- A seven-bit source field: the wait bit on top, the register number below (R242). -/
def srcOf (n : Nat) : Src := ⟨bitOf n 6, .ofNat _ (n % 64)⟩

/-- The kind field of s.fence (R250). -/
def fenceOf (n : Nat) : FenceKind :=
  match n with
  | 0 => .acq
  | 1 => .rel
  | 2 => .acqrel
  | _ => .sc

/-- The scalar slots, by their selector [27:21] (12_encoding R239, R250 to R255). -/
def decodeS (w : Nat) : Except SlotErr Instr :=
  match fld w 27 21 with
  | 0 => zchk (fld w 0 0) (.sAdd (.ofNat _ (fld w 20 15)) (srcOf (fld w 14 8)) (srcOf (fld w 7 1)))
  | 1 => zchk (fld w 0 0) (.sSub (.ofNat _ (fld w 20 15)) (srcOf (fld w 14 8)) (srcOf (fld w 7 1)))
  | 2 => zchk (fld w 0 0) (.sMul (.ofNat _ (fld w 20 15)) (srcOf (fld w 14 8)) (srcOf (fld w 7 1)))
  | 3 => zchk (fld w 0 0) (.sMulh (.ofNat _ (fld w 20 15)) (srcOf (fld w 14 8)) (srcOf (fld w 7 1)))
  | 4 => zchk (fld w 0 0) (.sMulhn (.ofNat _ (fld w 20 15)) (srcOf (fld w 14 8)) (srcOf (fld w 7 1)))
  | 5 => zchk (fld w 0 0) (.sDiv (.ofNat _ (fld w 20 15)) (srcOf (fld w 14 8)) (srcOf (fld w 7 1)))
  | 6 => zchk (fld w 0 0) (.sDivn (.ofNat _ (fld w 20 15)) (srcOf (fld w 14 8)) (srcOf (fld w 7 1)))
  | 7 => zchk (fld w 0 0) (.sRem (.ofNat _ (fld w 20 15)) (srcOf (fld w 14 8)) (srcOf (fld w 7 1)))
  | 8 => zchk (fld w 0 0) (.sRemn (.ofNat _ (fld w 20 15)) (srcOf (fld w 14 8)) (srcOf (fld w 7 1)))
  | 9 => zchk (fld w 0 0) (.sAnd (.ofNat _ (fld w 20 15)) (srcOf (fld w 14 8)) (srcOf (fld w 7 1)))
  | 10 => zchk (fld w 0 0) (.sOr (.ofNat _ (fld w 20 15)) (srcOf (fld w 14 8)) (srcOf (fld w 7 1)))
  | 11 => zchk (fld w 0 0) (.sXor (.ofNat _ (fld w 20 15)) (srcOf (fld w 14 8)) (srcOf (fld w 7 1)))
  | 12 => zchk (fld w 0 0) (.sAndn (.ofNat _ (fld w 20 15)) (srcOf (fld w 14 8)) (srcOf (fld w 7 1)))
  | 13 => zchk (fld w 0 0) (.sSll (.ofNat _ (fld w 20 15)) (srcOf (fld w 14 8)) (srcOf (fld w 7 1)))
  | 14 => zchk (fld w 0 0) (.sSrl (.ofNat _ (fld w 20 15)) (srcOf (fld w 14 8)) (srcOf (fld w 7 1)))
  | 15 => zchk (fld w 0 0) (.sSra (.ofNat _ (fld w 20 15)) (srcOf (fld w 14 8)) (srcOf (fld w 7 1)))
  | 16 => zchk (fld w 0 0) (.sMin (.ofNat _ (fld w 20 15)) (srcOf (fld w 14 8)) (srcOf (fld w 7 1)))
  | 17 => zchk (fld w 0 0) (.sMax (.ofNat _ (fld w 20 15)) (srcOf (fld w 14 8)) (srcOf (fld w 7 1)))
  | 18 => zchk (fld w 0 0) (.sMinn (.ofNat _ (fld w 20 15)) (srcOf (fld w 14 8)) (srcOf (fld w 7 1)))
  | 19 => zchk (fld w 0 0) (.sMaxn (.ofNat _ (fld w 20 15)) (srcOf (fld w 14 8)) (srcOf (fld w 7 1)))
  | 20 => zchk (fld w 0 0) (.sSlt (.ofNat _ (fld w 20 15)) (srcOf (fld w 14 8)) (srcOf (fld w 7 1)))
  | 21 => zchk (fld w 0 0) (.sSltn (.ofNat _ (fld w 20 15)) (srcOf (fld w 14 8)) (srcOf (fld w 7 1)))
  | 22 => zchk (fld w 0 0) (.sSel (.ofNat _ (fld w 20 15)) (srcOf (fld w 14 8)) (srcOf (fld w 7 1)))
  | 23 => zchk (fld w 7 0) (.sMov (.ofNat _ (fld w 20 15)) (srcOf (fld w 14 8)))
  | 24 => zchk (fld w 7 0) (.sClz (.ofNat _ (fld w 20 15)) (srcOf (fld w 14 8)))
  | 25 => zchk (fld w 7 0) (.sCtz (.ofNat _ (fld w 20 15)) (srcOf (fld w 14 8)))
  | 26 => zchk (fld w 7 0) (.sPopc (.ofNat _ (fld w 20 15)) (srcOf (fld w 14 8)))
  | 27 => zchk (fld w 7 0) (.sBswap (.ofNat _ (fld w 20 15)) (srcOf (fld w 14 8)))
  | 32 => .ok (.sAddi (.ofNat _ (fld w 20 15)) (srcOf (fld w 14 8)) (.ofNat _ (fld w 7 0)))
  | 33 => .ok (.sMuli (.ofNat _ (fld w 20 15)) (srcOf (fld w 14 8)) (.ofNat _ (fld w 7 0)))
  | 34 => .ok (.sAndi (.ofNat _ (fld w 20 15)) (srcOf (fld w 14 8)) (.ofNat _ (fld w 7 0)))
  | 35 => .ok (.sOri (.ofNat _ (fld w 20 15)) (srcOf (fld w 14 8)) (.ofNat _ (fld w 7 0)))
  | 36 => .ok (.sXori (.ofNat _ (fld w 20 15)) (srcOf (fld w 14 8)) (.ofNat _ (fld w 7 0)))
  | 37 => zchk (fld w 7 6) (.sSlli (.ofNat _ (fld w 20 15)) (srcOf (fld w 14 8)) (.ofNat _ (fld w 5 0)))
  | 38 => zchk (fld w 7 6) (.sSrli (.ofNat _ (fld w 20 15)) (srcOf (fld w 14 8)) (.ofNat _ (fld w 5 0)))
  | 39 => zchk (fld w 7 6) (.sSrai (.ofNat _ (fld w 20 15)) (srcOf (fld w 14 8)) (.ofNat _ (fld w 5 0)))
  | 40 => .ok (.sSlti (.ofNat _ (fld w 20 15)) (srcOf (fld w 14 8)) (.ofNat _ (fld w 7 0)))
  | 41 => .ok (.sSltni (.ofNat _ (fld w 20 15)) (srcOf (fld w 14 8)) (.ofNat _ (fld w 7 0)))
  | 42 => zchk (fld w 14 8) (.sLi (.ofNat _ (fld w 20 15)) (.ofNat _ (fld w 7 0)))
  | 43 => .ok (.sLih (.ofNat _ (fld w 20 15)) (srcOf (fld w 14 8)) (.ofNat _ (fld w 7 0)))
  | 64 => .ok (.sLdB (.ofNat _ (fld w 20 15)) (srcOf (fld w 14 8)) (.ofNat _ (fld w 7 0)))
  | 65 => .ok (.sLdBn (.ofNat _ (fld w 20 15)) (srcOf (fld w 14 8)) (.ofNat _ (fld w 7 0)))
  | 66 => .ok (.sLdH (.ofNat _ (fld w 20 15)) (srcOf (fld w 14 8)) (.ofNat _ (fld w 7 0)))
  | 67 => .ok (.sLdHn (.ofNat _ (fld w 20 15)) (srcOf (fld w 14 8)) (.ofNat _ (fld w 7 0)))
  | 68 => .ok (.sLdW (.ofNat _ (fld w 20 15)) (srcOf (fld w 14 8)) (.ofNat _ (fld w 7 0)))
  | 69 => .ok (.sLdWn (.ofNat _ (fld w 20 15)) (srcOf (fld w 14 8)) (.ofNat _ (fld w 7 0)))
  | 70 => .ok (.sLdD (.ofNat _ (fld w 20 15)) (srcOf (fld w 14 8)) (.ofNat _ (fld w 7 0)))
  | 71 => .ok (.sStB (.ofNat _ (fld w 20 15)) (srcOf (fld w 14 8)) (.ofNat _ (fld w 7 0)))
  | 72 => .ok (.sStH (.ofNat _ (fld w 20 15)) (srcOf (fld w 14 8)) (.ofNat _ (fld w 7 0)))
  | 73 => .ok (.sStW (.ofNat _ (fld w 20 15)) (srcOf (fld w 14 8)) (.ofNat _ (fld w 7 0)))
  | 74 => .ok (.sStD (.ofNat _ (fld w 20 15)) (srcOf (fld w 14 8)) (.ofNat _ (fld w 7 0)))
  | 75 => .ok (.sLdAcqW (.ofNat _ (fld w 20 15)) (srcOf (fld w 14 8)) (.ofNat _ (fld w 7 0)))
  | 76 => .ok (.sLdAcqD (.ofNat _ (fld w 20 15)) (srcOf (fld w 14 8)) (.ofNat _ (fld w 7 0)))
  | 77 => .ok (.sStRelW (.ofNat _ (fld w 20 15)) (srcOf (fld w 14 8)) (.ofNat _ (fld w 7 0)))
  | 78 => .ok (.sStRelD (.ofNat _ (fld w 20 15)) (srcOf (fld w 14 8)) (.ofNat _ (fld w 7 0)))
  | 80 => zchk (fld w 20 18 + fld w 0 0) (.sCmpEq (.ofNat _ (fld w 17 15)) (srcOf (fld w 14 8)) (srcOf (fld w 7 1)))
  | 81 => zchk (fld w 20 18 + fld w 0 0) (.sCmpNe (.ofNat _ (fld w 17 15)) (srcOf (fld w 14 8)) (srcOf (fld w 7 1)))
  | 82 => zchk (fld w 20 18 + fld w 0 0) (.sCmpLt (.ofNat _ (fld w 17 15)) (srcOf (fld w 14 8)) (srcOf (fld w 7 1)))
  | 83 => zchk (fld w 20 18 + fld w 0 0) (.sCmpGe (.ofNat _ (fld w 17 15)) (srcOf (fld w 14 8)) (srcOf (fld w 7 1)))
  | 84 => zchk (fld w 20 18 + fld w 0 0) (.sCmpLtn (.ofNat _ (fld w 17 15)) (srcOf (fld w 14 8)) (srcOf (fld w 7 1)))
  | 85 => zchk (fld w 20 18 + fld w 0 0) (.sCmpGen (.ofNat _ (fld w 17 15)) (srcOf (fld w 14 8)) (srcOf (fld w 7 1)))
  | 86 => zchk (fld w 20 18) (.sCmpiEq (.ofNat _ (fld w 17 15)) (srcOf (fld w 14 8)) (.ofNat _ (fld w 7 0)))
  | 87 => zchk (fld w 20 18) (.sCmpiNe (.ofNat _ (fld w 17 15)) (srcOf (fld w 14 8)) (.ofNat _ (fld w 7 0)))
  | 88 => zchk (fld w 20 18) (.sCmpiLt (.ofNat _ (fld w 17 15)) (srcOf (fld w 14 8)) (.ofNat _ (fld w 7 0)))
  | 89 => zchk (fld w 20 18) (.sCmpiGe (.ofNat _ (fld w 17 15)) (srcOf (fld w 14 8)) (.ofNat _ (fld w 7 0)))
  | 96 => zchk (fld w 20 5) (.sFence (fenceOf (fld w 4 3)) (.ofNat _ (fld w 2 0)))
  | 97 => zchk (fld w 14 8) (.sCsrr (.ofNat _ (fld w 20 15)) (.ofNat _ (fld w 7 0)))
  | 98 => .ok (.sCsrw (.ofNat _ (fld w 20 15)) (srcOf (fld w 14 8)) (.ofNat _ (fld w 7 0)))
  | 99 => .ok (.sCsrs (.ofNat _ (fld w 20 15)) (srcOf (fld w 14 8)) (.ofNat _ (fld w 7 0)))
  | 100 => .ok (.sCsrc (.ofNat _ (fld w 20 15)) (srcOf (fld w 14 8)) (.ofNat _ (fld w 7 0)))
  | 101 => zchk (fld w 14 0) (.sRdcyc (.ofNat _ (fld w 20 15)))
  | _ => .error .reserved

/-- The branch, control and system slots, by their selector [27:22] (12_encoding R239, R250 to R255). -/
def decodeB (w : Nat) : Except SlotErr Instr :=
  match fld w 27 22 with
  | 0 => zchk (fld w 21 18) (.bBr (.ofNat _ (fld w 17 0)))
  | 1 => .ok (.bBp (.ofNat _ (fld w 21 19)) (bitOf w 18) (.ofNat _ (fld w 17 0)))
  | 2 => zchk (fld w 21 18) (.bJal (.ofNat _ (fld w 17 0)))
  | 3 => zchk (fld w 21 18 + fld w 11 0) (.bJr (.ofNat _ (fld w 17 12)))
  | 4 => zchk (fld w 21 18) (.bLoop (.ofNat _ (fld w 17 12)) (.ofNat _ (fld w 11 0)))
  | 5 => zchk (fld w 21 18) (.bLoopi (.ofNat _ (fld w 17 10)) (.ofNat _ (fld w 9 0)))
  | 6 => .ok (.bTrap (.ofNat _ (fld w 21 19)) (bitOf w 18) (.ofNat _ (fld w 17 0)))
  | 7 => zchk (fld w 21 0) .bTret
  | 8 => zchk (fld w 21 0) .bDone
  | 9 => zchk (fld w 21 0) .bYield
  | 10 => zchk (fld w 21 0) .bTrig
  | 11 => zchk (fld w 21 18) (.bTask (.ofNat _ (fld w 17 12)) (.ofNat _ (fld w 11 6)) (.ofNat _ (fld w 5 0)))
  | 12 => zchk (fld w 21 12) (.bSwap (.ofNat _ (fld w 11 0)))
  | 13 => zchk (fld w 21 0) .bJoin
  | 14 => zchk (fld w 21 18 + fld w 11 0) (.bSleep (.ofNat _ (fld w 17 12)))
  | 15 => zchk (fld w 21 2) (.bPark (.ofNat _ (fld w 1 0)))
  | _ => .error .reserved

/-- The vector slots, by their selector [27:21] (12_encoding R239, R250 to R255). -/
def decodeV (w : Nat) : Except SlotErr Instr :=
  match fld w 27 21 with
  | 0 => .ok (.vFadd (.ofNat _ (fld w 20 15)) (srcOf (fld w 14 8)) (srcOf (fld w 7 1)) (bitOf w 0))
  | 1 => .ok (.vFsub (.ofNat _ (fld w 20 15)) (srcOf (fld w 14 8)) (srcOf (fld w 7 1)) (bitOf w 0))
  | 2 => .ok (.vFmul (.ofNat _ (fld w 20 15)) (srcOf (fld w 14 8)) (srcOf (fld w 7 1)) (bitOf w 0))
  | 3 => .ok (.vFma (.ofNat _ (fld w 20 15)) (srcOf (fld w 14 8)) (srcOf (fld w 7 1)) (bitOf w 0))
  | 4 => .ok (.vFms (.ofNat _ (fld w 20 15)) (srcOf (fld w 14 8)) (srcOf (fld w 7 1)) (bitOf w 0))
  | 5 => .ok (.vFmin (.ofNat _ (fld w 20 15)) (srcOf (fld w 14 8)) (srcOf (fld w 7 1)) (bitOf w 0))
  | 6 => .ok (.vFmax (.ofNat _ (fld w 20 15)) (srcOf (fld w 14 8)) (srcOf (fld w 7 1)) (bitOf w 0))
  | 7 => zchk (fld w 7 1) (.vFabs (.ofNat _ (fld w 20 15)) (srcOf (fld w 14 8)) (bitOf w 0))
  | 8 => zchk (fld w 7 1) (.vFneg (.ofNat _ (fld w 20 15)) (srcOf (fld w 14 8)) (bitOf w 0))
  | 9 => zchk (fld w 20 18 + fld w 0 0) (.vFcmpEq (.ofNat _ (fld w 17 15)) (srcOf (fld w 14 8)) (srcOf (fld w 7 1)))
  | 10 => zchk (fld w 20 18 + fld w 0 0) (.vFcmpLt (.ofNat _ (fld w 17 15)) (srcOf (fld w 14 8)) (srcOf (fld w 7 1)))
  | 11 => zchk (fld w 20 18 + fld w 0 0) (.vFcmpLe (.ofNat _ (fld w 17 15)) (srcOf (fld w 14 8)) (srcOf (fld w 7 1)))
  | 12 => zchk (fld w 20 18 + fld w 0 0) (.vFcmpUn (.ofNat _ (fld w 17 15)) (srcOf (fld w 14 8)) (srcOf (fld w 7 1)))
  | 16 => .ok (.vAdd (.ofNat _ (fld w 20 15)) (srcOf (fld w 14 8)) (srcOf (fld w 7 1)) (bitOf w 0))
  | 17 => .ok (.vSub (.ofNat _ (fld w 20 15)) (srcOf (fld w 14 8)) (srcOf (fld w 7 1)) (bitOf w 0))
  | 18 => .ok (.vMul (.ofNat _ (fld w 20 15)) (srcOf (fld w 14 8)) (srcOf (fld w 7 1)) (bitOf w 0))
  | 19 => .ok (.vMulh (.ofNat _ (fld w 20 15)) (srcOf (fld w 14 8)) (srcOf (fld w 7 1)) (bitOf w 0))
  | 20 => .ok (.vMulhn (.ofNat _ (fld w 20 15)) (srcOf (fld w 14 8)) (srcOf (fld w 7 1)) (bitOf w 0))
  | 21 => .ok (.vAnd (.ofNat _ (fld w 20 15)) (srcOf (fld w 14 8)) (srcOf (fld w 7 1)) (bitOf w 0))
  | 22 => .ok (.vOr (.ofNat _ (fld w 20 15)) (srcOf (fld w 14 8)) (srcOf (fld w 7 1)) (bitOf w 0))
  | 23 => .ok (.vXor (.ofNat _ (fld w 20 15)) (srcOf (fld w 14 8)) (srcOf (fld w 7 1)) (bitOf w 0))
  | 24 => .ok (.vAndn (.ofNat _ (fld w 20 15)) (srcOf (fld w 14 8)) (srcOf (fld w 7 1)) (bitOf w 0))
  | 25 => .ok (.vShl (.ofNat _ (fld w 20 15)) (srcOf (fld w 14 8)) (srcOf (fld w 7 1)) (bitOf w 0))
  | 26 => .ok (.vShr (.ofNat _ (fld w 20 15)) (srcOf (fld w 14 8)) (srcOf (fld w 7 1)) (bitOf w 0))
  | 27 => .ok (.vSra (.ofNat _ (fld w 20 15)) (srcOf (fld w 14 8)) (srcOf (fld w 7 1)) (bitOf w 0))
  | 28 => .ok (.vMin (.ofNat _ (fld w 20 15)) (srcOf (fld w 14 8)) (srcOf (fld w 7 1)) (bitOf w 0))
  | 29 => .ok (.vMax (.ofNat _ (fld w 20 15)) (srcOf (fld w 14 8)) (srcOf (fld w 7 1)) (bitOf w 0))
  | 30 => .ok (.vMinn (.ofNat _ (fld w 20 15)) (srcOf (fld w 14 8)) (srcOf (fld w 7 1)) (bitOf w 0))
  | 31 => .ok (.vMaxn (.ofNat _ (fld w 20 15)) (srcOf (fld w 14 8)) (srcOf (fld w 7 1)) (bitOf w 0))
  | 32 => zchk (fld w 7 1) (.vAbs (.ofNat _ (fld w 20 15)) (srcOf (fld w 14 8)) (bitOf w 0))
  | 33 => zchk (fld w 20 18 + fld w 0 0) (.vIcmpEq (.ofNat _ (fld w 17 15)) (srcOf (fld w 14 8)) (srcOf (fld w 7 1)))
  | 34 => zchk (fld w 20 18 + fld w 0 0) (.vIcmpLt (.ofNat _ (fld w 17 15)) (srcOf (fld w 14 8)) (srcOf (fld w 7 1)))
  | 35 => zchk (fld w 20 18 + fld w 0 0) (.vIcmpLtn (.ofNat _ (fld w 17 15)) (srcOf (fld w 14 8)) (srcOf (fld w 7 1)))
  | 36 => .ok (.vAddsat (.ofNat _ (fld w 20 15)) (srcOf (fld w 14 8)) (srcOf (fld w 7 1)) (bitOf w 0))
  | 37 => .ok (.vSubsat (.ofNat _ (fld w 20 15)) (srcOf (fld w 14 8)) (srcOf (fld w 7 1)) (bitOf w 0))
  | 40 => zchk (fld w 7 1) (.vMov (.ofNat _ (fld w 20 15)) (srcOf (fld w 14 8)) (bitOf w 0))
  | 41 => .ok (.vSel (.ofNat _ (fld w 20 15)) (srcOf (fld w 14 8)) (srcOf (fld w 7 1)) (bitOf w 0))
  | 42 => zchk (fld w 7 1) (.vBcast (.ofNat _ (fld w 20 15)) (srcOf (fld w 14 8)) (bitOf w 0))
  | 43 => .ok (.vIns (.ofNat _ (fld w 20 15)) (srcOf (fld w 14 8)) (srcOf (fld w 7 1)) (bitOf w 0))
  | 44 => .ok (.vExt (.ofNat _ (fld w 20 15)) (srcOf (fld w 14 8)) (srcOf (fld w 7 1)) (bitOf w 0))
  | 45 => zchk (fld w 14 1) (.vIota (.ofNat _ (fld w 20 15)) (bitOf w 0))
  | 46 => .ok (.vPerm (.ofNat _ (fld w 20 15)) (srcOf (fld w 14 8)) (srcOf (fld w 7 1)) (bitOf w 0))
  | 47 => .ok (.vRot (.ofNat _ (fld w 20 15)) (srcOf (fld w 14 8)) (srcOf (fld w 7 1)) (bitOf w 0))
  | 48 => .ok (.vZip (.ofNat _ (fld w 20 15)) (srcOf (fld w 14 8)) (srcOf (fld w 7 1)) (bitOf w 0))
  | 49 => .ok (.vUnzip (.ofNat _ (fld w 20 15)) (srcOf (fld w 14 8)) (srcOf (fld w 7 1)) (bitOf w 0))
  | 50 => zchk (fld w 7 6) (.vCvt (.ofNat _ (fld w 20 15)) (srcOf (fld w 14 8)) (.ofNat _ (fld w 5 1)) (bitOf w 0))
  | 51 => zchk (fld w 7 7) (.vWiden (.ofNat _ (fld w 20 15)) (srcOf (fld w 14 8)) (bitOf w 6) (.ofNat _ (fld w 5 1)) (bitOf w 0))
  | 52 => zchk (fld w 7 7) (.vNarrow (.ofNat _ (fld w 20 15)) (srcOf (fld w 14 8)) (bitOf w 6) (.ofNat _ (fld w 5 1)) (bitOf w 0))
  | 53 => zchk (fld w 7 1) (.vPack6 (.ofNat _ (fld w 20 15)) (srcOf (fld w 14 8)) (bitOf w 0))
  | 54 => zchk (fld w 7 1) (.vUnpack6 (.ofNat _ (fld w 20 15)) (srcOf (fld w 14 8)) (bitOf w 0))
  | 55 => zchk (fld w 7 1) (.vPackq4 (.ofNat _ (fld w 20 15)) (srcOf (fld w 14 8)) (bitOf w 0))
  | 56 => zchk (fld w 7 1) (.vUnpackq4 (.ofNat _ (fld w 20 15)) (srcOf (fld w 14 8)) (bitOf w 0))
  | 57 => zchk (fld w 20 15 + fld w 7 0) (.vSetfmt (srcOf (fld w 14 8)))
  | 60 => zchk (fld w 7 1) (.vRadd (.ofNat _ (fld w 20 15)) (srcOf (fld w 14 8)) (bitOf w 0))
  | 61 => zchk (fld w 7 1) (.vRmax (.ofNat _ (fld w 20 15)) (srcOf (fld w 14 8)) (bitOf w 0))
  | 62 => zchk (fld w 7 1) (.vRmin (.ofNat _ (fld w 20 15)) (srcOf (fld w 14 8)) (bitOf w 0))
  | 63 => zchk (fld w 7 1) (.vRfadd (.ofNat _ (fld w 20 15)) (srcOf (fld w 14 8)) (bitOf w 0))
  | 64 => zchk (fld w 7 1) (.vRfmax (.ofNat _ (fld w 20 15)) (srcOf (fld w 14 8)) (bitOf w 0))
  | 65 => zchk (fld w 7 1) (.vRfmin (.ofNat _ (fld w 20 15)) (srcOf (fld w 14 8)) (bitOf w 0))
  | 66 => zchk (fld w 7 1) (.vScanAdd (.ofNat _ (fld w 20 15)) (srcOf (fld w 14 8)) (bitOf w 0))
  | 67 => zchk (fld w 7 1) (.vScanFadd (.ofNat _ (fld w 20 15)) (srcOf (fld w 14 8)) (bitOf w 0))
  | 72 => zchk (fld w 7 1) (.vRcp (.ofNat _ (fld w 20 15)) (srcOf (fld w 14 8)) (bitOf w 0))
  | 73 => zchk (fld w 7 1) (.vRsqrt (.ofNat _ (fld w 20 15)) (srcOf (fld w 14 8)) (bitOf w 0))
  | 74 => zchk (fld w 7 1) (.vSqrt (.ofNat _ (fld w 20 15)) (srcOf (fld w 14 8)) (bitOf w 0))
  | 75 => zchk (fld w 7 1) (.vExp2 (.ofNat _ (fld w 20 15)) (srcOf (fld w 14 8)) (bitOf w 0))
  | 76 => zchk (fld w 7 1) (.vLog2 (.ofNat _ (fld w 20 15)) (srcOf (fld w 14 8)) (bitOf w 0))
  | 77 => zchk (fld w 7 1) (.vTanh (.ofNat _ (fld w 20 15)) (srcOf (fld w 14 8)) (bitOf w 0))
  | 78 => zchk (fld w 7 1) (.vErf (.ofNat _ (fld w 20 15)) (srcOf (fld w 14 8)) (bitOf w 0))
  | 80 => .ok (.vLd (.ofNat _ (fld w 20 15)) (srcOf (fld w 14 8)) (.ofNat _ (fld w 7 1)) (bitOf w 0))
  | 81 => zchk (fld w 0 0) (.vSt (.ofNat _ (fld w 20 15)) (srcOf (fld w 14 8)) (.ofNat _ (fld w 7 1)))
  | 82 => .ok (.vLdx (.ofNat _ (fld w 20 15)) (srcOf (fld w 14 8)) (srcOf (fld w 7 1)) (bitOf w 0))
  | 83 => zchk (fld w 0 0) (.vStx (.ofNat _ (fld w 20 15)) (srcOf (fld w 14 8)) (srcOf (fld w 7 1)))
  | 84 => .ok (.vLds (.ofNat _ (fld w 20 15)) (srcOf (fld w 14 8)) (srcOf (fld w 7 1)) (bitOf w 0))
  | 85 => zchk (fld w 0 0) (.vSts (.ofNat _ (fld w 20 15)) (srcOf (fld w 14 8)) (srcOf (fld w 7 1)))
  | 86 => zchk (fld w 4 1) (.vRda (.ofNat _ (fld w 20 15)) (srcOf (fld w 14 8)) (.ofNat _ (fld w 7 5)) (bitOf w 0))
  | 87 => zchk (fld w 4 0) (.vWra (.ofNat _ (fld w 20 15)) (srcOf (fld w 14 8)) (.ofNat _ (fld w 7 5)))
  | 88 => zchk (fld w 4 0) (.vAdda (.ofNat _ (fld w 20 15)) (srcOf (fld w 14 8)) (.ofNat _ (fld w 7 5)))
  | 89 => zchk (fld w 14 12 + fld w 7 1) (.vQpop (.ofNat _ (fld w 20 15)) (.ofNat _ (fld w 11 8)) (bitOf w 0))
  | 90 => zchk (fld w 20 19 + fld w 7 0) (.vQpush (.ofNat _ (fld w 18 15)) (srcOf (fld w 14 8)))
  | 96 => zchk (fld w 20 18 + fld w 14 11 + fld w 7 4 + fld w 0 0) (.vKand (.ofNat _ (fld w 17 15)) (.ofNat _ (fld w 10 8)) (.ofNat _ (fld w 3 1)))
  | 97 => zchk (fld w 20 18 + fld w 14 11 + fld w 7 4 + fld w 0 0) (.vKor (.ofNat _ (fld w 17 15)) (.ofNat _ (fld w 10 8)) (.ofNat _ (fld w 3 1)))
  | 98 => zchk (fld w 20 18 + fld w 14 11 + fld w 7 4 + fld w 0 0) (.vKxor (.ofNat _ (fld w 17 15)) (.ofNat _ (fld w 10 8)) (.ofNat _ (fld w 3 1)))
  | 99 => zchk (fld w 20 18 + fld w 14 11 + fld w 7 0) (.vKnot (.ofNat _ (fld w 17 15)) (.ofNat _ (fld w 10 8)))
  | 100 => zchk (fld w 14 11 + fld w 7 0) (.vKpopc (.ofNat _ (fld w 20 15)) (.ofNat _ (fld w 10 8)))
  | 101 => zchk (fld w 14 11 + fld w 7 0) (.vKfirst (.ofNat _ (fld w 20 15)) (.ofNat _ (fld w 10 8)))
  | 102 => zchk (fld w 20 18 + fld w 7 0) (.vKset (.ofNat _ (fld w 17 15)) (srcOf (fld w 14 8)))
  | 112 => zchk (fld w 7 6) (.vLred (.ofNat _ (fld w 20 15)) (srcOf (fld w 14 8)) (.ofNat _ (fld w 5 3)) (.ofNat _ (fld w 2 1)) (bitOf w 0))
  | 113 => .ok (.vLpick (.ofNat _ (fld w 20 15)) (srcOf (fld w 14 8)) (srcOf (fld w 7 1)) (bitOf w 0))
  | 114 => zchk (fld w 7 3) (.vLbcast (.ofNat _ (fld w 20 15)) (srcOf (fld w 14 8)) (.ofNat _ (fld w 2 1)) (bitOf w 0))
  | _ => .error .reserved

/-- The matrix slots, by their selector [27:24] (12_encoding R239, R250 to R255). -/
def decodeM (w : Nat) : Except SlotErr Instr :=
  match fld w 27 24 with
  | 0 => zchk (fld w 3 1) (.mCall ⟨(.ofNat _ (fld w 23 16)), (.ofNat _ (fld w 15 13)), (bitOf w 12), (.ofNat _ (fld w 11 8)), (.ofNat _ (fld w 7 4)), (bitOf w 0)⟩)
  | 1 => zchk (fld w 14 0) (.mSetp (.ofNat _ (fld w 23 21)) (.ofNat _ (fld w 20 15)))
  | 2 => zchk (fld w 14 0) (.mGetp (.ofNat _ (fld w 23 21)) (.ofNat _ (fld w 20 15)))
  | 3 => zchk (fld w 23 16 + fld w 12 0) (.mZacc (.ofNat _ (fld w 15 13)))
  | 4 => zchk (fld w 23 16 + fld w 1 0) (.mUld (.ofNat _ (fld w 15 13)) (.ofNat _ (fld w 12 7)) (.ofNat _ (fld w 6 2)))
  | 5 => zchk (fld w 3 1) (.mGang ⟨(.ofNat _ (fld w 23 16)), (.ofNat _ (fld w 15 13)), (bitOf w 12), (.ofNat _ (fld w 11 8)), (.ofNat _ (fld w 7 4)), (bitOf w 0)⟩)
  | _ => .error .reserved

/-- The copy slots, by their selector [27:22] (12_encoding R239, R250 to R255). -/
def decodeC (w : Nat) : Except SlotErr Instr :=
  match fld w 27 22 with
  | 0 => zchk (fld w 1 0) (.cCopy ⟨(.ofNat _ (fld w 21 18)), (.ofNat _ (fld w 17 12)), (bitOf w 11), (.ofNat _ (fld w 10 7)), (bitOf w 6), (bitOf w 5), (.ofNat _ (fld w 4 2))⟩)
  | 1 => zchk (fld w 1 0) (.cCopyi ⟨(.ofNat _ (fld w 21 18)), (.ofNat _ (fld w 17 12)), (bitOf w 11), (.ofNat _ (fld w 10 7)), (bitOf w 6), (bitOf w 5), (.ofNat _ (fld w 4 2))⟩)
  | 2 => zchk (fld w 1 0) (.cGath ⟨(.ofNat _ (fld w 21 18)), (.ofNat _ (fld w 17 12)), (bitOf w 11), (.ofNat _ (fld w 10 7)), (bitOf w 6), (bitOf w 5), (.ofNat _ (fld w 4 2))⟩)
  | 3 => zchk (fld w 1 0) (.cScat ⟨(.ofNat _ (fld w 21 18)), (.ofNat _ (fld w 17 12)), (bitOf w 11), (.ofNat _ (fld w 10 7)), (bitOf w 6), (bitOf w 5), (.ofNat _ (fld w 4 2))⟩)
  | 4 => zchk (fld w 1 0) (.cFill ⟨(.ofNat _ (fld w 21 18)), (.ofNat _ (fld w 17 12)), (bitOf w 11), (.ofNat _ (fld w 10 7)), (bitOf w 6), (bitOf w 5), (.ofNat _ (fld w 4 2))⟩)
  | 5 => zchk (fld w 1 0) (.cPref ⟨(.ofNat _ (fld w 21 18)), (.ofNat _ (fld w 17 12)), (bitOf w 11), (.ofNat _ (fld w 10 7)), (bitOf w 6), (bitOf w 5), (.ofNat _ (fld w 4 2))⟩)
  | 6 => zchk (fld w 1 0) (.cRelay ⟨(.ofNat _ (fld w 21 18)), (.ofNat _ (fld w 17 12)), (bitOf w 11), (.ofNat _ (fld w 10 7)), (bitOf w 6), (bitOf w 5), (.ofNat _ (fld w 4 2))⟩)
  | 7 => zchk (fld w 1 0) (.cDecomp ⟨(.ofNat _ (fld w 21 18)), (.ofNat _ (fld w 17 12)), (bitOf w 11), (.ofNat _ (fld w 10 7)), (bitOf w 6), (bitOf w 5), (.ofNat _ (fld w 4 2))⟩)
  | 8 => zchk (fld w 1 0) (.cAccAdd ⟨(.ofNat _ (fld w 21 18)), (.ofNat _ (fld w 17 12)), (bitOf w 11), (.ofNat _ (fld w 10 7)), (bitOf w 6), (bitOf w 5), (.ofNat _ (fld w 4 2))⟩)
  | 9 => zchk (fld w 1 0) (.cAccFadd ⟨(.ofNat _ (fld w 21 18)), (.ofNat _ (fld w 17 12)), (bitOf w 11), (.ofNat _ (fld w 10 7)), (bitOf w 6), (bitOf w 5), (.ofNat _ (fld w 4 2))⟩)
  | 10 => zchk (fld w 1 0) (.cAccMax ⟨(.ofNat _ (fld w 21 18)), (.ofNat _ (fld w 17 12)), (bitOf w 11), (.ofNat _ (fld w 10 7)), (bitOf w 6), (bitOf w 5), (.ofNat _ (fld w 4 2))⟩)
  | 11 => zchk (fld w 1 0) (.cAccMin ⟨(.ofNat _ (fld w 21 18)), (.ofNat _ (fld w 17 12)), (bitOf w 11), (.ofNat _ (fld w 10 7)), (bitOf w 6), (bitOf w 5), (.ofNat _ (fld w 4 2))⟩)
  | 12 => zchk (fld w 1 0) (.cAccOr ⟨(.ofNat _ (fld w 21 18)), (.ofNat _ (fld w 17 12)), (bitOf w 11), (.ofNat _ (fld w 10 7)), (bitOf w 6), (bitOf w 5), (.ofNat _ (fld w 4 2))⟩)
  | 13 => zchk (fld w 1 0) (.cAccAnd ⟨(.ofNat _ (fld w 21 18)), (.ofNat _ (fld w 17 12)), (bitOf w 11), (.ofNat _ (fld w 10 7)), (bitOf w 6), (bitOf w 5), (.ofNat _ (fld w 4 2))⟩)
  | 16 => zchk (fld w 1 0) (.cFopAdd ⟨(.ofNat _ (fld w 21 18)), (.ofNat _ (fld w 17 12)), (bitOf w 11), (.ofNat _ (fld w 10 7)), (bitOf w 6), (bitOf w 5), (.ofNat _ (fld w 4 2))⟩)
  | 17 => zchk (fld w 1 0) (.cFopMin ⟨(.ofNat _ (fld w 21 18)), (.ofNat _ (fld w 17 12)), (bitOf w 11), (.ofNat _ (fld w 10 7)), (bitOf w 6), (bitOf w 5), (.ofNat _ (fld w 4 2))⟩)
  | 18 => zchk (fld w 1 0) (.cFopMax ⟨(.ofNat _ (fld w 21 18)), (.ofNat _ (fld w 17 12)), (bitOf w 11), (.ofNat _ (fld w 10 7)), (bitOf w 6), (bitOf w 5), (.ofNat _ (fld w 4 2))⟩)
  | 19 => zchk (fld w 1 0) (.cFopAnd ⟨(.ofNat _ (fld w 21 18)), (.ofNat _ (fld w 17 12)), (bitOf w 11), (.ofNat _ (fld w 10 7)), (bitOf w 6), (bitOf w 5), (.ofNat _ (fld w 4 2))⟩)
  | 20 => zchk (fld w 1 0) (.cFopOr ⟨(.ofNat _ (fld w 21 18)), (.ofNat _ (fld w 17 12)), (bitOf w 11), (.ofNat _ (fld w 10 7)), (bitOf w 6), (bitOf w 5), (.ofNat _ (fld w 4 2))⟩)
  | 21 => zchk (fld w 1 0) (.cFopXor ⟨(.ofNat _ (fld w 21 18)), (.ofNat _ (fld w 17 12)), (bitOf w 11), (.ofNat _ (fld w 10 7)), (bitOf w 6), (bitOf w 5), (.ofNat _ (fld w 4 2))⟩)
  | 22 => zchk (fld w 1 0) (.cFopSwap ⟨(.ofNat _ (fld w 21 18)), (.ofNat _ (fld w 17 12)), (bitOf w 11), (.ofNat _ (fld w 10 7)), (bitOf w 6), (bitOf w 5), (.ofNat _ (fld w 4 2))⟩)
  | 23 => zchk (fld w 1 0) (.cFopCas ⟨(.ofNat _ (fld w 21 18)), (.ofNat _ (fld w 17 12)), (bitOf w 11), (.ofNat _ (fld w 10 7)), (bitOf w 6), (bitOf w 5), (.ofNat _ (fld w 4 2))⟩)
  | 24 => zchk (fld w 1 0) (.cGet ⟨(.ofNat _ (fld w 21 18)), (.ofNat _ (fld w 17 12)), (bitOf w 11), (.ofNat _ (fld w 10 7)), (bitOf w 6), (bitOf w 5), (.ofNat _ (fld w 4 2))⟩)
  | 25 => zchk (fld w 1 0) (.cPut ⟨(.ofNat _ (fld w 21 18)), (.ofNat _ (fld w 17 12)), (bitOf w 11), (.ofNat _ (fld w 10 7)), (bitOf w 6), (bitOf w 5), (.ofNat _ (fld w 4 2))⟩)
  | 28 => zchk (fld w 1 0) (.cKvput ⟨(.ofNat _ (fld w 21 18)), (.ofNat _ (fld w 17 12)), (bitOf w 11), (.ofNat _ (fld w 10 7)), (bitOf w 6), (bitOf w 5), (.ofNat _ (fld w 4 2))⟩)
  | 29 => zchk (fld w 1 0) (.cKvapp ⟨(.ofNat _ (fld w 21 18)), (.ofNat _ (fld w 17 12)), (bitOf w 11), (.ofNat _ (fld w 10 7)), (bitOf w 6), (bitOf w 5), (.ofNat _ (fld w 4 2))⟩)
  | 30 => zchk (fld w 1 0) (.cKvinv ⟨(.ofNat _ (fld w 21 18)), (.ofNat _ (fld w 17 12)), (bitOf w 11), (.ofNat _ (fld w 10 7)), (bitOf w 6), (bitOf w 5), (.ofNat _ (fld w 4 2))⟩)
  | 32 => zchk (fld w 6 5 + fld w 1 0) (.cRecast (.ofNat _ (fld w 21 18)) (.ofNat _ (fld w 17 12)) (bitOf w 11) (.ofNat _ (fld w 10 7)) (.ofNat _ (fld w 4 2)))
  | 33 => zchk (fld w 21 18 + fld w 3 0) (.cSbar (.ofNat _ (fld w 17 12)) (bitOf w 11) (.ofNat _ (fld w 10 7)) (bitOf w 6) (bitOf w 5) (bitOf w 4))
  | 34 => zchk (fld w 1 0) (.cMigr ⟨(.ofNat _ (fld w 21 18)), (.ofNat _ (fld w 17 12)), (bitOf w 11), (.ofNat _ (fld w 10 7)), (bitOf w 6), (bitOf w 5), (.ofNat _ (fld w 4 2))⟩)
  | _ => .error .reserved

/-- The queue, timeline, sync and lift slots, by their selector [27:22] (12_encoding R239, R250 to R255). -/
def decodeQ (w : Nat) : Except SlotErr Instr :=
  match fld w 27 22 with
  | 0 => zchk (fld w 17 12 + fld w 5 0) (.qQcfg (.ofNat _ (fld w 21 18)) (.ofNat _ (fld w 11 6)))
  | 1 => zchk (fld w 17 12 + fld w 5 0) (.qQpush (.ofNat _ (fld w 21 18)) (.ofNat _ (fld w 11 6)))
  | 2 => zchk (fld w 11 0) (.qQpop (.ofNat _ (fld w 21 18)) (.ofNat _ (fld w 17 12)))
  | 3 => zchk (fld w 11 6) (.qQpeek (.ofNat _ (fld w 21 18)) (.ofNat _ (fld w 17 12)) (.ofNat _ (fld w 5 0)))
  | 4 => zchk (fld w 11 0) (.qQcnt (.ofNat _ (fld w 21 18)) (.ofNat _ (fld w 17 12)))
  | 8 => zchk (fld w 21 20 + fld w 17 12 + fld w 5 0) (.qTlwait (.ofNat _ (fld w 19 18)) (.ofNat _ (fld w 11 6)))
  | 9 => zchk (fld w 21 12 + fld w 5 0) (.qTlsig (.ofNat _ (fld w 11 6)))
  | 10 => zchk (fld w 21 20 + fld w 11 0) (.qTlrd (.ofNat _ (fld w 19 18)) (.ofNat _ (fld w 17 12)))
  | 11 => zchk (fld w 21 18 + fld w 5 0) (.qTlwaitx (.ofNat _ (fld w 17 12)) (.ofNat _ (fld w 11 6)))
  | 16 => zchk (fld w 21 20 + fld w 17 1) (.qBar (.ofNat _ (fld w 19 18)) (bitOf w 0))
  | 17 => zchk (fld w 21 12 + fld w 5 0) (.qSlack (.ofNat _ (fld w 11 6)))
  | 18 => zchk (fld w 21 0) .qFrame
  | 19 => zchk (fld w 21 0) .qIfence
  | 20 => zchk (fld w 21 18 + fld w 11 0) (.qFin (.ofNat _ (fld w 17 12)))
  | 21 => zchk (fld w 21 18 + fld w 5 0) (.qFout (.ofNat _ (fld w 17 12)) (.ofNat _ (fld w 11 6)))
  | 22 => zchk (fld w 21 20 + fld w 5 0) (.qPromise (.ofNat _ (fld w 19 18)) (.ofNat _ (fld w 17 12)) (.ofNat _ (fld w 11 6)))
  | 24 => zchk (fld w 21 20 + fld w 17 12 + fld w 5 0) (.qLift (.ofNat _ (fld w 19 18)) (.ofNat _ (fld w 11 6)))
  | 25 => zchk (fld w 21 0) .qLend
  | 26 => zchk (fld w 21 12 + fld w 5 0) (.qLmask (.ofNat _ (fld w 11 6)))
  | _ => .error .reserved

/-- The micro-words, by their code [31:28] (12_encoding R263). -/
def decodeU (w : Nat) : Except SlotErr Instr :=
  match fld w 31 28 with
  | 0 => zchk (fld w 13 0) (.uLda ⟨(.ofNat _ (fld w 27 25)), (.ofNat _ (fld w 24 22)), (.ofNat _ (fld w 21 16)), (.ofNat _ (fld w 15 14))⟩)
  | 1 => zchk (fld w 13 0) (.uLdb ⟨(.ofNat _ (fld w 27 25)), (.ofNat _ (fld w 24 22)), (.ofNat _ (fld w 21 16)), (.ofNat _ (fld w 15 14))⟩)
  | 2 => zchk (fld w 13 0) (.uLdk ⟨(.ofNat _ (fld w 27 25)), (.ofNat _ (fld w 24 22)), (.ofNat _ (fld w 21 16)), (.ofNat _ (fld w 15 14))⟩)
  | 3 => zchk (fld w 13 0) (.uLdv ⟨(.ofNat _ (fld w 27 25)), (.ofNat _ (fld w 24 22)), (.ofNat _ (fld w 21 16)), (.ofNat _ (fld w 15 14))⟩)
  | 4 => zchk (fld w 15 0) (.uMma (.ofNat _ (fld w 27 26)) (.ofNat _ (fld w 25 24)) (.ofNat _ (fld w 23 16)))
  | 5 => zchk (fld w 21 0) (.uStep (.ofNat _ (fld w 27 25)) (.ofNat _ (fld w 24 22)))
  | 6 => zchk (fld w 24 12) (.uLoop (.ofNat _ (fld w 27 25)) (.ofNat _ (fld w 11 0)))
  | 7 => zchk (fld w 27 0) (.uEndl)
  | 8 => zchk (fld w 19 0) (.uGate (.ofNat _ (fld w 27 24)) (.ofNat _ (fld w 23 20)))
  | 9 => zchk (fld w 19 0) (.uPop (.ofNat _ (fld w 27 24)) (.ofNat _ (fld w 23 20)))
  | 10 => zchk (fld w 20 0) (.uPush (.ofNat _ (fld w 27 24)) (.ofNat _ (fld w 23 21)))
  | 11 => zchk (fld w 22 0) (.uScale (.ofNat _ (fld w 27 26)) (.ofNat _ (fld w 25 23)))
  | 12 => zchk (fld w 25 0) (.uChk (.ofNat _ (fld w 27 26)))
  | 13 => zchk (fld w 19 0) (.uWb (.ofNat _ (fld w 27 25)) (.ofNat _ (fld w 24 20)))
  | 14 => zchk (fld w 24 0) (.uSig (.ofNat _ (fld w 27 25)))
  | 15 => zchk (fld w 27 0) (.uEnd)
  | _ => .error .reserved

/-- The unit class U of a slot (R239). -/
def slotClass (w : Nat) : Nat := fld w 30 28

/-- A NOP slot: bits [30:0] all zero (R240). -/
def isNopSlot (w : Nat) : Bool := fld w 30 0 == 0

/-- The slot read by its class, before the checks of field values. Prefixes and headers are no
operations: the group decoder (Machine/Group.lean) reads them. -/
def decodeFields (w : Nat) : Except SlotErr Instr :=
  match slotClass w with
  | 0 => decodeS w
  | 1 => decodeB w
  | 2 => decodeV w
  | 3 => decodeM w
  | 4 => decodeC w
  | 5 => decodeQ w
  | _ => .error .reserved

/-- Accept a well-formed instruction, name the reason otherwise (R262 reasons 5 and 6). -/
def checked (r : Except SlotErr Instr) : Except SlotErr Instr :=
  match r with
  | .ok i =>
    match i.violation with
    | none => .ok i
    | some n => .error (.reason n)
  | .error e => .error e

/-- The operation of a 32-bit slot; its stop bit [31] is no part of it. -/
def decodeSlot (w : Nat) : Except SlotErr Instr := checked (decodeFields w)

/-- The micro-operation of a 32-bit micro-word (R263); any other word raises ILLEGAL_OP when it is
executed (R264). -/
def decodeMicro (w : Nat) : Except SlotErr Instr := checked (decodeU w)

/-- A little-endian number from bytes, the first lowest (00_scope R3). -/
def leNat : List Byte → Nat
  | [] => 0
  | b :: t => b.toNat + 256 * leNat t

/-- The low `n` bytes of a number, the lowest first. -/
def leBytes : Nat → Nat → List Byte
  | 0, _ => []
  | n + 1, v => .ofNat 8 v :: leBytes n (v / 256)

/-- Decode a slot from bytes as memory holds them, with the rest of the bytes. -/
def decodeBytes (bs : List Byte) : Option (Instr × List Byte) :=
  match bs with
  | b0 :: b1 :: b2 :: b3 :: rest =>
    match decodeSlot (leNat [b0, b1, b2, b3]) with
    | .ok i => some (i, rest)
    | .error _ => none
  | _ => none

/-- The instruction a word of the operation table stands for. A slot is read as a slot; a word that is
no slot is read as a micro-word (the two share their 32 bits, R239 and R263, and are told apart by where
they stand). -/
def decodeTableWord (nbits w : Nat) : Option Instr :=
  if nbits ≤ 32 then
    match decodeBytes (leBytes 4 w) with
    | some (i, _) => some i
    | none =>
      match decodeMicro w with
      | .ok i => some i
      | .error _ => none
  else none

/-! ### The encoder -/

/-- A source field as its seven bits. -/
def Src.toN (s : Src) : Nat := b2n s.wait * 64 + s.reg.toNat

/-- The kind of a fence as its two bits. -/
def FenceKind.toN : FenceKind → Nat
  | .acq => 0
  | .rel => 1
  | .acqrel => 2
  | .sc => 3

/-- The bits of an operation below the stop bit; none for an event, which has no encoding. -/
def encodeBody (i : Instr) : Option Nat :=
  match i with
  | .sAdd d a b => some (0 + d.toNat * 32768 + a.toN * 256 + b.toN * 2)
  | .sSub d a b => some (2097152 + d.toNat * 32768 + a.toN * 256 + b.toN * 2)
  | .sMul d a b => some (4194304 + d.toNat * 32768 + a.toN * 256 + b.toN * 2)
  | .sMulh d a b => some (6291456 + d.toNat * 32768 + a.toN * 256 + b.toN * 2)
  | .sMulhn d a b => some (8388608 + d.toNat * 32768 + a.toN * 256 + b.toN * 2)
  | .sDiv d a b => some (10485760 + d.toNat * 32768 + a.toN * 256 + b.toN * 2)
  | .sDivn d a b => some (12582912 + d.toNat * 32768 + a.toN * 256 + b.toN * 2)
  | .sRem d a b => some (14680064 + d.toNat * 32768 + a.toN * 256 + b.toN * 2)
  | .sRemn d a b => some (16777216 + d.toNat * 32768 + a.toN * 256 + b.toN * 2)
  | .sAnd d a b => some (18874368 + d.toNat * 32768 + a.toN * 256 + b.toN * 2)
  | .sOr d a b => some (20971520 + d.toNat * 32768 + a.toN * 256 + b.toN * 2)
  | .sXor d a b => some (23068672 + d.toNat * 32768 + a.toN * 256 + b.toN * 2)
  | .sAndn d a b => some (25165824 + d.toNat * 32768 + a.toN * 256 + b.toN * 2)
  | .sSll d a b => some (27262976 + d.toNat * 32768 + a.toN * 256 + b.toN * 2)
  | .sSrl d a b => some (29360128 + d.toNat * 32768 + a.toN * 256 + b.toN * 2)
  | .sSra d a b => some (31457280 + d.toNat * 32768 + a.toN * 256 + b.toN * 2)
  | .sMin d a b => some (33554432 + d.toNat * 32768 + a.toN * 256 + b.toN * 2)
  | .sMax d a b => some (35651584 + d.toNat * 32768 + a.toN * 256 + b.toN * 2)
  | .sMinn d a b => some (37748736 + d.toNat * 32768 + a.toN * 256 + b.toN * 2)
  | .sMaxn d a b => some (39845888 + d.toNat * 32768 + a.toN * 256 + b.toN * 2)
  | .sSlt d a b => some (41943040 + d.toNat * 32768 + a.toN * 256 + b.toN * 2)
  | .sSltn d a b => some (44040192 + d.toNat * 32768 + a.toN * 256 + b.toN * 2)
  | .sSel d a b => some (46137344 + d.toNat * 32768 + a.toN * 256 + b.toN * 2)
  | .sMov d a => some (48234496 + d.toNat * 32768 + a.toN * 256)
  | .sClz d a => some (50331648 + d.toNat * 32768 + a.toN * 256)
  | .sCtz d a => some (52428800 + d.toNat * 32768 + a.toN * 256)
  | .sPopc d a => some (54525952 + d.toNat * 32768 + a.toN * 256)
  | .sBswap d a => some (56623104 + d.toNat * 32768 + a.toN * 256)
  | .sAddi d a i => some (67108864 + d.toNat * 32768 + a.toN * 256 + i.toNat)
  | .sMuli d a i => some (69206016 + d.toNat * 32768 + a.toN * 256 + i.toNat)
  | .sAndi d a i => some (71303168 + d.toNat * 32768 + a.toN * 256 + i.toNat)
  | .sOri d a i => some (73400320 + d.toNat * 32768 + a.toN * 256 + i.toNat)
  | .sXori d a i => some (75497472 + d.toNat * 32768 + a.toN * 256 + i.toNat)
  | .sSlli d a i => some (77594624 + d.toNat * 32768 + a.toN * 256 + i.toNat)
  | .sSrli d a i => some (79691776 + d.toNat * 32768 + a.toN * 256 + i.toNat)
  | .sSrai d a i => some (81788928 + d.toNat * 32768 + a.toN * 256 + i.toNat)
  | .sSlti d a i => some (83886080 + d.toNat * 32768 + a.toN * 256 + i.toNat)
  | .sSltni d a i => some (85983232 + d.toNat * 32768 + a.toN * 256 + i.toNat)
  | .sLi d i => some (88080384 + d.toNat * 32768 + i.toNat)
  | .sLih d a i => some (90177536 + d.toNat * 32768 + a.toN * 256 + i.toNat)
  | .sLdB d a i => some (134217728 + d.toNat * 32768 + a.toN * 256 + i.toNat)
  | .sLdBn d a i => some (136314880 + d.toNat * 32768 + a.toN * 256 + i.toNat)
  | .sLdH d a i => some (138412032 + d.toNat * 32768 + a.toN * 256 + i.toNat)
  | .sLdHn d a i => some (140509184 + d.toNat * 32768 + a.toN * 256 + i.toNat)
  | .sLdW d a i => some (142606336 + d.toNat * 32768 + a.toN * 256 + i.toNat)
  | .sLdWn d a i => some (144703488 + d.toNat * 32768 + a.toN * 256 + i.toNat)
  | .sLdD d a i => some (146800640 + d.toNat * 32768 + a.toN * 256 + i.toNat)
  | .sStB d a i => some (148897792 + d.toNat * 32768 + a.toN * 256 + i.toNat)
  | .sStH d a i => some (150994944 + d.toNat * 32768 + a.toN * 256 + i.toNat)
  | .sStW d a i => some (153092096 + d.toNat * 32768 + a.toN * 256 + i.toNat)
  | .sStD d a i => some (155189248 + d.toNat * 32768 + a.toN * 256 + i.toNat)
  | .sLdAcqW d a i => some (157286400 + d.toNat * 32768 + a.toN * 256 + i.toNat)
  | .sLdAcqD d a i => some (159383552 + d.toNat * 32768 + a.toN * 256 + i.toNat)
  | .sStRelW d a i => some (161480704 + d.toNat * 32768 + a.toN * 256 + i.toNat)
  | .sStRelD d a i => some (163577856 + d.toNat * 32768 + a.toN * 256 + i.toNat)
  | .sCmpEq p a b => some (167772160 + p.toNat * 32768 + a.toN * 256 + b.toN * 2)
  | .sCmpNe p a b => some (169869312 + p.toNat * 32768 + a.toN * 256 + b.toN * 2)
  | .sCmpLt p a b => some (171966464 + p.toNat * 32768 + a.toN * 256 + b.toN * 2)
  | .sCmpGe p a b => some (174063616 + p.toNat * 32768 + a.toN * 256 + b.toN * 2)
  | .sCmpLtn p a b => some (176160768 + p.toNat * 32768 + a.toN * 256 + b.toN * 2)
  | .sCmpGen p a b => some (178257920 + p.toNat * 32768 + a.toN * 256 + b.toN * 2)
  | .sCmpiEq p a i => some (180355072 + p.toNat * 32768 + a.toN * 256 + i.toNat)
  | .sCmpiNe p a i => some (182452224 + p.toNat * 32768 + a.toN * 256 + i.toNat)
  | .sCmpiLt p a i => some (184549376 + p.toNat * 32768 + a.toN * 256 + i.toNat)
  | .sCmpiGe p a i => some (186646528 + p.toNat * 32768 + a.toN * 256 + i.toNat)
  | .sFence k s => some (201326592 + k.toN * 8 + s.toNat)
  | .sCsrr d c => some (203423744 + d.toNat * 32768 + c.toNat)
  | .sCsrw d a c => some (205520896 + d.toNat * 32768 + a.toN * 256 + c.toNat)
  | .sCsrs d a c => some (207618048 + d.toNat * 32768 + a.toN * 256 + c.toNat)
  | .sCsrc d a c => some (209715200 + d.toNat * 32768 + a.toN * 256 + c.toNat)
  | .sRdcyc d => some (211812352 + d.toNat * 32768)
  | .bBr o => some (268435456 + o.toNat)
  | .bBp p n o => some (272629760 + p.toNat * 524288 + b2n n * 262144 + o.toNat)
  | .bJal o => some (276824064 + o.toNat)
  | .bJr r => some (281018368 + r.toNat * 4096)
  | .bLoop c o => some (285212672 + c.toNat * 4096 + o.toNat)
  | .bLoopi c o => some (289406976 + c.toNat * 1024 + o.toNat)
  | .bTrap p n c => some (293601280 + p.toNat * 524288 + b2n n * 262144 + c.toNat)
  | .bTret => some (297795584)
  | .bDone => some (301989888)
  | .bYield => some (306184192)
  | .bTrig => some (310378496)
  | .bTask i b s => some (314572800 + i.toNat * 4096 + b.toNat * 64 + s.toNat)
  | .bSwap x => some (318767104 + x.toNat)
  | .bJoin => some (322961408)
  | .bSleep r => some (327155712 + r.toNat * 4096)
  | .bPark m => some (331350016 + m.toNat)
  | .vFadd d a b z => some (536870912 + d.toNat * 32768 + a.toN * 256 + b.toN * 2 + b2n z)
  | .vFsub d a b z => some (538968064 + d.toNat * 32768 + a.toN * 256 + b.toN * 2 + b2n z)
  | .vFmul d a b z => some (541065216 + d.toNat * 32768 + a.toN * 256 + b.toN * 2 + b2n z)
  | .vFma d a b z => some (543162368 + d.toNat * 32768 + a.toN * 256 + b.toN * 2 + b2n z)
  | .vFms d a b z => some (545259520 + d.toNat * 32768 + a.toN * 256 + b.toN * 2 + b2n z)
  | .vFmin d a b z => some (547356672 + d.toNat * 32768 + a.toN * 256 + b.toN * 2 + b2n z)
  | .vFmax d a b z => some (549453824 + d.toNat * 32768 + a.toN * 256 + b.toN * 2 + b2n z)
  | .vFabs d a z => some (551550976 + d.toNat * 32768 + a.toN * 256 + b2n z)
  | .vFneg d a z => some (553648128 + d.toNat * 32768 + a.toN * 256 + b2n z)
  | .vFcmpEq k a b => some (555745280 + k.toNat * 32768 + a.toN * 256 + b.toN * 2)
  | .vFcmpLt k a b => some (557842432 + k.toNat * 32768 + a.toN * 256 + b.toN * 2)
  | .vFcmpLe k a b => some (559939584 + k.toNat * 32768 + a.toN * 256 + b.toN * 2)
  | .vFcmpUn k a b => some (562036736 + k.toNat * 32768 + a.toN * 256 + b.toN * 2)
  | .vAdd d a b z => some (570425344 + d.toNat * 32768 + a.toN * 256 + b.toN * 2 + b2n z)
  | .vSub d a b z => some (572522496 + d.toNat * 32768 + a.toN * 256 + b.toN * 2 + b2n z)
  | .vMul d a b z => some (574619648 + d.toNat * 32768 + a.toN * 256 + b.toN * 2 + b2n z)
  | .vMulh d a b z => some (576716800 + d.toNat * 32768 + a.toN * 256 + b.toN * 2 + b2n z)
  | .vMulhn d a b z => some (578813952 + d.toNat * 32768 + a.toN * 256 + b.toN * 2 + b2n z)
  | .vAnd d a b z => some (580911104 + d.toNat * 32768 + a.toN * 256 + b.toN * 2 + b2n z)
  | .vOr d a b z => some (583008256 + d.toNat * 32768 + a.toN * 256 + b.toN * 2 + b2n z)
  | .vXor d a b z => some (585105408 + d.toNat * 32768 + a.toN * 256 + b.toN * 2 + b2n z)
  | .vAndn d a b z => some (587202560 + d.toNat * 32768 + a.toN * 256 + b.toN * 2 + b2n z)
  | .vShl d a b z => some (589299712 + d.toNat * 32768 + a.toN * 256 + b.toN * 2 + b2n z)
  | .vShr d a b z => some (591396864 + d.toNat * 32768 + a.toN * 256 + b.toN * 2 + b2n z)
  | .vSra d a b z => some (593494016 + d.toNat * 32768 + a.toN * 256 + b.toN * 2 + b2n z)
  | .vMin d a b z => some (595591168 + d.toNat * 32768 + a.toN * 256 + b.toN * 2 + b2n z)
  | .vMax d a b z => some (597688320 + d.toNat * 32768 + a.toN * 256 + b.toN * 2 + b2n z)
  | .vMinn d a b z => some (599785472 + d.toNat * 32768 + a.toN * 256 + b.toN * 2 + b2n z)
  | .vMaxn d a b z => some (601882624 + d.toNat * 32768 + a.toN * 256 + b.toN * 2 + b2n z)
  | .vAbs d a z => some (603979776 + d.toNat * 32768 + a.toN * 256 + b2n z)
  | .vIcmpEq k a b => some (606076928 + k.toNat * 32768 + a.toN * 256 + b.toN * 2)
  | .vIcmpLt k a b => some (608174080 + k.toNat * 32768 + a.toN * 256 + b.toN * 2)
  | .vIcmpLtn k a b => some (610271232 + k.toNat * 32768 + a.toN * 256 + b.toN * 2)
  | .vAddsat d a b z => some (612368384 + d.toNat * 32768 + a.toN * 256 + b.toN * 2 + b2n z)
  | .vSubsat d a b z => some (614465536 + d.toNat * 32768 + a.toN * 256 + b.toN * 2 + b2n z)
  | .vMov d a z => some (620756992 + d.toNat * 32768 + a.toN * 256 + b2n z)
  | .vSel d a b z => some (622854144 + d.toNat * 32768 + a.toN * 256 + b.toN * 2 + b2n z)
  | .vBcast d a z => some (624951296 + d.toNat * 32768 + a.toN * 256 + b2n z)
  | .vIns d a b z => some (627048448 + d.toNat * 32768 + a.toN * 256 + b.toN * 2 + b2n z)
  | .vExt d a b z => some (629145600 + d.toNat * 32768 + a.toN * 256 + b.toN * 2 + b2n z)
  | .vIota d z => some (631242752 + d.toNat * 32768 + b2n z)
  | .vPerm d a b z => some (633339904 + d.toNat * 32768 + a.toN * 256 + b.toN * 2 + b2n z)
  | .vRot d a b z => some (635437056 + d.toNat * 32768 + a.toN * 256 + b.toN * 2 + b2n z)
  | .vZip d a b z => some (637534208 + d.toNat * 32768 + a.toN * 256 + b.toN * 2 + b2n z)
  | .vUnzip d a b z => some (639631360 + d.toNat * 32768 + a.toN * 256 + b.toN * 2 + b2n z)
  | .vCvt d a f z => some (641728512 + d.toNat * 32768 + a.toN * 256 + f.toNat * 2 + b2n z)
  | .vWiden d a q f z => some (643825664 + d.toNat * 32768 + a.toN * 256 + b2n q * 64 + f.toNat * 2 + b2n z)
  | .vNarrow d a q f z => some (645922816 + d.toNat * 32768 + a.toN * 256 + b2n q * 64 + f.toNat * 2 + b2n z)
  | .vPack6 d a z => some (648019968 + d.toNat * 32768 + a.toN * 256 + b2n z)
  | .vUnpack6 d a z => some (650117120 + d.toNat * 32768 + a.toN * 256 + b2n z)
  | .vPackq4 d a z => some (652214272 + d.toNat * 32768 + a.toN * 256 + b2n z)
  | .vUnpackq4 d a z => some (654311424 + d.toNat * 32768 + a.toN * 256 + b2n z)
  | .vSetfmt a => some (656408576 + a.toN * 256)
  | .vRadd d a z => some (662700032 + d.toNat * 32768 + a.toN * 256 + b2n z)
  | .vRmax d a z => some (664797184 + d.toNat * 32768 + a.toN * 256 + b2n z)
  | .vRmin d a z => some (666894336 + d.toNat * 32768 + a.toN * 256 + b2n z)
  | .vRfadd d a z => some (668991488 + d.toNat * 32768 + a.toN * 256 + b2n z)
  | .vRfmax d a z => some (671088640 + d.toNat * 32768 + a.toN * 256 + b2n z)
  | .vRfmin d a z => some (673185792 + d.toNat * 32768 + a.toN * 256 + b2n z)
  | .vScanAdd d a z => some (675282944 + d.toNat * 32768 + a.toN * 256 + b2n z)
  | .vScanFadd d a z => some (677380096 + d.toNat * 32768 + a.toN * 256 + b2n z)
  | .vRcp d a z => some (687865856 + d.toNat * 32768 + a.toN * 256 + b2n z)
  | .vRsqrt d a z => some (689963008 + d.toNat * 32768 + a.toN * 256 + b2n z)
  | .vSqrt d a z => some (692060160 + d.toNat * 32768 + a.toN * 256 + b2n z)
  | .vExp2 d a z => some (694157312 + d.toNat * 32768 + a.toN * 256 + b2n z)
  | .vLog2 d a z => some (696254464 + d.toNat * 32768 + a.toN * 256 + b2n z)
  | .vTanh d a z => some (698351616 + d.toNat * 32768 + a.toN * 256 + b2n z)
  | .vErf d a z => some (700448768 + d.toNat * 32768 + a.toN * 256 + b2n z)
  | .vLd d a o z => some (704643072 + d.toNat * 32768 + a.toN * 256 + o.toNat * 2 + b2n z)
  | .vSt d a o => some (706740224 + d.toNat * 32768 + a.toN * 256 + o.toNat * 2)
  | .vLdx d a b z => some (708837376 + d.toNat * 32768 + a.toN * 256 + b.toN * 2 + b2n z)
  | .vStx d a b => some (710934528 + d.toNat * 32768 + a.toN * 256 + b.toN * 2)
  | .vLds d a b z => some (713031680 + d.toNat * 32768 + a.toN * 256 + b.toN * 2 + b2n z)
  | .vSts d a b => some (715128832 + d.toNat * 32768 + a.toN * 256 + b.toN * 2)
  | .vRda d a n z => some (717225984 + d.toNat * 32768 + a.toN * 256 + n.toNat * 32 + b2n z)
  | .vWra d a n => some (719323136 + d.toNat * 32768 + a.toN * 256 + n.toNat * 32)
  | .vAdda d a n => some (721420288 + d.toNat * 32768 + a.toN * 256 + n.toNat * 32)
  | .vQpop d q z => some (723517440 + d.toNat * 32768 + q.toNat * 256 + b2n z)
  | .vQpush q a => some (725614592 + q.toNat * 32768 + a.toN * 256)
  | .vKand d a b => some (738197504 + d.toNat * 32768 + a.toNat * 256 + b.toNat * 2)
  | .vKor d a b => some (740294656 + d.toNat * 32768 + a.toNat * 256 + b.toNat * 2)
  | .vKxor d a b => some (742391808 + d.toNat * 32768 + a.toNat * 256 + b.toNat * 2)
  | .vKnot d a => some (744488960 + d.toNat * 32768 + a.toNat * 256)
  | .vKpopc d k => some (746586112 + d.toNat * 32768 + k.toNat * 256)
  | .vKfirst d k => some (748683264 + d.toNat * 32768 + k.toNat * 256)
  | .vKset k a => some (750780416 + k.toNat * 32768 + a.toN * 256)
  | .vLred d a s t z => some (771751936 + d.toNat * 32768 + a.toN * 256 + s.toNat * 8 + t.toNat * 2 + b2n z)
  | .vLpick d a b z => some (773849088 + d.toNat * 32768 + a.toN * 256 + b.toN * 2 + b2n z)
  | .vLbcast d a t z => some (775946240 + d.toNat * 32768 + a.toN * 256 + t.toNat * 2 + b2n z)
  | .mCall c => some (805306368 + c.routine.toNat * 65536 + c.bank.toNat * 8192 + b2n c.gv * 4096 + c.gq.toNat * 256 + c.gcnt.toNat * 16 + b2n c.z)
  | .mSetp p s => some (822083584 + p.toNat * 2097152 + s.toNat * 32768)
  | .mGetp p d => some (838860800 + p.toNat * 2097152 + d.toNat * 32768)
  | .mZacc n => some (855638016 + n.toNat * 8192)
  | .mUld n s f => some (872415232 + n.toNat * 8192 + s.toNat * 128 + f.toNat * 4)
  | .mGang c => some (889192448 + c.routine.toNat * 65536 + c.bank.toNat * 8192 + b2n c.gv * 4096 + c.gq.toNat * 256 + c.gcnt.toNat * 16 + b2n c.z)
  | .cCopy c => some (1073741824 + c.quad.toNat * 262144 + c.prom.toNat * 4096 + b2n c.cqv * 2048 + c.cq.toNat * 128 + b2n c.rel * 64 + b2n c.acq * 32 + c.scope.toNat * 4)
  | .cCopyi c => some (1077936128 + c.quad.toNat * 262144 + c.prom.toNat * 4096 + b2n c.cqv * 2048 + c.cq.toNat * 128 + b2n c.rel * 64 + b2n c.acq * 32 + c.scope.toNat * 4)
  | .cGath c => some (1082130432 + c.quad.toNat * 262144 + c.prom.toNat * 4096 + b2n c.cqv * 2048 + c.cq.toNat * 128 + b2n c.rel * 64 + b2n c.acq * 32 + c.scope.toNat * 4)
  | .cScat c => some (1086324736 + c.quad.toNat * 262144 + c.prom.toNat * 4096 + b2n c.cqv * 2048 + c.cq.toNat * 128 + b2n c.rel * 64 + b2n c.acq * 32 + c.scope.toNat * 4)
  | .cFill c => some (1090519040 + c.quad.toNat * 262144 + c.prom.toNat * 4096 + b2n c.cqv * 2048 + c.cq.toNat * 128 + b2n c.rel * 64 + b2n c.acq * 32 + c.scope.toNat * 4)
  | .cPref c => some (1094713344 + c.quad.toNat * 262144 + c.prom.toNat * 4096 + b2n c.cqv * 2048 + c.cq.toNat * 128 + b2n c.rel * 64 + b2n c.acq * 32 + c.scope.toNat * 4)
  | .cRelay c => some (1098907648 + c.quad.toNat * 262144 + c.prom.toNat * 4096 + b2n c.cqv * 2048 + c.cq.toNat * 128 + b2n c.rel * 64 + b2n c.acq * 32 + c.scope.toNat * 4)
  | .cDecomp c => some (1103101952 + c.quad.toNat * 262144 + c.prom.toNat * 4096 + b2n c.cqv * 2048 + c.cq.toNat * 128 + b2n c.rel * 64 + b2n c.acq * 32 + c.scope.toNat * 4)
  | .cAccAdd c => some (1107296256 + c.quad.toNat * 262144 + c.prom.toNat * 4096 + b2n c.cqv * 2048 + c.cq.toNat * 128 + b2n c.rel * 64 + b2n c.acq * 32 + c.scope.toNat * 4)
  | .cAccFadd c => some (1111490560 + c.quad.toNat * 262144 + c.prom.toNat * 4096 + b2n c.cqv * 2048 + c.cq.toNat * 128 + b2n c.rel * 64 + b2n c.acq * 32 + c.scope.toNat * 4)
  | .cAccMax c => some (1115684864 + c.quad.toNat * 262144 + c.prom.toNat * 4096 + b2n c.cqv * 2048 + c.cq.toNat * 128 + b2n c.rel * 64 + b2n c.acq * 32 + c.scope.toNat * 4)
  | .cAccMin c => some (1119879168 + c.quad.toNat * 262144 + c.prom.toNat * 4096 + b2n c.cqv * 2048 + c.cq.toNat * 128 + b2n c.rel * 64 + b2n c.acq * 32 + c.scope.toNat * 4)
  | .cAccOr c => some (1124073472 + c.quad.toNat * 262144 + c.prom.toNat * 4096 + b2n c.cqv * 2048 + c.cq.toNat * 128 + b2n c.rel * 64 + b2n c.acq * 32 + c.scope.toNat * 4)
  | .cAccAnd c => some (1128267776 + c.quad.toNat * 262144 + c.prom.toNat * 4096 + b2n c.cqv * 2048 + c.cq.toNat * 128 + b2n c.rel * 64 + b2n c.acq * 32 + c.scope.toNat * 4)
  | .cFopAdd c => some (1140850688 + c.quad.toNat * 262144 + c.prom.toNat * 4096 + b2n c.cqv * 2048 + c.cq.toNat * 128 + b2n c.rel * 64 + b2n c.acq * 32 + c.scope.toNat * 4)
  | .cFopMin c => some (1145044992 + c.quad.toNat * 262144 + c.prom.toNat * 4096 + b2n c.cqv * 2048 + c.cq.toNat * 128 + b2n c.rel * 64 + b2n c.acq * 32 + c.scope.toNat * 4)
  | .cFopMax c => some (1149239296 + c.quad.toNat * 262144 + c.prom.toNat * 4096 + b2n c.cqv * 2048 + c.cq.toNat * 128 + b2n c.rel * 64 + b2n c.acq * 32 + c.scope.toNat * 4)
  | .cFopAnd c => some (1153433600 + c.quad.toNat * 262144 + c.prom.toNat * 4096 + b2n c.cqv * 2048 + c.cq.toNat * 128 + b2n c.rel * 64 + b2n c.acq * 32 + c.scope.toNat * 4)
  | .cFopOr c => some (1157627904 + c.quad.toNat * 262144 + c.prom.toNat * 4096 + b2n c.cqv * 2048 + c.cq.toNat * 128 + b2n c.rel * 64 + b2n c.acq * 32 + c.scope.toNat * 4)
  | .cFopXor c => some (1161822208 + c.quad.toNat * 262144 + c.prom.toNat * 4096 + b2n c.cqv * 2048 + c.cq.toNat * 128 + b2n c.rel * 64 + b2n c.acq * 32 + c.scope.toNat * 4)
  | .cFopSwap c => some (1166016512 + c.quad.toNat * 262144 + c.prom.toNat * 4096 + b2n c.cqv * 2048 + c.cq.toNat * 128 + b2n c.rel * 64 + b2n c.acq * 32 + c.scope.toNat * 4)
  | .cFopCas c => some (1170210816 + c.quad.toNat * 262144 + c.prom.toNat * 4096 + b2n c.cqv * 2048 + c.cq.toNat * 128 + b2n c.rel * 64 + b2n c.acq * 32 + c.scope.toNat * 4)
  | .cGet c => some (1174405120 + c.quad.toNat * 262144 + c.prom.toNat * 4096 + b2n c.cqv * 2048 + c.cq.toNat * 128 + b2n c.rel * 64 + b2n c.acq * 32 + c.scope.toNat * 4)
  | .cPut c => some (1178599424 + c.quad.toNat * 262144 + c.prom.toNat * 4096 + b2n c.cqv * 2048 + c.cq.toNat * 128 + b2n c.rel * 64 + b2n c.acq * 32 + c.scope.toNat * 4)
  | .cKvput c => some (1191182336 + c.quad.toNat * 262144 + c.prom.toNat * 4096 + b2n c.cqv * 2048 + c.cq.toNat * 128 + b2n c.rel * 64 + b2n c.acq * 32 + c.scope.toNat * 4)
  | .cKvapp c => some (1195376640 + c.quad.toNat * 262144 + c.prom.toNat * 4096 + b2n c.cqv * 2048 + c.cq.toNat * 128 + b2n c.rel * 64 + b2n c.acq * 32 + c.scope.toNat * 4)
  | .cKvinv c => some (1199570944 + c.quad.toNat * 262144 + c.prom.toNat * 4096 + b2n c.cqv * 2048 + c.cq.toNat * 128 + b2n c.rel * 64 + b2n c.acq * 32 + c.scope.toNat * 4)
  | .cRecast n p v q s => some (1207959552 + n.toNat * 262144 + p.toNat * 4096 + b2n v * 2048 + q.toNat * 128 + s.toNat * 4)
  | .cSbar p v q x y w => some (1212153856 + p.toNat * 4096 + b2n v * 2048 + q.toNat * 128 + b2n x * 64 + b2n y * 32 + b2n w * 16)
  | .cMigr c => some (1216348160 + c.quad.toNat * 262144 + c.prom.toNat * 4096 + b2n c.cqv * 2048 + c.cq.toNat * 128 + b2n c.rel * 64 + b2n c.acq * 32 + c.scope.toNat * 4)
  | .qQcfg x a => some (1342177280 + x.toNat * 262144 + a.toNat * 64)
  | .qQpush x a => some (1346371584 + x.toNat * 262144 + a.toNat * 64)
  | .qQpop x d => some (1350565888 + x.toNat * 262144 + d.toNat * 4096)
  | .qQpeek x d i => some (1354760192 + x.toNat * 262144 + d.toNat * 4096 + i.toNat)
  | .qQcnt x d => some (1358954496 + x.toNat * 262144 + d.toNat * 4096)
  | .qTlwait t a => some (1375731712 + t.toNat * 262144 + a.toNat * 64)
  | .qTlsig a => some (1379926016 + a.toNat * 64)
  | .qTlrd t d => some (1384120320 + t.toNat * 262144 + d.toNat * 4096)
  | .qTlwaitx d a => some (1388314624 + d.toNat * 4096 + a.toNat * 64)
  | .qBar m s => some (1409286144 + m.toNat * 262144 + b2n s)
  | .qSlack a => some (1413480448 + a.toNat * 64)
  | .qFrame => some (1417674752)
  | .qIfence => some (1421869056)
  | .qFin d => some (1426063360 + d.toNat * 4096)
  | .qFout d a => some (1430257664 + d.toNat * 4096 + a.toNat * 64)
  | .qPromise t d a => some (1434451968 + t.toNat * 262144 + d.toNat * 4096 + a.toNat * 64)
  | .qLift t a => some (1442840576 + t.toNat * 262144 + a.toNat * 64)
  | .qLend => some (1447034880)
  | .qLmask a => some (1451229184 + a.toNat * 64)
  | .uLda l => some (0 + l.base.toNat * 33554432 + l.stride.toNat * 4194304 + l.rows.toNat * 65536 + l.buf.toNat * 16384)
  | .uLdb l => some (268435456 + l.base.toNat * 33554432 + l.stride.toNat * 4194304 + l.rows.toNat * 65536 + l.buf.toNat * 16384)
  | .uLdk l => some (536870912 + l.base.toNat * 33554432 + l.stride.toNat * 4194304 + l.rows.toNat * 65536 + l.buf.toNat * 16384)
  | .uLdv l => some (805306368 + l.base.toNat * 33554432 + l.stride.toNat * 4194304 + l.rows.toNat * 65536 + l.buf.toNat * 16384)
  | .uMma a b k => some (1073741824 + a.toNat * 67108864 + b.toNat * 16777216 + k.toNat * 65536)
  | .uStep d i => some (1342177280 + d.toNat * 33554432 + i.toNat * 4194304)
  | .uLoop c l => some (1610612736 + c.toNat * 33554432 + l.toNat)
  | .uEndl => some (1879048192)
  | .uGate q n => some (2147483648 + q.toNat * 16777216 + n.toNat * 1048576)
  | .uPop q n => some (2415919104 + q.toNat * 16777216 + n.toNat * 1048576)
  | .uPush q p => some (2684354560 + q.toNat * 16777216 + p.toNat * 2097152)
  | .uScale b p => some (2952790016 + b.toNat * 67108864 + p.toNat * 8388608)
  | .uChk b => some (3221225472 + b.toNat * 67108864)
  | .uWb p f => some (3489660928 + p.toNat * 33554432 + f.toNat * 1048576)
  | .uSig p => some (3758096384 + p.toNat * 33554432)
  | .uEnd => some (4026531840)
  | .boot | .thermalAlarm | .thermalShutdown | .thermalRecovery | .hbmRowRepair
  | .fabricLaneFailure | .correctableError | .freezeEnd | .wordPoisoned | .flitReplay
  | .routerPacketArrive | .creditReturn | .hedgeQueueAssign | .hedgeQueueRelease
  | .congestionNotice | .hedgeReleaseNotice | .readRequest | .writeRequest | .accumulateRequest
  | .fetchOpRequest | .readResponse | .completionAcknowledgement | .relayData | .inboxWord
  | .inboxRefusal | .outboxResend | .outboxSend | .requestTimeout | .relayOpenRetry
  | .relayStallTimeout | .fabctlWrite | .registerWrite | .windowDRead | .windowDWrite
  | .hostWriteForward | .unsupportedRequest | .fnerrWrite | .lqcfgWrite | .lqpiWrite | .skip
  | .launchRecordRead | .recordStart | .vfFlr | .pfFlr | .owner | .install | .revoke
  | .accessTableWrite | .partmapWrite | .signatureVerifyEnd | .xlatinvWrite | .xlatinvComplete
  | .rangeEntryWrite | .pageWalkDone | .streamReadDeliver | .streamReadTimeout | .recastDrainEnd
  | .recastRewriteEnd | .migrationPolicy | .migrationPortsClosed | .migrationCopyDone
  | .movedCompletion | .kvgeomWrite | .kvqlognWrite | .kvqrelWrite | .poolManagerRequest
  | .graphLoad | .dispatchDecision | .freeCoreSummary | .poolMove | .placementReserve | .nodeStart
  | .taskPoolInsert | .rollCallComplete | .watchdogExpiry | .stampOverrun | .trapEntry
  | .engineFaultReport | .forcedSwap | .swapQuiesceEnd | .swapResume | .dumpWritten
  | .dumpackWrite | .halfRetentionEntry | .retentionExitEnd | .producerFill | .loadDataReturn
  | .writeAcknowledgement | .compareVerdict | .forwardedValueArrive | .engineCommandStart
  | .slackStallRelease | .promiseWrite | .copyRequestIssue | .copyCommandComplete | .sleepWake
  | .tsUpdateArrive | .xbarArbitrate | .xbarwtWrite | .sliceTakePacket | .sliceReadData
  | .sliceWriteComplete | .sliceRefreshStart | .sliceRefreshEnd | .matrixCallStart
  | .matrixRowComplete | .matrixCallComplete | .zaccComplete | .uldComplete | .getpWrite => none

/-- The word of an operation with its stop bit G (R239). A micro-word has no stop bit (R263): encode it
with `g` clear. -/
def encodeWord (g : Bool) (i : Instr) : Option Nat :=
  (encodeBody i).map (fun n => n + b2n g * 2147483648)

/-- The word of an operation, as memory holds it. -/
def encode (g : Bool) (i : Instr) : Option (List Byte) := (encodeWord g i).map (leBytes 4)

/-- The micro-words (R263): they stand in the microprogram store, not in a slot. -/
def Instr.isMicro : Instr → Bool
  | .uLda _ | .uLdb _ | .uLdk _ | .uLdv _ | .uMma .. | .uStep .. | .uLoop .. | .uEndl | .uGate ..
  | .uPop .. | .uPush .. | .uScale .. | .uChk .. | .uWb .. | .uSig .. | .uEnd => true
  | _ => false

end Sys2Proof
end

