-- ==== Sys2Proof/Machine/Group.lean ====
section
/-!
DEFINITION. Issue groups: how slots form a group, headers and prefixes, which registers an operation
names, and every decode check (10_core R191, R192, R213; 12_encoding R239 to R262; 07_faults R128, R129).
-/

namespace Sys2Proof.Machine

/-! ### What an operation carries besides its own slot -/

/-- The immediate bits a header lends or names (R243). -/
inductive ImmExt where
  | none
  | lend (n : Nat)
  | long (n : Nat)
  deriving DecidableEq, Repr

/-- A cascade header's stages (R261). -/
structure Casc where
  opB : Nat
  opC : Nat
  c : Src
  e : Src
  deriving DecidableEq, Repr

/-- A bank-lock prefix (R212). -/
structure LockPfx where
  mask : BitVec 16
  count : Nat
  x : Bool
  deriving DecidableEq, Repr

/-- What stands around an operation in its group: where its slot is, what headers lend it and which
prefixes target it. -/
structure OpCtx where
  idx : Nat := 0
  bundle : Nat := 0
  slot : Nat := 0
  raw : Nat := 0
  imm : ImmExt := .none
  mask : BitVec 3 := 0
  ovr : Nat := 0
  casc : Option Casc := none
  lock : Option LockPfx := none
  scope : Option (BitVec 3) := none
  split : Bool := false
  loc : Bool := false
  prof : Option Nat := none
  /-- which vector instance takes a V operation: the first of the group goes to instance 0 -/
  vinst : Nat := 0
  deriving DecidableEq, Repr

/-- A roll call asked for by a header or by q.bar (R260, R353). -/
structure SyncReq where
  gm : BitVec 2
  swap : Bool
  deriving DecidableEq, Repr

/-- A decoded issue group. -/
structure Group where
  ops : List (Instr × OpCtx)
  sync : Option SyncReq
  stamp : Option (BitVec 12)
  /-- bundle and slot of the last slot -/
  lastB : Nat
  lastS : Nat
  deriving DecidableEq, Repr

/-- A slot of a group: bundle, slot within it, word. -/
structure SlotAt where
  b : Nat
  s : Nat
  w : Nat
  deriving DecidableEq, Repr

/-- A decode violation: trap code, TRAPINFO and the operations charged with it. -/
structure Violation where
  code : Nat
  info : Nat
  mask : Nat
  deriving DecidableEq, Repr

/-! ### Registers an operation names -/

/-- The register files of the hazard checks. -/
inductive RegFile where | s | v | k | p
  deriving DecidableEq, Repr

/-- A source: `early` when its field has a wait bit and the bit is clear (R198). -/
structure Use where
  file : RegFile
  n : Nat
  early : Bool
  /-- the source's register field, for TRAPINFO of EARLY_READ (R132) -/
  field : Nat
  deriving DecidableEq, Repr

/-- A source with a wait bit. -/
def useW (f : RegFile) (a : Src) : Use := ⟨f, a.reg.toNat, !a.wait, a.toN⟩

/-- A source without one: it holds until the register is full. -/
def useH (f : RegFile) (n : Nat) : Use := ⟨f, n, false, n⟩

/-- The registers a C slot reads and the one it writes (R247): the quad and the promise. -/
def quadUses (c : CFields) : List Use :=
  [0, 1, 2, 3].map fun i => useH .s (4 * c.quad.toNat + i)

/-- The sources of an operation, in field order a, b, then the others (R198, R250 to R255). -/
def usesOf : Instr → List Use
  | .sAdd _ a b | .sSub _ a b | .sMul _ a b | .sMulh _ a b | .sMulhn _ a b | .sDiv _ a b
  | .sDivn _ a b | .sRem _ a b | .sRemn _ a b | .sAnd _ a b | .sOr _ a b | .sXor _ a b
  | .sAndn _ a b | .sSll _ a b | .sSrl _ a b | .sSra _ a b | .sMin _ a b | .sMax _ a b
  | .sMinn _ a b | .sMaxn _ a b | .sSlt _ a b | .sSltn _ a b
  | .sCmpEq _ a b | .sCmpNe _ a b | .sCmpLt _ a b | .sCmpGe _ a b | .sCmpLtn _ a b
  | .sCmpGen _ a b => [useW .s a, useW .s b]
  | .sSel d a b => [useW .s a, useW .s b, useH .s d.toNat]
  | .sMov _ a | .sClz _ a | .sCtz _ a | .sPopc _ a | .sBswap _ a => [useW .s a]
  | .sAddi _ a _ | .sMuli _ a _ | .sAndi _ a _ | .sOri _ a _ | .sXori _ a _
  | .sSlli _ a _ | .sSrli _ a _ | .sSrai _ a _ | .sSlti _ a _ | .sSltni _ a _ | .sLih _ a _
  | .sLdB _ a _ | .sLdBn _ a _ | .sLdH _ a _ | .sLdHn _ a _ | .sLdW _ a _ | .sLdWn _ a _
  | .sLdD _ a _ | .sLdAcqW _ a _ | .sLdAcqD _ a _
  | .sCmpiEq _ a _ | .sCmpiNe _ a _ | .sCmpiLt _ a _ | .sCmpiGe _ a _
  | .sCsrw _ a _ | .sCsrs _ a _ | .sCsrc _ a _ => [useW .s a]
  | .sStB d a _ | .sStH d a _ | .sStW d a _ | .sStD d a _ | .sStRelW d a _ | .sStRelD d a _ =>
    [useW .s a, useH .s d.toNat]
  | .sLi .. | .sFence .. | .sCsrr .. | .sRdcyc .. => []
  | .bBr _ | .bJal _ | .bLoopi .. | .bTret | .bDone | .bYield | .bTrig | .bSwap _ | .bJoin
  | .bPark _ => []
  | .bBp p _ _ | .bTrap p _ _ => [useH .p p.toNat]
  | .bJr r | .bSleep r => [useH .s r.toNat]
  | .bLoop c _ => [useH .s c.toNat]
  | .bTask i b _ =>
    useH .s i.toNat :: [0, 1, 2, 3, 4, 5, 6].map fun j => useH .s (b.toNat + j)
  | .vFadd _ a b _ | .vFsub _ a b _ | .vFmul _ a b _ | .vFmin _ a b _ | .vFmax _ a b _
  | .vAdd _ a b _ | .vSub _ a b _ | .vMul _ a b _ | .vMulh _ a b _ | .vMulhn _ a b _
  | .vAnd _ a b _ | .vOr _ a b _ | .vXor _ a b _ | .vAndn _ a b _ | .vShl _ a b _ | .vShr _ a b _
  | .vSra _ a b _ | .vMin _ a b _ | .vMax _ a b _ | .vMinn _ a b _ | .vMaxn _ a b _
  | .vAddsat _ a b _ | .vSubsat _ a b _ | .vSel _ a b _ | .vPerm _ a b _ | .vZip _ a b _
  | .vUnzip _ a b _ => [useW .v a, useW .v b]
  | .vFcmpEq _ a b | .vFcmpLt _ a b | .vFcmpLe _ a b | .vFcmpUn _ a b
  | .vIcmpEq _ a b | .vIcmpLt _ a b | .vIcmpLtn _ a b => [useW .v a, useW .v b]
  | .vFma d a b _ | .vFms d a b _ => [useW .v a, useW .v b, useH .v d.toNat]
  | .vFabs _ a _ | .vFneg _ a _ | .vAbs _ a _ | .vMov _ a _ | .vCvt _ a _ _ | .vWiden _ a _ _ _
  | .vPack6 _ a _ | .vUnpack6 _ a _ | .vPackq4 _ a _ | .vUnpackq4 _ a _
  | .vRadd _ a _ | .vRmax _ a _ | .vRmin _ a _ | .vRfadd _ a _ | .vRfmax _ a _ | .vRfmin _ a _
  | .vScanAdd _ a _ | .vScanFadd _ a _ | .vRcp _ a _ | .vRsqrt _ a _ | .vSqrt _ a _ | .vExp2 _ a _
  | .vLog2 _ a _ | .vTanh _ a _ | .vErf _ a _ | .vKset _ a | .vQpush _ a | .vLred _ a _ _ _
  | .vLbcast _ a _ _ => [useW .v a]
  | .vNarrow _ a q _ _ =>
    (List.range (if q then 4 else 2)).map fun i =>
      ⟨.v, (a.reg.toNat + i) % 64, !a.wait, a.toN⟩
  | .vBcast _ a _ | .vSetfmt a => [useW .s a]
  | .vIns d a b _ => [useW .s a, useW .s b, useH .v d.toNat]
  | .vExt _ a b _ | .vRot _ a b _ | .vLpick _ a b _ => [useW .v a, useW .s b]
  | .vIota .. | .vQpop .. => []
  | .vLd _ a _ _ => [useW .s a]
  | .vSt d a _ => [useW .s a, useH .v d.toNat]
  | .vLdx _ a b _ => [useW .s a, useW .v b]
  | .vStx d a b => [useW .s a, useW .v b, useH .v d.toNat]
  | .vLds _ a b _ => [useW .s a, useW .s b]
  | .vSts d a b => [useW .s a, useW .s b, useH .v d.toNat]
  | .vRda _ a _ _ => [useW .s a]
  | .vWra d a _ | .vAdda d a _ => [useW .s a, useH .v d.toNat]
  | .vKand _ a b | .vKor _ a b | .vKxor _ a b => [useH .k a.toNat, useH .k b.toNat]
  | .vKnot _ a => [useH .k a.toNat]
  | .vKpopc _ a | .vKfirst _ a => [useH .k a.toNat]
  | .mCall _ | .mGang _ | .mGetp .. | .mZacc _ => []
  | .mSetp _ s => [useH .s s.toNat]
  | .mUld _ s _ => [useH .s s.toNat]
  | .cCopy c | .cCopyi c | .cGath c | .cScat c | .cFill c | .cPref c | .cRelay c | .cDecomp c
  | .cAccAdd c | .cAccFadd c | .cAccMax c | .cAccMin c | .cAccOr c | .cAccAnd c
  | .cFopAdd c | .cFopMin c | .cFopMax c | .cFopAnd c | .cFopOr c | .cFopXor c | .cFopSwap c
  | .cFopCas c | .cGet c | .cPut c | .cKvput c | .cKvapp c | .cKvinv c | .cMigr c =>
    quadUses c
  | .cRecast n _ _ _ _ => [0, 1, 2, 3].map fun i => useH .s (4 * n.toNat + i)
  | .cSbar .. => []
  | .qQcfg _ a | .qQpush _ a | .qTlwait _ a | .qTlsig a | .qSlack a | .qPromise _ _ a | .qLift _ a
  | .qLmask a => [useH .s a.toNat]
  | .qTlwaitx d a | .qFout d a => [useH .s a.toNat, useH .s d.toNat]
  | .qQpop .. | .qQpeek .. | .qQcnt .. | .qTlrd .. | .qBar .. | .qFin _ | .qFrame | .qIfence
  | .qLend => []
  | _ => []

/-- The registers an operation writes; writes to s0, p0 and k0 are left out (R191, R197). -/
def destsOf (i : Instr) : List (RegFile × Nat) :=
  let l : List (RegFile × Nat) := match i with
    | .sAdd d _ _ | .sSub d _ _ | .sMul d _ _ | .sMulh d _ _ | .sMulhn d _ _ | .sDiv d _ _
    | .sDivn d _ _ | .sRem d _ _ | .sRemn d _ _ | .sAnd d _ _ | .sOr d _ _ | .sXor d _ _
    | .sAndn d _ _ | .sSll d _ _ | .sSrl d _ _ | .sSra d _ _ | .sMin d _ _ | .sMax d _ _
    | .sMinn d _ _ | .sMaxn d _ _ | .sSlt d _ _ | .sSltn d _ _ | .sSel d _ _
    | .sAddi d _ _ | .sMuli d _ _ | .sAndi d _ _ | .sOri d _ _ | .sXori d _ _
    | .sSlli d _ _ | .sSrli d _ _ | .sSrai d _ _ | .sSlti d _ _ | .sSltni d _ _ | .sLih d _ _
    | .sLdB d _ _ | .sLdBn d _ _ | .sLdH d _ _ | .sLdHn d _ _ | .sLdW d _ _ | .sLdWn d _ _
    | .sLdD d _ _ | .sLdAcqW d _ _ | .sLdAcqD d _ _
    | .sCsrw d _ _ | .sCsrs d _ _ | .sCsrc d _ _ => [(.s, d.toNat)]
    | .sMov d _ | .sClz d _ | .sCtz d _ | .sPopc d _ | .sBswap d _ | .sLi d _ | .sCsrr d _ =>
      [(.s, d.toNat)]
    | .sRdcyc d => [(.s, d.toNat)]
    | .sCmpEq p _ _ | .sCmpNe p _ _ | .sCmpLt p _ _ | .sCmpGe p _ _ | .sCmpLtn p _ _
    | .sCmpGen p _ _ => [(.p, p.toNat)]
    | .sCmpiEq p _ _ | .sCmpiNe p _ _ | .sCmpiLt p _ _ | .sCmpiGe p _ _ => [(.p, p.toNat)]
    | .bJal _ => [(.s, 60)]
    | .bTask _ _ s => [(.s, s.toNat)]
    | .vFadd d _ _ _ | .vFsub d _ _ _ | .vFmul d _ _ _ | .vFma d _ _ _ | .vFms d _ _ _
    | .vFmin d _ _ _ | .vFmax d _ _ _
    | .vAdd d _ _ _ | .vSub d _ _ _ | .vMul d _ _ _ | .vMulh d _ _ _ | .vMulhn d _ _ _
    | .vAnd d _ _ _ | .vOr d _ _ _ | .vXor d _ _ _ | .vAndn d _ _ _ | .vShl d _ _ _ | .vShr d _ _ _
    | .vSra d _ _ _ | .vMin d _ _ _ | .vMax d _ _ _ | .vMinn d _ _ _ | .vMaxn d _ _ _
    | .vAddsat d _ _ _ | .vSubsat d _ _ _ | .vSel d _ _ _ | .vIns d _ _ _ | .vExt d _ _ _
    | .vPerm d _ _ _ | .vRot d _ _ _ | .vZip d _ _ _ | .vUnzip d _ _ _
    | .vLdx d _ _ _ | .vLds d _ _ _ | .vLpick d _ _ _ => [(.v, d.toNat)]
    | .vFabs d _ _ | .vFneg d _ _ | .vAbs d _ _ | .vMov d _ _ | .vBcast d _ _
    | .vPack6 d _ _ | .vUnpack6 d _ _ | .vPackq4 d _ _ | .vUnpackq4 d _ _
    | .vRadd d _ _ | .vRmax d _ _ | .vRmin d _ _ | .vRfadd d _ _ | .vRfmax d _ _ | .vRfmin d _ _
    | .vScanAdd d _ _ | .vScanFadd d _ _ | .vRcp d _ _ | .vRsqrt d _ _ | .vSqrt d _ _
    | .vExp2 d _ _ | .vLog2 d _ _ | .vTanh d _ _ | .vErf d _ _ => [(.v, d.toNat)]
    | .vCvt d _ _ _ | .vNarrow d _ _ _ _ | .vIota d _ | .vQpop d _ _ | .vLd d _ _ _
    | .vRda d _ _ _ | .vKpopc d _ | .vKfirst d _ | .vLred d _ _ _ _ | .vLbcast d _ _ _ =>
      [(.v, d.toNat)]
    | .vWiden d _ q _ _ => (List.range (if q then 4 else 2)).map fun i => (.v, (d.toNat + i) % 64)
    | .vFcmpEq k _ _ | .vFcmpLt k _ _ | .vFcmpLe k _ _ | .vFcmpUn k _ _
    | .vIcmpEq k _ _ | .vIcmpLt k _ _ | .vIcmpLtn k _ _ => [(.k, k.toNat)]
    | .vKand d _ _ | .vKor d _ _ | .vKxor d _ _ => [(.k, d.toNat)]
    | .vKnot d _ | .vKset d _ => [(.k, d.toNat)]
    | .mGetp _ d => [(.s, d.toNat)]
    | .cCopy c | .cCopyi c | .cGath c | .cScat c | .cFill c | .cPref c | .cRelay c | .cDecomp c
    | .cAccAdd c | .cAccFadd c | .cAccMax c | .cAccMin c | .cAccOr c | .cAccAnd c
    | .cFopAdd c | .cFopMin c | .cFopMax c | .cFopAnd c | .cFopOr c | .cFopXor c | .cFopSwap c
    | .cFopCas c | .cGet c | .cPut c | .cKvput c | .cKvapp c | .cKvinv c | .cMigr c =>
      [(.s, c.prom.toNat)]
    | .cRecast _ p _ _ _ => [(.s, p.toNat)]
    | .cSbar p _ _ _ _ _ => [(.s, p.toNat)]
    | .qQpop _ d | .qQpeek _ d _ | .qQcnt _ d | .qTlrd _ d | .qPromise _ d _ | .qFin d =>
      [(.s, d.toNat)]
    | _ => []
  l.filter fun r => r.1 == .v || r.2 != 0

/-- The queue an operation pushes, the one it pops, and every queue it names (R191, R345). -/
def pushOf : Instr → Option Nat
  | .qQpush x _ => some x.toNat
  | .vQpush q _ => some q.toNat
  | _ => none
def popOf : Instr → Option Nat
  | .qQpop x _ => some x.toNat
  | .vQpop _ q _ => some q.toNat
  | _ => none
def cQueue (c : CFields) : List Nat := if c.cqv then [c.cq.toNat] else []
def queuesOf : Instr → List Nat
  | .qQcfg x _ | .qQpush x _ | .qQpop x _ | .qQpeek x _ _ | .qQcnt x _ => [x.toNat]
  | .vQpush q _ => [q.toNat]
  | .vQpop _ q _ => [q.toNat]
  | .cCopy c | .cCopyi c | .cGath c | .cScat c | .cFill c | .cPref c | .cRelay c | .cDecomp c
  | .cAccAdd c | .cAccFadd c | .cAccMax c | .cAccMin c | .cAccOr c | .cAccAnd c
  | .cFopAdd c | .cFopMin c | .cFopMax c | .cFopAnd c | .cFopOr c | .cFopXor c | .cFopSwap c
  | .cFopCas c | .cGet c | .cPut c | .cKvput c | .cKvapp c | .cKvinv c | .cMigr c =>
    cQueue c
  | .cRecast _ _ v q _ => if v then [q.toNat] else []
  | .cSbar _ v q _ _ _ => if v then [q.toNat] else []
  | .mCall c | .mGang c => if c.gv then [c.gq.toNat] else []
  | _ => []

/-- The accumulator bank an operation names (R213). -/
def bankOf : Instr → Option Nat
  | .vRda _ _ n _ => some n.toNat
  | .vWra _ _ n | .vAdda _ _ n => some n.toNat
  | .mCall c | .mGang c => some c.bank.toNat
  | .mZacc n => some n.toNat
  | .mUld n _ _ => some n.toNat
  | _ => none

/-- The operation classes R191 counts: sequencer slot, vector, matrix, copy. -/
inductive OpClass where | seq | vec | mat | copy
  deriving DecidableEq, Repr

/-- The class of a slot by U (R239). -/
def opClass (w : Nat) : OpClass :=
  match slotClass w with
  | 2 => .vec
  | 3 => .mat
  | 4 => .copy
  | _ => .seq

/-- How many operations of a class a group may hold (R191). -/
def classLimit : OpClass → Nat
  | .seq => 1
  | .vec => 2
  | .mat => 1
  | .copy => 2

/-- The V operations that take a lent mask and a format override: those with a z bit (R384). -/
def takesLend : Instr → Bool
  | .vKand .. | .vKor .. | .vKxor .. | .vKnot .. | .vKpopc .. | .vKfirst .. | .vKset .. => false
  | .vSetfmt _ | .vSt .. | .vStx .. | .vSts .. | .vWra .. | .vAdda .. | .vQpush .. => false
  | .vFcmpEq .. | .vFcmpLt .. | .vFcmpLe .. | .vFcmpUn .. | .vIcmpEq .. | .vIcmpLt ..
  | .vIcmpLtn .. => false
  | _ => true

/-- The selector of a value-immediate S operation (R243). -/
def isValueImm (w : Nat) : Bool :=
  let op := fld w 27 21
  slotClass w == 0 && ((0x20 ≤ op && op ≤ 0x24) || (0x28 ≤ op && op ≤ 0x2B) ||
    (0x40 ≤ op && op ≤ 0x4E) || (0x56 ≤ op && op ≤ 0x59))

/-- The stage A opcodes of a cascade (R261). -/
def isCascA (w : Nat) : Bool :=
  let op := fld w 27 21
  slotClass w == 2 && (op ≤ 8 || (0x10 ≤ op && op ≤ 0x20) || op == 0x24 || op == 0x25)

/-- A control register number that R199 lists. -/
def csrListed (n : Nat) : Bool := n ≤ 0x14

/-! ### Forming a group -/

/-- A slot that holds an operation (R240). -/
def SlotAt.isOp (x : SlotAt) : Bool := slotClass x.w < 6 && !isNopSlot x.w
def SlotAt.isPrefix (x : SlotAt) : Bool := slotClass x.w == 6
def SlotAt.isHeader (x : SlotAt) : Bool := slotClass x.w == 7

/-- The slots of the group that begins at bundle b, slot s (R241), and whether it runs past its sixteenth
slot or past bundle 4,095. -/
def gather (fetch : Nat → Nat) : Nat → Nat → Nat → List SlotAt × Bool
  | 0, _, _ => ([], true)
  | n + 1, b, s =>
    let w := fetch b / 2 ^ (32 * s) % 2 ^ 32
    if bitOf w 31 then ([⟨b, s, w⟩], false)
    else if b = 4095 ∧ s = 3 then ([⟨b, s, w⟩], true)
    else
      let r := if s = 3 then gather fetch n (b + 1) 0 else gather fetch n b (s + 1)
      (⟨b, s, w⟩ :: r.1, r.2)

/-- The header in s0 of bundle b, when it stands in the group. -/
def headerOf (sl : List SlotAt) (b : Nat) : Option Nat :=
  (sl.find? fun x => x.b == b && x.s == 0 && x.isHeader).map (·.w)

/-- The slot of the group at (b, s). -/
def slotAt (sl : List SlotAt) (b s : Nat) : Option SlotAt := sl.find? fun x => x.b == b && x.s == s

/-- The target of a prefix (R257): the first slot after it in its bundle that is no prefix. -/
def prefixTarget (sl : List SlotAt) (x : SlotAt) : Option SlotAt :=
  sl.find? fun y => y.b == x.b && x.s < y.s && !y.isPrefix

/-- The prefixes that target a slot. -/
def prefixesOf (sl : List SlotAt) (y : SlotAt) : List Nat :=
  (sl.filter fun x => x.isPrefix && prefixTarget sl x == some y).map (·.w)

/-- The seven bits a lend header of the group lends to slot s of bundle b (R259). -/
def lentBits (h s : Nat) : Nat :=
  match s with
  | 1 => fld h 20 14
  | 2 => fld h 13 7
  | 3 => fld h 6 0
  | _ => 0

/-- The kind of a header (R258). -/
def hKind (h : Nat) : Nat := fld h 27 26

/-- The sync field of a header (R259); zero in the kinds that have none. -/
def hSync (h : Nat) : Nat :=
  match hKind h with
  | 0 => fld h 25 23
  | 1 => fld h 7 5
  | _ => 0

/-- The prefix kinds a slot can take (R257). -/
def prefixTakes (kind w : Nat) : Bool :=
  let c := slotClass w
  let op := fld w 27 21
  let mem := (c == 0 && 0x40 ≤ op && op ≤ 0x4E) || (c == 2 && 0x50 ≤ op && op ≤ 0x55)
  let copy := c == 4 && (match decodeFields w with | .error .reserved => false | _ => true)
  match kind with
  | 1 => mem || copy || (c == 3 && fld w 27 24 == 0)
  | 2 => c == 0 && 0x4B ≤ op && op ≤ 0x4E
  | 3 => c == 1 && fld w 27 22 == 1
  | 4 => mem || copy || (c == 0 && (op == 0x61 || op == 0x65))
  | _ => false

/-- A field of a prefix holds a value its kind forbids (R257). -/
def prefixFieldBad (hm : Bool) (w : Nat) : Bool :=
  match fld w 27 24 with
  | 1 => fld w 2 0 != 0 || fld w 7 4 == 0
  | 2 => fld w 20 0 != 0 || 4 < fld w 23 21
  | 3 => fld w 23 0 != 0
  | 4 => fld w 23 0 != 0 || !hm
  | _ => true

/-- R257: the prefix at x is misused. -/
def prefixBad (hm : Bool) (sl : List SlotAt) (x : SlotAt) : Bool :=
  x.s == 3 || bitOf x.w 31 || prefixFieldBad hm x.w ||
  match prefixTarget sl x with
  | none => true
  | some y =>
    !y.isOp || !prefixTakes (fld x.w 27 24) y.w ||
    sl.any fun z => z.isPrefix && z != x && prefixTarget sl z == some y &&
      fld z.w 27 24 == fld x.w 27 24

/-- The lent bits of a lend header reach a slot that can take them, or are zero (R259). -/
def lentOk (sl : List SlotAt) (b h s : Nat) : Bool :=
  lentBits h s == 0 ||
  match slotAt sl b s with
  | none => false
  | some y =>
    y.isOp && (isValueImm y.w ||
      (slotClass y.w == 2 && (match decodeFields y.w with
        | .ok i => takesLend i
        | .error (.reason _) => true
        | .error .reserved => false)))

/-- A stage that takes no second operand: pass and fabs (R261). -/
def stageUnary (op : Nat) : Bool := op == 0 || op == 14

/-- R258 to R261, R192: the reasons a header at x breaks. -/
def headerReasons (sl : List SlotAt) (x : SlotAt) : List Nat :=
  if x.s ≠ 0 then [1] else
  let h := x.w
  let before := sl.takeWhile (fun y => y != x)
  let dup := (hSync h != 0 && before.any fun y => y.isHeader && y.s == 0 && hSync y.w != 0) ||
    (hKind h == 1 && before.any fun y => y.isHeader && y.s == 0 && hKind y.w == 1)
  let reserved := hSync h == 2 || hSync h == 3
  let target := fld h 25 24
  let own : Bool := match hKind h with
    | 0 => fld h 22 21 != 0 || !([1, 2, 3].all (lentOk sl x.b h))
    | 1 => fld h 4 0 != 0 || 11 < fld h 13 8
    | 2 => target == 0 || (match slotAt sl x.b target with
        | none => true
        | some y => !isValueImm y.w)
    | _ => target == 0 || (match slotAt sl x.b target with
        | none => true
        | some y => !isCascA y.w)
  let r2 := if dup || reserved || own then [2] else []
  let r6 := if hKind h == 3 && ((stageUnary (fld h 23 20) && fld h 15 9 != 0) ||
      (stageUnary (fld h 19 16) && fld h 8 2 != 0)) then [6] else []
  r2 ++ r6

/-- The registers of an operation with its lent mask and cascade. -/
def allUses (i : Instr) (c : OpCtx) : List Use :=
  usesOf i ++
  (match c.casc with
   | none => []
   | some k => (if stageUnary k.opB then [] else [useW .v k.c]) ++
      (if stageUnary k.opC then [] else [useW .v k.e])) ++
  (if c.mask = 0 then [] else [useH .k c.mask.toNat])

/-- Two operations of a group may not stand together: the later reads what the earlier writes or the
other way, or both write one register (R191). -/
def regClash (a b : Instr × OpCtx) : Bool :=
  let rd := fun (x : Instr × OpCtx) => (allUses x.1 x.2).map fun u => (u.file, u.n)
  let wr := fun (x : Instr × OpCtx) => destsOf x.1
  (wr a).any (fun r => (rd b).contains r || (wr b).contains r) || (rd a).any ((wr b).contains ·)

/-- R191 to R213, R272, R345: the operation b cannot join a group that already holds a. -/
def pairBad (a b : Instr × OpCtx) : Bool :=
  regClash a b ||
  ((pushOf a.1).isSome && pushOf a.1 == pushOf b.1) ||
  ((popOf a.1).isSome && popOf a.1 == popOf b.1) ||
  ((bankOf a.1).isSome && bankOf a.1 == bankOf b.1) ||
  (match a.1, b.1 with
   | .qQcfg x _, j => (queuesOf j).contains x.toNat
   | j, .qQcfg x _ => (queuesOf j).contains x.toNat
   | _, _ => false)

/-- The copy slot a C operation takes (13_assembly R272): slots s0, s2 are copy 0, s1, s3 copy 1. -/
def copySlot (s : Nat) : Nat := s % 2

/-- The context of the operation at a slot. -/
def ctxOf (sl : List SlotAt) (idx vinst : Nat) (prof : Option Nat) (x : SlotAt) : OpCtx :=
  let h := headerOf sl x.b
  let ps := prefixesOf sl x
  let lend : Option Nat := match h with
    | some hw => if hKind hw = 0 ∧ x.s ≠ 0 then some (lentBits hw x.s) else none
    | none => none
  let tgt : Option Nat := match h with
    | some hw => if hKind hw ≥ 2 ∧ fld hw 25 24 = x.s ∧ x.s ≠ 0 then some hw else none
    | none => none
  let casc : Option Nat := match tgt with
    | some hw => if hKind hw = 3 then some hw else none
    | none => none
  { idx := idx, bundle := x.b, slot := x.s, raw := x.w, prof := prof, vinst := vinst
    imm := if isValueImm x.w then
        match tgt with
        | some hw => if hKind hw = 2 then .long (fld hw 23 0) else .none
        | none => match lend with | some n => .lend n | none => .none
      else .none
    mask := match casc with
      | some hw => .ofNat 3 (fld hw 1 0)
      | none => match lend with
        | some n => if slotClass x.w = 2 then .ofNat 3 (fld n 6 4) else 0
        | none => 0
    ovr := match lend with | some n => if slotClass x.w = 2 then fld n 3 0 else 0 | none => 0
    casc := casc.map fun hw =>
      ⟨fld hw 23 20, fld hw 19 16, srcOf (fld hw 15 9), srcOf (fld hw 8 2)⟩
    lock := (ps.find? fun w => fld w 27 24 == 1).map fun w =>
      ⟨.ofNat 16 (fld w 23 8), fld w 7 4, bitOf w 3⟩
    scope := (ps.find? fun w => fld w 27 24 == 2).map fun w => .ofNat 3 (fld w 23 21)
    split := ps.any fun w => fld w 27 24 == 3
    loc := ps.any fun w => fld w 27 24 == 4 }

/-- The operation slots of a group with their indexes; a slot that is no legal operation keeps its index
and carries none. -/
def opSlots (sl : List SlotAt) (prof : Option Nat) : List (SlotAt × Option (Instr × OpCtx)) :=
  let ops := sl.filter (·.isOp)
  (ops.zip (List.range ops.length)).map fun (x, i) =>
    let nv := ((ops.take i).filter fun y => opClass y.w == .vec).length
    (x, match decodeFields x.w with
      | .ok j => some (j, ctxOf sl i nv prof x)
      | .error _ => none)

/-- Own violations of an operation slot: reserved code, fields, unlisted control register (R199, R256,
R262). The result is a trap code and TRAPINFO. -/
def slotViolation (x : SlotAt) : List (Nat × Nat) :=
  match decodeSlot x.w with
  | .error .reserved => [(2, x.w)]
  | .error (.reason r) => [(1, r * 256 + x.s)]
  | .ok i =>
    match i with
    | .sCsrr _ c => if csrListed c.toNat then [] else [(2, x.w)]
    | .sCsrw _ _ c | .sCsrs _ _ c | .sCsrc _ _ c => if csrListed c.toNat then [] else [(2, x.w)]
    | _ => []

/-- The sync request and the timed header of a group (R192). -/
def groupSync (sl : List SlotAt) : Nat :=
  match sl.find? fun x => x.isHeader && x.s == 0 && hSync x.w != 0 with
  | some x => hSync x.w
  | none => 0
def groupTimed (sl : List SlotAt) : Option Nat :=
  (sl.find? fun x => x.isHeader && x.s == 0 && hKind x.w == 1).map (·.w)

/-- Every violation of the group in the order of its slots, each with the operations it is charged to
(R129). -/
def violations (hm : Bool) (sl : List SlotAt) (ovf : Bool) : List Violation :=
  let ops := opSlots sl none
  let all := 2 ^ ops.length - 1
  let idx := fun (x : SlotAt) => ((ops.find? fun o => o.1 == x).bind (·.2)).map (·.2.idx)
  let bitOfSlot := fun (x : SlotAt) =>
    match (ops.zip (List.range ops.length)).find? fun o => o.1.1 == x with
    | some o => 2 ^ o.2
    | none => 0
  let sync := groupSync sl != 0
  let timed := (groupTimed sl).isSome
  let last := sl.getLast?
  sl.flatMap fun x =>
    let before := sl.takeWhile (fun y => y != x)
    let v := fun (r : Nat) (m : Nat) => (⟨1, r * 256 + x.s, m⟩ : Violation)
    let barBefore := before.any fun y => match decodeFields y.w with | .ok (.qBar ..) => true | _ => false
    let frameBefore := before.any fun y => match decodeFields y.w with | .ok .qFrame => true | _ => false
    let own : List Violation :=
      if x.isHeader then
        (headerReasons sl x).map (v · all) ++
        (if x.s = 0 ∧ ((hSync x.w ≠ 0 ∧ barBefore) ∨ (hKind x.w = 1 ∧ frameBefore)) then [v 2 all] else [])
      else if x.isPrefix then
        if prefixBad hm sl x then
          [v 3 (match prefixTarget sl x with | some y => bitOfSlot y | none => 0)] else []
      else if x.isOp then
        let m := bitOfSlot x
        let prev := ops.filter fun o => before.contains o.1
        let cls := opClass x.w
        let many := (prev.filter fun o => opClass o.1.w == cls).length ≥ classLimit cls
        let sameCopy := cls == .copy &&
          prev.any fun o => opClass o.1.w == .copy && copySlot o.1.s == copySlot x.s
        let clash := match (ops.find? fun o => o.1 == x).bind (·.2) with
          | none => false
          | some me => prev.any fun o => match o.2 with | none => false | some p => pairBad p me
        let headerBefore := fun (p : SlotAt → Bool) => before.any fun y => y.isHeader && y.s == 0 && p y
        let q2 := match decodeFields x.w with
          | .ok (.qBar ..) => sync && headerBefore fun y => hSync y.w != 0
          | .ok .qFrame => timed && headerBefore fun y => hKind y.w == 1
          | _ => false
        (slotViolation x).map (fun (c, n) => ⟨c, n, m⟩) ++
        (if many || sameCopy || clash then [v 4 m] else []) ++ (if q2 then [v 2 m] else [])
      else []
    own ++ (if ovf && last == some x then [v 4 ((idx x).elim 0 fun i => 2 ^ i)] else [])

/-- The roll call a sync code names (R260). -/
def syncOf (code : Nat) : Option SyncReq :=
  if code = 1 then some ⟨0, true⟩
  else if 4 ≤ code then some ⟨.ofNat 2 (code - 4), false⟩
  else none

/-- A decoded group, or the trap of its decode stage: code, TRAPINFO, FAULTMASK (R128, R129, R262). -/
def decodeGroup (hm : Bool) (fetch : Nat → Nat) (b s : Nat) : Except Violation Group :=
  if b > 4095 then .error ⟨1, 4 * 256, 0⟩ else
  let (sl, ovf) := gather fetch 16 b s
  match violations hm sl ovf with
  | v :: vs => .error ⟨v.code, v.info, (v :: vs).foldl (fun m u => m ||| u.mask) 0⟩
  | [] =>
    let timed := groupTimed sl
    let prof := timed.map fun h => fld h 13 8
    let ops := (opSlots sl prof).filterMap (·.2)
    let barSync := ops.findSome? fun o => match o.1 with
      | .qBar m sw => some (⟨m, sw⟩ : SyncReq)
      | _ => none
    .ok {
      ops := ops
      sync := match syncOf (groupSync sl) with | some r => some r | none => barSync
      stamp := timed.map fun h => .ofNat 12 (fld h 25 14)
      lastB := (sl.getLast?.map (·.b)).getD b
      lastS := (sl.getLast?.map (·.s)).getD s }

end Sys2Proof.Machine
end

