-- ==== Sys2Proof/Machine/Numerics.lean ====
section
/-!
DEFINITION. Number formats and numerics (11_formats): decoding, rounding, conversion, the exact
arithmetic behind the vector and matrix engines, FX128 and the special functions. Values are exact:
an integer, or a sign with a magnitude m × 2^e.
-/

namespace Sys2Proof.Machine

/-! ### Flags -/

/-- The flags of FPFLAGS (10_core R202), as its low seven bits. -/
abbrev Flags := BitVec 7

def fNX : Flags := 1
def fUF : Flags := 2
def fOF : Flags := 4
def fDZ : Flags := 8
def fNV : Flags := 16
def fFMT : Flags := 32
def fIV : Flags := 64

/-! ### Formats -/

/-- The bit width of a format code (R220). -/
def fmtBits (f : Nat) : Nat :=
  match f with
  | 0 => 32 | 1 => 32 | 2 => 16 | 3 => 16 | 4 => 8 | 5 => 8 | 6 => 8 | 7 => 6 | 8 => 6 | 9 => 4
  | 10 => 16 | 11 => 8 | 12 => 8 | 13 => 6 | 14 => 6 | 15 => 4 | 16 => 4 | 17 => 2 | 18 => 4
  | 19 => 4 | 20 => 8 | 21 => 6 | 22 => 4 | 23 => 6 | 24 => 4 | 25 => 32 | 26 => 128 | _ => 0

/-- The float formats (R220). -/
def isFloatFmt (f : Nat) : Bool := 1 ≤ f && f ≤ 9

/-- The block-scaled formats (R220). -/
def isBlockFmt (f : Nat) : Bool := 20 ≤ f && f ≤ 24

/-- The natural formats NAT8, NAT6, NAT4 (R226). -/
def isNatFmt (f : Nat) : Bool := f == 12 || f == 14 || f == 16

/-- The element format behind a block-scaled format (R231). -/
def blockElem (f : Nat) : Nat :=
  match f with
  | 20 => 11 | 21 => 13 | 22 => 15 | 23 => 8 | 24 => 9 | n => n

/-- Exponent bits, mantissa bits and bias of a float format (R222). -/
def fltE (f : Nat) : Nat :=
  match f with | 1 => 8 | 2 => 5 | 3 => 8 | 4 => 5 | 5 => 4 | 6 => 3 | 7 => 3 | _ => 2
def fltM (f : Nat) : Nat :=
  match f with | 1 => 23 | 2 => 10 | 3 => 7 | 4 => 2 | 5 => 3 | 6 => 4 | 7 => 2 | 8 => 3 | _ => 1
def fltBias (f : Nat) : Nat :=
  match f with | 1 => 127 | 2 => 15 | 3 => 127 | 4 => 15 | 5 => 7 | 6 => 3 | 7 => 3 | _ => 1

/-- The format has Inf (R222). -/
def hasInf (f : Nat) : Bool := 1 ≤ f && f ≤ 4

/-- The format has NaN (R222). -/
def hasNan (f : Nat) : Bool := 1 ≤ f && f ≤ 6

/-- The canonical NaN of a format (R223). -/
def canonNan (f : Nat) : Nat :=
  match f with
  | 1 => 0x7FC00000 | 2 => 0x7E00 | 3 => 0x7FC0 | 4 => 0x7E | 5 => 0x7F | 6 => 0x7F | _ => 0

/-- The code of the largest finite value, sign clear (R222). -/
def maxFinCode (f : Nat) : Nat :=
  match f with
  | 1 => 0x7F7FFFFF | 2 => 0x7BFF | 3 => 0x7F7F | 4 => 0x7B | 5 => 0x7E | 6 => 0x7E
  | 7 => 0x1F | 8 => 0x1F | _ => 7

/-- The code of Inf, sign clear, in a format that has it (R222). -/
def infCode (f : Nat) : Nat := (2 ^ fltE f - 1) * 2 ^ fltM f

/-- The code of a sign: the top bit of the format. -/
def signCode (f : Nat) (neg : Bool) : Nat := if neg then 2 ^ (fltE f + fltM f) else 0

/-! ### Values -/

/-- An exact real with a signed zero, Inf or NaN. `fin neg m e` is (−1)^neg × m × 2^e. -/
inductive FVal where
  | nan
  | inf (neg : Bool)
  | fin (neg : Bool) (m : Nat) (e : Int)
  deriving DecidableEq, Repr

/-- An element's value: a float or an integer (R232). -/
inductive Num where
  | f (x : FVal)
  | i (n : Int)
  deriving DecidableEq, Repr

def FVal.neg : FVal → FVal
  | .nan => .nan
  | .inf s => .inf (!s)
  | .fin s m e => .fin (!s) m e

def FVal.abs : FVal → FVal
  | .nan => .nan
  | .inf _ => .inf false
  | .fin _ m e => .fin false m e

/-- A zero of either sign. -/
def FVal.isZero : FVal → Bool
  | .fin _ 0 _ => true
  | _ => false

/-- An integer as a real; zero is +0. -/
def ofInt (n : Int) : FVal := .fin (n < 0) n.natAbs 0

/-- A value as a real. -/
def Num.real : Num → FVal
  | .f x => x
  | .i n => ofInt n

/-- Decode of a float code (R222). -/
def decodeF (f code : Nat) : FVal :=
  let m := fltM f
  let x := code / 2 ^ m % 2 ^ fltE f
  let mant := code % 2 ^ m
  let s := bitOf code (fltE f + m)
  let top := x == 2 ^ fltE f - 1
  if hasInf f && top then (if mant = 0 then .inf s else .nan)
  else if hasNan f && top && mant == 2 ^ m - 1 then .nan
  else if x = 0 then .fin s mant (1 - (fltBias f : Int) - m)
  else .fin s (2 ^ m + mant) ((x : Int) - fltBias f - m)

/-- The least and greatest integer of a format (R226). -/
def intMin (f : Nat) : Int := if isNatFmt f then 0 else -(2 ^ (fmtBits f - 1) : Nat)
def intMax (f : Nat) : Int := if isNatFmt f then (2 ^ fmtBits f : Nat) - 1 else (2 ^ (fmtBits f - 1) : Nat) - 1

/-- Wrap: the low w bits read in format f (R226). -/
def wrapInt (f : Nat) (n : Int) : Int :=
  let u := n.emod (2 ^ fmtBits f : Nat)
  if isNatFmt f || u ≤ intMax f then u else u - (2 ^ fmtBits f : Nat)

/-- IntNarrow (R226). -/
def intNarrow (f : Nat) (sat : Bool) (n : Int) : Int :=
  if intMin f ≤ n ∧ n ≤ intMax f then n
  else if sat then (if n < intMin f then intMin f else intMax f)
  else wrapInt f n

/-- The code of an integer of format f. -/
def intCode (f : Nat) (n : Int) : Nat := (n.emod (2 ^ fmtBits f : Nat)).toNat

/-- The integer of a code: two's complement, or natural (R226). -/
def decodeI (f code : Nat) : Int := wrapInt f (code % 2 ^ fmtBits f : Nat)

/-- Decode by a register format (R222, R226). -/
def decodeNum (f code : Nat) : Num :=
  if isFloatFmt f then .f (decodeF f code) else .i (decodeI f code)

/-! ### Rounding -/

/-- How a magnitude lies above its floor. -/
inductive Frac where | zero | below | half | above
  deriving DecidableEq, Repr

/-- RoundInt (R224): the floor, how the magnitude lies above it, the mode and the sign. -/
def roundDir (rm : Nat) (neg : Bool) (n : Nat) (fr : Frac) : Nat :=
  if fr = .zero then n else
  match rm with
  | 0 => if fr = .above || (fr = .half && n % 2 == 1) then n + 1 else n
  | 1 => n
  | 2 => if neg then n + 1 else n
  | 3 => if neg then n else n + 1
  | _ => if n % 2 = 1 then n else n + 1

/-- m × 2^e, with a nonzero tail below it when `st`, divided by 2^q: the floor and what lies above. -/
def splitAt (m : Nat) (e q : Int) (st : Bool) : Nat × Frac :=
  if q ≤ e then (m * 2 ^ (e - q).toNat, if st then .below else .zero)
  else
    let k := (q - e).toNat
    let r := m % 2 ^ k
    let h := 2 ^ (k - 1)
    (m / 2 ^ k,
      if r < h then (if r = 0 ∧ st = false then .zero else .below)
      else if r = h ∧ st = false then .half else .above)

/-- The code of a magnitude of u units of the smallest subnormal (R222), finite in f. -/
def unitsCode (f u : Nat) : Nat :=
  if u < 2 ^ fltM f then u
  else
    let l := Nat.log2 u - fltM f
    (l + 1) * 2 ^ fltM f + (u / 2 ^ l - 2 ^ fltM f)

/-- Round (R225) of a finite nonzero or zero magnitude m × 2^e with a tail when `st`: code and flags. -/
def roundFin (f rm : Nat) (neg : Bool) (m : Nat) (e : Int) (st : Bool) : Nat × Flags :=
  if m = 0 ∧ st = false then (signCode f neg, 0) else
  let emin : Int := 1 - (fltBias f : Int)
  let lg : Int := (Nat.log2 m : Int) + e
  let q : Int := max lg emin - fltM f
  let (n0, fr) := splitAt m e q st
  let n := roundDir rm neg n0 fr
  let inexact := fr != .zero
  let u := n * 2 ^ (q - (emin - fltM f)).toNat
  let code := unitsCode f u
  let nx : Flags := if inexact then fNX else 0
  if code > maxFinCode f then
    if hasInf f && (rm == 0 || (rm == 3 && !neg) || (rm == 2 && neg)) then
      (signCode f neg + infCode f, nx ||| fOF ||| fNX)
    else (signCode f neg + maxFinCode f, nx ||| fOF ||| fNX)
  else
    (signCode f neg + code, nx ||| (if inexact && decide (lg < emin) then fUF else 0))

/-- Round (R225): the code in f and the flags. -/
def roundF (f rm : Nat) (x : FVal) : Nat × Flags :=
  match x with
  | .nan => if hasNan f then (canonNan f, 0) else (0, fNV)
  | .inf s =>
    if hasInf f then (signCode f s + infCode f, 0) else (signCode f s + maxFinCode f, fOF)
  | .fin s m e => roundFin f rm s m e false

/-- ToInt (R227). -/
def toIntF (f rm : Nat) (sat : Bool) (x : FVal) : Int × Flags :=
  match x with
  | .nan => (0, fIV)
  | .inf s => (if sat then (if s then intMin f else intMax f) else 0, fIV)
  | .fin s m e =>
    let (n0, fr) := splitAt m e 0 false
    let sg : Nat → Int := fun k => if s then -(k : Int) else k
    let n := sg (roundDir rm s n0 fr)
    if intMin f ≤ n ∧ n ≤ intMax f then (n, if fr = .zero then 0 else fNX)
    else if sat then (if n < intMin f then intMin f else intMax f, fIV)
    else (wrapInt f (sg n0), fIV)

/-- The conversion of a value into format f (R232 step 2): code and flags. -/
def convTo (f rm : Nat) (sat : Bool) (x : Num) : Nat × Flags :=
  if isFloatFmt f then roundF f rm x.real
  else
    match x with
    | .i n => (intCode f (intNarrow f sat n), 0)
    | .f y => let (n, fl) := toIntF f rm sat y; (intCode f n, fl)

/-! ### Exact arithmetic -/

/-- The signed integer of a magnitude scaled to 2^q, for q at most its exponent. -/
def scaled (neg : Bool) (m : Nat) (e q : Int) : Int :=
  let k : Int := (m * 2 ^ (e - q).toNat : Nat)
  if neg then -k else k

/-- The exact sum with the zero rule of R225: a zero sum keeps a common sign, else it is +0, −0 under
RDN. Flags name ∞ − ∞. -/
def addV (rm : Nat) (x y : FVal) : FVal × Flags :=
  match x, y with
  | .nan, _ => (.nan, 0)
  | _, .nan => (.nan, 0)
  | .inf s, .inf t => if s = t then (.inf s, 0) else (.nan, fNV)
  | .inf s, .fin .. => (.inf s, 0)
  | .fin .., .inf t => (.inf t, 0)
  | .fin s m e, .fin t n g =>
    let q := min e g
    let r := scaled s m e q + scaled t n g q
    if r = 0 then (.fin (if m = 0 ∧ n = 0 ∧ s = t then s else rm == 2) 0 0, 0)
    else (.fin (r < 0) r.natAbs q, 0)

/-- The exact product; flags name 0 × ∞. -/
def mulV (x y : FVal) : FVal × Flags :=
  match x, y with
  | .nan, _ => (.nan, 0)
  | _, .nan => (.nan, 0)
  | .inf s, .inf t => (.inf (s != t), 0)
  | .inf s, .fin t n _ => if n = 0 then (.nan, fNV) else (.inf (s != t), 0)
  | .fin s m _, .inf t => if m = 0 then (.nan, fNV) else (.inf (s != t), 0)
  | .fin s m e, .fin t n g => (.fin (s != t) (m * n) (e + g), 0)

/-- A < B on reals (no NaN); −0 = +0. -/
def ltV (x y : FVal) : Bool :=
  match x, y with
  | .nan, _ => false
  | _, .nan => false
  | .inf s, .inf t => s && !t
  | .inf s, .fin .. => s
  | .fin .., .inf t => !t
  | .fin s m e, .fin t n g => decide (scaled s m e (min e g) < scaled t n g (min e g))

/-- A = B on reals; −0 = +0, NaN equals nothing. -/
def eqV (x y : FVal) : Bool :=
  match x, y with
  | .nan, _ => false
  | _, .nan => false
  | .inf s, .inf t => s == t
  | .inf _, .fin .. => false
  | .fin .., .inf _ => false
  | .fin s m e, .fin t n g => decide (scaled s m e (min e g) = scaled t n g (min e g))

/-- Round of an exact result with the flags of the operation that made it. -/
def roundWith (f rm : Nat) (r : FVal × Flags) : Nat × Flags :=
  let (c, fl) := roundF f rm r.1
  (c, fl ||| r.2)

def faddC (f rm a b : Nat) : Nat × Flags := roundWith f rm (addV rm (decodeF f a) (decodeF f b))
def fsubC (f rm a b : Nat) : Nat × Flags := roundWith f rm (addV rm (decodeF f a) (decodeF f b).neg)
def fmulC (f rm a b : Nat) : Nat × Flags := roundWith f rm (mulV (decodeF f a) (decodeF f b))

/-- fma and fms (R389): one rounding of A × B + D, or of A × B − D. -/
def fmaC (f rm : Nat) (sub : Bool) (a b d : Nat) : Nat × Flags :=
  let p := mulV (decodeF f a) (decodeF f b)
  let dv := decodeF f d
  let s := addV rm p.1 (if sub then dv.neg else dv)
  roundWith f rm (s.1, s.2 ||| p.2)

/-- fmin and fmax (R389): −0 < +0, a NaN operand is missing, two NaNs give the canonical NaN; the
operand's code is unchanged. -/
def fminmaxC (f : Nat) (mx : Bool) (a b : Nat) : Nat :=
  match decodeF f a, decodeF f b with
  | .nan, .nan => canonNan f
  | .nan, _ => b
  | _, .nan => a
  | x, y =>
    let neg := fun c => bitOf c (fltE f + fltM f)
    let aless := ltV x y || (eqV x y && neg a && !neg b)
    if mx then (if aless then b else a) else (if aless then a else (if ltV y x || neg b then b else a))

/-- fabs and fneg (R389). -/
def fabsC (f a : Nat) : Nat :=
  match decodeF f a with
  | .nan => canonNan f
  | _ => a % 2 ^ (fltE f + fltM f)
def fnegC (f a : Nat) : Nat :=
  match decodeF f a with
  | .nan => canonNan f
  | _ => if bitOf a (fltE f + fltM f) then a - 2 ^ (fltE f + fltM f) else a + 2 ^ (fltE f + fltM f)

/-! ### Roots, reciprocals and the special functions (21_vector R401)

A value is handed to `roundFin` as a floor with a tail. rcp, rsqrt and sqrt are exact in that form. The
others are irrational except where the code says otherwise; they are computed in 400-bit fixed point. -/

/-- ⌊√n⌋ for n < 4^(k+1), bit by bit. -/
def isqrtGo (n : Nat) : Nat → Nat → Nat
  | 0, r => if (r + 1) * (r + 1) ≤ n then r + 1 else r
  | k + 1, r =>
    let t := r + 2 ^ (k + 1)
    isqrtGo n k (if t * t ≤ n then t else r)
def isqrt (n : Nat) : Nat := isqrtGo n (Nat.log2 n / 2 + 1) 0

/-- √(m × 2^e), m > 0: floor, exponent, tail. -/
def sqrtMag (m : Nat) (e : Int) : Nat × Int × Bool :=
  let odd := e.emod 2 == 1
  let m' := if odd then m * 2 else m
  let e' := if odd then e - 1 else e
  let n := m' * 2 ^ 128
  let r := isqrt n
  (r, e' / 2 - 64, r * r != n)

/-- 1 / (m × 2^e), m > 0. -/
def rcpMag (m : Nat) (e : Int) : Nat × Int × Bool :=
  let k := Nat.log2 m + 128
  (2 ^ k / m, -e - k, 2 ^ k % m != 0)

/-- 1 / √(m × 2^e), m > 0. -/
def rsqrtMag (m : Nat) (e : Int) : Nat × Int × Bool :=
  let odd := e.emod 2 == 1
  let m' := if odd then m * 2 else m
  let e' := if odd then e - 1 else e
  let k := Nat.log2 m' + 128
  let r := isqrt (2 ^ (2 * k) / m')
  (r, -(e' / 2) - k, r * r * m' != 2 ^ (2 * k))

/-- The bits of the fixed point. -/
def fixP : Nat := 400

/-- 2 × atanh(p / q) = 2 Σ (p/q)^(2j+1) / (2j+1), in fixed point. -/
def atanhGo (p2 q2 : Nat) : Nat → Nat → Nat → Nat → Nat
  | 0, _, _, acc => acc
  | n + 1, j, t, acc => atanhGo p2 q2 n (j + 1) (t * p2 / q2) (acc + t / (2 * j + 1))
def atanh2 (p q : Nat) : Nat := 2 * atanhGo (p * p) (q * q) 260 0 (p * 2 ^ fixP / q) 0

/-- ln 2 in fixed point. -/
def ln2Fix : Nat := atanh2 1 3

/-- exp(t) − 1 … summed from t^j / j!, t in fixed point below 1. -/
def expGo (t : Nat) : Nat → Nat → Nat → Nat → Nat
  | 0, _, _, acc => acc
  | n + 1, j, u, acc => expGo t n (j + 1) (u * t / 2 ^ fixP / j) (acc + u)
def expFix (t : Nat) : Nat := expGo t 90 1 (2 ^ fixP) 0

/-- 2^x for x = (−1)^neg m 2^e: floor, exponent, tail. Beyond 2^12 the result is far outside every format. -/
def exp2Mag (neg : Bool) (m : Nat) (e : Int) : Nat × Int × Bool :=
  if (Nat.log2 m : Int) + e > 12 then (1, if neg then -10000 else 10000, true)
  else
    let xf : Int := scaled neg (m * 2 ^ fixP) e (min e 0) / (2 ^ (-(min e 0)).toNat : Nat)
    let n := xf / (2 ^ fixP : Nat)
    let fr := (xf % (2 ^ fixP : Nat)).toNat
    let exact := decide (0 ≤ e) || m % 2 ^ (-e).toNat == 0
    if exact then (1, n, false) else (expFix (fr * ln2Fix / 2 ^ fixP), n - fixP, true)

/-- |log2 (m × 2^e)|, m > 0: its sign, floor, exponent, tail. -/
def log2Mag (m : Nat) (e : Int) : Bool × Nat × Int × Bool :=
  let l := Nat.log2 m
  let i : Int := (l : Int) + e
  if m = 2 ^ l then (i < 0, i.natAbs, 0, false)
  else
    let fr := atanh2 (m - 2 ^ l) (m + 2 ^ l) * 2 ^ fixP / ln2Fix
    let v : Int := i * (2 ^ fixP : Nat) + fr
    (v < 0, v.natAbs, -(fixP : Int), true)

/-- e^(−y) for y in fixed point: y = k ln 2 + r. -/
def expNegFix (y : Nat) : Nat :=
  let k := y / ln2Fix
  let r := y % ln2Fix
  2 ^ fixP * 2 ^ fixP / expFix r / 2 ^ k

/-- A value just below m × 2^e. -/
def justBelow (m : Nat) (e : Int) : Nat × Int × Bool := (m * 2 ^ 64 - 1, e - 64, true)

/-- tanh of m × 2^e, m > 0. -/
def tanhMag (m : Nat) (e : Int) : Nat × Int × Bool :=
  let lg : Int := (Nat.log2 m : Int) + e
  if lg < -60 then justBelow m e
  else if lg > 6 then justBelow 1 0
  else
    let x := (scaled false (m * 2 ^ fixP) e (min e 0)).toNat / 2 ^ (-(min e 0)).toNat
    let q := expNegFix (2 * x)
    ((2 ^ fixP - q) * 2 ^ fixP / (2 ^ fixP + q), -(fixP : Int), true)

/-- atan(1/q) in fixed point. -/
def atanGo (q2 : Nat) : Nat → Nat → Int → Int → Int
  | 0, _, _, acc => acc
  | n + 1, j, t, acc => atanGo q2 n (j + 1) (-(t / (q2 : Int))) (acc + t / (2 * j + 1 : Nat))
def atanInv (q : Nat) : Int := atanGo (q * q) 200 0 ((2 ^ fixP / q : Nat) : Int) 0

/-- π in fixed point. -/
def piFix : Nat := (16 * atanInv 5 - 4 * atanInv 239).toNat

/-- 2/√π in fixed point. -/
def twoRsqrtPi : Nat := 2 * 2 ^ (2 * fixP) / isqrt (piFix * 2 ^ fixP)

/-- Σ (−1)^n x^(2n+1) / (n! (2n+1)) in fixed point. -/
def erfGo (x2 : Nat) : Nat → Nat → Nat → Int → Int
  | 0, _, _, acc => acc
  | n + 1, j, t, acc =>
    erfGo x2 n (j + 1) (t * x2 / 2 ^ fixP / (j + 1))
      (if j % 2 = 0 then acc + (t / (2 * j + 1) : Nat) else acc - (t / (2 * j + 1) : Nat))

/-- erf of m × 2^e, m > 0. -/
def erfMag (m : Nat) (e : Int) : Nat × Int × Bool :=
  let lg : Int := (Nat.log2 m : Int) + e
  if lg < -60 then (m * twoRsqrtPi, e - fixP, true)
  else if lg ≥ 3 then justBelow 1 0
  else
    let x := (scaled false (m * 2 ^ fixP) e (min e 0)).toNat / 2 ^ (-(min e 0)).toNat
    let s := (erfGo (x * x / 2 ^ fixP) 450 0 x 0).toNat
    (s * twoRsqrtPi / 2 ^ fixP, -(fixP : Int), true)

/-- The special functions. -/
inductive Sfu where | rcp | rsqrt | sqrt | exp2 | log2 | tanh | erf
  deriving DecidableEq, Repr

/-- Round of a floor with a tail. -/
def roundMag (f rm : Nat) (neg : Bool) (r : Nat × Int × Bool) : Nat × Flags :=
  roundFin f rm neg r.1 r.2.1 r.2.2

/-- R401: the special function of a code of format f, correctly rounded, with its flags. -/
def sfuC (op : Sfu) (f rm a : Nat) : Nat × Flags :=
  match op, decodeF f a with
  | _, .nan => roundF f rm .nan
  | .rcp, .fin s 0 _ => roundWith f rm (.inf s, fDZ)
  | .rcp, .inf s => roundF f rm (.fin s 0 0)
  | .rcp, .fin s m e => roundMag f rm s (rcpMag m e)
  | .rsqrt, .fin s 0 _ => roundWith f rm (.inf s, fDZ)
  | .rsqrt, .inf true => roundWith f rm (.nan, fNV)
  | .rsqrt, .fin true _ _ => roundWith f rm (.nan, fNV)
  | .rsqrt, .inf false => roundF f rm (.fin false 0 0)
  | .rsqrt, .fin false m e => roundMag f rm false (rsqrtMag m e)
  | .sqrt, .fin s 0 _ => roundF f rm (.fin s 0 0)
  | .sqrt, .inf true => roundWith f rm (.nan, fNV)
  | .sqrt, .fin true _ _ => roundWith f rm (.nan, fNV)
  | .sqrt, .inf false => roundF f rm (.inf false)
  | .sqrt, .fin false m e => roundMag f rm false (sqrtMag m e)
  | .exp2, .inf true => roundF f rm (.fin false 0 0)
  | .exp2, .inf false => roundF f rm (.inf false)
  | .exp2, .fin _ 0 _ => roundF f rm (.fin false 1 0)
  | .exp2, .fin s m e => roundMag f rm false (exp2Mag s m e)
  | .log2, .fin _ 0 _ => roundWith f rm (.inf true, fDZ)
  | .log2, .inf true => roundWith f rm (.nan, fNV)
  | .log2, .fin true _ _ => roundWith f rm (.nan, fNV)
  | .log2, .inf false => roundF f rm (.inf false)
  | .log2, .fin false m e => let (s, r) := log2Mag m e; roundMag f rm (s && r.1 != 0) r
  | .tanh, .fin s 0 _ => roundF f rm (.fin s 0 0)
  | .tanh, .inf s => roundF f rm (.fin s 1 0)
  | .tanh, .fin s m e => roundMag f rm s (tanhMag m e)
  | .erf, .fin s 0 _ => roundF f rm (.fin s 0 0)
  | .erf, .inf s => roundF f rm (.fin s 1 0)
  | .erf, .fin s m e => roundMag f rm s (erfMag m e)

/-! ### FX128 (R233, 04_spaces R67) -/

/-- ToFx128: the 128-bit integer, whether it overflowed, whether the addend was NaN. -/
def toFx128 (code : Nat) (point : Nat) : Int × Bool × Bool :=
  match decodeF 1 code with
  | .nan => (0, false, true)
  | .inf s => (if s then -(2 ^ 127 : Nat) else (2 ^ 127 - 1 : Nat), true, false)
  | .fin s m e =>
    let (n0, fr) := splitAt m (e + point) 0 false
    let k : Int := roundDir 0 s n0 fr
    let n := if s then -k else k
    if n > (2 ^ 127 - 1 : Nat) then ((2 ^ 127 - 1 : Nat), true, false)
    else if n < -(2 ^ 127 : Nat) then (-(2 ^ 127 : Nat), true, false)
    else (n, false, false)

/-- F32FromFx128, flags discarded. -/
def f32OfFx128 (n : Int) (point : Nat) : Nat :=
  (roundFin 1 0 (n < 0) n.natAbs (-(point : Int)) false).1

/-! ### Block scales and outlier formats -/

/-- Sc8Value (R230). -/
def sc8Value (b : Nat) : FVal :=
  if b = 255 then .nan
  else if b / 8 = 0 then .fin false (b % 8) (-17)
  else .fin false (8 + b % 8) ((b / 8 : Nat) - 18)

/-- A block-scaled element (R231): Decode(element) × Sc8Value(scale), exact. -/
def blockValue (f code scale : Nat) : FVal := (mulV (decodeNum (blockElem f) code).real (sc8Value scale)).1

/-- The four values of a Q4X or Q4Y group from its four codes (R229), and whether a mark is misplaced. -/
def q4Group (f : Nat) (c0 c1 c2 c3 : Nat) : List FVal × Bool :=
  let small : Nat → FVal := fun c => if c = 8 then .fin false 0 0 else ofInt (decodeI 15 c)
  if c0 = 8 then
    ([decodeF (if f = 18 then 5 else 4) (c2 + 16 * c3), small c1, .fin false 0 0, .fin false 0 0],
      c1 == 8)
  else ([small c0, small c1, small c2, small c3], c1 == 8 || c2 == 8 || c3 == 8)

/-! ### Matrix numerics (R235 to R238) -/

/-- A numerics profile (R236). -/
structure Profile where
  rounded : Bool
  w : Nat
  perStep : Bool
  flush : Bool
  sat : Bool
  report : Bool
  deriving DecidableEq, Repr

/-- The published profiles 0 to 11 (R236). -/
def profile (n : Nat) : Profile :=
  match n with
  | 0 => ⟨false, 48, true, false, false, true⟩
  | 1 => ⟨false, 64, true, false, false, true⟩
  | 2 => ⟨false, 40, true, true, false, false⟩
  | 3 => ⟨false, 48, false, false, false, true⟩
  | 4 => ⟨false, 64, false, false, true, true⟩
  | 5 => ⟨true, 48, true, false, false, true⟩
  | 6 => ⟨false, 40, true, false, true, false⟩
  | 7 => ⟨false, 48, true, true, true, true⟩
  | 8 => ⟨false, 64, false, true, false, false⟩
  | 9 => ⟨true, 64, true, false, true, true⟩
  | 10 => ⟨false, 40, false, false, false, true⟩
  | _ => ⟨false, 48, false, true, true, false⟩

/-- Round to FP32 under a profile that may flush results below 2^−126 (R237). -/
def roundAcc (p : Profile) (x : FVal) : FVal × Flags :=
  let (c, fl) := roundF 1 0 x
  let y := decodeF 1 c
  if p.flush && c % 2 ^ 31 != 0 && decide (c % 2 ^ 31 < 2 ^ 23) then
    (.fin (bitOf c 31) 0 0, fl ||| fUF)
  else (y, fl)

/-- ⌊log2 |u|⌋ of a nonzero finite value. -/
def lgV : FVal → Option Int
  | .fin _ m e => if m = 0 then none else some ((Nat.log2 m : Int) + e)
  | _ => none

/-- The largest of the logarithms. -/
def maxLg : List FVal → Option Int
  | [] => none
  | x :: t =>
    match lgV x, maxLg t with
    | none, r => r
    | some a, none => some a
    | some a, some b => some (max a b)

/-- The pairwise tree over specials: one level, neighbours added. -/
def pairUp : List FVal → List FVal × Flags
  | x :: y :: t => let (r, f) := pairUp t; let (z, g) := addV 0 x y; (z :: r, f ||| g)
  | l => (l, 0)

/-- Truncation toward zero to a multiple of 2^q (R237): the multiple, and whether bits were lost. -/
def truncTo (q : Int) : FVal → Int × Bool
  | .fin s m e =>
    let (n, fr) := splitAt m e q false
    (if s then -(n : Int) else n, fr != .zero)
  | _ => (0, false)

/-- DotStep (R237) over the values of one K-step, already flushed where the profile says; `acc` is the
exact accumulator. Flags are those of the step, whether or not the profile reports them. -/
def dotStep (p : Profile) (acc : FVal) (ab : List (FVal × FVal)) : FVal × Flags :=
  let prods : List (FVal × Flags) := ab.map fun xy => mulV xy.1 xy.2
  let bad := prods.any fun r => r.2 != (0 : Flags)
  let ps : List (FVal × Flags) := prods.map fun r =>
    if p.rounded then (decodeF 1 (roundF 1 0 r.1).1, (roundF 1 0 r.1).2) else (r.1, 0)
  let fl0 : Flags := ps.foldl (fun a r => a ||| r.2) 0
  let terms := ps.map (·.1) ++ [acc]
  let nan := terms.any (· == .nan)
  let pinf := terms.any (· == .inf false)
  let ninf := terms.any (· == .inf true)
  if nan || (pinf && ninf) || bad then
    (.nan, fl0 ||| (if bad || (pinf && ninf) then fNV else 0))
  else if pinf then (.inf false, fl0)
  else if ninf then (.inf true, fl0)
  else
    let q := match maxLg terms with | none => 0 | some e => e + 1 - p.w
    let ts := terms.map (truncTo q)
    let lost := ts.any (·.2)
    let sum := ts.foldl (fun a r => a + r.1) 0
    let fl1 := fl0 ||| (if lost then fNX else 0)
    let s : FVal :=
      if sum = 0 then .fin (terms.all fun t => t.isZero && (match t with | .fin s _ _ => s | _ => false)) 0 0
      else .fin (sum < 0) sum.natAbs q
    if p.perStep then let (y, fl) := roundAcc p s; (y, fl1 ||| fl) else (s, fl1)

/-- Integer accumulation of one K-step (R238). -/
def dotStepI (p : Profile) (acc : Int) (ab : List (Int × Int)) : Int :=
  intNarrow 25 p.sat (acc + ab.foldl (fun a xy => a + xy.1 * xy.2) 0)

end Sys2Proof.Machine
end

