-- ==== Sys2Proof/Machine/State.lean ====
section
/-!
DEFINITION. The state of the module: every core with its engines, the memories and their tables, the
crossbars, the fabric, the host port, the scheduler and the firmware's registers; and the state right
after reset. Everything is plain data. A comment names the rule of spec/ a field comes from.
-/

namespace Sys2Proof.Machine

/-- How a run can stop outside the manual. -/
inductive Fault where
  /-- A firmware write (a dump, a page it copies) names a physical address in a gap of the map
  (04_spaces R74). Raised by firmware's own events only: programs get TRANSLATION_FAULT. Safe: the
  machine stops where the manual describes no access. -/
  | hole (pa : Nat)
  deriving DecidableEq, Repr

/-- Why an instruction has no meaning. -/
inductive Refusal where
  /-- The instruction has no meaning in this model yet. Safe. -/
  | notModelled (mnemonic : String)
  deriving DecidableEq, Repr

/-! ### Registers of a core -/

/-- Full/empty of a register (10_core R198): full; empty, for the long-latency producers of 07_faults R139;
or waiting for load data, which holds a reader whatever its wait bit (21_vector R404, 10_core R195). -/
inductive Fill where | full | empty | await
  deriving DecidableEq, Repr

/-- The register files (10_core R197) and the tag sets of the lift model (R217). -/
structure Regs where
  s : Vector W 64
  sst : Vector Fill 64
  p : Vector Bool 8
  k : Vector KReg 8
  v : Vector VReg 64
  vst : Vector Fill 64
  pm : Vector W 8
  gm : Vector (BitVec 9) 4
  sTag : Vector (BitVec 3) 64
  vTag : Vector (BitVec 3) 64
  pTag : Vector (BitVec 3) 8
  kTag : Vector (BitVec 3) 8
  pmTag : Vector (BitVec 3) 8
  deriving DecidableEq, Repr

/-- The control registers (10_core R199 to R204, 07_faults R130, R144, 09_redundancy R176). STATUS, SLACK,
FRAMECNT and CORENUM stand as their fields; LIFTX and LMASK are in `Lift`, CYC in `State`, PARTCFG with
its partition. -/
structure Csr where
  xclr : BitVec 8
  tt : Bool
  deg : Bool
  discard : Bool
  scopemiss : Bool
  rvt : Bool
  hm : Bool
  tvec : W
  trappc : W
  trapcause : W
  trapinfo : W
  faultmask : W
  /-- VFMT.FMT, RM, SAT (R201) -/
  fmt : BitVec 5
  rm : BitVec 3
  sat : Bool
  fpflags : Flags
  profile : BitVec 6
  limit : BitVec 16
  debt : BitVec 32
  fnum : BitVec 32
  flen : BitVec 12
  cnt : BitVec 12
  part : BitVec 3
  prel : BitVec 8
  coreno : BitVec 8
  nrep : BitVec 2
  self : BitVec 2
  lead : BitVec 2
  rowprog : W
  cprog : Vector W 2
  keepmap : W
  deriving DecidableEq, Repr

/-- A program point (07_faults R130): the half, the bundle (4,096 when a group ended the half) and the slot. -/
structure Pc where
  half : Bool
  bundle : Nat
  slot : Nat
  deriving DecidableEq, Repr

/-- One level of a lift (10_core R218, 16_sync R360): tag, extent, the LMASK saved at entry. -/
structure LiftLevel where
  tag : BitVec 2
  ext : Nat
  saved : W
  deriving DecidableEq, Repr

/-- The lift state: active levels innermost first, LMASK and its ceiling (R362), the node's limits
(06_scheduler R106). -/
structure Lift where
  levels : List LiftLevel
  lmask : W
  ceil : W
  maxDepth : Nat
  maxProd : Nat
  deriving DecidableEq, Repr

/-- A loop stack entry (14_scalar R306). -/
structure LoopEnt where
  start : Pc
  endB : Nat
  count : W
  deriving DecidableEq, Repr

/-- A split stack entry (14_scalar R309): the old LMASK, the true members, the fall-through point, its
phase and the lift depth it was opened at. -/
structure SplitEnt where
  lmask : W
  yes : W
  fall : Pc
  second : Bool
  depth : Nat
  deriving DecidableEq, Repr

/-- A trap (07_faults R130 to R132): cause, sub-reason, TRAPINFO, the engine that raised it; raised by a
scalar or vector load while RVT = 1 (R133); FAULTMASK (R129). -/
structure Trap where
  code : Nat
  reason : Nat := 0
  info : W := 0
  async : Bool := false
  engine : Nat := 0
  probe : Bool := false
  mask : Nat := 0
  /-- each replica raises it from its own execution although its cause is one of 09_redundancy R180 -/
  self : Bool := false
  deriving DecidableEq, Repr

/-- What a core is doing. -/
inductive CoreMode where
  /-- no node (R115) -/
  | idle
  /-- running its node -/
  | running
  /-- its seat has executed b.done (14_scalar R311) -/
  | done
  /-- at b.park, holding until its gang is complete; the named gm entry and PHASE (06_scheduler R122) -/
  | parked (entry : BitVec 8) (phase : BitVec 32)
  /-- at b.yield, holding until its gang is complete (R123) -/
  | yielded
  /-- halted between groups by a forced swap, by a failed node's dump, or by heat -/
  | halted
  deriving DecidableEq, Repr

/-- The sequencer (10_core R191 to R208). -/
structure Seq where
  mode : CoreMode
  pc : Pc
  /-- where the next group begins: set by the step before the group's operations, overwritten by
  branches and trap entry -/
  npc : Pc
  loops : List LoopEnt
  /-- the loop stack saved at trap entry (14_scalar R306) -/
  savedLoops : List LoopEnt
  splits : List SplitEnt
  /-- asynchronous traps not yet delivered, in report order (07_faults R136) -/
  pend : List Trap
  /-- the roll call of the group at pc has completed (R128, SYNCDONE) -/
  rolled : Bool
  /-- the sync field of the next group is ignored once (R131) -/
  skipSync : Bool
  /-- held at a roll call of an entry, with bank swap (06_scheduler R118) -/
  held : Option (BitVec 8 × Bool)
  /-- the previous timed group's frame and stamp (10_core R207) -/
  prev : Option (BitVec 32 × BitVec 12)
  /-- the CYC at which a correctable-error freeze ends, 0 when there is none (07_faults R140) -/
  freeze : Nat
  /-- the earliest cycle at which the next group issues (10_core R193, R194; 07_faults R134) -/
  next : W
  /-- the cycle of the last trap taken, and the issued counts of tc0 and tc1 then (07_faults R137, R151) -/
  took : W × Vector Nat 2
  deriving DecidableEq, Repr

/-! ### Queues, timelines, instruction halves, scratch -/

/-- A queue of q0 to q15 (10_core R214). -/
structure QueueSt where
  cfg : Bool
  base : BitVec 21
  log2d : BitVec 4
  esz : Bool
  pi : BitVec 16
  ci : BitVec 16
  deriving DecidableEq, Repr

/-- A timeline (10_core R216): value, issued count, the commands that completed ahead of it, and the error
bit with the first command that erred and its cause (07_faults R138). -/
structure Timeline where
  val : W
  issued : W
  ahead : List Nat
  err : Option (Nat × Nat)
  /-- origin and place of the first poisoned word that a command of the context has met since the error bit was clear
  (07_faults R151) -/
  errAt : Option (Nat × Nat)
  /-- DUE of the context's previous command, and of each command not complete (15_copy R325) -/
  lastDue : W
  dues : List (Nat × W)
  deriving DecidableEq, Repr

/-- An instruction half (12_encoding R239, 10_core R197): bundles that are not zero, ascending; bundles the
fetch unit may still hold in their earlier form (16_sync R356); retention and the cycle of last use
(07_faults R142); poisoned bundles. -/
structure Half where
  cells : List (Nat × Bundle)
  stale : List (Nat × Bundle)
  retained : Bool
  leaving : Bool
  lastUse : W
  poison : List Nat
  deriving DecidableEq, Repr

/-- A memory: the bytes that are not zero, by strictly rising address, and the poisoned 8-byte words. -/
structure Memory where
  cells : List Host.Cell
  poison : List Nat
  deriving DecidableEq, Repr

/-- A bank lock (10_core R212): the unit that holds it, the private banks, the live exchange bank, and how
many groups it still lasts. -/
structure BankLock where
  unit : Nat
  mask : BitVec 16
  x : Bool
  left : Nat
  deriving DecidableEq, Repr

/-- A long-latency result not yet written (07_faults R139): the destination and what fills it. -/
inductive FillSrc where
  /-- an SFU result with its flags, or a promise: known at issue -/
  | value (v : VReg) (fl : Flags)
  /-- m.getp of a pm after the calls up to a tm number, and its value once it is known (23_matrix R416) -/
  | getp (pm : BitVec 3) (last : Nat) (val : Option W)
  /-- q.fin (16_sync R359), in issue order; the number under which its word is forwarded to followers -/
  | fin (fwd : Option Nat)
  /-- a value the leader forwards (09_redundancy R178), by its number -/
  | forwarded (n : Nat)
  deriving DecidableEq, Repr

structure PendFill where
  file : RFile
  reg : BitVec 6
  src : FillSrc
  /-- the cycle from which the value can be written (10_core R195, 15_copy R319) -/
  due : W
  deriving DecidableEq, Repr

/-! ### Accesses and packets -/

/-- A party of the memory model (08_ordering R153): a core with its engines, a die's scheduler and migration engine, the
security block, a host function, a core of a fabric peer module by the module's coordinate. -/
inductive Party where
  | core (c : CoreId)
  | sched (d : Die)
  | migr (d : Die)
  | security
  | host (f : Fin 9)
  | peer (m : BitVec 12) (c : CoreId)
  /-- one of which an answer over the fabric says only the narrowest scope at which an acquire pairs with it, 5 when none
  does -/
  | far (need : Nat)
  deriving DecidableEq, Repr

/-- How a load writes its register when the data is there. -/
inductive LoadKind where
  /-- scalar: size, sign extension (14_scalar R295) -/
  | scalar (size : Nat) (sx : Bool)
  /-- vector (21_vector R403): memory format, register format, whether bits are copied, rounding, saturation,
  z; for each active element its index, the bit of the gathered data where it (or its group of four) begins,
  and the index of its scale byte; for each spare byte of words of 6-bit elements the word's number, the byte's index and its
  spare bits; whether the memory is typed -/
  | vector (m f : Nat) (raw : Bool) (rm : Nat) (sat : Bool) (z : Bool)
      (elems : List (Nat × Nat × Option Nat)) (spare : List (Nat × Nat × Byte)) (typed : Bool)
  deriving DecidableEq, Repr

/-- A load not complete: its number, destination, the bytes it reads in order (address, and the value when
it is fixed), and how they are written. -/
structure LoadReq where
  id : Nat
  dst : Option (RFile × BitVec 6)
  tag : BitVec 3
  bytes : List (Nat × Option Byte)
  kind : LoadKind
  acq : Bool
  scope : BitVec 3
  /-- packets not answered -/
  left : List Nat
  /-- forwarded to followers under this number (09_redundancy R178) -/
  fwd : Option Nat
  /-- scopes of the acquire fences that follow it (08_ordering R159), and the release records read -/
  fences : List (BitVec 3)
  rels : List (Party × BitVec 3)
  /-- bits of its bytes that stores of the redundant buffer lay over what memory gives (09_redundancy R183) -/
  laid : List (Nat × Byte × Byte)
  deriving DecidableEq, Repr

/-- A store not acknowledged (08_ordering R158, R160): its packets, its bytes with bit masks, whether it is
a release, and the earlier accesses it waits for before it is sent. -/
structure StoreReq where
  id : Nat
  bytes : List (Nat × Byte × Byte)
  rel : Bool
  scope : BitVec 3
  sent : Bool
  /-- accesses that must be performed before this store is sent, and the cycle from which it can be: that of its place in the
  drain of a redundant buffer (09_redundancy R184) -/
  after : List Nat
  from_ : W
  left : List Nat
  deriving DecidableEq, Repr

/-- A fence in force (14_scalar R298): kind, scope, and the accesses that stood before it. -/
structure FenceSt where
  kind : FenceKind
  scope : BitVec 3
  loads : List Nat
  all : List Nat
  deriving DecidableEq, Repr

/-- The read-modify-writes a memory port performs (15_copy R334, R335). -/
inductive Rmw where
  | acc (op : BitVec 3) (fmt : Nat) (point : Nat)
  | fop (op : BitVec 3) (w64 nat : Bool)
  deriving DecidableEq, Repr

/-- What a packet asks its target, or answers (20_prog_chase R376). -/
inductive PBody where
  | read (addrs : List Nat)
  /-- address, byte and the bits of it that are written -/
  | write (bytes : List (Nat × Byte × Byte)) (release : Option (Party × BitVec 3))
  | rmw (op : Rmw) (addr : Nat) (opnd : List Byte) (cmp : List Byte) (range : Option (PartId × Nat))
      (rel : Option (Party × BitVec 3))
  /-- data with the bytes' addresses; the places of poisoned bytes; release records read (08_ordering R162) -/
  | data (bytes : List (Nat × Byte)) (poison : List Nat) (rels : List (Party × BitVec 3))
  /-- old value, the cause of an error status or 0, release records read -/
  | ack (old : List Byte) (status : Nat) (rels : List (Party × BitVec 3))
  | inbox (word : W) (scope : BitVec 3)
  deriving DecidableEq, Repr

/-- A crossbar packet (20_prog_chase R376, R377): its number, the access it belongs to, master and
partition (03_host R51), channel, output port, age. -/
structure Pkt where
  id : Nat
  core : CoreId
  /-- 0 sequencer, 1 and 2 copy contexts, 3 matrix engine, 4 others -/
  unit : Nat
  req : Nat
  master : BitVec 10
  part : PartId
  vc : Fin 4
  die : Die
  inp : Fin 128
  out : Fin 128
  age : Nat
  born : W
  /-- the cycle from which it stands where it is (R377) -/
  at_ : W
  body : PBody
  deriving DecidableEq, Repr

/-- An output of a crossbar (R380): the cycle of its last grant, round-robin counters and, per channel, the inputs in
the order they were granted, the most recent last (an input not listed was granted before all of these). -/
structure XOut where
  port : Fin 128
  last : Option W
  c : Vector (BitVec 4) 4
  lrg : Vector (List (Fin 128)) 4
  deriving DecidableEq, Repr

/-- A memory slice (R378, R381, R382): receive buffer and write queue oldest first, each write with the cycle of its
completion; reads being answered; the cycle of the last packet taken; a refresh that lasts and the cycle of the last. -/
structure Slice where
  recv : List Pkt
  writes : List (Pkt × W)
  reads : List (Pkt × W)
  took : Option W
  refresh : Option W
  refreshed : Option W
  deriving DecidableEq, Repr

/-- The crossbar of a die: packets waiting at inputs in arrival order, packets in the receive buffers of the other ports,
XBARWT (R379), outputs that have granted something, slices. -/
structure Xbar where
  wait : List Pkt
  recv : List Pkt
  wt : BitVec 16
  outs : List XOut
  slices : Vector Slice 32
  deriving DecidableEq, Repr

/-! ### Copy engines -/

/-- A copy command (15_copy R318): its operation, number, quad registers, flags, completion queue, DUE,
the accesses it takes effect after, and the replica-local prefix. -/
structure CopyCmd where
  op : Instr
  num : Nat
  quad : List W
  rel : Bool
  acq : Bool
  scope : BitVec 3
  cq : Option (BitVec 4)
  due : W
  after : List Nat
  /-- issued counts of tc0 and tc1 when it issued, for c.sbar (R338) -/
  seen : Nat × Nat
  loc : Bool
  /-- the cause of the error status it completes with at once: a stream claim at issue failed (04_spaces R65) -/
  bad : Option Nat
  /-- the leader performs it for every replica (09_redundancy R178) -/
  led : Bool
  deriving DecidableEq, Repr

/-- Where a running command stands. -/
inductive CopyPhase where
  /-- its next request can be sent -/
  | reqs
  /-- a read of a stream waits for WDONE (04_spaces R65) -/
  | streamWait
  /-- a recast waits for a recast of the same entry, or for signature verification (R79, R84) -/
  | recastWait
  | recastDrain (index : Nat)
  | recastRewrite (index : Nat)
  | migrate (off : Nat)
  /-- the pool manager has its request (05_kvspace R90) -/
  | manager
  /-- a c.kvinv waits for pins on these pages, and whether each is then free (R100) -/
  | pins (pages : List (Nat × Bool))
  /-- a c.relay has sent its open and waits for the answer, or for its retry (02_fabric R35) -/
  | relayOpen (retry : Bool)
  /-- a c.relay that receives -/
  | relayRecv
  /-- every request is sent; it completes when they are answered -/
  | finish
  deriving DecidableEq, Repr

/-- The source bytes of the next request: those known, those asked for by place and address, packets not
answered, and the addresses of poisoned bytes. -/
structure CopyRead where
  known : List (W × Byte)
  asked : List (Nat × W)
  left : List Nat
  poison : List W
  deriving DecidableEq, Repr

/-- A running command with its progress (R323, R324): the row and the place in it where the next request
begins, destination bytes performed, packets of writes not answered, the error cause, a stop of class A,
flags; once resumed, the count that the other context's timeline must reach first (07_faults R137). -/
structure CopyRun where
  cmd : CopyCmd
  phase : CopyPhase
  row : Nat
  pos : Nat
  bytes : Nat
  rd : CopyRead
  out : List Nat
  /-- a stream extent it writes: the range entry, and the offsets from which and to which it has written -/
  wd : Option (Nat × Nat × Nat)
  err : Option Nat
  stop : Option Trap
  behind : Option Nat
  flags : Flags
  /-- decompressor: source bytes read and the CRC; other commands: a working number -/
  aux : Nat
  crc : Nat
  /-- result handle or old values -/
  res : List Byte
  /-- cycle at which the current wait began -/
  since : W
  /-- the cycle from which its next request has waited for a bank of scratch (10_core R209) -/
  bank : Option W
  /-- cycle in which its last request entered the desk port's queue (20_prog_chase R377) -/
  sent : W
  deriving DecidableEq, Repr

/-- A copy context: command queue, running command. -/
structure CopyCtx where
  queue : List CopyCmd
  run : Option CopyRun
  deriving DecidableEq, Repr

/-! ### Matrix engine -/

/-- A command of tm (23_matrix R414). -/
inductive MOp where
  | call (c : CallFields) (gang : Bool)
  | zacc (bank : BitVec 3)
  | uld (bank : BitVec 3) (off : Nat) (fmt : Nat) (rm : Nat) (sat : Bool)
  deriving DecidableEq, Repr

structure MCmd where
  op : MOp
  num : Nat
  prof : Nat
  /-- pm0 to pm7 as they stood (R418), and the register that each is written back to (R417, R420) -/
  pm : Vector W 8
  src : Vector (Option (Fin 8)) 8
  after : List Nat
  /-- pm registers that a later m.setp has written (R420) -/
  reset : BitVec 8
  /-- issued counts of tc0 and tc1 when it issued, for c.sbar (15_copy R338) -/
  seen : Nat × Nat
  deriving DecidableEq, Repr

/-- A load, or a u.scale (R424, R425, R431): its number among the loads of the call, its pipe (0 lda, 1 ldb, 2 ldk,
3 ldv), its micro-word's index and bits, base and stride, the format of an untyped side, rows, elements of a row
(0 is NL), D0, the buffer. A library routine's row may be longer than a line (R441). -/
structure LoadSpec where
  ord : Nat
  pipe : Fin 4
  upc : Nat
  raw : Nat
  base : W
  stride : W
  ufmt : Nat
  rows : Nat
  k : Nat
  d0 : Nat
  buf : Fin 4
  scale : Bool
  lib : Bool
  deriving DecidableEq, Repr

/-- An operand buffer (R413, R422): the source (0 empty, 1 untyped memory, 2 typed memory, 3 key rows, 4 value
rows), format, KLEN, and for each line the codes of its elements in the memory format, each with its SC8 scale byte
(block-scaled, typed) or the four codes of its group (Q4); the scales that u.scale gave, and the loads that filled
it (R437). -/
structure Buf where
  src : Nat
  fmt : Nat
  klen : Nat
  lines : List (List (Nat × Nat))
  scales : List (List Nat)
  load : Option LoadSpec
  scaleBy : Option LoadSpec
  deriving DecidableEq, Repr

/-- A load that a pipe runs (R426): whether it refills a buffer after a forced swap (R437), the next row, the format
found, the rows complete; ALEN and PLEN of a tile fetch, and the page it has pinned (05_kvspace R94); a stream
claim made; bytes of the next row that come from a peer module; and a stop. -/
structure PipeRun where
  spec : LoadSpec
  refill : Bool
  next : Nat
  fmt : Nat
  klen : Nat
  typed : Bool
  got : List (List (Nat × Nat))
  lens : Option (Nat × Nat)
  page : Option (Nat × Nat)
  pins : List Nat
  claimed : Bool
  rd : CopyRead
  /-- rows requested and not complete, with the cycle from which each can be; the cycle of the last request (R426) -/
  due : List W
  sent : Option W
  /-- the row that waits for WDONE of a stream, and since when (04_spaces R65) -/
  waits : Option (Nat × W)
  stop : Option Trap
  deriving DecidableEq, Repr

/-- A row that another engine has read for this one (R417, R438): call, load and row it belongs to, its format and
codes, whether its data was malformed, or the trap that its reader met (09_redundancy R180). -/
structure FwdRow where
  call : Nat
  load : Nat
  row : Nat
  fmt : Nat
  klen : Nat
  typed : Bool
  codes : List (Nat × Nat)
  malformed : Bool
  bad : Option Trap
  deriving DecidableEq, Repr

/-- The last mma of a call (R413). -/
structure LastMma where
  ro : Nat
  co : Nat
  na : Nat
  nb : Nat
  isInt : Bool
  deriving DecidableEq, Repr

/-- The working state of the running call (R413, R419); of a running m.zacc or m.uld only the command counts. -/
structure MRun where
  cmd : MCmd
  /-- index in the routine of the next micro-word, and micro-words executed -/
  upc : Nat
  count : Nat
  wp : Vector W 8
  /-- count, and the index of the loop micro-word -/
  loops : List (W × Nat)
  bufs : Vector Buf 4
  loads : Nat
  last : Option LastMma
  isInt : Option Bool
  /-- internal accumulators under writeback rounding, by row × 128 + column -/
  acc : List (Nat × FVal)
  /-- the loads of each pipe, the running one first -/
  pipes : Vector (List PipeRun) 4
  /-- packets of u.wb not answered, each with an address; the stream extent u.wb writes, from and to which offset -/
  wbOut : List (Nat × W)
  wd : Option (Nat × Nat × Nat)
  /-- flags reported under a profile that reports, and under every profile -/
  flags : Flags
  always : Flags
  ended : Bool
  stop : Option Trap
  /-- the fault reported to the sequencer: a pipe's, or 4 for the micro-word's own (R436) -/
  reported : Option Nat
  /-- the cycle in which it started, the earliest of its next micro-word, and that in which the bank writes of its mma
  are done (R419, R421, R428) -/
  since : W
  wait : W
  bankAt : W
  deriving DecidableEq, Repr

/-- The matrix engine: command queue, running command, the graph's words in the store and its routines (number,
place, length; R440), rows read for it by another engine. -/
structure Matrix where
  queue : List MCmd
  run : Option MRun
  store : List (Nat × BitVec 32)
  routines : List (BitVec 8 × Nat × Nat)
  fwd : List FwdRow
  deriving DecidableEq, Repr

/-! ### The rest of a core -/

/-- Redundancy (09_redundancy): signature, buffered stores, compares, where the replica waits, values
forwarded to it and not yet taken by their numbers, and how many forwarded values its operations have
numbered, which runs alike in every replica. -/
structure Redun where
  sig : W
  sbuf : List (Nat × Byte × Byte × BitVec 3)
  /-- bytes of the buffer's capacity that its stores take (R183) -/
  used : Nat
  cmpn : Nat
  /-- compare point reached: kind and, for kind 3, the trap -/
  arrived : Option (Nat × Option Trap)
  /-- the cycle in which it arrived there (R182, R189) -/
  since : W
  /-- the compare of the group at pc has agreed -/
  agreed : Bool
  /-- with the flags its load raised -/
  inflight : List (Nat × VReg × Flags)
  sent : Nat
  /-- traps the leader has decided and forwarded, not yet taken, with how many groups had issued then (R180) -/
  traps : List (Nat × Trap)
  /-- groups issued and traps entered since the node started -/
  groups : Nat
  retired : Bool
  deriving DecidableEq, Repr

/-- A translation held in a page TLB (04_spaces R76): page base offset, page bytes, the entry. -/
structure TlbEnt where
  part : PartId
  base : Nat
  size : Nat
  pte : W
  deriving DecidableEq, Repr

/-- An outbox word (16_sync R358): destination word, word, whether it is sent and unanswered, earliest
resend, the accesses it follows. -/
structure OutWord where
  dst : W
  word : W
  outstanding : Bool
  resend : Option W
  after : List Nat
  deriving DecidableEq, Repr

/-- Fabric inbox and outbox of a core (02_fabric R34, 16_sync R357 to R359). -/
structure Mailbox where
  inbox : List (W × BitVec 3)
  outbox : List OutWord
  deriving DecidableEq, Repr

/-- What the core runs (06_scheduler R115): the node instance, its seat and replica, the segment each half
holds (graph handle, CODEOFF and CODELEN), b.trig done. -/
structure NodeCtx where
  inst : Option Nat
  seat : Nat
  replica : Nat
  seg : Vector (Option (Nat × Nat × Nat)) 2
  trig : Bool
  /-- the seat has executed b.done, b.park or b.yield since the node started or resumed (07_faults R149) -/
  stood : Bool
  deriving DecidableEq, Repr

/-- A packet that an old home refused (04_spaces R85): the page's partition, offset, size and old physical
base. -/
structure MovedPkt where
  pkt : Pkt
  part : PartId
  off : Nat
  size : Nat
  pa : Nat
  deriving DecidableEq, Repr

/-- A request at a bank of a core's scratch (10_core R209): the bank, the unit (0 scalar, 1 and 2 vector, 3 and 4 copy, 5
matrix load pipes, 6 another seat's window access), the cycle of its arrival, the cycles of the bank that it still needs,
whether the bank serves it, and the registers whose data it brings. -/
structure BankReq where
  bank : Nat
  unit : Nat
  since : W
  left : Nat
  begun : Bool
  dsts : List (RegFile × Nat)
  deriving DecidableEq, Repr

/-- A vector instance (10_core R205): the cycles in which the operations of its queue start, and the cycle from which the
next can. -/
structure VecUnit where
  starts : List W
  free : W
  deriving DecidableEq, Repr

/-- A core. -/
structure Core where
  regs : Regs
  csr : Csr
  lift : Lift
  seq : Seq
  queues : Vector QueueSt 16
  tl : Vector Timeline 3
  ts : W
  /-- the values that q.tlsig has given ts, the last first, each with its cycle (16_sync R350); those from which other
  cores have newer ones are dropped -/
  tsLog : List (W × W)
  halves : Vector Half 2
  scratch : Memory
  /-- exchange bank 1 is live (10_core R209) -/
  live1 : Bool
  acc : Vector VReg 512
  accPoison : List (Nat × Nat)
  vPoison : List (Nat × Nat)
  locks : List BankLock
  bankq : List BankReq
  vec : Vector VecUnit 2
  fills : List PendFill
  /-- results of fixed latency in flight: the register, and the first cycle at which its readers and writers issue
  (10_core R195, R196) -/
  busy : List (RegFile × Nat × W)
  loads : List LoadReq
  stores : List StoreReq
  fence : List FenceSt
  /-- scope of the release fences so far, which makes later stores releases; releases read by earlier loads
  (08_ordering R159, R162) -/
  relFence : Option (BitVec 3)
  readRels : List (Party × BitVec 3)
  copy : Vector CopyCtx 2
  matrix : Matrix
  templates : List (Bundle × Bundle)
  tlb : List TlbEnt
  /-- the range entries that the range cache holds, the newest first: partition and index (04_spaces R76) -/
  rcache : List (PartId × Nat)
  kvc : List (Nat × Nat)
  mail : Mailbox
  redun : Redun
  node : NodeCtx
  /-- ts values of other cores that have reached this one (16_sync R350) -/
  tsSeen : List (CoreId × W)
  /-- operations refused by a migrating page's old home, in their order (04_spaces R85) -/
  moved : List MovedPkt
  /-- the 64 KiB blocks of scratch (0 to 47) and the accumulator banks (48 to 55) written since the node started
  (07_faults R147) -/
  wrote : List Nat
  deriving DecidableEq, Repr

/-! ### Memory system -/

/-- A range entry (04_spaces R69). -/
structure Range where
  base : W
  limit : W
  pbase : W
  attr : W
  deriving DecidableEq, Repr

/-- A SHA-384 hash under way: its eight words, the bytes of the block not full, how many bytes it has taken. -/
structure Sha where
  h : List W
  buf : List Byte
  len : Nat
  deriving DecidableEq, Repr

/-- The cursors of a stream extent (04_spaces R65), by range-entry index. -/
structure Stream where
  index : Nat
  wcur : Nat
  wdone : Nat
  rcur : Nat
  producer : Option (BitVec 10)
  /-- bytes written past WDONE, which an earlier byte not written holds back: from, to -/
  done : List (Nat × Nat)
  /-- the verification of a signed extent has ended (R84); its slot has been revoked since it was full (03_host R57) -/
  checked : Bool
  revoked : Bool
  /-- the security block's hash of the blob, as far as WDONE has come (R83); none before a byte -/
  sha : Option Sha
  deriving DecidableEq, Repr

/-- A lookup past a core's range cache and TLB, and the page walk that may follow it (R76): the core that asked, the
offset, the cycle of the miss; its outcome stands until the core asks again. -/
structure Walk where
  core : CoreId
  part : PartId
  off : Nat
  since : W
  /-- the reason of the TRANSLATION_FAULT the walk found -/
  bad : Option Nat
  deriving DecidableEq, Repr

/-- A page migration in progress (R85). -/
structure Migration where
  part : PartId
  off : Nat
  /-- the page's old physical base and its bytes -/
  pa : Nat
  size : Nat
  /-- it has a copy on die W (R64) -/
  repl : Bool
  home : Nat
  /-- the page taken from the reserve at the new home, and the device coordinate when that is a peer -/
  newPa : Nat
  dev : Nat
  step : Nat
  /-- core and context of the c.migr that asked; none for firmware's policy -/
  cmd : Option (CoreId × Ctx)
  deriving DecidableEq, Repr

/-- An access-table entry that is not zero (03_host R52). -/
structure AccessEnt where
  target : Target
  master : BitVec 10
  entry : BitVec 16
  deriving DecidableEq, Repr

/-- The registers of a partition (04_spaces R75, 05_kvspace R87, 07_faults R148, R150) and its tables. -/
structure Part where
  /-- PARTCFG.WDOG, TT, FATAL -/
  wdog : BitVec 16
  tt : Bool
  fatal : Bool
  ptroot : W
  dumpbase : W
  dumpsz : W
  dumpPend : Bool
  dumpno : Nat
  kvgeom : W
  kvseqb : W
  kvdirb : W
  kvpoolb : W
  kvpages : W
  kvflb : W
  kvfree : W
  kvqlogb : W
  kvqlogn : W
  /-- head and tail of the free-list ring (R90) -/
  flHead : Nat
  flTail : Nat
  /-- quarantined pages, and whether a table still names each (R101, R102) -/
  kvquar : List (Nat × Bool)
  jobKey : BitVec 32
  ranges : List (Nat × Range)
  streams : List Stream
  /-- reserve of physical pages for migration, by home (15_copy R339) -/
  reserve : List (Fin 4 × Nat)
  /-- the partition is being swapped out or is swapped out (07_faults R145) -/
  swapped : Bool
  deriving DecidableEq, Repr

/-- The memories, tables and caches shared by the module. -/
structure MemSys where
  mem : Memory
  access : List AccessEnt
  xlatinv : Vector W 2
  walks : List Walk
  /-- classroom TLBs (R76), by classroom -/
  ctlb : List (Nat × TlbEnt)
  migrations : List Migration
  /-- release records of memory bytes (08_ordering R160, R162): byte address, core, scope -/
  rels : List (Nat × Party × BitVec 3)
  /-- requests waiting at the pool manager, in arrival order (05_kvspace R90) -/
  manager : List (CoreId × Ctx)
  /-- the words of HBM and heath that soft errors have poisoned, each with its cycle (07_faults R151) -/
  births : List (Nat × W)
  deriving DecidableEq, Repr

/-! ### Fabric -/

/-- Where the flits of a packet stand before they leave by an output (02_fabric R25, R29): in the buffers of an input's
channel, in a hedge queue, or in the router's own hands (its endpoint's packets, its notices). -/
inductive FlitSrc where
  | input (port : Fin 72) (vc : Fin 8)
  | hedge (slot : Fin 4)
  | own
  deriving DecidableEq, Repr

/-- One virtual channel of a router output (02_fabric R25, R29): free buffers at the receiver; the packet whose flits
it carries, where they come from and how many have not passed; and the cycle since which its count has been zero
while a header waits. -/
structure VcOut where
  port : Fin 72
  vc : Fin 8
  free : Nat
  busy : Option (FlitSrc × FabPacket × Nat)
  since : Option W
  deriving DecidableEq, Repr

/-- A hedge queue (R29): its flow, the inputs that were sent a notice, its packets, the cycle since which it is
empty. -/
structure Hedge where
  port : Fin 72
  slot : Fin 4
  flow : Flow
  ups : List RouterIn
  pkts : List FabPacket
  empty : Option W
  deriving DecidableEq, Repr

/-- A packet that waits for an output channel: the input it came by and where its flits stand. -/
structure FabWait where
  inp : RouterIn
  src : FlitSrc
  port : Fin 72
  pkt : FabPacket
  deriving DecidableEq, Repr

/-- A fabric request that is not answered (R31, R32). -/
structure FabReq where
  tag : BitVec 16
  core : CoreId
  /-- 0 sequencer, 1 and 2 copy contexts, 3 matrix engine, 4 outbox, 5 host port -/
  unit : Nat
  /-- the access, and the packet, it answers; the function of a host access -/
  req : Nat
  pkt : Nat
  part : PartId
  /-- it has been injected, the cycle in which, and the bank it was given (R26, R31) -/
  injected : Bool
  cycle : W
  dst : BitVec 13
  bank : Bool
  /-- the places of the bytes it reads -/
  addrs : List Nat
  /-- its target address and byte count -/
  va : W
  len : Nat
  deriving DecidableEq, Repr

/-- The router and endpoint of a die. -/
structure Fabric where
  injbank : Bool
  dims : Vector (BitVec 4) 3
  my : Vector (BitVec 4) 3
  /-- BANKINJ, BANKEJ, BANKDROP of banks 0 and 1 (R26) -/
  counts : Vector W 6
  /-- routing tables that are not zero: bank, dimension, index, entry (R23) -/
  routes : List (Bool × Fin 3 × Fin 16 × BitVec 16)
  /-- membership entries: a port or the endpoint, index, key, partition (R30) -/
  members : List (Option (Fin 72) × Fin 64 × BitVec 32 × PartId)
  vcs : List VcOut
  hedges : List Hedge
  /-- packets that the endpoint has to inject, oldest first (R26, R27) -/
  outq : List FabPacket
  /-- packets waiting for a channel, and packets whose last flit has left by a port, oldest first -/
  waiting : List FabWait
  sent : List (Fin 72 × FabPacket)
  /-- credits returned upstream, one for each buffer freed: the input and its channel (R25) -/
  credits : List (Fin 72 × Fin 8)
  /-- last sequence number accepted from a port's channel (R21) -/
  accepted : List (Fin 72 × Fin 8 × Nat)
  /-- packets ejected to the endpoint and not yet handled, oldest first -/
  ejected : List FabPacket
  /-- flows whose injection is halved (R29), and those of them that have passed up a turn -/
  halved : List Flow
  passed : List Flow
  reqs : List FabReq
  nextTag : BitVec 16
  /-- the inputs an output has granted, the most recent last (R25) -/
  granted : List (Fin 72 × List RouterIn)
  oneLane : List (Fin 72)
  /-- relay chains opened at this module: stream address and core, context (R35) -/
  relays : List (W × CoreId × Ctx)
  deriving DecidableEq, Repr

/-! ### Host -/

/-- A launch record in flight (03_host R43, R44): number, fields, whether it has started, failed, ended. -/
structure Rec where
  k : Nat
  graph : W
  args : W
  prio : Nat
  redun : Nat
  tt : Bool
  waits : List (Nat × Nat)
  tag : W
  started : Bool
  failed : Bool
  ended : Bool
  deriving DecidableEq, Repr

/-- A launch queue (R40 to R45). -/
structure LQueue where
  base : W
  en : Bool
  irq : Bool
  msiv : BitVec 6
  log2n : BitVec 5
  pi : W
  ci : W
  ct : W
  err : BitVec 8
  failcnt : BitVec 16
  at_ : BitVec 32
  tag : W
  recs : List Rec
  /-- records read before EN was last set and not complete (R41): they start and end, and count toward nothing here -/
  old : List Rec
  /-- halted on this record: number and TAG -/
  halt : Option (Nat × W)
  deriving DecidableEq, Repr

/-- A posted host write that waits for earlier ones of its function (R47): to window D or C, its offset. -/
structure HostWrite where
  fn : Fin 9
  d : Bool
  off : Nat
  bytes : List Byte
  deriving DecidableEq, Repr

/-- A window D access that reaches a peer module (R38, 04_spaces R73): its function, number, offset; the bytes that a read
asks for by place, those that are here; the packets not answered, and whether one failed. -/
structure HostAway where
  fn : Fin 9
  id : Nat
  off : Nat
  write : Bool
  places : List Nat
  known : List (Nat × Byte)
  left : List Nat
  bad : Bool
  deriving DecidableEq, Repr

/-- A virtual function (R37 to R39). -/
structure Vf where
  wdbase : W
  fnerr : BitVec 32
  fnerraddr : W
  queues : Vector LQueue 16
  deriving DecidableEq, Repr

/-- The host port: functions, posted writes in arrival order, the last read's answer, MSI-X messages sent
(function, vector). -/
structure HostSt where
  vfs : Vector Vf 8
  posted : List HostWrite
  away : List HostAway
  /-- none: Completer Abort -/
  answer : Option (List Byte)
  msix : List (Nat × Nat)
  unsupported : Nat
  deriving DecidableEq, Repr

/-! ### Scheduler -/

/-- A loaded graph (06_scheduler R105). -/
structure Graph where
  handle : Nat
  part : PartId
  image : GraphImage
  handles : List Nat
  deriving DecidableEq, Repr

/-- Where a node instance stands. -/
inductive InstState where
  | waiting
  | ready
  /-- chosen cores of the leader, by first core; gm0 entry; earliest start -/
  | dispatched (first : Nat) (entry : Option (BitVec 8)) (start : W)
  | running
  | parked (entry : BitVec 8) (phase : BitVec 32)
  | complete
  | failed
  deriving DecidableEq, Repr

/-- What a pre-empted node keeps at its node boundary (07_faults R143), for each seat in order: s1 to
s(NSAVE) with their full/empty bits, the bytes of its kept scratch blocks and their poisoned words, its kept accumulator
rows and theirs, and its resume bundle. -/
structure SavedNode where
  regs : List (List (W × Fill))
  scratch : List (List Host.Cell × List Nat)
  acc : List (List (Nat × VReg) × List (Nat × Nat))
  resume : List Nat
  deriving DecidableEq, Repr

/-- A node instance (R109 to R112). -/
structure Inst where
  id : Nat
  graph : Nat
  vf : PartId
  queue : Nat
  record : Nat
  node : Nat
  state : InstState
  preds : Nat
  base : Nat
  running : Nat
  redun : Nat
  tt : Bool
  args : List W
  /-- pool die, cycle it entered the pool, readiness cycle -/
  die : Die
  entered : W
  readyAt : W
  /-- holds a pool entry (R111) -/
  pooled : Bool
  started : W
  early : Bool
  saved : Option SavedNode
  first : Nat
  entry : Option (BitVec 8)
  groups : List (BitVec 8)
  trigs : List Nat
  /-- its watchdog has expired (07_faults R149) -/
  expired : Bool
  deriving DecidableEq, Repr

/-- A b.task request on its way to the pool insert (R116, R119), with its issuer's core, instance and seat. -/
structure TaskReq where
  core : CoreId
  inst : Nat
  seat : Nat
  status : BitVec 6
  node : Nat
  args : List W
  at_ : W
  /-- the number under which its status is forwarded to followers (09_redundancy R178); none once its node has left its
  cores at a node boundary -/
  fwd : Option Nat
  deriving DecidableEq, Repr

/-- A group-table entry (R117). -/
structure GroupEnt where
  members : BitVec 256
  phase : BitVec 32
  valid : Bool
  part : PartId
  gang : Bool
  deriving DecidableEq, Repr

/-- A cause record of the chain of causes (07_faults R151). -/
structure CauseRec where
  code : Nat
  reason : Nat
  origin : Nat
  cyc : W
  info : W
  node : Nat
  record : Nat
  pc : Nat
  /-- the last record of its chain (NEXT = 0xFFFF_FFFF) -/
  ends : Bool
  part : PartId
  deriving DecidableEq, Repr

/-- The two schedulers. -/
structure Sched where
  graphs : List Graph
  insts : List Inst
  /-- SCHEDWT and credit counters, by die (R111, R112) -/
  wt : Vector W 2
  credit : Vector (Vector Nat 8) 2
  /-- free cores of the other die, as its last summary said (R112) -/
  summary : Vector (List CoreId) 2
  /-- pool entries given up, each with its cycle: in that cycle they are no other node's yet (R111) -/
  freed : List (W × Die × PartId)
  /-- the descriptors that each die's scheduler holds in its cache: graph and node (R116) -/
  descs : Vector (List (Nat × Nat)) 2
  /-- reserved placements: partition, instance, first core (R125) -/
  reserved : List (PartId × Nat × Nat)
  tasks : List TaskReq
  groups : List (BitVec 8 × GroupEnt)
  causes : List CauseRec
  nextHandle : Nat
  nextInst : Nat
  lastDecision : Vector W 2
  lastSummary : Vector W 2
  deriving DecidableEq, Repr

/-! ### Firmware and the whole module -/

/-- Telemetry counts a rule names (01_module R17, 02_fabric R22): correctable errors, poisonings, lost
words, failures. -/
structure Telemetry where
  correctable : List (Place × Nat)
  poisoned : List (Place × Nat)
  dropped : List (Nat × Nat)
  lostWords : Nat
  refusals : Nat
  sigFails : Nat
  /-- retired memory rows (R16) -/
  retired : Nat
  /-- cause records that no dump takes (07_faults R151, R152) -/
  causes : List CauseRec
  /-- replicas retired: core and node instance (09_redundancy R187) -/
  replicas : List (CoreId × Nat)
  deriving DecidableEq, Repr

/-- Firmware's view of the module (01_module R11 to R16, 03_host R50, R55, R56). -/
structure Firmware where
  spareE : BitVec 4
  spareW : BitVec 4
  degraded : BitVec 8
  reason : BitVec 5
  /-- the site of each logical core that has one, and the seats reported for each classroom (R12) -/
  sites : List (CoreId × Fin 136)
  seats : Vector Nat 16
  absent : List CoreId
  lostVec : List CoreId
  lostCopy : List CoreId
  thermal : Bool
  hot : Bool
  /-- partitions whose matrix and vector issue the power controller delays (R10) -/
  throttled : List PartId
  partmap : Vector W 2
  keyslots : Vector (BitVec 2) 16
  keys : List (Fin 16 × PubKey)
  owner : Option PubKey
  nonce : W
  mboxStatus : W
  /-- the doorbell and the command words of the mailbox that are not zero, by offset (03_host R56) -/
  mbox : List (Nat × W)
  tele : Telemetry
  deriving DecidableEq, Repr

/-- What an operation's step leaves behind while its group is being issued (10_core R191, 07_faults R128). -/
structure Failure where
  idx : Nat
  trap : Trap
  deriving DecidableEq, Repr

/-- The registers as they stood before the group, which its other operations see (14_scalar R301). -/
structure Before where
  csr : Csr
  /-- every V operation and call issued before the group has completed -/
  settled : Bool
  lift : Lift
  queues : Vector QueueSt 16
  deriving DecidableEq, Repr

/-- The group being issued, for the operation now executing. -/
structure Issue where
  /-- the operation is one of a group of several: a failing check is recorded, not taken at once -/
  opened : Bool
  ctx : OpCtx
  before : Option Before
  fails : List Failure
  /-- the flags that the group's V operations have raised -/
  flags : Flags
  /-- a class C trap to take after the group has committed -/
  after : Option Trap
  /-- the operation cannot issue yet -/
  held : Bool
  /-- the group stands at a compare point of this kind (09_redundancy R182) -/
  compare : Option Nat
  /-- the records of the group's operations at compare points, which the replica folds before it sends its signature (R181,
  R182) -/
  recs : List (List Byte)
  /-- the group's roll call has completed (SYNCDONE) -/
  synced : Bool
  /-- a branch or jump of the group was taken, and whether it pops loops (14_scalar R306) -/
  redirect : Option Bool
  /-- a loop of the group was opened with a count of 0 (R304) -/
  noLoop : Bool
  deriving DecidableEq, Repr

/-- Whose turn it is. -/
inductive Turn where
  /-- the sequencer of a core tries its next group -/
  | seq (c : CoreId)
  /-- the matrix engine of a core executes its next micro-word -/
  | micro (c : CoreId)
  /-- an event happens -/
  | ev (i : Instr) (a : EventArgs)
  /-- the turns of a part of the cycle are laid out -/
  | plan (k : Nat)
  /-- time passes: so many ac cycles -/
  | tick (n : Nat)
  /-- the requests that have reached the desk ports of a die take the banks of their cores' scratch (10_core R209) -/
  | window (d : Die)
  /-- the host reads a register of window C of a function (03_host R39, R48) -/
  | readC (f : Fin 9) (off : Nat)
  /-- the power controller delays the matrix and vector issue of these partitions, or of none (01_module R10) -/
  | power (l : List PartId)
  deriving DecidableEq, Repr

/-- A satchel (07_faults R142, R145): a core's context, the partition it belongs to, its poisoned words, the cycle from
which it is in retention, or out of it again, and whether it is being read. -/
structure Satchel where
  core : CoreId
  part : PartId
  ctx : Core
  poison : List Nat
  ready : W
  leaving : Bool
  deriving DecidableEq, Repr

/-- The module. -/
structure State where
  cores : Vector Core 256
  ms : MemSys
  parts : Vector Part 8
  xbar : Vector Xbar 2
  fab : Vector Fabric 2
  host : HostSt
  sched : Sched
  fw : Firmware
  satchels : List Satchel
  /-- CYC (10_core R199) -/
  cyc : W
  /-- number of the next access, packet or request -/
  nextId : Nat
  /-- the model's own: the core an operation executes on -/
  cur : CoreId
  /-- the model's own: what the next steps do, then the default choice -/
  order : List Turn
  /-- the model's own: the arguments of the event now happening -/
  inp : EventArgs
  /-- the model's own: the group being issued -/
  issue : Issue
  /-- the model's own: how many free values have been taken -/
  freeCtr : Nat
  deriving DecidableEq, Repr

/-! ### Reset -/

/-- No headers, no prefixes. -/
def OpCtx.none : OpCtx := {}

/-- No group is being issued. -/
def Issue.idle : Issue := ⟨false, OpCtx.none, .none, [], 0, .none, false, .none, [], false, .none, false⟩

/-- The registers as a node start leaves them (06_scheduler R115). -/
def Regs.reset : Regs where
  s := .replicate 64 0
  sst := .replicate 64 .full
  p := (Vector.replicate 8 false).set 0 true
  k := (Vector.replicate 8 (0 : KReg)).set 0 (BitVec.allOnes 1024)
  v := .replicate 64 0
  vst := .replicate 64 .full
  pm := .replicate 8 0
  gm := .replicate 4 0
  sTag := .replicate 64 0
  vTag := .replicate 64 0
  pTag := .replicate 8 0
  kTag := .replicate 8 0
  pmTag := .replicate 8 0

/-- The control registers of core n (10_core R200 to R204; SLACK.LIMIT 0xFFFF, NREP 1). -/
def Csr.reset (n : BitVec 8) : Csr where
  xclr := 0
  tt := false
  deg := false
  discard := false
  scopemiss := false
  rvt := false
  hm := false
  tvec := 0
  trappc := 0
  trapcause := 0
  trapinfo := 0
  faultmask := 0
  fmt := 0
  rm := 0
  sat := false
  fpflags := 0
  profile := 0
  limit := 0xFFFF
  debt := 0
  fnum := 0
  flen := 0
  cnt := 0
  part := 0
  prel := 0
  coreno := n
  nrep := 1
  self := 0
  lead := 0
  rowprog := 0
  cprog := .replicate 2 0
  keepmap := 0

/-- No level active, every member executes (R218); the architectural limits (R360). -/
def Lift.reset : Lift := ⟨[], BitVec.allOnes 64, BitVec.allOnes 64, 3, 64⟩

def Seq.reset : Seq where
  mode := .idle
  pc := ⟨false, 0, 0⟩
  npc := ⟨false, 0, 0⟩
  loops := []
  savedLoops := []
  splits := []
  pend := []
  rolled := false
  skipSync := false
  held := .none
  prev := .none
  freeze := 0
  next := 0
  took := (0, .replicate 2 0)

def QueueSt.reset : QueueSt := ⟨false, 0, 0, false, 0, 0⟩
def Timeline.reset : Timeline := ⟨0, 0, [], .none, .none, 0, []⟩
def Half.reset : Half := ⟨[], [], false, false, 0, []⟩
def Memory.empty : Memory := ⟨[], []⟩
def Redun.reset : Redun := ⟨BitVec.allOnes 64, [], 0, 0, .none, 0, false, [], 0, [], 0, false⟩

/-- A core at reset: no node. -/
def Core.reset (n : BitVec 8) : Core where
  regs := Regs.reset
  csr := Csr.reset n
  lift := Lift.reset
  seq := Seq.reset
  queues := .replicate 16 QueueSt.reset
  tl := .replicate 3 Timeline.reset
  ts := 0
  tsLog := []
  halves := .replicate 2 Half.reset
  scratch := Memory.empty
  live1 := false
  acc := .replicate 512 0
  accPoison := []
  vPoison := []
  locks := []
  bankq := []
  vec := .replicate 2 ⟨[], 0⟩
  fills := []
  busy := []
  loads := []
  stores := []
  fence := []
  relFence := .none
  readRels := []
  copy := .replicate 2 ⟨[], .none⟩
  matrix := ⟨[], .none, [], [], []⟩
  templates := []
  tlb := []
  rcache := []
  kvc := []
  mail := ⟨[], []⟩
  redun := Redun.reset
  node := ⟨.none, 0, 0, .replicate 2 .none, false, false⟩
  tsSeen := []
  moved := []
  wrote := []

/-- The partition registers at reset (07_faults R148, 04_spaces R75, 05_kvspace R87). -/
def Part.reset : Part where
  wdog := 0
  tt := false
  fatal := false
  ptroot := 0
  dumpbase := 0
  dumpsz := 0
  dumpPend := false
  dumpno := 0
  kvgeom := 0
  kvseqb := 0
  kvdirb := 0
  kvpoolb := 0
  kvpages := 0
  kvflb := 0
  kvfree := 0
  kvqlogb := 0
  kvqlogn := 0
  flHead := 0
  flTail := 0
  kvquar := []
  jobKey := 0
  ranges := []
  streams := []
  reserve := []
  swapped := false

def Slice.reset : Slice := ⟨[], [], [], .none, .none, .none⟩

/-- XBARWT at reset: W3 2, W2 4, W1 1, W0 4 (20_prog_chase R379). -/
def Xbar.reset : Xbar := ⟨[], [], 0x2414, [], .replicate 32 Slice.reset⟩

def Fabric.reset : Fabric where
  injbank := false
  dims := .replicate 3 0
  my := .replicate 3 0
  counts := .replicate 6 0
  routes := []
  members := []
  vcs := []
  hedges := []
  outq := []
  waiting := []
  sent := []
  credits := []
  accepted := []
  ejected := []
  halved := []
  passed := []
  reqs := []
  nextTag := 0
  granted := []
  oneLane := []
  relays := []

def LQueue.reset : LQueue :=
  ⟨0, false, false, 0, 0, 0, 0, 0, 0, 0, 0, 0, [], [], .none⟩
def Vf.reset : Vf := ⟨0, 0, 0, .replicate 16 LQueue.reset⟩

/-- SCHEDWT at reset: W0 1, the others 0 (06_scheduler R111); credits as the weights (R112). -/
def Sched.reset : Sched where
  graphs := []
  insts := []
  wt := .replicate 2 1
  credit := .replicate 2 ((Vector.replicate 8 0).set 0 1)
  summary := .replicate 2 []
  freed := []
  descs := .replicate 2 []
  reserved := []
  tasks := []
  groups := []
  causes := []
  nextHandle := 1
  nextInst := 0
  lastDecision := .replicate 2 0
  lastSummary := .replicate 2 0

def Firmware.reset : Firmware where
  spareE := 8
  spareW := 8
  degraded := 0
  reason := 0
  sites := []
  seats := .replicate 16 16
  absent := []
  lostVec := []
  lostCopy := []
  thermal := false
  hot := false
  throttled := []
  partmap := .replicate 2 0
  keyslots := .replicate 16 0
  keys := []
  owner := .none
  nonce := 0
  mboxStatus := 0
  mbox := []
  tele := ⟨[], [], [], 0, 0, 0, 0, [], []⟩

/-- The module right after reset. -/
def State.reset : State where
  cores := tabulate fun i => Core.reset (.ofNat 8 i.val)
  ms := ⟨Memory.empty, [], .replicate 2 0, [], [], [], [], [], []⟩
  parts := .replicate 8 Part.reset
  xbar := .replicate 2 Xbar.reset
  fab := .replicate 2 Fabric.reset
  host := ⟨.replicate 8 Vf.reset, [], [], .none, [], 0⟩
  sched := Sched.reset
  fw := Firmware.reset
  satchels := []
  cyc := 0
  nextId := 0
  cur := 0
  order := []
  inp := {}
  issue := Issue.idle
  freeCtr := 0

end Sys2Proof.Machine
end

