-- ==== Sys2Proof/Machine/Memory.lean ====
section
/-!
DEFINITION. Memory: reading and writing bytes in the canonical form, poison of 8-byte words (07_faults
R141), little-endian values (00_scope R3).
-/

namespace Sys2Proof.Machine

/-- What a byte reads as that nothing has written (assumption 2). -/
def unlisted : Byte := 0

/-- The byte listed at an address. -/
def cellsRead : List Host.Cell → Nat → Byte
  | [], _ => unlisted
  | (k, v) :: r, a => if k = a then v else cellsRead r a

/-- The cells with a byte listed at an address. -/
def cellsPut : List Host.Cell → Nat → Byte → List Host.Cell
  | [], a, v => [(a, v)]
  | (k, w) :: r, a, v =>
    if a < k then (a, v) :: (k, w) :: r
    else if a = k then (a, v) :: r
    else (k, w) :: cellsPut r a v

/-- The cells without those at an address. -/
def cellsDrop : List Host.Cell → Nat → List Host.Cell
  | [], _ => []
  | (k, w) :: r, a => if k = a then cellsDrop r a else (k, w) :: cellsDrop r a

/-- The cells after a write; a byte that equals an unlisted one is not listed. -/
def cellsWrite (l : List Host.Cell) (a : Nat) (v : Byte) : List Host.Cell :=
  if v = unlisted then cellsDrop l a else cellsPut l a v

/-- Insertion into a strictly rising list of numbers, and removal. -/
def numInsert : List Nat → Nat → List Nat
  | [], a => [a]
  | k :: r, a => if a < k then a :: k :: r else if a = k then k :: r else k :: numInsert r a
def numRemove (l : List Nat) (a : Nat) : List Nat := l.filter (· != a)

/-- Addresses rise strictly from a bound and no listed byte is the unlisted one. -/
def cellsOk : Nat → List Host.Cell → Bool
  | _, [] => true
  | lo, (k, v) :: r => decide (lo ≤ k) && v != unlisted && cellsOk (k + 1) r

/-- Numbers rise strictly from a bound. -/
def numsOk : Nat → List Nat → Bool
  | _, [] => true
  | lo, k :: r => decide (lo ≤ k) && numsOk (k + 1) r

/-- The canonical form. -/
def Memory.wf (m : Memory) : Bool := cellsOk 0 m.cells && numsOk 0 m.poison

/-- One byte. -/
def Memory.read (m : Memory) (a : Nat) : Byte := cellsRead m.cells a
def Memory.write (m : Memory) (a : Nat) (v : Byte) : Memory := ⟨cellsWrite m.cells a v, m.poison⟩

/-- Poisons the 8-byte word that holds an address, or clears its poison (R141). -/
def Memory.poisonAt (m : Memory) (a : Nat) : Memory := ⟨m.cells, numInsert m.poison (a / 8 * 8)⟩
def Memory.clearAt (m : Memory) (a : Nat) : Memory := ⟨m.cells, numRemove m.poison (a / 8 * 8)⟩

/-- The 8-byte word that holds an address is poisoned. -/
def Memory.isPoisoned (m : Memory) (a : Nat) : Bool := m.poison.contains (a / 8 * 8)

/-- n bytes from an address, lowest first. -/
def Memory.bytes (m : Memory) (a : Nat) : Nat → List Byte
  | 0 => []
  | n + 1 => m.read a :: m.bytes (a + 1) n

/-- Writes bytes at successive addresses. -/
def Memory.writeBytes (m : Memory) : Nat → List Byte → Memory
  | _, [] => m
  | a, v :: r => (m.write a v).writeBytes (a + 1) r

/-- A little-endian number of n bytes. -/
def Memory.num (m : Memory) (a n : Nat) : Nat := leNat (m.bytes a n)

/-- Writes a number's n low bytes. -/
def Memory.writeNum (m : Memory) (a n v : Nat) : Memory := m.writeBytes a (leBytes n v)

/-- Writes a byte under a bit mask: bits not set in the mask keep their value (21_vector R403, sub-byte
elements). -/
def Memory.writeBits (m : Memory) (a : Nat) (v mask : Byte) : Memory :=
  m.write a ((m.read a &&& ~~~mask) ||| (v &&& mask))

/-- Writes bytes with masks at their addresses. -/
def Memory.writeList (m : Memory) : List (Nat × Byte × Byte) → Memory
  | [] => m
  | (a, v, k) :: r => (m.writeBits a v k).writeList r

/-- The 8-byte words a list of addresses touches, each once. -/
def wordsOf (l : List Nat) : List Nat := (l.map (· / 8 * 8)).eraseDups

/-- A write covers the whole 8-byte word at w. -/
def coversWord (l : List (Nat × Byte × Byte)) (w : Nat) : Bool :=
  (List.range 8).all fun i => l.any fun x => x.1 == w + i && x.2.2 == 0xFF#8

/-- A write that meets a poisoned word it does not cover (R141). -/
def Memory.partialPoison (m : Memory) (l : List (Nat × Byte × Byte)) : Option Nat :=
  (wordsOf (l.map (·.1))).find? fun w => m.isPoisoned w && !coversWord l w

/-- The first poisoned word a read meets. -/
def Memory.firstPoison (m : Memory) (l : List Nat) : Option Nat :=
  (wordsOf l).find? m.isPoisoned

/-- A write that clears the poison of the words it covers (R141). -/
def Memory.store (m : Memory) (l : List (Nat × Byte × Byte)) : Memory :=
  let m := m.writeList l
  ((wordsOf (l.map (·.1))).filter (coversWord l)).foldl Memory.clearAt m

/-- Zeroes n bytes from an address, with their poison. -/
def Memory.zeroRange (m : Memory) (a n : Nat) : Memory :=
  ⟨m.cells.filter fun c => c.1 < a || a + n ≤ c.1, m.poison.filter fun p => p < a || a + n ≤ p⟩

/-- The cells of a range. -/
def Memory.slice (m : Memory) (a n : Nat) : List Host.Cell :=
  m.cells.filter fun c => a ≤ c.1 && c.1 < a + n

end Sys2Proof.Machine
end

