-- ==== Sys2Proof/Machine/Nodes.lean ====
section
/-!
DEFINITION. Node instances: the ready pools, completion and failure of nodes, launch records, and quiescing
a partition (06_scheduler R109 to R120, 03_host R45, R49, 07_faults R150 to R152).
-/

namespace Sys2Proof.Machine

/-- What a step of the machine gives. -/
abbrev Out := Host.Outcome State Fault Refusal

/-! ### Homes of the state's parts -/

def State.coreAt (s : State) (c : CoreId) : Core := s.cores.get c
def State.setCoreAt (s : State) (c : CoreId) (x : Core) : State :=
  { s with cores := s.cores.set c.val x c.isLt }
def State.onCore (s : State) (c : CoreId) (f : Core → Core) : State := s.setCoreAt c (f (s.coreAt c))
/-- The core that executes, and its update. -/
def State.core (s : State) : Core := s.coreAt s.cur
def State.setCore (s : State) (x : Core) : State := s.setCoreAt s.cur x
def State.mapCore (s : State) (f : Core → Core) : State := s.setCore (f s.core)
def State.partAt (s : State) (p : PartId) : Part := s.parts.get p
def State.onPart (s : State) (p : PartId) (f : Part → Part) : State :=
  { s with parts := s.parts.set p.val (f (s.partAt p)) p.isLt }

/-- Every core number. -/
def allCores : List CoreId := List.finRange 256

/-- The cores that meet a condition. -/
def State.coresWhere (s : State) (p : CoreId → Core → Bool) : List CoreId :=
  ((allCores.zip s.cores.toList).filter fun x => p x.1 x.2).map (·.1)

/-- The update of every core that meets a condition. -/
def State.onCores (s : State) (p : CoreId → Core → Bool) (f : Core → Core) : State :=
  { s with cores := tabulate fun i => let x := s.cores.get i; if p i x then f x else x }

/-- A die's index, and the die of a core (00_scope R1). -/
def dieIx : Die → Fin 2
  | .e => 0
  | .w => 1
def dieOf (c : CoreId) : Die := if c.val < 128 then .e else .w
def otherDie : Die → Die
  | .e => .w
  | .w => .e
def State.xbarAt (s : State) (d : Die) : Xbar := s.xbar.get (dieIx d)
def State.onXbar (s : State) (d : Die) (f : Xbar → Xbar) : State :=
  { s with xbar := s.xbar.set (dieIx d).val (f (s.xbarAt d)) (dieIx d).isLt }
def State.fabAt (s : State) (d : Die) : Fabric := s.fab.get (dieIx d)
def State.onFab (s : State) (d : Die) (f : Fabric → Fabric) : State :=
  { s with fab := s.fab.set (dieIx d).val (f (s.fabAt d)) (dieIx d).isLt }
def State.vfAt (s : State) (p : PartId) : Vf := s.host.vfs.get p
def State.onVf (s : State) (p : PartId) (f : Vf → Vf) : State :=
  { s with host := { s.host with vfs := s.host.vfs.set p.val (f (s.vfAt p)) p.isLt } }
def State.queueAt (s : State) (p : PartId) (q : Fin 16) : LQueue := (s.vfAt p).queues.get q
def State.onQueue (s : State) (p : PartId) (q : Fin 16) (f : LQueue → LQueue) : State :=
  s.onVf p fun v => { v with queues := v.queues.set q.val (f (v.queues.get q)) q.isLt }
def State.onSched (s : State) (f : Sched → Sched) : State := { s with sched := f s.sched }
def State.onTele (s : State) (f : Telemetry → Telemetry) : State :=
  { s with fw := { s.fw with tele := f s.fw.tele } }

/-- A number as one of n (n > 0), modulo n. -/
def toPart (n : Nat) : PartId := Fin.ofNat 8 n
def toCore (n : Nat) : CoreId := Fin.ofNat 256 n
def toQ (n : Nat) : Fin 16 := Fin.ofNat 16 n

/-! ### Partitions and their cores -/

/-- The classrooms a partition owns (03_host R50). -/
def State.ownsRoom (s : State) (p : PartId) (room : Nat) : Bool :=
  bitOf (s.fw.partmap.get (Fin.ofNat 2 (p.val / 4))).toNat (16 * (p.val % 4) + room % 16)

/-- The cores of a partition in the order of partition-relative core numbers (06_scheduler R108). -/
def State.partCores (s : State) (p : PartId) : List CoreId :=
  (List.range 16).flatMap fun room =>
    if s.ownsRoom p room then (List.range 16).map fun k => toCore (16 * room + k) else []

/-- The partition that owns a core's classroom. -/
def State.partOfCore (s : State) (c : CoreId) : Option PartId :=
  (List.finRange 8).find? fun p => s.ownsRoom p (c.val / 16)

/-- The partition-relative number of a core. -/
def State.prelOf (s : State) (p : PartId) (c : CoreId) : Nat := (s.partCores p).findIdx (· == c)

/-! ### Instances -/

def State.instAt (s : State) (id : Nat) : Option Inst := s.sched.insts.find? (·.id == id)
def State.onInst (s : State) (id : Nat) (f : Inst → Inst) : State :=
  s.onSched fun h => { h with insts := h.insts.map fun i => if i.id == id then f i else i }
def State.graphAt (s : State) (h : Nat) : Option Graph := s.sched.graphs.find? (·.handle == h)
def State.descOf (s : State) (i : Inst) : Option NodeDesc :=
  (s.graphAt i.graph).bind fun g => g.image.nodes[i.node]?

/-- The partition of a core's node is being swapped out (07_faults R145). -/
def State.swappedOut (s : State) (c : CoreId) : Bool := (s.partAt (s.coreAt c).csr.part.toFin).swapped

/-- The instance a core runs. -/
def State.instOf (s : State) (c : CoreId) : Option Inst := ((s.coreAt c).node.inst).bind s.instAt

/-- The cores of an instance: every seat of every replica. -/
def State.instCores (s : State) (id : Nat) : List CoreId :=
  s.coresWhere fun _ x => x.node.inst == some id

/-- Two instances belong to one launch record. -/
def sameRecord (a b : Inst) : Bool := a.vf == b.vf && a.queue == b.queue && a.record == b.record

/-! ### Ready pools (R111) -/

def State.weight (s : State) (d : Die) (p : PartId) : Nat :=
  fld (s.sched.wt.get (dieIx d)).toNat (8 * p.val + 7) (8 * p.val)

/-- The entries of a die's pool that a partition holds, those given up in this cycle counted. -/
def State.poolUsed (s : State) (d : Die) (p : PartId) : Nat :=
  (s.sched.insts.filter fun i => i.pooled && i.die == d && i.vf == p).length +
  (s.sched.freed.filter fun f => f.1 == s.cyc && f.2.1 == d && f.2.2 == p).length

/-- The entries of a die's pool that a partition is guaranteed. -/
def State.guaranteed (s : State) (d : Die) (p : PartId) : Nat :=
  let sum := ((List.finRange 8).map (s.weight d)).sum
  if sum = 0 then 0 else 4096 * s.weight d p / sum

/-- An entry is free for a partition: it holds fewer than its guarantee, or the entries no guarantee covers
are not all taken. -/
def State.poolFree (s : State) (d : Die) (p : PartId) : Bool :=
  s.poolUsed d p < s.guaranteed d p ||
  ((List.finRange 8).map fun q => max (s.poolUsed d q) (s.guaranteed d q)).sum < 4096

/-- An entry is free, and no node of the partition waits for it. -/
def State.poolOpen (s : State) (d : Die) (p : PartId) : Bool :=
  s.poolFree d p && !s.sched.insts.any fun i => i.state == .ready && !i.pooled && i.die == d && i.vf == p

/-- An instance gives up its entry. -/
def State.leavePool (s : State) (id : Nat) : State :=
  match s.instAt id with
  | none => s
  | some i =>
    if i.pooled then
      (s.onInst id fun i => { i with pooled := false }).onSched fun h => { h with
        freed := (s.cyc, i.die, i.vf) :: h.freed.filter fun f => f.1 == s.cyc }
    else s

/-- a became ready before b (R111, R112). -/
def readyBefore (a b : Inst) : Bool :=
  decide (a.readyAt.toNat < b.readyAt.toNat) || (a.readyAt == b.readyAt &&
    (decide (a.record < b.record) || (a.record == b.record && decide (a.node < b.node))))

/-- Insertion into the order of readiness. -/
def waitIn (i : Inst) : List Inst → List Inst
  | [] => [i]
  | j :: r => if readyBefore i j then i :: j :: r else j :: waitIn i r

/-- Ready instances without an entry take the entries that are free for their partitions, in the order in which they
became ready. -/
def State.fillPool (s : State) : State :=
  ((s.sched.insts.filter fun i => i.state == .ready && !i.pooled).foldl (fun acc i => waitIn i acc) []).foldl (init := s)
    fun s i => if s.poolFree i.die i.vf then s.onInst i.id fun i => { i with pooled := true, entered := s.cyc } else s

/-- The die whose pool an instance enters when an event on die d makes it ready. -/
def State.poolDie (s : State) (i : Inst) (d : Die) : Die :=
  if i.redun > 1 then .e
  else match s.descOf i with
    | some n =>
      if bitOf n.pin.toNat 15 then
        match (s.partCores i.vf)[fld n.pin.toNat 7 0]? with
        | some c => dieOf c
        | none => d
      else d
    | none => d

/-- An instance becomes ready and takes an entry, or waits for one (R111). -/
def State.makeReady (s : State) (id : Nat) (d : Die) : State :=
  match s.instAt id with
  | none => s
  | some i =>
    let d := s.poolDie i d
    s.onInst id fun i => { i with
      state := .ready, die := d, entered := s.cyc, readyAt := s.cyc, pooled := s.poolOpen d i.vf }

/-- The successors of an instance along its early or its ordinary edges, counted off (R120). -/
def State.countEdges (s : State) (i : Inst) (early : Bool) (d : Die) : State :=
  match s.descOf i with
  | none => s
  | some n =>
    (n.succs.filter (·.early == early)).foldl (init := s) fun s e =>
      match s.sched.insts.find? fun j =>
        sameRecord i j && j.node == e.node.toNat && j.state == .waiting with
      | none => s
      | some j =>
        let s := s.onInst j.id fun j => { j with preds := j.preds - 1 }
        if j.preds ≤ 1 then s.makeReady j.id d else s

/-! ### Launch records (03_host R45) -/

/-- LQCT advances over the records that are complete; one message for the advance. -/
def advanceCt (fn : Nat) (q : LQueue) : LQueue × List (Nat × Nat) :=
  let n := (q.recs.takeWhile (·.ended)).length
  ({ q with ct := q.ct + .ofNat 64 n, recs := q.recs.drop n },
   if n > 0 && q.irq then [(fn, q.msiv.toNat)] else [])

/-- A record of a queue has ended: LQTAG and FAILCNT. One that was read before the queue was enabled anew counts toward
nothing (R41). -/
def LQueue.ended (q : LQueue) (r : Rec) (failed : Bool) : LQueue := { q with
  recs := q.recs.map fun x => if x.k == r.k then { x with ended := true, failed := failed } else x
  tag := r.tag
  failcnt := if failed && q.failcnt != 0xFFFF#16 then q.failcnt + 1 else q.failcnt }

/-- LQCT advances when it can, with the message for it. -/
def State.advanceQueue (s : State) (p : PartId) (qn : Fin 16) (q : LQueue) : State :=
  let (q, m) := advanceCt (p.val + 1) q
  let s := s.onQueue p qn fun _ => q
  { s with host := { s.host with msix := s.host.msix ++ m } }

/-- A record ends, once: LQTAG, FAILCNT, LQCT. -/
def State.endRecord (s : State) (p : PartId) (qn : Fin 16) (k : Nat) (failed : Bool) : State :=
  let q := s.queueAt p qn
  match q.recs.find? fun r => r.k == k && !r.ended with
  | none => if q.old.any (·.k == k) then s.onQueue p qn fun q => { q with old := q.old.filter (·.k != k) } else s
  | some r => s.advanceQueue p qn (q.ended r failed)

/-- A record whose instances have all completed or failed, with no task of it on its way, is complete; its group
entries are freed (R117, R119). -/
def State.finishRecord (s : State) (i : Inst) : State :=
  let js := s.sched.insts.filter (sameRecord i)
  if (js.all fun j => j.state == .complete || j.state == .failed) &&
      !s.sched.tasks.any fun t => (s.instAt t.inst).any (sameRecord i) then
    let gs := js.flatMap (·.groups)
    let s := s.onSched fun h => { h with groups := h.groups.filter fun g => !gs.contains g.1 }
    s.endRecord i.vf (toQ i.queue) i.record (js.any fun j => j.state == .failed)
  else s

/-! ### Completion and failure (R110) -/

/-- The cores of an instance are free; words left in their inboxes are counted (16_sync R359). -/
def State.releaseCores (s : State) (id : Nat) : State :=
  let lost := ((s.instCores id).map fun c => (s.coreAt c).mail.inbox.length).sum
  let s := s.onTele fun t => { t with lostWords := t.lostWords + lost }
  s.onCores (fun _ x => x.node.inst == some id) fun x => { x with
    seq := { x.seq with mode := .idle, held := .none, pend := [] }
    mail := { x.mail with inbox := [] }
    fills := [], locks := [], bankq := []
    node := { x.node with inst := .none, stood := false } }

/-- The gang's own entry is freed (R117). -/
def State.freeEntry (s : State) (i : Inst) : State :=
  match i.entry with
  | none => s
  | some e => s.onSched fun h => { h with groups := h.groups.filter fun g => g.1 != e }

/-- An instance completes: its edges count off, its cores and entry are freed. -/
def State.completeInst (s : State) (id : Nat) (d : Die) : State :=
  match s.instAt id with
  | none => s
  | some i =>
    let s := s.onInst id fun i => { i with state := .complete, early := true }
    let s := if i.early then s else s.countEdges i true d
    let s := s.countEdges i false d
    let s := (s.releaseCores id).freeEntry i
    s.finishRecord i

/-- The record that ends a chain of causes names no consequence (07_faults R151). -/
def endLast (l : List CauseRec) : List CauseRec :=
  (l.zip (List.range l.length)).map fun x => { x.1 with ends := decide (x.2 + 1 = l.length) }

/-- A cause record (07_faults R151). -/
def State.causeRec (s : State) (code reason origin : Nat) (info : W) (i : Option Inst) (pc : Nat)
    (ends : Bool) : CauseRec :=
  ⟨code, reason, origin, s.cyc, info, (i.map (·.node)).getD 0, (i.map (·.record)).getD 0, pc, ends,
    (i.map (·.vf)).getD 0⟩

/-- One round of R110: an instance still waiting whose predecessor has failed fails as well. -/
def State.failRound (s : State) : State :=
  let bad := s.sched.insts.filter fun j => j.state == .waiting &&
    s.sched.insts.any fun i => i.state == .failed && sameRecord i j &&
      match s.descOf i with
      | some n => n.succs.any fun e => e.node.toNat == j.node
      | none => false
  bad.foldl (init := s) fun s j =>
    let s := (s.leavePool j.id).onInst j.id fun j => { j with state := .failed }
    s.onSched fun h => { h with
      causes := h.causes ++ [s.causeRec 0x1F 0 (4 * 1024) (.ofNat 64 j.node) (some j) 0 false] }

/-- A number of rounds. -/
def State.failRounds : Nat → State → State
  | 0, s => s
  | n + 1, s => State.failRounds n s.failRound

/-- An instance fails, and every successor that is not ready or started. -/
def State.failInst (s : State) (id : Nat) : State :=
  match s.instAt id with
  | none => s
  | some i =>
    let s := (s.leavePool id).onInst id fun i => { i with state := .failed }
    let s := s.onSched fun h => { h with reserved := h.reserved.filter fun r => r.2.1 != id }
    let s := State.failRounds s.sched.insts.length s
    (s.freeEntry i).finishRecord i

/-- The update of every load of the running matrix command. -/
def MRun.mapPipes (r : MRun) (f : PipeRun → PipeRun) : MRun := { r with pipes := r.pipes.map fun l => l.map f }
def MRun.allPipes (r : MRun) : List PipeRun := r.pipes.toList.flatten
def Core.onMRun (x : Core) (f : MRun → MRun) : Core := { x with matrix := { x.matrix with run := x.matrix.run.map f } }

/-- Engines and accesses of a core stop, with nothing outstanding. -/
def Core.clearEngines (x : Core) : Core := { x with
  loads := [], stores := [], fence := [], fills := [], locks := [], bankq := [], readRels := []
  copy := .replicate 2 ⟨[], .none⟩
  matrix := { x.matrix with queue := [], run := .none, fwd := [] }
  mail := ⟨[], []⟩, moved := []
  redun := { x.redun with sbuf := [], used := 0, arrived := .none, agreed := false, inflight := [], traps := [] } }

/-- A core after a reset of the core: its memories, its translations and a freeze that lasts stay (07_faults R152, 03_host
R49). -/
def Core.resetCore (c : CoreId) (x : Core) : Core := { Core.reset (.ofNat 8 c.val) with
  csr := { Csr.reset (.ofNat 8 c.val) with part := x.csr.part, prel := x.csr.prel }
  seq := { Seq.reset with freeze := x.seq.freeze }
  halves := x.halves, scratch := x.scratch, acc := x.acc, accPoison := x.accPoison
  tlb := x.tlb, rcache := x.rcache
  node := { (Core.reset 0).node with seg := x.node.seg } }

/-- A migration of a page whose command ends with its partition: one that sends data to a peer module or reads it from there
cannot finish. -/
def Migration.orphan (g : Migration) : Migration :=
  { g with cmd := none, step := if g.home = 4 ∨ 2 ^ 80 ≤ g.pa then 2 else g.step }

/-- A partition is quiesced: its requests end, its nodes end, its records complete with failure, and its
cores, queues and group entries are reset (07_faults R152, 03_host R49). -/
def State.quiesce (s : State) (p : PartId) : State :=
  let mine := fun (i : Inst) => i.vf == p
  let ids := (s.sched.insts.filter mine).map (·.id)
  let old := s.coreAt
  let runs := fun (c : CoreId) => (old c).node.inst.any ids.contains
  let s := { s with cores := tabulate fun c => if runs c then (old c).resetCore c else old c }
  let s := s.onSched fun h => { h with
    insts := h.insts.filter fun i => !mine i
    groups := h.groups.filter fun g => g.2.part != p
    tasks := h.tasks.filter fun t => !ids.contains t.inst
    reserved := h.reserved.filter fun r => r.1 != p
    causes := h.causes.filter (·.part != p) }
  let s := (List.finRange 16).foldl (init := s) fun s q =>
    let x := s.queueAt p q
    let open_ := x.recs.filter fun r => !r.ended
    if open_.isEmpty then s else s.advanceQueue p q (open_.foldl (fun x r => x.ended r true) x)
  let s := s.onVf p fun v => { v with queues := .replicate 16 LQueue.reset }
  let s : State := { s with
    satchels := s.satchels.filter (·.part != p)
    ms := { s.ms with
      walks := s.ms.walks.filter fun w => w.part != p
      manager := s.ms.manager.filter fun m => !runs m.1
      migrations := s.ms.migrations.map fun g => if g.cmd.any fun m => runs m.1 then g.orphan else g } }
  let s := s.onPart p fun x => { x with swapped := false }
  let clear := fun (b : Xbar) => { b with
    wait := b.wait.filter fun k => k.part != p, recv := b.recv.filter fun k => k.part != p }
  let s := (s.onXbar .e clear).onXbar .w clear
  let drop := fun (f : Fabric) => { f with
    reqs := f.reqs.filter (fun r => r.part != p), relays := f.relays.filter fun e => !runs e.2.1 }
  (s.onFab .e drop).onFab .w drop

/-- A node fails with a chain of cause records that ends in its own NODE_FAILED; those of its successors follow. With
FATAL = 1 the partition is quiesced and the records go to telemetry; while a dump is not acknowledged the records go there
too and the cores are released (07_faults R150 to R152). -/
def State.failChain (s : State) (i : Inst) (recs : List CauseRec) : State :=
  if (s.partAt i.vf).fatal then
    let old := s.sched.causes.filter (·.part == i.vf)
    (s.quiesce i.vf).onTele fun t => { t with causes := t.causes ++ old ++ endLast recs }
  else
    let k := s.sched.causes.length
    let s := (s.onSched fun h => { h with causes := h.causes ++ recs }).failInst i.id
    let l := endLast (s.sched.causes.drop k)
    if (s.partAt i.vf).dumpPend then
      ((s.releaseCores i.id).onSched fun h => { h with causes := h.causes.take k }).onTele fun t =>
        { t with causes := t.causes ++ l }
    else s.onSched fun h => { h with causes := h.causes.take k ++ l }

/-- The master number of a core's copy engine (03_host R51). -/
def copyMaster (c : CoreId) (i : Nat) : Nat := 0x100 * (1 + i) + c.val

/-- The origin of a core's trap in the chain of causes (07_faults R151): the core, or the copy engine that met it. -/
def Trap.origin (t : Trap) (c : CoreId) : Nat :=
  if t.code = 0x10 then copyMaster c (fld t.info.toNat 55 48)
  else if t.async ∧ 4 ≤ t.engine ∧ t.engine < 6 then copyMaster c (t.engine - 4)
  else c.val

/-- A fault fails the node of the executing core (07_faults R131, R150 to R152): cause records, those of `prior` first, then
the dump or the quiesce; a core that runs no instance only halts. -/
def State.failNode (s : State) (t : Trap) (prior : List CauseRec := []) : State :=
  let me := s.instOf s.cur
  let pc := s.core.csr.trappc.toNat
  let recs := prior ++ [s.causeRec t.code t.reason (t.origin s.cur) t.info me pc false,
    s.causeRec 0x1F 0 s.cur.val (.ofNat 64 ((me.map (·.node)).getD 0)) me pc false]
  match me with
  | none => (s.onTele fun h => { h with causes := h.causes ++ endLast recs }).mapCore fun x =>
      { x with seq := { x.seq with mode := .halted } }
  | some i =>
    (s.onCores (fun _ x => x.node.inst == some i.id) fun x => { x with seq := { x.seq with mode := .halted } }).failChain
      i recs

end Sys2Proof.Machine
end

