-- ==== Sys2Proof/Machine/Ops.lean ====
section
/-!
DEFINITION. The named operations of a core: registers with their fixed members, full and empty, traps and
the return from them, holds, compare points, queues, timelines and bank locks.
-/

namespace Sys2Proof.Machine

/-! ### Registers (10_core R197) -/

/-- s0 reads 0, p0 true, k0 all ones. -/
def Regs.getS (r : Regs) (n : BitVec 6) : W := if n = 0 then 0 else r.s.get n.toFin
def Regs.getP (r : Regs) (n : BitVec 3) : Bool := n == 0 || r.p.get n.toFin
def Regs.getK (r : Regs) (n : BitVec 3) : KReg :=
  if n = 0 then BitVec.allOnes 1024 else r.k.get n.toFin
def Regs.getV (r : Regs) (n : BitVec 6) : VReg := r.v.get n.toFin

/-- Writes make a register full and give it a tag set; writes to s0, p0 and k0 are discarded. -/
def Regs.setS (r : Regs) (n : BitVec 6) (v : W) (t : BitVec 3 := 0) : Regs :=
  if n = 0 then r else { r with
    s := r.s.set n.toNat v n.isLt, sst := r.sst.set n.toNat .full n.isLt
    sTag := r.sTag.set n.toNat t n.isLt }
def Regs.setP (r : Regs) (n : BitVec 3) (v : Bool) (t : BitVec 3 := 0) : Regs :=
  if n = 0 then r else { r with
    p := r.p.set n.toNat v n.isLt, pTag := r.pTag.set n.toNat t n.isLt }
def Regs.setK (r : Regs) (n : BitVec 3) (v : KReg) (t : BitVec 3 := 0) : Regs :=
  if n = 0 then r else { r with
    k := r.k.set n.toNat v n.isLt, kTag := r.kTag.set n.toNat t n.isLt }
def Regs.setV (r : Regs) (n : BitVec 6) (v : VReg) (t : BitVec 3 := 0) : Regs := { r with
  v := r.v.set n.toNat v n.isLt, vst := r.vst.set n.toNat .full n.isLt
  vTag := r.vTag.set n.toNat t n.isLt }

/-- Marks a destination empty, or waiting for data; the tag set is written at once. -/
def Regs.mark (r : Regs) (f : RFile) (n : BitVec 6) (st : Fill) (t : BitVec 3 := 0) : Regs :=
  match f with
  | .s => if n = 0 then r else { r with
      sst := r.sst.set n.toNat st n.isLt, sTag := r.sTag.set n.toNat t n.isLt }
  | .v => { r with vst := r.vst.set n.toNat st n.isLt, vTag := r.vTag.set n.toNat t n.isLt }

/-- Writes the value of a marked register, which becomes full and keeps its tag set. -/
def Regs.fill (r : Regs) (f : RFile) (n : BitVec 6) (v : VReg) : Regs :=
  match f with
  | .s => r.setS n (v.setWidth 64) (r.sTag.get n.toFin)
  | .v => r.setV n v (r.vTag.get n.toFin)

/-- Full, empty or waiting. -/
def Regs.statusS (r : Regs) (n : BitVec 6) : Fill := if n = 0 then .full else r.sst.get n.toFin
def Regs.statusV (r : Regs) (n : BitVec 6) : Fill := r.vst.get n.toFin

def Core.onRegs (x : Core) (f : Regs → Regs) : Core := { x with regs := f x.regs }
def Core.onCsr (x : Core) (f : Csr → Csr) : Core := { x with csr := f x.csr }
def Core.onSeq (x : Core) (f : Seq → Seq) : Core := { x with seq := f x.seq }
def State.mapRegs (s : State) (f : Regs → Regs) : State := s.mapCore (·.onRegs f)
def State.mapCsr (s : State) (f : Csr → Csr) : State := s.mapCore (·.onCsr f)
def State.mapSeq (s : State) (f : Seq → Seq) : State := s.mapCore (·.onSeq f)
def State.regs (s : State) : Regs := s.core.regs
def State.csr (s : State) : Csr := s.core.csr

/-- A free value, and the state that has taken it (Config.freeWord, Config.freeBit). -/
def State.takeFree (s : State) : State := { s with freeCtr := s.freeCtr + 1 }

/-! ### The lift of registers (10_core R217, R218) -/

/-- The extent of the active level of a tag, 1 when no active level has it. -/
def Lift.extOf (l : Lift) (t : Nat) : Nat :=
  match l.levels.find? (·.tag.toNat == t) with
  | some v => v.ext
  | none => 1

/-- A tag set holds a tag: bit t − 1. -/
def hasTag (ts : BitVec 3) (t : Nat) : Bool := t != 0 && bitOf ts.toNat (t - 1)

/-- The levels of a lift whose tag a set holds, outermost first. -/
def Lift.of (l : Lift) (ts : BitVec 3) : List LiftLevel :=
  l.levels.reverse.filter fun v => hasTag ts v.tag.toNat

/-- The extent of a tag set. -/
def Lift.extent (l : Lift) (ts : BitVec 3) : Nat := ((l.of ts).map (·.ext)).foldl (· * ·) 1
def Lift.prod (l : Lift) : Nat := (l.levels.map (·.ext)).foldl (· * ·) 1

/-- The digits of a member index over extents, outermost first. -/
def digits : List Nat → Nat → List Nat
  | [], _ => []
  | e :: r, m => (m / (r.foldl (· * ·) 1)) % e :: digits r m

/-- The index of digits over extents. -/
def undigits : List (Nat × Nat) → Nat := fun l => l.foldl (fun a x => a * x.1 + x.2) 0

/-- The member of tag set `tgt` that member m of tag set `fr` projects onto; a tag `fr` lacks counts 0. -/
def Lift.project (l : Lift) (fr tgt : BitVec 3) (m : Nat) : Nat :=
  let src := l.of fr
  let ds := (src.map (·.tag)).zip (digits (src.map (·.ext)) m)
  undigits ((l.of tgt).map fun v => (v.ext, ((ds.find? (·.1 == v.tag)).map (·.2)).getD 0))

/-- A tag set without a tag, or with it. -/
def dropT (ts : BitVec 3) (t : Nat) : BitVec 3 := if t = 0 then ts else ts &&& ~~~(1#3 <<< (t - 1))
def addT (ts : BitVec 3) (t : Nat) : BitVec 3 := if t = 0 then ts else ts ||| (1#3 <<< (t - 1))

/-- The innermost active tag of a set, 0 when none is. -/
def Lift.innermost (l : Lift) (ts : BitVec 3) : Nat :=
  ((l.levels.find? fun v => hasTag ts v.tag.toNat).map (·.tag.toNat)).getD 0

/-- The set of every active tag. -/
def Lift.full (l : Lift) : BitVec 3 :=
  l.levels.foldl (fun a v => a ||| (1#3 <<< (v.tag.toNat - 1))) 0

/-- Member m of a tag set executes: the bit of the first full-product member that projects onto it (R219). -/
def Lift.live (l : Lift) (ts : BitVec 3) (m : Nat) : Bool :=
  l.levels.isEmpty || bitOf l.lmask.toNat (l.project ts l.full m)

/-- The least power of two not below n. -/
def pow2Up (n : Nat) : Nat := if n ≤ 1 then 1 else 2 ^ (Nat.log2 (n - 1) + 1)

/-- A register name is aligned to its extent and its members lie in the file (R217); s0, p0 and k0 take no
tagged write. -/
def nameOk (size n e : Nat) : Bool := n % pow2Up e == 0 && n + e ≤ size

/-! ### Program points (07_faults R130) -/

def Pc.word (p : Pc) : W :=
  .ofNat 64 (b2n p.half * 2 ^ 14 + p.bundle % 4096 * 4 + p.slot % 4)
def pcOfWord (w : W) : Pc := ⟨bitOf w.toNat 14, fld w.toNat 13 2, fld w.toNat 1 0⟩

/-! ### Traps (07_faults R131 to R138) -/

/-- The classes of R131. -/
inductive TrapClass where | p | a | c | f | n
  deriving DecidableEq, Repr

/-- The class of a trap by its cause (R132, R133, R138). -/
def Trap.cls (t : Trap) : TrapClass :=
  match t.code with
  | 0x04 | 0x0E | 0x0F | 0x11 => .c
  | 0x08 => if t.async then .a else .p
  | 0x09 => if t.probe then .p else .f
  | 0x0C | 0x0D => .a
  | 0x10 => if fld t.info.toNat 63 56 = 9 ∨ fld t.info.toNat 63 56 = 0xB then .f else .c
  | 0x12 => .p
  | 0x1A | 0x1C | 0x1E | 0x1F => .n
  | _ => .f

/-- The causes a leader decides and forwards to its followers (09_redundancy R180). -/
def Trap.shared (t : Trap) : Bool := !t.self && [0x08, 0x0A, 0x0C, 0x0D, 0x0E, 0x0F, 0x10, 0x11, 0x12].contains t.code

/-- TRAPCAUSE (R130). -/
def Trap.cause (t : Trap) (sync : Bool) : W :=
  .ofNat 64 (b2n t.async * 2 ^ 63 + t.engine % 8 * 2 ^ 60 + b2n sync * 2 ^ 59 +
    t.reason % 256 * 256 + t.code % 256)

/-- A scalar value as a register value. -/
def ofS (v : W) : VReg := v.setWidth 4096

/-- SFU operations and promise returns complete and write their destinations (R139). -/
def Core.drain (x : Core) : Core :=
  let go := fun (x : Core) (f : PendFill) => match f.src with
    | .value v fl => { x.onRegs (fun r => r.fill f.file f.reg v) with
        csr := { x.csr with fpflags := x.csr.fpflags ||| fl } }
    | _ => { x with fills := x.fills ++ [f] }
  x.fills.foldl go { x with fills := [] }

/-- The cycle at which a drain that begins now ends. -/
def Core.drainEnd (x : Core) (now : W) : W :=
  x.fills.foldl (fun e f => match f.src with
    | .value .. => if e.toNat < f.due.toNat then f.due else e
    | _ => e) now

/-- The trap registers are written (R134 step 3). -/
def Csr.record (c : Csr) (t : Trap) (sync : Bool) (pc : Pc) : Csr := { c with
  trappc := pc.word, trapcause := t.cause sync, trapinfo := t.info, faultmask := .ofNat 64 (t.mask % 64) }

/-- A timeline, and its update. -/
def Core.tlAt (x : Core) (i : Fin 3) : Timeline := x.tl.get i
def Core.onTl (x : Core) (i : Fin 3) (f : Timeline → Timeline) : Core :=
  { x with tl := x.tl.set i.val (f (x.tlAt i)) i.isLt }

/-- The timeline a COPY_ERROR names, whose error bit trap entry clears (R138). -/
def Core.clearErr (x : Core) (t : Trap) : Core :=
  if t.code = 0x10 then
    let i := fld t.info.toNat 55 48
    { x with tl := x.tl.mapFinIdx fun j v _ => if j = i then { v with err := none, errAt := none } else v }
  else x

/-- A handler is entered: the producers drain, the trap registers are written, HM is set, the next group is
the one at TVEC with an empty loop stack; bank locks end; its first group issues 6 cycles after the drain (R134, 14_scalar R306, 10_core R212). -/
def Core.enterHandler (x : Core) (t : Trap) (sync : Bool) (pc : Pc) (now : W) : Core :=
  let from_ := x.drainEnd now
  let x := (x.drain).clearErr t
  let h := { pcOfWord x.csr.tvec with slot := 0 }
  { x with
    csr := { x.csr.record t sync pc with hm := true }
    redun := { x.redun with groups := x.redun.groups + 1 }
    seq := { x.seq with
      pc := h, npc := h, savedLoops := x.seq.loops, loops := [], rolled := false, skipSync := false, held := none
      next := from_ + 6, took := (now, #v[(x.tlAt 0).issued.toNat, (x.tlAt 1).issued.toNat]) }
    locks := [] }

/-- The record of the cause that a COPY_ERROR reports, before its own (07_faults R151): of a poisoned word, its poisoning
where the word lies. DEDUCED (assumption 90): of any other cause, the copy engine that met it. -/
def State.rootRecs (s : State) (t : Trap) (pc : Pc) : List CauseRec :=
  if t.code ≠ 0x10 then []
  else
    let i := fld t.info.toNat 55 48
    let code := fld t.info.toNat 63 56
    let me := s.instOf s.cur
    match if code = 0x0B then ((s.core.tl[i]?).bind (·.errAt)) else none with
    | some (o, place) =>
      let r := s.causeRec 0x0B 1 o (.ofNat 64 place) me pc.word.toNat false
      [match if 1024 ≤ o then s.ms.births.find? (·.1 == place) else none with
        | some b => { r with cyc := b.2 }
        | none => r]
    | none => [s.causeRec code 0 (copyMaster s.cur i) 0 me pc.word.toNat false]

/-- A trap is taken on the executing core; `pc` is what TRAPPC names. In handler mode a second trap fails
the node with DOUBLE_TRAP (R135); with TVEC.V = 0 or class F the node fails. -/
def State.takeTrap (s : State) (t : Trap) (pc : Pc) : State :=
  let x := s.core
  let sync := s.issue.synced
  if x.csr.hm then
    let cause := x.csr.trapcause.toNat
    let t1 : Trap := { code := fld cause 7 0, reason := fld cause 15 8, info := x.csr.trapinfo, async := bitOf cause 63, engine := fld cause 62 60 }
    let first := { s.causeRec t1.code t1.reason (t1.origin s.cur) t1.info (s.instOf s.cur) x.csr.trappc.toNat false with
      cyc := x.seq.took.1 }
    let named := if t.code = 4 then
      [s.causeRec t.code t.reason s.cur.val t.info (s.instOf s.cur) x.seq.pc.word.toNat false] else []
    let t2 := { t with code := 0x1D, info := .ofNat 64 t.code }
    (s.setCore ((x.drain).onCsr (·.record t2 sync x.seq.pc))).failNode t2 (first :: named)
  else if t.cls = .f ∨ !bitOf x.csr.tvec.toNat 63 then
    (s.setCore (((x.drain).clearErr t).onCsr (·.record t sync pc))).failNode t (s.rootRecs t pc)
  else s.setCore (x.enterHandler t sync pc s.cyc)

/-- The replicas of the node of the executing core, its own excluded (09_redundancy R175). -/
def State.replicas (s : State) : List CoreId :=
  match s.core.node.inst with
  | none => []
  | some id => (s.instCores id).filter fun c =>
      c != s.cur && (s.coreAt c).node.seat == s.core.node.seat && !(s.coreAt c).redun.retired
def State.isLeader (s : State) : Bool := s.csr.self == s.csr.lead

/-- A trap of a replica: the leader forwards those of R180, and any other is a compare point of kind 3
(R182); without replicas it is taken at once. -/
def State.trap (s : State) (t : Trap) (pc : Pc) : State :=
  if s.csr.nrep.toNat ≤ 1 then s.takeTrap t pc
  else if t.shared then
    let s := if s.isLeader then s.replicas.foldl (init := s) fun s c =>
      s.onCore c fun y => { y with redun := { y.redun with
        traps := y.redun.traps ++ [(s.core.redun.groups, t)] } }
      else s.mapCore fun x => { x with redun := { x.redun with traps := x.redun.traps.drop 1 } }
    s.takeTrap t pc
  else
    s.mapCore fun x => { x.drain with redun := { x.redun with arrived := some (3, some t), since := x.drainEnd s.cyc } }

/-- The trap a leader has forwarded for the group with so many before it. -/
def Core.trapAt (x : Core) (n : Nat) : Option Trap :=
  match x.redun.traps with
  | (k, t) :: _ => if k = n then some t else none
  | [] => none

/-- A follower's trap of R180 is its leader's: the trap, or none while the leader has not forwarded it; `after` for
one that is taken when its group has issued. -/
def State.leadersTrap (s : State) (t : Trap) (after : Nat := 0) : Option Trap :=
  if t.shared ∧ 1 < s.csr.nrep.toNat ∧ !s.isLeader then s.core.trapAt (s.core.redun.groups + after) else some t

/-- An operation fails a check: the group's failures are collected (R128, R129), an operation alone is
trapped at once. EARLY_READ in handler mode holds instead (R135); a follower waits for the leader's trap
(R180). -/
def raise (t : Trap) (s : State) : Out :=
  match if t.code = 0x12 ∧ s.csr.hm then none else s.leadersTrap t with
  | none => .next { s with issue := { s.issue with held := true } }
  | some t =>
    if s.issue.opened then
      .next { s with issue := { s.issue with fails := s.issue.fails ++ [⟨s.issue.ctx.idx, t⟩] } }
    else
      .next (s.trap { t with mask := 2 ^ s.issue.ctx.idx }
        (if t.cls = .c then s.core.seq.npc else s.core.seq.pc))

/-- A class C trap that the operation raises after its group has issued: SW_TRAP, MISSED_PROMISE, COPY_ERROR;
in handler mode it is precise at its group (R135). -/
def raiseAfter (t : Trap) (s : State) : Out :=
  if s.csr.hm then raise t s else
  match s.leadersTrap t 1 with
  | none => .next { s with issue := { s.issue with held := true } }
  | some t =>
    let t := { t with mask := 2 ^ s.issue.ctx.idx }
    if s.issue.opened then .next { s with issue := { s.issue with after := some t } }
    else .next (s.trap t s.core.seq.npc)

/-- The operation cannot issue yet: the group holds. -/
def hold (s : State) : Out := .next { s with issue := { s.issue with held := true } }

/-- An engine reports a trap: it waits until the next group that has not issued, the lower engine number
first (R136). -/
def Core.report (x : Core) (t : Trap) : Core :=
  let l := x.seq.pend
  x.onSeq fun q => { q with pend :=
    (l.filter fun u => u.engine ≤ t.engine) ++ t :: (l.filter fun u => t.engine < u.engine) }

/-- The return from a trap (R131, R135, R306): HM clears, the loop stack comes back, the group at TRAPPC is
next; SYNCDONE makes its sync field ignored once when the trap was of class P. Engines that a trap of class
A stopped are resumed by b.tret itself. -/
def Core.trapReturn (x : Core) : Core :=
  { x with
    csr := { x.csr with hm := false }
    seq := { x.seq with
      npc := pcOfWord x.csr.trappc, loops := x.seq.savedLoops, savedLoops := []
      skipSync := bitOf x.csr.trapcause.toNat 59 } }

/-! ### Compare points (09_redundancy R182) -/

/-- The operation stands at a compare point of a kind, with its records, unless its group's compare has agreed: its group does
not issue (R182). -/
def comparePoint (kind : Nat) (body : State → Out) (s : State) (recs : List (List Byte) := []) : Out :=
  if s.csr.nrep.toNat ≤ 1 ∨ s.core.redun.agreed ∨ s.issue.ctx.loc then body s
  else .next { s with issue := { s.issue with
    recs := s.issue.recs ++ recs, compare := some (match s.issue.compare with | some k => min k kind | none => kind) } }

/-- SigFold (R181) over one byte, and over bytes. -/
def sigBits : Nat → BitVec 64 → Byte → BitVec 64
  | 0, g, _ => g
  | n + 1, g, b =>
    let top := g.getLsbD 63 != b.getLsbD n
    let g := g <<< 1
    sigBits n (if top then g ^^^ 0x42F0E1EBA9EA3693#64 else g) b
def sigFold (g : W) (l : List Byte) : W := l.foldl (sigBits 8) g

/-- Folds a record into the signature, unless the operation is replica-local (R363). -/
def State.foldSig (s : State) (l : List Byte) : State :=
  if s.csr.nrep.toNat ≤ 1 ∨ s.issue.ctx.loc then s
  else s.mapCore fun x => { x with redun := { x.redun with sig := sigFold x.redun.sig l } }

/-- The number of the next value the leader forwards; every replica counts alike (R178). -/
def State.fwdNum (s : State) : Nat := s.core.redun.sent
def State.bumpFwd (s : State) : State :=
  s.mapCore fun x => { x with redun := { x.redun with sent := x.redun.sent + 1 } }
/-- The leader's value number n goes to every follower. -/
def State.forward (s : State) (n : Nat) (v : VReg) (fl : Flags := 0) : State :=
  s.replicas.foldl (init := s) fun s c => s.onCore c fun y =>
    { y with redun := { y.redun with inflight := y.redun.inflight ++ [(n, v, fl)] } }
/-- A value that the leader has at once is numbered and sent. -/
def State.sendFwd (s : State) (v : VReg) : State := s.bumpFwd.forward s.fwdNum v
/-- The executing replica leads others, with values to forward. -/
def State.leads (s : State) : Bool := 1 < s.csr.nrep.toNat && s.isLeader && !s.issue.ctx.loc
def State.follows (s : State) : Bool := 1 < s.csr.nrep.toNat && !s.isLeader && !s.issue.ctx.loc

/-! ### Readiness (10_core R195 to R198) -/

/-- What the registers of an operation allow. -/
inductive Ready where | go | hold | early (field : Nat) (shared : Bool)
  deriving DecidableEq, Repr

/-- The members of a register under its own tag set. -/
def Core.members (x : Core) (f : RegFile) (n : Nat) : List Nat :=
  let ts := match f with
    | .s => x.regs.sTag.get (Fin.ofNat 64 n)
    | .v => x.regs.vTag.get (Fin.ofNat 64 n)
    | .k => x.regs.kTag.get (Fin.ofNat 8 n)
    | .p => x.regs.pTag.get (Fin.ofNat 8 n)
  (List.range (x.lift.extent ts)).map (n + ·)

def Core.fillOf (x : Core) (f : RegFile) (n : Nat) : Fill :=
  match f with
  | .s => x.regs.statusS (.ofNat 6 n)
  | .v => x.regs.statusV (.ofNat 6 n)
  | _ => .full

/-- The union of the tag sets of an operation's sources. -/
def Core.useTags (x : Core) (us : List Use) : BitVec 3 :=
  us.foldl (fun a u => a ||| match u.file with
    | .s => x.regs.sTag.get (Fin.ofNat 64 u.n)
    | .v => x.regs.vTag.get (Fin.ofNat 64 u.n)
    | .k => x.regs.kTag.get (Fin.ofNat 8 u.n)
    | .p => x.regs.pTag.get (Fin.ofNat 8 u.n)) 0

/-- The tag set of an operation's result: the union of its sources' (R217), but for the lift operations, m.getp and v.qpop
(21_vector R408 to R410, 23_matrix R416). -/
def Core.resultTags (x : Core) (i : Instr) (us : List Use) : BitVec 3 :=
  let ts := x.useTags us
  match i with
  | .vLbcast _ _ t _ => addT ts t.toNat
  | .vLred _ _ _ t _ => dropT ts t.toNat
  | .vLpick _ a _ _ => dropT ts (x.lift.innermost (x.regs.vTag.get a.reg.toFin))
  | .mGetp p _ => x.regs.pmTag.get p.toFin
  | .vQpop .. => 0
  | _ => ts

/-- The registers that an operation writes, member by member. -/
def Core.writes (x : Core) (i : Instr) (us : List Use) : List (RegFile × Nat) :=
  (destsOf i).flatMap fun d => (List.range (x.lift.extent (x.resultTags i us))).map fun m => (d.1, d.2 + m)

/-- An empty register gets its value from the leader, as its followers do: forwarded data, a promise, a status or a word of
q.fin; not a result of the replica's own units (09_redundancy R178, R180). -/
def Core.fillShared (x : Core) (f : RegFile) (n : Option Nat) : Bool :=
  let file : RFile := if f = .v then .v else .s
  match (x.fills.find? fun p => p.file == file && some p.reg.toNat == n).map PendFill.src with
  | some (.forwarded _) => true
  | some (.getp ..) => false
  | _ => f == .s

/-- The sources are full, or hold the group, or are read too early (R198, R139); the registers to be written are full
(R196). -/
def Core.ready (x : Core) (us : List Use) (ds : List (RegFile × Nat)) : Ready :=
  let st := fun (u : Use) => (x.members u.file u.n).map (x.fillOf u.file)
  match us.find? fun u => u.early && (st u).any (· == .empty) with
  | some u => if x.csr.hm then .hold else .early u.field (x.fillShared u.file ((x.members u.file u.n).find? fun n =>
      x.fillOf u.file n == .empty))
  | none =>
    if us.any fun u => (st u).any (· != .full) then .hold
    else if ds.any fun d => x.fillOf d.1 d.2 != .full then .hold
    else .go

/-- What the registers of an operation allow in its context. -/
def State.readyFor (s : State) (i : Instr) : Ready :=
  let us := allUses i s.issue.ctx
  s.core.ready us (s.core.writes i us)

/-- An operation issues once its registers are ready. -/
def withReady (i : Instr) (body : State → Out) (s : State) : Out :=
  match s.readyFor i with
  | .go => body s
  | .hold => hold s
  | .early f shared => raise { code := 0x12, info := .ofNat 64 f, self := !shared } s

/-! ### Queues (10_core R214, R215; 16_sync R346) -/

def QueueSt.depth (q : QueueSt) : Nat := 2 ^ q.log2d.toNat
def QueueSt.size (q : QueueSt) : Nat := if q.esz then 512 else 8
def QueueSt.count (q : QueueSt) : Nat := (q.pi - q.ci).toNat
def QueueSt.full (q : QueueSt) : Bool := q.count == q.depth
def QueueSt.slotAt (q : QueueSt) (i : Nat) : Nat := q.base.toNat + i % q.depth * q.size

def Core.queue (x : Core) (n : BitVec 4) : QueueSt := x.queues.get n.toFin
def Core.setQueue (x : Core) (n : BitVec 4) (q : QueueSt) : Core :=
  { x with queues := x.queues.set n.toNat q n.isLt }

/-- Blocks of scratch and accumulator banks have been written (07_faults R147). -/
def Core.noteWrite (x : Core) (l : List Nat) : Core := { x with wrote := l.foldl numInsert x.wrote }

/-- A push: the entry's bytes, then PI. -/
def Core.push (x : Core) (n : BitVec 4) (v : VReg) : Core :=
  let q := x.queue n
  { (x.setQueue n { q with pi := q.pi + 1 }).noteWrite [q.slotAt q.pi.toNat / 0x10000] with
    scratch := (x.scratch.store
      ((List.range q.size).map fun i =>
        (q.slotAt q.pi.toNat + i, .ofNat 8 (v.toNat / 2 ^ (8 * i)), 0xFF#8))) }

/-- The entry at a distance from the head, as a register value. -/
def Core.peek (x : Core) (n : BitVec 4) (k : Nat) : VReg :=
  let q := x.queue n
  .ofNat 4096 (x.scratch.num (q.slotAt (q.ci.toNat + k)) q.size)

/-- A pop's effect on the pointers. -/
def Core.pop (x : Core) (n : BitVec 4) (k : Nat := 1) : Core :=
  let q := x.queue n
  x.setQueue n { q with ci := q.ci + .ofNat 16 k }

/-! ### Timelines (10_core R216) -/

/-- The largest n such that commands 1 to n have completed. -/
def Timeline.advance : Nat → Timeline → Timeline
  | 0, t => t
  | k + 1, t =>
    if t.ahead.contains (t.val.toNat + 1) then
      Timeline.advance k { t with val := t.val + 1, ahead := t.ahead.filter (· != t.val.toNat + 1) }
    else t

/-- Command n completes, with the cause of its error status if it has one (07_faults R138). -/
def Timeline.complete (t : Timeline) (n : Nat) (err : Option Nat) : Timeline :=
  let t := { t with ahead := n :: t.ahead, dues := t.dues.filter (·.1 != n) }
  let t := match err, t.err with
    | some c, none => { t with err := some (n, c) }
    | _, _ => t
  t.advance t.ahead.length

/-- q.tlsig brings ts to a value in a cycle (16_sync R349, R350): a lower one changes nothing; a value that has reached
every die is dropped once a newer one has. -/
def Core.signal (x : Core) (now v : W) : Core :=
  if x.ts.toNat < v.toNat then
    let l := x.tsLog
    { x with ts := v, tsLog := (now, v) :: l.filter (fun e => decide (now.toNat < e.1.toNat + 40)) ++
        (l.filter fun e => decide (e.1.toNat + 40 ≤ now.toNat)).take 1 }
  else x

/-! ### Bank locks (10_core R212) -/

/-- The private bank of a scratch offset; 16 the live exchange bank, 17 the shadow. -/
def bankOfOff (off : Nat) : Nat :=
  if off < 0x200000 then off / 0x20000 else if off < 0x280000 then 16 else 17

/-- Another unit holds a lock on the bank. -/
def Core.lockedFor (x : Core) (unit off : Nat) : Bool :=
  x.locks.any fun l => l.unit != unit &&
    (let b := bankOfOff off; if b < 16 then bitOf l.mask.toNat b else b == 16 && l.x)

/-- A lock is taken for a unit: earlier locks end on the banks they share. -/
def Core.lock (x : Core) (unit : Nat) (p : LockPfx) : Core :=
  let cut := fun (l : BankLock) => if l.unit == unit then l else
    { l with mask := l.mask &&& ~~~p.mask, x := l.x && !p.x }
  { x with locks := (x.locks.map cut) ++ [⟨unit, p.mask, p.x, p.count⟩] }

/-- The lock prefix of the operation takes effect. -/
def State.takeLock (s : State) (unit : Nat) : State :=
  match s.issue.ctx.lock with
  | some p => s.mapCore fun x => x.lock unit p
  | none => s

/-- A group has issued: every lock lasts one group less. -/
def Core.ageLocks (x : Core) : Core :=
  { x with locks := (x.locks.filter (0 < ·.left)).map fun l => { l with left := l.left - 1 } }

end Sys2Proof.Machine
end

