-- ==== Sys2Proof/Machine/Banks.lean ====
section
/-!
DEFINITION. The banks of a core's scratch (10_core R209): the requests that stand at them, the order in which a bank serves
them, and what a late request delays; the two vector instances (R205).
-/

namespace Sys2Proof.Machine

/-! ### Requests -/

/-- The order of the units at a bank: matrix load pipes, vector 0, vector 1, scalar, copy 0, copy 1, windows. -/
def bankRank (unit : Nat) : Nat :=
  match unit with
  | 5 => 0
  | 0 => 3
  | 1 | 2 => unit
  | n => n + 1

/-- A request that has waited 16 ac cycles. -/
def BankReq.aged (now : W) (r : BankReq) : Bool := decide (r.since.toNat + 16 ≤ now.toNat)

/-- Request a is served before request b: the one the bank has begun; one that has waited 16 cycles, the older first; then the
order of the units, and of arrival. -/
def BankReq.before (now : W) (a b : BankReq) : Bool :=
  if a.begun || b.begun then a.begun
  else if a.aged now != b.aged now then a.aged now
  else if a.aged now && a.since != b.since then decide (a.since.toNat < b.since.toNat)
  else decide (bankRank a.unit < bankRank b.unit) || (a.unit == b.unit && decide (a.since.toNat < b.since.toNat))

/-- The requests that have arrived at a bank. -/
def Core.atBank (x : Core) (now : W) (b : Nat) : List BankReq :=
  x.bankq.filter fun r => r.bank == b && decide (r.since.toNat ≤ now.toNat)

/-- The request a bank serves among those at it. -/
def pickReq (now : W) : List BankReq → Option BankReq
  | [] => none
  | r :: l => some (l.foldl (fun m k => if k.before now m then k else m) r)

/-- The registers that a late request was to fill come a cycle later. -/
def Core.delay (x : Core) (late : List BankReq) : Core :=
  { x with busy := x.busy.map fun e =>
      if late.any (·.dsts.contains (e.1, e.2.1)) then (e.1, e.2.1, e.2.2 + 1) else e }

/-- A bank serves one request for a cycle. -/
def Core.serveBank (now : W) (x : Core) (b : Nat) : Core :=
  match pickReq now (x.atBank now b) with
  | none => x
  | some r =>
    let rest := x.bankq.erase r
    ({ x with bankq := if r.left ≤ 1 then rest else { r with left := r.left - 1, begun := true } :: rest }).delay
      ((x.atBank now b).erase r)

/-- Every bank serves for n cycles from `now`. -/
def Core.bankCycles : Nat → W → Core → Core
  | 0, _, x => x
  | n + 1, now, x =>
    if x.bankq.isEmpty then x
    else Core.bankCycles n (now + 1) (((x.bankq.map (·.bank)).eraseDups).foldl (Core.serveBank now) x)

/-- A bank would serve a request of a unit now that has waited since a cycle. -/
def Core.bankOpen (x : Core) (now : W) (b unit : Nat) (since : W) : Bool :=
  (x.atBank now b).all (BankReq.before now ⟨b, unit, since, 1, false, []⟩)

/-- A bank serves a request of a unit from now on for n cycles. -/
def Core.takeBank (x : Core) (now : W) (b unit n : Nat) : Core :=
  { x with bankq := ⟨b, unit, now, n, true, []⟩ :: x.bankq }

/-- The banks that bytes of private scratch lie in, by their offsets, and the cycles of each: 256 bytes take one. -/
def bankUse (offs : List Nat) : List (Nat × Nat) :=
  ((offs.map bankOfOff).eraseDups).map fun b => (b, ((offs.filter fun o => bankOfOff o == b).length + 255) / 256)

/-- An access of a unit of the sequencer's requests its banks, so many cycles from now; a load's data is late when its
request is. -/
def State.useBanks (s : State) (unit : Nat) (offs : List Nat) (dsts : List (RegFile × Nat)) (from_ : Nat := 0) : State :=
  s.mapCore fun x => { x with bankq := x.bankq ++ (bankUse offs).map fun b =>
    ⟨b.1, unit, s.cyc + .ofNat 64 from_, b.2, false, dsts⟩ }

/-- Every bank that some bytes lie in would serve an engine now. -/
def Core.banksOpen (x : Core) (now : W) (unit : Nat) (since : W) (offs : List Nat) : Bool :=
  (bankUse offs).all fun b => x.bankOpen now b.1 unit since
/-- They serve it. -/
def Core.takeBanks (x : Core) (now : W) (unit : Nat) (offs : List Nat) : Core :=
  (bankUse offs).foldl (fun x b => x.takeBank now b.1 unit b.2) x

/-! ### Vector instances (R205) -/

/-- The operations in the queue of a vector instance that have not started. -/
def Core.vecWaiting (x : Core) (now : W) (i : Fin 2) : Nat :=
  ((x.vec.get i).starts.filter fun t => decide (now.toNat < t.toNat)).length

/-- An operation that enters the queue of a vector instance at a cycle starts when the instance is free, and takes it for so
many cycles, one a member (21_vector R410); the cycles it waits. -/
def Core.startVec (x : Core) (i : Fin 2) (at_ : W) (n : Nat) : Core × Nat :=
  let v := x.vec.get i
  let start := if at_.toNat < v.free.toNat then v.free else at_
  let w : VecUnit := ⟨(v.starts.filter fun t => decide (at_.toNat < t.toNat)) ++ [start], start + .ofNat 64 (max 1 n)⟩
  ({ x with vec := x.vec.set i.val w i.isLt }, start.toNat - at_.toNat)

end Sys2Proof.Machine
end

