-- ==== Sys2Proof/Config.lean ====
section
/-!
DEFINITION. What one part fixes and the manual leaves open: constants with no body, so that nothing
can be proved of their values (the assumption log names each of them).
-/

namespace Sys2Proof.Config

/-- The slice among 32 that owns a 4 KiB granule of HBM (04_spaces R74): fixed per part. -/
opaque hash32 : Nat → Fin 32

/-- The heath port among 4 that owns a 4 KiB granule of the heath (04_spaces R74): fixed per part. -/
opaque hash4 : Nat → Fin 4

/-- The port index a router picks from the set bits of a PORTS mask: a hash of the source
coordinate, the destination coordinate and the target address bits [63:12] (02_fabric R23). -/
opaque routeHash : Nat → Nat → Nat → Nat

/-- Which of the four bridge ports 108 to 111 and the eight router ports 100 to 107 a packet takes
(20_prog_chase R375 numbers the ports and states no choice). -/
opaque bridgePort : Nat → Fin 4

/-- Free bits: whether an unordered fetch reads the old or the new bundle (15_copy R333), applied to
the counter `freeCtr` of the state. -/
opaque freeBit : Nat → Bool

/-- Free 64-bit values, applied to the counter `freeCtr` of the state. -/
opaque freeWord : Nat → W

/-- How long a scheduler's read of a node descriptor from HBM takes (06_scheduler R116), applied to the counter. -/
opaque descRead : Nat → Nat

/-- The bytes of a core's image in a dump (07_faults R150), whose layout the manual does not give: applied to the counter
and the byte's offset in the image. -/
opaque imageByte : Nat → Nat → Byte

/-- Whether bytes are an ML-DSA-65 signature of a message under a public key of 1,952 bytes (04_spaces R83): the manual
names the algorithm and states no part of it. -/
opaque mlDsaVerify : BitVec 15616 → List Byte → List Byte → Bool

end Sys2Proof.Config
end

