-- ==== Sys2Proof/Machine/Spaces.lean ====
section
/-!
DEFINITION. Role spaces and translation (04_spaces R58 to R74), homes of addresses, and the access tables
(03_host R51 to R53).

Places are numbers: a module physical address below 2^44; byte o of core c's scratch 2^45 + c · 2^22 + o; offset o
of the window of core c 2^46 + c · 2^22 + o, with 2^21 added for its shadow bank; and an address va of
module m 2^80 · (1 + m) + va.
-/

namespace Sys2Proof.Machine

/-- The attributes of a range or page entry that accesses use (R69, R71). -/
structure Attr where
  role : Nat := 0
  fmt : Nat := 0
  geom : Nat := 0
  tier : Nat := 0
  repl : Bool := false
  home : Nat := 0
  accop : Nat := 0
  point : Nat := 0
  stable : Bool := false
  signed : Bool := false
  /-- the range entry's index; none for a page -/
  idx : Option Nat := none
  /-- offset at which the extent or the page begins -/
  base : Nat := 0
  deriving DecidableEq, Repr

/-- Where an access goes: a place, whether the space is the core's own scratch, and the attributes. -/
structure Loc where
  place : Nat
  own : Bool := false
  sys : Bool := false
  attr : Attr := {}
  deriving DecidableEq, Repr

/-- What a translation gives. -/
inductive Tr where
  | ok (l : Loc)
  | fault (code reason : Nat)
  /-- a recast of the range is in progress -/
  | held
  /-- the core's range cache and page TLB miss: the classroom's TLB, the range store or a walk is to be asked -/
  | walk (off : Nat)
  deriving DecidableEq, Repr

/-- The kinds of access of R63. -/
inductive AKind where
  | load | store | copyRead | copyWrite | acc (op : Nat) | fop | pref | hostRead | hostWrite
  deriving DecidableEq, Repr

def AKind.reads : AKind → Bool
  | .load | .copyRead | .hostRead => true
  | _ => false

/-- The right of R52 an access needs: 0 read, 1 write, 2 accumulate. -/
def AKind.right : AKind → Nat
  | .load | .copyRead | .hostRead => 0
  | .store | .copyWrite | .hostWrite => 1
  | .acc _ | .fop => 2
  | .pref => 0

/-- What each role admits (R63, R66). -/
def roleAdmits (k : AKind) (a : Attr) : Bool :=
  match k, a.role with
  | .pref, _ => true
  | .load, 0 | .load, 1 | .hostRead, 0 | .hostRead, 1 => true
  | .store, 0 => true
  | .copyRead, 0 | .copyRead, 1 | .copyRead, 2 => true
  | .copyWrite, 0 | .copyWrite, 2 | .hostWrite, 0 | .hostWrite, 2 => true
  | .acc _, 0 => true
  | .acc op, 3 => op == a.accop
  | .fop, 0 => true
  | _, _ => false

/-- The physical map (R74): an address outside it is in a gap. -/
def paMapped (pa : Nat) : Bool :=
  pa < 0x8000000000 || (0x20000000000 ≤ pa && pa < 0x38000000000) ||
  (0xF0000000000 ≤ pa && pa < 0x100000000000)
def paInHbm (pa : Nat) : Bool := pa < 0x8000000000
def paInHeath (pa : Nat) : Bool := 0x20000000000 ≤ pa && pa < 0x38000000000

/-- FMT and GEOM of an entry (11_formats R221). -/
def fmtGeomOk (f g : Nat) : Bool := f ≤ 26 && ((20 ≤ f && f ≤ 24) == (g != 0))

/-- The attributes of a valid range entry; none when the entry is malformed (R64, R69, R74, R86). -/
def rangeAttr (i : Nat) (r : Range) : Option Attr :=
  let a := r.attr.toNat
  let x : Attr := {
    role := fld a 62 60, fmt := fld a 59 55, geom := fld a 54 52, tier := fld a 51 50
    repl := bitOf a 49, home := fld a 48 47, accop := fld a 40 38, point := fld a 37 31
    stable := bitOf a 28, signed := bitOf a 46, idx := some i, base := r.base.toNat }
  let lo := r.pbase.toNat
  let hi := lo + (r.limit.toNat - r.base.toNat) - 1
  if x.role > 3 || x.geom > 5 || !fmtGeomOk x.fmt x.geom || x.tier > 2 || x.home > 2 || x.accop > 5 || fld a 13 0 != 0 ||
    fld r.base.toNat 63 57 != 0 || fld r.base.toNat 15 0 != 0 || fld r.limit.toNat 63 57 != 0 ||
    fld r.limit.toNat 15 0 != 0 || r.limit.toNat ≤ r.base.toNat ||
    (x.tier < 2 && fld lo 15 0 != 0) ||
    (x.repl && (x.tier != 0 || 0x4000000000 ≤ hi)) ||
    (x.tier == 0 && !(paInHbm lo && paInHbm hi)) ||
    (x.tier == 1 && !(paInHeath lo && paInHeath hi)) then none
  else some x

/-- The range entry that holds an offset (R70): its index and entry; more than one is an overlap. -/
def rangeAt (p : Part) (off : Nat) : List (Nat × Range) :=
  p.ranges.filter fun r =>
    bitOf r.2.attr.toNat 63 && r.2.base.toNat ≤ off && off < r.2.limit.toNat

/-- Bytes of a page by SIZE (R71). -/
def pageBytes (size : Nat) : Nat :=
  match size with
  | 0 => 0x1000 | 1 => 0x10000 | 2 => 0x200000 | 3 => 0x4000000 | 4 => 0x40000000 | _ => 0x200000000

/-- The attributes of a leaf; none when it is malformed at its level (R64, R72). -/
def leafAttr (level pte : Nat) : Option Attr :=
  let size := fld pte 61 59
  let x : Attr := {
    role := fld pte 58 56, fmt := fld pte 55 51, geom := fld pte 50 48, tier := fld pte 47 46
    repl := bitOf pte 45, home := fld pte 11 10, stable := bitOf pte 9 }
  let lo := fld pte 43 12 * 4096
  let hi := lo + pageBytes size - 1
  if size / 2 != level || size > 5 || x.role > 1 || x.geom > 5 || !fmtGeomOk x.fmt x.geom || x.tier > 2 || x.home > 2 ||
    fld pte 8 0 != 0 || (x.repl && (x.role != 1 || x.tier != 0 || 0x4000000000 ≤ hi)) ||
    (x.tier == 0 && !(paInHbm lo && paInHbm hi)) ||
    (x.tier == 1 && !(paInHeath lo && paInHeath hi))
  then none else some x

/-- The walk of the page table (R71, R72) from the table at `tab` of a level: the leaf and where its page
begins, or the reason of the fault. -/
def walkFrom (m : Memory) (off : Nat) : Nat → Nat → Except Nat (Nat × Nat × Nat)
  | level, tab =>
    let idx := if level = 3 then fld off 56 39 else fld off (12 + 9 * level + 8) (12 + 9 * level)
    let pte := m.num (tab + 8 * idx) 8
    if !bitOf pte 63 then .error 0
    else if bitOf pte 62 then
      match leafAttr level pte with
      | none => .error 1
      | some _ =>
        let size := fld pte 61 59
        let n := pageBytes size / 2 ^ (12 + 9 * level)
        let first := idx / n * n
        if (List.range n).all fun i => m.num (tab + 8 * (first + i)) 8 == pte then
          .ok (pte, off / pageBytes size * pageBytes size, pageBytes size)
        else .error 1
    else if fld pte 61 44 != 0 || fld pte 11 0 != 0 || !paMapped (fld pte 43 12 * 4096) then .error 1
    else match level with
      | 0 => .error 1
      | l + 1 => walkFrom m off l (fld pte 43 12 * 4096)

/-- The walk of a partition's table. -/
def State.pageWalk (s : State) (p : PartId) (off : Nat) : Except Nat (Nat × Nat × Nat) :=
  let root := (s.partAt p).ptroot.toNat
  if !bitOf root 63 then .error 0 else walkFrom s.ms.mem off 3 (fld root 43 21 * 2 ^ 21)

/-- The entry of a TLB for an offset. -/
def tlbFind (l : List TlbEnt) (p : PartId) (off : Nat) : Option TlbEnt :=
  l.find? fun e => e.part == p && e.base ≤ off && off < e.base + e.size

/-- The second-level TLB of a classroom. -/
def State.roomTlb (s : State) (room : Nat) : List TlbEnt :=
  (s.ms.ctlb.filter fun e => e.1 == room).map fun e => e.2

/-- Where a page entry puts an offset. -/
def pagePlace (pte off base : Nat) (va : Nat) (a : Attr) : Nat :=
  if a.tier = 2 then 2 ^ 80 * (1 + fld pte 24 12) + va else fld pte 43 12 * 4096 + (off - base)

/-- Role and replication, when the entry is known (R64, R73). -/
def finishTr (tag : Nat) (k : AKind) (d : Die) (place : Nat) (a : Attr) : Tr :=
  if k = .pref then .ok { place := place, attr := a }
  else if a.role ≠ tag then .fault 0x09 0
  else if !roleAdmits k a then .fault 0x09 0
  else
    let place := if a.repl && a.role == 1 && k.reads && d == .w && a.tier == 0
      then place + 0x4000000000 else place
    .ok { place := place, attr := a }

/-- The physical byte of a scratch offset: the live bank stands at 0x20_0000 (R60, 10_core R210). -/
def Core.scratchPhys (x : Core) (off : Nat) : Nat :=
  if off < 0x200000 ∨ !x.live1 then off
  else if off < 0x280000 then off + 0x80000 else off - 0x80000

def scratchPlace (c : CoreId) (phys : Nat) : Nat := 2 ^ 45 + c.val * 2 ^ 22 + phys
def windowPlace (c : CoreId) (shadow : Bool) (off : Nat) : Nat :=
  2 ^ 46 + c.val * 2 ^ 22 + b2n shadow * 2 ^ 21 + off

/-- How a translation finds its entries: through the core's range cache and TLBs, or by an engine's own lookup. -/
inductive PageBy where | tlb (c : CoreId) | walk
  deriving DecidableEq, Repr

/-- The range cache of the core that asks does not hold a range entry, and the range store is to be asked (R76). -/
def State.rangeMiss (s : State) (p : PartId) (i : Nat) (by_ : PageBy) : Bool :=
  match by_ with
  | .tlb c => !(s.coreAt c).rcache.contains (p, i)
  | .walk => false

/-- Translation of an offset of tags 0 to 3 (R73). -/
def State.trOffset (s : State) (p : PartId) (va : Nat) (k : AKind) (d : Die) (by_ : PageBy) : Tr :=
  let tag := fld va 63 61
  let off := fld va 56 0
  if fld va 60 57 ≠ 0 then .fault 0x08 2 else
  match rangeAt (s.partAt p) off with
  | _ :: _ :: _ => .fault 0x08 1
  | [(i, r)] =>
    match rangeAttr i r with
    | none => .fault 0x08 1
    | some a =>
      if bitOf r.attr.toNat 26 then .held
      else if s.rangeMiss p i by_ then .walk off
      else finishTr tag k d
        (if a.tier = 2 then 2 ^ 80 * (1 + fld r.pbase.toNat 12 0) + va
         else r.pbase.toNat + (off - r.base.toNat)) a
  | [] =>
    let use := fun (pte base : Nat) =>
      match leafAttr (fld pte 61 59 / 2) pte with
      | none => Tr.fault 0x08 1
      | some a => finishTr tag k d (pagePlace pte off base va a) { a with base := base }
    let ent := match by_ with
      | .tlb c => tlbFind (s.coreAt c).tlb p off
      | .walk => none
    match ent, by_ with
    | some e, _ => use e.pte.toNat e.base
    | none, .tlb _ => .walk off
    | none, .walk => match s.pageWalk p off with
      | .error r => .fault 0x08 r
      | .ok (pte, base, _) => use pte base

/-- Translate (R73) for core c, whose master acts for partition p. -/
def State.translate (s : State) (c : CoreId) (p : PartId) (va : W) (k : AKind) (by_ : PageBy) : Tr :=
  let a := va.toNat
  match fld a 63 61 with
  | 4 => .fault 0x09 0
  | 5 =>
    if fld a 60 22 ≠ 0 ∨ 0x300000 ≤ fld a 21 0 then .fault 0x08 2
    else .ok { place := scratchPlace c ((s.coreAt c).scratchPhys (fld a 21 0)), own := true }
  | 6 =>
    let seat := toCore (c.val / 16 * 16 + fld a 22 19)
    if fld a 60 23 ≠ 0 ∨ s.fw.absent.contains seat then .fault 0x08 2
    else .ok { place := windowPlace seat (!k.reads) (fld a 18 0) }
  | 7 =>
    if fld a 60 44 ≠ 0 ∨ !paMapped (fld a 43 0) then .fault 0x08 2
    else .ok { place := fld a 43 0, sys := true }
  | _ =>
    -- an issuer that was told its page has moved holds its later operations to the page (R85)
    if (s.coreAt c).moved.any fun m => m.part == p && m.off ≤ fld a 56 0 && fld a 56 0 < m.off + m.size then .held
    else s.trOffset p a k (dieOf c) by_

/-- Translation for a function of the host (03_host R38): tags 0 to 2 only. -/
def State.translateHost (s : State) (p : PartId) (va : W) (k : AKind) : Tr :=
  if 2 < fld va.toNat 63 61 then .fault 0x09 0 else s.trOffset p va.toNat k .e .walk

/-! ### Homes and access tables -/

/-- The die and the crossbar port at which a place is reached (R74, 20_prog_chase R375); a peer module
through the router of die d. -/
def homeOf (d : Die) (place : Nat) : Die × Fin 128 :=
  if 2 ^ 80 ≤ place then (d, ⟨100 + (Config.bridgePort place).val, by omega⟩)
  else if 2 ^ 46 ≤ place then
    let c := toCore (place / 2 ^ 22)
    (dieOf c, ⟨c.val % 128 / 2, by omega⟩)
  else if 2 ^ 45 ≤ place then
    let c := toCore (place / 2 ^ 22)
    (dieOf c, ⟨c.val % 128 / 2, by omega⟩)
  else if place < 0x8000000000 then
    (if place < 0x4000000000 then .e else .w,
      ⟨64 + (Config.hash32 (fld place 37 12)).val, by omega⟩)
  else if paInHeath place then
    (if place < 0x2C000000000 then .e else .w,
      ⟨96 + (Config.hash4 (fld place 39 12)).val, by omega⟩)
  else (.e, 113)

/-- The control block of an address of the region (04_spaces R75); an address between blocks counts to the module's. -/
def ctlBlockOf (pa : Nat) : CtlBlock :=
  let o := pa - 0xF0000000000
  if 0x10000 ≤ o ∧ o < 0x12000 then .die (if o < 0x11000 then .e else .w)
  else if 0x100000 ≤ o ∧ o < 0x108000 then .part (Fin.ofNat 8 ((o - 0x100000) / 0x1000))
  else if 0x1000000 ≤ o ∧ o < 0x1080000 then .ranges
  else if 0x10000000 ≤ o ∧ o < 0x10004000 then .groups
  else .module

def isControl : Target → Bool
  | .control _ => true
  | _ => false

/-- The holder of the access table that governs a place (R52). -/
def targetOf (place : Nat) : Target :=
  if 2 ^ 45 ≤ place then .scratch (toCore (place / 2 ^ 22))
  else if place < 0x8000000000 then
    .slice (if place < 0x4000000000 then .e else .w) (Config.hash32 (fld place 37 12))
  else if paInHeath place then
    .heath (if place < 0x2C000000000 then .e else .w) (Config.hash4 (fld place 39 12))
  else .control (ctlBlockOf place)

def State.accessEntry (s : State) (t : Target) (m : BitVec 10) : Nat :=
  ((s.ms.access.find? fun e => e.target == t && e.master == m).map (·.entry.toNat)).getD 0

/-- A target performs a request (R53): the entry is valid, acts for the partition, and holds the right;
tag 7 and control blocks also need SYS. -/
def State.accessOk (s : State) (t : Target) (m : BitVec 10) (p : PartId) (right : Nat) (sys : Bool) :
    Bool :=
  let e := s.accessEntry t m
  bitOf e 15 && (bitOf e 4 || fld e 14 12 == p.val) && bitOf e right &&
    (!(sys || isControl t) || bitOf e 3)

/-- The access check of an access at a place; the core's own scratch is behind no crossbar (R51), and a peer
module checks at its own endpoint. -/
def State.mayAccess (s : State) (m : BitVec 10) (p : PartId) (k : AKind) (l : Loc) : Bool :=
  l.own || 2 ^ 80 ≤ l.place || k == .pref || s.accessOk (targetOf l.place) m p k.right l.sys

/-! ### Walks (R76) -/

/-- The walk of an offset that a core has asked for. -/
def State.walkOf (s : State) (c : CoreId) (p : PartId) (off : Nat) : Option Walk :=
  s.ms.walks.find? fun w => w.core == c && w.part == p && w.off / 4096 == off / 4096

def State.addWalk (s : State) (c : CoreId) (p : PartId) (off : Nat) : State :=
  match s.walkOf c p off with
  | some _ => s
  | none => { s with ms := { s.ms with walks := s.ms.walks ++ [⟨c, p, off, s.cyc, none⟩] } }

def State.dropWalk (s : State) (c : CoreId) (p : PartId) (off : Nat) : State :=
  { s with ms := { s.ms with walks := s.ms.walks.filter fun w =>
      !(w.core == c && w.part == p && w.off / 4096 == off / 4096) } }

/-- An entry enters a TLB of n entries, the oldest leaving first (assumption 13). -/
def tlbPut (n : Nat) (l : List TlbEnt) (e : TlbEnt) : List TlbEnt := (e :: l.filter (· != e)).take n

/-- A core's TLBs take an entry (R76). -/
def State.tlbFill (s : State) (c : CoreId) (e : TlbEnt) : State :=
  let room := c.val / 16
  let mine := s.roomTlb room
  let s := s.onCore c fun x => { x with tlb := tlbPut 128 x.tlb e }
  { s with ms := { s.ms with ctlb :=
      (tlbPut 2048 mine e).map (fun e => (room, e)) ++ s.ms.ctlb.filter (·.1 != room) } }

/-- A range entry enters a core's range cache, the oldest leaving first (assumption 13). -/
def State.rangeFill (s : State) (c : CoreId) (p : PartId) (i : Nat) : State :=
  s.onCore c fun x => { x with rcache := ((p, i) :: x.rcache.filter (· != (p, i))).take 32 }

/-- A lookup that has lasted long enough ends without a walk: the range store answers with its entry 20 cycles after the
miss, the classroom's TLB 12 (R76). The core asks again and finds it. -/
def State.lookupEnd (s : State) (w : Walk) : State :=
  let gone := { s with ms := { s.ms with walks := s.ms.walks.erase w } }
  match rangeAt (s.partAt w.part) w.off, tlbFind (s.roomTlb (w.core.val / 16)) w.part w.off with
  | e :: _, _ => if w.since.toNat + 20 ≤ s.cyc.toNat then gone.rangeFill w.core w.part e.1 else s
  | [], some e => if w.since.toNat + 12 ≤ s.cyc.toNat then gone.tlbFill w.core e else s
  | [], none => s
def State.lookups (s : State) : State :=
  (s.ms.walks.filter fun w => w.bad.isNone).foldl State.lookupEnd s

/-- Every range cache drops its entry of an index (R77). -/
def State.dropRange (s : State) (p : PartId) (i : Nat) : State :=
  s.onCores (fun _ x => x.rcache.contains (p, i)) fun x => { x with rcache := x.rcache.filter (· != (p, i)) }

/-- Every cached translation of a partition that overlaps a range of offsets is dropped (R77). -/
def State.dropTlb (s : State) (p : PartId) (base size : Nat) : State :=
  let keep := fun (e : TlbEnt) => !(e.part == p && e.base < base + size && base < e.base + e.size)
  let s := s.onCores (fun _ x => !x.tlb.isEmpty) fun x => { x with tlb := x.tlb.filter keep }
  { s with ms := { s.ms with ctlb := s.ms.ctlb.filter fun e => keep e.2 } }

end Sys2Proof.Machine
end

