-- ==== Sys2Proof/Machine/VecFn.lean ====
section
/-!
DEFINITION. What the vector operations compute, on register values (21_vector R383 to R408): element
placement, masks, arithmetic, compares, moves, conversion, packing, reductions. Each result comes with
the flags its active elements raise (R386).
-/

namespace Sys2Proof.Machine

/-! ### Elements (11_formats R228) -/

/-- The bit at which element i of width w stands. -/
def elemPos (w i : Nat) : Nat := if w = 6 then i / 21 * 128 + 6 * (i % 21) else i * w

/-- How many elements of width w a register holds. -/
def elemCount (w : Nat) : Nat := if w = 6 then 672 else 4096 / w

/-- Element i of width w. -/
def getE (w i : Nat) (v : VReg) : Nat := v.toNat / 2 ^ elemPos w i % 2 ^ w

/-- The register with element i of width w equal to g i, for i below n; every other bit zero. -/
def packE (w n : Nat) (g : Nat → Nat) : VReg :=
  .ofNat _ ((List.range n).foldl (fun acc i => acc + g i % 2 ^ w * 2 ^ elemPos w i) 0)

/-- The format an operation works in: code 0 reads as INT32 (R383). -/
def normFmt (f : Nat) : Nat := if f = 0 then 25 else f

/-- The format override codes of a lend header (R221). -/
def ovrFmt (o : Nat) : Option Nat :=
  match o with
  | 0 => none
  | 10 => some 25
  | 11 => some 10
  | 12 => some 11
  | 13 => some 12
  | 14 => some 13
  | 15 => some 15
  | n => some n

/-- Bit i of a mask. -/
def mbit (k : KReg) (i : Nat) : Bool := k.getLsbD i

/-- How an operation rounds, narrows and masks. -/
structure VEnv where
  f : Nat
  rm : Nat
  sat : Bool
  mask : KReg
  z : Bool
  deriving DecidableEq, Repr

/-- The elements of the operation's format. -/
def VEnv.n (e : VEnv) : Nat := elemCount (fmtBits e.f)
def VEnv.w (e : VEnv) : Nat := fmtBits e.f

/-- R384: write elements below n under the mask, zeroing or merging the others. -/
def maskedW (e : VEnv) (w n : Nat) (old : VReg) (g : Nat → Nat × Flags) : VReg × Flags :=
  let r := (List.range n).map fun i =>
    if mbit e.mask i then g i else (if e.z then 0 else getE w i old, (0 : Flags))
  (.ofNat _ ((r.zip (List.range n)).foldl (fun acc x => acc + x.1.1 % 2 ^ w * 2 ^ elemPos w x.2) 0),
    r.foldl (fun a x => a ||| x.2) 0)

/-- R384 over every element of the format. -/
def masked (e : VEnv) (old : VReg) (g : Nat → Nat × Flags) : VReg × Flags := maskedW e e.w e.n old g

/-- The spare bits of a register of 6-bit elements (R228). -/
def spareMask : VReg :=
  .ofNat _ ((List.range 32).foldl (fun acc i => acc + 3 * 2 ^ (128 * i + 126)) 0)

/-! ### Element arithmetic (R389, R390) -/

/-- The element operations, which are also the stages of cascades. -/
inductive VOp where
  | fadd | fsub | fmul | fma | fms | fmin | fmax | fabs | fneg
  | add | sub | mul | mulh | mulhn | and | or | xor | andn | shl | shr | sra
  | min | max | minn | maxn | abs | addsat | subsat | pass
  deriving DecidableEq, Repr

/-- The format classes (R385). -/
inductive VClass where | f | i | r
  deriving DecidableEq, Repr

def vopClass : VOp → VClass
  | .fadd | .fsub | .fmul | .fma | .fms | .fmin | .fmax | .fabs | .fneg => .f
  | .add | .sub | .mul | .mulh | .min | .max | .abs | .addsat | .subsat => .i
  | _ => .r

/-- The format lies in the class. -/
def inClass (c : VClass) (f : Nat) : Bool :=
  match c with
  | .f => isFloatFmt f
  | .i => !isFloatFmt f
  | .r => true

/-- One element: the operands' raw bits and the old destination's. -/
def vopElem (op : VOp) (f rm : Nat) (sat : Bool) (a b d : Nat) : Nat × Flags :=
  let w := fmtBits f
  let A := decodeI f a
  let B := decodeI f b
  let int := fun (n : Int) => (intCode f (intNarrow f sat n), (0 : Flags))
  let raw := fun (n : Nat) => (n % 2 ^ w, (0 : Flags))
  match op with
  | .fadd => faddC f rm a b
  | .fsub => fsubC f rm a b
  | .fmul => fmulC f rm a b
  | .fma => fmaC f rm false a b d
  | .fms => fmaC f rm true a b d
  | .fmin => (fminmaxC f false a b, 0)
  | .fmax => (fminmaxC f true a b, 0)
  | .fabs => (fabsC f a, 0)
  | .fneg => (fnegC f a, 0)
  | .add => int (A + B)
  | .sub => int (A - B)
  | .mul => int (A * B)
  | .mulh => (intCode f ((A * B) / (2 ^ w : Nat)), 0)
  | .mulhn => raw (a * b / 2 ^ w)
  | .and => raw (a &&& b)
  | .or => raw (a ||| b)
  | .xor => raw (a ^^^ b)
  | .andn => raw (a &&& (2 ^ w - 1 - b % 2 ^ w))
  | .shl => if b ≥ w then (0, 0) else raw (a * 2 ^ b)
  | .shr => if b ≥ w then (0, 0) else raw (a / 2 ^ b)
  | .sra =>
    let S : Int := if a < 2 ^ (w - 1) then a else (a : Int) - (2 ^ w : Nat)
    (((S / (2 ^ (Nat.min b (w - 1)) : Nat)).emod (2 ^ w : Nat)).toNat, 0)
  | .min => (if B < A then b else a, 0)
  | .max => (if A < B then b else a, 0)
  | .minn => (if b < a then b else a, 0)
  | .maxn => (if a < b then b else a, 0)
  | .abs => int A.natAbs
  | .addsat => (intCode f (intNarrow f true (A + B)), 0)
  | .subsat => (intCode f (intNarrow f true (A - B)), 0)
  | .pass => (a, 0)

/-- An element operation over a register; d is the addend of fma and fms. -/
def vArith (op : VOp) (e : VEnv) (old a b d : VReg) : VReg × Flags :=
  masked e old fun i => vopElem op e.f e.rm e.sat (getE e.w i a) (getE e.w i b) (getE e.w i d)

/-- The operation of a stage code (12_encoding R261). -/
def stageOp (n : Nat) : VOp :=
  match n with
  | 0 => .pass | 1 => .fadd | 2 => .fsub | 3 => .fmul | 4 => .fmax | 5 => .fmin | 6 => .add
  | 7 => .sub | 8 => .mul | 9 => .max | 10 => .min | 11 => .and | 12 => .or | 13 => .xor
  | 14 => .fabs | _ => .shr

/-- A cascade (R392): three stages per active element. -/
def vCascade (opA opB opC : VOp) (e : VEnv) (old a b d c x : VReg) : VReg × Flags :=
  masked e old fun i =>
    let g := fun r => getE e.w i r
    let (xa, f1) := vopElem opA e.f e.rm e.sat (g a) (g b) (g d)
    let (xb, f2) := vopElem opB e.f e.rm e.sat xa (g c) 0
    let (r, f3) := vopElem opC e.f e.rm e.sat xb (g x) 0
    (r, f1 ||| f2 ||| f3)

/-! ### Compares (R391) -/

inductive VCmp where | feq | flt | fle | fun_ | ieq | ilt | iltn
  deriving DecidableEq, Repr

def vcmpClass : VCmp → VClass
  | .feq | .flt | .fle | .fun_ => .f
  | .ilt => .i
  | _ => .r

/-- One element's relation, and NV for a signalling compare with a NaN. -/
def vcmpElem (op : VCmp) (f a b : Nat) : Bool × Flags :=
  let x := decodeF f a
  let y := decodeF f b
  let nan := x == .nan || y == .nan
  match op with
  | .feq => (eqV x y, 0)
  | .flt => (ltV x y, if nan then fNV else 0)
  | .fle => (ltV x y || eqV x y, if nan then fNV else 0)
  | .fun_ => (nan, 0)
  | .ieq => (a == b, 0)
  | .ilt => (decide (decodeI f a < decodeI f b), 0)
  | .iltn => (decide (a < b), 0)

/-- The mask of a predicate over elements below n; the bits above are zero. -/
def kOf (n : Nat) (g : Nat → Bool) : KReg :=
  .ofNat _ ((List.range n).foldl (fun acc i => acc + b2n (g i) * 2 ^ i) 0)

def vCompare (op : VCmp) (f : Nat) (a b : VReg) : KReg × Flags :=
  let w := fmtBits f
  let n := elemCount w
  let r := (List.range n).map fun i => vcmpElem op f (getE w i a) (getE w i b)
  (.ofNat _ ((r.zip (List.range n)).foldl (fun acc x => acc + b2n x.1.1 * 2 ^ x.2) 0),
    r.foldl (fun acc x => acc ||| x.2) 0)

/-! ### Moving elements (R393) -/

/-- mov: the spare bits of 6-bit elements always come from the source (R383). -/
def vMovF (e : VEnv) (old a : VReg) : VReg × Flags :=
  let r := (masked e old fun i => (getE e.w i a, 0)).1
  (if e.w = 6 then r ||| (a &&& spareMask) else r, 0)

/-- lpick and lbcast: elements under the mask; spare bits are written zero (R383, R409). -/
def vCopyF (e : VEnv) (old a : VReg) : VReg := (masked e old fun i => (getE e.w i a, 0)).1

def vSelF (e : VEnv) (a b : VReg) : VReg × Flags :=
  (packE e.w e.n fun i => if mbit e.mask i then getE e.w i a else getE e.w i b, 0)

def vBcastF (e : VEnv) (old : VReg) (x : W) : VReg × Flags :=
  masked e old fun _ => (x.toNat % 2 ^ e.w, 0)

def vInsF (e : VEnv) (old : VReg) (x j : W) : VReg × Flags :=
  (packE e.w e.n fun i =>
    if i = j.toNat ∧ mbit e.mask i then x.toNat % 2 ^ e.w else getE e.w i old, 0)

def vExtF (e : VEnv) (a : VReg) (j : W) : VReg × Flags :=
  (packE e.w 1 fun _ => if j.toNat < e.n ∧ mbit e.mask j.toNat then getE e.w j.toNat a else 0, 0)

def vIotaF (e : VEnv) (old : VReg) : VReg × Flags :=
  masked e old fun i => convTo e.f e.rm e.sat (.i i)

def vPermF (e : VEnv) (old a b : VReg) : VReg × Flags :=
  masked e old fun i =>
    let j := getE e.w i b
    (if j < e.n then getE e.w j a else 0, 0)

def vRotF (e : VEnv) (old a : VReg) (x : W) : VReg × Flags :=
  masked e old fun i => (getE e.w ((i + x.toNat) % e.n) a, 0)

def vZipF (e : VEnv) (old a b : VReg) : VReg × Flags :=
  masked e old fun i => (if i % 2 = 0 then getE e.w (i / 2) a else getE e.w (i / 2) b, 0)

def vUnzipF (e : VEnv) (old a b : VReg) : VReg × Flags :=
  masked e old fun i =>
    (if i < e.n / 2 then getE e.w (2 * i) a else getE e.w (2 * i - e.n) b, 0)

/-! ### Conversion and packing (R394 to R397) -/

/-- One element converted from format g to f (R232 step 2). -/
def cvtElem (e : VEnv) (g code : Nat) : Nat × Flags := convTo e.f e.rm e.sat (decodeNum g code)

/-- cvt: elements past the source's count are zero whatever the mask. -/
def vCvtF (e : VEnv) (g : Nat) (old a : VReg) : VReg × Flags :=
  let wg := fmtBits g
  let r := (List.range e.n).map fun i =>
    if i ≥ elemCount wg then (0, (0 : Flags))
    else if mbit e.mask i then cvtElem e g (getE wg i a)
    else (if e.z then 0 else getE e.w i old, 0)
  (.ofNat _ ((r.zip (List.range e.n)).foldl (fun acc x => acc + x.1.1 % 2 ^ e.w * 2 ^ elemPos e.w x.2) 0),
    r.foldl (fun acc x => acc ||| x.2) 0)

/-- The pairs of widths R234 lists: narrow width, wide width, group size. -/
def widenPair (m narrow wide : Nat) : Bool :=
  if m = 2 then (narrow, wide) ∈ [(16, 32), (8, 16), (6, 8), (4, 8)]
  else (narrow, wide) ∈ [(8, 32), (6, 16), (4, 16)]

/-- widen: the contents of register r of the group (WidenPlace, R234). -/
def vWidenF (e : VEnv) (g m r : Nat) (old a : VReg) : VReg × Flags :=
  let wg := fmtBits g
  let n := (elemCount wg + m - 1) / m
  let k := (List.range (Nat.min n e.n)).map fun l =>
    let i := l * m + r
    if i ≥ elemCount wg then (0, (0 : Flags))
    else if mbit e.mask i then cvtElem e g (getE wg i a)
    else (if e.z then 0 else getE e.w l old, 0)
  (.ofNat _ ((k.zip (List.range k.length)).foldl (fun acc x => acc + x.1.1 % 2 ^ e.w * 2 ^ elemPos e.w x.2) 0),
    k.foldl (fun acc x => acc ||| x.2) 0)

/-- narrow: result element i from lane i div m of group register i mod m. -/
def vNarrowF (e : VEnv) (g m : Nat) (old : VReg) (src : Nat → VReg) : VReg × Flags :=
  masked e old fun i => cvtElem e g (getE (fmtBits g) (i / m) (src (i % m)))

def vPack6F (e : VEnv) (old a : VReg) : VReg × Flags :=
  maskedW e 6 512 old fun i => (getE 8 i a % 64, 0)

def vUnpack6F (e : VEnv) (old a : VReg) : VReg × Flags :=
  masked e old fun i =>
    let c := getE 6 i a
    (if e.f = 11 ∧ c ≥ 32 then c + 192 else c, 0)

/-- unpackq4 (R397): f is E4M3 (Q4X) or E5M2 (Q4Y). -/
def vUnpackq4F (e : VEnv) (old a : VReg) : VReg × Flags :=
  masked e old fun i =>
    let k := i / 4 * 4
    let c := fun j => getE 4 (k + j) a
    let r := (q4Group (if e.f = 5 then 18 else 19) (c 0) (c 1) (c 2) (c 3)).1
    let claimed := c 0 == 8 && 2 ≤ i % 4
    let bad := c (i % 4) == 8 && i % 4 != 0 && !claimed
    let (code, _) := roundF e.f 0 (r.getD (i % 4) (.fin false 0 0))
    (code, if bad then fFMT else 0)

/-- One element as a four-bit code of packq4, clamped to −7 to 7. -/
def q4Code (f rm code : Nat) : Nat × Flags :=
  let (n, fl) := toIntF 15 rm true (decodeF f code)
  if n < -7 then (intCode 15 (-7), fl ||| fIV) else (intCode 15 n, fl)

/-- A value is an integer in −7 to 7. -/
def smallInt (x : FVal) : Bool :=
  match x with
  | .fin _ m e =>
    let (n, fr) := splitAt m e 0 false
    fr == .zero && n ≤ 7
  | _ => false

/-- packq4 (R397). -/
def vPackq4F (e : VEnv) (a : VReg) : VReg × Flags :=
  let el := fun i => if mbit e.mask i then getE 8 i a else 0
  let r : List (Nat × Flags) := (List.range 128).flatMap fun k =>
    let x := fun j => el (4 * k + j)
    let v := fun j => decodeF e.f (x j)
    if (v 2).isZero && (v 3).isZero && !smallInt (v 0) then
      [(8, 0), q4Code e.f e.rm (x 1), (x 0 % 16, 0), (x 0 / 16, 0)]
    else [0, 1, 2, 3].map fun j => q4Code e.f e.rm (x j)
  (.ofNat _ ((r.zip (List.range 512)).foldl (fun acc y => acc + y.1.1 * 2 ^ (4 * y.2)) 0),
    r.foldl (fun acc y => acc ||| y.2) 0)

/-! ### Reductions and scans (R399, R400) -/

inductive VRed where | add | max | min | fadd | fmax | fmin
  deriving DecidableEq, Repr

def vredClass : VRed → VClass
  | .add | .max | .min => .i
  | _ => .f

/-- The result with no active element (R399). -/
def redIdent (op : VRed) (f rm : Nat) : Nat :=
  match op with
  | .add => 0
  | .max => intCode f (intMin f)
  | .min => intCode f (intMax f)
  | .fadd => signCode f true
  | .fmax => (roundF f rm (.inf true)).1
  | .fmin => (roundF f rm (.inf false)).1

/-- One step of a combination. -/
def redStep (op : VRed) (f rm : Nat) (sat : Bool) (x y : Nat) : Nat × Flags :=
  match op with
  | .add => vopElem .add f rm sat x y 0
  | .max => vopElem .max f rm sat x y 0
  | .min => vopElem .min f rm sat x y 0
  | .fadd => faddC f rm x y
  | .fmax => (fminmaxC f true x y, 0)
  | .fmin => (fminmaxC f false x y, 0)

/-- One level of the pairwise tree; an odd last node passes up. -/
def treeLevel (f rm : Nat) : List Nat → List Nat × Flags
  | x :: y :: t =>
    let (c, fl) := faddC f rm x y
    let (r, g) := treeLevel f rm t
    (c :: r, fl ||| g)
  | l => (l, 0)

/-- The tree of rfadd, at most ten levels. -/
def treeSum (f rm : Nat) : Nat → List Nat → Nat × Flags
  | 0, l => (l.headD 0, 0)
  | n + 1, l =>
    match l with
    | [] => (0, 0)
    | [x] => (x, 0)
    | l =>
      let (r, fl) := treeLevel f rm l
      let (x, g) := treeSum f rm n r
      (x, fl ||| g)

/-- A reduction: element 0 of the result; the others are zero. -/
def vReduce (op : VRed) (e : VEnv) (a : VReg) : VReg × Flags :=
  let el := fun i => getE e.w i a
  let act := (List.range e.n).filter fun i => mbit e.mask i
  let (c, fl) : Nat × Flags := match op with
    | .add => (intCode e.f (intNarrow e.f e.sat (act.foldl (fun s i => s + decodeI e.f (el i)) 0)), 0)
    | .fadd =>
      let leaves := (List.range e.n).map fun i => if mbit e.mask i then el i else signCode e.f true
      treeSum e.f e.rm 11 leaves
    | op => (act.foldl (fun s i => (redStep op e.f e.rm e.sat s (el i)).1) (redIdent op e.f e.rm), 0)
  (packE e.w 1 fun _ => c, fl)

/-- The prefix results of a scan in ascending order. -/
def scanGo (fl : Bool) (e : VEnv) (old a : VReg) : List Nat → Nat → List (Nat × Flags)
  | [], _ => []
  | i :: t, acc =>
    if mbit e.mask i then
      let (c, g) := if fl then faddC e.f e.rm acc (getE e.w i a)
        else vopElem .add e.f e.rm e.sat acc (getE e.w i a) 0
      (c, g) :: scanGo fl e old a t c
    else (if e.z then 0 else getE e.w i old, 0) :: scanGo fl e old a t acc

def vScan (fl : Bool) (e : VEnv) (old a : VReg) : VReg × Flags :=
  let r := scanGo fl e old a (List.range e.n) (if fl then signCode e.f true else 0)
  (.ofNat _ ((r.zip (List.range e.n)).foldl (fun acc x => acc + x.1.1 * 2 ^ elemPos e.w x.2) 0),
    r.foldl (fun acc x => acc ||| x.2) 0)

/-- A special function over a register (R401). -/
def vSfuF (op : Sfu) (e : VEnv) (old a : VReg) : VReg × Flags :=
  masked e old fun i => sfuC op e.f e.rm (getE e.w i a)

/-! ### Masks (R407) -/

/-- The set bits of a mask below n. -/
def kPop (n : Nat) (k : KReg) : Nat := ((List.range n).filter fun i => mbit k i).length
/-- The lowest set index below n, or n. -/
def kFirst (n : Nat) (k : KReg) : Nat := ((List.range n).find? fun i => mbit k i).getD n

/-- kpopc and kfirst write element 0 and zero the others. -/
def kElem0 (f : Nat) (sat : Bool) (n : Nat) : VReg :=
  packE (fmtBits f) 1 fun _ => intCode f (intNarrow f sat n)

/-- kset: an element has a value other than zero; −0 counts as zero, NaN does not. -/
def vKsetF (f : Nat) (a : VReg) : KReg :=
  let w := fmtBits f
  kOf (elemCount w) fun i =>
    let c := getE w i a
    if isFloatFmt f then c % 2 ^ (w - 1) != 0 else c != 0

/-! ### Accumulator rows (R405) -/

/-- A row of 128 words is as wide as a vector register. -/
def accAdd (e : VEnv) (row v : VReg) : VReg × Flags :=
  let r := (List.range 128).map fun c =>
    if isFloatFmt e.f then faddC 1 e.rm (getE 32 c row) (getE 32 c v)
    else vopElem .add 25 e.rm e.sat (getE 32 c row) (getE 32 c v) 0
  (.ofNat _ ((r.zip (List.range 128)).foldl (fun acc x => acc + x.1.1 * 2 ^ (32 * x.2)) 0),
    r.foldl (fun acc x => acc ||| x.2) 0)

/-! ### Lift combinations (R408) -/

/-- lred of one result member: the members' values in ascending coordinate, combined element by element;
elements with the mask clear are zeroed or kept (R384). -/
def vLredF (op : VRed) (e : VEnv) (old : VReg) (ms : List VReg) : VReg × Flags :=
  masked e old fun i =>
    match ms with
    | [] => (redIdent op e.f e.rm, 0)
    | m :: t =>
      t.foldl (fun (c, fl) v =>
        let (d, g) := redStep op e.f e.rm e.sat c (getE e.w i v)
        (d, fl ||| g)) (getE e.w i m, 0)

end Sys2Proof.Machine
end

