-- ==== Sys2Proof/Machine/Packets.lean ====
section
/-!
DEFINITION. Accesses of a core to memory: places and what they hold, crossbar packets, loads and stores from
issue to their data, release records (04_spaces R61, 08_ordering R156 to R162, 20_prog_chase R375 to R377,
21_vector R403, R404).
-/

namespace Sys2Proof.Machine

/-! ### What a place holds -/

/-- A window place names a bank by its role: the byte of scratch it is now (R61, 10_core R210). -/
def State.resolve (s : State) (place : Nat) : Nat :=
  if 2 ^ 46 ≤ place ∧ place < 2 ^ 80 then
    let c := toCore (place / 2 ^ 22)
    let second := (s.coreAt c).live1 != bitOf place 21
    scratchPlace c (0x200000 + b2n second * 0x80000 + place % 2 ^ 19)
  else place

/-- The memory of a resolved place. -/
def State.memOf (s : State) (place : Nat) : Memory :=
  if 2 ^ 80 ≤ place then Memory.empty
  else if 2 ^ 45 ≤ place then (s.coreAt (toCore (place / 2 ^ 22))).scratch
  else s.ms.mem
/-- The address of a resolved place in its memory. -/
def addrOf (place : Nat) : Nat := if 2 ^ 45 ≤ place then place % 2 ^ 22 else place

def State.onMemOf (s : State) (place : Nat) (f : Memory → Memory) : State :=
  if 2 ^ 80 ≤ place then s
  else if 2 ^ 45 ≤ place then
    s.onCore (toCore (place / 2 ^ 22)) fun x => { x with scratch := f x.scratch }
  else { s with ms := { s.ms with mem := f s.ms.mem } }

def State.readByte (s : State) (place : Nat) : Byte :=
  let p := s.resolve place
  (s.memOf p).read (addrOf p)

/-- The first poisoned word a read of places meets, as the address of the word. -/
def State.poisonRead (s : State) (l : List Nat) : Option Nat :=
  (l.find? fun a => let p := s.resolve a; (s.memOf p).isPoisoned (addrOf p)).map fun a =>
    addrOf (s.resolve a) / 8 * 8

/-- Those of a list of places that lie in poisoned words. -/
def State.poisoned (s : State) (l : List Nat) : List Nat := l.filter fun a => (s.poisonRead [a]).isSome

/-- The bytes of one target, with their addresses in its memory. -/
def State.inMem (s : State) (l : List (Nat × Byte × Byte)) : List (Nat × Byte × Byte) :=
  l.map fun x => (addrOf (s.resolve x.1), x.2)

/-- The first poisoned word that a write to one target meets and does not cover (07_faults R141). -/
def State.poisonWrite (s : State) (l : List (Nat × Byte × Byte)) : Option Nat :=
  match l with
  | [] => none
  | x :: _ => (s.memOf (s.resolve x.1)).partialPoison (s.inMem l)

/-- Writes of scratch are remembered by 64 KiB block (07_faults R147). -/
def State.noteAt (s : State) (place : Nat) (l : List (Nat × Byte × Byte)) : State :=
  if 2 ^ 45 ≤ place ∧ place < 2 ^ 80 then
    s.onCore (toCore (place / 2 ^ 22)) (·.noteWrite ((s.inMem l).map (·.1 / 0x10000)).eraseDups)
  else s

/-! ### Release records (08_ordering R160, R162) -/

/-- The release sequences that a write to some bytes does not end: those of other bytes and, when it is a store of a core,
that core's own. -/
def keepRels (old : List (Nat × Party × BitVec 3)) (l : List Nat) (by_ : Option Party) : List (Nat × Party × BitVec 3) :=
  old.filter fun r => !(l.contains r.1) || some r.2.1 == by_

def State.setRels (s : State) (l : List (Nat × Party × BitVec 3)) : State := { s with ms := { s.ms with rels := l } }

/-- A release adds a record at each of its bytes. -/
def State.addRels (s : State) (l : List Nat) (rel : Option (Party × BitVec 3)) : State :=
  match rel with
  | none => s
  | some (p, sc) => s.setRels (s.ms.rels ++ (l.map s.resolve).map fun a => (a, p, sc)).eraseDups

def State.relsAt (s : State) (l : List Nat) : List (Party × BitVec 3) :=
  let at_ := l.map s.resolve
  ((s.ms.rels.filter fun r => at_.contains r.1).map fun r => (r.2.1, r.2.2)).eraseDups

/-- Bytes are written at their places, all in one target, by a store of `by_` or by none; the release sequences at them end
(R160). -/
def State.writeBy (s : State) (by_ : Option Party) (l : List (Nat × Byte × Byte)) : State :=
  match l with
  | [] => s
  | x :: _ =>
    let rels := keepRels s.ms.rels (l.map fun b => s.resolve b.1) by_
    ((s.noteAt (s.resolve x.1) l).onMemOf (s.resolve x.1) fun m => m.store (s.inMem l)).setRels rels

/-- A write that is no store of a core. -/
def State.writePlaces (s : State) (l : List (Nat × Byte × Byte)) : State := s.writeBy none l

/-! ### Packets (20_prog_chase R375, R376) -/

def deskPort (c : CoreId) : Fin 128 := ⟨c.val % 128 / 2, by omega⟩

/-- The master number of a unit of a core (03_host R51): 1 and 2 are the copy engines. -/
def masterOf (c : CoreId) (unit : Nat) : BitVec 10 :=
  .ofNat 10 ((if unit = 1 then 0x100 else if unit = 2 then 0x200 else 0) + c.val)

/-- The output of die d that leads to a port of die hd. -/
def outTo (d hd : Die) (port : Fin 128) (place : Nat) : Fin 128 :=
  if d = hd then port else ⟨108 + (Config.bridgePort place).val, by omega⟩

/-- A packet enters the queue of an input. -/
def State.enqueue (s : State) (k : Pkt) : State :=
  s.onXbar k.die fun b => { b with wait := b.wait ++ [k] }

/-- When a request that a unit of core c sends now enters its desk port's queue: a scalar or vector request 2 cycles
after issue; a copy command's first request 4 cycles after its start, the others each a cycle after the one before,
once the queue has room (R377). -/
def State.entryAt (s : State) (c : CoreId) (unit : Nat) : W :=
  let copy := fun (x : Ctx) => match ((s.coreAt c).copy.get x).run with
    | some r => if r.sent.toNat < s.cyc.toNat then s.cyc + 1 else r.sent + 1
    | none => s.cyc
  match unit with
  | 0 => s.cyc + 2
  | 1 => copy 0
  | 2 => copy 1
  | _ => s.cyc
def Core.noteSent (x : Core) (unit : Nat) (t : W) : Core :=
  if unit = 1 ∨ unit = 2 then
    let i : Ctx := if unit = 1 then 0 else 1
    { x with copy := x.copy.set i.val (let k := x.copy.get i
        { k with run := k.run.map fun r => { r with sent := t } }) i.isLt }
  else x

/-- A request of a unit of core c for a place leaves by its desk port; the packet's number. -/
def State.post (s : State) (c : CoreId) (unit req : Nat) (vc : Fin 4) (p : PartId) (place : Nat)
    (b : PBody) : State × Nat :=
  let d := dieOf c
  let (hd, port) := homeOf d place
  let k : Pkt := {
    id := s.nextId, core := c, unit := unit, req := req, master := masterOf c unit, part := p, vc := vc
    die := d, inp := deskPort c, out := outTo d hd port place, age := 0, born := s.cyc
    at_ := s.entryAt c unit, body := b }
  (({ s with nextId := s.nextId + 1 }.enqueue k).onCore c (·.noteSent unit k.at_), k.id)

/-- Places by the 256-byte beat that holds them (R377), in order of first mention. -/
def beats (l : List Nat) : List (List Nat) :=
  ((l.map (· / 256)).eraseDups).map fun b => (l.filter fun a => a / 256 == b).eraseDups

def beatsW (l : List (Nat × Byte × Byte)) : List (List (Nat × Byte × Byte)) :=
  ((l.map (·.1 / 256)).eraseDups).map fun b => l.filter fun x => x.1 / 256 == b

/-- The packets of an engine's request: one per beat on this module; a request to a peer module is one packet, in each 4 KiB
of the target (02_fabric R32). -/
def reqBeats (l : List Nat) : List (List Nat) :=
  if l.all (2 ^ 80 ≤ ·) then ((l.map (· / 4096)).eraseDups).map fun b => (l.filter fun a => a / 4096 == b).eraseDups else beats l
def reqBeatsW (l : List (Nat × Byte × Byte)) : List (List (Nat × Byte × Byte)) :=
  if l.all fun b => 2 ^ 80 ≤ b.1 then ((l.map (·.1 / 4096)).eraseDups).map fun b => l.filter fun x => x.1 / 4096 == b
  else beatsW l

/-! ### Loads -/

/-- Own stores on their way, oldest first: those of the store buffer and, under redundancy, those not yet
agreed (08_ordering R158, 09_redundancy R183). -/
def Core.ownStores (x : Core) : List (Nat × Byte × Byte) :=
  x.stores.flatMap (·.bytes) ++ x.redun.sbuf.map fun b => (b.1, b.2.1, b.2.2.1)

/-- The bits that the stores of the redundant buffer give a byte, the later over the earlier: value and mask. -/
def Core.overlay (x : Core) (place : Nat) : Byte × Byte :=
  x.redun.sbuf.foldl (fun a b => if b.1 == place then ((a.1 &&& ~~~b.2.2.1) ||| (b.2.1 &&& b.2.2.1), a.2 ||| b.2.2.1) else a)
    (0, 0)

/-- Bits over a byte. -/
def lay (o : Byte × Byte) (b : Byte) : Byte := (b &&& ~~~o.2) ||| (o.1 &&& o.2)

/-- The value own stores give a byte: the redundant buffer's, else that of the latest store on its way, when each gives all
its bits. -/
def Core.forwardOf (x : Core) (place : Nat) : Option Byte :=
  let o := x.overlay place
  if o.2 = 0xFF then some o.1
  else match (x.stores.flatMap (·.bytes)).reverse.find? fun b => b.1 == place with
    | some b => if b.2.2 = 0xFF then some (lay o b.2.1) else none
    | none => none

/-- A load of these bytes waits for own stores on their way: of one of the units of 8 bytes it reads, they give some bytes or
bits and not all (08_ordering R156). -/
def Core.partialOn (x : Core) (l : List Nat) : Bool :=
  let sent := x.stores.flatMap fun r => r.bytes.map (·.1)
  let units := ((l.filter sent.contains).map (· / 8)).eraseDups
  l.any fun a => units.contains (a / 8) && (x.forwardOf a).isNone

/-- The element value of a memory code in the register's format (11_formats R229, R231, R232). -/
def loadElem (m f rm : Nat) (sat : Bool) (data : Nat) (x : Nat × Nat × Option Nat) : Nat × Flags :=
  let (i, pos, sc) := x
  if m = 18 ∨ m = 19 then
    let c := fun j => data / 2 ^ (pos + 4 * j) % 16
    let (vs, _) := q4Group m (c 0) (c 1) (c 2) (c 3)
    let claimed := c 0 == 8 && 2 ≤ i % 4
    let bad := i % 4 != 0 && c (i % 4) == 8 && !claimed
    let (r, fl) := convTo f rm sat (.f (vs.getD (i % 4) (.fin false 0 0)))
    (r, if bad then fl ||| fFMT else fl)
  else if isBlockFmt m then
    let code := data / 2 ^ pos % 2 ^ fmtBits m
    let scale := data / 2 ^ (8 * sc.getD 0) % 256
    convTo f rm sat (.f (blockValue m code scale))
  else convTo f rm sat (decodeNum m (data / 2 ^ pos % 2 ^ fmtBits m))

/-- The register a load gives from its data and the old register, with flags (R383, R403): the spare bits of 6-bit words come
from untyped memory alone, and are zero and flagged when typed memory has them set (11_formats R228). -/
def loadValue (k : LoadKind) (old : VReg) (data : Nat) : VReg × Flags :=
  match k with
  | .scalar n sx =>
    let v := data % 2 ^ (8 * n)
    let v := if sx ∧ 2 ^ (8 * n - 1) ≤ v then v + 2 ^ 64 - 2 ^ (8 * n) else v
    (.ofNat 4096 v, 0)
  | .vector m f raw rm sat z elems spare typed =>
    let w := fmtBits f
    let r := elems.map fun x =>
      if raw then (x.1, data / 2 ^ x.2.1 % 2 ^ w, (0 : Flags))
      else let (c, fl) := loadElem m f rm sat data x; (x.1, c, fl)
    let keep := if z then [] else
      (List.range (elemCount w)).filter fun i => !(elems.any (·.1 == i))
    let v := (r.map fun x => x.2.1 % 2 ^ w * 2 ^ elemPos w x.1).sum +
      (keep.map fun i => getE w i old * 2 ^ elemPos w i).sum
    let sp := spare.map fun x => (x.1, data / 2 ^ (8 * x.2.1) % 256 &&& x.2.2.toNat)
    let v := if raw ∧ w = 6 ∧ !typed then v + (sp.map fun x => x.2 / 64 * 2 ^ (128 * x.1 + 126)).sum else v
    let fl := r.foldl (fun a x => a ||| x.2.2) 0
    (.ofNat 4096 v, if (!raw || typed) && sp.any (·.2 != 0) then fl ||| fFMT else fl)

/-- A load's data is there: the register is written, and followers receive the value (R178). -/
def State.finishLoad (s : State) (r : LoadReq) : State :=
  let data := leNat (r.bytes.map fun b => b.2.getD 0)
  match r.dst with
  | none => s
  | some (f, n) =>
    let old := match f with | .s => 0 | .v => s.regs.getV n
    let (v, fl) := loadValue r.kind old data
    let s := s.mapCore fun x => { x.onRegs (·.fill f n v) with
      csr := { x.csr with fpflags := x.csr.fpflags ||| fl } }
    match r.fwd with
    | none => s
    | some k => s.forward k v fl

/-- Party b stands on die d. -/
def Party.onDie (d : Die) : Party → Bool
  | .core c => dieOf c == d
  | .sched k | .migr k => k == d
  | _ => false
/-- Party b is of this module and no host function. -/
def Party.inDevice : Party → Bool
  | .host _ | .peer _ _ | .far _ => false
  | _ => true

/-- Party b lies in the scope-sc instance of party a (08_ordering R153). DEDUCED (assumption 91): the table is a core's; a
scheduler, a migration engine and the security block have the instances of a core where they stand. -/
def inScope (a b : Party) (sc : BitVec 3) : Bool :=
  match a, sc.toNat with
  | .host _, n | .peer _ _, n | .far _, n => decide (4 ≤ n)
  | _, 0 => a == b
  | .core c, 1 => match b with | .core o => c.val / 16 == o.val / 16 | _ => false
  | _, 1 => a == b
  | .core c, 2 => b.onDie (dieOf c)
  | .sched d, 2 | .migr d, 2 => b.onDie d
  | .security, 2 => a == b
  | _, 3 => b.inDevice
  | _, _ => true

/-- A release of party a at scope sa and an acquire of party b at scope sb pair (R154). -/
def pairs (a b : Party) (sa sb : BitVec 3) : Bool :=
  match a with
  | .far n => decide (n ≤ sb.toNat)
  | _ => inScope a b sa && inScope b a sb

/-- The narrowest scope at which an acquire of party b pairs with a release, 5 when none does. -/
def needScope (b : Party) (r : Party × BitVec 3) : Nat :=
  ((List.range 5).find? fun n => pairs r.1 b r.2 (.ofNat 3 n)).getD 5

/-- An acquire at a scope that reads a release it does not pair with sets SCOPEMISS (R162). -/
def State.scopeMiss (s : State) (rels : List (Party × BitVec 3)) (sc : BitVec 3) : State :=
  if rels.any fun r => !pairs r.1 (.core s.cur) r.2 sc then
    s.mapCsr fun c => { c with scopemiss := true }
  else s

/-- A load issues: bytes of the core's own scratch and of its own stores have their value at once, the others
are asked for by packets; with none to ask for, the register is written. -/
def State.issueLoad (s : State) (dst : RFile × BitVec 6) (t : BitVec 3) (places : List (Nat × Bool))
    (kind : LoadKind) (acq : Option (BitVec 3)) (fwd : Bool) : State :=
  let x := s.core
  let bytes := places.map fun (a, own) =>
    (a, if own then some (s.readByte a) else x.forwardOf a)
  let ask := (bytes.filter (·.2.isNone)).map (·.1)
  let id := s.nextId
  let r : LoadReq := {
    id := id, dst := some dst, tag := t, bytes := bytes, kind := kind, acq := acq.isSome
    scope := acq.getD 0, left := [], fwd := if fwd then some s.fwdNum else none, fences := [], rels := []
    laid := ask.filterMap fun a => let o := x.overlay a; if o.2 = 0 then none else some (a, o) }
  let s := if fwd then s.bumpFwd else s
  let s := { s with nextId := id + 1 }.mapRegs fun g => g.mark dst.1 dst.2 .await t
  if ask.isEmpty then s.finishLoad r
  else
    let part : PartId := x.csr.part.toFin
    let (s, left) := (beats ask).foldl (init := (s, [])) fun (s, l) b =>
      let (s, k) := s.post s.cur 0 id 0 part (b.headD 0) (.read b)
      (s, l ++ [k])
    s.mapCore fun x => { x with loads := x.loads ++ [{ r with left := left }] }

/-- The data of a packet reaches core c: the load's bytes take their values; release records are remembered,
and an acquire or an acquire fence that does not pair with one sets SCOPEMISS. Poison stops the node
(07_faults R141). -/
def State.loadArrive (s : State) (c : CoreId) (req pkt : Nat) (data : List (Nat × Byte))
    (poison : List Nat) (rels : List (Party × BitVec 3)) : State :=
  let upd := fun (r : LoadReq) =>
    if r.id = req then { r with
      bytes := r.bytes.map fun b => match b.2 with
        | some v => (b.1, some v)
        | none => (b.1, (data.find? (·.1 == b.1)).map fun d => match r.laid.find? (·.1 == b.1) with
          | some o => lay o.2 d.2
          | none => d.2)
      left := r.left.filter (· != pkt), rels := r.rels ++ rels }
    else r
  let me := s.cur
  let s := { s with cur := c }
  let s := match (s.core.loads.find? (·.id == req)) with
    | none => s
    | some r =>
      let s := if r.acq then s.scopeMiss rels r.scope else s
      let s := r.fences.foldl (fun (s : State) sc => s.scopeMiss rels sc) s
      s.mapCore fun x => { x with
        loads := x.loads.map upd, readRels := (x.readRels ++ rels).eraseDups }
  let s := match poison with
    | [] => s
    | a :: _ => s.mapCore fun x => x.report
      { code := 0x0B, info := .ofNat 64 (addrOf (s.resolve a) / 8 * 8), async := true, engine := 7 }
  { s with cur := me }

/-- A load with every value. -/
def LoadReq.fixed (r : LoadReq) : Bool := r.bytes.all (·.2.isSome)

/-! ### Stores -/

/-- The accesses of a core that are not performed: loads without their value, stores not acknowledged. -/
def Core.openIds (x : Core) : List Nat :=
  (x.loads.filter fun r => !r.fixed).map (·.id) ++ x.stores.map (·.id)

/-- A store is sent: one packet per beat. -/
def State.sendStore (s : State) (r : StoreReq) : State :=
  let rel := if r.rel then some (.core s.cur, r.scope) else none
  let part : PartId := s.csr.part.toFin
  let (s, left) := (beatsW r.bytes).foldl (init := (s, [])) fun (s, l) b =>
    let (s, k) := s.post s.cur 0 r.id 0 part (b.headD (0, 0, 0)).1 (.write b rel)
    (s, l ++ [k])
  s.mapCore fun x => { x with stores := x.stores.map fun q =>
    if q.id == r.id then { q with sent := true, left := left } else q }

/-- Stores whose earlier accesses have been performed are sent, oldest first. -/
def State.pumpStores (s : State) : State :=
  let go := fun (s : State) (r : StoreReq) =>
    if r.sent ∨ s.cyc.toNat < r.from_.toNat ∨ r.after.any s.core.openIds.contains then s else s.sendStore r
  s.core.stores.foldl go s

/-- The earlier accesses that fences of kind rel and acqrel keep before the next store (08_ordering R161). -/
def Core.behindFence (x : Core) : List Nat :=
  let open_ := x.openIds
  (x.fence.flatMap fun f => match f.kind with
    | .rel | .acqrel => f.all
    | _ => []).filter open_.contains

/-- Open loads that read bytes of the units of 8 bytes that a store writes: they come first (R156, R172). -/
def Core.readsOf (x : Core) (bytes : List (Nat × Byte × Byte)) : List Nat :=
  let units := (bytes.map (·.1 / 8)).eraseDups
  (x.loads.filter fun r => !r.fixed && r.bytes.any fun b => b.2.isNone && units.contains (b.1 / 8)).map (·.id)

/-- A store issues (08_ordering R160): the core's own scratch is written at once; any other store waits in the
store buffer until what it must follow has been performed. A store that follows a release fence is a release
at the fence's scope (R159); one under a tag that carries no release (R169) is plain. -/
def State.issueStore (s : State) (bytes : List (Nat × Byte × Byte)) (own : Bool)
    (rel : Option (BitVec 3)) (plain : Bool := false) (from_ : W := 0) : State :=
  let x := s.core
  let sc := if plain then none else match rel, x.relFence with
    | some a, some b => if a.toNat < b.toNat then some b else some a
    | some a, none => some a
    | none, b => b
  if own then (s.writeBy (some (.core s.cur)) bytes).addRels (bytes.map (·.1)) (sc.map fun c => (.core s.cur, c))
  else
    let after := if rel.isSome then x.openIds
      else x.behindFence ++ x.readsOf bytes ++ (x.stores.filter fun r => !r.sent && r.bytes.any fun b => bytes.any (·.1 == b.1)).map (·.id)
    let r : StoreReq := {
      id := s.nextId, bytes := bytes, rel := sc.isSome, scope := sc.getD 0, sent := false
      after := after, from_ := from_, left := [] }
    ({ s with nextId := s.nextId + 1 }.mapCore fun x => { x with stores := x.stores ++ [r] }).pumpStores

/-- A packet of a store is acknowledged. -/
def State.storeAck (s : State) (c : CoreId) (req pkt : Nat) : State :=
  s.onCore c fun x => { x with stores := x.stores.map fun r =>
    if r.id == req then { r with left := r.left.filter (· != pkt) } else r }

/-- An acquire holds every later access until its value is fixed, and fences hold the accesses of R161; one of kind rel
or acqrel lets a store issue, which it keeps in the store buffer (14_scalar R297, R298; 18_prog_litmus R368). -/
def Core.memReady (x : Core) : Bool :=
  let open_ := x.openIds
  !(x.loads.any fun r => r.acq && !r.fixed) &&
  x.fence.all fun f =>
    match f.kind with
    | .acq | .acqrel => !(f.loads.any open_.contains)
    | .rel => true
    | .sc => !(f.all.any open_.contains)

/-! ### Admission of scalar and vector accesses -/

/-- What the checks of an access give: where it goes, a trap, or a wait. -/
inductive Admit where
  | go (l : Loc)
  | trap (t : Trap)
  | hold
  | walk (off : Nat)
  deriving DecidableEq, Repr

/-- Translation, role and access checks of a scalar or vector access to an address (R73, R53, R133). -/
def State.passes (s : State) (va : W) (k : AKind) : Admit :=
  let part : PartId := s.csr.part.toFin
  let tag := fld va.toNat 63 61
  -- an access that each replica performs itself (09_redundancy R178, R180)
  let mine := tag == 5 || tag == 6 || (k == .load && tag == 1)
  let t := fun (code reason : Nat) => ({ code := code, reason := reason, info := va
                                         probe := code == 9 && k == .load && s.csr.rvt, self := mine } : Trap)
  match s.translate s.cur part va k (.tlb s.cur) with
  | .fault c r => .trap (t c r)
  | .held => .hold
  | .walk off =>
    match s.walkOf s.cur part off with
    | some ⟨_, _, _, _, some r⟩ => .trap (t 8 r)
    | _ => .walk off
  | .ok l => if s.mayAccess (masterOf s.cur 0) part k l then .go l
    else .trap { t 0x0A 0 with self := mine || (k == .load && l.attr.stable) }

/-- The state after an admission that does not let the access go: the walk is asked for, the trap raised with
its walk's outcome taken, or the group held. -/
def notAdmitted (a : Admit) (s : State) : Out :=
  let part : PartId := s.csr.part.toFin
  match a with
  | .go _ => .next s
  | .trap t => raise t (s.dropWalk s.cur part (fld t.info.toNat 56 0))
  | .hold => hold s
  | .walk off => hold (s.addWalk s.cur part off)

end Sys2Proof.Machine
end

