-- ==== Sys2Proof/Machine/Perform.lean ====
section
/-!
DEFINITION. What a memory port does with a write, an accumulate or a fetch-op (15_copy R334, R335, 04_spaces
R66 to R68, 07_faults R141, 08_ordering R160), and what answers do at a copy engine.
-/

namespace Sys2Proof.Machine

/-! ### Read-modify-writes -/

/-- Bytes of a destination element, and of an operand. -/
def Rmw.size : Rmw → Nat
  | .acc _ 26 _ => 16
  | .acc _ f _ => if f = 0 then 4 else fmtBits f / 8
  | .fop _ w64 _ => if w64 then 8 else 4
def Rmw.opnd : Rmw → Nat
  | .acc _ 26 _ => 4
  | r => r.size

/-- A signed number of n bytes. -/
def signed (n v : Nat) : Int :=
  let w := 8 * n
  if v % 2 ^ w < 2 ^ (w - 1) then (v % 2 ^ w : Nat) else (v % 2 ^ w : Nat) - (2 ^ w : Nat)

/-- The combination of an accumulate (R334): the new element, and whether OVF and NANF are set (R67). -/
def accElem (op f point m v : Nat) : Nat × Bool × Bool :=
  let w := if f = 0 then 32 else fmtBits f
  let pick := fun (mx : Bool) =>
    if isFloatFmt f then fminmaxC f mx m v
    else if decide (signed (w / 8) m < signed (w / 8) v) == mx then v else m
  if f = 26 then
    let (n, ovf, nan) := toFx128 v point
    let s := signed 16 m + n
    let out := decide (s < -(2 ^ 127 : Nat)) || decide ((2 ^ 127 : Nat) ≤ s)
    ((s.emod (2 ^ 128 : Nat)).toNat, ovf || out, nan)
  else
    (match op with
     | 0 => (m + v) % 2 ^ 32
     | 1 => (faddC 1 0 m v).1
     | 2 => pick true
     | 3 => pick false
     | 4 => m ||| v
     | _ => m &&& v, false, false)

/-- The new element of a fetch-op on n bytes (R335): add, min, max, and, or, xor, swap, cas. -/
def fopElem (op : Nat) (nat : Bool) (n old v cmp : Nat) : Nat :=
  let less := fun (a b : Nat) => if nat then decide (a < b) else decide (signed n a < signed n b)
  match op with
  | 0 => (old + v) % 2 ^ (8 * n)
  | 1 => if less v old then v else old
  | 2 => if less old v then v else old
  | 3 => old &&& v
  | 4 => old ||| v
  | 5 => old ^^^ v
  | 6 => v
  | _ => if old = cmp then v else old

/-- An extent's sticky flags OVF and NANF (04_spaces R68). -/
def State.stick (s : State) (r : Option (PartId × Nat)) (ovf nan : Bool) : State :=
  match r with
  | none => s
  | some (p, i) => s.onPart p fun x => { x with ranges := x.ranges.map fun e =>
      if e.1 == i then (i, { e.2 with
        attr := e.2.attr ||| .ofNat 64 (b2n ovf * 2 ^ 30 + b2n nan * 2 ^ 29) }) else e }

/-- The places of n bytes. -/
def span (a n : Nat) : List Nat := (List.range n).map (a + ·)
/-- Whole bytes to write from a place. -/
def wholeBytes (a : Nat) (l : List Byte) : List (Nat × Byte × Byte) :=
  (l.zip (List.range l.length)).map fun x => (a + x.2, x.1, 0xFF#8)

/-- One element at a place: its old value, or none when it is poisoned and so not written (R141). -/
def State.rmwOne (s : State) (op : Rmw) (a v cmp : Nat) (r : Option (PartId × Nat)) : State × Option Nat :=
  let ps := span a op.size
  if (s.poisonRead ps).isSome then (s, none)
  else
    let old := leNat (ps.map s.readByte)
    let (new, ovf, nan) := match op with
      | .acc o f p => accElem o.toNat f p old v
      | .fop o _ n => (fopElem o.toNat n op.size old v cmp, false, false)
    ((s.writePlaces (wholeBytes a (leBytes op.size new))).stick r ovf nan, some old)

/-- The elements of a request in ascending address: the old values of those performed, and whether one was
poisoned. -/
def State.rmwAll (s : State) (op : Rmw) (r : Option (PartId × Nat)) :
    Nat → List Byte → List Byte → Nat → State × List Byte × Bool
  | a, opnd, cmp, n + 1 =>
    let v := leNat (opnd.take op.opnd)
    let c := leNat (cmp.take op.opnd)
    let (t, old) := s.rmwOne op a v c r
    let (u, l, bad) := State.rmwAll t op r (a + op.size) (opnd.drop op.opnd) (cmp.drop op.opnd) n
    (u, (match old with | some o => leBytes op.size o | none => []) ++ l, bad || old.isNone)
  | _, _, _, 0 => (s, [], false)

/-- A request is performed at its home: the state, old values, the status. An atomic ends no release sequence (08_ordering
R160). -/
def State.performRmw (s : State) (op : Rmw) (a : Nat) (opnd cmp : List Byte)
    (r : Option (PartId × Nat)) : State × List Byte × Nat :=
  let (t, old, bad) := s.rmwAll op r a opnd cmp (opnd.length / op.opnd)
  (t.setRels s.ms.rels, old, if bad then 0x0B else 0)

/-! ### Requests at their home -/

/-- What a request does at its home, and the body of its answer: a read's data with the release records it
reads; a write that ends or continues release sequences (08_ordering R160), unless it meets a poisoned word that it does not
cover (07_faults R141); a read-modify-write, which continues them. -/
def State.performBody (s : State) (unit : Nat) (b : PBody) : State × PBody :=
  match b with
  | .read l => (s, .data (l.map fun a => (a, s.readByte a)) (s.poisoned l) (s.relsAt l))
  | .write l rel =>
    if (s.poisonWrite l).isSome then (s, .ack [] 0x0B []) else
    let by_ := if unit = 0 then some (.core s.cur) else none
    ((s.writeBy by_ l).addRels (l.map (·.1)) rel, .ack [] 0 [])
  | .rmw op a opnd cmp r rel =>
    let ps := span a (op.size * (opnd.length / op.opnd))
    let rels := s.relsAt ps
    let (s, old, st) := s.performRmw op a opnd cmp r
    (s.addRels ps rel, .ack old st rels)
  | b => (s, b)

/-- The places a packet's body names. -/
def PBody.places : PBody → List Nat
  | .read l => l
  | .write l _ => l.map (·.1)
  | .rmw op a v _ _ _ => span a (op.size * (v.length / op.opnd))
  | _ => []

/-- The origin of a poisoned word in a cause record (07_faults R151): its slice, heath port or fabric port, or the core whose
scratch holds it. -/
def poisonOrigin (place : Nat) : Nat :=
  let (d, port) := homeOf .e place
  if 2 ^ 80 ≤ place then 3 * 1024
  else if 2 ^ 45 ≤ place then place / 2 ^ 22 % 256
  else if port.val < 96 then 1024 + 32 * (dieIx d).val + (port.val - 64)
  else 2 * 1024 + 4 * (dieIx d).val + (port.val - 96)

/-- A command of a copy context has met poisoned words: the first is remembered (07_faults R151). -/
def State.metPoison (s : State) (c : CoreId) (x : Ctx) (l : List Nat) : State :=
  match l with
  | [] => s
  | a :: _ => s.onCore c (·.onTl ⟨x.val, by omega⟩ fun t => { t with
      errAt := t.errAt.orElse fun _ => some (poisonOrigin (s.resolve a), addrOf (s.resolve a) / 8 * 8) })

/-- The access table of a request's target as it stands when the request arrives there refuses it (03_host R53, R54). -/
def State.targetRefuses (s : State) (k : Pkt) : Bool :=
  let right := match k.body with | .read _ => 0 | .write .. => 1 | _ => 2
  ((k.body.places.map targetOf).eraseDups).any fun t => !s.accessOk t k.master k.part right false

/-- A request of core c is performed; a store of another core ends the sequences of others, so the writer is the
core the packet names. -/
def State.performPkt (s : State) (k : Pkt) : State × PBody :=
  let me := s.cur
  if s.targetRefuses k then (s, .ack [] 0x0A []) else
  let (t, b) := State.performBody { s with cur := k.core } k.unit k.body
  let t := match k.unit, b with
    | 1, .ack _ 0x0B _ => t.metPoison k.core 0 (t.poisoned k.body.places)
    | 2, .ack _ 0x0B _ => t.metPoison k.core 1 (t.poisoned k.body.places)
    | _, _ => t
  ({ t with cur := me }, b)

/-! ### Answers at a copy engine -/

def State.ctxAt (s : State) (c : CoreId) (x : Ctx) : CopyCtx := (s.coreAt c).copy.get x
def State.onCtx (s : State) (c : CoreId) (x : Ctx) (f : CopyCtx → CopyCtx) : State :=
  s.onCore c fun y => { y with copy := y.copy.set x.val (f (y.copy.get x)) x.isLt }
def State.onRun (s : State) (c : CoreId) (x : Ctx) (f : CopyRun → CopyRun) : State :=
  s.onCtx c x fun k => { k with run := k.run.map f }

/-- Data of a read of the running command. -/
def CopyRun.takeData (r : CopyRun) (pkt : Nat) (data : List (Nat × Byte)) (poison : List Nat) : CopyRun :=
  if r.rd.left.contains pkt then
    let got := r.rd.asked.filterMap fun q => (data.find? (·.1 == q.1)).map fun d => (q.2, d.2)
    { r with rd := { r.rd with
        known := r.rd.known ++ got, left := r.rd.left.filter (· != pkt)
        poison := r.rd.poison ++ (r.rd.asked.filter fun q => poison.contains q.1).map (·.2) } }
  else r

/-- An acknowledgement: old values join the result of a command without a failed request; the first error
counts. -/
def CopyRun.takeAck (r : CopyRun) (pkt : Nat) (old : List Byte) (status : Nat) : CopyRun :=
  if r.out.contains pkt then { r with
    out := r.out.filter (· != pkt), res := r.res ++ old
    err := r.err.orElse fun _ => if status = 0 then none else some status }
  else r

/-- How far bytes written reach without a gap from an offset. -/
def joinSpans : Nat → Nat → List (Nat × Nat) → Nat
  | 0, w, _ => w
  | n + 1, w, l => joinSpans n (l.foldl (fun w e => if e.1 ≤ w then max w e.2 else w) w) l

/-- The bytes [lo, hi) of a stream have been written: WDONE goes as far as every byte below it has been (04_spaces R65). -/
def Stream.wrote (q : Stream) (lo hi : Nat) : Stream :=
  let l := (lo, hi) :: q.done
  let w := joinSpans l.length q.wdone l
  { q with wdone := w, done := l.filter fun e => w < e.2 }

/-- The hash of a signed extent's blob after WDONE has moved (04_spaces R83): bytes enter it in WDONE order, the chunks of a
relay as they arrive (02_fabric R35). The last 3,328 bytes are the signature's. -/
def State.hashed (s : State) (r : Range) (q q' : Stream) (data : Option (List Byte)) : Option Sha :=
  let at_ := r.attr.toNat
  if bitOf at_ 46 && fld at_ 51 50 < 2 then
    let end_ := r.limit.toNat - 3328
    let a := min q.wdone end_
    let n := min q'.wdone end_ - a
    let bytes := match data with
      | some l => l.take n
      | none => s.ms.mem.bytes (r.pbase.toNat + (a - r.base.toNat)) n
    some ((q.sha.getD Sha.empty).absorb bytes)
  else q.sha

/-- The bytes [lo, hi) of a stream extent of a partition have been written and performed (04_spaces R65). -/
def State.wdone (s : State) (p : PartId) (i lo hi : Nat) (data : Option (List Byte) := none) : State :=
  let r := ((s.partAt p).ranges.find? fun e => e.1 == i).map fun e => e.2
  let f := fun (q : Stream) =>
    let q' := q.wrote lo hi
    match r with
    | some r => { q' with sha := s.hashed r q q' data }
    | none => q'
  s.onPart p fun x => { x with streams := x.streams.map fun q => if q.index == i then f q else q }

/-- The target of a command is the Common: its flags are a release and an acquire there, and only order its own context
anywhere else (08_ordering R163, R169). -/
def CopyCmd.inCommon (m : CopyCmd) : Bool := fld ((m.quad.getD 1 0).toNat) 63 61 == 0
/-- The release that a command's writes are. -/
def CopyCmd.release (m : CopyCmd) (c : CoreId) : Option (Party × BitVec 3) :=
  if m.rel && m.inCommon then some (.core c, m.scope) else none

/-- An answer reaches a copy engine; an acquiring fetch-op meets the releases it read (08_ordering R162). -/
def State.copyArrive (s : State) (c : CoreId) (x : Ctx) (pkt : Nat) (b : PBody) : State :=
  match b with
  | .data l poison _ => s.onRun c x (·.takeData pkt l poison)
  | .ack old st rels =>
    let acq := match (s.ctxAt c x).run with
      | some r => if r.cmd.acq ∧ r.cmd.inCommon ∧ r.out.contains pkt then some r.cmd.scope else none
      | none => none
    let s := s.onRun c x (·.takeAck pkt old st)
    let s := match (s.ctxAt c x).run.bind fun r => if r.out.isEmpty then r.wd else none with
      | some (i, lo, hi) => s.wdone (s.coreAt c).csr.part.toFin i lo hi
      | none => s
    match acq with
    | none => s
    | some sc => { ({ s with cur := c }.scopeMiss rels sc) with cur := s.cur }
  | _ => s

end Sys2Proof.Machine
end

