-- ==== Sys2Proof/Machine/Kv.lean ====
section
/-!
DEFINITION. The key-value space (05_kvspace R87 to R102): geometry, the walker, and the pool manager's requests.
-/

namespace Sys2Proof.Machine

/-! ### Geometry (R87, R88) -/

def kvEn (g : Nat) : Bool := bitOf g 63
def kvFmt (g : Nat) : Nat := fld g 62 58
def kvTpp (g : Nat) : Nat := 2 ^ (fld g 57 55 + 4)
def kvD (g : Nat) : Nat := 64 * 2 ^ fld g 54 53
def kvChk (g : Nat) : Bool := bitOf g 52
def kvNl (g : Nat) : Nat := fld g 51 44 + 1
def kvNh (g : Nat) : Nat := fld g 43 38 + 1
def kvNs (g : Nat) : Nat := fld g 37 20 + 1
def kvRb (g : Nat) : Nat := kvD g * (if kvFmt g = 2 ∨ kvFmt g = 3 then 2 else 1)
def kvPg (g : Nat) : Nat := 2 * kvTpp g * kvRb g
def kvE (g : Nat) : Nat := kvPg g / 4
def kvCap (g : Nat) : Nat := min (2 ^ 22) (8 * kvE g * kvTpp g)

def Part.kg (x : Part) : Nat := x.kvgeom.toNat

/-- A write of EN = 1 is accepted (R88). -/
def Part.kvOk (x : Part) (g : Nat) : Bool :=
  [2, 3, 4, 5].contains (kvFmt g) && fld g 57 55 ≤ 4 && fld g 54 53 ≤ 2 && fld g 19 0 == 0 &&
  4096 ≤ kvPg g && 1 ≤ x.kvpages.toNat && x.kvpages.toNat ≤ 2 ^ 30 &&
  x.kvseqb.toNat % 4096 == 0 && x.kvdirb.toNat % 4096 == 0 && x.kvflb.toNat % 4096 == 0 &&
  x.kvqlogb.toNat % 4096 == 0 && x.kvpoolb.toNat % kvPg g == 0

/-! ### Tables (R89) -/

def Part.kvSeq (x : Part) (q : Nat) : Nat := x.kvseqb.toNat + 16 * q
def Part.kvLayer (x : Part) (q l : Nat) : Nat :=
  x.kvdirb.toNat + (q * kvNl x.kg + l) * (64 + 32 * kvNh x.kg)
def Part.kvRoot (x : Part) (q l h k : Nat) : Nat := x.kvLayer q l + 64 + 32 * h + 4 * k
def Part.kvPage (x : Part) (i : Nat) : Nat := x.kvpoolb.toNat + i * kvPg x.kg

/-- Fields of a tag 4 address (04_spaces R58). -/
def kvS (va : W) : Nat := fld va.toNat 60 43
def kvL (va : W) : Nat := fld va.toNat 42 35
def kvH (va : W) : Nat := fld va.toNat 34 29
def kvT (va : W) : Nat := fld va.toNat 28 7
def kvAddr (q l h t : Nat) : W :=
  .ofNat 64 (2 ^ 63 + q % 2 ^ 18 * 2 ^ 43 + l % 2 ^ 8 * 2 ^ 35 + h % 2 ^ 6 * 2 ^ 29 + t % 2 ^ 22 * 2 ^ 7)
/-- The address of token t of va's sequence, layer and head. -/
def kvAtToken (va : W) (t : Nat) : W := kvAddr (kvS va) (kvL va) (kvH va) t

/-- TRAPINFO of KV_FAULT (R102). -/
def kvInfo (va : W) (reason : Nat) : W := .ofNat 64 (2 ^ 63 + fld va.toNat 60 7 * 2 ^ 7 + reason)
def kvFault (va : W) (reason : Nat) : Trap := { code := 0x0C, reason := reason, info := kvInfo va reason }

/-- ALEN and PLEN of a (sequence, layer). -/
def State.kvLens (s : State) (p : PartId) (q l : Nat) : Nat × Nat :=
  let a := (s.partAt p).kvLayer q l
  (s.ms.mem.num a 8, s.ms.mem.num (a + 8) 8)

/-- The coordinate lies in the geometry, and the token below Cap (R91). -/
def Part.kvCoord (x : Part) (va : W) : Option Nat :=
  let g := x.kg
  if !kvEn g ∨ fld va.toNat 6 0 ≠ 0 ∨ kvNs g ≤ kvS va ∨ kvNl g ≤ kvL va ∨ kvNh g ≤ kvH va then some 5
  else if kvCap g ≤ kvT va then some 4
  else none

/-- The reason of the fault at a token that no address names (R91). -/
def Part.kvPast (x : Part) (va : W) : Nat := if x.kvCoord va = some 5 then 5 else 4

/-- The block-table entry of page j of (s, l, h): its address and value; none when the root is not valid. -/
def State.kvBlock (s : State) (p : PartId) (q l h j : Nat) : Option (Nat × Nat) :=
  let x := s.partAt p
  let e := kvE x.kg
  let rt := s.ms.mem.num (x.kvRoot q l h (j / e)) 4
  if bitOf rt 31 then
    let a := x.kvPage (fld rt 29 0) + 4 * (j % e)
    some (a, s.ms.mem.num a 4)
  else none

/-- KvWalk (R91) against an ALEN and, for a tile fetch, a PLEN: the page index, or the reason of the fault. -/
def State.kvWalk (s : State) (p : PartId) (va : W) (alen : Nat) (plen : Option Nat) : Except Nat Nat :=
  let x := s.partAt p
  match x.kvCoord va with
  | some r => .error r
  | none =>
    if alen ≤ kvT va then .error 0
    else if (match plen with | some n => decide (n ≤ kvT va) | none => false) then .error 1
    else match s.kvBlock p (kvS va) (kvL va) (kvH va) (kvT va / kvTpp x.kg) with
      | none => .error 0
      | some (_, bt) =>
        if !bitOf bt 31 then .error 0 else if bitOf bt 30 then .error 2 else .ok (fld bt 29 0)

/-- The physical addresses of a token's key row and value row on a page. -/
def Part.kvRows (x : Part) (i t : Nat) : Nat × Nat :=
  let a := x.kvPage i + t % kvTpp x.kg * kvRb x.kg
  (a, a + kvPg x.kg / 2)

/-! ### The free list (R90) -/

def State.onMem (s : State) (f : Memory → Memory) : State := { s with ms := { s.ms with mem := f s.ms.mem } }

/-- Pages on the free list. -/
def Part.kvAvail (x : Part) : Nat := x.flTail - x.flHead

/-- The page at the head leaves the list, zeroed. -/
def State.kvTake (s : State) (p : PartId) : State × Nat :=
  let x := s.partAt p
  let i := s.ms.mem.num (x.kvflb.toNat + 4 * (x.flHead % x.kvpages.toNat)) 4
  let s := s.onPart p fun x => { x with flHead := x.flHead + 1, kvfree := .ofNat 64 (x.kvAvail - 1) }
  (s.onMem fun m => m.zeroRange (x.kvPage i) (kvPg x.kg), i)

/-- A page joins the tail. -/
def State.kvReturn (s : State) (p : PartId) (i : Nat) : State :=
  let x := s.partAt p
  let s := s.onMem fun m => m.writeNum (x.kvflb.toNat + 4 * (x.flTail % x.kvpages.toNat)) 4 i
  s.onPart p fun x => { x with flTail := x.flTail + 1, kvfree := .ofNat 64 (x.kvAvail + 1) }

/-- A sequence's count of pages changes. -/
def State.kvCount (s : State) (p : PartId) (q add sub : Nat) : State :=
  let a := (s.partAt p).kvSeq q + 8
  s.onMem fun m => m.writeNum a 8 (m.num a 8 + add - sub)

/-! ### Append (R95, R96) -/

/-- Fields of a batch record. -/
def recS (w : Nat) : Nat := fld w 63 46
def recL (w : Nat) : Nat := fld w 45 38
def recN (w : Nat) : Nat := fld w 21 0

/-- The first failing record, with its reason and token, or the pages the batch needs; `len` gives the ALEN that
earlier records leave. -/
def kvCheck (x : Part) : List Nat → (Nat → Nat → Nat) → Nat → Except (W × Nat) Nat
  | [], _, tot => .ok tot
  | w :: r, len, tot =>
    let g := x.kg
    let q := recS w
    let l := recL w
    let n := recN w
    if !kvEn g ∨ kvNs g ≤ q ∨ kvNl g ≤ l ∨ fld w 37 22 ≠ 0 ∨ n = 0 then .error (kvAddr q l 0 0, 5)
    else
      let a := len q l
      if kvCap g < a + n then .error (kvAddr q l 0 a, 4)
      else
        let up := fun k => (k + kvTpp g - 1) / kvTpp g
        let upE := fun k => (k + kvE g - 1) / kvE g
        let need := (up (a + n) - up a) + (upE (up (a + n)) - upE (up a))
        kvCheck x r (fun q' l' => if q' = q ∧ l' = l then a + n else len q' l') (tot + kvNh g * need)

/-- Page j of (s, l, h) is given a page, and its block-table page one before it when it has none. -/
def State.kvGive (s : State) (p : PartId) (q l h j : Nat) : State :=
  let x := s.partAt p
  let root := x.kvRoot q l h (j / kvE x.kg)
  let (s, n) := if bitOf (s.ms.mem.num root 4) 31 then (s, 1)
    else
      let (s, i) := s.kvTake p
      (s.onMem fun m => m.writeNum root 4 (2 ^ 31 + i), 2)
  let (s, i) := s.kvTake p
  match s.kvBlock p q l h j with
  | none => s
  | some (a, _) => (s.onMem fun m => m.writeNum a 4 (2 ^ 31 + i)).kvCount p q n 0

/-- One record of a batch that has passed. -/
def State.kvExtend (s : State) (p : PartId) (w : Nat) : State :=
  let x := s.partAt p
  let g := x.kg
  let q := recS w
  let l := recL w
  let a := (s.kvLens p q l).1
  let up := fun k => (k + kvTpp g - 1) / kvTpp g
  let js := (List.range (up (a + recN w) - up a)).map (up a + ·)
  let s := (List.range (kvNh g)).foldl (fun s h => js.foldl (fun s j => s.kvGive p q l h j) s) s
  s.onMem fun m => (m.writeNum (x.kvLayer q l) 8 (a + recN w)).writeNum (x.kvSeq q) 8
    (m.num (x.kvSeq q) 8 % 2 ^ 63 + 2 ^ 63)

/-- An append: all of it, or a trap. -/
def State.kvAppend (s : State) (p : PartId) (recs : List Nat) : Except Trap State :=
  let x := s.partAt p
  match kvCheck x recs (fun q l => (s.kvLens p q l).1) 0 with
  | .error (va, r) => .error (kvFault va r)
  | .ok n =>
    if x.kvAvail < n then .error { code := 0x0D, info := .ofNat 64 (n - x.kvAvail) }
    else .ok (recs.foldl (fun s w => s.kvExtend p w) s)

/-! ### Invalidation (R99, R100) -/

/-- The key of a translation-cache entry (R93). -/
def kvKey (q l h j : Nat) : Nat := ((q * 256 + l) * 64 + h) * 2 ^ 22 + j

/-- Entries of the key-value caches of a partition's cores that meet a condition are dropped. -/
def State.kvDrop (s : State) (p : PartId) (f : Nat × Nat → Bool) : State :=
  s.onCores (fun _ x => x.csr.part.toFin == p && !x.kvc.isEmpty) fun x => { x with kvc := x.kvc.filter fun e => !f e }

/-- A page leaves the tables: it is free, once no pin holds it, unless it is quarantined. -/
def State.kvUnname (s : State) (p : PartId) (i : Nat) : State × List (Nat × Bool) :=
  if (s.partAt p).kvquar.any (·.1 == i) then
    (s.onPart p fun x => { x with kvquar := x.kvquar.map fun e => if e.1 == i then (i, false) else e }, [(i, false)])
  else (s, [(i, true)])

/-- TRUNC: the state, and the pages that leave the tables, with whether each is to be freed. -/
def State.kvTrunc (s : State) (p : PartId) (q l n : Nat) : State × List (Nat × Bool) :=
  let x := s.partAt p
  let g := x.kg
  let (a, b) := s.kvLens p q l
  if a ≤ n then (s, [])
  else
    let up := fun k => (k + kvTpp g - 1) / kvTpp g
    let lay := x.kvLayer q l
    let s := s.onMem fun m => (m.writeNum lay 8 n).writeNum (lay + 8) 8 (min b n)
    let js := (List.range (up a - up n)).map (up n + ·)
    let one := fun (h : Nat) (st : State × List (Nat × Bool)) (j : Nat) =>
      match st.1.kvBlock p q l h j with
      | none => st
      | some (at_, bt) =>
        if !bitOf bt 31 then st else
          let (s, f) := (st.1.onMem fun m => m.writeNum at_ 4 0).kvUnname p (fld bt 29 0)
          (s.kvCount p q 0 1, st.2 ++ f)
    let upE := fun k => (k + kvE g - 1) / kvE g
    let root := fun (h : Nat) (st : State × List (Nat × Bool)) (k : Nat) =>
      let r := x.kvRoot q l h k
      let w := st.1.ms.mem.num r 4
      if !bitOf w 31 then st
      else ((st.1.onMem fun m => m.writeNum r 4 0).kvCount p q 0 1, st.2 ++ [(fld w 29 0, true)])
    let ks := (List.range (upE (up a) - upE (up n))).map (upE (up n) + ·)
    let (s, f) := (List.range (kvNh g)).foldl (fun st h => ks.foldl (root h) (js.foldl (one h) st)) (s, [])
    (s.kvDrop p fun e => e.1 / 2 ^ 28 == q * 256 + l && decide (up n ≤ e.1 % 2 ^ 22), f)

/-- CLOSE. -/
def State.kvClose (s : State) (p : PartId) (q : Nat) : State × List (Nat × Bool) :=
  let x := s.partAt p
  let (s, f) := (List.range (kvNl x.kg)).foldl (init := (s, ([] : List (Nat × Bool)))) fun st l =>
    let (s, g) := st.1.kvTrunc p q l 0
    (s, st.2 ++ g)
  (s.onMem fun m => m.writeNum (x.kvSeq q) 8 (m.num (x.kvSeq q) 8 % 2 ^ 62), f)

/-- REPLACE. -/
def State.kvReplace (s : State) (p : PartId) (va : W) : Except Trap (State × List (Nat × Bool)) :=
  let x := s.partAt p
  let j := kvT va / kvTpp x.kg
  match x.kvCoord va with
  | some r => .error (kvFault va r)
  | none =>
    if (s.kvLens p (kvS va) (kvL va)).1 ≤ kvT va then .error (kvFault va 0)
    else match s.kvBlock p (kvS va) (kvL va) (kvH va) j with
      | none => .error (kvFault va 0)
      | some (a, bt) =>
        if !bitOf bt 31 then .error (kvFault va 0)
        else if !bitOf bt 30 then .ok (s, [])
        else if x.kvAvail = 0 then .error { code := 0x0D, info := 1 }
        else
          let (s, i) := s.kvTake p
          let (s, f) := (s.onMem fun m => m.writeNum a 4 (2 ^ 31 + i)).kvUnname p (fld bt 29 0)
          .ok (s.kvDrop p fun e => e.1 == kvKey (kvS va) (kvL va) (kvH va) j, f)

/-- c.kvinv's request (15_copy R336): its kind, address and count. -/
def State.kvInv (s : State) (p : PartId) (kind : Nat) (va : W) (n : Nat) : Except Trap (State × List (Nat × Bool)) :=
  let x := s.partAt p
  match kind with
  | 0 => match x.kvCoord va with
    | some r => .error (kvFault va r)
    | none => .ok (s.kvTrunc p (kvS va) (kvL va) n)
  | 1 => match x.kvCoord va with
    | some r => .error (kvFault va r)
    | none => .ok (s.kvClose p (kvS va))
  | _ => s.kvReplace p va

/-- The pages that a tile fetch pins: that of its next token, from the walk of its first to the delivery of the last of
its rows (R94). -/
def PipeRun.pinned (x : Part) (q : PipeRun) : List Nat :=
  match q.page with
  | some (j, _) => if (kvT q.spec.base + q.next) / kvTpp x.kg = j ∧ q.next < q.spec.rows then q.pins else []
  | none => []

/-- No pipe of a core of the partition pins one of the pages (R100). -/
def State.kvUnpinned (s : State) (p : PartId) (pages : List Nat) : Bool :=
  allCores.all fun c =>
    let x := s.coreAt c
    x.csr.part.toFin != p || match x.matrix.run with
      | none => true
      | some r => r.allPipes.all fun q => (q.pinned (s.partAt p)).all fun i => !pages.contains i

/-! ### Quarantine (R101, R102) -/

/-- A fetch by core c finds a non-finite element on page i: Q of the entry that names the page is set once, with one record
of the log. DEDUCED (assumption 84): a page that a TRUNC or a REPLACE has taken out of the tables under the fetch's pin
has no entry to mark. -/
def State.kvQuarantine (s : State) (c : CoreId) (p : PartId) (va : W) (i : Nat) (value : Bool) (last elem code : Nat) :
    State :=
  let x := s.partAt p
  match s.kvBlock p (kvS va) (kvL va) (kvH va) (kvT va / kvTpp x.kg) with
  | none => s
  | some (a, bt) =>
    if bitOf bt 30 ∨ !bitOf bt 31 ∨ fld bt 29 0 ≠ i then s
    else
      let sq := x.kvSeq (kvS va)
      let s := s.onMem fun m => (m.writeNum a 4 (bt + 2 ^ 30)).writeNum sq 8
        (if bitOf (m.num sq 8) 62 then m.num sq 8 else m.num sq 8 + 2 ^ 62)
      let s := (s.onPart p fun x => { x with kvquar := x.kvquar ++ [(i, true)] }).kvDrop p fun e => e.2 == i
      let n := x.kvqlogn.toNat
      let cap := fld n 15 0
      let used := fld n 47 32
      if used < cap then
        let at_ := x.kvqlogb.toNat + 32 * (used % cap)
        let s := s.onMem fun m => m.writeBytes at_
          (leBytes 8 (va.toNat / 8 * 8 + b2n value) ++ leBytes 4 last ++ leBytes 4 i ++ leBytes 2 elem ++
            leBytes 2 code ++ leBytes 2 c.val ++ [0, 0] ++ leBytes 8 s.cyc.toNat)
        s.onPart p fun x => { x with kvqlogn := x.kvqlogn + .ofNat 64 (2 ^ 32) }
      else if fld n 63 48 < 0xFFFF then s.onPart p fun x => { x with kvqlogn := x.kvqlogn + .ofNat 64 (2 ^ 48) }
      else s

end Sys2Proof.Machine
end

