-- ==== Sys2Proof/Machine/Operands.lean ====
section
/-!
DEFINITION. Operand forms: immediates (12_encoding R243), operations over the members of a lift (10_core R217,
R219; 14_scalar R289; 21_vector R410), scalar and vector memory forms (14_scalar R295 to R297, 21_vector R402
to R404).
-/

namespace Sys2Proof.Machine

/-- Sign extension of the low n bits of a number to 64 bits. -/
def sx64 (n v : Nat) : W :=
  let v := v % 2 ^ n
  if 2 ^ (n - 1) ≤ v then .ofNat 64 (v + (2 ^ 64 - 2 ^ n)) else .ofNat 64 v

/-- Imm() of a value-immediate operation: imm8, lent imm15 or imm32 (R243). -/
def immOf (e : ImmExt) (i : BitVec 8) : W :=
  match e with
  | .none => sx64 8 i.toNat
  | .lend n => sx64 15 (n % 128 * 256 + i.toNat)
  | .long n => sx64 32 (n % 2 ^ 24 * 256 + i.toNat)

/-- Imm() of the operation being executed. -/
def State.imm (s : State) (i : BitVec 8) : W := immOf s.issue.ctx.imm i

/-! ### What stood before the group (14_scalar R301) -/

def State.csrWas (s : State) : Csr := match s.issue.before with | some b => b.csr | none => s.csr
def State.vFmt (s : State) : BitVec 5 := s.csrWas.fmt
def State.vRm (s : State) : BitVec 3 := s.csrWas.rm
def State.vSat (s : State) : Bool := s.csrWas.sat
def State.vProfile (s : State) : BitVec 6 := s.csrWas.profile
def State.lift (s : State) : Lift := match s.issue.before with | some b => b.lift | none => s.core.lift
def State.queueBefore (s : State) (n : BitVec 4) : QueueSt :=
  match s.issue.before with | some b => b.queues.get n.toFin | none => s.core.queue n

/-! ### Lifted operands -/

/-- A register operand with its file. -/
structure Opd where
  file : RegFile
  n : Nat
  deriving DecidableEq, Repr

def Opd.size : RegFile → Nat
  | .s | .v => 64
  | _ => 8

def Regs.tagOf (r : Regs) (o : Opd) : BitVec 3 :=
  match o.file with
  | .s => r.sTag.get (Fin.ofNat 64 o.n)
  | .v => r.vTag.get (Fin.ofNat 64 o.n)
  | .k => r.kTag.get (Fin.ofNat 8 o.n)
  | .p => r.pTag.get (Fin.ofNat 8 o.n)

/-- The union of tag sets. -/
def Regs.tags (r : Regs) (l : List Opd) : BitVec 3 := l.foldl (fun a o => a ||| r.tagOf o) 0

/-- An operand is misaligned, or passes its file, under its extent: the extent (R217). -/
def misnamed (l : Lift) (f : RegFile) (n : Nat) (ts : BitVec 3) : Option Nat :=
  let e := l.extent ts
  if nameOk (Opd.size f) n e then none else some e

/-- A destination is misnamed, or a tagged write to a fixed register. -/
def badDest (l : Lift) (f : RegFile) (n : Nat) (ts : BitVec 3) : Option Nat :=
  if f != .v && n == 0 && ts != 0 then some (l.extent ts) else misnamed l f n ts

/-- The first misnamed operand or destination. -/
def liftBad (l : Lift) (r : Regs) (srcs : List Opd) (dst : Option Opd) (ts : BitVec 3) : Option Nat :=
  match srcs.findSome? fun o => misnamed l o.file o.n (r.tagOf o) with
  | some e => some e
  | none => match dst with
    | some o => badDest l o.file o.n ts
    | none => none

/-- AXIS_OVERFLOW and AXIS_COLLISION (07_faults R132). -/
def axisOverflow (e : Nat) (s : State) : Out := raise { code := 0x15, info := .ofNat 64 e } s
def axisCollision (s : State) : Out :=
  raise { code := 0x16, info := .ofNat 64 s.issue.ctx.idx } s
/-- ILLEGAL_OP at issue, with the raw slot (R132). -/
def illegalOp (s : State) : Out := raise { code := 0x02, info := .ofNat 64 s.issue.ctx.raw } s

/-- The register number that member m of a result with tag set ts reads of an operand. -/
def memberOf (l : Lift) (r : Regs) (ts : BitVec 3) (o : Opd) (m : Nat) : Nat :=
  o.n + l.project ts (r.tagOf o) m

def sOpd (n : BitVec 6) : Opd := ⟨.s, n.toNat⟩
def vOpd (n : BitVec 6) : Opd := ⟨.v, n.toNat⟩
def kOpd (n : BitVec 3) : Opd := ⟨.k, n.toNat⟩

/-- Runs a state update for each member of a tag set; masked-off members do nothing but take the set. -/
def overMembers (l : Lift) (ts : BitVec 3) (act off : Nat → State → State) (s : State) : State :=
  (List.range (l.extent ts)).foldl (fun s m => if l.live ts m then act m s else off m s) s

/-- Member m of a masked-off destination takes the result's tag set and keeps its value. -/
def Regs.retag (r : Regs) (f : RegFile) (n : Nat) (ts : BitVec 3) : Regs :=
  match f with
  | .s => if n = 0 then r else { r with sTag := r.sTag.set (n % 64) ts (Nat.mod_lt _ (by decide)) }
  | .v => { r with vTag := r.vTag.set (n % 64) ts (Nat.mod_lt _ (by decide)) }
  | .k => if n = 0 then r else { r with kTag := r.kTag.set (n % 8) ts (Nat.mod_lt _ (by decide)) }
  | .p => if n = 0 then r else { r with pTag := r.pTag.set (n % 8) ts (Nat.mod_lt _ (by decide)) }

/-- An S operation over s registers: sd := g of the sources, for each member of the union of their tag sets
(R289). -/
def sRun (i : Instr) (srcs : List (BitVec 6)) (d : BitVec 6) (g : List W → W) (s : State) : Out :=
  withReady i (fun s =>
    let l := s.lift
    let r := s.regs
    let os := srcs.map sOpd
    let ts := r.tags os
    match liftBad l r os (some (sOpd d)) ts with
    | some e => axisOverflow e s
    | none =>
      .next (overMembers l ts
        (fun m s => s.mapRegs fun r' =>
          r'.setS (.ofNat 6 (d.toNat + m)) (g (os.map fun o => r.getS (.ofNat 6 (memberOf l r ts o m)))) ts)
        (fun m s => s.mapRegs fun r' => r'.retag .s (d.toNat + m) ts) s)) s

/-- A compare: p(d) := g of the sources. -/
def pRun (i : Instr) (srcs : List (BitVec 6)) (d : BitVec 3) (g : List W → Bool) (s : State) : Out :=
  withReady i (fun s =>
    let l := s.lift
    let r := s.regs
    let os := srcs.map sOpd
    let ts := r.tags os
    match liftBad l r os (some ⟨.p, d.toNat⟩) ts with
    | some e => axisOverflow e s
    | none =>
      .next (overMembers l ts
        (fun m s => s.mapRegs fun r' =>
          r'.setP (.ofNat 3 (d.toNat + m)) (g (os.map fun o => r.getS (.ofNat 6 (memberOf l r ts o m)))) ts)
        (fun m s => s.mapRegs fun r' => r'.retag .p (d.toNat + m) ts) s)) s

/-! ### Redundancy of memory forms (09_redundancy R178, R181, R183) -/

/-- The tag of an address. -/
def tagOfVa (va : W) : Nat := fld va.toNat 63 61

/-- A load that every replica performs: tags 5, 6 and 1, and STABLE memory. -/
def loadIsLocal (va : W) (l : Loc) : Bool :=
  tagOfVa va == 5 || tagOfVa va == 6 || tagOfVa va == 1 || l.attr.stable

/-- An access that can carry an acquire or a release: role spaces carry neither (08_ordering R169). -/
def bearsOrder (va : W) : Bool := !(1 ≤ tagOfVa va && tagOfVa va ≤ 3)

/-- The SIG records of a store: one per 8-byte unit, ascending. -/
def storeRecords (bytes : List (W × Byte × Byte)) : List (List Byte) :=
  ((bytes.map fun b => b.1.toNat / 8).eraseDups.foldl numInsert []).map fun u =>
    let at_ := fun (j : Nat) => bytes.find? fun b => b.1.toNat == 8 * u + j
    let en := ((List.range 8).map fun j => if (at_ j).isSome then 2 ^ j else 0).sum
    [0x01#8, .ofNat 8 (8 * u / 2 ^ 61)] ++ leBytes 8 (8 * u) ++ [.ofNat 8 en] ++
      (List.range 8).map fun j => match at_ j with | some b => b.2.1 &&& b.2.2 | none => 0

/-- The capacity a store takes in the buffer of R183. -/
def bufferNeed (bytes : List (W × Byte × Byte)) : Nat :=
  8 * ((bytes.map fun b => b.1.toNat / 8).eraseDups).length

/-- A store of a redundant node outside tags 5 and 6 is buffered. -/
def State.buffers (s : State) (va : W) : Bool :=
  1 < s.csr.nrep.toNat && !s.issue.ctx.loc && tagOfVa va != 5 && tagOfVa va != 6

/-! ### Memory forms -/

/-- One access of a memory form: its address, its bytes' offsets from the place, and where it goes. -/
structure Acc where
  va : W
  n : Nat
  loc : Loc
  deriving DecidableEq, Repr

/-- Admits accesses in order; the first that is not stops. -/
def State.admitAll (s : State) (k : AKind) : List (W × Nat) → Except Admit (List Acc)
  | [] => .ok []
  | (va, n) :: r =>
    match s.passes va k with
    | .go l => (s.admitAll k r).map fun t => ⟨va, n, l⟩ :: t
    | a => .error a

/-- An access of the core's own scratch waits behind another unit's bank lock (10_core R212). -/
def State.lockedOut (s : State) (unit : Nat) (l : List Acc) : Bool :=
  l.any fun a => a.loc.own && s.core.lockedFor unit (fld a.va.toNat 21 0)

def Acc.places (a : Acc) : List (Nat × Bool) :=
  (List.range a.n).map fun j => (a.loc.place + j, a.loc.own)

/-- The offsets in the core's own scratch that accesses touch. -/
def ownOffs (l : List Acc) : List Nat :=
  (l.filter (·.loc.own)).flatMap fun a => (List.range a.n).map (fld a.va.toNat 21 0 + ·)

/-- A load's checks after admission: bank locks, poison, own partial stores. `body` goes on. -/
def loadChecks (unit : Nat) (l : List Acc) (body : State → Out) (s : State) : Out :=
  let ps := l.flatMap (·.places)
  let open_ := (ps.filter fun p => (s.core.forwardOf p.1).isNone).map (·.1)
  if s.lockedOut unit l ∨ s.core.partialOn (ps.map (·.1)) then hold s
  else match s.poisonRead open_ with
    | some a => raise { code := 0x0B, info := .ofNat 64 a } s
    | none => body s

/-- The destination of a load a follower does not perform waits for the leader's value (R178). -/
def State.awaitForward (s : State) (f : RFile) (n : BitVec 6) (ts : BitVec 3) : State :=
  s.bumpFwd.mapCore fun x => { x.onRegs (·.mark f n .empty ts) with
    fills := x.fills ++ [⟨f, n, .forwarded s.fwdNum, 0⟩] }

/-- A scalar load (R295 to R297): size n, sign extension, acquire scope. -/
def sLoad (i : Instr) (d : BitVec 6) (a : Src) (imm : BitVec 8) (n : Nat) (sx acq : Bool) (s : State) : Out :=
  withReady i (fun s =>
    if !s.core.memReady then hold s else
    let l := s.lift
    let r := s.regs
    let o := sOpd a.reg
    let ts := r.tagOf o
    let sc : Option (BitVec 3) := if acq then some (s.issue.ctx.scope.getD 3) else none
    match liftBad l r [o] (some (sOpd d)) ts with
    | some e => axisOverflow e s
    | none =>
      let live := (List.range (l.extent ts)).filter (l.live ts)
      let ea := fun m => r.getS (.ofNat 6 (memberOf l r ts o m)) + s.imm imm * .ofNat 64 n
      match (live.map ea).find? fun v => v.toNat % n != 0 with
      | some v => raise { code := 0x03, info := v } s
      | none =>
        match s.admitAll .load (live.map fun m => (ea m, n)) with
        | .error e => notAdmitted e s
        | .ok as =>
          -- a release of the core is performed before a later acquire (08_ordering R172)
          if acq ∧ as.any (fun c => bearsOrder c.va) ∧ s.core.stores.any (·.rel) then hold s
          else loadChecks 0 as (fun s =>
            let s := s.takeLock 0
            let s := overMembers l ts (fun _ s => s)
              (fun m s => s.mapRegs fun r' => r'.retag .s (d.toNat + m) ts) s
            .next ((live.zip as).foldl (fun (s : State) (m, c) =>
              let dst : BitVec 6 := .ofNat 6 (d.toNat + m)
              let shared := !loadIsLocal c.va c.loc
              if s.follows && shared then s.awaitForward .s dst ts
              else (s.useBanks 0 (ownOffs [c]) [(.s, dst.toNat)]).issueLoad (.s, dst) ts c.places (.scalar n sx)
                (if bearsOrder c.va then sc else none) (shared && s.leads)) s)) s) s

/-- Bytes a store writes, at addresses and at places. -/
def vaBytes (va : W) (n v : Nat) : List (W × Byte × Byte) :=
  (List.range n).map fun j => (va + .ofNat 64 j, .ofNat 8 (v / 2 ^ (8 * j)), 0xFF#8)
def toPlaces (c : Acc) (b : List (W × Byte × Byte)) : List (Nat × Byte × Byte) :=
  b.map fun x => (c.loc.place + x.1.toNat - c.va.toNat, x.2)

/-- A store enters the redundant buffer (09_redundancy R183). -/
def State.bufferStore (s : State) (c : Acc) (b : List (W × Byte × Byte)) : State :=
  s.mapCore fun x => { x with redun := { x.redun with
    used := x.redun.used + bufferNeed b
    sbuf := x.redun.sbuf ++ (toPlaces c b).map fun y => (y.1, y.2.1, y.2.2, .ofNat 3 (tagOfVa c.va)) } }

/-- The stores of a memory form are made in order, with their SIG records unless a compare has taken these. Under redundancy
a store outside local state is buffered, a release one is the leader's alone (R184). -/
def State.makeStores (s : State) (unit : Nat) (l : List (Acc × List (W × Byte × Byte))) (rel : Option (BitVec 3))
    (fold : Bool) : State :=
  let s := (s.takeLock unit).useBanks unit ((l.filter (·.1.loc.own)).flatMap fun c => c.2.map fun b => fld b.1.toNat 21 0) []
  l.foldl (init := s) fun (s : State) (c, b) =>
    let s := if fold then (storeRecords b).foldl State.foldSig s else s
    let plain := !bearsOrder c.va
    if !s.buffers c.va then s.issueStore (toPlaces c b) c.loc.own (if plain then none else rel) plain
    else if rel.isNone ∨ plain then s.bufferStore c b
    else if s.isLeader then s.issueStore (toPlaces c b) false rel
    else s

/-- The stores of a memory form, checked and issued in order: bank locks, poison of words partly overwritten, the compare of
a release (kind 0) or of a full redundant buffer (kind 2; assumption 92: a group whose stores alone exceed it is buffered
whole), then the writes. -/
def storeAll (unit : Nat) (l : List (Acc × List (W × Byte × Byte))) (rel : Option (BitVec 3)) (s : State) :
    Out :=
  let whole := s.core.ownStores
  let clean := fun (b : List (Nat × Byte × Byte)) (a : Nat) =>
    coversWord (whole.map fun x => (addrOf x.1, x.2)) a || b.isEmpty
  let buf := l.filter fun c => s.buffers c.1.va
  let need := (buf.map fun c => bufferNeed c.2).sum
  let owned := l.any fun c => c.1.loc.own
  let order := rel.isSome && l.any fun c => bearsOrder c.1.va
  if s.lockedOut unit (l.map (·.1)) then hold s
  else if owned ∧ ((order ∧ !s.core.openIds.isEmpty) ∨ !s.core.behindFence.isEmpty) then hold s
  else match l.findSome? fun c =>
      match s.poisonWrite (toPlaces c.1 c.2) with
      | some a => if clean (toPlaces c.1 c.2) a then none else some a
      | none => none with
    | some a => raise { code := 0x0B, info := .ofNat 64 a } s
    | none =>
      if rel.isSome then
        comparePoint 0 (fun s => .next (s.makeStores unit l rel false)) s (l.flatMap fun c => storeRecords c.2)
      else if 0 < need ∧ 4096 < s.core.redun.used + need then
        comparePoint 2 (fun s => .next (s.makeStores unit l rel true)) s
      else .next (s.makeStores unit l rel true)

/-- A scalar store. -/
def sStore (i : Instr) (d : BitVec 6) (a : Src) (imm : BitVec 8) (n : Nat) (rel : Bool) (s : State) : Out :=
  withReady i (fun s =>
    if !s.core.memReady then hold s else
    let l := s.lift
    let r := s.regs
    let o := sOpd a.reg
    let v := sOpd d
    let ts := r.tags [o, v]
    let sc : Option (BitVec 3) := if rel then some (s.issue.ctx.scope.getD 3) else none
    if r.tagOf o = 0 ∧ r.tagOf v ≠ 0 then axisCollision s else
    match liftBad l r [o, v] none ts with
    | some e => axisOverflow e s
    | none =>
      let live := (List.range (l.extent ts)).filter (l.live ts)
      let ea := fun m => r.getS (.ofNat 6 (memberOf l r ts o m)) + s.imm imm * .ofNat 64 n
      match (live.map ea).find? fun v => v.toNat % n != 0 with
      | some v => raise { code := 0x03, info := v } s
      | none =>
        match s.admitAll .store (live.map fun m => (ea m, n)) with
        | .error e => notAdmitted e s
        | .ok as =>
          let data := live.map fun m => (r.getS (.ofNat 6 (memberOf l r ts v m))).toNat
          storeAll 0 ((as.zip data).map fun (c, y) => (c, vaBytes c.va n y)) sc s) s

/-- The scratch unit of a V operation: 1 and 2 are the vector instances; a degraded core's slots go to the one that is left
(01_module R13). -/
def State.vunit (s : State) : Nat := if s.fw.lostVec.contains s.cur then 1 else 1 + s.issue.ctx.vinst

/-! ### Vector operations -/

/-- The operation format (R383): the lent override, or VFMT.FMT. -/
def State.opFmt (s : State) : Nat :=
  normFmt (match ovrFmt s.issue.ctx.ovr with | some f => f | none => s.vFmt.toNat)

/-- How a member of a V operation rounds, narrows and masks. -/
def State.venv (s : State) (z : Bool) (mask : KReg) : VEnv :=
  ⟨s.opFmt, s.vRm.toNat, s.vSat, mask, z⟩

/-- The operation's mask register as an operand; none under k0. -/
def State.maskOpd (s : State) : List Opd :=
  if s.issue.ctx.mask = 0 then [] else [kOpd s.issue.ctx.mask]

/-- A value read of an operand. -/
def Regs.vAt (r : Regs) (n : Nat) : VReg := r.getV (.ofNat 6 n)
def Regs.sAt (r : Regs) (n : Nat) : W := r.getS (.ofNat 6 n)
def Regs.kAt (r : Regs) (n : Nat) : KReg := r.getK (.ofNat 3 n)

/-- Flags join FPFLAGS (R386). -/
def State.orFlags (s : State) (f : Flags) : State :=
  { s.mapCsr fun c => { c with fpflags := c.fpflags ||| f } with issue := { s.issue with flags := s.issue.flags ||| f } }

/-- The mask of member m. -/
def State.maskAt (s : State) (l : Lift) (r : Regs) (ts : BitVec 3) (m : Nat) : KReg :=
  if s.issue.ctx.mask = 0 then BitVec.allOnes 1024
  else r.kAt (memberOf l r ts (kOpd s.issue.ctx.mask) m)

/-- Where a V operation's result goes. -/
inductive VDest where
  | v (d : BitVec 6)
  | k (d : BitVec 3)
  /-- a special function: the destination is empty until the unit writes it (R401) -/
  | sfu (d : BitVec 6)
  deriving DecidableEq, Repr

def VDest.opd : VDest → Opd
  | .v d | .sfu d => vOpd d
  | .k d => kOpd d

/-- A V operation over v and s sources: g gives the result of a member from its environment, the old
destination and the sources, with its flags. -/
def vRun (i : Instr) (cls : List VClass) (vs ss : List (BitVec 6)) (d : VDest) (z : Bool)
    (g : VEnv → VReg → List VReg → List W → VReg × Flags) (s : State) : Out :=
  withReady i (fun s =>
    let l := s.lift
    let r := s.regs
    let vo := vs.map vOpd
    let so := ss.map sOpd
    let all := vo ++ so ++ s.maskOpd
    let ts := r.tags all
    if cls.any fun c => !inClass c s.opFmt then illegalOp s else
    match liftBad l r all (some d.opd) ts with
    | some e => axisOverflow e s
    | none =>
      .next (overMembers l ts
        (fun m s =>
          let n := d.opd.n + m
          let (v, fl) := g (s.venv z (s.maskAt l r ts m)) (r.vAt n)
            (vo.map fun o => r.vAt (memberOf l r ts o m)) (so.map fun o => r.sAt (memberOf l r ts o m))
          match d with
          | .v _ => (s.mapRegs fun r' => r'.setV (.ofNat 6 n) v ts).orFlags fl
          | .k _ => (s.mapRegs fun r' => r'.setK (.ofNat 3 n) (v.setWidth 1024) ts).orFlags fl
          | .sfu _ => s.mapCore fun x => { x.onRegs (·.mark .v (.ofNat 6 n) .empty ts) with
              fills := x.fills ++ [⟨.v, .ofNat 6 n, .value v fl, s.cyc + 12 + .ofNat 64 m⟩] })
        (fun m s => s.mapRegs fun r' => r'.retag d.opd.file (d.opd.n + m) ts) s)) s

/-! ### Vector memory forms (R402 to R404) -/

/-- Bytes of a row of a panel, bytes of a panel, and the offset of its scales (11_formats R231). -/
def panelRow (m : Nat) : Nat := if m = 22 ∨ m = 24 then 32 else 64
def panelData (m : Nat) : Nat := 64 * panelRow m
def panelBytes (m : Nat) : Nat := panelData m + 128

/-- The scale byte of element (r, c) of a panel (R231). -/
def scaleIdx (geom r c : Nat) : Nat :=
  match geom with
  | 1 => 2 * r + c / 32
  | 2 => 64 * (r / 32) + c
  | 3 => 8 * (r / 8) + c / 8
  | 4 => 4 * (r / 16) + c / 16
  | _ => c

/-- An element in memory: its index, its bytes' addresses, the bit of those bytes where it begins, and the
address of its scale byte. -/
structure MElem where
  i : Nat
  addrs : List W
  bit : Nat
  scale : Option W := none
  deriving DecidableEq, Repr

/-- Element i of a contiguous access at a0 in format m; `rel` is the offset of a0 in its extent or page, for
panels. -/
def memElem (m geom rel : Nat) (a0 : W) (i : Nat) : MElem :=
  let w := fmtBits m
  let run := fun (lo n : Nat) => (List.range n).map fun j => a0 + .ofNat 64 (lo + j)
  if m = 18 ∨ m = 19 then ⟨i, run (2 * (i / 4)) 2, 0, none⟩
  else if isBlockFmt m then
    let row := rel / panelBytes m * 64 + rel % panelBytes m / panelRow m + i / 64
    let c := i % 64
    let p := row / 64 * panelBytes m
    let at_ := fun (x : Nat) => a0 + .ofNat 64 x - .ofNat 64 rel
    let bit := if w = 6 then c / 21 * 128 + 6 * (c % 21) else c * w
    let lo := bit / 8
    let n := (bit % 8 + w + 7) / 8
    ⟨i, (List.range n).map fun j => at_ (p + row % 64 * panelRow m + lo + j), bit % 8,
      some (at_ (p + panelData m + scaleIdx geom (row % 64) c))⟩
  else
    let bit := elemPos w i
    ⟨i, run (bit / 8) ((bit % 8 + w + 7) / 8), bit % 8, none⟩

/-- The spare bits of one word of 6-bit elements (R228): two above slot 20; in the fourth word of a panel's row
all above slot 0 (R231). -/
def spareIn (blk : Bool) (j : Nat) : List (Nat × Byte) :=
  if blk && j % 4 == 3 then (0, 0xC0#8) :: (List.range 15).map fun k => (k + 1, 0xFF#8)
  else [(15, 0xC0#8)]

/-- The spare bytes of the words that hold the elements `is` of a contiguous access at a0. -/
def spareOf (m rel : Nat) (a0 : W) (is : List Nat) : List (Nat × W × Byte) :=
  if fmtBits m != 6 then []
  else
    let blk := isBlockFmt m
    let words := (is.map fun i => if blk then i / 64 * 4 + i % 64 / 21 else i / 21).eraseDups
    words.flatMap fun j =>
      let start : W := if blk then
          a0 + .ofNat 64 ((rel / panelBytes m * 64 + rel % panelBytes m / panelRow m + j / 4) / 64 * panelBytes m +
            (rel % panelBytes m / panelRow m + j / 4) % 64 * 64 + j % 4 * 16) - .ofNat 64 rel
        else a0 + .ofNat 64 (16 * j)
      (spareIn blk j).map fun b => (j, start + .ofNat 64 b.1, b.2)

/-- The alignment of R403 for a memory format, or an untyped access in format f. -/
def vAlign (m : Nat) : Nat :=
  match fmtBits m with
  | 6 => 16
  | 16 => 2
  | 32 => 4
  | _ => if m = 18 ∨ m = 19 then 2 else 1

/-- A start that R403 refuses; panels must start at a row. -/
def misaligned (m rel : Nat) (a0 : W) : Bool :=
  if isBlockFmt m then panelData m ≤ rel % panelBytes m || rel % panelBytes m % panelRow m != 0
  else a0.toNat % vAlign m != 0

/-- The forms of a vector memory operation. -/
inductive VForm where
  | cont (o : BitVec 7)
  | indexed
  | strided
  deriving DecidableEq, Repr

/-- Bytes of a memory element. -/
def elemBytes (m : Nat) : Nat := fmtBits m / 8

/-- A conversion that a vector access cannot do (R403, R232): FX128; into or out of block-scaled and Q4 formats
except as a load that rounds to a float format. -/
def noConvert (store : Bool) (m f : Nat) : Bool :=
  m == 26 || ((isBlockFmt m || m == 18 || m == 19) && (store || !isFloatFmt f))

/-- What a vector access needs of one member. -/
structure VMem where
  m : Nat
  /-- the format of the memory: 0 untyped -/
  typed : Nat
  raw : Bool
  elems : List MElem
  /-- spare bytes of words of 6-bit elements: the word, the byte's address, its spare bits -/
  spare : List (Nat × W × Byte)
  deriving DecidableEq, Repr

/-- The elements of one member of a vector access, or the trap of R402, R403: format, alignment. -/
def State.vPlan (s : State) (k : AKind) (form : VForm) (f : Nat) (mask : KReg) (base : W) (idx : VReg)
    (stride : W) : Except (Option Trap) VMem :=
  let n := match form with | .indexed => min 128 (elemCount (fmtBits f)) | _ => elemCount (fmtBits f)
  let act := (List.range n).filter (mbit mask)
  let a0 : W := match form with
    | .cont o => base + 512 * o.signExtend 64
    | .indexed => base
    | .strided => base + .ofNat 64 (act.headD 0) * stride
  let look := fun (va : W) => match s.passes va k with
    | .go l => if tagOfVa va < 5 then some l else none
    | _ => none
  let fmtAt := fun va => ((look va).map (·.attr.fmt)).getD 0
  let firstIdx := fun (es : Nat) => base + sx64 32 (getE 32 (act.headD 0) idx) * .ofNat 64 es
  let mt := match form with
    | .indexed => fmtAt (firstIdx (max 1 (elemBytes f)))
    | _ => fmtAt a0
  let m := if mt = 0 then f else mt
  let raw := mt = 0 ∨ mt = f
  let rel := ((look a0).map fun l => fld a0.toNat 56 0 - l.attr.base).getD 0
  let geom := ((look a0).map (·.attr.geom)).getD 0
  let ill : Except (Option Trap) VMem := .error none
  let algn := fun (v : W) => (.error (some { code := 0x03, info := v }) : Except (Option Trap) VMem)
  if !raw && noConvert (k == .store) m f then ill
  else match form with
    | .cont _ =>
      if misaligned m rel a0 then algn a0
      else
        let all := raw ∧ mt = 0 ∧ k = .load
        .ok ⟨m, mt, raw, act.map (memElem m geom rel a0), spareOf m rel a0 (if all then List.range n else act)⟩
    | _ =>
      if !([8, 16, 32].contains (fmtBits m)) ∨ isBlockFmt m then ill
      else
        let es := elemBytes m
        let addr := fun i => match form with
          | .indexed => base + sx64 32 (getE 32 i idx) * .ofNat 64 es
          | _ => base + .ofNat 64 i * stride
        match (act.map addr).find? fun v => v.toNat % vAlign m != 0 with
        | some v => algn v
        | none => .ok ⟨m, mt, raw, act.map fun i =>
            ⟨i, (List.range es).map fun j => addr i + .ofNat 64 j, 0, none⟩, []⟩

/-- The addresses a plan touches, element by element, with their scale and spare bytes. -/
def VMem.addrs (p : VMem) : List W :=
  p.elems.flatMap (fun e => e.addrs ++ e.scale.toList) ++ p.spare.map (·.2.1)

/-- Bytes of one plan: the load's gathered data in the order of `addrs`, with the bit and scale positions of
its elements. -/
def VMem.layout (p : VMem) : List (Nat × Nat × Option Nat) × List (Nat × Nat × Byte) :=
  let step := fun (acc : Nat × List (Nat × Nat × Option Nat)) (e : MElem) =>
    let n := e.addrs.length + (if e.scale.isSome then 1 else 0)
    (acc.1 + n, acc.2 ++ [(e.i, 8 * acc.1 + e.bit,
      if e.scale.isSome then some (acc.1 + e.addrs.length) else none)])
  let (n, l) := p.elems.foldl step (0, [])
  (l, (p.spare.zip (List.range p.spare.length)).map fun (x, j) => (x.1, n + j, x.2.2))

/-- Memory of another format than the first element's raises ILLEGAL_OP; tags 5 and 6 are untyped (R403). -/
def mixedFmt (p : VMem) (l : List Acc) : Bool :=
  l.any fun a => (if tagOfVa a.va < 5 then a.loc.attr.fmt else 0) != p.typed

/-- A vector load (R402 to R404). -/
def vLoad (i : Instr) (d : BitVec 6) (a : Src) (form : VForm) (b : Option Opd) (z : Bool) (s : State) : Out :=
  withReady i (fun s =>
    if !s.core.memReady then hold s else
    let l := s.lift
    let r := s.regs
    let o := sOpd a.reg
    let all := [o] ++ b.toList ++ s.maskOpd
    let ts := r.tags ([o] ++ b.toList ++ s.maskOpd)
    let f := s.opFmt
    match liftBad l r all (some (vOpd d)) ts with
    | some e => axisOverflow e s
    | none =>
      let live := (List.range (l.extent ts)).filter (l.live ts)
      let plans := live.map fun m =>
        let at_ := fun (o : Opd) => memberOf l r ts o m
        s.vPlan .load form f (s.maskAt l r ts m) (r.sAt (at_ o))
          (match b with | some ⟨.v, n⟩ => r.vAt (at_ ⟨.v, n⟩) | _ => 0)
          (match b with | some ⟨.s, n⟩ => r.sAt (at_ ⟨.s, n⟩) | _ => 0)
      match plans.findSome? fun p => match p with | .error e => some e | .ok _ => none with
      | some (some t) => raise t s
      | some none => illegalOp s
      | none =>
        let ps := plans.filterMap fun p => match p with | .ok v => some v | .error _ => none
        match ps.mapM fun p => s.admitAll .load (p.addrs.map fun v => (v, 1)) with
        | .error e => notAdmitted e s
        | .ok ass =>
          if (ps.zip ass).any fun (p, as) => mixedFmt p as then illegalOp s
          else loadChecks s.vunit ass.flatten (fun s =>
            let s := s.takeLock s.vunit
            let s := overMembers l ts (fun _ s => s)
              (fun m s => s.mapRegs fun r' => r'.retag .v (d.toNat + m) ts) s
            .next ((live.zip (ps.zip ass)).foldl (fun (s : State) (m, p, as) =>
              let dst : BitVec 6 := .ofNat 6 (d.toNat + m)
              let shared := as.any fun c => !loadIsLocal c.va c.loc
              let (el, sp) := p.layout
              if s.follows && shared then s.awaitForward .v dst ts
              else (s.useBanks s.vunit (ownOffs as) [(.v, dst.toNat)] m).issueLoad (.v, dst) ts (as.flatMap (·.places))
                (.vector p.m f p.raw s.vRm.toNat s.vSat z el sp (p.typed != 0)) none
                (shared && s.leads)) s)) s) s

/-- The bytes one element of a store writes: address, byte, mask of its bits. -/
def elemStore (w : Nat) (e : MElem) (code : Nat) : List (W × Byte × Byte) :=
  let v := code % 2 ^ w * 2 ^ e.bit
  let k := (2 ^ w - 1) * 2 ^ e.bit
  (e.addrs.zip (List.range e.addrs.length)).map fun (a, j) =>
    (a, .ofNat 8 (v / 2 ^ (8 * j)), .ofNat 8 (k / 2 ^ (8 * j)))

/-- Writes to one byte join, the later ones over the earlier. -/
def mergeBytes (l : List (W × Byte × Byte)) : List (W × Byte × Byte) :=
  l.foldl (fun acc x =>
    if acc.any (·.1 == x.1) then
      acc.map fun y => if y.1 == x.1 then (y.1, (y.2.1 &&& ~~~x.2.2) ||| (x.2.1 &&& x.2.2), y.2.2 ||| x.2.2) else y
    else acc ++ [(x.1, x.2.1 &&& x.2.2, x.2.2)]) []

/-- The bytes of a contiguous store whose elements fill whole bytes: no byte is written twice. -/
def storeBytes (p : VMem) (contig : Bool) (codes : List Nat) : List (W × Byte × Byte) :=
  let w := fmtBits p.m
  let l := (p.elems.zip codes).flatMap fun (e, c) => elemStore w e c
  let l := l ++ p.spare.map fun x => (x.2.1, 0, x.2.2)
  if contig && 8 ≤ w then l else mergeBytes l

/-- A vector store: z is always 0, the mask k0 (R384). -/
def vStore (i : Instr) (d : BitVec 6) (a : Src) (form : VForm) (b : Option Opd) (s : State) : Out :=
  withReady i (fun s =>
    if !s.core.memReady then hold s else
    let l := s.lift
    let r := s.regs
    let o := sOpd a.reg
    let v := vOpd d
    let adr := [o] ++ b.toList
    let ts := r.tags (adr ++ [v])
    let f := s.opFmt
    if r.tags adr = 0 ∧ r.tagOf v ≠ 0 then axisCollision s else
    match liftBad l r (adr ++ [v]) none ts with
    | some e => axisOverflow e s
    | none =>
      let live := (List.range (l.extent ts)).filter (l.live ts)
      let plans := live.map fun m =>
        let at_ := fun (o : Opd) => memberOf l r ts o m
        s.vPlan .store form f (BitVec.allOnes 1024) (r.sAt (at_ o))
          (match b with | some ⟨.v, n⟩ => r.vAt (at_ ⟨.v, n⟩) | _ => 0)
          (match b with | some ⟨.s, n⟩ => r.sAt (at_ ⟨.s, n⟩) | _ => 0)
      match plans.findSome? fun p => match p with | .error e => some e | .ok _ => none with
      | some (some t) => raise t s
      | some none => illegalOp s
      | none =>
        let ps := plans.filterMap fun p => match p with | .ok v => some v | .error _ => none
        match ps.mapM fun p => s.admitAll .store (p.addrs.map fun v => (v, 1)) with
        | .error e => notAdmitted e s
        | .ok ass =>
          if (ps.zip ass).any fun (p, as) => mixedFmt p as then illegalOp s
          else
            let conv := (live.zip ps).map fun (m, p) =>
              let src := r.vAt (memberOf l r ts v m)
              p.elems.map fun e =>
                let c := getE (fmtBits f) e.i src
                if p.raw then (c, (0 : Flags)) else convTo p.m s.vRm.toNat s.vSat (decodeNum f c)
            let fl := conv.flatten.foldl (fun a c => a ||| c.2) (0 : Flags)
            let jobs := (ps.zip (ass.zip conv)).flatMap fun (p, as, cs) =>
              let bytes := storeBytes p (match form with | .cont _ => true | _ => false) (cs.map (·.1))
              (beatsVa bytes).filterMap fun bs =>
                match bs with
                | [] => none
                | x :: _ => (as.find? fun c => c.va == x.1).map fun c => (c, bs)
            match storeAll s.vunit jobs none s with
            | .next t => .next (if t.issue.held then t else t.orFlags fl)
            | q => q) s
where
  /-- Bytes by the 256-byte block that holds them, ascending. -/
  beatsVa (l : List (W × Byte × Byte)) : List (List (W × Byte × Byte)) :=
    ((l.map fun x => x.1.toNat / 256).eraseDups.foldl numInsert []).map fun b => l.filter fun x => x.1.toNat / 256 == b

end Sys2Proof.Machine
end

