-- ==== Sys2Proof/Machine/Flags.lean ====
section
/-!
DEFINITION. Flags and control registers: what each control register reads, and what a write changes
(10_core R199 to R204, R218; 14_scalar R299 to R301; 07_faults R130, R144, R148; 09_redundancy R176).
-/

namespace Sys2Proof.Machine

/-- STATUS (R200). -/
def Csr.status (c : Csr) : W :=
  .ofNat 64 (c.xclr.toNat * 2 ^ 16 + b2n c.tt * 128 + b2n c.deg * 64 + b2n c.discard * 32 +
    b2n c.scopemiss * 16 + b2n c.rvt * 8 + b2n c.hm * 4)

/-- VFMT (R201). -/
def Csr.vfmt (c : Csr) : W := .ofNat 64 (b2n c.sat * 2 ^ 15 + c.rm.toNat * 2 ^ 12 + c.fmt.toNat)

/-- SLACK, FRAMECNT, CORENUM (R203), REPLICA (R176). -/
def Csr.slack (c : Csr) : W := .ofNat 64 (c.limit.toNat * 2 ^ 32 + c.debt.toNat)
def Csr.framecnt (c : Csr) : W :=
  .ofNat 64 (c.fnum.toNat * 2 ^ 32 + c.flen.toNat * 2 ^ 16 + c.cnt.toNat)
def Csr.corenum (c : Csr) : W :=
  .ofNat 64 (c.part.toNat * 2 ^ 16 + c.prel.toNat * 2 ^ 8 + c.coreno.toNat)
def Csr.replica (c : Csr) : W :=
  .ofNat 64 (c.nrep.toNat * 64 + c.self.toNat * 16 + c.lead.toNat * 4)

/-- LIFTX (R218): level k of the lift, 1 the outermost. -/
def Lift.level (l : Lift) (k : Nat) : Nat × Nat :=
  match l.levels.reverse[k - 1]? with
  | some v => (v.tag.toNat, v.ext)
  | none => (0, 0)
def Lift.liftx (l : Lift) : W :=
  let f := fun k => l.level k
  .ofNat 64 ((f 3).1 * 2 ^ 34 + (f 3).2 * 2 ^ 27 + (f 2).1 * 2 ^ 25 + (f 2).2 * 2 ^ 18 +
    (f 1).1 * 2 ^ 16 + (f 1).2 * 2 ^ 9 + l.prod * 4 + l.levels.length)

/-- PARTCFG (07_faults R148) of partition p. -/
def Part.cfg (x : Part) (p : PartId) : W :=
  .ofNat 64 (x.wdog.toNat * 2 ^ 32 + b2n x.tt * 256 + b2n x.fatal * 16 + p.val)

/-- What control register n reads on the executing core, as it stood before the group (14_scalar R301); none when the number
is not listed (R199). -/
def State.readCsr (s : State) (n : Nat) : Option W :=
  let c := s.csrWas
  match n with
  | 0x00 => some c.status
  | 0x01 => some c.tvec
  | 0x02 => some c.trappc
  | 0x03 => some c.trapcause
  | 0x04 => some c.trapinfo
  | 0x05 => some c.faultmask
  | 0x06 => some c.vfmt
  | 0x07 => some (c.fpflags.setWidth 64)
  | 0x08 => some (c.profile.setWidth 64)
  | 0x09 => some c.slack
  | 0x0A => some c.framecnt
  | 0x0B => some s.cyc
  | 0x0C => some c.corenum
  | 0x0D => some c.replica
  | 0x0E => some s.lift.liftx
  | 0x0F => some s.lift.lmask
  | 0x10 => some c.rowprog
  | 0x11 => some (c.cprog.get 0)
  | 0x12 => some (c.cprog.get 1)
  | 0x13 => some c.keepmap
  | 0x14 => some ((s.partAt c.part.toFin).cfg c.part.toFin)
  | _ => none

/-- VFMT takes a value: FMT and RM keep theirs when the value's is reserved (R201, 11_formats R221). -/
def Csr.writeVfmt (c : Csr) (v : W) : Csr :=
  let f := fld v.toNat 4 0
  let m := fld v.toNat 14 12
  { c with
    fmt := if f ≤ 16 ∨ f = 25 then .ofNat 5 f else c.fmt
    rm := if m ≤ 4 then .ofNat 3 m else c.rm
    sat := bitOf v.toNat 15 }

/-- WriteCsr (R300): the fields of each register that take a written value. -/
def Csr.write (c : Csr) (n : Nat) (v : W) : Csr :=
  match n with
  | 0x00 => { c with
      xclr := .ofNat 8 (fld v.toNat 23 16), rvt := bitOf v.toNat 3
      discard := c.discard && bitOf v.toNat 5, scopemiss := c.scopemiss && bitOf v.toNat 4 }
  | 0x01 => { c with tvec := v &&& 0x8000000000007FFC#64 }
  | 0x02 => { c with trappc := v &&& 0x7FFF#64 }
  | 0x06 => c.writeVfmt v
  | 0x07 => { c with fpflags := v.setWidth 7 }
  | 0x08 => if fld v.toNat 5 0 ≤ 11 then { c with profile := v.setWidth 6 } else c
  | _ => c

def MOp.isCall : MOp → Bool
  | .call .. => true
  | _ => false

/-- Every V operation and every call that the core has issued has completed (R301): no vector or mask register awaits a
result or data, and no call waits or runs. -/
def Core.flagsSettled (x : Core) (now : W) : Bool :=
  (x.fills.all fun f => match f.src with | .value .. => f.file != .v | _ => true) &&
  (x.loads.all fun r => match r.dst with | some (.v, _) => false | _ => true) &&
  (x.busy.all fun b => (b.1 != .v && b.1 != .k) || decide (b.2.2.toNat ≤ now.toNat)) &&
  x.matrix.queue.all (!·.op.isCall) && x.matrix.run.all (!·.cmd.op.isCall)

/-- The V operations and the calls of the groups before this one have completed. -/
def State.flagsSettled (s : State) : Bool :=
  match s.issue.before with
  | some b => b.settled
  | none => s.core.flagsSettled s.cyc

/-- A control register takes a value for the groups after this one; the flags that V operations of the group raise join
FPFLAGS after it (R301). -/
def State.writeCsr (s : State) (n : Nat) (v : W) : State :=
  s.mapCsr fun c =>
    let r := c.write n v
    if n = 7 then { r with fpflags := r.fpflags ||| s.issue.flags } else r

/-- A control register operation (R299): the old value goes to sd untagged, the new value is written; CYC and SLACK are
forwarded by a leader (14_scalar R290). -/
def csrOp (i : Instr) (d : BitVec 6) (n : Nat) (a : Option Src) (f : W → W → W) (s : State) : Out :=
  withReady i (fun s =>
    match s.readCsr n with
    | none => illegalOp s
    | some old =>
      if a.any fun x => s.regs.tagOf (sOpd x.reg) != 0 then axisCollision s
      else if n = 7 ∧ !s.flagsSettled then hold s
      else
        let shared := n = 0x0B ∨ n = 0x09
        let s := match a with
          | some x => s.writeCsr n (f old (s.regs.getS x.reg))
          | none => s
        if shared ∧ s.follows then .next (s.awaitForward .s d 0)
        else
          let s := s.mapRegs fun r => r.setS d old
          .next (if shared ∧ s.leads then s.sendFwd (ofS old) else s)) s

end Sys2Proof.Machine
end

