-- ==== Sys2Proof/Machine/Place.lean ====
section
/-!
DEFINITION. Priorities and placements of nodes (06_scheduler R112 to R114, R123), node boundaries (07_faults
R143), and what b.done, b.trig and b.park do to instances.
-/

namespace Sys2Proof.Machine

/-- Microseconds in ac cycles of 1.5 GHz (00_scope R5). -/
def us (n : Nat) : Nat := 1500 * n

/-! ### Priorities (R112) -/

/-- The effective priority of an instance in a pool. -/
def State.effPrio (s : State) (i : Inst) : Nat := min 7 (i.base + (s.cyc - i.entered).toNat / us 200)

/-- a stands before b in the order of R112. -/
def State.ahead (s : State) (a b : Inst) : Bool :=
  let p := s.effPrio a
  let q := s.effPrio b
  decide (q < p) || (p == q && readyBefore a b)

/-- Insertion into the order, and the order itself. -/
def State.orderIn (s : State) (i : Inst) : List Inst → List Inst
  | [] => [i]
  | j :: r => if s.ahead i j then i :: j :: r else j :: s.orderIn i r
def State.inOrder (s : State) (l : List Inst) : List Inst := l.foldl (fun acc i => s.orderIn i acc) []

/-! ### Placements (R113, R114) -/

def State.degraded (s : State) (c : CoreId) : Bool := s.fw.lostVec.contains c || s.fw.lostCopy.contains c

/-- The number of seats a node asks for (R106). -/
def seatsOf (n : NodeDesc) : Nat :=
  match fld n.demand.toNat 7 6 with
  | 1 => fld n.demand.toNat 4 0
  | 2 => fld n.demand.toNat 3 2 * fld n.demand.toNat 1 0
  | _ => 1

def isGang (n : NodeDesc) : Bool := fld n.demand.toNat 7 6 != 0

/-- The cores of replica r of a seat whose leader core is c (R114). -/
def replicaCore (r : Nat) (c : CoreId) : CoreId :=
  match r with
  | 0 => c
  | 1 => toCore (c.val + 128)
  | _ => toCore ((c.val / 16 + 1) % 8 * 16 + (c.val % 16 + 8) % 16)

/-- The leader's cores of a placement that begins at a core. -/
def runFrom (first n : Nat) : List CoreId := (List.range n).map fun k => toCore (first + k)

/-- Every core of a placement, replicas included. -/
def withReplicas (redun : Nat) (l : List CoreId) : List CoreId :=
  (List.range redun).flatMap fun r => l.map (replicaCore r)

/-- A core is held by a reservation of another instance, for any of its replicas (R125). -/
def State.reservedFrom (s : State) (id : Nat) (c : CoreId) : Bool :=
  s.sched.reserved.any fun r => r.2.1 != id && match s.instAt r.2.1 with
    | some i => (withReplicas i.redun (runFrom r.2.2 (((s.descOf i).map seatsOf).getD 1))).contains c
    | none => false

/-- A core may be given to an instance of a partition once nothing runs on it: it is present, meets DEGOK, and no other
reservation holds it. -/
def State.coreFits (s : State) (p : PartId) (id : Nat) (degok : Bool) (c : CoreId) : Bool :=
  s.ownsRoom p (c.val / 16) && !s.fw.absent.contains c && (degok || !s.degraded c) && !s.fw.hot && !s.reservedFrom id c

/-- A core is free for an instance of a partition: it fits, and runs nothing. -/
def State.coreFree (s : State) (p : PartId) (id : Nat) (degok : Bool) (c : CoreId) : Bool :=
  s.coreFits p id degok c && (s.coreAt c).node.inst.isNone

/-- A placement's first core is a possible one for n seats: in a classroom, aligned to N (R113). -/
def startOk (first n : Nat) : Bool :=
  first < 256 && first % 16 % pow2Up n == 0 && first % 16 + n ≤ 16

/-- The first cores an instance may start from on die d: its pin, or every aligned start. A redundant node's leader
stands on die E (R114). -/
def State.starts (s : State) (i : Inst) (n : NodeDesc) (d : Die) : List Nat :=
  if bitOf n.pin.toNat 15 then
    match (s.partCores i.vf)[fld n.pin.toNat 7 0]? with
    | some c => if i.redun ≤ 1 || c.val < 128 then [c.val] else []
    | none => []
  else
    (List.range 256).filter fun c => startOk c (seatsOf n) && dieOf (toCore c) == d

/-- The free placements of an instance on die d, the cores in `also` counted as running nothing. -/
def State.placements (s : State) (i : Inst) (n : NodeDesc) (d : Die) (also : List CoreId) : List Nat :=
  let degok := bitOf n.engines.toNat 0 && !i.tt
  if isGang n && s.sched.groups.length ≥ 256 then []
  else (s.starts i n d).filter fun c => startOk c (seatsOf n) &&
    (withReplicas i.redun (runFrom c (seatsOf n))).all fun k =>
      s.coreFree i.vf i.id degok k || (also.contains k && s.coreFits i.vf i.id degok k)

/-- The half of a core that holds a graph's segment (R113 rule 1: the active half). -/
def State.holdsSegment (s : State) (i : Inst) (n : NodeDesc) (c : CoreId) : Bool :=
  let x := s.coreAt c
  x.node.seg.get (if x.seq.pc.half then 1 else 0) == some (i.graph, n.codeOff, n.code.length)

/-- The scheduler's choice among free placements (R113): segment already held, fewest degraded cores, lowest
first core; a placement's cores are those of every replica. -/
def State.choose (s : State) (i : Inst) (n : NodeDesc) (l : List Nat) : Option Nat :=
  let cores := fun c => withReplicas i.redun (runFrom c (seatsOf n))
  let cost := fun c =>
    (if (cores c).all (s.holdsSegment i n) then 0 else 1000000) +
    1000 * ((cores c).filter s.degraded).length + c
  l.foldl (fun acc c => match acc with
    | none => some c
    | some b => if cost c < cost b then some c else some b) none

/-! ### Seats -/

/-- The seats of an instance whose leader replica has executed b.trig or b.done. -/
def State.seatTrig (s : State) (id : Nat) (seat : Nat) (d : Die) : State :=
  match s.instAt id with
  | none => s
  | some i =>
    if i.early ∨ i.trigs.contains seat then s
    else
      let s := s.onInst id fun i => { i with trigs := i.trigs ++ [seat] }
      let seats := (s.instCores id).map fun c => (s.coreAt c).node.seat
      if seats.all fun k => k == seat || i.trigs.contains k then
        (s.onInst id fun i => { i with early := true }).countEdges i true d
      else s

/-- A bit mask of the queues that hold an entry (07_faults R132). -/
def Core.queueMask (x : Core) : Nat :=
  ((List.finRange 16).map fun q => if (x.queues.get q).count = 0 then 0 else 2 ^ q.val).sum

/-- Every engine command of the core has completed. -/
def Core.enginesIdle (x : Core) : Bool :=
  x.matrix.queue.isEmpty && x.matrix.run.isNone &&
  (x.copy.get 0).queue.isEmpty && (x.copy.get 0).run.isNone &&
  (x.copy.get 1).queue.isEmpty && (x.copy.get 1).run.isNone

/-- The running command of a copy context stands: it has stopped, or it has been resumed and the commands that the handler
gave the other context have not all completed (R137). -/
def Core.runHeld (x : Core) (i : Ctx) : Bool :=
  (x.copy.get i).run.any fun r => r.stop.isSome ||
    r.behind.any fun n => decide ((x.tlAt (if i = 0 then 1 else 0)).val.toNat < n)

/-! ### Node boundaries (R143, R144) -/

/-- The offset at which a program finds a byte of scratch, and the byte of an offset: the live bank stands at
0x20_0000 (10_core R209, R210). -/
def Core.scratchSwap (x : Core) (a : Nat) : Nat :=
  if x.live1 && 0x200000 ≤ a && a < 0x300000 then (if a < 0x280000 then a + 0x80000 else a - 0x80000) else a

/-- A block of 64 KiB is kept. -/
def keepsBlock (km : W) (g : Nat) : Bool := g < 48 && bitOf km.toNat g

/-- The scratch bytes a keep map keeps, by offset: private blocks, the live exchange bank, the shadow bank. -/
def Core.kept (x : Core) : List Host.Cell :=
  (x.scratch.cells.map fun c => (x.scratchSwap c.1, c.2)).filter fun c => keepsBlock x.csr.keepmap (c.1 / 0x10000)

/-- Their poisoned words, by offset. -/
def Core.keptBad (x : Core) : List Nat :=
  (x.scratch.poison.map x.scratchSwap).filter fun a => keepsBlock x.csr.keepmap (a / 0x10000)

/-- Kept bytes come back: the blocks that are kept hold them and nothing else. -/
def Core.restoreKept (x : Core) (km : W) (l : List Host.Cell) (bad : List Nat) : Memory :=
  let clear : Memory := ⟨x.scratch.cells.filter fun c => !keepsBlock km (x.scratchSwap c.1 / 0x10000),
    x.scratch.poison.filter fun a => !keepsBlock km (x.scratchSwap a / 0x10000)⟩
  let m := l.foldl (fun m c => m.write (x.scratchSwap c.1) c.2) clear
  bad.foldl (fun m a => m.poisonAt (x.scratchSwap a)) m

def Core.keptAcc (x : Core) : List (Nat × VReg) :=
  (List.finRange 512).filterMap fun r =>
    if bitOf x.csr.keepmap.toNat (48 + r.val / 64) then some (r.val, x.acc.get r) else none

/-- The poisoned words of the accumulator rows that are kept. -/
def Core.keptAccBad (x : Core) : List (Nat × Nat) :=
  x.accPoison.filter fun a => bitOf x.csr.keepmap.toNat (48 + a.1 / 64)

/-- The saved state of an instance at its boundary: the seats of the replica that leads now, in order (09_redundancy R187,
R188). -/
def State.saveNode (s : State) (id : Nat) (nsave : Nat) : SavedNode :=
  let lead := (s.instCores id).filter fun c =>
    (s.coreAt c).csr.self == (s.coreAt c).csr.lead && !(s.coreAt c).redun.retired
  let xs := lead.map s.coreAt
  { regs := xs.map fun x => (List.range nsave).map fun k =>
      (x.regs.getS (.ofNat 6 (k + 1)), x.regs.statusS (.ofNat 6 (k + 1)))
    scratch := xs.map fun x => (x.kept, x.keptBad)
    acc := xs.map fun x => (x.keptAcc, x.keptAccBad)
    resume := xs.map fun x => if x.seq.npc.slot = 0 then x.seq.npc.bundle else x.seq.npc.bundle + 1 }

/-- An instance leaves its cores at a node boundary. -/
def State.leaveCores (s : State) (id : Nat) : State :=
  match s.instAt id with
  | none => s
  | some i =>
    let n := ((s.descOf i).map (·.nsave.toNat)).getD 0
    let sv := s.saveNode id n
    let s := (s.releaseCores id).onInst id fun i => { i with saved := some sv }
    s.onSched fun h => { h with tasks := h.tasks.map fun t => if t.inst == id then { t with fwd := none } else t }

/-- Every other seat of the executing core's node meets a condition. -/
def State.allSeats (s : State) (f : Core → Bool) : Bool :=
  match s.core.node.inst with
  | none => true
  | some id => ((s.instCores id).filter (· != s.cur)).all fun c => f (s.coreAt c)

/-- PHASE of a group entry (R117). -/
def State.phase (s : State) (e : BitVec 8) : BitVec 32 :=
  ((s.sched.groups.find? fun g => g.1 == e).map fun g => g.2.phase).getD 0

/-- The node of the executing core parks on an entry: every seat has executed b.park (R122). -/
def State.parkNode (s : State) (id : Nat) (e : BitVec 8) (p0 : BitVec 32) : State :=
  let d := dieOf s.cur
  let s := s.leaveCores id
  if s.phase e != p0 then s.makeReady id d
  else s.onInst id fun i => { i with state := .parked e p0 }

/-- R123: a ready instance of the partition has a higher effective priority than the running one, no free
placement, and would have one on the cores of the running one. -/
def State.preempts (s : State) (id : Nat) : Bool :=
  match s.instAt id with
  | none => false
  | some me =>
    let mine := s.instCores id
    s.sched.insts.any fun i => i.state == .ready && i.vf == me.vf && me.running < s.effPrio i &&
      match s.descOf i with
      | none => false
      | some n => (s.placements i n i.die []).isEmpty && !(s.placements i n i.die mine).isEmpty

end Sys2Proof.Machine
end

