-- ==== Sys2Proof/Machine/Branch.lean ====
section
/-!
DEFINITION. The B operations: branches, loops, traps and returns, split branches, node control, instruction
halves, sleeping on a promise (14_scalar R303 to R317; 06_scheduler R119 to R123).
-/

namespace Sys2Proof.Machine

/-! ### Branches (R193, R303) -/

/-- The next group begins at slot 0 of a bundle of the same half; `pops` when the branch pops the loops it
leaves (R306). -/
def State.branch (s : State) (b : Nat) (pops : Bool) : State :=
  let s := s.mapSeq fun q => { q with npc := ⟨q.pc.half, b % 4096, 0⟩ }
  { s with issue := { s.issue with redirect := some pops } }

/-- The bundle of an offset from the operation's own bundle. -/
def State.offBundle (s : State) (n off : Nat) : Nat :=
  ((s.issue.ctx.bundle : Int) + (sx64 n off).toInt).emod 4096 |>.toNat

/-- The full-product members that execute, all of the one member at depth 0. -/
def Lift.active (l : Lift) : List Nat :=
  (List.range l.prod).filter fun m => l.levels.isEmpty || bitOf l.lmask.toNat m

/-- What each active full-product member reads of an s register, or of a predicate. -/
def State.eachS (s : State) (r : BitVec 6) : List W :=
  s.lift.active.map fun m => s.regs.getS (.ofNat 6 (memberOf s.lift s.regs s.lift.full (sOpd r) m))
def State.eachP (s : State) (p : BitVec 3) : List (Nat × Bool) :=
  s.lift.active.map fun m =>
    (m, s.regs.getP (.ofNat 3 (memberOf s.lift s.regs s.lift.full ⟨.p, p.toNat⟩ m)))

/-- An operand whose active members must agree: its value, or LIFT_DIVERGE. -/
def agreed (r : BitVec 6) (body : W → State → Out) (s : State) : Out :=
  match misnamed s.lift .s r.toNat (s.regs.tagOf (sOpd r)) with
  | some e => axisOverflow e s
  | none =>
    match s.eachS r with
    | [] => body (s.regs.getS r) s
    | v :: vs => if vs.all (· == v) then body v s else raise { code := 0x17 } s

/-- b.br (R303). -/
def execBBr (o : BitVec 18) (s : State) : Out :=
  withReady (.bBr o) (fun s => .next (s.branch (s.offBundle 18 o.toNat) true)) s

/-- A mask of member numbers. -/
def maskOf (l : List Nat) : W := .ofNat 64 ((l.map (2 ^ ·)).sum)

/-- b.bp (R303, R309). -/
def execBBp (p : BitVec 3) (n : Bool) (o : BitVec 18) (s : State) : Out :=
  withReady (.bBp p n o) (fun s =>
    let l := s.lift
    let tgt := s.offBundle 18 o.toNat
    match misnamed l .p p.toNat (s.regs.tagOf ⟨.p, p.toNat⟩) with
    | some e => axisOverflow e s
    | none =>
      let ms := s.eachP p
      let yes := (ms.filter fun x => x.2 != n).map (·.1)
      if yes.length = ms.length then .next (s.branch tgt true)
      else if yes.isEmpty then .next s
      else
        let t := maskOf yes
        if !s.issue.ctx.split then raise { code := 0x17, info := t } s
        else if s.core.seq.splits.length ≥ 4 then axisOverflow l.prod s
        else
          let e : SplitEnt := ⟨l.lmask, t, s.core.seq.npc, false, l.levels.length⟩
          .next ((s.mapCore fun x => { x with
            lift := { x.lift with lmask := l.lmask &&& t, ceil := l.lmask &&& t }
            seq := { x.seq with splits := e :: x.seq.splits } }).branch tgt true)) s

/-- b.join (R310). -/
def execBJoin (s : State) : Out :=
  withReady .bJoin (fun s =>
    match s.core.seq.splits with
    | [] => .next s
    | e :: r =>
      let m := if e.second then e.lmask else e.lmask &&& ~~~e.yes
      let s := s.mapCore fun x => { x with
        lift := { x.lift with lmask := m, ceil := m }
        seq := { x.seq with splits := if e.second then r else { e with second := true } :: r } }
      if e.second then .next s
      else .next { s.mapSeq fun q => { q with npc := e.fall } with
        issue := { s.issue with redirect := some false } }) s

/-- The index of the bundle after the group (R303). -/
def State.linkBundle (s : State) : Nat :=
  let p := s.core.seq.npc
  if p.slot = 0 then p.bundle else p.bundle + 1

/-- b.jal (R303). -/
def execBJal (o : BitVec 18) (s : State) : Out :=
  withReady (.bJal o) (fun s =>
    let link : W := .ofNat 64 s.linkBundle
    .next ((s.mapRegs fun r => r.setS 60 link).branch (s.offBundle 18 o.toNat) false)) s

/-- b.jr (R303). -/
def execBJr (r : BitVec 6) (s : State) : Out :=
  withReady (.bJr r) (agreed r fun v s => .next (s.branch (v.toNat % 4096) false)) s

/-! ### Loops (R305, R306) -/

/-- A loop is opened: at most four entries, the oldest leaving; a count of 0 goes past the end bundle. -/
def State.openLoop (s : State) (count : W) (e : Nat) : State :=
  let last := s.issue.ctx.bundle + e
  if count = 0 then
    let s := s.mapSeq fun q => { q with npc := ⟨q.pc.half, last + 1, 0⟩ }
    { s with issue := { s.issue with redirect := some false, noLoop := true } }
  else
    let s := s.mapSeq fun q => { q with loops := (⟨q.npc, last, count⟩ :: q.loops).take 4 }
    { s with issue := { s.issue with redirect := some false } }

/-- b.loop (R305). -/
def execBLoop (c : BitVec 6) (o : BitVec 12) (s : State) : Out :=
  withReady (.bLoop c o) (agreed c fun v s => .next (s.openLoop v o.toNat)) s

/-- b.loopi (R305). -/
def execBLoopi (c : BitVec 8) (o : BitVec 10) (s : State) : Out :=
  withReady (.bLoopi c o) (fun s => .next (s.openLoop (c.setWidth 64) o.toNat)) s

/-! ### Traps and return (R307, R308) -/

/-- b.trap (R307). -/
def execBTrap (p : BitVec 3) (n : Bool) (c : BitVec 18) (s : State) : Out :=
  withReady (.bTrap p n c) (fun s =>
    match misnamed s.lift .p p.toNat (s.regs.tagOf ⟨.p, p.toNat⟩) with
    | some e => axisOverflow e s
    | none =>
      if (s.eachP p).any fun x => x.2 != n then raiseAfter { code := 0x04, info := c.setWidth 64 } s
      else .next s) s

/-- The matrix engine goes on from the fault it has reported: the load from its next row, a tile fetch with another
read of ALEN and PLEN, or u.wb in full (23_matrix R436, 24_prog_attention R443). -/
def MRun.resume (r : MRun) : MRun :=
  let go := fun (q : PipeRun) => { q with stop := none, lens := none, page := none, pins := [] }
  match r.reported with
  | none => r
  | some k =>
    { r with
      reported := none, stop := if k = 4 then none else r.stop
      pipes := r.pipes.mapFinIdx fun i l _ => match l with
        | q :: t => if i = k then go q :: t else q :: t
        | [] => [] }

/-- The engine commands that a trap of class A stopped go on (07_faults R131, 10_core R204). -/
def Core.resumeEngine (engine : Nat) (x : Core) : Core :=
  match engine with
  | 3 => { x with
      csr := { x.csr with rowprog := x.csr.rowprog &&& 0x7FFFFFFFFFFFFFFF#64 }
      matrix := { x.matrix with run := x.matrix.run.map (·.resume) } }
  | 4 => go 0 x
  | 5 => go 1 x
  | _ => x
where
  /-- The stopped command waits for the commands that the handler has given the other instance (07_faults R137). -/
  go (i : Ctx) (x : Core) : Core :=
    let o : Ctx := if i = 0 then 1 else 0
    let n := (x.tlAt ⟨o.val, by omega⟩).issued.toNat
    { x with
      csr := { x.csr with cprog := x.csr.cprog.set i.val (x.csr.cprog.get i &&& 0x7FFFFFFFFFFFFFFF#64) i.isLt }
      copy := x.copy.set i.val (let k := x.copy.get i
        { k with run := k.run.map fun r => { r with
          stop := none, behind := if x.seq.took.2.get o < n then some n else none } }) i.isLt }

/-- The retired replicas of the executing core's seat, whose engines may still run commands for the others (09_redundancy
R187). -/
def State.retiredSeats (s : State) : List CoreId :=
  match s.core.node.inst with
  | none => []
  | some id => (s.instCores id).filter fun c => (s.coreAt c).redun.retired && (s.coreAt c).node.seat == s.core.node.seat

/-- b.tret (R308): outside handler mode it has no effect. SYNCDONE makes the group's sync field ignored only
after a trap of class P, and only a trap of class A has an engine command to resume (07_faults R131). -/
def execBTret (s : State) : Out :=
  withReady .bTret (fun s =>
    if !s.csr.hm then .next s
    else
      let cause := s.csr.trapcause.toNat
      let s := s.mapCore fun x =>
        let p : Trap := { code := fld cause 7 0, async := bitOf cause 63, info := x.csr.trapinfo, probe := true }
        let y := (if p.cls = .a then x.resumeEngine (fld cause 62 60) else x).trapReturn
        { y with seq := { y.seq with skipSync := y.seq.skipSync && p.cls == .p } }
      let s := if fld cause 62 60 = 4 ∨ fld cause 62 60 = 5 then
          s.retiredSeats.foldl (fun s g => s.onCore g (·.resumeEngine (fld cause 62 60))) s
        else s
      .next { s with issue := { s.issue with redirect := some false } }) s

/-! ### Node control (R311 to R314) -/

/-- The seat has executed b.done, b.park or b.yield, which its watchdog looks for (07_faults R149). -/
def Core.stands (x : Core) : Core := { x with node := { x.node with stood := true } }

/-- b.done (R311). -/
def execBDone (s : State) : Out :=
  withReady .bDone (fun s =>
    if !s.core.enginesIdle then hold s
    else comparePoint 0 (fun s =>
      let x := s.core
      if !x.openIds.isEmpty then hold s
      else if x.queueMask ≠ 0 then raise { code := 0x19, info := .ofNat 64 x.queueMask } s
      else
        let s := (s.mapCore fun x => x.drain.stands).mapSeq fun q => { q with mode := .done, pend := [] }
        match x.node.inst with
        | none => .next s
        | some id =>
          let d := dieOf s.cur
          let s := if s.isLeader then s.seatTrig id x.node.seat d else s
          .next (if s.allSeats fun y => y.seq.mode == .done || y.redun.retired
            then s.completeInst id d else s)) s) s

/-- The cores of a node stand at a boundary: one still works, one has a queue that is not empty, or it may be
left (07_faults R143); a pending q.fin or other producer is waited for (16_sync R359). -/
inductive Boundary where
  | wait
  | queues (mask : Nat)
  | ok
  deriving DecidableEq, Repr

def State.boundary (s : State) (l : List CoreId) : Boundary :=
  let xs := (l.map s.coreAt).filter fun x => !x.redun.retired
  if xs.any fun x => !x.enginesIdle || !x.openIds.isEmpty || !x.fills.isEmpty then .wait
  else match xs.find? fun x => x.queueMask != 0 with
    | some x => .queues x.queueMask
    | none => .ok

/-- b.yield (R312, R123): the last seat to reach it decides for the node. -/
def execBYield (s : State) : Out :=
  withReady .bYield (fun s =>
    if s.csr.hm then .next s else comparePoint 4 (fun s =>
      match s.core.node.inst with
      | none => .next s
      | some id =>
        if !(s.allSeats fun y => y.seq.mode == .yielded || y.redun.retired) then
          .next (s.mapCore fun x => x.stands.onSeq fun q => { q with mode := .yielded })
        else if s.preempts id then
          match s.boundary (s.instCores id) with
          | .wait => hold s
          | .queues m => raise { code := 0x19, info := .ofNat 64 m } s
          | .ok => .next ((s.leaveCores id).makeReady id (dieOf s.cur))
        else .next ((s.mapCore Core.stands).onCores (fun _ y => y.node.inst == some id && y.seq.mode == .yielded)
          fun y => y.onSeq fun q => { q with mode := .running })) s) s

/-- b.park (R312, R122). -/
def execBPark (m : BitVec 2) (s : State) : Out :=
  withReady (.bPark m) (fun s =>
    let gm := s.regs.gm.get m.toFin
    if s.csr.hm then .next s
    else if !bitOf gm.toNat 8 then raise { code := 0x14, info := m.setWidth 64 } s
    else comparePoint 4 (fun s =>
      let e : BitVec 8 := gm.setWidth 8
      match s.core.node.inst with
      | none => .next s
      | some id =>
        match s.boundary [s.cur] with
        | .wait => hold s
        | .queues k => raise { code := 0x19, info := .ofNat 64 k } s
        | .ok =>
          let now := s.phase e
          let parkedAt := fun (y : Core) => match y.seq.mode with
            | .parked e' p => if e' = e then some p else none
            | _ => none
          let s := s.mapCore fun x => x.stands.onSeq fun q => { q with mode := .parked e now }
          if s.allSeats fun y => (parkedAt y).isSome || y.redun.retired then
            let ps := (s.instCores id).filterMap fun c => parkedAt (s.coreAt c)
            .next (s.parkNode id e ((ps.find? (· != now)).getD now))
          else .next s) s) s

/-- b.trig (R313, R120). -/
def execBTrig (s : State) : Out :=
  withReady .bTrig (comparePoint 0 fun s =>
    let x := s.core
    if x.node.trig then .next s
    else if !x.openIds.isEmpty then hold s
    else
      let s := s.mapCore fun x => { x with node := { x.node with trig := true } }
      match x.node.inst with
      | none => .next s
      | some id => .next (if s.isLeader then s.seatTrig id x.node.seat (dieOf s.cur) else s)) s

/-- b.task (R314, R119): the status register holds readers until the pool insert writes it. -/
def execBTask (i b d : BitVec 6) (s : State) : Out :=
  withReady (.bTask i b d) (fun s =>
    let r := s.regs
    let os := sOpd i :: (List.range 7).map fun k => (⟨.s, b.toNat + k⟩ : Opd)
    if r.tags os ≠ 0 then axisCollision s
    else
      let ix := (r.getS i).toNat
      let args := (List.range 7).map fun k => r.getS (.ofNat 6 (b.toNat + k))
      let nodes := ((s.instOf s.cur).bind fun me => s.graphAt me.graph).elim [] (·.image.nodes)
      match nodes[ix]? with
      | none => raise { code := 0x18, info := 1 } s
      | some n =>
        if n.preds ≠ 0 ∨ !n.succs.isEmpty then raise { code := 0x18, info := 2 } s
        else
          let s := s.foldSig ([0x04#8] ++ leBytes 2 ix ++ args.flatMap fun v => leBytes 8 v.toNat)
          if s.follows then .next (s.awaitForward .s d 0)
          else
            let k := s.fwdNum
            let s := if s.leads then s.bumpFwd else s
            let s := s.mapRegs fun r => r.mark .s d .await
            .next (s.onSched fun h => { h with tasks := h.tasks ++
              [⟨s.cur, s.core.node.inst.getD 0, s.core.node.seat, d, ix, args, s.cyc, some k⟩] })) s

/-! ### Instruction halves and sleep (R315 to R317) -/

/-- A c.decomp of the core has not completed; with `h`, one that writes the idle half (15_copy R333). -/
def Core.decomping (x : Core) (h : Bool := false) : Bool :=
  [0, 1].any fun i => match (x.copy.get (Fin.ofNat 2 i)).run with
    | some r => match r.cmd.op with
      | .cDecomp _ => !h || (bitOf (r.cmd.quad.getD 1 0).toNat 63 && fld (r.cmd.quad.getD 1 0).toNat 62 12 == 0)
      | _ => false
    | none => false

/-- b.swap (R315). A half in retention begins to leave it (07_faults R142). -/
def execBSwap (o : BitVec 12) (s : State) : Out :=
  withReady (.bSwap o) (fun s =>
    if !s.core.seq.splits.isEmpty then raise { code := 0x17 } s
    else if s.core.decomping true then hold s
    else
      let h := !s.core.seq.pc.half
      let i : Fin 2 := if h then 1 else 0
      let s := s.mapCore fun x =>
        let k := x.halves.get i
        { x with
          halves := x.halves.set i.val { k with leaving := k.retained, lastUse := s.cyc } i.isLt
          seq := { x.seq with npc := ⟨h, o.toNat, 0⟩, loops := [] } }
      .next { s with issue := { s.issue with redirect := some false } }) s

/-- The fields of a promise (R316), and the command number it names: the largest not above the issued count. -/
def promCtx (w : W) : Nat := fld w.toNat 63 62
def promNum (w : W) : Nat := fld w.toNat 61 40
def promDue (w : W) : Nat := fld w.toNat 39 0
def promCmd (w : W) (issued : Nat) : Nat := issued - (issued + 2 ^ 22 - promNum w) % 2 ^ 22

/-- DUE has come (R317). -/
def dueMet (cyc : W) (due : Nat) : Bool :=
  (fld cyc.toNat 39 0 + 2 ^ 40 - due) % 2 ^ 40 < 2 ^ 39

/-- MISSED_PROMISE and COPY_ERROR name the timeline and the command (07_faults R132). -/
def tlInfo (code tl num : Nat) : W := .ofNat 64 (code % 256 * 2 ^ 56 + tl % 256 * 2 ^ 48 + num % 2 ^ 48)

/-- b.sleep (R317): the leader decides the wake and its outcome, and forwards them. -/
def execBSleep (r : BitVec 6) (s : State) : Out :=
  withReady (.bSleep r) (fun s =>
    if s.regs.tagOf (sOpd r) ≠ 0 then axisCollision s
    else
      let w := s.regs.getS r
      let x := s.core
      if s.follows then
        match x.trapAt (x.redun.groups + 1) with
        | some t => raiseAfter t s
        | none =>
          if x.redun.inflight.any (·.1 == s.fwdNum) then
            .next (s.bumpFwd.mapCore fun x => { x with redun := { x.redun with
              inflight := x.redun.inflight.filter (·.1 != s.fwdNum) } })
          else hold s
      else if !dueMet s.cyc (promDue w) then hold s
      else
        let ok := fun (s : State) => if s.leads then s.sendFwd 0 else s
        if h : promCtx w < 3 then
          let t := x.tlAt ⟨promCtx w, h⟩
          let n := promCmd w t.issued.toNat
          if n ≤ t.val.toNat then .next (ok s)
          else raiseAfter { code := 0x11, info := tlInfo 0 (promCtx w) n } s
        else .next (ok s)) s

end Sys2Proof.Machine
end

