-- ==== Sys2Proof/Machine/Queue.lean ====
section
/-!
DEFINITION. The Q operations: queues, timelines, slack and frames, fabric inbox and outbox, lifting (16_sync R340
to R362; 10_core R214 to R219).
-/

namespace Sys2Proof.Machine

/-! ### Shared checks (R342, R346) -/

/-- Sources that may not be tagged (R342). -/
def untagged (l : List (BitVec 6)) (body : State → Out) (s : State) : Out :=
  if s.regs.tags (l.map sOpd) ≠ 0 then axisCollision s else body s

/-- A queue operation on an unconfigured queue raises ILLEGAL_OP (10_core R214). -/
def onQueueOp (q : BitVec 4) (body : State → Out) (s : State) : Out :=
  if !(s.queueBefore q).cfg then illegalOp s else body s

/-- The addresses of an entry in private scratch. -/
def QueueSt.entry (q : QueueSt) (i : Nat) : List Nat := (List.range q.size).map (q.slotAt i + ·)

/-- An entry k from the head is read by a unit into registers: it waits for the entry, and behind another unit's bank lock,
and uses its bank (R346); poison is consumed as a load consumes it (07_faults R141). -/
def readEntry (unit : Nat) (q : BitVec 4) (k : Nat) (dsts : List (RegFile × Nat)) (body : State → Out) (s : State) : Out :=
  let b := s.queueBefore q
  if b.count ≤ k ∨ s.core.lockedFor unit (b.slotAt (b.ci.toNat + k)) then hold s
  else match s.core.scratch.firstPoison (b.entry (b.ci.toNat + k)) with
    | some a => raise { code := 0x0B, info := .ofNat 64 a } s
    | none => body (s.useBanks unit (b.entry (b.ci.toNat + k)) dsts)

/-- Values are pushed by a unit: the group holds until there is room for all of them, and until the pusher's earlier accesses
are performed, which the push releases (08_ordering R165). -/
def pushAll (unit : Nat) (q : BitVec 4) (vs : List VReg) (s : State) : Out :=
  let b := s.queueBefore q
  if b.depth < b.count + vs.length ∨ s.core.lockedFor unit (b.slotAt b.pi.toNat) ∨ !s.core.openIds.isEmpty then hold s
  else .next ((s.useBanks unit ((List.range vs.length).flatMap fun i => b.entry (b.pi.toNat + i)) []).mapCore fun x =>
    vs.foldl (fun x v => x.push q v) x)

/-! ### Queues (R344 to R347) -/

/-- A configuration word is well formed (R344). -/
def qcfgOk (w : Nat) : Bool :=
  if bitOf w 63 then
    fld w 62 28 == 0 && fld w 23 22 == 0 && fld w 27 24 ≤ 8 && fld w 20 0 % 512 == 0 &&
    fld w 20 0 + 2 ^ fld w 27 24 * (if bitOf w 21 then 512 else 8) ≤ 0x200000
  else w == 0

/-- q.qcfg (R345). -/
def execQQcfg (x : BitVec 4) (a : BitVec 6) (s : State) : Out :=
  withReady (.qQcfg x a) (untagged [a] fun s =>
    let w := (s.regs.getS a).toNat
    if !s.core.enginesIdle then hold s
    else if !qcfgOk w then illegalOp s
    else .next (s.mapCore fun y => y.setQueue x
      ⟨bitOf w 63, .ofNat 21 (fld w 20 0), .ofNat 4 (fld w 27 24), bitOf w 21, 0, 0⟩)) s

/-- q.qpush (R346, R342): a tagged word pushes one entry for each active member. -/
def execQQpush (x : BitVec 4) (a : BitVec 6) (s : State) : Out :=
  withReady (.qQpush x a) (onQueueOp x fun s =>
    let l := s.lift
    let r := s.regs
    let ts := r.tagOf (sOpd a)
    match misnamed l .s a.toNat ts with
    | some e => axisOverflow e s
    | none => pushAll 0 x (((List.range (l.extent ts)).filter (l.live ts)).map fun m =>
        ofS (r.sAt (a.toNat + m))) s) s

/-- q.qpop (R346). -/
def execQQpop (x : BitVec 4) (d : BitVec 6) (s : State) : Out :=
  withReady (.qQpop x d) (onQueueOp x (readEntry 0 x 0 [(.s, d.toNat)] fun s =>
    let v := (s.core.peek x 0).setWidth 64
    .next ((s.mapCore fun y => y.pop x).mapRegs fun r => r.setS d v))) s

/-- q.qpeek (R346). -/
def execQQpeek (x : BitVec 4) (d i : BitVec 6) (s : State) : Out :=
  withReady (.qQpeek x d i) (onQueueOp x fun s =>
    if (s.queueBefore x).depth ≤ i.toNat then illegalOp s
    else readEntry 0 x i.toNat [(.s, d.toNat)] (fun s =>
      let q := s.queueBefore x
      let v : W := .ofNat 64 (s.core.scratch.num (q.slotAt (q.ci.toNat + i.toNat)) 8)
      .next (s.mapRegs fun r => r.setS d v)) s) s

/-- q.qcnt (R346). -/
def execQQcnt (x : BitVec 4) (d : BitVec 6) (s : State) : Out :=
  withReady (.qQcnt x d) (onQueueOp x fun s =>
    let n : W := .ofNat 64 (s.queueBefore x).count
    .next (s.mapRegs fun r => r.setS d n)) s

/-! ### Timelines (R348 to R352) -/

/-- The value a timeline reads: tc0, tc1, tm, ts. -/
def Core.tlVal (x : Core) (t : BitVec 2) : W :=
  if h : t.toNat < 3 then (x.tlAt ⟨t.toNat, h⟩).val else x.ts

/-- The wait has its value; a copy context's error bit raises COPY_ERROR after the group (07_faults R138). -/
def waitDone (t : BitVec 2) (s : State) : Out :=
  if h : t.toNat < 2 then
    match (s.core.tlAt ⟨t.toNat, by omega⟩).err with
    | some (n, c) => raiseAfter { code := 0x10, info := tlInfo c t.toNat n } s
    | none => .next s
  else .next s

/-- A wait on a timeline of the core: on ts a value not reached raises ILLEGAL_OP. -/
def waitTl (t : BitVec 2) (v : W) (s : State) : Out :=
  if v.toNat ≤ (s.core.tlVal t).toNat then waitDone t s
  else if t = 3 then illegalOp s else hold s

/-- q.tlwait (R348). -/
def execQTlwait (t : BitVec 2) (a : BitVec 6) (s : State) : Out :=
  withReady (.qTlwait t a) (untagged [a] fun s => waitTl t (s.regs.getS a) s) s

/-- q.tlsig (R349). -/
def execQTlsig (a : BitVec 6) (s : State) : Out :=
  withReady (.qTlsig a) (untagged [a] (comparePoint 0 fun s =>
    if !s.core.enginesIdle ∨ !s.core.openIds.isEmpty then hold s
    else
      let v := s.regs.getS a
      .next (s.mapCore fun x => x.signal s.cyc v))) s

/-- q.tlrd (R351). -/
def execQTlrd (t : BitVec 2) (d : BitVec 6) (s : State) : Out :=
  withReady (.qTlrd t d) (fun s =>
    let v := s.core.tlVal t
    .next (s.mapRegs fun r => r.setS d v)) s

/-- The ts of core c that has reached the executing core, when c runs a node of the same partition. -/
def State.tsSeenOf (s : State) (c : CoreId) : Option W :=
  let y := s.coreAt c
  if y.node.inst.isSome && y.csr.part == s.csr.part && !s.fw.absent.contains c then
    some (((s.core.tsSeen.find? fun e => e.1 == c).map (·.2)).getD 0)
  else none

/-- q.tlwaitx (R350): its own core as q.tlwait on ts; under redundancy the leader's completion is forwarded
(R343). -/
def execQTlwaitx (d a : BitVec 6) (s : State) : Out :=
  withReady (.qTlwaitx d a) (untagged [d, a] fun s =>
    let c := toCore (fld (s.regs.getS d).toNat 7 0)
    let v := s.regs.getS a
    if s.follows then
      if s.core.redun.inflight.any (·.1 == s.fwdNum) then
        .next (s.bumpFwd.mapCore fun x => { x with redun := { x.redun with
          inflight := x.redun.inflight.filter (·.1 != s.fwdNum) } })
      else hold s
    else if c = s.cur then
      if v.toNat ≤ s.core.ts.toNat then .next (if s.leads then s.sendFwd 0 else s) else illegalOp s
    else match s.tsSeenOf c with
      | none => hold s
      | some t =>
        if v.toNat ≤ t.toNat then .next (if s.leads then s.sendFwd 0 else s) else hold s) s

/-- A promise word (R316). -/
def promiseWord (ctx num due : Nat) : W :=
  .ofNat 64 (ctx % 4 * 2 ^ 62 + num % 2 ^ 22 * 2 ^ 40 + due % 2 ^ 40)

/-- The promise q.promise forms; none for a command number not issued (R352). -/
def Core.promiseFor (x : Core) (cyc : W) (t : BitVec 2) (n : W) : Option W :=
  if h : t.toNat < 3 then
    let k := x.tlAt ⟨t.toNat, h⟩
    if n = 0 then some (promiseWord 3 0 cyc.toNat)
    else if k.issued.toNat < n.toNat then none
    else if n.toNat ≤ k.val.toNat ∨ k.ahead.contains n.toNat then
      some (promiseWord t.toNat n.toNat cyc.toNat)
    else if t = 2 then some (promiseWord 2 n.toNat (cyc.toNat + 64 * (n.toNat - k.val.toNat)))
    else some (promiseWord t.toNat n.toNat
      (((k.dues.find? fun e => e.1 == n.toNat).map (·.2.toNat)).getD cyc.toNat))
  else some (promiseWord 3 0 n.toNat)

/-- q.promise (R352): the destination is empty until the promise is written. -/
def execQPromise (t : BitVec 2) (d a : BitVec 6) (s : State) : Out :=
  withReady (.qPromise t d a) (untagged [a] fun s =>
    match s.core.promiseFor s.cyc t (s.regs.getS a) with
    | none => illegalOp s
    | some w =>
      if s.follows then .next (s.awaitForward .s d 0)
      else
        let s := if s.leads then s.sendFwd (ofS w) else s
        .next (s.mapCore fun x => { x.onRegs (·.mark .s d .empty) with
          fills := x.fills ++ [⟨.s, d, .value (ofS w) 0, s.cyc + 4⟩] })) s

/-! ### Barriers, slack, frames, instruction fetch (R353 to R356) -/

/-- q.bar (R353): its roll call is the sync check of its group (07_faults R128); the operation itself does nothing
more. -/
def execQBar (m : BitVec 2) (w : Bool) (s : State) : Out :=
  withReady (.qBar m w) (fun s => .next s) s

/-- q.slack (R354). -/
def execQSlack (a : BitVec 6) (s : State) : Out :=
  withReady (.qSlack a) (untagged [a] fun s =>
    let v := (s.regs.getS a).toNat
    .next (s.mapCsr fun c => { c with limit := .ofNat 16 (min v 0xFFFF), debt := 0 })) s

/-- q.frame (R355). -/
def execQFrame (s : State) : Out :=
  withReady .qFrame (fun s =>
    if !s.csr.tt then .next s
    else if s.csr.cnt ≠ 0 then hold s
    else .next (s.mapCore fun x => x.onSeq fun q => { q with prev := some (x.csr.fnum, 0) })) s

/-- The bundles of the idle half that a running c.decomp of the core has written so far. -/
def Core.decompWrote (x : Core) (b : Nat) : Bool :=
  [0, 1].any fun i => match (x.copy.get (Fin.ofNat 2 i)).run with
    | some r => match r.cmd.op with
      | .cDecomp _ =>
        let d := (r.cmd.quad.getD 1 0).toNat
        bitOf d 63 && fld d 62 12 == 0 && decide (fld d 11 0 ≤ b ∧ b < fld d 11 0 + r.pos)
      | _ => false
    | none => false

/-- q.ifence (R356): the fetch unit drops the bundles it holds of the idle half; what a c.decomp still running wrote
there is not fetched after it. -/
def execQIfence (s : State) : Out :=
  withReady .qIfence (fun s =>
    .next (s.mapCore fun x =>
      let i : Fin 2 := if x.seq.pc.half then 0 else 1
      let h := x.halves.get i
      let keep := h.stale.filter fun e => x.decompWrote e.1
      { x with halves := x.halves.set i.val { h with stale := keep } i.isLt })) s

/-! ### Fabric inbox and outbox (R357 to R359) -/

/-- q.fout (R358, R342). -/
def execQFout (d a : BitVec 6) (s : State) : Out :=
  withReady (.qFout d a) (fun s =>
    let l := s.lift
    let r := s.regs
    let os := [sOpd d, sOpd a]
    let ts := r.tags os
    if r.tagOf (sOpd d) = 0 ∧ r.tagOf (sOpd a) ≠ 0 then axisCollision s
    else match liftBad l r os none ts with
      | some e => axisOverflow e s
      | none =>
        let live := (List.range (l.extent ts)).filter (l.live ts)
        let words := live.map fun m =>
          (r.sAt (memberOf l r ts (sOpd d) m), r.sAt (memberOf l r ts (sOpd a) m))
        let fabric := words.any fun w => !bitOf w.1.toNat 21
        let recs := words.map fun w => [0x03#8] ++ leBytes 8 w.1.toNat ++ leBytes 8 w.2.toNat
        let go := fun (s : State) =>
          if 16 < s.core.mail.outbox.length + words.length then hold s
          else
            let s := if fabric then s else recs.foldl State.foldSig s
            if s.follows then .next s
            else .next (s.mapCore fun x => { x with mail := { x.mail with
              outbox := x.mail.outbox ++ words.map fun w => ⟨w.1, w.2, false, none, x.openIds⟩ } })
        if fabric then comparePoint 0 go s recs else go s) s

/-- q.fin (R359): at most eight pending. -/
def execQFin (d : BitVec 6) (s : State) : Out :=
  withReady (.qFin d) (fun s =>
    let n := (s.core.fills.filter fun f => match f.src with | .fin _ => true | _ => false).length
    if 8 ≤ n then hold s
    else if s.follows then .next (s.awaitForward .s d 0)
    else
      let k := if s.leads then some s.fwdNum else none
      let s := if s.leads then s.bumpFwd else s
      .next (s.mapCore fun x => { x.onRegs (·.mark .s d .empty) with
        fills := x.fills ++ [⟨.s, d, .fin k, 0⟩] })) s

/-! ### Lifting (R360 to R362) -/

/-- LMASK after a level of extent n is entered. -/
def liftMask (old : W) (prod n : Nat) : W :=
  .ofNat 64 (((List.range 64).map fun m => if m < prod * n ∧ bitOf old.toNat (m / n) then 2 ^ m else 0).sum)

/-- q.lift (R360). DEDUCED (assumption 101): the extent is read as a signed number, so TRAPINFO holds s(a) for one that is
negative. -/
def execQLift (t : BitVec 2) (a : BitVec 6) (s : State) : Out :=
  withReady (.qLift t a) (untagged [a] fun s =>
    let n := (s.regs.getS a).toNat
    let l := s.core.lift
    if n < 1 ∨ 2 ^ 63 ≤ n then axisOverflow n s
    else if 64 < n ∨ l.levels.length ≥ 3 ∨ l.levels.length ≥ l.maxDepth ∨ l.levels.any (·.tag == t) ∨
        64 < l.prod * n ∨ l.maxProd < l.prod * n then axisOverflow (l.prod * n) s
    else
      let m := liftMask l.lmask l.prod n
      .next (s.mapCore fun x => { x with lift := { l with
        levels := ⟨t, n, l.lmask⟩ :: l.levels, lmask := m, ceil := m } })) s

/-- Every register's tag set loses a tag. -/
def Regs.dropTag (r : Regs) (t : BitVec 2) : Regs :=
  let k : BitVec 3 := ~~~(1#3 <<< (t.toNat - 1))
  { r with
    sTag := r.sTag.map (· &&& k), vTag := r.vTag.map (· &&& k), pTag := r.pTag.map (· &&& k)
    kTag := r.kTag.map (· &&& k), pmTag := r.pmTag.map (· &&& k) }

/-- q.lend (R361). -/
def execQLend (s : State) : Out :=
  withReady .qLend (fun s =>
    let x := s.core
    match x.lift.levels with
    | [] => axisOverflow 0 s
    | v :: r =>
      if x.seq.splits.any (·.depth == x.lift.levels.length) then raise { code := 0x17 } s
      else .next (s.mapCore fun x => { x.onRegs (·.dropTag v.tag) with
        lift := { x.lift with levels := r, lmask := v.saved, ceil := v.saved } })) s

/-- q.lmask (R362). -/
def execQLmask (a : BitVec 6) (s : State) : Out :=
  withReady (.qLmask a) (untagged [a] fun s =>
    let v := s.regs.getS a
    .next (s.mapCore fun x =>
      if x.lift.levels.isEmpty then x
      else { x with lift := { x.lift with
        lmask := v &&& x.lift.ceil &&& .ofNat 64 (2 ^ x.lift.prod - 1) } })) s

end Sys2Proof.Machine
end

