-- ==== Sys2Proof/Machine/Transfer.lean ====
section
/-!
DEFINITION. The shape of copy commands: descriptors, rows, formats of the two sides, requests, promises'
DUE (15_copy R320 to R330, R334, R335).
-/

namespace Sys2Proof.Machine

/-! ### Operations -/

/-- The row transfers. -/
inductive XOp where
  | copy | copyi | gath | scat | fill | get | put
  | acc (op : BitVec 3)
  deriving DecidableEq, Repr

def xopOf : Instr → Option XOp
  | .cCopy _ => some .copy
  | .cCopyi _ => some .copyi
  | .cGath _ => some .gath
  | .cScat _ => some .scat
  | .cFill _ => some .fill
  | .cGet _ => some .get
  | .cPut _ => some .put
  | .cAccAdd _ => some (.acc 0)
  | .cAccFadd _ => some (.acc 1)
  | .cAccMax _ => some (.acc 2)
  | .cAccMin _ => some (.acc 3)
  | .cAccOr _ => some (.acc 4)
  | .cAccAnd _ => some (.acc 5)
  | _ => none

/-- The fetch-ops, numbered as their opcodes follow 0x10 (R335). -/
def fopOf : Instr → Option (BitVec 3)
  | .cFopAdd _ => some 0
  | .cFopMin _ => some 1
  | .cFopMax _ => some 2
  | .cFopAnd _ => some 3
  | .cFopOr _ => some 4
  | .cFopXor _ => some 5
  | .cFopSwap _ => some 6
  | .cFopCas _ => some 7
  | _ => none

def CopyCmd.q (m : CopyCmd) (i : Nat) : W := m.quad.getD i 0

/-! ### The descriptor (R320) -/

def CopyCmd.cvt (m : CopyCmd) : Nat := fld (m.q 2).toNat 63 59
def CopyCmd.sat (m : CopyCmd) : Bool := bitOf (m.q 2).toNat 58
def CopyCmd.rm (m : CopyCmd) : Nat := fld (m.q 2).toNat 57 55
def CopyCmd.rv (m : CopyCmd) : Bool := bitOf (m.q 2).toNat 54
def CopyCmd.dev (m : CopyCmd) : Nat := fld (m.q 2).toNat 53 41
def CopyCmd.len (m : CopyCmd) : Nat := fld (m.q 2).toNat 31 0
def CopyCmd.rows (m : CopyCmd) : Nat := fld (m.q 3).toNat 63 48
def CopyCmd.sstr (m : CopyCmd) : W := sx64 24 (fld (m.q 3).toNat 47 24)
def CopyCmd.dstr (m : CopyCmd) : W := sx64 24 (fld (m.q 3).toNat 23 0)
def CopyCmd.list (m : CopyCmd) : Nat := fld (m.q 3).toNat 47 26
def CopyCmd.iw (m : CopyCmd) : Bool := bitOf (m.q 3).toNat 25

/-- The operation reads its rows from a list in scratch. -/
def XOp.listed : XOp → Bool
  | .copyi | .gath | .scat => true
  | _ => false

/-- Bytes of a list entry. -/
def CopyCmd.entry (m : CopyCmd) (o : XOp) : Nat := if o = .copyi then 16 else if m.iw then 8 else 4

/-- A register format (11_formats R221). -/
def isRegFmt (f : Nat) : Bool := (1 ≤ f && f ≤ 16) || f == 25

/-- The rules of R321, R327, R330, R334 that the descriptor's own words break. -/
def CopyCmd.malformed (m : CopyCmd) (o : XOp) : Bool :=
  let w3 := (m.q 3).toNat
  fld (m.q 2).toNat 40 32 != 0 || m.rows == 0 || m.len == 0 || 4 < m.rm ||
  (m.cvt != 0 && !isRegFmt m.cvt) ||
  (match o with
   | .get | .put => !m.rv || m.cvt != 0
   | .acc _ => m.cvt != 0
   | _ => m.rv) ||
  (match o with
   | .copyi => fld w3 25 0 != 0 || m.list % 16 != 0
   | .gath | .scat => bitOf w3 24
   | .fill => m.sstr != 0
   | _ => false) ||
  (o.listed && 0x200000 < m.list + m.rows * m.entry o)

/-! ### Rows (R327, R328) -/

/-- Bytes of n elements of a format packed from a row's start; format 0 counts bytes. -/
def rowSpan (f n : Nat) : Nat :=
  if f = 0 then n
  else if fmtBits f = 6 then (if isBlockFmt f then 64 else (n + 20) / 21 * 16)
  else (n * fmtBits f + 7) / 8

/-- The source and destination addresses of row i, with PITCH the bytes of a row on the indexed side. -/
def rowAddr (m : CopyCmd) (o : XOp) (scr : Nat → Nat → Nat) (pitch : Nat) (i : Nat) : W × W :=
  let n : W := .ofNat 64 i
  let ix : W := if m.iw then .ofNat 64 (scr (m.list + 8 * i) 8) else sx64 32 (scr (m.list + 4 * i) 4)
  let p : W := .ofNat 64 pitch
  match o with
  | .copyi => (m.q 0 + .ofNat 64 (scr (m.list + 16 * i) 8), m.q 1 + .ofNat 64 (scr (m.list + 16 * i + 8) 8))
  | .gath => (m.q 0 + ix * p, m.q 1 + n * m.dstr)
  | .scat => (m.q 0 + n * m.dstr, m.q 1 + ix * p)
  | _ => (m.q 0 + n * m.sstr, m.q 1 + n * m.dstr)

/-! ### Sides (R322) -/

/-- What a side of a row is: its format (0 untyped), geometry, offset in its extent or page, role, and the
range entry. -/
structure Side where
  fmt : Nat := 0
  geom : Nat := 0
  rel : Nat := 0
  role : Nat := 0
  accop : Nat := 0
  point : Nat := 0
  idx : Option Nat := none
  place : Nat := 0
  deriving DecidableEq, Repr

/-- The side an address lies on, whatever its role; none when it does not translate. -/
def State.sideOf (s : State) (c : CoreId) (p : PartId) (va : W) : Option Side :=
  match s.translate c p va .pref .walk with
  | .ok l =>
    let a := l.attr
    let rel := fld va.toNat 56 0 - a.base
    if tagOfVa va < 4 then
      some ⟨a.fmt, a.geom, rel, a.role, a.accop, a.point, a.idx, l.place⟩
    else some { place := l.place }
  | _ => none

/-- How a row moves. -/
inductive Plan where
  /-- bits: so many bytes -/
  | bytes (n : Nat)
  /-- n elements of format f become elements of g -/
  | conv (f g n : Nat)
  /-- the eight bytes of s4n repeat over n bytes -/
  | fill8 (n : Nat)
  /-- every element of n is this code of format g -/
  | fillE (g code n : Nat)
  /-- n elements are combined into the destination -/
  | acc (op : Rmw) (n : Nat)
  deriving DecidableEq, Repr

/-- Formats that a copy converts from, and into (R232; 11_formats R231 gives panels no encoder, R229 none for
Q4). -/
def convOk (f g : Nat) : Bool :=
  (isRegFmt f || (17 ≤ f && f ≤ 24)) && (isRegFmt g || g == 17) &&
  ((isRegFmt f || f == 17) || isFloatFmt g)

/-- The plan of a row between two sides, with the flags of a fill's own conversion, or the cause of its
error. -/
def rowPlan (m : CopyCmd) (o : XOp) (src dst : Side) : Except Nat (Plan × Flags) :=
  let h := m.cvt
  let f := src.fmt
  let g := dst.fmt
  let n := m.len
  let conv := fun (f g : Nat) => if convOk f g then .ok (Plan.conv f g n, (0 : Flags)) else .error 2
  let move := fun (f : Nat) => (.ok (Plan.bytes (rowSpan f n), (0 : Flags)) : Except Nat (Plan × Flags))
  match o with
  | .fill =>
    if g = 26 then .error 2
    else if g = 0 then
      if h = 0 then .ok (.fill8 n, 0)
      else .ok (.fillE h ((m.q 0).toNat % 2 ^ fmtBits h) n, 0)
    else if h = 0 then .ok (.fillE g ((m.q 0).toNat % 2 ^ fmtBits g) n, 0)
    else if !convOk h g then .error 2
    else
      let (c, fl) := convTo g m.rm m.sat (decodeNum h ((m.q 0).toNat % 2 ^ fmtBits h))
      .ok (.fillE g c n, fl)
  | .acc op =>
    if dst.role = 3 ∧ dst.accop ≠ op.toNat then .error 9
    else
      let go := fun (f : Nat) => (.ok (Plan.acc (.acc op f dst.point) n, (0 : Flags)) : Except Nat (Plan × Flags))
      match op.toNat with
      | 0 => if g = 0 ∨ g = 25 then go 25 else .error 2
      | 1 => if g = 26 ∧ dst.role = 3 then go 26 else if g = 0 ∨ g = 1 then go 1 else .error 2
      | 2 | 3 => if g = 0 then go 25
        else if [1, 2, 3, 25, 10, 11].contains g then go g else .error 2
      | _ => if g = 0 ∨ g = 25 ∨ g = 1 then go 25 else .error 2
  | .get | .put => move (if o = .put then f else g)
  | _ =>
    if f = 26 ∨ g = 26 then (if f = 26 ∧ g = 26 ∧ h = 0 then move 26 else .error 2)
    else if f = 0 ∧ g = 0 then (if h = 0 then move 0 else .error 2)
    else if f = 0 then (if h = 0 then move g else conv h g)
    else if g = 0 then
      if h ≠ 0 then conv f h else if isRegFmt f then move f else .error 2
    else if h ≠ 0 then .error 2
    else if f = g then move f else conv f g

/-- The formats that a plan's alignment rules look at: source and destination; none for no side. -/
def planFmts (o : XOp) (src dst : Side) (m : CopyCmd) (p : Plan) : Option Nat × Nat :=
  match p with
  | .conv f g _ => (some f, g)
  | .fill8 _ => (none, 0)
  | .fillE g _ _ => (none, g)
  | .acc (.acc _ 26 _) _ => (some 1, 26)
  | .acc (.acc _ f _) _ => (some f, f)
  | .acc (.fop ..) _ => (some 0, 0)
  | .bytes _ =>
    match o with
    | .get => (some dst.fmt, dst.fmt)
    | .put => (some src.fmt, src.fmt)
    | _ => if m.cvt = 0 ∧ src.fmt = 0 then (some dst.fmt, dst.fmt) else (some src.fmt, src.fmt)

/-- Bytes an element's start is aligned to, and the elements a row must hold a multiple of (R321). -/
def elemAlign (f : Nat) : Nat :=
  if f = 0 then 1 else if fmtBits f = 6 then 16 else max 1 (fmtBits f / 8)
def packUnit (f : Nat) : Nat :=
  if f = 0 then 1 else match fmtBits f with | 6 => 21 | 4 => 2 | 2 => 4 | _ => 1

/-- A row of this start, format and length is misaligned. -/
def rowMisaligned (f : Nat) (side : Side) (a : W) (n : Nat) : Bool :=
  if isBlockFmt f then n != 64 || (side.fmt == f && misaligned f side.rel a) ||
    (side.fmt != f && a.toNat % panelRow f != 0)
  else a.toNat % elemAlign f != 0 || n % packUnit f != 0

/-- The destination bytes of a row. -/
def Plan.dstLen : Plan → Nat
  | .bytes n | .fill8 n => n
  | .conv _ g n | .fillE g _ n => rowSpan g n
  | .acc op n => op.size * n

/-- Units of a plan: bytes or elements. -/
def Plan.units : Plan → Nat
  | .bytes n | .fill8 n | .conv _ _ n | .fillE _ _ n | .acc _ n => n

/-- First and last byte of element i of a format, counted from the row's start. -/
def elemRange (f i : Nat) : Nat × Nat :=
  let b := elemPos (fmtBits f) i
  if f = 18 ∨ f = 19 then (i / 2, i / 2) else (b / 8, (b + fmtBits f - 1) / 8)

/-- The source bytes, and the destination bytes, of unit i. -/
def Plan.srcRange (p : Plan) (i : Nat) : Option (Nat × Nat) :=
  match p with
  | .bytes _ => some (i, i)
  | .conv f _ _ => some (elemRange f i)
  | .fill8 _ | .fillE .. => none
  | .acc op _ => some (op.opnd * i, op.opnd * i + op.opnd - 1)
def Plan.dstRange (p : Plan) (i : Nat) : Nat × Nat :=
  match p with
  | .bytes _ | .fill8 _ => (i, i)
  | .conv _ g _ | .fillE g _ _ => elemRange g i
  | .acc op _ => (op.size * i, op.size * i + op.size - 1)

/-- Bytes lo to hi from an address stay in one 4 KiB granule. -/
def oneGranule (a : W) (lo hi : Nat) : Bool := (a.toNat + lo) / 4096 == (a.toNat + hi) / 4096

/-- The units of the request that begins at unit e (R323): at most 256 destination bytes, one granule of each
side; at least one. -/
def Plan.request (p : Plan) (sa da : W) (e : Nat) : Nat :=
  let ok := fun j =>
    let d0 := (p.dstRange e).1
    let d1 := (p.dstRange (e + j)).2
    decide (d1 + 1 - d0 ≤ 256) && oneGranule da d0 d1 &&
    match p.srcRange e, p.srcRange (e + j) with
    | some a, some b => oneGranule sa a.1 b.2
    | _, _ => true
  max 1 ((List.range (min (p.units - e) 1024)).takeWhile ok).length

/-- Destination bytes performed before unit e. -/
def Plan.done (p : Plan) (e : Nat) : Nat := if e = p.units then p.dstLen else (p.dstRange e).1

/-! ### Source elements and destination bytes -/

/-- The source of elements e to e + k − 1 of a conversion: their addresses as a memory plan. -/
def srcElems (f : Nat) (src : Side) (sa : W) (e k : Nat) : VMem :=
  let is := (List.range k).map (e + ·)
  let odd := if f = 18 ∨ f = 19 then sa.toNat % 2 else 0
  let a0 := sa - .ofNat 64 odd
  let g := if isBlockFmt f && src.fmt != f then blockElem f else f
  ⟨g, g, false, is.map fun i => memElem g src.geom src.rel a0 (i + 2 * odd), spareOf g src.rel a0 is⟩

/-- The codes of a conversion from its source bytes, in the order of the plan's addresses. -/
def srcCodes (p : VMem) (g rm : Nat) (sat : Bool) (bytes : List Byte) : List Nat × Flags :=
  let data := leNat bytes
  let (el, sp) := p.layout
  let r := el.map (loadElem p.m g rm sat data)
  let fl := r.foldl (fun a x => a ||| x.2) (0 : Flags)
  (r.map (·.1),
    if sp.any fun x => data / 2 ^ (8 * x.2.1) % 256 &&& x.2.2.toNat != 0 then fl ||| fFMT else fl)

/-- The bytes that codes write from element e of a row at da: spare bits of words whose last element is written
are zero (R228). -/
def dstBytes (g : Nat) (da : W) (e : Nat) (codes : List Nat) : List (W × Byte × Byte) :=
  let el := if isBlockFmt g then blockElem g else g
  let w := fmtBits g
  let l := (codes.zip (List.range codes.length)).flatMap fun (c, j) =>
    let i := e + j
    if g = 18 ∨ g = 19 then
      elemStore 4 ⟨i, [da + .ofNat 64 (i / 2)], 4 * (i % 2), none⟩ c
    else elemStore w (memElem el 0 0 da i) c
  let last := (List.range codes.length).filter fun j =>
    w == 6 && ((e + j) % 21 == 20 || (isBlockFmt g && e + j == 63))
  let sp := last.flatMap fun j => spareOf el 0 da [e + j]
  let sp := if isBlockFmt g ∧ w = 6 ∧ (e + codes.length = 64) then
      sp.filter (fun x => x.1 != 3) ++ (spareIn true 3).map fun b => (3, da + .ofNat 64 (48 + b.1), b.2)
    else sp
  mergeBytes (l ++ sp.map fun x => (x.2.1, 0, x.2.2))

/-- The scale bytes of a panel that no block of its geometry uses: a store of a row writes them as zero (11_formats R231). -/
def Side.unusedScales (d : Side) (da : W) : List (W × Byte × Byte) :=
  if isBlockFmt d.fmt then
    let used := match d.geom with
      | 3 | 5 => 64
      | 4 => 16
      | _ => 128
    let at_ := da - .ofNat 64 d.rel + .ofNat 64 (d.rel / panelBytes d.fmt * panelBytes d.fmt + panelData d.fmt + used)
    (List.range (128 - used)).map fun j => (at_ + .ofNat 64 j, 0, 0xFF#8)
  else []

/-! ### Promises (R325) -/

/-- L and the rate of a side for core c. -/
def sideRate (c : CoreId) (hops : Nat) (place : Nat) : Nat × Nat :=
  if 2 ^ 80 ≤ place then (2 * (60 + 40 * hops), 32)
  else if 2 ^ 45 ≤ place then (16, 256)
  else if place < 0x8000000000 then
    (if (if place < 0x4000000000 then Die.e else Die.w) = dieOf c then (32, 64) else (64, 32))
  else (64, 16)

/-- The distance of a dimension of n places between two coordinates. -/
def ringHops (n a b : Nat) : Nat :=
  let d := (a + n - b % n) % n
  min d (n - d)

/-- The least number of hops from this module to a device coordinate (02_fabric R23). -/
def State.hops (s : State) (c : CoreId) (dev : Nat) : Nat :=
  let f := s.fabAt (dieOf c)
  let dim := fun (i : Fin 3) => (f.dims.get i).toNat + 1
  ringHops (dim 0) (fld dev 3 0) (f.my.get 0).toNat + ringHops (dim 1) (fld dev 7 4) (f.my.get 1).toNat +
    ringHops (dim 2) (fld dev 11 8) (f.my.get 2).toNat

/-- A device coordinate is out of range (R19). -/
def State.devBad (s : State) (c : CoreId) (dev : Nat) : Bool :=
  let f := s.fabAt (dieOf c)
  (f.dims.get 0).toNat < fld dev 3 0 || (f.dims.get 1).toNat < fld dev 7 4 ||
  (f.dims.get 2).toNat < fld dev 11 8

/-- ⌈b / r⌉. -/
def ceilDiv (b r : Nat) : Nat := (b + r - 1) / r

end Sys2Proof.Machine
end

