-- ==== Sys2Proof/Machine/Copy.lean ====
section
/-!
DEFINITION. The C operations at issue: the command queue, the number, the promise and its DUE, stream claims
(15_copy R318 to R326, 04_spaces R65, 07_faults R137, 09_redundancy R178, R181, R182).
-/

namespace Sys2Proof.Machine

/-! ### Rows and sides of a command -/

/-- A number in private scratch. -/
def Core.scr (x : Core) (off n : Nat) : Nat := x.scratch.num off n

/-- PITCH: the bytes of a row on the indexed side, by the format at its base (R328). -/
def State.pitch (s : State) (c : CoreId) (p : PartId) (m : CopyCmd) (o : XOp) : Nat :=
  let fm := fun (va : W) => ((s.sideOf c p va).map (·.fmt)).getD 0
  match o with
  | .gath => rowSpan (if fm (m.q 0) ≠ 0 then fm (m.q 0) else if m.cvt ≠ 0 then m.cvt else fm (m.q 1)) m.len
  | .scat => rowSpan (if fm (m.q 1) ≠ 0 then fm (m.q 1) else if m.cvt ≠ 0 then m.cvt else fm (m.q 0)) m.len
  | _ => 0

/-- The addresses of row i. -/
def State.rowOf (s : State) (c : CoreId) (p : PartId) (m : CopyCmd) (o : XOp) (i : Nat) : W × W :=
  rowAddr m o (s.coreAt c).scr (s.pitch c p m o) i

/-- The place of an address on module DEV. -/
def devPlace (m : CopyCmd) (va : W) : Nat := 2 ^ 80 * (1 + m.dev) + va.toNat

/-- The source and the destination of a row, each when it translates. A remote side is untyped to the issuer. -/
def State.rowSrc (s : State) (c : CoreId) (p : PartId) (m : CopyCmd) (o : XOp) (i : Nat) : Option Side :=
  let sa := (s.rowOf c p m o i).1
  match o with
  | .fill => some { }
  | .get => some { place := devPlace m sa }
  | _ => s.sideOf c p sa
def State.rowDst (s : State) (c : CoreId) (p : PartId) (m : CopyCmd) (o : XOp) (i : Nat) : Option Side :=
  let da := (s.rowOf c p m o i).2
  if o = .put ∨ (m.rv ∧ o ≠ .get) then some { place := devPlace m da } else s.sideOf c p da

/-- The sides of a row; none when one does not translate. -/
def State.rowSides (s : State) (c : CoreId) (p : PartId) (m : CopyCmd) (o : XOp) (i : Nat) :
    Option (Side × Side) :=
  match s.rowSrc c p m o i, s.rowDst c p m o i with
  | some a, some b => some (a, b)
  | _, _ => none

/-! ### Streams (04_spaces R65) -/

/-- A stream whose cursors stand at an offset: no producer, nothing written (R65). -/
def Stream.fresh (i b : Nat) : Stream := ⟨i, b, b, b, none, [], false, false, none⟩

/-- The cursors of a stream extent; at the extent's base until something has claimed. -/
def State.streamOf (s : State) (p : PartId) (i : Nat) : Stream :=
  match (s.partAt p).streams.find? (·.index == i) with
  | some q => q
  | none =>
    let b := (((s.partAt p).ranges.find? (·.1 == i)).map fun r => r.2.base.toNat).getD 0
    Stream.fresh i b
def State.setStream (s : State) (p : PartId) (q : Stream) : State :=
  s.onPart p fun x => { x with streams := q :: x.streams.filter (·.index != q.index) }

/-- A claim of n bytes from an offset by a master: the cursor moves, or none when it must not be made there. -/
def State.claim (s : State) (p : PartId) (i off n : Nat) (master : BitVec 10) (write : Bool) : Option State :=
  let q := s.streamOf p i
  let lim := (((s.partAt p).ranges.find? (·.1 == i)).map fun r => r.2.limit.toNat).getD 0
  if lim < off + n then none
  else if write then
    if q.wcur ≠ off ∨ (q.producer.isSome ∧ q.producer ≠ some master) then none
    else some (s.setStream p { q with wcur := off + n, producer := some master })
  else if q.rcur ≠ off then none
  else some (s.setStream p { q with rcur := off + n })

/-- The claim of n bytes at an address of the stream space when it lies in a stream extent. -/
def State.claimAt (s : State) (c : CoreId) (p : PartId) (va : W) (n : Nat) (write : Bool) : Option State :=
  match tagOfVa va, s.sideOf c p va with
  | 2, some { role := 2, idx := some i, .. } => s.claim p i (fld va.toNat 56 0) n (.ofNat 10 c.val) write
  | _, _ => some s

/-- The bytes a plan reads of its source. -/
def Plan.srcLen (p : Plan) : Nat :=
  match p with
  | .bytes n => n
  | .conv f _ n => rowSpan f n
  | .acc op n => op.opnd * n
  | _ => 0

/-- The claims of a command at issue, row by row; none when one fails. A side that does not translate yet does not keep the
other from being claimed: its bytes are counted as if both sides were alike. -/
def State.claims (s : State) (c : CoreId) (p : PartId) (m : CopyCmd) : Option State :=
  match xopOf m.op, m.op with
  | some o, _ =>
    if m.malformed o then some s
    else (List.range m.rows).foldl (init := some s) fun st i => st.bind fun s =>
      let a := s.rowSrc c p m o i
      let b := s.rowDst c p m o i
      match a.orElse fun _ => b, b.orElse fun _ => a with
      | none, _ | _, none => some s
      | some a, some b =>
        match rowPlan m o a b with
        | .error _ => some s
        | .ok (pl, _) =>
          let (sa, da) := s.rowOf c p m o i
          let s1 := if o = .fill ∨ o = .get then some s else s.claimAt c p sa pl.srcLen false
          if o = .put ∨ (m.rv ∧ o ≠ .get) then s1 else s1.bind fun s => s.claimAt c p da pl.dstLen true
  | none, .cRelay _ =>
    let n := fld (m.q 2).toNat 39 0
    let s1 := if bitOf (m.q 2).toNat 49 then s.claimAt c p (m.q 0) n false else some s
    s1.bind fun s => s.claimAt c p (m.q 1) n true
  | none, .cDecomp _ => s.claimAt c p (m.q 0) (fld (m.q 2).toNat 31 0) false
  | _, _ => some s

/-- A range that the command touches is being recast: its issue holds. -/
def State.recasting (s : State) (c : CoreId) (p : PartId) (m : CopyCmd) : Bool :=
  let held := fun (va : W) => tagOfVa va < 4 && s.translate c p va .pref .walk == .held
  match xopOf m.op, m.op with
  | some o, _ => !m.malformed o && (List.range m.rows).any fun i =>
      let (sa, da) := s.rowOf c p m o i
      (o != .fill && o != .get && held sa) || (!m.rv && held da)
  | none, .cRelay _ => held (m.q 1)
  | _, _ => false

/-! ### Classes of accesses (08_ordering R166) -/

/-- The classes of R166 in which a command makes accesses: reads of scratch, writes of scratch, writes of memory. A window is
scratch of its classroom. -/
def CopyCmd.classes (m : CopyCmd) : Bool × Bool × Bool :=
  let near := fun (i : Nat) => tagOfVa (m.q i) == 5 || tagOfVa (m.q i) == 6
  match xopOf m.op, fopOf m.op, m.op with
  | some .fill, _, _ => (false, near 1, !near 1)
  | some .get, _, _ => (false, near 1, !near 1)
  | some o, _, _ => (near 0 || o.listed, near 1 && !m.rv, !near 1 || m.rv)
  | none, some _, _ => (true, true, !near 1 || m.rv)
  | none, none, .cDecomp _ => (near 0, true, false)
  | none, none, .cKvput _ | none, none, .cKvapp _ => (true, false, true)
  | none, none, .cRelay _ => (near 0, false, true)
  | none, none, .cRecast .. => (false, true, true)
  | none, none, .cKvinv _ | none, none, .cMigr _ => (false, false, true)
  | _, _, _ => (false, false, false)

/-- A command has accesses of some of the classes to perform; one that has sent its last request has made its reads. -/
def CopyCmd.opens (m : CopyCmd) (sent x y w : Bool) : Bool :=
  let (a, b, d) := m.classes
  (x && a && !sent) || (y && b) || (w && d)

/-! ### DUE (R325) -/

/-- Bytes of a range that R82 counts for a recast. -/
def recastBytes (r : Range) (fmt role : Nat) (fc : Bool) (toFmt : Nat) : Nat :=
  let size := r.limit.toNat - r.base.toNat
  let (n, end_) := if fc ∧ fmt = 26 ∧ toFmt = 1 then (size + size / 4, ceilDiv (size / 4) 65536 * 65536)
    else if fc ∧ fmt = 1 ∧ toFmt = 26 then (5 * size, 4 * size) else (0, size)
  n + if role = 1 ∧ bitOf r.attr.toNat 49 then end_ else 0

/-- The places of n bytes from an address, one for each 4 KiB granule that translates. -/
def State.placesOf (s : State) (c : CoreId) (p : PartId) (va : W) (n : Nat) : List Nat :=
  (List.range ((va.toNat % 4096 + n + 4095) / 4096)).filterMap fun i =>
    (s.sideOf c p (if i = 0 then va else .ofNat 64 (va.toNat / 4096 * 4096 + 4096 * i))).map (·.place)

/-- The places that a row's source and its destination touch, and the bytes it writes, when both sides translate. -/
def State.rowPlaces (s : State) (c : CoreId) (p : PartId) (m : CopyCmd) (o : XOp) (i : Nat) :
    List Nat × List Nat × Nat :=
  match s.rowSides c p m o i with
  | none => ([], [], 0)
  | some (a, b) =>
    match rowPlan m o a b with
    | .error _ => ([], [], 0)
    | .ok (pl, _) =>
      let (sa, da) := s.rowOf c p m o i
      let src := match o with
        | .fill => []
        | .get => [a.place]
        | _ => s.placesOf c p sa pl.srcLen
      (src, if o = .put ∨ (m.rv ∧ o ≠ .get) then [b.place] else s.placesOf c p da pl.dstLen, pl.dstLen)

/-- L + ⌈B / Rate⌉ of a command, for the slowest side it touches (R325). -/
def State.dueTime (s : State) (c : CoreId) (p : PartId) (m : CopyCmd) : Nat :=
  let rate := fun (place : Nat) => sideRate c (s.hops c (place / 2 ^ 80 - 1)) place
  let cost := fun (place b : Nat) => (rate place).1 + ceilDiv b (rate place).2
  let placeOf := fun (va : W) => ((s.sideOf c p va).map (·.place)).getD 0
  let g := (s.partAt p).kg
  match xopOf m.op, fopOf m.op, m.op with
  | some o, _, _ =>
    if m.malformed o then 32
    else
      let rows := (List.range m.rows).map (s.rowPlaces c p m o)
      let n := (rows.map (·.2.2)).sum
      let worst := fun (f : Nat → Nat) (l : List Nat) => if l.isEmpty then 32 else l.foldl (fun a k => max a (f k)) 0
      match o with
      | .acc _ => worst (fun k => (rate k).1) (rows.flatMap (·.2.1)) + ceilDiv n 16
      | _ => worst (fun k => cost k n) (rows.flatMap fun r => r.1 ++ r.2.1)
  | none, some _, _ =>
    let l := (rate (if m.rv then devPlace m (m.q 1) else placeOf (m.q 1))).1
    2 * l + 4 * fld (m.q 2).toNat 6 0
  | none, none, .cPref _ => 32 + ceilDiv (m.rows * m.len) 4096
  | none, none, .cKvput _ =>
    let h := if fld (m.q 2).toNat 33 32 = 3 then 2 else 1
    32 + ceilDiv (fld (m.q 2).toNat 31 0 * kvRb g * h) 64
  | none, none, .cKvapp _ | none, none, .cKvinv _ => 3000
  | none, none, .cRelay _ =>
    let h := if bitOf (m.q 2).toNat 63 then s.hops c (fld (m.q 2).toNat 62 50) else 0
    2 * (60 + 40 * h) + ceilDiv (fld (m.q 2).toNat 39 0) 32
  | none, none, .cDecomp _ =>
    let n := 16 * fld (m.q 2).toNat 44 32
    max (16 + ceilDiv n 256) (cost (placeOf (m.q 0)) n)
  | none, none, .cRecast .. =>
    match (s.partAt p).ranges.find? (·.1 == fld (m.q 0).toNat 10 0) with
    | none => us 2
    | some r =>
      let w := (m.q 2).toNat
      us 2 + ceilDiv (3 * recastBytes r.2 (fld r.2.attr.toNat 59 55) (fld w 61 60) (bitOf w 59) (fld w 58 54))
        16000
  | none, none, .cMigr _ =>
    match s.pageWalk p (fld (m.q 1).toNat 56 0) with
    | .ok (_, _, n) => 6000 + ceilDiv n 32
    | .error _ => 6000
  | _, _, _ => 0

/-- The commands of a context that have accesses of some of the classes to perform. -/
def CopyCtx.openCmds (k : CopyCtx) (x y w : Bool) : List CopyCmd :=
  (k.queue.filter (·.opens false x y w)) ++
    ((k.run.toList.filter fun r => r.cmd.opens (r.phase == .finish) x y w).map (·.cmd))

/-- The promise's DUE: after the previous command of the context; c.sbar's is the largest of those it waits for. -/
def State.dueOf (s : State) (x : Ctx) (m : CopyCmd) : Nat :=
  let y := s.core
  let base := max s.cyc.toNat (y.tlAt ⟨x.val, by omega⟩).lastDue.toNat
  match m.op with
  | .cSbar _ _ _ a b w =>
    (((y.copy.get 0).openCmds a b w ++ (y.copy.get 1).openCmds a b w)).foldl (fun t k => max t k.due.toNat) base
  | _ => base + s.dueTime s.cur s.csr.part.toFin m

/-! ### Issue (R318, R326) -/

/-- Both sides of a command are local to a replica (09_redundancy R178). -/
def CopyCmd.isLocal (m : CopyCmd) : Bool :=
  let loc := fun (i : Nat) => let t := tagOfVa (m.q i); t == 5 || t == 6
  match xopOf m.op, fopOf m.op, m.op with
  | some .fill, _, _ => loc 1
  | some _, _, _ => loc 0 && loc 1 && !m.rv
  | none, some _, _ => loc 1 && !m.rv
  | none, none, .cPref _ | none, none, .cSbar .. => true
  | none, none, .cDecomp _ => loc 0
  | _, _, _ => false

/-- The fields of a C operation. -/
structure COp where
  quad : Option (BitVec 4)
  prom : BitVec 6
  cq : Option (BitVec 4)
  rel : Bool := false
  acq : Bool := false
  scope : BitVec 3 := 0
  deriving DecidableEq, Repr

def COp.of (f : CFields) : COp :=
  ⟨some f.quad, f.prom, if f.cqv then some f.cq else none, f.rel, f.acq, f.scope⟩

/-- The copy context of a slot (13_assembly R272): the surviving instance of a degraded core; in handler mode one
whose run is not stopped (R137), or none. -/
def State.ctxOfSlot (s : State) (slot : Nat) : Option Ctx :=
  let x := s.core
  let want : Ctx := if s.fw.lostCopy.contains s.cur then 0 else if copySlot slot = 0 then 0 else 1
  let other : Ctx := if s.fw.lostCopy.contains s.cur then 0 else if want = 0 then 1 else 0
  if !x.csr.hm ∨ !x.runHeld want then some want else if !x.runHeld other then some other else none

/-- One command enters the queue of context x: its number, DUE, promise and claims. -/
def State.enterCmd (s : State) (x : Ctx) (i : Instr) (f : COp) (quad : List W) (prom : BitVec 6)
    (ts : BitVec 3) : State :=
  let ix : Fin 3 := ⟨x.val, by omega⟩
  let y := s.core
  let t := y.tlAt ix
  let p : PartId := s.csr.part.toFin
  let n := t.issued + 1
  let m : CopyCmd := {
    op := i, num := n.toNat, quad := quad, rel := f.rel, acq := f.acq, scope := f.scope, cq := f.cq, due := 0
    after := y.openIds, seen := ((y.tlAt 0).issued.toNat, (y.tlAt 1).issued.toNat), loc := s.issue.ctx.loc
    bad := none, led := false }
  let m := { m with led := 1 < s.csr.nrep.toNat && !m.loc && !m.isLocal }
  let due : W := .ofNat 64 (s.dueOf x m)
  let (s, bad) := if m.led ∧ !s.isLeader then (s, none)
    else match s.claims s.cur p m with
      | some t => (t, none)
      | none => (s, some 9)
  let m := { m with due := due, bad := bad }
  let s := s.mapCore fun y => { y.onTl ix fun t => { t with
      issued := n, lastDue := due, dues := t.dues ++ [(n.toNat, due)] } with
    copy := y.copy.set x.val (let k := y.copy.get x; { k with queue := k.queue ++ [m] }) x.isLt }
  if prom = 0 then s
  else
    let w := ofS (promiseWord x.val n.toNat due.toNat)
    if s.follows then s.awaitForward .s prom ts
    else
      let s := if s.leads then s.sendFwd w else s
      s.mapCore fun y => { y.onRegs (·.mark .s prom .empty ts) with fills := y.fills ++ [⟨.s, prom, .value w 0, s.cyc + 4⟩] }

/-- The SIG record of a copy command (09_redundancy R181). -/
def copyRecord (raw : Nat) (quad : List W) : List Byte :=
  [0x02#8, .ofNat 8 (raw / 2 ^ 22), .ofNat 8 (raw % 2 ^ 7)] ++ quad.flatMap (fun w => leBytes 8 w.toNat) ++
    [.ofNat 8 (fld raw 11 7)]

/-- A C operation issues: one command, or one for each active member of a tagged quad; `dst` is the quad's
destination register. The records of an operation at a compare point are folded when it arrives there (09_redundancy R182). -/
def copyOp (i : Instr) (f : COp) (dst : Nat) (s : State) : Out :=
  withReady i (fun s =>
    let l := s.lift
    let r := s.regs
    let os : List Opd := match f.quad with
      | some q => (List.range 4).map fun k => ⟨.s, 4 * q.toNat + k⟩
      | none => []
    let ts := r.tags os
    let prom := if f.prom = 0 then none else some (sOpd f.prom)
    if f.cq.any fun q => !(s.queueBefore q).cfg then illegalOp s
    else if ts ≠ 0 ∧ (os[dst]?).any fun o => r.tagOf o == 0 then axisCollision s
    else match liftBad l r os prom ts with
    | some e => axisOverflow e s
    | none =>
    match s.ctxOfSlot s.issue.ctx.slot with
    | none => raise { code := 0x1D } s
    | some x =>
      let members := if ts = 0 then [0] else (List.range (l.extent ts)).filter (l.live ts)
      let quads := members.map fun m => (m, os.map fun o => r.sAt (memberOf l r ts o m))
      let probe : List CopyCmd := quads.map fun q => {
        op := i, num := 0, quad := q.2, rel := f.rel, acq := f.acq, scope := f.scope, cq := none, due := 0
        after := [], seen := (0, 0), loc := false, bad := none, led := false }
      let p : PartId := s.csr.part.toFin
      let release := f.rel || (match i with | .cRecast .. => true | _ => false)
      let compared := release || probe.any fun m => !m.isLocal
      let go := fun (s : State) =>
        let s := s.takeLock (3 + x.val)
        let s := if ts = 0 then s else
          (List.range (l.extent ts)).foldl (init := s) fun s m =>
            if l.live ts m ∨ f.prom = 0 then s else s.mapRegs fun g => g.retag .s (f.prom.toNat + m) ts
        .next (quads.foldl (init := s) fun (s : State) q =>
          (if compared then s else s.foldSig (copyRecord s.issue.ctx.raw q.2)).enterCmd x i f q.2
            (if f.prom = 0 then 0 else .ofNat 6 (f.prom.toNat + q.1)) ts)
      if 8 ≤ (s.core.copy.get x).queue.length ∨ probe.any (s.recasting s.cur p) then hold s
      else if compared then comparePoint (if release then 0 else 1) go s (quads.map fun q => copyRecord s.issue.ctx.raw q.2)
      else go s) s

/-! ### The operations -/

/-- c.copy (R327). -/
def execCCopy (f : CFields) (s : State) : Out := copyOp (.cCopy f) (.of f) 1 s
/-- c.copyi (R327, R328). -/
def execCCopyi (f : CFields) (s : State) : Out := copyOp (.cCopyi f) (.of f) 1 s
/-- c.gath (R327, R328). -/
def execCGath (f : CFields) (s : State) : Out := copyOp (.cGath f) (.of f) 1 s
/-- c.scat (R327, R328). -/
def execCScat (f : CFields) (s : State) : Out := copyOp (.cScat f) (.of f) 1 s
/-- c.fill (R327). -/
def execCFill (f : CFields) (s : State) : Out := copyOp (.cFill f) (.of f) 1 s
/-- c.pref (R329). -/
def execCPref (f : CFields) (s : State) : Out := copyOp (.cPref f) (.of f) 1 s
/-- c.relay (R331). -/
def execCRelay (f : CFields) (s : State) : Out := copyOp (.cRelay f) (.of f) 1 s
/-- c.decomp (R332). -/
def execCDecomp (f : CFields) (s : State) : Out := copyOp (.cDecomp f) (.of f) 1 s
/-- c.acc.add (R334). -/
def execCAccAdd (f : CFields) (s : State) : Out := copyOp (.cAccAdd f) (.of f) 1 s
/-- c.acc.fadd (R334). -/
def execCAccFadd (f : CFields) (s : State) : Out := copyOp (.cAccFadd f) (.of f) 1 s
/-- c.acc.max (R334). -/
def execCAccMax (f : CFields) (s : State) : Out := copyOp (.cAccMax f) (.of f) 1 s
/-- c.acc.min (R334). -/
def execCAccMin (f : CFields) (s : State) : Out := copyOp (.cAccMin f) (.of f) 1 s
/-- c.acc.or (R334). -/
def execCAccOr (f : CFields) (s : State) : Out := copyOp (.cAccOr f) (.of f) 1 s
/-- c.acc.and (R334). -/
def execCAccAnd (f : CFields) (s : State) : Out := copyOp (.cAccAnd f) (.of f) 1 s
/-- c.fop.add (R335). -/
def execCFopAdd (f : CFields) (s : State) : Out := copyOp (.cFopAdd f) (.of f) 1 s
/-- c.fop.min (R335). -/
def execCFopMin (f : CFields) (s : State) : Out := copyOp (.cFopMin f) (.of f) 1 s
/-- c.fop.max (R335). -/
def execCFopMax (f : CFields) (s : State) : Out := copyOp (.cFopMax f) (.of f) 1 s
/-- c.fop.and (R335). -/
def execCFopAnd (f : CFields) (s : State) : Out := copyOp (.cFopAnd f) (.of f) 1 s
/-- c.fop.or (R335). -/
def execCFopOr (f : CFields) (s : State) : Out := copyOp (.cFopOr f) (.of f) 1 s
/-- c.fop.xor (R335). -/
def execCFopXor (f : CFields) (s : State) : Out := copyOp (.cFopXor f) (.of f) 1 s
/-- c.fop.swap (R335). -/
def execCFopSwap (f : CFields) (s : State) : Out := copyOp (.cFopSwap f) (.of f) 1 s
/-- c.fop.cas (R335). -/
def execCFopCas (f : CFields) (s : State) : Out := copyOp (.cFopCas f) (.of f) 1 s
/-- c.get (R330). -/
def execCGet (f : CFields) (s : State) : Out := copyOp (.cGet f) (.of f) 1 s
/-- c.put (R330). -/
def execCPut (f : CFields) (s : State) : Out := copyOp (.cPut f) (.of f) 1 s
/-- c.kvput (R336). -/
def execCKvput (f : CFields) (s : State) : Out := copyOp (.cKvput f) (.of f) 1 s
/-- c.kvapp (R336): its destination register is s4n. -/
def execCKvapp (f : CFields) (s : State) : Out := copyOp (.cKvapp f) (.of f) 0 s
/-- c.kvinv (R336). -/
def execCKvinv (f : CFields) (s : State) : Out := copyOp (.cKvinv f) (.of f) 1 s
/-- c.recast (R337): its destination register is s4n; a release point. -/
def execCRecast (n : BitVec 4) (p : BitVec 6) (v : Bool) (q : BitVec 4) (k : BitVec 3) (s : State) : Out :=
  copyOp (.cRecast n p v q k) ⟨some n, p, if v then some q else none, false, false, k⟩ 0 s
/-- c.sbar (R338): it has no quad. -/
def execCSbar (p : BitVec 6) (v : Bool) (q : BitVec 4) (x y w : Bool) (s : State) : Out :=
  copyOp (.cSbar p v q x y w) ⟨none, p, if v then some q else none, false, false, 0⟩ 1 s
/-- c.migr (R339). -/
def execCMigr (f : CFields) (s : State) : Out := copyOp (.cMigr f) (.of f) 1 s

end Sys2Proof.Machine
end

