-- ==== Sys2Proof/Machine/Fabric.lean ====
section
/-!
DEFINITION. The scale-up fabric: packets, routers, hedge queues, endpoints, and the requests that one module makes
of another (02_fabric R18 to R35).
-/

namespace Sys2Proof

/-! ### Packets (R19, R21, R22) -/

def FabPacket.key (k : FabPacket) : Nat := fld k.route.toNat 63 32
def FabPacket.bank (k : FabPacket) : Bool := bitOf k.route.toNat 18
def FabPacket.dl (k : FabPacket) : Bool := bitOf k.route.toNat 17
def FabPacket.tc (k : FabPacket) : Nat := fld k.route.toNat 16 15
def FabPacket.ndf (k : FabPacket) : Nat := fld k.route.toNat 14 12
def FabPacket.op (k : FabPacket) : Nat := fld k.route.toNat 11 8
/-- The destination in a dimension. -/
def FabPacket.dim (k : FabPacket) (i : Fin 3) : Nat :=
  fld k.route.toNat (31 - 4 * i.val) (28 - 4 * i.val)
/-- The destination's device coordinate. -/
def FabPacket.dst (k : FabPacket) : Nat :=
  b2n (bitOf k.route.toNat 19) * 4096 + k.dim 2 * 256 + k.dim 1 * 16 + k.dim 0
def FabPacket.setBank (k : FabPacket) (b : Bool) : FabPacket :=
  { k with route := .ofNat 64 (k.route.toNat - b2n k.bank * 2 ^ 18 + b2n b * 2 ^ 18) }
def FabPacket.setDl (k : FabPacket) (b : Bool) : FabPacket :=
  { k with route := .ofNat 64 (k.route.toNat - b2n k.dl * 2 ^ 17 + b2n b * 2 ^ 17) }
def FabPacket.flow (k : FabPacket) : Flow := ⟨.ofNat 12 k.dst, .ofNat 2 k.tc⟩
def FabPacket.flits (k : FabPacket) : Nat := 1 + k.ndf
/-- The virtual channel: two for each traffic class (R24). -/
def FabPacket.chan (k : FabPacket) : Fin 8 := Fin.ofNat 8 (2 * k.tc + b2n k.dl)

/-- The traffic class of a kind; none when the kind is reserved. -/
def tcOf (op : Nat) : Option Nat :=
  if op < 4 then some 0 else if op < 6 then some 1 else if op = 6 then some 2
  else if op < 11 then some 3 else none

/-- The header's reserved bits: route [7:0], source [15:13], bytes 13 to 15 and 56 to 63 (R21). -/
def FabPacket.reserved (k : FabPacket) : Bool :=
  fld k.route.toNat 7 0 != 0 || fld k.src.toNat 15 13 != 0 || k.resv != 0 || k.resv2 != 0

/-- The kinds that are requests: they are answered. -/
def FabPacket.isRequest (k : FabPacket) : Bool := k.op < 4 || k.op == 6 || k.op == 7

/-- Why a packet is dropped (R22): 1 its class, 2 its kind, 3 its flits, 4 its reserved bits; 5 no membership (R30);
6 no route (R23). DESIGN CHOICE (assumption 70): R22 names no order among its conditions; of several the kind is
counted first, then the class, the flits, the reserved bits. -/
def FabPacket.bad (k : FabPacket) : Option Nat :=
  match tcOf k.op with
  | none => some 2
  | some t =>
    if k.tc ≠ t then some 1 else if 4 < k.ndf then some 3 else if k.reserved then some 4 else none

/-- The routing word at injection: DL = 0 (R24). -/
def routeWord (key dst : Nat) (bank : Bool) (tc ndf op : Nat) : W :=
  .ofNat 64 (key * 2 ^ 32 + fld dst 3 0 * 2 ^ 28 + fld dst 7 4 * 2 ^ 24 + fld dst 11 8 * 2 ^ 20 +
    fld dst 12 12 * 2 ^ 19 + b2n bank * 2 ^ 18 + tc * 2 ^ 15 + ndf * 2 ^ 12 + op * 2 ^ 8)

end Sys2Proof

namespace Sys2Proof.Machine

/-! ### Routers -/

/-- The membership entry of a key at a port, or at the endpoint: its index and partition (R30). -/
def Fabric.member (f : Fabric) (port : Option (Fin 72)) (key : Nat) : Option (Fin 64 × PartId) :=
  if key = 0 then none
  else (f.members.find? fun e => e.1 == port && e.2.2.1.toNat == key).map fun e => (e.2.1, e.2.2.2)

/-- A count of R26: 0 and 1 BANKINJ, 2 and 3 BANKEJ, 4 and 5 BANKDROP. -/
def Fabric.bump (f : Fabric) (i : Nat) (bank : Bool) : Fabric :=
  { f with counts := f.counts.mapFinIdx fun j v _ => if j = 2 * i + b2n bank then v + 1 else v }

/-- A drop is counted in telemetry by port and cause; the endpoint of a die counts as port 72. -/
def State.countDrop (s : State) (d : Die) (port : Nat) (cause : Nat) : State :=
  let key := ((dieIx d).val * 128 + port) * 8 + cause
  s.onTele fun t =>
    let n := ((t.dropped.find? (·.1 == key)).map (·.2)).getD 0
    { t with dropped := (key, n + 1) :: t.dropped.filter (·.1 != key) }

def portNum : RouterIn → Nat
  | .port p => p.val
  | .inject => 72

/-- A packet leaves the buffers of the input's channel it arrived on: a credit for each flit goes upstream (R25). -/
def Fabric.giveBack (f : Fabric) (src : FlitSrc) (n : Nat) : Fabric :=
  match src with
  | .input p vc => { f with credits := f.credits ++ List.replicate n (p, vc) }
  | _ => f

/-- Where the flits of a packet that arrives stand. -/
def arrivedAt (inp : RouterIn) (k : FabPacket) : FlitSrc :=
  match inp with
  | .port p => .input p k.chan
  | .inject => .own

/-- A router drops a packet. -/
def State.dropPkt (s : State) (d : Die) (inp : RouterIn) (k : FabPacket) (cause : Nat) : State :=
  (s.countDrop d (portNum inp) cause).onFab d fun f => (f.bump 2 k.bank).giveBack (arrivedAt inp k) k.flits

/-- Set bits of a mask, ascending. -/
def setBits (n m : Nat) : List Nat := (List.range n).filter (bitOf m)

/-- The entry of a routing table. -/
def Fabric.entry (f : Fabric) (bank : Bool) (dim : Fin 3) (i : Nat) : Nat :=
  ((f.routes.find? fun e => e.1 == bank && e.2.1 == dim && e.2.2.1.val == i).map (·.2.2.2.toNat)).getD 0

/-- What routing finds (R23): the endpoint, an output port, or none. -/
inductive Hop where
  | eject
  | out (p : Fin 72) (dim : Fin 3) (plus : Bool)
  | none
  deriving DecidableEq, Repr

/-- X first, then Y, then Z. -/
def Fabric.hop (f : Fabric) (k : FabPacket) : List (Fin 3) → Hop
  | [] => .eject
  | i :: r =>
    let e := f.entry k.bank i (k.dim i)
    let dir := fld e 15 14
    let bits := setBits 12 (fld e 11 0)
    if dir = 0 then Fabric.hop f k r
    else if dir = 3 then .none
    else match bits[Config.routeHash k.src.toNat k.dst (fld k.va.toNat 63 12) % max 1 bits.length]? with
      | Option.none => .none
      | some b => .out (Fin.ofNat 72 ((2 * i.val + (dir - 1)) * 12 + b)) i (dir = 1)

/-- DL after a hop (R24): zero on a turn into the next dimension, one across a dateline. -/
def Fabric.dlAfter (f : Fabric) (inp : RouterIn) (k : FabPacket) (dim : Fin 3) (plus : Bool) : Bool :=
  let kept := match inp with
    | .port p => p.val / 24 == dim.val && k.dl
    | .inject => false
  let at_ := (f.my.get dim).toNat
  kept || (if plus then at_ == (f.dims.get dim).toNat else at_ == 0)

/-- This module's coordinate on a rail. -/
def Fabric.me (f : Fabric) (d : Die) : Nat :=
  (dieIx d).val * 4096 + (f.my.get 2).toNat * 256 + (f.my.get 1).toNat * 16 + (f.my.get 0).toNat

/-- The way of a packet from an input: one that its endpoint injects for its own module leaves by ejection, whatever the
tables hold (R19). -/
def Fabric.way (f : Fabric) (inp : RouterIn) (k : FabPacket) : Hop :=
  if inp = .inject ∧ k.dst % 4096 = f.me .e % 4096 then .eject else f.hop k [0, 1, 2]

/-- A port is connected and powered when its dimension has more than one module (R18). -/
def Fabric.connected (f : Fabric) (p : Fin 72) : Bool := f.dims.get (Fin.ofNat 3 (p.val / 24)) != 0

/-- The state of an output channel. -/
def Fabric.chanAt (f : Fabric) (p : Fin 72) (vc : Fin 8) : VcOut :=
  (f.vcs.find? fun v => v.port == p && v.vc == vc).getD ⟨p, vc, 16, none, none⟩
def Fabric.setChan (f : Fabric) (v : VcOut) : Fabric :=
  { f with vcs := v :: f.vcs.filter fun u => !(u.port == v.port && u.vc == v.vc) }

/-- A notice of a kind about a flow to the router on the other side of a port: TC3, no data, its flow in the first
operand. DESIGN CHOICE (assumption 72): R29 and R30 give a router's own notice no job key and no partition; it has key 0,
and the port that receives it does not ask its membership table. -/
def notice (op : Nat) (fl : Flow) : FabPacket :=
  { (default : FabPacket) with route := routeWord 0 fl.dst.toNat false 3 0 op
                               op0 := .ofNat 64 (fl.dst.toNat + 4096 * fl.tc.toNat) }

/-- A notice goes upstream, as a packet of the router's own that takes its turn at the port; the endpoint halves its
rate for the flow, or restores it (R29). -/
def Fabric.notify (f : Fabric) (op : Nat) (fl : Flow) : RouterIn → Fabric
  | .port p => { f with waiting := f.waiting ++ [⟨.inject, .own, p, notice op fl⟩] }
  | .inject => { f with
      halved := if op = 9 then (if f.halved.contains fl then f.halved else f.halved ++ [fl]) else f.halved.filter (· != fl)
      passed := f.passed.filter (· != fl) }

/-- The hedge queue of a flow at an output. -/
def Fabric.hedgeOf (f : Fabric) (p : Fin 72) (fl : Flow) : Option Hedge :=
  f.hedges.find? fun h => h.port == p && h.flow == fl
def Fabric.setHedge (f : Fabric) (h : Hedge) : Fabric :=
  { f with hedges := h :: f.hedges.filter fun g => !(g.port == h.port && g.slot == h.slot) }

/-- The flits in a hedge queue: those of its packets, and those not passed of the packet it is sending. -/
def Fabric.hedgeUsed (f : Fabric) (h : Hedge) : Nat :=
  (h.pkts.map (·.flits)).sum + (f.vcs.map fun v => match v.busy with
    | some (.hedge i, _, n) => if v.port == h.port && i == h.slot then n else 0
    | _ => 0).sum

/-- A waiting packet is the first in its input's channel: no packet that came before it by the same buffers waits or is
being sent. The router's own packets stand in no buffer. -/
def Fabric.first (f : Fabric) (w : FabWait) : Bool :=
  match w.src with
  | .input .. => (f.waiting.find? (·.src == w.src)) == some w && !f.vcs.any fun v => v.busy.any (·.1 == w.src)
  | _ => true

/-- Packets of the flow that stand first in their inputs' channels and are bound for the output enter its hedge queue
while it has room, and each input that feeds it is sent a notice once (R29). -/
def Fabric.fillHedge : Nat → Hedge → Fabric → Fabric
  | 0, h, f => f.setHedge h
  | n + 1, h, f =>
    match f.waiting.find? fun w => w.port == h.port && w.pkt.flow == h.flow && f.first w with
    | none => f.setHedge h
    | some w =>
      if 40 < f.hedgeUsed h + w.pkt.flits then f.setHedge h
      else
        let f := ({ f with waiting := f.waiting.erase w }).giveBack w.src w.pkt.flits
        let f := if h.ups.contains w.inp then f else f.notify 9 h.flow w.inp
        Fabric.fillHedge n { h with
          pkts := h.pkts ++ [w.pkt], empty := none
          ups := if h.ups.contains w.inp then h.ups else h.ups ++ [w.inp] } f

/-- A free hedge queue of an output is assigned to a flow, if there is one. -/
def Fabric.assign (f : Fabric) (p : Fin 72) (fl : Flow) (now : W) : Fabric :=
  match f.hedgeOf p fl with
  | some _ => f
  | none =>
    match (List.finRange 4).find? fun i => !f.hedges.any fun h => h.port == p && h.slot == i with
    | none => f
    | some i => f.fillHedge f.waiting.length ⟨p, i, fl, [], [], some now⟩

/-- The inputs an output has granted, the most recent first. -/
def Fabric.grants (f : Fabric) (p : Fin 72) : List RouterIn :=
  match f.granted.find? fun e => e.1 == p with
  | some e => e.2
  | none => []

/-- The packet that an output sends next on a channel (R25): among those that stand first in their inputs' channels the
input granted least recently wins; a hedge queue's first packet goes before the waiting packets of other flows. DESIGN
CHOICE (assumption 71): R25 gives no order among inputs that an output has never granted; they stand before the others,
and of them the packet that has waited longest wins. -/
def Fabric.choose (f : Fabric) (p : Fin 72) (vc : Fin 8) : Option (Option Hedge × FabWait) :=
  match f.hedges.find? fun h => h.port == p && h.pkts.head?.any (·.chan == vc) with
  | some h => (h.pkts.head?).map fun k => (some h, ⟨.inject, .hedge h.slot, p, k⟩)
  | none =>
    let c := f.waiting.filter fun w => w.port == p && w.pkt.chan == vc && f.first w &&
      (f.hedgeOf p w.pkt.flow).isNone
    let order := f.grants p
    let best := c.find? fun w => !order.contains w.inp
    (best.orElse fun _ => (order.reverse.findSome? fun i => c.find? (·.inp == i))).map fun w => (none, w)

/-- A flit of a packet passes: it takes one of the receiver's buffers and leaves its own; with the last the packet has
been sent and the channel is free for another (R25). -/
def Fabric.pass (f : Fabric) (v : VcOut) (src : FlitSrc) (k : FabPacket) (n : Nat) : Fabric :=
  let f := f.giveBack src 1
  if n ≤ 1 then
    { f.setChan { v with free := v.free - 1, busy := none } with sent := f.sent ++ [(v.port, k)] }
  else f.setChan { v with free := v.free - 1, busy := some (src, k, n - 1) }

/-- The next flit of an output channel, when one can advance: of the packet it carries, or the header of the packet that
wins it. -/
def Fabric.flit (f : Fabric) (p : Fin 72) (vc : Fin 8) (now : W) : Option Fabric :=
  let v := f.chanAt p vc
  if v.free = 0 ∨ !f.connected p then none
  else match v.busy with
    | some (src, k, n) => some (f.pass v src k n)
    | none =>
      match f.choose p vc with
      | none => none
      | some (some h, w) =>
        let l := h.pkts.drop 1
        some ((f.setHedge { h with pkts := l, empty := if l.isEmpty then some now else none }).pass v w.src w.pkt w.pkt.flits)
      | some (none, w) =>
        let order := f.grants p
        some ({ f with
          waiting := f.waiting.erase w
          granted := (p, w.inp :: order.filter (· != w.inp)) :: f.granted.filter (·.1 != p) }.pass v w.src w.pkt w.pkt.flits)

/-- The output channels that have something to send. -/
def Fabric.active (f : Fabric) : List (Fin 72 × Fin 8) :=
  (f.vcs.filter (·.busy.isSome)).map (fun v => (v.port, v.vc)) ++
  (f.hedges.flatMap fun h => h.pkts.map fun k => (h.port, k.chan)) ++ f.waiting.map fun w => (w.port, w.pkt.chan)

/-- The flits that a router holds. -/
def Fabric.load (f : Fabric) : Nat :=
  (f.vcs.map fun v => (v.busy.map (·.2.2)).getD 0).sum + (f.hedges.map fun h => (h.pkts.map (·.flits)).sum).sum +
    (f.waiting.map (·.pkt.flits)).sum

/-- Every hedge queue takes in what it can. -/
def Fabric.fillAll (f : Fabric) : Fabric := f.hedges.foldl (fun f h => f.fillHedge f.waiting.length h) f

/-- Flits advance until none can. -/
def Fabric.advance (now : W) : Nat → Fabric → Fabric
  | 0, f => f
  | n + 1, f =>
    match f.active.findSome? fun a => f.flit a.1 a.2 now with
    | none => f
    | some g => Fabric.advance now n g.fillAll

/-- A channel whose count is zero while a header waits for it keeps the cycle since which that is so (R29). -/
def Fabric.stampWaits (f : Fabric) (now : W) : Fabric :=
  { f with vcs := f.vcs.map fun v =>
      if v.free = 0 ∧ (f.choose v.port v.vc).isSome then { v with since := v.since.orElse fun _ => some now }
      else { v with since := none } }

/-- What a router does when a packet or a credit has come: hedge queues take in their flows, flits advance. -/
def Fabric.settle (f : Fabric) (now : W) : Fabric :=
  let f := f.fillAll
  (f.advance now f.load).stampWaits now

/-- A notice or a release notice reaches the router of a die from the router beyond an output, or its endpoint. -/
def State.noticed (s : State) (d : Die) (op : Nat) (out : Option (Fin 72)) (fl : Flow) : State :=
  s.onFab d fun f =>
    match out with
    | none => f.notify op fl .inject
    | some p =>
      if op = 9 then (f.assign p fl s.cyc).settle s.cyc
      else match f.hedgeOf p fl with
        | none => f
        | some h =>
          let f := { f with
            hedges := f.hedges.filter (· != h)
            waiting := h.pkts.map (FabWait.mk .inject .own p) ++ f.waiting }
          (h.ups.foldl (fun f u => f.notify 10 fl u) f).settle s.cyc

/-- A packet at a router's input is checked, routed, and ejected or lined up for its output (R22, R23, R30). -/
def State.routeIn (s : State) (d : Die) (inp : RouterIn) (k : FabPacket) : State :=
  let f := s.fabAt d
  let fl : Flow := ⟨.ofNat 12 (fld k.op0.toNat 11 0), .ofNat 2 (fld k.op0.toNat 13 12)⟩
  match k.bad, inp with
  | some c, _ => s.dropPkt d inp k c
  | none, .port p =>
    if k.op = 9 ∨ k.op = 10 then (s.noticed d k.op (some p) fl).onFab d (·.giveBack (arrivedAt inp k) k.flits)
    else if (f.member (some p) k.key).isNone then s.dropPkt d inp k 5
    else go f
  | none, .inject => go f
where
  go (f : Fabric) : State :=
    match f.way inp k with
    | .none => s.dropPkt d inp k 6
    | .eject => s.onFab d fun f =>
        { (f.bump 1 k.bank).giveBack (arrivedAt inp k) k.flits with ejected := f.ejected ++ [k] }
    | .out p dim plus =>
      let q := k.setDl (f.dlAfter inp k dim plus)
      s.onFab d fun f => Fabric.settle { f with waiting := f.waiting ++ [⟨inp, arrivedAt inp k, p, q⟩] } s.cyc

/-! ### Injection (R26, R27, R29) -/

/-- The endpoint holds a request to a module while one that it injected with the other bank to that module is not
answered (R27). -/
def Fabric.bankHeld (f : Fabric) (k : FabPacket) : Bool :=
  k.isRequest && f.reqs.any fun r => r.injected && r.bank != f.injbank && fld r.dst.toNat 11 0 == k.dst % 4096

/-- The packets that the endpoint may inject: of each flow the first, when it is not held. -/
def Fabric.ready (f : Fabric) : List Flow → List FabPacket → List FabPacket
  | _, [] => []
  | seen, k :: r =>
    if seen.contains k.flow then f.ready seen r
    else if f.bankHeld k then f.ready (k.flow :: seen) r
    else k :: f.ready (k.flow :: seen) r

/-- A flow whose rate is halved passes up every other turn (R29). -/
def Fabric.due (f : Fabric) (k : FabPacket) : Bool := !f.halved.contains k.flow || f.passed.contains k.flow

/-- The packet that the endpoint injects next, with the bank it is given. -/
def Fabric.nextOut (f : Fabric) : Option FabPacket := (f.ready [] f.outq).find? f.due

/-- The endpoint has injected a packet: its request, if it is one, is marked (R26, R31). -/
def Fabric.took (f : Fabric) (k : FabPacket) (now : W) : Fabric :=
  { f.bump 0 f.injbank with
    outq := f.outq.erase k
    reqs := if k.isRequest then f.reqs.map fun r =>
        if r.tag == k.tag then { r with injected := true, cycle := now, bank := f.injbank } else r
      else f.reqs }

/-- Every waiting packet of a halved flow has passed up this turn; the flow that was served starts anew. -/
def Fabric.turned (f : Fabric) : Fabric :=
  let l := ((f.ready [] f.outq).filter fun k => !f.due k).map (·.flow)
  let rest := match f.nextOut with
    | some k => f.passed.filter (· != k.flow)
    | none => f.passed
  { f with passed := rest ++ l }

/-- The endpoint of a die injects its next packet, when there is one. -/
def State.injectNext (s : State) (d : Die) : State :=
  let f := s.fabAt d
  let s' := s.onFab d (·.turned)
  match f.nextOut with
  | none => s'
  | some k => (s'.onFab d (·.took k s.cyc)).routeIn d .inject (k.setBank f.injbank)

/-! ### Arrivals -/

/-- The number of the last packet accepted on a port's channel. DEDUCED (assumption 73): R21 has the receiver discard
copies it has already accepted and does not say how it knows them; packets of a port's channel are numbered in order from
1, and a copy whose number is not above the last accepted is one. -/
def Fabric.lastSeq (f : Fabric) (p : Fin 72) (vc : Fin 8) : Nat :=
  ((f.accepted.find? fun a => a.1 == p && a.2.1 == vc).map fun a => a.2.2).getD 0
def Fabric.accept (f : Fabric) (p : Fin 72) (vc : Fin 8) (n : Nat) : Fabric :=
  { f with accepted := (p, vc, n) :: f.accepted.filter fun a => !(a.1 == p && a.2.1 == vc) }

/-- ROUTER_PACKET_ARRIVE (R23, R26): a packet comes in by a port, or the endpoint injects its next. A packet of which a
flit fails its CRC is not accepted (R21); nothing comes by a port of a dimension of one module (R18). -/
def execRouterPacketArrive (s : State) : Out :=
  let d := s.inp.die
  match s.inp.rin with
  | .inject => .next (s.injectNext d)
  | .port p =>
    let f := s.fabAt d
    let k := s.inp.pkt
    if s.inp.crc ∨ !f.connected p then .next s
    else .next ((s.onFab d (·.accept p k.chan (f.lastSeq p k.chan + 1))).routeIn d (.port p) k)

/-- FLIT_REPLAY (R21): a copy already accepted is discarded; another is accepted as the packet it is. -/
def execFlitReplay (s : State) : Out :=
  let d := s.inp.die
  let p := s.inp.fport
  let vc := s.inp.vc
  if s.inp.n ≤ (s.fabAt d).lastSeq p vc then .next s
  else .next ((s.onFab d (·.accept p vc s.inp.n)).routeIn d (.port p) s.inp.pkt)

/-- CREDIT_RETURN (R25). -/
def execCreditReturn (s : State) : Out :=
  let p := s.inp.fport
  let vc := s.inp.vc
  .next (s.onFab s.inp.die fun f =>
    let v := f.chanAt p vc
    (f.setChan { v with free := min 16 (v.free + 1), since := none }).settle s.cyc)

/-- HEDGE_QUEUE_ASSIGN (R29). -/
def execHedgeQueueAssign (s : State) : Out :=
  let p := s.inp.fport
  let f := s.fabAt s.inp.die
  match (f.chanAt p s.inp.vc).since, f.choose p s.inp.vc with
  | some t, some (none, w) =>
    if t.toNat + 512 ≤ s.cyc.toNat then .next (s.onFab s.inp.die fun f => (f.assign p w.pkt.flow s.cyc).settle s.cyc)
    else .next s
  | _, _ => .next s

/-- HEDGE_QUEUE_RELEASE (R29). -/
def execHedgeQueueRelease (s : State) : Out :=
  match (s.fabAt s.inp.die).hedges.find? fun h => h.port == s.inp.fport && h.slot.val == s.inp.slot.val with
  | some h =>
    match h.empty with
    | some t =>
      if t.toNat + 1024 ≤ s.cyc.toNat then .next (s.noticed s.inp.die 10 (some h.port) h.flow) else .next s
    | none => .next s
  | none => .next s

/-- CONGESTION_NOTICE (R29); `n` is the output plus one, or 0 for the endpoint. -/
def execCongestionNotice (s : State) : Out :=
  .next (s.noticed s.inp.die 9 (if s.inp.n = 0 then none else some s.inp.fport) s.inp.flow)

/-- HEDGE_RELEASE_NOTICE (R29). -/
def execHedgeReleaseNotice (s : State) : Out :=
  .next (s.noticed s.inp.die 10 (if s.inp.n = 0 then none else some s.inp.fport) s.inp.flow)

/-! ### Requests of this module -/

/-- The die whose router a rail uses. -/
def railDie (dev : Nat) : Die := if bitOf dev 12 then .w else .e

/-- The endpoint of a rail's die is given a packet to inject for a partition: key, source. -/
def State.inject (s : State) (p : PartId) (dev op : Nat) (k : FabPacket) : State :=
  let d := railDie dev
  let k := { k with
    route := routeWord (s.partAt p).jobKey.toNat dev false ((tcOf op).getD 0) ((k.data.length + 63) / 64) op
    src := .ofNat 16 ((s.fabAt d).me d), resv := 0, resv2 := 0 }
  s.onFab d fun f => { f with outq := f.outq ++ [k] }

/-- A request is remembered under a fresh tag and given to the endpoint. -/
def State.request (s : State) (c : CoreId) (unit req pkt : Nat) (p : PartId) (dev op : Nat)
    (addrs : List Nat) (k : FabPacket) : State :=
  let d := railDie dev
  let f := s.fabAt d
  let r : FabReq := ⟨f.nextTag, c, unit, req, pkt, p, false, s.cyc, .ofNat 13 dev, f.injbank, addrs, k.va, max k.cnt.toNat k.data.length⟩
  let s := s.onFab d fun f => { f with reqs := f.reqs ++ [r], nextTag := f.nextTag + 1 }
  s.inject p dev op { k with tag := r.tag, sport := .ofNat 8 (deskPort c).val }

/-- The operands of a request beyond its address (the header's operands, whose layout no rule gives): what it does; that it
is a store (bit 61) and a release (bit 63, scope [10:8]); the issuing core stands in the third. An answer's second operand
says the releases it read: bit n that one pairs with an acquire from scope n on, bit 5 that one pairs with none. -/
def relWord (store : Bool) : Option (Party × BitVec 3) → W
  | none => .ofNat 64 (b2n store * 2 ^ 61)
  | some r => .ofNat 64 (2 ^ 63 + b2n store * 2 ^ 61 + r.2.toNat * 256)
def relMarks (b : Party) (l : List (Party × BitVec 3)) : W :=
  .ofNat 64 ((((l.map (needScope b)).eraseDups).map (2 ^ ·)).sum)
def relsOfMarks (w : W) : List (Party × BitVec 3) :=
  (List.range 6).filterMap fun n => if bitOf w.toNat n then some (.far n, 0) else none

/-- A crossbar packet for a peer module is granted at the router's port and becomes a request (R32). -/
def State.fabricSend (s : State) (k : Pkt) : State :=
  let blank : FabPacket := { (default : FabPacket) with op2 := .ofNat 64 k.core.val }
  let go := fun (place n op : Nat) (addrs : List Nat) (q : FabPacket) =>
    s.request k.core k.unit k.req k.id k.part (place / 2 ^ 80 - 1) op addrs
      { q with va := .ofNat 64 place, cnt := .ofNat 64 n }
  let lo := fun (l : List Nat) => l.foldl min (l.headD 0)
  let hi := fun (l : List Nat) => l.foldl max 0
  match k.body with
  | .read l =>
    go (lo l) (hi l + 1 - lo l) 0 l { blank with
      ens := (span (lo l) (hi l + 1 - lo l)).map fun a => if l.contains a then 0xFF#8 else 0 }
  | .write b rel =>
    let l := b.map (·.1)
    let at_ := span (lo l) (hi l + 1 - lo l)
    let of := fun a => (b.find? (·.1 == a)).map (·.2)
    go (lo l) at_.length 1 [] { blank with
      ens := at_.map fun a => ((of a).map (·.2)).getD 0, data := at_.map fun a => ((of a).map (·.1)).getD 0
      op1 := relWord (k.unit == 0) rel }
  | .rmw (.acc o f _) a v _ _ rel =>
    go a v.length 2 [] { blank with op0 := .ofNat 64 (o.toNat + 8 * f), op1 := relWord false rel, data := v }
  | .rmw (.fop o w n) a v c _ rel =>
    go a v.length 3 [] { blank with
      op0 := .ofNat 64 (o.toNat + 8 * b2n w + 16 * b2n n), op1 := relWord false rel, data := v ++ c }
  | _ => s

/-! ### Endpoints -/

/-- The first ejected packet of some kinds that passes a test. -/
def Fabric.firstOf (f : Fabric) (ops : List Nat) : Option FabPacket := f.ejected.find? fun k => ops.contains k.op

/-- The endpoint takes a packet. -/
def State.takePkt (s : State) (d : Die) (k : FabPacket) : State :=
  s.onFab d fun f => { f with ejected := f.ejected.erase k }

/-- An endpoint drops a packet of no job it knows. -/
def State.endDrop (s : State) (d : Die) (k : FabPacket) : State := (s.takePkt d k).countDrop d 72 5

/-- An acknowledgement with a status, old values and what it read of releases. -/
def State.answerAck (s : State) (p : PartId) (k : FabPacket) (status : Nat) (old : List Byte) (marks : W := 0) : State :=
  s.inject p k.src.toNat 5 { (default : FabPacket) with
    tag := k.tag, va := k.va, op0 := .ofNat 64 status, op1 := marks, data := old, cnt := .ofNat 64 old.length }

/-- What the endpoint finds about a request: it must wait (a recast, a stream not yet written), it fails with a
cause, or it is performed at a place. -/
inductive Serve where
  | wait
  | fail (cause : Nat)
  | at_ (l : Loc)
  deriving DecidableEq, Repr

/-- The access a request makes. -/
def reqKind (k : FabPacket) : AKind :=
  match k.op with
  | 0 => .copyRead | 1 => .copyWrite | 2 => .acc (fld k.op0.toNat 2 0) | _ => .fop

/-- A place lies on the old home of a migrating page: its bytes, or their copy on die W (04_spaces R64, R85). -/
def Migration.covers (m : Migration) (place : Nat) : Bool :=
  (m.pa ≤ place && place < m.pa + m.size) ||
  (m.repl && m.pa + 0x4000000000 ≤ place && place < m.pa + 0x4000000000 + m.size)
def State.migrating (s : State) (place : Nat) : Bool := s.ms.migrations.any fun m => m.covers place

/-- The target module translates and checks a request for the partition and master of its membership entry
(R30, R32, R53); an address of tag 5 or 6 is of the core with the issuer's number. -/
def State.serve (s : State) (p : PartId) (m : Fin 64) (k : FabPacket) : Serve :=
  match s.translate (toCore (fld k.op2.toNat 7 0)) p k.va (reqKind k) .walk with
  | .fault c _ => .fail c
  | .held => .wait
  | .walk _ => .wait
  | .ok l =>
    if 2 ^ 80 ≤ l.place then .fail 8
    else if s.migrating l.place then .wait
    else if !s.mayAccess (.ofNat 10 (0x340 + m.val)) p (reqKind k) { l with own := false } then .fail 0x0A
    else match l.attr.role, l.attr.idx with
      | 2, some i =>
        if k.op = 0 ∧ (s.streamOf p i).wdone < fld k.va.toNat 56 0 + k.cnt.toNat ∧
            (s.streamOf p i).rcur = fld k.va.toNat 56 0 then .wait else .at_ l
      | _, _ => .at_ l

/-- The oldest request of a source that does not wait. -/
def State.nextRequest (s : State) (d : Die) : List (BitVec 16) → List FabPacket → Option FabPacket
  | _, [] => none
  | held, k :: r =>
    if 3 < k.op ∨ held.contains k.src then State.nextRequest s d held r
    else match (s.fabAt d).member none k.key with
      | none => some k
      | some (m, p) =>
        if k.op = 1 ∧ bitOf k.op0.toNat 63 then some k
        else if s.serve p m k = .wait then State.nextRequest s d (k.src :: held) r else some k

/-- The party that a request is of: a core of its source's module (08_ordering R153). -/
def State.partyOf (s : State) (d : Die) (k : FabPacket) : Party :=
  let m := fld k.src.toNat 11 0
  let c := toCore (fld k.op2.toNat 7 0)
  if m = fld ((s.fabAt d).me d) 11 0 then .core c else .peer (.ofNat 12 m) c

/-- The release that a request is. -/
def State.relOf (s : State) (d : Die) (k : FabPacket) : Option (Party × BitVec 3) :=
  if bitOf k.op1.toNat 63 then some (s.partyOf d k, .ofNat 3 (fld k.op1.toNat 10 8)) else none

/-- The stream claim of a request, made in its order (04_spaces R65). -/
def State.serveClaim (s : State) (p : PartId) (m : Fin 64) (k : FabPacket) (l : Loc) : Option State :=
  match l.attr.role, l.attr.idx with
  | 2, some i => s.claim p i (fld k.va.toNat 56 0) k.cnt.toNat (.ofNat 10 (0x340 + m.val)) (k.op != 0)
  | _, _ => some s

/-- One request is served, and answered. -/
def State.serveOne (s : State) (d : Die) (k : FabPacket)
    (f : PartId → Loc → State → State) : State :=
  match (s.fabAt d).member none k.key with
  | none => s.endDrop d k
  | some (m, p) =>
    let s := s.takePkt d k
    match s.serve p m k with
    | .wait => s
    | .fail c => s.answerAck p k c []
    | .at_ l =>
      match s.serveClaim p m k l with
      | none => s.answerAck p k 9 []
      | some s => f p l s

/-- A handler of requests of one kind: the next request, when it is of that kind. -/
def serveKind (op : Nat) (s : State) (f : Die → FabPacket → State) : Out :=
  let d := s.inp.die
  match s.nextRequest d [] (s.fabAt d).ejected with
  | none => .next s
  | some k => if k.op = op then .next (f d k) else .next s

/-- READ_REQUEST (R32). -/
def execReadRequest (s : State) : Out :=
  serveKind 0 s fun d k => s.serveOne d k fun p l s =>
    let at_ := ((span l.place k.cnt.toNat).zip (List.range k.cnt.toNat)).filter fun x =>
      k.ens.isEmpty || k.ens.getD x.2 0 != 0
    let ps := at_.map (·.1)
    s.inject p k.src.toNat 4 { (default : FabPacket) with
      tag := k.tag, va := k.va, data := ps.map s.readByte, op1 := relMarks (s.partyOf d k) (s.relsAt ps)
      op0 := if (s.poisonRead ps).isSome then 0x0B else 0 }

/-- The relay command that an open of a chain finds (R35): one of the partition's cores that receives for the same
stream address. -/
def State.relayFor (s : State) (p : PartId) (va : W) : Option (CoreId × Ctx) :=
  let of := fun (m : CopyCmd) => (match m.op with | .cRelay _ => true | _ => false) &&
    m.q 1 == va && !bitOf (m.q 2).toNat 49
  allCores.findSome? fun c =>
    let y := s.coreAt c
    if y.csr.part.toFin != p then none
    else ([0, 1] : List Ctx).findSome? fun x =>
      let t := y.copy.get x
      if (t.run.any fun r => of r.cmd) || t.queue.any of then some (c, x) else none

/-- WRITE_REQUEST (R32, R35): an open marker is accepted, or answered with retry status. -/
def execWriteRequest (s : State) : Out :=
  serveKind 1 s fun d k =>
    if bitOf k.op0.toNat 63 then
      match (s.fabAt d).member none k.key with
      | none => s.endDrop d k
      | some (_, p) =>
        let s := s.takePkt d k
        match s.relayFor p k.va with
        | none => s.answerAck p k 0xFF []
        | some (c, x) =>
          (s.onFab d fun f => { f with relays := f.relays ++ [(k.va, c, x)] }).answerAck p k 0 []
    else s.serveOne d k fun p l s =>
      let b := (k.data.zip (List.range k.data.length)).map fun x =>
        (l.place + x.2, x.1, if k.ens.isEmpty then 0xFF#8 else k.ens.getD x.2 0)
      let b := b.filter (·.2.2 != 0)
      let at_ := b.map (·.1)
      match s.poisonWrite b with
      | some _ => s.answerAck p k 0x0B []
      | none =>
        let by_ := if bitOf k.op1.toNat 61 then some (s.partyOf d k) else none
        let s := (s.writeBy by_ b).addRels at_ (s.relOf d k)
        let s := match l.attr.role, l.attr.idx with
          | 2, some i => s.wdone p i (fld k.va.toNat 56 0) (fld k.va.toNat 56 0 + k.cnt.toNat)
          | _, _ => s
        s.answerAck p k 0 []

/-- ACCUMULATE_REQUEST (R32, 15_copy R334). -/
def execAccumulateRequest (s : State) : Out :=
  serveKind 2 s fun d k => s.serveOne d k fun p l s =>
    let o : BitVec 3 := .ofNat 3 (fld k.op0.toNat 2 0)
    let a := l.attr
    let side : Side := ⟨a.fmt, a.geom, 0, a.role, a.accop, a.point, a.idx, l.place⟩
    let m : CopyCmd := {
      op := .cAccAdd ⟨0, 0, false, 0, false, false, 0⟩, num := 0, quad := [], rel := false, acq := false, scope := 0, cq := none, due := 0
      after := [], seen := (0, 0), loc := false, bad := none, led := false }
    match rowPlan m (.acc o) {} side with
    | .ok (.acc op _, _) =>
      let r := match op, a.idx with
        | .acc _ 26 _, some i => some (p, i)
        | _, _ => none
      let (s, _, st) := s.performRmw op l.place k.data [] r
      let ps := span l.place (op.size * (k.data.length / op.opnd))
      (s.addRels ps (s.relOf d k)).answerAck p k st []
    | .ok _ => s.answerAck p k 2 []
    | .error c => s.answerAck p k c []

/-- FETCH_OP_REQUEST (R32, 15_copy R335): the Common only. -/
def execFetchOpRequest (s : State) : Out :=
  serveKind 3 s fun d k => s.serveOne d k fun p l s =>
    let w := k.op0.toNat
    let op : Rmw := .fop (.ofNat 3 (fld w 2 0)) (bitOf w 3) (bitOf w 4)
    let n := if fld w 2 0 = 7 then k.data.length / 2 else k.data.length
    let ps := span l.place n
    let marks := relMarks (s.partyOf d k) (s.relsAt ps)
    let (s, old, st) := s.performRmw op l.place (k.data.take n) (k.data.drop n) none
    (s.addRels ps (s.relOf d k)).answerAck p k st old marks

/-! ### Window D accesses on their way (03_host R38, R39) -/

/-- A failed window D access is counted (R39). -/
def State.fnErr (s : State) (p : PartId) (off : Nat) : State :=
  s.onVf p fun v => { v with
    fnerr := if v.fnerr = BitVec.allOnes 32 then v.fnerr else v.fnerr + 1
    fnerraddr := if v.fnerr = 0 then .ofNat 64 off else v.fnerraddr }

/-- A packet of a window D access is answered, with data, or has failed; with the last the access ends: a read's bytes
or Completer Abort, a write's acknowledgement, and a failure is counted. -/
def State.hostArrive (s : State) (r : FabReq) (data : List (Nat × Byte)) (failed : Bool) : State :=
  match s.host.away.find? fun a => a.id == r.req && a.left.contains r.pkt with
  | none => s
  | some a =>
    let b := { a with known := a.known ++ data, left := a.left.filter (· != r.pkt), bad := a.bad || failed }
    if !b.left.isEmpty then { s with host := { s.host with away := s.host.away.replace a b } }
    else
      let s := if b.bad then s.fnErr r.part b.off else s
      let bytes := b.places.map fun p => ((b.known.find? (·.1 == p)).map (·.2)).getD 0
      { s with host := { s.host with
          away := s.host.away.erase a
          answer := if b.write then s.host.answer else if b.bad then none else some bytes } }

/-! ### Answers -/

/-- A request is answered or given up. -/
def State.dropReq (s : State) (d : Die) (tag : BitVec 16) : State :=
  s.onFab d fun f => { f with reqs := f.reqs.filter (·.tag != tag) }

/-- The running command of a context records an error of one of its packets. -/
def CopyRun.fail (r : CopyRun) (pkt cause : Nat) : CopyRun :=
  if r.out.contains pkt ∨ r.rd.left.contains pkt then { r with
    out := r.out.filter (· != pkt), rd := { r.rd with left := r.rd.left.filter (· != pkt) }
    err := r.err.orElse fun _ => some cause }
  else r

def ctxOfUnit (unit : Nat) : Ctx := if unit = 1 then 0 else 1

/-- The bytes of a free value, for data that never came. -/
def State.freeBytes (s : State) (l : List Nat) : List (Nat × Byte) :=
  l.map fun a => (a, (Config.freeWord (s.freeCtr + a)).setWidth 8)

/-- An access of a core to a peer module failed: a scalar or vector access reports its cause as an engine fault,
and a load's bytes are free. -/
def State.peerFail (s : State) (r : FabReq) (cause : Nat) : State :=
  match r.unit with
  | 1 | 2 => s.onRun r.core (ctxOfUnit r.unit) (·.fail r.pkt cause)
  | 5 => s.hostArrive r [] true
  | 3 => s.onCore r.core fun x => x.onMRun fun m =>
      let t := fun (a : W) => (some { code := cause, info := a, async := true, engine := 3 } : Option Trap)
      let m := m.mapPipes fun q => if q.rd.left.contains r.pkt then { q with
        stop := t (q.spec.base + .ofNat 64 q.next * q.spec.stride) } else q
      match m.wbOut.find? (·.1 == r.pkt) with
      | some w => { m with wbOut := m.wbOut.erase w, stop := m.stop.orElse fun _ => t w.2 }
      | none => m
  | _ =>
    let t : Trap := { code := cause, async := true, engine := 7 }
    let s := s.onCore r.core (·.report t)
    if r.addrs.isEmpty then s.storeAck r.core r.req r.pkt
    else (s.loadArrive r.core r.req r.pkt (s.freeBytes r.addrs) [] []).takeFree

/-- A packet of u.wb is acknowledged; a stream extent's WDONE follows when all are (23_matrix R433, 04_spaces R65). -/
def State.wbAck (s : State) (c : CoreId) (pkt : Nat) : State :=
  let s := s.onCore c fun x => x.onMRun fun m => { m with wbOut := m.wbOut.filter (·.1 != pkt) }
  match (s.coreAt c).matrix.run.bind fun m => if m.wbOut.isEmpty then m.wd else none with
  | some (i, lo, hi) => s.wdone (s.coreAt c).csr.part.toFin i lo hi
  | none => s

/-- Data for a request, with the releases it read. -/
def State.peerData (s : State) (r : FabReq) (data : List (Nat × Byte)) (poison : List Nat)
    (rels : List (Party × BitVec 3) := []) : State :=
  match r.unit with
  | 1 | 2 => s.copyArrive r.core (ctxOfUnit r.unit) r.pkt (.data data poison [])
  | 5 => s.hostArrive r data !poison.isEmpty
  | 3 => s.onCore r.core fun x => x.onMRun fun m =>
      m.mapPipes fun q => if q.rd.left.contains r.pkt then { q with rd := { q.rd with
        known := q.rd.known ++ q.rd.asked.filterMap fun a => (data.find? (·.1 == a.1)).map fun d => (a.2, d.2)
        left := q.rd.left.filter (· != r.pkt)
        poison := q.rd.poison ++ (q.rd.asked.filter fun a => poison.contains a.1).map (·.2) } } else q
  | _ => s.loadArrive r.core r.req r.pkt data poison rels

/-- READ_RESPONSE (R32): discarded when its request has been given up (R31). -/
def execReadResponse (s : State) : Out :=
  let d := s.inp.die
  match (s.fabAt d).firstOf [4] with
  | none => .next s
  | some k =>
    if ((s.fabAt d).member none k.key).isNone then .next (s.endDrop d k)
    else
      let s := s.takePkt d k
      match (s.fabAt d).reqs.find? (·.tag == k.tag) with
      | none => .next s
      | some r => .next ((s.dropReq d k.tag).peerData r (r.addrs.zip k.data)
          (if k.op0 = 0 then [] else r.addrs) (relsOfMarks k.op1))

/-- The outstanding outbox word of a destination is answered: it has arrived, or is to be sent again (R34). -/
def State.outboxFor (s : State) (c : CoreId) (dst : Nat) (refused : Bool) : State :=
  s.onCore c fun x =>
    let l := x.mail.outbox
    let l := match l.find? fun w => w.outstanding && w.dst.toNat == dst with
      | none => l
      | some w =>
        if refused then l.replace w { w with outstanding := false, resend := some (s.cyc + 256) } else l.erase w
    { x with mail := { x.mail with outbox := l } }

/-- COMPLETION_ACKNOWLEDGEMENT (R32). -/
def execCompletionAcknowledgement (s : State) : Out :=
  let d := s.inp.die
  match (s.fabAt d).firstOf [5] with
  | none => .next s
  | some k =>
    if ((s.fabAt d).member none k.key).isNone then .next (s.endDrop d k)
    else
      let s := s.takePkt d k
      match (s.fabAt d).reqs.find? (·.tag == k.tag) with
      | none => .next s
      | some r =>
        let s := s.dropReq d k.tag
        let st := k.op0.toNat
        match r.unit with
        | 4 => .next (s.outboxFor r.core r.req false)
        | 5 => .next (s.hostArrive r [] (st != 0 || !r.addrs.isEmpty))
        | 1 | 2 =>
          let x := ctxOfUnit r.unit
          if st = 0xFF then
            .next (s.onRun r.core x fun q => { q with
              phase := .relayOpen true, since := s.cyc, out := q.out.filter (· != r.pkt) })
          else if r.addrs.isEmpty then .next (s.copyArrive r.core x r.pkt (.ack k.data st (relsOfMarks k.op1)))
          else .next (s.peerFail r st)
        | 3 => .next (if st = 0 then s.wbAck r.core r.pkt else s.peerFail r st)
        | _ => if st = 0 then .next (s.storeAck r.core r.req r.pkt) else .next (s.peerFail r st)

/-- REQUEST_TIMEOUT (R31): the oldest request of the context, of the matrix engine or of the host port, injected 100 µs
ago. -/
def execRequestTimeout (s : State) : Out :=
  let unit := s.inp.ctx.val + 1
  let late := fun (d : Die) => ((s.fabAt d).reqs.find? fun r => r.injected &&
    ((r.core == s.inp.core && (r.unit == unit || r.unit == 3)) || r.unit == 5) && r.cycle.toNat + us 100 ≤ s.cyc.toNat).map fun r => (d, r)
  match (late .e).orElse fun _ => late .w with
  | none => .next s
  | some (d, r) => .next ((s.dropReq d r.tag).peerFail r 0x0A)

/-! ### Inboxes and outboxes (R34, 16_sync R357 to R359) -/

/-- A word reaches a core's inbox; false when it is full, or the core's partition is being swapped out (07_faults
R145). -/
def State.inboxPut (s : State) (c : CoreId) (w : W) (sc : BitVec 3) : State × Bool :=
  if 64 ≤ (s.coreAt c).mail.inbox.length ∨ s.swappedOut c then
    (s.onTele fun t => { t with refusals := t.refusals + 1 }, false)
  else (s.onCore c fun x => { x with mail := { x.mail with inbox := x.mail.inbox ++ [(w, sc)] } }, true)

/-- INBOX_WORD (R30, R34): a word for a core of the partition that its key names is accepted with an acknowledgement, or
refused. The word is the first operand, the destination core the address. DESIGN CHOICE (assumption 74): a word for a core
of another partition, or of none, is dropped as one of an unknown key is: R30 delivers to the named partition only. -/
def execInboxWord (s : State) : Out :=
  let d := s.inp.die
  match (s.fabAt d).firstOf [7] with
  | none => .next s
  | some k =>
    match (s.fabAt d).member none k.key with
    | none => .next (s.endDrop d k)
    | some (_, p) =>
      let c := toCore (fld k.va.toNat 7 0)
      if s.partOfCore c ≠ some p then .next (s.endDrop d k)
      else
      let s := s.takePkt d k
      let (s, ok) := s.inboxPut c k.op0 4
      if ok then .next (s.answerAck p k 0 [])
      else .next (s.inject p k.src.toNat 8 { (default : FabPacket) with tag := k.tag, va := k.va })

/-- INBOX_REFUSAL (R34). -/
def execInboxRefusal (s : State) : Out :=
  let d := s.inp.die
  match (s.fabAt d).firstOf [8] with
  | none => .next s
  | some k =>
    if ((s.fabAt d).member none k.key).isNone then .next (s.endDrop d k)
    else
      let s := s.takePkt d k
      match (s.fabAt d).reqs.find? fun r => r.tag == k.tag && r.unit == 4 with
      | none => .next s
      | some r => .next ((s.dropReq d k.tag).outboxFor r.core r.req true)

/-- A word that is dropped leaves the outbox and is counted (R358). -/
def State.loseWord (s : State) (c : CoreId) (w : OutWord) : State :=
  (s.onCore c fun x => { x with mail := { x.mail with outbox := x.mail.outbox.erase w } }).onTele
    fun t => { t with lostWords := t.lostWords + 1 }

/-- The outbox of a core sends a word: on VC3 of the crossbar, or into the fabric. -/
def State.sendWord (s : State) (c : CoreId) (w : OutWord) : State :=
  let d := w.dst.toNat
  let dev := fld d 20 8
  let to_ := toCore (fld d 7 0)
  let p : PartId := (s.coreAt c).csr.part.toFin
  let bad := fld d 63 22 != 0 ||
    (if bitOf d 21 then dev != 0 || s.partOfCore to_ != some p else s.devBad c dev)
  if bad then s.loseWord c w
  else
    let mark := fun (s : State) => s.onCore c fun x => { x with mail := { x.mail with
      outbox := x.mail.outbox.replace w { w with outstanding := true, resend := none } } }
    if bitOf d 21 then mark (s.post c 0 d 3 p (scratchPlace to_ 0) (.inbox w.word 3)).1
    else mark (s.request c 4 d 0 p dev 7 [] { (default : FabPacket) with va := .ofNat 64 to_.val, op0 := w.word })

/-- The words of an outbox that may go: no earlier word for the same core is in it, and what must precede them is
performed. -/
def Core.sendable (x : Core) (now : W) (again : Bool) : Option OutWord :=
  (x.mail.outbox.zip (List.range x.mail.outbox.length)).findSome? fun (w, i) =>
    let first := !((x.mail.outbox.take i).any (·.dst == w.dst))
    let due := match w.resend with
      | some t => again && decide (t.toNat ≤ now.toNat)
      | none => !again
    if first && due && !w.outstanding && !w.after.any x.openIds.contains then some w else none

/-- A fabric word not answered for 100 µs was lost (R34). -/
def State.lostWord (s : State) (c : CoreId) : Option (Die × FabReq) :=
  let late := fun (d : Die) => ((s.fabAt d).reqs.find? fun r =>
    r.core == c && r.unit == 4 && r.injected && r.cycle.toNat + us 100 ≤ s.cyc.toNat).map fun r => (d, r)
  (late .e).orElse fun _ => late .w

/-- OUTBOX_SEND (R358). -/
def execOutboxSend (s : State) : Out :=
  let c := s.inp.core
  match s.lostWord c with
  | some (d, r) => .next (((s.dropReq d r.tag).outboxFor c r.req false).onTele
      fun t => { t with lostWords := t.lostWords + 1 })
  | none => match (s.coreAt c).sendable s.cyc false with
    | some w => .next (if s.swappedOut c then s else s.sendWord c w)
    | none => .next s

/-- OUTBOX_RESEND (R34). -/
def execOutboxResend (s : State) : Out :=
  match (s.coreAt s.inp.core).sendable s.cyc true with
  | some w => .next (if s.swappedOut s.inp.core then s else s.sendWord s.inp.core w)
  | none => .next s

end Sys2Proof.Machine
end

