-- ==== Sys2Proof/Machine/Redundancy.lean ====
section
/-!
DEFINITION. Compares of replicas, their verdicts, and values that arrive at followers (09_redundancy R178 to
R187).
-/

namespace Sys2Proof.Machine

/-- The running replicas of the executing core's seat, itself first. -/
def State.running (s : State) : List CoreId := s.cur :: s.replicas

/-- What the invigilators find about the values that replicas sent. -/
inductive Verdict where
  | agree
  | retire (c : CoreId)
  | mismatch
  deriving DecidableEq, Repr

/-- The verdict (R182, R186, R187): with three replicas the odd one out is retired when exactly two agree. -/
def verdict {α : Type} [BEq α] (l : List (CoreId × α)) : Verdict :=
  match l with
  | [] => .agree
  | x :: r =>
    if r.all (·.2 == x.2) then .agree
    else match l with
      | [a, b, c] =>
        if a.2 == b.2 then .retire c.1 else if a.2 == c.2 then .retire b.1
        else if b.2 == c.2 then .retire a.1 else .mismatch
      | _ => .mismatch

/-- The leader's core among those of a seat. -/
def State.leaderOf (s : State) (l : List CoreId) : CoreId :=
  (l.find? fun c => (s.coreAt c).csr.self == (s.coreAt c).csr.lead).getD s.cur

/-- TRAPINFO of REPLICA_MISMATCH (R186). -/
def mismatchInfo (kind : Nat) (out cmpn : Nat) : W :=
  .ofNat 64 (kind % 16 * 2 ^ 60 + out % 8 * 2 ^ 53 + cmpn % 2 ^ 48)

/-- The replicas do not agree: REPLICA_MISMATCH in every replica, and the node fails (R186); `split` when the verdicts of the
two invigilators differ. -/
def State.mismatch {α : Type} [BEq α] (s : State) (kind : Nat) (l : List (CoreId × α)) (split : Bool := false) : State :=
  let lead := s.leaderOf (l.map (·.1))
  let ref := l.find? (·.1 == lead)
  let out := if split then 7 else (l.map fun x =>
    if ref.any (·.2 == x.2) then 0 else 2 ^ (s.coreAt x.1).csr.self.toNat).sum
  let t : Trap := { code := 0x1B, info := mismatchInfo kind out ((s.coreAt lead).redun.cmpn + 1) }
  let s := l.foldl (init := s) fun s x => s.onCore x.1 fun y => { y.onCsr (·.record t false y.seq.pc) with
    redun := { y.redun with sbuf := [], used := 0, arrived := none } }
  let me := s.cur
  { ({ s with cur := lead }.failNode t) with cur := me }

/-- A replica is retired (R187): its cores stop, its buffers go, telemetry and the chain of causes say so, and the lowest
survivor leads if it led. -/
def State.retire (s : State) (c : CoreId) : State :=
  match (s.coreAt c).node.inst with
  | none => s
  | some id =>
    let r := (s.coreAt c).node.replica
    let led := (s.coreAt c).csr.self == (s.coreAt c).csr.lead
    let s := s.onSched fun h => { h with
      causes := h.causes ++ [s.causeRec 0x1C 0 c.val (.ofNat 64 r) (s.instOf c) 0 true] }
    let s := s.onTele fun t => { t with replicas := t.replicas ++ [(c, id)] }
    let s := s.onCores (fun _ x => x.node.inst == some id && x.node.replica == r) fun x => { x with
      seq := { x.seq with mode := .halted }
      redun := { x.redun with sbuf := [], used := 0, arrived := none, retired := true } }
    let left := (s.instCores id).filter fun c => !(s.coreAt c).redun.retired
    let low := left.foldl (fun m c => min m (s.coreAt c).node.replica) 3
    s.onCores (fun _ x => x.node.inst == some id && !x.redun.retired) fun x => x.onCsr fun k => { k with
      nrep := 2, lead := if led then .ofNat 2 low else k.lead }

/-- What a replica sends at a compare point. -/
def Core.sent (x : Core) : W × Nat × Option (W × W × W) :=
  match x.redun.arrived with
  | none => (x.redun.sig, 0, none)
  | some (k, t) => (x.redun.sig, k, t.map fun t => (t.cause x.seq.rolled, t.info, x.seq.pc.word))

/-- The stores of the buffer go out one after the other, 64 bytes a cycle (R184). -/
def State.drainBuffer (s : State) : State :=
  let l := s.core.redun.sbuf
  let s := s.mapCore fun x => { x with redun := { x.redun with sbuf := [], used := 0 } }
  ((l.splitBy fun a b => a.1 / 64 == b.1 / 64 && a.2.2.2 == b.2.2.2).foldl (init := (s, s.cyc)) fun st b =>
    (st.1.issueStore (b.map fun x => (x.1, x.2.1, x.2.2.1)) false none
      (b.any fun x => 1 ≤ x.2.2.2.toNat && x.2.2.2.toNat ≤ 3) st.2, st.2 + 1)).1

/-- The cycles that the drain of a buffer takes (R184, R189). DEDUCED (assumption 94): begun blocks of 64 bytes count. -/
def drainTime (used : Nat) : W := .ofNat 64 ((used + 63) / 64)

/-- The executing replica goes on after a compare that agrees (R184); its group issues once the leader's buffer, of so many
bytes, has drained. -/
def State.agreed (used : Nat) (s : State) : State :=
  match s.core.redun.arrived with
  | none => s
  | some (_, some t) =>
    let s := s.mapCore fun x => { x with redun := { x.redun with
      arrived := none, sig := BitVec.allOnes 64, cmpn := x.redun.cmpn + 1 } }
    s.takeTrap t s.core.seq.pc
  | some (_, none) =>
    let s := s.mapCore fun x => { x with redun := { x.redun with
      arrived := none, sig := BitVec.allOnes 64, cmpn := x.redun.cmpn + 1, agreed := true } }
    let s := s.mapSeq fun q => { q with
      next := if q.next.toNat < (s.cyc + drainTime used).toNat then s.cyc + drainTime used else q.next }
    if s.isLeader then s.drainBuffer
    else s.mapCore fun x => { x with redun := { x.redun with sbuf := [], used := 0 } }

/-- Every one of a list of cores goes on. -/
def State.allAgreed (s : State) (l : List CoreId) : State :=
  let me := s.cur
  let used := (s.coreAt (s.leaderOf l)).redun.used
  let s := l.foldl (fun (s : State) c => State.agreed used { s with cur := c }) s
  { s with cur := me }

/-- The verdict on a compare of some replicas is known: 24 ac cycles after the last has arrived (R182). -/
def State.verdictKnown (s : State) (l : List CoreId) : Bool :=
  l.all fun c => (s.coreAt c).redun.arrived.isSome && decide ((s.coreAt c).redun.since.toNat + 24 ≤ s.cyc.toNat)

/-- COMPARE_VERDICT (R182): once every running replica has arrived, and the invigilators have decided. -/
def execCompareVerdict (s : State) : Out :=
  let split := s.inp.split
  let s := { s with cur := s.inp.core }
  let l := s.running
  if s.csr.nrep.toNat ≤ 1 ∨ !s.verdictKnown l then .next s
  else
    let vals := l.map fun c => (c, (s.coreAt c).sent)
    let kind := ((s.coreAt (s.leaderOf l)).redun.arrived.map (·.1)).getD 0
    if split then .next (s.mismatch kind vals true) else
    match verdict vals with
    | .agree => .next (s.allAgreed l)
    | .mismatch => .next (s.mismatch kind vals)
    | .retire c => .next ((s.retire c).allAgreed (l.filter (· != c)))

/-- FORWARDED_VALUE_ARRIVE (R178): the first destination whose value has come becomes full. -/
def execForwardedValueArrive (s : State) : Out :=
  let s := { s with cur := s.inp.core }
  let x := s.core
  let hit := x.fills.findSome? fun f => match f.src with
    | .forwarded n => (x.redun.inflight.find? (·.1 == n)).map fun v => (f, v)
    | _ => none
  match if x.seq.freeze = 0 then hit else none with
  | none => .next s
  | some (f, n, v, fl) => .next (s.mapCore fun x => { x.onRegs (·.fill f.file f.reg v) with
      csr := { x.csr with fpflags := x.csr.fpflags ||| fl }
      fills := x.fills.filter (· != f)
      redun := { x.redun with inflight := x.redun.inflight.filter (·.1 != n) } })

end Sys2Proof.Machine
end

