-- ==== Sys2Proof/Machine/CopyRun.lean ====
section
/-!
DEFINITION. The copy engines at work: starting the head command, its requests, its completion (15_copy R321 to
R338, 04_spaces R65, R78, 05_kvspace R97 to R100, 08_ordering R163, R166, 09_redundancy R178, R185).
-/

namespace Sys2Proof.Machine

/-! ### Reaching memory -/

/-- What an engine finds at an address. -/
inductive Reach where
  | at_ (place : Nat) (own : Bool)
  | err (cause : Nat)
  | stop (t : Trap)
  | wait
  deriving DecidableEq, Repr

def coreIx (x : Ctx) : Nat := x.val + 1
def engineOf (x : Ctx) : Nat := 4 + x.val
/-- A trap of a copy engine. -/
def copyTrap (x : Ctx) (t : Trap) : Trap := { t with async := true, engine := engineOf x }

/-- Translation, role and access check of an engine's access (04_spaces R73, R78, 03_host R53). -/
def State.reach (s : State) (c : CoreId) (x : Ctx) (va : W) (k : AKind) : Reach :=
  let p : PartId := (s.coreAt c).csr.part.toFin
  match s.translate c p va k .walk with
  | .fault 9 _ => .err 9
  | .fault code r => .stop (copyTrap x { code := code, reason := r, info := va })
  | .held | .walk _ => .wait
  | .ok l =>
    if !s.mayAccess (masterOf c (coreIx x)) p k l then .err 0x0A
    -- another unit's bank lock (10_core R212)
    else if l.own && (s.coreAt c).lockedFor (3 + x.val) (fld va.toNat 21 0) then .wait
    else .at_ l.place l.own

/-- The place of an address on this module, or on module DEV. -/
def State.reachOn (s : State) (c : CoreId) (x : Ctx) (dev : Option Nat) (va : W) (k : AKind) : Reach :=
  match dev with
  | some d => .at_ (2 ^ 80 * (1 + d) + va.toNat) false
  | none => s.reach c x va k

/-- The places of addresses, granule by granule: all of them, or what the first bad one finds. -/
def State.reachAll (s : State) (c : CoreId) (x : Ctx) (dev : Option Nat) (vas : List W) (k : AKind) :
    Except Reach (List (W × Nat × Bool)) :=
  let firsts := (vas.map fun a => a.toNat / 4096).eraseDups
  let found := firsts.map fun g =>
    let a := (vas.find? fun a => a.toNat / 4096 == g).getD 0
    (g, a, s.reachOn c x dev a k)
  match found.find? fun f => (match f.2.2 with | .at_ .. => false | _ => true) with
  | some f => .error f.2.2
  | none => .ok (vas.filterMap fun a => match found.find? (·.1 == a.toNat / 4096) with
      | some (_, b, .at_ pl own) => some (a, pl + a.toNat - b.toNat, own)
      | _ => none)

/-- The desk input has room for another packet of VC1 (20_prog_chase R377). -/
def State.deskRoom (s : State) (c : CoreId) : Bool :=
  ((s.xbarAt (dieOf c)).wait.filter fun k => k.inp == deskPort c && k.vc == 1).length < 16

/-- What a read of source bytes gives: the bytes and the addresses of those that are poisoned. -/
inductive Got where
  | have_ (l : List Byte) (bad : List W)
  | bad (r : Reach)
  | asked (s : State)

/-- The running command of a context. -/
def State.runOf (s : State) (c : CoreId) (x : Ctx) : Option CopyRun := (s.ctxAt c x).run

/-- Source bytes for the next request: the core's own scratch at once, the others by packets on VC1; `fast` reads
those of this module at once. -/
def State.engineRead (s : State) (c : CoreId) (x : Ctx) (r : CopyRun) (dev : Option Nat) (vas : List W)
    (k : AKind) (fast : Bool := false) : Got :=
  let p : PartId := (s.coreAt c).csr.part.toFin
  let miss := (vas.filter fun a => !r.rd.known.any (·.1 == a) && !r.rd.asked.any (·.2 == a)).eraseDups
  match s.reachAll c x dev miss k with
  | .error e => .bad e
  | .ok l =>
    let near := fun (a : W × Nat × Bool) => a.2.2 || (fast && decide (a.2.1 < 2 ^ 80))
    let own : List (W × Nat × Bool) := l.filter near
    let far : List (W × Nat × Bool) := l.filter fun a => !near a
    let rd : CopyRead := {
      known := r.rd.known ++ own.map fun a => (a.1, s.readByte a.2.1)
      poison := r.rd.poison ++ (own.filter fun a => (s.poisonRead [a.2.1]).isSome).map (·.1)
      asked := r.rd.asked ++ far.map fun a => (a.2.1, a.1)
      left := r.rd.left }
    if far.isEmpty ∧ rd.left.isEmpty then
      .have_ (vas.map fun a => ((rd.known.find? (·.1 == a)).map (·.2)).getD 0) rd.poison
    else if far.isEmpty then .bad .wait
    else if !s.deskRoom c then .bad .wait
    else
      let (s, ids) := (reqBeats (far.map fun a => a.2.1)).foldl (init := (s, ([] : List Nat))) fun st b =>
        let (s, n) := st.1.post c (coreIx x) 0 1 p (b.headD 0) (.read b)
        (s, st.2 ++ [n])
      .asked (s.onRun c x fun q => { q with rd := { rd with left := rd.left ++ ids } })

/-- The poisoned source byte of an address is remembered as the one the command has met. -/
def State.metRead (s : State) (c : CoreId) (x : Ctx) (dev : Option Nat) (bad : List W) : State :=
  match bad with
  | [] => s
  | a :: _ => match s.reachOn c x dev a .copyRead with
    | .at_ place _ => s.metPoison c x [place]
    | _ => s

/-- Bytes are written and the words that hold the places of `bad` poisoned. -/
def State.putPoison (s : State) (l : List (Nat × Byte × Byte)) (bad : List Nat) : State :=
  let hit := l.filter fun b => bad.any fun a => a / 8 == b.1 / 8
  hit.foldl (fun (s : State) b => s.onMemOf (s.resolve b.1) fun k => k.poisonAt (addrOf (s.resolve b.1))) (s.writePlaces hit)

/-- Bytes are put at places of the core's own scratch or posted on VC1; the destination words of poisoned data, whose
places `bad` holds, are written as poisoned (07_faults R141). The packets sent. -/
def State.enginePut (s : State) (c : CoreId) (x : Ctx) (m : CopyCmd) (own : Bool)
    (l : List (Nat × Byte × Byte)) (bad : List Nat) : State × List Nat :=
  let p : PartId := (s.coreAt c).csr.part.toFin
  let s := s.putPoison l bad
  let l := l.filter fun b => !bad.any fun a => a / 8 == b.1 / 8
  if own then (s.writePlaces l, [])
  else (reqBeatsW l).foldl (init := (s, ([] : List Nat))) fun st b =>
    let (s, n) := st.1.post c (coreIx x) 0 1 p (b.headD (0, 0, 0)).1 (.write b (m.release c))
    (s, st.2 ++ [n])

/-- A write to an address: its places, or what stands in the way. -/
def State.engineWrite (s : State) (c : CoreId) (x : Ctx) (m : CopyCmd) (dev : Option Nat)
    (l : List (W × Byte × Byte)) (poison : List W) : Except Reach (State × List Nat) :=
  match s.reachAll c x dev (l.map (·.1)) .copyWrite with
  | .error e => .error e
  | .ok at_ =>
    let own := at_.all (·.2.2)
    if !own ∧ !s.deskRoom c then .error .wait
    else
      let b := (l.zip at_).map fun (v, a) => (a.2.1, v.2)
      let badOf := fun (at_ : List (W × Nat × Bool)) => (at_.filter fun a => poison.contains a.1).map fun a => a.2.1
      if own ∧ (s.poisonWrite b).isSome ∧ poison.isEmpty then .error (.err 0x0B)
      else
        let (s, ids) := s.enginePut c x m own b (badOf at_)
        -- a leader's data for local state reaches its followers' own (09_redundancy R178)
        let s := if m.led && (l.all fun v => tagOfVa v.1 == 5 || tagOfVa v.1 == 6) then
          let me := s.cur
          let f := State.replicas { s with cur := c }
          { f.foldl (init := s) (fun s g => match s.reachAll g x none (l.map (·.1)) .copyWrite with
              | .ok a => let b := (l.zip a).map fun (v, a) => (a.2.1, v.2)
                (s.writePlaces b).putPoison b (badOf a)
              | .error _ => s) with cur := me }
          else s
        .ok (s, ids)

/-! ### Ends and stops -/

/-- The running command stops, waits or errs on what it found. -/
def State.copyStuck (s : State) (c : CoreId) (x : Ctx) : Reach → State
  | .err n => s.onRun c x fun r => { r with phase := .finish, err := r.err.orElse fun _ => some n }
  | .stop t => s.onRun c x fun r => { r with stop := some t }
  | _ => s

def State.copyErr (s : State) (c : CoreId) (x : Ctx) (n : Nat) : State := s.copyStuck c x (.err n)
def State.copyPhase (s : State) (c : CoreId) (x : Ctx) (p : CopyPhase) : State :=
  s.onRun c x fun r => { r with phase := p }

/-- A request has been sent: nothing is left of its reads. -/
def noRead : CopyRead := ⟨[], [], [], []⟩

/-! ### Checks at the head of the queue (R321) -/

/-- The cause of the error of a transfer's descriptor, if it has one. -/
def State.rowErrors (s : State) (c : CoreId) (p : PartId) (m : CopyCmd) (o : XOp) : Option Nat :=
  if m.malformed o then some 2
  else if m.rv && s.devBad c m.dev then some 2
  else
    let per := (List.range m.rows).map fun i =>
      match s.rowSides c p m o i with
      | none => (none, 0)
      | some (a, b) =>
        match rowPlan m o a b with
        | .error n => (some n, 0)
        | .ok (pl, _) =>
          let (sa, da) := s.rowOf c p m o i
          let (f, g) := planFmts o a b m pl
          let bad := (match f with | some f => rowMisaligned f a sa m.len | none => false) || rowMisaligned g b da m.len
          (if bad then some 3 else none, pl.dstLen)
    (per.findSome? (·.1)).orElse fun _ => if 2 ^ 40 ≤ (per.map (·.2)).sum then some 2 else none

/-- R335. -/
def State.fopErrors (s : State) (c : CoreId) (m : CopyCmd) : Option Nat :=
  let w := (m.q 2).toNat
  let n := fld w 6 0
  let size := if bitOf w 59 then 8 else 4
  let tag := fun i => tagOfVa (m.q i)
  if fld w 63 60 ≠ 0 ∨ fld w 57 55 ≠ 0 ∨ fld w 40 7 ≠ 0 ∨ n = 0 ∨ 64 < n ∨ (m.rv && s.devBad c m.dev) then some 2
  else if tag 0 = 4 ∨ tag 1 = 4 ∨ tag 3 = 4 then some 9
  else if tag 0 ≠ 5 ∨ tag 3 ≠ 5 then some 2
  else if (m.q 1).toNat % size ≠ 0 ∨ (m.q 3).toNat % size ≠ 0 then some 3
  else none

/-- The cause of a descriptor fault of any command. -/
def State.headErrors (s : State) (c : CoreId) (p : PartId) (m : CopyCmd) : Option Nat :=
  let q := fun i => (m.q i).toNat
  let bad := fun (b : Bool) => if b then some 2 else none
  match xopOf m.op, fopOf m.op, m.op with
  | some o, _, _ => s.rowErrors c p m o
  | none, some _, _ => s.fopErrors c m
  | none, none, .cRelay _ =>
    if fld (q 2) 48 40 ≠ 0 ∨ fld (q 2) 39 0 = 0 ∨ q 3 ≠ 0 ∨ (!bitOf (q 2) 49 && q 0 != 0) ∨
      (bitOf (q 2) 63 && s.devBad c (fld (q 2) 62 50)) then some 2
    else if tagOfVa (m.q 1) = 4 then some 9 else bad (tagOfVa (m.q 1) != 2)
  | none, none, .cDecomp _ =>
    let n := fld (q 2) 44 32
    let h := bitOf (q 1) 63 && fld (q 1) 62 12 == 0
    if fld (q 2) 63 45 ≠ 0 ∨ n = 0 ∨ 4096 < n ∨ (h && 4096 < fld (q 1) 11 0 + n) then some 2
    else if tagOfVa (m.q 3) = 4 ∨ (!h && tagOfVa (m.q 1) == 4) then some 9
    else if tagOfVa (m.q 3) ≠ 5 ∨ (!h && tagOfVa (m.q 1) != 5) then some 2
    else if q 3 % 8 ≠ 0 ∨ (!h && q 1 % 16 != 0) then some 3
    else none
  | none, none, .cKvput _ =>
    let n := fld (q 2) 31 0
    bad (fld (q 2) 63 35 != 0 || fld (q 2) 33 32 == 0 || n == 0 || 4096 < n || q 3 != 0 ||
      tagOfVa (m.q 0) != 5 || tagOfVa (m.q 1) != 4)
  | none, none, .cKvapp _ =>
    let n := fld (q 2) 8 0
    bad (fld (q 2) 63 9 != 0 || n == 0 || 256 < n || q 1 != 0 || q 3 != 0 || tagOfVa (m.q 0) != 5)
  | none, none, .cKvinv _ =>
    let k := fld (q 2) 63 62
    bad (k == 3 || fld (q 2) 61 22 != 0 || (k != 0 && fld (q 2) 21 0 != 0) || q 0 != 0 || q 3 != 0 ||
      tagOfVa (m.q 1) != 4 || (k == 0 && fld (q 1) 34 0 != 0) || (k == 1 && fld (q 1) 42 0 != 0))
  | none, none, .cRecast .. =>
    let w := q 2
    bad (fld (q 0) 63 54 != 0 || fld w 42 0 != 0 || fld (q 0) 31 24 != 0 || bitOf (q 0) 11 || m.rel || m.acq ||
      q 1 % 65536 != 0 || q 3 % 65536 != 0 ||
      (bitOf w 43 && (q 1 != 0 || q 3 != 0)) || (!bitOf w 43 && q 3 == 0) || (bitOf w 59 && 26 < fld w 58 54) ||
      (fld w 61 60 == 3 && 5 < fld w 46 44))
  | none, none, .cMigr _ =>
    let w := q 2
    let t := fld w 2 0
    if 4 < t ∨ q 0 ≠ 0 ∨ q 3 ≠ 0 ∨ fld w 63 55 ≠ 0 ∨ fld w 40 3 ≠ 0 ∨ bitOf w 54 ≠ (t == 4) ∨
      (t ≠ 4 ∧ fld w 53 41 ≠ 0) ∨ (t == 4 && s.devBad c m.dev) then some 2
    else if tagOfVa (m.q 1) = 4 then some 9 else bad (3 < tagOfVa (m.q 1))
  | _, _, _ => none

/-! ### Starting (R205, R163, R166) -/

/-- A command of a context with a number up to n has accesses of the classes to perform. -/
def CopyCtx.opensBelow (k : CopyCtx) (n : Nat) (x y w : Bool) : Bool :=
  (k.queue.any fun m => m.num ≤ n && m.opens false x y w) ||
    k.run.any fun r => r.cmd.num ≤ n && r.cmd.opens (r.phase == .finish) x y w

/-- A c.sbar still waits for a command issued before it (R166, 15_copy R338). -/
def Core.sbarOpen (z : Core) (m : CopyCmd) : Bool :=
  match m.op with
  | .cSbar _ _ _ x y w => (z.copy.get 0).opensBelow m.seen.1 x y w || (z.copy.get 1).opensBelow m.seen.2 x y w
  | _ => false

/-- A c.sbar with a number up to n that still waits stands in a context's queue or run. -/
def Core.sbarBelow (z : Core) (x : Ctx) (n : Nat) : Bool :=
  let k := z.copy.get x
  let is := fun (m : CopyCmd) => m.num ≤ n && z.sbarOpen m
  k.queue.any is || k.run.any fun r => is r.cmd

/-- A c.sbar issued before holds the command of a context (R166). -/
def Core.sbarHolds (y : Core) (seen : Nat × Nat) (own : Option Ctx) : Bool :=
  (own != some 0 && y.sbarBelow 0 seen.1) || (own != some 1 && y.sbarBelow 1 seen.2)

/-- A replica of the core's seat that has been retired still runs command n of a context for the others (09_redundancy
R187). -/
def State.oldLeaderRuns (s : State) (c : CoreId) (x : Ctx) (n : Nat) : Bool :=
  match (s.coreAt c).node.inst with
  | none => false
  | some id => (s.instCores id).any fun g =>
      let z := s.coreAt g
      z.redun.retired && z.node.seat == (s.coreAt c).node.seat && (z.copy.get x).run.any fun r => r.cmd.led && r.cmd.num == n

/-- The head command of a context may start: no command runs or is stopped in it, its earlier accesses are
performed, no c.sbar holds it, and every replica has come to it. -/
def State.canStart (s : State) (c : CoreId) (x : Ctx) : Option CopyCmd :=
  let y := s.coreAt c
  let k := y.copy.get x
  match k.run, k.queue with
  | none, m :: _ =>
    let same := (State.replicas { s with cur := c }).all fun g =>
      (((s.coreAt g).copy.get x).queue.head?.map (·.num)) == some m.num
    let lead := y.csr.self == y.csr.lead
    if y.seq.mode == .idle || y.seq.mode == .halted || s.swappedOut c || y.seq.freeze != 0 || m.after.any y.openIds.contains ||
        y.sbarOpen m || y.sbarHolds m.seen (some x) || (m.led && (!lead || !same || s.oldLeaderRuns c x m.num)) then none
    else some m
  | _, _ => none

/-- The phase in which a command begins. -/
def firstPhase (m : CopyCmd) : CopyPhase :=
  match m.op with
  | .cSbar .. => .finish
  | .cRelay _ => if bitOf (m.q 2).toNat 63 then .relayOpen false else if bitOf (m.q 2).toNat 49 then .reqs else .relayRecv
  | _ => .reqs

/-- The head command starts, and its descriptor is checked; a malformed c.pref does nothing (R329). -/
def State.startCopy (s : State) (c : CoreId) (x : Ctx) : State :=
  match s.canStart c x with
  | none => s
  | some m =>
    let p : PartId := (s.coreAt c).csr.part.toFin
    let isPref := match m.op with | .cPref _ => true | _ => false
    let prefBad := isPref && (m.rows == 0 || m.len == 0 || m.q 1 != 0 || m.rv || m.cvt != 0 || m.dstr != 0 || 4 < m.rm ||
      fld (m.q 2).toNat 40 32 != 0)
    let err := (s.headErrors c p m).orElse fun _ => m.bad
    let r : CopyRun := {
      cmd := m, phase := if err.isSome || prefBad then .finish else firstPhase m
      row := 0, pos := 0, bytes := 0, rd := noRead, out := [], wd := none, err := err, stop := none, behind := none, flags := 0
      aux := 0, crc := 0xFFFFFFFF, res := [], since := s.cyc, bank := none, sent := s.cyc + 3 }
    s.onCtx c x fun k => { queue := k.queue.drop 1, run := some r }

/-! ### Row transfers (R323, R327, R330, R334) -/

/-- The source and destination devices of a row transfer. -/
def srcDev (m : CopyCmd) (o : XOp) : Option Nat := if o = .get then some m.dev else none
def dstDev (m : CopyCmd) (o : XOp) : Option Nat := if o = .put ∨ (m.rv ∧ o ≠ .get) then some m.dev else none

/-- The next row, or the place in the row, after n units. -/
def CopyRun.advance (r : CopyRun) (pl : Plan) (n : Nat) (ids : List Nat) (fl : Flags) : CopyRun :=
  let e := r.pos + n
  let r := { r with
    bytes := r.bytes + pl.done e - pl.done r.pos, rd := noRead, out := r.out ++ ids, flags := r.flags ||| fl }
  let r := if pl.units ≤ e then { r with row := r.row + 1, pos := 0 } else { r with pos := e }
  if r.cmd.rows ≤ r.row then { r with phase := .finish } else r

/-- The addresses a plan reads for units e to e + n − 1. -/
def Plan.reads (pl : Plan) (src : Side) (sa : W) (e n : Nat) : List W :=
  match pl with
  | .conv f _ _ => (srcElems f src sa e n).addrs
  | .bytes _ => (List.range n).map fun i => sa + .ofNat 64 (e + i)
  | .acc op _ => (List.range (op.opnd * n)).map fun i => sa + .ofNat 64 (op.opnd * e + i)
  | .fill8 _ | .fillE .. => []

/-- The bytes a plan writes for units e to e + n − 1 from the bytes read. -/
def Plan.writes (pl : Plan) (m : CopyCmd) (src : Side) (sa da : W) (e n : Nat) (got : List Byte) :
    List (W × Byte × Byte) × Flags :=
  match pl with
  | .bytes _ => ((got.zip (List.range n)).map fun (b, i) => (da + .ofNat 64 (e + i), b, 0xFF#8), 0)
  | .fill8 _ => ((List.range n).map fun i =>
      (da + .ofNat 64 (e + i), .ofNat 8 ((m.q 0).toNat / 2 ^ (8 * ((e + i) % 8))), 0xFF#8), 0)
  | .conv f g _ =>
    let (codes, fl) := srcCodes (srcElems f src sa e n) g m.rm m.sat got
    (dstBytes g da e codes, fl)
  | .fillE g c _ => (dstBytes g da e (List.replicate n c), 0)
  | .acc .. => ([], 0)

/-- The replicas' own source bytes of a request (09_redundancy R185). -/
def State.sourceVotes (s : State) (c : CoreId) (x : Ctx) (vas : List W) : List (CoreId × W) :=
  let l := c :: State.replicas { s with cur := c }
  l.map fun g => (g, sigFold (BitVec.allOnes 64) (match s.reachAll g x none vas .copyRead with
    | .ok a => a.map fun b => s.readByte b.2.1
    | .error _ => []))

/-- A request reads replica-local source data and the leader performs it: it is compared (R185). -/
def CopyCmd.checked (m : CopyCmd) (vas : List W) : Bool :=
  m.led && !vas.isEmpty && vas.all fun a => tagOfVa a == 5 || tagOfVa a == 6

/-- A compare of a request has agreed: one more compare in every replica (R186). -/
def State.countCmp (s : State) (c : CoreId) (m : CopyCmd) (vas : List W) : State :=
  if m.checked vas then
    (c :: State.replicas { s with cur := c }).foldl (init := s) fun s g => s.onCore g fun y =>
      { y with redun := { y.redun with cmpn := y.redun.cmpn + 1 } }
  else s

/-- A request that the leader performs with replica-local source data waits for its compare: the state in which it
goes on, or none after a mismatch. -/
def State.sourceCheck (s : State) (c : CoreId) (x : Ctx) (m : CopyCmd) (vas : List W) : State × Bool :=
  if m.checked vas then
    let v := s.sourceVotes c x vas
    match verdict v with
    | .agree => (s, true)
    | .retire g => (State.retire s g, g != c)
    | .mismatch => (s.mismatch 5 v, false)
  else (s, true)

/-- The next request of a row transfer. -/
def State.rowRequest (s : State) (c : CoreId) (x : Ctx) (r : CopyRun) (o : XOp) : State :=
  let m := r.cmd
  let p : PartId := (s.coreAt c).csr.part.toFin
  let (sa, da) := s.rowOf c p m o r.row
  match s.rowSides c p m o r.row with
  | none =>
    let a := if o = .fill then .at_ 0 true else s.reachOn c x (srcDev m o) sa .copyRead
    match a with
    | .at_ .. => s.copyStuck c x (s.reachOn c x (dstDev m o) da .copyWrite)
    | e => s.copyStuck c x e
  | some (src, dst) =>
    match rowPlan m o src dst with
    | .error n => s.copyErr c x n
    | .ok (pl, fl0) =>
      let e := r.pos
      let n := pl.request sa da e
      let vas := pl.reads src sa e n
      let covered := match src.role, src.idx with
        | 2, some i => (srcDev m o).isSome ||
            decide (fld sa.toNat 56 0 + ((pl.srcRange (e + n - 1)).map (·.2 + 1)).getD 0 ≤ (s.streamOf p i).wdone)
        | _, _ => true
      if !covered then s.onRun c x fun r => { r with phase := .streamWait, since := s.cyc }
      -- a fabric request with the release flag follows the answers of the earlier ones (02_fabric R33)
      else if m.rel ∧ !r.out.isEmpty ∧ (2 ^ 80 ≤ src.place ∨ 2 ^ 80 ≤ dst.place) then s
      else match s.engineRead c x r (srcDev m o) vas .copyRead with
        | .bad e => s.copyStuck c x e
        | .asked s => s
        | .have_ got bad =>
          match s.sourceCheck c x m vas with
          | (s, false) => s
          | (s, true) =>
            match pl with
            | .acc op _ =>
              let a := da + .ofNat 64 (op.size * e)
              let kind := AKind.acc (match op with | .acc k _ _ => k.toNat | _ => 0)
              if !bad.isEmpty then (s.metRead c x (srcDev m o) bad).copyErr c x 0x0B
              else match s.reachOn c x (dstDev m o) a kind with
                | .at_ place own =>
                  let rg := match op, dst.idx with
                    | .acc _ 26 _, some i => some (p, i)
                    | _, _ => none
                  if own then
                    let (s, _, st) := (s.countCmp c m vas).performRmw op place got [] rg
                    let s := if st = 0 then s else s.metPoison c x (s.poisoned (span place (op.size * n)))
                    s.onRun c x fun r =>
                      { r.advance pl n [] 0 with err := r.err.orElse fun _ => if st = 0 then none else some st }
                  else if !s.deskRoom c then s
                  else
                    let (s, id) := (s.countCmp c m vas).post c (coreIx x) 0 1 p place (.rmw op place got [] rg (m.release c))
                    s.onRun c x (·.advance pl n [id] 0)
                | e => s.copyStuck c x e
            | _ =>
              let (l, fl) := pl.writes m src sa da e n got
              let l := if pl.units ≤ e + n then l ++ dst.unusedScales da else l
              let hit := if bad.isEmpty then [] else (List.range n).filter fun i => (pl.reads src sa (e + i) 1).any bad.contains
              let badDst := hit.flatMap fun i =>
                let (a, b) := pl.dstRange (e + i)
                (List.range (b + 1 - a)).map fun k => da + .ofNat 64 (a + k)
              match s.engineWrite c x m (dstDev m o) l badDst with
              | .error e => s.copyStuck c x e
              | .ok (s, ids) =>
                ((s.countCmp c m vas).metRead c x (srcDev m o) bad).onRun c x fun r =>
                  let r := r.advance pl n ids (fl ||| fl0)
                  let r := match dst.role, dst.idx with
                    | 2, some i => { r with wd := some (i, (r.wd.map (·.2.1)).getD (fld da.toNat 56 0), fld da.toNat 56 0 + pl.done (e + n)) }
                    | _, _ => r
                  if bad.isEmpty then r else { r with phase := .finish, err := some 0x0B }

/-! ### Fetch-ops (R335) -/

def State.fopRequest (s : State) (c : CoreId) (x : Ctx) (r : CopyRun) (o : BitVec 3) : State :=
  let m := r.cmd
  let p : PartId := (s.coreAt c).csr.part.toFin
  let w := (m.q 2).toNat
  let op : Rmw := .fop o (bitOf w 59) (bitOf w 58)
  let dev := if m.rv then some m.dev else none
  if !r.out.isEmpty then s
  else if r.err.isSome ∨ fld w 6 0 ≤ r.pos then s.copyPhase c x .finish
  else
    let n := if o = 7 then 2 * op.size else op.size
    let vas := (List.range n).map fun i => m.q 0 + .ofNat 64 (n * r.pos + i)
    let a := m.q 1 + .ofNat 64 (op.size * r.pos)
    match s.engineRead c x r none vas .copyRead with
    | .bad e => s.copyStuck c x e
    | .asked s => s
    | .have_ got bad =>
      if !bad.isEmpty then (s.metRead c x none bad).copyErr c x 0x0B
      else match s.sourceCheck c x m vas with
        | (s, false) => s
        | (s, true) =>
          let cmp := if o = 7 then got.take op.size else []
          let v := if o = 7 then got.drop op.size else got
          let next := fun (r : CopyRun) => { r with pos := r.pos + 1, bytes := r.bytes + op.size, rd := noRead }
          match s.reachOn c x dev a .fop with
          | .at_ place own =>
            if own then
              let (s, old, st) := (s.countCmp c m vas).performRmw op place v cmp none
              let s := if st = 0 then s else s.metPoison c x (s.poisoned (span place op.size))
              s.onRun c x fun r => { next r with
                res := r.res ++ old, err := r.err.orElse fun _ => if st = 0 then none else some st }
            else if !s.deskRoom c then s
            else
              let (s, id) := (s.countCmp c m vas).post c (coreIx x) 0 1 p place (.rmw op place v cmp none (m.release c))
              s.onRun c x fun r => { next r with out := r.out ++ [id] }
          | e => s.copyStuck c x e

/-! ### c.pref (R329) -/

def State.prefRow (s : State) (c : CoreId) (x : Ctx) (r : CopyRun) : State :=
  let m := r.cmd
  let p : PartId := (s.coreAt c).csr.part.toFin
  let a := m.q 0 + .ofNat 64 r.row * m.sstr
  let f := ((s.sideOf c p a).map (·.fmt)).getD 0
  let n := rowSpan f m.len
  let grans := (List.range ((a.toNat % 4096 + n + 4095) / 4096)).map fun i => a.toNat / 4096 * 4096 + 4096 * i
  let s := grans.foldl (init := s) fun s g =>
    let off := fld g 56 0
    if 3 < fld g 63 61 ∨ fld g 60 57 ≠ 0 then s
    else match rangeAt (s.partAt p) off with
      | _ :: _ :: _ => s
      | [(i, r)] => if (rangeAttr i r).any fun a => a.role = 0 ∨ a.role = 1 then s.rangeFill c p i else s
      | [] => match s.pageWalk p off with
        | .ok (pte, base, size) => s.tlbFill c ⟨p, base, size, .ofNat 64 pte⟩
        | .error _ => s
  s.onRun c x fun r => { r with row := r.row + 1, phase := if m.rows ≤ r.row + 1 then .finish else .reqs }

/-! ### c.decomp (R332, R333) -/

/-- CRC-32C of one more byte. -/
def crcBits : Nat → Nat → Nat
  | 0, c => c
  | n + 1, c => crcBits n (if c % 2 = 1 then (c / 2) ^^^ 0x82F63B78 else c / 2)
def crc32c (c : Nat) (l : List Byte) : Nat := l.foldl (fun c b => crcBits 8 (c ^^^ b.toNat)) c

/-- PATTERN with the set positions of MASK, ascending, replaced by bits. -/
def fillPattern (pattern mask : Bundle) (bits : Nat) : Bundle :=
  let (v, _) := (List.range 128).foldl (init := (0, bits)) fun (v, b) i =>
    if mask.getLsbD i then (v + b % 2 * 2 ^ i, b / 2) else (v + b2n (pattern.getLsbD i) * 2 ^ i, b)
  .ofNat 128 v

/-- A bundle is written into the idle half: the fetch unit may still hold the earlier one. -/
def Half.put (h : Half) (b : Nat) (v : Bundle) (now : W) : Half :=
  let old : Bundle := ((h.cells.find? fun c => c.1 == b).map (·.2)).getD 0
  { h with
    cells := if v = 0 then h.cells.filter (·.1 != b)
      else h.cells.filter (·.1 < b) ++ (b, v) :: h.cells.filter (b < ·.1)
    stale := if h.stale.any (·.1 == b) then h.stale else h.stale ++ [(b, old)]
    poison := h.poison.filter (· != b), lastUse := now }

def idleIx (y : Core) : Fin 2 := if y.seq.pc.half then 0 else 1
def Core.setIdle (y : Core) (h : Half) : Core := { y with halves := y.halves.set (idleIx y).val h (idleIx y).isLt }

/-- The idle half no longer holds a graph's segment. -/
def Core.dropSeg (y : Core) : Core :=
  { y with node := { y.node with seg := y.node.seg.set (idleIx y).val none (idleIx y).isLt } }

/-- The cores whose idle half a command fills: its own and, when it is led, the followers' (09_redundancy R178). -/
def State.halfCores (s : State) (c : CoreId) (m : CopyCmd) : List CoreId :=
  c :: if m.led then State.replicas { s with cur := c } else []
def State.onHalves (s : State) (c : CoreId) (m : CopyCmd) (f : Core → Core) : State :=
  (s.halfCores c m).foldl (fun s g => s.onCore g f) s

/-- A half in retention, or on its way out of it. -/
def Half.asleep (h : Half) : Bool := h.retained || h.leaving
/-- A half in retention begins to leave it (07_faults R142). -/
def Half.wake (h : Half) (now : W) : Half :=
  if h.asleep then { h with leaving := true, lastUse := if h.leaving then h.lastUse else now } else h

/-- One bundle. A source in this module's memory is read at once: through the crossbar no command could meet the bound
of 19_prog_overlay R370. -/
def State.decompStep (s : State) (c : CoreId) (x : Ctx) (r : CopyRun) : State :=
  let m := r.cmd
  let w := (m.q 2).toNat
  let y := s.coreAt c
  let h := bitOf (m.q 1).toNat 63 && fld (m.q 1).toNat 62 12 == 0
  let p : PartId := y.csr.part.toFin
  let idle := fun (y : Core) => y.halves.get (idleIx y)
  let ready := fun (n : Nat) => match s.sideOf c p (m.q 0) with
    | some { role := 2, idx := some i, .. } => decide (fld (m.q 0).toNat 56 0 + r.aux + n ≤ (s.streamOf p i).wdone)
    | _ => true
  if fld w 44 32 ≤ r.pos then s.copyPhase c x .finish
  else if fld w 31 0 ≤ r.aux then s.copyErr c x 2
  else if h ∧ (s.halfCores c m).any fun g => (idle (s.coreAt g)).asleep then
    s.onHalves c m fun y => y.setIdle ((idle y).wake s.cyc)
  else
    let at_ := m.q 0 + .ofNat 64 r.aux
    if !ready 1 then s.onRun c x fun r => { r with phase := .streamWait, since := s.cyc }
    else match s.engineRead c x r none [at_] .copyRead true with
    | .bad e => s.copyStuck c x e
    | .asked s => s
    | .have_ got bad =>
      let t := (got.headD 0).toNat
      match (if t = 255 then some (0, 16) else (y.templates[t]?).map fun e =>
          (1, ((List.range 128).filter e.2.getLsbD).length + 7)) with
      | none => s.copyErr c x 2
      | some (form, k) =>
        let n := if form = 0 then 16 else k / 8
        if !bad.isEmpty then (s.metRead c x none bad).copyErr c x 0x0B
        else if fld w 31 0 < r.aux + 1 + n then s.copyErr c x 2
        else if !ready (1 + n) then s.onRun c x fun r => { r with phase := .streamWait, since := s.cyc }
        else match s.engineRead c x r none ((List.range (1 + n)).map fun i => at_ + .ofNat 64 i) .copyRead true with
        | .bad e => s.copyStuck c x e
        | .asked s => s
        | .have_ got bad =>
          if !bad.isEmpty then
            let s := (s.metRead c x none bad).copyErr c x 0x0B
            if h then s.onHalves c m fun y =>
              y.setIdle { idle y with poison := numInsert (idle y).poison (fld (m.q 1).toNat 11 0 + r.pos), lastUse := s.cyc }
            else
              let at_ := (List.range 16).map fun i => m.q 1 + .ofNat 64 (16 * r.pos + i)
              match s.engineWrite c x m none (at_.map fun a => (a, 0, 0xFF#8)) at_ with
              | .error _ => s
              | .ok (s, _) => s
          else
            let bits := leNat (got.drop 1)
            let b : Bundle := match y.templates[t]? with
              | some (pt, mask) => if t = 255 then .ofNat 128 bits else fillPattern pt mask bits
              | none => .ofNat 128 bits
            let bytes := leBytes 16 b.toNat
            let next := fun (r : CopyRun) => { r with
              pos := r.pos + 1, bytes := r.bytes + 16, aux := r.aux + 1 + n, rd := noRead, crc := crc32c r.crc bytes }
            if h then
              (s.onHalves c m fun y =>
                (y.setIdle ((idle y).put (fld (m.q 1).toNat 11 0 + r.pos) b s.cyc)).dropSeg).onRun c x next
            else
              let l := (bytes.zip (List.range 16)).map fun (v, i) =>
                (m.q 1 + .ofNat 64 (16 * r.pos + i), v, 0xFF#8)
              match s.engineWrite c x m none l [] with
              | .error e => s.copyStuck c x e
              | .ok (s, ids) => s.onRun c x fun r => { next r with out := r.out ++ ids }

/-- At most so many bundles. -/
def State.decompSteps : Nat → State → CoreId → Ctx → CopyRun → State
  | 0, s, _, _, _ => s
  | k + 1, s, c, x, r =>
    let t := s.decompStep c x r
    match t.runOf c x with
    | some r' => if r'.pos = r.pos then t else State.decompSteps k t c x r'
    | none => t

/-! ### Key-value commands (R336) -/

/-- One token of c.kvput: its key row, then its value row. -/
def State.kvputStep (s : State) (c : CoreId) (x : Ctx) (r : CopyRun) : State :=
  let m := r.cmd
  let w := (m.q 2).toNat
  let p : PartId := (s.coreAt c).csr.part.toFin
  let g := (s.partAt p).kg
  let n := fld w 31 0
  let half := fld w 33 32
  let va := kvAtToken (m.q 1) (kvT (m.q 1) + r.pos)
  if n ≤ r.pos then s.copyPhase c x .finish
  else if 2 ^ 22 ≤ kvT (m.q 1) + r.pos then
    s.copyStuck c x (.stop (copyTrap x (kvFault va ((s.partAt p).kvPast va))))
  else match s.kvWalk p va (s.kvLens p (kvS va) (kvL va)).1 none with
    | .error k => s.copyStuck c x (.stop (copyTrap x (kvFault va k)))
    | .ok i =>
      let (ka, va_) := (s.partAt p).kvRows i (kvT va)
      let rb := kvRb g
      let rows := (if bitOf half 0 then [(r.pos * rb, ka)] else []) ++
        (if bitOf half 1 then [((if half = 3 then n * rb else 0) + r.pos * rb, va_)] else [])
      let vas := rows.flatMap fun (o, _) => (List.range rb).map fun i => m.q 0 + .ofNat 64 (o + i)
      match s.engineRead c x r none vas .copyRead with
      | .bad e => s.copyStuck c x e
      | .asked s => s
      | .have_ got bad =>
        match s.sourceCheck c x m vas with
        | (s, false) => s
        | (s, true) =>
          let places := rows.flatMap fun (_, a) => (List.range rb).map (a + ·)
          if !(rows.all fun (_, a) => s.accessOk (targetOf a) (masterOf c (coreIx x)) p 1 false) then
            s.copyErr c x 0x0A
          else if !s.deskRoom c then s
          else
            let badAt := ((vas.zip places).filter fun a => bad.contains a.1).map (·.2)
            let (s, ids) := s.enginePut c x m false ((places.zip got).map fun (a, b) => (a, b, 0xFF#8)) badAt
            ((s.countCmp c m vas).metRead c x none bad).onRun c x fun r => { r with
              pos := r.pos + 1, bytes := r.bytes + rb * rows.length, rd := noRead, out := r.out ++ ids
              err := if bad.isEmpty then r.err else some 0x0B, phase := if bad.isEmpty then r.phase else .finish }

/-- The parts of a list of addresses that one request each reads. -/
def chunks256 : Nat → List W → List (List W)
  | 0, _ => []
  | n + 1, l => if l.isEmpty then [] else l.take 256 :: chunks256 n (l.drop 256)

/-- The source of a c.kvapp, request by request, is compared (09_redundancy R185). -/
def State.appendCheck (s : State) (c : CoreId) (x : Ctx) (m : CopyCmd) : State × Bool :=
  match m.op with
  | .cKvapp _ =>
    let vas := (List.range (8 * fld (m.q 2).toNat 8 0)).map fun i => m.q 0 + .ofNat 64 i
    (chunks256 16 vas).foldl (init := (s, true)) fun st l =>
      if st.2 then
        let (s, ok) := st.1.sourceCheck c x m l
        (if ok then s.countCmp c m l else s, ok)
      else st
  | _ => (s, true)

/-- A request enters the pool manager's line (05_kvspace R90, R104). -/
def State.toManager (s : State) (c : CoreId) (x : Ctx) (m : CopyCmd) : State :=
  match s.appendCheck c x m with
  | (s, false) => s
  | (s, true) => { s with ms := { s.ms with manager := s.ms.manager ++ [(c, x)] } }.copyPhase c x .manager

/-- A stop by the pool manager: the whole command is reissued. -/
def State.managerStop (s : State) (c : CoreId) (x : Ctx) (t : Trap) : State :=
  s.onRun c x fun r => { r with phase := .reqs, stop := some (copyTrap x t) }

/-- POOL_MANAGER_REQUEST (05_kvspace R90, R95 to R100): the oldest request. -/
def execPoolManagerRequest (s : State) : Out :=
  match s.ms.manager with
  | [] => .next s
  | (c, x) :: rest =>
    let s := { s with ms := { s.ms with manager := rest } }
    let p : PartId := (s.coreAt c).csr.part.toFin
    match s.runOf c x with
    | none => .next s
    | some r =>
      let m := r.cmd
      match m.op with
      | .cKvapp _ =>
        let vas := (List.range (8 * fld (m.q 2).toNat 8 0)).map fun i => m.q 0 + .ofNat 64 i
        match s.reachAll c x none vas .copyRead with
        | .error (.stop t) => .next (s.managerStop c x t)
        | .error e => .next (s.copyStuck c x e)
        | .ok l =>
          let bad := s.poisoned (l.map (·.2.1))
          if !bad.isEmpty then .next ((s.metPoison c x bad).copyErr c x 0x0B)
          else
            let b := l.map fun a => s.readByte a.2.1
            let recs := (List.range (fld (m.q 2).toNat 8 0)).map fun i => leNat ((b.drop (8 * i)).take 8)
            match s.kvAppend p recs with
            | .ok s => .next (s.copyPhase c x .finish)
            | .error t => .next (s.managerStop c x t)
      | _ =>
        match s.kvInv p (fld (m.q 2).toNat 63 62) (m.q 1) (fld (m.q 2).toNat 21 0) with
        | .ok (s, pages) => .next (s.copyPhase c x (.pins pages))
        | .error t => .next (s.managerStop c x t)

/-! ### Accesses on their way -/

def inSpan (lo n a : Nat) : Bool := lo ≤ a && a < lo + n

/-- Packets of a die that a port has not performed. -/
def Xbar.packets (b : Xbar) : List Pkt :=
  b.wait ++ b.recv ++ b.slices.toList.flatMap fun q => q.recv ++ q.writes.map (·.1)

/-- An access to bytes of a range of places is translated and not performed. -/
def State.pending (s : State) (lo n : Nat) : Bool :=
  (((s.xbarAt .e).packets ++ (s.xbarAt .w).packets).any fun k => k.body.places.any (inSpan lo n)) ||
  allCores.any fun c => (s.coreAt c).ownStores.any fun b => inSpan lo n b.1

/-- The pages that have left the tables are done with once no pipe pins them and every row sent to them is there; those to
be freed return (05_kvspace R100, R104). -/
def State.kvFreed (s : State) (c : CoreId) (x : Ctx) (pages : List (Nat × Bool)) : State :=
  let p : PartId := (s.coreAt c).csr.part.toFin
  let y := s.partAt p
  if s.kvUnpinned p (pages.map (·.1)) && pages.all fun i => !s.pending (y.kvPage i.1) (kvPg y.kg) then
    ((pages.filter (·.2)).foldl (fun s i => s.kvReturn p i.1) s).copyPhase c x .finish
  else s

/-! ### c.relay (R331, 02_fabric R35) -/

/-- The open of the next module, or a chunk to it. -/
def State.relaySend (s : State) (c : CoreId) (x : Ctx) (m : CopyCmd) (op : Nat) (k : FabPacket) : State :=
  let p : PartId := (s.coreAt c).csr.part.toFin
  let id := s.nextId
  let s := ({ s with nextId := id + 1 }.onRun c x fun r => { r with out := r.out ++ [id] })
  s.request c (coreIx x) 0 id p (fld (m.q 2).toNat 62 50) op [] k

/-- The chain is opened, or opened again. -/
def State.relayOpen (s : State) (c : CoreId) (x : Ctx) (m : CopyCmd) : State :=
  (s.relaySend c x m 1 { (default : FabPacket) with va := m.q 1, op0 := .ofNat 64 (2 ^ 63) }).onRun c x fun r =>
    { r with phase := .relayOpen false, aux := 1 }

/-- The head's next chunk. -/
def State.relayStep (s : State) (c : CoreId) (x : Ctx) (r : CopyRun) : State :=
  let m := r.cmd
  let w := (m.q 2).toNat
  let p : PartId := (s.coreAt c).csr.part.toFin
  let total := fld w 39 0
  let n := min 256 (total - r.pos)
  if total ≤ r.pos then s.copyPhase c x .finish
  else if m.rel ∧ bitOf w 63 ∧ !r.out.isEmpty then s
  else
    let vas := (List.range n).map fun i => m.q 0 + .ofNat 64 (r.pos + i)
    match s.engineRead c x r none vas .copyRead with
    | .bad e => s.copyStuck c x e
    | .asked s => s
    | .have_ got bad =>
      match s.sourceCheck c x m vas with
      | (s, false) => s
      | (s, true) =>
        let badDst := ((vas.zip (List.range n)).filter fun a => bad.contains a.1).map fun a =>
          m.q 1 + .ofNat 64 (r.pos + a.2)
        let l := (got.zip (List.range n)).map fun (b, i) => (m.q 1 + .ofNat 64 (r.pos + i), b, 0xFF#8)
        match s.engineWrite c x m none l badDst with
        | .error e => s.copyStuck c x e
        | .ok (s, ids) =>
          let s := s.countCmp c m vas
          if !bad.isEmpty then (s.metRead c x none bad).copyErr c x 0x0B
          else
          let s := if bitOf w 63 then s.relaySend c x m 6 { (default : FabPacket) with
              va := m.q 1 + .ofNat 64 r.pos, op1 := m.q 1, data := got, cnt := .ofNat 64 n } else s
          let end_ := fld (m.q 1).toNat 56 0 + r.pos + n
          s.onRun c x fun r => { r with
            pos := r.pos + n, bytes := r.bytes + n, rd := noRead, out := r.out ++ ids
            wd := match s.sideOf c p (m.q 1) with
              | some { idx := some i, .. } => some (i, fld (m.q 1).toNat 56 0, end_)
              | _ => r.wd }

/-- RELAY_DATA (02_fabric R35): a chunk is written, and forwarded when there is a next module. -/
def execRelayData (s : State) : Out :=
  let d := s.inp.die
  match (s.fabAt d).firstOf [6] with
  | none => .next s
  | some k =>
    match (s.fabAt d).member none k.key with
    | none => .next (s.endDrop d k)
    | some (_, p) =>
      match (s.fabAt d).relays.find? fun e => e.1 == k.op1 && (s.coreAt e.2.1).csr.part.toFin == p with
      -- DESIGN CHOICE (assumption 76): R35 does not say what a chunk finds that no opened relay takes
      | none => .next ((s.takePkt d k).answerAck p k 0x0A [])
      | some (_, c, x) =>
        match s.runOf c x with
        | some r =>
          let m := r.cmd
          if m.q 1 ≠ k.op1 then .next ((s.takePkt d k).answerAck p k 0x0A [])
          else if r.phase ≠ .relayRecv ∨ r.stop.isSome then .next s
          else
            let l : List (W × Byte × Byte) := (k.data.zip (List.range k.data.length)).map fun b =>
              (k.va + .ofNat 64 b.2, b.1, 0xFF#8)
            match s.reachAll c x none (l.map (·.1)) .copyWrite with
            | .error e => .next (s.copyStuck c x e)
            | .ok a =>
              let s := (s.takePkt d k).writePlaces ((l.zip a).map fun (v, a) => (a.2.1, v.2))
              let n := k.data.length
              let pos := r.pos + n
              let s := match s.sideOf c p (m.q 1) with
                | some { idx := some i, .. } =>
                  let o := fld (m.q 1).toNat 56 0
                  s.wdone p i (o + r.pos) (o + pos) (some k.data)
                | _ => s
              let s := if bitOf (m.q 2).toNat 63 then s.relaySend c x m 6 { (default : FabPacket) with
                  va := k.va, op1 := k.op1, data := k.data, cnt := k.cnt } else s
              let s := s.onRun c x fun r => { r with
                pos := pos, bytes := r.bytes + n, since := s.cyc
                phase := if fld (m.q 2).toNat 39 0 ≤ pos then .finish else .relayRecv }
              .next (s.answerAck p k 0 [])
        | none => .next s

/-- RELAY_OPEN_RETRY (02_fabric R35): every 1 µs. -/
def execRelayOpenRetry (s : State) : Out :=
  let c := s.inp.core
  let x := s.inp.ctx
  match s.runOf c x with
  | some r =>
    if r.phase = .relayOpen true ∧ r.since.toNat + us 1 ≤ s.cyc.toNat then .next (s.relayOpen c x r.cmd) else .next s
  | none => .next s

/-- RELAY_STALL_TIMEOUT (R331). -/
def execRelayStallTimeout (s : State) : Out :=
  let c := s.inp.core
  let x := s.inp.ctx
  match s.runOf c x with
  | some r =>
    if r.phase = .relayRecv ∧ r.since.toNat + us 100 ≤ s.cyc.toNat then .next (s.copyErr c x 0x0A) else .next s
  | none => .next s

end Sys2Proof.Machine
end

