-- ==== Sys2Proof/Machine/Recast.lean ====
section
/-!
DEFINITION. Recast and migration (04_spaces R79 to R85, 15_copy R337, R339).
-/

namespace Sys2Proof.Machine

/-! ### Accesses on their way -/

/-- Packets that a slice has accepted. -/
def Xbar.accepted (b : Xbar) : List Pkt :=
  b.recv ++ b.slices.toList.flatMap fun q => q.recv ++ q.writes.map (·.1)

/-! ### The range store -/

def Range.has (r : Range) (i : Nat) : Bool := bitOf r.attr.toNat i
def Range.fmt (r : Range) : Nat := fld r.attr.toNat 59 55
def Range.role (r : Range) : Nat := fld r.attr.toNat 62 60
def Range.size (r : Range) : Nat := r.limit.toNat - r.base.toNat
def Range.gen (r : Range) : Nat := fld r.attr.toNat 25 14
/-- ATTR with the field [hi:lo] replaced. -/
def setFld (w : W) (hi lo v : Nat) : W := .ofNat 64 (w.toNat - fld w.toNat hi lo * 2 ^ lo + v % 2 ^ (hi + 1 - lo) * 2 ^ lo)

def Part.rangeIx (x : Part) (i : Nat) : Option Range := (x.ranges.find? (·.1 == i)).map (·.2)
def Part.setRange (x : Part) (i : Nat) (r : Range) : Part :=
  { x with ranges := (i, r) :: x.ranges.filter (·.1 != i) }
/-- The entry a handle names (R70). -/
def Part.byHandle (x : Part) (h : Nat) : Option (Nat × Range) :=
  match x.rangeIx (fld h 10 0) with
  | some r => if r.has 63 ∧ r.gen = fld h 23 12 then some (fld h 10 0, r) else none
  | none => none
def handleOf (i : Nat) (r : Range) : Nat := r.gen * 4096 + i

/-- The lowest free indices, with the generation each last had. -/
def Part.freeRanges (x : Part) (n : Nat) : List (Nat × Nat) :=
  ((List.range 2048).filterMap fun i => match x.rangeIx i with
    | none => some (i, 0)
    | some r => if r.has 63 then none else some (i, r.gen)).take n

/-- A change of a range entry drops it from the range caches, and the TLB entries it overlaps (R77). -/
def State.rangeChanged (s : State) (p : PartId) (i : Nat) (r : Range) : State :=
  (s.dropTlb p r.base.toNat r.size).dropRange p i

/-! ### Steps 1 and 2 -/

/-- The command's fields (R337). -/
def rcHandle (m : CopyCmd) : Nat := fld (m.q 0).toNat 31 0
def rcFull (m : CopyCmd) : Bool := bitOf (m.q 2).toNat 43
def rcTo (m : CopyCmd) : Nat := fld (m.q 2).toNat 61 60
def rcFrom (m : CopyCmd) : Nat := fld (m.q 2).toNat 63 62
def rcFmt (m : CopyCmd) (r : Range) : Nat := if bitOf (m.q 2).toNat 59 then fld (m.q 2).toNat 58 54 else r.fmt

/-- The format change is one of R81, or none. -/
def fmtChangeOk (r : Range) (f : Nat) : Bool :=
  r.fmt == f || r.fmt == 0 || f == 0 || (r.fmt == 26 && f == 1) || (r.fmt == 1 && f == 26 && r.has 27)

/-- Part [lo, hi) of an entry, in bytes from BASE. -/
def Range.part (r : Range) (lo hi : Nat) : Range :=
  { r with base := r.base + .ofNat 64 lo, limit := r.base + .ofNat 64 hi
           pbase := if fld r.attr.toNat 51 50 = 2 then r.pbase else r.pbase + .ofNat 64 lo }

/-- The entry is split (R80): the state and the index of the recast part; none when no entry is free. -/
def State.splitRange (s : State) (p : PartId) (i : Nat) (r : Range) (off len : Nat) : Option (State × Nat) :=
  let parts := ([(0, off), (off, off + len), (off + len, r.size)]).filter fun e => e.1 < e.2
  let free := (s.partAt p).freeRanges (parts.length - 1)
  if free.length + 1 < parts.length then none
  else
    let named := parts.zip ((i, r.gen) :: free.map fun f => (f.1, (f.2 + 1) % 4096))
    let st := s.streamOf p i
    let s := s.onPart p fun x => named.foldl (fun x e =>
      let q := r.part e.1.1 e.1.2
      let x := x.setRange e.2.1 { q with attr := setFld q.attr 25 14 e.2.2 }
      if r.role = 2 then { x with streams := { st with index := e.2.1 } :: x.streams.filter (·.index != e.2.1) } else x) x
    (named.find? fun e => e.1.1 == off).map fun e => (s, e.2.1)

/-- The result word is the handle of the recast part; trap is 0, or the cause raised at completion. -/
def State.recastEnd (s : State) (c : CoreId) (x : Ctx) (h trap : Nat) : State :=
  s.onRun c x fun r => { r with phase := .finish, res := leBytes 8 h, aux := trap }

/-- Steps 1 to 3: waits, checks, the split, and the mark that holds later accesses. -/
def State.recastBegin (s : State) (c : CoreId) (x : Ctx) (m : CopyCmd) : State :=
  let p : PartId := (s.coreAt c).csr.part.toFin
  let h := rcHandle m
  match (s.partAt p).byHandle h with
  | none => s.copyStuck c x (.stop (copyTrap x { code := 8, reason := 3, info := .ofNat 64 h }))
  | some (i, r) =>
    let to_ := rcTo m
    let f := rcFmt m r
    let off := if rcFull m then 0 else (m.q 1).toNat
    let len := if rcFull m then r.size else (m.q 3).toNat
    let accop := fld (m.q 2).toNat 46 44
    if r.has 26 then s.copyPhase c x .recastWait
    else if r.size < off + len then s.copyErr c x 2
    else if r.role = to_ ∧ r.fmt = f then s.recastEnd c x h 0
    else if (r.role ≠ rcFrom m ∧ r.role ≠ to_) ∨ (rcFrom m ≠ r.role ∧ rcFrom m ≠ to_) ∨ !fmtChangeOk r f ∨
        (f ≠ r.fmt ∧ (off ≠ 0 ∨ len ≠ r.size)) ∨ (to_ = 3 ∧ f ≠ 26 ∧ accop = 1) then s.copyErr c x 9
    else if r.role = 2 ∧ to_ ≠ 2 ∧ r.has 46 ∧ !r.has 45 then
      let st := s.streamOf p i
      if st.checked then s.recastEnd c x h 0x0F else s.copyPhase c x .recastWait
    else
      match (if off = 0 ∧ len = r.size then some (s, i) else s.splitRange p i r off len) with
      | none => s.recastEnd c x h 0x0E
      | some (s, j) =>
        let s := s.onPart p fun y => match y.rangeIx j with
          | some q => y.setRange j { q with attr := setFld q.attr 26 26 1 }
          | none => y
        ((s.rangeChanged p i r).dropRange p j).copyPhase c x (.recastDrain j)

/-! ### Steps 4 to 6 -/

/-- The address at which a peer module knows byte o of an entry, and its place (R73): the tag is the entry's role. -/
def Range.peerVa (r : Range) (o : Nat) : Nat := r.role * 2 ^ 61 + r.base.toNat + o
def Range.peerDev (r : Range) : Nat := fld r.pbase.toNat 12 0
def Range.peerPlace (r : Range) (o : Nat) : Nat := 2 ^ 80 * (1 + r.peerDev) + r.peerVa o

/-- An access to bytes of an extent is translated and not performed (R79 step 4): at its backing, at the copy on die W, or
on its way to the peer module that holds it. -/
def State.extentBusy (s : State) (r : Range) : Bool :=
  let a := r.pbase.toNat
  if fld r.attr.toNat 51 50 = 2 then
    s.pending (r.peerPlace 0) r.size ||
    ((s.fabAt .e).reqs ++ (s.fabAt .w).reqs).any fun q => q.dst.toNat == r.peerDev &&
      r.base.toNat < fld q.va.toNat 56 0 + q.len && fld q.va.toNat 56 0 < r.limit.toNat
  else s.pending a r.size || (r.has 49 && s.pending (a + 0x4000000000) r.size)

/-- RECAST_DRAIN_END (R79 step 4). -/
def execRecastDrainEnd (s : State) : Out :=
  let c := s.inp.core
  let x := s.inp.ctx
  let p : PartId := (s.coreAt c).csr.part.toFin
  match s.runOf c x with
  | some { phase := .recastDrain j, .. } =>
    match (s.partAt p).rangeIx j with
    | none => .next (s.copyPhase c x .finish)
    | some r =>
      if s.extentBusy r then .next s else .next (s.copyPhase c x (.recastRewrite j))
  | _ => .next s

/-- FX128 elements become FP32, front to back. -/
def rewrite32 (m : Memory) (a point n : Nat) : Memory :=
  (List.range n).foldl (fun m i => m.writeNum (a + 4 * i) 4
    (f32OfFx128 (signed 16 (m.num (a + 16 * i) 16)) point)) m

/-- FP32 elements become FX128, back to front; whether one overflowed, or was NaN. -/
def rewrite128 (m : Memory) (a point n : Nat) : Memory × Bool × Bool :=
  (List.range n).reverse.foldl (init := (m, false, false)) fun st i =>
    let (v, ovf, nan) := toFx128 (st.1.num (a + 4 * i) 4) point
    (st.1.writeNum (a + 16 * i) 16 (v.emod (2 ^ 128 : Nat)).toNat, st.2.1 || ovf, st.2.2 || nan)

/-- A range of bytes with its poison is copied to another place. -/
def Memory.copyRange (m : Memory) (a b n : Nat) : Memory :=
  let cells := m.slice a n
  let bad := m.poison.filter (inSpan a n)
  let m := m.zeroRange b n
  let m := cells.foldl (fun m c => m.write (c.1 - a + b) c.2) m
  bad.foldl (fun m w => m.poisonAt (w - a + b)) m

/-- The format change of the data of an extent that starts at a: the memory, the bytes it has then, whether a conversion
overflowed, or met a NaN. DESIGN CHOICE (assumption 77): where LIMIT was rounded up to 64 KiB, the data size that R81
multiplies by four is the rounded LIMIT − BASE: the entry holds no other. -/
def rewriteData (m : Memory) (r : Range) (f a point : Nat) : Memory × Nat × Bool × Bool :=
  if r.fmt = 26 ∧ f = 1 then (rewrite32 m a point (r.size / 16), ceilDiv (r.size / 4) 65536 * 65536, false, false)
  else if r.fmt = 1 ∧ f = 26 then
    let (k, o, n) := rewrite128 m a point (r.size / 4)
    (k, 4 * r.size, o, n)
  else (m, r.size, false, false)

/-- The conversion writes new data. -/
def rewrites (r : Range) (f : Nat) : Bool := (r.fmt == 26 && f == 1) || (r.fmt == 1 && f == 26)

/-- FXPOINT after a recast to a format. -/
def rcPoint (m : CopyCmd) (r : Range) : Nat :=
  if rcFmt m r = 26 ∧ r.fmt ≠ 26 then fld (m.q 2).toNat 53 47 else fld r.attr.toNat 37 31

/-- Step 5 of a recast of an extent that a peer module holds: its data is read from there. -/
def State.peerReads (s : State) (c : CoreId) (x : Ctx) (r : Range) : State :=
  let p : PartId := (s.coreAt c).csr.part.toFin
  (List.range (r.size / 256)).foldl (init := s) fun s i =>
    let o := 256 * i
    let at_ := span (r.peerPlace o) 256
    let id := s.nextId
    let s := ({ s with nextId := id + 1 }).onRun c x fun q => { q with rd := { q.rd with
      asked := q.rd.asked ++ at_.map fun a => (a, (.ofNat 64 (a - r.peerPlace 0) : W)), left := q.rd.left ++ [id] } }
    s.request c (coreIx x) 0 id p r.peerDev 0 at_ { (default : FabPacket) with va := .ofNat 64 (r.peerVa o), cnt := 256 }

/-- The converted data is written back, and whether its conversion overflowed or met a NaN is kept. -/
def State.peerWrites (s : State) (c : CoreId) (x : Ctx) (m : CopyCmd) (r : Range) (q : CopyRun) : State :=
  let p : PartId := (s.coreAt c).csr.part.toFin
  let old := q.rd.known.foldl (fun k b => k.write b.1.toNat b.2) Memory.empty
  let (k, n, o, nan) := rewriteData old r (rcFmt m r) 0 (rcPoint m r)
  let s := s.onRun c x fun q => { q with rd := noRead, aux := 1 + 2 * b2n o + 4 * b2n nan }
  (List.range (n / 256)).foldl (init := s) fun s i =>
    let id := s.nextId
    let s := ({ s with nextId := id + 1 }).onRun c x fun q => { q with out := q.out ++ [id] }
    s.request c (coreIx x) 0 id p r.peerDev 1 [] { (default : FabPacket) with
      va := .ofNat 64 (r.peerVa (256 * i)), data := k.bytes (256 * i) 256, cnt := 256 }

/-- Step 6 of a recast (R79, R81): the entry of the recast part. DESIGN CHOICE (assumption 78): R81 names OVF and NANF of a
recast into the accumulate role; one into another role leaves both as they stand. -/
def State.recastFlip (s : State) (c : CoreId) (x : Ctx) (m : CopyCmd) (j : Nat) (r : Range) (size : Nat)
    (ovf nan : Bool) : State :=
  let p : PartId := (s.coreAt c).csr.part.toFin
  let w := (m.q 2).toNat
  let to_ := rcTo m
  let f := rcFmt m r
  let at_ := setFld (setFld (setFld (setFld r.attr 62 60 to_) 59 55 f) 26 26 0) 37 31 (rcPoint m r)
  let at_ := if to_ = 3 then setFld at_ 40 38 (if f = 26 then 1 else fld w 46 44) else at_
  let at_ := if to_ = 3 ∧ f = 26 then setFld (setFld at_ 30 30 (b2n ovf)) 29 29 (b2n nan) else at_
  let at_ := if to_ = 2 then setFld at_ 45 45 0 else at_
  let r2 : Range := { r with attr := at_, limit := r.base + .ofNat 64 size }
  let s := s.onPart p fun y =>
    let y := y.setRange j r2
    if to_ = 2 then { y with streams := Stream.fresh j r.base.toNat :: y.streams.filter (·.index != j) } else y
  (s.rangeChanged p j r2).recastEnd c x (handleOf j r2) 0

/-- A recast whose data cannot be rewritten ends with the error: the entry stands as it was. -/
def State.recastFail (s : State) (c : CoreId) (x : Ctx) (j : Nat) (r : Range) (e : Nat) : State :=
  let p : PartId := (s.coreAt c).csr.part.toFin
  (s.onPart p fun y => y.setRange j { r with attr := setFld r.attr 26 26 0 }).copyErr c x e

/-- RECAST_REWRITE_END (R79 steps 5 and 6, R81): the data, the die W copy, the entry. The data of an extent on a peer module
is read from there, converted, and written back before the entry changes. -/
def execRecastRewriteEnd (s : State) : Out :=
  let c := s.inp.core
  let x := s.inp.ctx
  let p : PartId := (s.coreAt c).csr.part.toFin
  match s.runOf c x with
  | some { phase := .recastRewrite j, cmd := m, .. } =>
    match (s.partAt p).rangeIx j with
    | none => .next (s.copyPhase c x .finish)
    | some r =>
      let f := rcFmt m r
      if fld r.attr.toNat 51 50 = 2 then
        match s.runOf c x with
        | some q =>
          if q.err.isSome then .next (s.recastFail c x j r (q.err.getD 0x0A))
          else if !rewrites r f then .next (s.recastFlip c x m j r r.size false false)
          else if q.aux = 0 ∧ q.rd.asked.isEmpty then .next (s.peerReads c x r)
          else if !q.rd.left.isEmpty ∨ !q.out.isEmpty then .next s
          else if q.aux = 0 then
            if !q.rd.poison.isEmpty then .next (s.recastFail c x j r 0x0B) else .next (s.peerWrites c x m r q)
          else .next (s.recastFlip c x m j r (rewriteData Memory.empty r f 0 0).2.1 (bitOf q.aux 1) (bitOf q.aux 2))
        | none => .next s
      else
        let a := r.pbase.toNat
        let (mem, size, ovf, nan) := rewriteData s.ms.mem r f a (rcPoint m r)
        let mem := if rcTo m = 1 ∧ r.has 49 then mem.copyRange a (a + 0x4000000000) size else mem
        .next ({ s with ms := { s.ms with mem := mem } }.recastFlip c x m j r size ovf nan)
  | _ => .next s

/-! ### Migration (R85) -/

/-- The addresses of the leaves that map an offset (R72), from the table of a level. -/
def leafAddrs (m : Memory) (off : Nat) : Nat → Nat → List Nat
  | level, tab =>
    let idx := if level = 3 then fld off 56 39 else fld off (12 + 9 * level + 8) (12 + 9 * level)
    let pte := m.num (tab + 8 * idx) 8
    if bitOf pte 62 then
      let n := pageBytes (fld pte 61 59) / 2 ^ (12 + 9 * level)
      (List.range n).map fun i => tab + 8 * (idx / n * n + i)
    else match level with
      | 0 => []
      | l + 1 => leafAddrs m off l (fld pte 43 12 * 4096)

/-- The page entry of an offset is rewritten in every leaf that holds it. -/
def State.setLeaf (s : State) (p : PartId) (off : Nat) (pte : Nat) : State :=
  let l := leafAddrs s.ms.mem off 3 (fld (s.partAt p).ptroot.toNat 43 21 * 2 ^ 21)
  s.onMem fun m => l.foldl (fun m a => m.writeNum a 8 pte) m

/-- The home of a page: 0 and 1 HBM, 2 and 3 heath, 4 a peer with its coordinate. -/
def pageHome (pte : Nat) : Nat × Nat :=
  let pa := fld pte 43 12 * 4096
  match fld pte 47 46 with
  | 0 => (if pa < 0x4000000000 then 0 else 1, 0)
  | 1 => (if pa < 0x2C000000000 then 2 else 3, 0)
  | _ => (4, fld pte 24 12)

/-! #### The migration engines' rights (03_host R51, R53) -/

/-- The master number of the migration engine that moves a page: that of the old home's die. -/
def migrMaster (home : Nat) : BitVec 10 := if home % 2 = 0 then 0x322 else 0x323

/-- A master may act on n bytes of physical memory for a partition: each granule's target grants the right. -/
def State.mayTouch (s : State) (m : BitVec 10) (p : PartId) (pa n right : Nat) : Bool :=
  (List.range ((n + 4095) / 4096)).all fun i => s.accessOk (targetOf (pa + 4096 * i)) m p right false

/-- A refused operation of the migration engine, the Ikimen controller or the security block is counted (R53). -/
def State.refusedOp (s : State) : State := s.onTele fun t => { t with refusals := t.refusals + 1 }

/-- The engine may read the old page, write the new one, and write the leaves of the page's entry. -/
def State.mayMigrate (s : State) (p : PartId) (off : Nat) (from_ pa size home newPa : Nat) : Bool :=
  let m := migrMaster from_
  (from_ = 4 || s.mayTouch m p pa size 0) && (home = 4 || s.mayTouch m p newPa size 1) &&
  (leafAddrs s.ms.mem off 3 (fld (s.partAt p).ptroot.toNat 43 21 * 2 ^ 21)).all fun a => s.mayTouch m p a 8 1

/-- A page begins to migrate (step 1): it takes its new page out of the reserve. The engine's rights are checked; none
when one is missing. -/
def State.beginMigration (s : State) (p : PartId) (off home dev : Nat) (pte size : Nat)
    (cmd : Option (CoreId × Ctx)) : Option State :=
  let pa := if fld pte 47 46 = 2 then 2 ^ 80 * (1 + fld pte 24 12) + fld pte 58 56 * 2 ^ 61 + off
    else fld pte 43 12 * 4096
  let page := (s.partAt p).reserve.find? (·.1.val == home)
  let newPa := (page.map (·.2)).getD 0
  if !s.mayMigrate p off (pageHome pte).1 pa size home newPa then none
  else
    let s := (s.setLeaf p off (pte + 2 ^ 44)).onPart p fun y => { y with reserve := match page with
      | some e => if home < 4 then y.reserve.erase e else y.reserve
      | none => y.reserve }
    some { s with ms := { s.ms with migrations := s.ms.migrations ++
      [⟨p, off, pa, size, bitOf pte 45, home, newPa, dev, 0, cmd⟩] } }

/-- c.migr at its page (R339). -/
def State.migrBegin (s : State) (c : CoreId) (x : Ctx) (m : CopyCmd) : State :=
  let p : PartId := (s.coreAt c).csr.part.toFin
  let off := fld (m.q 1).toNat 56 0
  let to_ := fld (m.q 2).toNat 2 0
  if fld (m.q 1).toNat 60 57 ≠ 0 then s.copyStuck c x (.stop (copyTrap x { code := 8, reason := 2, info := m.q 1 }))
  else if !(rangeAt (s.partAt p) off).isEmpty then s.copyErr c x 0x0A
  else match s.pageWalk p off with
    | .error r => s.copyStuck c x (.stop (copyTrap x { code := 8, reason := r, info := m.q 1 }))
    | .ok (pte, base, size) =>
      if fld pte 11 10 = 2 then s.copyErr c x 0x0A
      else if bitOf pte 44 then s
      else if pageHome pte = (to_, if to_ = 4 then m.dev else 0) then s.copyPhase c x .finish
      else if to_ < 4 ∧ !(s.partAt p).reserve.any (·.1.val == to_) then s.copyErr c x 0x0A
      else match s.beginMigration p base to_ m.dev pte size (some (c, x)) with
        | some s => s.copyPhase c x (.migrate base)
        | none => s.refusedOp.copyErr c x 0x0A

/-- MIGRATION_POLICY (R85): a page with HOME = 1. -/
def execMigrationPolicy (s : State) : Out :=
  let p := s.inp.part
  let off := fld s.inp.off.toNat 56 0
  let home := s.inp.n % 4
  match s.pageWalk p off with
  | .error _ => .next s
  | .ok (pte, base, size) =>
    if fld pte 11 10 ≠ 1 ∨ bitOf pte 44 ∨ !(rangeAt (s.partAt p) off).isEmpty ∨ pageHome pte = (home, 0) ∨
        !(s.partAt p).reserve.any (·.1.val == home) ∨ fld pte 47 46 = 2 then .next s
    else .next ((s.beginMigration p base home 0 pte size none).getD s.refusedOp)

def State.migrationAt (s : State) (p : PartId) (off : Nat) : Option Migration :=
  s.ms.migrations.find? fun m => m.part == p && m.off == off
def State.onMigration (s : State) (g : Migration) (f : Migration → Migration) : State :=
  { s with ms := { s.ms with migrations := s.ms.migrations.map fun m => if m = g then f m else m } }

/-- MIGRATION_PORTS_CLOSED (R85 steps 2 and 3): every old-home port has completed what it had accepted; a page that
goes to a peer is sent. -/
def execMigrationPortsClosed (s : State) : Out :=
  let p := s.inp.part
  match s.migrationAt p (fld s.inp.off.toNat 56 0) with
  | none => .next s
  | some g =>
    let busy := ((s.xbarAt .e).accepted ++ (s.xbarAt .w).accepted).any (fun k => k.body.places.any g.covers) ||
      ((s.fabAt .e).reqs ++ (s.fabAt .w).reqs).any fun q => g.covers (2 ^ 80 * (1 + q.dst.toNat) + q.va.toNat)
    if g.step ≠ 0 ∨ busy then .next s
    else
      let s := s.onMigration g fun g => { g with step := 1 }
      match g.cmd, s.pageWalk p g.off with
      | some (c, x), .ok (pte, _, _) =>
        let role := fld pte 58 56 * 2 ^ 61
        let chunks := List.range (g.size / 256)
        if fld pte 47 46 = 2 then .next (chunks.foldl (init := s) fun s i =>
          let va := role + g.off + 256 * i
          let at_ := span (2 ^ 80 * (1 + fld pte 24 12) + va) 256
          let id := s.nextId
          let s := ({ s with nextId := id + 1 }).onRun c x fun q => { q with rd := { q.rd with
            asked := q.rd.asked ++ (at_.zip (List.range 256)).map fun (a : Nat × Nat) => (a.1, (.ofNat 64 (256 * i + a.2) : W))
            left := q.rd.left ++ [id] } }
          s.request c (coreIx x) 0 id p (fld pte 24 12) 0 at_ { (default : FabPacket) with va := .ofNat 64 va, cnt := 256 })
        else if g.home ≠ 4 then .next s
        else .next (chunks.foldl (init := s) fun s i =>
          let id := s.nextId
          let s := ({ s with nextId := id + 1 }.onRun c x fun r => { r with out := r.out ++ [id] })
          s.request c (coreIx x) 0 id p g.dev 1 [] { (default : FabPacket) with
            va := .ofNat 64 (role + g.off + 256 * i), data := s.ms.mem.bytes (g.pa + 256 * i) 256, cnt := 256 })
      | _, _ => .next s

/-- The entry of a page at a new home; REPL goes with a page that leaves die E's HBM. -/
def newPte (pte home dev pa : Nat) : Nat :=
  let tier := if home < 2 then 0 else if home < 4 then 1 else 2
  let pfn := if home = 4 then dev else pa / 4096
  let keep := pte - b2n (bitOf pte 44) * 2 ^ 44 - fld pte 47 46 * 2 ^ 46 - fld pte 43 12 * 2 ^ 12 -
    (if home = 0 then 0 else b2n (bitOf pte 45) * 2 ^ 45)
  keep + tier * 2 ^ 46 + pfn * 2 ^ 12

/-- Where an address of a page lies once the page is at another base, whichever of its copies it names. -/
def movedTo (pa size to_ a : Nat) : Nat :=
  if inSpan pa size a then to_ + (a - pa)
  else if pa < 0x4000000000 ∧ inSpan (pa + 0x4000000000) size a then to_ + (a - pa - 0x4000000000)
  else a

/-- A page's bytes stand at its new home, its entry names it, and its release records go with it (08_ordering R160). -/
def State.pageMoved (s : State) (g : Migration) (pte : Nat) (known : List (W × Byte)) : State :=
  let s := if g.home = 4 then s
    else if fld pte 47 46 = 2 then s.onMem fun m => known.foldl (fun m b => m.write (g.newPa + b.1.toNat) b.2) m
    else s.onMem fun m => m.copyRange g.pa g.newPa g.size
  let s := (s.setLeaf g.part g.off (newPte pte g.home g.dev g.newPa)).dropTlb g.part g.off g.size
  { s with ms := { s.ms with
      migrations := s.ms.migrations.filter (· != g)
      rels := s.ms.rels.map fun r => if g.home = 4 then r else (movedTo g.pa g.size g.newPa r.1, r.2) } }

/-- A migration that its engine may not finish, or whose data did not arrive, ends: the page stays where it is and its new
page returns to the reserve (03_host R53). -/
def State.migrationFails (s : State) (g : Migration) (pte : Nat) : State :=
  let s := (s.setLeaf g.part g.off (pte - b2n (bitOf pte 44) * 2 ^ 44)).onPart g.part fun y => { y with
    reserve := if h : g.home < 4 then y.reserve ++ [(⟨g.home, h⟩, g.newPa)] else y.reserve }
  { s with ms := { s.ms with migrations := s.ms.migrations.filter (· != g) } }

/-- MIGRATION_COPY_DONE (R85 steps 3 and 4): the data, the entry, its invalidation; a migration whose transfer was lost with
its partition's requests fails (07_faults R152). -/
def execMigrationCopyDone (s : State) : Out :=
  let p := s.inp.part
  match s.migrationAt p (fld s.inp.off.toNat 56 0) with
  | none => .next s
  | some g =>
    let run := g.cmd.bind fun (c, x) => s.runOf c x
    match s.pageWalk p g.off with
    | .error _ => .next s
    | .ok (pte, _, _) =>
      if g.step = 2 then .next (s.migrationFails g pte)
      else if g.step ≠ 1 ∨ run.any fun r => !r.out.isEmpty || !r.rd.left.isEmpty then .next s
      else
        let may := s.mayMigrate p g.off (pageHome pte).1 g.pa g.size g.home g.newPa
        if !may ∨ run.any (·.err.isSome) then
          let s := if may then s else s.refusedOp
          let s := s.migrationFails g pte
          match g.cmd with
          | some (c, x) => .next (s.copyErr c x 0x0A)
          | none => .next s
        else
          let s := s.pageMoved g pte ((run.map (·.rd.known)).getD [])
          match g.cmd with
          | some (c, x) => .next ((s.onRun c x fun r => { r with rd := noRead }).copyPhase c x .finish)
          | none => .next s

/-- The addresses of a body under a renaming of places. -/
def PBody.rename (f : Nat → Nat) : PBody → PBody
  | .read l => .read (l.map f)
  | .write l r => .write (l.map fun b => (f b.1, b.2)) r
  | .rmw op a v c r k => .rmw op (f a) v c r k
  | b => b

/-- The accesses of a core follow a page to its new home. -/
def Core.rename (f : Nat → Nat) (y : Core) : Core :=
  let rd := fun (r : CopyRead) => { r with asked := r.asked.map fun a => (f a.1, a.2) }
  { y with
    loads := y.loads.map fun r => { r with bytes := r.bytes.map fun b => (f b.1, b.2) }
    stores := y.stores.map fun r => { r with bytes := r.bytes.map fun b => (f b.1, b.2) }
    copy := y.copy.map fun k => { k with run := k.run.map fun r => { r with rd := rd r.rd } }
    matrix := { y.matrix with run := y.matrix.run.map (·.mapPipes fun q => { q with rd := rd q.rd }) } }

/-- MOVED_COMPLETION (R85): once the page's entry shows MIG = 0, the operations that its old home refused are issued
again in their order. -/
def execMovedCompletion (s : State) : Out :=
  let c := s.inp.core
  match (s.coreAt c).moved with
  | [] => .next s
  | g :: _ =>
    match s.pageWalk g.part g.off with
    | .error _ => .next s
    | .ok (pte, base, _) =>
      if bitOf pte 44 then .next s
      else
        let mine := (s.coreAt c).moved.filter fun m => m.part == g.part && m.off == g.off
        let (home, dev) := pageHome pte
        let to_ := if home = 4 then 2 ^ 80 * (1 + dev) + fld pte 58 56 * 2 ^ 61 + base else fld pte 43 12 * 4096
        let f := movedTo g.pa g.size to_
        let s := s.onCore c fun y => { y.rename f with moved := y.moved.filter fun m => !mine.contains m }
        .next (mine.foldl (init := s) fun s m =>
          let b := m.pkt.body.rename f
          let (hd, port) := homeOf (dieOf c) ((b.places).headD 0)
          s.enqueue { m.pkt with
            body := b, die := dieOf c, inp := deskPort c, age := 0, at_ := s.cyc
            out := outTo (dieOf c) hd port ((b.places).headD 0) })

end Sys2Proof.Machine
end

