-- ==== Sys2Proof/Machine/CopyEnd.lean ====
section
/-!
DEFINITION. The events of copy commands: the next request, the end, stream reads, promises (15_copy R318, R323, R324,
04_spaces R65).
-/

namespace Sys2Proof.Machine

/-- What a running command does next. -/
def State.copyStep (s : State) (c : CoreId) (x : Ctx) (r : CopyRun) : State :=
  let m := r.cmd
  match r.phase with
  | .reqs =>
    if r.err.isSome then s.copyPhase c x .finish
    else match xopOf m.op, fopOf m.op, m.op with
      | some o, _, _ => s.rowRequest c x r o
      | none, some o, _ => s.fopRequest c x r o
      | none, none, .cPref _ => s.prefRow c x r
      | none, none, .cDecomp _ => State.decompSteps 4 s c x r
      | none, none, .cKvput _ => s.kvputStep c x r
      | none, none, .cKvapp _ | none, none, .cKvinv _ => s.toManager c x m
      | none, none, .cRelay _ => s.relayStep c x r
      | none, none, .cRecast .. => s.recastBegin c x m
      | none, none, .cMigr _ => s.migrBegin c x m
      | _, _, _ => s.copyPhase c x .finish
  | .recastWait => s.recastBegin c x m
  | .pins pages => s.kvFreed c x pages
  | .relayOpen false =>
    if r.err.isSome then s.copyPhase c x .finish
    else if r.aux = 0 then s.relayOpen c x m
    else if r.out.isEmpty then s.onRun c x fun r => { r with
      phase := if bitOf (m.q 2).toNat 49 then .reqs else .relayRecv, since := s.cyc }
    else s
  | _ => s

/-- The engine of a context can act: its core is not frozen or halted, and its command does not stand; a retired replica's
engine runs what it has begun for the others to completion (09_redundancy R187). -/
def State.engineFree (s : State) (c : CoreId) (x : Ctx) : Option CopyRun :=
  let y := s.coreAt c
  match (y.copy.get x).run with
  | some r =>
    if y.runHeld x || y.seq.freeze != 0 || (y.seq.mode == .halted && !(y.redun.retired && r.cmd.led)) || s.swappedOut c then none
    else some r
  | none => none

/-- The offsets in the core's own scratch of those addresses that lie there. -/
def ownScratch (l : List W) : List Nat :=
  (l.filter fun a => tagOfVa a == 5 && fld a.toNat 60 22 == 0).map fun a => fld a.toNat 21 0

/-- The offsets in the core's own scratch that the next request of a command touches (10_core R209). -/
def State.requestOffs (s : State) (c : CoreId) (r : CopyRun) : List Nat :=
  let m := r.cmd
  let run := fun (a : W) (n : Nat) => (List.range n).map fun i => a + .ofNat 64 i
  let w := (m.q 2).toNat
  let p : PartId := (s.coreAt c).csr.part.toFin
  let vas : List W := match xopOf m.op, fopOf m.op, m.op with
    | some o, _, _ =>
      let (sa, da) := s.rowOf c p m o r.row
      match s.rowSides c p m o r.row with
      | none => []
      | some (src, dst) => match rowPlan m o src dst with
        | .error _ => []
        | .ok (pl, _) =>
          let n := pl.request sa da r.pos
          let lo := (pl.dstRange r.pos).1
          (if (srcDev m o).isSome then [] else pl.reads src sa r.pos n) ++
            (if (dstDev m o).isSome then [] else run (da + .ofNat 64 lo) ((pl.dstRange (r.pos + n - 1)).2 + 1 - lo))
    | none, some o, _ =>
      let k := if bitOf w 59 then 8 else 4
      let n := if o = 7 then 2 * k else k
      run (m.q 0 + .ofNat 64 (n * r.pos)) n ++ (if m.rv then [] else run (m.q 1 + .ofNat 64 (k * r.pos)) k)
    | none, none, .cDecomp _ => run (m.q 0 + .ofNat 64 r.aux) 17 ++ run (m.q 1 + .ofNat 64 (16 * r.pos)) 16
    | none, none, .cKvput _ =>
      let rb := kvRb (s.partAt p).kg
      run (m.q 0 + .ofNat 64 (r.pos * rb)) rb ++
        (if fld w 33 32 = 3 then run (m.q 0 + .ofNat 64 ((fld w 31 0 + r.pos) * rb)) rb else [])
    | none, none, .cRelay _ => run (m.q 0 + .ofNat 64 r.pos) (min 256 (fld w 39 0 - r.pos))
    | _, _, _ => []
  ownScratch vas

/-- COPY_REQUEST_ISSUE (R323): a request of scratch waits for its banks, and holds them when it is made (10_core R209). -/
def execCopyRequestIssue (s : State) : Out :=
  let c := s.inp.core
  let x := s.inp.ctx
  match s.engineFree c x with
  | none => .next s
  | some r =>
    let offs := if r.phase = .reqs ∧ r.err.isNone then s.requestOffs c r else []
    let since := r.bank.getD s.cyc
    if !(s.coreAt c).banksOpen s.cyc (3 + x.val) since offs then .next (s.onRun c x fun r => { r with bank := some since })
    else
      let t := s.copyStep c x { r with bank := none }
      if t.runOf c x = some r then .next t
      else .next ((t.onRun c x fun r => { r with bank := none }).onCore c (·.takeBanks s.cyc (3 + x.val) offs))

/-- The result word a command writes, with its address (R332, R335, R337). -/
def CopyRun.result (r : CopyRun) : List (W × Byte × Byte) :=
  let m := r.cmd
  let put := fun (a : W) (l : List Byte) => (l.zip (List.range l.length)).map fun b => (a + .ofNat 64 b.2, b.1, 0xFF#8)
  match fopOf m.op, m.op with
  | some _, _ => put (m.q 3) r.res
  | none, .cDecomp _ =>
    if r.err.isSome then [] else put (m.q 3) (leBytes 4 (r.crc ^^^ 0xFFFFFFFF) ++ leBytes 4 r.aux)
  | none, .cRecast .. =>
    if r.err.isSome then [] else put (.ofNat 64 (5 * 2 ^ 61 + fld (m.q 0).toNat 53 32)) r.res
  | _, _ => []

/-- A publication (05_kvspace R98): PLEN := max (PLEN, t0 + m). DEDUCED (assumption 85): a TRUNC since the rows were written
may have lowered ALEN, and PLEN never exceeds it (R89). -/
def State.publish (s : State) (c : CoreId) (m : CopyCmd) : State :=
  let p : PartId := (s.coreAt c).csr.part.toFin
  let va := m.q 1
  let a := (s.partAt p).kvLayer (kvS va) (kvL va)
  s.onMem fun k => k.writeNum (a + 8) 8 (max (k.num (a + 8) 8) (min (k.num a 8) (kvT va + fld (m.q 2).toNat 31 0)))

/-- What completion does on a core: the flags, the completion entry, the timeline (R324). -/
def Core.completeCmd (y : Core) (x : Ctx) (m : CopyCmd) (err : Option Nat) (fl : Flags) : Core :=
  let y := { y with csr := { y.csr with fpflags := y.csr.fpflags ||| fl } }
  let y := match m.cq with
    | some q => y.push q (.ofNat 4096 (x.val * 2 ^ 62 + m.num))
    | none => y
  y.onTl ⟨x.val, by omega⟩ fun t => t.complete m.num err

/-- The completion entry has room. -/
def Core.cqRoom (y : Core) (m : CopyCmd) : Bool := match m.cq with
  | some q => !(y.queue q).full
  | none => true

/-- COPY_COMMAND_COMPLETE (R324): result word, completion entry, timeline; a led command completes in every replica
(09_redundancy R178); RANGE_FULL and UNVERIFIED are raised (07_faults R138). -/
def execCopyCommandComplete (s : State) : Out :=
  let c := s.inp.core
  let x := s.inp.ctx
  match s.engineFree c x with
  | none => .next s
  | some r =>
    let m := r.cmd
    let followers := if m.led then State.replicas { s with cur := c } else []
    if r.phase ≠ .finish ∨ !r.out.isEmpty ∨ !r.rd.left.isEmpty ∨
        !((c :: followers).all fun g => (s.coreAt g).cqRoom m) then .next s
    else
    let offs := ownScratch (r.result.map (·.1)) ++ (match m.cq with
      | some q => let b := (s.coreAt c).queue q; (List.range b.size).map (b.slotAt b.pi.toNat + ·)
      | none => [])
    let since := r.bank.getD s.cyc
    if !(s.coreAt c).banksOpen s.cyc (3 + x.val) since offs then .next (s.onRun c x fun r => { r with bank := some since })
    else match s.engineWrite c x m none r.result [] with
      | .error e => .next (s.copyStuck c x e)
      | .ok (s, _) =>
        let s := s.onCore c (·.takeBanks s.cyc (3 + x.val) offs)
        let pub := (match m.op with | .cKvput _ => bitOf (m.q 2).toNat 34 | _ => false) && r.err.isNone
        let s := if pub then s.publish c m else s
        let s := s.onCore c fun y => y.completeCmd x m r.err r.flags
        let s := s.onCtx c x fun k => { k with run := none }
        let s := followers.foldl (init := s) fun s g =>
          (s.onCore g fun y => y.completeCmd x m r.err r.flags).onCtx g x fun k => { k with queue := k.queue.drop 1 }
        let trap := match m.op with
          | .cRecast .. => r.err.isNone && r.aux != 0
          | _ => false
        .next (if trap then s.onCore c fun y =>
            y.report (copyTrap x { code := r.aux, info := .ofNat 64 (rcHandle m) })
          else s)

/-- STREAM_READ_DELIVER (04_spaces R65): the read can go on once WDONE covers it. -/
def execStreamReadDeliver (s : State) : Out :=
  let c := s.inp.core
  let x := s.inp.ctx
  match s.engineFree c x with
  | some r =>
    if r.phase ≠ .streamWait then .next s
    else
      let t := (s.copyPhase c x .reqs).copyStep c x { r with phase := .reqs }
      if (t.runOf c x).any (·.phase == .streamWait) then .next s else .next (s.copyPhase c x .reqs)
  | none => .next s

/-- STREAM_READ_TIMEOUT (04_spaces R65): after 100 µs. -/
def execStreamReadTimeout (s : State) : Out :=
  let c := s.inp.core
  let x := s.inp.ctx
  match s.engineFree c x with
  | some r =>
    if r.phase = .streamWait ∧ r.since.toNat + us 100 ≤ s.cyc.toNat then .next (s.copyErr c x 0x0A) else .next s
  | none => .next s

/-- PROMISE_WRITE (R318): the context's oldest promise is written into its register. -/
def execPromiseWrite (s : State) : Out :=
  let c := s.inp.core
  let hit := (s.coreAt c).fills.find? fun f => (s.coreAt c).seq.freeze == 0 && match f.file, f.src with
    | .s, .value w _ => fld w.toNat 63 62 == s.inp.ctx.val && f.due.toNat ≤ s.cyc.toNat
    | _, _ => false
  match hit with
  | some f => match f.src with
    | .value w _ => .next (s.onCore c fun y =>
        { y.onRegs (·.fill .s f.reg w) with fills := y.fills.erase f })
    | _ => .next s
  | none => .next s

/-- The signed message: the digest of the blob and the blob's length (04_spaces R83). -/
def signedMessage (q : Stream) (blob : Nat) : List Byte := (q.sha.getD Sha.empty).digest ++ leBytes 8 blob

/-- The bytes of a signed extent's signature and of its padding. -/
def State.signature (s : State) (r : Range) : List Byte × List Byte :=
  let b := s.ms.mem.bytes (r.pbase.toNat + (r.size - 3328)) 3328
  (b.take 3309, b.drop 3309)

/-- The security block may read the extent and the key store (03_host R51, R53, R55). -/
def State.securityMay (s : State) (p : PartId) (r : Range) : Bool :=
  s.accessOk .keys 0x324 p 0 false && s.mayTouch 0x324 p r.pbase.toNat r.size 0

/-- The signature of a full signed extent verifies under the key of its slot, which was active all along (03_host R57).
DEDUCED (assumption 82): padding that is not zero is no signature as R83 lays it out. -/
def State.signatureGood (s : State) (r : Range) (q : Stream) : Bool :=
  let j : Fin 16 := Fin.ofNat 16 (fld r.attr.toNat 44 41)
  let (sig, pad) := s.signature r
  s.fw.keyslots.get j == 1 && !q.revoked && pad.all (· == 0) &&
  match s.fw.keys.find? (·.1 == j) with
  | some k => Config.mlDsaVerify k.2 (signedMessage q (r.size - 3328)) sig
  | none => false

/-- SIGNATURE_VERIFY_END (04_spaces R83, 03_host R57). -/
def execSignatureVerifyEnd (s : State) : Out :=
  let p := s.inp.part
  let i := s.inp.n % 2048
  match (s.partAt p).rangeIx i with
  | none => .next s
  | some r =>
    let st := s.streamOf p i
    if !r.has 46 ∨ r.role ≠ 2 ∨ st.wdone ≠ r.limit.toNat ∨ st.checked then .next s
    else
      let may := s.securityMay p r
      let good := may && s.signatureGood r st
      let s := (if may then s else s.refusedOp).setStream p { st with checked := true }
      if good then .next (s.onPart p fun y => y.setRange i { r with attr := setFld r.attr 45 45 1 })
      else .next (s.onTele fun t => { t with sigFails := t.sigFails + 1 })

end Sys2Proof.Machine
end

