-- ==== Sys2Proof/Machine/Fetch.lean ====
section
/-!
DEFINITION. Fetch of a group and its place in time (12_encoding R239, 16_sync R356, 10_core R207).
-/

namespace Sys2Proof.Machine

/-! ### Fetch (12_encoding R239, 16_sync R356) -/

/-- The bundle of a half at an index, as a number. -/
def Half.bundle (h : Half) (b : Nat) : Nat :=
  ((h.cells.find? fun c => c.1 == b).map (·.2.toNat)).getD 0

/-- What the fetch unit delivers: a bundle it may still hold in its earlier form is either (15_copy R333). -/
def Half.fetch (h : Half) (free : Nat) (b : Nat) : Nat :=
  match h.stale.find? fun c => c.1 == b with
  | some c => if Config.freeBit (free + b) then c.2.toNat else h.bundle b
  | none => h.bundle b

def halfIx (half : Bool) : Fin 2 := if half then 1 else 0

/-- The half the sequencer fetches from. -/
def Core.activeHalf (x : Core) : Half := x.halves.get (halfIx x.seq.pc.half)

/-- The program point after the last slot of a group (R241): the next slot, in the next bundle after s3. -/
def afterSlot (half : Bool) (b s : Nat) : Pc := if s < 3 then ⟨half, b, s + 1⟩ else ⟨half, b + 1, 0⟩

/-- The group at the program point of the executing core. -/
def State.nextGroup (s : State) : Except Violation Group :=
  let x := s.core
  decodeGroup x.csr.hm (x.activeHalf.fetch s.freeCtr) x.seq.pc.bundle x.seq.pc.slot

/-- A trap of the decode or sync stage, or one delivered before a group. -/
def State.stageTrap (s : State) (t : Trap) : State :=
  let s := s.trap t s.core.seq.pc
  { s with issue := Issue.idle }

/-- The executing core's next group stands before issue, with its roll call completed or not (07_faults R128). -/
def State.withSync (s : State) : State :=
  { s with issue := { Issue.idle with synced := s.core.seq.rolled || s.core.seq.skipSync } }

/-! ### Timed groups (10_core R207) -/

/-- The target of a timed group: frame and stamp. -/
def timeTarget (q : Seq) (stamp : BitVec 12) : BitVec 32 × BitVec 12 :=
  match q.prev with
  | none => (0, stamp)
  | some (f, p) => if p.toNat < stamp.toNat then (f, stamp) else (f + 1, stamp)

/-- The frame position of now compared with a target: before, at, after. -/
def Csr.timeNow (c : Csr) (t : BitVec 32 × BitVec 12) : Ordering :=
  compare (c.fnum.toNat * 4096 + c.cnt.toNat) (t.1.toNat * 4096 + t.2.toNat)

/-- STAMP_OVERRUN (07_faults R132). -/
def Csr.overrun (c : Csr) (stamp : BitVec 12) : Trap :=
  { code := 0x13, info := .ofNat 64 (stamp.toNat * 2 ^ 32 + c.framecnt.toNat % 2 ^ 32), mask := 0x3F }

/-- A timed group cannot issue any more: its cycle has passed, or never comes. -/
def Core.late (x : Core) (stamp : BitVec 12) : Bool :=
  x.csr.flen.toNat < stamp.toNat || x.csr.timeNow (timeTarget x.seq stamp) == .gt

/-- A core that is running, not frozen, at no compare point, its half not in retention (07_faults R140, R142). -/
def Core.live (x : Core) : Bool :=
  x.seq.mode == .running && x.seq.freeze == 0 && x.redun.arrived.isNone && !x.activeHalf.retained

/-- A follower's group follows its leader's, unless the leader stands still (09_redundancy R180); stamps keep the
replicas of timetable nodes together (R189). -/
def State.behindLeader (s : State) : Bool :=
  s.csr.nrep.toNat ≤ 1 || s.isLeader || s.csr.tt ||
  match s.replicas.find? fun c => (s.coreAt c).csr.self == (s.coreAt c).csr.lead with
  | none => true
  | some c =>
    let y := s.coreAt c
    decide (s.core.redun.groups < y.redun.groups) || y.redun.arrived.isSome || y.seq.held.isSome ||
      y.seq.mode != .running

/-- A trap is delivered before the next group of a core: one the leader has forwarded for it, or the first pending
one of an engine outside handler mode (R135, R136, 09_redundancy R180). -/
def Core.dueTrap (x : Core) : Option (Trap × Bool) :=
  match x.trapAt x.redun.groups with
  | some t => some (t, true)
  | none => match x.seq.pend, x.csr.hm with
    | t :: _, false => some (t, false)
    | _, _ => none

/-- The trap is delivered. -/
def State.deliverTrap (s : State) (t : Trap) (forwarded : Bool) : State :=
  let s := if forwarded then s else s.mapCore fun x => x.onSeq fun q => { q with pend := q.pend.drop 1 }
  s.stageTrap t

end Sys2Proof.Machine
end

