-- ==== Sys2Proof/Machine/Bof.lean ====
section
/-!
DEFINITION. The BOF file of a graph image, as firmware reads it (13_assembly R281 to R286). A field that these rules make
zero and that is not makes the file no image.
-/

namespace Sys2Proof.Machine

/-! ### The file, its sections and its symbols (R281, R282) -/

/-- A section of a BOF file (13_assembly R281): TYPE, LINK, OFFSET and its bytes. -/
structure BofSect where
  type  : Nat
  link  : Nat
  off   : Nat
  bytes : List Byte
  deriving DecidableEq, Repr

/-- A symbol of a BOF file (13_assembly R282). -/
structure BofSym where
  sect  : Nat
  kind  : Nat
  value : Nat
  deriving DecidableEq, Repr

/-- A relocation of a BOF file (13_assembly R282), with the section it patches. -/
structure BofReloc where
  sect   : Nat
  off    : Nat
  sym    : Nat
  kind   : Nat
  addend : W
  deriving DecidableEq, Repr

/-- A BOF file (13_assembly R281): its sections and its symbols. -/
structure Bof where
  sects : List BofSect
  syms  : List BofSym
  deriving DecidableEq, Repr

/-- The k-byte little-endian number at an offset. -/
def leAt (l : List Byte) (off k : Nat) : Nat := leNat ((l.drop off).take k)

/-- The bytes from an offset, if all of them are there. -/
def sliceAt (l : List Byte) (off n : Nat) : Option (List Byte) :=
  if off + n ≤ l.length then some ((l.drop off).take n) else none

/-- The records of n bytes of a list. -/
def recordsOf (n : Nat) (l : List Byte) : List (List Byte) :=
  (List.range (l.length / n)).map fun i => (l.drop (n * i)).take n

/-- A section header: TYPE is 1 to 12, and its other bytes are zero. -/
def bofSect (f : List Byte) (h : List Byte) : Option BofSect :=
  let type := leAt h 4 1
  if type = 0 ∨ 12 < type ∨ leAt h 5 1 ≠ 0 ∨ leAt h 24 8 ≠ 0 then none
  else (sliceAt f (leAt h 8 8) (leAt h 16 8)).map fun b => ⟨type, leAt h 6 2, leAt h 8 8, b⟩

/-- The header of a graph image, and its tables. -/
def bofOf (f : List Byte) : Option Bof :=
  let secs := leAt f 16 8
  let syms := leAt f 24 8
  if f.length < 64 ∨ f.take 4 ≠ [0x42#8, 0x4F#8, 0x46#8, 0x5A#8] ∨ leAt f 4 2 ≠ 1 ∨ leAt f 6 2 ≠ 1 ∨ leAt f 48 8 ≠ f.length ∨
      leAt f 56 8 ≠ 0 ∨ secs % 8 ≠ 0 ∨ syms % 8 ≠ 0 ∨ leAt f 32 8 % 8 ≠ 0 ∨ f.length < leAt f 32 8 + leAt f 40 8 then none
  else match sliceAt f secs (32 * leAt f 8 4), sliceAt f syms (24 * leAt f 12 4) with
    | some a, some b => ((recordsOf 32 a).mapM (bofSect f)).map fun l =>
      ⟨l, (recordsOf 24 b).map fun y => ⟨leAt y 4 2, leAt y 6 1, leAt y 8 8⟩⟩
    | _, _ => none

/-- The bytes of the first section of a type; a file without one holds none. -/
def Bof.bytes (b : Bof) (type : Nat) : List Byte := ((b.sects.find? (·.type == type)).map (·.bytes)).getD []

/-! ### Extents (R284) -/

/-- An extent record's initial bytes: none, or bytes of the section it names. -/
def Bof.initOf (b : Bof) (r : List Byte) : Option (List Byte) :=
  if leAt r 16 2 = 0xFFFF then if leAt r 32 8 = 0 then some [] else none
  else (b.sects[leAt r 16 2]?).bind fun x => sliceAt x.bytes (leAt r 24 8) (leAt r 32 8)

/-- The extent records. -/
def Bof.extents (b : Bof) : Option (List ExtentRec) :=
  if (b.bytes 6).length % 64 ≠ 0 then none
  else (recordsOf 64 (b.bytes 6)).mapM fun r =>
    if leAt r 18 6 ≠ 0 ∨ leAt r 40 24 ≠ 0 then none
    else (b.initOf r).map fun i => ⟨leAt r 0 8, .ofNat 64 (leAt r 8 8), i⟩

/-! ### Relocations (R282) -/

/-- The relocation entries: every section of TYPE 12, LINK naming the section it patches. -/
def Bof.relocs (b : Bof) : List BofReloc :=
  (b.sects.filter (·.type == 12)).flatMap fun x => (recordsOf 24 x.bytes).map fun r =>
    ⟨x.link, leAt r 0 8, leAt r 8 4, leAt r 12 2, .ofNat 64 (leAt r 16 8)⟩

/-- The value of a relocation: the handle of an extent, or the address of a byte of an extent. A symbol of a section stands
in the extent that the section initialises. -/
def Bof.relocValue (b : Bof) (l : List (ExtentPlace × Range)) (x : BofReloc) : Option W :=
  let base := fun (r : Range) => .ofNat 64 (fld r.attr.toNat 62 60 * 2 ^ 61) + r.base
  match b.syms[x.sym]? with
  | none => none
  | some y =>
    if y.kind = 2 then (l[y.value]?).map fun (q, r) =>
      if x.kind = 2 then (.ofNat 64 (handleOf q.index.val r) + x.addend) &&& 0xFFFFFFFF#64 else base r + x.addend
    else if x.kind = 3 then
      (((recordsOf 64 (b.bytes 6)).zip l).find? fun e => leAt e.1 16 2 == y.sect).map fun e =>
        base e.2.2 + .ofNat 64 y.value + x.addend
    else none

/-- imm32 of the long-immediate pair of a bundle. -/
def patchImm (b : Bundle) (v : Nat) : Bundle :=
  let n := b.toNat
  let t := 32 * fld n 25 24
  let n := n - fld n 23 0 + v / 256 % 2 ^ 24
  .ofNat 128 (n - fld n (t + 7) t * 2 ^ t + v % 256 * 2 ^ t)

/-- The header of the pair is a long-immediate one. -/
def longPair (b : Bundle) : Bool := hKind (fld b.toNat 31 0) == 2 && fld b.toNat 25 24 != 0

/-- Bytes of a list are replaced. -/
def patchBytes (l : List Byte) (off : Nat) (v : List Byte) : List Byte := l.take off ++ v ++ l.drop (off + v.length)

/-- A section with a value of kind 2 or 3 put in: an imm32 pair of .text, whose header OFFSET names, or a `.word` or `.dword`;
none when the place is not there, or an address does not fit an imm32 pair. -/
def BofSect.patch (x : BofSect) (kind off : Nat) (v : W) : Option BofSect :=
  if x.type = 1 then match sliceAt x.bytes off 16 with
    | none => none
    | some p =>
      let w : Bundle := .ofNat 128 (leNat p)
      if off % 16 ≠ 0 ∨ !longPair w ∨ (kind = 3 ∧ sx64 32 (v.toNat % 2 ^ 32) ≠ v) then none
      else some { x with bytes := patchBytes x.bytes off (leBytes 16 (patchImm w (v.toNat % 2 ^ 32)).toNat) }
  else
    let n := if kind = 3 then 8 else 4
    if x.bytes.length < off + n then none else some { x with bytes := patchBytes x.bytes off (leBytes n v.toNat) }

/-- One relocation resolved; none for a kind that the linker resolves, or that does not exist. -/
def Bof.relocOne (b : Bof) (l : List (ExtentPlace × Range)) (x : BofReloc) : Option Bof :=
  if x.kind ≠ 2 ∧ x.kind ≠ 3 then none
  else (b.relocValue l x).bind fun v => (b.sects[x.sect]?).bind fun y => (y.patch x.kind x.off v).map fun z =>
    { b with sects := b.sects.set x.sect z }

/-- Relocations resolved in order. -/
def Bof.relocAll (l : List (ExtentPlace × Range)) : List BofReloc → Bof → Option Bof
  | [], b => some b
  | x :: r, b => (b.relocOne l x).bind (Bof.relocAll l r)

/-! ### Nodes (R283, 06_scheduler R106, R107) -/

/-- The nodes of the file: each is named by a symbol of kind 1. -/
def Bof.nodeCount (b : Bof) : Nat := (b.syms.filter (·.kind == 1)).length

/-- Node k of n: its descriptor and extension in the .node section, its segment in .text and its successor list. -/
def nodeOf (text node : List Byte) (off n k : Nat) : Option NodeDesc :=
  let d := (node.drop (128 * k)).take 128
  let e := (node.drop (128 * n + 16 * k)).take 16
  let succ := leAt d 84 4
  let nsucc := leAt d 82 2
  let words := (List.range 8).map fun i => leAt d (8 + 8 * i) 8
  let nopnd := leAt d 72 1
  if node.length < 144 * n ∨ 8 < nopnd ∨ leAt e 9 7 ≠ 0 then none
  else match sliceAt text (16 * leAt d 0 4) (16 * leAt d 4 2),
      (if nsucc = 0 then some [] else if succ < off + 144 * n then none else sliceAt node (succ - off) (4 * nsucc)) with
    | some code, some l => some {
        codeOff := leAt d 0 4
        code := (recordsOf 16 code).map fun w => .ofNat 128 (leNat w)
        entry := leAt d 6 2
        opnds := (words.take nopnd).map fun w => ⟨.ofNat 32 (fld w 63 32), .ofNat 16 (fld w 31 16), .ofNat 16 (fld w 15 0)⟩
        spare := (words.drop nopnd).map (.ofNat 64)
        succOff := succ
        demand := .ofNat 8 (leAt d 73 1)
        engines := .ofNat 8 (leAt d 74 1)
        prio := .ofNat 8 (leAt d 75 1)
        redun := .ofNat 8 (leAt d 76 1)
        nsave := .ofNat 8 (leAt d 77 1)
        keep := .ofNat 16 (leAt d 78 2)
        preds := .ofNat 16 (leAt d 80 2)
        succs := (recordsOf 4 l).map fun w =>
          ⟨bitOf (leNat w) 31, .ofNat 15 (fld (leNat w) 30 16), .ofNat 16 (fld (leNat w) 15 0)⟩
        frame := .ofNat 16 (leAt d 88 2)
        lift := .ofNat 16 (leAt d 90 2)
        gm := [.ofNat 8 (leAt d 92 1), .ofNat 8 (leAt d 93 1), .ofNat 8 (leAt d 94 1)]
        gmv := .ofNat 8 (leAt d 95 1)
        pin := .ofNat 16 (leAt d 96 2)
        tail := leAt d 98 30
        keepmap := .ofNat 64 (leAt e 0 8)
        xclr := .ofNat 8 (leAt e 8 1) }
    | _, _ => none

/-! ### Groups, queues, the pool, routines and templates (R285, R286) -/

/-- The routines of a .ucode section: headers stand before the words of every routine, so they end where the first words
begin. -/
def routinesOf (l : List Byte) : Nat → Nat → Nat → Option (List Routine)
  | 0, _, _ => some []
  | fuel + 1, i, first =>
    if first ≤ 8 * i then some []
    else
      let h := (l.drop (8 * i)).take 8
      let off := leAt h 4 4
      match sliceAt l off (4 * leAt h 2 2), routinesOf l fuel (i + 1) (min first off) with
      | some w, some r => if leAt h 1 1 ≠ 0 then none
        else some (⟨.ofNat 8 (leAt h 0 1), (recordsOf 4 w).map fun x => .ofNat 32 (leNat x)⟩ :: r)
      | _, _ => none

/-- The records of a section whose bytes are whole records, each with zeros where its layout has them. -/
def recordsIf (n : Nat) (zeros : List Byte → Bool) (l : List Byte) : Option (List (List Byte)) :=
  if l.length % n = 0 ∧ (recordsOf n l).all zeros then some (recordsOf n l) else none

/-- The image that a file holds. -/
def imageOf (b : Bof) : Option GraphImage :=
  let n := b.nodeCount
  let off := ((b.sects.find? (·.type == 7)).map (·.off)).getD 0
  let code := b.bytes 3
  match (List.range n).mapM (nodeOf (b.bytes 1) (b.bytes 7) off n), b.extents,
      recordsIf 40 (fun r => leAt r 32 8 == 0) (b.bytes 8), recordsIf 16 (fun r => leAt r 1 7 == 0) (b.bytes 9),
      recordsIf 24 (fun r => leAt r 18 6 == 0) (b.bytes 10), recordsIf 32 (fun _ => true) (b.bytes 2),
      routinesOf code 256 0 code.length with
  | some nodes, some extents, some groups, some _, some pools, some templates, some routines =>
    if 1 < pools.length then none
    else some ⟨nodes, extents, groups.map fun r => .ofNat 256 (leNat r), routines,
      templates.map fun r => (.ofNat 128 (leAt r 0 16), .ofNat 128 (leAt r 16 16)),
      (pools.head?).map fun r => ⟨.ofNat 64 (leAt r 0 8), .ofNat 64 (leAt r 8 8), .ofNat 16 (leAt r 16 2)⟩⟩
  | _, _, _, _, _, _, _ => none

end Sys2Proof.Machine
end

