-- ==== Sys2Proof/Machine/Control.lean ====
section
/-!
DEFINITION. The control blocks of the system space and what firmware does with the module: repair, soft errors,
translation structures, access tables, keys (01_module R11 to R17, 03_host R50 to R56, 04_spaces R75 to R77,
05_kvspace R87 to R90, R102, 07_faults R140, R141).
-/

namespace Sys2Proof.Machine

/-! ### The control blocks (04_spaces R75) -/

def ctlBase : Nat := 0xF0000000000

/-- MODSTAT (01_module R15). -/
def Firmware.modstat (f : Firmware) : W :=
  .ofNat 64 (b2n (f.reason != 0) * 2 ^ 31 + f.spareW.toNat * 2 ^ 20 + f.spareE.toNat * 2 ^ 16 +
    f.degraded.toNat * 256 + f.reason.toNat)
/-- KEYSLOT (03_host R55). -/
def Firmware.keyslot (f : Firmware) : W :=
  .ofNat 64 ((List.finRange 16).map fun j => (f.keyslots.get j).toNat * 4 ^ j.val).sum
/-- FABCTL (02_fabric R20). -/
def Fabric.ctl (f : Fabric) : W :=
  .ofNat 64 (b2n f.injbank * 2 ^ 63 + (f.dims.get 0).toNat * 2 ^ 24 + (f.dims.get 1).toNat * 2 ^ 20 +
    (f.dims.get 2).toNat * 2 ^ 16 + (f.my.get 0).toNat * 2 ^ 12 + (f.my.get 1).toNat * 256 + (f.my.get 2).toNat * 16)
/-- PARTCFG (07_faults R148). -/
def partcfg (p : PartId) (x : Part) : W :=
  .ofNat 64 (x.wdog.toNat * 2 ^ 32 + b2n x.tt * 256 + b2n x.fatal * 16 + p.val)

/-- The key-value pool registers (05_kvspace R87). -/
def Part.kvRead (x : Part) (o : Nat) : W :=
  match o with
  | 0x00 => x.kvgeom | 0x08 => x.kvseqb | 0x10 => x.kvdirb | 0x18 => x.kvpoolb | 0x20 => x.kvpages
  | 0x28 => x.kvflb | 0x30 => x.kvfree | 0x38 => x.kvqlogb | 0x40 => x.kvqlogn | _ => 0

/-- One of the four words of a range entry. -/
def Range.word (r : Range) (k : Nat) : W :=
  match k with | 0 => r.base | 1 => r.limit | 2 => r.pbase | _ => r.attr
def Range.setWord (r : Range) (k : Nat) (v : W) : Range :=
  match k with
  | 0 => { r with base := v } | 1 => { r with limit := v } | 2 => { r with pbase := v } | _ => { r with attr := v }
def Range.zero : Range := ⟨0, 0, 0, 0⟩

/-- A group-table entry's words (06_scheduler R117). -/
def GroupEnt.word (g : GroupEnt) (k : Nat) : W :=
  if k < 4 then .ofNat 64 (g.members.toNat / 2 ^ (64 * k))
  else if k = 4 then
    .ofNat 64 (g.phase.toNat + (b2n g.valid * 128 + g.part.val * 16 + b2n g.gang * 8) * 2 ^ 32)
  else 0

def dieOfIx (d : Nat) : Die := if d = 0 then .e else .w

/-- The register at a physical address, 8-byte aligned. -/
def State.regRead (s : State) (pa : Nat) : W :=
  let o := pa - ctlBase
  if o = 0 then s.fw.modstat
  else if o = 0x100 then s.fw.partmap.get 0
  else if o = 0x108 then s.fw.partmap.get 1
  else if o = 0x200 then s.fw.keyslot
  else if 0x10000 ≤ o ∧ o < 0x12000 then
    let d := dieOfIx ((o - 0x10000) / 0x1000)
    let r := o % 0x1000
    let f := s.fabAt d
    if r = 0 then f.ctl else if r = 8 then s.sched.wt.get (dieIx d)
    else if r = 0x10 then (s.xbarAt d).wt.setWidth 64
    else if r = 0x18 then s.ms.xlatinv.get (dieIx d)
    else if 0x100 ≤ r ∧ r < 0x140 ∧ (r - 0x100) % 0x20 < 0x18 then
      f.counts.getD (2 * ((r - 0x100) % 0x20 / 8) + (r - 0x100) / 0x20) 0
    else 0
  else if 0x100000 ≤ o ∧ o < 0x108000 then
    let p := toPart ((o - 0x100000) / 0x1000)
    let x := s.partAt p
    match o % 0x1000 with
    | 0 => partcfg p x | 8 => x.ptroot | 0x10 => x.dumpbase | 0x18 => x.dumpsz
    | 0x20 => .ofNat 64 (b2n x.dumpPend)
    | r => if 0x100 ≤ r then x.kvRead (r - 0x100) else 0
  else if 0x1000000 ≤ o ∧ o < 0x1080000 then
    let x := s.partAt (toPart ((o - 0x1000000) / 0x10000))
    ((x.rangeIx (o % 0x10000 / 32)).getD Range.zero).word (o % 32 / 8)
  else if 0x10000000 ≤ o ∧ o < 0x10004000 then
    match s.sched.groups.find? fun g => g.1.toNat == (o - 0x10000000) / 64 with
    | some g => g.2.word (o % 64 / 8)
    | none => 0
  else 0

/-! ### Writes -/

/-- FABCTL. -/
def State.writeFabctl (s : State) (d : Die) (v : W) : State :=
  let n := v.toNat
  s.onFab d fun f => { f with
    injbank := bitOf n 63
    dims := #v[.ofNat 4 (fld n 27 24), .ofNat 4 (fld n 23 20), .ofNat 4 (fld n 19 16)]
    my := #v[.ofNat 4 (fld n 15 12), .ofNat 4 (fld n 11 8), .ofNat 4 (fld n 7 4)] }

/-- XBARWT: the counters of every output reload (20_prog_chase R379). -/
def xbarWeights (wt : BitVec 16) : Vector (BitVec 4) 4 := Vector.ofFn fun i => .ofNat 4 (wt.toNat / 16 ^ i.val)
def State.writeXbarwt (s : State) (d : Die) (v : W) : State :=
  s.onXbar d fun b =>
    let w : BitVec 16 := v.setWidth 16
    { b with wt := w, outs := b.outs.map fun o => { o with c := xbarWeights w } }

/-- SCHEDWT: credits start from the new weights. -/
def State.writeSchedwt (s : State) (d : Die) (v : W) : State :=
  s.onSched fun h => { h with
    wt := h.wt.set (dieIx d).val v (dieIx d).isLt
    credit := h.credit.set (dieIx d).val (Vector.ofFn fun i => v.toNat / 256 ^ i.val % 256) (dieIx d).isLt }

/-- XLATINV (04_spaces R77): a size outside 12 to 57 ignores the write; GO = 1 drops the partition's translations in the range; a walk whose
outcome no core has taken is walked again. -/
def State.writeXlatinv (s : State) (d : Die) (v : W) : State :=
  let n := v.toNat
  let size := fld n 59 54
  let keep : W := .ofNat 64 (n - fld n 53 45 * 2 ^ 45)
  if size < 12 ∨ 57 < size then s
  else if !bitOf n 63 then
    { s with ms := { s.ms with xlatinv := s.ms.xlatinv.set (dieIx d).val keep (dieIx d).isLt } }
  else
    let p := toPart (fld n 62 60)
    let base := fld n 44 0 * 4096
    let s := s.dropTlb p base (2 ^ size)
    { s with ms := { s.ms with
      xlatinv := s.ms.xlatinv.set (dieIx d).val keep (dieIx d).isLt
      walks := s.ms.walks.map fun w =>
        if w.part = p ∧ base ≤ w.off ∧ w.off < base + 2 ^ size then { w with bad := none } else w } }

/-- A range entry is written (04_spaces R77): the overlapping TLB entries of the old and the new range go, and its
cursors begin at its base. -/
def State.writeRange (s : State) (p : PartId) (i : Nat) (r : Range) : State :=
  let old := ((s.partAt p).rangeIx i).getD Range.zero
  let s := (s.rangeChanged p i old).rangeChanged p i r
  s.onPart p fun x => { x.setRange i r with streams := x.streams.filter (·.index != i) }

/-- KVGEOM (05_kvspace R88, R90): EN rises only with a good geometry, and the ring is then written. -/
def State.writeKvgeom (s : State) (p : PartId) (v : W) : State :=
  let x := s.partAt p
  let n := v.toNat - fld v.toNat 19 0
  if !bitOf n 63 ∨ !x.kvOk n then s.onPart p fun x => { x with kvgeom := .ofNat 64 (n % 2 ^ 63) }
  else if kvEn x.kg then s.onPart p fun x => { x with kvgeom := .ofNat 64 n }
  else
    let k := x.kvpages.toNat
    (s.onMem fun m => (List.range k).foldl (fun m i => m.writeNum (x.kvflb.toNat + 4 * i) 4 i) m).onPart p fun x =>
      { x with kvgeom := .ofNat 64 n, flHead := 0, flTail := k, kvfree := x.kvpages, kvquar := [] }

/-- KVQREL (05_kvspace R102): a quarantined page that no table names returns to the free list. -/
def State.writeKvqrel (s : State) (p : PartId) (v : W) : State :=
  if (s.partAt p).kvquar.contains (v.toNat, false) then
    (s.onPart p fun x => { x with kvquar := x.kvquar.filter (·.1 != v.toNat) }).kvReturn p v.toNat
  else s

/-- A key-value pool register. -/
def State.kvWrite (s : State) (p : PartId) (o : Nat) (v : W) : State :=
  match o with
  | 0x00 => s.writeKvgeom p v
  | 0x08 => s.onPart p fun x => { x with kvseqb := v }
  | 0x10 => s.onPart p fun x => { x with kvdirb := v }
  | 0x18 => s.onPart p fun x => { x with kvpoolb := v }
  | 0x20 => s.onPart p fun x => { x with kvpages := v }
  | 0x28 => s.onPart p fun x => { x with kvflb := v }
  | 0x38 => s.onPart p fun x => { x with kvqlogb := v }
  | 0x40 => s.onPart p fun x => { x with kvqlogn := .ofNat 64 (fld v.toNat 15 0) }
  | 0x48 => s.writeKvqrel p v
  | _ => s

/-- A register of a partition block. -/
def State.partWrite (s : State) (p : PartId) (r : Nat) (v : W) : State :=
  let n := v.toNat
  match r with
  | 0 => s.onPart p fun x => { x with wdog := .ofNat 16 (fld n 47 32), tt := bitOf n 8, fatal := bitOf n 4 }
  | 8 => s.onPart p fun x => { x with ptroot := .ofNat 64 (b2n (bitOf n 63) * 2 ^ 63 + fld n 43 21 * 2 ^ 21) }
  | 0x10 => s.onPart p fun x => { x with dumpbase := .ofNat 64 (n / 4096 * 4096) }
  | 0x18 => s.onPart p fun x => { x with dumpsz := .ofNat 64 (fld n 39 12 * 4096) }
  | 0x20 => if bitOf n 0 then s.onPart p fun x => { x with dumpPend := false } else s
  | _ => if 0x100 ≤ r then s.kvWrite p (r - 0x100) v else s

/-- PARTMAP has been written: on the cores of a classroom that another partition owns now, firmware clears scratch and
accumulators (06_scheduler R115). `old` is the owner of each core before. -/
def State.clearRooms (s : State) (old : CoreId → Option PartId) : State :=
  s.onCores (fun c x => match s.partOfCore c with
    | some q => old c != some q && x.csr.part != BitVec.ofNat 3 q.val
    | none => false) fun x => { x with scratch := Memory.empty, acc := .replicate 512 0, accPoison := [] }

/-- The register at a physical address is written; a read-only or unlisted one ignores the write. -/
def State.regWrite (s : State) (pa : Nat) (v : W) : State :=
  let o := pa - ctlBase
  if o = 0x100 ∨ o = 0x108 then
    let old := s.partOfCore
    State.clearRooms { s with fw := { s.fw with
      partmap := if o = 0x100 then s.fw.partmap.set 0 v else s.fw.partmap.set 1 v } } old
  else if 0x10000 ≤ o ∧ o < 0x12000 then
    let d := dieOfIx ((o - 0x10000) / 0x1000)
    match o % 0x1000 with
    | 0 => s.writeFabctl d v | 8 => s.writeSchedwt d v | 0x10 => s.writeXbarwt d v | 0x18 => s.writeXlatinv d v
    | _ => s
  else if 0x100000 ≤ o ∧ o < 0x108000 then s.partWrite (toPart ((o - 0x100000) / 0x1000)) (o % 0x1000) v
  else if 0x1000000 ≤ o ∧ o < 0x1080000 then
    let p := toPart ((o - 0x1000000) / 0x10000)
    let i := o % 0x10000 / 32
    s.writeRange p i ((((s.partAt p).rangeIx i).getD Range.zero).setWord (o % 32 / 8) v)
  else s

/-- Bytes of the control blocks are read, and written a register at a time. -/
def State.ctlBytes (s : State) (l : List Nat) : List (Nat × Byte) :=
  l.map fun a => (a, .ofNat 8 ((s.regRead (a / 8 * 8)).toNat / 256 ^ (a % 8)))
def State.ctlStore (s : State) (l : List (Nat × Byte × Byte)) : State :=
  (wordsOf (l.map (·.1))).foldl (init := s) fun s w =>
    let old := leBytes 8 (s.regRead w).toNat
    let new := (old.zip (List.range 8)).map fun (b, i) => match l.find? (·.1 == w + i) with
      | some x => (b &&& ~~~x.2.2) ||| (x.2.1 &&& x.2.2)
      | none => b
    s.regWrite w (.ofNat 64 (leNat new))

/-! ### Firmware's writes -/

/-- FABCTL_WRITE (02_fabric R20, R27). -/
def execFabctlWrite (s : State) : Out := .next (s.writeFabctl s.inp.die s.inp.word)
/-- XBARWT_WRITE (20_prog_chase R379). -/
def execXbarwtWrite (s : State) : Out := .next (s.writeXbarwt s.inp.die s.inp.word)
/-- XLATINV_WRITE (04_spaces R77). -/
def execXlatinvWrite (s : State) : Out := .next (s.writeXlatinv s.inp.die s.inp.word)
/-- XLATINV_COMPLETE (04_spaces R77): a walk of this model reads its entries when it ends, so none that read the old
ones is left. -/
def execXlatinvComplete (s : State) : Out :=
  let i := dieIx s.inp.die
  let x := s.ms.xlatinv.set i.val (s.ms.xlatinv.get i &&& 0x7FFFFFFFFFFFFFFF#64) i.isLt
  .next { s with ms := { s.ms with xlatinv := x } }
/-- RANGE_ENTRY_WRITE (04_spaces R69, R77). -/
def execRangeEntryWrite (s : State) : Out :=
  let w := fun i => s.inp.words.getD i 0
  .next (s.writeRange s.inp.part (s.inp.n % 2048) ⟨w 0, w 1, w 2, w 3⟩)
/-- PARTMAP_WRITE (03_host R50). -/
def execPartmapWrite (s : State) : Out :=
  .next (s.regWrite (ctlBase + (if s.inp.n = 0 then 0x100 else 0x108)) s.inp.word)
/-- KVGEOM_WRITE (05_kvspace R88). -/
def execKvgeomWrite (s : State) : Out := .next (s.kvWrite s.inp.part 0x00 s.inp.word)
/-- KVQLOGN_WRITE (05_kvspace R87). -/
def execKvqlognWrite (s : State) : Out := .next (s.kvWrite s.inp.part 0x40 s.inp.word)
/-- KVQREL_WRITE (05_kvspace R102). -/
def execKvqrelWrite (s : State) : Out := .next (s.kvWrite s.inp.part 0x48 s.inp.word)
/-- DUMPACK_WRITE (07_faults R151). -/
def execDumpackWrite (s : State) : Out := .next (s.partWrite s.inp.part 0x20 s.inp.word)
/-- ACCESS_TABLE_WRITE (03_host R52, R54). -/
def execAccessTableWrite (s : State) : Out :=
  let e : BitVec 16 := .ofNat 16 (s.inp.word.toNat % 2 ^ 16 - fld s.inp.word.toNat 11 5 * 32)
  let m : BitVec 10 := .ofNat 10 s.inp.n
  let rest := s.ms.access.filter fun x => !(x.target == s.inp.target && x.master == m)
  .next { s with ms := { s.ms with access := if e = 0 then rest else ⟨s.inp.target, m, e⟩ :: rest } }

/-- A walk that can end: both TLBs and the range store have been asked, 20 cycles after the miss, and hold nothing. -/
def State.walkDue (s : State) (w : Walk) : Bool :=
  w.bad.isNone && dieOf w.core == s.inp.die && decide (w.since.toNat + 20 ≤ s.cyc.toNat) &&
  (rangeAt (s.partAt w.part) w.off).isEmpty && (tlbFind (s.roomTlb (w.core.val / 16)) w.part w.off).isNone

/-- PAGE_WALK_DONE (04_spaces R76): the die's oldest walk ends. -/
def execPageWalkDone (s : State) : Out :=
  match s.ms.walks.find? s.walkDue with
  | none => .next s
  | some w =>
    match s.pageWalk w.part w.off with
    | .ok (pte, base, size) =>
      .next ({ s with ms := { s.ms with walks := s.ms.walks.erase w } }.tlbFill w.core ⟨w.part, base, size, .ofNat 64 pte⟩)
    | .error r => .next { s with ms := { s.ms with walks := s.ms.walks.replace w { w with bad := some r } } }

/-! ### Repair and heat (01_module R11 to R16) -/

/-- REASON with a bit set; it stays. -/
def Firmware.because (f : Firmware) (i : Nat) (b : Bool) : Firmware :=
  if b then { f with reason := f.reason ||| .ofNat 5 (2 ^ i) } else f

/-- The key store's entries: the security block reads, the Ikimen controller reads and writes, each for every partition
(03_host R53, R55). -/
def keyEntries : List AccessEnt := [⟨.keys, 0x310, 0x8013⟩, ⟨.keys, 0x324, 0x8011⟩]

/-- BOOT (R12, R13, R16; 02_fabric R20, 03_host R55): what boot test reports; logical cores stand on the good sites of
their die in ascending order. DESIGN CHOICE (assumption 79): the manual does not say what else a boot finds; the cores,
the memories, the telemetry counts, the thermal alarm and the hold after a shutdown stay as they are. -/
def execBoot (s : State) : Out :=
  let r := s.inp.boot
  let absent := allCores.filter fun c =>
    if c.val < 128 then decide (r.goodE ≤ c.val) else decide (128 + r.goodW ≤ c.val)
  let deg := (r.lostVec ++ r.lostCopy).eraseDups
  let e := min 8 (r.goodE - 128)
  let w := min 8 (r.goodW - 128)
  let f : Firmware := { s.fw with
    sites := allCores.filterMap fun c => (r.site c).map fun i => (c, i)
    seats := Vector.ofFn fun k => 16 - (absent.filter fun c => c.val / 16 == k.val).length
    absent := absent, lostVec := r.lostVec, lostCopy := r.lostCopy, spareE := .ofNat 4 e, spareW := .ofNat 4 w
    degraded := .ofNat 8 (min 255 deg.length), reason := 0 }
  let f := (((f.because 0 (decide (e < 2) || decide (w < 2) || !absent.isEmpty)).because 1 (decide (8 < deg.length))).because 2
    r.lowSram).because 3 r.lowHbm
  let f := f.because 4 (decide (8 < r.oneLaneE.length) || decide (8 < r.oneLaneW.length))
  let dim := fun i => r.dims.getD i 0
  let set := fun (lanes : List (Fin 72)) (b : Fabric) => { b with
    dims := #v[dim 0, dim 1, dim 2], my := #v[dim 3, dim 4, dim 5], oneLane := lanes }
  let keys := keyEntries ++ s.ms.access.filter fun e => e.target != .keys
  .next (({ s with fw := f, ms := { s.ms with access := keys } }.onFab .e (set r.oneLaneE)).onFab .w (set r.oneLaneW))

/-- The power controller delays the matrix and vector issue of partitions; one in timetable mode is never delayed, and the
alarm is raised instead (R10). -/
def State.throttle (s : State) (l : List PartId) : State :=
  let tt := fun (p : PartId) => (s.partAt p).tt
  { s with fw := { s.fw with throttled := l.filter (!tt ·), thermal := s.fw.thermal || l.any tt } }

/-- THERMAL_ALARM (R11). DESIGN CHOICE (assumption 80): R11 says what sets the alarm and nothing that clears it; it stays
set, through a recovery and a boot. -/
def execThermalAlarm (s : State) : Out := .next { s with fw := { s.fw with thermal := true } }

/-- HBM_ROW_REPAIR (R14, R16): at a refresh window of the slice that `slot` names, a row is retired; `n` unused repair rows
are left in its pseudo-channel. -/
def execHbmRowRepair (s : State) : Out :=
  if ((s.xbarAt s.inp.die).slices.get (Fin.ofNat 32 s.inp.slot.val)).refresh.isNone then .next s
  else .next ({ s with fw := s.fw.because 3 (s.inp.n == 0) }.onTele fun t => { t with retired := t.retired + 1 })

/-- FABRIC_LANE_FAILURE (R14, R16). -/
def execFabricLaneFailure (s : State) : Out :=
  let s := s.onFab s.inp.die fun f =>
    { f with oneLane := if f.oneLane.contains s.inp.fport then f.oneLane else f.oneLane ++ [s.inp.fport] }
  .next { s with fw := s.fw.because 4 (decide (8 < (s.fabAt s.inp.die).oneLane.length)) }

/-! ### Soft errors (01_module R17, 07_faults R140, R141) -/

/-- A telemetry count by place. -/
def bumpPlace (l : List (Place × Nat)) (p : Place) : List (Place × Nat) :=
  (p, ((l.find? (·.1 == p)).map (·.2)).getD 0 + 1) :: l.filter (·.1 != p)

/-- What a core has in flight comes eight cycles later: results of fixed latency, destinations to be filled, the next group,
requests on their way out and the matrix engine's rows and micro-words (R140). -/
def Core.delay8 (x : Core) : Core := { x with
  fills := x.fills.map fun f => { f with due := f.due + 8 }
  busy := x.busy.map fun b => (b.1, b.2.1, b.2.2 + 8)
  seq := { x.seq with next := x.seq.next + 8 }
  copy := x.copy.map fun k => { k with run := k.run.map fun r => { r with sent := r.sent + 8 } }
  vec := x.vec.map fun v => ⟨v.starts.map (· + 8), v.free + 8⟩
  matrix := { x.matrix with
    run := x.matrix.run.map fun r => { r.mapPipes (fun q => { q with
      due := q.due.map (· + 8), sent := q.sent.map (· + 8) }) with wait := r.wait + 8, bankAt := r.bankAt + 8 } } }

/-- Eight more cycles of freeze. -/
def Core.freezeMore (now : Nat) (x : Core) : Core :=
  x.delay8.onSeq fun q => { q with freeze := max now q.freeze + 8 }

/-- The packets of frozen cores that have not come to their crossbar input come eight cycles later. -/
def Pkt.delay8 (now : W) (frozen : CoreId → Bool) (k : Pkt) : Pkt :=
  let request := match k.body with
    | .data .. | .ack .. => false
    | _ => true
  if request && decide (k.unit < 4) && frozen k.core && decide (now.toNat < k.at_.toNat) then { k with at_ := k.at_ + 8 } else k
def Xbar.delay8 (now : W) (frozen : CoreId → Bool) (b : Xbar) : Xbar :=
  { b with wait := b.wait.map fun k => Pkt.delay8 now frozen k }

/-- CORRECTABLE_ERROR (R17, R140): scratch, accumulators and vector registers freeze the core, and in a timetable
partition every core of it. -/
def execCorrectableError (s : State) : Out :=
  let p := s.inp.place
  let s := s.onTele fun t => { t with correctable := bumpPlace t.correctable p }
  let core := match p with
    | .scratch c _ | .acc c _ _ _ | .vreg c _ _ => some c
    | .mem _ | .satchel .. | .half .. => none
  match core with
  | none => .next s
  | some c =>
    let part : PartId := (s.coreAt c).csr.part.toFin
    let all := (s.partAt part).tt
    let hit := fun (d : CoreId) => d == c || (all && (s.coreAt d).csr.part.toFin == part)
    let s := s.onCores (fun d _ => hit d) (Core.freezeMore s.cyc.toNat)
    .next ((s.onXbar .e (Xbar.delay8 s.cyc hit)).onXbar .w (Xbar.delay8 s.cyc hit))

/-- FREEZE_END (R140). -/
def execFreezeEnd (s : State) : Out :=
  .next (s.onCore s.inp.core fun x =>
    if x.seq.freeze ≤ s.cyc.toNat then { x with seq := { x.seq with freeze := 0 } } else x)

/-- WORD_POISONED (R17). -/
def execWordPoisoned (s : State) : Out :=
  let p := s.inp.place
  let s := s.onTele fun t => { t with poisoned := bumpPlace t.poisoned p }
  .next (match p with
    | .mem pa =>
      let w := pa.toNat / 8 * 8
      let s := s.onMem fun m => m.poisonAt w
      { s with ms := { s.ms with births := (w, s.cyc) :: s.ms.births.filter (·.1 != w) } }
    | .scratch c o => s.onCore c fun x => { x with scratch := x.scratch.poisonAt o.toNat }
    | .acc c b r k => s.onCore c fun x => { x with accPoison := (b.toNat * 64 + r.toNat, k.toNat) :: x.accPoison }
    | .vreg c r w => s.onCore c fun x => { x with vPoison := (r.toNat, w.toNat) :: x.vPoison }
    | .satchel c w => { s with satchels := s.satchels.map fun t =>
        if t.core = c then { t with poison := numInsert t.poison w.toNat } else t }
    | .half c b => s.onCore c fun x =>
        let h := x.halves.get (idleIx x)
        x.setIdle { h with poison := numInsert h.poison b.toNat })

/-! ### Keys (03_host R55, R56) -/

/-- A mailbox command ends: the status word, the next nonce, and the doorbell is quiet. DESIGN CHOICE (assumption 81): R56
gives no values of the status word and says only that the nonce changes: 0 is done, 1 is failed, and the nonce counts up
by one. -/
def State.mailboxEnd (s : State) (ok : Bool) (f : Firmware → Firmware) : State :=
  let s := if ok then { s with fw := f s.fw } else s
  { s with fw := { s.fw with
      mboxStatus := if ok then 0 else 1, nonce := s.fw.nonce + 1, mbox := s.fw.mbox.filter (·.1 != 0x1000) } }

/-- The Ikimen controller may write the key store (R53, R55). -/
def State.ikimenMay (s : State) : Bool := s.accessOk .keys 0x310 0 1 false

/-- A command on a key slot: refused by the key store it is counted, and fails. -/
def State.keyCommand (s : State) (ok : Bool) (f : Firmware → Firmware) : State :=
  if ok && !s.ikimenMay then s.refusedOp.mailboxEnd false f else s.mailboxEnd ok f

/-- OWNER (R56): the first command fuses the owner's key. -/
def execOwner (s : State) : Out :=
  .next (s.mailboxEnd s.fw.owner.isNone fun f => { f with owner := some s.inp.key })

/-- INSTALL (R56): `ok` says whether the owner's signature verifies. -/
def execInstall (s : State) : Out :=
  let j : Fin 16 := Fin.ofNat 16 s.inp.slot.val
  let ok := s.inp.ok && s.fw.owner.isSome && s.inp.word == s.fw.nonce && s.fw.keyslots.get j != 1
  .next (s.keyCommand ok fun f => { f with
    keyslots := f.keyslots.set j.val 1 j.isLt, keys := (j, s.inp.key) :: f.keys.filter (·.1 != j) })

/-- The verification of a full signed stream under a slot that is revoked fails, whatever the slot holds when it ends
(R57). -/
def Part.revoke (x : Part) (j : Nat) : Part :=
  let hit := fun (q : Stream) => (x.rangeIx q.index).any fun r =>
    r.has 46 && fld r.attr.toNat 44 41 == j && q.wdone == r.limit.toNat && !q.checked
  { x with streams := x.streams.map fun q => if hit q then { q with revoked := true } else q }

/-- REVOKE (R56, R57). -/
def execRevoke (s : State) : Out :=
  let j : Fin 16 := Fin.ofNat 16 s.inp.slot.val
  let ok := s.inp.ok && s.fw.owner.isSome && s.inp.word == s.fw.nonce && s.fw.keyslots.get j == 1
  let t := s.keyCommand ok fun f => { f with keyslots := f.keyslots.set j.val 2 j.isLt }
  .next (if ok && s.ikimenMay then { t with parts := t.parts.map (·.revoke j.val) } else t)

end Sys2Proof.Machine
end

