-- ==== Sys2Proof/Machine/Load.lean ====
section
/-!
DEFINITION. Loading a graph into a partition (06_scheduler R105 to R108, 13_assembly R284, R287, 23_matrix R440).
-/

namespace Sys2Proof.Machine

/-! ### The checks -/

/-- DEMAND (R106). -/
def demandOk (d : Nat) : Bool :=
  match fld d 7 6 with
  | 0 => d == 0
  | 1 => !bitOf d 5 && 2 ≤ fld d 4 0 && fld d 4 0 ≤ 16
  | 2 => fld d 5 4 == 0 && 1 ≤ fld d 3 2 && 1 ≤ fld d 1 0 && 2 ≤ fld d 3 2 * fld d 1 0
  | _ => false

/-- A keep map keeps at most four blocks of scratch and no more than the budget of KEEP KiB (07_faults R144). -/
def keepOk (km : W) (keep : Nat) : Bool :=
  let n := ((List.range 48).filter fun g => bitOf km.toNat g).length
  n ≤ 4 && 64 * n ≤ keep

/-- The entries of the graph's successor lists that name a node (R107). -/
def predsOf (g : GraphImage) (k : Nat) : Nat :=
  (g.nodes.map fun n => (n.succs.filter fun e => e.node.toNat == k).length).sum

/-- An operand word (R106). -/
def Opnd.bytes (o : Opnd) : List Byte := leBytes 2 o.col.toNat ++ leBytes 2 o.row.toNat ++ leBytes 4 o.handle.toNat

/-- A successor entry (R107). -/
def succWord (e : SuccEntry) : Nat := b2n e.early * 2 ^ 31 + e.resv.toNat * 2 ^ 16 + e.node.toNat

/-- The limits of R106 to R108 on node k; a node with a frame, which may run in timetable mode, is pinned and accepts no
degraded core (R108, 13_assembly R278). -/
def nodeOk (g : GraphImage) (k : Nat) (n : NodeDesc) : Bool :=
  1 ≤ n.code.length && n.code.length ≤ 4096 && n.entry < n.code.length && n.opnds.length ≤ 8 &&
  demandOk n.demand.toNat && n.engines.toNat ≤ 1 && n.prio.toNat ≤ 7 &&
  1 ≤ n.redun.toNat && n.redun.toNat ≤ 3 && n.nsave.toNat ≤ 7 && n.keep.toNat ≤ 256 &&
  n.spare.all (· == 0) && n.spare.length + n.opnds.length ≤ 8 && n.succOff % 4 == 0 && n.succOff < 2 ^ 32 &&
  n.succs.length ≤ 4096 && n.succs.all (fun e => e.node.toNat < g.nodes.length && fld (succWord e) 30 16 == 0) && n.preds.toNat == predsOf g k &&
  n.frame.toNat ≤ 4096 && (n.frame == 0 || (bitOf n.pin.toNat 15 && !bitOf n.engines.toNat 0)) && fld n.lift.toNat 6 0 == 0 && 1 ≤ fld n.lift.toNat 13 7 && fld n.lift.toNat 13 7 ≤ 64 &&
  n.gmv.toNat ≤ 7 && (List.range 3).all (fun i => !bitOf n.gmv.toNat i || (n.gm.getD i 0).toNat < g.groups.length) &&
  fld n.pin.toNat 14 8 == 0 && n.tail == 0 && keepOk n.keepmap n.keep.toNat

/-- A placement from core c is one that the partition's classrooms allow, absent cores counted (R113, R114). -/
def State.possible (s : State) (p : PartId) (redun n c : Nat) : Bool :=
  startOk c n && (redun ≤ 1 || c < 128) &&
  (withReplicas redun (runFrom c n)).all fun k => s.ownsRoom p (k.val / 16) && !s.fw.absent.contains k

/-- Every operand names an extent of the graph (R105). -/
def opndsOk (g : GraphImage) (handles : List Nat) : Bool :=
  g.nodes.all fun n => n.opnds.all fun o => handles.contains o.handle.toNat

/-- A node has a placement; a pinned one has a core, aligned to its shape (R105, R108, R114). -/
def State.nodeFits (s : State) (p : PartId) (n : NodeDesc) : Bool :=
  (List.range 256).any (s.possible p n.redun.toNat (seatsOf n)) &&
  (if bitOf n.pin.toNat 15 then
    match (s.partCores p)[fld n.pin.toNat 7 0]? with
    | some c => startOk c.val (seatsOf n) && (n.redun.toNat ≤ 1 || c.val < 128) &&
        (withReplicas n.redun.toNat (runFrom c.val (seatsOf n))).all fun k => s.ownsRoom p (k.val / 16)
    | none => false
  else true)

/-- An extent record (13_assembly R284): SIZE, INITLEN and the attributes that must be zero. -/
def extentOk (e : ExtentRec) : Bool :=
  0 < e.size && e.size % 0x10000 == 0 && e.init.length ≤ e.size &&
  !bitOf e.attr.toNat 63 && !bitOf e.attr.toNat 45 && fld e.attr.toNat 30 29 == 0 && fld e.attr.toNat 26 14 == 0

/-- The range entry of an extent: V = 1 and the generation after the entry's last (R69, R284). -/
def rangeFor (p : Part) (e : ExtentRec) (q : ExtentPlace) : Range :=
  let gen := (fld ((p.rangeIx q.index.val).getD Range.zero).attr.toNat 25 14 + 1) % 4096
  ⟨.ofNat 64 q.base, .ofNat 64 (q.base + e.size), .ofNat 64 q.pbase, e.attr ||| .ofNat 64 (2 ^ 63 + gen * 2 ^ 14)⟩

/-- Two extents share no offset. -/
def apart (a b : Range) : Bool := a.limit.toNat ≤ b.base.toNat || b.limit.toNat ≤ a.base.toNat

/-- Firmware's choice of entries and places is a good one: entries not in use, well formed, overlapping nothing. -/
def placesOk (p : Part) : List (ExtentPlace × Range) → Bool
  | [] => true
  | (q, r) :: t =>
    !bitOf ((p.rangeIx q.index.val).getD Range.zero).attr.toNat 63 && (rangeAttr q.index.val r).isSome &&
    (p.ranges.all fun o => !bitOf o.2.attr.toNat 63 || apart r o.2) &&
    (t.all fun o => o.1.index != q.index && apart r o.2) && placesOk p t

/-! ### The image of a file (13_assembly R281 to R287) -/

/-- The image and the places of its extents: the file's, with the entries and places firmware chose (`inp.places`) and its
relocations resolved; none when the file is no image or the choice does not fit it. -/
def State.imageFor (s : State) : Option (GraphImage × List (ExtentPlace × Range)) :=
  let x := s.partAt s.inp.part
  (bofOf s.inp.bytes).bind fun b => b.extents.bind fun es =>
    let l := (s.inp.places.zip es).map fun (q, e) => (q, rangeFor x e q)
    if s.inp.places.length ≠ es.length ∨ !placesOk x l then none
    else ((Bof.relocAll l b.relocs b).bind imageOf).map fun g => (g, l)

/-- The bytes of the .sig section of a file. -/
def sigOf (f : List Byte) : Option BofSect := (bofOf f).bind fun b => b.sects.find? (·.type == 11)

/-- What the publisher signs (R287): the digest of the file with its .sig section as zeros, and its length. -/
def imageMessage (f : List Byte) (x : BofSect) : List Byte :=
  (Sha.empty.absorb (f.take x.off ++ List.replicate x.bytes.length 0 ++ f.drop (x.off + x.bytes.length))).digest ++
    leBytes 8 f.length

/-- A file without .sig loads unverified; the signature of another verifies under the key of an active slot (R287). -/
def State.sigOk (s : State) (f : List Byte) : Bool :=
  match sigOf f with
  | none => true
  | some x =>
    let j := leAt x.bytes 0 1
    x.bytes.length == 3328 && leAt x.bytes 1 7 == 0 && leAt x.bytes 3317 11 == 0 && decide (j < 16) &&
      s.fw.keyslots.get (Fin.ofNat 16 j) == 1 &&
      match s.fw.keys.find? (·.1 == Fin.ofNat 16 j) with
      | some k => Config.mlDsaVerify k.2 (imageMessage f x) ((x.bytes.drop 8).take 3309)
      | none => false

/-! ### Loading -/

/-- An extent's range entry is written, its memory zeroed and its initial bytes copied; both copies of a replicated
immutable one (04_spaces R64). A peer module's memory is not this module's. -/
def State.loadExtent (s : State) (p : PartId) (e : ExtentRec) (q : ExtentPlace) (r : Range) : State :=
  let put := fun (base : Nat) (m : Memory) => (m.zeroRange base e.size).writeBytes base e.init
  let s := s.writeRange p q.index.val r
  let a := e.attr.toNat
  if fld a 51 50 = 2 then s
  else
    let s := s.onMem (put q.pbase)
    if bitOf a 49 ∧ fld a 62 60 = 1 then s.onMem (put (q.pbase + 0x4000000000)) else s

/-- The pool registers of a pool declaration, and firmware's places of its tables (05_kvspace R87): sequences, directory,
pool, free list and quarantine log. -/
def Part.withPool (x : Part) (k : PoolRec) (tables : List W) : Part := { x with
  kvpages := k.pages, kvqlogn := k.logN.setWidth 64, kvseqb := tables.getD 0 0, kvdirb := tables.getD 1 0
  kvpoolb := tables.getD 2 0, kvflb := tables.getD 3 0, kvqlogb := tables.getD 4 0 }

/-- The checks of the whole image (R105): the limits, and that every operand names an extent of the graph. -/
def State.imageOk (s : State) (p : PartId) (g : GraphImage) (handles : List Nat) : Bool :=
  g.nodes.length ≤ 65536 && (List.range g.nodes.length).all (fun k => match g.nodes[k]? with
    | some n => nodeOk g k n && s.nodeFits p n
    | none => false) &&
  g.extents.all extentOk && g.groups.length ≤ 256 && g.templates.length ≤ 255 &&
  (g.routines.map fun r => r.words.length).sum ≤ 3072 && g.routines.all (32 ≤ ·.num.toNat) && opndsOk g handles &&
  (match g.pool with
   | some k => !kvEn (s.partAt p).kg && fld k.geom.toNat 63 63 == 0 && fld k.geom.toNat 19 0 == 0 &&
       ((s.partAt p).withPool k s.inp.words).kvOk k.geom.toNat
   | none => true)

/-- GRAPH_LOAD: firmware reads the image in the file `inp.bytes`, checks it and loads it, or refuses the load, and nothing
changes. -/
def execGraphLoad (s : State) : Out :=
  let p := s.inp.part
  match s.imageFor with
  | none => .next s
  | some (g, l) =>
    let handles := l.map fun x => handleOf x.1.index.val x.2
    if !s.sigOk s.inp.bytes ∨ !s.imageOk p g handles then .next s
    else
      let s := (l.zip g.extents).foldl (fun (s : State) x => s.loadExtent p x.2 x.1.1 x.1.2) s
      let s := match g.pool with
        | some k => (s.onPart p (·.withPool k s.inp.words)).writeKvgeom p (k.geom ||| 0x8000000000000000#64)
        | none => s
      .next (s.onSched fun h => { h with
        graphs := h.graphs ++ [⟨h.nextHandle, p, g, handles⟩], nextHandle := h.nextHandle + 1 })

end Sys2Proof.Machine
end

