-- ==== Sys2Proof/Machine/Sched.lean ====
section
/-!
DEFINITION. The schedulers: start of launch records, dispatch, node start, tasks, roll calls, watchdogs (06_scheduler
R109 to R125, 07_faults R149, 08_ordering R167, R168, 10_core R210).
-/

namespace Sys2Proof.Machine

/-! ### Start of a launch record (R109) -/

/-- Free group-table entries, lowest first (R117). -/
def State.freeEntries (s : State) : List (BitVec 8) :=
  ((List.range 256).map fun i => BitVec.ofNat 8 i).filter fun e => !(s.sched.groups.any (·.1 == e))

/-- A bit for every core of a list. -/
def memberMask (l : List CoreId) : BitVec 256 := .ofNat 256 ((l.map fun c => 2 ^ c.val).sum)

/-- The entry of a graph group: its partition-relative members as logical cores (R117). -/
def State.groupEnt (s : State) (p : PartId) (m : BitVec 256) : GroupEnt :=
  let l := (List.range 256).filter fun k => bitOf m.toNat k
  ⟨memberMask (l.filterMap fun k => (s.partCores p)[k]?), 0, true, p, false⟩

/-- The die of a root node's pool (R111). -/
def State.rootDie (s : State) (p : PartId) : Die := if (List.range 8).any (s.ownsRoom p) then .e else .w

/-- A failure that the scheduler finds: the cause and NODE_FAILED in the chain, and the node fails (R110, R113). -/
def State.schedFail (s : State) (id code reason : Nat) (info : W) : State :=
  match s.instAt id with
  | none => s
  | some i => (s.releaseCores id).failChain i
      [s.causeRec code reason (4 * 1024) info (some i) 0 false,
       s.causeRec 0x1F 0 (4 * 1024) (.ofNat 64 i.node) (some i) 0 false]

/-- The instance of node k of a record. -/
def newInst (id : Nat) (g : Graph) (p : PartId) (q : Fin 16) (r : Rec) (es : List (BitVec 8)) (k : Nat)
    (n : NodeDesc) : Inst :=
  { id := id, graph := g.handle, vf := p, queue := q.val, record := r.k, node := k, state := .waiting
    preds := n.preds.toNat, base := max n.prio.toNat r.prio, running := 0, redun := max n.redun.toNat r.redun, tt := r.tt
    args := [r.args, .ofNat 64 r.k, 0, 0, 0, 0, 0], die := .e, entered := 0, readyAt := 0, pooled := false, started := 0
    early := false, saved := none, first := 0, entry := none, groups := es, trigs := [], expired := false }

/-- A node can run in timetable mode (R108, R124). -/
def ttFit (n : NodeDesc) : Bool := bitOf n.pin.toNat 15 && n.frame != 0 && !bitOf n.engines.toNat 0

/-- RECORD_START (R109, R124): the oldest record of the queue that has not started, when its waits are met and the
group table has entries for its groups. -/
def execRecordStart (s : State) : Out :=
  let p := s.inp.part
  let q := s.inp.queue
  match ((s.queueAt p q).old ++ (s.queueAt p q).recs).find? fun r => !r.started && !r.ended with
  | none => .next s
  | some r =>
    match s.graphAt r.graph.toNat with
    | none => .next s
    | some g =>
      let es := s.freeEntries.take g.image.groups.length
      if (r.waits.any fun w => (s.queueAt p (toQ w.1)).ct.toNat < w.2) ∨ es.length < g.image.groups.length ∨
          (s.partAt p).swapped then .next s
      else
        let mark := fun (y : Rec) => if y.k == r.k then { y with started := true } else y
        let s := s.onQueue p q fun x => { x with recs := x.recs.map mark, old := x.old.map mark }
        let id0 := s.sched.nextInst
        let news := (g.image.nodes.zip (List.range g.image.nodes.length)).map fun (n, k) =>
          newInst (id0 + k) g p q r es k n
        let s := s.onSched fun h => { h with
          groups := h.groups ++ (es.zip g.image.groups).map fun (e, m) => (e, s.groupEnt p m)
          insts := h.insts ++ news, nextInst := id0 + news.length }
        let bad := (g.image.nodes.zip (List.range g.image.nodes.length)).filter fun (n, _) =>
          r.tt && !ttFit n
        let s := bad.foldl (fun (s : State) x => if (s.instAt (id0 + x.2)).any (·.state == .waiting) then
          s.schedFail (id0 + x.2) 0x1A 0 (.ofNat 64 x.2) else s) s
        let s := news.foldl (init := s) fun s i =>
          if i.preds = 0 ∧ (s.instAt i.id).any (·.state == .waiting) then s.makeReady i.id (s.rootDie p) else s
        .next (match news with
          | [] => (s.onSched fun h => { h with groups := h.groups.filter fun g => !es.contains g.1 }).endRecord p q r.k false
          | _ :: _ => s)

/-! ### Dispatch (R111 to R113) -/

/-- The pinned placement of an instance is one it can never have (R113); a redundant node's leader can stand on no core
of die W (R114). -/
def State.pinBad (s : State) (i : Inst) (n : NodeDesc) : Bool :=
  bitOf n.pin.toNat 15 &&
  match (s.partCores i.vf)[fld n.pin.toNat 7 0]? with
  | none => true
  | some c => (1 < i.redun && 128 ≤ c.val) || (withReplicas i.redun (runFrom c.val (seatsOf n))).any fun k =>
      s.fw.absent.contains k || !s.ownsRoom i.vf (k.val / 16) ||
      (s.degraded k && (!bitOf n.engines.toNat 0 || i.tt))

/-- The node to dispatch among those with a free placement, first in the order of R112; by weighted round robin when
they are of several partitions. The credits after it. -/
def State.pickNode (s : State) (d : Die) (l : List Inst) : Option (Inst × Vector Nat 8) :=
  let cr := s.sched.credit.get (dieIx d)
  let ps := (l.map (·.vf)).eraseDups
  match l with
  | [] => none
  | i :: _ =>
    if ps.length ≤ 1 ∨ ps.all fun p => s.weight d p = 0 then some (i, cr)
    else
      let cr := if ps.any fun p => 0 < cr.get p then cr else Vector.ofFn fun p => s.weight d p
      match l.find? fun i => 0 < cr.get i.vf with
      | some i => some (i, cr.set i.vf.val (cr.get i.vf - 1) i.vf.isLt)
      | none => some (i, cr)

/-- The cycles that a start takes beyond those of a warm node (R116): the load of a cold segment, and the read of a
descriptor that the scheduler's cache does not hold. -/
def State.coldTime (s : State) (i : Inst) (n : NodeDesc) (first : Nat) : Nat :=
  (if (withReplicas i.redun (runFrom first (seatsOf n))).all (s.holdsSegment i n) then 0
    else 80 + (n.code.length + 15) / 16) +
  (if (s.sched.descs.get (dieIx i.die)).contains (i.graph, i.node) then 0 else Config.descRead s.freeCtr)

/-- The cycle at which a timetable node starts (R124): the first multiple of 64 at least 150 cycles after the
decision, the loads added. -/
def ttStart (now cold : Nat) : Nat := (now + 150 + cold + 63) / 64 * 64

/-- An instance takes a placement: its cores, and its gm0 entry when it is a gang. -/
def State.place (s : State) (i : Inst) (n : NodeDesc) (first : Nat) : State :=
  let k := seatsOf n
  let s := (List.range i.redun).foldl (init := s) fun s r =>
    (List.range k).foldl (init := s) fun s j =>
      s.onCore (replicaCore r (toCore (first + j))) fun x => { x with
        node := { x.node with inst := some i.id, seat := j, replica := r, trig := false } }
  if !isGang n then s
  else
    let mem := memberMask (runFrom first k)
    match i.entry with
    | some e => s.onSched fun h => { h with groups := h.groups.map fun g =>
        if g.1 == e then (e, { g.2 with members := mem }) else g }
    | none => match s.freeEntries with
      | [] => s
      | e :: _ => (s.onSched fun h => { h with groups := h.groups ++ [(e, ⟨mem, 0, true, i.vf, true⟩)] }).onInst i.id
          fun i => { i with entry := some e }

/-- A dispatch. -/
def State.dispatch (s : State) (i : Inst) (n : NodeDesc) (first : Nat) : State :=
  let cold := s.coldTime i n first
  let start : W := if i.tt then .ofNat 64 (ttStart s.cyc.toNat cold) else s.cyc + .ofNat 64 (126 + cold)
  let held := s.sched.descs.get (dieIx i.die)
  let s := if held.contains (i.graph, i.node) then s else s.takeFree.onSched fun h => { h with
    descs := h.descs.set (dieIx i.die).val ((i.graph, i.node) :: held) (dieIx i.die).isLt }
  let s := (s.place i n first).leavePool i.id
  let s := s.onInst i.id fun j => { j with
    state := .dispatched first j.entry start, running := s.effPrio i, first := first }
  s.onSched fun h => { h with reserved := h.reserved.filter fun r => r.2.1 != i.id }

/-- DISPATCH_DECISION (R112, R113): at most one every 8 cycles on each die. A node whose reserved placement is complete
goes first (R125). -/
def execDispatchDecision (s : State) : Out :=
  let d := s.inp.die
  if (s.cyc - s.sched.lastDecision.get (dieIx d)).toNat < 8 then .next s
  else
    let s := s.fillPool
    let made := fun (s : State) => s.onSched fun h => { h with
      lastDecision := h.lastDecision.set (dieIx d).val s.cyc (dieIx d).isLt }
    let pool := s.inOrder (s.sched.insts.filter fun i =>
      i.state == .ready && i.pooled && i.die == d && !(s.partAt i.vf).swapped)
    match pool.find? fun i => (s.descOf i).any (s.pinBad i) with
    | some i => .next ((made s).schedFail i.id 0x1A 0 (.ofNat 64 i.node))
    | none =>
      let can := pool.filter fun i => (s.descOf i).any fun n => !(s.placements i n d []).isEmpty
      let kept := fun (i : Inst) => s.sched.reserved.any (·.2.1 == i.id)
      match s.pickNode d (can.filter kept ++ can.filter fun i => !kept i) with
      | none => .next s
      | some (i, cr) =>
        let s := (made s).onSched fun h => { h with credit := h.credit.set (dieIx d).val cr (dieIx d).isLt }
        .next (match s.descOf i with
          | none => s
          | some n => match s.choose i n (s.placements i n d []) with
            | none => s
            | some c => s.dispatch i n c)

/-- The cores of a die that run nothing. -/
def State.idleCores (s : State) (d : Die) : List CoreId :=
  s.coresWhere fun c x => dieOf c == d && x.node.inst.isNone && !s.fw.absent.contains c

/-- FREE_CORE_SUMMARY (R112): every 64 cycles the die sends the other its free cores. -/
def execFreeCoreSummary (s : State) : Out :=
  let d := s.inp.die
  let o := otherDie d
  if (s.cyc - s.sched.lastSummary.get (dieIx d)).toNat < 64 then .next s
  else .next (s.onSched fun h => { h with
    summary := h.summary.set (dieIx o).val (s.idleCores d) (dieIx o).isLt
    lastSummary := h.lastSummary.set (dieIx d).val s.cyc (dieIx d).isLt })

/-- POOL_MOVE (R112): to the other die's pool, with its place in the order. -/
def execPoolMove (s : State) : Out :=
  match s.instAt s.inp.n with
  | none => .next s
  | some i =>
    match s.descOf i with
    | none => .next s
    | some n =>
      let o := otherDie i.die
      let sum := s.sched.summary.get (dieIx i.die)
      let there := (s.starts i n o).any fun c => s.possible i.vf i.redun (seatsOf n) c &&
        (runFrom c (seatsOf n)).all fun k => sum.contains k && ((bitOf n.engines.toNat 0 && !i.tt) || !s.degraded k)
      if i.state == .ready ∧ i.pooled ∧ i.redun ≤ 1 ∧ !bitOf n.pin.toNat 15 ∧ us 2 ≤ (s.cyc - i.entered).toNat ∧
          (s.placements i n i.die []).isEmpty ∧ there ∧ s.poolOpen o i.vf then
        .next ((s.leavePool i.id).onInst i.id fun i => { i with die := o, pooled := true })
      else .next s

/-- An instance that waits for a reservation: a gang or a redundant node that has waited 1 ms (R125). -/
def State.mayReserve (s : State) (i : Inst) : Bool :=
  i.state == .ready && i.pooled && us 1000 ≤ (s.cyc - i.entered).toNat &&
  ((s.descOf i).any isGang || 1 < i.redun)

/-- PLACEMENT_RESERVE (R125): the possible placement with the most free cores, of the lowest first core. -/
def execPlacementReserve (s : State) : Out :=
  match s.instAt s.inp.n with
  | none => .next s
  | some i =>
    match s.descOf i with
    | none => .next s
    | some n =>
      let same := s.sched.insts.filter fun j => j.vf == i.vf && j.die == i.die && s.mayReserve j
      if !s.mayReserve i ∨ (s.inOrder same).head?.map (·.id) ≠ some i.id ∨
          (s.sched.reserved.any fun r => r.1 == i.vf && (s.instAt r.2.1).any fun j => j.die == i.die) then .next s
      else
        let cores := fun c => withReplicas i.redun (runFrom c (seatsOf n))
        let free := fun c => ((cores c).filter fun k => (s.coreAt k).node.inst.isNone).length
        let all := (s.starts i n i.die).filter fun c => s.possible i.vf i.redun (seatsOf n) c &&
          (cores c).all fun k => bitOf n.engines.toNat 0 || !s.degraded k
        let best := all.foldl (fun (b : Option Nat) c => match b with
          | none => some c
          | some b => if free b < free c then some c else some b) none
        match best with
        | none => .next s
        | some c => .next (s.onSched fun h => { h with reserved := h.reserved ++ [(i.vf, i.id, c)] })

/-! ### Node start (R115, R116) -/

/-- The registers of gm0 to gm3 (R117). -/
def gmRegs (i : Inst) (n : NodeDesc) : Vector (BitVec 9) 4 := Vector.ofFn fun k =>
  let ent := if k.val = 0 then i.entry
    else if bitOf n.gmv.toNat (k.val - 1) then i.groups[(n.gm.getD (k.val - 1) 0).toNat]? else none
  match ent with
  | some e => .ofNat 9 (256 + e.toNat)
  | none => 0

/-- s1 upward from a list of values; one that was not full waits on. -/
def Regs.withArgs (r : Regs) (l : List (W × Fill)) : Regs :=
  (l.zip (List.range l.length)).foldl (fun r x =>
    let n : BitVec 6 := .ofNat 6 (x.2 + 1)
    let r := r.setS n x.1.1
    if x.1.2 = .full then r else r.mark .s n x.1.2) r

/-- The operand words at 0x1F_FFC0 (R115). -/
def opndBytes (n : NodeDesc) : List Byte :=
  (List.range 8).flatMap fun i => match n.opnds[i]? with
    | some o => Opnd.bytes o
    | none => leBytes 8 0

/-- A loop target of a routine moved to the routine's place in the store (13_assembly R280). -/
def rebase (start : Nat) (w : BitVec 32) : BitVec 32 :=
  if fld w.toNat 31 28 = 6 then .ofNat 32 (w.toNat - fld w.toNat 11 0 + (fld w.toNat 11 0 + start) % 4096) else w

/-- The graph's routines in the store from word 1,024 (23_matrix R440): the words, and each routine's place. -/
def loadRoutines : Nat → List Routine → List (Nat × BitVec 32) × List (BitVec 8 × Nat × Nat)
  | _, [] => ([], [])
  | at_, r :: t =>
    let (w, p) := loadRoutines (at_ + r.words.length) t
    (((r.words.map (rebase at_)).zip (List.range r.words.length)).map (fun x => (at_ + x.2, x.1)) ++ w,
      (r.num, at_, r.words.length) :: p)

/-- The bundles of a segment that are not zero, by index. -/
def segmentCells (l : List Bundle) : List (Nat × Bundle) :=
  ((List.range l.length).zip l).filter fun c => c.2 != 0

/-- A core as the scheduler leaves it for the first group of a node; what a node resumed at a boundary has saved
comes back (R115, R122, 07_faults R143). -/
def State.startedCore (s : State) (i : Inst) (n : NodeDesc) (g : Graph) (c : CoreId) : Core :=
  let x := s.coreAt c
  let seat := x.node.seat
  let lead := toCore (i.first + seat)
  let half := x.seq.pc.half
  let hx : Fin 2 := if half then 1 else 0
  let held := s.holdsSegment i n c
  let h0 := x.halves.get hx
  let hv : Half := if held then { h0 with lastUse := s.cyc } else ⟨segmentCells n.code, [], false, false, s.cyc, []⟩
  let args := match i.saved with | some v => v.regs.getD seat [] | none => i.args.map fun a => (a, Fill.full)
  let b := match i.saved with | some v => v.resume.getD seat 0 | none => n.entry
  let mem := match i.saved with
    | some v => let (l, bad) := v.scratch.getD seat ([], []); x.restoreKept n.keepmap l bad
    | none => x.scratch
  let (acc, accBad) := match i.saved with
    | some v =>
      let (l, bad) := v.acc.getD seat ([], [])
      (l.foldl (fun (a : Vector VReg 512) r => if h : r.1 < 512 then a.set r.1 r.2 h else a) x.acc,
        bad ++ x.accPoison.filter fun a => !bitOf n.keepmap.toNat (48 + a.1 / 64))
    | none => (x.acc, x.accPoison)
  let (words, routines) := loadRoutines 1024 g.image.routines
  let csr : Csr := { Csr.reset (.ofNat 8 lead.val) with
    xclr := n.xclr, tt := i.tt, deg := s.degraded c, tvec := ({ half := half, bundle := 0, slot := 0 : Pc }).word
    flen := .ofNat 12 (n.frame.toNat - 1), part := .ofNat 3 i.vf.val, prel := .ofNat 8 (s.prelOf i.vf lead)
    nrep := .ofNat 2 i.redun, self := .ofNat 2 x.node.replica, keepmap := n.keepmap }
  { Core.reset (.ofNat 8 lead.val) with
    regs := { Regs.reset.withArgs args with gm := gmRegs i n }
    csr := csr
    lift := { Lift.reset with maxDepth := fld n.lift.toNat 15 14, maxProd := fld n.lift.toNat 13 7 }
    seq := { Seq.reset with mode := .running, pc := ⟨half, b, 0⟩, npc := ⟨half, b, 0⟩, freeze := x.seq.freeze }
    halves := x.halves.set hx.val hv hx.isLt
    scratch := ⟨(mem.writeBytes 0x1FFFC0 (opndBytes n)).cells, mem.poison.filter fun a => a < 0x1FFFC0 || 0x200000 ≤ a⟩
    live1 := x.live1
    acc := acc
    accPoison := accBad
    matrix := ⟨[], none, words, routines, []⟩
    templates := g.image.templates
    tlb := x.tlb
    kvc := []
    mail := ⟨[], x.mail.outbox⟩
    node := { x.node with seg := x.node.seg.set hx.val (some (i.graph, n.codeOff, n.code.length)) hx.isLt, stood := false } }

/-- A handle with its zero fields names a valid entry of its generation (R70). -/
def State.handleOk (s : State) (p : PartId) (h : Nat) : Bool :=
  fld h 31 24 == 0 && !bitOf h 11 && ((s.partAt p).byHandle h).isSome

/-- The cores of an instance start. -/
def State.startCores (s : State) (i : Inst) (n : NodeDesc) (g : Graph) : State :=
  let l := s.instCores i.id
  let s := l.foldl (fun (s : State) c => s.setCoreAt c (s.startedCore i n g c)) s
  s.onCores (fun _ x => !x.tsSeen.isEmpty) fun x => { x with tsSeen := x.tsSeen.filter fun t => !l.contains t.1 }

/-- NODE_START (R115, R116, R124): every seat and replica in one cycle; an operand handle that fails R70 fails the
node before. -/
def execNodeStart (s : State) : Out :=
  match s.instAt s.inp.n with
  | none => .next s
  | some i =>
    match i.state, s.descOf i, s.graphAt i.graph with
    | .dispatched _ _ at_, some n, some g =>
      if s.cyc.toNat < at_.toNat ∨ (i.tt ∧ s.cyc.toNat % 64 ≠ 0) ∨ (s.partAt i.vf).swapped then .next s
      else match n.opnds.find? fun o => !s.handleOk i.vf o.handle.toNat with
        | some o => .next (s.schedFail i.id 0x08 3 (o.handle.setWidth 64))
        | none =>
          let s := s.startCores i n g
          .next (s.onInst i.id fun i => { i with state := .running, started := s.cyc, saved := none })
    | _, _, _ => .next s

/-! ### Tasks (R119) -/

/-- What the status of a task request does at a core of its node's: the register of the leader of the seat, and the values
forwarded to its followers. -/
def Core.takeStatus (t : TaskReq) (v : W) (x : Core) : Core :=
  if x.node.inst ≠ some t.inst ∨ x.node.seat ≠ t.seat ∨ x.redun.retired then x
  else match t.fwd with
    | none => x.onRegs (·.fill .s t.status (ofS v))
    | some n =>
      if x.csr.self = x.csr.lead then x.onRegs (·.fill .s t.status (ofS v))
      else { x with redun := { x.redun with inflight := x.redun.inflight ++ [(n, ofS v, 0)] } }

/-- What it does in the registers that a node has saved at its boundary. -/
def SavedNode.takeStatus (t : TaskReq) (v : W) (d : SavedNode) : SavedNode := { d with
  regs := (d.regs.zip (List.range d.regs.length)).map fun e =>
    if e.2 = t.seat ∧ 1 ≤ t.status.toNat then e.1.set (t.status.toNat - 1) (v, .full) else e.1 }

/-- The status of a task request reaches its register and the followers, wherever they stand: on the node's cores, in their
satchels, or in what the node has saved (R119, 07_faults R143, R145). -/
def State.taskStatus (s : State) (t : TaskReq) (v : W) : State :=
  let s := (s.onCores (fun _ x => x.node.inst == some t.inst) (Core.takeStatus t v)).onInst t.inst fun i =>
    { i with saved := i.saved.map (SavedNode.takeStatus t v) }
  { s with satchels := s.satchels.map fun k => { k with ctx := k.ctx.takeStatus t v } }

/-- The launch record of an instance, while its queue holds it. -/
def State.recOf (s : State) (i : Inst) : Option Rec := (s.queueAt i.vf (toQ i.queue)).recs.find? (·.k == i.record)

/-- TASK_POOL_INSERT (R116, R119): the core's oldest request, 24 cycles after its b.task at the earliest. In a timetable
record a node that cannot run in timetable mode fails (R124). -/
def execTaskPoolInsert (s : State) : Out :=
  match s.sched.tasks.find? (·.core == s.inp.core) with
  | none => .next s
  | some t =>
    if (s.cyc - t.at_).toNat < 24 then .next s
    else
      let s := s.onSched fun h => { h with tasks := h.tasks.erase t }
      match s.instAt t.inst with
      | none => .next (s.taskStatus t 1)
      | some me =>
        match (s.graphAt me.graph).bind (·.image.nodes[t.node]?) with
        | none => .next (s.taskStatus t 1)
        | some n =>
          let id := s.sched.nextInst
          let i : Inst := { me with
            id := id, node := t.node, state := .waiting, preds := 0, base := max n.prio.toNat me.base, running := 0
            args := t.args, redun := max n.redun.toNat ((s.recOf me).elim 0 (·.redun)), tt := me.tt, saved := none, early := false
            started := 0, first := 0, entry := none, trigs := [], expired := false, pooled := false }
          if !s.poolOpen (s.poolDie i (dieOf t.core)) i.vf then .next ((s.taskStatus t 1).finishRecord me)
          else
            let s := s.onSched fun h => { h with insts := h.insts ++ [i], nextInst := id + 1 }
            let s := (s.makeReady id (dieOf t.core)).taskStatus t 0
            .next (if i.tt && !ttFit n then s.schedFail id 0x1A 0 (.ofNat 64 i.node) else s)

/-! ### Roll calls (R118, 08_ordering R167, R168, 10_core R210) -/

/-- The cores that stand for a member of an entry: itself, or the replicas of its seat that are not retired. -/
def State.memberCores (s : State) (c : CoreId) : List CoreId :=
  let x := s.coreAt c
  match x.node.inst with
  | none => [c]
  | some id => (s.instCores id).filter fun k =>
      (s.coreAt k).node.seat == x.node.seat && !(s.coreAt k).redun.retired

/-- A core is held at a roll call of an entry, or has executed b.done in the gang that owns the entry. -/
def State.heldAt (s : State) (e : BitVec 8) (c : CoreId) : Bool :=
  let x := s.coreAt c
  x.seq.held.any (·.1 == e) ||
    (x.seq.mode == .done && (s.instOf c).any fun i => i.entry == some e)

/-- An address of a member's own shadow bank, or of a window. -/
def shadowAddr (va : W) : Bool :=
  tagOfVa va == 6 || (tagOfVa va == 5 && 0x280000 ≤ fld va.toNat 21 0 && fld va.toNat 21 0 < 0x300000)

/-- Some of n bytes from an address lie in a shadow bank or a window. -/
def shadowSpan (va : W) (n : Nat) : Bool :=
  n != 0 && (shadowAddr va || shadowAddr (va + .ofNat 64 (n - 1)) ||
    (tagOfVa va == 5 && fld va.toNat 21 0 < 0x280000 && 0x280000 < fld va.toNat 21 0 + n))

/-- The bytes that a command writes: of a row transfer each row's destination; a fetch-op's targets and its old values; a
decompressor's bundles and its result word; a recast's result word. -/
def State.copySpans (s : State) (c : CoreId) (m : CopyCmd) : List (W × Nat) :=
  let w := (m.q 2).toNat
  let p : PartId := (s.coreAt c).csr.part.toFin
  match xopOf m.op, fopOf m.op, m.op with
  | some o, _, _ =>
    if o != .get && m.rv then [] else (List.range m.rows).map fun i =>
      ((s.rowOf c p m o i).2, match s.rowSides c p m o i with
        | some (a, b) => (match rowPlan m o a b with | .ok (pl, _) => pl.dstLen | .error _ => 1)
        | none => 1)
  | none, some _, _ =>
    let n := (if bitOf w 59 then 8 else 4) * fld w 6 0
    [(m.q 3, n)] ++ (if m.rv then [] else [(m.q 1, n)])
  | none, none, .cDecomp _ => [(m.q 1, 16 * fld w 44 32), (m.q 3, 8)]
  | none, none, .cRecast .. => [(.ofNat 64 (5 * 2 ^ 61 + fld (m.q 0).toNat 53 32), 8)]
  | _, _, _ => []

/-- A command of a context still writes a shadow bank: one that runs, unless it has stopped with nothing
outstanding, and those behind it (R167). -/
def State.shadowCopy (s : State) (c : CoreId) (x : Ctx) : Bool :=
  let writes := fun (m : CopyCmd) => (s.copySpans c m).any fun a => shadowSpan a.1 a.2
  let t := (s.coreAt c).copy.get x
  match t.run with
  | some r => if r.stop.isSome then !r.out.isEmpty && writes r.cmd else writes r.cmd || t.queue.any writes
  | none => t.queue.any writes

/-- A core's earlier accesses are performed; for a swap its copy commands write no shadow bank any more. -/
def State.rollReady (s : State) (swap : Bool) (c : CoreId) : Bool :=
  let x := s.coreAt c
  x.openIds.isEmpty && (!swap || (!s.shadowCopy c 0 && !s.shadowCopy c 1 &&
    x.matrix.run.all fun r => r.wbOut.isEmpty))

/-- The blocks of the live bank that a swap clears as it becomes the shadow bank, by their places in scratch (R210). -/
def Core.clearedBlocks (x : Core) : List Nat :=
  let base := if x.live1 then 0x280000 else 0x200000
  ((List.range 8).filter fun i => bitOf x.csr.xclr.toNat i).map fun i => base + i * 0x10000

/-- The banks exchange roles and the new shadow bank's blocks are cleared as XCLR says (R210). -/
def Core.swapBanks (x : Core) : Core :=
  { x with live1 := !x.live1, scratch := x.clearedBlocks.foldl (fun m a => m.zeroRange a 0x10000) x.scratch }

/-- A held core issues. -/
def Core.rollOn (x : Core) : Core := x.onSeq fun q => { q with held := none, rolled := true }

/-- The roll call of an entry completes. -/
def State.rollCall (s : State) (e : BitVec 8) (l : List CoreId) (swap : Bool) : State :=
  let s := s.onSched fun h => { h with groups := h.groups.map fun g =>
    if g.1 == e then (e, { g.2 with phase := g.2.phase + 1 }) else g }
  -- the clearing of a block ends the release sequences in it (R160)
  let cleared := if swap then l.flatMap fun c => (s.coreAt c).clearedBlocks.map (scratchPlace c) else []
  let s := s.setRels (s.ms.rels.filter fun r => !cleared.any fun a => a ≤ r.1 && r.1 < a + 0x10000)
  let s := s.onCores (fun c _ => l.contains c) fun x =>
    let x := if swap then x.swapBanks else x
    if x.seq.held.any (·.1 == e) then x.rollOn else x
  let back := s.sched.insts.filter fun i => match i.state with
    | .parked e' p => e' == e && s.phase e != p
    | _ => false
  back.foldl (fun (s : State) i => s.makeReady i.id i.die) s

/-- ROLL_CALL_COMPLETE (R118): every member is held, and what they issued before is performed; the roll calls of a
partition that is swapped out stay open (07_faults R145). -/
def execRollCallComplete (s : State) : Out :=
  let e : BitVec 8 := .ofNat 8 s.inp.n
  match s.sched.groups.find? (·.1 == e) with
  | none => .next s
  | some (_, g) =>
    let mem := allCores.filter fun c => bitOf g.members.toNat c.val
    let l := (mem.flatMap s.memberCores).eraseDups
    let swap := l.any fun c => (s.coreAt c).seq.held.any fun h => h.1 == e && h.2
    if mem.isEmpty ∨ (s.partAt g.part).swapped ∨ !(l.all (s.heldAt e)) ∨ !(l.all (s.rollReady swap)) then .next s
    else .next (s.rollCall e l swap)

end Sys2Proof.Machine
end

