-- ==== Sys2Proof/Machine/Faults.lean ====
section
/-!
DEFINITION. Forced swap and resumption, watchdogs, dumps, retention of instruction halves, and what reaches a core
from its own slow units (07_faults R139 to R151, 01_module R11, 10_core R206, R207, 16_sync R350, R359, 14_scalar
R317).
-/

namespace Sys2Proof.Machine

/-! ### Traps that no operation raises (R134 to R136) -/

/-- TRAP_ENTRY (R134, R136): the trap that waits at the core is taken before its next group. -/
def execTrapEntry (s : State) : Out :=
  let s := { s with cur := s.inp.core, issue := Issue.idle }
  let x := s.core
  if !x.live then .next s
  else match x.dueTrap with
    | none => .next s
    | some (t, fwd) => .next (s.deliverTrap t fwd)

/-- STAMP_OVERRUN (10_core R207, R208): the next group's cycle has passed, or never comes; a roll call that the group has
completed stays so (07_faults R128). -/
def execStampOverrun (s : State) : Out :=
  let s := State.withSync { s with cur := s.inp.core }
  let x := s.core
  if !x.csr.tt ∨ x.seq.mode != .running ∨ x.seq.freeze != 0 then .next s
  else match s.nextGroup with
    | .error _ => .next s
    | .ok g => match g.stamp with
      | none => .next s
      | some st =>
        if x.late st then .next (s.stageTrap { x.csr.overrun st with mask := 2 ^ g.ops.length - 1 }) else .next s

/-! ### Producers (R139) -/

/-- The first q.fin that waits is this one. -/
def Core.firstFin (x : Core) (f : PendFill) : Bool :=
  (x.fills.find? fun g => match g.src with | .fin _ => true | _ => false) == some f

/-- PRODUCER_FILL (R139, 16_sync R359): an SFU result, a promise, or the oldest word of the inbox. -/
def execProducerFill (s : State) : Out :=
  let s := { s with cur := s.inp.core }
  let x := s.core
  match x.fills.find? fun f => f.file == s.inp.file && f.reg == s.inp.reg with
  | none => .next s
  | some f =>
    if x.seq.freeze ≠ 0 then .next s else
    let done := fun (x : Core) => { x with fills := x.fills.erase f }
    match f.src with
    | .value v fl => if s.cyc.toNat < f.due.toNat then .next s else .next (s.mapCore fun x => done { x.onRegs (·.fill f.file f.reg v) with
        csr := { x.csr with fpflags := x.csr.fpflags ||| fl } })
    | .fin k =>
      match x.mail.inbox with
      | (w, _) :: r =>
        if !x.firstFin f then .next s
        else
          let s := s.mapCore fun x => done { x.onRegs (·.fill f.file f.reg (ofS w)) with mail := { x.mail with inbox := r } }
          .next (match k with | some n => s.forward n (ofS w) | none => s)
      | [] => .next s
    | _ => .next s

/-- TS_UPDATE_ARRIVE (16_sync R350): 8 cycles on one die, 40 across dies. -/
def execTsUpdateArrive (s : State) : Out :=
  let c := s.inp.core
  let d := s.inp.dst
  let y := s.coreAt c
  let wait := if dieOf c == dieOf d then 8 else 40
  match y.tsLog.find? fun e => decide (e.1.toNat + wait ≤ s.cyc.toNat) with
  | none => .next s
  | some (_, v) =>
    if y.node.inst.isNone ∨ y.csr.part ≠ (s.coreAt d).csr.part then .next s
    else .next (s.onCore d fun x => { x with tsSeen := (c, v) :: x.tsSeen.filter (·.1 != c) })

/-- SLACK_STALL_RELEASE (10_core R206): every command queue has emptied. -/
def execSlackStallRelease (s : State) : Out :=
  .next (s.onCore s.inp.core fun x =>
    if !x.csr.tt && x.csr.limit != 0xFFFF#16 && x.csr.limit.toNat < x.csr.debt.toNat && x.matrix.queue.isEmpty &&
        (x.copy.get 0).queue.isEmpty && (x.copy.get 1).queue.isEmpty then x.onCsr fun c => { c with debt := 0 }
    else x)

/-- SLEEP_WAKE (14_scalar R317): the core's group, in which b.sleep holds, is tried next. -/
def execSleepWake (s : State) : Out := .next { s with order := .seq s.inp.core :: s.order }

/-! ### Instruction halves (R142) -/

/-- HALF_RETENTION_ENTRY. -/
def execHalfRetentionEntry (s : State) : Out :=
  .next (s.onCore s.inp.core fun x =>
    let h := x.halves.get (idleIx x)
    if !h.retained && h.lastUse.toNat + 65536 ≤ s.cyc.toNat then x.setIdle { h with retained := true, leaving := false }
    else x)

/-- RETENTION_EXIT_END. -/
def execRetentionExitEnd (s : State) : Out :=
  .next (s.onCore s.inp.core fun x => { x with halves := x.halves.map fun h =>
    if h.leaving && h.lastUse.toNat + 256 ≤ s.cyc.toNat then { h with retained := false, leaving := false } else h })

/-! ### Forced swap (R145, R147) -/

/-- The cores that run an instance of the partition. -/
def State.runCores (s : State) (p : PartId) : List CoreId :=
  s.coresWhere fun _ x => (x.node.inst.bind s.instAt).any (·.vf == p)

/-- A request that the pool manager has not taken is withdrawn: its command stands at a request boundary. -/
def CopyCtx.withdraw (k : CopyCtx) : CopyCtx :=
  { k with run := k.run.map fun r => if r.phase = .manager then { r with phase := .reqs } else r }

/-- A core halts between groups and drains: producers write, key-value pins are released, locks end. -/
def Core.halt (x : Core) : Core :=
  let x := x.drain
  { x with
    seq := { x.seq with mode := if x.seq.mode == .running then .halted else x.seq.mode }
    locks := []
    copy := x.copy.map CopyCtx.withdraw
    matrix := { x.matrix with run := x.matrix.run.map (·.mapPipes fun q => { q with pins := [], page := none }) } }

/-- A satchel that is being read goes back into retention. -/
def Satchel.stay (now : W) (t : Satchel) : Satchel := if t.leaving then { t with leaving := false, ready := now + 2560 } else t

/-- Steps 1 and 2 of a forced swap; a context that has not come back yet stays in its satchel. -/
def State.swapOut (s : State) (p : PartId) : State :=
  if (s.partAt p).swapped then s
  else
    let l := s.runCores p
    let s : State := { s with
      ms := { s.ms with manager := s.ms.manager.filter fun m => !l.contains m.1 }
      satchels := s.satchels.map fun t => if t.part = p then t.stay s.cyc else t }
    (s.onCores (fun c _ => l.contains c) Core.halt).onPart p fun x => { x with swapped := true }

/-- FORCED_SWAP. -/
def execForcedSwap (s : State) : Out := .next (s.swapOut s.inp.part)

/-- THERMAL_SHUTDOWN (01_module R11): every partition is swapped, and the cores are then held. -/
def execThermalShutdown (s : State) : Out :=
  let s := (List.finRange 8).foldl State.swapOut s
  .next { s with fw := { s.fw with hot := true } }

/-- THERMAL_RECOVERY. -/
def execThermalRecovery (s : State) : Out := .next { s with fw := { s.fw with hot := false } }

/-- WATCHDOG_EXPIRY (R149): not every seat has executed b.done, b.park or b.yield since the node started or resumed: its
partition is swapped, and the node fails once its context is saved. -/
def execWatchdogExpiry (s : State) : Out :=
  match s.instAt s.inp.n with
  | none => .next s
  | some i =>
    let w := (s.partAt i.vf).wdog.toNat
    let stood := (s.instCores i.id).all fun c => (s.coreAt c).node.stood || (s.coreAt c).redun.retired
    if w = 0 ∨ i.state != .running ∨ (s.cyc - i.started).toNat < us (64 * w) ∨ (s.partAt i.vf).swapped ∨ stood ∨
        (s.instCores i.id).isEmpty then .next s
    else .next ((s.onInst i.id fun i => { i with expired := true }).swapOut i.vf)

/-- Nothing that a core sent is unanswered. -/
def State.quiet (s : State) (c : CoreId) : Bool :=
  let x := s.coreAt c
  let copy := fun (k : CopyCtx) => k.run.all fun r => r.rd.left.isEmpty && r.out.isEmpty
  x.loads.isEmpty && x.stores.isEmpty && copy (x.copy.get 0) && copy (x.copy.get 1) && x.moved.isEmpty &&
  (x.matrix.run.all fun r => r.wbOut.isEmpty && r.allPipes.all fun q => q.rd.left.isEmpty) &&
  !(s.ms.migrations.any fun g => g.cmd.any (·.1 == c)) &&
  !((s.fabAt .e).reqs.any (·.core == c)) && !((s.fabAt .w).reqs.any (·.core == c))

/-- A running call as a context keeps it: no line (23_matrix R437). -/
def MRun.saved (r : MRun) : MRun :=
  { r.mapPipes (fun q => { q with got := [], rd := noRead }) with
    bufs := r.bufs.map fun b => { b with lines := [], scales := [] } }

/-- A load that begins again at its first row. -/
def LoadSpec.run (sp : LoadSpec) (refill : Bool) : PipeRun :=
  ⟨sp, refill, 0, 0, 0, false, [], none, none, [], refill, noRead, [], none, none, none⟩

/-- A resumed call: the loads that filled its buffers run again, before those that were stopped (R437, R443). -/
def MRun.refilled (r : MRun) : MRun :=
  let again := r.bufs.toList.flatMap fun b => b.load.toList ++ b.scaleBy.toList
  { r with pipes := r.pipes.mapFinIdx fun i l _ =>
    (again.filter fun sp => sp.pipe.val == i).map (·.run true) ++
      l.map fun q => { q.spec.run q.refill with claimed := q.claimed, stop := q.stop } }

/-- The first fault of a running command that can be reported: its pipe's number, or 4 for the micro-word's own. -/
def MRun.fault (r : MRun) : Option (Nat × Trap) :=
  let pipes := (List.finRange 4).filterMap fun i => match r.pipes.get i with
    | q :: _ => q.stop.map fun t => (i.val, t)
    | [] => none
  match pipes with
  | h :: _ => some h
  | [] => r.stop.map fun t => (4, t)

/-- ROWPROG of a stopped load, or of a stopped u.wb (10_core R204). -/
def MRun.rowprog (r : MRun) (k : Nat) : W :=
  let w := fun (pipe upc row : Nat) => (.ofNat 64 (2 ^ 63 + pipe * 2 ^ 32 + upc % 65536 * 65536 + row) : W)
  if h : k < 4 then
    match r.pipes.get ⟨k, h⟩ with
    | q :: _ => w k q.spec.upc (if q.next = 0 then 0xFFFF else q.next - 1)
    | [] => 0
  else w 0 r.upc 0xFFFF

/-- The load that a routine halted at: that of its first busy pipe, or none of them (10_core R204). -/
def MRun.haltedAt (r : MRun) : Nat := ((List.finRange 4).find? fun i => !(r.pipes.get i).isEmpty).elim 4 (·.val)

/-- The progress registers of a core that a forced swap halts: those of commands that no trap has stopped are recorded now
(R145, 10_core R204). -/
def Core.progress (x : Core) : Csr := { x.csr with
  cprog := Vector.ofFn fun i => match (x.copy.get i).run with
    | some r => if r.stop.isSome then x.csr.cprog.get i else .ofNat 64 (2 ^ 63 + r.bytes % 2 ^ 40)
    | none => x.csr.cprog.get i
  rowprog := match x.matrix.run with
    | some r => if r.fault.isSome then x.csr.rowprog else r.rowprog r.haltedAt
    | none => x.csr.rowprog }

/-- They are clear again for the commands that go on when the core resumes. -/
def Core.goesOn (x : Core) : Csr := { x.csr with
  cprog := Vector.ofFn fun i => if (x.copy.get i).run.any (·.stop.isNone) then x.csr.cprog.get i &&& 0x7FFFFFFFFFFFFFFF#64
    else x.csr.cprog.get i
  rowprog := if x.matrix.run.any (·.fault.isNone) then x.csr.rowprog &&& 0x7FFFFFFFFFFFFFFF#64 else x.csr.rowprog }

/-- The kept part of a core's memories and the rest of its context (R144, R145). -/
def Core.context (x : Core) : Core :=
  let i := idleIx x
  { x with
    csr := x.progress
    scratch := ⟨x.scratch.cells.filter fun c => keepsBlock x.csr.keepmap (x.scratchSwap c.1 / 0x10000),
      x.scratch.poison.filter fun a => keepsBlock x.csr.keepmap (x.scratchSwap a / 0x10000)⟩
    acc := tabulate fun r => if bitOf x.csr.keepmap.toNat (48 + r.val / 64) then x.acc.get r else 0
    accPoison := x.accPoison.filter fun a => bitOf x.csr.keepmap.toNat (48 + a.1 / 64)
    matrix := { x.matrix with run := x.matrix.run.map (·.saved) }
    halves := x.halves.set i.val Half.reset i.isLt }

/-- The core runs nothing. -/
def Core.vacate (x : Core) : Core := { x.clearEngines with
  seq := { Seq.reset with pc := x.seq.pc, npc := x.seq.npc }
  node := { x.node with inst := none, stood := false } }

/-- A node whose watchdog has expired fails with its context in the satchels. -/
def State.expire (s : State) (i : Inst) : State :=
  s.failChain i
    [s.causeRec 0x1E 0 (4 * 1024) (.ofNat 64 i.node) (some i) 0 false,
     s.causeRec 0x1F 0 (4 * 1024) (.ofNat 64 i.node) (some i) 0 false]

/-- Firmware returns a partition: its satchels begin to leave retention, which takes 2,560 cycles (R142, R147). -/
def State.returnPart (s : State) (p : PartId) : State :=
  let ready := fun (t : Satchel) => (if s.cyc.toNat < t.ready.toNat then t.ready else s.cyc) + 2560
  { s.onPart p fun x => { x with swapped := false } with
    satchels := s.satchels.map fun t => if t.part = p ∧ !t.leaving then { t with leaving := true, ready := ready t } else t }

/-- SWAP_QUIESCE_END (R145): the contexts are saved once nothing is outstanding, in satchels that enter retention for 2,560
cycles (R142). After a watchdog's swap its node fails, and firmware returns the partition to the others (R149). -/
def execSwapQuiesceEnd (s : State) : Out :=
  let p := s.inp.part
  let l := s.runCores p
  if !(s.partAt p).swapped ∨ !(l.all s.quiet) then .next s
  else
    let s : State := { s with satchels := s.satchels ++ l.map fun c =>
      (⟨c, p, (s.coreAt c).context, [], s.cyc + 2560, false⟩ : Satchel) }
    let s := s.onCores (fun c _ => l.contains c) Core.vacate
    match s.sched.insts.filter fun i => i.expired && i.vf == p && i.state == .running with
    | [] => .next s
    | l => .next ((l.foldl State.expire s).returnPart p)

/-- Discardable state has been written since the node started (R147). -/
def Core.lostState (x : Core) : Bool :=
  x.wrote.any fun g =>
    if g < 48 then !keepsBlock x.csr.keepmap (x.scratchSwap (g * 0x10000) / 0x10000)
    else !bitOf x.csr.keepmap.toNat g

/-- A context comes back on core c, whose seat's leader core is `lead` (R147). -/
def State.resumedCore (s : State) (p : PartId) (x : Core) (c lead : CoreId) : Core :=
  let y := s.coreAt c
  let a := halfIx x.seq.pc.half
  let i := idleIx x
  { x with
    csr := { x.goesOn with
      coreno := .ofNat 8 lead.val, prel := .ofNat 8 (s.prelOf p lead), deg := s.degraded c, fnum := 0
      discard := x.csr.discard || x.lostState }
    seq := { x.seq with mode := if x.seq.mode == .halted && !x.redun.retired then .running else x.seq.mode, prev := none }
    halves := (y.halves.set a.val { x.halves.get a with lastUse := s.cyc } a.isLt)
    tlb := y.tlb, kvc := []
    matrix := { x.matrix with run := x.matrix.run.map (·.refilled) }
    mail := { x.mail with outbox := x.mail.outbox ++ y.mail.outbox }
    node := { x.node with
      seg := x.node.seg.set i.val (y.node.seg.get i) i.isLt
      stood := match x.seq.mode with | .running | .halted | .idle => false | _ => true }
    wrote := [] }

/-- The relay chain that a saved command receives follows it to its new core. -/
def Fabric.moveRelays (f : Fabric) (t : Satchel) (c : CoreId) : Fabric := { f with
  relays := f.relays.map fun e =>
    if e.2.1 = t.core ∧ (t.ctx.copy.get e.2.2).run.any fun r => r.phase == .relayRecv && r.cmd.q 1 == e.1 then (e.1, c, e.2.2)
    else e }

/-- A swapped node resumes on a placement; a poisoned satchel fails it (R141). -/
def State.resumeNode (s : State) (i : Inst) (n : NodeDesc) (first : Nat) (l : List Satchel) : State :=
  let s := { s with satchels := s.satchels.filter fun t => !l.contains t }
  let s := l.foldl (init := s) fun s t =>
    let c := replicaCore t.ctx.node.replica (toCore (first + t.ctx.node.seat))
    (s.onFab .e (·.moveRelays t c)).onFab .w (·.moveRelays t c)
  let s := l.foldl (init := s) fun s t =>
    let lead := toCore (first + t.ctx.node.seat)
    let c := replicaCore t.ctx.node.replica lead
    s.setCoreAt c (s.resumedCore i.vf t.ctx c lead)
  let s := s.onInst i.id fun i => { i with first := first, started := s.cyc }
  let s := match i.entry with
    | some e => s.onSched fun h => { h with groups := h.groups.map fun g =>
        if g.1 == e then (e, { g.2 with members := memberMask (runFrom first (seatsOf n)) }) else g }
    | none => s
  match l.find? fun t => !t.poison.isEmpty with
  | none => s
  | some t =>
    let c := replicaCore t.ctx.node.replica (toCore (first + t.ctx.node.seat))
    let me := s.cur
    let bad : Trap := { code := 0x0B, reason := 2, info := .ofNat 64 (t.poison.headD 0) }
    let s := s.onCore c fun x => x.onCsr (·.record bad false x.seq.pc)
    { ({ s with cur := c }.failNode bad) with cur := me }

/-- The swapped nodes of a partition whose satchels have left retention and that fit now, oldest first. -/
def State.resumeAll (s : State) (p : PartId) : State :=
  (s.sched.insts.filter fun i => i.vf == p && i.state == .running).foldl (init := s) fun s i =>
    let l := s.satchels.filter fun t => t.part == p && t.ctx.node.inst == some i.id
    match l, s.descOf i with
    | _ :: _, some n =>
      if (i.tt ∧ s.cyc.toNat % 64 ≠ 0) ∨ l.any fun t => !t.leaving || decide (s.cyc.toNat < t.ready.toNat) then s
      else match s.choose i n (s.placements { i with die := .e } n .e [] ++ s.placements i n .w []) with
        | none => s
        | some c => s.resumeNode i n c l
    | _, _ => s

/-- SWAP_RESUME (R147): firmware returns the partition; a node resumes in the first cycle in which its satchels have left
retention and it finds a placement, one of a timetable record at a multiple of 64. -/
def execSwapResume (s : State) : Out :=
  let p := s.inp.part
  if s.fw.hot ∨ ((s.partAt p).swapped ∧ !(s.runCores p).isEmpty) then .next s
  else .next ((s.returnPart p).resumeAll p)

/-! ### Dumps (R150, R151) -/

/-- A cause record with its index. -/
def CauseRec.bytes (r : CauseRec) (k : Nat) : List Byte :=
  leBytes 1 r.code ++ leBytes 1 r.reason ++ leBytes 2 r.origin ++ leBytes 4 (if r.ends then 0xFFFFFFFF else k + 1) ++
  leBytes 8 r.cyc.toNat ++ leBytes 8 r.info.toNat ++
  leBytes 8 (r.node % 65536 * 2 ^ 48 + r.record % 65536 * 2 ^ 32 + r.pc % 2 ^ 15)

def causeBytes (l : List CauseRec) : List Byte :=
  (l.zip (List.range l.length)).flatMap fun x => x.1.bytes x.2

/-- The range table of a partition, 2,048 entries. -/
def Part.rangeBytes (x : Part) : List Byte :=
  (List.range 2048).flatMap fun i =>
    let r := (x.rangeIx i).getD Range.zero
    (List.range 4).flatMap fun k => leBytes 8 (r.word k).toNat

/-- The bytes of a core's image, 1 MiB (assumption 40): free values, since the manual does not lay them out. -/
def imageBytes (ctr k : Nat) : List Byte := (List.range 0x100000).map fun i => Config.imageByte ctr (k * 0x100000 + i)

/-- The dump of a partition with so many core images, at DUMPBASE: header, images, range table and XLATINV, cause
records; the records first when the area is too small. -/
def State.writeDump (s : State) (p : PartId) (i : Inst) (ncore : Nat) : State :=
  let x := s.partAt p
  let l := s.sched.causes.filter (·.part == p)
  let cb := causeBytes l
  let xl := x.rangeBytes ++ (leBytes 8 (s.ms.xlatinv.get 0).toNat ++ leBytes 8 (s.ms.xlatinv.get 1).toNat)
  let xlat := 64 + ncore * 0x100000
  let full := xlat + xl.length + cb.length
  let size := x.dumpsz.toNat
  let fits := decide (full ≤ size)
  let nc := if fits then ncore else min ncore ((size - 64 - cb.length) / 0x100000)
  let ctx := if fits then 64 else 64 + cb.length
  let cause := if fits then xlat + xl.length else 64
  let len := if fits then full else min size (64 + cb.length + nc * 0x100000)
  let head := leBytes 8 (x.dumpno + 1) ++ leBytes 4 nc ++ leBytes 4 l.length ++ leBytes 8 ctx ++ leBytes 8 cause ++
    leBytes 8 (if fits then xlat else 0) ++ leBytes 8 (len + b2n (!fits) * 2 ^ 63) ++
    leBytes 8 (i.node % 65536 * 2 ^ 48 + i.record % 2 ^ 48) ++ leBytes 8 s.cyc.toNat
  let base := x.dumpbase.toNat
  let put := fun (m : Memory) (off : Nat) (b : List Byte) => m.writeBytes (base + off) (b.take (size - off))
  (s.onMem fun m =>
    let m := (List.range nc).foldl (fun m k => put m (ctx + k * 0x100000) (imageBytes s.freeCtr k)) (put (put m 0 head) cause cb)
    if fits then put m xlat xl else m).takeFree

/-- DUMP_WRITTEN (R150): the dump of the oldest failed node whose contexts are held, or of one that failed on no core, and
the release of the cores of every failed node of the partition. -/
def execDumpWritten (s : State) : Out :=
  let p := s.inp.part
  let cores := fun (i : Inst) => (s.instCores i.id).length +
    (s.satchels.filter fun t => t.ctx.node.inst == some i.id).length
  let bad := s.sched.insts.filter fun i => i.vf == p && i.state == .failed && cores i != 0
  let told := fun (i : Inst) => i.vf == p && i.state == .failed &&
    s.sched.causes.any fun r => r.code == 0x1F && r.part == p && r.node == i.node && r.record == i.record
  match bad.head?.orElse fun _ => s.sched.insts.find? told with
  | none => .next s
  | some i =>
    let base := (s.partAt p).dumpbase.toNat
    if !(paInHbm base || paInHeath base) then .fault (.hole base)
    else
      let s := if (s.partAt p).dumpPend then s
        else (s.writeDump p i (cores i)).onPart p fun x => { x with dumpPend := true, dumpno := x.dumpno + 1 }
      let s := s.onSched fun h => { h with causes := h.causes.filter (·.part != p) }
      let ids := bad.map (·.id)
      let s := { s with satchels := s.satchels.filter fun t => !(t.ctx.node.inst.any ids.contains) }
      .next (bad.foldl (fun (s : State) i => s.releaseCores i.id) s)

end Sys2Proof.Machine
end

