-- ==== Sys2Proof/Machine/Vector.lean ====
section
/-!
DEFINITION. The V operations (21_vector R383 to R410): each is one of the shared runs over the members of a lift,
with the element function of the operation.
-/

namespace Sys2Proof.Machine

/-! ### Arithmetic and cascades (R389, R390, R392) -/

/-- The stages of a cascade, whose operands are c and e (12_encoding R261). -/
def cascClasses (op : VOp) (k : Option Casc) : List VClass :=
  vopClass op :: match k with
    | none => []
    | some k => [vopClass (stageOp k.opB), vopClass (stageOp k.opC)]

/-- An element operation, or the first stage of a cascade: sources a, b, the addend d (fma and fms), and the
cascade's c and e; an operand a stage does not take stands as a. -/
def arith (i : Instr) (op : VOp) (d : BitVec 6) (a b c : BitVec 6) (z : Bool) (s : State) : Out :=
  let k := s.issue.ctx.casc
  let cs := match k with
    | none => (a, a)
    | some k => (if stageUnary k.opB then a else k.c.reg, if stageUnary k.opC then a else k.e.reg)
  vRun i (cascClasses op k) [a, b, c, cs.1, cs.2] [] (.v d) z (fun e old vs _ =>
    let v := fun j => vs.getD j 0
    match k with
    | none => vArith op e old (v 0) (v 1) (v 2)
    | some k => vCascade op (stageOp k.opB) (stageOp k.opC) e old (v 0) (v 1) (v 2) (v 3) (v 4)) s

/-- v.fadd (R389). -/
def execVFadd (d : BitVec 6) (a b : Src) (z : Bool) (s : State) : Out :=
  arith (.vFadd d a b z) .fadd d a.reg b.reg a.reg z s

/-- v.fsub (R389). -/
def execVFsub (d : BitVec 6) (a b : Src) (z : Bool) (s : State) : Out :=
  arith (.vFsub d a b z) .fsub d a.reg b.reg a.reg z s

/-- v.fmul (R389). -/
def execVFmul (d : BitVec 6) (a b : Src) (z : Bool) (s : State) : Out :=
  arith (.vFmul d a b z) .fmul d a.reg b.reg a.reg z s

/-- v.fmin (R389). -/
def execVFmin (d : BitVec 6) (a b : Src) (z : Bool) (s : State) : Out :=
  arith (.vFmin d a b z) .fmin d a.reg b.reg a.reg z s

/-- v.fmax (R389). -/
def execVFmax (d : BitVec 6) (a b : Src) (z : Bool) (s : State) : Out :=
  arith (.vFmax d a b z) .fmax d a.reg b.reg a.reg z s

/-- v.add (R390). -/
def execVAdd (d : BitVec 6) (a b : Src) (z : Bool) (s : State) : Out :=
  arith (.vAdd d a b z) .add d a.reg b.reg a.reg z s

/-- v.sub (R390). -/
def execVSub (d : BitVec 6) (a b : Src) (z : Bool) (s : State) : Out :=
  arith (.vSub d a b z) .sub d a.reg b.reg a.reg z s

/-- v.mul (R390). -/
def execVMul (d : BitVec 6) (a b : Src) (z : Bool) (s : State) : Out :=
  arith (.vMul d a b z) .mul d a.reg b.reg a.reg z s

/-- v.mulh (R390). -/
def execVMulh (d : BitVec 6) (a b : Src) (z : Bool) (s : State) : Out :=
  arith (.vMulh d a b z) .mulh d a.reg b.reg a.reg z s

/-- v.mulhn (R390). -/
def execVMulhn (d : BitVec 6) (a b : Src) (z : Bool) (s : State) : Out :=
  arith (.vMulhn d a b z) .mulhn d a.reg b.reg a.reg z s

/-- v.and (R390). -/
def execVAnd (d : BitVec 6) (a b : Src) (z : Bool) (s : State) : Out :=
  arith (.vAnd d a b z) .and d a.reg b.reg a.reg z s

/-- v.or (R390). -/
def execVOr (d : BitVec 6) (a b : Src) (z : Bool) (s : State) : Out :=
  arith (.vOr d a b z) .or d a.reg b.reg a.reg z s

/-- v.xor (R390). -/
def execVXor (d : BitVec 6) (a b : Src) (z : Bool) (s : State) : Out :=
  arith (.vXor d a b z) .xor d a.reg b.reg a.reg z s

/-- v.andn (R390). -/
def execVAndn (d : BitVec 6) (a b : Src) (z : Bool) (s : State) : Out :=
  arith (.vAndn d a b z) .andn d a.reg b.reg a.reg z s

/-- v.shl (R390). -/
def execVShl (d : BitVec 6) (a b : Src) (z : Bool) (s : State) : Out :=
  arith (.vShl d a b z) .shl d a.reg b.reg a.reg z s

/-- v.shr (R390). -/
def execVShr (d : BitVec 6) (a b : Src) (z : Bool) (s : State) : Out :=
  arith (.vShr d a b z) .shr d a.reg b.reg a.reg z s

/-- v.sra (R390). -/
def execVSra (d : BitVec 6) (a b : Src) (z : Bool) (s : State) : Out :=
  arith (.vSra d a b z) .sra d a.reg b.reg a.reg z s

/-- v.min (R390). -/
def execVMin (d : BitVec 6) (a b : Src) (z : Bool) (s : State) : Out :=
  arith (.vMin d a b z) .min d a.reg b.reg a.reg z s

/-- v.max (R390). -/
def execVMax (d : BitVec 6) (a b : Src) (z : Bool) (s : State) : Out :=
  arith (.vMax d a b z) .max d a.reg b.reg a.reg z s

/-- v.minn (R390). -/
def execVMinn (d : BitVec 6) (a b : Src) (z : Bool) (s : State) : Out :=
  arith (.vMinn d a b z) .minn d a.reg b.reg a.reg z s

/-- v.maxn (R390). -/
def execVMaxn (d : BitVec 6) (a b : Src) (z : Bool) (s : State) : Out :=
  arith (.vMaxn d a b z) .maxn d a.reg b.reg a.reg z s

/-- v.addsat (R390). -/
def execVAddsat (d : BitVec 6) (a b : Src) (z : Bool) (s : State) : Out :=
  arith (.vAddsat d a b z) .addsat d a.reg b.reg a.reg z s

/-- v.subsat (R390). -/
def execVSubsat (d : BitVec 6) (a b : Src) (z : Bool) (s : State) : Out :=
  arith (.vSubsat d a b z) .subsat d a.reg b.reg a.reg z s

/-- v.fma (R389). -/
def execVFma (d : BitVec 6) (a b : Src) (z : Bool) (s : State) : Out :=
  arith (.vFma d a b z) .fma d a.reg b.reg d z s

/-- v.fms (R389). -/
def execVFms (d : BitVec 6) (a b : Src) (z : Bool) (s : State) : Out :=
  arith (.vFms d a b z) .fms d a.reg b.reg d z s

/-- v.fabs (R389). -/
def execVFabs (d : BitVec 6) (a : Src) (z : Bool) (s : State) : Out :=
  arith (.vFabs d a z) .fabs d a.reg a.reg a.reg z s

/-- v.fneg (R389). -/
def execVFneg (d : BitVec 6) (a : Src) (z : Bool) (s : State) : Out :=
  arith (.vFneg d a z) .fneg d a.reg a.reg a.reg z s

/-- v.abs (R390). -/
def execVAbs (d : BitVec 6) (a : Src) (z : Bool) (s : State) : Out :=
  arith (.vAbs d a z) .abs d a.reg a.reg a.reg z s

/-! ### Compares (R391) -/

/-- A compare of two registers into a mask register. -/
def vcmp (i : Instr) (op : VCmp) (k : BitVec 3) (a b : Src) (s : State) : Out :=
  vRun i [vcmpClass op] [a.reg, b.reg] [] (.k k) false (fun e _ vs _ =>
    let (m, fl) := vCompare op e.f (vs.getD 0 0) (vs.getD 1 0)
    (m.setWidth 4096, fl)) s

/-- v.fcmp.eq (R391). -/
def execVFcmpEq (k : BitVec 3) (a b : Src) (s : State) : Out := vcmp (.vFcmpEq k a b) .feq k a b s

/-- v.fcmp.lt (R391). -/
def execVFcmpLt (k : BitVec 3) (a b : Src) (s : State) : Out := vcmp (.vFcmpLt k a b) .flt k a b s

/-- v.fcmp.le (R391). -/
def execVFcmpLe (k : BitVec 3) (a b : Src) (s : State) : Out := vcmp (.vFcmpLe k a b) .fle k a b s

/-- v.fcmp.un (R391). -/
def execVFcmpUn (k : BitVec 3) (a b : Src) (s : State) : Out := vcmp (.vFcmpUn k a b) .fun_ k a b s

/-- v.icmp.eq (R391). -/
def execVIcmpEq (k : BitVec 3) (a b : Src) (s : State) : Out := vcmp (.vIcmpEq k a b) .ieq k a b s

/-- v.icmp.lt (R391). -/
def execVIcmpLt (k : BitVec 3) (a b : Src) (s : State) : Out := vcmp (.vIcmpLt k a b) .ilt k a b s

/-- v.icmp.ltn (R391). -/
def execVIcmpLtn (k : BitVec 3) (a b : Src) (s : State) : Out := vcmp (.vIcmpLtn k a b) .iltn k a b s

/-! ### Moving elements (R393) -/

/-- v.mov (R393). -/
def execVMov (d : BitVec 6) (a : Src) (z : Bool) (s : State) : Out :=
  vRun (.vMov d a z) [.r] [a.reg] [] (.v d) z (fun e old vs _ => vMovF e old (vs.getD 0 0)) s

/-- v.sel (R393). -/
def execVSel (d : BitVec 6) (a b : Src) (z : Bool) (s : State) : Out :=
  vRun (.vSel d a b z) [.r] [a.reg, b.reg] [] (.v d) z
    (fun e _ vs _ => vSelF e (vs.getD 0 0) (vs.getD 1 0)) s

/-- v.bcast (R393). -/
def execVBcast (d : BitVec 6) (a : Src) (z : Bool) (s : State) : Out :=
  vRun (.vBcast d a z) [.r] [] [a.reg] (.v d) z (fun e old _ ss => vBcastF e old (ss.getD 0 0)) s

/-- v.ins (R393): the element is written into the old vd, which is a source. -/
def execVIns (d : BitVec 6) (a b : Src) (z : Bool) (s : State) : Out :=
  vRun (.vIns d a b z) [.r] [d] [a.reg, b.reg] (.v d) z
    (fun e _ vs ss => vInsF e (vs.getD 0 0) (ss.getD 0 0) (ss.getD 1 0)) s

/-- v.ext (R393). -/
def execVExt (d : BitVec 6) (a b : Src) (z : Bool) (s : State) : Out :=
  vRun (.vExt d a b z) [.r] [a.reg] [b.reg] (.v d) z
    (fun e _ vs ss => vExtF e (vs.getD 0 0) (ss.getD 0 0)) s

/-- v.iota (R393). -/
def execVIota (d : BitVec 6) (z : Bool) (s : State) : Out :=
  vRun (.vIota d z) [.r] [] [] (.v d) z (fun e old _ _ => vIotaF e old) s

/-- v.perm (R393). -/
def execVPerm (d : BitVec 6) (a b : Src) (z : Bool) (s : State) : Out :=
  vRun (.vPerm d a b z) [.r] [a.reg, b.reg] [] (.v d) z
    (fun e old vs _ => vPermF e old (vs.getD 0 0) (vs.getD 1 0)) s

/-- v.rot (R393). -/
def execVRot (d : BitVec 6) (a b : Src) (z : Bool) (s : State) : Out :=
  vRun (.vRot d a b z) [.r] [a.reg] [b.reg] (.v d) z
    (fun e old vs ss => vRotF e old (vs.getD 0 0) (ss.getD 0 0)) s

/-- v.zip (R393). -/
def execVZip (d : BitVec 6) (a b : Src) (z : Bool) (s : State) : Out :=
  vRun (.vZip d a b z) [.r] [a.reg, b.reg] [] (.v d) z
    (fun e old vs _ => vZipF e old (vs.getD 0 0) (vs.getD 1 0)) s

/-- v.unzip (R393). -/
def execVUnzip (d : BitVec 6) (a b : Src) (z : Bool) (s : State) : Out :=
  vRun (.vUnzip d a b z) [.r] [a.reg, b.reg] [] (.v d) z
    (fun e old vs _ => vUnzipF e old (vs.getD 0 0) (vs.getD 1 0)) s

/-! ### Conversion and packing (R394 to R398) -/

/-- v.cvt (R394). -/
def execVCvt (d : BitVec 6) (a : Src) (f : BitVec 5) (z : Bool) (s : State) : Out :=
  vRun (.vCvt d a f z) [.r] [a.reg] [] (.v d) z
    (fun e old vs _ => vCvtF e (normFmt f.toNat) old (vs.getD 0 0)) s

/-- An operation that admits no tagged operand and executes once (R410): the widening pair. -/
def pairRun (i : Instr) (src : List (BitVec 6)) (ok : Nat → Bool) (body : State → State) (s : State) : Out :=
  withReady i (fun s =>
    if s.regs.tags (src.map vOpd ++ s.maskOpd) ≠ 0 then axisCollision s
    else if !ok s.opFmt then illegalOp s
    else .next (if s.lift.live 0 0 then body s else s)) s

/-- The registers of a pair or a quad. -/
def groupRegs (r : BitVec 6) (q : Bool) : List (BitVec 6) :=
  (List.range (if q then 4 else 2)).map fun k => r + .ofNat 6 k

/-- v.widen (R395). -/
def execVWiden (d : BitVec 6) (a : Src) (q : Bool) (f : BitVec 5) (z : Bool) (s : State) : Out :=
  let m := if q then 4 else 2
  let g := normFmt f.toNat
  pairRun (.vWiden d a q f z) [a.reg] (fun o => widenPair m (fmtBits g) (fmtBits o)) (fun s =>
    let r := s.regs
    let e := s.venv z (r.getK s.issue.ctx.mask)
    ((groupRegs d q).zip (List.range m)).foldl (fun (s : State) (x : BitVec 6 × Nat) =>
      let (v, fl) := vWidenF e g m x.2 (r.getV x.1) (r.getV a.reg)
      (s.mapRegs fun r' => r'.setV x.1 v).orFlags fl) s) s

/-- v.narrow (R395). -/
def execVNarrow (d : BitVec 6) (a : Src) (q : Bool) (f : BitVec 5) (z : Bool) (s : State) : Out :=
  let m := if q then 4 else 2
  let g := normFmt f.toNat
  pairRun (.vNarrow d a q f z) (groupRegs a.reg q) (fun o => widenPair m (fmtBits o) (fmtBits g)) (fun s =>
    let r := s.regs
    let e := s.venv z (r.getK s.issue.ctx.mask)
    let (v, fl) := vNarrowF e g m (r.getV d) fun k => r.getV (a.reg + .ofNat 6 k)
    (s.mapRegs fun r' => r'.setV d v).orFlags fl) s

/-- An operation whose format must be one of a list (R396, R397). -/
def fmtRun (i : Instr) (l : List Nat) (d : BitVec 6) (a : Src) (z : Bool)
    (g : VEnv → VReg → VReg → VReg × Flags) (s : State) : Out :=
  withReady i (fun s =>
    if !l.contains s.opFmt then illegalOp s
    else vRun i [.r] [a.reg] [] (.v d) z (fun e old vs _ => g e old (vs.getD 0 0)) s) s

/-- v.pack6 (R396): f is not checked. -/
def execVPack6 (d : BitVec 6) (a : Src) (z : Bool) (s : State) : Out :=
  vRun (.vPack6 d a z) [] [a.reg] [] (.v d) z (fun e old vs _ => vPack6F e old (vs.getD 0 0)) s

/-- v.unpack6 (R396): f is INT8 or NAT8. -/
def execVUnpack6 (d : BitVec 6) (a : Src) (z : Bool) (s : State) : Out :=
  fmtRun (.vUnpack6 d a z) [11, 12] d a z vUnpack6F s

/-- v.packq4 (R397): f is E4M3 or E5M2. -/
def execVPackq4 (d : BitVec 6) (a : Src) (z : Bool) (s : State) : Out :=
  fmtRun (.vPackq4 d a z) [4, 5] d a z (fun e _ v => vPackq4F e v) s

/-- v.unpackq4 (R397). -/
def execVUnpackq4 (d : BitVec 6) (a : Src) (z : Bool) (s : State) : Out :=
  fmtRun (.vUnpackq4 d a z) [4, 5] d a z vUnpackq4F s

/-- v.setfmt (R398). -/
def execVSetfmt (a : Src) (s : State) : Out :=
  withReady (.vSetfmt a) (untagged [a.reg] fun s =>
    let v := s.regs.getS a.reg
    .next (s.mapCsr fun c => c.writeVfmt v)) s

/-! ### Reductions, scans, special functions (R399 to R401) -/

/-- A reduction. -/
def vred (i : Instr) (op : VRed) (d : BitVec 6) (a : Src) (z : Bool) (s : State) : Out :=
  vRun i [vredClass op] [a.reg] [] (.v d) z (fun e _ vs _ => vReduce op e (vs.getD 0 0)) s

/-- v.radd (R399). -/
def execVRadd (d : BitVec 6) (a : Src) (z : Bool) (s : State) : Out := vred (.vRadd d a z) .add d a z s

/-- v.rmax (R399). -/
def execVRmax (d : BitVec 6) (a : Src) (z : Bool) (s : State) : Out := vred (.vRmax d a z) .max d a z s

/-- v.rmin (R399). -/
def execVRmin (d : BitVec 6) (a : Src) (z : Bool) (s : State) : Out := vred (.vRmin d a z) .min d a z s

/-- v.rfadd (R399). -/
def execVRfadd (d : BitVec 6) (a : Src) (z : Bool) (s : State) : Out := vred (.vRfadd d a z) .fadd d a z s

/-- v.rfmax (R399). -/
def execVRfmax (d : BitVec 6) (a : Src) (z : Bool) (s : State) : Out := vred (.vRfmax d a z) .fmax d a z s

/-- v.rfmin (R399). -/
def execVRfmin (d : BitVec 6) (a : Src) (z : Bool) (s : State) : Out := vred (.vRfmin d a z) .fmin d a z s

/-- v.scan.add (R400). -/
def execVScanAdd (d : BitVec 6) (a : Src) (z : Bool) (s : State) : Out :=
  vRun (.vScanAdd d a z) [.i] [a.reg] [] (.v d) z (fun e old vs _ => vScan false e old (vs.getD 0 0)) s

/-- v.scan.fadd (R400). -/
def execVScanFadd (d : BitVec 6) (a : Src) (z : Bool) (s : State) : Out :=
  vRun (.vScanFadd d a z) [.f] [a.reg] [] (.v d) z (fun e old vs _ => vScan true e old (vs.getD 0 0)) s

/-- A special function: the destination is empty until the unit writes it. -/
def vsfu (i : Instr) (op : Sfu) (d : BitVec 6) (a : Src) (z : Bool) (s : State) : Out :=
  vRun i [.f] [a.reg] [] (.sfu d) z (fun e old vs _ => vSfuF op e old (vs.getD 0 0)) s

/-- v.rcp (R401). -/
def execVRcp (d : BitVec 6) (a : Src) (z : Bool) (s : State) : Out := vsfu (.vRcp d a z) .rcp d a z s

/-- v.rsqrt (R401). -/
def execVRsqrt (d : BitVec 6) (a : Src) (z : Bool) (s : State) : Out := vsfu (.vRsqrt d a z) .rsqrt d a z s

/-- v.sqrt (R401). -/
def execVSqrt (d : BitVec 6) (a : Src) (z : Bool) (s : State) : Out := vsfu (.vSqrt d a z) .sqrt d a z s

/-- v.exp2 (R401). -/
def execVExp2 (d : BitVec 6) (a : Src) (z : Bool) (s : State) : Out := vsfu (.vExp2 d a z) .exp2 d a z s

/-- v.log2 (R401). -/
def execVLog2 (d : BitVec 6) (a : Src) (z : Bool) (s : State) : Out := vsfu (.vLog2 d a z) .log2 d a z s

/-- v.tanh (R401). -/
def execVTanh (d : BitVec 6) (a : Src) (z : Bool) (s : State) : Out := vsfu (.vTanh d a z) .tanh d a z s

/-- v.erf (R401). -/
def execVErf (d : BitVec 6) (a : Src) (z : Bool) (s : State) : Out := vsfu (.vErf d a z) .erf d a z s

/-! ### Memory (R402 to R404) -/

/-- v.ld (R402). -/
def execVLd (d : BitVec 6) (a : Src) (o : BitVec 7) (z : Bool) (s : State) : Out :=
  vLoad (.vLd d a o z) d a (.cont o) none z s

/-- v.st (R402). -/
def execVSt (d : BitVec 6) (a : Src) (o : BitVec 7) (s : State) : Out :=
  vStore (.vSt d a o) d a (.cont o) none s

/-- v.ldx (R402). -/
def execVLdx (d : BitVec 6) (a b : Src) (z : Bool) (s : State) : Out :=
  vLoad (.vLdx d a b z) d a .indexed (some (vOpd b.reg)) z s

/-- v.stx (R402). -/
def execVStx (d : BitVec 6) (a b : Src) (s : State) : Out :=
  vStore (.vStx d a b) d a .indexed (some (vOpd b.reg)) s

/-- v.lds (R402). -/
def execVLds (d : BitVec 6) (a b : Src) (z : Bool) (s : State) : Out :=
  vLoad (.vLds d a b z) d a .strided (some (sOpd b.reg)) z s

/-- v.sts (R402). -/
def execVSts (d : BitVec 6) (a b : Src) (s : State) : Out :=
  vStore (.vSts d a b) d a .strided (some (sOpd b.reg)) s

/-! ### Accumulator ports (R405) -/

/-- A tm command that is not complete owns a bank (10_core R213, 23_matrix R421). -/
def MOp.bank : MOp → BitVec 3
  | .call c _ => c.bank
  | .zacc b => b
  | .uld b _ _ _ _ => b
def Core.owned (x : Core) (b : BitVec 3) : Bool :=
  (x.matrix.queue.any fun c => c.op.bank == b) || x.matrix.run.any fun r => r.cmd.op.bank == b

/-- Row r of a bank, and its update; a whole row written holds no poison. -/
def accIx (b : BitVec 3) (r : Nat) : Fin 512 := Fin.ofNat 512 (64 * b.toNat + r % 64)
def Core.setAcc (x : Core) (i : Fin 512) (v : VReg) : Core :=
  { x.noteWrite [48 + i.val / 64] with
    acc := x.acc.set i.val v i.isLt, accPoison := x.accPoison.filter (·.1 != i.val) }

/-- FP32 or an INT32 code (R405). -/
def accFmt (f : Nat) : Bool := f == 1 || f == 25

/-- v.rda (R405). -/
def execVRda (d : BitVec 6) (a : Src) (n : BitVec 3) (z : Bool) (s : State) : Out :=
  withReady (.vRda d a n z) (fun s =>
    if !accFmt s.opFmt then illegalOp s
    else if s.core.owned n then hold s
    else
      let acc := s.core.acc
      vRun (.vRda d a n z) [] [] [a.reg] (.v d) z (fun e old _ ss =>
        let row := acc.get (accIx n (ss.getD 0 0).toNat)
        masked e old fun c => (getE 32 c row, 0)) s) s

/-- A write of accumulator rows, one for each member of the union of row and data. -/
def accWrite (i : Instr) (d : BitVec 6) (a : Src) (n : BitVec 3) (g : VEnv → VReg → VReg → VReg × Flags)
    (s : State) : Out :=
  withReady i (fun s =>
    let l := s.lift
    let r := s.regs
    let os := [sOpd a.reg, vOpd d]
    let ts := r.tags os
    if !accFmt s.opFmt then illegalOp s
    else if r.tagOf (sOpd a.reg) = 0 ∧ r.tagOf (vOpd d) ≠ 0 then axisCollision s
    else match liftBad l r os none ts with
      | some e => axisOverflow e s
      | none =>
        if s.core.owned n then hold s
        else .next (overMembers l ts (fun m s =>
          let ix := accIx n (r.sAt (memberOf l r ts (sOpd a.reg) m)).toNat
          let (v, fl) := g (s.venv false (BitVec.allOnes 1024)) (s.core.acc.get ix)
            (r.vAt (memberOf l r ts (vOpd d) m))
          (s.mapCore fun x => x.setAcc ix v).orFlags fl) (fun _ s => s) s)) s

/-- v.wra (R405). -/
def execVWra (d : BitVec 6) (a : Src) (n : BitVec 3) (s : State) : Out :=
  accWrite (.vWra d a n) d a n (fun _ _ v => (v, 0)) s

/-- v.adda (R405). -/
def execVAdda (d : BitVec 6) (a : Src) (n : BitVec 3) (s : State) : Out :=
  accWrite (.vAdda d a n) d a n accAdd s

/-! ### Queues (R406) -/

/-- v.qpop (R406): the mask governs vd, not the pop; the spare bits of 6-bit elements come from the entry. -/
def execVQpop (d : BitVec 6) (q : BitVec 4) (z : Bool) (s : State) : Out :=
  withReady (.vQpop d q z) (onQueueOp q (readEntry s.vunit q 0 [(.v, d.toNat)] fun s =>
    match liftBad s.lift s.regs s.maskOpd none (s.regs.tags s.maskOpd) with
    | some e => axisOverflow e s
    | none =>
      let v := s.core.peek q 0
      let (r, _) := vMovF (s.venv z (s.regs.getK s.issue.ctx.mask)) (s.regs.getV d) v
      .next ((s.mapCore fun y => y.pop q).mapRegs fun g => g.setV d r))) s

/-- v.qpush (R406): a tagged va pushes one entry for each active member. -/
def execVQpush (q : BitVec 4) (a : Src) (s : State) : Out :=
  withReady (.vQpush q a) (onQueueOp q fun s =>
    let l := s.lift
    let r := s.regs
    let ts := r.tagOf (vOpd a.reg)
    match misnamed l .v a.reg.toNat ts with
    | some e => axisOverflow e s
    | none => pushAll s.vunit q
        (((List.range (l.extent ts)).filter (l.live ts)).map fun m => r.vAt (a.reg.toNat + m)) s) s

/-! ### Masks (R407) -/

/-- A k operation over k sources, for each member of the union of their tag sets. -/
def kRun (i : Instr) (cls : List VClass) (ks : List (BitVec 3)) (d : Opd) (g : Nat → Bool → List KReg → VReg)
    (s : State) : Out :=
  withReady i (fun s =>
    let l := s.lift
    let r := s.regs
    let os := ks.map kOpd
    let ts := r.tags os
    if cls.any fun c => !inClass c s.opFmt then illegalOp s
    else match liftBad l r os (some d) ts with
      | some e => axisOverflow e s
      | none => .next (overMembers l ts
          (fun m s =>
            let v := g s.opFmt s.vSat (os.map fun o => r.kAt (memberOf l r ts o m))
            s.mapRegs fun r' => match d.file with
              | .k => r'.setK (.ofNat 3 (d.n + m)) (v.setWidth 1024) ts
              | _ => r'.setV (.ofNat 6 (d.n + m)) v ts)
          (fun m s => s.mapRegs fun r' => r'.retag d.file (d.n + m) ts) s)) s

/-- A function of two masks, or of one, as a register value. -/
def kk (f : KReg → KReg → KReg) : Nat → Bool → List KReg → VReg :=
  fun _ _ l => (f (l.getD 0 0) (l.getD 1 0)).setWidth 4096

/-- v.kand (R407). -/
def execVKand (d a b : BitVec 3) (s : State) : Out :=
  kRun (.vKand d a b) [] [a, b] (kOpd d) (kk fun x y => x &&& y) s

/-- v.kor (R407). -/
def execVKor (d a b : BitVec 3) (s : State) : Out :=
  kRun (.vKor d a b) [] [a, b] (kOpd d) (kk fun x y => x ||| y) s

/-- v.kxor (R407). -/
def execVKxor (d a b : BitVec 3) (s : State) : Out :=
  kRun (.vKxor d a b) [] [a, b] (kOpd d) (kk fun x y => x ^^^ y) s

/-- v.knot (R407). -/
def execVKnot (d a : BitVec 3) (s : State) : Out :=
  kRun (.vKnot d a) [] [a] (kOpd d) (kk fun x _ => ~~~x) s

/-- v.kpopc (R407). -/
def execVKpopc (d : BitVec 6) (k : BitVec 3) (s : State) : Out :=
  kRun (.vKpopc d k) [.i] [k] (vOpd d)
    (fun f sat l => kElem0 f sat (kPop (elemCount (fmtBits f)) (l.getD 0 0))) s

/-- v.kfirst (R407). -/
def execVKfirst (d : BitVec 6) (k : BitVec 3) (s : State) : Out :=
  kRun (.vKfirst d k) [.i] [k] (vOpd d)
    (fun f sat l => kElem0 f sat (kFirst (elemCount (fmtBits f)) (l.getD 0 0))) s

/-- v.kset (R407). -/
def execVKset (k : BitVec 3) (a : Src) (s : State) : Out :=
  vRun (.vKset k a) [.r] [a.reg] [] (.k k) false
    (fun e _ vs _ => ((vKsetF e.f (vs.getD 0 0)).setWidth 4096, 0)) s

/-! ### Lift operations (R408, R409) -/

/-- The kind of an lred (R408). -/
def lredKind (k : Nat) : VRed :=
  match k with
  | 0 => .add | 1 => .fadd | 2 => .max | 3 => .min | 4 => .fmax | _ => .fmin

/-- The members of va that project onto member m of a set without t and whose LMASK bit is 1, in ascending t
coordinate (R408, R219). -/
def Lift.over (l : Lift) (ta ts : BitVec 3) (m : Nat) : List Nat :=
  (List.range (l.extent ta)).filter fun j => l.project ta ts j == m && l.live ta j

/-- v.lred (R408). -/
def execVLred (d : BitVec 6) (a : Src) (k : BitVec 3) (t : BitVec 2) (z : Bool) (s : State) : Out :=
  withReady (.vLred d a k t z) (fun s =>
    let l := s.lift
    let r := s.regs
    let op := lredKind k.toNat
    let o := vOpd a.reg
    let va := r.tagOf o
    let all := o :: s.maskOpd
    let ts := dropT (r.tags all) t.toNat
    if !inClass (vredClass op) s.opFmt then illegalOp s
    else match liftBad l r all (some (vOpd d)) ts with
      | some e => axisOverflow e s
      | none => .next (overMembers l ts
          (fun m s =>
            let e := s.venv z (s.maskAt l r ts m)
            let old := r.vAt (d.toNat + m)
            let sub := dropT va t.toNat
            let (v, fl) := if hasTag va t.toNat ∧ l.extOf t.toNat ≠ 0 ∧ l.levels.any (·.tag == t) then
                vLredF op e old ((l.over va sub (l.project ts sub m)).map fun j => r.vAt (a.reg.toNat + j))
              else
                let x := r.vAt (memberOf l r ts o m)
                masked e old fun i => (getE e.w i x, 0)
            (s.mapRegs fun r' => r'.setV (.ofNat 6 (d.toNat + m)) v ts).orFlags fl)
          (fun m s => s.mapRegs fun r' => r'.retag .v (d.toNat + m) ts) s)) s

/-- The member of set ta with the digits of member m of set ts, and coordinate c at tag t. -/
def Lift.place (l : Lift) (ts ta : BitVec 3) (m t c : Nat) : Nat :=
  let src := l.of ts
  let ds := (src.map (·.tag.toNat)).zip (digits (src.map (·.ext)) m)
  undigits ((l.of ta).map fun v => (v.ext,
    if v.tag.toNat = t then c else ((ds.find? (·.1 == v.tag.toNat)).map (·.2)).getD 0))

/-- v.lpick (R409). -/
def execVLpick (d : BitVec 6) (a b : Src) (z : Bool) (s : State) : Out :=
  withReady (.vLpick d a b z) (fun s =>
    let l := s.lift
    let r := s.regs
    let o := vOpd a.reg
    let va := r.tagOf o
    let t := l.innermost va
    let all := o :: s.maskOpd
    let ts := dropT (r.tags all) t
    let c := (r.getS b.reg).toNat
    if r.tagOf (sOpd b.reg) ≠ 0 then axisCollision s
    else if t ≠ 0 ∧ l.extOf t ≤ c then axisOverflow c s
    else match liftBad l r all (some (vOpd d)) ts with
      | some e => axisOverflow e s
      | none => .next (overMembers l ts
          (fun m s =>
            let e := s.venv z (s.maskAt l r ts m)
            let v := vCopyF e (r.vAt (d.toNat + m)) (r.vAt (a.reg.toNat + l.place ts va m t c))
            s.mapRegs fun r' => r'.setV (.ofNat 6 (d.toNat + m)) v ts)
          (fun m s => s.mapRegs fun r' => r'.retag .v (d.toNat + m) ts) s)) s

/-- v.lbcast (R409). -/
def execVLbcast (d : BitVec 6) (a : Src) (t : BitVec 2) (z : Bool) (s : State) : Out :=
  withReady (.vLbcast d a t z) (fun s =>
    let l := s.lift
    let r := s.regs
    let o := vOpd a.reg
    let all := o :: s.maskOpd
    let ts := addT (r.tags all) t.toNat
    if !(l.levels.any (·.tag == t)) then axisOverflow 0 s
    else match liftBad l r all (some (vOpd d)) ts with
      | some e => axisOverflow e s
      | none => .next (overMembers l ts
          (fun m s =>
            let e := s.venv z (s.maskAt l r ts m)
            let v := vCopyF e (r.vAt (d.toNat + m)) (r.vAt (memberOf l r ts o m))
            s.mapRegs fun r' => r'.setV (.ofNat 6 (d.toNat + m)) v ts)
          (fun m s => s.mapRegs fun r' => r'.retag .v (d.toNat + m) ts) s)) s

end Sys2Proof.Machine
end

