-- ==== Sys2Proof/Machine/Matrix.lean ====
section
/-!
DEFINITION. The M operations, the start and the end of tm commands (23_matrix R413 to R421, R438).
-/

namespace Sys2Proof.Machine

/-! ### Parameters (R416, R417) -/

def Regs.pmAt (r : Regs) (n : Nat) : W := r.pm.get (Fin.ofNat 8 n)
def Regs.pmTagAt (r : Regs) (n : Nat) : BitVec 3 := r.pmTag.get (Fin.ofNat 8 n)
def Regs.setPm (r : Regs) (n : Nat) (v : W) (t : BitVec 3) : Regs := { r with
  pm := r.pm.set (n % 8) v (Nat.mod_lt _ (by decide)), pmTag := r.pmTag.set (n % 8) t (Nat.mod_lt _ (by decide)) }
def Regs.tagPm (r : Regs) (n : Nat) (t : BitVec 3) : Regs := { r with
  pmTag := r.pmTag.set (n % 8) t (Nat.mod_lt _ (by decide)) }

/-- The SIG record of m.call and m.setp: the raw slot and the parameter registers (09_redundancy R181). -/
def State.foldParams (s : State) : State :=
  s.foldSig ([0x05#8] ++ leBytes 4 s.issue.ctx.raw ++ s.regs.pm.toList.flatMap fun w => leBytes 8 w.toNat)

/-- Calls that issued earlier do not write these registers back (R420). -/
def Core.resetPm (x : Core) (l : List Nat) : Core :=
  let m : BitVec 8 := l.foldl (fun a n => a ||| .ofNat 8 (2 ^ (n % 8))) 0
  let go := fun (c : MCmd) => { c with reset := c.reset ||| m }
  { x with matrix := { x.matrix with
    queue := x.matrix.queue.map go, run := x.matrix.run.map fun r => { r with cmd := go r.cmd } } }

/-- m.setp (R416, R417). -/
def execMSetp (p : BitVec 3) (a : BitVec 6) (s : State) : Out :=
  withReady (.mSetp p a) (fun s =>
    let l := s.lift
    let r := s.regs
    let ts := r.tagOf (sOpd a)
    let e := l.extent ts
    if (misnamed l .s a.toNat ts).isSome ∨ !nameOk 8 p.toNat e then axisOverflow e s
    else
      let s := overMembers l ts
        (fun m s => s.mapRegs fun q => q.setPm (p.toNat + m) (r.sAt (a.toNat + m)) ts)
        (fun m s => s.mapRegs fun q => q.tagPm (p.toNat + m) ts) s
      let s := s.mapCore fun x => x.resetPm (((List.range e).filter (l.live ts)).map (p.toNat + ·))
      .next s.foldParams) s

/-- The last call of the core that has not completed; 0 when there is none (R416). -/
def Core.lastCall (x : Core) : Nat :=
  ((x.matrix.run.map (·.cmd)).toList ++ x.matrix.queue).foldl (fun a c => if c.op.isCall then c.num else a) 0

/-- m.getp (R416, R417): the destination is empty until the value comes. -/
def execMGetp (p : BitVec 3) (d : BitVec 6) (s : State) : Out :=
  withReady (.mGetp p d) (fun s =>
    let l := s.lift
    let r := s.regs
    let ts := r.pmTagAt p.toNat
    let e := l.extent ts
    if !nameOk 8 p.toNat e ∨ (badDest l .s d.toNat ts).isSome then axisOverflow e s
    else
      let last := s.core.lastCall
      .next (overMembers l ts
        (fun m s =>
          let dst : BitVec 6 := .ofNat 6 (d.toNat + m)
          let v := if last = 0 then some (r.pmAt (p.toNat + m)) else none
          s.mapCore fun x => { x.onRegs (·.mark .s dst .empty ts) with
            fills := x.fills ++ [⟨.s, dst, .getp (.ofNat 3 (p.toNat + m)) last v, s.cyc + 2⟩] })
        (fun m s => s.mapRegs fun q => q.retag .s (d.toNat + m) ts) s)) s

/-! ### Calls at issue (R418, R438) -/

/-- A routine is in the store (R440): the library's 0 to 4, and the graph's. -/
def Core.hasRoutine (x : Core) (n : BitVec 8) : Bool := n.toNat < 5 || x.matrix.routines.any (·.1 == n)

/-- Rows and columns of the matrix gang that core c is a seat of (R438). -/
def State.matrixGang (s : State) (c : CoreId) : Option (Nat × Nat) :=
  match (s.instOf c).bind s.descOf with
  | some n => if fld n.demand.toNat 7 6 = 2 then some (fld n.demand.toNat 3 2, fld n.demand.toNat 1 0) else none
  | none => none

/-- The seats of a core's gang in its own replica. -/
def State.gangSeats (s : State) (c : CoreId) : List CoreId :=
  match (s.coreAt c).node.inst with
  | some id => (s.instCores id).filter fun g => (s.coreAt g).node.replica == (s.coreAt c).node.replica
  | none => [c]

def MOp.isGang : MOp → Bool
  | .call _ g => g
  | _ => false

/-- The gang calls of a core that have not started. -/
def Core.gangCalls (x : Core) : List MCmd := x.matrix.queue.filter (·.op.isGang)

/-- The gang calls that a core has issued agree with those of the other seats that all of them have issued (R438). -/
def State.gangAgrees (s : State) (c : CoreId) : Bool :=
  (List.range (s.coreAt c).gangCalls.length).all fun k =>
    let l := (s.gangSeats c).map fun g => ((s.coreAt g).gangCalls[k]?).map fun m => (m.op, m.prof, m.pm)
    l.any (·.isNone) || l.all fun m => m == l.headD none

/-- The register a working parameter stands for in the call of member m, and its value: a tagged register is the first
of its members. -/
def paramOf (l : Lift) (r : Regs) (ts : BitVec 3) (m n : Nat) : W × Option (Fin 8) :=
  let k := List.range (n + 1) |>.find? fun b =>
    r.pmTagAt b != 0 && b % pow2Up (l.extent (r.pmTagAt b)) == 0 && n < b + l.extent (r.pmTagAt b)
  match k with
  | none => (r.pmAt n, some (Fin.ofNat 8 n))
  | some b =>
    if b = n then
      let i := n + l.project ts (r.pmTagAt n) m
      (r.pmAt i, some (Fin.ofNat 8 i))
    else (r.pmAt n, none)

/-- A command of tm takes the next number and enters the queue. -/
def State.issueTm (s : State) (op : MOp) (prof : Nat) (pm : Nat → W × Option (Fin 8)) : State :=
  let x := s.core
  let n := (x.tlAt 2).issued.toNat + 1
  let c : MCmd := {
    op := op, num := n, prof := prof, pm := Vector.ofFn fun i => (pm i.val).1, src := Vector.ofFn fun i => (pm i.val).2
    after := x.openIds, reset := 0, seen := ((x.tlAt 0).issued.toNat, (x.tlAt 1).issued.toNat) }
  s.mapCore fun x => { x.onTl 2 fun t => { t with issued := t.issued + 1 } with
    matrix := { x.matrix with queue := x.matrix.queue ++ [c] } }

/-- The bank is another command's, or the command queue is full (10_core R205, R213). -/
def Core.tmHeld (x : Core) (b : BitVec 3) : Bool := x.owned b || 8 ≤ x.matrix.queue.length

/-- m.call and m.gang: one call for each active member of the union of the parameters' tag sets (R417, R418). -/
def callOp (i : Instr) (c : CallFields) (gang : Bool) (s : State) : Out :=
  withReady i (fun s =>
    let x := s.core
    if (gang && (s.matrixGang s.cur).isNone) || !x.hasRoutine c.routine || (c.gv && !(s.queueBefore c.gq).cfg) then
      illegalOp s
    else if x.tmHeld c.bank then hold s
    else
      let l := s.lift
      let r := s.regs
      let ts := (List.range 8).foldl (fun a n => a ||| r.pmTagAt n) 0
      let prof := s.issue.ctx.prof.getD s.vProfile.toNat
      let one := fun (s : State) (m : Nat) =>
        let s := s.issueTm (.call c gang) prof (paramOf l r ts m)
        if gang then s else s.foldParams
      let t := ((List.range (l.extent ts)).filter (l.live ts)).foldl one (s.takeLock 5)
      if gang && !t.gangAgrees s.cur then illegalOp s else .next t) s

/-- m.call (R418). -/
def execMCall (c : CallFields) (s : State) : Out := callOp (.mCall c) c false s

/-- m.gang (R438). -/
def execMGang (c : CallFields) (s : State) : Out := callOp (.mGang c) c true s

/-! ### Accumulator commands (R421) -/

/-- m.zacc (R421). -/
def execMZacc (b : BitVec 3) (s : State) : Out :=
  withReady (.mZacc b) (fun s =>
    if s.core.tmHeld b then hold s
    else .next ((s.takeLock 5).issueTm (.zacc b) 0 fun n => (0, some (Fin.ofNat 8 n)))) s

/-- Bytes of a row of 128 elements in a format of m.uld (R421), or of n elements of u.wb (R433); 0 is raw words. -/
def accRowBytes (f n : Nat) : Nat := if f = 0 then 4 * n else rowSpan f n
/-- The alignment of such a row (15_copy R321). -/
def accAlign (f : Nat) : Nat := if f = 0 then 4 else elemAlign f

/-- m.uld (R421). -/
def execMUld (b : BitVec 3) (a : BitVec 6) (f : BitVec 5) (s : State) : Out :=
  withReady (.mUld b a f) (fun s =>
    let va := s.regs.getS a
    let off := fld va.toNat 21 0
    if s.regs.tagOf (sOpd a) ≠ 0 then axisCollision s
    else if fld va.toNat 63 22 ≠ 0 ∨ (f ≠ 0 ∧ !isRegFmt f.toNat) then illegalOp s
    else if off % accAlign f.toNat ≠ 0 then illegalOp s
    else if 0x300000 < off + 64 * accRowBytes f.toNat 128 then raise { code := 0x08, reason := 2, info := va } s
    else if s.core.tmHeld b then hold s
    else .next ((s.takeLock 5).issueTm (.uld b off f.toNat s.vRm.toNat s.vSat) 0 fun n => (0, some (Fin.ofNat 8 n)))) s

/-! ### Starting (R414, R418, R438) -/

/-- The engines of a core work: it runs a node, is not halted, frozen or swapped out. -/
def State.engineLive (s : State) (c : CoreId) : Bool :=
  let y := s.coreAt c
  y.seq.mode != .idle && y.seq.mode != .halted && y.seq.freeze == 0 && !s.swappedOut c

def Buf.empty : Buf := ⟨0, 0, 0, [], [], none, none⟩

/-- The working state at the start of a command (R413). -/
def MRun.start (m : MCmd) (now : W) : MRun where
  cmd := m
  upc := 0
  count := 0
  wp := m.pm
  loops := []
  bufs := .replicate 4 Buf.empty
  loads := 0
  last := none
  isInt := none
  acc := []
  pipes := .replicate 4 []
  wbOut := []
  wd := none
  flags := 0
  always := 0
  ended := false
  stop := none
  reported := none
  since := now
  wait := now
  bankAt := now

def Core.microWord (x : Core) (i : Nat) : Nat := ((x.matrix.store.find? fun e => e.1 == i).map (·.2.toNat)).getD 0

/-- The place and length of a routine in the store (R440). -/
def Core.routineAt (x : Core) (n : BitVec 8) : Nat × Nat := ((x.matrix.routines.find? (·.1 == n)).map (·.2)).getD (0, 0)

/-- The queue of a routine's first push, in word order (R418). -/
def Core.firstPush (x : Core) (n : BitVec 8) : Option (BitVec 4) :=
  let (at_, len) := x.routineAt n
  (List.range len).findSome? fun i =>
    let w := x.microWord (at_ + i)
    if fld w 31 28 = 0xA then some (.ofNat 4 (fld w 27 24)) else none

/-- The power controller delays a core's matrix and vector issue: never that of a timetable node (01_module R10). -/
def State.throttledAt (s : State) (c : CoreId) : Bool :=
  let x := s.coreAt c
  !x.csr.tt && s.fw.throttled.contains x.csr.part.toFin

/-- The head call of a core may start, but for the power controller (R418); a c.sbar issued before holds it (08_ordering
R166). -/
def State.callCan (s : State) (c : CoreId) : Option (MCmd × CallFields) :=
  let x := s.coreAt c
  match x.matrix.run, x.matrix.queue with
  | none, m :: _ =>
    match m.op with
    | .call k _ =>
      let room := match x.firstPush k.routine with
        | some q => !(x.queue q).cfg || !(x.queue q).full
        | none => true
      if s.engineLive c && !(m.after.any x.openIds.contains) && !(x.sbarHolds m.seen none) &&
          (!k.gv || k.gcnt.toNat ≤ (x.queue k.gq).count) && room then some (m, k) else none
    | _ => none
  | _, _ => none

/-- The head call of a core may start. -/
def State.callReady (s : State) (c : CoreId) : Option (MCmd × CallFields) := if s.throttledAt c then none else s.callCan c

/-- Every element of a bank reads +0. -/
def Core.zeroBank (x : Core) (b : BitVec 3) : Core :=
  (List.range 64).foldl (fun (x : Core) r => x.setAcc (accIx b r) 0) x

/-- A call starts: with Z the bank is zero. -/
def Core.startCall (x : Core) (m : MCmd) (k : CallFields) (now : W) : Core :=
  let x := if k.z then x.zeroBank k.bank else x
  { x with matrix := { x.matrix with queue := x.matrix.queue.drop 1, run := some (MRun.start m now) } }

/-- MATRIX_CALL_START (R418); a gang call starts on every seat at once (R438). -/
def execMatrixCallStart (s : State) : Out :=
  let c := s.inp.core
  match s.callReady c with
  | none => .next s
  | some (m, k) =>
    if !m.op.isGang then .next (s.onCore c (·.startCall m k s.cyc))
    else
      let l := s.gangSeats c
      let heads := l.map fun g => (g, s.callReady g)
      if heads.all fun h => (h.2.map (·.1.op.isGang)) == some true then
        .next (heads.foldl (init := s) fun s h => match h.2 with
          | some (m, k) => s.onCore h.1 (·.startCall m k s.cyc)
          | none => s)
      else .next s

/-- A tm command starts that is no call (R421). -/
def State.startAcc (s : State) (c : CoreId) : State :=
  let x := s.coreAt c
  match x.matrix.run, x.matrix.queue with
  | none, m :: r =>
    if m.op.isCall || s.throttledAt c || !s.engineLive c || m.after.any x.openIds.contains then s
    else s.onCore c fun x => { x with matrix := { x.matrix with queue := r, run := some (MRun.start m s.cyc) } }
  | _, _ => s

/-! ### Ends (R419 to R421) -/

/-- Command n of tm completes; rows read for it are dropped. -/
def Core.tmDone (x : Core) (n : Nat) : Core :=
  { x.onTl 2 fun t => t.complete n none with
    matrix := { x.matrix with run := none, fwd := x.matrix.fwd.filter (n < ·.call) } }

/-- Element (r, c) of a bank, and its update. -/
def Core.bankCode (x : Core) (b : BitVec 3) (r c : Nat) : Nat := getE 32 c (x.acc.get (accIx b r))
def Core.putBank (x : Core) (b : BitVec 3) (r : Nat) (g : Nat → Nat) : Core :=
  { x.noteWrite [48 + b.toNat] with
    acc := x.acc.set (accIx b r).val (packE 32 128 g) (accIx b r).isLt }

/-- The internal accumulators are rounded into the bank (R419 step 1): the core, and the flags. -/
def Core.roundBank (x : Core) (b : BitVec 3) (p : Profile) (acc : List (Nat × FVal)) : Core × Flags :=
  let l := acc.map fun e => (e.1, roundAcc p e.2)
  let rows := (l.map (·.1 / 128)).eraseDups
  (rows.foldl (fun (x : Core) r => x.putBank b r fun c =>
      match l.find? fun e => e.1 == r * 128 + c with
      | some e => (roundF 1 0 e.2.1).1
      | none => x.bankCode b r c) x,
    l.foldl (fun a e => a ||| e.2.2) 0)

/-- Pending m.getp whose last call is number n take their register's value (R416). -/
def Core.getpDone (x : Core) (n : Nat) (now : W) : Core :=
  { x with fills := x.fills.map fun f => match f.src with
    | .getp p last none =>
      if last = n then { f with src := .getp p last (some (x.regs.pmAt p.toNat)), due := now + 1 } else f
    | _ => f }

/-- The parameter write-back (R420). -/
def Regs.writeBack (r : Regs) (m : MCmd) (wp : Vector W 8) : Regs :=
  (List.finRange 8).foldl (fun (r : Regs) i => match m.src.get i with
    | some k => if m.reset.getLsbD k.val then r else { r with pm := r.pm.set k.val (wp.get i) k.isLt }
    | none => r) r

/-- A call completes (R419). -/
def Core.endCall (x : Core) (r : MRun) (k : CallFields) (now : W) : Core :=
  let p := profile r.cmd.prof
  let (x, fl) := x.roundBank k.bank p r.acc
  let fl := (if p.report then fl ||| r.flags else 0) ||| r.always
  let x := { x with csr := { x.csr with fpflags := x.csr.fpflags ||| fl } }
  let x := (x.onRegs (·.writeBack r.cmd r.wp)).getpDone r.cmd.num now
  let x := if k.gv then x.pop k.gq k.gcnt.toNat else x
  x.tmDone r.cmd.num

/-- A running call has ended, its writes are performed, and nothing of it is stopped (R419, R436). -/
def State.callEnded (s : State) (c : CoreId) : Option (MRun × CallFields) :=
  match (s.coreAt c).matrix.run with
  | some r =>
    match r.cmd.op with
    | .call k _ =>
      if s.engineLive c && r.ended && decide (r.bankAt.toNat ≤ s.cyc.toNat) && r.wbOut.isEmpty && r.stop.isNone && r.allPipes.all (·.stop.isNone) then some (r, k)
      else none
    | _ => none
  | none => none

/-- MATRIX_CALL_COMPLETE (R419); a gang call completes on every seat at once (R439). -/
def execMatrixCallComplete (s : State) : Out :=
  let c := s.inp.core
  match s.callEnded c with
  | none => .next s
  | some (r, k) =>
    if !r.cmd.op.isGang then .next (s.onCore c (·.endCall r k s.cyc))
    else
      let l := (s.gangSeats c).map fun g => (g, s.callEnded g)
      if l.all fun h => h.2.isSome then
        .next (l.foldl (init := s) fun s h => match h.2 with
          | some (r, k) => s.onCore h.1 (·.endCall r k s.cyc)
          | none => s)
      else .next s

/-- ZACC_COMPLETE (R421). -/
def execZaccComplete (s : State) : Out :=
  let c := s.inp.core
  match (s.coreAt c).matrix.run with
  | some r =>
    match r.cmd.op with
    | .zacc b => if s.engineLive c ∧ r.since.toNat + 16 ≤ s.cyc.toNat then .next (s.onCore c fun x => (x.zeroBank b).tmDone r.cmd.num) else .next s
    | _ => .next s
  | none => .next s

/-- An element of m.uld (R421, 11_formats R232). -/
def uldElem (f rm : Nat) (sat : Bool) (code : Nat) : Nat × Flags :=
  if f = 0 then (code, 0)
  else if isFloatFmt f then roundF f rm (decodeF 1 code)
  else (intCode f (intNarrow f sat (decodeI 25 code)), 0)

/-- The bytes of a row of codes packed in a format from a row's start, with the flags joined. -/
def packRow (f n : Nat) (l : List (Nat × Flags)) : List Byte × Flags :=
  let w := if f = 0 then 32 else fmtBits f
  let v := ((l.zip (List.range l.length)).map fun x => x.1.1 % 2 ^ w * 2 ^ elemPos w x.2).sum
  (leBytes n v, l.foldl (fun a x => a ||| x.2) 0)

/-- ULD_COMPLETE (R421): the bank is written to scratch; another unit's bank lock holds it (10_core R212). -/
def execUldComplete (s : State) : Out :=
  let c := s.inp.core
  let x := s.coreAt c
  match x.matrix.run with
  | some r =>
    match r.cmd.op with
    | .uld b off f rm sat =>
      let p := accRowBytes f 128
      if !s.engineLive c ∨ s.cyc.toNat < r.since.toNat + (64 * p + 255) / 256 + 8 ∨ (List.range 64).any fun i => x.lockedFor 5 (off + i * p) then .next s
      else
        let rows := (List.range 64).map fun i =>
          packRow f p ((List.range 128).map fun k => uldElem f rm sat (x.bankCode b i k))
        let s := (rows.zip (List.range 64)).foldl (init := s) fun s e =>
          s.writePlaces (((e.1.1.zip (List.range p)).map fun v =>
            (scratchPlace c (x.scratchPhys (off + e.2 * p + v.2)), v.1, 0xFF#8)))
        let fl := rows.foldl (fun a e => a ||| e.2) 0
        .next (s.onCore c fun x => { x with csr := { x.csr with fpflags := x.csr.fpflags ||| fl } }.tmDone r.cmd.num)
    | _ => .next s
  | none => .next s

/-- GETP_WRITE (R416): the first m.getp of a core whose value is known is written. -/
def execGetpWrite (s : State) : Out :=
  let c := s.inp.core
  let hit := (s.coreAt c).fills.find? fun f => (s.coreAt c).seq.freeze == 0 && match f.src with
    | .getp _ _ (some _) => decide (f.due.toNat ≤ s.cyc.toNat)
    | _ => false
  match hit with
  | some f => match f.src with
    | .getp _ _ (some v) => .next (s.onCore c fun y =>
        { y.onRegs (·.fill .s f.reg (ofS v)) with fills := y.fills.erase f })
    | _ => .next s
  | none => .next s

end Sys2Proof.Machine
end

