-- ==== Sys2Proof/Machine/Time.lean ====
section
/-!
DEFINITION. The passing of ac cycles (00_scope R5): CYC, FRAMECNT of timetable nodes and its freeze
(10_core R207, 07_faults R140), the ageing of packets (20_prog_chase R380).
-/

namespace Sys2Proof.Machine

/-- FRAMECNT after k cycles that are not frozen. -/
def Csr.frames (c : Csr) (k : Nat) : Csr :=
  let n := c.cnt.toNat + k
  let f := c.flen.toNat + 1
  { c with cnt := .ofNat 12 (n % f), fnum := c.fnum + .ofNat 32 (n / f) }

/-- A core after n cycles from `now`: its banks serve; FRAMECNT stands still while the core is frozen. -/
def Core.tick (now : W) (n : Nat) (x : Core) : Core :=
  let k := n - min n (x.seq.freeze - now.toNat)
  let x := Core.bankCycles n now x
  if x.csr.tt && x.seq.mode != .idle then { x with csr := x.csr.frames k } else x

/-- The packet at the head of its input's queue of its channel, at a cycle (R377). -/
def headPkt (l : List Pkt) (now : W) (k : Pkt) : Bool :=
  decide (k.at_.toNat ≤ now.toNat) &&
  match l.find? fun j => j.inp == k.inp && j.vc == k.vc with
  | some j => j.id == k.id
  | none => false

/-- AGE of the packets that stay at the head (R380). -/
def Xbar.tick (now : W) (n : Nat) (b : Xbar) : Xbar :=
  { b with wait := b.wait.map fun k => if headPkt b.wait now k then { k with age := min 255 (k.age + n) } else k }

/-- n ac cycles pass; lookups of translations that have lasted long enough end (04_spaces R76), and nodes
that wait take the pool entries that are free (06_scheduler R111). -/
def State.tick (n : Nat) (s : State) : State :=
  let s := s.onCores (fun _ x => x.csr.tt || !x.bankq.isEmpty) (Core.tick s.cyc n)
  let s := (s.onXbar .e (Xbar.tick s.cyc n)).onXbar .w (Xbar.tick s.cyc n)
  ({ s with cyc := s.cyc + BitVec.ofNat 64 n }.lookups).fillPool

end Sys2Proof.Machine
end

