-- ==== Sys2Proof/Machine/Xbar.lean ====
section
/-!
DEFINITION. The crossbars and the memory slices (20_prog_chase R375 to R382), and answers at the desk ports
(10_core R195, 08_ordering R158).
-/

namespace Sys2Proof.Machine

/-! ### Arbitration (R380) -/

/-- The head packets bound for an output. -/
def Xbar.bound (b : Xbar) (now : W) (port : Fin 128) : List Pkt :=
  b.wait.filter fun k => k.out == port && headPkt b.wait now k

def Xbar.sliceAt (b : Xbar) (i : Fin 32) : Slice := b.slices.get i
def Xbar.setSlice (b : Xbar) (i : Fin 32) (q : Slice) : Xbar := { b with slices := b.slices.set i.val q i.isLt }

/-- The place a request names first. -/
def PBody.place (b : PBody) : Nat := b.places.headD 0

/-- The target of an output has a free entry for a packet: a slice holds 8 packets, any other port 8 of a channel
(R378). -/
def State.entryFree (s : State) (d : Die) (port : Fin 128) (k : Pkt) : Bool :=
  let b := s.xbarAt d
  if 64 ≤ port.val ∧ port.val < 96 then decide ((b.sliceAt (Fin.ofNat 32 (port.val - 64))).recv.length < 8)
  else decide ((b.recv.filter fun j => j.out == port && j.vc == k.vc).length < 8)

/-- Among candidates, the one whose input a channel has granted least recently; `order` lists the granted inputs,
the most recent last, and an input not listed was granted before them, lower numbers longer ago. -/
def leastRecent (order : List (Fin 128)) (l : List Pkt) : Option Pkt :=
  let fresh := l.filter fun k => !order.contains k.inp
  match fresh.foldl (fun (m : Option Pkt) k => match m with
      | none => some k
      | some j => if k.inp < j.inp then some k else some j) none with
  | some k => some k
  | none => order.findSome? fun i => l.find? (·.inp == i)

/-- The state of an output. -/
def Xbar.outAt (b : Xbar) (port : Fin 128) : XOut :=
  (b.outs.find? (·.port == port)).getD ⟨port, none, xbarWeights b.wt, .replicate 4 []⟩

/-- The packet an output grants, and its counters after. -/
def Xbar.pick (b : Xbar) (o : XOut) (cand : List Pkt) : Option (Pkt × Vector (BitVec 4) 4) :=
  let old := cand.filter (64 ≤ ·.age)
  if !old.isEmpty then
    let top := old.foldl (fun m k => max m k.age) 0
    let most := old.filter (·.age == top)
    let lo := most.foldl (fun (m : Fin 4) k => if k.vc < m then k.vc else m) 3
    (leastRecent (o.lrg.get lo) (most.filter (·.vc == lo))).map fun k => (k, o.c)
  else
    let c := if cand.all fun k => o.c.get k.vc == 0 then xbarWeights b.wt else o.c
    let vcs := [0, 1, 2, 3].filter fun v => cand.any (·.vc == v)
    match (vcs.find? fun v => c.get v != 0).orElse fun _ => vcs.head? with
    | none => none
    | some v => (leastRecent (o.lrg.get v) (cand.filter (·.vc == v))).map fun k =>
        (k, c.set v.val (if c.get v = 0 then 0 else c.get v - 1) v.isLt)

/-- A packet's input becomes the most recently granted on its channel. -/
def XOut.used (o : XOut) (now : W) (k : Pkt) (c : Vector (BitVec 4) 4) : XOut :=
  { o with last := some now, c := c, lrg := o.lrg.set k.vc.val ((o.lrg.get k.vc).filter (· != k.inp) ++ [k.inp]) k.vc.isLt }

/-- The wheel of a timetable record gives its cores a slot of VC0 in every cycle at the slices of their die and at the
bridge (18_prog_litmus R367). -/
def State.wheel (s : State) (d : Die) (port : Fin 128) (l : List Pkt) : Option Pkt :=
  if (64 ≤ port.val ∧ port.val < 96) ∨ (108 ≤ port.val ∧ port.val < 112) then
    l.find? fun k => k.vc == 0 && k.unit == 0 && (s.coreAt k.core).csr.tt && dieOf k.core == d
  else none

/-- A timetable core that is frozen, whose wheel stands still with it (07_faults R140). -/
def State.wheelStands (s : State) (k : Pkt) : Bool :=
  k.vc == 0 && k.unit == 0 && (s.coreAt k.core).csr.tt && (s.coreAt k.core).seq.freeze != 0

/-! ### Deliveries -/

/-- An answer leaves a port on VC2. -/
def State.respond (s : State) (d : Die) (port : Fin 128) (k : Pkt) (b : PBody) : State :=
  s.enqueue { k with
    vc := 2, die := d, inp := port, out := outTo d (dieOf k.core) (deskPort k.core) k.id, age := 0, born := s.cyc
    at_ := s.cyc, body := b }

/-- A request is performed and answered. -/
def State.serveAt (s : State) (d : Die) (port : Fin 128) (k : Pkt) : State :=
  let (s, b) := s.performPkt k
  s.respond d port k b

/-- The bytes of a load that have no value yet. -/
def State.unread (s : State) (k : Pkt) : List Nat :=
  match (s.coreAt k.core).loads.find? fun r => r.id == k.req && r.left.contains k.id with
  | some r => (r.bytes.filter (·.2.isNone)).map (·.1)
  | none => []

/-- The packet is a read of a copy context that is not answered. -/
def State.readsFor (s : State) (k : Pkt) (x : Ctx) : Bool :=
  ((s.ctxAt k.core x).run).any fun r => r.rd.left.contains k.id

/-- An answer reaches its issuer's desk; a refusal by the target (03_host R53) fails the access. -/
def State.deskAnswer (s : State) (k : Pkt) : State :=
  let r : FabReq := ⟨0, k.core, k.unit, k.req, k.id, k.part, true, k.born, 0, false, s.unread k, 0, 0⟩
  match k.unit, k.body with
  | 0, .data l bad rels => s.loadArrive k.core k.req k.id l bad rels
  | 0, .ack _ st _ => if st = 0 then s.storeAck k.core k.req k.id else s.peerFail r st
  | 1, .ack old st rels => if s.readsFor k 0 then s.peerFail r st else s.copyArrive k.core 0 k.id (.ack old st rels)
  | 2, .ack old st rels => if s.readsFor k 1 then s.peerFail r st else s.copyArrive k.core 1 k.id (.ack old st rels)
  | 1, b => s.copyArrive k.core 0 k.id b
  | 2, b => s.copyArrive k.core 1 k.id b
  | _, .data l bad _ => s.peerData r l bad
  | 3, .ack _ st _ => if st = 0 then s.wbAck k.core k.id else s.peerFail r st
  | _, _ => s

/-- A port that has closed for a migrating page answers *moved*: its issuer keeps the operation (04_spaces R85). -/
def State.movedAnswer (s : State) (k : Pkt) (m : Migration) : State :=
  s.onCore k.core fun x => { x with moved := x.moved ++ [⟨k, m.part, m.off, m.size, m.pa⟩] }

/-- The migration whose page a request touches. -/
def State.movingPage (s : State) (b : PBody) : Option Migration :=
  s.ms.migrations.find? fun m => b.places.any m.covers

/-- The output a packet takes on a die. -/
def Pkt.route (k : Pkt) (d : Die) : Fin 128 :=
  match k.body with
  | .data .. | .ack .. => deskPort k.core
  | .inbox .. => deskPort (toCore (fld k.req 7 0))
  | b => let (hd, port) := homeOf d b.place
    outTo d hd port b.place

/-- A packet in the receive buffer of a port that is no slice's is taken. -/
def State.deliver (s : State) (d : Die) (port : Fin 128) (k : Pkt) : State :=
  let p := port.val
  if p < 64 then
    match k.body with
    | .data .. | .ack .. => s.deskAnswer k
    | .inbox w sc =>
      let (s, ok) := s.inboxPut (toCore (fld k.req 7 0)) w sc
      s.outboxFor k.core k.req (!ok)
    | _ => s.serveAt d port k
  else if p < 100 then
    match s.movingPage k.body with
    | some m => s.movedAnswer k m
    | none => s.serveAt d port k
  else if p < 108 then s.fabricSend k
  else if p < 112 then
    let o := otherDie d
    s.enqueue { k with die := o, inp := port, out := k.route o, age := 0, at_ := s.cyc }
  else
    match k.body with
    | .read l => s.respond d port k (.data (s.ctlBytes l) [] [])
    | .write l _ => (s.ctlStore l).respond d port k (.ack [] 0 [])
    | _ => s.respond d port k (.ack [] 9 [])

/-- What the wheel adds to the way of a scalar store of a timetable node, and of its acknowledgement: a store is performed
24 cycles after it leaves at a slice of its die and 56 on the other die, and acknowledged as many later (R367). -/
def State.wheelDelay (s : State) (port : Fin 128) (k : Pkt) : W :=
  let store := match k.body with | .write .. | .ack .. => true | _ => false
  if !(store && k.unit == 0 && (s.coreAt k.core).csr.tt) then 0
  else if port.val < 64 then 22 else if port.val < 96 then 16 else if port.val < 108 then 0
  else if port.val < 112 then 30 else 0

/-- The grant of an output: the packet is in its target's receive buffer 2 cycles later, and load data written by a
response 4 cycles later; the packet behind it is head from the next cycle (R377). A port that has closed for a
migrating page answers *moved*. -/
def State.grant (s : State) (d : Die) (port : Fin 128) (k : Pkt) : State :=
  let late : W := if port.val < 64 && k.unit == 0 && (match k.body with | .data .. => true | _ => false) then 4 else 2
  let k' := { k with at_ := s.cyc + late + s.wheelDelay port k }
  let s := s.onXbar d fun b =>
    let rest := b.wait.filter (·.id != k.id) ++ (b.wait.filter fun j => j.id == k.id && j.inp != k.inp)
    { b with wait := rest.map fun j =>
        if j.inp == k.inp && j.vc == k.vc && decide (j.at_.toNat ≤ s.cyc.toNat) then { j with at_ := s.cyc + 1 } else j }
  let i : Fin 32 := Fin.ofNat 32 (port.val - 64)
  if 64 ≤ port.val ∧ port.val < 96 then
    match s.movingPage k.body with
    | some m => s.movedAnswer k m
    | none => s.onXbar d fun b => let q := b.sliceAt i; b.setSlice i { q with recv := q.recv ++ [k'] }
  else s.onXbar d fun b => { b with recv := b.recv ++ [k'] }

/-- A request that acts on the scratch of a core of its desk port; it waits for its bank there (10_core R209). -/
def windowReq (k : Pkt) : Bool := k.out.val < 64 && match k.body with
  | .data .. | .ack .. | .inbox .. => false
  | _ => true

/-- The packets in an output's receive buffer are taken; one that crosses the bridge waits for room in the other die's
input queue. -/
def State.takeArrived (s : State) (d : Die) (port : Fin 128) : State :=
  let l := (s.xbarAt d).recv.filter fun k => k.out == port && !windowReq k && decide (k.at_.toNat ≤ s.cyc.toNat)
  l.foldl (init := s) fun s k =>
    if 108 ≤ port.val ∧ port.val < 112 ∧
        16 ≤ ((s.xbarAt (otherDie d)).wait.filter fun j => j.inp == port && j.vc == k.vc).length then s
    else (s.onXbar d fun b => { b with recv := b.recv.filter (· != k) }).deliver d port k

/-- A request of another seat takes its bank of a core's scratch once the bank serves it and no unit of the core holds a lock
on it (10_core R209, R212). -/
def State.takeWindow (s : State) (d : Die) (k : Pkt) : State :=
  let place := k.body.place
  let c := toCore (place / 2 ^ 22)
  let b := if 2 ^ 46 ≤ place ∧ place < 2 ^ 80 then (if bitOf place 21 then 17 else 16) else bankOfOff (place % 2 ^ 22)
  let x := s.coreAt c
  let locked := x.locks.any fun l => if b < 16 then bitOf l.mask.toNat b else b == 16 && l.x
  if locked ∨ !x.bankOpen s.cyc b 6 k.at_ then s
  else
    let s := s.onXbar d fun y => { y with recv := y.recv.filter (· != k) }
    (s.onCore c (·.takeBank s.cyc b 6 ((k.body.places.length + 255) / 256))).deliver d k.out k

/-- The requests at the desk ports of a die, in the order of their arrival. -/
def State.takeWindows (s : State) (d : Die) : State :=
  ((s.xbarAt d).recv.filter fun k => windowReq k && decide (k.at_.toNat ≤ s.cyc.toNat)).foldl (fun s k => s.takeWindow d k) s

/-- XBAR_ARBITRATE (R380): an output grants at most one packet in a cycle; then the packets that have reached its target
are taken, so that a freed entry is granted from the next cycle on (R378). -/
def execXbarArbitrate (s : State) : Out :=
  let d := s.inp.die
  let port := s.inp.xport
  let b := s.xbarAt d
  let cand := (b.bound s.cyc port).filter fun k => s.entryFree d port k && !s.wheelStands k
  let o := b.outAt port
  let choice := if o.last = some s.cyc then none else match s.wheel d port cand with
    | some k => some (k, o.c)
    | none => b.pick o cand
  let s := match choice with
    | none => s
    | some (k, c) =>
      (s.onXbar d fun b => { b with
        outs := (o.used s.cyc k c) :: b.outs.filter (·.port != port) }).grant d port k
  .next (s.takeArrived d port)

/-! ### Slices (R381, R382) -/

def PBody.isRead : PBody → Bool
  | .read _ => true
  | _ => false

/-- SLICE_TAKE_PACKET (R381): reads first; a read's value is fixed when it is taken. -/
def execSliceTakePacket (s : State) : Out :=
  let d := s.inp.die
  let i : Fin 32 := Fin.ofNat 32 s.inp.n
  let q := (s.xbarAt d).sliceAt i
  let here := q.recv.filter fun k => decide (k.at_.toNat ≤ s.cyc.toNat)
  if q.refresh.isSome ∨ q.took = some s.cyc then .next s
  else match here.find? (·.body.isRead) with
  | some k =>
    let (t, b) := s.performPkt k
    .next (t.onXbar d (·.setSlice i { q with
      took := some s.cyc, recv := q.recv.filter (· != k), reads := q.reads ++ [({ k with body := b }, s.cyc + 40)] }))
  | none =>
    match here with
    | [] => .next s
    | k :: _ =>
      if 4 ≤ q.writes.length then .next s
      else
        let last := ((q.writes.getLast?).map (·.2)).getD 0
        let from_ := if s.cyc.toNat < last.toNat then last else s.cyc
        .next (s.onXbar d (·.setSlice i { q with
          took := some s.cyc, recv := q.recv.filter (· != k), writes := q.writes ++ [(k, from_ + 4)] }))

/-- SLICE_READ_DATA (R381): 40 ac cycles after the read was taken. -/
def execSliceReadData (s : State) : Out :=
  let d := s.inp.die
  let i : Fin 32 := Fin.ofNat 32 s.inp.n
  let q := (s.xbarAt d).sliceAt i
  match q.reads with
  | (k, t) :: r =>
    if s.cyc.toNat < t.toNat then .next s
    else .next ((s.onXbar d (·.setSlice i { q with reads := r })).respond d (Fin.ofNat 128 (64 + i.val)) k k.body)
  | [] => .next s

/-- SLICE_WRITE_COMPLETE (R381): the write is performed and acknowledged. -/
def execSliceWriteComplete (s : State) : Out :=
  let d := s.inp.die
  let i : Fin 32 := Fin.ofNat 32 s.inp.n
  let q := (s.xbarAt d).sliceAt i
  match q.writes with
  | (k, t) :: r =>
    if s.cyc.toNat < t.toNat ∨ q.refresh.isSome then .next s
    else
      let (s, b) := (s.onXbar d (·.setSlice i { q with writes := r })).performPkt k
      .next (s.respond d (Fin.ofNat 128 (64 + i.val)) k b)
  | [] => .next s

/-- SLICE_REFRESH_START (R382): once in 5,850 cycles, and only in a cycle in which no write is in progress. -/
def execSliceRefreshStart (s : State) : Out :=
  let i : Fin 32 := Fin.ofNat 32 s.inp.n
  let now := s.cyc.toNat
  .next (s.onXbar s.inp.die fun b =>
    let q := b.sliceAt i
    if q.writes.all (fun w => decide (now + 4 ≤ w.2.toNat)) && q.refresh.isNone &&
        q.refreshed.all (fun t => decide (t.toNat + 5850 ≤ now)) then
      b.setSlice i { q with refresh := some s.cyc, refreshed := some s.cyc }
    else b)

/-- The writes that waited for the end of a refresh, one after another. -/
def afterRefresh (now : W) : List (Pkt × W) → List (Pkt × W)
  | [] => []
  | (k, _) :: r => (k, now + 4) :: afterRefresh (now + 4) r

/-- SLICE_REFRESH_END (R382): after 96 ac cycles. -/
def execSliceRefreshEnd (s : State) : Out :=
  let i : Fin 32 := Fin.ofNat 32 s.inp.n
  .next (s.onXbar s.inp.die fun b =>
    let q := b.sliceAt i
    match q.refresh with
    | some t =>
      if t.toNat + 96 ≤ s.cyc.toNat then
        b.setSlice i { q with refresh := none, writes := afterRefresh s.cyc q.writes }
      else b
    | none => b)

/-! ### Loads and stores end -/

/-- Fences none of whose accesses are open are past (14_scalar R298). -/
def Core.pruneFences (x : Core) : Core :=
  let o := x.openIds
  { x with fence := x.fence.filter fun f => f.all.any o.contains || f.loads.any o.contains }

/-- LOAD_DATA_RETURN (10_core R195): a load with every byte writes its register. -/
def execLoadDataReturn (s : State) : Out :=
  let s := { s with cur := s.inp.core }
  match s.core.loads.find? fun r => r.id == s.inp.n with
  | none => .next s
  | some r =>
    if !r.left.isEmpty ∨ !r.fixed ∨ s.core.seq.freeze ≠ 0 then .next s
    else .next ((s.mapCore fun x => { x with loads := x.loads.filter (·.id != r.id) }.pruneFences).finishLoad r).pumpStores

/-- WRITE_ACKNOWLEDGEMENT (08_ordering R158, R160): a store all of whose packets are answered leaves the buffer, which
may let held release stores go; one whose cycle has come is sent. -/
def execWriteAcknowledgement (s : State) : Out :=
  let s := { s with cur := s.inp.core }
  match s.core.stores.find? fun r => r.id == s.inp.n with
  | none => .next s
  | some r =>
    if !r.sent ∨ !r.left.isEmpty then .next s.pumpStores
    else .next (s.mapCore fun x => { x with stores := x.stores.filter (·.id != r.id) }.pruneFences).pumpStores

end Sys2Proof.Machine
end

