-- ==== Sys2Proof/Machine/Auto.lean ====
section
/-!
DEFINITION. The turns of one ac cycle when the state names none (assumption 3): the cores that wake and
what ends at the slices, the crossbars, the slices' takes, the accesses that end, the scheduler and matrix starts, every
core's sequencer, leaders before followers, the engines, the window accesses, the fabric and the rest; then a cycle passes.
An event of the list that cannot happen changes nothing. What comes from outside the module (the host, firmware,
other modules, soft errors) is not in it: it happens when the state's order names it.
-/

namespace Sys2Proof.Machine

def Turn.core (i : Instr) (c : CoreId) : Turn := .ev i { core := c }
def Turn.context (i : Instr) (c : CoreId) (x : Ctx) : Turn := .ev i { core := c, ctx := x }
def Turn.engine (i : Instr) (c : CoreId) (e : Engine) : Turn := .ev i { core := c, eng := e }
def Turn.num (i : Instr) (n : Nat) : Turn := .ev i { n := n }
def Turn.die (i : Instr) (d : Die) : Turn := .ev i { die := d }
def Turn.ofPart (i : Instr) (p : PartId) : Turn := .ev i { part := p }

/-- One copy context. -/
def Core.copyTurns (y : Core) (c : CoreId) (x : Ctx) : List Turn :=
  let k := y.copy.get x
  let e := if x = 0 then Engine.copy0 else .copy1
  (if k.run.isNone && !k.queue.isEmpty then [Turn.engine .engineCommandStart c e] else []) ++
  (if k.run.isSome then
    ([.streamReadDeliver, .streamReadTimeout, .relayOpenRetry, .relayStallTimeout, .recastDrainEnd, .recastRewriteEnd,
      .copyRequestIssue, .requestTimeout, .copyCommandComplete].map fun i => Turn.context i c x) ++
    [Turn.engine .engineFaultReport c e] else [])

/-- The matrix engine. -/
def Core.matrixTurns (y : Core) (c : CoreId) : List Turn :=
  match y.matrix.run with
  | none => []
  | some _ =>
    [Turn.micro c] ++ ((List.range 4).map fun i => Turn.ev .matrixRowComplete { core := c, n := i }) ++
    [Turn.engine .engineFaultReport c .matrix, Turn.core .matrixCallComplete c, Turn.core .zaccComplete c,
      Turn.core .uldComplete c]

/-- A matrix command starts in the cycle after the one in which it can (23_matrix R418). -/
def State.startTurns (s : State) : List Turn :=
  allCores.flatMap fun c =>
    let m := (s.coreAt c).matrix
    if m.run.isNone && !m.queue.isEmpty then [Turn.core .matrixCallStart c, Turn.engine .engineCommandStart c .matrix] else []

/-- Registers that producers fill, and accesses that end. -/
def Core.fillTurns (y : Core) (c : CoreId) : List Turn :=
  (if y.fills.isEmpty then [] else
    [Turn.context .promiseWrite c 0, Turn.context .promiseWrite c 1, Turn.core .getpWrite c,
      Turn.core .forwardedValueArrive c]) ++
  (y.fills.map fun f => Turn.ev .producerFill { core := c, file := f.file, reg := f.reg }) ++
  (y.loads.map fun r => Turn.ev .loadDataReturn { core := c, n := r.id }) ++
  (y.stores.map fun r => Turn.ev .writeAcknowledgement { core := c, n := r.id }) ++
  (if y.moved.isEmpty then [] else [Turn.core .movedCompletion c]) ++
  (if y.mail.outbox.isEmpty then [] else [Turn.core .outboxSend c, Turn.core .outboxResend c])

/-- The other conditions of a core. -/
def State.coreTurns (s : State) (c : CoreId) (y : Core) : List Turn :=
  (if y.csr.tt then [Turn.core .stampOverrun c] else [Turn.core .slackStallRelease c]) ++
  (if y.redun.arrived.isSome then [Turn.core .compareVerdict c] else []) ++
  [Turn.core .halfRetentionEntry c] ++
  (allCores.filterMap fun d =>
    let z := s.coreAt d
    if z.node.inst.isSome && z.csr.part == y.csr.part && ((z.tsSeen.find? (·.1 == c)).map (·.2)).getD 0 != y.ts && d != c
    then some (Turn.ev .tsUpdateArrive { core := c, dst := d }) else none)

/-- The cores that run something, or have accesses on their way. -/
def State.busyCores (s : State) : List CoreId :=
  allCores.filter fun c =>
    let y := s.coreAt c
    y.node.inst.isSome || y.live || !y.loads.isEmpty || !y.stores.isEmpty

/-- The sequencers, leaders before followers; the roll calls they complete, and what follows these in the cycle. -/
def State.seqTurns (s : State) : List Turn :=
  let l := s.busyCores
  let lead := fun c => (s.coreAt c).node.replica == 0
  let q := ((l.filter lead) ++ (l.filter fun c => !lead c)).map Turn.seq
  let roll := s.sched.groups.map fun g => Turn.num .rollCallComplete g.1.toNat
  roll ++ q ++ (if roll.isEmpty then [] else roll ++ q)

/-- The accesses, registers and conditions of the cores. -/
def State.accessTurns (s : State) : List Turn :=
  s.busyCores.flatMap fun c => (s.coreAt c).fillTurns c ++ s.coreTurns c (s.coreAt c)

/-- The engines, in the order in which the banks of scratch serve them (10_core R209). -/
def State.engineTurns (s : State) : List Turn :=
  s.busyCores.flatMap fun c =>
    let y := s.coreAt c
    y.matrixTurns c ++ y.copyTurns c 0 ++ y.copyTurns c 1

/-- Cores that wait for the end of a freeze or of a retention exit (10_core R202, 07_faults R142). -/
def State.wakeTurns (s : State) : List Turn :=
  allCores.flatMap fun c =>
    let y := s.coreAt c
    (if y.seq.freeze = 0 then [] else [Turn.core .freezeEnd c]) ++
    (if y.halves.toList.any (·.leaving) then [Turn.core .retentionExitEnd c] else [])

/-- What ends at a slice in this cycle, and its refreshes, which are staggered (20_prog_chase R382). -/
def State.sliceTurns (s : State) (d : Die) (i : Fin 32) : List Turn :=
  let q := (s.xbarAt d).sliceAt i
  let ev := fun (o : Instr) => Turn.ev o { die := d, n := i.val }
  let due := match q.refreshed with
    | none => 91 * (32 * (dieIx d).val + i.val)
    | some t => t.toNat + 5850
  (if q.refresh.isSome then [ev .sliceRefreshEnd] else []) ++
  (if q.reads.isEmpty then [] else [ev .sliceReadData]) ++
  (if q.writes.isEmpty then [] else [ev .sliceWriteComplete]) ++
  (if due ≤ s.cyc.toNat then [ev .sliceRefreshStart] else [])

/-- The outputs of a die that have a packet to grant or to take. -/
def State.xbarTurns (s : State) (d : Die) : List Turn :=
  let b := s.xbarAt d
  (List.finRange 128).filterMap fun p =>
    if b.wait.any (·.out == p) || b.recv.any (·.out == p) then some (Turn.ev .xbarArbitrate { die := d, xport := p })
    else none

/-- The slices that hold packets. -/
def State.takeTurns (s : State) (d : Die) : List Turn :=
  (List.finRange 32).filterMap fun i =>
    if ((s.xbarAt d).sliceAt i).recv.isEmpty then none else some (Turn.ev .sliceTakePacket { die := d, n := i.val })

/-- The fabric of a die, whose endpoint handles a packet of each kind, and its page walks. -/
def State.fabTurns (s : State) (d : Die) : List Turn :=
  let f := s.fabAt d
  (if f.ejected.isEmpty then [] else
    [.readRequest, .writeRequest, .accumulateRequest, .fetchOpRequest, .readResponse, .completionAcknowledgement,
      .relayData, .inboxWord, .inboxRefusal].map (Turn.die · d)) ++
  ((f.vcs.filter (·.since.isSome)).map fun v => Turn.ev .hedgeQueueAssign { die := d, fport := v.port, vc := v.vc }) ++
  ((f.hedges.filter (·.empty.isSome)).map fun h =>
    Turn.ev .hedgeQueueRelease { die := d, fport := h.port, slot := Fin.ofNat 64 h.slot.val }) ++
  (if s.ms.walks.any (·.bad.isNone) then [Turn.die .pageWalkDone d] else []) ++
  (if bitOf (s.ms.xlatinv.get (dieIx d)).toNat 63 then [Turn.die .xlatinvComplete d] else []) ++
  (List.replicate f.outq.length (Turn.ev .routerPacketArrive { die := d, rin := .inject }))

/-- One node instance. -/
def Inst.turns (i : Inst) : List Turn :=
  match i.state with
  | .ready => [Turn.num .poolMove i.id, Turn.num .placementReserve i.id]
  | .dispatched .. => [Turn.num .nodeStart i.id]
  | .running => [Turn.num .watchdogExpiry i.id]
  | _ => []

/-- The schedulers and the launch queues. -/
def State.schedTurns (s : State) : List Turn :=
  ((List.finRange 8).flatMap fun p => (List.finRange 16).flatMap fun q =>
    let x := (s.host.vfs.get p).queues.get q
    if x.en || !x.recs.isEmpty || !x.old.isEmpty then
      [Turn.ev .launchRecordRead { part := p, queue := q }, Turn.ev .recordStart { part := p, queue := q }] else []) ++
  (s.sched.tasks.map fun t => Turn.core .taskPoolInsert t.core) ++
  (if s.sched.insts.isEmpty then [] else
    [Turn.die .dispatchDecision .e, Turn.die .dispatchDecision .w, Turn.die .freeCoreSummary .e,
      Turn.die .freeCoreSummary .w]) ++
  s.sched.insts.flatMap Inst.turns

/-- Partitions, migrations, the pool manager, posted host writes. -/
def State.otherTurns (s : State) : List Turn :=
  ((List.finRange 8).filterMap fun p => if (s.partAt p).swapped then some (Turn.ofPart .swapQuiesceEnd p) else none) ++
  ((List.finRange 8).filterMap fun p =>
    if s.sched.insts.any fun i => i.vf == p && i.state == .failed then some (Turn.ofPart .dumpWritten p) else none) ++
  ((List.finRange 8).filterMap fun p =>
    if !(s.partAt p).swapped && s.satchels.any fun t => t.part == p && t.leaving then some (Turn.ofPart .swapResume p)
    else none) ++
  (s.ms.migrations.flatMap fun m =>
    [.migrationPortsClosed, .migrationCopyDone].map fun i => Turn.ev i { part := m.part, off := .ofNat 64 m.off }) ++
  (if s.ms.manager.isEmpty then [] else [Turn.ev .poolManagerRequest {}]) ++
  ((s.host.posted.map (·.fn)).eraseDups.map fun f => Turn.ev .hostWriteForward { fn := f })

/-- The turns of each part of a cycle, as the state stands when it begins. -/
def State.turnsOf (s : State) (k : Nat) : List Turn :=
  match k with
  | 0 => s.wakeTurns ++ (List.finRange 32).flatMap (s.sliceTurns .e) ++ (List.finRange 32).flatMap (s.sliceTurns .w)
  | 1 => s.xbarTurns .e ++ s.xbarTurns .w
  | 2 => s.takeTurns .e ++ s.takeTurns .w
  | 3 => s.accessTurns
  | 4 => s.schedTurns ++ s.startTurns
  | 5 => s.seqTurns
  | 6 => s.engineTurns ++ [.window .e, .window .w]
  | 7 => s.fabTurns .e ++ s.fabTurns .w ++ s.otherTurns
  | _ => []

/-- The turns of one ac cycle. -/
def State.round (_s : State) : List Turn := (List.range 8).map Turn.plan ++ [.tick 1]

end Sys2Proof.Machine
end

