-- ==== Sys2Proof/Machine/Rows.lean ====
section
/-!
DEFINITION. The load pipes of the matrix engine and its operand buffers (23_matrix R422 to R426, R431, R435 to R439;
05_kvspace R91 to R94, R100 to R102; 09_redundancy R178).
-/

namespace Sys2Proof.Machine

/-! ### Reaching memory -/

/-- A trap of the matrix engine (R435). -/
def matrixTrap (t : Trap) : Trap := { t with async := true, engine := 3 }
def illegalMicro (raw : Nat) : Trap := matrixTrap { code := 0x02, info := .ofNat 64 raw }

/-- Translation, role and access check of a pipe's read or of a write of u.wb (04_spaces R63, R73, 03_host R53). -/
def State.mReach (s : State) (c : CoreId) (va : W) (k : AKind) : Reach :=
  let p : PartId := (s.coreAt c).csr.part.toFin
  -- an access that each replica's engine performs itself (09_redundancy R178, R180)
  let mine := tagOfVa va == 5 || tagOfVa va == 6 || (k == .copyRead && tagOfVa va == 1)
  match s.translate c p va k .walk with
  | .fault code r => .stop (matrixTrap { code := code, reason := r, info := va, self := mine })
  | .held | .walk _ => .wait
  | .ok l =>
    if !s.mayAccess (masterOf c 3) p k l then
      .stop (matrixTrap { code := 0x0A, info := va, self := mine || (k == .copyRead && l.attr.stable) })
    else if l.own && (s.coreAt c).lockedFor 5 (fld va.toNat 21 0) then .wait
    else .at_ l.place l.own

/-- The places of addresses, granule by granule, or what the first bad one finds. -/
def State.mReachAll (s : State) (c : CoreId) (vas : List W) (k : AKind) : Except Reach (List (W × Nat × Bool)) :=
  let firsts := (vas.map fun a => a.toNat / 4096).eraseDups
  let found := firsts.map fun g =>
    let a := (vas.find? fun a => a.toNat / 4096 == g).getD 0
    (g, a, s.mReach c a k)
  match found.find? fun f => (match f.2.2 with | .at_ .. => false | _ => true) with
  | some f => .error f.2.2
  | none => .ok (vas.filterMap fun a => match found.find? (·.1 == a.toNat / 4096) with
      | some (_, b, .at_ pl own) => some (a, pl + a.toNat - b.toNat, own)
      | _ => none)

/-- The pipe's running load, and its update. -/
def State.pipeAt (s : State) (c : CoreId) (i : Fin 4) : Option PipeRun :=
  (s.coreAt c).matrix.run.bind fun r => (r.pipes.get i).head?
def MRun.onPipe (r : MRun) (i : Fin 4) (f : PipeRun → PipeRun) : MRun :=
  { r with pipes := r.pipes.set i.val (match r.pipes.get i with | q :: t => f q :: t | [] => []) i.isLt }
def State.onMRun (s : State) (c : CoreId) (f : MRun → MRun) : State := s.onCore c (·.onMRun f)
def State.onPipe (s : State) (c : CoreId) (i : Fin 4) (f : PipeRun → PipeRun) : State :=
  s.onMRun c (·.onPipe i f)

/-! ### What a row gives -/

/-- What the next row of a load gives: its codes, format, elements, whether the side is typed, whether packed data
was malformed; or a fault; or nothing yet. -/
inductive RowGot where
  | row (codes : List (Nat × Nat)) (fmt k : Nat) (typed malformed : Bool)
  | stop (t : Trap)
  | wait
  | asked (s : State)

/-- What stands in the way of an access, as a row. -/
def rowStuck : Reach → RowGot
  | .stop t => .stop t
  | _ => .wait

/-- Bytes of addresses for the next row: those of peer modules are asked for by packets. -/
def State.pipeRead (s : State) (c : CoreId) (i : Fin 4) (q : PipeRun) (vas : List W)
    (k : List Byte → RowGot) : RowGot :=
  match s.mReachAll c vas.eraseDups .copyRead with
  | .error e => rowStuck e
  | .ok l =>
    let near := l.filter fun a => a.2.1 < 2 ^ 80
    let far := l.filter fun a => 2 ^ 80 ≤ a.2.1 && !(q.rd.known.any (·.1 == a.1)) && !(q.rd.asked.any (·.2 == a.1))
    if !q.rd.left.isEmpty then .wait
    else if !far.isEmpty then
      if !s.deskRoom c then .wait
      else
        let p : PartId := (s.coreAt c).csr.part.toFin
        let (s, ids) := (beats (far.map fun a => a.2.1)).foldl (init := (s, ([] : List Nat))) fun st b =>
          let (s, n) := st.1.post c 3 0 1 p (b.headD 0) (.read b)
          (s, st.2 ++ [n])
        .asked (s.onPipe c i fun q => { q with
          rd := { q.rd with asked := q.rd.asked ++ far.map fun a => (a.2.1, a.1), left := ids } })
    else if !q.rd.poison.isEmpty then .stop (matrixTrap { code := 0x0B })
    else match s.poisonRead (near.map fun a => a.2.1) with
      | some a => .stop (matrixTrap { code := 0x0B, info := .ofNat 64 a })
      | none =>
        let byte := fun (v : W) => match near.find? (·.1 == v) with
          | some a => s.readByte a.2.1
          | none => ((q.rd.known.find? (·.1 == v)).map (·.2)).getD 0
        k (vas.map byte)

/-! ### Rows of memory (R422 to R424) -/

/-- The format of a side of memory at an address; none when it does not translate. -/
def State.fmtAt (s : State) (c : CoreId) (va : W) : Option Nat :=
  (s.sideOf c (s.coreAt c).csr.part.toFin va).map (·.fmt)

/-- A row's start is misaligned (15_copy R321). -/
def loadMisaligned (f : Nat) (side : Side) (a : W) : Bool :=
  if isBlockFmt f && side.fmt == f then misaligned f side.rel a else a.toNat % elemAlign f != 0

/-- The codes of a row from its bytes: of a Q4 element the place in its group and the group's sixteen bits; of a typed
block-scaled element its scale byte; and whether spare bits are set (11_formats R228, R229, R231). -/
def rowCodes (p : VMem) (bytes : List Byte) : List (Nat × Nat) × Bool :=
  let data := leNat bytes
  let (el, sp) := p.layout
  (el.map fun x =>
      if p.m = 18 ∨ p.m = 19 then (x.1 % 4, data / 2 ^ x.2.1 % 65536)
      else (data / 2 ^ x.2.1 % 2 ^ fmtBits p.m, match x.2.2 with
        | some j => data / 2 ^ (8 * j) % 256
        | none => 0),
    sp.any fun x => data / 2 ^ (8 * x.2.1) % 256 &&& x.2.2.toNat != 0)

/-- Row `next` of lda or ldb. -/
def State.memRow (s : State) (c : CoreId) (i : Fin 4) (q : PipeRun) : RowGot :=
  let sp := q.spec
  let p : PartId := (s.coreAt c).csr.part.toFin
  let a := sp.base + .ofNat 64 q.next * sp.stride
  match s.mReach c a .copyRead, s.sideOf c p a with
  | .at_ .., some side =>
    let typed := side.fmt != 0
    let f := if typed then side.fmt else sp.ufmt
    let k := if sp.k = 0 then elemCount (fmtBits f) else sp.k
    let len := rowSpan f k
    if (!typed && !(1 ≤ f && f ≤ 24)) || (q.next != 0 && (f != q.fmt || typed != q.typed)) ||
        (!sp.lib && elemCount (fmtBits f) < k) || (typed && isBlockFmt f && 64 < k) then .stop (illegalMicro sp.raw)
    else if loadMisaligned f side a then .stop (matrixTrap { code := 0x03, info := a })
    else if side.role = 2 ∧ sp.stride ≠ .ofNat 64 len then .stop (illegalMicro sp.raw)
    else
      let read := fun (s : State) =>
        let pl := srcElems f side a 0 k
        let vas := pl.addrs
        let firsts := ((vas.map fun v => v.toNat / 4096).eraseDups).filterMap fun g =>
          vas.find? fun v => v.toNat / 4096 == g
        if firsts.any fun v => (s.fmtAt c v).any (· != side.fmt) then RowGot.stop (illegalMicro sp.raw)
        else s.pipeRead c i q vas fun bytes =>
          let (l, bad) := rowCodes pl bytes
          .row l f k typed bad
      match side.role, side.idx with
      | 2, some ix =>
        if !q.claimed then
          match s.claim p ix (fld a.toNat 56 0) (sp.rows * len) (.ofNat 10 c.val) false with
          | none => .stop (matrixTrap { code := 0x09, info := a })
          | some s => .asked (s.onPipe c i fun q => { q with claimed := true })
        else if (s.streamOf p ix).wdone < fld a.toNat 56 0 + len then
          match q.waits with
          | some (n, t) =>
            if n ≠ q.next then .asked (s.onPipe c i fun q => { q with waits := some (q.next, s.cyc) })
            else if t.toNat + us 100 ≤ s.cyc.toNat then .stop (matrixTrap { code := 0x0A, info := a })
            else .wait
          | none => .asked (s.onPipe c i fun q => { q with waits := some (q.next, s.cyc) })
        else read s
      | _, _ => read s
  | e, _ => rowStuck e

/-! ### Rows of u.scale (R431) -/

/-- The scale bytes of line `next`. -/
def State.scaleRow (s : State) (c : CoreId) (i : Fin 4) (q : PipeRun) : RowGot :=
  let a := q.spec.base + .ofNat 64 (32 * q.next)
  let n := (q.spec.k + 31) / 32
  s.pipeRead c i q ((List.range n).map fun j => a + .ofNat 64 j) fun bytes =>
    .row (bytes.map fun b => (b.toNat, 0)) 0 n false false

/-! ### Rows of the key-value space (R425; 05_kvspace R94, R101) -/

/-- A fault of a tile fetch (05_kvspace R102). -/
def kvStop (va : W) (reason : Nat) : RowGot := .stop (matrixTrap (kvFault va reason))

/-- The codes of a key or value row. -/
def kvCodes (g : Nat) (bytes : List Byte) : List Nat :=
  let w := kvRb g / kvD g
  (List.range (kvD g)).map fun e => leNat ((bytes.drop (w * e)).take w)

/-- An element is a NaN or an infinity. -/
def nonFinite (f code : Nat) : Bool := match decodeF f code with
  | .fin .. => false
  | _ => true

/-- The page of a token: the page pinned, an entry of the core's cache, or a walk (05_kvspace R91, R93). -/
def State.kvFind (s : State) (c : CoreId) (q : PipeRun) (va : W) (lens : Nat × Nat) : Except Nat Nat :=
  let p : PartId := (s.coreAt c).csr.part.toFin
  let x := s.partAt p
  match x.kvCoord va with
  | some r => .error r
  | none =>
    if lens.1 ≤ kvT va then .error 0
    else if lens.2 ≤ kvT va then .error 1
    else
      let j := kvT va / kvTpp x.kg
      match q.page with
      | some (j', i) => if j' = j then .ok i else find j
      | none => find j
where
  find (j : Nat) : Except Nat Nat :=
    match (s.coreAt c).kvc.find? fun e => e.1 == kvKey (kvS va) (kvL va) (kvH va) j with
    | some e => .ok e.2
    | none => s.kvWalk (s.coreAt c).csr.part.toFin va lens.1 (some lens.2)

/-- The last token of the fetch on va's page, below ALEN and PLEN, whose row holds a non-finite element, counted from va
(05_kvspace R102). -/
def State.kvLast (s : State) (p : PartId) (q : PipeRun) (va : W) (i : Nat) (lens : Nat × Nat) (value : Bool) : Nat :=
  let x := s.partAt p
  let t := kvT va
  let stop := min (min (kvT q.spec.base + q.spec.rows) (min lens.1 lens.2)) ((t / kvTpp x.kg + 1) * kvTpp x.kg)
  ((List.range (stop - t)).map (t + ·)).foldl (init := t) fun m u =>
    let (a, b) := x.kvRows i u
    let bytes := s.ms.mem.bytes (if value then b else a) (kvRb x.kg)
    if (kvCodes x.kg bytes).any (nonFinite (kvFmt x.kg)) then u else m

/-- Row `next` of ldk or ldv. -/
def State.kvRow (s : State) (c : CoreId) (i : Fin 4) (q : PipeRun) : RowGot :=
  let p : PartId := (s.coreAt c).csr.part.toFin
  let x := s.partAt p
  let base := q.spec.base
  let value := q.spec.pipe == 3
  if tagOfVa base ≠ 4 then .stop (matrixTrap { code := 0x09, info := base })
  else match q.lens with
  | none => .asked (s.onPipe c i fun q => { q with lens := some (s.kvLens p (kvS base) (kvL base)) })
  | some lens =>
    let t := kvT base + q.next
    let va := kvAtToken base t
    if 2 ^ 22 ≤ t then kvStop va (x.kvPast va)
    else match s.kvFind c q va lens with
      | .error r => kvStop va r
      | .ok pg =>
        let (ka, vb) := x.kvRows pg t
        let a := if value then vb else ka
        let places := span a (kvRb x.kg)
        if !s.accessOk (targetOf a) (masterOf c 3) p 0 false then .stop (matrixTrap { code := 0x0A, info := va })
        else match s.poisonRead places with
          | some w => .stop (matrixTrap { code := 0x0B, info := .ofNat 64 w })
          | none =>
            let j := t / kvTpp x.kg
            if q.page ≠ some (j, pg) then
              let key := kvKey (kvS va) (kvL va) (kvH va) j
              .asked ((s.onPipe c i fun q => { q with page := some (j, pg), pins := [pg] }).onCore c fun y =>
                { y with kvc := ((key, pg) :: y.kvc.filter (·.1 != key)).take 16 })
            else
              let codes := kvCodes x.kg (places.map s.readByte)
              let bad := fun n => nonFinite (kvFmt x.kg) n
              match if kvChk x.kg then codes.findIdx? bad else none with
              | some e => .asked ((s.kvQuarantine c p va pg value (s.kvLast p q va pg lens value) e (codes.getD e 0)).onPipe c i
                  fun q => { q with stop := some (matrixTrap (kvFault va 3)) })
              | none => .row (codes.map fun n => (n, 0)) (kvFmt x.kg) (kvD x.kg) true false

/-! ### Rows read by another engine (R417, R438) -/

/-- Core c's seat in its matrix gang: row and column (R438). -/
def State.gangSeat (s : State) (c : CoreId) : Nat × Nat :=
  let k := ((s.matrixGang c).map (·.2)).getD 1
  let n := (s.coreAt c).node.seat
  (n / max 1 k, n % max 1 k)

/-- The seat takes the rows of a pipe from another seat of its gang (R438). -/
def State.takesRows (s : State) (c : CoreId) (r : MRun) (q : PipeRun) : Bool :=
  r.cmd.op.isGang && !q.spec.scale && match q.spec.pipe.val with
    | 0 => (s.gangSeat c).2 != 0
    | 1 => (s.gangSeat c).1 != 0
    | _ => false

/-- The next row lies in memory that every replica reads itself (09_redundancy R178). -/
def State.rowIsLocal (s : State) (c : CoreId) (q : PipeRun) : Bool :=
  let a := q.spec.base + .ofNat 64 q.next * (if q.spec.scale then 32 else q.spec.stride)
  q.spec.pipe.val < 2 && match s.translate c (s.coreAt c).csr.part.toFin a .pref .walk with
    | .ok l => loadIsLocal a l
    | _ => tagOfVa a == 5 || tagOfVa a == 6 || tagOfVa a == 1

/-- The leader's rows reach a follower. -/
def State.followerRow (s : State) (c : CoreId) (q : PipeRun) : Bool :=
  let x := s.coreAt c
  1 < x.csr.nrep.toNat && x.csr.self != x.csr.lead && !s.rowIsLocal c q

/-- The row another engine has read. -/
def Core.fwdRow (x : Core) (call load row : Nat) : Option FwdRow :=
  x.matrix.fwd.find? fun f => f.call == call && f.load == load && f.row == row

/-- A row goes to the engines that take it: the followers' and, within the gang of its seat, those of its row or its
column. -/
def State.shareRow (s : State) (c : CoreId) (r : MRun) (q : PipeRun) (f : FwdRow) : State :=
  let x := s.coreAt c
  let followers := if 1 < x.csr.nrep.toNat ∧ x.csr.self = x.csr.lead then State.replicas { s with cur := c } else []
  let mates := if !r.cmd.op.isGang ∨ q.spec.scale then [] else
    (s.gangSeats c).filter fun g => g != c && match q.spec.pipe.val with
      | 0 => (s.gangSeat c).2 == 0 && (s.gangSeat g).1 == (s.gangSeat c).1
      | 1 => (s.gangSeat c).1 == 0 && (s.gangSeat g).2 == (s.gangSeat c).2
      | _ => false
  let put := fun (n : Nat) (y : Core) =>
    let old := y.matrix.fwd.filter fun e => !(e.call == n && e.load == f.load && e.row == f.row)
    { y with matrix := { y.matrix with fwd := { f with call := n } :: old } }
  let s := followers.foldl (fun s g => s.onCore g (put r.cmd.num)) s
  mates.foldl (fun s g => match (s.coreAt g).matrix.run with
    | some m => s.onCore g (put m.cmd.num)
    | none => s) s

/-! ### Delivery (R422, R425) -/

/-- The buffer that a complete load fills. -/
def PipeRun.filled (q : PipeRun) (b : Buf) : Buf :=
  let sp := q.spec
  if sp.scale then { b with scales := q.got.map fun l => l.map (·.1), scaleBy := some sp }
  else if sp.pipe = 3 then
    ⟨4, q.fmt, q.got.length, (List.range (min 64 (q.klen - sp.d0))).map fun e =>
      q.got.map fun l => l.getD (sp.d0 + e) (0, 0), [], some sp, none⟩
  else ⟨if sp.pipe = 2 then 3 else if q.typed then 2 else 1, q.fmt, q.klen, q.got, if q.refill then b.scales else [],
    some sp, if q.refill then b.scaleBy else none⟩

/-- A row is complete; with the last one the buffer holds the load. -/
def MRun.takeRow (r : MRun) (i : Fin 4) (codes : List (Nat × Nat)) (f k : Nat) (typed malformed : Bool) : MRun :=
  let r := if malformed then { r with always := r.always ||| fFMT } else r
  match r.pipes.get i with
  | q :: t =>
    let q := { q with next := q.next + 1, fmt := f, klen := k, typed := typed, got := q.got ++ [codes], rd := noRead, due := q.due.drop 1 }
    if q.next < q.spec.rows then { r with pipes := r.pipes.set i.val (q :: t) i.isLt }
    else { r with
      pipes := r.pipes.set i.val t i.isLt
      bufs := r.bufs.set q.spec.buf.val (q.filled (r.bufs.get q.spec.buf)) q.spec.buf.isLt }
  | [] => r

/-- The bytes of a row (R424). -/
def State.rowLen (s : State) (c : CoreId) (sp : LoadSpec) (a : W) : Nat :=
  let f := match s.fmtAt c a with
    | some f => if f = 0 then sp.ufmt else f
    | none => sp.ufmt
  rowSpan f (if sp.k = 0 then elemCount (fmtBits f) else sp.k)

/-- A pipe sends a row request in a cycle: one to a scratch bank waits while the bank serves another (10_core R209), and its
row is complete 6 cycles after it is served; of any other space it is complete when its data has arrived (R426). -/
def State.requestRow (s : State) (c : CoreId) (i : Fin 4) (q : PipeRun) : State :=
  let sp := q.spec
  let n := q.next + q.due.length
  let a := sp.base + .ofNat 64 n * (if sp.scale then 32 else sp.stride)
  if sp.rows ≤ n ∨ q.sent = some s.cyc then s
  else if tagOfVa a = 5 ∧ fld a.toNat 56 22 = 0 ∧ sp.pipe.val < 2 then
    let b := bankOfOff (fld a.toNat 21 0)
    let since := match q.sent with
      | some t => t + 1
      | none => s.cyc
    if !(s.coreAt c).bankOpen s.cyc b 5 since then s
    else (s.onPipe c i fun q => { q with due := q.due ++ [s.cyc + 6], sent := some s.cyc }).onCore c
      (·.takeBank s.cyc b 5 (max 1 ((s.rowLen c sp a + 255) / 256)))
  else s.onPipe c i fun q => { q with due := q.due ++ [s.cyc], sent := some s.cyc }

/-- The next row of a pipe of core c. -/
def State.rowStep (s : State) (c : CoreId) (i : Fin 4) (r : MRun) (q : PipeRun) : State :=
  let fwd := s.takesRows c r q || s.followerRow c q
  if fwd then
    match (s.coreAt c).fwdRow r.cmd.num q.spec.ord q.next with
    | none => s
    | some f =>
      match f.bad with
      | some t => s.onPipe c i fun q => { q with stop := some t }
      | none => (s.shareRow c r q f).onMRun c (·.takeRow i f.codes f.fmt f.klen f.typed f.malformed)
  else if q.due.isEmpty then s
  else
    let got := if q.spec.scale then s.scaleRow c i q else if q.spec.pipe.val < 2 then s.memRow c i q else s.kvRow c i q
    let f : FwdRow := ⟨r.cmd.num, q.spec.ord, q.next, 0, 0, false, [], false, none⟩
    match got with
    | .row l f' k typed bad =>
      if q.due.all fun t => decide (s.cyc.toNat < t.toNat) then s else
      (s.shareRow c r q { f with fmt := f', klen := k, typed := typed, codes := l, malformed := bad }).onMRun c
        (·.takeRow i l f' k typed bad)
    | .stop t =>
      let s := s.onPipe c i fun q => { q with stop := some t }
      if t.shared || t.self then s else s.shareRow c r q { f with bad := some t }
    | .wait => s
    | .asked s => s

/-- MATRIX_ROW_COMPLETE (R426): the next row of pipe n mod 4. -/
def execMatrixRowComplete (s : State) : Out :=
  let c := s.inp.core
  let i : Fin 4 := Fin.ofNat 4 s.inp.n
  match (s.coreAt c).matrix.run, s.pipeAt c i with
  | some r, some q =>
    if s.engineLive c && q.stop.isNone then
      let s := s.requestRow c i q
      .next (s.rowStep c i ((s.coreAt c).matrix.run.getD r) ((s.pipeAt c i).getD q))
    else .next s
  | _, _ => .next s

/-! ### Faults (R435, R436, R439) -/

/-- The matrix engine reports its fault: one at a time, in a gang that of the lowest seat (R436, R439). -/
def State.matrixReport (s : State) (c : CoreId) : State :=
  let x := s.coreAt c
  let mates := (s.gangSeats c).filter (· != c)
  let busy := fun (g : CoreId) => (s.coreAt g).matrix.run.any fun m =>
    m.cmd.op.isGang && (m.reported.isSome || (m.fault.isSome && (s.coreAt g).node.seat < x.node.seat))
  match x.matrix.run with
  | none => s
  | some r =>
    match r.fault with
    | none => s
    | some (k, t) =>
      if r.reported.isSome ∨ x.seq.pend.any (·.engine == 3) ∨ (r.cmd.op.isGang && mates.any busy) then s
      else
        let s := s.onMRun c fun r => { r with reported := some k }
        let s := if t.cls = .a then
            let l := if 1 < x.csr.nrep.toNat then State.replicas { s with cur := c } else []
            (c :: l).foldl (fun s g => s.onCore g (·.onCsr fun z => { z with rowprog := r.rowprog k })) s
          else s
        s.onCore c (·.report t)

end Sys2Proof.Machine
end

