-- ==== Sys2Proof/Machine/Micro.lean ====
section
/-!
DEFINITION. The micro-operations, and the library routines (23_matrix R426 to R434, R441, R442; 11_formats R235 to R238).
-/

namespace Sys2Proof.Machine

/-! ### When a micro-word executes (R419, R436 to R439) -/

/-- Nothing of a running call is stopped, and no buffer is being refilled. -/
def MRun.still (r : MRun) : Bool := r.stop.isNone && r.allPipes.all fun q => q.stop.isNone && !q.refill

/-- The running call of a core whose next micro-word may execute; the seats of a gang keep step. -/
def State.microReady (s : State) (c : CoreId) : Option MRun :=
  match (s.coreAt c).matrix.run with
  | none => none
  | some r =>
    let mates := if r.cmd.op.isGang then (s.gangSeats c).filter (· != c) else []
    let step := mates.all fun g => match (s.coreAt g).matrix.run with
      | some m => m.still && (m.ended || r.count ≤ m.count)
      | none => true
    if s.engineLive c && r.cmd.op.isCall && !r.ended && r.still && step && decide (r.wait.toNat ≤ s.cyc.toNat) then
      some r else none

/-- A micro-operation acts on the running call; when its word may not execute yet nothing changes. -/
def micro (f : MRun → State → Out) (s : State) : Out :=
  match s.microReady s.cur with
  | none => .next s
  | some r => f r s

/-- The next micro-word is next. -/
def MRun.step (r : MRun) : MRun := { r with upc := r.upc + 1, count := r.count + 1 }
def State.setMRun (s : State) (r : MRun) : State := s.onMRun s.cur fun _ => r
/-- The micro-word has executed, and the call is r. -/
def State.microDone (s : State) (r : MRun) : State := s.setMRun r.step
/-- The call stops on a fault of its micro-word. -/
def State.microStop (s : State) (t : Trap) : State := s.onMRun s.cur fun r => { r with stop := some t }

def MRun.routine (r : MRun) : BitVec 8 := match r.cmd.op with
  | .call k _ => k.routine
  | _ => 0
def MRun.bank (r : MRun) : BitVec 3 := r.cmd.op.bank
/-- A library routine, whose micro-words the model does not spell out (R441). -/
def MRun.isLib (r : MRun) : Bool := r.routine.toNat < 5

/-- The raw word of the micro-word that executes: 0 of a library routine (R435). -/
def State.rawMicro (s : State) (r : MRun) : Nat :=
  if r.isLib then 0 else s.core.microWord ((s.core.routineAt r.routine).1 + r.upc)
def State.microIllegal (s : State) (r : MRun) : State := s.microStop (illegalMicro (s.rawMicro r))

def MRun.wpAt (r : MRun) (p : BitVec 3) : W := r.wp.get p.toFin
def MRun.setWp (r : MRun) (p : BitVec 3) (v : W) : MRun := { r with wp := r.wp.set p.toNat v p.isLt }
/-- A load into a buffer is running. -/
def MRun.filling (r : MRun) (b : Fin 4) : Bool := r.allPipes.any fun q => q.spec.buf == b

/-! ### Loads (R423 to R426, R431) -/

/-- A stride word breaks the layout of its pipe (R423). -/
def strideBad (pipe : Fin 4) (g w : Nat) : Bool :=
  64 < fld w 58 52 || match pipe.val with
    | 0 | 1 => fld w 51 44 != 0
    | 2 => fld w 63 59 != 0 || fld w 51 0 != 0
    | _ => fld w 63 59 != 0 || fld w 51 9 != 0 || fld w 8 0 % 64 != 0 || (kvEn g && decide (kvD g ≤ fld w 8 0))

/-- The load begins: its buffer holds nothing until the last row is there. -/
def MRun.begin (r : MRun) (sp : LoadSpec) : MRun :=
  let r := { r with
    loads := r.loads + 1, pipes := r.pipes.set sp.pipe.val ((r.pipes.get sp.pipe) ++ [sp.run false]) sp.pipe.isLt }
  if sp.scale then r else { r with bufs := r.bufs.set sp.buf.val Buf.empty sp.buf.isLt }

/-- u.lda, u.ldb, u.ldk, u.ldv. -/
def uLoad (pipe : Fin 4) (l : LoadFields) : State → Out := micro fun r s =>
  if !(r.pipes.get pipe).isEmpty then .next s
  else
    let w := (r.wpAt l.stride).toNat
    let g := (s.partAt s.csr.part.toFin).kg
    if strideBad pipe g w then .next (s.microIllegal r)
    else
      let n := l.rows.toNat + 1
      let lim := fld w 58 52
      let sp : LoadSpec := {
        ord := r.loads, pipe := pipe, upc := r.upc, raw := s.rawMicro r, base := r.wpAt l.base, stride := sx64 32 w
        ufmt := fld w 63 59, rows := if lim = 0 then n else min n lim, k := fld w 43 32, d0 := fld w 8 0
        buf := l.buf.toFin, scale := false, lib := false }
      .next (s.microDone (r.begin sp))

/-- u.lda (R424). -/
def execULda (l : LoadFields) (s : State) : Out := uLoad 0 l s
/-- u.ldb (R424). -/
def execULdb (l : LoadFields) (s : State) : Out := uLoad 1 l s
/-- u.ldk (R425). -/
def execULdk (l : LoadFields) (s : State) : Out := uLoad 2 l s
/-- u.ldv (R425). -/
def execULdv (l : LoadFields) (s : State) : Out := uLoad 3 l s

/-- u.scale (R431): through the lda pipe, for every line of the buffer. -/
def execUScale (b : BitVec 2) (p : BitVec 3) (s : State) : Out :=
  micro (fun r s =>
    let k : Buf := r.bufs.get b.toFin
    if r.filling b.toFin ∨ !(r.pipes.get 0).isEmpty then .next s
    else if k.src ≠ 1 ∨ !isBlockFmt k.fmt then .next (s.microIllegal r)
    else
      let sp : LoadSpec := {
        ord := r.loads, pipe := 0, upc := r.upc, raw := s.rawMicro r, base := r.wpAt p, stride := 32, ufmt := 0
        rows := k.lines.length, k := k.klen, d0 := 0, buf := b.toFin, scale := true, lib := false }
      .next (s.microDone (r.begin sp))) s

/-! ### Products (R235 to R238, R428) -/

/-- Products of an element format in one K-step (11_formats R220). -/
def kStep (f : Nat) : Nat :=
  match f with
  | 1 => 2
  | 2 | 3 => 8
  | 10 => 4
  | 4 | 5 | 6 | 11 | 12 | 20 => 16
  | 17 => 64
  | _ => 32

/-- A float code's value; a flushing profile reads a subnormal code as zero (R237). -/
def flushF (fl : Bool) (f code : Nat) : FVal :=
  if fl && code / 2 ^ fltM f % 2 ^ fltE f == 0 then .fin (bitOf code (fltE f + fltM f)) 0 0 else decodeF f code

/-- The value of an element of a line with its scale (R229, R231), and whether it is malformed. -/
def elemValue (fl : Bool) (f : Nat) (x : Nat × Nat) (scale : Nat) : Num × Bool :=
  if f = 18 ∨ f = 19 then
    let c := fun j => x.2 / 16 ^ j % 16
    let g := if f = 18 then 5 else 4
    let out := c 0 == 8
    let v := if out && x.1 == 0 then flushF fl g (c 2 + 16 * c 3)
      else (q4Group f (c 0) (c 1) (c 2) (c 3)).1.getD x.1 (.fin false 0 0)
    (.f v, x.1 != 0 && c x.1 == 8 && !(out && 2 ≤ x.1))
  else if isBlockFmt f then
    let e := blockElem f
    let v := if isFloatFmt e then flushF fl e x.1 else (decodeNum e x.1).real
    (.f (mulV v (sc8Value scale)).1, false)
  else if isFloatFmt f then (.f (flushF fl f x.1), false)
  else (decodeNum f x.1, false)

/-- The values of a buffer's lines below KLEN and NL, and whether one is malformed: a typed block-scaled element takes
its own scale, an untyped one that of u.scale, or 1.0 (R424, R431). -/
def Buf.values (fl : Bool) (b : Buf) : List (List Num) × Bool :=
  let vs : List (List (Num × Bool)) := (b.lines.zip (List.range b.lines.length)).map fun (l, r) =>
    (l.zip (List.range l.length)).map fun (x, j) =>
      let sc := if b.src = 1 then
          match b.scales[r]? with
          | some q => q.getD (j / 32) 0x78
          | none => 0x78
        else x.2
      elemValue fl b.fmt x sc
  (vs.map fun l => l.map (·.1), vs.any fun l => l.any (·.2))

/-- The pairs of a K-step from positions i of A and j of B; a position past a line's end gives +0 products. -/
def stepPairs (a b : List Num) (i j s : Nat) : List (Num × Num) :=
  (List.range s).map fun k => match a[i + k]?, b[j + k]? with
    | some x, some y => (x, y)
    | _, _ => (.i 0, .i 0)

def Num.toInt : Num → Int
  | .i n => n
  | .f _ => 0

/-- k K-steps of s products from an FP32 accumulator, exact under writeback rounding: the accumulator and flags. -/
def dotSteps (p : Profile) (a b : List Num) (off s : Nat) : Nat → Nat → FVal → FVal × Flags
  | 0, _, acc => (acc, 0)
  | k + 1, t, acc =>
    let (v, fl) := dotStep p acc ((stepPairs a b (off + t * s) (t * s) s).map fun x => (x.1.real, x.2.real))
    let (w, fl') := dotSteps p a b off s k (t + 1) v
    (w, fl ||| fl')

def dotStepsI (p : Profile) (a b : List Num) (off s : Nat) : Nat → Nat → Int → Int
  | 0, _, acc => acc
  | k + 1, t, acc =>
    dotStepsI p a b off s k (t + 1)
      (dotStepI p acc ((stepPairs a b (off + t * s) (t * s) s).map fun x => (x.1.toInt, x.2.toInt)))

/-- The bank, internal accumulators and flags after one element of a product. -/
def MRun.accAt (r : MRun) (x : Core) (row col : Nat) : FVal :=
  match r.acc.find? fun e => e.1 == row * 128 + col with
  | some e => e.2
  | none => decodeF 1 (x.bankCode r.bank row col)

/-- The product of two buffers over k K-steps of s, from position `off` of A's lines, at an origin (R428). -/
def MRun.product (r : MRun) (x : Core) (va vb : List (List Num)) (isInt : Bool) (off k s ro co : Nat) : MRun × Core :=
  let p := profile r.cmd.prof
  let rows := va.zip (List.range va.length)
  let cols := vb.zip (List.range vb.length)
  if isInt then
    (r, rows.foldl (init := x) fun x (a, i) =>
      let res := cols.map fun (b, j) =>
        intCode 25 (dotStepsI p a b off s k 0 (decodeI 25 (x.bankCode r.bank (ro + i) (co + j))))
      x.putBank r.bank (ro + i) fun c =>
        if co ≤ c ∧ c < co + vb.length then res.getD (c - co) 0 else x.bankCode r.bank (ro + i) c)
  else rows.foldl (init := (r, x)) fun (r, x) (a, i) =>
    let res := cols.map fun (b, j) => dotSteps p a b off s k 0 (r.accAt x (ro + i) (co + j))
    let r := { r with flags := res.foldl (fun f e => f ||| e.2) r.flags }
    if p.perStep then
      (r, x.putBank r.bank (ro + i) fun c =>
        if co ≤ c ∧ c < co + vb.length then (roundF 1 0 ((res.map (·.1)).getD (c - co) (.fin false 0 0))).1
        else x.bankCode r.bank (ro + i) c)
    else
      let new := (res.zip (List.range res.length)).map fun (e, j) => ((ro + i) * 128 + co + j, e.1)
      ({ r with acc := new ++ r.acc.filter fun e => !(new.any (·.1 == e.1)) }, x)

/-- An mma of two buffers whose lines are there (R428); none where it raises ILLEGAL_OP. `ks` K-steps, or for a library
routine as many as `n` positions of A need. -/
def MRun.mma (r : MRun) (x : Core) (a b : Fin 4) (ks n off ro co : Nat) : Option (MRun × Core) :=
  let ba : Buf := r.bufs.get a
  let bb : Buf := r.bufs.get b
  let na := ba.lines.length
  let nb := bb.lines.length
  let isInt := 10 ≤ ba.fmt && ba.fmt ≤ 17 && 10 ≤ bb.fmt && bb.fmt ≤ 17
  if na = 0 ∨ nb = 0 then some ({ r with last := some ⟨ro, co, na, nb, r.isInt.getD false⟩ }, x)
  else if 64 < ro + na ∨ 128 < co + nb ∨ [0, 25, 26].contains ba.fmt ∨ [0, 25, 26].contains bb.fmt ∨
      r.isInt = some (!isInt) then none
  else
    let fl := (profile r.cmd.prof).flush
    let (va, bad) := ba.values fl
    let (vb, bad') := bb.values fl
    let s := min (kStep ba.fmt) (kStep bb.fmt)
    let k := if ks = 0 then (n + s - 1) / s else ks
    let r := { r with
      last := some ⟨ro, co, na, nb, isInt⟩, isInt := some isInt
      always := if bad || bad' then r.always ||| fFMT else r.always }
    some (r.product x va vb isInt off k s ro co)

/-- The row and the column origin (R427). -/
def MRun.origin (r : MRun) : Nat × Nat := (fld (r.wp.get 7).toNat 5 0, fld (r.wp.get 7).toNat 22 16)

/-- The cycles an mma occupies (R428). -/
def MRun.mmaCycles (r : MRun) (a b : Fin 4) (k : Nat) : Nat :=
  let na := (r.bufs.get a).lines.length
  let nb := (r.bufs.get b).lines.length
  if na = 0 ∨ nb = 0 then 1 else k * ((na + 31) / 32) * ((nb + 63) / 64)

/-- u.mma (R428). -/
def execUMma (a b : BitVec 2) (k : BitVec 8) (s : State) : Out :=
  micro (fun r s =>
    if r.filling a.toFin ∨ r.filling b.toFin then .next s
    else match r.mma s.core a.toFin b.toFin (k.toNat + 1) 0 0 r.origin.1 r.origin.2 with
      | none => .next (s.microIllegal r)
      | some (r', x) =>
        let n := r.mmaCycles a.toFin b.toFin (k.toNat + 1)
        .next ((s.setCore x).microDone { r' with wait := s.cyc + .ofNat 64 n, bankAt := s.cyc + .ofNat 64 (n + 3) })) s

/-! ### Control and queues (R429, R430) -/

/-- u.step (R429). -/
def execUStep (d i : BitVec 3) (s : State) : Out :=
  micro (fun r s => .next (s.microDone (r.setWp d (r.wpAt d + r.wpAt i)))) s

/-- u.loop (R429, 12_encoding R264): L is a word of the store. -/
def execULoop (c : BitVec 3) (l : BitVec 12) (s : State) : Out :=
  micro (fun r s =>
    let n := r.wpAt c
    if fld (s.core.microWord l.toNat) 31 28 ≠ 7 then .next (s.microIllegal r)
    else if n = 0 then
      .next (s.setMRun { r with upc := l.toNat + 1 - (s.core.routineAt r.routine).1, count := r.count + 1 })
    else if 4 ≤ r.loops.length then .next (s.microIllegal r)
    else .next (s.microDone { r with loops := (n, r.upc) :: r.loops })) s

/-- u.endl (R429). -/
def execUEndl (s : State) : Out :=
  micro (fun r s =>
    match r.loops with
    | [] => .next (s.microIllegal r)
    | (n, at_) :: t =>
      if 1 < n.toNat then .next (s.setMRun { r with upc := at_ + 1, count := r.count + 1, loops := (n - 1, at_) :: t })
      else .next (s.microDone { r with loops := t })) s

/-- u.end (R429). -/
def execUEnd (s : State) : Out :=
  micro (fun r s => .next (s.microDone { r with ended := true, loops := [] })) s

/-- A queue micro-operation on an unconfigured queue, or with a count of 0 where it has one, raises ILLEGAL_OP (R430,
12_encoding R264). -/
def onMicroQueue (q : BitVec 4) (n : Nat) (f : MRun → State → Out) : State → Out := micro fun r s =>
  if !(s.core.queue q).cfg ∨ n = 0 then .next (s.microIllegal r) else f r s

/-- u.gate (R430). -/
def execUGate (q n : BitVec 4) (s : State) : Out :=
  onMicroQueue q n.toNat (fun r s =>
    if (s.core.queue q).count < n.toNat then .next s else .next (s.microDone r)) s

/-- u.pop (R430). -/
def execUPop (q n : BitVec 4) (s : State) : Out :=
  onMicroQueue q n.toNat (fun r s =>
    if (s.core.queue q).count < n.toNat then .next s
    else .next ((s.mapCore fun x => x.pop q n.toNat).microDone r)) s

/-- u.push (R430): after the earlier u.wb of the call; another unit's bank lock holds it. -/
def execUPush (q : BitVec 4) (p : BitVec 3) (s : State) : Out :=
  onMicroQueue q 1 (fun r s =>
    let b := s.core.queue q
    if b.full ∨ !r.wbOut.isEmpty ∨ s.core.lockedFor 5 (b.slotAt b.pi.toNat) then .next s
    else .next ((s.mapCore fun x => x.push q (ofS (r.wpAt p))).microDone r)) s

/-! ### u.chk, u.sig (R432, R434) -/

def Num.nonFinite : Num → Bool
  | .f .nan => true
  | .f (.inf _) => true
  | _ => false

/-- u.chk (R432). -/
def execUChk (b : BitVec 2) (s : State) : Out :=
  micro (fun r s =>
    let k : Buf := r.bufs.get b.toFin
    if r.filling b.toFin then .next s
    else
      let (vs, bad) := if k.src = 3 ∨ k.src = 4 then ([], false) else k.values false
      let fl : Flags := (if vs.any fun l => l.any (·.nonFinite) then fNV else 0) ||| (if bad then fFMT else 0)
      .next (s.microDone { r with always := r.always ||| fl })) s

/-- u.sig (R434). -/
def execUSig (p : BitVec 3) (s : State) : Out :=
  micro (fun r s =>
    let reg := r.cmd.src.get p.toFin
    let s := s.mapCore fun x => { x with fills := x.fills.map fun f => match f.src with
      | .getp q last none =>
        if last = r.cmd.num ∧ reg = some q.toFin then { f with src := .getp q last (some (r.wpAt p)), due := s.cyc + 1 } else f
      | _ => f }
    .next (s.microDone r)) s

/-! ### u.wb (R433) -/

/-- Round to nearest that saturates. -/
def satRound (f : Nat) (x : FVal) : Nat × Flags :=
  let (c, fl) := roundF f 0 x
  match x with
  | .fin n _ _ => if fl &&& fOF != 0 then (signCode f n + maxFinCode f, fl) else (c, fl)
  | _ => (c, fl)

/-- An element of the bank in a format of u.wb. -/
def wbElem (f : Nat) (isInt : Bool) (code : Nat) : Nat × Flags :=
  if f = 0 then (code, 0)
  else if isInt then
    let n := decodeI 25 code
    if isFloatFmt f then satRound f (ofInt n) else (intCode f (intNarrow f true n), 0)
  else
    let x := decodeF 1 code
    if isFloatFmt f then satRound f x
    else let (n, fl) := toIntF f 0 true x; (intCode f n, fl)

/-- The FP32 or INT32 code of an element of the call's bank: under writeback rounding the rounded accumulator. -/
def MRun.wbCode (r : MRun) (x : Core) (row col : Nat) : Nat × Flags :=
  match r.acc.find? fun e => e.1 == row * 128 + col with
  | some e => let (y, fl) := roundAcc (profile r.cmd.prof) e.2; ((roundF 1 0 y).1, fl)
  | none => (x.bankCode r.bank row col, 0)

/-- What writing rows to memory gives: the state with its packets and stream, a fault, or nothing yet. -/
inductive Wrote where
  | done (s : State) (out : List (Nat × W)) (wd : Option (Nat × Nat × Nat))
  | stop (t : Trap)
  | wait

/-- Rows are written as a copy writes (R433, 04_spaces R63, R65): all of them translated first. Memory that is not local
is written by the leader alone (09_redundancy R178). The core's own scratch takes no desk port, and no row at all writes
nothing. -/
def State.wbRows (s : State) (c : CoreId) (align : Nat) (rows : List (W × List Byte)) : Wrote :=
  let x := s.coreAt c
  let p : PartId := x.csr.part.toFin
  let follows := 1 < x.csr.nrep.toNat && x.csr.self != x.csr.lead
  let found := rows.map fun (a, l) =>
    (a, l, s.mReachAll c ((List.range l.length).map fun i => a + .ofNat 64 i) .copyWrite)
  let bad := found.findSome? fun (a, _, f) => match f with
    | .error (.stop t) => if follows && t.shared then none else some (Wrote.stop t)
    | .error _ => some .wait
    | .ok _ => if a.toNat % align != 0 then some (.stop (matrixTrap { code := 0x03, info := a })) else none
  let own := found.all fun (_, _, f) => match f with
    | .ok at_ => at_.all (·.2.2)
    | .error _ => false
  match bad with
  | some w => w
  | none =>
    let a0 := (rows.map (·.1)).headD 0
    let total := (rows.map (·.2.length)).sum
    if own then put s found none
    else match s.sideOf c p a0, follows with
    | some { role := 2, idx := some i, .. }, false =>
      if (rows.zip (rows.drop 1)).any fun x => x.2.1 != x.1.1 + .ofNat 64 x.1.2.length then
        .stop (matrixTrap { code := 0x09, info := a0 })
      else match s.claim p i (fld a0.toNat 56 0) total (.ofNat 10 c.val) true with
        | none => .stop (matrixTrap { code := 0x09, info := a0 })
        | some s => if s.deskRoom c then put s found (some (i, fld a0.toNat 56 0, fld a0.toNat 56 0 + total)) else .wait
    | _, _ =>
      if !s.deskRoom c then .wait else put s found none
where
  put (s : State) (found : List (W × List Byte × Except Reach (List (W × Nat × Bool)))) (wd : Option (Nat × Nat × Nat)) :
      Wrote :=
    let x := s.coreAt c
    let p : PartId := x.csr.part.toFin
    let follows := 1 < x.csr.nrep.toNat && x.csr.self != x.csr.lead
    let (s, out) := found.foldl (init := (s, ([] : List (Nat × W)))) fun (s, out) (a, l, f) => match f with
      | .error _ => (s, out)
      | .ok at_ =>
        let b := (l.zip at_).map fun (v, x) => (x.2.1, v, 0xFF#8)
        if at_.all (·.2.2) then (s.writePlaces b, out)
        else if follows && tagOfVa a != 6 then (s, out)
        else (beatsW b).foldl (init := (s, out)) fun (s, out) w =>
          let (s, n) := s.post c 3 0 1 p (w.headD (0, 0, 0)).1 (.write w none)
          (s, out ++ [(n, a)])
    .done s out wd

/-- The call goes on after its rows have been sent, stops on their fault, or waits. -/
def afterWb (r : MRun) (s : State) : Wrote → Out
  | .done t out wd => .next (t.microDone { r with wbOut := r.wbOut ++ out, wd := wd.orElse fun _ => r.wd })
  | .stop t => .next (s.microStop t)
  | .wait => .next s

/-- u.wb (R433). -/
def execUWb (p : BitVec 3) (f : BitVec 5) (s : State) : Out :=
  micro (fun r s =>
    let f := f.toNat
    match r.last with
    | none => .next (s.microIllegal r)
    | some m =>
      if f ≠ 0 ∧ !isRegFmt f then .next (s.microIllegal r)
      else
        let n := accRowBytes f m.nb
        let row := fun (i : Nat) => packRow f n ((List.range m.nb).map fun j =>
          let (c, fl) := r.wbCode s.core (m.ro + i) (m.co + j)
          let (d, fl') := wbElem f m.isInt c
          (d, fl ||| fl'))
        let rows := (List.range m.na).map fun i => (r.wpAt p + .ofNat 64 (i * n), row i)
        let fl := rows.foldl (fun a e => a ||| e.2.2) 0
        afterWb { r with flags := r.flags ||| fl } s
          (s.wbRows s.cur (accAlign f) (if n = 0 then [] else rows.map fun e => (e.1, e.2.1)))) s

/-! ### Library routines (R441, R442)

The manual gives a library routine's effect and not its micro-words, so each is a list of phases: loads of whole rows,
products, and for the transpose the writes. -/

/-- A phase of a library routine. -/
inductive LibStep where
  | load (pipe : Fin 4) (upc : Option Nat) (base stride : W) (ufmt rows k d0 : Nat) (buf : Fin 4)
  /-- A's lines from a position on, over n positions, against B's, at an origin -/
  | mma (off n ro co : Nat)
  | transpose (fmt : Nat)
  deriving DecidableEq, Repr

/-- A tag 4 address some tokens on. -/
def kvPlus (va : W) (n : Nat) : W := va + .ofNat 64 (128 * n)

/-- The B loads and products of a GEMM over nb columns, 64 at a time. -/
def gemmSteps (pa pb : W × W × Nat) (ma nb k ro co : Nat) : List LibStep :=
  if ma = 0 ∨ nb = 0 then [] else
  .load 0 none pa.1 pa.2.1 pa.2.2 ma k 0 0 ::
    ((List.range ((nb + 63) / 64)).flatMap fun j =>
      [.load 1 none (pb.1 + .ofNat 64 (64 * j) * pb.2.1) pb.2.1 pb.2.2 (min 64 (nb - 64 * j)) k 0 1,
       .mma 0 k ro (co + 64 * j)])

/-- The phases of a library routine from its parameters; none where it raises ILLEGAL_OP. -/
def State.libSteps (s : State) (c : CoreId) (r : MRun) : Option (List LibStep) :=
  let w := fun (i : Fin 8) => r.wp.get i
  let h := (w 4).toNat
  let (ro, co) := r.origin
  let g := (s.partAt (s.coreAt c).csr.part.toFin).kg
  let free := w 5 != 0 || w 6 != 0
  match r.routine.toNat with
  | 0 =>
    let m := fld h 7 0
    let n := fld h 20 12
    let k := fld h 36 21
    if free || fld h 63 47 != 0 || fld h 11 8 != 0 || m == 0 || 64 < m || n == 0 || 128 < n || k == 0 ||
        64 < ro + m || 128 < co + n then none
    else some (gemmSteps (w 0, w 1, fld h 41 37) (w 2, w 3, fld h 46 42) m n k ro co)
  | 1 =>
    let m := fld h 7 0
    let n := fld h 20 12
    let k := fld h 36 21
    let (gr, gc) := (s.matrixGang c).getD (1, 1)
    let (i, j) := s.gangSeat c
    let mi := min 64 (m - 64 * i)
    let nj := min 128 (n - 128 * j)
    if free || fld h 63 47 != 0 || fld h 11 8 != 0 || m == 0 || 64 * gr < m || n == 0 || 128 * gc < n || k == 0 ||
        64 < ro + mi || 128 < co + nj then none
    else some (gemmSteps (w 0 + .ofNat 64 (64 * i) * w 1, w 1, fld h 41 37)
      (w 2 + .ofNat 64 (128 * j) * w 3, w 3, fld h 46 42) mi nj k ro co)
  | 2 =>
    let m := fld h 7 0
    let n := fld h 15 8
    if free || fld h 63 26 != 0 || m == 0 || 64 < m || n == 0 || 64 < n ||
        (fld h 25 21 != 0 && !isRegFmt (fld h 25 21)) then none
    else some [.load 0 none (w 0) (w 1) (fld h 20 16) m n 0 0, .transpose (fld h 25 21)]
  | 3 =>
    let q := fld h 7 0
    let t := fld h 15 8
    if free || w 3 != 0 || fld h 63 21 != 0 || q == 0 || 64 < q || t == 0 || 128 < t || 64 < ro + q || 128 < co + t then
      none
    else some (.load 0 (some 0) (w 0) (w 1) (fld h 20 16) q (kvD g) 0 0 ::
      ((List.range ((t + 63) / 64)).flatMap fun j =>
        [.load 2 (some 1) (kvPlus (w 2) (64 * j)) 0 0 (min 64 (t - 64 * j)) 0 0 1, .mma 0 (kvD g) ro (co + 64 * j)]))
  | _ =>
    let q := fld h 7 0
    let t := fld h 15 8
    let d0 := fld h 24 16
    let nb := fld h 26 25
    if free || w 3 != 0 || fld h 63 32 != 0 || q == 0 || 64 < q || t == 0 || 128 < t || nb == 0 || 2 < nb || d0 % 64 != 0 ||
        (kvEn g && decide (kvD g < d0 + 64 * nb)) || 64 < ro + q || 128 < co + 64 * nb then none
    else some (.load 0 (some 0) (w 0) (w 1) (fld h 31 27) q t 0 0 ::
      ((List.range ((t + 63) / 64)).flatMap fun j =>
        (List.range nb).flatMap fun e =>
          [.load 3 (some 1) (kvPlus (w 2) (64 * j)) 0 0 (min 64 (t - 64 * j)) 0 (d0 + 64 * e) 1,
           .mma (64 * j) (min 64 (t - 64 * j)) ro (co + 64 * e)]))

/-- The transpose of the source rows in buffer 0: bank(c, r) and dst(c, r) take src(r, c) (R442). -/
def libTranspose (fmt : Nat) (r : MRun) (s : State) : Out :=
  let b : Buf := r.bufs.get 0
  let g := if fmt = 0 then b.fmt else fmt
  if !(isRegFmt g || g == 17) || b.fmt == 26 then .next (s.microIllegal r)
  else
    let (vs, bad) := b.values false
    let src := fun (i j : Nat) => (vs.getD i []).getD j (.i 0)
    let m := vs.length
    let n := b.klen
    let len := rowSpan g m
    let cvt := fun (x : Num) => match x with
      | .i v => if isFloatFmt g then satRound g (ofInt v) else (intCode g (intNarrow g true v), (0 : Flags))
      | .f y => if isFloatFmt g then satRound g y else (let (v, fl) := toIntF g 0 true y; (intCode g v, fl))
    let rows := (List.range n).map fun c =>
      (r.wp.get 2 + .ofNat 64 c * r.wp.get 3, packRow g len ((List.range m).map fun i => cvt (src i c)))
    let fl := rows.foldl (fun a e => a ||| e.2.2) 0
    let word := fun (x : Num) => match x with
      | .i v => intCode 25 v
      | .f y => (roundF 1 0 y).1
    let r := { r with flags := r.flags ||| fl, always := if bad then r.always ||| fFMT else r.always }
    match s.wbRows s.cur (elemAlign g) (rows.map fun e => (e.1, e.2.1)) with
    | .done t out wd =>
      let t := t.mapCore fun x => (List.range n).foldl (init := x) fun x c =>
        x.putBank r.bank c fun k => if k < m then word (src k c) else x.bankCode r.bank c k
      .next (t.microDone { r with wbOut := r.wbOut ++ out, wd := wd.orElse fun _ => r.wd })
    | .stop t => .next (s.microStop t)
    | .wait => .next s

/-- The next phase of a library routine; which micro-word a load of the GEMM or the transpose stands at is open. -/
def libPhase : State → Out := micro fun r s =>
  match s.libSteps s.cur r with
  | none => .next (s.microStop (illegalMicro 0))
  | some l =>
    match l[r.upc]? with
    | none => .next (s.setMRun { r with ended := true })
    | some (.load pipe upc base stride ufmt rows k d0 buf) =>
      if !(r.pipes.get pipe).isEmpty then .next s
      else
        let u := upc.getD ((Config.freeWord s.freeCtr).toNat % 65536)
        let sp : LoadSpec := {
          ord := r.loads, pipe := pipe, upc := u, raw := 0, base := base, stride := stride, ufmt := ufmt, rows := rows
          k := k, d0 := d0, buf := buf, scale := false, lib := true }
        .next (s.takeFree.microDone (r.begin sp))
    | some (.mma off n ro co) =>
      if r.filling 0 ∨ r.filling 1 then .next s
      else match r.mma s.core 0 1 0 n off ro co with
        | none => .next (s.microIllegal r)
        | some (r, x) => .next ((s.setCore x).microDone r)
    | some (.transpose fmt) => if r.filling 0 then .next s else libTranspose fmt r s

end Sys2Proof.Machine
end

