-- ==== Sys2Proof/Machine/Engines.lean ====
section
/-!
DEFINITION. Engines take their head command and report their faults (10_core R205, 07_faults R136, 23_matrix R414).
-/

namespace Sys2Proof.Machine

/-- ENGINE_COMMAND_START (10_core R205, 23_matrix R414, 15_copy R321): the head command of a copy context, m.zacc or m.uld
starts. A call starts by MATRIX_CALL_START; a vector operation starts in the cycle that its group's issue gave it
(Core.startVec). -/
def execEngineCommandStart (s : State) : Out :=
  let c := s.inp.core
  match s.inp.eng with
  | .copy0 => .next (s.startCopy c 0)
  | .copy1 => .next (s.startCopy c 1)
  | .matrix => .next (s.startAcc c)
  | .vec0 | .vec1 => .next s

/-- A copy context reports the stop of its command, once: CPROG records the bytes performed (10_core R204, 15_copy
R324). -/
def State.copyReport (s : State) (c : CoreId) (x : Ctx) : State :=
  let y := s.coreAt c
  let w := y.csr.cprog.get x
  match (y.copy.get x).run with
  | some r => match r.stop with
    | some t =>
      if bitOf w.toNat 63 then s
      else s.onCore c fun y => (y.onCsr fun z => { z with
        cprog := z.cprog.set x.val (.ofNat 64 (2 ^ 63 + r.bytes % 2 ^ 40)) x.isLt }).report
          -- each replica's engine performs a command on local state itself (09_redundancy R180)
          { copyTrap x t with self := !r.cmd.led && (t.code == 8 || t.code == 0x0A) }
    | none => s
  | none => s

/-- ENGINE_FAULT_REPORT (07_faults R136): the engine's fault reaches the sequencer. A vector operation's fault is precise
at its group and is never reported so. -/
def execEngineFaultReport (s : State) : Out :=
  let c := s.inp.core
  match s.inp.eng with
  | .copy0 => .next (s.copyReport c 0)
  | .copy1 => .next (s.copyReport c 1)
  | .matrix => .next (s.matrixReport c)
  | .vec0 | .vec1 => .next s

end Sys2Proof.Machine
end

