-- ==== Sys2Proof/Machine/Host.lean ====
section
/-!
DEFINITION. The host port: window D, window C, launch queues and resets of functions (03_host R36 to R49).
-/

namespace Sys2Proof.Machine

/-- The master number of a function: the PF 0x300, VF i 0x300 + i (R51). -/
def hostMaster (p : PartId) : BitVec 10 := .ofNat 10 (0x301 + p.val)
/-- The function of a partition (R37). -/
def fnOf (p : PartId) : Fin 9 := p.succ
/-- The partition of a function; none for the PF. -/
def partOfFn (f : Fin 9) : Option PartId := if f.val = 0 then none else some (toPart (f.val - 1))

/-! ### Window D (R38) -/

/-- Where a host access of n bytes goes: its places and the extent of the first, a wait, or a failure. -/
inductive HostGo where
  | go (places : List Nat) (a : Attr)
  | wait
  | fail
  deriving DecidableEq, Repr

/-- Translation and checks of the bytes of an access, those done so far before them. A page on its way to a new home makes
the access wait (04_spaces R85); a peer module that does not exist is a failure (02_fabric R19). -/
def State.hostGo (s : State) (p : PartId) (k : AKind) : List W → Attr → List Nat → HostGo
  | [], a, acc => .go acc.reverse a
  | va :: r, a, acc =>
    match s.translateHost p va k with
    | .ok l =>
      if !s.mayAccess (hostMaster p) p k l ∨ (2 ^ 80 ≤ l.place ∧ s.devBad 0 (l.place / 2 ^ 80 - 1)) then .fail
      else if s.migrating l.place then .wait
      else s.hostGo p k r (if acc.isEmpty then l.attr else a) (l.place :: acc)
    | .held | .walk _ => .wait
    | .fault _ _ => .fail

/-- The addresses of n bytes. -/
def vas (va : W) (n : Nat) : List W := (List.range n).map fun i => va + .ofNat 64 i

/-- A posted write of a function waits, or is on its way to a peer module. -/
def State.postedBy (s : State) (f : Fin 9) : Bool :=
  s.host.posted.any (·.fn == f) || s.host.away.any fun a => a.fn == f && a.write

/-- A place of another module. -/
def isPeer (place : Nat) : Bool := decide (2 ^ 80 ≤ place)

/-- Places in the requests that carry them: successive ones of one 256-byte block (02_fabric R32). -/
def requestRuns : List Nat → List (List Nat)
  | [] => []
  | a :: r =>
    match requestRuns r with
    | (b :: l) :: q => if b = a + 1 ∧ b / 256 = a / 256 then (a :: b :: l) :: q else [a] :: (b :: l) :: q
    | q => [a] :: q

/-- A window D access reaches peer modules by fabric requests to the same virtual addresses (04_spaces R73): bytes with
their places, and for a write their values. -/
def State.hostAway (s : State) (p : PartId) (off : Nat) (write : Bool) (places : List Nat) (known : List (Nat × Byte))
    (val : Nat → Byte) : State :=
  let id := s.nextId
  let away : HostAway := ⟨fnOf p, id, off, write, places, known, [], false⟩
  let go := (requestRuns (places.filter isPeer)).foldl (init := ({ s with nextId := id + 1 }, away)) fun (s, a) l =>
    let q := l.headD 0
    let n := s.nextId
    let blank : FabPacket := { (default : FabPacket) with va := .ofNat 64 q, cnt := .ofNat 64 l.length }
    (({ s with nextId := n + 1 }).request 0 5 id n p (q / 2 ^ 80 - 1) (if write then 1 else 0) (if write then [] else l)
      (if write then { blank with data := l.map val } else blank), { a with left := a.left ++ [n] })
  { go.1 with host := { go.1.host with away := go.1.host.away ++ [go.2] } }

/-- WINDOW_D_READ (R38, R48): once earlier posted writes of the function are acknowledged. -/
def execWindowDRead (s : State) : Out :=
  let p := s.inp.part
  let off := s.inp.off.toNat % 2 ^ 38
  if s.postedBy (fnOf p) ∨ s.host.away.any (·.fn == fnOf p) then .next s
  else match s.hostGo p .hostRead (vas ((s.vfAt p).wdbase + .ofNat 64 off) s.inp.n) {} [] with
    | .wait => .next s
    | .fail => .next { s.fnErr p off with host := { (s.fnErr p off).host with answer := none } }
    | .go l _ =>
      let near := l.filter (!isPeer ·)
      if (s.poisonRead near).isSome then
        .next { s.fnErr p off with host := { (s.fnErr p off).host with answer := none } }
      else if l.any isPeer then
        .next (s.hostAway p off false l (near.map fun a => (a, s.readByte a)) fun _ => 0)
      else .next { s with host := { s.host with answer := some (l.map s.readByte) } }

/-- A write to window D is performed or discarded; none while it waits. -/
def State.windowDWrite (s : State) (p : PartId) (off : Nat) (bytes : List Byte) : Option State :=
  let va := (s.vfAt p).wdbase + .ofNat 64 off
  match s.hostGo p .hostWrite (vas va bytes.length) {} [] with
  | .wait => none
  | .fail => some (s.fnErr p off)
  | .go l a =>
    let all := (l.zip bytes).map fun x => (x.1, x.2, 0xFF#8)
    let b := all.filter (!isPeer ·.1)
    let val := fun (q : Nat) => ((all.find? (·.1 == q)).map (·.2.1)).getD 0
    if (s.poisonWrite b).isSome then some (s.fnErr p off)
    else
      let done := fun (s : State) =>
        let s := s.writePlaces b
        if l.any isPeer then s.hostAway p off true l [] val else s
      match a.role, a.idx with
      | 2, some i =>
        let o := fld va.toNat 56 0
        match s.claim p i o bytes.length (hostMaster p) true with
        | none => some (s.fnErr p off)
        | some s => some ((done s).wdone p i o (o + bytes.length))
      | _, _ => some (done s)

/-! ### Launch queues (R40 to R43) -/

/-- The queue halts on record k with an error; a message when IRQ is 1 (R43, R45). -/
def State.haltQueue (s : State) (p : PartId) (q : Fin 16) (k : Nat) (err : Nat) (tag : W) : State :=
  let x := s.queueAt p q
  let s := s.onQueue p q fun x => { x with err := .ofNat 8 err, at_ := .ofNat 32 k, halt := some (k, tag) }
  if x.irq then { s with host := { s.host with msix := s.host.msix ++ [(p.val + 1, x.msiv.toNat)] } } else s

/-- Instances of records that a queue held before it was enabled anew count toward none of its new records. -/
def State.orphan (s : State) (p : PartId) (q : Fin 16) : State :=
  s.onSched fun h => { h with insts := h.insts.map fun i =>
    if i.vf == p && i.queue == q.val then { i with record := i.record + 2 ^ 64 } else i }

/-- A write to LQCFG (R41). -/
def State.writeLqcfg (s : State) (p : PartId) (q : Fin 16) (v : W) : State :=
  let n := v.toNat
  let x := s.queueAt p q
  let en := bitOf n 31
  let log := fld n 4 0
  let cfg := fun (x : LQueue) => { x with
    irq := bitOf n 15, msiv := .ofNat 6 (fld n 13 8), log2n := .ofNat 5 log }
  if x.en then (if en then s else s.onQueue p q fun x => { x with en := false })
  else if !en then s.onQueue p q cfg
  else if 6 ≤ log ∧ log ≤ 16 ∧ fld x.base.toNat 63 61 = 0 ∧ x.base.toNat % (64 * 2 ^ log) = 0 ∧
      !(s.partCores p).isEmpty then
    (s.orphan p q).onQueue p q fun x => { cfg x with
      en := true, pi := 0, ci := 0, ct := 0, err := 0, failcnt := 0, at_ := 0, tag := 0, recs := [], halt := none
      old := (x.old ++ x.recs.filter fun r => !r.ended).map fun r => { r with k := r.k + 2 ^ 64 } }
  else s.onQueue p q fun x => { x with err := 1 }

/-- A write to LQPI (R41, R42). -/
def LQueue.writePi (x : LQueue) (v : W) : LQueue :=
  if !x.en then x
  else if v.toNat < x.pi.toNat ∨ x.ci.toNat + 2 ^ x.log2n.toNat < v.toNat then
    if x.halt.isNone then { x with err := 2 } else x
  else { x with pi := v }

/-- SKIP (R42, R43). -/
def State.skipQueue (s : State) (p : PartId) (q : Fin 16) : State :=
  let x := s.queueAt p q
  match x.halt with
  | none => s.onQueue p q fun x => { x with err := 0 }
  | some (k, tag) =>
    let x := { x with
      recs := x.recs ++ [⟨k, 0, 0, 0, 0, false, [], tag, true, true, true⟩]
      failcnt := if x.failcnt = 0xFFFF#16 then x.failcnt else x.failcnt + 1
      tag := tag, ci := .ofNat 64 k, err := 0, halt := none }
    let (x, m) := advanceCt (p.val + 1) x
    let s := s.onQueue p q fun _ => x
    { s with host := { s.host with msix := s.host.msix ++ m } }

/-! ### Window C (R39, R40) -/

/-- LQCFG and LQSTAT. -/
def LQueue.cfg (x : LQueue) : W :=
  .ofNat 64 (b2n x.en * 2 ^ 31 + b2n x.irq * 2 ^ 15 + x.msiv.toNat * 256 + x.log2n.toNat)
def LQueue.stat (x : LQueue) : W :=
  .ofNat 64 (x.err.toNat * 2 ^ 56 + x.failcnt.toNat * 2 ^ 32 + x.at_.toNat)

/-- A word of the mailbox that the host writes: the doorbell, or one of the command (R56). -/
def Firmware.mailWord (f : Firmware) (off : Nat) : W := ((f.mbox.find? (·.1 == off)).map (·.2)).getD 0
def Firmware.setMail (f : Firmware) (off : Nat) (v : W) : Firmware :=
  let rest := f.mbox.filter (·.1 != off)
  { f with mbox := if v = 0 then rest else (off, v) :: rest }

/-- What a read of window C gives; an unlisted offset reads zero. -/
def State.windowC (s : State) (f : Fin 9) (off : Nat) : W :=
  match partOfFn f with
  | none =>
    if off = 0x100 then s.fw.modstat
    else if off = 0x200 then s.fw.partmap.get 0
    else if off = 0x208 then s.fw.partmap.get 1
    else if off = 0x300 then s.fw.keyslot
    else if off = 0x1008 then s.fw.mboxStatus
    else if off = 0x1010 then s.fw.nonce
    else if off = 0x1000 ∨ (0x1040 ≤ off ∧ off < 0x2000) then s.fw.mailWord off
    else 0
  | some p =>
    let v := s.vfAt p
    if off = 0 then .ofNat 64 (f.val * 16 + p.val)
    else if off = 0x08 then v.wdbase
    else if off = 0x10 then v.fnerr.setWidth 64
    else if off = 0x18 then v.fnerraddr
    else if 0x1000 ≤ off ∧ off < 0x1400 then
      let x := v.queues.get (toQ ((off - 0x1000) / 0x40))
      match (off - 0x1000) % 0x40 with
      | 0x00 => x.base | 0x08 => x.cfg | 0x10 => x.pi | 0x18 => x.ci | 0x20 => x.ct | 0x28 => x.stat | 0x30 => x.tag
      | _ => 0
    else 0

/-- A write to a register of window C takes effect; one to an unlisted or read-only register is ignored. -/
def State.windowCWrite (s : State) (f : Fin 9) (off : Nat) (v : W) : State :=
  match partOfFn f with
  | none => if off = 0x1000 ∨ (0x1040 ≤ off ∧ off < 0x2000) then { s with fw := s.fw.setMail off v } else s
  | some p =>
    if off = 0x08 then s.onVf p fun x => { x with wdbase := .ofNat 64 (v.toNat / 4096 * 4096) }
    else if off = 0x10 then s.onVf p fun x => { x with fnerr := 0, fnerraddr := 0 }
    else if 0x1000 ≤ off ∧ off < 0x1400 then
      let q := toQ ((off - 0x1000) / 0x40)
      match (off - 0x1000) % 0x40 with
      | 0x00 => s.onQueue p q fun x => if x.en then x else { x with base := v }
      | 0x08 => s.writeLqcfg p q v
      | 0x10 => s.onQueue p q (·.writePi v)
      | 0x38 => if bitOf v.toNat 0 then s.skipQueue p q else s
      | _ => s
    else s

/-- The host reads a register of window C: once earlier posted writes of the function are acknowledged (R48). -/
def State.readC (s : State) (f : Fin 9) (off : Nat) : State :=
  if s.postedBy f then s
  else { s with host := { s.host with answer := some (leBytes 8 (s.windowC f (off / 8 * 8)).toNat) } }

/-! ### Posted writes (R47) -/

/-- A posted write is performed; none while it waits. -/
def State.performHost (s : State) (w : HostWrite) : Option State :=
  if w.d then
    match partOfFn w.fn with
    | none => some s
    | some p => s.windowDWrite p w.off w.bytes
  else some (s.windowCWrite w.fn w.off (.ofNat 64 (leNat w.bytes)))

/-- A posted write arrives: it goes to its target at once unless earlier ones of its function have not been
acknowledged or its target makes it wait. -/
def State.postWrite (s : State) (w : HostWrite) (relaxed : Bool) : State :=
  let hold := { s with host := { s.host with posted := s.host.posted ++ [w] } }
  if s.postedBy w.fn ∧ !relaxed then hold else (s.performHost w).getD hold

/-- A write of a register of window C. -/
def State.postC (s : State) (f : Fin 9) (off : Nat) (v : W) : Out :=
  .next (s.postWrite ⟨f, false, off, leBytes 8 v.toNat⟩ false)

def qOff (q : Fin 16) (r : Nat) : Nat := 0x1000 + 0x40 * q.val + r

/-- WINDOW_D_WRITE (R38, R47): `ok` is the relaxed-ordering attribute. -/
def execWindowDWrite (s : State) : Out :=
  .next (s.postWrite ⟨fnOf s.inp.part, true, s.inp.off.toNat % 2 ^ 38, s.inp.bytes⟩ s.inp.ok)

/-- HOST_WRITE_FORWARD (R47): the oldest posted write of the function goes to its target. -/
def execHostWriteForward (s : State) : Out :=
  match s.host.posted.find? (·.fn == s.inp.fn) with
  | none => .next s
  | some w => match s.performHost w with
    | none => .next s
    | some t => .next { t with host := { t.host with posted := t.host.posted.erase w } }

/-- UNSUPPORTED_REQUEST (R36). -/
def execUnsupportedRequest (s : State) : Out :=
  .next { s with host := { s.host with unsupported := s.host.unsupported + 1 } }
/-- FNERR_WRITE (R39). -/
def execFnerrWrite (s : State) : Out := s.postC (fnOf s.inp.part) 0x10 s.inp.word
/-- LQCFG_WRITE (R41). -/
def execLqcfgWrite (s : State) : Out := s.postC (fnOf s.inp.part) (qOff s.inp.queue 0x08) s.inp.word
/-- LQPI_WRITE (R42). -/
def execLqpiWrite (s : State) : Out := s.postC (fnOf s.inp.part) (qOff s.inp.queue 0x10) s.inp.word
/-- SKIP (R43). -/
def execSkip (s : State) : Out := s.postC (fnOf s.inp.part) (qOff s.inp.queue 0x38) 1

/-- REGISTER_WRITE: a control register (04_spaces R75), a register of window C, or a structure of firmware's: a
routing or membership entry (02_fabric R23, R30), a job key, the pages kept for migration (15_copy R339). -/
def execRegisterWrite (s : State) : Out :=
  let v := s.inp.word
  match s.inp.rtarget with
  | .control pa => .next (s.regWrite (pa.toNat / 8 * 8) v)
  | .windowC f off => s.postC f (off.toNat / 8 * 8) v
  | .route d bank dim i => .next (s.onFab d fun f => { f with
      routes := (bank, dim, i, v.setWidth 16) :: f.routes.filter fun r => !(r.1 == bank && r.2.1 == dim && r.2.2.1 == i) })
  | .member d port i part valid => .next (s.onFab d fun f =>
      let rest := f.members.filter fun m => !(m.1 == port && m.2.1 == i)
      { f with members := if valid then (port, i, v.setWidth 32, part) :: rest else rest })
  | .jobKey p => .next (s.onPart p fun x => { x with jobKey := v.setWidth 32 })
  | .reserve p home => .next (s.onPart p fun x => { x with reserve := x.reserve ++ [(home, v.toNat)] })

/-! ### The reading of launch records (R43) -/

/-- A field of a record's bytes. -/
def recField (l : List Byte) (lo n : Nat) : Nat := leNat ((l.drop lo).take n)

/-- The check of a record: its error code or 0. DESIGN CHOICE (assumption 83): R43 gives no order among its checks; of
several that fail the lowest code of 3, 4 and 5 is the record's. -/
def State.recordErr (s : State) (p : PartId) (q : Fin 16) (k : Nat) (l : List Byte) : Nat :=
  let b := fun (i : Nat) => recField l i 1
  let nw := b 19
  let waits := (List.range 4).map fun i => recField l (24 + 8 * i) 8
  if 7 < b 16 ∨ 3 < b 17 ∨ 1 < b 18 ∨ 4 < nw ∨ recField l 20 4 ≠ 0 ∨ (waits.drop nw).any (· != 0) ∨
      (b 18 = 1 ∧ !(s.partAt p).tt) then 3
  else if !(s.sched.graphs.any fun g => g.handle == recField l 0 8 && g.part == p) then 4
  else if (waits.take nw).any fun w =>
      let j := toQ (fld w 63 60)
      !(s.queueAt p j).en || (j == q && k ≤ fld w 59 0) then 5
  else 0

/-- LAUNCH_RECORD_READ (R43): the scheduler of die E reads the next record of a queue. -/
def execLaunchRecordRead (s : State) : Out :=
  let p := s.inp.part
  let q := s.inp.queue
  let x := s.queueAt p q
  if !x.en ∨ x.halt.isSome ∨ x.pi.toNat ≤ x.ci.toNat then .next s
  else
    let k := x.ci.toNat + 1
    let va := x.base + .ofNat 64 (64 * ((k - 1) % 2 ^ x.log2n.toNat))
    match s.trOffset p va.toNat .hostRead .e .walk with
    | .held | .walk _ => .next s
    | .fault _ _ => .next (s.haltQueue p q k 6 0)
    | .ok a =>
      let l := span a.place 64
      if 2 ^ 80 ≤ a.place ∨ !s.mayAccess 0x320 p .hostRead a ∨ (s.poisonRead l).isSome then
        .next (s.haltQueue p q k 6 0)
      else
        let b := l.map s.readByte
        let e := s.recordErr p q k b
        let tag : W := .ofNat 64 (recField b 56 8)
        if e ≠ 0 then .next (s.haltQueue p q k e tag)
        else .next (s.onQueue p q fun x => { x with
          ci := .ofNat 64 k
          recs := x.recs ++ [{
            k := k, graph := .ofNat 64 (recField b 0 8), args := .ofNat 64 (recField b 8 8), prio := recField b 16 1
            redun := recField b 17 1, tt := recField b 18 1 == 1
            waits := ((List.range (recField b 19 1)).map fun i => recField b (24 + 8 * i) 8).map fun w =>
              (fld w 63 60, fld w 59 0)
            tag := tag, started := false, failed := false, ended := false }] })

/-! ### Resets of functions (R49) -/

/-- A function-level reset of a VF. -/
def State.flr (s : State) (p : PartId) : State := (s.quiesce p).onVf p fun _ => Vf.reset

/-- VF_FLR. -/
def execVfFlr (s : State) : Out := .next (s.flr s.inp.part)
/-- PF_FLR. -/
def execPfFlr (s : State) : Out := .next ((List.finRange 8).foldl State.flr s)

end Sys2Proof.Machine
end

