-- ==== Sys2Proof/Machine/Scalar.lean ====
section
/-!
DEFINITION. The S operations: integer arithmetic, immediates, compares, loads and stores, fences, control
registers, the cycle counter (14_scalar R288 to R302).
-/

namespace Sys2Proof.Machine

/-! ### Arithmetic (R291, R292) -/

/-- A function of the one source, or of the two. -/
def one (f : W → W) : List W → W
  | [x] => f x
  | _ => 0
def two (f : W → W → W) : List W → W
  | [x, y] => f x y
  | _ => 0
def three (f : W → W → W → W) : List W → W
  | [x, y, z] => f x y z
  | _ => 0
def rel1 (f : W → Bool) : List W → Bool
  | [x] => f x
  | _ => false
def rel2 (f : W → W → Bool) : List W → Bool
  | [x, y] => f x y
  | _ => false

/-- Bits [127:64] of the signed and of the unsigned product. -/
def mulhS (x y : W) : W := .ofInt 64 (x.toInt * y.toInt / 2 ^ 64)
def mulhN (x y : W) : W := .ofNat 64 (x.toNat * y.toNat / 2 ^ 64)

/-- Quotient and remainder (R292): signed truncates toward zero; a zero divisor gives all ones and x. -/
def divS (x y : W) : W := if y = 0 then -1 else .ofInt 64 (x.toInt.tdiv y.toInt)
def remS (x y : W) : W := if y = 0 then x else .ofInt 64 (x.toInt.tmod y.toInt)
def divN (x y : W) : W := if y = 0 then -1 else .ofNat 64 (x.toNat / y.toNat)
def remN (x y : W) : W := if y = 0 then x else .ofNat 64 (x.toNat % y.toNat)

/-- A shift amount: bits [5:0]. -/
def amt (y : W) : Nat := y.toNat % 64
def sll (x y : W) : W := x <<< amt y
def srl (x y : W) : W := x >>> amt y
def sra (x y : W) : W := x.sshiftRight (amt y)

def bit64 (b : Bool) : W := if b then 1 else 0

/-- Leading zeros, trailing zeros, set bits, 0 to 64. -/
def clz64 (x : W) : W := .ofNat 64 (((List.range 64).takeWhile fun i => !x.getLsbD (63 - i)).length)
def ctz64 (x : W) : W := .ofNat 64 (((List.range 64).takeWhile fun i => !x.getLsbD i).length)
def popc64 (x : W) : W := .ofNat 64 (((List.range 64).filter fun i => x.getLsbD i).length)
/-- Byte i of the result is byte 7 − i. -/
def bswap64 (x : W) : W := .ofNat 64 (leNat (leBytes 8 x.toNat).reverse)

/-- s.add (R291). -/
def execSAdd (d : BitVec 6) (a b : Src) (s : State) : Out :=
  sRun (.sAdd d a b) [a.reg, b.reg] d (two fun x y => x + y) s

/-- s.sub (R291). -/
def execSSub (d : BitVec 6) (a b : Src) (s : State) : Out :=
  sRun (.sSub d a b) [a.reg, b.reg] d (two fun x y => x - y) s

/-- s.mul (R291). -/
def execSMul (d : BitVec 6) (a b : Src) (s : State) : Out :=
  sRun (.sMul d a b) [a.reg, b.reg] d (two fun x y => x * y) s

/-- s.mulh (R291). -/
def execSMulh (d : BitVec 6) (a b : Src) (s : State) : Out :=
  sRun (.sMulh d a b) [a.reg, b.reg] d (two fun x y => mulhS x y) s

/-- s.mulhn (R291). -/
def execSMulhn (d : BitVec 6) (a b : Src) (s : State) : Out :=
  sRun (.sMulhn d a b) [a.reg, b.reg] d (two fun x y => mulhN x y) s

/-- s.div (R292). -/
def execSDiv (d : BitVec 6) (a b : Src) (s : State) : Out :=
  sRun (.sDiv d a b) [a.reg, b.reg] d (two fun x y => divS x y) s

/-- s.divn (R292). -/
def execSDivn (d : BitVec 6) (a b : Src) (s : State) : Out :=
  sRun (.sDivn d a b) [a.reg, b.reg] d (two fun x y => divN x y) s

/-- s.rem (R292). -/
def execSRem (d : BitVec 6) (a b : Src) (s : State) : Out :=
  sRun (.sRem d a b) [a.reg, b.reg] d (two fun x y => remS x y) s

/-- s.remn (R292). -/
def execSRemn (d : BitVec 6) (a b : Src) (s : State) : Out :=
  sRun (.sRemn d a b) [a.reg, b.reg] d (two fun x y => remN x y) s

/-- s.and (R291). -/
def execSAnd (d : BitVec 6) (a b : Src) (s : State) : Out :=
  sRun (.sAnd d a b) [a.reg, b.reg] d (two fun x y => x &&& y) s

/-- s.or (R291). -/
def execSOr (d : BitVec 6) (a b : Src) (s : State) : Out :=
  sRun (.sOr d a b) [a.reg, b.reg] d (two fun x y => x ||| y) s

/-- s.xor (R291). -/
def execSXor (d : BitVec 6) (a b : Src) (s : State) : Out :=
  sRun (.sXor d a b) [a.reg, b.reg] d (two fun x y => x ^^^ y) s

/-- s.andn (R291). -/
def execSAndn (d : BitVec 6) (a b : Src) (s : State) : Out :=
  sRun (.sAndn d a b) [a.reg, b.reg] d (two fun x y => x &&& ~~~y) s

/-- s.sll (R291). -/
def execSSll (d : BitVec 6) (a b : Src) (s : State) : Out :=
  sRun (.sSll d a b) [a.reg, b.reg] d (two fun x y => sll x y) s

/-- s.srl (R291). -/
def execSSrl (d : BitVec 6) (a b : Src) (s : State) : Out :=
  sRun (.sSrl d a b) [a.reg, b.reg] d (two fun x y => srl x y) s

/-- s.sra (R291). -/
def execSSra (d : BitVec 6) (a b : Src) (s : State) : Out :=
  sRun (.sSra d a b) [a.reg, b.reg] d (two fun x y => sra x y) s

/-- s.min (R291). -/
def execSMin (d : BitVec 6) (a b : Src) (s : State) : Out :=
  sRun (.sMin d a b) [a.reg, b.reg] d (two fun x y => if x.slt y then x else y) s

/-- s.max (R291). -/
def execSMax (d : BitVec 6) (a b : Src) (s : State) : Out :=
  sRun (.sMax d a b) [a.reg, b.reg] d (two fun x y => if x.slt y then y else x) s

/-- s.minn (R291). -/
def execSMinn (d : BitVec 6) (a b : Src) (s : State) : Out :=
  sRun (.sMinn d a b) [a.reg, b.reg] d (two fun x y => if x.ult y then x else y) s

/-- s.maxn (R291). -/
def execSMaxn (d : BitVec 6) (a b : Src) (s : State) : Out :=
  sRun (.sMaxn d a b) [a.reg, b.reg] d (two fun x y => if x.ult y then y else x) s

/-- s.slt (R291). -/
def execSSlt (d : BitVec 6) (a b : Src) (s : State) : Out :=
  sRun (.sSlt d a b) [a.reg, b.reg] d (two fun x y => bit64 (x.slt y)) s

/-- s.sltn (R291). -/
def execSSltn (d : BitVec 6) (a b : Src) (s : State) : Out :=
  sRun (.sSltn d a b) [a.reg, b.reg] d (two fun x y => bit64 (x.ult y)) s

/-- s.sel (R291): d is read, then written. -/
def execSSel (d : BitVec 6) (a b : Src) (s : State) : Out :=
  sRun (.sSel d a b) [a.reg, b.reg, d] d (three fun x y z => if z ≠ 0 then x else y) s

/-- s.mov (R291). -/
def execSMov (d : BitVec 6) (a : Src) (s : State) : Out :=
  sRun (.sMov d a) [a.reg] d (one fun x => x) s

/-- s.clz (R291). -/
def execSClz (d : BitVec 6) (a : Src) (s : State) : Out :=
  sRun (.sClz d a) [a.reg] d (one fun x => clz64 x) s

/-- s.ctz (R291). -/
def execSCtz (d : BitVec 6) (a : Src) (s : State) : Out :=
  sRun (.sCtz d a) [a.reg] d (one fun x => ctz64 x) s

/-- s.popc (R291). -/
def execSPopc (d : BitVec 6) (a : Src) (s : State) : Out :=
  sRun (.sPopc d a) [a.reg] d (one fun x => popc64 x) s

/-- s.bswap (R291). -/
def execSBswap (d : BitVec 6) (a : Src) (s : State) : Out :=
  sRun (.sBswap d a) [a.reg] d (one fun x => bswap64 x) s

/-! ### Immediate forms (R293) -/

/-- s.addi (R293). -/
def execSAddi (d : BitVec 6) (a : Src) (i : BitVec 8) (s : State) : Out :=
  sRun (.sAddi d a i) [a.reg] d (one fun x => x + s.imm i) s

/-- s.muli (R293). -/
def execSMuli (d : BitVec 6) (a : Src) (i : BitVec 8) (s : State) : Out :=
  sRun (.sMuli d a i) [a.reg] d (one fun x => x * s.imm i) s

/-- s.andi (R293). -/
def execSAndi (d : BitVec 6) (a : Src) (i : BitVec 8) (s : State) : Out :=
  sRun (.sAndi d a i) [a.reg] d (one fun x => x &&& s.imm i) s

/-- s.ori (R293). -/
def execSOri (d : BitVec 6) (a : Src) (i : BitVec 8) (s : State) : Out :=
  sRun (.sOri d a i) [a.reg] d (one fun x => x ||| s.imm i) s

/-- s.xori (R293). -/
def execSXori (d : BitVec 6) (a : Src) (i : BitVec 8) (s : State) : Out :=
  sRun (.sXori d a i) [a.reg] d (one fun x => x ^^^ s.imm i) s

/-- s.slli (R293). -/
def execSSlli (d : BitVec 6) (a : Src) (i : BitVec 6) (s : State) : Out :=
  sRun (.sSlli d a i) [a.reg] d (one fun x => x <<< i.toNat) s

/-- s.srli (R293). -/
def execSSrli (d : BitVec 6) (a : Src) (i : BitVec 6) (s : State) : Out :=
  sRun (.sSrli d a i) [a.reg] d (one fun x => x >>> i.toNat) s

/-- s.srai (R293). -/
def execSSrai (d : BitVec 6) (a : Src) (i : BitVec 6) (s : State) : Out :=
  sRun (.sSrai d a i) [a.reg] d (one fun x => x.sshiftRight i.toNat) s

/-- s.slti (R293). -/
def execSSlti (d : BitVec 6) (a : Src) (i : BitVec 8) (s : State) : Out :=
  sRun (.sSlti d a i) [a.reg] d (one fun x => bit64 (x.slt (s.imm i))) s

/-- s.sltni (R293). -/
def execSSltni (d : BitVec 6) (a : Src) (i : BitVec 8) (s : State) : Out :=
  sRun (.sSltni d a i) [a.reg] d (one fun x => bit64 (x.ult (s.imm i))) s

/-- s.lih (R293). -/
def execSLih (d : BitVec 6) (a : Src) (i : BitVec 8) (s : State) : Out :=
  sRun (.sLih d a i) [a.reg] d (one fun x => (x &&& 0xFFFFFFFF#64) + (s.imm i <<< 32)) s

/-- s.li (R293): no source. -/
def execSLi (d : BitVec 6) (i : BitVec 8) (s : State) : Out :=
  sRun (.sLi d i) [] d (fun _ => s.imm i) s

/-! ### Compares (R294) -/

/-- s.cmp.eq (R294). -/
def execSCmpEq (p : BitVec 3) (a b : Src) (s : State) : Out :=
  pRun (.sCmpEq p a b) [a.reg, b.reg] p (rel2 fun x y => x == y) s

/-- s.cmp.ne (R294). -/
def execSCmpNe (p : BitVec 3) (a b : Src) (s : State) : Out :=
  pRun (.sCmpNe p a b) [a.reg, b.reg] p (rel2 fun x y => x != y) s

/-- s.cmp.lt (R294). -/
def execSCmpLt (p : BitVec 3) (a b : Src) (s : State) : Out :=
  pRun (.sCmpLt p a b) [a.reg, b.reg] p (rel2 fun x y => x.slt y) s

/-- s.cmp.ge (R294). -/
def execSCmpGe (p : BitVec 3) (a b : Src) (s : State) : Out :=
  pRun (.sCmpGe p a b) [a.reg, b.reg] p (rel2 fun x y => !x.slt y) s

/-- s.cmp.ltn (R294). -/
def execSCmpLtn (p : BitVec 3) (a b : Src) (s : State) : Out :=
  pRun (.sCmpLtn p a b) [a.reg, b.reg] p (rel2 fun x y => x.ult y) s

/-- s.cmp.gen (R294). -/
def execSCmpGen (p : BitVec 3) (a b : Src) (s : State) : Out :=
  pRun (.sCmpGen p a b) [a.reg, b.reg] p (rel2 fun x y => !x.ult y) s

/-- s.cmpi.eq (R294). -/
def execSCmpiEq (p : BitVec 3) (a : Src) (i : BitVec 8) (s : State) : Out :=
  pRun (.sCmpiEq p a i) [a.reg] p (rel1 fun x => x == s.imm i) s

/-- s.cmpi.ne (R294). -/
def execSCmpiNe (p : BitVec 3) (a : Src) (i : BitVec 8) (s : State) : Out :=
  pRun (.sCmpiNe p a i) [a.reg] p (rel1 fun x => x != s.imm i) s

/-- s.cmpi.lt (R294). -/
def execSCmpiLt (p : BitVec 3) (a : Src) (i : BitVec 8) (s : State) : Out :=
  pRun (.sCmpiLt p a i) [a.reg] p (rel1 fun x => x.slt (s.imm i)) s

/-- s.cmpi.ge (R294). -/
def execSCmpiGe (p : BitVec 3) (a : Src) (i : BitVec 8) (s : State) : Out :=
  pRun (.sCmpiGe p a i) [a.reg] p (rel1 fun x => !x.slt (s.imm i)) s

/-! ### Loads and stores (R295 to R297) -/

/-- Load of 1 byte (R295). -/
def execSLdB (d : BitVec 6) (a : Src) (i : BitVec 8) (s : State) : Out :=
  sLoad (.sLdB d a i) d a i 1 true false s

/-- Load of 1 byte (R295). -/
def execSLdBn (d : BitVec 6) (a : Src) (i : BitVec 8) (s : State) : Out :=
  sLoad (.sLdBn d a i) d a i 1 false false s

/-- Load of 2 bytes (R295). -/
def execSLdH (d : BitVec 6) (a : Src) (i : BitVec 8) (s : State) : Out :=
  sLoad (.sLdH d a i) d a i 2 true false s

/-- Load of 2 bytes (R295). -/
def execSLdHn (d : BitVec 6) (a : Src) (i : BitVec 8) (s : State) : Out :=
  sLoad (.sLdHn d a i) d a i 2 false false s

/-- Load of 4 bytes (R295). -/
def execSLdW (d : BitVec 6) (a : Src) (i : BitVec 8) (s : State) : Out :=
  sLoad (.sLdW d a i) d a i 4 true false s

/-- Load of 4 bytes (R295). -/
def execSLdWn (d : BitVec 6) (a : Src) (i : BitVec 8) (s : State) : Out :=
  sLoad (.sLdWn d a i) d a i 4 false false s

/-- Load of 8 bytes (R295). -/
def execSLdD (d : BitVec 6) (a : Src) (i : BitVec 8) (s : State) : Out :=
  sLoad (.sLdD d a i) d a i 8 true false s

/-- Acquire load of 4 bytes (R297). -/
def execSLdAcqW (d : BitVec 6) (a : Src) (i : BitVec 8) (s : State) : Out :=
  sLoad (.sLdAcqW d a i) d a i 4 true true s

/-- Acquire load of 8 bytes (R297). -/
def execSLdAcqD (d : BitVec 6) (a : Src) (i : BitVec 8) (s : State) : Out :=
  sLoad (.sLdAcqD d a i) d a i 8 true true s

/-- Store of 1 byte (R295). -/
def execSStB (d : BitVec 6) (a : Src) (i : BitVec 8) (s : State) : Out :=
  sStore (.sStB d a i) d a i 1 false s

/-- Store of 2 bytes (R295). -/
def execSStH (d : BitVec 6) (a : Src) (i : BitVec 8) (s : State) : Out :=
  sStore (.sStH d a i) d a i 2 false s

/-- Store of 4 bytes (R295). -/
def execSStW (d : BitVec 6) (a : Src) (i : BitVec 8) (s : State) : Out :=
  sStore (.sStW d a i) d a i 4 false s

/-- Store of 8 bytes (R295). -/
def execSStD (d : BitVec 6) (a : Src) (i : BitVec 8) (s : State) : Out :=
  sStore (.sStD d a i) d a i 8 false s

/-- Release store of 4 bytes (R297; a compare point of kind 0, 09_redundancy R182). -/
def execSStRelW (d : BitVec 6) (a : Src) (i : BitVec 8) (s : State) : Out :=
  sStore (.sStRelW d a i) d a i 4 true s

/-- Release store of 8 bytes (R297; a compare point of kind 0, 09_redundancy R182). -/
def execSStRelD (d : BitVec 6) (a : Src) (i : BitVec 8) (s : State) : Out :=
  sStore (.sStRelD d a i) d a i 8 true s

/-! ### Fences (R298) -/

/-- The fence stands from now: the accesses before it, and what it makes of later stores and earlier loads
(08_ordering R159, R161, R162). -/
def State.fence (s : State) (k : FenceKind) (sc : BitVec 3) : State :=
  let x := s.core
  let f : FenceSt := ⟨k, sc, (x.loads.filter fun r => !r.fixed).map (·.id), x.openIds⟩
  let acq := k != .rel
  let rel := k != .acq
  let s := if acq then s.scopeMiss x.readRels sc else s
  s.mapCore fun x => { x with
    fence := (x.fence.filter fun g => g.all.any x.openIds.contains) ++ [f]
    loads := if acq then x.loads.map fun r => { r with fences := r.fences ++ [sc] } else x.loads
    relFence := if rel then (match x.relFence with
      | some o => if o.toNat < sc.toNat then some sc else some o
      | none => some sc) else x.relFence }

/-- s.fence (R298); kinds rel, acqrel and sc are compare points of kind 0. -/
def execSFence (k : FenceKind) (sc : BitVec 3) (s : State) : Out :=
  withReady (.sFence k sc) (fun s =>
    if k = .acq then .next (s.fence k sc) else comparePoint 0 (fun s => .next (s.fence k sc)) s) s

/-! ### Control registers (R299 to R302) -/

/-- s.csrr. -/
def execSCsrr (d : BitVec 6) (c : BitVec 8) (s : State) : Out :=
  csrOp (.sCsrr d c) d c.toNat none (fun o _ => o) s

/-- s.csrw. -/
def execSCsrw (d : BitVec 6) (a : Src) (c : BitVec 8) (s : State) : Out :=
  csrOp (.sCsrw d a c) d c.toNat (some a) (fun _ v => v) s

/-- s.csrs. -/
def execSCsrs (d : BitVec 6) (a : Src) (c : BitVec 8) (s : State) : Out :=
  csrOp (.sCsrs d a c) d c.toNat (some a) (fun o v => o ||| v) s

/-- s.csrc. -/
def execSCsrc (d : BitVec 6) (a : Src) (c : BitVec 8) (s : State) : Out :=
  csrOp (.sCsrc d a c) d c.toNat (some a) (fun o v => o &&& ~~~v) s

/-- s.rdcyc: CYC in the issue cycle; forwarded to followers (R290). -/
def execSRdcyc (d : BitVec 6) (s : State) : Out :=
  withReady (.sRdcyc d) (fun s =>
    if s.follows then .next (s.awaitForward .s d 0)
    else
      let s := s.mapRegs fun r => r.setS d s.cyc
      .next (if s.leads then s.sendFwd (ofS s.cyc) else s)) s

end Sys2Proof.Machine
end

