-- ==== Sys2Proof/Machine/Dispatch.lean ====
section
/-!
DEFINITION. The meaning of every row of the table of operations and events: one call each.
-/

namespace Sys2Proof.Machine

def exec (i : Instr) (s : State) : Host.Outcome State Fault Refusal :=
  match i with
  | .sAdd d a b => Sys2Proof.Machine.execSAdd d a b s
  | .sSub d a b => Sys2Proof.Machine.execSSub d a b s
  | .sMul d a b => Sys2Proof.Machine.execSMul d a b s
  | .sMulh d a b => Sys2Proof.Machine.execSMulh d a b s
  | .sMulhn d a b => Sys2Proof.Machine.execSMulhn d a b s
  | .sDiv d a b => Sys2Proof.Machine.execSDiv d a b s
  | .sDivn d a b => Sys2Proof.Machine.execSDivn d a b s
  | .sRem d a b => Sys2Proof.Machine.execSRem d a b s
  | .sRemn d a b => Sys2Proof.Machine.execSRemn d a b s
  | .sAnd d a b => Sys2Proof.Machine.execSAnd d a b s
  | .sOr d a b => Sys2Proof.Machine.execSOr d a b s
  | .sXor d a b => Sys2Proof.Machine.execSXor d a b s
  | .sAndn d a b => Sys2Proof.Machine.execSAndn d a b s
  | .sSll d a b => Sys2Proof.Machine.execSSll d a b s
  | .sSrl d a b => Sys2Proof.Machine.execSSrl d a b s
  | .sSra d a b => Sys2Proof.Machine.execSSra d a b s
  | .sMin d a b => Sys2Proof.Machine.execSMin d a b s
  | .sMax d a b => Sys2Proof.Machine.execSMax d a b s
  | .sMinn d a b => Sys2Proof.Machine.execSMinn d a b s
  | .sMaxn d a b => Sys2Proof.Machine.execSMaxn d a b s
  | .sSlt d a b => Sys2Proof.Machine.execSSlt d a b s
  | .sSltn d a b => Sys2Proof.Machine.execSSltn d a b s
  | .sSel d a b => Sys2Proof.Machine.execSSel d a b s
  | .sMov d a => Sys2Proof.Machine.execSMov d a s
  | .sClz d a => Sys2Proof.Machine.execSClz d a s
  | .sCtz d a => Sys2Proof.Machine.execSCtz d a s
  | .sPopc d a => Sys2Proof.Machine.execSPopc d a s
  | .sBswap d a => Sys2Proof.Machine.execSBswap d a s
  | .sAddi d a im => Sys2Proof.Machine.execSAddi d a im s
  | .sMuli d a im => Sys2Proof.Machine.execSMuli d a im s
  | .sAndi d a im => Sys2Proof.Machine.execSAndi d a im s
  | .sOri d a im => Sys2Proof.Machine.execSOri d a im s
  | .sXori d a im => Sys2Proof.Machine.execSXori d a im s
  | .sSlli d a im => Sys2Proof.Machine.execSSlli d a im s
  | .sSrli d a im => Sys2Proof.Machine.execSSrli d a im s
  | .sSrai d a im => Sys2Proof.Machine.execSSrai d a im s
  | .sSlti d a im => Sys2Proof.Machine.execSSlti d a im s
  | .sSltni d a im => Sys2Proof.Machine.execSSltni d a im s
  | .sLi d im => Sys2Proof.Machine.execSLi d im s
  | .sLih d a im => Sys2Proof.Machine.execSLih d a im s
  | .sLdB d a im => Sys2Proof.Machine.execSLdB d a im s
  | .sLdBn d a im => Sys2Proof.Machine.execSLdBn d a im s
  | .sLdH d a im => Sys2Proof.Machine.execSLdH d a im s
  | .sLdHn d a im => Sys2Proof.Machine.execSLdHn d a im s
  | .sLdW d a im => Sys2Proof.Machine.execSLdW d a im s
  | .sLdWn d a im => Sys2Proof.Machine.execSLdWn d a im s
  | .sLdD d a im => Sys2Proof.Machine.execSLdD d a im s
  | .sStB d a im => Sys2Proof.Machine.execSStB d a im s
  | .sStH d a im => Sys2Proof.Machine.execSStH d a im s
  | .sStW d a im => Sys2Proof.Machine.execSStW d a im s
  | .sStD d a im => Sys2Proof.Machine.execSStD d a im s
  | .sLdAcqW d a im => Sys2Proof.Machine.execSLdAcqW d a im s
  | .sLdAcqD d a im => Sys2Proof.Machine.execSLdAcqD d a im s
  | .sStRelW d a im => Sys2Proof.Machine.execSStRelW d a im s
  | .sStRelD d a im => Sys2Proof.Machine.execSStRelD d a im s
  | .sCmpEq p a b => Sys2Proof.Machine.execSCmpEq p a b s
  | .sCmpNe p a b => Sys2Proof.Machine.execSCmpNe p a b s
  | .sCmpLt p a b => Sys2Proof.Machine.execSCmpLt p a b s
  | .sCmpGe p a b => Sys2Proof.Machine.execSCmpGe p a b s
  | .sCmpLtn p a b => Sys2Proof.Machine.execSCmpLtn p a b s
  | .sCmpGen p a b => Sys2Proof.Machine.execSCmpGen p a b s
  | .sCmpiEq p a im => Sys2Proof.Machine.execSCmpiEq p a im s
  | .sCmpiNe p a im => Sys2Proof.Machine.execSCmpiNe p a im s
  | .sCmpiLt p a im => Sys2Proof.Machine.execSCmpiLt p a im s
  | .sCmpiGe p a im => Sys2Proof.Machine.execSCmpiGe p a im s
  | .sFence k h => Sys2Proof.Machine.execSFence k h s
  | .sCsrr d c => Sys2Proof.Machine.execSCsrr d c s
  | .sCsrw d a c => Sys2Proof.Machine.execSCsrw d a c s
  | .sCsrs d a c => Sys2Proof.Machine.execSCsrs d a c s
  | .sCsrc d a c => Sys2Proof.Machine.execSCsrc d a c s
  | .sRdcyc d => Sys2Proof.Machine.execSRdcyc d s
  | .bBr o => Sys2Proof.Machine.execBBr o s
  | .bBp p n o => Sys2Proof.Machine.execBBp p n o s
  | .bJal o => Sys2Proof.Machine.execBJal o s
  | .bJr r => Sys2Proof.Machine.execBJr r s
  | .bLoop c o => Sys2Proof.Machine.execBLoop c o s
  | .bLoopi c o => Sys2Proof.Machine.execBLoopi c o s
  | .bTrap p n c => Sys2Proof.Machine.execBTrap p n c s
  | .bTask im b h => Sys2Proof.Machine.execBTask im b h s
  | .bSwap x => Sys2Proof.Machine.execBSwap x s
  | .bSleep r => Sys2Proof.Machine.execBSleep r s
  | .bPark m => Sys2Proof.Machine.execBPark m s
  | .vFadd d a b z => Sys2Proof.Machine.execVFadd d a b z s
  | .vFsub d a b z => Sys2Proof.Machine.execVFsub d a b z s
  | .vFmul d a b z => Sys2Proof.Machine.execVFmul d a b z s
  | .vFma d a b z => Sys2Proof.Machine.execVFma d a b z s
  | .vFms d a b z => Sys2Proof.Machine.execVFms d a b z s
  | .vFmin d a b z => Sys2Proof.Machine.execVFmin d a b z s
  | .vFmax d a b z => Sys2Proof.Machine.execVFmax d a b z s
  | .vFabs d a z => Sys2Proof.Machine.execVFabs d a z s
  | .vFneg d a z => Sys2Proof.Machine.execVFneg d a z s
  | .vFcmpEq k a b => Sys2Proof.Machine.execVFcmpEq k a b s
  | .vFcmpLt k a b => Sys2Proof.Machine.execVFcmpLt k a b s
  | .vFcmpLe k a b => Sys2Proof.Machine.execVFcmpLe k a b s
  | .vFcmpUn k a b => Sys2Proof.Machine.execVFcmpUn k a b s
  | .vAdd d a b z => Sys2Proof.Machine.execVAdd d a b z s
  | .vSub d a b z => Sys2Proof.Machine.execVSub d a b z s
  | .vMul d a b z => Sys2Proof.Machine.execVMul d a b z s
  | .vMulh d a b z => Sys2Proof.Machine.execVMulh d a b z s
  | .vMulhn d a b z => Sys2Proof.Machine.execVMulhn d a b z s
  | .vAnd d a b z => Sys2Proof.Machine.execVAnd d a b z s
  | .vOr d a b z => Sys2Proof.Machine.execVOr d a b z s
  | .vXor d a b z => Sys2Proof.Machine.execVXor d a b z s
  | .vAndn d a b z => Sys2Proof.Machine.execVAndn d a b z s
  | .vShl d a b z => Sys2Proof.Machine.execVShl d a b z s
  | .vShr d a b z => Sys2Proof.Machine.execVShr d a b z s
  | .vSra d a b z => Sys2Proof.Machine.execVSra d a b z s
  | .vMin d a b z => Sys2Proof.Machine.execVMin d a b z s
  | .vMax d a b z => Sys2Proof.Machine.execVMax d a b z s
  | .vMinn d a b z => Sys2Proof.Machine.execVMinn d a b z s
  | .vMaxn d a b z => Sys2Proof.Machine.execVMaxn d a b z s
  | .vAbs d a z => Sys2Proof.Machine.execVAbs d a z s
  | .vIcmpEq k a b => Sys2Proof.Machine.execVIcmpEq k a b s
  | .vIcmpLt k a b => Sys2Proof.Machine.execVIcmpLt k a b s
  | .vIcmpLtn k a b => Sys2Proof.Machine.execVIcmpLtn k a b s
  | .vAddsat d a b z => Sys2Proof.Machine.execVAddsat d a b z s
  | .vSubsat d a b z => Sys2Proof.Machine.execVSubsat d a b z s
  | .vMov d a z => Sys2Proof.Machine.execVMov d a z s
  | .vSel d a b z => Sys2Proof.Machine.execVSel d a b z s
  | .vBcast d a z => Sys2Proof.Machine.execVBcast d a z s
  | .vIns d a b z => Sys2Proof.Machine.execVIns d a b z s
  | .vExt d a b z => Sys2Proof.Machine.execVExt d a b z s
  | .vIota d z => Sys2Proof.Machine.execVIota d z s
  | .vPerm d a b z => Sys2Proof.Machine.execVPerm d a b z s
  | .vRot d a b z => Sys2Proof.Machine.execVRot d a b z s
  | .vZip d a b z => Sys2Proof.Machine.execVZip d a b z s
  | .vUnzip d a b z => Sys2Proof.Machine.execVUnzip d a b z s
  | .vCvt d a f z => Sys2Proof.Machine.execVCvt d a f z s
  | .vWiden d a q f z => Sys2Proof.Machine.execVWiden d a q f z s
  | .vNarrow d a q f z => Sys2Proof.Machine.execVNarrow d a q f z s
  | .vPack6 d a z => Sys2Proof.Machine.execVPack6 d a z s
  | .vUnpack6 d a z => Sys2Proof.Machine.execVUnpack6 d a z s
  | .vPackq4 d a z => Sys2Proof.Machine.execVPackq4 d a z s
  | .vUnpackq4 d a z => Sys2Proof.Machine.execVUnpackq4 d a z s
  | .vSetfmt a => Sys2Proof.Machine.execVSetfmt a s
  | .vRadd d a z => Sys2Proof.Machine.execVRadd d a z s
  | .vRmax d a z => Sys2Proof.Machine.execVRmax d a z s
  | .vRmin d a z => Sys2Proof.Machine.execVRmin d a z s
  | .vRfadd d a z => Sys2Proof.Machine.execVRfadd d a z s
  | .vRfmax d a z => Sys2Proof.Machine.execVRfmax d a z s
  | .vRfmin d a z => Sys2Proof.Machine.execVRfmin d a z s
  | .vScanAdd d a z => Sys2Proof.Machine.execVScanAdd d a z s
  | .vScanFadd d a z => Sys2Proof.Machine.execVScanFadd d a z s
  | .vRcp d a z => Sys2Proof.Machine.execVRcp d a z s
  | .vRsqrt d a z => Sys2Proof.Machine.execVRsqrt d a z s
  | .vSqrt d a z => Sys2Proof.Machine.execVSqrt d a z s
  | .vExp2 d a z => Sys2Proof.Machine.execVExp2 d a z s
  | .vLog2 d a z => Sys2Proof.Machine.execVLog2 d a z s
  | .vTanh d a z => Sys2Proof.Machine.execVTanh d a z s
  | .vErf d a z => Sys2Proof.Machine.execVErf d a z s
  | .vLd d a o z => Sys2Proof.Machine.execVLd d a o z s
  | .vSt d a o => Sys2Proof.Machine.execVSt d a o s
  | .vLdx d a b z => Sys2Proof.Machine.execVLdx d a b z s
  | .vStx d a b => Sys2Proof.Machine.execVStx d a b s
  | .vLds d a b z => Sys2Proof.Machine.execVLds d a b z s
  | .vSts d a b => Sys2Proof.Machine.execVSts d a b s
  | .vRda d a n z => Sys2Proof.Machine.execVRda d a n z s
  | .vWra d a n => Sys2Proof.Machine.execVWra d a n s
  | .vAdda d a n => Sys2Proof.Machine.execVAdda d a n s
  | .vQpop d q z => Sys2Proof.Machine.execVQpop d q z s
  | .vQpush q a => Sys2Proof.Machine.execVQpush q a s
  | .vKand d a b => Sys2Proof.Machine.execVKand d a b s
  | .vKor d a b => Sys2Proof.Machine.execVKor d a b s
  | .vKxor d a b => Sys2Proof.Machine.execVKxor d a b s
  | .vKnot d a => Sys2Proof.Machine.execVKnot d a s
  | .vKpopc d k => Sys2Proof.Machine.execVKpopc d k s
  | .vKfirst d k => Sys2Proof.Machine.execVKfirst d k s
  | .vKset k a => Sys2Proof.Machine.execVKset k a s
  | .vLred d a h t z => Sys2Proof.Machine.execVLred d a h t z s
  | .vLpick d a b z => Sys2Proof.Machine.execVLpick d a b z s
  | .vLbcast d a t z => Sys2Proof.Machine.execVLbcast d a t z s
  | .mCall c => Sys2Proof.Machine.execMCall c s
  | .mSetp p h => Sys2Proof.Machine.execMSetp p h s
  | .mGetp p d => Sys2Proof.Machine.execMGetp p d s
  | .mZacc n => Sys2Proof.Machine.execMZacc n s
  | .mUld n h f => Sys2Proof.Machine.execMUld n h f s
  | .mGang c => Sys2Proof.Machine.execMGang c s
  | .cCopy c => Sys2Proof.Machine.execCCopy c s
  | .cCopyi c => Sys2Proof.Machine.execCCopyi c s
  | .cGath c => Sys2Proof.Machine.execCGath c s
  | .cScat c => Sys2Proof.Machine.execCScat c s
  | .cFill c => Sys2Proof.Machine.execCFill c s
  | .cPref c => Sys2Proof.Machine.execCPref c s
  | .cRelay c => Sys2Proof.Machine.execCRelay c s
  | .cDecomp c => Sys2Proof.Machine.execCDecomp c s
  | .cAccAdd c => Sys2Proof.Machine.execCAccAdd c s
  | .cAccFadd c => Sys2Proof.Machine.execCAccFadd c s
  | .cAccMax c => Sys2Proof.Machine.execCAccMax c s
  | .cAccMin c => Sys2Proof.Machine.execCAccMin c s
  | .cAccOr c => Sys2Proof.Machine.execCAccOr c s
  | .cAccAnd c => Sys2Proof.Machine.execCAccAnd c s
  | .cFopAdd c => Sys2Proof.Machine.execCFopAdd c s
  | .cFopMin c => Sys2Proof.Machine.execCFopMin c s
  | .cFopMax c => Sys2Proof.Machine.execCFopMax c s
  | .cFopAnd c => Sys2Proof.Machine.execCFopAnd c s
  | .cFopOr c => Sys2Proof.Machine.execCFopOr c s
  | .cFopXor c => Sys2Proof.Machine.execCFopXor c s
  | .cFopSwap c => Sys2Proof.Machine.execCFopSwap c s
  | .cFopCas c => Sys2Proof.Machine.execCFopCas c s
  | .cGet c => Sys2Proof.Machine.execCGet c s
  | .cPut c => Sys2Proof.Machine.execCPut c s
  | .cKvput c => Sys2Proof.Machine.execCKvput c s
  | .cKvapp c => Sys2Proof.Machine.execCKvapp c s
  | .cKvinv c => Sys2Proof.Machine.execCKvinv c s
  | .cRecast n p v q h => Sys2Proof.Machine.execCRecast n p v q h s
  | .cSbar p v q x y w => Sys2Proof.Machine.execCSbar p v q x y w s
  | .cMigr c => Sys2Proof.Machine.execCMigr c s
  | .qQcfg x a => Sys2Proof.Machine.execQQcfg x a s
  | .qQpush x a => Sys2Proof.Machine.execQQpush x a s
  | .qQpop x d => Sys2Proof.Machine.execQQpop x d s
  | .qQpeek x d im => Sys2Proof.Machine.execQQpeek x d im s
  | .qQcnt x d => Sys2Proof.Machine.execQQcnt x d s
  | .qTlwait t a => Sys2Proof.Machine.execQTlwait t a s
  | .qTlsig a => Sys2Proof.Machine.execQTlsig a s
  | .qTlrd t d => Sys2Proof.Machine.execQTlrd t d s
  | .qTlwaitx d a => Sys2Proof.Machine.execQTlwaitx d a s
  | .qBar m h => Sys2Proof.Machine.execQBar m h s
  | .qSlack a => Sys2Proof.Machine.execQSlack a s
  | .qFin d => Sys2Proof.Machine.execQFin d s
  | .qFout d a => Sys2Proof.Machine.execQFout d a s
  | .qPromise t d a => Sys2Proof.Machine.execQPromise t d a s
  | .qLift t a => Sys2Proof.Machine.execQLift t a s
  | .qLmask a => Sys2Proof.Machine.execQLmask a s
  | .uLda l => Sys2Proof.Machine.execULda l s
  | .uLdb l => Sys2Proof.Machine.execULdb l s
  | .uLdk l => Sys2Proof.Machine.execULdk l s
  | .uLdv l => Sys2Proof.Machine.execULdv l s
  | .uMma a b k => Sys2Proof.Machine.execUMma a b k s
  | .uStep d im => Sys2Proof.Machine.execUStep d im s
  | .uLoop c l => Sys2Proof.Machine.execULoop c l s
  | .uGate q n => Sys2Proof.Machine.execUGate q n s
  | .uPop q n => Sys2Proof.Machine.execUPop q n s
  | .uPush q p => Sys2Proof.Machine.execUPush q p s
  | .uScale b p => Sys2Proof.Machine.execUScale b p s
  | .uChk b => Sys2Proof.Machine.execUChk b s
  | .uWb p f => Sys2Proof.Machine.execUWb p f s
  | .uSig p => Sys2Proof.Machine.execUSig p s
  | .bTret => Sys2Proof.Machine.execBTret s
  | .bDone => Sys2Proof.Machine.execBDone s
  | .bYield => Sys2Proof.Machine.execBYield s
  | .bTrig => Sys2Proof.Machine.execBTrig s
  | .bJoin => Sys2Proof.Machine.execBJoin s
  | .qFrame => Sys2Proof.Machine.execQFrame s
  | .qIfence => Sys2Proof.Machine.execQIfence s
  | .qLend => Sys2Proof.Machine.execQLend s
  | .uEndl => Sys2Proof.Machine.execUEndl s
  | .uEnd => Sys2Proof.Machine.execUEnd s
  | .boot => Sys2Proof.Machine.execBoot s
  | .thermalAlarm => Sys2Proof.Machine.execThermalAlarm s
  | .thermalShutdown => Sys2Proof.Machine.execThermalShutdown s
  | .thermalRecovery => Sys2Proof.Machine.execThermalRecovery s
  | .hbmRowRepair => Sys2Proof.Machine.execHbmRowRepair s
  | .fabricLaneFailure => Sys2Proof.Machine.execFabricLaneFailure s
  | .correctableError => Sys2Proof.Machine.execCorrectableError s
  | .freezeEnd => Sys2Proof.Machine.execFreezeEnd s
  | .wordPoisoned => Sys2Proof.Machine.execWordPoisoned s
  | .flitReplay => Sys2Proof.Machine.execFlitReplay s
  | .routerPacketArrive => Sys2Proof.Machine.execRouterPacketArrive s
  | .creditReturn => Sys2Proof.Machine.execCreditReturn s
  | .hedgeQueueAssign => Sys2Proof.Machine.execHedgeQueueAssign s
  | .hedgeQueueRelease => Sys2Proof.Machine.execHedgeQueueRelease s
  | .congestionNotice => Sys2Proof.Machine.execCongestionNotice s
  | .hedgeReleaseNotice => Sys2Proof.Machine.execHedgeReleaseNotice s
  | .readRequest => Sys2Proof.Machine.execReadRequest s
  | .writeRequest => Sys2Proof.Machine.execWriteRequest s
  | .accumulateRequest => Sys2Proof.Machine.execAccumulateRequest s
  | .fetchOpRequest => Sys2Proof.Machine.execFetchOpRequest s
  | .readResponse => Sys2Proof.Machine.execReadResponse s
  | .completionAcknowledgement => Sys2Proof.Machine.execCompletionAcknowledgement s
  | .relayData => Sys2Proof.Machine.execRelayData s
  | .inboxWord => Sys2Proof.Machine.execInboxWord s
  | .inboxRefusal => Sys2Proof.Machine.execInboxRefusal s
  | .outboxResend => Sys2Proof.Machine.execOutboxResend s
  | .outboxSend => Sys2Proof.Machine.execOutboxSend s
  | .requestTimeout => Sys2Proof.Machine.execRequestTimeout s
  | .relayOpenRetry => Sys2Proof.Machine.execRelayOpenRetry s
  | .relayStallTimeout => Sys2Proof.Machine.execRelayStallTimeout s
  | .fabctlWrite => Sys2Proof.Machine.execFabctlWrite s
  | .registerWrite => Sys2Proof.Machine.execRegisterWrite s
  | .windowDRead => Sys2Proof.Machine.execWindowDRead s
  | .windowDWrite => Sys2Proof.Machine.execWindowDWrite s
  | .hostWriteForward => Sys2Proof.Machine.execHostWriteForward s
  | .unsupportedRequest => Sys2Proof.Machine.execUnsupportedRequest s
  | .fnerrWrite => Sys2Proof.Machine.execFnerrWrite s
  | .lqcfgWrite => Sys2Proof.Machine.execLqcfgWrite s
  | .lqpiWrite => Sys2Proof.Machine.execLqpiWrite s
  | .skip => Sys2Proof.Machine.execSkip s
  | .launchRecordRead => Sys2Proof.Machine.execLaunchRecordRead s
  | .recordStart => Sys2Proof.Machine.execRecordStart s
  | .vfFlr => Sys2Proof.Machine.execVfFlr s
  | .pfFlr => Sys2Proof.Machine.execPfFlr s
  | .owner => Sys2Proof.Machine.execOwner s
  | .install => Sys2Proof.Machine.execInstall s
  | .revoke => Sys2Proof.Machine.execRevoke s
  | .accessTableWrite => Sys2Proof.Machine.execAccessTableWrite s
  | .partmapWrite => Sys2Proof.Machine.execPartmapWrite s
  | .signatureVerifyEnd => Sys2Proof.Machine.execSignatureVerifyEnd s
  | .xlatinvWrite => Sys2Proof.Machine.execXlatinvWrite s
  | .xlatinvComplete => Sys2Proof.Machine.execXlatinvComplete s
  | .rangeEntryWrite => Sys2Proof.Machine.execRangeEntryWrite s
  | .pageWalkDone => Sys2Proof.Machine.execPageWalkDone s
  | .streamReadDeliver => Sys2Proof.Machine.execStreamReadDeliver s
  | .streamReadTimeout => Sys2Proof.Machine.execStreamReadTimeout s
  | .recastDrainEnd => Sys2Proof.Machine.execRecastDrainEnd s
  | .recastRewriteEnd => Sys2Proof.Machine.execRecastRewriteEnd s
  | .migrationPolicy => Sys2Proof.Machine.execMigrationPolicy s
  | .migrationPortsClosed => Sys2Proof.Machine.execMigrationPortsClosed s
  | .migrationCopyDone => Sys2Proof.Machine.execMigrationCopyDone s
  | .movedCompletion => Sys2Proof.Machine.execMovedCompletion s
  | .kvgeomWrite => Sys2Proof.Machine.execKvgeomWrite s
  | .kvqlognWrite => Sys2Proof.Machine.execKvqlognWrite s
  | .kvqrelWrite => Sys2Proof.Machine.execKvqrelWrite s
  | .poolManagerRequest => Sys2Proof.Machine.execPoolManagerRequest s
  | .graphLoad => Sys2Proof.Machine.execGraphLoad s
  | .dispatchDecision => Sys2Proof.Machine.execDispatchDecision s
  | .freeCoreSummary => Sys2Proof.Machine.execFreeCoreSummary s
  | .poolMove => Sys2Proof.Machine.execPoolMove s
  | .placementReserve => Sys2Proof.Machine.execPlacementReserve s
  | .nodeStart => Sys2Proof.Machine.execNodeStart s
  | .taskPoolInsert => Sys2Proof.Machine.execTaskPoolInsert s
  | .rollCallComplete => Sys2Proof.Machine.execRollCallComplete s
  | .watchdogExpiry => Sys2Proof.Machine.execWatchdogExpiry s
  | .stampOverrun => Sys2Proof.Machine.execStampOverrun s
  | .trapEntry => Sys2Proof.Machine.execTrapEntry s
  | .engineFaultReport => Sys2Proof.Machine.execEngineFaultReport s
  | .forcedSwap => Sys2Proof.Machine.execForcedSwap s
  | .swapQuiesceEnd => Sys2Proof.Machine.execSwapQuiesceEnd s
  | .swapResume => Sys2Proof.Machine.execSwapResume s
  | .dumpWritten => Sys2Proof.Machine.execDumpWritten s
  | .dumpackWrite => Sys2Proof.Machine.execDumpackWrite s
  | .halfRetentionEntry => Sys2Proof.Machine.execHalfRetentionEntry s
  | .retentionExitEnd => Sys2Proof.Machine.execRetentionExitEnd s
  | .producerFill => Sys2Proof.Machine.execProducerFill s
  | .loadDataReturn => Sys2Proof.Machine.execLoadDataReturn s
  | .writeAcknowledgement => Sys2Proof.Machine.execWriteAcknowledgement s
  | .compareVerdict => Sys2Proof.Machine.execCompareVerdict s
  | .forwardedValueArrive => Sys2Proof.Machine.execForwardedValueArrive s
  | .engineCommandStart => Sys2Proof.Machine.execEngineCommandStart s
  | .slackStallRelease => Sys2Proof.Machine.execSlackStallRelease s
  | .promiseWrite => Sys2Proof.Machine.execPromiseWrite s
  | .copyRequestIssue => Sys2Proof.Machine.execCopyRequestIssue s
  | .copyCommandComplete => Sys2Proof.Machine.execCopyCommandComplete s
  | .sleepWake => Sys2Proof.Machine.execSleepWake s
  | .tsUpdateArrive => Sys2Proof.Machine.execTsUpdateArrive s
  | .xbarArbitrate => Sys2Proof.Machine.execXbarArbitrate s
  | .xbarwtWrite => Sys2Proof.Machine.execXbarwtWrite s
  | .sliceTakePacket => Sys2Proof.Machine.execSliceTakePacket s
  | .sliceReadData => Sys2Proof.Machine.execSliceReadData s
  | .sliceWriteComplete => Sys2Proof.Machine.execSliceWriteComplete s
  | .sliceRefreshStart => Sys2Proof.Machine.execSliceRefreshStart s
  | .sliceRefreshEnd => Sys2Proof.Machine.execSliceRefreshEnd s
  | .matrixCallStart => Sys2Proof.Machine.execMatrixCallStart s
  | .matrixRowComplete => Sys2Proof.Machine.execMatrixRowComplete s
  | .matrixCallComplete => Sys2Proof.Machine.execMatrixCallComplete s
  | .zaccComplete => Sys2Proof.Machine.execZaccComplete s
  | .uldComplete => Sys2Proof.Machine.execUldComplete s
  | .getpWrite => Sys2Proof.Machine.execGetpWrite s

end Sys2Proof.Machine
end

