-- ==== Sys2Proof/Machine/Latency.lean ====
section
/-!
DEFINITION. When a group may issue and what it delays: the fixed latencies of 10_core R195 and 21_vector R388, the
hold of their readers and writers (R195, R196), and the cycles after which the group behind it issues (R193, R194;
14_scalar R304, R308, R315; 16_sync R356).
-/

namespace Sys2Proof.Machine

/-- The latency of a cascade stage (21_vector R392). -/
def stageLatency (n : Nat) : Nat :=
  match n with
  | 0 => 0
  | 3 | 8 => 5
  | 11 | 12 | 13 | 14 | 15 => 2
  | _ => 4

/-- The latency of an operation's result (10_core R195, 21_vector R388); a load's is that from local scratch, since a
load from elsewhere marks its destination until the data returns. -/
def latency (i : Instr) (k : Option Casc) : Nat :=
  let own := match i with
    | .sMul .. | .sMuli .. | .sMulh .. | .sMulhn .. => 3
    | .sDiv .. | .sDivn .. | .sRem .. | .sRemn .. => 16
    | .sLdB .. | .sLdBn .. | .sLdH .. | .sLdHn .. | .sLdW .. | .sLdWn .. | .sLdD .. | .sLdAcqW .. | .sLdAcqD .. => 4
    | .qQpop .. | .qQpeek .. => 4
    | .vLd .. | .vLdx .. | .vLds .. | .vQpop .. => 6
    | .vFmul .. | .vFma .. | .vFms .. | .vMul .. | .vMulh .. | .vMulhn .. => 5
    | .vFabs .. | .vFneg .. | .vAnd .. | .vOr .. | .vXor .. | .vAndn .. | .vShl .. | .vShr .. | .vSra .. => 2
    | .vMov .. | .vSel .. | .vBcast .. | .vIns .. | .vExt .. | .vIota .. | .vPerm .. | .vRot .. | .vZip .. | .vUnzip .. => 2
    | .vPack6 .. | .vUnpack6 .. | .vLpick .. | .vLbcast .. => 2
    | .vKand .. | .vKor .. | .vKxor .. | .vKnot .. | .vKpopc .. | .vKfirst .. | .vKset .. => 2
    | .vFadd .. | .vFsub .. | .vFmin .. | .vFmax .. | .vAdd .. | .vSub .. | .vMin .. | .vMax .. | .vMinn .. | .vMaxn ..
    | .vAbs .. | .vAddsat .. | .vSubsat .. => 4
    | .vFcmpEq .. | .vFcmpLt .. | .vFcmpLe .. | .vFcmpUn .. | .vIcmpEq .. | .vIcmpLt .. | .vIcmpLtn .. => 4
    | .vCvt .. | .vWiden .. | .vNarrow .. | .vPackq4 .. | .vUnpackq4 .. | .vRda .. | .vWra .. | .vAdda .. => 4
    | .vQpush .. => 6
    | .vRadd .. | .vRmax .. | .vRmin .. | .vRfadd .. | .vRfmax .. | .vRfmin .. | .vScanAdd .. | .vScanFadd ..
    | .vLred .. => 8
    | _ => 1
  match k with
  | none => own
  | some c => own + stageLatency c.opB + stageLatency c.opC

/-- A register's result is still in flight at a cycle. -/
def Core.inFlight (x : Core) (now : W) (f : RegFile) (n : Nat) : Bool :=
  x.busy.any fun b => b.1 == f && b.2.1 == n && now.toNat < b.2.2.toNat

/-- An operation reads or writes a register whose result is in flight (R195, R196). -/
def Core.waitsFor (x : Core) (now : W) (o : Instr × OpCtx) : Bool :=
  let us := allUses o.1 o.2
  (us.any fun u => (x.members u.file u.n).any (x.inFlight now u.file)) ||
    (x.writes o.1 us).any fun d => x.inFlight now d.1 d.2

/-- The operations of the group that share the one vector or copy instance a degraded core has left (R194), each with
its place in their order: `shares` says which classes of slots share one. -/
def Group.turnOf (g : Group) (shares : Nat → Bool) (k : Nat) : Nat :=
  let kind := fun (o : Instr × OpCtx) => slotClass o.2.raw
  match g.ops[k]? with
  | none => 0
  | some o => if shares (kind o) then ((g.ops.take k).filter fun p => kind p == kind o).length else 0

/-- The cycles a group's operations take beyond the first on a degraded core (R194). -/
def Group.extra (g : Group) (shares : Nat → Bool) : Nat :=
  ((List.range g.ops.length).map (g.turnOf shares)).foldl max 0

/-- The cycles from a group's issue to the next group's: after a taken branch or jump, a return, a half swap, an
instruction fence. -/
def Group.gap (g : Group) (taken tret noLoop : Bool) : Nat :=
  (g.ops.map fun o => match o.1 with
    | .bSwap _ => 6
    | .qIfence => 8
    | .bJr _ => 4
    | .bTret => if tret then 4 else 1
    | .bBr _ | .bBp .. | .bJal _ => if taken then 3 else 1
    | .bLoop .. | .bLoopi .. => if noLoop then 3 else 1
    | _ => 1).foldl max 1

/-- The members of an operation's result, or of its sources when it has none. -/
def Core.span (x : Core) (i : Instr) (c : OpCtx) : Nat :=
  match destsOf i with
  | d :: _ => (x.members d.1 d.2).length
  | [] => x.lift.extent (x.useTags (allUses i c))

/-- The operation takes an entry in the queue of a vector instance (R205; 21_vector R398). -/
def takesVec (o : Instr × OpCtx) : Bool := slotClass o.2.raw == 2 && match o.1 with
  | .vSetfmt _ => false
  | _ => true

/-- The vector instance of a V operation: the one a degraded core has left (01_module R13), or its own. -/
def vecOf (lone : Bool) (c : OpCtx) : Fin 2 := if lone then 0 else Fin.ofNat 2 c.vinst

/-- A full queue of a vector instance holds the group (R205). -/
def Core.vecFull (x : Core) (now : W) (lone : Bool) (g : Group) : Bool :=
  g.ops.any fun o => takesVec o && decide (8 ≤ x.vecWaiting now (vecOf lone o.2))

/-- Operation k of the group enters its queue in its turn, and its results are in flight; member j of a vector result follows
j cycles later (21_vector R410). -/
def Core.launch (now : W) (g : Group) (shares : Nat → Bool) (x : Core) (k : Nat) : Core :=
  match g.ops[k]? with
  | none => x
  | some (i, c) =>
    let turn := g.turnOf shares k
    let (x, wait) := if takesVec (i, c) then x.startVec (vecOf (shares 2) c) (now + .ofNat 64 turn) (x.span i c) else (x, 0)
    let late := turn + wait
    let n := latency i c.casc + late
    let new := (destsOf i).flatMap fun d =>
      let ms := x.members d.1 d.2
      ((List.range ms.length).zip ms).filterMap fun m =>
        let n := n + (if slotClass c.raw = 2 then m.1 else 0)
        if 1 < n && x.fillOf d.1 m.2 == .full then some (d.1, m.2, now + .ofNat 64 n) else none
    -- a V operation that writes no register is in flight under the number 64, which is none
    let bare := if takesVec (i, c) ∧ (destsOf i).isEmpty ∧ 1 < n then [(RegFile.v, 64, now + .ofNat 64 (n + x.span i c - 1))] else []
    let mine := fun (f : PendFill) => (destsOf i).any fun d =>
      d.1 == .v && f.file == .v && (x.members d.1 d.2).contains f.reg.toNat
    { x with
      busy := x.busy ++ new ++ bare
      fills := if late = 0 then x.fills else x.fills.map fun f => if mine f then { f with due := f.due + .ofNat 64 late } else f }

/-- The results in flight once the group has issued, those written left out. -/
def Core.issued (x : Core) (now : W) (g : Group) (shares : Nat → Bool) : Core :=
  (List.range g.ops.length).foldl (Core.launch now g shares)
    { x with busy := x.busy.filter fun b => now.toNat < b.2.2.toNat }

end Sys2Proof.Machine
end

