-- ==== Sys2Proof/Machine/Issue.lean ====
section
/-!
DEFINITION. Issuing a group: fetch, the checks of 07_faults R128, the operations in group order, commit,
trap entry, the loop stack; the turns of the module's agents; and placing an instruction where the next step
fetches it.
-/

namespace Sys2Proof.Machine

/-! ### The group -/

/-- The operations of a group in order, each in its context; a stop stops. -/
def runOps : List (Instr × OpCtx) → State → Out
  | [], s => .next s
  | (i, c) :: r, s =>
    match exec i { s with issue := { s.issue with ctx := c } } with
    | .next t => runOps r t
    | o => o

/-- What stood before the group. -/
def Core.snapshot (x : Core) (now : W) : Before := ⟨x.csr, x.flagsSettled now, x.lift, x.queues⟩

/-- The state in which a group's operations execute. -/
def State.beginGroup (s : State) (g : Group) : State :=
  let x := s.core
  let s := s.mapCore fun x => { x.ageLocks with
    seq := { x.seq with npc := afterSlot x.seq.pc.half g.lastB g.lastS, skipSync := false } }
  { s with issue := { Issue.idle with
    opened := true, before := some (x.snapshot s.cyc), synced := x.seq.rolled || x.seq.skipSync } }

/-- The innermost entries whose body a taken branch leaves are popped (14_scalar R306). -/
def popLeft (b : Nat) : List LoopEnt → List LoopEnt
  | [] => []
  | e :: r => if e.start.bundle ≤ b ∧ b ≤ e.endB then e :: r else popLeft b r

/-- The loop stack and the next program point after a group whose last slot lies in bundle b (R306). -/
def loopEnd (b : Nat) (q : Seq) : Seq :=
  match q.loops with
  | [] => q
  | e :: r =>
    if b ≠ e.endB then q
    else if 1 < e.count.toNat then
      { q with npc := e.start, loops := { e with count := e.count - 1 } :: r }
    else { q with loops := r }

/-- The group has issued: branches and the loop stack move the program point, and a class C trap is taken after
it. -/
def State.commit (s : State) (g : Group) (prev : Option (BitVec 32 × BitVec 12)) (hm : Bool) : State :=
  let a := s.issue.after
  let red := s.issue.redirect
  let shares := fun k => (k == 2 && s.fw.lostVec.contains s.cur) || (k == 4 && s.fw.lostCopy.contains s.cur)
  let next := s.cyc + .ofNat 64 (g.gap red.isSome hm s.issue.noLoop + g.extra shares)
  let s := s.mapCore fun x =>
    let q := match red with
      | none => loopEnd g.lastB x.seq
      | some true => { x.seq with loops := popLeft x.seq.npc.bundle x.seq.loops }
      | some false => x.seq
    { x.issued s.cyc g shares with
      seq := { q with pc := q.npc, rolled := false, prev := prev.orElse fun _ => q.prev, next := next }
      redun := { x.redun with agreed := false, groups := x.redun.groups + 1 } }
  let s := { s with issue := Issue.idle }
  match a with
  | some t => s.trap t s.core.seq.pc
  | none => s

/-- A check of the group has failed: no operation takes effect, the failing operation of lowest index is
reported, every one is marked (R128, R129). Page walks asked for stay asked for. -/
def State.failGroup (s t : State) : State :=
  let s := { s with ms := { s.ms with walks := t.ms.walks } }
  let s := s.withSync
  let mask := t.issue.fails.foldl (fun m f => m ||| 2 ^ f.idx) 0
  match t.issue.fails.head? with
  | none => s
  | some f =>
    let lo := t.issue.fails.foldl (fun (a : Failure) b => if b.idx < a.idx then b else a) f
    let s := s.trap { lo.trap with mask := mask } s.core.seq.pc
    { s with issue := Issue.idle }

/-- Nothing has issued in this turn. -/
def State.waiting (s : State) : State := { s with issue := { Issue.idle with held := true } }

/-- The group holds: nothing changes but page walks asked for. -/
def State.holdGroup (s t : State) : State := { s with ms := { s.ms with walks := t.ms.walks } }.waiting

/-- The group is ready and arrives at a compare point: the records of its operations there are folded (09_redundancy R181,
R182). -/
def State.arrive (s t : State) (kind : Nat) : State :=
  (s.mapCore fun x => { x with redun := { x.redun with
    sig := t.issue.recs.foldl sigFold x.redun.sig, arrived := some (kind, none), since := s.cyc } }).waiting

/-- What a group's operations leave becomes the next state. -/
def State.finishGroup (s : State) (g : Group) (prev : Option (BitVec 32 × BitVec 12)) : Out → Out
  | .next t =>
    if t.issue.held then .next (s.holdGroup t)
    else if !t.issue.fails.isEmpty then .next (s.failGroup t)
    else match t.issue.compare with
      | some k => .next (s.arrive t k)
      | none => .next (t.commit g prev s.csr.hm)
  | o => o

/-! ### The checks before issue -/

/-- The operations charged with a fault of the sync check (R129, 16_sync R353): the q.bar, or every operation when a
header names the register. -/
def Group.syncMask (g : Group) : Nat :=
  match g.ops.findIdx? fun o => match o.1 with | .qBar .. => true | _ => false with
  | some i => 2 ^ i
  | none => 2 ^ g.ops.length - 1

/-- The group holds a V operation. -/
def Group.hasVector (g : Group) : Bool := g.ops.any fun o => slotClass o.2.raw == 2

/-- The group cannot issue: a register of one of its operations is in flight (10_core R195, R196), the queue of a vector
instance is full (R205), or the power controller delays its V operations (01_module R10). -/
def State.groupWaits (s : State) (g : Group) : Bool :=
  g.ops.any (s.core.waitsFor s.cyc) || s.core.vecFull s.cyc (s.fw.lostVec.contains s.cur) g ||
    (g.hasVector && s.throttledAt s.cur)

/-- The group's operations run. -/
def runGroup (g : Group) (prev : Option (BitVec 32 × BitVec 12)) (s : State) : Out :=
  if s.groupWaits g then .next s.waiting else s.finishGroup g prev (runOps g.ops (s.beginGroup g))

/-- A group before its stamp waits; at a compare point it arrives there as soon as it is ready, and issues once the compare
has agreed (09_redundancy R189). -/
def earlyGroup (g : Group) (s : State) : Out :=
  if s.csr.nrep.toNat ≤ 1 ∨ s.core.redun.agreed ∨ s.groupWaits g then .next s.waiting
  else match runOps g.ops (s.beginGroup g) with
    | .next t =>
      if t.issue.held ∨ !t.issue.fails.isEmpty then .next s.waiting
      else match t.issue.compare with
        | some k => .next (s.arrive t k)
        | none => .next s.waiting
    | o => o

/-- The group of the executing core issues, once its roll call and its stamp allow (R128, R193, R207). -/
def issueGroup (g : Group) (s : State) : Out :=
  let x := s.core
  let all := 2 ^ g.ops.length - 1
  let sync := if x.seq.rolled ∨ x.seq.skipSync then none else g.sync
  match sync with
  | some r =>
    let gm := x.regs.gm.get r.gm.toFin
    if !bitOf gm.toNat 8 then
      .next (s.stageTrap { code := 0x14, info := r.gm.setWidth 64, mask := g.syncMask })
    else .next (s.mapCore fun x => { x with
      seq := { x.seq with held := some (gm.setWidth 8, r.swap) }, locks := [] })
  | none =>
    let stamp := if x.csr.tt then g.stamp else none
    match stamp with
    | none => runGroup g none s
    | some st =>
      let t := timeTarget x.seq st
      if x.csr.flen.toNat < st.toNat then .next (s.withSync.stageTrap { x.csr.overrun st with mask := all })
      else match x.csr.timeNow t with
        | .lt => earlyGroup g s
        | .gt => .next (s.withSync.stageTrap { x.csr.overrun st with mask := all })
        | .eq => runGroup g (some t) s

/-- The sequencer of a core tries its next group: a trap that waits comes first (R135, R136); a debt above its
limit stalls issue (10_core R206). -/
def seqTurn (c : CoreId) (s : State) : Out :=
  let s := { s with cur := c, issue := Issue.idle }
  let x := s.core
  if !x.live then .next s.waiting
  else match x.dueTrap with
  | some (t, fwd) => .next (s.deliverTrap t fwd)
  | none =>
    if x.seq.held.isSome ∨ !s.behindLeader ∨ (!x.csr.tt ∧ x.csr.limit ≠ 0xFFFF ∧ x.csr.limit.toNat < x.csr.debt.toNat) ∨
        s.cyc.toNat < x.seq.next.toNat then
      .next s.waiting
    else match s.nextGroup with
      | .error v => .next (s.stageTrap { code := v.code, info := .ofNat 64 v.info, mask := v.mask })
      | .ok g =>
        let h := x.activeHalf
        let s := if h.stale.isEmpty then s else s.takeFree
        match h.poison.find? fun b => x.seq.pc.bundle ≤ b && b ≤ g.lastB with
        | some b => .next (s.stageTrap { code := 0x0B, info := .ofNat 64 b, mask := 2 ^ g.ops.length - 1 })
        | none => issueGroup g s

/-! ### Declared slack (10_core R206) -/

/-- The next group of a core is ready but for a cause outside the program, and holds a V operation. -/
def State.vectorWaits (s : State) (c : CoreId) : Bool :=
  let s := { s with cur := c }
  s.core.live && match s.nextGroup with
    | .ok g => g.hasVector && !g.ops.any (s.core.waitsFor s.cyc)
    | .error _ => false

/-- The head command of a queue of the core is ready and cannot start: power throttling, back-pressure at its desk port, a
translation miss, a bank held by another seat's window access (R206). DEDUCED (assumption 93): a command that runs and cannot
send its next request counts as the head, and so does a V operation that stands before the queue of its instance. -/
def State.stalledOutside (s : State) (c : CoreId) : Bool :=
  let x := s.coreAt c
  let held := x.bankq.filter fun r => r.unit == 6 && r.begun
  let sends := fun (k : CopyCtx) => k.run.any fun r => r.phase == .reqs && r.stop.isNone
  (s.throttledAt c && ((s.callCan c).isSome || s.vectorWaits c)) ||
  ((x.copy.toList.any sends) && !s.deskRoom c) ||
  ((s.ms.walks.any fun w => w.core == c && w.bad.isNone) && s.vectorWaits c) ||
  (held.any fun h => x.bankq.any fun r => r.bank == h.bank && r.unit != 6 && r.unit != 0 && decide (r.since.toNat ≤ s.cyc.toNat)) ||
  (!held.isEmpty && x.copy.toList.any fun k => k.run.any fun r => r.bank.isSome)

/-- DEBT of the cores that run nodes outside timetable mode, for n cycles. -/
def State.chargeDebt (n : Nat) (s : State) : State :=
  s.onCores (fun c x => x.node.inst.isSome && !x.csr.tt && s.stalledOutside c) fun x => x.onCsr fun k => { k with
    debt := .ofNat 32 (min (2 ^ 32 - 1) (k.debt.toNat + n)) }

/-! ### Turns -/

/-- The matrix engine of a core executes its next micro-word; a word that does not decode, or an index past the
store, stops the call with ILLEGAL_OP (23_matrix R435, R440). A library routine's words are taken together, by phases
(R441). -/
def microTurn (c : CoreId) (s : State) : Out :=
  let s := { s with cur := c, issue := Issue.idle }
  match s.microReady c with
  | none => .next s
  | some r =>
    if r.isLib then libPhase s
    else
      let at_ := (s.core.routineAt r.routine).1 + r.upc
      if 4095 < at_ then .next (s.microStop (illegalMicro 0))
      else
        let w := s.core.microWord at_
        match decodeMicro w with
        | .ok i => exec i s
        | .error _ => .next (s.microStop (illegalMicro w))

/-- One turn. -/
def takeTurn (t : Turn) (s : State) : Out :=
  match t with
  | .seq c => seqTurn c s
  | .micro c => microTurn c s
  | .ev i a => exec i { s with inp := a, issue := Issue.idle }
  | .plan k => .next { s with order := s.turnsOf k ++ s.order }
  | .tick n => .next ((s.chargeDebt n).tick n)
  | .window d => .next (s.takeWindows d)
  | .readC f off => .next (s.readC f off)
  | .power l => .next (s.throttle l)

/-- One step: the next turn that the state names; when it names none, the turns of the next cycle are laid out
(assumption 3) and the first is taken. -/
def nextStep (s : State) : Out :=
  match s.order with
  | t :: r => takeTurn t { s with order := r }
  | [] =>
    match s.round with
    | t :: r => takeTurn t { s with order := r }
    | [] => .next s

/-! ### Placing an instruction -/

/-- A group that ends: the slot whose G bit is set and that holds no operation (12_encoding R240). -/
def endSlot : Nat := 2 ^ 31

/-- State s with the 32-bit word w placed where the next step reads an instruction: as a slot, the first slot of
a group that ends with a NOP slot after it, in the active half of the executing core, which runs its next
turn; a word that is no slot but a micro-word, as the next micro-word of a running call (assumption 4). -/
def placeWord (s : State) (w : Nat) : State :=
  let isSlot := match decodeSlot (w % 2 ^ 32) with | .ok _ => true | .error _ => false
  let isMicro := match decodeMicro (w % 2 ^ 32) with | .ok _ => true | .error _ => false
  if !isSlot && isMicro then
    let c : CallFields := ⟨32, 0, false, 0, 0, false⟩
    let run := MRun.start ⟨.call c false, 1, 0, .replicate 8 0, .replicate 8 none, [], 0, (0, 0)⟩ s.cyc
    { s.mapCore fun x => { x with
        seq := { x.seq with mode := .running, freeze := 0 }
        matrix := { x.matrix with
          store := [(1024, .ofNat 32 w)], routines := [(32, 1024, 1)], run := some run } } with
      order := [.micro s.cur] }
  else
    let bundle : Bundle := .ofNat 128 (w % 2 ^ 32 + endSlot * 2 ^ 32)
    let s := s.mapCore fun x =>
      let i := halfIx x.seq.pc.half
      let h := x.halves.get i
      { x with
        halves := x.halves.set i.val { h with
          cells := h.cells.filter (·.1 < x.seq.pc.bundle) ++ (x.seq.pc.bundle, bundle) :: h.cells.filter (x.seq.pc.bundle < ·.1)
          stale := [], poison := [] } i.isLt
        seq := { x.seq with
          mode := .running, pc := { x.seq.pc with slot := 0 }, freeze := 0, next := s.cyc, held := none, pend := [] }
        busy := []
        redun := { x.redun with arrived := none } }
    { s with order := [.seq s.cur] }

end Sys2Proof.Machine
end

