-- ==== Sys2Proof/Machine/Step.lean ====
section
/-!
DEFINITION. One step of the module, and where a step fetches an instruction.
-/

namespace Sys2Proof.Machine

/-- One step. -/
def step (s : State) : Host.Outcome State Fault Refusal := nextStep s

/-- s with the instruction whose bits are w stored where `step` fetches its next instruction. -/
def State.withFetchWord (s : State) (_nbits w : Nat) : State := placeWord s w

end Sys2Proof.Machine
end

