-- ==== Sys2Proof/Safety.lean ====
section
/-!
DEFINITION. What the statements about the module take for granted of a state, and the invariant its steps keep.
-/

namespace Sys2Proof.Machine

/-! ### When an operation issues as one operation -/

/-- The registers an operation names are full, so that it issues (10_core R195 to R198). -/
abbrev State.allows (s : State) (i : Instr) : Prop :=
  s.readyFor i = .go

/-- The s registers named carry no tag (10_core R217). -/
abbrev State.plain (s : State) (l : List (BitVec 6)) : Prop := ∀ n ∈ l, s.regs.tagOf (sOpd n) = 0

/-- The operands named carry no tag. -/
abbrev State.plainOps (s : State) (l : List Opd) : Prop := ∀ o ∈ l, s.regs.tagOf o = 0

/-- The operation's mask (21_vector R384): the lent mask register, all ones under k0. -/
def State.maskNow (s : State) : KReg := s.regs.getK s.issue.ctx.mask

/-- An operation without tags executes: no lift level is active, or bit 0 of LMASK is set (10_core R219). -/
abbrev State.single (s : State) : Prop := s.lift.live 0 0 = true

/-! ### When a group issues (10_core R191, 12_encoding R239 to R242) -/

/-- The state in which the sequencer of core c takes its turn. -/
def State.atTurn (s : State) (c : CoreId) (l : List Turn) : State := { s with order := l, cur := c, issue := Issue.idle }

/-- Nothing keeps the sequencer of the executing core from its next group: it runs, no trap is due, it is held by no
roll call, compare point, frozen pipe or debt, and its half holds no poisoned or superseded bundle. -/
abbrev State.mayIssue (s : State) : Prop :=
  s.core.live = true ∧ s.core.dueTrap = none ∧ s.core.seq.held = none ∧ s.behindLeader = true ∧
  (s.csr.tt = true ∨ s.csr.limit = 0xFFFF ∨ s.csr.debt.toNat ≤ s.csr.limit.toNat) ∧
  s.core.seq.next.toNat ≤ s.cyc.toNat ∧ s.core.activeHalf.stale = [] ∧ s.core.activeHalf.poison = []

/-- A group of one slot, whose stop bit is set. -/
def loneGroup (i : Instr) (x : SlotAt) : Group :=
  { ops := [(i, ctxOf [x] 0 0 none x)]
    sync := match i with | .qBar m w => some ⟨m, w⟩ | _ => none
    stamp := none, lastB := x.b, lastS := x.s }

/-- The slot at the program point of the executing core. -/
def State.slotHere (s : State) : SlotAt :=
  let p := s.core.seq.pc
  ⟨p.bundle, p.slot, s.core.activeHalf.bundle p.bundle / 2 ^ (32 * p.slot) % 2 ^ 32⟩

/-- The control register of an operation, if it names one, is listed (R199). -/
def csrNamed : Instr → Bool
  | .sCsrr _ c | .sCsrw _ _ c | .sCsrs _ _ c | .sCsrc _ _ c => csrListed c.toNat
  | _ => true

/-! ### What every step keeps -/

/-- HBM, every core's scratch and every saved context's are in the canonical form: addresses rise strictly and no
listed byte is the one that an unlisted address reads as. -/
def State.Canonical (s : State) : Prop :=
  s.ms.mem.wf = true ∧ (∀ c, (s.coreAt c).scratch.wf = true) ∧ ∀ k ∈ s.satchels, k.ctx.scratch.wf = true

end Sys2Proof.Machine
end

