-- ==== Sys2Proof/Certificates/Slice0/Obligations.lean ====
section
/-!
DEFINITION. The statements about the module. Each says which rule of spec/ it formalises, or which entry of the
assumption log it rests on.
-/

open Sys2Proof Sys2Proof.Machine

/-! ### The S operations (14_scalar) -/

/-- What the tables of R291 to R293 give: the destination, the registers read, and the value from the values read;
`imm` is Imm(). -/
def scalarOp (imm : BitVec 8 → W) (i : Instr) : Option (BitVec 6 × List (BitVec 6) × (List W → W)) :=
  let bin := fun (d : BitVec 6) (a b : Src) (f : W → W → W) => some (d, [a.reg, b.reg], two f)
  let un := fun (d : BitVec 6) (a : Src) (f : W → W) => some (d, [a.reg], one f)
  match i with
  | .sAdd d a b => bin d a b fun x y => .ofNat 64 (x.toNat + y.toNat)
  | .sSub d a b => bin d a b fun x y => .ofInt 64 (x.toInt - y.toInt)
  | .sMul d a b => bin d a b fun x y => .ofNat 64 (x.toNat * y.toNat)
  | .sMulh d a b => bin d a b fun x y => .ofInt 64 (x.toInt * y.toInt / 2 ^ 64)
  | .sMulhn d a b => bin d a b fun x y => .ofNat 64 (x.toNat * y.toNat / 2 ^ 64)
  | .sDiv d a b => bin d a b fun x y => if y = 0 then -1 else .ofInt 64 (x.toInt.tdiv y.toInt)
  | .sDivn d a b => bin d a b fun x y => if y = 0 then BitVec.allOnes 64 else .ofNat 64 (x.toNat / y.toNat)
  | .sRem d a b => bin d a b fun x y => if y = 0 then x else .ofInt 64 (x.toInt.tmod y.toInt)
  | .sRemn d a b => bin d a b fun x y => if y = 0 then x else .ofNat 64 (x.toNat % y.toNat)
  | .sAnd d a b => bin d a b (· &&& ·)
  | .sOr d a b => bin d a b (· ||| ·)
  | .sXor d a b => bin d a b (· ^^^ ·)
  | .sAndn d a b => bin d a b fun x y => x &&& ~~~y
  | .sSll d a b => bin d a b fun x y => .ofNat 64 (x.toNat * 2 ^ (y.toNat % 64))
  | .sSrl d a b => bin d a b fun x y => .ofNat 64 (x.toNat / 2 ^ (y.toNat % 64))
  | .sSra d a b => bin d a b fun x y => .ofInt 64 (x.toInt / 2 ^ (y.toNat % 64))
  | .sMin d a b => bin d a b fun x y => .ofInt 64 (min x.toInt y.toInt)
  | .sMax d a b => bin d a b fun x y => .ofInt 64 (max x.toInt y.toInt)
  | .sMinn d a b => bin d a b fun x y => .ofNat 64 (min x.toNat y.toNat)
  | .sMaxn d a b => bin d a b fun x y => .ofNat 64 (max x.toNat y.toNat)
  | .sSlt d a b => bin d a b fun x y => if x.toInt < y.toInt then 1 else 0
  | .sSltn d a b => bin d a b fun x y => if x.toNat < y.toNat then 1 else 0
  | .sSel d a b => some (d, [a.reg, b.reg, d], three fun x y z => if z ≠ 0 then x else y)
  | .sMov d a => un d a id
  | .sClz d a => un d a clz64
  | .sCtz d a => un d a ctz64
  | .sPopc d a => un d a popc64
  | .sBswap d a => un d a bswap64
  | .sAddi d a k => un d a fun x => x + imm k
  | .sMuli d a k => un d a fun x => x * imm k
  | .sAndi d a k => un d a fun x => x &&& imm k
  | .sOri d a k => un d a fun x => x ||| imm k
  | .sXori d a k => un d a fun x => x ^^^ imm k
  | .sSlli d a k => un d a fun x => .ofNat 64 (x.toNat * 2 ^ k.toNat)
  | .sSrli d a k => un d a fun x => .ofNat 64 (x.toNat / 2 ^ k.toNat)
  | .sSrai d a k => un d a fun x => .ofInt 64 (x.toInt / 2 ^ k.toNat)
  | .sSlti d a k => un d a fun x => if x.toInt < (imm k).toInt then 1 else 0
  | .sSltni d a k => un d a fun x => if x.toNat < (imm k).toNat then 1 else 0
  | .sLih d a k => un d a fun x => .ofNat 64 (x.toNat % 2 ^ 32 + (imm k).toNat % 2 ^ 32 * 2 ^ 32)
  | .sLi d k => some (d, [], fun _ => imm k)
  | _ => none

/-- R291 to R293: each register and immediate operation, its sources untagged and its registers full, completes
with its value in the destination and with nothing else changed. -/
def Claim.ScalarResults : Prop :=
  ∀ (s : State) (i : Instr) (d : BitVec 6) (src : List (BitVec 6)) (f : List W → W),
    scalarOp s.imm i = some (d, src, f) → s.allows i → s.plain src → s.single →
    exec i s = .next (s.mapRegs fun r => r.setS d (f (src.map s.regs.getS)))

/-- R291, the counting operations: clz counts the zero bits above the highest one, ctz those below the lowest,
popc the ones, and byte i of bswap is byte 7 − i. -/
def Claim.CountingOperations : Prop :=
  ∀ x : W,
    ((clz64 x).toNat ≤ 64 ∧ (∀ i, i < 64 → 64 - (clz64 x).toNat ≤ i → x.getLsbD i = false) ∧
      ((clz64 x).toNat < 64 → x.getLsbD (63 - (clz64 x).toNat) = true)) ∧
    ((ctz64 x).toNat ≤ 64 ∧ (∀ i, i < (ctz64 x).toNat → x.getLsbD i = false) ∧
      ((ctz64 x).toNat < 64 → x.getLsbD (ctz64 x).toNat = true)) ∧
    (popc64 x).toNat = ((List.range 64).map fun i => (x.getLsbD i).toNat).sum ∧
    (∀ i, i < 8 → (bswap64 x).extractLsb' (8 * i) 8 = x.extractLsb' (8 * (7 - i)) 8)

/-- Div of R292: quotient and remainder of 64-bit values read as signed or not. -/
def divSpec (signed : Bool) (x y : W) : W × W :=
  if y = 0 then (if signed then -1 else .ofNat 64 (2 ^ 64 - 1), x)
  else if signed then
    if x = .ofInt 64 (-2 ^ 63) ∧ y = -1 then (.ofInt 64 (-2 ^ 63), 0)
    else
      let q := x.toInt.tdiv y.toInt
      (.ofInt 64 q, .ofInt 64 (x.toInt - q * y.toInt))
  else
    let q := x.toNat / y.toNat
    (.ofNat 64 q, .ofNat 64 (x.toNat - q * y.toNat))

/-- R292: division never traps; quotient and remainder are those of Div. -/
def Claim.DivisionNeverTraps : Prop :=
  ∀ (s : State) (d : BitVec 6) (a b : Src), s.plain [a.reg, b.reg] → s.single →
    let x := s.regs.getS a.reg
    let y := s.regs.getS b.reg
    (s.allows (.sDiv d a b) → exec (.sDiv d a b) s = .next (s.mapRegs fun r => r.setS d (divSpec true x y).1)) ∧
    (s.allows (.sRem d a b) → exec (.sRem d a b) s = .next (s.mapRegs fun r => r.setS d (divSpec true x y).2)) ∧
    (s.allows (.sDivn d a b) → exec (.sDivn d a b) s = .next (s.mapRegs fun r => r.setS d (divSpec false x y).1)) ∧
    (s.allows (.sRemn d a b) → exec (.sRemn d a b) s = .next (s.mapRegs fun r => r.setS d (divSpec false x y).2))

/-- What R294 gives a compare: the predicate, the registers read, the relation. -/
def compareResult (s : State) (i : Instr) : Option (BitVec 3 × List (BitVec 6) × Bool) :=
  let x := fun (a : Src) => s.regs.getS a.reg
  match i with
  | .sCmpEq p a b => some (p, [a.reg, b.reg], decide ((x a).toNat = (x b).toNat))
  | .sCmpNe p a b => some (p, [a.reg, b.reg], decide ((x a).toNat ≠ (x b).toNat))
  | .sCmpLt p a b => some (p, [a.reg, b.reg], decide ((x a).toInt < (x b).toInt))
  | .sCmpGe p a b => some (p, [a.reg, b.reg], decide ((x b).toInt ≤ (x a).toInt))
  | .sCmpLtn p a b => some (p, [a.reg, b.reg], decide ((x a).toNat < (x b).toNat))
  | .sCmpGen p a b => some (p, [a.reg, b.reg], decide ((x b).toNat ≤ (x a).toNat))
  | .sCmpiEq p a k => some (p, [a.reg], decide ((x a).toInt = (s.imm k).toInt))
  | .sCmpiNe p a k => some (p, [a.reg], decide ((x a).toInt ≠ (s.imm k).toInt))
  | .sCmpiLt p a k => some (p, [a.reg], decide ((x a).toInt < (s.imm k).toInt))
  | .sCmpiGe p a k => some (p, [a.reg], decide ((s.imm k).toInt ≤ (x a).toInt))
  | _ => none

/-- R294: each compare, its sources untagged and its registers full, writes its relation to the predicate and
changes nothing else; a write to p0 changes nothing. -/
def Claim.CompareResults : Prop :=
  (∀ (s : State) (i : Instr) (p : BitVec 3) (src : List (BitVec 6)) (v : Bool),
    compareResult s i = some (p, src, v) → s.allows i → s.plain src → s.single →
    exec i s = .next (s.mapRegs fun r => r.setP p v)) ∧
  ∀ (r : Regs) (v : Bool), r.setP 0 v = r

/-- R197: s0 reads 0, p0 true, k0 all ones; writes to them change nothing; any other register reads what was
written last to it, and a write makes it full, gives it its tag set, and leaves every other register, tag set and
full bit alone. -/
def Claim.RegisterFiles : Prop :=
  ∀ r : Regs,
    (r.getS 0 = 0 ∧ r.getP 0 = true ∧ r.getK 0 = BitVec.allOnes 1024) ∧
    (∀ v t, r.setS 0 v t = r) ∧ (∀ v t, r.setP 0 v t = r) ∧ (∀ v t, r.setK 0 v t = r) ∧
    (∀ n v t, n ≠ 0 → (r.setS n v t).getS n = v ∧ (r.setS n v t).statusS n = .full ∧
      (r.setS n v t).sTag.get n.toFin = t) ∧
    (∀ n m v t, n ≠ m → (r.setS n v t).getS m = r.getS m ∧ (r.setS n v t).statusS m = r.statusS m ∧
      (r.setS n v t).sTag.get m.toFin = r.sTag.get m.toFin) ∧
    (∀ n v t, (r.setS n v t).p = r.p ∧ (r.setS n v t).k = r.k ∧ (r.setS n v t).v = r.v ∧ (r.setS n v t).vst = r.vst ∧
      (r.setS n v t).pm = r.pm ∧ (r.setS n v t).gm = r.gm) ∧
    (∀ n v t, n ≠ 0 → (r.setP n v t).getP n = v) ∧
    (∀ n m v t, n ≠ m → (r.setP n v t).getP m = r.getP m) ∧
    (∀ n v t, (r.setP n v t).s = r.s ∧ (r.setP n v t).k = r.k ∧ (r.setP n v t).v = r.v) ∧
    (∀ n v t, n ≠ 0 → (r.setK n v t).getK n = v) ∧
    (∀ n m v t, n ≠ m → (r.setK n v t).getK m = r.getK m) ∧
    (∀ n v t, (r.setV n v t).getV n = v ∧ (r.setV n v t).statusV n = .full) ∧
    (∀ n m v t, n ≠ m → (r.setV n v t).getV m = r.getV m) ∧
    (∀ n v t, (r.setV n v t).s = r.s ∧ (r.setV n v t).k = r.k ∧ (r.setV n v t).p = r.p)

/-- R217, R219, R289: an operation of R291 to R293 under a lift. The result's tag set is the union of the sources'
tag sets; where no operand is misnamed under its extent, the operation answers a state in which every member of the
result that executes holds g of what its sources' members hold, every masked-off member keeps its value and takes
the tag set, and no other register and no other part of the state is changed. -/
def Claim.LiftedScalar : Prop :=
  ∀ (s : State) (i : Instr) (d : BitVec 6) (srcs : List (BitVec 6)) (g : List W → W),
    scalarOp s.imm i = some (d, srcs, g) → s.allows i →
    liftBad s.lift s.regs (srcs.map sOpd) (some (sOpd d)) (s.regs.tags (srcs.map sOpd)) = none →
    let ts := s.regs.tags (srcs.map sOpd)
    let val := fun m => g (srcs.map fun n => s.regs.getS (.ofNat 6 (memberOf s.lift s.regs ts (sOpd n) m)))
    ∃ r' : Regs, exec i s = .next (s.mapRegs fun _ => r') ∧
      (∀ m, m < s.lift.extent ts → d.toNat + m ≠ 0 → s.lift.live ts m = true →
        r'.getS (.ofNat 6 (d.toNat + m)) = val m ∧ r'.sTag.get (Fin.ofNat 64 (d.toNat + m)) = ts) ∧
      (∀ m, m < s.lift.extent ts → d.toNat + m ≠ 0 → s.lift.live ts m = false →
        r'.getS (.ofNat 6 (d.toNat + m)) = s.regs.getS (.ofNat 6 (d.toNat + m)) ∧
        r'.sTag.get (Fin.ofNat 64 (d.toNat + m)) = ts) ∧
      (∀ n : BitVec 6, (n.toNat < d.toNat ∨ d.toNat + s.lift.extent ts ≤ n.toNat) →
        r'.getS n = s.regs.getS n ∧ r'.statusS n = s.regs.statusS n ∧
        r'.sTag.get n.toFin = s.regs.sTag.get n.toFin) ∧
      r'.p = s.regs.p ∧ r'.k = s.regs.k ∧ r'.v = s.regs.v ∧ r'.vst = s.regs.vst ∧ r'.pm = s.regs.pm ∧
      r'.gm = s.regs.gm ∧ r'.pTag = s.regs.pTag ∧ r'.kTag = s.regs.kTag ∧ r'.vTag = s.regs.vTag ∧
      r'.pmTag = s.regs.pmTag
/-! ### Loads, stores and memory (14_scalar R295 to R297; 00_scope R3; 07_faults R141) -/

/-- The loads of R295 and R297: destination, base, immediate, size, sign extension, acquire. -/
def loadForm : Instr → Option (BitVec 6 × Src × BitVec 8 × Nat × Bool × Bool)
  | .sLdB d a k => some (d, a, k, 1, true, false)
  | .sLdBn d a k => some (d, a, k, 1, false, false)
  | .sLdH d a k => some (d, a, k, 2, true, false)
  | .sLdHn d a k => some (d, a, k, 2, false, false)
  | .sLdW d a k => some (d, a, k, 4, true, false)
  | .sLdWn d a k => some (d, a, k, 4, false, false)
  | .sLdD d a k => some (d, a, k, 8, true, false)
  | .sLdAcqW d a k => some (d, a, k, 4, true, true)
  | .sLdAcqD d a k => some (d, a, k, 8, true, true)
  | _ => none

/-- The stores: data register, base, immediate, size, release. -/
def storeForm : Instr → Option (BitVec 6 × Src × BitVec 8 × Nat × Bool)
  | .sStB d a k => some (d, a, k, 1, false)
  | .sStH d a k => some (d, a, k, 2, false)
  | .sStW d a k => some (d, a, k, 4, false)
  | .sStD d a k => some (d, a, k, 8, false)
  | .sStRelW d a k => some (d, a, k, 4, true)
  | .sStRelD d a k => some (d, a, k, 8, true)
  | _ => none

/-- The effective address of R295. -/
def effAddr (s : State) (a : Src) (k : BitVec 8) (n : Nat) : W := s.regs.getS a.reg + s.imm k * .ofNat 64 n

/-- The offset of a local scratch address, and the physical byte it names (04_spaces R60, 10_core R210). -/
def scratchOff (va : W) : Nat := va.toNat % 2 ^ 22
def scratchByte (s : State) (va : W) : Nat := s.core.scratchPhys (scratchOff va)

/-- An address of the core's own scratch (R60) whose bank no other unit has locked (R212), and whose n bytes are not
poisoned and are not those of a store on its way. -/
abbrev scratchFree (s : State) (unit : Nat) (va : W) (n : Nat) : Prop :=
  va.toNat / 2 ^ 61 = 5 ∧ va.toNat / 2 ^ 22 % 2 ^ 39 = 0 ∧ scratchOff va < 0x300000 ∧
  s.core.lockedFor unit (scratchOff va) = false ∧
  (∀ j, j < n → s.core.scratch.isPoisoned (scratchByte s va + j) = false) ∧
  ∀ b ∈ s.core.ownStores, b.1 < 2 ^ 45

/-- R295, R296: a load from the core's own scratch reads the bytes at its address, sign- or zero-extended as its
mnemonic says, at once; nothing else changes but the lock its prefix takes, the request at its banks (R209) and the count of accesses. -/
def Claim.ScratchLoads : Prop :=
  ∀ (s : State) (i : Instr) (d : BitVec 6) (a : Src) (k : BitVec 8) (n : Nat) (sx acq : Bool),
    loadForm i = some (d, a, k, n, sx, acq) → s.allows i → s.plain [a.reg] → s.single → s.core.memReady = true →
    (acq = true → ∀ q ∈ s.core.stores, q.rel = false) →
    (effAddr s a k n).toNat % n = 0 → scratchFree s 0 (effAddr s a k n) n →
    let v := s.core.scratch.num (scratchByte s (effAddr s a k n)) n
    let at_ := (List.range n).map (scratchOff (effAddr s a k n) + ·)
    exec i s = .next ({ (s.takeLock 0).useBanks 0 at_ [(.s, d.toNat)] with nextId := s.nextId + 1 }.mapRegs fun r =>
      r.setS d (if sx then (BitVec.ofNat (8 * n) v).signExtend 64 else (BitVec.ofNat (8 * n) v).setWidth 64))

/-- R295, R296, R170: a store to the core's own scratch writes the low bytes of its data register, lowest at the
effective address, at once: those bytes and no other byte of any memory change, and no register does. -/
def Claim.ScratchStores : Prop :=
  ∀ (s : State) (i : Instr) (d : BitVec 6) (a : Src) (k : BitVec 8) (n : Nat) (rel : Bool),
    storeForm i = some (d, a, k, n, rel) → s.allows i → s.plain [a.reg, d] → s.single → s.core.memReady = true →
    s.csr.nrep.toNat ≤ 1 → s.core.behindFence = [] → (rel = true → s.core.openIds = []) →
    (effAddr s a k n).toNat % n = 0 → scratchFree s 0 (effAddr s a k n) n →
    let at_ := scratchByte s (effAddr s a k n)
    ∃ t : State, exec i s = .next t ∧
      (∀ j, j < n → t.core.scratch.read (at_ + j) = (s.regs.getS d).extractLsb' (8 * j) 8) ∧
      (∀ x, x < at_ ∨ at_ + n ≤ x → t.core.scratch.read x = s.core.scratch.read x) ∧
      (∀ c, c ≠ s.cur → t.coreAt c = s.coreAt c) ∧ t.ms = s.ms ∧ t.cur = s.cur ∧
      t.regs = s.regs ∧ t.csr = s.csr ∧ t.core.acc = s.core.acc ∧ t.core.lift = s.core.lift ∧ t.core.seq = s.core.seq

/-- R295 step 1: an effective address that is no multiple of the size raises ALIGN_FAULT (code 3) with the address in
TRAPINFO, before translation: in a group the operation's failure is recorded, and nothing else happens. -/
def Claim.MisalignedAccess : Prop :=
  ∀ (s : State) (i : Instr) (a : Src) (k : BitVec 8) (n : Nat),
    ((∃ d sx acq, loadForm i = some (d, a, k, n, sx, acq) ∧ s.plain [a.reg]) ∨
      (∃ d rel, storeForm i = some (d, a, k, n, rel) ∧ s.plain [a.reg, d])) →
    s.allows i → s.single → s.core.memReady = true → s.csr.nrep.toNat ≤ 1 → s.issue.opened = true →
    (effAddr s a k n).toNat % n ≠ 0 →
    exec i s = .next { s with issue := { s.issue with
      fails := s.issue.fails ++ [⟨s.issue.ctx.idx, { code := 3, info := effAddr s a k n }⟩] } }

/-- An address under a role tag, 1 to 3: its accesses carry neither acquire nor release (08_ordering R169). -/
def roleTag (va : W) : Bool := decide (1 ≤ va.toNat / 2 ^ 61) && decide (va.toNat / 2 ^ 61 ≤ 3)

/-- R296, R297: a load that is admitted outside the core's own scratch, of bytes that no own store holds, answers a
state in which its destination waits for data, one load with its bytes, its size and its packets is on its way, and
every other register, the control registers and all of memory are as before. -/
def Claim.MemoryLoads : Prop :=
  ∀ (s : State) (i : Instr) (d : BitVec 6) (a : Src) (k : BitVec 8) (n : Nat) (sx acq : Bool) (l : Loc),
    loadForm i = some (d, a, k, n, sx, acq) → s.allows i → s.plain [a.reg] → s.single → s.core.memReady = true →
    (acq = true → ∀ q ∈ s.core.stores, q.rel = false) →
    s.csr.nrep.toNat ≤ 1 → (effAddr s a k n).toNat % n = 0 → s.passes (effAddr s a k n) .load = .go l → l.own = false →
    (∀ j, j < n → s.core.forwardOf (l.place + j) = none) → (∀ b ∈ s.core.ownStores, b.2.2 = 0xFF#8) →
    s.poisonRead ((List.range n).map (l.place + ·)) = none →
    ∃ (t : State) (r : LoadReq), exec i s = .next t ∧ t.core.loads = s.core.loads ++ [r] ∧
      r.dst = some (.s, d) ∧ r.bytes = (List.range n).map (fun j => (l.place + j, none)) ∧
      r.kind = .scalar n sx ∧ r.acq = (acq && !roleTag (effAddr s a k n)) ∧ r.left ≠ [] ∧
      t.regs = s.regs.mark .s d .await ∧ t.csr = s.csr ∧ t.ms = s.ms ∧ t.core.scratch = s.core.scratch ∧
      t.core.stores = s.core.stores ∧ ∀ c, c ≠ s.cur → t.coreAt c = s.coreAt c

/-- R296, 08_ordering R160: a store that is admitted outside the core's own scratch waits in the store buffer with its
bytes; no byte of memory and no register changes when it issues. -/
def Claim.MemoryStores : Prop :=
  ∀ (s : State) (i : Instr) (d : BitVec 6) (a : Src) (k : BitVec 8) (n : Nat) (rel : Bool) (l : Loc),
    storeForm i = some (d, a, k, n, rel) → s.allows i → s.plain [a.reg, d] → s.single → s.core.memReady = true →
    s.csr.nrep.toNat ≤ 1 → (effAddr s a k n).toNat % n = 0 → s.passes (effAddr s a k n) .store = .go l →
    l.own = false →
    s.poisonWrite ((List.range n).map fun j =>
      (l.place + j, (s.regs.getS d).extractLsb' (8 * j) 8, 0xFF#8)) = none →
    ∃ (t : State) (r : StoreReq), exec i s = .next t ∧
      t.core.stores.map (fun q => (q.id, q.bytes, q.rel, q.scope)) =
        s.core.stores.map (fun q => (q.id, q.bytes, q.rel, q.scope)) ++ [(r.id, r.bytes, r.rel, r.scope)] ∧
      r.bytes = (List.range n).map (fun j => (l.place + j, (s.regs.getS d).extractLsb' (8 * j) 8, 0xFF#8)) ∧
      r.rel = ((rel || s.core.relFence.isSome) && !roleTag (effAddr s a k n)) ∧
      t.regs = s.regs ∧ t.csr = s.csr ∧ t.ms = s.ms ∧ t.core.scratch = s.core.scratch ∧
      ∀ c, c ≠ s.cur → t.coreAt c = s.coreAt c

/-- Reading memory after a write: the byte written reads as written and every other byte as before, and a write keeps
the memory's canonical form (addresses strictly rising, no byte listed that reads as an unlisted one). -/
def Claim.MemoryReadAfterWrite : Prop :=
  ∀ (m : Memory) (a b : Nat) (v : Byte), m.wf = true →
    (m.write a v).read b = (if b = a then v else m.read b) ∧ (m.write a v).wf = true ∧
    (∀ m' : Memory, m'.wf = true → (∀ x, m'.read x = m.read x) → m'.poison = m.poison → m' = m)

/-- R141: a write that covers a whole poisoned word clears its poison; one that covers a part of it is refused by the
port (`partialPoison` names the word); words it does not touch keep theirs. -/
def Claim.PoisonedWords : Prop :=
  ∀ (m : Memory) (l : List (Nat × Byte × Byte)) (w : Nat), m.wf = true → w % 8 = 0 →
    ((m.poisonAt w).isPoisoned w = true) ∧
    (coversWord l w = true → (m.store l).isPoisoned w = false) ∧
    (coversWord l w = false → (m.store l).isPoisoned w = m.isPoisoned w) ∧
    (m.isPoisoned w = true → coversWord l w = false → (∃ x ∈ l, x.1 / 8 * 8 = w) → (m.partialPoison l).isSome = true)
/-! ### Fences, control registers, the cycle counter (14_scalar R298 to R302; 10_core R199 to R203) -/

/-- R298: a fence completes, changes no register and no memory, and stands with its kind, its scope, the loads without
a value and the accesses not performed before it; while it stands the next access waits as its kind says, and a store
after a fence of kind rel or acqrel is kept behind the accesses before the fence. -/
def Claim.FencesStand : Prop :=
  (∀ (s : State) (k : FenceKind) (sc : BitVec 3), s.allows (.sFence k sc) → (k = .acq ∨ s.csr.nrep.toNat ≤ 1) →
    ∃ (t : State) (f : FenceSt), exec (.sFence k sc) s = .next t ∧ f ∈ t.core.fence ∧ f.kind = k ∧ f.scope = sc ∧
      f.loads = (s.core.loads.filter fun r => !r.fixed).map (·.id) ∧ f.all = s.core.openIds ∧
      t.regs = s.regs ∧ t.ms = s.ms ∧ t.core.scratch = s.core.scratch ∧ t.core.stores = s.core.stores ∧
      ∀ c, c ≠ s.cur → t.coreAt c = s.coreAt c) ∧
  ∀ (x : Core) (f : FenceSt), f ∈ x.fence →
    (x.memReady = true → (f.kind = .acq ∨ f.kind = .acqrel) → ∀ n ∈ f.loads, n ∉ x.openIds) ∧
    (x.memReady = true → f.kind = .sc → ∀ n ∈ f.all, n ∉ x.openIds) ∧
    ((f.kind = .rel ∨ f.kind = .acqrel) → ∀ n ∈ f.all, n ∈ x.openIds → n ∈ x.behindFence)

/-- The operand and the new value of the control register operations of R299. -/
def csrForm : Instr → Option (BitVec 6 × BitVec 8 × Option (Src × (W → W → W)))
  | .sCsrr d c => some (d, c, none)
  | .sCsrw d a c => some (d, c, some (a, fun _ v => v))
  | .sCsrs d a c => some (d, c, some (a, fun o v => o ||| v))
  | .sCsrc d a c => some (d, c, some (a, fun o v => o &&& ~~~v))
  | _ => none

/-- R299, R301: csrr, csrw, csrs and csrc give sd the register's old value, which is the one before the group, untagged, and
write the value computed from it under the rules of its fields; FPFLAGS waits until the V operations and calls of the groups before
have completed. -/
def Claim.ControlRegisterOperations : Prop :=
  ∀ (s : State) (i : Instr) (d : BitVec 6) (c : BitVec 8) (o : Option (Src × (W → W → W))) (old : W),
    csrForm i = some (d, c, o) → s.allows i → s.plain (o.toList.map (·.1.reg)) → s.csr.nrep.toNat ≤ 1 →
    s.readCsr c.toNat = some old → (c = 7 → s.flagsSettled = true) →
    exec i s = .next ((match o with
      | some (a, f) => s.writeCsr c.toNat (f old (s.regs.getS a.reg))
      | none => s).mapRegs fun r => r.setS d old)

/-- R199, R299: a control register operation whose number R199 does not list raises ILLEGAL_OP (code 2); the listed
numbers are 0 to 0x14. -/
def Claim.UnlistedControlRegister : Prop :=
  (∀ (s : State) (n : Nat), (s.readCsr n).isSome = true ↔ n ≤ 0x14) ∧
  ∀ (s : State) (i : Instr) (d : BitVec 6) (c : BitVec 8) (o : Option (Src × (W → W → W))),
    csrForm i = some (d, c, o) → s.allows i → 0x14 < c.toNat → s.issue.opened = true →
    exec i s = .next { s with issue := { s.issue with
      fails := s.issue.fails ++ [⟨s.issue.ctx.idx, { code := 2, info := .ofNat 64 s.issue.ctx.raw }⟩] } }

/-- R200 to R203, R300, R301: what a write changes of STATUS, TVEC, TRAPPC, VFMT, FPFLAGS and PROFILE, field by field, and that
a write to any other register changes nothing; to a written FPFLAGS the flags join that V operations of the group raised. -/
def Claim.ControlRegisterFields : Prop :=
  ∀ (c : Csr) (v : W),
    (c.write 0 v = { c with
      xclr := v.extractLsb' 16 8, rvt := v.getLsbD 3, discard := c.discard && v.getLsbD 5
      scopemiss := c.scopemiss && v.getLsbD 4 }) ∧
    (∀ i, i < 64 → (c.write 1 v).tvec.getLsbD i = (v.getLsbD i && (i == 63 || (2 ≤ i && i ≤ 14)))) ∧
    (∀ i, i < 64 → (c.write 2 v).trappc.getLsbD i = (v.getLsbD i && i ≤ 14)) ∧
    (c.write 6 v = { c with
      fmt := if v.toNat % 32 ≤ 16 ∨ v.toNat % 32 = 25 then v.extractLsb' 0 5 else c.fmt
      rm := if v.toNat / 2 ^ 12 % 8 ≤ 4 then v.extractLsb' 12 3 else c.rm
      sat := v.getLsbD 15 }) ∧
    (c.write 7 v = { c with fpflags := v.extractLsb' 0 7 }) ∧
    (c.write 8 v = if v.toNat % 64 ≤ 11 then { c with profile := v.extractLsb' 0 6 } else c) ∧
    (∀ n, n ≠ 0 → n ≠ 1 → n ≠ 2 → n ≠ 6 → n ≠ 7 → n ≠ 8 → c.write n v = c) ∧
    ∀ (s : State) (n : Nat), s.writeCsr n v = s.mapCsr fun r => { r.write n v with
      fpflags := if n = 7 then v.extractLsb' 0 7 ||| s.issue.flags else r.fpflags }

/-- R200 to R203, R176, R301: where the fields of the registers stand that are kept as fields, read as they stood before the
group. -/
def Claim.ControlRegisterMaps : Prop :=
  ∀ (s : State),
    let c := s.csrWas
    (s.readCsr 0 = some (c.xclr.setWidth 64 <<< 16 ||| (if c.tt then 0x80 else 0) ||| (if c.deg then 0x40 else 0) |||
      (if c.discard then 0x20 else 0) ||| (if c.scopemiss then 0x10 else 0) ||| (if c.rvt then 8 else 0) |||
      (if c.hm then 4 else 0))) ∧
    (s.readCsr 6 = some ((if c.sat then 0x8000 else 0) ||| c.rm.setWidth 64 <<< 12 ||| c.fmt.setWidth 64)) ∧
    (s.readCsr 7 = some (c.fpflags.setWidth 64)) ∧ (s.readCsr 8 = some (c.profile.setWidth 64)) ∧
    (s.readCsr 9 = some (c.limit.setWidth 64 <<< 32 ||| c.debt.setWidth 64)) ∧
    (s.readCsr 0xA = some (c.fnum.setWidth 64 <<< 32 ||| c.flen.setWidth 64 <<< 16 ||| c.cnt.setWidth 64)) ∧
    (s.readCsr 0xB = some s.cyc) ∧
    (s.readCsr 0xC = some (c.part.setWidth 64 <<< 16 ||| c.prel.setWidth 64 <<< 8 ||| c.coreno.setWidth 64)) ∧
    (s.readCsr 0xD = some (c.nrep.setWidth 64 <<< 6 ||| c.self.setWidth 64 <<< 4 ||| c.lead.setWidth 64 <<< 2))

/-- R302: s.rdcyc writes CYC as it stands in the group's issue cycle. -/
def Claim.ReadCycleCounter : Prop :=
  ∀ (s : State) (d : BitVec 6), s.allows (.sRdcyc d) → s.csr.nrep.toNat ≤ 1 →
    exec (.sRdcyc d) s = .next (s.mapRegs fun r => r.setS d s.cyc)

/-! ### Groups and traps (07_faults R128 to R136) -/

/-- R128: when an operation of a group fails a check, no operation of the group takes effect: but for the trap that is
then taken (on a core whose handler is set and that is in no handler), no register file, queue, timeline, scratch byte,
accumulator or command queue of the core, no other core and no memory changes, whatever the operations had done. -/
def Claim.FailingGroupHasNoEffect : Prop :=
  ∀ (s t u : State) (g : Group) (prev : Option (BitVec 32 × BitVec 12)) (f : Failure),
    t.issue.held = false → t.issue.fails = [f] → t.cur = s.cur → s.csr.nrep.toNat ≤ 1 → s.csr.hm = false →
    bitOf s.csr.tvec.toNat 63 = true → f.trap.cls ≠ .f → f.trap.code ≠ 0x10 → s.core.fills = [] →
    s.finishGroup g prev (.next t) = .next u →
    u.regs = s.regs ∧ u.core.queues = s.core.queues ∧ u.core.tl = s.core.tl ∧ u.core.scratch = s.core.scratch ∧
    u.core.acc = s.core.acc ∧ u.core.copy = s.core.copy ∧ u.core.matrix = s.core.matrix ∧ u.core.lift = s.core.lift ∧
    u.ms.mem = s.ms.mem ∧ (∀ c, c ≠ s.cur → u.coreAt c = s.coreAt c) ∧ u.csr.hm = true ∧
    u.csr.trappc = s.core.seq.pc.word ∧ u.csr.trapinfo = f.trap.info ∧ u.csr.faultmask = .ofNat 64 (2 ^ f.idx % 64)

/-- R130, R134: taking a trap. With TVEC.V set, outside handler mode, a trap that is not of class F writes TRAPPC,
TRAPCAUSE (ASYNC, ENGINE, SYNCDONE, REASON, CODE), TRAPINFO and FAULTMASK, sets HM, and makes the group at TVEC's
bundle, slot 0, the next, at the earliest 6 cycles on; no register of the node is saved or changed. -/
def Claim.TrapEntry : Prop :=
  ∀ (s : State) (t : Trap) (pc : Pc), s.csr.hm = false → bitOf s.csr.tvec.toNat 63 = true → t.cls ≠ .f →
    s.core.fills = [] →
    let u := s.takeTrap t pc
    u.csr.trappc = pc.word ∧
    u.csr.trapcause = .ofNat 64 (b2n t.async * 2 ^ 63 + t.engine % 8 * 2 ^ 60 + b2n s.issue.synced * 2 ^ 59 +
      t.reason % 256 * 2 ^ 8 + t.code % 256) ∧
    u.csr.trapinfo = t.info ∧ u.csr.faultmask = .ofNat 64 (t.mask % 64) ∧ u.csr.hm = true ∧
    u.core.seq.pc = ⟨bitOf s.csr.tvec.toNat 14, s.csr.tvec.toNat / 4 % 4096, 0⟩ ∧ u.core.seq.npc = u.core.seq.pc ∧
    u.core.seq.next = s.cyc + 6 ∧ u.core.seq.savedLoops = s.core.seq.loops ∧ u.core.seq.loops = [] ∧
    u.csr.tvec = s.csr.tvec ∧ u.regs = s.regs ∧ u.core.lift = s.core.lift ∧ u.core.scratch = s.core.scratch ∧
    u.ms = s.ms ∧ ∀ c, c ≠ s.cur → u.coreAt c = s.coreAt c

/-- R135: a second trap in handler mode is DOUBLE_TRAP (code 0x1D): TRAPINFO holds the second trap's code, TRAPPC names
the handler's group, and the first trap's cause is in the chain of causes before it. -/
def Claim.DoubleTrap : Prop :=
  ∀ (s : State) (t : Trap) (pc : Pc), s.csr.hm = true → s.core.fills = [] →
    let u := s.takeTrap t pc
    u.csr.trapcause.toNat % 256 = 0x1D ∧ u.csr.trapinfo = .ofNat 64 t.code ∧ u.csr.trappc = s.core.seq.pc.word ∧
    ∃ a b, u.sched.causes = s.sched.causes ++ a :: b ∧ a.code = s.csr.trapcause.toNat % 256 ∧
      a.info = s.csr.trapinfo ∧ a.origin = s.cur.val

/-- R308, R131: b.tret. In handler mode HM is cleared, the group at TRAPPC is next, the loop stack comes back; outside
handler mode nothing changes. -/
def Claim.TrapReturn : Prop :=
  ∀ (s : State), s.allows .bTret →
    (s.csr.hm = false → exec .bTret s = .next s) ∧
    (s.csr.hm = true → ∃ t : State, exec .bTret s = .next t ∧ t.csr.hm = false ∧
      t.core.seq.npc = ⟨bitOf s.csr.trappc.toNat 14, s.csr.trappc.toNat / 4 % 4096, s.csr.trappc.toNat % 4⟩ ∧
      t.core.seq.loops = s.core.seq.savedLoops ∧ t.issue.redirect = some false ∧
      t.regs = s.regs ∧ t.core.lift = s.core.lift ∧ t.core.scratch = s.core.scratch ∧ t.ms = s.ms ∧
      t.csr.trapcause = s.csr.trapcause ∧ t.csr.trappc = s.csr.trappc ∧
      (bitOf s.csr.trapcause.toNat 63 = false → t.core.copy = s.core.copy ∧ t.core.matrix = s.core.matrix) ∧
      ∀ c, c ≠ s.cur → t.coreAt c = s.coreAt c)

/-- R131: SYNCDONE, with a trap of class P, makes the sync field of the group at TRAPPC ignored once; with one of
another class it does not. -/
def Claim.SyncIgnoredOnce : Prop :=
  ∀ (s t : State), s.allows .bTret → s.csr.hm = true → exec .bTret s = .next t →
    t.core.seq.skipSync = (bitOf s.csr.trapcause.toNat 59 &&
      (Trap.cls { code := s.csr.trapcause.toNat % 256, async := bitOf s.csr.trapcause.toNat 63
                  info := s.csr.trapinfo, probe := true } == .p))

/-! ### Branches and loops (14_scalar R303 to R310, R315) -/

/-- R303: b.br, b.jal and b.jr, and b.bp of a predicate all of whose members agree, go to slot 0 of their bundle of the
same half, or on; b.jal writes the index of the bundle after its group to s60. -/
def Claim.BranchTargets : Prop :=
  ∀ (s : State),
    let here := s.issue.ctx.bundle
    let rel := fun (o : BitVec 18) => (((here : Int) + o.toInt) % 4096).toNat
    let goTo := fun (s : State) (b : Nat) (pops : Bool) =>
      { s.mapSeq fun q => { q with npc := ⟨q.pc.half, b, 0⟩ } with issue := { s.issue with redirect := some pops } }
    (∀ o, s.allows (.bBr o) → exec (.bBr o) s = .next (goTo s (rel o) true)) ∧
    (∀ o, s.allows (.bJal o) → exec (.bJal o) s = .next (goTo (s.mapRegs fun r => r.setS 60 (.ofNat 64
      (if s.core.seq.npc.slot = 0 then s.core.seq.npc.bundle else s.core.seq.npc.bundle + 1))) (rel o) false)) ∧
    (∀ r, s.allows (.bJr r) → s.plain [r] → exec (.bJr r) s = .next (goTo s ((s.regs.getS r).toNat % 4096) false)) ∧
    (∀ p n o, s.allows (.bBp p n o) → misnamed s.lift .p p.toNat (s.regs.tagOf ⟨.p, p.toNat⟩) = none →
      ((∀ x ∈ s.eachP p, x.2 = !n) → exec (.bBp p n o) s = .next (goTo s (rel o) true)) ∧
      ((∀ x ∈ s.eachP p, x.2 = n) → s.eachP p ≠ [] → exec (.bBp p n o) s = .next s))

/-- R309, R310: a split branch whose members diverge runs the true members first, at its target, then at b.join the
others from the fall-through point, and at the second b.join every member that ran before. -/
def Claim.SplitBranches : Prop :=
  (∀ (s : State) (p : BitVec 3) (n : Bool) (o : BitVec 18), s.allows (.bBp p n o) →
    misnamed s.lift .p p.toNat (s.regs.tagOf ⟨.p, p.toNat⟩) = none → s.issue.ctx.split = true →
    s.core.seq.splits.length < 4 → (∃ x ∈ s.eachP p, x.2 = n) → (∃ x ∈ s.eachP p, x.2 = !n) →
    let yes := maskOf (((s.eachP p).filter fun x => x.2 != n).map (·.1))
    ∃ t : State, exec (.bBp p n o) s = .next t ∧ t.core.lift.lmask = s.lift.lmask &&& yes ∧
      t.core.seq.splits = ⟨s.lift.lmask, yes, s.core.seq.npc, false, s.lift.levels.length⟩ :: s.core.seq.splits ∧
      t.core.seq.npc = ⟨s.core.seq.pc.half, s.offBundle 18 o.toNat % 4096, 0⟩ ∧ t.regs = s.regs) ∧
  ∀ (s : State), s.allows .bJoin →
    (s.core.seq.splits = [] → exec .bJoin s = .next s) ∧
    (∀ e r, s.core.seq.splits = e :: r → ∃ t : State, exec .bJoin s = .next t ∧ t.regs = s.regs ∧
      (e.second = false → t.core.lift.lmask = e.lmask &&& ~~~e.yes ∧ t.core.seq.npc = e.fall ∧
        t.core.seq.splits = { e with second := true } :: r) ∧
      (e.second = true → t.core.lift.lmask = e.lmask ∧ t.core.seq.npc = s.core.seq.npc ∧ t.core.seq.splits = r))

/-- R305, R306: b.loop and b.loopi open a loop whose body is from the next group to the end of its bundle, with the
count; a count of 0 goes past the body; the stack holds four loops, the oldest leaving. -/
def Claim.LoopsOpen : Prop :=
  ∀ (s : State),
    let opens := fun (count : W) (e : Nat) (t : State) =>
      t.regs = s.regs ∧ t.core.scratch = s.core.scratch ∧ t.core.lift = s.core.lift ∧
      (count ≠ 0 → t.core.seq.loops =
          (⟨s.core.seq.npc, s.issue.ctx.bundle + e, count⟩ :: s.core.seq.loops).take 4 ∧
        t.core.seq.npc = s.core.seq.npc) ∧
      (count = 0 → t.core.seq.loops = s.core.seq.loops ∧
        t.core.seq.npc = ⟨s.core.seq.pc.half, s.issue.ctx.bundle + e + 1, 0⟩)
    (∀ c o, s.allows (.bLoop c o) → s.plain [c] → ∃ t, exec (.bLoop c o) s = .next t ∧ opens (s.regs.getS c) o.toNat t) ∧
    (∀ c o, s.allows (.bLoopi c o) → ∃ t, exec (.bLoopi c o) s = .next t ∧ opens (c.setWidth 64) o.toNat t)

/-- R306: after the group that ends a loop's body, a loop with more than one pass left goes back to its start with one
pass less; its last pass removes it and goes on. -/
def Claim.LoopBackEdge : Prop :=
  ∀ (q : Seq) (e : LoopEnt) (r : List LoopEnt), q.loops = e :: r →
    (1 < e.count.toNat → loopEnd e.endB q = { q with npc := e.start, loops := { e with count := e.count - 1 } :: r }) ∧
    (e.count.toNat ≤ 1 → loopEnd e.endB q = { q with loops := r }) ∧
    (∀ b, b ≠ e.endB → loopEnd b q = q)

/-- R307: b.trap raises SW_TRAP with its code in TRAPINFO, after its group, when its predicate holds for a member that
executes; otherwise it does nothing. -/
def Claim.SoftwareTrap : Prop :=
  ∀ (s : State) (p : BitVec 3) (n : Bool) (c : BitVec 18), s.allows (.bTrap p n c) →
    misnamed s.lift .p p.toNat (s.regs.tagOf ⟨.p, p.toNat⟩) = none → s.csr.nrep.toNat ≤ 1 → s.csr.hm = false →
    s.issue.opened = true →
    ((∃ x ∈ s.eachP p, x.2 = !n) → exec (.bTrap p n c) s = .next { s with issue := { s.issue with
      after := some { code := 4, info := c.setWidth 64, mask := 2 ^ s.issue.ctx.idx } } }) ∧
    ((∀ x ∈ s.eachP p, x.2 = n) → exec (.bTrap p n c) s = .next s)

/-- R315: b.swap goes to a bundle of the other half, with an empty loop stack; a half in retention begins to leave it. -/
def Claim.HalfSwap : Prop :=
  ∀ (s : State) (o : BitVec 12), s.allows (.bSwap o) → s.core.seq.splits = [] → s.core.decomping true = false →
    ∃ t : State, exec (.bSwap o) s = .next t ∧ t.core.seq.npc = ⟨!s.core.seq.pc.half, o.toNat, 0⟩ ∧
      t.core.seq.loops = [] ∧ t.regs = s.regs ∧ t.core.scratch = s.core.scratch ∧
      (t.core.halves.get (halfIx (!s.core.seq.pc.half))).cells = (s.core.halves.get (halfIx (!s.core.seq.pc.half))).cells ∧
      (t.core.halves.get (halfIx (!s.core.seq.pc.half))).leaving =
        (s.core.halves.get (halfIx (!s.core.seq.pc.half))).retained ∧
      ∀ c, c ≠ s.cur → t.coreAt c = s.coreAt c
/-! ### Node control (14_scalar R311 to R317; 06_scheduler R119 to R123) -/

/-- R311: b.done, when every engine command and access of the core has completed and no queue holds an entry. A seat
whose other seats are not all done holds as done; the last one frees the node's cores. A queue that holds an entry is
QUEUE_NOT_EMPTY (code 0x19) with the mask of the queues. -/
def Claim.NodeDone : Prop :=
  ∀ (s : State), s.allows .bDone → s.core.enginesIdle = true → s.csr.nrep.toNat ≤ 1 → s.core.openIds = [] →
    (s.core.queueMask = 0 → ∃ t : State, exec .bDone s = .next t ∧
      (s.core.node.inst = none → t.core.seq.mode = .done) ∧
      (∀ id, s.core.node.inst = some id →
        ((s.allSeats fun y => y.seq.mode == .done || y.redun.retired) = false → t.core.seq.mode = .done ∧
          t.core.node.inst = some id) ∧
        ((s.allSeats fun y => y.seq.mode == .done || y.redun.retired) = true → (s.instAt id).isSome = true →
          t.core.seq.mode = .idle ∧ t.core.node.inst = none)) ∧
      t.ms.mem = s.ms.mem ∧ t.core.scratch = s.core.scratch) ∧
    (s.core.queueMask ≠ 0 → s.issue.opened = true → exec .bDone s = .next { s with issue := { s.issue with
      fails := s.issue.fails ++ [⟨s.issue.ctx.idx, { code := 0x19, info := .ofNat 64 s.core.queueMask }⟩] } })

/-- R312, R123: b.yield has no effect in handler mode and without a node. Otherwise a seat waits until the node's other
seats have reached it; the last one resumes them all, or, when a ready instance of higher priority would run on the
node's cores, gives the cores up. -/
def Claim.NodeYield : Prop :=
  ∀ (s : State), s.allows .bYield →
    (s.csr.hm = true → exec .bYield s = .next s) ∧
    (s.csr.hm = false → s.csr.nrep.toNat ≤ 1 →
      (s.core.node.inst = none → exec .bYield s = .next s) ∧
      ∀ id, s.core.node.inst = some id →
        let others := s.allSeats fun y => y.seq.mode == .yielded || y.redun.retired
        (others = false → exec .bYield s = .next (s.mapSeq fun q => { q with mode := .yielded })) ∧
        (others = true → s.preempts id = false →
          exec .bYield s = .next (s.onCores (fun _ y => y.node.inst == some id && y.seq.mode == .yielded)
            fun y => y.onSeq fun q => { q with mode := .running })) ∧
        (others = true → s.preempts id = true → s.boundary (s.instCores id) = .ok →
          ∃ t : State, exec .bYield s = .next t ∧ t.core.seq.mode = .idle ∧ t.core.node.inst = none ∧
            t.ms.mem = s.ms.mem))

/-- R312, R122: b.park has no effect in handler mode; of an invalid gm register it is SYNC_INVALID (code 0x14); on a
valid one, at a boundary, a seat holds parked on the entry and its PHASE, and the node's last seat frees the cores. -/
def Claim.NodePark : Prop :=
  ∀ (s : State) (m : BitVec 2), s.allows (.bPark m) →
    let gm := s.regs.gm.get m.toFin
    (s.csr.hm = true → exec (.bPark m) s = .next s) ∧
    (s.csr.hm = false → gm.getLsbD 8 = false → s.csr.nrep.toNat ≤ 1 → s.issue.opened = true →
      exec (.bPark m) s = .next { s with issue := { s.issue with
        fails := s.issue.fails ++ [⟨s.issue.ctx.idx, { code := 0x14, info := m.setWidth 64 }⟩] } }) ∧
    (s.csr.hm = false → gm.getLsbD 8 = true → s.csr.nrep.toNat ≤ 1 → ∀ id, s.core.node.inst = some id →
      (s.instAt id).isSome = true → s.boundary [s.cur] = .ok → ∃ t : State, exec (.bPark m) s = .next t ∧
        ((∃ c ∈ s.instCores id, c ≠ s.cur ∧ (s.coreAt c).redun.retired = false ∧ (s.coreAt c).seq.mode = .running) →
          t.core.seq.mode = .parked (gm.setWidth 8) (s.phase (gm.setWidth 8)) ∧ t.core.node.inst = some id) ∧
        ((∀ c ∈ s.instCores id, c = s.cur) → t.core.seq.mode = .idle ∧ t.core.node.inst = none))

/-- R313: b.trig counts its seat once; when every earlier access of the core has been performed it sets the seat's mark,
and a second one has no effect. -/
def Claim.NodeTrigger : Prop :=
  ∀ (s : State), s.allows .bTrig → s.csr.nrep.toNat ≤ 1 →
    (s.core.node.trig = true → exec .bTrig s = .next s) ∧
    (s.core.node.trig = false → s.core.openIds = [] → ∃ t : State, exec .bTrig s = .next t ∧
      t.core.node.trig = true ∧ t.regs = s.regs ∧ t.core.scratch = s.core.scratch ∧ t.ms.mem = s.ms.mem)

/-- R314, R119: b.task asks the scheduler for an instance of node s(I) of the issuer's graph with s(B) to s(B+6) as
arguments; readers of the status register wait. An index without a node is TASK_FAULT (code 0x18) with 1 in TRAPINFO, a
node with edges TASK_FAULT with 2; a tagged register is AXIS_COLLISION (code 0x16). -/
def Claim.TaskRequests : Prop :=
  ∀ (s : State) (i b d : BitVec 6), s.allows (.bTask i b d) → s.csr.nrep.toNat ≤ 1 → b.toNat ≤ 57 →
    let regs := i :: (List.range 7).map fun k => BitVec.ofNat 6 (b.toNat + k)
    let nodes := ((s.instOf s.cur).bind fun me => s.graphAt me.graph).elim [] (·.image.nodes)
    (s.plain regs →
      (∀ n, nodes[(s.regs.getS i).toNat]? = some n → n.preds = 0 → n.succs = [] →
        ∃ t : State, exec (.bTask i b d) s = .next t ∧ t.regs = s.regs.mark .s d .await ∧
          (∃ q, t.sched.tasks = s.sched.tasks ++ [q] ∧ q.core = s.cur ∧ q.node = (s.regs.getS i).toNat ∧
            q.status = d ∧ q.at_ = s.cyc ∧
            q.args = (List.range 7).map fun k => s.regs.getS (.ofNat 6 (b.toNat + k))) ∧
          t.ms = s.ms ∧ t.csr = s.csr) ∧
      (nodes[(s.regs.getS i).toNat]? = none → s.issue.opened = true →
        exec (.bTask i b d) s = .next { s with issue := { s.issue with
          fails := s.issue.fails ++ [⟨s.issue.ctx.idx, { code := 0x18, info := 1 }⟩] } }) ∧
      (∀ n, nodes[(s.regs.getS i).toNat]? = some n → (n.preds ≠ 0 ∨ n.succs ≠ []) → s.issue.opened = true →
        exec (.bTask i b d) s = .next { s with issue := { s.issue with
          fails := s.issue.fails ++ [⟨s.issue.ctx.idx, { code := 0x18, info := 2 }⟩] } })) ∧
    (s.regs.tags (regs.map sOpd) ≠ 0 → s.issue.opened = true →
      exec (.bTask i b d) s = .next { s with issue := { s.issue with
        fails := s.issue.fails ++ [⟨s.issue.ctx.idx, { code := 0x16, info := .ofNat 64 s.issue.ctx.idx }⟩] } })

/-- R316, R317: b.sleep holds its group until DUE has come; then with CTX 3, or when the timeline has reached the command
that the promise names, it completes and changes nothing, and otherwise MISSED_PROMISE (code 0x11) is raised after its group,
with the timeline and the command's number in TRAPINFO. A tagged register is AXIS_COLLISION (code 0x16). -/
def Claim.SleepOnPromise : Prop :=
  ∀ (s : State) (r : BitVec 6), s.allows (.bSleep r) → s.csr.nrep.toNat ≤ 1 → s.csr.hm = false →
    (s.regs.tagOf (sOpd r) ≠ 0 → s.issue.opened = true →
      exec (.bSleep r) s = .next { s with issue := { s.issue with
        fails := s.issue.fails ++ [⟨s.issue.ctx.idx, { code := 0x16, info := .ofNat 64 s.issue.ctx.idx }⟩] } }) ∧
    (s.plain [r] →
    let w := (s.regs.getS r).toNat
    let due := (s.cyc.toNat % 2 ^ 40 + 2 ^ 40 - w % 2 ^ 40) % 2 ^ 40 < 2 ^ 39
    (¬ due → exec (.bSleep r) s = .next { s with issue := { s.issue with held := true } }) ∧
    (due → w / 2 ^ 62 = 3 → exec (.bSleep r) s = .next s) ∧
    (∀ x : Fin 3, due → w / 2 ^ 62 = x.val → ∀ n : Nat, n ≤ (s.core.tlAt x).issued.toNat →
      (s.core.tlAt x).issued.toNat < n + 2 ^ 22 → n % 2 ^ 22 = w / 2 ^ 40 % 2 ^ 22 →
      (n ≤ (s.core.tlAt x).val.toNat → exec (.bSleep r) s = .next s) ∧
      ((s.core.tlAt x).val.toNat < n → s.issue.opened = true →
        ∃ t : Trap, t.code = 0x11 ∧ t.info.toNat = x.val * 2 ^ 48 + n % 2 ^ 48 ∧
          exec (.bSleep r) s = .next { s with issue := { s.issue with after := some t } })))
/-! ### Queues, timelines and the other Q operations (16_sync; 10_core R214 to R219) -/

/-- R344, R345: q.qcfg of a well-formed word, with the engines idle, configures its queue and empties it; one that is not
well formed is ILLEGAL_OP. No other queue, no register and no memory changes. -/
def Claim.QueueConfiguration : Prop :=
  ∀ (s : State) (x : BitVec 4) (a : BitVec 6), s.allows (.qQcfg x a) → s.plain [a] → s.core.enginesIdle = true →
    let w := (s.regs.getS a).toNat
    (qcfgOk w = true → ∃ t : State, exec (.qQcfg x a) s = .next t ∧
      t.core.queue x = ⟨decide (2 ^ 63 ≤ w), .ofNat 21 (w % 2 ^ 21), .ofNat 4 (w / 2 ^ 24 % 16), bitOf w 21, 0, 0⟩ ∧
      (t.core.queue x).count = 0 ∧ (∀ y, y ≠ x → t.core.queue y = s.core.queue y) ∧ t.regs = s.regs ∧
      t.core.scratch = s.core.scratch ∧ t.ms = s.ms) ∧
    (qcfgOk w = false → s.issue.opened = true → exec (.qQcfg x a) s = .next { s with issue := { s.issue with
      fails := s.issue.fails ++ [⟨s.issue.ctx.idx, { code := 2, info := .ofNat 64 s.issue.ctx.raw }⟩] } })

/-- The state in which a queue operation of its own group sees the queue as it stands (R341). -/
abbrev queueSeen (s : State) (x : BitVec 4) : Prop := s.queueBefore x = s.core.queue x

/-- R215, R346: a word pushed into a queue with room, the pusher's earlier accesses performed (08_ordering R165), stands
little-endian at QBASE + PI mod depth × size, zeros after it in an entry of 512 bytes, and PI rises by one; nothing else of
scratch changes. -/
def Claim.QueuePush : Prop :=
  ∀ (s : State) (x : BitVec 4) (a : BitVec 6), s.allows (.qQpush x a) → s.plain [a] → s.single → queueSeen s x →
    let q := s.core.queue x
    q.cfg = true → q.count < q.depth → s.core.lockedFor 0 (q.slotAt q.pi.toNat) = false → s.core.openIds = [] →
    ∃ t : State, exec (.qQpush x a) s = .next t ∧ t.core.queue x = { q with pi := q.pi + 1 } ∧
      (∀ y, y ≠ x → t.core.queue y = s.core.queue y) ∧
      (∀ j, j < q.size → t.core.scratch.read (q.slotAt q.pi.toNat + j) =
        if j < 8 then (s.regs.getS a).extractLsb' (8 * j) 8 else 0) ∧
      (∀ b, b < q.slotAt q.pi.toNat ∨ q.slotAt q.pi.toNat + q.size ≤ b →
        t.core.scratch.read b = s.core.scratch.read b) ∧
      t.regs = s.regs ∧ t.csr = s.csr ∧ t.ms = s.ms ∧ ∀ c, c ≠ s.cur → t.coreAt c = s.coreAt c

/-- R215, R346, R347: q.qpop writes the word at the head to its destination and CI rises by one; q.qpeek writes the word
so many entries behind the head and q.qcnt the count, and neither changes the queue; a peek past the depth is
ILLEGAL_OP. A read requests the entry's banks (R209). -/
def Claim.QueueReads : Prop :=
  ∀ (s : State) (x : BitVec 4) (d : BitVec 6), queueSeen s x →
    let q := s.core.queue x
    let clean := fun (k : Nat) => s.core.lockedFor 0 (q.slotAt (q.ci.toNat + k)) = false ∧
      s.core.scratch.firstPoison ((List.range q.size).map (q.slotAt (q.ci.toNat + k) + ·)) = none
    let word := fun (k : Nat) => BitVec.ofNat 64 (s.core.scratch.num (q.slotAt (q.ci.toNat + k)) 8)
    q.cfg = true →
    (s.allows (.qQpop x d) → 0 < q.count → clean 0 → exec (.qQpop x d) s =
      .next (((s.useBanks 0 (q.entry q.ci.toNat) [(.s, d.toNat)]).mapCore fun y =>
        y.setQueue x { q with ci := q.ci + 1 }).mapRegs fun r => r.setS d (word 0))) ∧
    (∀ k : BitVec 6, s.allows (.qQpeek x d k) → k.toNat < q.count → k.toNat < q.depth → clean k.toNat →
      exec (.qQpeek x d k) s = .next ((s.useBanks 0 (q.entry (q.ci.toNat + k.toNat)) [(.s, d.toNat)]).mapRegs fun r =>
        r.setS d (word k.toNat))) ∧
    (∀ k : BitVec 6, s.allows (.qQpeek x d k) → q.depth ≤ k.toNat → s.issue.opened = true →
      exec (.qQpeek x d k) s = .next { s with issue := { s.issue with
        fails := s.issue.fails ++ [⟨s.issue.ctx.idx, { code := 2, info := .ofNat 64 s.issue.ctx.raw }⟩] } }) ∧
    (s.allows (.qQcnt x d) → exec (.qQcnt x d) s = .next (s.mapRegs fun r => r.setS d (.ofNat 64 q.count)))

/-- R214, R215, R346: a queue operation on an unconfigured queue is ILLEGAL_OP; a push to a full queue and a pop of an
empty one hold issue. -/
def Claim.QueueHolds : Prop :=
  ∀ (s : State) (x : BitVec 4) (a : BitVec 6), queueSeen s x →
    let q := s.core.queue x
    let held := { s with issue := { s.issue with held := true } }
    let illegal := { s with issue := { s.issue with
      fails := s.issue.fails ++ [⟨s.issue.ctx.idx, { code := 2, info := .ofNat 64 s.issue.ctx.raw }⟩] } }
    (q.cfg = false → s.issue.opened = true →
      (s.allows (.qQpush x a) → exec (.qQpush x a) s = .next illegal) ∧
      (s.allows (.qQpop x a) → exec (.qQpop x a) s = .next illegal) ∧
      (s.allows (.qQcnt x a) → exec (.qQcnt x a) s = .next illegal)) ∧
    (q.cfg = true → s.allows (.qQpop x a) → q.count = 0 → exec (.qQpop x a) s = .next held) ∧
    (q.cfg = true → s.allows (.qQpush x a) → s.plain [a] → s.single → q.count = q.depth →
      exec (.qQpush x a) s = .next held)

/-- A queue as a first-in first-out memory (R214, R215): a push into a queue with room makes the pushed word the last
of count + 1 words and leaves the words before it as they were. -/
def Claim.QueueOrder : Prop :=
  ∀ (x : Core) (n : BitVec 4) (v : VReg), (x.queue n).count < (x.queue n).depth → (x.queue n).depth ≤ 256 →
    let q := x.queue n
    ((x.push n v).queue n).count = q.count + 1 ∧
    ((x.push n v).peek n q.count).setWidth 64 = v.setWidth 64 ∧
    (∀ k, k < q.count → (x.push n v).peek n k = x.peek n k) ∧
    (∀ k, k + 1 < q.count → (x.pop n).peek n k = x.peek n (k + 1))

/-- R348, R351, R164: q.tlrd writes the timeline's value; a wait for a value that the timeline has reached completes,
with COPY_ERROR (code 0x10) after it when the context's error bit is set; on ts a value not reached is ILLEGAL_OP, and
on another timeline the wait holds. -/
def Claim.TimelineWaits : Prop :=
  ∀ (s : State) (t : BitVec 2) (a : BitVec 6),
    (s.allows (.qTlrd t a) → exec (.qTlrd t a) s = .next (s.mapRegs fun r => r.setS a (s.core.tlVal t))) ∧
    (s.allows (.qTlwait t a) → s.plain [a] → s.csr.nrep.toNat ≤ 1 → s.csr.hm = false → s.issue.opened = true →
      ((s.regs.getS a).toNat ≤ (s.core.tlVal t).toNat →
        (2 ≤ t.toNat → exec (.qTlwait t a) s = .next s) ∧
        (∀ x : Fin 3, t.toNat = x.val → x.val < 2 →
          ((s.core.tlAt x).err = none → exec (.qTlwait t a) s = .next s) ∧
          (∀ n c, (s.core.tlAt x).err = some (n, c) → ∃ u : Trap, u.code = 0x10 ∧
            u.info.toNat = c % 256 * 2 ^ 56 + x.val * 2 ^ 48 + n % 2 ^ 48 ∧
            exec (.qTlwait t a) s = .next { s with issue := { s.issue with after := some u } }))) ∧
      ((s.core.tlVal t).toNat < (s.regs.getS a).toNat →
        (t ≠ 3 → exec (.qTlwait t a) s = .next { s with issue := { s.issue with held := true } }) ∧
        (t = 3 → exec (.qTlwait t a) s = .next { s with issue := { s.issue with
          fails := s.issue.fails ++ [⟨s.issue.ctx.idx, { code := 2, info := .ofNat 64 s.issue.ctx.raw }⟩] } })))

/-- R216: a timeline stands at the largest n such that commands 1 to n have completed: the completion of the next command
takes it past those that had completed ahead, and one out of turn waits. -/
def Claim.TimelineOrder : Prop :=
  ∀ (t : Timeline) (n : Nat) (e : Option Nat), t.val.toNat + t.ahead.length + 1 < 2 ^ 64 →
    (∀ m ∈ t.ahead, t.val.toNat + 1 < m) → n ∉ t.ahead → t.val.toNat < n →
    let u := t.complete n e
    t.val.toNat ≤ u.val.toNat ∧
    (∀ k, t.val.toNat < k → k ≤ u.val.toNat → k = n ∨ k ∈ t.ahead) ∧
    (u.val.toNat + 1 ≠ n ∧ u.val.toNat + 1 ∉ t.ahead) ∧
    u.issued = t.issued ∧ (t.err.isSome = true → u.err = t.err) ∧ (t.err = none → u.err = e.map fun c => (n, c))

/-- R349, R350: q.tlsig raises ts to its value and never lowers it, when the engines and the core's accesses have
completed; a wait on another core's ts completes when the value has reached this core. -/
def Claim.TimelineSignals : Prop :=
  (∀ (s : State) (a : BitVec 6), s.allows (.qTlsig a) → s.plain [a] → s.csr.nrep.toNat ≤ 1 →
    s.core.enginesIdle = true → s.core.openIds = [] → ∃ t : State, exec (.qTlsig a) s = .next t ∧
      t.core.ts.toNat = max s.core.ts.toNat (s.regs.getS a).toNat ∧ t.regs = s.regs ∧ t.core.tl = s.core.tl ∧
      t.ms = s.ms ∧ ∀ c, c ≠ s.cur → t.coreAt c = s.coreAt c) ∧
  ∀ (s : State) (d a : BitVec 6), s.allows (.qTlwaitx d a) → s.plain [d, a] → s.csr.nrep.toNat ≤ 1 →
    let c := toCore ((s.regs.getS d).toNat % 256)
    (c = s.cur → (s.regs.getS a).toNat ≤ s.core.ts.toNat → exec (.qTlwaitx d a) s = .next s) ∧
    (∀ v, c ≠ s.cur → s.tsSeenOf c = some v →
      ((s.regs.getS a).toNat ≤ v.toNat → exec (.qTlwaitx d a) s = .next s) ∧
      (v.toNat < (s.regs.getS a).toNat →
        exec (.qTlwaitx d a) s = .next { s with issue := { s.issue with held := true } }))

/-- R352, R316: q.promise. The word that q.promise forms of a timeline and a command number has the timeline in [63:62],
the number's low 22 bits in [61:40] and DUE in [39:0], and is written to the destination later: it reads empty until
then. A number not issued is ILLEGAL_OP. -/
def Claim.PromiseWords : Prop :=
  ∀ (s : State) (t : BitVec 2) (d a : BitVec 6), s.allows (.qPromise t d a) → s.plain [a] → s.csr.nrep.toNat ≤ 1 →
    let n := s.regs.getS a
    (∀ x : Fin 3, t.toNat = x.val → (s.core.tlAt x).issued.toNat < n.toNat → s.issue.opened = true →
      exec (.qPromise t d a) s = .next { s with issue := { s.issue with
        fails := s.issue.fails ++ [⟨s.issue.ctx.idx, { code := 2, info := .ofNat 64 s.issue.ctx.raw }⟩] } }) ∧
    (∀ x : Fin 3, t.toNat = x.val → 0 < n.toNat → n.toNat ≤ (s.core.tlAt x).issued.toNat →
      ∃ (w : W) (u : State), exec (.qPromise t d a) s = .next u ∧ w.toNat / 2 ^ 62 = x.val ∧
        w.toNat / 2 ^ 40 % 2 ^ 22 = n.toNat % 2 ^ 22 ∧
        (n.toNat ≤ (s.core.tlAt x).val.toNat → w.toNat % 2 ^ 40 = s.cyc.toNat % 2 ^ 40) ∧
        u.regs = s.regs.mark .s d .empty ∧
        u.core.fills = s.core.fills ++ [⟨.s, d, .value (ofS w) 0, s.cyc + 4⟩] ∧ u.ms = s.ms) ∧
    (t = 3 ∨ n = 0 → ∃ (w : W) (u : State), exec (.qPromise t d a) s = .next u ∧ w.toNat / 2 ^ 62 = 3 ∧
        (t = 3 → w.toNat % 2 ^ 40 = n.toNat % 2 ^ 40) ∧
        u.core.fills = s.core.fills ++ [⟨.s, d, .value (ofS w) 0, s.cyc + 4⟩])

/-- R353 to R356: q.bar changes nothing beyond its group's roll call; q.slack declares min(s(a), 0xFFFF) and clears the
debt; q.frame waits for CNT = 0 in a timetable node and does nothing in another; q.ifence drops what the fetch unit may
still hold of the idle half, but for bundles that a c.decomp still running has written. -/
def Claim.PacingOperations : Prop :=
  ∀ (s : State),
    (∀ m w, s.allows (.qBar m w) → exec (.qBar m w) s = .next s) ∧
    (∀ a, s.allows (.qSlack a) → s.plain [a] → exec (.qSlack a) s = .next (s.mapCsr fun c =>
      { c with limit := .ofNat 16 (min (s.regs.getS a).toNat 0xFFFF), debt := 0 })) ∧
    (s.allows .qFrame → (s.csr.tt = false → exec .qFrame s = .next s) ∧
      (s.csr.tt = true → s.csr.cnt ≠ 0 → exec .qFrame s = .next { s with issue := { s.issue with held := true } }) ∧
      (s.csr.tt = true → s.csr.cnt = 0 →
        exec .qFrame s = .next (s.mapSeq fun q => { q with prev := some (s.csr.fnum, 0) }))) ∧
    (s.allows .qIfence → ∃ t : State, exec .qIfence s = .next t ∧
      (s.core.decomping = false → (t.core.halves.get (halfIx (!s.core.seq.pc.half))).stale = []) ∧
      (∀ e, e ∈ (t.core.halves.get (halfIx (!s.core.seq.pc.half))).stale ↔
        (e ∈ (s.core.halves.get (halfIx (!s.core.seq.pc.half))).stale ∧ s.core.decompWrote e.1 = true)) ∧
      (t.core.halves.get (halfIx (!s.core.seq.pc.half))).cells =
        (s.core.halves.get (halfIx (!s.core.seq.pc.half))).cells ∧
      t.core.halves.get (halfIx s.core.seq.pc.half) = s.core.halves.get (halfIx s.core.seq.pc.half) ∧
      t.regs = s.regs ∧ t.core.scratch = s.core.scratch ∧ t.ms = s.ms)

/-- R357 to R359: q.fout puts the pair (destination, word) at the end of the outbox, which holds sixteen words; q.fin
makes its register empty until a word of the inbox fills it, with at most eight pending. -/
def Claim.FabricWords : Prop :=
  (∀ (s : State) (d a : BitVec 6), s.allows (.qFout d a) → s.plain [d, a] → s.single → s.csr.nrep.toNat ≤ 1 →
    (s.core.mail.outbox.length < 16 → ∃ (t : State) (w : OutWord), exec (.qFout d a) s = .next t ∧
      t.core.mail.outbox = s.core.mail.outbox ++ [w] ∧ w.dst = s.regs.getS d ∧ w.word = s.regs.getS a ∧
      t.core.mail.inbox = s.core.mail.inbox ∧ t.regs = s.regs ∧ t.ms = s.ms ∧
      ∀ c, c ≠ s.cur → t.coreAt c = s.coreAt c) ∧
    (16 ≤ s.core.mail.outbox.length →
      exec (.qFout d a) s = .next { s with issue := { s.issue with held := true } })) ∧
  ∀ (s : State) (d : BitVec 6), s.allows (.qFin d) → s.csr.nrep.toNat ≤ 1 →
    let n := (s.core.fills.filter fun f => match f.src with | .fin _ => true | _ => false).length
    (n < 8 → exec (.qFin d) s = .next (s.mapCore fun x => { x.onRegs (·.mark .s d .empty) with
      fills := x.fills ++ [⟨.s, d, .fin none, 0⟩] })) ∧
    (8 ≤ n → exec (.qFin d) s = .next { s with issue := { s.issue with held := true } })

/-- R360 to R362, R219: q.lift enters a level of the tag and extent named, under the limits of three levels and a product
of 64; q.lend leaves the innermost, gives back the LMASK saved at its entry and takes its tag from every register; an
extent of 0 is AXIS_OVERFLOW; q.lmask narrows LMASK, never past the mask at the level's entry. -/
def Claim.LiftLevels : Prop :=
  (∀ (s : State) (t : BitVec 2) (a : BitVec 6), s.allows (.qLift t a) → s.plain [a] →
    let n := (s.regs.getS a).toNat
    let l := s.core.lift
    (1 ≤ n → l.prod * n ≤ 64 → l.levels.length < 3 → l.levels.length < l.maxDepth → l.prod * n ≤ l.maxProd →
      0 < l.prod → l.levels.all (fun v => v.tag != t) = true →
      ∃ u : State, exec (.qLift t a) s = .next u ∧ u.core.lift.levels = ⟨t, n, l.lmask⟩ :: l.levels ∧
        (∀ m, m < 64 → u.core.lift.lmask.getLsbD m = (decide (m < l.prod * n) && l.lmask.getLsbD (m / n))) ∧
        u.core.lift.ceil = u.core.lift.lmask ∧ u.regs = s.regs ∧ u.core.scratch = s.core.scratch ∧ u.ms = s.ms) ∧
    (n = 0 → s.issue.opened = true → exec (.qLift t a) s = .next { s with issue := { s.issue with
      fails := s.issue.fails ++ [⟨s.issue.ctx.idx, { code := 0x15, info := 0 }⟩] } })) ∧
  (∀ (s : State) (v : LiftLevel) (r : List LiftLevel), s.allows .qLend → s.core.lift.levels = v :: r → v.tag ≠ 0 →
    s.core.seq.splits = [] →
    ∃ u : State, exec .qLend s = .next u ∧ u.core.lift.levels = r ∧ u.core.lift.lmask = v.saved ∧
      (∀ n : Fin 64, hasTag (u.regs.sTag.get n) v.tag.toNat = false ∧ hasTag (u.regs.vTag.get n) v.tag.toNat = false) ∧
      (∀ n : Fin 8, hasTag (u.regs.pTag.get n) v.tag.toNat = false ∧ hasTag (u.regs.kTag.get n) v.tag.toNat = false ∧
        hasTag (u.regs.pmTag.get n) v.tag.toNat = false) ∧
      u.regs.s = s.regs.s ∧ u.regs.v = s.regs.v ∧ u.regs.p = s.regs.p ∧ u.regs.k = s.regs.k ∧ u.regs.pm = s.regs.pm) ∧
  ∀ (s : State) (a : BitVec 6), s.allows (.qLmask a) → s.plain [a] → ∃ u : State, exec (.qLmask a) s = .next u ∧
    (s.core.lift.levels = [] → u.core = s.core) ∧
    (s.core.lift.levels ≠ [] → ∀ m, m < 64 → u.core.lift.lmask.getLsbD m =
      ((s.regs.getS a).getLsbD m && s.core.lift.ceil.getLsbD m && decide (m < s.core.lift.prod))) ∧
    u.regs = s.regs ∧ u.core.lift.levels = s.core.lift.levels
/-! ### The vector operations (21_vector) -/

/-- An operation that writes one v register, without tags: it answers the state with the register's value and the flags
joined to FPFLAGS, and nothing else changed. -/
def writesV (i : Instr) (s : State) (d : BitVec 6) (v : VReg) (fl : Flags) : Prop :=
  exec i s = .next ((s.mapRegs fun r => r.setV d v).orFlags fl)

/-- Element j of a register in the operation's format. -/
def elemNow (s : State) (j : Nat) (v : VReg) : Nat := getE (fmtBits s.opFmt) j v

/-- The number of elements of the operation's format. -/
def countNow (s : State) : Nat := elemCount (fmtBits s.opFmt)

/-- R384: the elements of a result under the mask and z. -/
def underMask (s : State) (z : Bool) (old v : VReg) (g : Nat → Nat) : Prop :=
  ∀ j, j < countNow s → elemNow s j v =
    if s.maskNow.getLsbD j then g j % 2 ^ fmtBits s.opFmt else if z then 0 else elemNow s j old

/-- R386: the flags of the active elements, joined. -/
def flagsOf (s : State) (g : Nat → Flags) : Flags :=
  (List.range (countNow s)).foldl (fun a j => if s.maskNow.getLsbD j then a ||| g j else a) 0

/-- The hypotheses of a V operation over v registers vs and s registers ss whose operands carry no tag. -/
abbrev vReady (s : State) (i : Instr) (vs ss : List (BitVec 6)) : Prop :=
  s.allows i ∧ s.plainOps (vs.map vOpd ++ ss.map sOpd ++ s.maskOpd) ∧ s.single ∧ s.opFmt ≤ 25 ∧
  0 < fmtBits s.opFmt ∧ fmtBits s.opFmt ≤ 32

/-- The element operations of R389 and R390: operation, destination, sources, addend, z. -/
def vectorForm : Instr → Option (VOp × BitVec 6 × BitVec 6 × BitVec 6 × BitVec 6 × Bool)
  | .vFadd d a b z => some (.fadd, d, a.reg, b.reg, a.reg, z)
  | .vFsub d a b z => some (.fsub, d, a.reg, b.reg, a.reg, z)
  | .vFmul d a b z => some (.fmul, d, a.reg, b.reg, a.reg, z)
  | .vFma d a b z => some (.fma, d, a.reg, b.reg, d, z)
  | .vFms d a b z => some (.fms, d, a.reg, b.reg, d, z)
  | .vFmin d a b z => some (.fmin, d, a.reg, b.reg, a.reg, z)
  | .vFmax d a b z => some (.fmax, d, a.reg, b.reg, a.reg, z)
  | .vFabs d a z => some (.fabs, d, a.reg, a.reg, a.reg, z)
  | .vFneg d a z => some (.fneg, d, a.reg, a.reg, a.reg, z)
  | .vAdd d a b z => some (.add, d, a.reg, b.reg, a.reg, z)
  | .vSub d a b z => some (.sub, d, a.reg, b.reg, a.reg, z)
  | .vMul d a b z => some (.mul, d, a.reg, b.reg, a.reg, z)
  | .vMulh d a b z => some (.mulh, d, a.reg, b.reg, a.reg, z)
  | .vMulhn d a b z => some (.mulhn, d, a.reg, b.reg, a.reg, z)
  | .vAnd d a b z => some (.and, d, a.reg, b.reg, a.reg, z)
  | .vOr d a b z => some (.or, d, a.reg, b.reg, a.reg, z)
  | .vXor d a b z => some (.xor, d, a.reg, b.reg, a.reg, z)
  | .vAndn d a b z => some (.andn, d, a.reg, b.reg, a.reg, z)
  | .vShl d a b z => some (.shl, d, a.reg, b.reg, a.reg, z)
  | .vShr d a b z => some (.shr, d, a.reg, b.reg, a.reg, z)
  | .vSra d a b z => some (.sra, d, a.reg, b.reg, a.reg, z)
  | .vMin d a b z => some (.min, d, a.reg, b.reg, a.reg, z)
  | .vMax d a b z => some (.max, d, a.reg, b.reg, a.reg, z)
  | .vMinn d a b z => some (.minn, d, a.reg, b.reg, a.reg, z)
  | .vMaxn d a b z => some (.maxn, d, a.reg, b.reg, a.reg, z)
  | .vAbs d a z => some (.abs, d, a.reg, a.reg, a.reg, z)
  | .vAddsat d a b z => some (.addsat, d, a.reg, b.reg, a.reg, z)
  | .vSubsat d a b z => some (.subsat, d, a.reg, b.reg, a.reg, z)
  | _ => none

/-- R383 to R390, R392: every element operation, in a format of its class and without tags, writes the element function
of its sources to each active element, zero or the old element to the others, and joins the active elements' flags to
FPFLAGS; with a cascade header the element is the three stages' result, each stage computing as the operation of its
name. -/
def Claim.VectorArithmetic : Prop :=
  ∀ (s : State) (i : Instr) (op : VOp) (d a b c : BitVec 6) (z : Bool), vectorForm i = some (op, d, a, b, c, z) →
    inClass (vopClass op) s.opFmt = true →
    let f := s.opFmt
    let rm := s.vRm.toNat
    let x := fun (r : BitVec 6) (j : Nat) => elemNow s j (s.regs.getV r)
    let A := fun j => vopElem op f rm s.vSat (x a j) (x b j) (x c j)
    (s.issue.ctx.casc = none → vReady s i [a, b, c] [] → ∃ (v : VReg) (fl : Flags), writesV i s d v fl ∧
      underMask s z (s.regs.getV d) v (fun j => (A j).1) ∧ fl = flagsOf s fun j => (A j).2) ∧
    (∀ k, s.issue.ctx.casc = some k → inClass (vopClass (stageOp k.opB)) f = true →
      inClass (vopClass (stageOp k.opC)) f = true →
      let c2 := if stageUnary k.opB then a else k.c.reg
      let e2 := if stageUnary k.opC then a else k.e.reg
      vReady s i [a, b, c, c2, e2] [] →
      let B := fun j => vopElem (stageOp k.opB) f rm s.vSat (A j).1 (x c2 j) 0
      let C := fun j => vopElem (stageOp k.opC) f rm s.vSat (B j).1 (x e2 j) 0
      ∃ (v : VReg) (fl : Flags), writesV i s d v fl ∧ underMask s z (s.regs.getV d) v (fun j => (C j).1) ∧
        fl = flagsOf s fun j => (A j).2 ||| (B j).2 ||| (C j).2)

/-- R390: the integer element operations. In an integer format f of width w, with A and B the operands' integers, U their
raw bits and S these bits in two's complement, each gives the value its row states, and no flag. -/
def Claim.IntegerElements : Prop :=
  ∀ (f rm : Nat) (sat : Bool) (a b d : Nat), ((10 ≤ f ∧ f ≤ 16) ∨ f = 25) → a < 2 ^ fmtBits f → b < 2 ^ fmtBits f →
    let w := fmtBits f
    let A := decodeI f a
    let B := decodeI f b
    let S : Int := if a < 2 ^ (w - 1) then a else (a : Int) - (2 ^ w : Nat)
    let val := fun op => decodeI f (vopElem op f rm sat a b d).1
    let raw := fun op => (vopElem op f rm sat a b d).1
    val .add = intNarrow f sat (A + B) ∧ val .sub = intNarrow f sat (A - B) ∧ val .mul = intNarrow f sat (A * B) ∧
    val .addsat = intNarrow f true (A + B) ∧ val .subsat = intNarrow f true (A - B) ∧
    raw .mulh = ((A * B / (2 ^ w : Nat)) % (2 ^ w : Nat)).toNat ∧ raw .mulhn = a * b / 2 ^ w % 2 ^ w ∧
    raw .shl = (if w ≤ b then 0 else a * 2 ^ b % 2 ^ w) ∧ raw .shr = (if w ≤ b then 0 else a / 2 ^ b) ∧
    raw .sra = ((S / (2 ^ (min b (w - 1)) : Nat)) % (2 ^ w : Nat)).toNat ∧
    val .min = min A B ∧ val .max = max A B ∧ raw .minn = min a b ∧ raw .maxn = max a b ∧
    val .abs = intNarrow f sat (A.natAbs : Int) ∧
    (∀ j, j < w → (raw .and).testBit j = (a.testBit j && b.testBit j) ∧ (raw .or).testBit j = (a.testBit j || b.testBit j) ∧
      (raw .xor).testBit j = (a.testBit j ^^ b.testBit j) ∧ (raw .andn).testBit j = (a.testBit j && !b.testBit j)) ∧
    ∀ op, vopClass op ≠ .f → (vopElem op f rm sat a b d).2 = 0

/-- R222, R225: a finite value that the format holds rounds to its own code and sets no flag, in every mode; so does an
infinity where the format has one; a NaN gives the canonical NaN where the format has one, and +0 with NV otherwise. -/
def Claim.RepresentableValuesRound : Prop :=
  ∀ (f rm c : Nat), 1 ≤ f → f ≤ 9 → rm ≤ 4 → c < 2 ^ fmtBits f →
    (decodeF f c ≠ .nan → roundF f rm (decodeF f c) = (c, 0)) ∧
    (decodeF f c = .nan → hasNan f = true ∧ roundF f rm (decodeF f c) = (canonNan f, 0)) ∧
    roundF f rm .nan = (if hasNan f then (canonNan f, 0) else (0, fNV))

/-- R389: the float element operations. fadd, fsub, fmul, fma and fms round the exact result once; a NaN operand gives
the canonical NaN; infinities that cancel and zero times infinity set NV; fmin and fmax treat a NaN as missing and, like
fabs and fneg, set no flag. -/
def Claim.FloatElements : Prop :=
  ∀ (f rm : Nat) (sat : Bool) (a b d : Nat), 1 ≤ f → f ≤ 9 → rm ≤ 4 →
    a < 2 ^ fmtBits f → b < 2 ^ fmtBits f → d < 2 ^ fmtBits f →
    let E := fun op => vopElem op f rm sat a b d
    (∀ s m e t n g, decodeF f a = .fin s m e → decodeF f b = .fin t n g → m ≠ 0 → n ≠ 0 →
      E .fmul = roundF f rm (.fin (s != t) (m * n) (e + g)) ∧
      (let q := min e g
       let sum := scaled s m e q + scaled t n g q
       sum ≠ 0 → E .fadd = roundF f rm (.fin (decide (sum < 0)) sum.natAbs q))) ∧
    ((decodeF f a = .nan ∨ decodeF f b = .nan) → ∀ op, (op = .fadd ∨ op = .fsub ∨ op = .fmul) → E op = (canonNan f, 0)) ∧
    (∀ s, decodeF f a = .inf s → decodeF f b = .inf (!s) → E .fadd = (canonNan f, fNV)) ∧
    (∀ s t g, decodeF f a = .inf s → decodeF f b = .fin t 0 g → E .fmul = (canonNan f, fNV)) ∧
    (decodeF f a = .nan → decodeF f b ≠ .nan → (E .fmin).1 = b ∧ (E .fmax).1 = b) ∧
    (decodeF f a ≠ .nan → decodeF f b ≠ .nan → ltV (decodeF f a) (decodeF f b) = true →
      (E .fmin).1 = a ∧ (E .fmax).1 = b) ∧
    ((E .fmin).2 = 0 ∧ (E .fmax).2 = 0 ∧ (E .fabs).2 = 0 ∧ (E .fneg).2 = 0) ∧
    (decodeF f a ≠ .nan → decodeF f (E .fabs).1 = (decodeF f a).abs ∧ decodeF f (E .fneg).1 = (decodeF f a).neg)

/-- The compares of R391: mask register, sources, kind. -/
def vcompareForm : Instr → Option (VCmp × BitVec 3 × BitVec 6 × BitVec 6)
  | .vFcmpEq k a b => some (.feq, k, a.reg, b.reg)
  | .vFcmpLt k a b => some (.flt, k, a.reg, b.reg)
  | .vFcmpLe k a b => some (.fle, k, a.reg, b.reg)
  | .vFcmpUn k a b => some (.fun_, k, a.reg, b.reg)
  | .vIcmpEq k a b => some (.ieq, k, a.reg, b.reg)
  | .vIcmpLt k a b => some (.ilt, k, a.reg, b.reg)
  | .vIcmpLtn k a b => some (.iltn, k, a.reg, b.reg)
  | _ => none

/-- The relation of R391 on two codes. -/
def vrelation (op : VCmp) (f a b : Nat) : Bool :=
  match op with
  | .feq => eqV (decodeF f a) (decodeF f b)
  | .flt => ltV (decodeF f a) (decodeF f b)
  | .fle => ltV (decodeF f a) (decodeF f b) || eqV (decodeF f a) (decodeF f b)
  | .fun_ => decodeF f a == .nan || decodeF f b == .nan
  | .ieq => a == b
  | .ilt => decide (decodeI f a < decodeI f b)
  | .iltn => decide (a < b)

/-- R391: a compare in a format of its class, without tags, writes its relation to bit j of its mask register for every
element j and zero to the bits above, and sets NV when a signalling one meets a NaN. -/
def Claim.VectorCompares : Prop :=
  ∀ (s : State) (i : Instr) (op : VCmp) (k : BitVec 3) (a b : BitVec 6), vcompareForm i = some (op, k, a, b) →
    s.issue.ctx.mask = 0 → inClass (vcmpClass op) s.opFmt = true → vReady s i [a, b] [] →
    let x := fun (r : BitVec 6) (j : Nat) => elemNow s j (s.regs.getV r)
    ∃ (m : KReg) (fl : Flags), exec i s = .next ((s.mapRegs fun r => r.setK k m).orFlags fl) ∧
      (∀ j, j < 1024 → m.getLsbD j = (decide (j < countNow s) && vrelation op s.opFmt (x a j) (x b j))) ∧
      (fl = if (op = .flt ∨ op = .fle) ∧ ∃ j, j < countNow s ∧
          (decodeF s.opFmt (x a j) = .nan ∨ decodeF s.opFmt (x b j) = .nan) then fNV else 0)

/-- R393: the moving operations, without tags: element j of each result. -/
def Claim.VectorMoves : Prop :=
  ∀ (s : State) (d : BitVec 6) (a b : Src) (z : Bool),
    let w := fmtBits s.opFmt
    let n := countNow s
    let old := s.regs.getV d
    let va := fun j => elemNow s j (s.regs.getV a.reg)
    let vb := fun j => elemNow s j (s.regs.getV b.reg)
    let sa := (s.regs.getS a.reg).toNat
    let sb := (s.regs.getS b.reg).toNat
    let on := fun j => s.maskNow.getLsbD j
    (vReady s (.vMov d a z) [a.reg] [] → ∃ v, writesV (.vMov d a z) s d v 0 ∧ underMask s z old v va ∧
      (w = 6 → v &&& spareMask = s.regs.getV a.reg &&& spareMask)) ∧
    (vReady s (.vSel d a b z) [a.reg, b.reg] [] → ∃ v, writesV (.vSel d a b z) s d v 0 ∧
      ∀ j, j < n → elemNow s j v = if on j then va j else vb j) ∧
    (vReady s (.vBcast d a z) [] [a.reg] → ∃ v, writesV (.vBcast d a z) s d v 0 ∧ underMask s z old v fun _ => sa) ∧
    (vReady s (.vIns d a b z) [d] [a.reg, b.reg] → ∃ v, writesV (.vIns d a b z) s d v 0 ∧
      ∀ j, j < n → elemNow s j v = if j = sb ∧ on j = true then sa % 2 ^ w else elemNow s j old) ∧
    (vReady s (.vExt d a b z) [a.reg] [b.reg] → ∃ v, writesV (.vExt d a b z) s d v 0 ∧
      ∀ j, j < n → elemNow s j v = if j = 0 ∧ sb < n ∧ on sb = true then va sb else 0) ∧
    (vReady s (.vIota d z) [] [] → ∃ v fl, writesV (.vIota d z) s d v fl ∧ underMask s z old v fun j =>
      if isFloatFmt s.opFmt then (roundF s.opFmt s.vRm.toNat (ofInt j)).1
      else intCode s.opFmt (intNarrow s.opFmt s.vSat j)) ∧
    (vReady s (.vPerm d a b z) [a.reg, b.reg] [] → ∃ v, writesV (.vPerm d a b z) s d v 0 ∧
      underMask s z old v fun j => if vb j < n then va (vb j) else 0) ∧
    (vReady s (.vRot d a b z) [a.reg] [b.reg] → ∃ v, writesV (.vRot d a b z) s d v 0 ∧
      underMask s z old v fun j => va ((j + sb) % n)) ∧
    (vReady s (.vZip d a b z) [a.reg, b.reg] [] → ∃ v, writesV (.vZip d a b z) s d v 0 ∧
      underMask s z old v fun j => if j % 2 = 0 then va (j / 2) else vb (j / 2)) ∧
    (vReady s (.vUnzip d a b z) [a.reg, b.reg] [] → ∃ v, writesV (.vUnzip d a b z) s d v 0 ∧
      underMask s z old v fun j => if j < n / 2 then va (2 * j) else vb (2 * j - n))

/-- R394: v.cvt converts element j of va from format g, with Round, ToInt or IntNarrow, under the mask, and joins the flags
of the elements converted; elements that va has none for are zero whatever the mask. -/
def Claim.VectorConversion : Prop :=
  ∀ (s : State) (d : BitVec 6) (a : Src) (g : BitVec 5) (z : Bool), Sys2Proof.isRegFmt g.toNat = true →
    vReady s (.vCvt d a g z) [a.reg] [] →
    let f := s.opFmt
    let G := normFmt g.toNat
    let c := fun j => convTo f s.vRm.toNat s.vSat (decodeNum G (getE (fmtBits G) j (s.regs.getV a.reg)))
    ∃ (v : VReg) (fl : Flags), writesV (.vCvt d a g z) s d v fl ∧
      fl = (List.range (min (countNow s) (elemCount (fmtBits G)))).foldl
        (fun x j => if s.maskNow.getLsbD j then x ||| (c j).2 else x) 0 ∧
      (∀ j, j < countNow s → j < elemCount (fmtBits G) → elemNow s j v =
        if s.maskNow.getLsbD j then (c j).1 % 2 ^ fmtBits f else if z then 0 else elemNow s j (s.regs.getV d)) ∧
      (∀ j, j < countNow s → elemCount (fmtBits G) ≤ j → elemNow s j v = 0)

/-- R395, R234: v.widen puts source element i, converted, at lane i div m of register vd + (i mod m), with zero in the lanes
past the last, and v.narrow takes result element i from there; each joins the flags of the elements it converts. Widths that
R234 does not list are ILLEGAL_OP (code 2), and a tagged operand is AXIS_COLLISION (code 0x16). -/
def Claim.WidenAndNarrow : Prop :=
  ∀ (s : State) (d : BitVec 6) (a : Src) (q : Bool) (g : BitVec 5) (z : Bool), Sys2Proof.isRegFmt g.toNat = true →
    let m := if q then 4 else 2
    let f := s.opFmt
    let G := normFmt g.toNat
    let wf := fmtBits f
    let wg := fmtBits G
    let on := fun j => s.maskNow.getLsbD j
    let conv := fun c => convTo f s.vRm.toNat s.vSat (decodeNum G c)
    let failed := fun (t : Trap) => { s with issue := { s.issue with fails := s.issue.fails ++ [⟨s.issue.ctx.idx, t⟩] } }
    let bad := failed { code := 2, info := .ofNat 64 s.issue.ctx.raw }
    let tagged := failed { code := 0x16, info := .ofNat 64 s.issue.ctx.idx }
    (d.toNat % m = 0 → vReady s (.vWiden d a q g z) [a.reg] [] → widenPair m wg wf = true →
      ∃ t : State, exec (.vWiden d a q g z) s = .next t ∧
        (∀ i, i < elemCount wg → getE wf (i / m) (t.regs.getV (d + .ofNat 6 (i % m))) =
          if on i then (conv (getE wg i (s.regs.getV a.reg))).1 % 2 ^ wf
          else if z then 0 else getE wf (i / m) (s.regs.getV (d + .ofNat 6 (i % m)))) ∧
        (∀ k l, k < m → (elemCount wg + m - 1) / m ≤ l → l < elemCount wf → getE wf l (t.regs.getV (d + .ofNat 6 k)) = 0) ∧
        t.csr = { s.csr with fpflags := s.csr.fpflags ||| ((List.range (elemCount wg)).foldl
          (fun x i => if on i then x ||| (conv (getE wg i (s.regs.getV a.reg))).2 else x) 0) } ∧
        (∀ r : BitVec 6, (r.toNat < d.toNat ∨ d.toNat + m ≤ r.toNat) → t.regs.getV r = s.regs.getV r) ∧
        t.regs.s = s.regs.s ∧ t.regs.p = s.regs.p ∧ t.regs.k = s.regs.k ∧ t.ms = s.ms ∧
        t.core.scratch = s.core.scratch) ∧
    (a.reg.toNat % m = 0 → vReady s (.vNarrow d a q g z) (groupRegs a.reg q) [] → widenPair m wf wg = true →
      let c := fun i => conv (getE wg (i / m) (s.regs.getV (a.reg + .ofNat 6 (i % m))))
      ∃ (v : VReg) (fl : Flags), writesV (.vNarrow d a q g z) s d v fl ∧
        underMask s z (s.regs.getV d) v (fun i => (c i).1) ∧ fl = flagsOf s fun i => (c i).2) ∧
    (s.issue.opened = true →
      (widenPair m wg wf = false → vReady s (.vWiden d a q g z) [a.reg] [] → exec (.vWiden d a q g z) s = .next bad) ∧
      (widenPair m wf wg = false → vReady s (.vNarrow d a q g z) (groupRegs a.reg q) [] →
        exec (.vNarrow d a q g z) s = .next bad) ∧
      (s.allows (.vWiden d a q g z) → s.regs.tags (vOpd a.reg :: s.maskOpd) ≠ 0 →
        exec (.vWiden d a q g z) s = .next tagged) ∧
      (s.allows (.vNarrow d a q g z) → s.regs.tags ((groupRegs a.reg q).map vOpd ++ s.maskOpd) ≠ 0 →
        exec (.vNarrow d a q g z) s = .next tagged))

/-- R396, R397: the packing operations. pack6 takes the low six bits of byte i into six-bit slot i, zeros above slot 511;
unpack6 extends slot i to byte i; unpackq4 decodes groups of four codes, each value exact; packq4 encodes a group with
the mark where its first element is no integer in −7 to 7 and its last two are zero. -/
def Claim.VectorPacking : Prop :=
  ∀ (s : State) (d : BitVec 6) (a : Src) (z : Bool),
    let va := s.regs.getV a.reg
    let old := s.regs.getV d
    let on := fun j => s.maskNow.getLsbD j
    (vReady s (.vPack6 d a z) [a.reg] [] → ∃ v, writesV (.vPack6 d a z) s d v 0 ∧
      (∀ j, j < 512 → getE 6 j v = if on j then getE 8 j va % 64 else if z then 0 else getE 6 j old) ∧
      ∀ j, 512 ≤ j → j < 672 → getE 6 j v = 0) ∧
    ((s.opFmt = 11 ∨ s.opFmt = 12) → vReady s (.vUnpack6 d a z) [a.reg] [] →
      ∃ v, writesV (.vUnpack6 d a z) s d v 0 ∧
        underMask s z old v fun j => if s.opFmt = 11 ∧ 32 ≤ getE 6 j va then getE 6 j va + 192 else getE 6 j va) ∧
    ((s.opFmt = 4 ∨ s.opFmt = 5) → vReady s (.vUnpackq4 d a z) [a.reg] [] →
      ∃ v fl, writesV (.vUnpackq4 d a z) s d v fl ∧ ∀ k j, k < 128 → j < 4 → on (4 * k + j) = true →
        let c := fun (j : Nat) => getE 4 (4 * k + j) va
        (c 0 ≠ 8 → c j ≠ 8 → decodeF s.opFmt (getE 8 (4 * k + j) v) =
          (decodeF s.opFmt (roundF s.opFmt 0 (ofInt (decodeI 15 (c j)))).1)) ∧
        (c 0 = 8 → j = 0 → decodeF s.opFmt (c 2 + 16 * c 3) ≠ .nan → getE 8 (4 * k) v = c 2 + 16 * c 3)) ∧
    ((s.opFmt = 4 ∨ s.opFmt = 5) → vReady s (.vPackq4 d a z) [a.reg] [] →
      ∃ v fl, writesV (.vPackq4 d a z) s d v fl ∧ ∀ k, k < 128 →
        let x := fun (j : Nat) => if on (4 * k + j) then getE 8 (4 * k + j) va else 0
        let c := fun (j : Nat) => getE 4 (4 * k + j) v
        ((decodeF s.opFmt (x 2)).isZero = true → (decodeF s.opFmt (x 3)).isZero = true →
          smallInt (decodeF s.opFmt (x 0)) = false → c 0 = 8 ∧ c 2 = x 0 % 16 ∧ c 3 = x 0 / 16) ∧
        (smallInt (decodeF s.opFmt (x 0)) = true → c 0 ≠ 8))

/-- R398: v.setfmt writes VFMT under the field rules of R201. -/
def Claim.SetFormat : Prop :=
  ∀ (s : State) (a : Src), s.allows (.vSetfmt a) → s.plain [a.reg] →
    exec (.vSetfmt a) s = .next (s.mapCsr fun c => c.write 6 (s.regs.getS a.reg))

/-- One level of R399's tree over codes, with the flags so far: neighbours are added, and an odd last node passes up. -/
def treeLevelUp (f rm : Nat) (l : List Nat × Flags) : List Nat × Flags :=
  let up := (List.range ((l.1.length + 1) / 2)).map fun j =>
    if 2 * j + 1 < l.1.length then faddC f rm (l.1.getD (2 * j) 0) (l.1.getD (2 * j + 1) 0) else (l.1.getD (2 * j) 0, 0)
  (up.map (·.1), up.foldl (fun x y => x ||| y.2) l.2)

/-- R399, R400, in the formats of each operation's class: a reduction writes its result over the active elements to element 0
and zeros to the others: the sum narrowed, the largest or the smallest value, the root of the pairwise tree in which an
inactive element stands for −0, or the running fmax or fmin from its identity (assumption 60). A scan writes the running
result to every active element. The flags of the float sums are joined to FPFLAGS. -/
def Claim.ReductionsAndScans : Prop :=
  ∀ (s : State) (d : BitVec 6) (a : Src) (z : Bool),
    let f := s.opFmt
    let n := countNow s
    let va := fun j => elemNow s j (s.regs.getV a.reg)
    let act := (List.range n).filter fun j => s.maskNow.getLsbD j
    let ints := act.map fun j => decodeI f (va j)
    let one := fun (v : VReg) (c : Nat) => elemNow s 0 v = c ∧ ∀ j, 0 < j → j < n → elemNow s j v = 0
    let int := isFloatFmt f = false ∧ Sys2Proof.isRegFmt f = true
    let flt := isFloatFmt f = true
    let fadd := faddC f s.vRm.toNat
    let running := fun (p : Nat → Bool) => (act.filter p).foldl (fun acc i => (fadd acc (va i)).1) (signCode f true)
    (int → vReady s (.vRadd d a z) [a.reg] [] → ∃ v, writesV (.vRadd d a z) s d v 0 ∧
      one v (intCode f (intNarrow f s.vSat ints.sum))) ∧
    (int → vReady s (.vRmax d a z) [a.reg] [] → ∃ v, writesV (.vRmax d a z) s d v 0 ∧
      one v (intCode f (ints.foldl max (intMin f)))) ∧
    (int → vReady s (.vRmin d a z) [a.reg] [] → ∃ v, writesV (.vRmin d a z) s d v 0 ∧
      one v (intCode f (ints.foldl min (intMax f)))) ∧
    (flt → vReady s (.vRfadd d a z) [a.reg] [] → ∃ v c fl, writesV (.vRfadd d a z) s d v fl ∧ one v c ∧
      Nat.repeat (treeLevelUp f s.vRm.toNat) 10 ((List.range n).map fun j => if s.maskNow.getLsbD j then va j else signCode f true, 0) =
        ([c], fl)) ∧
    (flt → vReady s (.vRfmax d a z) [a.reg] [] → ∃ v, writesV (.vRfmax d a z) s d v 0 ∧
      one v (act.foldl (fun c j => fminmaxC f true c (va j)) (roundF f s.vRm.toNat (.inf true)).1)) ∧
    (flt → vReady s (.vRfmin d a z) [a.reg] [] → ∃ v, writesV (.vRfmin d a z) s d v 0 ∧
      one v (act.foldl (fun c j => fminmaxC f false c (va j)) (roundF f s.vRm.toNat (.inf false)).1)) ∧
    (int → vReady s (.vScanAdd d a z) [a.reg] [] → ∃ v, writesV (.vScanAdd d a z) s d v 0 ∧
      underMask s z (s.regs.getV d) v fun j => intCode f ((act.filter (· ≤ j)).foldl (fun acc i =>
        intNarrow f s.vSat (acc + decodeI f (va i))) 0)) ∧
    (flt → vReady s (.vScanFadd d a z) [a.reg] [] → ∃ v fl, writesV (.vScanFadd d a z) s d v fl ∧
      underMask s z (s.regs.getV d) v (fun j => running (· ≤ j)) ∧
      fl = act.foldl (fun x j => x ||| (fadd (running (· < j)) (va j)).2) 0)

/-- The special functions of R401. -/
def sfuForm : Instr → Option (Sfu × BitVec 6 × Src × Bool)
  | .vRcp d a z => some (.rcp, d, a, z)
  | .vRsqrt d a z => some (.rsqrt, d, a, z)
  | .vSqrt d a z => some (.sqrt, d, a, z)
  | .vExp2 d a z => some (.exp2, d, a, z)
  | .vLog2 d a z => some (.log2, d, a, z)
  | .vTanh d a z => some (.tanh, d, a, z)
  | .vErf d a z => some (.erf, d, a, z)
  | _ => none

/-- R401: a special function in a float format, without tags, makes its destination empty, and its result, under the mask,
is on its way to be written 12 cycles after issue; no value changes at issue. -/
def Claim.SpecialFunctionsIssue : Prop :=
  ∀ (s : State) (i : Instr) (op : Sfu) (d : BitVec 6) (a : Src) (z : Bool), sfuForm i = some (op, d, a, z) →
    isFloatFmt s.opFmt = true → vReady s i [a.reg] [] →
    let c := fun j => sfuC op s.opFmt s.vRm.toNat (elemNow s j (s.regs.getV a.reg))
    ∃ (v : VReg) (fl : Flags), exec i s = .next (s.mapCore fun x => { x.onRegs (·.mark .v d .empty) with
        fills := x.fills ++ [⟨.v, d, .value v fl, s.cyc + 12⟩] }) ∧
      underMask s z (s.regs.getV d) v (fun j => (c j).1) ∧ fl = flagsOf s fun j => (c j).2

/-- R401, the table of special operands, in the formats with infinities: zeros, infinities, negative operands, NaN, and the
logarithm of 1. -/
def Claim.SpecialOperands : Prop :=
  ∀ (f rm a : Nat), 1 ≤ f → f ≤ 4 → rm ≤ 4 → a < 2 ^ fmtBits f →
    let R := fun op => sfuC op f rm a
    let x := decodeF f a
    let inf := fun (neg : Bool) => signCode f neg + infCode f
    (∀ op, x = .nan → R op = (canonNan f, 0)) ∧
    (∀ s e, x = .fin s 0 e → R .rcp = (inf s, fDZ) ∧ R .rsqrt = (inf s, fDZ) ∧ R .sqrt = (signCode f s, 0) ∧
      R .log2 = (inf true, fDZ) ∧ R .tanh = (signCode f s, 0) ∧ R .erf = (signCode f s, 0)) ∧
    (x = .inf false → R .rcp = (0, 0) ∧ R .rsqrt = (0, 0) ∧ R .sqrt = (inf false, 0) ∧ R .exp2 = (inf false, 0) ∧
      R .log2 = (inf false, 0) ∧ R .tanh = roundF f rm (.fin false 1 0) ∧ R .erf = roundF f rm (.fin false 1 0)) ∧
    (x = .inf true → R .rcp = (signCode f true, 0) ∧ R .exp2 = (0, 0) ∧ R .rsqrt = (canonNan f, fNV) ∧
      R .sqrt = (canonNan f, fNV) ∧ R .log2 = (canonNan f, fNV) ∧ R .tanh = roundF f rm (.fin true 1 0) ∧
      R .erf = roundF f rm (.fin true 1 0)) ∧
    (a = (roundF f 0 (ofInt 1)).1 → R .log2 = (0, 0)) ∧
    (∀ m e, x = .fin true (m + 1) e → R .rsqrt = (canonNan f, fNV) ∧ R .sqrt = (canonNan f, fNV) ∧
      R .log2 = (canonNan f, fNV))

/-- R405: v.rda copies row s(a)[5:0] of its bank under the mask; v.wra writes vd to the row and v.adda adds vd to it, in
FP32 or INT32, the flags of the sums joined to FPFLAGS; no other row changes. A bank that a matrix command owns holds each of them. -/
def Claim.AccumulatorPorts : Prop :=
  ∀ (s : State) (d : BitVec 6) (a : Src) (n : BitVec 3) (z : Bool), (s.opFmt = 1 ∨ s.opFmt = 25) →
    let row := accIx n (s.regs.getS a.reg).toNat
    let old := s.core.acc.get row
    let v := s.regs.getV d
    let rest := fun (t : State) => (∀ i, i ≠ row → t.core.acc.get i = s.core.acc.get i) ∧ t.regs = s.regs ∧
      t.ms = s.ms ∧ t.core.scratch = s.core.scratch ∧ ∀ c, c ≠ s.cur → t.coreAt c = s.coreAt c
    (row.val = 64 * n.toNat + (s.regs.getS a.reg).toNat % 64) ∧
    (s.core.owned n = false → vReady s (.vRda d a n z) [] [a.reg] → ∃ w, writesV (.vRda d a n z) s d w 0 ∧
      underMask s z v w fun j => getE 32 j old) ∧
    (s.core.owned n = false → s.allows (.vWra d a n) → s.plainOps [sOpd a.reg, vOpd d] → s.single →
      ∃ t : State, exec (.vWra d a n) s = .next t ∧ t.core.acc.get row = v ∧ rest t ∧ t.csr = s.csr) ∧
    (s.core.owned n = false → s.allows (.vAdda d a n) → s.plainOps [sOpd a.reg, vOpd d] → s.single →
      ∃ t : State, exec (.vAdda d a n) s = .next t ∧ rest t ∧ t.csr = { s.csr with fpflags := s.csr.fpflags |||
          (if s.opFmt = 1 then (List.range 128).foldl
            (fun x j => x ||| (faddC 1 s.vRm.toNat (getE 32 j old) (getE 32 j v)).2) 0 else 0) } ∧
        ∀ j, j < 128 → getE 32 j (t.core.acc.get row) =
        if s.opFmt = 1 then (faddC 1 s.vRm.toNat (getE 32 j old) (getE 32 j v)).1 % 2 ^ 32
        else intCode 25 (intNarrow 25 s.vSat (decodeI 25 (getE 32 j old) + decodeI 25 (getE 32 j v)))) ∧
    (s.core.owned n = true → let held := { s with issue := { s.issue with held := true } }
      (s.allows (.vRda d a n z) → exec (.vRda d a n z) s = .next held) ∧
      (s.allows (.vWra d a n) → exec (.vWra d a n) s = .next held) ∧
      (s.allows (.vAdda d a n) → exec (.vAdda d a n) s = .next held))

/-- R406, R215: v.qpush puts the whole of va at the tail of a queue with room, the word of bytes 0 to 7 in entries of 8
bytes, once the core's earlier accesses are performed (08_ordering R165); v.qpop takes the head's bytes into vd, under the
mask, and CI rises whatever the mask. Each requests the entry's banks (10_core R209). -/
def Claim.VectorQueues : Prop :=
  ∀ (s : State) (q : BitVec 4) (a : Src) (d : BitVec 6) (z : Bool), queueSeen s q →
    let k := s.core.queue q
    let unit := s.vunit
    k.cfg = true →
    (k.count < k.depth → s.core.lockedFor unit (k.slotAt k.pi.toNat) = false → s.allows (.vQpush q a) →
      s.plainOps [vOpd a.reg] → s.single → s.core.openIds = [] →
      exec (.vQpush q a) s = .next ((s.useBanks unit (k.entry k.pi.toNat) []).mapCore fun x =>
        x.push q (s.regs.getV a.reg))) ∧
    (0 < k.count → s.core.lockedFor unit (k.slotAt k.ci.toNat) = false →
      s.core.scratch.firstPoison (k.entry k.ci.toNat) = none → vReady s (.vQpop d q z) [] [] →
      ∃ v, exec (.vQpop d q z) s = .next (((s.useBanks unit (k.entry k.ci.toNat) [(.v, d.toNat)]).mapCore fun x =>
          x.pop q).mapRegs fun r => r.setV d v) ∧
        underMask s z (s.regs.getV d) v (fun j => elemNow s j (s.core.peek q 0)) ∧
        (fmtBits s.opFmt = 6 → v &&& spareMask = s.core.peek q 0 &&& spareMask))

/-- R407: the mask operations, without tags: kand, kor, kxor and knot over 1,024 bits; kpopc and kfirst give element 0 the
count of set bits below N, or the lowest of them or N, and zero the others; kset sets bit i where element i is no
zero. -/
def Claim.MaskOperations : Prop :=
  ∀ (s : State) (a b d : BitVec 3) (v : BitVec 6) (x : Src), s.issue.ctx.mask = 0 →
    let ok := fun (i : Instr) (ks : List (BitVec 3)) => s.allows i ∧ s.plainOps (ks.map kOpd) ∧ s.single
    let w := fun (i : Instr) (k : KReg) => exec i s = .next (s.mapRegs fun r => r.setK d k)
    let n := countNow s
    let set := (List.range n).filter fun j => (s.regs.getK a).getLsbD j
    (ok (.vKand d a b) [a, b] → w (.vKand d a b) (s.regs.getK a &&& s.regs.getK b)) ∧
    (ok (.vKor d a b) [a, b] → w (.vKor d a b) (s.regs.getK a ||| s.regs.getK b)) ∧
    (ok (.vKxor d a b) [a, b] → w (.vKxor d a b) (s.regs.getK a ^^^ s.regs.getK b)) ∧
    (ok (.vKnot d a) [a] → w (.vKnot d a) (~~~ s.regs.getK a)) ∧
    (ok (.vKpopc v a) [a] → vReady s (.vKpopc v a) [] [] → isFloatFmt s.opFmt = false → ∃ r,
      exec (.vKpopc v a) s = .next (s.mapRegs fun g => g.setV v r) ∧
      elemNow s 0 r = intCode s.opFmt (intNarrow s.opFmt s.vSat set.length) ∧ ∀ j, 0 < j → j < n → elemNow s j r = 0) ∧
    (ok (.vKfirst v a) [a] → vReady s (.vKfirst v a) [] [] → isFloatFmt s.opFmt = false → ∃ r,
      exec (.vKfirst v a) s = .next (s.mapRegs fun g => g.setV v r) ∧
      elemNow s 0 r = intCode s.opFmt (intNarrow s.opFmt s.vSat (set.headD n : Nat)) ∧
      ∀ j, 0 < j → j < n → elemNow s j r = 0) ∧
    (vReady s (.vKset d x) [x.reg] [] → ∃ k, exec (.vKset d x) s = .next ((s.mapRegs fun r => r.setK d k).orFlags 0) ∧
      ∀ j, j < 1024 → k.getLsbD j = (decide (j < n) && (let c := elemNow s j (s.regs.getV x.reg)
        if isFloatFmt s.opFmt then c % 2 ^ (fmtBits s.opFmt - 1) != 0 else c != 0)))

/-- R408, R409, under one active level of tag t and extent 2, all members executing: lred combines the two members of va
element by element into an untagged result and joins the flags of its sums, lpick copies the member that s(b) names, lbcast
copies va to both members, which take the tag, and both write spare bits as zero (R383); no other v register changes. -/
def Claim.LiftMoves : Prop :=
  ∀ (s : State) (d : BitVec 6) (a b : Src) (h : BitVec 3) (t : BitVec 2) (z : Bool) (v : LiftLevel),
    s.lift.levels = [v] → v.tag = t → t ≠ 0 → v.ext = 2 → bitOf s.lift.lmask.toNat 0 = true →
    bitOf s.lift.lmask.toNat 1 = true → s.issue.ctx.mask = 0 → 4 ≤ fmtBits s.opFmt → fmtBits s.opFmt ≤ 32 →
    let ts : BitVec 3 := 1#3 <<< (t.toNat - 1)
    let va := fun (m : Nat) (j : Nat) => elemNow s j (s.regs.getV (a.reg + .ofNat 6 m))
    (s.regs.tagOf (vOpd a.reg) = ts → a.reg.toNat % 2 = 0 → h.toNat ≤ 5 →
      inClass (vredClass (lredKind h.toNat)) s.opFmt = true → s.allows (.vLred d a h t z) → ∃ r fl,
      writesV (.vLred d a h t z) s d r fl ∧ ∀ j, j < countNow s →
        elemNow s j r = (redStep (lredKind h.toNat) s.opFmt s.vRm.toNat s.vSat (va 0 j) (va 1 j)).1 %
          2 ^ fmtBits s.opFmt ∧
        fl = (List.range (countNow s)).foldl
          (fun x j => x ||| (redStep (lredKind h.toNat) s.opFmt s.vRm.toNat s.vSat (va 0 j) (va 1 j)).2) 0) ∧
    (s.regs.tagOf (vOpd a.reg) = ts → a.reg.toNat % 2 = 0 → s.plain [b.reg] → (s.regs.getS b.reg).toNat < 2 →
      s.allows (.vLpick d a b z) → ∃ r, exec (.vLpick d a b z) s = .next (s.mapRegs fun g => g.setV d r) ∧
        (fmtBits s.opFmt = 6 → r &&& spareMask = 0) ∧ ∀ j, j < countNow s → elemNow s j r = va (s.regs.getS b.reg).toNat j) ∧
    (s.regs.tagOf (vOpd a.reg) = 0 → d.toNat % 2 = 0 → s.allows (.vLbcast d a t z) →
      ∃ u : State, exec (.vLbcast d a t z) s = .next u ∧ u.csr = s.csr ∧ u.core.scratch = s.core.scratch ∧
        (∀ r : BitVec 6, (r.toNat < d.toNat ∨ d.toNat + 2 ≤ r.toNat) → u.regs.getV r = s.regs.getV r) ∧ ∀ m, m < 2 →
        u.regs.vTag.get (Fin.ofNat 64 (d.toNat + m)) = ts ∧ (fmtBits s.opFmt = 6 → u.regs.getV (d + .ofNat 6 m) &&& spareMask = 0) ∧
        ∀ j, j < countNow s → elemNow s j (u.regs.getV (d + .ofNat 6 m)) = va 0 j)

/-- The vector memory forms of R402: register, base, form, second address operand, z, store. -/
def vectorMemory : Instr → Option (BitVec 6 × Src × VForm × Option Opd × Bool × Bool)
  | .vLd d a o z => some (d, a, .cont o, none, z, false)
  | .vSt d a o => some (d, a, .cont o, none, false, true)
  | .vLdx d a b z => some (d, a, .indexed, some (vOpd b.reg), z, false)
  | .vStx d a b => some (d, a, .indexed, some (vOpd b.reg), false, true)
  | .vLds d a b z => some (d, a, .strided, some (sOpd b.reg), z, false)
  | .vSts d a b => some (d, a, .strided, some (sOpd b.reg), false, true)
  | _ => none

/-- The address of element j under R402, in an element size of es bytes (contiguous forms: of the element's first
byte). -/
def vectorAddr (s : State) (a : Src) (form : VForm) (b : Option Opd) (es j : Nat) : W :=
  let base := s.regs.getS a.reg
  match form, b with
  | .cont o, _ => base + 512 * o.signExtend 64 + .ofNat 64 (es * j)
  | .indexed, some o => base + (BitVec.ofNat 32 (getE 32 j (s.regs.vAt o.n))).signExtend 64 * .ofNat 64 es
  | .strided, some o => base + .ofNat 64 j * s.regs.sAt o.n
  | _, _ => base

/-- R402 to R404, R383, of the core's own scratch in a format of 8, 16 or 32 bits, every active element aligned and readable:
a load copies active element j from its address bit for bit, and the others, among them those past the 128 of an indexed
form, are zero or keep their value as z says; a store, which obeys no mask, writes element j there, in ascending j, and no
other byte of memory. Each requests its banks (10_core R209). -/
def Claim.VectorMemory : Prop :=
  ∀ (s : State) (i : Instr) (d : BitVec 6) (a : Src) (form : VForm) (b : Option Opd) (z st : Bool),
    vectorMemory i = some (d, a, form, b, z, st) → s.allows i →
    s.plainOps ([sOpd a.reg, vOpd d] ++ b.toList ++ s.maskOpd) →
    s.single → s.core.memReady = true → s.csr.nrep.toNat ≤ 1 → s.issue.ctx.lock = none →
    s.core.behindFence = [] → s.core.openIds = [] →
    Sys2Proof.isRegFmt s.opFmt = true → (fmtBits s.opFmt = 8 ∨ fmtBits s.opFmt = 16 ∨ fmtBits s.opFmt = 32) →
    let es := fmtBits s.opFmt / 8
    let n := match form with | .indexed => min 128 (countNow s) | _ => countNow s
    let at_ := fun j => vectorAddr s a form b es j
    let on := fun (j : Nat) => st || s.maskNow.getLsbD j
    (∀ j, j < n → (on j = true ∨ (j = 0 ∧ ((∃ o, form = .cont o) ∨ ∀ k, k < n → on k = false))) →
      (at_ j).toNat % es = 0 ∧ scratchFree s s.vunit (at_ j) es) →
    ∃ t : State, exec i s = .next t ∧ t.ms = s.ms ∧ (∀ c, c ≠ s.cur → t.coreAt c = s.coreAt c) ∧
      t.regs.s = s.regs.s ∧ t.regs.p = s.regs.p ∧ t.regs.k = s.regs.k ∧ t.csr = s.csr ∧
      (∀ r, r ≠ d → t.regs.getV r = s.regs.getV r) ∧
      (st = false → t.core.scratch = s.core.scratch ∧ ∀ j, j < countNow s → elemNow s j (t.regs.getV d) =
        if j < n ∧ on j = true then s.core.scratch.num (scratchByte s (at_ j)) es
        else if z then 0 else elemNow s j (s.regs.getV d)) ∧
      (st = true → t.regs = s.regs ∧
        (∀ j, j < n → (∀ k, j < k → k < n → at_ k ≠ at_ j) →
          t.core.scratch.num (scratchByte s (at_ j)) es = elemNow s j (s.regs.getV d)) ∧
        (∀ x, (∀ j, j < n → x < scratchByte s (at_ j) ∨ scratchByte s (at_ j) + es ≤ x) →
          t.core.scratch.read x = s.core.scratch.read x))

/-- R403, R383, R228: v.ld and v.st of the core's own scratch under k0, in any register format: the register's 512 bytes are
the 512 bytes from A(0) on, spare bits of 6-bit words included where they are loaded; a store writes these bits zero. A(0) is
a multiple of the format's width, of 16 bytes for a 6-bit one. -/
def Claim.VectorImages : Prop :=
  ∀ (s : State) (d : BitVec 6) (a : Src) (o : BitVec 7) (z : Bool),
    s.plainOps [sOpd a.reg, vOpd d] → s.single → s.core.memReady = true → s.csr.nrep.toNat ≤ 1 →
    s.issue.ctx.lock = none → s.issue.ctx.mask = 0 → s.core.behindFence = [] → s.core.openIds = [] →
    Sys2Proof.isRegFmt s.opFmt = true →
    let w := fmtBits s.opFmt
    let va := vectorAddr s a (.cont o) none 1
    (va 0).toNat % (if w = 6 then 16 else max 1 (w / 8)) = 0 →
    (∀ k, k < 512 → scratchFree s s.vunit (va k) 1) →
    (s.allows (.vLd d a o z) → ∃ t : State, exec (.vLd d a o z) s = .next t ∧ t.core.scratch = s.core.scratch ∧
      (∀ r, r ≠ d → t.regs.getV r = s.regs.getV r) ∧ t.regs.s = s.regs.s ∧ t.csr = s.csr ∧ t.ms = s.ms ∧
      ∀ k, k < 512 → (t.regs.getV d).extractLsb' (8 * k) 8 = s.core.scratch.read (scratchByte s (va k))) ∧
    (s.allows (.vSt d a o) → ∃ t : State, exec (.vSt d a o) s = .next t ∧ t.regs = s.regs ∧ t.csr = s.csr ∧ t.ms = s.ms ∧
      (∀ k, k < 512 → t.core.scratch.read (scratchByte s (va k)) =
        if w = 6 ∧ k % 16 = 15 then (s.regs.getV d).extractLsb' (8 * k) 8 &&& 0x3F
        else (s.regs.getV d).extractLsb' (8 * k) 8) ∧
      ∀ x, (∀ k, k < 512 → x ≠ scratchByte s (va k)) → t.core.scratch.read x = s.core.scratch.read x)

/-! ### The M operations (23_matrix R416 to R421, R438) -/

/-- R416, R420: m.setp writes its parameter register; commands that have issued do not write it back. -/
def Claim.ParameterWrites : Prop :=
  ∀ (s : State) (p : BitVec 3) (a : BitVec 6), s.allows (.mSetp p a) → s.plain [a] → s.single →
    s.csr.nrep.toNat ≤ 1 → ∃ t : State, exec (.mSetp p a) s = .next t ∧
      t.regs.pmAt p.toNat = s.regs.getS a ∧ t.regs.pmTagAt p.toNat = 0 ∧
      (∀ n, n < 8 → n ≠ p.toNat → t.regs.pmAt n = s.regs.pmAt n ∧ t.regs.pmTagAt n = s.regs.pmTagAt n) ∧
      t.core.matrix.queue.map (fun c => (c.op, c.num, c.pm)) = s.core.matrix.queue.map (fun c => (c.op, c.num, c.pm)) ∧
      (∀ c ∈ t.core.matrix.queue, c.reset.getLsbD p.toNat = true) ∧
      t.regs.s = s.regs.s ∧ t.regs.v = s.regs.v ∧ t.regs.p = s.regs.p ∧ t.regs.k = s.regs.k ∧ t.csr = s.csr ∧
      t.core.scratch = s.core.scratch ∧ t.core.acc = s.core.acc ∧ t.ms = s.ms ∧
      ∀ c, c ≠ s.cur → t.coreAt c = s.coreAt c

/-- R416: m.getp makes its destination empty. With no call outstanding it takes the register's value of now; with one it
waits for the last call that has issued. GETP_WRITE, on a core that is not frozen (07_faults R140), writes a value that is
known, once it is due, and changes nothing else. -/
def Claim.ParameterReads : Prop :=
  (∀ (s : State) (p : BitVec 3) (d : BitVec 6), s.allows (.mGetp p d) → s.regs.pmTagAt p.toNat = 0 → s.single →
    ∃ t : State, exec (.mGetp p d) s = .next t ∧ t.regs = s.regs.mark .s d .empty 0 ∧
      t.core.fills = s.core.fills ++ [⟨.s, d, .getp p s.core.lastCall
        (if s.core.lastCall = 0 then some (s.regs.pmAt p.toNat) else none), s.cyc + 2⟩] ∧
      t.csr = s.csr ∧ t.core.scratch = s.core.scratch ∧ t.ms = s.ms ∧ ∀ c, c ≠ s.cur → t.coreAt c = s.coreAt c) ∧
  ∀ (s : State) (f : PendFill) (p : BitVec 3) (n : Nat) (v : W) (r : List PendFill),
    (s.coreAt s.inp.core).fills = f :: r → f.src = .getp p n (some v) → f.due.toNat ≤ s.cyc.toNat →
    (s.coreAt s.inp.core).seq.freeze = 0 →
    exec .getpWrite s = .next (s.onCore s.inp.core fun x =>
      { x.onRegs (·.fill .s f.reg (ofS v)) with fills := r })

/-- R417, R418, R438: m.call and m.gang put a call into the command queue of tm with the next number and with pm0 to pm7
as they stand; a call of a routine that is not in the store, of a gate queue that is not configured, or an m.gang of
an instance without a matrix gang, is ILLEGAL_OP. -/
def Claim.CallsEnterTheQueue : Prop :=
  ∀ (s : State) (c : CallFields) (gang : Bool),
    let i := if gang then Instr.mGang c else Instr.mCall c
    s.allows i →
    let good := s.core.hasRoutine c.routine ∧ (c.gv = true → (s.queueBefore c.gq).cfg = true) ∧
      (gang = true → (s.matrixGang s.cur).isSome = true)
    let behind := gang = true → s.gangAgrees s.cur = true ∧ ∃ g ∈ s.gangSeats s.cur, g ≠ s.cur ∧
      (s.coreAt g).gangCalls.length ≤ s.core.gangCalls.length
    (good → s.core.tmHeld c.bank = false → behind → (∀ n, n < 8 → s.regs.pmTagAt n = 0) → s.single →
      s.csr.nrep.toNat ≤ 1 → ∃ (t : State) (m : MCmd), exec i s = .next t ∧
        t.core.matrix.queue = s.core.matrix.queue ++ [m] ∧ m.op = .call c gang ∧ m.pm = s.regs.pm ∧ m.reset = 0 ∧
        m.num = (s.core.tlAt 2).issued.toNat + 1 ∧ (t.core.tlAt 2).issued = (s.core.tlAt 2).issued + 1 ∧
        (t.core.tlAt 2).val = (s.core.tlAt 2).val ∧ t.core.matrix.run = s.core.matrix.run ∧ t.regs = s.regs ∧
        t.csr = s.csr ∧ t.core.acc = s.core.acc ∧ t.core.scratch = s.core.scratch ∧ t.ms = s.ms ∧
        ∀ g, g ≠ s.cur → t.coreAt g = s.coreAt g) ∧
    (good → s.core.tmHeld c.bank = true → exec i s = .next { s with issue := { s.issue with held := true } }) ∧
    (¬ good → s.issue.opened = true → exec i s = .next { s with issue := { s.issue with
      fails := s.issue.fails ++ [⟨s.issue.ctx.idx, { code := 2, info := .ofNat 64 s.issue.ctx.raw }⟩] } })

/-- R421: m.zacc and m.uld enter the command queue of tm; a full queue of eight, or a bank that another command holds,
holds them. An m.uld with a set bit in [63:22] of its address is ILLEGAL_OP, and one whose rows end past 0x300000 is
TRANSLATION_FAULT. -/
def Claim.AccumulatorCommands : Prop :=
  ∀ (s : State) (b : BitVec 3) (a : BitVec 6) (f : BitVec 5),
    let held := { s with issue := { s.issue with held := true } }
    let queued := fun (t : State) (op : MOp) => ∃ m : MCmd, t.core.matrix.queue = s.core.matrix.queue ++ [m] ∧ m.op = op ∧
      m.num = (s.core.tlAt 2).issued.toNat + 1 ∧ (t.core.tlAt 2).issued = (s.core.tlAt 2).issued + 1 ∧
      t.regs = s.regs ∧ t.csr = s.csr ∧ t.core.acc = s.core.acc ∧ t.core.scratch = s.core.scratch ∧ t.ms = s.ms ∧
      ∀ g, g ≠ s.cur → t.coreAt g = s.coreAt g
    (s.allows (.mZacc b) →
      (s.core.tmHeld b = false → ∃ t : State, exec (.mZacc b) s = .next t ∧ queued t (.zacc b)) ∧
      (s.core.tmHeld b = true → exec (.mZacc b) s = .next held)) ∧
    (s.allows (.mUld b a f) → s.plain [a] →
      let w := (s.regs.getS a).toNat
      let n := accRowBytes f.toNat 128
      let ok := w < 2 ^ 22 ∧ (f = 0 ∨ Sys2Proof.isRegFmt f.toNat = true) ∧ w % accAlign f.toNat = 0
      (ok → w + 64 * n ≤ 0x300000 → s.core.tmHeld b = false → ∃ t : State, exec (.mUld b a f) s = .next t ∧
        queued t (.uld b w f.toNat s.vRm.toNat s.vSat)) ∧
      (ok → w + 64 * n ≤ 0x300000 → s.core.tmHeld b = true → exec (.mUld b a f) s = .next held) ∧
      (ok → 0x300000 < w + 64 * n → s.issue.opened = true → s.csr.nrep.toNat ≤ 1 → exec (.mUld b a f) s = .next
        { s with issue := { s.issue with
          fails := s.issue.fails ++ [⟨s.issue.ctx.idx, { code := 8, reason := 2, info := s.regs.getS a }⟩] } }) ∧
      (¬ ok → s.issue.opened = true → exec (.mUld b a f) s = .next { s with issue := { s.issue with
        fails := s.issue.fails ++ [⟨s.issue.ctx.idx, { code := 2, info := .ofNat 64 s.issue.ctx.raw }⟩] } }))

/-- R418: the head call of a core starts when no tm command runs, its earlier accesses are performed, no c.sbar holds it, a
gate holds its count of entries, and the queue of the routine's first push micro-word has a free entry: it leaves the queue
and runs, with its bank zero when it asks for that. R421: m.zacc, 16 cycles after its start, leaves its bank zero and no
other, and its timeline moves. -/
def Claim.CallsStart : Prop :=
  (∀ (s : State) (m : MCmd) (l : List MCmd) (k : CallFields), let c := s.inp.core
    let x := s.coreAt c
    x.matrix.run = none → x.matrix.queue = m :: l → m.op = .call k false → s.engineLive c = true →
    s.throttledAt c = false → (∀ n ∈ m.after, n ∉ x.openIds) → x.sbarHolds m.seen none = false →
    (k.gv = true → k.gcnt.toNat ≤ (x.queue k.gq).count) →
    (∀ q, x.firstPush k.routine = some q → (x.queue q).cfg = true → (x.queue q).full = false) →
    ∃ t : State, exec .matrixCallStart s = .next t ∧ (t.coreAt c).matrix.run = some (MRun.start m s.cyc) ∧
      (t.coreAt c).matrix.queue = l ∧
      (k.z = true → ∀ r j, r < 64 → j < 128 → (t.coreAt c).bankCode k.bank r j = 0) ∧
      (∀ b r j, b ≠ k.bank → (t.coreAt c).bankCode b r j = x.bankCode b r j) ∧ (k.z = false → (t.coreAt c).acc = x.acc) ∧
      (t.coreAt c).regs = x.regs ∧ (t.coreAt c).csr = x.csr ∧ (t.coreAt c).scratch = x.scratch ∧ t.ms = s.ms ∧
      ∀ d, d ≠ c → t.coreAt d = s.coreAt d) ∧
  ∀ (s : State) (r : MRun) (b : BitVec 3), let c := s.inp.core
    (s.coreAt c).matrix.run = some r → r.cmd.op = .zacc b → s.engineLive c = true →
    r.since.toNat + 16 ≤ s.cyc.toNat →
    ∃ t : State, exec .zaccComplete s = .next t ∧ (t.coreAt c).matrix.run = none ∧
      (t.coreAt c).tl.get 2 = ((s.coreAt c).tlAt 2).complete r.cmd.num none ∧
      (∀ i j, i < 64 → j < 128 → (t.coreAt c).bankCode b i j = 0) ∧
      (∀ b' i j, b' ≠ b → (t.coreAt c).bankCode b' i j = (s.coreAt c).bankCode b' i j) ∧
      (t.coreAt c).regs = (s.coreAt c).regs ∧ (t.coreAt c).csr = (s.coreAt c).csr ∧
      (t.coreAt c).scratch = (s.coreAt c).scratch ∧ t.ms = s.ms ∧ ∀ d, d ≠ c → t.coreAt d = s.coreAt d

/-- R419, R420: a call that has ended, with its bank writes done, its writes of memory performed and nothing of it stopped,
completes: without writeback rounding its bank stays as it is, and with it each element touched takes its accumulator rounded
to FP32, to nearest even; a parameter register takes the call's final value unless a later m.setp wrote it; a gated call's
entries are popped; the timeline moves. -/
def Claim.CallsComplete : Prop :=
  ∀ (s : State) (r : MRun) (k : CallFields), let c := s.inp.core
    let x := s.coreAt c
    x.matrix.run = some r → r.cmd.op = .call k false → s.engineLive c = true → r.ended = true →
    r.bankAt.toNat ≤ s.cyc.toNat → r.wbOut = [] → (∀ e ∈ r.acc, e.1 < 8192) → r.stop = none → (r.allPipes.all fun p => p.stop.isNone) = true →
    ∃ t : State, exec .matrixCallComplete s = .next t ∧ (t.coreAt c).matrix.run = none ∧
      (r.acc = [] → (t.coreAt c).acc = x.acc) ∧
      (∀ i j v, i < 64 → j < 128 → r.acc.find? (fun e => e.1 == i * 128 + j) = some (i * 128 + j, v) →
        (t.coreAt c).bankCode k.bank i j = (roundF 1 0 (roundAcc (profile r.cmd.prof) v).1).1 % 2 ^ 32) ∧
      (∀ i j, i < 64 → j < 128 → r.acc.find? (fun e => e.1 == i * 128 + j) = none →
        (t.coreAt c).bankCode k.bank i j = x.bankCode k.bank i j) ∧
      (∀ n : Fin 8, r.cmd.src.get n = some n → (∀ m : Fin 8, m ≠ n → r.cmd.src.get m ≠ some n) →
        (t.coreAt c).regs.pm.get n = if r.cmd.reset.getLsbD n.val then x.regs.pm.get n else r.wp.get n) ∧
      (k.gv = true → (t.coreAt c).queue k.gq = { x.queue k.gq with ci := (x.queue k.gq).ci + .ofNat 16 k.gcnt.toNat }) ∧
      (∀ q, k.gv = false ∨ q ≠ k.gq → (t.coreAt c).queue q = x.queue q) ∧
      (t.coreAt c).tl.get 2 = (x.tlAt 2).complete r.cmd.num none ∧
      (t.coreAt c).regs.s = x.regs.s ∧ (t.coreAt c).regs.v = x.regs.v ∧ (t.coreAt c).scratch = x.scratch ∧ t.ms = s.ms ∧
      ∀ d, d ≠ c → t.coreAt d = s.coreAt d

/-- R421: m.uld completes once every row of its bank has been written to scratch: the bytes outside the rows stay as they
were; element c of row r is at the address + P·r + (width / 8)·c, little-endian: the raw word in form 0, or in a format of 8,
16 or 32 bits the element read as FP32 and rounded to a float format, or read as INT32 and narrowed to an integer one. -/
def Claim.BankUnload : Prop :=
  ∀ (s : State) (r : MRun) (b : BitVec 3) (off f rm : Nat) (sat : Bool),
    let c := s.inp.core
    let x := s.coreAt c
    let p := accRowBytes f 128
    let conv := fun (v : Nat) => if f = 0 then v else if isFloatFmt f then (roundF f rm (decodeF 1 v)).1
      else intCode f (intNarrow f sat (decodeI 25 v))
    let w := if f = 0 then 32 else fmtBits f
    x.matrix.run = some r → r.cmd.op = .uld b off f rm sat → s.engineLive c = true →
    r.since.toNat + (64 * p + 255) / 256 + 8 ≤ s.cyc.toNat → off + 64 * p ≤ 0x300000 →
    (f = 0 ∨ Sys2Proof.isRegFmt f = true) → (∀ i, i < 64 → x.lockedFor 5 (off + i * p) = false) →
    ∃ t : State, exec .uldComplete s = .next t ∧ (t.coreAt c).matrix.run = none ∧
      (t.coreAt c).tl.get 2 = (x.tlAt 2).complete r.cmd.num none ∧
      ((w = 8 ∨ w = 16 ∨ w = 32) → ∀ i k j, i < 64 → k < 128 → j < w / 8 →
        (t.coreAt c).scratch.read (x.scratchPhys (off + p * i + w / 8 * k + j)) =
          BitVec.ofNat 8 (conv (x.bankCode b i k) / 2 ^ (8 * j))) ∧
      (∀ a, a < 0x300000 → (a < off ∨ off + 64 * p ≤ a) →
        (t.coreAt c).scratch.read (x.scratchPhys a) = x.scratch.read (x.scratchPhys a)) ∧
      (f = 0 → (t.coreAt c).csr = x.csr) ∧ (t.coreAt c).acc = x.acc ∧ (t.coreAt c).regs = x.regs ∧ t.ms = s.ms ∧
      ∀ d, d ≠ c → t.coreAt d = s.coreAt d

/-! ### The C operations (15_copy) -/

/-- The C operations that name a quad, a promise register and a completion queue and no more. -/
def copyInstrs (f : CFields) : List Instr := [
  .cCopy f, .cCopyi f, .cGath f, .cScat f, .cFill f, .cPref f, .cRelay f, .cDecomp f, .cAccAdd f, .cAccFadd f, .cAccMax f,
  .cAccMin f, .cAccOr f, .cAccAnd f, .cFopAdd f, .cFopMin f, .cFopMax f, .cFopAnd f, .cFopOr f, .cFopXor f, .cFopSwap f,
  .cFopCas f, .cGet f, .cPut f, .cKvput f, .cKvapp f, .cKvinv f, .cMigr f]

/-- A C operation with its promise register, its completion queue and its quad; c.sbar has none. -/
abbrev copyForm (i : Instr) (prom : BitVec 6) (cq : Option (BitVec 4)) (quad : List (BitVec 6)) : Prop :=
  let regs := fun (q : BitVec 4) => (List.range 4).map fun k => BitVec.ofNat 6 (4 * q.toNat + k)
  (∃ f : CFields, i ∈ copyInstrs f ∧ prom = f.prom ∧ cq = (if f.cqv then some f.cq else none) ∧ quad = regs f.quad) ∨
  (∃ n v q k, i = .cRecast n prom v q k ∧ cq = (if v then some q else none) ∧ quad = regs n) ∨
  (∃ v q x y w, i = .cSbar prom v q x y w ∧ cq = (if v then some q else none) ∧ quad = [])

/-- The ranges that a command of these words touches are not being recast (04_spaces R80). -/
abbrev notRecasting (s : State) (i : Instr) (quad : List (BitVec 6)) : Prop :=
  ∀ m : CopyCmd, m.op = i → m.quad = quad.map s.regs.getS → s.recasting s.cur s.csr.part.toFin m = false

/-- R318, R325, R326: a C operation puts a command with the next number of its context's timeline into the context's
queue, its quad as the registers stand; it writes no register but the promise's, which reads empty until the promise is
written: context in [63:62], the number's low 22 bits in [61:40] and DUE's low 40 bits in [39:0]. No byte of memory or
scratch changes at issue. -/
def Claim.CopyCommandsEnter : Prop :=
  ∀ (s : State) (i : Instr) (prom : BitVec 6) (cq : Option (BitVec 4)) (quad : List (BitVec 6)) (x : Ctx),
    copyForm i prom cq quad → s.allows i → s.plain quad → s.csr.nrep.toNat ≤ 1 →
    s.ctxOfSlot s.issue.ctx.slot = some x → (∀ q, cq = some q → (s.queueBefore q).cfg = true) →
    (s.core.copy.get x).queue.length < 8 → notRecasting s i quad →
    let tl : Fin 3 := ⟨x.val, by omega⟩
    let n := (s.core.tlAt tl).issued + 1
    ∃ (t : State) (m : CopyCmd), exec i s = .next t ∧
      (t.core.copy.get x).queue = (s.core.copy.get x).queue ++ [m] ∧
      (t.core.copy.get x).run = (s.core.copy.get x).run ∧ (∀ y, y ≠ x → t.core.copy.get y = s.core.copy.get y) ∧
      m.op = i ∧ m.num = n.toNat ∧ m.quad = quad.map s.regs.getS ∧ m.cq = cq ∧
      (t.core.tlAt tl).issued = n ∧ (t.core.tlAt tl).val = (s.core.tlAt tl).val ∧ (t.core.tlAt tl).lastDue = m.due ∧
      (prom = 0 → t.regs = s.regs ∧ t.core.fills = s.core.fills) ∧
      (prom ≠ 0 → t.regs = s.regs.mark .s prom .empty 0 ∧ t.core.fills = s.core.fills ++
        [⟨.s, prom, .value (ofS (BitVec.ofNat 64
          (x.val * 2 ^ 62 + n.toNat % 2 ^ 22 * 2 ^ 40 + m.due.toNat % 2 ^ 40))) 0, s.cyc + 4⟩]) ∧
      t.csr = s.csr ∧ t.core.scratch = s.core.scratch ∧ t.core.acc = s.core.acc ∧ t.ms = s.ms ∧
      ∀ c, c ≠ s.cur → t.coreAt c = s.coreAt c

/-- R318, R319: a C operation holds while its context's queue holds eight commands, and one that names a completion queue
that is not configured is ILLEGAL_OP. -/
def Claim.CopyCommandsHeld : Prop :=
  ∀ (s : State) (i : Instr) (prom : BitVec 6) (cq : Option (BitVec 4)) (quad : List (BitVec 6)) (x : Ctx),
    copyForm i prom cq quad → s.allows i → s.plain quad → s.ctxOfSlot s.issue.ctx.slot = some x →
    ((∀ q, cq = some q → (s.queueBefore q).cfg = true) → 8 ≤ (s.core.copy.get x).queue.length →
      exec i s = .next { s with issue := { s.issue with held := true } }) ∧
    (∀ q, cq = some q → (s.queueBefore q).cfg = false → s.issue.opened = true → exec i s = .next { s with issue := { s.issue with
      fails := s.issue.fails ++ [⟨s.issue.ctx.idx, { code := 2, info := .ofNat 64 s.issue.ctx.raw }⟩] } })

/-- R327, R328: the addresses of row i. Of c.copy they are s4n + i·SSTR and s4n+1 + i·DSTR with the strides sign-extended
from 24 bits; c.copyi takes both offsets from its list; c.gath indexes the source and c.scat the destination. -/
def Claim.RowAddresses : Prop :=
  ∀ (a b c d : W) (m : CopyCmd) (scr : Nat → Nat → Nat) (pitch i : Nat), m.quad = [a, b, c, d] →
    let st := fun (hi lo : Nat) => (BitVec.ofNat 24 (d.toNat / 2 ^ lo % 2 ^ (hi - lo + 1))).signExtend 64
    let k := BitVec.ofNat 64 i
    let at_ := d.toNat / 2 ^ 26 % 2 ^ 22
    let ix := if d.getLsbD 25 then BitVec.ofNat 64 (scr (at_ + 8 * i) 8) else
      (BitVec.ofNat 32 (scr (at_ + 4 * i) 4)).signExtend 64
    let p := BitVec.ofNat 64 pitch
    rowAddr m .copy scr pitch i = (a + k * st 47 24, b + k * st 23 0) ∧
    rowAddr m .copyi scr pitch i = (a + .ofNat 64 (scr (at_ + 16 * i) 8), b + .ofNat 64 (scr (at_ + 16 * i + 8) 8)) ∧
    rowAddr m .gath scr pitch i = (a + ix * p, b + k * st 23 0) ∧
    rowAddr m .scat scr pitch i = (a + k * st 23 0, b + ix * p)

/-- R322: how a row of c.copy moves. Two untyped sides without CVT move LEN bytes; between sides of one format the bits
move; between two formats, or with an untyped side and CVT, values are converted where R322 lists the pair, and any other
pair ends in error 2. -/
def Claim.RowConversions : Prop :=
  ∀ (m : CopyCmd) (a b : Side),
    (a.fmt = 0 → b.fmt = 0 → m.cvt = 0 → rowPlan m .copy a b = .ok (.bytes m.len, 0)) ∧
    (a.fmt = 0 → b.fmt = 0 → m.cvt ≠ 0 → rowPlan m .copy a b = .error 2) ∧
    (a.fmt ≠ 0 → a.fmt = b.fmt → m.cvt = 0 → rowPlan m .copy a b = .ok (.bytes (rowSpan a.fmt m.len), 0)) ∧
    (a.fmt ≠ 0 → b.fmt ≠ 0 → m.cvt ≠ 0 → rowPlan m .copy a b = .error 2) ∧
    (a.fmt ≠ 0 → b.fmt ≠ 0 → a.fmt ≠ b.fmt → m.cvt = 0 → a.fmt ≠ 26 → b.fmt ≠ 26 →
      rowPlan m .copy a b = if convOk a.fmt b.fmt then .ok (.conv a.fmt b.fmt m.len, 0) else .error 2)

/-- R324: when a command's requests are answered it completes: the flags it raised are joined to FPFLAGS, its completion
entry, the context in [63:62] and the number below, is pushed to its completion queue, and its timeline moves, with the
error it met; it waits while that queue is full or a request is unanswered. -/
def Claim.CopyCompletion : Prop :=
  ∀ (s : State) (r : CopyRun), let c := s.inp.core
    let x := s.inp.ctx
    s.engineFree c x = some r →
    (r.phase ≠ .finish ∨ r.out ≠ [] ∨ (∃ q, r.cmd.cq = some q ∧ ((s.coreAt c).queue q).full = true) →
      exec .copyCommandComplete s = .next s) ∧
    (r.phase = .finish → r.out = [] → r.rd.left = [] → r.cmd.led = false → r.result = [] → (s.coreAt c).bankq = [] →
    (∀ q, r.cmd.cq = some q → ((s.coreAt c).queue q).full = false) →
    (∀ f, r.cmd.op ≠ .cKvput f) → (∀ n p v q k, r.cmd.op ≠ .cRecast n p v q k) →
    let tl : Fin 3 := ⟨x.val, by omega⟩
    ∃ t : State, exec .copyCommandComplete s = .next t ∧
      ((t.coreAt c).copy.get x).run = none ∧ ((t.coreAt c).copy.get x).queue = ((s.coreAt c).copy.get x).queue ∧
      (t.coreAt c).tlAt tl = ((s.coreAt c).tlAt tl).complete r.cmd.num r.err ∧
      (t.coreAt c).csr.fpflags = (s.coreAt c).csr.fpflags ||| r.flags ∧
      (∀ q, r.cmd.cq = some q →
        let u := (s.coreAt c).push q (.ofNat 4096 (x.val * 2 ^ 62 + r.cmd.num))
        (t.coreAt c).queues = u.queues ∧ (t.coreAt c).scratch = u.scratch) ∧
      (r.cmd.cq = none → (t.coreAt c).queues = (s.coreAt c).queues ∧ (t.coreAt c).scratch = (s.coreAt c).scratch) ∧
      (t.coreAt c).regs = (s.coreAt c).regs ∧ (t.coreAt c).acc = (s.coreAt c).acc ∧ t.ms = s.ms ∧
      ∀ d, d ≠ c → t.coreAt d = s.coreAt d)

/-! ### Micro-operations (23_matrix R423 to R434) -/

/-- A micro-word executes: the running call of the core goes from r to r', at its next micro-word; nothing else that is
named changes. -/
def microGoes (i : Instr) (s : State) (r' : MRun) : Prop :=
  ∃ t : State, exec i s = .next t ∧ t.core.matrix.run = some r' ∧ t.core.matrix.queue = s.core.matrix.queue ∧
    t.regs = s.regs ∧ t.csr = s.csr ∧ t.core.acc = s.core.acc ∧ t.core.scratch = s.core.scratch ∧
    t.core.queues = s.core.queues ∧ t.ms = s.ms ∧ ∀ c, c ≠ s.cur → t.coreAt c = s.coreAt c

/-- A micro-word that may not execute yet changes nothing. -/
def microWaits (i : Instr) (s : State) : Prop := exec i s = .next s

/-- A micro-word is ILLEGAL_OP (R435): the call stops with code 2 and the raw word, 0 in a library routine, as its
TRAPINFO, and nothing else changes. -/
def microRefused (i : Instr) (s : State) (r : MRun) : Prop :=
  ∃ (t : State) (u : Trap), exec i s = .next t ∧ t.core.matrix.run = some { r with stop := some u } ∧ u.code = 2 ∧
    u.info = .ofNat 64 (if r.routine.toNat < 5 then 0 else s.core.microWord ((s.core.routineAt r.routine).1 + r.upc)) ∧
    t.regs = s.regs ∧ t.csr = s.csr ∧ t.core.acc = s.core.acc ∧ t.core.scratch = s.core.scratch ∧
    t.core.queues = s.core.queues ∧ t.ms = s.ms ∧ ∀ c, c ≠ s.cur → t.coreAt c = s.coreAt c

/-- R429: u.step adds its increment register to its parameter modulo 2⁶⁴; u.loop with a count of 0 goes past its end word,
otherwise opens a loop, at most four deep, and is ILLEGAL_OP for a fifth or where its end word is no u.endl (R264); u.endl
goes back to the word after its u.loop until the count is spent, and is ILLEGAL_OP with no loop open; u.end ends the call
and drops its loops. -/
def Claim.MicroControl : Prop :=
  ∀ (s : State) (r : MRun), s.microReady s.cur = some r →
    (∀ d i : BitVec 3, microGoes (.uStep d i) s { r with
      wp := r.wp.set d.toNat (r.wp.get d.toFin + r.wp.get i.toFin), upc := r.upc + 1, count := r.count + 1 }) ∧
    (∀ (c : BitVec 3) (l : BitVec 12),
      (s.core.microWord l.toNat / 2 ^ 28 % 16 ≠ 7 → microRefused (.uLoop c l) s r) ∧
      (s.core.microWord l.toNat / 2 ^ 28 % 16 = 7 →
        (r.wp.get c.toFin = 0 → microGoes (.uLoop c l) s { r with
          upc := l.toNat + 1 - (s.core.routineAt r.routine).1, count := r.count + 1 }) ∧
        (r.wp.get c.toFin ≠ 0 → r.loops.length < 4 → microGoes (.uLoop c l) s { r with
          loops := (r.wp.get c.toFin, r.upc) :: r.loops, upc := r.upc + 1, count := r.count + 1 }) ∧
        (r.wp.get c.toFin ≠ 0 → 4 ≤ r.loops.length → microRefused (.uLoop c l) s r))) ∧
    (∀ (n : W) (at_ : Nat) (l : List (W × Nat)), r.loops = (n, at_) :: l →
      (1 < n.toNat → microGoes .uEndl s { r with
        loops := (n - 1, at_) :: l, upc := at_ + 1, count := r.count + 1 }) ∧
      (n.toNat ≤ 1 → microGoes .uEndl s { r with loops := l, upc := r.upc + 1, count := r.count + 1 })) ∧
    (r.loops = [] → microRefused .uEndl s r) ∧
    microGoes .uEnd s { r with ended := true, loops := [], upc := r.upc + 1, count := r.count + 1 }

/-- R430, R215: u.gate waits until its queue holds so many entries; u.pop waits likewise and takes them; u.push waits for
room, for the call's writes and while another unit locks the bank, and pushes the parameter's value as one entry. On an
unconfigured queue, or with a count of 0 (12_encoding R264), each is ILLEGAL_OP. -/
def Claim.MicroQueues : Prop :=
  ∀ (s : State) (r : MRun) (q n : BitVec 4) (p : BitVec 3), s.microReady s.cur = some r →
    let k := s.core.queue q
    let on := { r with upc := r.upc + 1, count := r.count + 1 }
    let locked := s.core.lockedFor 5 (k.slotAt k.pi.toNat)
    let kept := fun (t : State) => t.core.matrix.run = some on ∧ t.regs = s.regs ∧ t.csr = s.csr ∧ t.core.acc = s.core.acc ∧
      t.ms = s.ms ∧ ∀ c, c ≠ s.cur → t.coreAt c = s.coreAt c
    (k.cfg = false → microRefused (.uGate q n) s r ∧ microRefused (.uPop q n) s r ∧ microRefused (.uPush q p) s r) ∧
    (n = 0 → microRefused (.uGate q n) s r ∧ microRefused (.uPop q n) s r) ∧
    (k.cfg = true → n ≠ 0 →
      (k.count < n.toNat → microWaits (.uGate q n) s ∧ microWaits (.uPop q n) s) ∧
      (n.toNat ≤ k.count → microGoes (.uGate q n) s on ∧ ∃ t : State, exec (.uPop q n) s = .next t ∧ kept t ∧
        t.core.queue q = { k with ci := k.ci + n.setWidth 16 } ∧ (∀ y, y ≠ q → t.core.queue y = s.core.queue y) ∧
        t.core.scratch = s.core.scratch)) ∧
    (k.cfg = true →
      (k.full = true ∨ r.wbOut ≠ [] ∨ locked = true → microWaits (.uPush q p) s) ∧
      (k.full = false → r.wbOut = [] → locked = false → ∃ t : State, exec (.uPush q p) s = .next t ∧ kept t ∧
        t.core.queues = (s.core.push q (ofS (r.wp.get p.toFin))).queues ∧
        t.core.scratch = (s.core.push q (ofS (r.wp.get p.toFin))).scratch))

/-- R423 to R426: u.lda, u.ldb, u.ldk and u.ldv wait while their pipe runs another load. A stride word out of its layout is
ILLEGAL_OP: RLIM above 64; bits [51:44] of u.lda and u.ldb; every other bit of u.ldk; of u.ldv the bits beside RLIM and D0, a D0
that is no multiple of 64, or one not below D. Otherwise the load begins in its pipe: base, STRIDE sign-extended
from [31:0], FMT, KLEN, D0, the fewer of its own rows and RLIM when that is not 0, and its buffer holds nothing until
the load ends. -/
def Claim.MicroLoads : Prop :=
  ∀ (s : State) (r : MRun) (l : LoadFields), s.microReady s.cur = some r →
    ∀ e ∈ [((0 : Fin 4), Instr.uLda l), (1, .uLdb l), (2, .uLdk l), (3, .uLdv l)],
    let pipe : Fin 4 := e.1
    let w := (r.wpAt l.stride).toNat
    let lim := w / 2 ^ 52 % 128
    let g := (s.partAt s.csr.part.toFin).kg
    let d := 64 * 2 ^ (g / 2 ^ 53 % 4)
    let bad := 64 < lim ∨ (pipe.val < 2 ∧ w / 2 ^ 44 % 256 ≠ 0) ∨ (2 ≤ pipe.val ∧ w / 2 ^ 59 ≠ 0) ∨
      (pipe = 2 ∧ w % 2 ^ 52 ≠ 0) ∨ (pipe = 3 ∧ (w / 2 ^ 9 % 2 ^ 43 ≠ 0 ∨ w % 2 ^ 9 % 64 ≠ 0 ∨ (g.testBit 63 = true ∧ d ≤ w % 2 ^ 9)))
    (r.pipes.get pipe ≠ [] → microWaits e.2 s) ∧
    (r.pipes.get pipe = [] → bad → microRefused e.2 s r) ∧
    (r.pipes.get pipe = [] → ¬ bad →
      ∃ (r' : MRun) (q : PipeRun), microGoes e.2 s r' ∧ r'.pipes.get pipe = [q] ∧
        (∀ p, p ≠ pipe → r'.pipes.get p = r.pipes.get p) ∧ q.spec.base = r.wpAt l.base ∧
        q.spec.stride = (BitVec.ofNat 32 w).signExtend 64 ∧ q.spec.ufmt = w / 2 ^ 59 ∧ q.spec.k = w / 2 ^ 32 % 2 ^ 12 ∧
        q.spec.d0 = w % 2 ^ 9 ∧ q.spec.scale = false ∧ q.next = 0 ∧ q.stop = none ∧
        q.spec.rows = (if lim = 0 then l.rows.toNat + 1 else min (l.rows.toNat + 1) lim) ∧
        q.spec.buf = l.buf.toFin ∧ (r'.bufs.get l.buf.toFin).lines = [] ∧
        (∀ b, b ≠ l.buf.toFin → r'.bufs.get b = r.bufs.get b) ∧ r'.wp = r.wp ∧ r'.loops = r.loops ∧ r'.acc = r.acc ∧
        r'.upc = r.upc + 1 ∧ r'.ended = false)

/-- R431: u.scale waits for its buffer and for the lda pipe; on a buffer that is not filled from untyped memory with
block-scaled elements it is ILLEGAL_OP; otherwise a load of one row of scales for each line, 32 bytes apart, begins in the lda
pipe, and the lines stay. -/
def Claim.MicroScales : Prop :=
  ∀ (s : State) (r : MRun) (b : BitVec 2) (p : BitVec 3), s.microReady s.cur = some r →
    let k : Buf := r.bufs.get b.toFin
    (r.filling b.toFin = true ∨ r.pipes.get 0 ≠ [] → microWaits (.uScale b p) s) ∧
    (r.filling b.toFin = false → r.pipes.get 0 = [] →
      (k.src ≠ 1 ∨ isBlockFmt k.fmt = false → microRefused (.uScale b p) s r) ∧
      (k.src = 1 → isBlockFmt k.fmt = true → ∃ (r' : MRun) (q : PipeRun), microGoes (.uScale b p) s r' ∧
        r'.pipes.get 0 = [q] ∧ q.spec.scale = true ∧ q.spec.buf = b.toFin ∧ q.spec.base = r.wpAt p ∧ q.spec.stride = 32 ∧
        q.spec.rows = k.lines.length ∧ (∀ i, i ≠ 0 → r'.pipes.get i = r.pipes.get i) ∧ r'.bufs = r.bufs ∧ r'.wp = r.wp ∧
        r'.loops = r.loops ∧ r'.acc = r.acc ∧ r'.upc = r.upc + 1))

/-- R434, R432: u.sig gives its parameter, in the next cycle, to each m.getp that waits for this call and for the register the
parameter is written back to, and to no other; u.chk, which waits for its buffer, joins to the call's flags NV where
the buffer, filled by u.lda or u.ldb, holds a NaN or an infinity, and FMT where a group of it is malformed (11_formats R229), and
changes nothing else. -/
def Claim.MicroSignals : Prop :=
  ∀ (s : State) (r : MRun), s.microReady s.cur = some r →
    (∀ p : BitVec 3, ∃ t : State, exec (.uSig p) s = .next t ∧
      t.core.matrix.run = some { r with upc := r.upc + 1, count := r.count + 1 } ∧
      t.core.fills.length = s.core.fills.length ∧
      (∀ (k : Nat) (f : PendFill), s.core.fills[k]? = some f → ∃ g : PendFill, t.core.fills[k]? = some g ∧ g.reg = f.reg ∧ g.file = f.file ∧
        ((∀ q, f.src = .getp q r.cmd.num none → r.cmd.src.get p.toFin = some q.toFin →
            g.src = .getp q r.cmd.num (some (r.wp.get p.toFin)) ∧ g.due = s.cyc + 1) ∧
         ((∀ q, f.src = .getp q r.cmd.num none → r.cmd.src.get p.toFin ≠ some q.toFin) → g = f))) ∧
      t.regs = s.regs ∧ t.csr = s.csr ∧ t.core.acc = s.core.acc ∧ t.core.queues = s.core.queues ∧
      t.core.scratch = s.core.scratch ∧ t.ms = s.ms ∧ ∀ c, c ≠ s.cur → t.coreAt c = s.coreAt c) ∧
    (∀ b : BitVec 2, (r.filling b.toFin = true → microWaits (.uChk b) s) ∧
      (r.filling b.toFin = false →
        let k : Buf := r.bufs.get b.toFin
        let tested := k.src ≠ 3 ∧ k.src ≠ 4
        let nv := tested ∧ ∃ l ∈ (k.values false).1, ∃ x ∈ l, x.nonFinite = true
        ∃ fl : Flags, microGoes (.uChk b) s { r with
          always := r.always ||| fl, upc := r.upc + 1, count := r.count + 1 } ∧
          (nv → fl &&& fNV = fNV) ∧ (¬ nv → fl &&& fNV = 0) ∧
          ((tested ∧ (k.values false).2 = true) → fl &&& fFMT = fFMT) ∧
          (¬ (tested ∧ (k.values false).2 = true) → fl &&& fFMT = 0) ∧ fl &&& ~~~(fNV ||| fFMT) = 0))

/-- R427, R428, R235 to R238: u.mma waits for its buffers. When one has no rows it changes no accumulator. A block that does not
fit the bank at the origin that wp7 names, a buffer of format 0, 25 or 26, or a second kind of accumulation, is ILLEGAL_OP.
Two integer buffers add, to each accumulator of the block, the exact sums of the products of A's row and B's column,
narrowed to INT32 at each K-step as the profile says; other pairs take DotStep of the call's profile once for each K-step, into the bank's element,
or into the call's internal accumulator under writeback rounding. The accumulators outside the block do not change. -/
def Claim.MicroProducts : Prop :=
  ∀ (s : State) (r : MRun) (a b : BitVec 2) (k : BitVec 8), s.microReady s.cur = some r →
    let ba : Buf := r.bufs.get a.toFin
    let bb : Buf := r.bufs.get b.toFin
    let isI := fun (f : Nat) => 10 ≤ f ∧ f ≤ 17
    let ints := isI ba.fmt ∧ isI bb.fmt
    let dead := fun (f : Nat) => f = 0 ∨ f = 25 ∨ f = 26
    let ro := (r.wp.get 7).toNat % 64
    let co := (r.wp.get 7).toNat / 2 ^ 16 % 128
    let p := profile r.cmd.prof
    let va := (ba.values p.flush).1
    let vb := (bb.values p.flush).1
    let step := min (kStep ba.fmt) (kStep bb.fmt)
    let kept := fun (t : State) => t.regs = s.regs ∧ t.csr = s.csr ∧ t.core.scratch = s.core.scratch ∧
      t.core.queues = s.core.queues ∧ t.ms = s.ms ∧ ∀ c, c ≠ s.cur → t.coreAt c = s.coreAt c
    let block := fun (b' : BitVec 3) (i j : Nat) => b' = r.bank ∧ ro ≤ i ∧ i < ro + ba.lines.length ∧ co ≤ j ∧
      j < co + bb.lines.length
    (r.filling a.toFin = true ∨ r.filling b.toFin = true → microWaits (.uMma a b k) s) ∧
    (r.filling a.toFin = false → r.filling b.toFin = false →
      (ba.lines = [] ∨ bb.lines = [] → ∃ (t : State) (r' : MRun), exec (.uMma a b k) s = .next t ∧ t.core.acc = s.core.acc ∧
        t.core.matrix.run = some r' ∧ r'.upc = r.upc + 1 ∧ r'.acc = r.acc ∧ r'.flags = r.flags ∧ kept t) ∧
      (ba.lines ≠ [] → bb.lines ≠ [] →
        (64 < ro + ba.lines.length ∨ 128 < co + bb.lines.length ∨ dead ba.fmt ∨ dead bb.fmt ∨
          (r.isInt = some true ∧ ¬ ints) ∨ (r.isInt = some false ∧ ints) → microRefused (.uMma a b k) s r) ∧
        (ro + ba.lines.length ≤ 64 → co + bb.lines.length ≤ 128 → ¬ dead ba.fmt → ¬ dead bb.fmt →
          (ints → r.isInt ≠ some false → ∃ (t : State) (r' : MRun),
            exec (.uMma a b k) s = .next t ∧ t.core.matrix.run = some r' ∧ r'.upc = r.upc + 1 ∧ r'.acc = r.acc ∧ kept t ∧
            (∀ b' i j, i < 64 → j < 128 → ¬ block b' i j → t.core.bankCode b' i j = s.core.bankCode b' i j) ∧
            (∀ i j, i < ba.lines.length → j < bb.lines.length →
              t.core.bankCode r.bank (ro + i) (co + j) =
                intCode 25 (dotStepsI p (va.getD i []) (vb.getD j []) 0 step (k.toNat + 1) 0
                  (decodeI 25 (s.core.bankCode r.bank (ro + i) (co + j)))))) ∧
          (¬ ints → r.isInt ≠ some true → ∃ (t : State) (r' : MRun),
            exec (.uMma a b k) s = .next t ∧ t.core.matrix.run = some r' ∧ r'.upc = r.upc + 1 ∧ kept t ∧
            (∀ b' i j, i < 64 → j < 128 → ¬ block b' i j → t.core.bankCode b' i j = s.core.bankCode b' i j) ∧
            (∀ i j, i < ba.lines.length → j < bb.lines.length →
              let old := r.accAt s.core (ro + i) (co + j)
              let sum := (dotSteps p (va.getD i []) (vb.getD j []) 0 step (k.toNat + 1) 0 old).1
              (p.perStep = true → t.core.bankCode r.bank (ro + i) (co + j) = (roundF 1 0 sum).1 % 2 ^ 32) ∧
              (p.perStep = false → t.core.acc = s.core.acc ∧ r'.accAt t.core (ro + i) (co + j) = sum))))))

/-- R433: u.wb before any u.mma, or in a format that is neither raw nor a register format, is ILLEGAL_OP. Written to the core's
own private scratch, raw or in a format of 8, 16 or 32 bits, element c of row r of the last product, as the bank holds it,
converted, stands little-endian at the parameter's address + r·P + c·(width / 8), P the bytes of a row; no other byte
changes, and the bank does not. -/
def Claim.MicroWriteBack : Prop :=
  ∀ (s : State) (r : MRun) (p : BitVec 3) (f : BitVec 5), s.microReady s.cur = some r →
    (r.last = none → microRefused (.uWb p f) s r) ∧
    (∀ m, r.last = some m → f ≠ 0 → Sys2Proof.isRegFmt f.toNat = false → microRefused (.uWb p f) s r) ∧
    (∀ m (a : Nat), let w := if f = 0 then 32 else fmtBits f.toNat
      let row := w / 8 * m.nb
      r.last = some m → (f = 0 ∨ Sys2Proof.isRegFmt f.toNat = true) → (w = 8 ∨ w = 16 ∨ w = 32) →
      r.wpAt p = .ofNat 64 (5 * 2 ^ 61 + a) → (∀ i, i < m.na → (a + i * row) % (w / 8) = 0) → m.nb ≤ 128 → m.na ≤ 64 →
      a + row * m.na ≤ 0x200000 → r.acc = [] → (∀ b, s.core.lockedFor 5 b = false) → ∃ (t : State) (r' : MRun),
        exec (.uWb p f) s = .next t ∧ t.core.matrix.run = some r' ∧ r'.upc = r.upc + 1 ∧ r'.wbOut = r.wbOut ∧
        (∀ i j k, i < m.na → j < m.nb → k < w / 8 → t.core.scratch.read (a + i * row + w / 8 * j + k) =
          BitVec.ofNat 8 ((wbElem f.toNat m.isInt (s.core.bankCode r.bank (m.ro + i) (m.co + j))).1 / 2 ^ (8 * k))) ∧
        (∀ b, (b < a ∨ a + row * m.na ≤ b) → t.core.scratch.read b = s.core.scratch.read b) ∧
        t.core.acc = s.core.acc ∧ t.regs = s.regs ∧ t.csr = s.csr ∧ t.core.queues = s.core.queues ∧ t.ms = s.ms ∧
        ∀ c, c ≠ s.cur → t.coreAt c = s.coreAt c)

/-! ### What firmware and boot do (01_module R11 to R17, 03_host R50 to R57, 04_spaces R69 to R77, R83, 07_faults) -/

/-- R12, R13, R15, R16, R55: boot sets each logical core on a good site of its die, ascending, the cores past the last
good site absent and their classrooms of fewer seats; the spares left on each die, the degraded cores and the reasons for repair:
fewer than two spares or an absent core (0), more than eight degraded cores (1), SRAM (2) and HBM (3) low, more than eight
ports of a die on one lane (4). The key store's table lets in the security block and the Ikimen controller alone. No core, no byte
of memory and no instance changes, which is the model's choice (assumption 79). -/
def Claim.BootReports : Prop :=
  ∀ (s : State), let r := s.inp.boot
    let degraded := (r.lostVec ++ r.lostCopy).eraseDups.length
    let good := fun (c : CoreId) => if c.val < 128 then (r.good .e)[c.val]? else (r.good .w)[c.val - 128]?
    ∃ t : State, exec .boot s = .next t ∧
      (∀ c i, (c, i) ∈ t.fw.sites ↔ good c = some i) ∧ (∀ c : CoreId, c ∈ t.fw.absent ↔ good c = none) ∧
      (∀ k : Fin 16, t.fw.seats.get k = 16 - (t.fw.absent.filter fun c => c.val / 16 == k.val).length) ∧
      t.fw.spareE.toNat = min 8 ((r.good .e).length - 128) ∧ t.fw.spareW.toNat = min 8 ((r.good .w).length - 128) ∧
      t.fw.lostVec = r.lostVec ∧ t.fw.lostCopy = r.lostCopy ∧ t.fw.degraded.toNat = min 255 degraded ∧
      (t.fw.reason.getLsbD 1 = decide (8 < degraded)) ∧
      (t.fw.reason.getLsbD 2 = r.lowSram) ∧ (t.fw.reason.getLsbD 3 = r.lowHbm) ∧
      (t.fw.reason.getLsbD 4 = (decide (8 < r.oneLaneE.length) || decide (8 < r.oneLaneW.length))) ∧
      (t.fw.reason.getLsbD 0 = (decide (t.fw.spareE.toNat < 2) || decide (t.fw.spareW.toNat < 2) || !t.fw.absent.isEmpty)) ∧
      (t.fabAt .e).oneLane = r.oneLaneE ∧ (t.fabAt .w).oneLane = r.oneLaneW ∧
      (∀ m, t.accessEntry .keys m = if m = 0x310 then 0x8013 else if m = 0x324 then 0x8011 else 0) ∧
      (∀ g m, g ≠ .keys → t.accessEntry g m = s.accessEntry g m) ∧
      t.cores = s.cores ∧ t.ms.mem = s.ms.mem ∧ t.parts = s.parts ∧ t.sched = s.sched ∧ t.host = s.host

/-- R11: an alarm is recorded; a shutdown swaps every partition out, halting the cores that run its nodes, and holds the cores,
and recovery ends that hold. R14, R16: a row is retired at a refresh window of its slice, and counted; the last repair row of a
pseudo-channel, or the ninth one-lane port of a die, sets its reason for repair, and no reason goes. -/
def Claim.HeatAndRepair : Prop :=
  ∀ (s : State), let slice := (s.xbarAt s.inp.die).slices.get (Fin.ofNat 32 s.inp.slot.val)
    exec .thermalAlarm s = .next { s with fw := { s.fw with thermal := true } } ∧
    exec .thermalRecovery s = .next { s with fw := { s.fw with hot := false } } ∧
    (∃ t : State, exec .thermalShutdown s = .next t ∧ t.fw.hot = true ∧ (∀ p, (t.partAt p).swapped = true) ∧
      (∀ c i, s.instOf c = some i → (s.partAt i.vf).swapped = false → (s.coreAt c).seq.mode = .running →
        (t.coreAt c).seq.mode = .halted) ∧ (∀ c, (t.coreAt c).scratch = (s.coreAt c).scratch) ∧ t.ms.mem = s.ms.mem) ∧
    (slice.refresh = none → exec .hbmRowRepair s = .next s) ∧
    (slice.refresh ≠ none → ∃ t : State, exec .hbmRowRepair s = .next t ∧ t.fw.tele.retired = s.fw.tele.retired + 1 ∧
      (∀ k, t.fw.reason.getLsbD k = (s.fw.reason.getLsbD k || decide (k = 3 ∧ s.inp.n = 0))) ∧
      t.cores = s.cores ∧ t.ms = s.ms) ∧
    (∃ t : State, exec .fabricLaneFailure s = .next t ∧ s.inp.fport ∈ (t.fabAt s.inp.die).oneLane ∧
      (∀ p, p ≠ s.inp.fport → (p ∈ (t.fabAt s.inp.die).oneLane ↔ p ∈ (s.fabAt s.inp.die).oneLane)) ∧
      (∀ k, t.fw.reason.getLsbD k =
        (s.fw.reason.getLsbD k || decide (k = 4 ∧ 8 < (t.fabAt s.inp.die).oneLane.length))) ∧
      t.cores = s.cores ∧ t.ms = s.ms)

/-- The key store's table lets the Ikimen controller, master 0x310, write: V, ALLP or partition 0, WR and SYS where the
target is a control block, which the key store is not (R53). -/
abbrev keyWriter (s : State) : Prop :=
  let e := s.accessEntry .keys 0x310
  e.testBit 15 = true ∧ (e.testBit 4 = true ∨ e / 2 ^ 12 % 8 = 0) ∧ e.testBit 1 = true

/-- R53, R55, R56: the first OWNER fuses the owner's key, and a later one fails; INSTALL and REVOKE need the owner's signature
over the current nonce, and the right to write the key store: a slot goes from empty or revoked to active with the key given, and
from active to revoked, and nothing else changes it. Every command ends with a status and another nonce, whose values are
the model's choice (assumption 81). -/
def Claim.KeyCommands : Prop :=
  ∀ (s : State),
    let j : Fin 16 := Fin.ofNat 16 s.inp.slot.val
    let next := fun (t : State) (st : W) => t.fw.mboxStatus = st ∧ t.fw.nonce = s.fw.nonce + 1 ∧ t.cores = s.cores ∧ t.ms = s.ms
    let signed := s.inp.ok = true ∧ s.fw.owner.isSome = true ∧ s.inp.word = s.fw.nonce
    let same := fun (t : State) => t.fw.keyslots = s.fw.keyslots ∧ t.fw.keys = s.fw.keys ∧ t.fw.owner = s.fw.owner
    (s.fw.owner = none → ∃ t : State, exec .owner s = .next t ∧ t.fw.owner = some s.inp.key ∧
      t.fw.keyslots = s.fw.keyslots ∧ next t 0) ∧
    (s.fw.owner ≠ none → ∃ t : State, exec .owner s = .next t ∧ same t ∧ next t 1) ∧
    (signed → keyWriter s → s.fw.keyslots.get j ≠ 1 → ∃ t : State, exec .install s = .next t ∧ t.fw.keyslots.get j = 1 ∧
      t.fw.keys.find? (·.1 == j) = some (j, s.inp.key) ∧ t.fw.owner = s.fw.owner ∧
      (∀ k, k ≠ j → t.fw.keyslots.get k = s.fw.keyslots.get k ∧ t.fw.keys.find? (·.1 == k) = s.fw.keys.find? (·.1 == k)) ∧
      next t 0) ∧
    (¬ signed ∨ ¬ keyWriter s ∨ s.fw.keyslots.get j = 1 → ∃ t : State, exec .install s = .next t ∧ same t ∧ next t 1) ∧
    (signed → keyWriter s → s.fw.keyslots.get j = 1 → ∃ t : State, exec .revoke s = .next t ∧ t.fw.keyslots.get j = 2 ∧
      (∀ k, k ≠ j → t.fw.keyslots.get k = s.fw.keyslots.get k) ∧ t.fw.keys = s.fw.keys ∧ t.fw.owner = s.fw.owner ∧ next t 0) ∧
    (¬ signed ∨ ¬ keyWriter s ∨ s.fw.keyslots.get j ≠ 1 → ∃ t : State, exec .revoke s = .next t ∧ same t ∧ next t 1)

/-- R83, R84, R57: the verification of a signed stream extent that is full ends once. Where the security block may read the
extent, the slot that the entry names holds an active key and has held it since the extent was full, and the signature after
the blob, zeros after it, verifies under it over the blob's digest and length, the entry is marked verified, and its other
fields stay; otherwise it stays as it is and a failure is counted. -/
def Claim.SignatureVerification : Prop :=
  ∀ (s : State) (r : Range), let p := s.inp.part
    let i := s.inp.n % 2048
    let st := s.streamOf p i
    let j : Fin 16 := Fin.ofNat 16 (r.attr.toNat / 2 ^ 41 % 16)
    let bytes := fun (at_ n : Nat) => s.ms.mem.bytes (r.pbase.toNat + (r.size - 3328) + at_) n
    let message := (st.sha.getD Sha.empty).digest ++ leBytes 8 (r.size - 3328)
    let good := s.securityMay p r = true ∧ s.fw.keyslots.get j = 1 ∧ st.revoked = false ∧
      (∀ b ∈ bytes 3309 19, b = 0) ∧
      ∃ k, s.fw.keys.find? (·.1 == j) = some k ∧ Config.mlDsaVerify k.2 message (bytes 0 3309) = true
    (s.partAt p).rangeIx i = some r → r.has 46 = true → r.role = 2 → st.wdone = r.limit.toNat → st.checked = false →
    ∃ t : State, exec .signatureVerifyEnd s = .next t ∧ (t.streamOf p i).checked = true ∧
      (good → (t.partAt p).rangeIx i = some { r with attr := r.attr ||| .ofNat 64 (2 ^ 45) } ∧
        t.fw.tele.sigFails = s.fw.tele.sigFails) ∧
      (¬ good → (t.partAt p).rangeIx i = some r ∧ t.fw.tele.sigFails = s.fw.tele.sigFails + 1) ∧
      (t.streamOf p i).wdone = st.wdone ∧ t.cores = s.cores ∧ t.ms = s.ms

/-- The core whose arrays a place lies in, where a correctable error there freezes it (R17). -/
def freezes : Place → Option CoreId
  | .scratch c _ | .acc c _ _ _ | .vreg c _ _ => some c
  | .mem _ | .satchel .. | .half .. => none

/-- How often telemetry has counted a place. -/
def countOf (l : List (Place × Nat)) (p : Place) : Nat := ((l.find? (·.1 == p)).map (·.2)).getD 0

/-- R17, R140, R141: a correctable error is counted, and one of scratch, an accumulator or a vector register freezes its
core eight cycles more, from now or from the end of a freeze, and in a timetable partition each core of the partition; no
other core. A freeze ends when its cycles are over. A word that is poisoned is counted, and in memory, scratch, an accumulator or
a vector register it is poisoned from then on, and no other. -/
def Claim.SoftErrors : Prop :=
  ∀ (s : State), let pl := s.inp.place
    (∃ t : State, exec .correctableError s = .next t ∧ t.ms = s.ms ∧
      countOf t.fw.tele.correctable pl = countOf s.fw.tele.correctable pl + 1 ∧
      (∀ q, q ≠ pl → countOf t.fw.tele.correctable q = countOf s.fw.tele.correctable q) ∧
      (freezes pl = none → t.cores = s.cores) ∧
      (∀ c, freezes pl = some c → ∀ d,
        let p : PartId := (s.coreAt c).csr.part.toFin
        ((d = c ∨ ((s.partAt p).tt = true ∧ (s.coreAt d).csr.part.toFin = p)) →
          (t.coreAt d).seq.freeze = max s.cyc.toNat (s.coreAt d).seq.freeze + 8 ∧ (t.coreAt d).regs = (s.coreAt d).regs ∧
          (t.coreAt d).csr = (s.coreAt d).csr ∧ (t.coreAt d).scratch = (s.coreAt d).scratch ∧ (t.coreAt d).acc = (s.coreAt d).acc) ∧
        (¬ (d = c ∨ ((s.partAt p).tt = true ∧ (s.coreAt d).csr.part.toFin = p)) → t.coreAt d = s.coreAt d))) ∧
    (let x := s.coreAt s.inp.core
     ∃ t : State, exec .freezeEnd s = .next t ∧ t.ms = s.ms ∧
      (x.seq.freeze ≤ s.cyc.toNat → t.coreAt s.inp.core = { x with seq := { x.seq with freeze := 0 } }) ∧
      (s.cyc.toNat < x.seq.freeze → t.coreAt s.inp.core = x) ∧ ∀ d, d ≠ s.inp.core → t.coreAt d = s.coreAt d) ∧
    (∃ t : State, exec .wordPoisoned s = .next t ∧ countOf t.fw.tele.poisoned pl = countOf s.fw.tele.poisoned pl + 1 ∧
      (∀ a, pl = .mem a → t.ms.mem.isPoisoned a.toNat = true ∧ t.ms.mem.cells = s.ms.mem.cells ∧
        (∀ b, b / 8 ≠ a.toNat / 8 → t.ms.mem.isPoisoned b = s.ms.mem.isPoisoned b) ∧ t.cores = s.cores) ∧
      (∀ c o, pl = .scratch c o → (t.coreAt c).scratch.isPoisoned o.toNat = true ∧
        (t.coreAt c).scratch.cells = (s.coreAt c).scratch.cells ∧
        (∀ b, b / 8 ≠ o.toNat / 8 → (t.coreAt c).scratch.isPoisoned b = (s.coreAt c).scratch.isPoisoned b) ∧
        (∀ d, d ≠ c → t.coreAt d = s.coreAt d) ∧ t.ms = s.ms) ∧
      (∀ c b r k, pl = .acc c b r k → t.coreAt c = { s.coreAt c with
        accPoison := (b.toNat * 64 + r.toNat, k.toNat) :: (s.coreAt c).accPoison } ∧
        (∀ d, d ≠ c → t.coreAt d = s.coreAt d) ∧ t.ms = s.ms) ∧
      (∀ c r k, pl = .vreg c r k → t.coreAt c = { s.coreAt c with vPoison := (r.toNat, k.toNat) :: (s.coreAt c).vPoison } ∧
        (∀ d, d ≠ c → t.coreAt d = s.coreAt d) ∧ t.ms = s.ms))

/-- R142: the idle half of instruction memory, last used 65,536 cycles ago, enters retention with its bundles as they are, and
not before; one that leaves retention is out after 256 cycles. -/
def Claim.HalvesAtRest : Prop :=
  ∀ (s : State), let c := s.inp.core
    let x := s.coreAt c
    let h := x.halves.get (idleIx x)
    let rest := fun (t : State) => (t.coreAt c).regs = x.regs ∧ (t.coreAt c).csr = x.csr ∧ (t.coreAt c).scratch = x.scratch ∧
      t.ms = s.ms ∧ ∀ d, d ≠ c → t.coreAt d = s.coreAt d
    (h.retained = false → h.lastUse.toNat + 65536 ≤ s.cyc.toNat → ∃ t : State, exec .halfRetentionEntry s = .next t ∧
      (t.coreAt c).halves.get (idleIx x) = { h with retained := true, leaving := false } ∧
      (∀ i, i ≠ idleIx x → (t.coreAt c).halves.get i = x.halves.get i) ∧ rest t) ∧
    (h.retained = true ∨ s.cyc.toNat < h.lastUse.toNat + 65536 → ∃ t : State, exec .halfRetentionEntry s = .next t ∧
      t.coreAt c = x ∧ rest t) ∧
    (∃ t : State, exec .retentionExitEnd s = .next t ∧ rest t ∧ ∀ i, (t.coreAt c).halves.get i =
      if (x.halves.get i).leaving = true ∧ (x.halves.get i).lastUse.toNat + 256 ≤ s.cyc.toNat then
        { x.halves.get i with retained := false, leaving := false } else x.halves.get i)

/-- R20, R50, R52, R87, R90, R102, R115, R151, R379: a write to FABCTL, XBARWT, PARTMAP, KVQLOGN or DUMPACK, or of an access-table
entry, leaves the register's fields as written, the unused bits clear; new weights reach every counter of the crossbar. On
the cores of a classroom that PARTMAP gives to another partition scratch and the accumulators are cleared, and nothing else of a
core. KVGEOM's EN rises only with a good geometry, and the free list is then the ring of every page in order; a
quarantined page that no table names joins the ring's tail, and any other page number changes nothing. -/
def Claim.ControlWrites : Prop :=
  ∀ (s : State), let v := s.inp.word
    let d := s.inp.die
    let p := s.inp.part
    let x := s.partAt p
    (∃ t : State, exec .fabctlWrite s = .next t ∧ (t.fabAt d).injbank = v.getLsbD 63 ∧
      (∀ i : Fin 3, (t.fabAt d).dims.get i = v.extractLsb' (24 - 4 * i.val) 4 ∧
        (t.fabAt d).my.get i = v.extractLsb' (12 - 4 * i.val) 4) ∧ (t.fabAt d).ejected = (s.fabAt d).ejected ∧
      t.cores = s.cores ∧ t.ms = s.ms) ∧
    (∃ t : State, exec .xbarwtWrite s = .next t ∧ (t.xbarAt d).wt = v.setWidth 16 ∧ (t.xbarAt d).wait = (s.xbarAt d).wait ∧
      (t.xbarAt d).outs.length = (s.xbarAt d).outs.length ∧
      (∀ o ∈ (t.xbarAt d).outs, ∀ i : Fin 4, o.c.get i = v.extractLsb' (4 * i.val) 4) ∧ t.cores = s.cores ∧ t.ms = s.ms) ∧
    (∃ t : State, exec .partmapWrite s = .next t ∧ t.fw.partmap.get (if s.inp.n = 0 then 0 else 1) = v ∧
      t.fw.partmap.get (if s.inp.n = 0 then 1 else 0) = s.fw.partmap.get (if s.inp.n = 0 then 1 else 0) ∧
      t.ms = s.ms ∧ ∀ c, let moved := ∃ q, t.partOfCore c = some q ∧ s.partOfCore c ≠ some q ∧
          (s.coreAt c).csr.part.toNat ≠ q.val
        (moved → t.coreAt c = { s.coreAt c with scratch := Memory.empty, acc := .replicate 512 0, accPoison := [] }) ∧
        (¬ moved → t.coreAt c = s.coreAt c)) ∧
    (∃ t : State, exec .kvqlognWrite s = .next t ∧ t.partAt p = { x with kvqlogn := .ofNat 64 (v.toNat % 2 ^ 16) } ∧
      t.cores = s.cores ∧ t.ms = s.ms) ∧
    (let g := v.toNat - v.toNat % 2 ^ 20
     ∃ t : State, exec .kvgeomWrite s = .next t ∧ t.cores = s.cores ∧
      (v.getLsbD 63 = false ∨ x.kvOk g = false → t.partAt p = { x with kvgeom := .ofNat 64 (g % 2 ^ 63) } ∧ t.ms = s.ms) ∧
      (v.getLsbD 63 = true → x.kvOk g = true → x.kvgeom.getLsbD 63 = true →
        t.partAt p = { x with kvgeom := .ofNat 64 g } ∧ t.ms = s.ms) ∧
      (v.getLsbD 63 = true → x.kvOk g = true → x.kvgeom.getLsbD 63 = false →
        t.partAt p = { x with
          kvgeom := .ofNat 64 g, flHead := 0, flTail := x.kvpages.toNat, kvfree := x.kvpages, kvquar := [] } ∧
        (∀ k, k < x.kvpages.toNat → t.ms.mem.num (x.kvflb.toNat + 4 * k) 4 = k) ∧
        ∀ a, (a < x.kvflb.toNat ∨ x.kvflb.toNat + 4 * x.kvpages.toNat ≤ a) → t.ms.mem.read a = s.ms.mem.read a)) ∧
    ((v.toNat, false) ∉ x.kvquar → exec .kvqrelWrite s = .next s) ∧
    ((v.toNat, false) ∈ x.kvquar → ∃ t : State, exec .kvqrelWrite s = .next t ∧ t.cores = s.cores ∧
      (let slot := x.kvflb.toNat + 4 * (x.flTail % x.kvpages.toNat)
       t.partAt p = { x with
         kvquar := x.kvquar.filter (·.1 != v.toNat), flTail := x.flTail + 1, kvfree := .ofNat 64 (x.kvAvail + 1) } ∧
       t.ms.mem.num slot 4 = v.toNat % 2 ^ 32 ∧
       ∀ a, (a < slot ∨ slot + 4 ≤ a) → t.ms.mem.read a = s.ms.mem.read a)) ∧
    (∃ t : State, exec .dumpackWrite s = .next t ∧
      t.partAt p = { x with dumpPend := x.dumpPend && !v.getLsbD 0 } ∧ t.cores = s.cores ∧ t.ms = s.ms) ∧
    (∃ t : State, exec .accessTableWrite s = .next t ∧
      t.accessEntry s.inp.target (.ofNat 10 s.inp.n) = v.toNat % 2 ^ 16 - v.toNat / 2 ^ 5 % 2 ^ 7 * 2 ^ 5 ∧
      (∀ g m, (g ≠ s.inp.target ∨ m ≠ .ofNat 10 s.inp.n) → t.accessEntry g m = s.accessEntry g m) ∧
      t.cores = s.cores ∧ t.ms.mem = s.ms.mem)

/-- R69, R76, R77: a range entry is written whole, its cursors begin at its base, and every TLB of the module drops its
partition's translations that overlap the old range or the new one. XLATINV with a size outside 12 to 57 is ignored; with GO it
drops the partition's translations that overlap what it names, and its completion clears GO. A page walk that may end, the oldest
of its die, at least 20 cycles old and with both TLBs and the range store holding nothing for it, fills both TLBs of its core, or
stands as failed with the fault's reason; with none due nothing happens. -/
def Claim.TranslationWrites : Prop :=
  ∀ (s : State), let p := s.inp.part
    let i := s.inp.n % 2048
    let v := s.inp.word.toNat
    let d := dieIx s.inp.die
    let touches := fun (q : PartId) (lo hi : Nat) (e : TlbEnt) => e.part = q ∧ e.base < hi ∧ lo < e.base + e.size
    let dropped := fun (t : State) (P : TlbEnt → Prop) =>
      (∀ c e, e ∈ (t.coreAt c).tlb ↔ e ∈ (s.coreAt c).tlb ∧ ¬ P e) ∧ ∀ e, e ∈ t.ms.ctlb ↔ e ∈ s.ms.ctlb ∧ ¬ P e.2
    let rest := fun (t : State) => t.ms.mem = s.ms.mem ∧ ∀ c, (t.coreAt c).regs = (s.coreAt c).regs ∧
      (t.coreAt c).csr = (s.coreAt c).csr ∧ (t.coreAt c).scratch = (s.coreAt c).scratch
    let within := fun (r : Range) (e : TlbEnt) => touches p r.base.toNat (r.base.toNat + (r.limit.toNat - r.base.toNat)) e
    (∃ t : State, exec .rangeEntryWrite s = .next t ∧
      (let w := fun k => s.inp.words.getD k 0
       let new : Range := ⟨w 0, w 1, w 2, w 3⟩
       (t.partAt p).rangeIx i = some new ∧ (∀ k, k ≠ i → (t.partAt p).rangeIx k = (s.partAt p).rangeIx k) ∧
       dropped t fun e => within new e ∨ ∃ r, (s.partAt p).rangeIx i = some r ∧ within r e) ∧
      (∀ c, (p, i) ∉ (t.coreAt c).rcache) ∧ (∀ q ∈ (t.partAt p).streams, q.index ≠ i) ∧ rest t) ∧
    (let size := v / 2 ^ 54 % 64
     let word := s.inp.word &&& 0xFFC01FFFFFFFFFFF#64
     (size < 12 ∨ 57 < size → exec .xlatinvWrite s = .next s) ∧
     (12 ≤ size → size ≤ 57 → ∃ t : State, exec .xlatinvWrite s = .next t ∧ t.ms.xlatinv.get d = word ∧
       (∀ k, k ≠ d → t.ms.xlatinv.get k = s.ms.xlatinv.get k) ∧ rest t ∧
       (s.inp.word.getLsbD 63 = false → t.cores = s.cores ∧ t.ms.ctlb = s.ms.ctlb) ∧
       (s.inp.word.getLsbD 63 = true → dropped t fun e => touches (toPart (v / 2 ^ 60 % 8)) (v % 2 ^ 45 * 4096)
         (v % 2 ^ 45 * 4096 + 2 ^ size) e))) ∧
    (∃ t : State, exec .xlatinvComplete s = .next t ∧ (t.ms.xlatinv.get d).getLsbD 63 = false ∧
      (∀ k, k < 63 → (t.ms.xlatinv.get d).getLsbD k = (s.ms.xlatinv.get d).getLsbD k) ∧
      t.cores = s.cores ∧ t.ms.mem = s.ms.mem) ∧
    (let due := fun (w : Walk) => w.bad = none ∧ dieOf w.core = s.inp.die ∧ w.since.toNat + 20 ≤ s.cyc.toNat ∧
       rangeAt (s.partAt w.part) w.off = [] ∧ tlbFind (s.roomTlb (w.core.val / 16)) w.part w.off = none
     ((∀ w ∈ s.ms.walks, ¬ due w) → exec .pageWalkDone s = .next s) ∧
     (∀ l w r e, s.ms.walks = l ++ w :: r → (∀ u ∈ l, ¬ due u) → due w → s.pageWalk w.part w.off = .error e →
       ∃ t : State, exec .pageWalkDone s = .next t ∧ t.ms.walks = l ++ { w with bad := some e } :: r ∧
         t.cores = s.cores ∧ t.ms.mem = s.ms.mem ∧ t.ms.ctlb = s.ms.ctlb) ∧
     (∀ l w r pte base size, s.ms.walks = l ++ w :: r → (∀ u ∈ l, ¬ due u) → due w →
       s.pageWalk w.part w.off = .ok (pte, base, size) → ∃ t : State, exec .pageWalkDone s = .next t ∧
         (let e : TlbEnt := ⟨w.part, base, size, .ofNat 64 pte⟩
          e ∈ (t.coreAt w.core).tlb ∧ e ∈ t.roomTlb (w.core.val / 16)) ∧ t.ms.walks = l ++ r ∧
         (∀ c, c ≠ w.core → t.coreAt c = s.coreAt c) ∧ rest t))

/-- R20, R30, R50, R71, R75, R77, R148, R150: a write of a register of the control blocks leaves it as its own event does, or its
fields as written; a read-only or unlisted register ignores it; a write of window C is posted behind its function's earlier
writes; a routing or membership entry and a job key take the word. -/
def Claim.RegisterWrites : Prop :=
  ∀ (s : State), let v := s.inp.word
    let at_ := fun (a : Nat) => s.inp.rtarget = .control (.ofNat 44 a)
    let part := fun (p : PartId) (f : Part → Part) => ∃ t : State, exec .registerWrite s = .next t ∧ t.partAt p = f (s.partAt p) ∧
      (∀ q, q ≠ p → t.partAt q = s.partAt q) ∧ t.cores = s.cores ∧ t.ms = s.ms
    let fab := fun (d : Die) (P : Fabric → Fabric → Prop) => ∃ t : State, exec .registerWrite s = .next t ∧
      P (s.fabAt d) (t.fabAt d) ∧ t.cores = s.cores ∧ t.ms = s.ms ∧ t.parts = s.parts
    (∀ k, k < 2 → s.inp.n = k → at_ (0xF0000000100 + 8 * k) → exec .registerWrite s = exec .partmapWrite s) ∧
    (let blk := 0xF0000010000 + 0x1000 * (dieIx s.inp.die).val
     (at_ blk → exec .registerWrite s = exec .fabctlWrite s) ∧ (at_ (blk + 0x10) → exec .registerWrite s = exec .xbarwtWrite s) ∧
     (at_ (blk + 0x18) → exec .registerWrite s = exec .xlatinvWrite s) ∧
     (at_ (blk + 8) → ∃ t : State, exec .registerWrite s = .next t ∧ t.sched.wt.get (dieIx s.inp.die) = v ∧
       t.sched.insts = s.sched.insts ∧ t.cores = s.cores ∧ t.ms = s.ms)) ∧
    (∀ p : PartId, let blk := 0xF0000100000 + 0x1000 * p.val
     (at_ blk → part p fun x => { x with wdog := v.extractLsb' 32 16, tt := v.getLsbD 8, fatal := v.getLsbD 4 }) ∧
     (at_ (blk + 8) → part p fun x => { x with ptroot := v &&& 0x80000FFFFFE00000#64 }) ∧
     (at_ (blk + 0x10) → part p fun x => { x with dumpbase := v &&& 0xFFFFFFFFFFFFF000#64 }) ∧
     (at_ (blk + 0x18) → part p fun x => { x with dumpsz := v &&& 0xFFFFFFF000#64 }) ∧
     (s.inp.part = p → at_ (blk + 0x20) → exec .registerWrite s = exec .dumpackWrite s) ∧
     (s.inp.part = p → at_ (blk + 0x100) → exec .registerWrite s = exec .kvgeomWrite s) ∧
     (s.inp.part = p → at_ (blk + 0x140) → exec .registerWrite s = exec .kvqlognWrite s) ∧
     (s.inp.part = p → at_ (blk + 0x148) → exec .registerWrite s = exec .kvqrelWrite s)) ∧
    (at_ 0xF0000000000 ∨ at_ 0xF0000000200 ∨ at_ 0xF0000000300 → exec .registerWrite s = .next s) ∧
    (∀ f off, s.inp.rtarget = .windowC f off → (s.host.posted.any fun w => w.fn == f) = true → ∃ (t : State) (w : HostWrite),
      exec .registerWrite s = .next t ∧ t.host.posted = s.host.posted ++ [w] ∧ w.fn = f ∧ w.off = off.toNat / 8 * 8 ∧
      t.cores = s.cores ∧ t.ms = s.ms) ∧
    (∀ d bank dim i, s.inp.rtarget = .route d bank dim i → fab d fun f g =>
      (∀ b k j, g.routes.find? (fun r => r.1 == b && r.2.1 == k && r.2.2.1 == j) =
        if b = bank ∧ k = dim ∧ j = i then some (b, k, j, v.setWidth 16)
        else f.routes.find? fun r => r.1 == b && r.2.1 == k && r.2.2.1 == j)) ∧
    (∀ d port i q valid, s.inp.rtarget = .member d port i q valid → fab d fun _ g =>
      g.members.find? (fun m => m.1 == port && m.2.1 == i) = if valid then some (port, i, v.setWidth 32, q) else none) ∧
    (∀ p, s.inp.rtarget = .jobKey p → part p fun x => { x with jobKey := v.setWidth 32 })

/-! ### The host port (03_host R36 to R49) -/

/-- n bytes from an address, for a kind of access of a partition's function, are at these places: each translates, its target
lets the function's master in, and no migration covers it; P says where the places are. -/
abbrev hostPlaces (s : State) (p : PartId) (k : AKind) (va : W) (n : Nat) (P : Nat → Prop) (m : Nat → Loc) : Prop :=
  ∀ i, i < n → s.translateHost p (va + .ofNat 64 i) k = .ok (m i) ∧
    s.mayAccess (.ofNat 10 (0x301 + p.val)) p k (m i) = true ∧ s.migrating (m i).place = false ∧ P (m i).place

/-- The first j bytes are in this module, and the next has no translation or its target refuses. -/
abbrev hostFails (s : State) (p : PartId) (k : AKind) (va : W) (n : Nat) : Prop :=
  ∃ (j : Nat) (m : Nat → Loc), j < n ∧ hostPlaces s p k va j (· < 2 ^ 80) m ∧
    ((∃ c r, s.translateHost p (va + .ofNat 64 j) k = .fault c r) ∨
     ∃ l, s.translateHost p (va + .ofNat 64 j) k = .ok l ∧ s.mayAccess (.ofNat 10 (0x301 + p.val)) p k l = false)

/-- The first j bytes are in this module, and the next waits: for a recast, a page walk or a migration. -/
abbrev hostWaits (s : State) (p : PartId) (k : AKind) (va : W) (n : Nat) : Prop :=
  ∃ (j : Nat) (m : Nat → Loc), j < n ∧ hostPlaces s p k va j (· < 2 ^ 80) m ∧
    (s.translateHost p (va + .ofNat 64 j) k = .held ∨ (∃ q, s.translateHost p (va + .ofNat 64 j) k = .walk q) ∨
     ∃ l, s.translateHost p (va + .ofNat 64 j) k = .ok l ∧ s.mayAccess (.ofNat 10 (0x301 + p.val)) p k l = true ∧
       l.place < 2 ^ 80 ∧ s.migrating l.place = true)

/-- R38, R39: an access of window D at an offset fails: FNERR counts it, saturating, FNERRADDR keeps the first offset, and nothing
else of a function, a core or a memory changes. -/
abbrev hostFailed (s t : State) (p : PartId) (off : Nat) : Prop :=
  (t.vfAt p).fnerr.toNat = min (2 ^ 32 - 1) ((s.vfAt p).fnerr.toNat + 1) ∧
  (t.vfAt p).fnerraddr = (if (s.vfAt p).fnerr = 0 then .ofNat 64 off else (s.vfAt p).fnerraddr) ∧
  (t.vfAt p).queues = (s.vfAt p).queues ∧ (t.vfAt p).wdbase = (s.vfAt p).wdbase ∧ (∀ q, q ≠ p → t.vfAt q = s.vfAt q) ∧
  t.cores = s.cores ∧ t.ms = s.ms ∧ t.host.posted = s.host.posted

/-- R38, R39, R48: a host address with a tag above 2 has no translation. A read of window D is answered once the function's earlier
accesses are; one whose bytes are in this module and not poisoned answers with them; one that fails or meets poison is a
Completer Abort, which no answer stands for, and is counted; one of a peer module is on its way, not answered yet. -/
def Claim.WindowReads : Prop :=
  (∀ (s : State) (p : PartId) (va : W) (k : AKind), 2 < va.toNat / 2 ^ 61 → s.translateHost p va k = .fault 0x09 0) ∧
  ∀ (s : State), let p := s.inp.part
    let off := s.inp.off.toNat % 2 ^ 38
    let va := (s.vfAt p).wdbase + .ofNat 64 off
    let n := s.inp.n
    let first := s.postedBy (fnOf p) = true ∨ (s.host.away.any fun a => a.fn == fnOf p) = true
    (first → exec .windowDRead s = .next s) ∧
    (¬ first →
      (hostWaits s p .hostRead va n → exec .windowDRead s = .next s) ∧
      (hostFails s p .hostRead va n → ∃ t : State, exec .windowDRead s = .next t ∧ t.host.answer = none ∧ hostFailed s t p off) ∧
      (∀ m, hostPlaces s p .hostRead va n (· < 2 ^ 80) m →
        let l := (List.range n).map fun i => (m i).place
        (s.poisonRead l = none → exec .windowDRead s =
          .next { s with host := { s.host with answer := some (l.map s.readByte) } }) ∧
        (s.poisonRead l ≠ none → ∃ t : State, exec .windowDRead s = .next t ∧ t.host.answer = none ∧ hostFailed s t p off)) ∧
      (∀ m, 0 < n → hostPlaces s p .hostRead va n (fun q => 2 ^ 80 ≤ q ∧ s.devBad 0 (q / 2 ^ 80 - 1) = false) m →
        ∃ (t : State) (a : HostAway), exec .windowDRead s = .next t ∧ t.host.away = s.host.away ++ [a] ∧ a.fn = fnOf p ∧
          a.write = false ∧ a.places = (List.range n).map (fun i => (m i).place) ∧ a.left ≠ [] ∧
          t.host.answer = s.host.answer ∧ t.host.vfs = s.host.vfs ∧ t.cores = s.cores ∧ t.ms = s.ms))

/-- R36, R38, R39, R47: a posted write waits behind the earlier ones of its function unless it is relaxed; a write of window D whose
bytes are in this module's memory leaves them there and no other byte changed; one that waits is held, one that fails or meets
poison that it does not cover is discarded and counted. The oldest posted write of a function goes to its target when it no
longer waits. A request that is none of the host's is counted. -/
def Claim.WindowWrites : Prop :=
  ∀ (s : State), let p := s.inp.part
    let off := s.inp.off.toNat % 2 ^ 38
    let bytes := s.inp.bytes
    let w : HostWrite := ⟨fnOf p, true, off, bytes⟩
    let va := (s.vfAt p).wdbase + .ofNat 64 off
    let held := { s with host := { s.host with posted := s.host.posted ++ [w] } }
    let mine := fun (u : HostWrite) => u.fn == fnOf p
    let done := fun (m : Nat → Loc) (t : State) =>
      (∀ k, k < bytes.length → t.ms.mem.read (m k).place = bytes.getD k 0) ∧
      (∀ b, (∀ k, k < bytes.length → b ≠ (m k).place) → t.ms.mem.read b = s.ms.mem.read b) ∧
      t.cores = s.cores ∧ t.host.vfs = s.host.vfs ∧ t.host.answer = s.host.answer
    let near := fun (m : Nat → Loc) => hostPlaces s p .hostWrite va bytes.length (· < 2 ^ 45) m ∧ (m 0).attr.role ≠ 2 ∧
      (∀ i j, i < bytes.length → j < bytes.length → (m i).place = (m j).place → i = j)
    let poison := fun (m : Nat → Loc) =>
      s.poisonWrite ((List.range bytes.length).map fun i => ((m i).place, bytes.getD i 0, 0xFF#8))
    (s.postedBy (fnOf p) = true → s.inp.ok = false → exec .windowDWrite s = .next held) ∧
    (s.postedBy (fnOf p) = false ∨ s.inp.ok = true →
      (hostWaits s p .hostWrite va bytes.length → exec .windowDWrite s = .next held) ∧
      (hostFails s p .hostWrite va bytes.length → ∃ t : State, exec .windowDWrite s = .next t ∧ hostFailed s t p off) ∧
      (∀ m, near m → poison m = none → ∃ t : State, exec .windowDWrite s = .next t ∧ done m t ∧ t.host.posted = s.host.posted) ∧
      (∀ m, near m → poison m ≠ none → ∃ t : State, exec .windowDWrite s = .next t ∧ hostFailed s t p off)) ∧
    (s.inp.fn = fnOf p → s.host.posted.find? mine = none → exec .hostWriteForward s = .next s) ∧
    (s.inp.fn = fnOf p → s.host.posted.find? mine = some w →
      (hostWaits s p .hostWrite va bytes.length → exec .hostWriteForward s = .next s) ∧
      (hostFails s p .hostWrite va bytes.length → ∃ t : State, exec .hostWriteForward s = .next t ∧
        t.host.posted = s.host.posted.erase w ∧ t.cores = s.cores ∧ t.ms = s.ms ∧
        (t.vfAt p).fnerr.toNat = min (2 ^ 32 - 1) ((s.vfAt p).fnerr.toNat + 1)) ∧
      (∀ m, near m → poison m = none → ∃ t : State, exec .hostWriteForward s = .next t ∧ done m t ∧
        t.host.posted = s.host.posted.erase w)) ∧
    exec .unsupportedRequest s = .next { s with host := { s.host with unsupported := s.host.unsupported + 1 } }

/-- R39, R41 to R43, R45: with no posted write before them, a write of FNERR clears both error registers. A write of LQPI that is in
range moves PI; one out of range is ignored, with ERR 2 unless the queue is halted; with EN = 0 it is ignored. EN = 1 with a good
size and base starts the queue at zero, and a bad one leaves EN 0 and ERR 1; while EN is 1 only EN = 0 is taken, and the records
read go on. SKIP on a halted queue completes the record as failed, with its TAG, and the queue reads on; with no record open
before it LQCT passes it, with one message where IRQ is 1. -/
def Claim.LaunchQueueRegisters : Prop :=
  ∀ (s : State), let p := s.inp.part
    let q := s.inp.queue
    let x := s.queueAt p q
    let v := s.inp.word
    let log := v.toNat % 32
    let only := fun (t : State) => t.cores = s.cores ∧ t.ms = s.ms ∧ t.host.posted = s.host.posted ∧
      (∀ r, r ≠ q → t.queueAt p r = s.queueAt p r) ∧ (∀ r, r ≠ p → t.vfAt r = s.vfAt r)
    s.postedBy (fnOf p) = false →
    (∃ t : State, exec .fnerrWrite s = .next t ∧ t.vfAt p = { s.vfAt p with fnerr := 0, fnerraddr := 0 } ∧
      (∀ r, r ≠ p → t.vfAt r = s.vfAt r) ∧ t.cores = s.cores ∧ t.ms = s.ms) ∧
    (∃ t : State, exec .lqpiWrite s = .next t ∧ only t ∧
      (x.en = false → t.queueAt p q = x) ∧
      (x.en = true → x.pi.toNat ≤ v.toNat → v.toNat ≤ x.ci.toNat + 2 ^ x.log2n.toNat →
        t.queueAt p q = { x with pi := v }) ∧
      (x.en = true → (v.toNat < x.pi.toNat ∨ x.ci.toNat + 2 ^ x.log2n.toNat < v.toNat) →
        t.queueAt p q = if x.halt = none then { x with err := 2 } else x)) ∧
    (∃ t : State, exec .lqcfgWrite s = .next t ∧ only t ∧
      (let good := 6 ≤ log ∧ log ≤ 16 ∧ x.base.toNat / 2 ^ 61 = 0 ∧ x.base.toNat % (64 * 2 ^ log) = 0 ∧
         s.partCores p ≠ []
       let cfg : LQueue := { x with irq := v.getLsbD 15, msiv := v.extractLsb' 8 6, log2n := v.extractLsb' 0 5 }
       (x.en = false → v.getLsbD 31 = true →
        (good → ∃ old, t.queueAt p q = { cfg with
          en := true, pi := 0, ci := 0, ct := 0, err := 0, failcnt := 0, at_ := 0, tag := 0, recs := [], halt := none, old := old }) ∧
        (¬ good → t.queueAt p q = { x with err := 1 })) ∧
       (x.en = false → v.getLsbD 31 = false → t.queueAt p q = cfg)) ∧
      (x.en = true → t.queueAt p q = { x with en := v.getLsbD 31 })) ∧
    (∃ t : State, exec .skip s = .next t ∧ only t ∧
      (x.halt = none → t.queueAt p q = { x with err := 0 }) ∧
      (∀ k g, x.halt = some (k, g) → let y := t.queueAt p q
        y.halt = none ∧ y.err = 0 ∧ y.ci = .ofNat 64 k ∧ y.tag = g ∧ y.pi = x.pi ∧ y.en = x.en ∧
        y.failcnt.toNat = min (2 ^ 16 - 1) (x.failcnt.toNat + 1) ∧
        (x.recs = [] → y.ct = x.ct + 1 ∧ y.recs = [] ∧ t.host.msix = s.host.msix ++
          if x.irq = true then [(p.val + 1, x.msiv.toNat)] else [])))

/-- A launch record's field of n bytes. -/
abbrev lrec (b : List Byte) (lo n : Nat) : Nat := leNat ((b.drop lo).take n)

/-- The conditions of ERR 3, 4 and 5 on a record of 64 bytes that is record k of a queue (R43). -/
abbrev err3 (s : State) (p : PartId) (b : List Byte) : Prop :=
  7 < lrec b 16 1 ∨ 3 < lrec b 17 1 ∨ 1 < lrec b 18 1 ∨ 4 < lrec b 19 1 ∨ lrec b 20 4 ≠ 0 ∨
  (∃ i, i < 4 ∧ lrec b 19 1 ≤ i ∧ lrec b (24 + 8 * i) 8 ≠ 0) ∨ (lrec b 18 1 = 1 ∧ (s.partAt p).tt = false)
abbrev err4 (s : State) (p : PartId) (b : List Byte) : Prop := ∀ g ∈ s.sched.graphs, g.part = p → g.handle ≠ lrec b 0 8
abbrev err5 (s : State) (p : PartId) (q : Fin 16) (k : Nat) (b : List Byte) : Prop :=
  ∃ i, i < 4 ∧ i < lrec b 19 1 ∧
    let w := lrec b (24 + 8 * i) 8
    ((s.queueAt p (toQ (w / 2 ^ 60))).en = false ∨ (w / 2 ^ 60 = q.val ∧ k ≤ w % 2 ^ 60))

/-- R42, R43, R45: the next record of an enabled queue that is not halted is read from its slot of the ring by master 0x320. One that
cannot be read halts the queue with ERR 6, a bad one with its code, the lowest of those that hold, which is the model's choice
(assumption 83), with AT its number and a message where IRQ is 1; a good one joins the queue's records with its fields, and
LQCI moves to it. A disabled, halted or empty queue reads nothing. -/
def Claim.LaunchRecords : Prop :=
  ∀ (s : State), let p := s.inp.part
    let q := s.inp.queue
    let x := s.queueAt p q
    let k := x.ci.toNat + 1
    let va := x.base + .ofNat 64 (64 * (x.ci.toNat % 2 ^ x.log2n.toNat))
    let halts := fun (e : Nat) (tag : W) => ∃ t : State, exec .launchRecordRead s = .next t ∧ t.queueAt p q =
        { x with err := .ofNat 8 e, at_ := .ofNat 32 k, halt := some (k, tag) } ∧
      t.host.msix = s.host.msix ++ (if x.irq = true then [(p.val + 1, x.msiv.toNat)] else []) ∧ t.cores = s.cores ∧ t.ms = s.ms
    (x.en = false ∨ x.halt ≠ none ∨ x.pi.toNat ≤ x.ci.toNat → exec .launchRecordRead s = .next s) ∧
    (x.en = true → x.halt = none → x.ci.toNat < x.pi.toNat →
      (s.trOffset p va.toNat .hostRead .e .walk = .held → exec .launchRecordRead s = .next s) ∧
      (∀ c r, s.trOffset p va.toNat .hostRead .e .walk = .fault c r → halts 6 0) ∧
      ∀ a, s.trOffset p va.toNat .hostRead .e .walk = .ok a →
        let b := (span a.place 64).map s.readByte
        let tag : W := .ofNat 64 (lrec b 56 8)
        let read := a.place < 2 ^ 80 ∧ s.mayAccess 0x320 p .hostRead a = true ∧ s.poisonRead (span a.place 64) = none
        (¬ read → halts 6 0) ∧ (read → err3 s p b → halts 3 tag) ∧ (read → ¬ err3 s p b → err4 s p b → halts 4 tag) ∧
        (read → ¬ err3 s p b → ¬ err4 s p b → err5 s p q k b → halts 5 tag) ∧
        (read → ¬ err3 s p b → ¬ err4 s p b → ¬ err5 s p q k b → ∃ (t : State) (r : Rec), exec .launchRecordRead s = .next t ∧
          t.queueAt p q = { x with ci := .ofNat 64 k, recs := x.recs ++ [r] } ∧ r.k = k ∧ r.graph.toNat = lrec b 0 8 ∧
          r.args.toNat = lrec b 8 8 ∧ r.prio = lrec b 16 1 ∧ r.redun = lrec b 17 1 ∧ r.tt = (lrec b 18 1 == 1) ∧ r.tag = tag ∧
          r.waits = (List.range (lrec b 19 1)).map (fun i => (lrec b (24 + 8 * i) 8 / 2 ^ 60, lrec b (24 + 8 * i) 8 % 2 ^ 60)) ∧
          r.started = false ∧ r.failed = false ∧ r.ended = false ∧ t.sched = s.sched ∧ t.host.msix = s.host.msix ∧
          t.cores = s.cores ∧ t.ms = s.ms))

/-- R49, R152: a function-level reset of a VF leaves its registers at reset and none of its partition's instances, tasks and
group entries; the cores that ran for it are idle, with general registers at reset and their memories as they are, and no
other core changes. That of the PF resets every VF. PARTMAP and the key slots survive. -/
def Claim.FunctionResets : Prop :=
  ∀ (s : State), let p := s.inp.part
    let ran := fun (c : CoreId) => ∃ i ∈ s.sched.insts, i.vf = p ∧ (s.coreAt c).node.inst = some i.id
    let idle := fun (t : State) (c : CoreId) => (t.coreAt c).node.inst = none ∧ (t.coreAt c).seq.mode = .idle ∧
      (∀ k, (t.coreAt c).regs.s.get k = 0) ∧ (t.coreAt c).scratch = (s.coreAt c).scratch ∧ (t.coreAt c).acc = (s.coreAt c).acc
    let keeps := fun (t : State) => t.fw.partmap = s.fw.partmap ∧ t.fw.keyslots = s.fw.keyslots ∧ t.ms.mem = s.ms.mem
    (∃ t : State, exec .vfFlr s = .next t ∧ t.vfAt p = Vf.reset ∧ (∀ i ∈ t.sched.insts, i.vf ≠ p) ∧
      (∀ i ∈ s.sched.insts, i.vf ≠ p → i ∈ t.sched.insts) ∧ (∀ g ∈ t.sched.groups, g.2.part ≠ p) ∧
      (∀ c, ran c → idle t c) ∧ (∀ c, ¬ ran c → t.coreAt c = s.coreAt c) ∧ keeps t ∧ ∀ q, q ≠ p → t.vfAt q = s.vfAt q) ∧
    (∃ t : State, exec .pfFlr s = .next t ∧ (∀ r, t.vfAt r = Vf.reset) ∧ t.sched.insts = [] ∧ t.sched.groups = [] ∧
      (∀ c, (∃ i ∈ s.sched.insts, (s.coreAt c).node.inst = some i.id) → idle t c) ∧ keeps t)

/-! ### The schedulers (06_scheduler R105 to R125) -/

/-- R44, R109, R117: the oldest record of a queue that has not started starts when its waits are met and its groups find entries:
it is marked started, the lowest free entries take its groups' members, and an instance of every node joins, numbered in order,
with its argument word, the record's number, its count of predecessors and the larger priority and redundancy; a node without
predecessors is ready in its pool and any other waits. With a wait unmet, too few entries, the partition swapped out or nothing to
start, nothing happens. -/
def Claim.RecordsStart : Prop :=
  ∀ (s : State), let p := s.inp.part
    let q := s.inp.queue
    let x := s.queueAt p q
    let next := (x.old ++ x.recs).find? fun r => !r.started && !r.ended
    (next = none → exec .recordStart s = .next s) ∧
    ∀ (r : Rec) (g : Graph), next = some r → s.graphAt r.graph.toNat = some g →
      let ready := (∀ w ∈ r.waits, w.2 ≤ (s.queueAt p (toQ w.1)).ct.toNat) ∧ g.image.groups.length ≤ s.freeEntries.length ∧
        (s.partAt p).swapped = false
      (¬ ready → exec .recordStart s = .next s) ∧
      (ready → g.image.nodes ≠ [] → (∀ i ∈ s.sched.insts, i.id < s.sched.nextInst) →
        (r.tt = true → ∀ n ∈ g.image.nodes, n.pin.getLsbD 15 = true ∧ n.frame ≠ 0 ∧ n.engines.getLsbD 0 = false) →
        ∃ t : State, exec .recordStart s = .next t ∧
          (t.queueAt p q).recs = x.recs.map (fun y => if y.k = r.k then { y with started := true } else y) ∧
          (t.queueAt p q).ct = x.ct ∧ t.sched.insts.length = s.sched.insts.length + g.image.nodes.length ∧
          t.sched.nextInst = s.sched.nextInst + g.image.nodes.length ∧
          (∀ (k : Nat) (n : NodeDesc), g.image.nodes[k]? = some n → ∃ i : Inst,
            t.sched.insts[s.sched.insts.length + k]? = some i ∧ i.id = s.sched.nextInst + k ∧ i.node = k ∧ i.vf = p ∧
            i.queue = q.val ∧ i.record = r.k ∧ i.graph = g.handle ∧ i.args = [r.args, .ofNat 64 r.k, 0, 0, 0, 0, 0] ∧
            i.preds = n.preds.toNat ∧ i.base = max n.prio.toNat r.prio ∧ i.redun = max n.redun.toNat r.redun ∧ i.tt = r.tt ∧
            i.groups = s.freeEntries.take g.image.groups.length ∧
            i.state = (if n.preds = 0 then .ready else .waiting) ∧
            (n.preds = 0 → i.entered = s.cyc ∧ i.readyAt = s.cyc ∧ i.die = s.poolDie i (s.rootDie p))) ∧
          (∀ k, k < s.sched.insts.length → t.sched.insts[k]? = s.sched.insts[k]?) ∧
          t.sched.groups = s.sched.groups ++ (s.freeEntries.zip g.image.groups).map (fun e => (e.1, s.groupEnt p e.2)) ∧
          t.cores = s.cores ∧ t.ms = s.ms)

/-- R105 to R108, R117, 23_matrix R440: an image that breaks a limit of these rules is not loaded and nothing changes: a node whose
fields are out of range, whose spare words or bytes are not zero, whose successors do not exist or whose count of predecessors is
not theirs, a node with a frame that is not pinned or takes degraded cores, an operand that names no extent of the graph; too many
groups, templates or routine words. -/
def Claim.ImageLimits : Prop :=
  ∀ (s : State) (g : GraphImage) (l : List (ExtentPlace × Range)), s.imageFor = some (g, l) →
    let refused := exec .graphLoad s = .next s
    (∀ k n, g.nodes[k]? = some n →
      (n.code.length = 0 ∨ 4096 < n.code.length ∨ n.code.length ≤ n.entry ∨ 8 < n.opnds.length ∨ (∃ w ∈ n.spare, w ≠ 0) → refused) ∧
      (n.demand.toNat / 64 = 3 ∨ (n.demand.toNat / 64 = 0 ∧ n.demand ≠ 0) ∨ (n.demand.toNat / 64 ≠ 0 ∧ n.demand.getLsbD 5 = true) ∨
        (n.demand.toNat / 64 = 1 ∧ (n.demand.toNat % 32 < 2 ∨ 16 < n.demand.toNat % 32)) ∨
        (n.demand.toNat / 64 = 2 ∧ n.demand.toNat / 4 % 4 * (n.demand.toNat % 4) < 2) → refused) ∧
      (1 < n.engines.toNat ∨ 7 < n.prio.toNat ∨ n.redun = 0 ∨ 3 < n.redun.toNat ∨ 7 < n.nsave.toNat ∨ 256 < n.keep.toNat → refused) ∧
      (4096 < n.succs.length ∨ n.succOff % 4 ≠ 0 ∨ (∃ e ∈ n.succs, g.nodes.length ≤ e.node.toNat ∨ e.resv ≠ 0) → refused) ∧
      (n.preds.toNat ≠ ((g.nodes.flatMap (·.succs)).filter fun e => e.node.toNat == k).length → refused) ∧
      (4096 < n.frame.toNat ∨ (n.frame ≠ 0 ∧ (n.pin.getLsbD 15 = false ∨ n.engines.getLsbD 0 = true)) → refused) ∧
      (n.lift.toNat % 128 ≠ 0 ∨ n.lift.toNat / 128 % 128 = 0 ∨ 64 < n.lift.toNat / 128 % 128 → refused) ∧
      (7 < n.gmv.toNat ∨ (∃ i, i < 3 ∧ n.gmv.getLsbD i = true ∧ g.groups.length ≤ (n.gm.getD i 0).toNat) → refused) ∧
      (n.pin.toNat / 256 % 128 ≠ 0 ∨ n.tail ≠ 0 → refused) ∧
      ((∃ o ∈ n.opnds, ∀ x ∈ l, o.handle.toNat ≠ handleOf x.1.index.val x.2) → refused)) ∧
    (65536 < g.nodes.length ∨ 256 < g.groups.length ∨ 255 < g.templates.length ∨
      3072 < (g.routines.map fun r => r.words.length).sum ∨ (∃ r ∈ g.routines, r.num.toNat < 32) → refused)

/-- 13_assembly R281, R282, R287: a file that does not begin with MAGIC, VERSION 1 and KIND 1, whose LEN is not its length, that
holds a section of a reserved TYPE or a relocation that the linker resolves, is not loaded and nothing changes; the same of a
file with a .sig section unless its slot is active and its signature verifies under the slot's key. -/
def Claim.ImageFiles : Prop :=
  ∀ (s : State), let f := s.inp.bytes
    let refused := exec .graphLoad s = .next s
    (f.take 4 ≠ [0x42, 0x4F, 0x46, 0x5A] ∨ leAt f 4 2 ≠ 1 ∨ leAt f 6 2 ≠ 1 ∨ leAt f 48 8 ≠ f.length → refused) ∧
    (∀ k, k < leAt f 8 4 → (let type := leAt f (leAt f 16 8 + 32 * k + 4) 1; type = 0 ∨ 12 < type) → refused) ∧
    (∀ b, bofOf f = some b → (∃ x ∈ b.relocs, x.kind ≠ 2 ∧ x.kind ≠ 3) → refused) ∧
    ∀ x (j : Fin 16), sigOf f = some x → leAt x.bytes 0 1 = j.val → refused ∨ (s.fw.keyslots.get j = 1 ∧
      ∃ k, s.fw.keys.find? (·.1 == j) = some k ∧ Config.mlDsaVerify k.2 (imageMessage f x) ((x.bytes.drop 8).take 3309) = true)

/-- R105, 13_assembly R284 to R287: an image that passes the checks, in a file whose signature, if any, verifies, for which
firmware has chosen places that overlap nothing and whose relocations find their places, joins the graphs under the next handle
with its relocations resolved, and its extents stand in the range table; any other is not loaded and nothing changes. -/
def Claim.GraphLoads : Prop :=
  ∀ (s : State), let p := s.inp.part
    (s.imageFor = none → exec .graphLoad s = .next s) ∧
    ∀ (g : GraphImage) (l : List (ExtentPlace × Range)), s.imageFor = some (g, l) →
      let handles := l.map fun x => handleOf x.1.index.val x.2
      let ok := s.sigOk s.inp.bytes = true ∧ s.imageOk p g handles = true
      (¬ ok → exec .graphLoad s = .next s) ∧
      (ok → ∃ (t : State) (h : Graph), exec .graphLoad s = .next t ∧ t.sched.graphs = s.sched.graphs ++ [h] ∧
        h.handle = s.sched.nextHandle ∧ h.part = p ∧ h.image = g ∧ h.handles = handles ∧
        t.sched.nextHandle = s.sched.nextHandle + 1 ∧ t.sched.insts = s.sched.insts ∧
        (∀ x ∈ l, (t.partAt p).rangeIx x.1.index.val = some x.2) ∧ ∀ q, q ≠ p → t.partAt q = s.partAt q)

/-- R112: the order of a pool's nodes. An effective priority is the base and one for each 200 us in the pool, at most 7; the
order holds the pool's nodes, higher effective priority first, then earlier readiness, then lower record, then lower node.
Of nodes of one partition, or with every weight 0, the first goes; of several the first whose partition has credit, every counter
reloaded from its weight when none has, and that counter falls by one. -/
def Claim.DispatchOrder : Prop :=
  ∀ (s : State) (d : Die) (l : List Inst),
    (∀ i : Inst, s.effPrio i = min 7 (i.base + (s.cyc - i.entered).toNat / 300000)) ∧
    (s.inOrder l).Perm l ∧
    (s.inOrder l).Pairwise (fun i j => s.effPrio j < s.effPrio i ∨ (s.effPrio j = s.effPrio i ∧
      (i.readyAt.toNat < j.readyAt.toNat ∨ (i.readyAt = j.readyAt ∧
        (i.record < j.record ∨ (i.record = j.record ∧ i.node ≤ j.node)))))) ∧
    (∀ i r, l = i :: r → ((∀ j ∈ r, j.vf = i.vf) ∨ ∀ j ∈ l, s.weight d j.vf = 0) →
      (s.pickNode d l).map (·.1) = some i) ∧
    ((∃ i ∈ l, ∃ j ∈ l, i.vf ≠ j.vf) → (∃ i ∈ l, s.weight d i.vf ≠ 0) →
      let have_ := s.sched.credit.get (dieIx d)
      let now := fun (p : PartId) => if ∃ i ∈ l, 0 < have_.get i.vf then have_.get p else s.weight d p
      ∃ i cr, s.pickNode d l = some (i, cr) ∧ l.find? (fun j => decide (0 < now j.vf)) = some i ∧
        ∀ p, cr.get p = if p = i.vf then now p - 1 else now p)

/-- R113, R114, R117, R125: the free placements of an instance on a die, by their first cores. -/
def Claim.Placements : Prop :=
  ∀ (s : State) (i : Inst) (n : NodeDesc) (d : Die) (c : Nat),
    let k := seatsOf n
    let cores := withReplicas i.redun (runFrom c k)
    let free := fun (x : CoreId) => s.ownsRoom i.vf (x.val / 16) = true ∧ x ∉ s.fw.absent ∧
      ((n.engines.getLsbD 0 = true ∧ i.tt = false) ∨ s.degraded x = false) ∧ s.fw.hot = false ∧ s.reservedFrom i.id x = false ∧
      (s.coreAt x).node.inst = none
    let here := c < 256 ∧ c % 16 % pow2Up k = 0 ∧ c % 16 + k ≤ 16 ∧ (∀ x ∈ cores, free x) ∧
      (n.demand.toNat / 64 ≠ 0 → s.sched.groups.length < 256)
    (n.pin.getLsbD 15 = false → (c ∈ s.placements i n d [] ↔ here ∧ dieOf (toCore c) = d)) ∧
    (n.pin.getLsbD 15 = true → (c ∈ s.placements i n d [] ↔ here ∧
      ((s.partCores i.vf)[n.pin.toNat % 256]?).map (·.val) = some c ∧ (i.redun ≤ 1 ∨ c < 128)))

/-- R112, R113, R116, R124: a die decides at most once in eight cycles, among the nodes that its pool holds once those that wait have
taken the free entries; one with a complete reservation goes first. A pinned node that can have no placement fails. The node
chosen takes of its free placements one whose cores hold its segment, then with the fewest degraded cores, then the lowest:
its seats' cores belong to it, and it starts 126 cycles later, or as a timetable node at a multiple of 64 at least 150 later, and
the load of a cold segment later than that. -/
def Claim.Dispatch : Prop :=
  ∀ (s : State), let d := s.inp.die
    let u := s.fillPool
    let pool := u.inOrder (u.sched.insts.filter fun i =>
      i.state == .ready && i.pooled && i.die == d && !(u.partAt i.vf).swapped)
    let can := pool.filter fun i => (u.descOf i).any fun n => !(u.placements i n d []).isEmpty
    let kept := fun (i : Inst) => u.sched.reserved.any (·.2.1 == i.id)
    let due := 8 ≤ (s.cyc - s.sched.lastDecision.get (dieIx d)).toNat
    (¬ due → exec .dispatchDecision s = .next s) ∧
    (∀ i, due → (pool.find? fun i => (u.descOf i).any (u.pinBad i)) = some i → (s.partAt i.vf).fatal = false →
      ∃ t : State, exec .dispatchDecision s = .next t ∧ t.sched.lastDecision.get (dieIx d) = s.cyc ∧
        (t.instAt i.id).map (·.state) = some .failed ∧ t.ms = s.ms) ∧
    (due → (pool.find? fun i => (u.descOf i).any (u.pinBad i)) = none →
      (can = [] → exec .dispatchDecision s = .next u) ∧
      ∀ i cr n, u.pickNode d (can.filter kept ++ can.filter fun i => !kept i) = some (i, cr) → u.descOf i = some n →
        u.instAt i.id = some i → 1 ≤ i.redun → i.redun ≤ 3 → n.code.length ≤ 4096 → s.cyc.toNat < 2 ^ 63 →
        let cores := fun c => withReplicas i.redun (runFrom c (seatsOf n))
        let warm := fun c => ∀ x ∈ cores c, u.holdsSegment i n x = true
        let worn := fun c => ((cores c).filter u.degraded).length
        ∃ (t : State) (c : Nat) (e : Option (BitVec 8)) (w : W), exec .dispatchDecision s = .next t ∧
          t.sched.lastDecision.get (dieIx d) = s.cyc ∧ t.sched.credit.get (dieIx d) = cr ∧
          c ∈ u.placements i n d [] ∧
          (∀ b ∈ u.placements i n d [], b ≠ c → (warm c ∧ ¬ warm b) ∨
            ((warm c ↔ warm b) ∧ (worn c < worn b ∨ (worn c = worn b ∧ c < b)))) ∧
          (t.instAt i.id).map (·.state) = some (.dispatched c e w) ∧ (t.instAt i.id).map (·.pooled) = some false ∧
          (n.demand.toNat / 64 ≠ 0 → e.isSome = true) ∧ (n.demand.toNat / 64 = 0 → e = i.entry) ∧
          (∀ r k, r < i.redun → k < seatsOf n → let x := (t.coreAt (replicaCore r (toCore (c + k)))).node
            x.inst = some i.id ∧ x.seat = k ∧ x.replica = r) ∧
          ((i.graph, i.node) ∈ u.sched.descs.get (dieIx i.die) →
            let load := if warm c then 0 else 80 + (n.code.length + 15) / 16
            (i.tt = false → w.toNat = s.cyc.toNat + 126 + load) ∧
            (i.tt = true → w.toNat % 64 = 0 ∧ s.cyc.toNat + 150 + load ≤ w.toNat ∧ w.toNat < s.cyc.toNat + 150 + load + 64)) ∧
          t.ms = s.ms)

/-- R112, R125: every 64 cycles a die tells the other its free cores. A ready node that has waited 2 us in a pool without a free
placement, with one in the other die's summary and an entry free there, moves to that pool and keeps its readiness; any other does
not move. Of the gangs and redundant nodes that have waited 1 ms the first in the order may reserve, where its partition has no
reservation on the die: the possible placement with the most free cores, then the lowest. -/
def Claim.PoolMoves : Prop :=
  ∀ (s : State),
    ((s.cyc - s.sched.lastSummary.get (dieIx s.inp.die)).toNat < 64 → exec .freeCoreSummary s = .next s) ∧
    (64 ≤ (s.cyc - s.sched.lastSummary.get (dieIx s.inp.die)).toNat → ∃ t : State, exec .freeCoreSummary s = .next t ∧
      (∀ c, c ∈ t.sched.summary.get (dieIx (otherDie s.inp.die)) ↔
        dieOf c = s.inp.die ∧ (s.coreAt c).node.inst = none ∧ c ∉ s.fw.absent) ∧
      t.sched.lastSummary.get (dieIx s.inp.die) = s.cyc ∧
      t.sched.insts = s.sched.insts ∧ t.cores = s.cores ∧ t.ms = s.ms) ∧
    (∀ i n, s.instAt s.inp.n = some i → s.descOf i = some n →
      let o := otherDie i.die
      let moves := i.state = .ready ∧ i.pooled = true ∧ i.redun ≤ 1 ∧ n.pin.getLsbD 15 = false ∧
        3000 ≤ (s.cyc - i.entered).toNat ∧ s.placements i n i.die [] = [] ∧ s.poolOpen o i.vf = true ∧
        ∃ c ∈ s.starts i n o, s.possible i.vf i.redun (seatsOf n) c = true ∧
          ∀ k ∈ runFrom c (seatsOf n), k ∈ s.sched.summary.get (dieIx i.die) ∧
            ((n.engines.getLsbD 0 = true ∧ i.tt = false) ∨ s.degraded k = false)
      (¬ moves → exec .poolMove s = .next s) ∧
      (moves → ∃ t : State, exec .poolMove s = .next t ∧ t.instAt i.id = some { i with die := o } ∧ t.cores = s.cores ∧ t.ms = s.ms)) ∧
    (∀ i n, s.instAt s.inp.n = some i → s.descOf i = some n →
      let waits := fun (j : Inst) => j.state = .ready ∧ j.pooled = true ∧ 1500000 ≤ (s.cyc - j.entered).toNat ∧
        ((∃ m, s.descOf j = some m ∧ m.demand.toNat / 64 ≠ 0) ∨ 1 < j.redun)
      let cores := fun c => withReplicas i.redun (runFrom c (seatsOf n))
      let free := fun c => ((cores c).filter fun k => (s.coreAt k).node.inst.isNone).length
      let fits := fun c => s.possible i.vf i.redun (seatsOf n) c = true ∧
        ∀ k ∈ cores c, n.engines.getLsbD 0 = true ∨ s.degraded k = false
      let taken := ∃ r ∈ s.sched.reserved, r.1 = i.vf ∧ ∃ j, s.instAt r.2.1 = some j ∧ j.die = i.die
      (¬ waits i ∨ taken ∨ (∀ c ∈ s.starts i n i.die, ¬ fits c) → exec .placementReserve s = .next s) ∧
      (waits i → (s.inOrder (s.sched.insts.filter fun j => j.vf == i.vf && j.die == i.die && s.mayReserve j)).head?.map (·.id) =
        some i.id → ¬ taken → (∃ c ∈ s.starts i n i.die, fits c) →
        ∃ (t : State) (c : Nat), exec .placementReserve s = .next t ∧
          t.sched.reserved = s.sched.reserved ++ [(i.vf, i.id, c)] ∧ c ∈ s.starts i n i.die ∧ fits c ∧
          (∀ b ∈ s.starts i n i.die, fits b → b ≠ c → free b < free c ∨ (free b = free c ∧ c < b)) ∧
          t.sched.insts = s.sched.insts ∧ t.cores = s.cores ∧ t.ms = s.ms))

/-- R115, R116, R117, R124: when its time has come, and for a timetable node at a multiple of 64, a dispatched node starts on all its
cores in one cycle: each runs at the node's entry with its arguments from s1 upward, every other register zero and full, timelines,
lift levels, queues, loop and split stacks empty, its status and identity as the node and the core give them, the operand words at
the end of scratch, and the rest of scratch, the banks and the accumulators as they were; no other core's registers change. A
handle that names no valid entry fails the node before any seat starts; before its time nothing happens. -/
def Claim.NodesStart : Prop :=
  ∀ (s : State) (i : Inst) (n : NodeDesc) (g : Graph) (first : Nat) (e : Option (BitVec 8)) (at_ : W),
    s.instAt s.inp.n = some i → i.state = .dispatched first e at_ → s.descOf i = some n → s.graphAt i.graph = some g →
    let due := at_.toNat ≤ s.cyc.toNat ∧ (i.tt = true → s.cyc.toNat % 64 = 0) ∧ (s.partAt i.vf).swapped = false
    let valid := fun (h : Nat) => h / 2 ^ 24 % 2 ^ 8 = 0 ∧ h.testBit 11 = false ∧ ∃ r, (s.partAt i.vf).rangeIx (h % 2048) = some r ∧
      r.has 63 = true ∧ r.gen = h / 2 ^ 12 % 2 ^ 12
    (¬ due → exec .nodeStart s = .next s) ∧
    (due → (∃ o ∈ n.opnds, ¬ valid o.handle.toNat) → (s.partAt i.vf).fatal = false → ∃ t : State, exec .nodeStart s = .next t ∧
      (t.instAt i.id).map (·.state) = some .failed ∧ (∀ c, (t.coreAt c).regs = (s.coreAt c).regs) ∧ t.ms = s.ms) ∧
    (due → (∀ o ∈ n.opnds, valid o.handle.toNat) → i.saved = none → i.args.length < 64 → n.opnds.length ≤ 8 →
      ∃ t : State, exec .nodeStart s = .next t ∧ (t.instAt i.id).map (·.state) = some .running ∧
        (t.instAt i.id).map (·.started) = some s.cyc ∧
        (∀ c ∈ s.instCores i.id, let x := t.coreAt c
          let y := s.coreAt c
          let lead := toCore (i.first + y.node.seat)
          x.seq.mode = .running ∧ x.seq.pc.bundle = n.entry ∧ x.seq.pc.slot = 0 ∧ x.seq.loops = [] ∧ x.seq.splits = [] ∧
          (∀ k : Fin 64, x.regs.s.get k = (if k.val = 0 then 0 else i.args.getD (k.val - 1) 0) ∧ x.regs.sst.get k = .full ∧
            x.regs.v.get k = 0 ∧ x.regs.vst.get k = .full) ∧
          (∀ k : Fin 8, x.regs.p.get k = decide (k = 0) ∧ x.regs.k.get k = (if k = 0 then BitVec.allOnes 1024 else 0) ∧
            x.regs.pm.get k = 0) ∧
          x.csr.hm = false ∧ x.csr.part.toNat = i.vf.val ∧ x.csr.coreno.toNat = lead.val ∧ x.csr.tt = i.tt ∧
          x.csr.deg = s.degraded c ∧ x.csr.xclr = n.xclr ∧ x.csr.nrep = .ofNat 2 i.redun ∧ x.csr.self = .ofNat 2 y.node.replica ∧
          x.csr.fpflags = 0 ∧ x.csr.fmt = 0 ∧ x.csr.debt = 0 ∧ x.csr.limit = 0xFFFF ∧ x.csr.trapcause = 0 ∧
          x.lift.levels = [] ∧ (∀ k : Fin 3, x.tl.get k = Timeline.reset) ∧ x.matrix.queue = [] ∧ x.matrix.run = none ∧
          (∀ k : Fin 2, (x.copy.get k).queue = [] ∧ (x.copy.get k).run = none) ∧
          (∀ k o, n.opnds[k]? = some o → x.scratch.num (0x1FFFC0 + 8 * k) 8 =
            o.handle.toNat * 2 ^ 32 + o.row.toNat * 2 ^ 16 + o.col.toNat) ∧
          (∀ k, n.opnds.length ≤ k → k < 8 → x.scratch.num (0x1FFFC0 + 8 * k) 8 = 0) ∧
          (∀ a, a < 0x1FFFC0 ∨ 0x200000 ≤ a → x.scratch.read a = y.scratch.read a) ∧ x.live1 = y.live1 ∧ x.acc = y.acc) ∧
        (∀ c, c ∉ s.instCores i.id → (t.coreAt c).regs = (s.coreAt c).regs ∧ (t.coreAt c).seq = (s.coreAt c).seq ∧
          (t.coreAt c).scratch = (s.coreAt c).scratch ∧ (t.coreAt c).csr = (s.coreAt c).csr) ∧ t.ms = s.ms)

/-- R119: 24 cycles after its b.task at the earliest the core's oldest task request is answered. With a pool entry free its node's
instance joins ready, with its arguments, its record and the larger priority, and the status register takes 0; with none, or for a
node that the graph does not have, it takes 1 and nothing joins. The status reaches the seat that asked on the leader's core, and no
other core's registers. -/
def Claim.TaskInserts : Prop :=
  ∀ (s : State) (q : TaskReq) (me : Inst), s.sched.tasks.find? (·.core == s.inp.core) = some q →
    s.instAt q.inst = some me → (∀ i ∈ s.sched.insts, i.id < s.sched.nextInst) →
    let asks := fun (c : CoreId) => (s.coreAt c).node.inst = some q.inst ∧ (s.coreAt c).node.seat = q.seat ∧
      (s.coreAt c).redun.retired = false
    let told := fun (t : State) (v : W) =>
      (∀ c, asks c → (s.coreAt c).csr.self = (s.coreAt c).csr.lead →
        (t.coreAt c).regs = (s.coreAt c).regs.fill .s q.status (ofS v)) ∧
      (∀ c, ¬ asks c → t.coreAt c = s.coreAt c) ∧ (∀ c, (t.coreAt c).scratch = (s.coreAt c).scratch) ∧ t.ms = s.ms ∧
      t.sched.tasks = s.sched.tasks.erase q
    let node := (s.graphAt me.graph).bind fun g => g.image.nodes[q.node]?
    let due := 24 ≤ (s.cyc - q.at_).toNat
    (¬ due → exec .taskPoolInsert s = .next s) ∧
    (due → node = none → ∃ t : State, exec .taskPoolInsert s = .next t ∧ told t 1 ∧
      t.sched.insts.length = s.sched.insts.length ∧ t.sched.nextInst = s.sched.nextInst) ∧
    (∀ n, due → node = some n →
      let i : Inst := { me with node := q.node, redun := max n.redun.toNat ((s.recOf me).elim 0 (·.redun)) }
      let d := s.poolDie i (dieOf q.core)
      (s.poolOpen d me.vf = false → ∃ t : State, exec .taskPoolInsert s = .next t ∧ told t 1 ∧
        t.sched.insts.length = s.sched.insts.length ∧ t.sched.nextInst = s.sched.nextInst) ∧
      (s.poolOpen d me.vf = true → me.tt = false → ∃ (t : State) (j : Inst), exec .taskPoolInsert s = .next t ∧ told t 0 ∧
        t.sched.insts.length = s.sched.insts.length + 1 ∧ t.sched.insts[s.sched.insts.length]? = some j ∧
        t.sched.nextInst = s.sched.nextInst + 1 ∧ j.id = s.sched.nextInst ∧ j.node = q.node ∧ j.graph = me.graph ∧ j.vf = me.vf ∧
        j.record = me.record ∧ j.queue = me.queue ∧ j.args = q.args ∧ j.base = max n.prio.toNat me.base ∧ j.redun = i.redun ∧
        j.state = .ready ∧ j.pooled = true ∧ j.die = d ∧ j.readyAt = s.cyc ∧ j.entered = s.cyc))

/-- R109, R119: a fresh number is larger than every instance's: so it is after reset, and a start of a record and a task's insert,
which alone number instances, keep it so. -/
def Claim.InstanceNumbers : Prop :=
  (∀ i ∈ State.reset.sched.insts, i.id < State.reset.sched.nextInst) ∧
  ∀ (s t : State) (a : Instr), (a = .recordStart ∨ a = .taskPoolInsert) → exec a s = .next t →
    (∀ i ∈ s.sched.insts, i.id < s.sched.nextInst) → ∀ i ∈ t.sched.insts, i.id < t.sched.nextInst

/-- R118, R167, R210: a roll call completes when every member, or every replica that stands for it, is held at it or has executed
b.done in the gang that owns the entry, what they issued before is performed, and for a swap none of their commands writes a shadow
bank any more: the entry's phase rises by one and the held members go on; nodes parked on another phase of the entry are ready again.
Where one of them swaps, all exchange their banks, and the blocks that XCLR names of the bank that was live read zero; other
bytes of scratch stay. Until then, or while the partition is swapped out, nothing happens. -/
def Claim.RollCalls : Prop :=
  ∀ (s : State) (g : GroupEnt), let e : BitVec 8 := .ofNat 8 s.inp.n
    let l := ((allCores.filter fun c => g.members.getLsbD c.val).flatMap s.memberCores).eraseDups
    let swap := ∃ c ∈ l, (s.coreAt c).seq.held = some (e, true)
    let held := ∀ c ∈ l, (∃ b, (s.coreAt c).seq.held = some (e, b)) ∨
      ((s.coreAt c).seq.mode = .done ∧ ∃ i, s.instOf c = some i ∧ i.entry = some e)
    let quiet := ∀ c ∈ l, (s.coreAt c).openIds = [] ∧
      (swap → s.shadowCopy c 0 = false ∧ s.shadowCopy c 1 = false ∧ ∀ r, (s.coreAt c).matrix.run = some r → r.wbOut = [])
    let base := fun (x : Core) => if x.live1 = true then 0x280000 else 0x200000
    let cleared := fun (x : Core) (a : Nat) => ∃ i, i < 8 ∧ x.csr.xclr.getLsbD i = true ∧ base x + i * 0x10000 ≤ a ∧
      a < base x + i * 0x10000 + 0x10000
    s.sched.groups.find? (·.1 == e) = some (e, g) →
    (g.members = 0 ∨ (s.partAt g.part).swapped = true ∨ ¬ held ∨ ¬ quiet → exec .rollCallComplete s = .next s) ∧
    (g.members ≠ 0 → (s.partAt g.part).swapped = false → held → quiet → ∃ t : State, exec .rollCallComplete s = .next t ∧
      (t.sched.groups.find? (·.1 == e)).map (·.2) = some { g with phase := g.phase + 1 } ∧
      (∀ c ∈ l, (∀ b, (s.coreAt c).seq.held = some (e, b) → (t.coreAt c).seq.held = none ∧ (t.coreAt c).seq.rolled = true) ∧
        (t.coreAt c).regs = (s.coreAt c).regs ∧ (t.coreAt c).csr = (s.coreAt c).csr) ∧
      (swap → ∀ c ∈ l, (t.coreAt c).live1 = !(s.coreAt c).live1 ∧
        ∀ a, (cleared (s.coreAt c) a → (t.coreAt c).scratch.read a = 0) ∧
          (¬ cleared (s.coreAt c) a → (t.coreAt c).scratch.read a = (s.coreAt c).scratch.read a)) ∧
      (¬ swap → ∀ c, (t.coreAt c).scratch = (s.coreAt c).scratch ∧ (t.coreAt c).live1 = (s.coreAt c).live1) ∧
      (∀ c, c ∉ l → t.coreAt c = s.coreAt c) ∧
      (∀ i ∈ s.sched.insts, ∀ k, i.state = .parked e k → k ≠ g.phase + 1 → ∀ j ∈ t.sched.insts, j.id = i.id → j.state = .ready) ∧
      t.ms.mem = s.ms.mem)

/-- R142, R145: a forced swap halts the cores that run the partition's nodes, with their memories as they are, and no other core; once
nothing of them is outstanding their contexts, registers and sequencers as they are, stand in satchels that are in retention
2,560 cycles later, and the cores run nothing. Of a partition that is swapped out already a forced swap changes nothing. -/
def Claim.Swaps : Prop :=
  ∀ (s : State), let p := s.inp.part
    let runs := fun (c : CoreId) => ∃ i, s.instOf c = some i ∧ i.vf = p
    let quiet := ∀ c, runs c → s.quiet c = true
    ((s.partAt p).swapped = true → exec .forcedSwap s = .next s) ∧
    ((s.partAt p).swapped = false → ∃ t : State, exec .forcedSwap s = .next t ∧ t.partAt p = { s.partAt p with swapped := true } ∧
      (∀ c, runs c → ((s.coreAt c).seq.mode = .running → (t.coreAt c).seq.mode = .halted) ∧
        ((s.coreAt c).seq.mode ≠ .running → (t.coreAt c).seq.mode = (s.coreAt c).seq.mode) ∧ (t.coreAt c).locks = [] ∧
        (t.coreAt c).scratch = (s.coreAt c).scratch ∧ (t.coreAt c).acc = (s.coreAt c).acc ∧
        (t.coreAt c).seq.pc = (s.coreAt c).seq.pc) ∧
      (∀ c, ¬ runs c → t.coreAt c = s.coreAt c) ∧ t.ms.mem = s.ms.mem ∧ t.sched = s.sched) ∧
    ((s.partAt p).swapped = false ∨ ¬ quiet → exec .swapQuiesceEnd s = .next s) ∧
    ((s.partAt p).swapped = true → quiet → (∀ i ∈ s.sched.insts, i.expired = false) →
      ∃ t : State, exec .swapQuiesceEnd s = .next t ∧
        (∀ c, runs c → (t.coreAt c).node.inst = none ∧ (t.coreAt c).seq.mode = .idle ∧
          ∃ q ∈ t.satchels, q.core = c ∧ q.part = p ∧ q.ctx.regs = (s.coreAt c).regs ∧ q.ctx.seq = (s.coreAt c).seq ∧
            q.ctx.lift = (s.coreAt c).lift ∧ q.ctx.queues = (s.coreAt c).queues ∧ q.ready = s.cyc + 2560 ∧ q.leaving = false ∧
            q.poison = []) ∧
        (∀ q ∈ s.satchels, q ∈ t.satchels) ∧ (∀ c, ¬ runs c → t.coreAt c = s.coreAt c) ∧ t.sched = s.sched ∧ t.ms = s.ms)

/-- R11, R142, R147: a resumption of a partition while the module is hot, or while its contexts are not saved, does nothing. Otherwise
the partition is back and its satchels begin to leave retention, which takes 2,560 cycles. Then a node that has a placement
resumes on the best one, a timetable node in a cycle that is a multiple of 64: a seat's registers and sequencer are those of its
context, it runs where it was halted, its scratch is what was kept, and its satchel is free. -/
def Claim.Resumes : Prop :=
  ∀ (s : State), let p := s.inp.part
    let runs := ∃ c i, s.instOf c = some i ∧ i.vf = p
    (s.fw.hot = true ∨ ((s.partAt p).swapped = true ∧ runs) → exec .swapResume s = .next s) ∧
    (s.fw.hot = false → ¬ runs → (∀ q ∈ s.satchels, q.part = p → q.leaving = false ∧ q.ready.toNat < 2 ^ 63) → s.cyc.toNat < 2 ^ 63 →
      ∃ t : State, exec .swapResume s = .next t ∧ t.partAt p = { s.partAt p with swapped := false } ∧
        t.satchels = s.satchels.map (fun q => if q.part = p then
          { q with leaving := true, ready := .ofNat 64 (max q.ready.toNat s.cyc.toNat + 2560) } else q) ∧
        t.cores = s.cores ∧ t.sched = s.sched ∧ t.ms = s.ms) ∧
    (∀ (q : Satchel) (i : Inst) (n : NodeDesc), s.fw.hot = false → (s.partAt p).swapped = false → s.satchels = [q] → q.part = p →
      q.leaving = true → q.poison = [] → q.ctx.node.inst = some i.id →
      (s.sched.insts.filter fun j => j.vf == p && j.state == .running) = [i] → s.descOf i = some n → i.vf = p →
      let places := s.placements { i with die := .e } n .e [] ++ s.placements i n .w []
      let due := q.ready.toNat ≤ s.cyc.toNat ∧ (i.tt = true → s.cyc.toNat % 64 = 0) ∧ places ≠ []
      (¬ due → exec .swapResume s = .next s) ∧
      (due → ∃ (t : State) (c : Nat), exec .swapResume s = .next t ∧ s.choose i n places = some c ∧ t.satchels = [] ∧
        (let lead := toCore (c + q.ctx.node.seat)
         let k := replicaCore q.ctx.node.replica lead
         let x := t.coreAt k
         x.regs = q.ctx.regs ∧ x.lift = q.ctx.lift ∧ x.queues = q.ctx.queues ∧ x.scratch = q.ctx.scratch ∧ x.acc = q.ctx.acc ∧
         x.node.inst = some i.id ∧ x.seq.pc = q.ctx.seq.pc ∧ x.csr.coreno.toNat = lead.val ∧
         (q.ctx.seq.mode = .halted → q.ctx.redun.retired = false → x.seq.mode = .running) ∧
         (q.ctx.seq.mode ≠ .halted → x.seq.mode = q.ctx.seq.mode) ∧
         ∀ d, d ≠ k → t.coreAt d = s.coreAt d) ∧
        (t.instAt i.id).map (·.first) = some c ∧ (t.instAt i.id).map (·.started) = some s.cyc ∧ t.ms = s.ms))

/-- R149: a node that has run for WDOG · 64 us with a seat that has executed none of b.done, b.park and b.yield is marked, and its
partition swapped out; any other is not. Once its context is saved it fails, and the partition comes back. -/
def Claim.Watchdogs : Prop :=
  ∀ (s : State),
    (∀ i, s.instAt s.inp.n = some i → let p := i.vf
      let expires := i.state = .running ∧ (s.partAt p).wdog ≠ 0 ∧ (s.partAt p).swapped = false ∧
        96000 * (s.partAt p).wdog.toNat ≤ (s.cyc - i.started).toNat ∧
        ∃ c ∈ s.instCores i.id, (s.coreAt c).node.stood = false ∧ (s.coreAt c).redun.retired = false
      (¬ expires → exec .watchdogExpiry s = .next s) ∧
      (expires → ∃ t : State, exec .watchdogExpiry s = .next t ∧ (t.partAt p).swapped = true ∧
        (t.instAt i.id).map (·.expired) = some true ∧
        (∀ c j, s.instOf c = some j → j.vf = p → (s.coreAt c).seq.mode = .running → (t.coreAt c).seq.mode = .halted) ∧
        t.ms.mem = s.ms.mem)) ∧
    (let p := s.inp.part
     ∀ i, (s.sched.insts.filter fun j => j.expired && j.vf == p && j.state == .running) = [i] → (s.partAt p).swapped = true →
      (∀ c j, s.instOf c = some j → j.vf = p → s.quiet c = true) → (s.partAt p).fatal = false →
      ∃ t : State, exec .swapQuiesceEnd s = .next t ∧ (t.instAt i.id).map (·.state) = some .failed ∧ (t.partAt p).swapped = false ∧
        (∀ c j, s.instOf c = some j → j.vf = p → (t.coreAt c).node.inst = none) ∧ t.ms.mem = s.ms.mem)

/-- R150, R151: the dump of the oldest failed node whose cores or satchels are held, or else of one that failed on no core and
whose record is not told, is written within the dump area and no further, with its number, its cores' and causes' counts, the node
and the cycle in its header; while a dump is not acknowledged none is written. The partition's cause records are then told, and the cores
and satchels of its failed nodes are free. A dump area outside memory is a fault; with no such node nothing happens. -/
def Claim.Dumps : Prop :=
  ∀ (s : State), let p := s.inp.part
    let x := s.partAt p
    let base := x.dumpbase.toNat
    let cores := fun (i : Inst) => (s.instCores i.id).length +
      (s.satchels.filter fun t => t.ctx.node.inst == some i.id).length
    let bad := s.sched.insts.filter fun i => i.vf == p && i.state == .failed && cores i != 0
    let told := fun (i : Inst) => i.vf == p && i.state == .failed &&
      s.sched.causes.any fun r => r.code == 0x1F && r.part == p && r.node == i.node && r.record == i.record
    let mapped := base < 0x8000000000 ∨ paInHeath base = true
    let pick := fun (i : Inst) => bad.head? = some i ∨ (bad = [] ∧ s.sched.insts.find? told = some i)
    let records := (s.sched.causes.filter fun r => r.part == p).length
    ((∀ i, ¬ pick i) → exec .dumpWritten s = .next s) ∧
    (∀ i, pick i → ¬ mapped → exec .dumpWritten s = .fault (.hole base)) ∧
    (∀ i, pick i → mapped → ∃ t : State, exec .dumpWritten s = .next t ∧ (t.partAt p).dumpPend = true ∧
      (∀ r ∈ t.sched.causes, r.part ≠ p) ∧ (∀ r ∈ s.sched.causes, r.part ≠ p → r ∈ t.sched.causes) ∧
      (∀ j ∈ bad, ∀ c ∈ s.instCores j.id, (t.coreAt c).node.inst = none ∧ (t.coreAt c).seq.mode = .idle) ∧
      (∀ j ∈ bad, ∀ q ∈ t.satchels, q.ctx.node.inst ≠ some j.id) ∧
      (∀ c, (∀ j ∈ bad, c ∉ s.instCores j.id) → t.coreAt c = s.coreAt c) ∧
      (x.dumpPend = true → t.ms = s.ms ∧ (t.partAt p).dumpno = x.dumpno) ∧
      (x.dumpPend = false → (t.partAt p).dumpno = x.dumpno + 1 ∧
        (64 ≤ x.dumpsz.toNat → t.ms.mem.num base 8 = (x.dumpno + 1) % 2 ^ 64 ∧
          t.ms.mem.num (base + 12) 4 = records % 2 ^ 32 ∧
          t.ms.mem.num (base + 48) 8 = i.node % 65536 * 2 ^ 48 + i.record % 2 ^ 48 ∧
          t.ms.mem.num (base + 56) 8 = s.cyc.toNat ∧
          (64 + cores i * 0x100000 + 65552 + 32 * records ≤ x.dumpsz.toNat → t.ms.mem.num (base + 8) 4 = cores i % 2 ^ 32 ∧
            t.ms.mem.num (base + 16) 8 = 64)) ∧
        (∀ a, a < base ∨ base + x.dumpsz.toNat ≤ a → t.ms.mem.read a = s.ms.mem.read a)))

/-! ### What reaches a core between its groups (07_faults, 09_redundancy, 10_core R195, R206 to R208, 16_sync) -/

/-- The node of core c, instance i, fails by a fault of its own: it is failed, and its cores are halted until the dump (R131, R150). -/
abbrev nodeFails (s t : State) (i : Inst) : Prop :=
  (t.instAt i.id).map (·.state) = some .failed ∧ ∀ d, (s.coreAt d).node.inst = some i.id → (t.coreAt d).seq.mode = .halted

/-- Core c runs instance i of a partition that dumps failed nodes and holds no dump. -/
abbrev dumps (s : State) (c : CoreId) (i : Inst) : Prop :=
  s.instOf c = some i ∧ (s.partAt i.vf).fatal = false ∧ (s.partAt i.vf).dumpPend = false

/-- R131, R134, R136: a trap that waits at a running core is taken before its next group: outside handler mode the trap registers are
written with the group's address, HM is set and the handler's group at TVEC is next, six cycles later; with TVEC invalid the
node fails. With none waiting, or in handler mode, nothing is taken. -/
def Claim.PendingTraps : Prop :=
  ∀ (s : State), let c := s.inp.core
    let x := s.coreAt c
    let recorded := fun (y : Core) (f : Trap) => y.csr.trappc.toNat = (if x.seq.pc.half = true then 2 ^ 14 else 0) +
        x.seq.pc.bundle % 4096 * 4 + x.seq.pc.slot % 4 ∧ y.csr.trapinfo = f.info ∧
      y.csr.trapcause.toNat = (if f.async = true then 2 ^ 63 else 0) + f.engine % 8 * 2 ^ 60 + f.reason % 256 * 256 + f.code % 256 ∧
      y.regs = x.regs
    (x.live = false → ∃ t : State, exec .trapEntry s = .next t ∧ t.cores = s.cores ∧ t.ms = s.ms) ∧
    (x.redun.traps = [] → x.seq.pend = [] ∨ x.csr.hm = true → ∃ t : State, exec .trapEntry s = .next t ∧ t.cores = s.cores ∧
      t.ms = s.ms) ∧
    (∀ f r, x.live = true → x.csr.nrep.toNat ≤ 1 → x.redun.traps = [] → x.seq.pend = f :: r → x.csr.hm = false → f.cls ≠ .f →
      x.fills = [] →
      (x.csr.tvec.getLsbD 63 = true → ∃ t : State, exec .trapEntry s = .next t ∧ (let y := t.coreAt c
        recorded y f ∧ y.csr.hm = true ∧ y.seq.pend = r ∧ y.seq.mode = .running ∧ y.seq.loops = [] ∧ y.seq.savedLoops = x.seq.loops ∧
        y.seq.pc = ⟨x.csr.tvec.getLsbD 14, x.csr.tvec.toNat / 4 % 4096, 0⟩ ∧ y.seq.next = s.cyc + 6 ∧ y.locks = [] ∧
        y.scratch = x.scratch) ∧ (∀ d, d ≠ c → t.coreAt d = s.coreAt d) ∧ t.ms = s.ms) ∧
      (∀ i, x.csr.tvec.getLsbD 63 = false → dumps s c i → ∃ t : State, exec .trapEntry s = .next t ∧ recorded (t.coreAt c) f ∧
        (t.coreAt c).csr.hm = false ∧ nodeFails s t i ∧ t.ms.mem = s.ms.mem))

/-- R132, R133, R207, R208: a timed group whose stamp is past, in the frame that the stamps before it give, or past the frame's
length, is STAMP_OVERRUN (code 0x13) with the stamp in TRAPINFO[63:32] and whether the group's roll call had completed in SYNCDONE;
it is of class F, so the node fails. Before that nothing happens. -/
def Claim.StampOverruns : Prop :=
  ∀ (s : State) (g : Group) (st : BitVec 12) (i : Inst), let c := s.inp.core
    let x := s.coreAt c
    let u : State := State.withSync { s with cur := c }
    let due := match x.seq.prev with
      | none => st.toNat
      | some (f, p) => (if p.toNat < st.toNat then f.toNat else (f + 1).toNat) * 4096 + st.toNat
    let late := x.csr.flen.toNat < st.toNat ∨ due < x.csr.fnum.toNat * 4096 + x.csr.cnt.toNat
    x.csr.tt = true → x.seq.mode = .running → x.seq.freeze = 0 → x.csr.nrep.toNat ≤ 1 → u.nextGroup = .ok g →
    g.stamp = some st →
    (¬ late → ∃ t : State, exec .stampOverrun s = .next t ∧ t.cores = s.cores ∧ t.sched = s.sched ∧ t.ms = s.ms) ∧
    (late → x.csr.hm = false → x.fills = [] → dumps s c i →
      ∃ t : State, exec .stampOverrun s = .next t ∧ (let y := t.coreAt c
        y.csr.trapcause.toNat % 256 = 0x13 ∧ y.csr.trapcause.getLsbD 59 = (x.seq.rolled || x.seq.skipSync) ∧
        y.csr.trapinfo.toNat / 2 ^ 32 = st.toNat ∧ y.csr.trappc = x.seq.pc.word ∧ y.csr.hm = false ∧ y.regs = x.regs) ∧
        nodeFails s t i ∧ (∃ k ∈ t.sched.causes, k.code = 0x13 ∧ k.origin = c.val ∧ k.cyc = s.cyc ∧ k.node = i.node) ∧
        t.ms.mem = s.ms.mem)

/-- An instruction is a c.sbar. -/
def isSbar : Instr → Bool
  | .cSbar .. => true
  | _ => false

/-- No c.sbar stands in a copy context of core c. -/
abbrev noSbar (s : State) (c : CoreId) : Prop :=
  ∀ x : Ctx, (∀ m ∈ ((s.coreAt c).copy.get x).queue, isSbar m.op = false) ∧
    ∀ r ∈ ((s.coreAt c).copy.get x).run.toList, isSbar r.cmd.op = false

/-- R205, R163, R166, R414, R136, R204: the head command of an idle copy context starts, at its first request, once the
accesses it is to follow are performed, no c.sbar standing; the queue is one shorter, and nothing starts while one of these accesses
is open or a command runs. So does the head m.zacc or m.uld of the matrix engine. A copy command that has stopped is
reported once, to be taken as an asynchronous trap, with the bytes done in CPROG. A vector operation starts in its group's
cycle and its faults are its group's: for those two engines both events change nothing. -/
def Claim.EngineCommands : Prop :=
  ∀ (s : State), let c := s.inp.core
    (∀ e ∈ [(Engine.copy0, (0 : Ctx)), (.copy1, 1)], s.inp.eng = e.1 →
      (∀ r, ((s.coreAt c).copy.get e.2).run = some r → exec .engineCommandStart s = .next s) ∧
      (((s.coreAt c).copy.get e.2).queue = [] → exec .engineCommandStart s = .next s) ∧
      (∀ m l, ((s.coreAt c).copy.get e.2).queue = m :: l → (∃ n ∈ m.after, n ∈ (s.coreAt c).openIds) →
        exec .engineCommandStart s = .next s) ∧
      (∀ m l, ((s.coreAt c).copy.get e.2).run = none → ((s.coreAt c).copy.get e.2).queue = m :: l → s.engineLive c = true →
        (∀ n ∈ m.after, n ∉ (s.coreAt c).openIds) → noSbar s c → m.led = false →
        ∃ (t : State) (r : CopyRun), exec .engineCommandStart s = .next t ∧
          ((t.coreAt c).copy.get e.2).run = some r ∧ r.cmd = m ∧ r.row = 0 ∧ r.pos = 0 ∧ r.bytes = 0 ∧ r.stop = none ∧
          r.out = [] ∧ ((t.coreAt c).copy.get e.2).queue = l ∧
          (∀ y, y ≠ e.2 → (t.coreAt c).copy.get y = (s.coreAt c).copy.get y) ∧
          (t.coreAt c).regs = (s.coreAt c).regs ∧ (t.coreAt c).csr = (s.coreAt c).csr ∧
          (t.coreAt c).scratch = (s.coreAt c).scratch ∧ (∀ d, d ≠ c → t.coreAt d = s.coreAt d) ∧ t.ms = s.ms) ∧
      (∀ (r : CopyRun) (f : Trap), ((s.coreAt c).copy.get e.2).run = some r → r.stop = some f →
        (((s.coreAt c).csr.cprog.get e.2).getLsbD 63 = true → exec .engineFaultReport s = .next s) ∧
        (((s.coreAt c).csr.cprog.get e.2).getLsbD 63 = false → ∃ t : State, exec .engineFaultReport s = .next t ∧
          ((t.coreAt c).csr.cprog.get e.2).toNat = 2 ^ 63 + r.bytes % 2 ^ 40 ∧
          (∃ u ∈ (t.coreAt c).seq.pend, u.async = true ∧ u.engine = 4 + e.2.val ∧ u.code = f.code ∧ u.info = f.info) ∧
          (t.coreAt c).seq.pend.length = (s.coreAt c).seq.pend.length + 1 ∧
          (t.coreAt c).regs = (s.coreAt c).regs ∧ (∀ d, d ≠ c → t.coreAt d = s.coreAt d) ∧ t.ms = s.ms))) ∧
    (s.inp.eng = .matrix → (∀ r, (s.coreAt c).matrix.run = some r → exec .engineCommandStart s = .next s) ∧
      ∀ (m : MCmd) (q : List MCmd), (s.coreAt c).matrix.run = none →
      (s.coreAt c).matrix.queue = m :: q → m.op.isCall = false → s.engineLive c = true → s.throttledAt c = false →
      (∀ n ∈ m.after, n ∉ (s.coreAt c).openIds) →
      ∃ (t : State) (r : MRun), exec .engineCommandStart s = .next t ∧ (t.coreAt c).matrix.run = some r ∧ r.cmd = m ∧
        (t.coreAt c).matrix.queue = q ∧ (t.coreAt c).acc = (s.coreAt c).acc ∧ (t.coreAt c).regs = (s.coreAt c).regs ∧
        (t.coreAt c).scratch = (s.coreAt c).scratch ∧ (∀ d, d ≠ c → t.coreAt d = s.coreAt d) ∧ t.ms = s.ms) ∧
    (s.inp.eng = .vec0 ∨ s.inp.eng = .vec1 →
      exec .engineCommandStart s = .next s ∧ exec .engineFaultReport s = .next s)

/-- R139, R140, R195, R316, R318, R359: a producer's value, once it is due, fills its register and raises its flags; a q.fin that is the
oldest takes the oldest word of the inbox; the oldest promise of a context that is due is written into its register. Before its cycle,
with the inbox empty, or while the core is frozen, nothing is written. -/
def Claim.ProducersFill : Prop :=
  ∀ (s : State) (f : PendFill) (r : List PendFill), let c := s.inp.core
    let x := s.coreAt c
    let idle := fun (a : Instr) => ∃ t : State, exec a s = .next t ∧ t.cores = s.cores ∧ t.ms = s.ms
    let only := fun (t : State) => (t.coreAt c).fills = r ∧ (t.coreAt c).scratch = x.scratch ∧
      (∀ d, d ≠ c → t.coreAt d = s.coreAt d) ∧ t.ms = s.ms
    x.fills = f :: r →
    (f.file = s.inp.file → f.reg = s.inp.reg →
      (x.seq.freeze ≠ 0 → idle .producerFill) ∧
      (∀ v fl, f.src = .value v fl →
        (s.cyc.toNat < f.due.toNat → idle .producerFill) ∧
        (f.due.toNat ≤ s.cyc.toNat → x.seq.freeze = 0 → ∃ t : State, exec .producerFill s = .next t ∧
          (t.coreAt c).regs = x.regs.fill f.file f.reg v ∧ (t.coreAt c).csr = { x.csr with fpflags := x.csr.fpflags ||| fl } ∧
          (t.coreAt c).mail = x.mail ∧ only t)) ∧
      (f.src = .fin none → (x.mail.inbox = [] → idle .producerFill) ∧
        ∀ w sc m, x.mail.inbox = (w, sc) :: m → x.seq.freeze = 0 → ∃ t : State, exec .producerFill s = .next t ∧
          (t.coreAt c).regs = x.regs.fill f.file f.reg (ofS w) ∧ (t.coreAt c).csr = x.csr ∧
          (t.coreAt c).mail = { x.mail with inbox := m } ∧ only t)) ∧
    (x.seq.freeze ≠ 0 → idle .promiseWrite) ∧
    (∀ v fl, f.src = .value v fl → f.file = .s → v.toNat / 2 ^ 62 % 4 = s.inp.ctx.val → f.due.toNat ≤ s.cyc.toNat →
      x.seq.freeze = 0 → ∃ t : State, exec .promiseWrite s = .next t ∧ (t.coreAt c).regs = x.regs.fill .s f.reg v ∧
        (t.coreAt c).csr = x.csr ∧ only t)

/-- R158, R195, R160: a load whose packets are all answered writes its register once, a scalar one sign-extended where it says so, a
vector one as its format and mask say, and leaves the core's open loads; one that still waits for a packet does not. A store whose
packets are all answered leaves the store buffer, and one that waits stays; a held store goes out, in packets, once the accesses
that it is to follow are performed and its cycle has come. -/
def Claim.AccessesEnd : Prop :=
  ∀ (s : State), let c := s.inp.core
    let x := s.coreAt c
    let kept := fun (t : State) => (t.coreAt c).scratch = x.scratch ∧ (∀ g, g ≠ c → t.coreAt g = s.coreAt g) ∧ t.ms.mem = s.ms.mem
    (∀ (q : LoadReq) (f : RFile) (d : BitVec 6), x.loads = [q] → q.id = s.inp.n → q.left = [] →
      q.fixed = true → q.dst = some (f, d) → q.fwd = none → x.stores = [] → x.seq.freeze = 0 →
      let v := leNat (q.bytes.map fun b => b.2.getD 0)
      let old := match f with | .s => 0 | .v => x.regs.getV d
      ∃ t : State, exec .loadDataReturn s = .next t ∧ (t.coreAt c).loads = [] ∧ kept t ∧
        (t.coreAt c).regs = x.regs.fill f d (loadValue q.kind old v).1 ∧
        (t.coreAt c).csr = { x.csr with fpflags := x.csr.fpflags ||| (loadValue q.kind old v).2 } ∧
        (∀ n sx, q.kind = .scalar n sx → q.bytes.length = n → 0 < n → n ≤ 8 → f = .s → (t.coreAt c).regs =
          x.regs.fill .s d (ofS (if sx then (BitVec.ofNat (8 * n) v).signExtend 64 else .ofNat 64 v)) ∧ (t.coreAt c).csr = x.csr)) ∧
    (∀ (q : LoadReq), x.loads.find? (fun r => r.id == s.inp.n) = some q → (q.left ≠ [] ∨ x.seq.freeze ≠ 0) →
      ∃ t : State, exec .loadDataReturn s = .next t ∧ t.cores = s.cores ∧ t.ms = s.ms) ∧
    (∀ (q : StoreReq), x.stores = [q] → q.id = s.inp.n →
      (q.sent = true → q.left = [] → ∃ t : State, exec .writeAcknowledgement s = .next t ∧ (t.coreAt c).stores = [] ∧
        (t.coreAt c).regs = x.regs ∧ (t.coreAt c).csr = x.csr ∧ (t.coreAt c).loads = x.loads ∧ kept t) ∧
      (q.sent = true → q.left ≠ [] → ∃ t : State, exec .writeAcknowledgement s = .next t ∧ t.cores = s.cores ∧ t.ms = s.ms) ∧
      (q.sent = false → (s.cyc.toNat < q.from_.toNat ∨ ∃ n ∈ q.after, n ∈ x.openIds) →
        ∃ t : State, exec .writeAcknowledgement s = .next t ∧ t.cores = s.cores ∧ t.ms = s.ms) ∧
      (q.sent = false → q.from_.toNat ≤ s.cyc.toNat → (∀ n ∈ q.after, n ∉ x.openIds) →
        ∃ (t : State) (l : List Nat), exec .writeAcknowledgement s = .next t ∧
          (t.coreAt c).stores = [{ q with sent := true, left := l }] ∧ l.length = (beatsW q.bytes).length ∧
          (t.coreAt c).regs = x.regs ∧ (t.coreAt c).csr = x.csr ∧ kept t))

/-- R178, R182, R184 to R187: a forwarded value fills its register in a follower. A verdict comes 24 cycles after the last of the
running replicas has come to its compare point, and until then, or without replicas, nothing happens. Replicas that sent the same
go on with a fresh signature and the next compare number. Of two that differ, or where the two verdicts differ, REPLICA_MISMATCH with
the compare's kind, the followers that differ, or all, and its number fails the node. Of three the odd one out is retired: it
halts, and the others go on as a twin. -/
def Claim.ReplicaEvents : Prop :=
  ∀ (s : State), let c := s.inp.core
    let x := s.coreAt c
    let l := State.running { s with cur := c }
    let idle := ∃ t : State, exec .compareVerdict s = .next t ∧ t.cores = s.cores ∧ t.sched = s.sched ∧ t.ms = s.ms
    let arrived := fun (g : CoreId) (kind : Nat) => (s.coreAt g).redun.arrived = some (kind, none) ∧
      (s.coreAt g).redun.since.toNat + 24 ≤ s.cyc.toNat
    let goesOn := fun (t : State) (g : CoreId) => (t.coreAt g).redun.arrived = none ∧ (t.coreAt g).redun.sig = BitVec.allOnes 64 ∧
      (t.coreAt g).redun.agreed = true ∧ (t.coreAt g).redun.cmpn = (s.coreAt g).redun.cmpn + 1 ∧ (t.coreAt g).regs = (s.coreAt g).regs
    (∀ (f : PendFill) (n : Nat) (v : VReg) (fl : Flags) (r : List PendFill) (m : List (Nat × VReg × Flags)),
      x.fills = f :: r → f ∉ r → f.src = .forwarded n → x.redun.inflight = (n, v, fl) :: m → (∀ e ∈ m, e.1 ≠ n) →
      (x.seq.freeze ≠ 0 → ∃ t : State, exec .forwardedValueArrive s = .next t ∧ t.cores = s.cores ∧ t.ms = s.ms) ∧
      (x.seq.freeze = 0 → ∃ t : State, exec .forwardedValueArrive s = .next t ∧ (t.coreAt c).regs = x.regs.fill f.file f.reg v ∧
        (t.coreAt c).fills = r ∧ (t.coreAt c).redun.inflight = m ∧
        (t.coreAt c).csr = { x.csr with fpflags := x.csr.fpflags ||| fl } ∧ (t.coreAt c).scratch = x.scratch ∧
        (∀ g, g ≠ c → t.coreAt g = s.coreAt g) ∧ t.ms = s.ms)) ∧
    (x.csr.nrep.toNat ≤ 1 ∨ (∃ g ∈ l, (s.coreAt g).redun.arrived = none ∨ s.cyc.toNat < (s.coreAt g).redun.since.toNat + 24) → idle) ∧
    (∀ kind, 1 < x.csr.nrep.toNat → s.inp.split = false → (∀ g ∈ l, arrived g kind ∧ (s.coreAt g).redun.sbuf = [] ∧
       (s.coreAt g).redun.sig = x.redun.sig) → ∃ t : State, exec .compareVerdict s = .next t ∧
       (∀ g ∈ l, goesOn t g) ∧ (∀ g, g ∉ l → t.coreAt g = s.coreAt g) ∧ t.ms = s.ms) ∧
    (∀ kind g i, 1 < x.csr.nrep.toNat → l = [c, g] → arrived c kind → arrived g kind →
      (s.inp.split = true ∨ (s.coreAt g).redun.sig ≠ x.redun.sig) → x.csr.self = x.csr.lead → dumps s c i →
      ∃ t : State, exec .compareVerdict s = .next t ∧ nodeFails s t i ∧
        (∀ k ∈ l, (t.coreAt k).csr.trapcause.toNat = 0x1B ∧ (t.coreAt k).csr.trapinfo.toNat = kind % 16 * 2 ^ 60 +
          (if s.inp.split = true then 7 else 2 ^ (s.coreAt g).csr.self.toNat % 8) * 2 ^ 53 + (x.redun.cmpn + 1) % 2 ^ 48 ∧
          (t.coreAt k).redun.sbuf = [] ∧ (t.coreAt k).regs = (s.coreAt k).regs) ∧ t.ms.mem = s.ms.mem) ∧
    (∀ kind a b d, 1 < x.csr.nrep.toNat → s.inp.split = false → l = [a, b, d] →
      (∀ g ∈ l, arrived g kind ∧ (s.coreAt g).redun.sbuf = []) →
      (s.coreAt a).node.replica ≠ (s.coreAt d).node.replica → (s.coreAt b).node.replica ≠ (s.coreAt d).node.replica →
      (s.coreAt a).redun.sig = (s.coreAt b).redun.sig → (s.coreAt d).redun.sig ≠ (s.coreAt a).redun.sig →
      (s.coreAt a).redun.retired = false →
      ∃ t : State, exec .compareVerdict s = .next t ∧ (t.coreAt d).redun.retired = true ∧ (t.coreAt d).seq.mode = .halted ∧
        (∀ g, g = a ∨ g = b → goesOn t g ∧ (t.coreAt g).csr.nrep = 2 ∧ (t.coreAt g).seq.mode = (s.coreAt g).seq.mode) ∧
        (∀ g, (s.coreAt g).node.inst ≠ x.node.inst → t.coreAt g = s.coreAt g) ∧ t.ms = s.ms)

/-- R206, R317, R350: a core that stands still for its debt is clear of it when its command queues have emptied, and no other core is; a
sleeping core's group is tried again, next; a ts value reaches a core of its partition 8 cycles after q.tlsig on one die and 40
across dies, and no core of another partition. -/
def Claim.WaitsEnd : Prop :=
  ∀ (s : State), let c := s.inp.core
    let x := s.coreAt c
    let stands := x.csr.tt = false ∧ x.csr.limit ≠ 0xFFFF#16 ∧ x.csr.limit.toNat < x.csr.debt.toNat ∧ x.matrix.queue = [] ∧
      (x.copy.get 0).queue = [] ∧ (x.copy.get 1).queue = []
    (stands → ∃ t : State, exec .slackStallRelease s = .next t ∧ t.coreAt c = { x with csr := { x.csr with debt := 0 } } ∧
      (∀ d, d ≠ c → t.coreAt d = s.coreAt d) ∧ t.ms = s.ms) ∧
    (¬ stands → ∃ t : State, exec .slackStallRelease s = .next t ∧ (∀ d, t.coreAt d = s.coreAt d) ∧ t.ms = s.ms) ∧
    exec .sleepWake s = .next { s with order := .seq c :: s.order } ∧
    (let d := s.inp.dst
     let y := s.coreAt d
     let wait := if dieOf c = dieOf d then 8 else 40
     ∀ at_ v, x.tsLog = [(at_, v)] →
      (s.cyc.toNat < at_.toNat + wait ∨ x.node.inst = none ∨ x.csr.part ≠ y.csr.part → exec .tsUpdateArrive s = .next s) ∧
      (at_.toNat + wait ≤ s.cyc.toNat → x.node.inst.isSome = true → x.csr.part = y.csr.part →
        ∃ t : State, exec .tsUpdateArrive s = .next t ∧
          (t.coreAt d) = { y with tsSeen := (c, v) :: y.tsSeen.filter (·.1 != c) } ∧
          (∀ e, e ≠ d → t.coreAt e = s.coreAt e) ∧ t.ms = s.ms))

/-! ### What copy commands do by events (15_copy R323, R329 to R339; 04_spaces R65, R79 to R85; 02_fabric R35) -/

/-- R65: the next byte past those that the next request of a row at address sa reads of a stream, in the extent's offsets. -/
abbrev streamNeed (pl : Plan) (sa da : W) (pos : Nat) : Nat :=
  sa.toNat % 2 ^ 57 + ((pl.srcRange (pos + pl.request sa da pos - 1)).map (·.2 + 1)).getD 0

/-- R65, R331, R35: a stream read that has waited 100 µs, and a c.relay that has received nothing for 100 µs, end with
error 0x0A, and not before; a stream read goes on with its request once WDONE of the extent covers it, and waits until then; a
relay's open is sent again 1 µs after it was turned away. -/
def Claim.CopyTimeouts : Prop :=
  ∀ (s : State) (r : CopyRun), let c := s.inp.core
    let x := s.inp.ctx
    let p : PartId := (s.coreAt c).csr.part.toFin
    let at_ := fun (t : State) (q : CopyRun) => ((t.coreAt c).copy.get x).run = some q ∧
      (t.coreAt c).regs = (s.coreAt c).regs ∧ t.ms = s.ms ∧ ∀ d, d ≠ c → t.coreAt d = s.coreAt d
    let failed : CopyRun := { r with phase := .finish, err := some 0x0A }
    ((s.coreAt c).copy.get x).run = some r → r.err = none →
    (s.engineFree c x = some r → r.phase = .streamWait →
      (r.since.toNat + 150000 ≤ s.cyc.toNat → ∃ t : State, exec .streamReadTimeout s = .next t ∧ at_ t failed) ∧
      (s.cyc.toNat < r.since.toNat + 150000 → exec .streamReadTimeout s = .next s) ∧
      (∀ f src dst pl fl i, r.cmd.op = .cCopy f → s.rowSides c p r.cmd .copy r.row = some (src, dst) →
        rowPlan r.cmd .copy src dst = .ok (pl, fl) → src.role = 2 → src.idx = some i →
        let need := streamNeed pl (s.rowOf c p r.cmd .copy r.row).1 (s.rowOf c p r.cmd .copy r.row).2 r.pos
        (need ≤ (s.streamOf p i).wdone → ∃ t : State, exec .streamReadDeliver s = .next t ∧ at_ t { r with phase := .reqs }) ∧
        ((s.streamOf p i).wdone < need → exec .streamReadDeliver s = .next s))) ∧
    (r.phase = .relayRecv →
      (r.since.toNat + 150000 ≤ s.cyc.toNat → ∃ t : State, exec .relayStallTimeout s = .next t ∧ at_ t failed) ∧
      (s.cyc.toNat < r.since.toNat + 150000 → exec .relayStallTimeout s = .next s)) ∧
    (r.phase = .relayOpen true →
      (s.cyc.toNat < r.since.toNat + 1500 → exec .relayOpenRetry s = .next s) ∧
      (r.since.toNat + 1500 ≤ s.cyc.toNat → ∃ (t : State) (q : CopyRun) (k : FabPacket),
        let d := railDie ((r.cmd.q 2).toNat / 2 ^ 50 % 2 ^ 13)
        exec .relayOpenRetry s = .next t ∧ ((t.coreAt c).copy.get x).run = some q ∧ q.phase = .relayOpen false ∧
        q.cmd = r.cmd ∧ q.out = r.out ++ [s.nextId] ∧ (t.fabAt d).outq = (s.fabAt d).outq ++ [k] ∧ k.op = 1 ∧
        k.va = r.cmd.q 1 ∧ k.op0 = .ofNat 64 (2 ^ 63) ∧ (t.coreAt c).regs = (s.coreAt c).regs ∧ t.ms.mem = s.ms.mem))

/-- A row of len bytes at an address of the core's own scratch (R60) that stays in one granule of 4 KiB. -/
abbrev ownRow (va : W) (len : Nat) : Prop :=
  va.toNat / 2 ^ 61 = 5 ∧ va.toNat / 2 ^ 22 % 2 ^ 39 = 0 ∧ scratchOff va < 0x300000 ∧ scratchOff va % 4096 + len ≤ 4096

/-- R323, R327: the next request of a running command. A request of c.copy between rows of the core's own scratch, of at most
256 bytes, copies them: the bytes at s4n+1 + i·DSTR read as those at s4n + i·SSTR did, no other byte of scratch changes,
the bytes done grow by the row's length, and the command is at its next row, or at its end after its last. A command whose
error stands comes to its end; c.kvapp and c.kvinv join the pool manager's line (R90); one that is stopped, or frozen, waits. -/
def Claim.CopyRequests : Prop :=
  ∀ (s : State), let c := s.inp.core
    let x := s.inp.ctx
    let kept := fun (t : State) => (t.coreAt c).regs = (s.coreAt c).regs ∧ (t.coreAt c).csr = (s.coreAt c).csr ∧
      (∀ y, y ≠ x → (t.coreAt c).copy.get y = (s.coreAt c).copy.get y) ∧ ∀ d, d ≠ c → t.coreAt d = s.coreAt d
    (∀ r, ((s.coreAt c).copy.get x).run = some r → (r.stop.isSome = true ∨ (s.coreAt c).seq.freeze ≠ 0) →
      exec .copyRequestIssue s = .next s) ∧
    (∀ r, s.engineFree c x = some r → r.phase = .reqs → r.err.isSome = true → ∃ t : State,
      exec .copyRequestIssue s = .next t ∧ ((t.coreAt c).copy.get x).run = some { r with phase := .finish, bank := none } ∧
      (t.coreAt c).scratch = (s.coreAt c).scratch ∧ t.ms = s.ms ∧ kept t) ∧
    (∀ r f, s.engineFree c x = some r → r.phase = .reqs → r.err = none → r.cmd.led = false →
      (r.cmd.op = .cKvapp f ∨ r.cmd.op = .cKvinv f) → ∃ t : State, exec .copyRequestIssue s = .next t ∧
        t.ms.manager = s.ms.manager ++ [(c, x)] ∧
        ((t.coreAt c).copy.get x).run = some { r with phase := .manager, bank := none } ∧
        (t.coreAt c).scratch = (s.coreAt c).scratch ∧ t.ms.mem = s.ms.mem ∧ kept t) ∧
    (∀ r f, s.engineFree c x = some r → r.phase = .reqs → r.err = none → r.cmd.led = false → r.cmd.op = .cCopy f →
      r.cmd.cvt = 0 → r.cmd.rv = false → r.out = [] → r.rd = noRead → r.pos = 0 → r.row < r.cmd.rows →
      (s.coreAt c).bankq = [] → (s.coreAt c).locks = [] → (s.coreAt c).scratch.poison = [] →
      let n := r.cmd.len
      let i : W := .ofNat 64 r.row
      let sa := r.cmd.q 0 + i * r.cmd.sstr
      let da := r.cmd.q 1 + i * r.cmd.dstr
      let at_ := fun (va : W) => (s.coreAt c).scratchPhys (scratchOff va)
      0 < n → n ≤ 256 → ownRow sa n → ownRow da n → ∃ (t : State) (q : CopyRun),
        exec .copyRequestIssue s = .next t ∧
        (∀ j, j < n → (t.coreAt c).scratch.read (at_ da + j) = (s.coreAt c).scratch.read (at_ sa + j)) ∧
        (∀ b, b < at_ da ∨ at_ da + n ≤ b → (t.coreAt c).scratch.read b = (s.coreAt c).scratch.read b) ∧
        ((t.coreAt c).copy.get x).run = some q ∧ q.cmd = r.cmd ∧ q.bytes = r.bytes + n ∧ q.row = r.row + 1 ∧ q.pos = 0 ∧
        q.err = none ∧ q.out = [] ∧ q.phase = (if r.cmd.rows ≤ r.row + 1 then .finish else .reqs) ∧ t.ms = s.ms ∧ kept t)

/-- The pool manager's oldest request has been served: it has left the queue, its command is r', and no register, scratch or
control register of a core has changed. -/
abbrev poolServed (s t : State) (c : CoreId) (x : Ctx) (l : List (CoreId × Ctx)) (r' : CopyRun) : Prop :=
  exec .poolManagerRequest s = .next t ∧ t.ms.manager = l ∧ ((t.coreAt c).copy.get x).run = some r' ∧
  ∀ d, (t.coreAt d).regs = (s.coreAt d).regs ∧ (t.coreAt d).csr = (s.coreAt d).csr ∧ (t.coreAt d).scratch = (s.coreAt d).scratch

/-- R90, R95, R96, R99, R100, R102, R104: the pool manager serves its oldest request. A c.kvinv whose coordinate the geometry does
not have, or a REPLACE at or past ALEN, stops with KV_FAULT (code 0x0C) and that reason and changes no table; a TRUNC to no less than
ALEN changes nothing; one below ALEN of a (sequence, layer) without pages makes ALEN := n and PLEN := min(PLEN, n); each, and whatever
a c.kvinv does, then waits for the pins on the pages that left the tables. A c.kvapp of one record w1 from the core's own scratch fails
with KV_FAULT reason 5 (a bad field), 4 (past Cap), or KV_POOL_EMPTY (0x0D) with the shortfall, and changes no table; else it is
carried out, and ALEN is larger by its count. A batch whose first failing record fails so stops the same way. -/
def Claim.PoolRequests : Prop :=
  ∀ (s : State) (c : CoreId) (x : Ctx) (l : List (CoreId × Ctx)) (r : CopyRun) (f : CFields),
    s.ms.manager = (c, x) :: l → ((s.coreAt c).copy.get x).run = some r →
    let p : PartId := (s.coreAt c).csr.part.toFin
    let y := s.partAt p
    let g := y.kg
    let w := (r.cmd.q 2).toNat
    let va := r.cmd.q 1
    let kind := w / 2 ^ 62
    let n := w % 2 ^ 22
    let u : State := { s with ms := { s.ms with manager := l } }
    let stops := fun (code e : Nat) (info : W) => ∃ t : State, poolServed s t c x l { r with
      phase := .reqs, stop := some { code := code, reason := e, info := info, async := true, engine := 4 + x.val } } ∧ t.ms = u.ms
    let faults := fun (a : W) (e : Nat) => stops 0x0C e (kvInfo a e)
    (r.cmd.op = .cKvinv f →
      (∀ e, y.kvCoord va = some e → faults va e) ∧
      (2 ≤ kind → y.kvCoord va = none → (s.kvLens p (kvS va) (kvL va)).1 ≤ kvT va → faults va 0) ∧
      (kind = 0 → y.kvCoord va = none → (s.kvLens p (kvS va) (kvL va)).1 ≤ n →
        ∃ t : State, poolServed s t c x l { r with phase := .pins [] } ∧ t.ms = u.ms) ∧
      (kind = 0 → y.kvCoord va = none → n < (s.kvLens p (kvS va) (kvL va)).1 →
        (s.kvLens p (kvS va) (kvL va)).1 ≤ kvCap g →
        (∀ h, h < kvNh g → ∀ k, k < 8 → bitOf (s.ms.mem.num (y.kvRoot (kvS va) (kvL va) h k) 4) 31 = false) →
        ∃ t : State, poolServed s t c x l { r with phase := .pins [] } ∧
          t.kvLens p (kvS va) (kvL va) = (n, min (s.kvLens p (kvS va) (kvL va)).2 n)) ∧
      (∀ v pages, u.kvInv p kind va n = .ok (v, pages) →
        ∃ t : State, poolServed s t c x l { r with phase := .pins pages } ∧ t.ms = v.ms)) ∧
    (r.cmd.op = .cKvapp f → w % 2 ^ 9 = 1 → ownRow (r.cmd.q 0) 8 → (s.coreAt c).locks = [] →
      (s.coreAt c).scratch.poison = [] →
      let w1 := leNat ((List.range 8).map fun i => (s.coreAt c).scratch.read ((s.coreAt c).scratchPhys (scratchOff (r.cmd.q 0)) + i))
      let a := (s.kvLens p (recS w1) (recL w1)).1
      let up := fun (m k : Nat) => (m + k - 1) / k
      let bad := kvEn g = false ∨ kvNs g ≤ recS w1 ∨ kvNl g ≤ recL w1 ∨ w1 / 2 ^ 22 % 2 ^ 16 ≠ 0 ∨ w1 % 2 ^ 22 = 0
      let need := kvNh g * ((up (a + w1 % 2 ^ 22) (kvTpp g) - up a (kvTpp g)) +
        (up (up (a + w1 % 2 ^ 22) (kvTpp g)) (kvE g) - up (up a (kvTpp g)) (kvE g)))
      (bad → faults (kvAddr (recS w1) (recL w1) 0 0) 5) ∧
      (¬ bad → kvCap g < a + w1 % 2 ^ 22 → faults (kvAddr (recS w1) (recL w1) 0 a) 4) ∧
      (¬ bad → a + w1 % 2 ^ 22 ≤ kvCap g → y.kvAvail < need → stops 0x0D 0 (.ofNat 64 (need - y.kvAvail))) ∧
      (¬ bad → a + w1 % 2 ^ 22 ≤ kvCap g → need ≤ y.kvAvail →
        (y.kvSeq (recS w1) + 8 ≤ y.kvLayer (recS w1) (recL w1) ∨ y.kvLayer (recS w1) (recL w1) + 8 ≤ y.kvSeq (recS w1)) →
        ∃ t : State, poolServed s t c x l { r with phase := .finish } ∧
          (t.kvLens p (recS w1) (recL w1)).1 = a + w1 % 2 ^ 22 ∧
          bitOf (t.ms.mem.num (y.kvSeq (recS w1)) 8) 63 = true)) ∧
    (r.cmd.op = .cKvapp f → ∀ places : List (W × Nat × Bool),
      u.reachAll c x none ((List.range (8 * (w % 2 ^ 9))).map fun i => r.cmd.q 0 + .ofNat 64 i) .copyRead = .ok places →
      u.poisoned (places.map (·.2.1)) = [] →
      let bs := places.map fun a => u.readByte a.2.1
      let recs := (List.range (w % 2 ^ 9)).map fun i => leNat ((bs.drop (8 * i)).take 8)
      ∀ a e, kvCheck y recs (fun q j => (s.kvLens p q j).1) 0 = .error (a, e) → faults a e)

/-- A byte of memory belongs to the data of an extent: at its base, in the copy on die W, or at the peer module that holds it. -/
abbrev extentByte (r : Range) (a : Nat) : Prop :=
  if r.attr.toNat / 2 ^ 50 % 4 = 2 then inSpan (r.peerPlace 0) r.size a = true
  else inSpan r.pbase.toNat r.size a = true ∨ r.has 49 = true ∧ inSpan (r.pbase.toNat + 0x4000000000) r.size a = true

/-- An access to an extent's data is translated and not performed: a packet in a crossbar, an own store of a core, or a request
to the peer module. -/
abbrev extentInUse (s : State) (r : Range) : Prop :=
  (∃ k ∈ (s.xbarAt .e).packets ++ (s.xbarAt .w).packets, ∃ a ∈ k.body.places, extentByte r a) ∨
  (∃ d, ∃ e ∈ (s.coreAt d).ownStores, extentByte r e.1) ∨
  (r.attr.toNat / 2 ^ 50 % 4 = 2 ∧ ∃ q ∈ (s.fabAt .e).reqs ++ (s.fabAt .w).reqs, q.dst.toNat = r.peerDev ∧
    r.base.toNat < q.va.toNat % 2 ^ 57 + q.len ∧ q.va.toNat % 2 ^ 57 < r.limit.toNat)

/-- Entry j of partition p after a recast by command m of entry r, its data then of size bytes, ovf and nan what a conversion into
the accumulate role found: the role and format asked for, F of a new FX128 form, ACCOP of an accumulate extent, RECASTING cleared, every
other field as it was. -/
abbrev recastTo (t : State) (p : PartId) (j : Nat) (m : CopyCmd) (r : Range) (size : Nat) (ovf nan : Bool) : Prop :=
  ∃ r', (t.partAt p).rangeIx j = some r' ∧ r'.base = r.base ∧ r'.pbase = r.pbase ∧
    r'.limit = r.base + .ofNat 64 size ∧ r'.role = rcTo m ∧ r'.fmt = rcFmt m r ∧ r'.has 26 = false ∧ r'.gen = r.gen ∧
    fld r'.attr.toNat 37 31 = (if rcFmt m r = 26 ∧ r.fmt ≠ 26 then (m.q 2).toNat / 2 ^ 47 % 2 ^ 7 else fld r.attr.toNat 37 31) ∧
    fld r'.attr.toNat 40 38 = (if rcTo m ≠ 3 then fld r.attr.toNat 40 38 else if rcFmt m r = 26 then 1
      else (m.q 2).toNat / 2 ^ 44 % 8) ∧
    r'.has 30 = (if rcTo m = 3 ∧ rcFmt m r = 26 then ovf else r.has 30) ∧
    r'.has 29 = (if rcTo m = 3 ∧ rcFmt m r = 26 then nan else r.has 29) ∧
    r'.has 45 = (r.has 45 && rcTo m != 2) ∧ r'.has 63 = r.has 63 ∧ fld r'.attr.toNat 54 46 = fld r.attr.toNat 54 46 ∧
    fld r'.attr.toNat 44 41 = fld r.attr.toNat 44 41 ∧ fld r'.attr.toNat 28 27 = fld r.attr.toNat 28 27 ∧
    fld r'.attr.toNat 13 0 = fld r.attr.toNat 13 0 ∧
    (rcTo m = 2 → t.streamOf p j = Stream.fresh j r.base.toNat)

/-- R79, R81, R65: a recast drains until no access to its extent is translated and not performed; then its data and its entry
change together, and the command ends with the extent's handle. A recast without a format change, and a relabel to or from
untyped, leave the data; FX128 to FP32 rounds each element once, in place, and the extent is a quarter, rounded up to 64 KiB; FP32 to
FX128 makes each element exact, and the extent is four times as long (of the rounded size: log entry 77); into the accumulate role
as FX128 OVF and NANF say whether an element overflowed or was NaN, and into another role they stand as they were (log entry 78). An
extent that becomes immutable with REPL gets its copy on die W. -/
def Claim.Recasts : Prop :=
  ∀ (s : State) (j : Nat) (q : CopyRun) (r : Range), let c := s.inp.core
    let x := s.inp.ctx
    let p : PartId := (s.coreAt c).csr.part.toFin
    let m := q.cmd
    let a := r.pbase.toNat
    let f := rcFmt m r
    let here := r.attr.toNat / 2 ^ 50 % 4 ≠ 2
    let copies := rcTo m = 1 ∧ r.has 49 = true
    let ends := fun (t : State) => ((t.coreAt c).copy.get x).run =
        some { q with phase := .finish, res := leBytes 8 (handleOf j r), aux := 0 } ∧
      ∀ d, (t.coreAt d).regs = (s.coreAt d).regs ∧ (t.coreAt d).scratch = (s.coreAt d).scratch
    ((s.coreAt c).copy.get x).run = some q → (s.partAt p).rangeIx j = some r →
    (q.phase = .recastDrain j →
      (extentInUse s r → exec .recastDrainEnd s = .next s) ∧
      (¬ extentInUse s r → ∃ t : State, exec .recastDrainEnd s = .next t ∧
        ((t.coreAt c).copy.get x).run = some { q with phase := .recastRewrite j } ∧ t.ms = s.ms ∧ t.parts = s.parts ∧
        ∀ d, (t.coreAt d).regs = (s.coreAt d).regs)) ∧
    (q.phase = .recastRewrite j → r.size < 2 ^ 38 →
      ((f = r.fmt ∨ f = 0 ∨ r.fmt = 0) → (here ∨ q.err = none) → ∃ t : State, exec .recastRewriteEnd s = .next t ∧
        recastTo t p j m r r.size false false ∧ ends t ∧
        (¬ (here ∧ copies) → t.ms.mem = s.ms.mem) ∧
        (here → copies → (∀ i, i < r.size → t.ms.mem.read (a + 0x4000000000 + i) = s.ms.mem.read (a + i)) ∧
          ∀ b, b < a + 0x4000000000 ∨ a + 0x4000000000 + r.size ≤ b → t.ms.mem.read b = s.ms.mem.read b)) ∧
      (r.fmt = 26 → f = 1 → here → let size := (r.size / 4 + 65535) / 65536 * 65536
        ∃ t : State, exec .recastRewriteEnd s = .next t ∧ recastTo t p j m r size false false ∧ ends t ∧
        (∀ i, i < r.size / 16 → t.ms.mem.num (a + 4 * i) 4 =
          f32OfFx128 (signed 16 (s.ms.mem.num (a + 16 * i) 16)) (fld r.attr.toNat 37 31) % 2 ^ 32) ∧
        (copies → ∀ i, i < size → t.ms.mem.read (a + 0x4000000000 + i) = t.ms.mem.read (a + i)) ∧
        ∀ b, (b < a ∨ a + 4 * (r.size / 16) ≤ b) → (copies → b < a + 0x4000000000 ∨ a + 0x4000000000 + size ≤ b) →
          t.ms.mem.read b = s.ms.mem.read b) ∧
      (r.fmt = 1 → f = 26 → here → 4 * r.size < 2 ^ 38 →
        let el := fun i => toFx128 (s.ms.mem.num (a + 4 * i) 4) ((m.q 2).toNat / 2 ^ 47 % 2 ^ 7)
        let any := fun (g : Int × Bool × Bool → Bool) => (List.range (r.size / 4)).any fun i => g (el i)
        ∃ t : State, exec .recastRewriteEnd s = .next t ∧
        recastTo t p j m r (4 * r.size) (any fun e => e.2.1) (any fun e => e.2.2) ∧ ends t ∧
        (∀ i, i < r.size / 4 → (t.ms.mem.num (a + 16 * i) 16 : Int) = (el i).1.emod (2 ^ 128)) ∧
        (copies → ∀ i, i < 4 * r.size → t.ms.mem.read (a + 0x4000000000 + i) = t.ms.mem.read (a + i)) ∧
        ∀ b, (b < a ∨ a + 4 * r.size ≤ b) → (copies → b < a + 0x4000000000 ∨ a + 0x4000000000 + 4 * r.size ≤ b) →
          t.ms.mem.read b = s.ms.mem.read b) ∧
      (∀ e, ¬ here → q.err = some e → ∃ t : State, exec .recastRewriteEnd s = .next t ∧ t.ms.mem = s.ms.mem ∧
        ((t.coreAt c).copy.get x).run = some { q with phase := .finish } ∧
        ∃ r', (t.partAt p).rangeIx j = some r' ∧ r'.has 26 = false ∧ r'.role = r.role ∧ r'.fmt = r.fmt ∧ r'.limit = r.limit))

/-- The leaves that hold the entry of the page at an offset of a partition. -/
abbrev leavesOf (s : State) (m : Memory) (p : PartId) (off : Nat) : List Nat :=
  leafAddrs m off 3 ((s.partAt p).ptroot.toNat / 2 ^ 21 % 2 ^ 23 * 2 ^ 21)

/-- Each leaf of a page's entry holds e in memory m. -/
abbrev leavesHold (m : Memory) (l : List Nat) (e : Nat) : Prop := ∀ a ∈ l, m.num a 8 = e

/-- R85, R53: a page that firmware's policy moves gets MIG in its entry and a page of the new home's reserve. Its ports close once
no access that a crossbar has accepted, and no request to a peer, is to it; then it is copied, byte by byte, its entry names the new
home with MIG = 0, and nothing is migrating there. Without the migration engine's access rights neither happens: the refusal is counted,
and a page that was moving stays where it is, with MIG = 0 and its new page back in the reserve. The operations that an old
home refused wait while the entry shows MIG = 1, and are then issued again in their order, to the same bytes at the new home. -/
def Claim.Migrations : Prop :=
  ∀ (s : State), let p := s.inp.part
    let off := s.inp.off.toNat % 2 ^ 57
    let home := s.inp.n % 4
    (∀ pte base size pa new, s.pageWalk p off = .ok (pte, base, size) → pte / 2 ^ 10 % 4 = 1 → pte.testBit 44 = false →
      (rangeAt (s.partAt p) off).isEmpty = true → pageHome pte ≠ (home, 0) → pte / 2 ^ 46 % 4 ≠ 2 →
      pa = pte / 2 ^ 12 % 2 ^ 32 * 4096 → (s.partAt p).reserve.find? (·.1.val == home) = some new →
      (s.mayMigrate p base (pageHome pte).1 pa size home new.2 = true → ∃ t : State,
        exec .migrationPolicy s = .next t ∧ t.ms.migrations = s.ms.migrations ++
          [⟨p, base, pa, size, pte.testBit 45, home, new.2, 0, 0, none⟩] ∧
        leavesHold t.ms.mem (leavesOf s s.ms.mem p base) (pte + 2 ^ 44) ∧
        (∀ a, (∀ e ∈ leavesOf s s.ms.mem p base, a < e ∨ e + 8 ≤ a) → t.ms.mem.read a = s.ms.mem.read a) ∧
        (t.partAt p).reserve = (s.partAt p).reserve.erase new ∧ t.cores = s.cores) ∧
      (s.mayMigrate p base (pageHome pte).1 pa size home new.2 = false → ∃ t : State,
        exec .migrationPolicy s = .next t ∧ t.fw.tele.refusals = s.fw.tele.refusals + 1 ∧ t.ms = s.ms ∧ t.cores = s.cores)) ∧
    (∀ g, s.migrationAt p off = some g → g.step = 0 → g.cmd = none →
      let busy := (∃ k ∈ (s.xbarAt .e).accepted ++ (s.xbarAt .w).accepted, ∃ a ∈ k.body.places, g.covers a = true) ∨
        ∃ q ∈ (s.fabAt .e).reqs ++ (s.fabAt .w).reqs, g.covers (2 ^ 80 * (1 + q.dst.toNat) + q.va.toNat) = true
      (busy → exec .migrationPortsClosed s = .next s) ∧
      (¬ busy → ∃ t : State, exec .migrationPortsClosed s = .next t ∧ { g with step := 1 } ∈ t.ms.migrations ∧
        t.ms.migrations.length = s.ms.migrations.length ∧ t.ms.mem = s.ms.mem ∧ t.cores = s.cores)) ∧
    (∀ g pte base size, s.migrationAt p off = some g → g.cmd = none → s.pageWalk p g.off = .ok (pte, base, size) →
      (g.step = 0 → exec .migrationCopyDone s = .next s) ∧
      (let may := s.mayMigrate p g.off (pageHome pte).1 g.pa g.size g.home g.newPa
       let u := s.ms.mem.copyRange g.pa g.newPa g.size
       let leaves := leavesOf s u p g.off
       (g.step = 1 → may = true → g.home < 4 → pte / 2 ^ 46 % 4 ≠ 2 → g.newPa < 2 ^ 44 → g.newPa % 4096 = 0 → pte.testBit 44 = true →
        (∀ e ∈ leaves, e + 8 ≤ g.newPa ∨ g.newPa + g.size ≤ e) →
        ∃ (t : State) (e : Nat), exec .migrationCopyDone s = .next t ∧
          (∀ i, i < g.size → t.ms.mem.read (g.newPa + i) = s.ms.mem.read (g.pa + i)) ∧ leavesHold t.ms.mem leaves e ∧
          e / 2 ^ 12 % 2 ^ 32 * 4096 = g.newPa ∧ e / 2 ^ 46 % 4 = g.home / 2 ∧ e.testBit 44 = false ∧
          e.testBit 45 = (pte.testBit 45 && g.home == 0) ∧ e / 2 ^ 48 = pte / 2 ^ 48 ∧ e % 2 ^ 12 = pte % 2 ^ 12 ∧
          t.ms.migrations = s.ms.migrations.filter (· != g) ∧
          ∀ c, (t.coreAt c).regs = (s.coreAt c).regs ∧ (t.coreAt c).scratch = (s.coreAt c).scratch) ∧
       (∀ h : g.home < 4, g.step = 1 → may = false → pte.testBit 44 = true → ∃ t : State, exec .migrationCopyDone s = .next t ∧
          leavesHold t.ms.mem (leavesOf s s.ms.mem p g.off) (pte - 2 ^ 44) ∧ t.fw.tele.refusals = s.fw.tele.refusals + 1 ∧
          (t.partAt g.part).reserve = (s.partAt g.part).reserve ++ [(⟨g.home, h⟩, g.newPa)] ∧
          t.ms.migrations = s.ms.migrations.filter (· != g) ∧ t.cores = s.cores))) ∧
    (let c := s.inp.core
     ∀ g l pte base size, (s.coreAt c).moved = g :: l → s.pageWalk g.part g.off = .ok (pte, base, size) →
      (pte.testBit 44 = true → exec .movedCompletion s = .next s) ∧
      (pte.testBit 44 = false →
        let mine := (s.coreAt c).moved.filter fun m => m.part == g.part && m.off == g.off
        let new := if (pageHome pte).1 = 4 then 2 ^ 80 * (1 + (pageHome pte).2) + pte / 2 ^ 56 % 8 * 2 ^ 61 + base
          else pte / 2 ^ 12 % 2 ^ 32 * 4096
        ∃ t : State, exec .movedCompletion s = .next t ∧
        (t.coreAt c).moved = (s.coreAt c).moved.filter (fun m => !mine.contains m) ∧
        ((t.xbarAt (dieOf c)).wait.map fun k => (k.id, k.body)) = (s.xbarAt (dieOf c)).wait.map (fun k => (k.id, k.body)) ++
          mine.map (fun m => (m.pkt.id, m.pkt.body.rename (movedTo g.pa g.size new))) ∧
        (t.coreAt c).regs = (s.coreAt c).regs ∧ (t.coreAt c).scratch = (s.coreAt c).scratch ∧
        (∀ d, d ≠ c → t.coreAt d = s.coreAt d) ∧ t.ms = s.ms))

/-- A call has taken a row into the load q of a pipe that runs no other: the next row is next, or with the last one the pipe is
free and the load's buffer holds its rows, in their format and length. -/
def rowTaken (r r' : MRun) (i : Fin 4) (q : PipeRun) (codes : List (Nat × Nat)) (f k : Nat) : Prop :=
  (q.next + 1 < q.spec.rows → r'.bufs = r.bufs ∧ ∃ q', r'.pipes.get i = [q'] ∧ q'.spec = q.spec ∧ q'.next = q.next + 1 ∧
    q'.got = q.got ++ [codes] ∧ q'.due = q.due.drop 1 ∧ q'.stop = none) ∧
  (q.spec.rows ≤ q.next + 1 → r'.pipes.get i = [] ∧ (r'.bufs.get q.spec.buf).lines = q.got ++ [codes] ∧
    (r'.bufs.get q.spec.buf).fmt = f ∧ (r'.bufs.get q.spec.buf).klen = k ∧
    ∀ b, b ≠ q.spec.buf → r'.bufs.get b = r.bufs.get b) ∧
  (∀ j, j ≠ i → r'.pipes.get j = r.pipes.get j) ∧ r'.wp = r.wp ∧ r'.upc = r.upc ∧ r'.loops = r.loops ∧ r'.acc = r.acc ∧
  r'.stop = none

/-- R424, R426, R438: a load pipe sends the request of its next row of the core's own scratch when its bank is free, one a cycle,
and the row is due 6 cycles later. A row of 8-, 16- or 32-bit elements that is due enters the load, element j the number
at its address + j·width/8; a seat that takes its rows from another seat of its gang takes the row that has been read for it,
and waits for it. A pipe that has stopped, and one that runs nothing, does nothing. -/
def Claim.MatrixRows : Prop :=
  ∀ (s : State), let c := s.inp.core
    let x := s.coreAt c
    let i : Fin 4 := Fin.ofNat 4 s.inp.n
    let kept := fun (t : State) => (t.coreAt c).regs = x.regs ∧ (t.coreAt c).csr = x.csr ∧ (t.coreAt c).acc = x.acc ∧
      (t.coreAt c).scratch = x.scratch ∧ t.ms = s.ms ∧ ∀ g, g ≠ c → t.coreAt g = s.coreAt g
    (s.pipeAt c i = none → exec .matrixRowComplete s = .next s) ∧
    (∀ (r : MRun) (q : PipeRun), x.matrix.run = some r → r.stop = none → r.pipes.get i = [q] →
      (q.stop.isSome = true ∨ s.engineLive c = false → exec .matrixRowComplete s = .next s) ∧
      (q.stop = none → s.engineLive c = true → x.csr.nrep.toNat ≤ 1 →
        (r.cmd.op.isGang = false → i.val < 2 → q.spec.scale = false → q.spec.lib = false → q.rd = noRead → x.locks = [] →
          x.scratch.poison = [] →
          let a := q.spec.base + .ofNat 64 (q.next + q.due.length) * q.spec.stride
          let w := fmtBits q.spec.ufmt
          let k := if q.spec.k = 0 then elemCount w else q.spec.k
          let off := scratchOff a
          let ok := a.toNat / 2 ^ 61 = 5 ∧ a.toNat / 2 ^ 22 % 2 ^ 39 = 0 ∧ off % (w / 8) = 0 ∧ off + w / 8 * k ≤ 0x300000
          let plain := 1 ≤ q.spec.ufmt ∧ q.spec.ufmt ≤ 17 ∧ (w = 8 ∨ w = 16 ∨ w = 32) ∧ k ≤ elemCount w ∧
            (q.next ≠ 0 → q.fmt = q.spec.ufmt ∧ q.typed = false)
          plain →
          (ok → q.due = [] → q.next < q.spec.rows → q.sent ≠ some s.cyc → x.bankq = [] → s.cyc.toNat + 6 < 2 ^ 64 → ∃ t : State,
            exec .matrixRowComplete s = .next t ∧ kept t ∧ (t.coreAt c).matrix.run = some { r with
              pipes := r.pipes.set i.val [{ q with due := [s.cyc + 6], sent := some s.cyc }] i.isLt }) ∧
          (let a := q.spec.base + .ofNat 64 q.next * q.spec.stride
            let off := scratchOff a
            a.toNat / 2 ^ 61 = 5 → a.toNat / 2 ^ 22 % 2 ^ 39 = 0 → off % (w / 8) = 0 → off + w / 8 * k ≤ 0x300000 →
            q.spec.rows ≤ q.next + q.due.length → (∃ d ∈ q.due, d.toNat ≤ s.cyc.toNat) → ∃ (t : State) (r' : MRun),
              exec .matrixRowComplete s = .next t ∧ kept t ∧ (t.coreAt c).matrix.run = some r' ∧
              rowTaken r r' i q ((List.range k).map fun j => (x.scratch.num (x.scratchPhys (off + w / 8 * j)) (w / 8), 0))
                q.spec.ufmt k)) ∧
        (s.takesRows c r q = true → q.spec.rows ≤ q.next + q.due.length →
          (x.fwdRow r.cmd.num q.spec.ord q.next = none → exec .matrixRowComplete s = .next s) ∧
          (∀ f, x.fwdRow r.cmd.num q.spec.ord q.next = some f → f.bad = none → q.spec.pipe = i → ∃ (t : State) (r' : MRun),
            exec .matrixRowComplete s = .next t ∧ kept t ∧ (t.coreAt c).matrix.run = some r' ∧
            rowTaken r r' i q f.codes f.fmt f.klen))))

/-! ### The fabric (02_fabric R21 to R35) -/

/-- A router holds no packet: none waits, is hedged, or is on its way through a channel. -/
abbrev Fabric.clear (f : Fabric) : Prop := f.waiting = [] ∧ f.hedges = [] ∧ ∀ v ∈ f.vcs, v.busy = none

/-- The counts of R26 in a list have each gone up by one, once for each time they stand in it: 0 and 1 are BANKINJ of banks 0 and 1,
2 and 3 BANKEJ, 4 and 5 BANKDROP; the others are as they were. -/
abbrev countedUp (f g : Fabric) (l : List Nat) : Prop :=
  ∀ i, i < 6 → g.counts.getD i 0 = f.counts.getD i 0 + .ofNat 64 (l.count i)

/-- The credits that go upstream when a packet leaves its input's buffers: one for each flit that came by a port. -/
abbrev creditsOf (inp : RouterIn) (k : FabPacket) : List (Fin 72 × Fin 8) :=
  match inp with
  | .port p => List.replicate k.flits (p, k.chan)
  | .inject => []

/-- The router drops a packet: it goes nowhere, and its bank's BANKDROP counts it. -/
abbrev dropsPkt (f g : Fabric) (inp : RouterIn) (k : FabPacket) (l : List Nat) : Prop :=
  countedUp f g (l ++ [4 + b2n k.bank]) ∧ g.ejected = f.ejected ∧ g.sent = f.sent ∧ g.waiting = f.waiting ∧
  g.credits = f.credits ++ creditsOf inp k

/-- The first dimension, X before Y before Z, in which a packet still has a way to go, with its table's entry (R23). -/
abbrev nextDim (f : Fabric) (k : FabPacket) : Option (Fin 3 × Nat) :=
  ([0, 1, 2].map fun i : Fin 3 => (i, f.entry k.bank i (k.dim i))).find? fun e => e.2 / 2 ^ 14 != 0

/-- What a router of a die does with a packet k that has come in by inp, its fabric then f and after it g (R22 to R26, R30). -/
abbrev routedPkt (f g : Fabric) (inp : RouterIn) (k : FabPacket) (l : List Nat) : Prop :=
  let known := ∀ p, inp = .port p → k.key ≠ 0 ∧ ∃ e ∈ f.members, e.1 = some p ∧ e.2.2.1.toNat = k.key
  let own := inp = .inject ∧ k.dst % 4096 = f.me .e % 4096
  let notice := ∃ p, inp = .port p ∧ (k.op = 9 ∨ k.op = 10)
  let enters := k.bad = none ∧ known ∧ ¬ notice
  (k.bad ≠ none → dropsPkt f g inp k l) ∧
  (k.bad = none → ¬ known → ¬ notice → dropsPkt f g inp k l) ∧
  (enters → own ∨ nextDim f k = none → countedUp f g (l ++ [2 + b2n k.bank]) ∧ g.ejected = f.ejected ++ [k] ∧ g.sent = f.sent ∧
    g.waiting = f.waiting ∧ g.credits = f.credits ++ creditsOf inp k) ∧
  (enters → ¬ own → ∀ i e, nextDim f k = some (i, e) →
    (e / 2 ^ 14 = 3 ∨ e % 2 ^ 12 = 0 → dropsPkt f g inp k l) ∧
    (e / 2 ^ 14 < 3 → e % 2 ^ 12 ≠ 0 → ∃ n, n < 12 ∧ e.testBit n = true ∧
      let p : Fin 72 := Fin.ofNat 72 ((2 * i.val + e / 2 ^ 14 - 1) * 12 + n)
      let turns := match inp with
        | .port q => q.val / 24 != i.val
        | .inject => true
      let dateline := if e / 2 ^ 14 = 1 then f.my.get i == f.dims.get i else f.my.get i == 0
      let q := k.setDl (!turns && k.dl || dateline)
      (Fabric.clear f → f.connected p = true → q.flits ≤ (f.chanAt p q.chan).free →
        g.sent = f.sent ++ [(p, q)] ∧ g.waiting = [] ∧ g.ejected = f.ejected ∧ countedUp f g l ∧
        g.credits = f.credits ++ creditsOf inp k ∧ (g.chanAt p q.chan).free = (f.chanAt p q.chan).free - q.flits) ∧
      (Fabric.clear f → (f.chanAt p q.chan).free = 0 →
        g.waiting = [⟨inp, arrivedAt inp k, p, q⟩] ∧ g.sent = f.sent ∧ g.ejected = f.ejected ∧ countedUp f g l)))

/-- R18, R19, R21 to R27, R29, R30: a packet that comes by a port without a CRC failure, and a replayed flit that was not
accepted before, are accepted and routed; a copy already accepted, a packet with a CRC failure, and one at a port that is not
connected change nothing. A packet is dropped and counted when its header breaks R22, when its key is not the port's, and when its
table has no way for it; it is ejected and counted when no dimension is left, or when its own endpoint injects it for its
own module; else it leaves by a port of the first dimension left, with DL as R24 says, and takes a buffer of that port's channel for
each flit; without a buffer it waits. The endpoint injects its first packet, with the bank INJBANK, and counts it; a halved flow passes up
every other turn; a request is held while one that went with the other bank to its module is not answered. -/
def Claim.RouterPackets : Prop :=
  ∀ (s : State), let d := s.inp.die
    let k := s.inp.pkt
    let f := s.fabAt d
    let kept := fun (t : State) => t.cores = s.cores ∧ t.ms = s.ms
    (∀ p, s.inp.rin = .port p →
      (s.inp.crc = true ∨ f.connected p = false → exec .routerPacketArrive s = .next s) ∧
      (s.inp.crc = false → f.connected p = true → ∃ t : State, exec .routerPacketArrive s = .next t ∧
        (t.fabAt d).lastSeq p k.chan = f.lastSeq p k.chan + 1 ∧ routedPkt f (t.fabAt d) (.port p) k [] ∧ kept t)) ∧
    (let p := s.inp.fport
     (s.inp.n ≤ f.lastSeq p s.inp.vc → exec .flitReplay s = .next s) ∧
     (f.lastSeq p s.inp.vc < s.inp.n → ∃ t : State, exec .flitReplay s = .next t ∧
        (t.fabAt d).lastSeq p s.inp.vc = s.inp.n ∧ routedPkt f (t.fabAt d) (.port p) k [] ∧ kept t)) ∧
    (s.inp.rin = .inject →
      (f.outq = [] → ∃ t : State, exec .routerPacketArrive s = .next t ∧ t.fabAt d = f ∧ kept t) ∧
      ∀ j, f.outq = [j] →
        let held := j.isRequest = true ∧ ∃ r ∈ f.reqs, r.injected = true ∧ r.bank ≠ f.injbank ∧ r.dst.toNat % 4096 = j.dst % 4096
        let early := j.flow ∈ f.halved ∧ j.flow ∉ f.passed
        (held → ∃ t : State, exec .routerPacketArrive s = .next t ∧ (t.fabAt d).outq = [j] ∧ (t.fabAt d).counts = f.counts ∧
          (t.fabAt d).waiting = f.waiting ∧ (t.fabAt d).sent = f.sent ∧ (t.fabAt d).ejected = f.ejected ∧ kept t) ∧
        (¬ held → early → ∃ t : State, exec .routerPacketArrive s = .next t ∧ (t.fabAt d).outq = [j] ∧
          (t.fabAt d).counts = f.counts ∧ j.flow ∈ (t.fabAt d).passed ∧ (t.fabAt d).sent = f.sent ∧
          (t.fabAt d).ejected = f.ejected ∧ kept t) ∧
        (¬ held → ¬ early → ∃ t : State, exec .routerPacketArrive s = .next t ∧ (t.fabAt d).outq = [] ∧
          (t.fabAt d).reqs = f.reqs.map (fun r => if j.isRequest = true ∧ r.tag = j.tag then
            { r with injected := true, cycle := s.cyc, bank := f.injbank } else r) ∧
          routedPkt f (t.fabAt d) .inject (j.setBank f.injbank) [b2n f.injbank] ∧ kept t))

/-- R25, R29: a credit gives back a buffer of a port's channel, at most sixteen, and a packet of one flit that waits for it
leaves. A flow whose header has waited 512 cycles at a channel without buffers gets a free hedge queue of its port, into which
its packet goes; the input that feeds it is told: the endpoint halves the flow's rate. A hedge queue that has been empty
1,024 cycles is released, and the endpoint's rate restored; before those times nothing happens. A notice from beyond a port
assigns a hedge queue to its flow there, a release notice releases it, and at the endpoint they halve and restore the rate of
their flow and of no other. -/
def Claim.FabricFlow : Prop :=
  ∀ (s : State), let d := s.inp.die
    let f := s.fabAt d
    let p := s.inp.fport
    let vc := s.inp.vc
    let quiet := ∀ v ∈ f.vcs, v.busy = none
    let kept := fun (t : State) => t.cores = s.cores ∧ t.ms = s.ms
    (Fabric.clear f → ∃ t : State, exec .creditReturn s = .next t ∧
      ((t.fabAt d).chanAt p vc).free = min 16 ((f.chanAt p vc).free + 1) ∧ (t.fabAt d).sent = f.sent ∧
      (t.fabAt d).counts = f.counts ∧ kept t) ∧
    (∀ w, f.waiting = [w] → f.hedges = [] → quiet → w.port = p → w.pkt.chan = vc → w.pkt.flits = 1 → f.connected p = true →
      (f.chanAt p vc).free = 0 → ∃ t : State, exec .creditReturn s = .next t ∧ (t.fabAt d).sent = f.sent ++ [(p, w.pkt)] ∧
        (t.fabAt d).waiting = [] ∧ ((t.fabAt d).chanAt p vc).free = 0 ∧ kept t) ∧
    (∀ at_ w, (f.chanAt p vc).since = some at_ → (f.chanAt p vc).free = 0 → f.waiting = [w] → f.hedges = [] → quiet →
      w.port = p → w.pkt.chan = vc →
      (s.cyc.toNat < at_.toNat + 512 → exec .hedgeQueueAssign s = .next s) ∧
      (at_.toNat + 512 ≤ s.cyc.toNat → w.inp = .inject → ∃ t : State, exec .hedgeQueueAssign s = .next t ∧
        (t.fabAt d).hedges = [⟨p, 0, w.pkt.flow, [.inject], [w.pkt], none⟩] ∧ (t.fabAt d).waiting = [] ∧
        w.pkt.flow ∈ (t.fabAt d).halved ∧ (t.fabAt d).sent = f.sent ∧ kept t)) ∧
    (∀ h at_, f.hedges = [h] → h.port = p → h.slot.val = s.inp.slot.val → h.empty = some at_ → h.pkts = [] → f.waiting = [] →
      quiet → h.ups = [.inject] →
      (s.cyc.toNat < at_.toNat + 1024 → exec .hedgeQueueRelease s = .next s) ∧
      (at_.toNat + 1024 ≤ s.cyc.toNat → ∃ t : State, exec .hedgeQueueRelease s = .next t ∧
        (t.fabAt d).hedges = [] ∧ h.flow ∉ (t.fabAt d).halved ∧ (∀ g, g ≠ h.flow → (g ∈ (t.fabAt d).halved ↔ g ∈ f.halved)) ∧
        (t.fabAt d).sent = f.sent ∧ kept t)) ∧
    (s.inp.n ≠ 0 →
      (Fabric.clear f → ∃ t : State, exec .congestionNotice s = .next t ∧
        (t.fabAt d).hedges = [⟨p, 0, s.inp.flow, [], [], some s.cyc⟩] ∧ (t.fabAt d).halved = f.halved ∧
        (t.fabAt d).sent = f.sent ∧ kept t) ∧
      (∀ h, f.hedges = [h] → h.port = p → h.flow = s.inp.flow → h.pkts = [] → h.ups = [] → f.waiting = [] → quiet →
        ∃ t : State, exec .hedgeReleaseNotice s = .next t ∧ (t.fabAt d).hedges = [] ∧ (t.fabAt d).halved = f.halved ∧
          (t.fabAt d).sent = f.sent ∧ kept t)) ∧
    (s.inp.n = 0 →
      (∃ t : State, exec .congestionNotice s = .next t ∧ s.inp.flow ∈ (t.fabAt d).halved ∧
        (∀ g, g ≠ s.inp.flow → (g ∈ (t.fabAt d).halved ↔ g ∈ f.halved)) ∧ kept t) ∧
      (∃ t : State, exec .hedgeReleaseNotice s = .next t ∧ s.inp.flow ∉ (t.fabAt d).halved ∧
        (∀ g, g ≠ s.inp.flow → (g ∈ (t.fabAt d).halved ↔ g ∈ f.halved)) ∧ kept t))

/-- The one request at the endpoint of a die, of the job of the endpoint's entry m for partition p, for n bytes that its
address translates to at l, on this module, on no page that moves and in no stream extent, whose target lets the entry's master. -/
abbrev served (s : State) (k : FabPacket) (p : PartId) (m : Fin 64) (l : Loc) (n : Nat) : Prop :=
  (s.fabAt s.inp.die).ejected = [k] ∧ (s.fabAt s.inp.die).member none k.key = some (m, p) ∧
  s.translate (toCore (k.op2.toNat % 256)) p k.va (reqKind k) .walk = .ok l ∧ l.attr.role < 2 ∧ l.place + n ≤ 2 ^ 45 ∧ 0 < n ∧
  (∀ g ∈ s.ms.migrations, g.covers l.place = false) ∧
  s.accessOk (targetOf l.place) (.ofNat 10 (0x340 + m.val)) p (reqKind k).right l.sys = true ∧
  ∀ i, i < n → s.ms.mem.isPoisoned (l.place + i) = false

/-- A request of partition p is answered: its packet is gone, and the endpoint has a packet of a kind, op, to inject for its source: the
request's tag and address, a status, data; no core has changed. -/
abbrev answered (s t : State) (k : FabPacket) (p : PartId) (op status : Nat) (data : List Byte) : Prop :=
  let r := railDie k.src.toNat
  ∃ a, (t.fabAt r).outq = (s.fabAt r).outq ++ [a] ∧
    a.route = routeWord (s.partAt p).jobKey.toNat k.src.toNat false 1 ((data.length + 63) / 64) op ∧
    a.tag = k.tag ∧ a.va = k.va ∧ a.op0 = .ofNat 64 status ∧ a.data = data ∧
    (t.fabAt s.inp.die).ejected = (s.fabAt s.inp.die).ejected.erase k ∧ t.cores = s.cores

/-- R30, R32: a request of another module is performed at this one and answered: a read with the bytes of memory, and it changes
none; a write leaves its bytes at the place its address translates to and changes no other; an accumulate and a fetch-op of unsigned
32-bit addition leave the sum, and the fetch-op's answer holds the old value. A request whose address does not translate is answered
with the fault's cause, and one that its target refuses with cause 0x0A; one of no job of the endpoint is dropped. Then nothing else
changes. -/
def Claim.FabricRequests : Prop :=
  ∀ (s : State) (k : FabPacket), let d := s.inp.die
    let memKept := fun (t : State) (a n : Nat) => ∀ b, b < a ∨ a + n ≤ b → t.ms.mem.read b = s.ms.mem.read b
    (∀ p m l n, served s k p m l n →
      (k.op = 0 → k.cnt.toNat = n → k.ens = [] → ∃ t : State, exec .readRequest s = .next t ∧
        answered s t k p 4 0 ((List.range n).map fun i => s.ms.mem.read (l.place + i)) ∧ t.ms = s.ms) ∧
      (k.op = 1 → k.op0.getLsbD 63 = false → k.ens = [] → k.data.length = n →
        ∃ t : State, exec .writeRequest s = .next t ∧ answered s t k p 5 0 [] ∧
        (∀ i, i < n → t.ms.mem.read (l.place + i) = k.data.getD i 0) ∧ memKept t l.place n) ∧
      (k.op = 2 → l.attr.fmt = 0 → k.op0.toNat % 8 = 0 → k.data.length = 4 → n = 4 →
        ∃ t : State, exec .accumulateRequest s = .next t ∧ answered s t k p 5 0 [] ∧
        t.ms.mem.num l.place 4 = (s.ms.mem.num l.place 4 + leNat k.data) % 2 ^ 32 ∧ memKept t l.place 4) ∧
      (k.op = 3 → k.op0.toNat % 16 = 0 → k.data.length = 4 → n = 4 →
        ∃ t : State, exec .fetchOpRequest s = .next t ∧
        answered s t k p 5 0 ((List.range 4).map fun i => s.ms.mem.read (l.place + i)) ∧
        t.ms.mem.num l.place 4 = (s.ms.mem.num l.place 4 + leNat k.data) % 2 ^ 32 ∧ memKept t l.place 4)) ∧
    (∀ e ∈ [(0, Instr.readRequest), (1, .writeRequest), (2, .accumulateRequest), (3, .fetchOpRequest)],
      (s.fabAt d).ejected = [k] → k.op = e.1 → (e.1 = 1 → k.op0.getLsbD 63 = false) →
      (∀ p m, (s.fabAt d).member none k.key = some (m, p) →
        (∀ c r, s.translate (toCore (k.op2.toNat % 256)) p k.va (reqKind k) .walk = .fault c r →
          ∃ t : State, exec e.2 s = .next t ∧ answered s t k p 5 c [] ∧ t.ms = s.ms) ∧
        (∀ l, s.translate (toCore (k.op2.toNat % 256)) p k.va (reqKind k) .walk = .ok l → l.place < 2 ^ 80 →
          (∀ g ∈ s.ms.migrations, g.covers l.place = false) →
          s.accessOk (targetOf l.place) (.ofNat 10 (0x340 + m.val)) p (reqKind k).right l.sys = false →
          ∃ t : State, exec e.2 s = .next t ∧ answered s t k p 5 0x0A [] ∧ t.ms = s.ms)) ∧
      ((s.fabAt d).member none k.key = none → ∃ t : State, exec e.2 s = .next t ∧ (t.fabAt d).ejected = [] ∧
        (t.fabAt d).outq = (s.fabAt d).outq ∧ t.cores = s.cores ∧ t.ms = s.ms))

/-- R30, R31, R32: an answer ends the request of its tag. Data reaches the bytes of the load or of the copy command that asked for
them; an acknowledgement leaves the store, or the copy command with its old values, or the outbox word, answered; an answer to no
request, or of no job of the endpoint, is discarded. The request of a copy context that was injected 100 µs ago is given up, and its command
fails with 0x0A; not before. -/
def Claim.FabricAnswers : Prop :=
  ∀ (s : State) (k : FabPacket) (r : FabReq), let d := s.inp.die
    let f := s.fabAt d
    let c := r.core
    let find := f.reqs.find? (·.tag == k.tag) = some r
    let ended := fun (t : State) => (∀ q ∈ (t.fabAt d).reqs, q.tag ≠ k.tag) ∧ (t.fabAt d).ejected = f.ejected.erase k ∧
      (t.coreAt c).regs = (s.coreAt c).regs ∧ (t.coreAt c).scratch = (s.coreAt c).scratch ∧
      (∀ e, e ≠ c → t.coreAt e = s.coreAt e) ∧ t.ms = s.ms
    (∀ e ∈ [(4, Instr.readResponse), (5, .completionAcknowledgement)], f.firstOf [e.1] = some k →
      (f.member none k.key = none ∨ f.reqs.find? (·.tag == k.tag) = none) → ∃ t : State, exec e.2 s = .next t ∧
        (t.fabAt d).ejected = f.ejected.erase k ∧ (t.fabAt d).reqs = f.reqs ∧ t.cores = s.cores ∧ t.ms = s.ms) ∧
    ((f.member none k.key).isSome = true → find → f.firstOf [4] = some k → k.op0 = 0 →
      let data := r.addrs.zip k.data
      (∀ q, r.unit = 0 → (s.coreAt c).loads = [q] → q.id = r.req → q.acq = false → q.fences = [] → q.laid = [] →
        ∃ (t : State) (q' : LoadReq), exec .readResponse s = .next t ∧ ended t ∧ (t.coreAt c).loads = [q'] ∧ q'.dst = q.dst ∧
          q'.left = q.left.filter (· != r.pkt) ∧
          q'.bytes = q.bytes.map fun b => (b.1, if b.2.isSome then b.2 else (data.find? (·.1 == b.1)).map (·.2))) ∧
      (∀ (x : Ctx) q, r.unit = x.val + 1 → ((s.coreAt c).copy.get x).run = some q → r.pkt ∈ q.rd.left →
        ∃ (t : State) (q' : CopyRun), exec .readResponse s = .next t ∧ ended t ∧ ((t.coreAt c).copy.get x).run = some q' ∧
          q'.rd.left = q.rd.left.filter (· != r.pkt) ∧ q'.err = q.err ∧
          q'.rd.known = q.rd.known ++ q.rd.asked.filterMap fun a => (data.find? (·.1 == a.1)).map fun b => (a.2, b.2))) ∧
    ((f.member none k.key).isSome = true → find → f.firstOf [5] = some k → k.op0 = 0 →
      (∀ q, r.unit = 0 → (s.coreAt c).stores = [q] → q.id = r.req → ∃ t : State,
        exec .completionAcknowledgement s = .next t ∧ ended t ∧
        (t.coreAt c).stores = [{ q with left := q.left.filter (· != r.pkt) }]) ∧
      (∀ (x : Ctx) q, r.unit = x.val + 1 → r.addrs = [] → ((s.coreAt c).copy.get x).run = some q → r.pkt ∈ q.out →
        q.wd = none → q.cmd.acq = false → ∃ t : State, exec .completionAcknowledgement s = .next t ∧ ended t ∧
        ((t.coreAt c).copy.get x).run = some { q with out := q.out.filter (· != r.pkt), res := q.res ++ k.data }) ∧
      (∀ w l, r.unit = 4 → (s.coreAt c).mail.outbox = w :: l → w.outstanding = true → w.dst.toNat = r.req → ∃ t : State,
        exec .completionAcknowledgement s = .next t ∧ ended t ∧ (t.coreAt c).mail.outbox = l)) ∧
    (∀ q, (s.fabAt .e).reqs = [r] → (s.fabAt .w).reqs = [] → c = s.inp.core → r.unit = s.inp.ctx.val + 1 →
      ((s.coreAt c).copy.get s.inp.ctx).run = some q → q.err = none → r.pkt ∈ q.out →
      (r.injected = false ∨ s.cyc.toNat < r.cycle.toNat + 150000 → exec .requestTimeout s = .next s) ∧
      (r.injected = true → r.cycle.toNat + 150000 ≤ s.cyc.toNat → ∃ (t : State) (q' : CopyRun),
        exec .requestTimeout s = .next t ∧ (t.fabAt .e).reqs = [] ∧ ((t.coreAt c).copy.get s.inp.ctx).run = some q' ∧
        q'.err = some 0x0A ∧ q'.out = q.out.filter (· != r.pkt) ∧ (t.coreAt c).regs = (s.coreAt c).regs ∧ t.ms = s.ms))

/-- R30, R34, R357 to R359: a word that arrives for a core of the partition its key names joins that core's inbox and is
acknowledged; with 64 words there it is refused. (One for a core of another partition is dropped: log entry 74.) A refused word is sent
again 256 cycles later. The outbox sends its first word once the accesses before it are performed: over the crossbar to a core of
this module, as a request to the module it names, and drops and counts one that names none; a word that is outstanding, or of a partition that
is swapped out, or whose cycle has not come, stays; a fabric word without an answer for 100 µs is dropped and counted. -/
def Claim.InboxWords : Prop :=
  ∀ (s : State), let d := s.inp.die
    let f := s.fabAt d
    (∀ k m p, f.firstOf [7] = some k → f.member none k.key = some (m, p) →
      let c := toCore (k.va.toNat % 256)
      (s.partOfCore c ≠ some p → ∃ t : State, exec .inboxWord s = .next t ∧ (t.fabAt d).ejected = f.ejected.erase k ∧
        t.cores = s.cores ∧ t.ms = s.ms) ∧
      (s.partOfCore c = some p → (s.partAt (s.coreAt c).csr.part.toFin).swapped = false →
      let answers := fun (t : State) (op tc : Nat) => let r := railDie k.src.toNat
        ∃ a, (t.fabAt r).outq = (s.fabAt r).outq ++ [a] ∧
          a.route = routeWord (s.partAt p).jobKey.toNat k.src.toNat false tc 0 op ∧ a.tag = k.tag ∧ a.op0 = 0
      ((s.coreAt c).mail.inbox.length < 64 → ∃ t : State, exec .inboxWord s = .next t ∧
        (t.coreAt c).mail = { (s.coreAt c).mail with inbox := (s.coreAt c).mail.inbox ++ [(k.op0, 4)] } ∧ answers t 5 1 ∧
        (t.coreAt c).regs = (s.coreAt c).regs ∧ (∀ e, e ≠ c → t.coreAt e = s.coreAt e) ∧ t.ms = s.ms) ∧
      (64 ≤ (s.coreAt c).mail.inbox.length → ∃ t : State, exec .inboxWord s = .next t ∧ t.cores = s.cores ∧ answers t 8 3 ∧
        t.fw.tele.refusals = s.fw.tele.refusals + 1 ∧ t.ms = s.ms))) ∧
    (∀ k r w l, f.firstOf [8] = some k → (f.member none k.key).isSome = true →
      (f.reqs.find? fun r => r.tag == k.tag && r.unit == 4) = some r →
      (s.coreAt r.core).mail.outbox = w :: l → w.outstanding = true → w.dst.toNat = r.req →
      ∃ t : State, exec .inboxRefusal s = .next t ∧ (t.coreAt r.core).mail.outbox =
        { w with outstanding := false, resend := some (s.cyc + 256) } :: l ∧ (∀ q ∈ (t.fabAt d).reqs, q.tag ≠ k.tag) ∧
        (t.coreAt r.core).regs = (s.coreAt r.core).regs ∧ (∀ e, e ≠ r.core → t.coreAt e = s.coreAt e) ∧ t.ms = s.ms) ∧
    (let c := s.inp.core
     let p : PartId := (s.coreAt c).csr.part.toFin
     let unanswered := fun (r : FabReq) => r.core = c ∧ r.unit = 4 ∧ r.injected = true ∧ r.cycle.toNat + 150000 ≤ s.cyc.toNat
     ∀ w l, (s.coreAt c).mail.outbox = w :: l →
      (∀ r, (s.fabAt .e).reqs = [r] → unanswered r → w.outstanding = true → w.dst.toNat = r.req → ∃ t : State,
        exec .outboxSend s = .next t ∧ (t.coreAt c).mail.outbox = l ∧ (t.fabAt .e).reqs = [] ∧
        t.fw.tele.lostWords = s.fw.tele.lostWords + 1 ∧ (t.coreAt c).regs = (s.coreAt c).regs ∧ t.ms = s.ms) ∧
      ((∀ r ∈ (s.fabAt .e).reqs ++ (s.fabAt .w).reqs, ¬ unanswered r) →
        let dst := w.dst.toNat
        let home := dst.testBit 21
        let bad := dst / 2 ^ 22 ≠ 0 ∨ if home = true then dst / 2 ^ 8 % 2 ^ 13 ≠ 0 ∨ s.partOfCore (toCore (dst % 256)) ≠ some p
          else s.devBad c (dst / 2 ^ 8 % 2 ^ 13) = true
        let stays := fun (i : Instr) => exec i s = .next s
        let kept := fun (t : State) => (t.coreAt c).regs = (s.coreAt c).regs ∧ (∀ e, e ≠ c → t.coreAt e = s.coreAt e) ∧ t.ms = s.ms
        let goes := fun (i : Instr) =>
          (bad → ∃ t : State, exec i s = .next t ∧ (t.coreAt c).mail.outbox = l ∧
            t.fw.tele.lostWords = s.fw.tele.lostWords + 1 ∧ kept t) ∧
          (¬ bad → home = true → ∃ t : State, exec i s = .next t ∧
            (t.coreAt c).mail.outbox = { w with outstanding := true, resend := none } :: l ∧
            (∃ k, (t.xbarAt (dieOf c)).wait = (s.xbarAt (dieOf c)).wait ++ [k] ∧ k.body = .inbox w.word 3 ∧ k.vc = 3 ∧ k.core = c) ∧
            kept t) ∧
          (¬ bad → home = false → ∃ t : State, exec i s = .next t ∧
            (t.coreAt c).mail.outbox = { w with outstanding := true, resend := none } :: l ∧
            (let r := railDie (dst / 2 ^ 8 % 2 ^ 13)
             ∃ k q, (t.fabAt r).outq = (s.fabAt r).outq ++ [k] ∧ (t.fabAt r).reqs = (s.fabAt r).reqs ++ [q] ∧
              k.route = routeWord (s.partAt p).jobKey.toNat (dst / 2 ^ 8 % 2 ^ 13) false 3 0 7 ∧ k.va.toNat = dst % 256 ∧
              k.op0 = w.word ∧ k.tag = q.tag ∧ q.core = c ∧ q.unit = 4 ∧ q.req = dst ∧ q.injected = false) ∧ kept t)
        (l = [] → w.outstanding = true → stays .outboxSend ∧ stays .outboxResend) ∧
        (l = [] → (∃ n ∈ w.after, n ∈ (s.coreAt c).openIds) → stays .outboxSend ∧ stays .outboxResend) ∧
        (l = [] → ∀ at_, w.resend = some at_ → stays .outboxSend ∧ (s.cyc.toNat < at_.toNat → stays .outboxResend)) ∧
        ((s.partAt p).swapped = true → stays .outboxSend ∧ stays .outboxResend) ∧
        (w.outstanding = false → (∀ n ∈ w.after, n ∉ (s.coreAt c).openIds) → (s.partAt p).swapped = false →
          (w.resend = none → goes .outboxSend) ∧
          (∀ at_, w.resend = some at_ → at_.toNat ≤ s.cyc.toNat → goes .outboxResend))))

/-- R35: a chunk for a relay that receives here and does not forward is written at its address, counted, and acknowledged, and the
command ends with the last byte of its stream; a chunk waits while the command is at another phase or has stopped, and one that no
opened relay takes is answered with 0x0A (log entry 76). -/
def Claim.RelayChunks : Prop :=
  ∀ (s : State) (k : FabPacket) (m : Fin 64) (p : PartId), let d := s.inp.die
    let f := s.fabAt d
    let relay := f.relays.find? fun e => e.1 == k.op1 && (s.coreAt e.2.1).csr.part.toFin == p
    let r' := railDie k.src.toNat
    let answers := fun (t : State) (n : Nat) => ∃ a, (t.fabAt r').outq = (s.fabAt r').outq ++ [a] ∧
      a.route = routeWord (s.partAt p).jobKey.toNat k.src.toNat false 1 0 5 ∧ a.tag = k.tag ∧ a.op0 = .ofNat 64 n
    f.firstOf [6] = some k → f.member none k.key = some (m, p) →
    (relay = none → ∃ t : State, exec .relayData s = .next t ∧ answers t 0x0A ∧ t.cores = s.cores ∧ t.ms = s.ms) ∧
    (∀ c x r, relay = some (k.op1, c, x) → ((s.coreAt c).copy.get x).run = some r → r.cmd.q 1 = k.op1 →
      (r.phase ≠ .relayRecv ∨ r.stop ≠ none → exec .relayData s = .next s) ∧
      (r.phase = .relayRecv → r.stop = none → (r.cmd.q 2).getLsbD 63 = false → 0 < k.data.length →
        ∀ (a : List (W × Nat × Bool)) (at_ : Nat),
        s.reachAll c x none ((List.range k.data.length).map fun i => k.va + .ofNat 64 i) .copyWrite = .ok a →
        a.map (·.2.1) = (List.range k.data.length).map (at_ + ·) → at_ + k.data.length ≤ 2 ^ 45 →
        ∃ (t : State) (q : CopyRun), exec .relayData s = .next t ∧ answers t 0 ∧
          (∀ i, i < k.data.length → t.ms.mem.read (at_ + i) = k.data.getD i 0) ∧
          (∀ b, b < at_ ∨ at_ + k.data.length ≤ b → t.ms.mem.read b = s.ms.mem.read b) ∧
          ((t.coreAt c).copy.get x).run = some q ∧ q.cmd = r.cmd ∧ q.pos = r.pos + k.data.length ∧
          q.bytes = r.bytes + k.data.length ∧
          q.phase = (if (r.cmd.q 2).toNat % 2 ^ 40 ≤ r.pos + k.data.length then .finish else .relayRecv) ∧
          (t.coreAt c).regs = (s.coreAt c).regs ∧ (∀ e, e ≠ c → t.coreAt e = s.coreAt e)))

/-! ### Crossbars and slices (20_prog_chase R375 to R382) -/

/-- The packets that wait at a crossbar's inputs, each at the head of its input's channel, bound for one output and of cores
without a timetable. -/
abbrev headsFor (s : State) (b : Xbar) (port : Fin 128) (l : List Pkt) : Prop :=
  b.wait = l ∧ (l.map fun k => (k.inp, k.vc)).Nodup ∧ (l.map (·.id)).Nodup ∧
  ∀ k ∈ l, k.out = port ∧ k.at_.toNat ≤ s.cyc.toNat ∧ (s.coreAt k.core).csr.tt = false

/-- The slice's output of a die grants packet k: it has left its input's queue, the others still wait, and it is in the receive
buffer two cycles later; its input is the last that the output has granted on its channel, whose counter is now n. -/
abbrev grantsTo (s t : State) (b : Xbar) (port : Fin 128) (i : Fin 32) (k : Pkt) (rest : List Pkt) (n : Nat) : Prop :=
  let b' := t.xbarAt s.inp.die
  exec .xbarArbitrate s = .next t ∧ b'.wait = rest ∧ (b'.sliceAt i).recv = (b.sliceAt i).recv ++ [{ k with at_ := s.cyc + 2 }] ∧
  (b'.outAt port).last = some s.cyc ∧ ((b'.outAt port).c.get k.vc).toNat = n ∧
  (b'.outAt port).lrg.get k.vc = ((b.outAt port).lrg.get k.vc).filter (· != k.inp) ++ [k.inp] ∧ t.cores = s.cores ∧ t.ms = s.ms

/-- R377, R378, R380: an output of a slice with room grants a packet that waits alone, and counts it against its channel's
weight, which is loaded anew when it is used up; of two packets of different channels the lower channel with a count left goes
first; of two of one channel the input granted less recently; but one that has aged 64 cycles, and more than the other, goes before
them. It grants one packet in a cycle, and none to a slice that holds 8. An answer that a desk's output grants is there 2
cycles later, a scalar load's data 4; then the store that it answers no longer waits for it, and the load has its bytes. -/
def Claim.Arbitration : Prop :=
  ∀ (s : State), let d := s.inp.die
    let port := s.inp.xport
    let b := s.xbarAt d
    let o := b.outAt port
    let none_ := ∃ t : State, exec .xbarArbitrate s = .next t ∧ (t.xbarAt d).wait = b.wait ∧ (t.xbarAt d).slices = b.slices ∧
      t.cores = s.cores ∧ t.ms = s.ms
    (∀ (i : Fin 32), port.val = 64 + i.val → (b.recv.filter fun j => j.out == port) = [] →
      (b.wait = [] ∨ o.last = some s.cyc ∨ 8 ≤ (b.sliceAt i).recv.length → none_) ∧
      ((b.sliceAt i).recv.length < 8 → o.last ≠ some s.cyc → s.ms.migrations = [] →
        (∀ k, headsFor s b port [k] → k.age < 64 → ∃ t : State, grantsTo s t b port i k []
          ((if o.c.get k.vc = 0 then (xbarWeights b.wt).get k.vc else o.c.get k.vc).toNat - 1)) ∧
        (∀ k j, headsFor s b port [k, j] ∨ headsFor s b port [j, k] →
          (k.age < 64 → j.age < 64 → k.vc < j.vc → o.c.get k.vc ≠ 0 → ∃ t : State,
            grantsTo s t b port i k [j] ((o.c.get k.vc).toNat - 1)) ∧
          (k.age < 64 → j.age < 64 → k.vc = j.vc → o.c.get k.vc ≠ 0 → o.lrg.get k.vc = [k.inp, j.inp] → ∃ t : State,
            grantsTo s t b port i k [j] ((o.c.get k.vc).toNat - 1)) ∧
          (64 ≤ k.age → j.age < k.age → ∃ t : State, grantsTo s t b port i k [j] (o.c.get k.vc).toNat)))) ∧
    (port.val < 64 → s.cyc.toNat + 4 < 2 ^ 64 →
      (∀ k, headsFor s b port [k] → b.recv = [] → o.last ≠ some s.cyc → k.body = .ack [] 0 [] ∨ (∃ l rels, k.body = .data l [] rels) →
        ∃ t : State, exec .xbarArbitrate s = .next t ∧ (t.xbarAt d).wait = [] ∧
          (t.xbarAt d).recv = [{ k with at_ := s.cyc + (if k.unit = 0 ∧ k.body ≠ .ack [] 0 [] then 4 else 2) }] ∧
          ((t.xbarAt d).outAt port).last = some s.cyc ∧ t.cores = s.cores ∧ t.ms = s.ms) ∧
      (∀ k, b.wait = [] → b.recv = [k] → k.out = port → k.at_.toNat ≤ s.cyc.toNat → k.unit = 0 →
        (∀ q, k.body = .ack [] 0 [] → (s.coreAt k.core).stores = [q] → q.id = k.req → ∃ t : State,
          exec .xbarArbitrate s = .next t ∧ (t.xbarAt d).recv = [] ∧
          (t.coreAt k.core).stores = [{ q with left := q.left.filter (· != k.id) }] ∧ t.ms = s.ms) ∧
        (∀ q l rels, k.body = .data l [] rels → (s.coreAt k.core).loads = [q] → q.id = k.req → q.acq = false → q.fences = [] →
          q.laid = [] → ∃ (t : State) (q' : LoadReq), exec .xbarArbitrate s = .next t ∧ (t.xbarAt d).recv = [] ∧
          (t.coreAt k.core).loads = [q'] ∧ q'.dst = q.dst ∧ q'.left = q.left.filter (· != k.id) ∧
          q'.bytes = q.bytes.map (fun e => (e.1, if e.2.isSome then e.2 else (l.find? (·.1 == e.1)).map (·.2))) ∧ t.ms = s.ms)))

/-- A packet's target lets its master make an access of a kind at every place it names (03_host R53, R54). -/
abbrev allowed (s : State) (k : Pkt) (right : Nat) : Prop :=
  ∀ a ∈ k.body.places, s.accessOk (targetOf a) k.master k.part right false = true

/-- R381, R53: a slice takes one packet in a cycle: the read that came first, before any write; the read's value is what memory holds
then, and it is answered on VC2 40 cycles later. A write that came first of those there is taken when the queue of four has
room, and is performed four cycles after it, or after the write before it; its acknowledgement leaves then. A packet that the
slice's access table refuses is answered with 0x0A and changes nothing. A slice in refresh, one that has taken a packet in this
cycle, and one to which nothing has come take nothing; before its cycle an answer does not leave and a write is not performed. -/
def Claim.SliceAccesses : Prop :=
  ∀ (s : State), let d := s.inp.die
    let i : Fin 32 := Fin.ofNat 32 s.inp.n
    let q := (s.xbarAt d).sliceAt i
    let here := fun (k : Pkt) => k.at_.toNat ≤ s.cyc.toNat
    let sent := fun (t : State) (k : Pkt) (b : PBody) => ∃ j, (t.xbarAt d).wait = (s.xbarAt d).wait ++ [j] ∧ j.body = b ∧
      j.core = k.core ∧ j.unit = k.unit ∧ j.req = k.req ∧ j.id = k.id ∧ j.vc = 2 ∧ j.inp.val = 64 + i.val
    (q.refresh.isSome = true ∨ q.took = some s.cyc ∨ (∀ k ∈ q.recv, ¬ here k) → exec .sliceTakePacket s = .next s) ∧
    (∀ p k l a, q.refresh = none → q.took ≠ some s.cyc → q.recv = p ++ k :: l → here k → k.body = .read a →
      (∀ j ∈ p, here j → j.body.isRead = false) →
      (allowed s k 0 → (∀ x ∈ a, x < 2 ^ 45 ∧ s.ms.mem.isPoisoned x = false) → ∃ (t : State) (rels : List (Party × BitVec 3)),
        exec .sliceTakePacket s = .next t ∧ (t.xbarAt d).sliceAt i = { q with
          took := some s.cyc, recv := q.recv.filter (· != k)
          reads := q.reads ++ [({ k with body := .data (a.map fun x => (x, s.ms.mem.read x)) [] rels }, s.cyc + 40)] } ∧
        t.cores = s.cores ∧ t.ms = s.ms) ∧
      (¬ allowed s k 0 → ∃ t : State, exec .sliceTakePacket s = .next t ∧ (t.xbarAt d).sliceAt i = { q with
          took := some s.cyc, recv := q.recv.filter (· != k)
          reads := q.reads ++ [({ k with body := .ack [] 0x0A [] }, s.cyc + 40)] } ∧ t.cores = s.cores ∧ t.ms = s.ms)) ∧
    (∀ p k l, q.refresh = none → q.took ≠ some s.cyc → q.recv = p ++ k :: l → here k → (∀ j ∈ p, ¬ here j) →
      (∀ j ∈ q.recv, here j → j.body.isRead = false) →
      (4 ≤ q.writes.length → exec .sliceTakePacket s = .next s) ∧
      (q.writes.length < 4 → let last := ((q.writes.getLast?).map (·.2)).getD 0
        ∃ t : State, exec .sliceTakePacket s = .next t ∧ (t.xbarAt d).sliceAt i = { q with
          took := some s.cyc, recv := q.recv.filter (· != k)
          writes := q.writes ++ [(k, (if s.cyc.toNat < last.toNat then last else s.cyc) + 4)] } ∧ t.cores = s.cores ∧ t.ms = s.ms)) ∧
    (∀ k at_ l, q.reads = (k, at_) :: l →
      (s.cyc.toNat < at_.toNat → exec .sliceReadData s = .next s) ∧
      (at_.toNat ≤ s.cyc.toNat → ∃ t : State, exec .sliceReadData s = .next t ∧ (t.xbarAt d).sliceAt i = { q with reads := l } ∧
        sent t k k.body ∧ t.cores = s.cores ∧ t.ms = s.ms)) ∧
    (∀ k at_ l w, q.writes = (k, at_) :: l → k.body = .write w none →
      (s.cyc.toNat < at_.toNat ∨ q.refresh.isSome = true → exec .sliceWriteComplete s = .next s) ∧
      (at_.toNat ≤ s.cyc.toNat → q.refresh = none →
        (allowed s k 1 → w ≠ [] → (∀ x ∈ w, x.1 < 2 ^ 45 ∧ x.2.2 = 0xFF#8 ∧ s.ms.mem.isPoisoned x.1 = false) → (w.map (·.1)).Nodup →
          ∃ t : State, exec .sliceWriteComplete s = .next t ∧ (t.xbarAt d).sliceAt i = { q with writes := l } ∧
          (∀ x ∈ w, t.ms.mem.read x.1 = x.2.1) ∧ (∀ a, a ∉ w.map (·.1) → t.ms.mem.read a = s.ms.mem.read a) ∧
          sent t k (.ack [] 0 []) ∧ t.cores = s.cores) ∧
        (¬ allowed s k 1 → ∃ t : State, exec .sliceWriteComplete s = .next t ∧ (t.xbarAt d).sliceAt i = { q with writes := l } ∧
          sent t k (.ack [] 0x0A []) ∧ t.cores = s.cores ∧ t.ms = s.ms)))

/-- R382: a slice's refresh begins at most once in 5,850 cycles, in a cycle with no write in progress, and ends after 96; the
writes that waited are then performed in their order, four cycles apart. Else nothing changes. -/
def Claim.SliceRefresh : Prop :=
  ∀ (s : State), let d := s.inp.die
    let i : Fin 32 := Fin.ofNat 32 s.inp.n
    let q := (s.xbarAt d).sliceAt i
    let begins := q.refresh = none ∧ (∀ w ∈ q.writes, s.cyc.toNat + 4 ≤ w.2.toNat) ∧
      ∀ r, q.refreshed = some r → r.toNat + 5850 ≤ s.cyc.toNat
    let ends := ∃ r, q.refresh = some r ∧ r.toNat + 96 ≤ s.cyc.toNat
    (∃ t : State, exec .sliceRefreshStart s = .next t ∧ t.cores = s.cores ∧ t.ms = s.ms ∧
      (begins → (t.xbarAt d).sliceAt i = { q with refresh := some s.cyc, refreshed := some s.cyc }) ∧
      (¬ begins → (t.xbarAt d).sliceAt i = q)) ∧
    (∃ t : State, exec .sliceRefreshEnd s = .next t ∧ t.cores = s.cores ∧ t.ms = s.ms ∧
      (ends → (t.xbarAt d).sliceAt i = { q with
        refresh := none, writes := q.writes.zipIdx.map fun e => (e.1.1, s.cyc + .ofNat 64 (4 * (e.2 + 1))) }) ∧
      (¬ ends → (t.xbarAt d).sliceAt i = q))

/-! ### A step (10_core R191, 12_encoding R239 to R242) -/

/-- The slot at the program point that ends its group and decodes to an operation IS the next group: that operation
alone, with nothing lent to it. -/
def Claim.SlotIsFetched : Prop :=
  ∀ (s : State) (i : Instr), let x := s.slotHere
    s.core.activeHalf.stale = [] → s.core.seq.pc.bundle ≤ 4095 → s.core.seq.pc.slot < 4 → bitOf x.w 31 = true →
    x.isOp = true → decodeSlot x.w = .ok i → csrNamed i = true →
    s.nextGroup = .ok (loneGroup i x) ∧ (ctxOf [x] 0 0 none x).idx = 0 ∧ (ctxOf [x] 0 0 none x).raw = x.w ∧
    (ctxOf [x] 0 0 none x).mask = 0 ∧ (ctxOf [x] 0 0 none x).ovr = 0

/-- R128, R193, R195, R205: a turn of a core's sequencer issues its next group, once its roll call has completed and it has no stamp
to wait for: each operation is `exec` of the decoded instruction in its context, in group order; then the group commits, or holds,
or fails as a whole, or arrives at a compare point. While a register of the group is in flight, the queue of a vector instance that it
needs is full, or the power controller delays its vector operations, nothing issues. -/
def Claim.GroupIssues : Prop :=
  ∀ (s : State) (c : CoreId) (l : List Turn) (g : Group), s.order = .seq c :: l →
    let t := s.atTurn c l
    let waits := g.ops.any (t.core.waitsFor t.cyc) = true ∨ t.core.vecFull t.cyc (t.fw.lostVec.contains c) g = true ∨
      (g.hasVector = true ∧ t.core.csr.tt = false ∧ t.core.csr.part.toFin ∈ t.fw.throttled)
    t.mayIssue → t.nextGroup = .ok g → (g.sync = none ∨ t.core.seq.rolled = true ∨ t.core.seq.skipSync = true) →
    (g.stamp = none ∨ t.core.csr.tt = false) →
    (waits → step s = .next t.waiting) ∧
    (¬ waits → step s = t.finishGroup g none (runOps g.ops (t.beginGroup g)) ∧
      ∀ i x, g.ops = [(i, x)] → ∀ u : State,
        exec i { t.beginGroup g with issue := { (t.beginGroup g).issue with ctx := x } } = .next u →
        (u.issue.held = true → step s = .next (t.holdGroup u)) ∧
        (u.issue.held = false → u.issue.fails ≠ [] → step s = .next (t.failGroup u)) ∧
        (u.issue.held = false → u.issue.fails = [] → ∀ k, u.issue.compare = some k → step s = .next (t.arrive u k)) ∧
        (u.issue.held = false → u.issue.fails = [] → u.issue.compare = none → step s = .next (u.commit g none t.csr.hm)))

/-- The other turns: a micro-word of a running call (23_matrix R435) and an event are `exec` of that instruction, and a word of a call
that decodes to none stops it (R440); a tick passes time and charges the debt of its cycles (R206); the requests at a die's
desk ports take their banks; the host reads window C once its function's posted writes are acknowledged (R48); the power controller
delays partitions, none of them in timetable mode (R10: the alarm instead); an empty order lays out the turns of the next ac cycle
(the model's choice, assumption 3). -/
def Claim.OtherTurns : Prop :=
  ∀ (s : State) (l : List Turn), let u : State := { s with order := l }
    (∀ (c : CoreId) (r : MRun), s.order = .micro c :: l → let t := s.atTurn c l
      let at_ := (t.core.routineAt r.routine).1 + r.upc
      (t.microReady c = none → step s = .next t) ∧
      (t.microReady c = some r → 5 ≤ r.routine.toNat → at_ ≤ 4095 →
        (∀ i, decodeMicro (t.core.microWord at_) = .ok i → step s = exec i t) ∧
        (∀ e, decodeMicro (t.core.microWord at_) = .error e →
          step s = .next (t.microStop (illegalMicro (t.core.microWord at_)))))) ∧
    (∀ (i : Instr) (a : EventArgs), s.order = .ev i a :: l →
      step s = exec i { s with order := l, inp := a, issue := Issue.idle }) ∧
    (∀ n, s.order = .tick n :: l → step s = .next ((u.chargeDebt n).tick n)) ∧
    (∀ d, s.order = .window d :: l → step s = .next (u.takeWindows d)) ∧
    (∀ f off, s.order = .readC f off :: l →
      (u.postedBy f = true → step s = .next u) ∧
      (u.postedBy f = false → step s = .next { u with host := { u.host with
        answer := some (leBytes 8 (u.windowC f (off / 8 * 8)).toNat) } })) ∧
    (∀ ps, s.order = .power ps :: l → ∃ t : State, step s = .next t ∧
      t.fw.throttled = ps.filter (fun p => !(s.partAt p).tt) ∧
      t.fw.thermal = (s.fw.thermal || ps.any fun p => (s.partAt p).tt) ∧ t.cores = s.cores ∧ t.ms = s.ms) ∧
    (∀ k, s.order = .plan k :: l → step s = .next { s with order := u.turnsOf k ++ l }) ∧
    (s.order = [] → step s = .next { s with
      order := s.turnsOf 0 ++ [.plan 1, .plan 2, .plan 3, .plan 4, .plan 5, .plan 6, .plan 7, .tick 1] })

/-- No step is refused, and the one event that can stop the machine is a dump to a physical address that the map leaves
empty (04_spaces R74). -/
def Claim.NoStepRefuses : Prop :=
  (∀ (i : Instr) (s : State), (∀ r, exec i s ≠ .refused r) ∧ (i ≠ .dumpWritten → ∃ t : State, exec i s = .next t)) ∧
  (∀ (s : State) (f : Fault), exec .dumpWritten s = .fault f → ∃ a, f = .hole a ∧ a = (s.partAt s.inp.part).dumpbase.toNat ∧
    paInHbm a = false ∧ paInHeath a = false) ∧
  (∀ s : State, (∀ r, step s ≠ .refused r) ∧
    (∀ f, step s = .fault f → ∃ a l, s.order = .ev .dumpWritten a :: l))

/-! ### Encoding (12_encoding R239 to R264) -/

/-- Words the encoding tables give, written out bit by bit, and the operations they stand for: one or more of every
slot class, and micro-words. -/
def Claim.WordsDecode : Prop :=
  decodeTableWord 32 0x0A41448A = some (.sCmpLt 2 ⟨true, 4⟩ ⟨true, 5⟩) ∧
  decodeTableWord 32 0x8A41448A = some (.sCmpLt 2 ⟨true, 4⟩ ⟨true, 5⟩) ∧
  decodeTableWord 32 0x0402422C = some (.sAddi 4 ⟨true, 2⟩ 0x2C) ∧
  decodeTableWord 32 0x8C00000B = some (.sFence .rel 3) ∧
  decodeTableWord 32 0x905BFFFE = some (.bBp 3 false 0x3FFFE) ∧
  decodeTableWord 32 0x91401002 = some (.bLoopi 4 2) ∧
  decodeTableWord 32 0xA065448A = some (.vFma 10 ⟨true, 4⟩ ⟨true, 5⟩ false) ∧
  decodeTableWord 32 0xB0287111 = some (.mCall ⟨40, 3, true, 1, 1, true⟩) ∧
  decodeTableWord 32 0xC008394C = some (.cCopy ⟨2, 3, true, 2, true, false, 3⟩) ∧
  decodeTableWord 32 0xC8400070 = some (.cSbar 0 false 0 true true true) ∧
  decodeTableWord 32 0xD4000001 = some (.qBar 0 true) ∧
  decodeTableWord 32 0xD5844140 = some (.qPromise 1 4 5) ∧
  decodeMicro 0x14C14000 = .ok (.uLdb ⟨2, 3, 1, 1⟩) ∧
  decodeMicro 0x41030000 = .ok (.uMma 0 1 3)

/-- Decoding is the inverse of encoding: the word of a well-formed operation decodes to it with every operand at every
value, whatever its stop bit; so do its four bytes, with what follows left over; and a micro-word's. -/
def Claim.EncodingRoundTrips : Prop :=
  ∀ (i : Instr) (g : Bool) (w : Nat), i.wf = true → encodeWord g i = some w →
    (i.isMicro = false → w < 2 ^ 32 ∧ bitOf w 31 = g ∧ slotClass w < 6 ∧ decodeSlot w = .ok i ∧
      ∀ l, decodeBytes (leBytes 4 w ++ l) = some (i, l)) ∧
    (i.isMicro = true → g = false → w < 2 ^ 32 ∧ decodeMicro w = .ok i)

/-! ### The invariant -/

/-- Every step keeps the canonical form of HBM, of every scratch and of every saved context. -/
def Claim.StepKeepsMemories : Prop :=
  ∀ s t : State, s.Canonical → step s = .next t → t.Canonical

/-- The machine at reset has it. -/
def Claim.ResetIsCanonical : Prop := State.reset.Canonical

/-- The values that R111, R148, R197, R200 to R203, R218 and R379 give for reset, in every core, partition and die. Every
other reset value is the model's own (assumption 1). -/
def Claim.ResetValues : Prop :=
  (∀ c : CoreId, let s : State := { State.reset with cur := c }
    (∃ v, s.readCsr 0x00 = some v ∧ fld v.toNat 5 0 = 0) ∧ s.readCsr 0x06 = some 0 ∧ s.readCsr 0x07 = some 0 ∧ s.readCsr 0x08 = some 0 ∧
    s.readCsr 0x09 = some 0x0000FFFF00000000 ∧ s.readCsr 0x0E = some 4 ∧
    s.readCsr 0x0F = some 0xFFFFFFFFFFFFFFFF ∧ s.regs.getP 0 = true ∧ s.regs.getK 0 = BitVec.allOnes 1024 ∧
    s.regs.getS 0 = 0) ∧
  (∀ p : PartId, (State.reset.partAt p).cfg p = .ofNat 64 p.val) ∧
  (∀ d : Die, (State.reset.xbarAt d).wt = 0x2414 ∧ State.reset.sched.wt.get (dieIx d) = 1)

/-! ### The obligations -/

/-- Every scalar register and immediate operation completes with its result and changes nothing else. -/
def Obligations.ScalarOperations : Prop :=
  Claim.ScalarResults ∧ Claim.CountingOperations

/-- Division never traps and gives the quotient and remainder of Div. -/
def Obligations.DivisionNeverTraps : Prop :=
  Claim.DivisionNeverTraps

/-- Every scalar compare completes with its relation in its predicate and changes nothing else. -/
def Obligations.CompareResults : Prop :=
  Claim.CompareResults

/-- Fixed registers keep their value, the others hold what was written last. -/
def Obligations.RegisterFiles : Prop :=
  Claim.RegisterFiles

/-- Scalar operations under a lift. -/
def Obligations.LiftedScalar : Prop :=
  Claim.LiftedScalar

/-- Scalar loads and stores of the core's own scratch. -/
def Obligations.ScratchAccesses : Prop :=
  Claim.ScratchLoads ∧ Claim.ScratchStores

/-- A misaligned scalar access raises ALIGN_FAULT before translation. -/
def Obligations.MisalignedAccess : Prop :=
  Claim.MisalignedAccess

/-- Scalar loads and stores outside the core's own scratch are issued as accesses. -/
def Obligations.MemoryAccesses : Prop :=
  Claim.MemoryLoads ∧ Claim.MemoryStores

/-- Memory reads what was written, keeps its canonical form, and clears poison by whole words. -/
def Obligations.MemoryReadAfterWrite : Prop :=
  Claim.MemoryReadAfterWrite ∧ Claim.PoisonedWords

/-- A fence stands with what it waits for and keeps later accesses behind it. -/
def Obligations.FencesStand : Prop :=
  Claim.FencesStand

/-- Control register operations, unlisted numbers and the cycle counter. -/
def Obligations.ControlRegisterOperations : Prop :=
  Claim.ControlRegisterOperations ∧ Claim.UnlistedControlRegister ∧ Claim.ReadCycleCounter

/-- Which fields of the control registers a write changes, and where their fields stand. -/
def Obligations.ControlRegisterFields : Prop :=
  Claim.ControlRegisterFields ∧ Claim.ControlRegisterMaps

/-- When a check of a group fails, no operation of it takes effect. -/
def Obligations.FailingGroupHasNoEffect : Prop :=
  Claim.FailingGroupHasNoEffect

/-- What taking a trap writes and where it goes, and a second trap in handler mode. -/
def Obligations.TrapEntry : Prop :=
  Claim.TrapEntry ∧ Claim.DoubleTrap

/-- The return from a trap, the sync field it lets be ignored, and the software trap. -/
def Obligations.TrapReturn : Prop :=
  Claim.TrapReturn ∧ Claim.SyncIgnoredOnce ∧ Claim.SoftwareTrap

/-- Branches, split branches and the swap of halves. -/
def Obligations.Branches : Prop :=
  Claim.BranchTargets ∧ Claim.SplitBranches ∧ Claim.HalfSwap

/-- Hardware loops open and close. -/
def Obligations.Loops : Prop :=
  Claim.LoopsOpen ∧ Claim.LoopBackEdge

/-- b.done, b.yield, b.park and b.trig. -/
def Obligations.NodeEnds : Prop :=
  Claim.NodeDone ∧ Claim.NodeYield ∧ Claim.NodePark ∧ Claim.NodeTrigger

/-- b.task and b.sleep. -/
def Obligations.TasksAndSleep : Prop :=
  Claim.TaskRequests ∧ Claim.SleepOnPromise

/-- Queues are configured, pushed, popped and read. -/
def Obligations.QueueOperations : Prop :=
  Claim.QueueConfiguration ∧ Claim.QueuePush ∧ Claim.QueueReads ∧ Claim.QueueHolds

/-- A queue is a first-in first-out memory. -/
def Obligations.QueueOrder : Prop :=
  Claim.QueueOrder

/-- Waits on timelines and what moves ts. -/
def Obligations.TimelineWaits : Prop :=
  Claim.TimelineWaits ∧ Claim.TimelineSignals

/-- A timeline stands at the largest n whose commands 1 to n have completed. -/
def Obligations.TimelineOrder : Prop :=
  Claim.TimelineOrder

/-- q.promise, q.bar, q.slack, q.frame, q.ifence, q.fin and q.fout. -/
def Obligations.PromisesAndPacing : Prop :=
  Claim.PromiseWords ∧ Claim.PacingOperations ∧ Claim.FabricWords

/-- q.lift, q.lend and q.lmask. -/
def Obligations.LiftLevels : Prop :=
  Claim.LiftLevels

/-- Element operations write their element function under the mask, with cascades. -/
def Obligations.VectorArithmetic : Prop :=
  Claim.VectorArithmetic

/-- What the integer and float element functions compute. -/
def Obligations.ElementFunctions : Prop :=
  Claim.IntegerElements ∧ Claim.FloatElements

/-- A value that a float format holds rounds to its own code. -/
def Obligations.RepresentableValuesRound : Prop :=
  Claim.RepresentableValuesRound

/-- Vector compares and mask operations. -/
def Obligations.VectorMasks : Prop :=
  Claim.VectorCompares ∧ Claim.MaskOperations

/-- Moving and packing operations and v.setfmt. -/
def Obligations.VectorMoves : Prop :=
  Claim.VectorMoves ∧ Claim.VectorPacking ∧ Claim.SetFormat

/-- v.cvt, v.widen and v.narrow. -/
def Obligations.VectorConversions : Prop :=
  Claim.VectorConversion ∧ Claim.WidenAndNarrow

/-- Reductions and scans. -/
def Obligations.ReductionsAndScans : Prop :=
  Claim.ReductionsAndScans

/-- Special functions issue and their special operands. -/
def Obligations.SpecialFunctions : Prop :=
  Claim.SpecialFunctionsIssue ∧ Claim.SpecialOperands

/-- Accumulator rows and queues from the vector engine. -/
def Obligations.VectorPorts : Prop :=
  Claim.AccumulatorPorts ∧ Claim.VectorQueues

/-- Operations across the members of a lift. -/
def Obligations.LiftMoves : Prop :=
  Claim.LiftMoves

/-- Vector loads and stores of the core's own scratch. -/
def Obligations.VectorMemory : Prop :=
  Claim.VectorMemory ∧ Claim.VectorImages

/-- m.setp and m.getp. -/
def Obligations.MatrixParameters : Prop :=
  Claim.ParameterWrites ∧ Claim.ParameterReads

/-- Matrix commands enter their queue, start and complete. -/
def Obligations.MatrixCommands : Prop :=
  Claim.CallsEnterTheQueue ∧ Claim.AccumulatorCommands ∧ Claim.CallsStart ∧ Claim.CallsComplete ∧ Claim.BankUnload

/-- Copy commands enter their queue or hold. -/
def Obligations.CopyCommands : Prop :=
  Claim.CopyCommandsEnter ∧ Claim.CopyCommandsHeld

/-- The addresses of a copy's rows and how a row is converted. -/
def Obligations.CopyRows : Prop :=
  Claim.RowAddresses ∧ Claim.RowConversions

/-- Copy commands start, issue requests, time out and complete. -/
def Obligations.CopyEngines : Prop :=
  Claim.EngineCommands ∧ Claim.CopyRequests ∧ Claim.CopyTimeouts ∧ Claim.CopyCompletion

/-- Micro-words that step, loop, use queues and signal. -/
def Obligations.MicroControl : Prop :=
  Claim.MicroControl ∧ Claim.MicroQueues ∧ Claim.MicroSignals

/-- Micro-words that load, scale, multiply and write back, and the rows of the pipes. -/
def Obligations.MicroRows : Prop :=
  Claim.MicroLoads ∧ Claim.MicroScales ∧ Claim.MicroProducts ∧ Claim.MicroWriteBack ∧ Claim.MatrixRows

/-- Boot, heat, repair and the key store. -/
def Obligations.FirmwareEvents : Prop :=
  Claim.BootReports ∧ Claim.HeatAndRepair ∧ Claim.KeyCommands ∧ Claim.SignatureVerification

/-- Errors of memories, and halves at rest. -/
def Obligations.SoftErrors : Prop :=
  Claim.SoftErrors ∧ Claim.HalvesAtRest

/-- What writes of firmware's registers and tables change. -/
def Obligations.FirmwareWrites : Prop :=
  Claim.ControlWrites ∧ Claim.TranslationWrites ∧ Claim.RegisterWrites

/-- The host's reads and writes of window D. -/
def Obligations.HostWindows : Prop :=
  Claim.WindowReads ∧ Claim.WindowWrites

/-- Launch queue registers, launch records and function-level resets. -/
def Obligations.LaunchQueues : Prop :=
  Claim.LaunchQueueRegisters ∧ Claim.LaunchRecords ∧ Claim.FunctionResets

/-- Graphs load, records start, nodes are placed and start, tasks are answered. -/
def Obligations.Scheduler : Prop :=
  Claim.ImageFiles ∧ Claim.ImageLimits ∧ Claim.GraphLoads ∧ Claim.RecordsStart ∧ Claim.DispatchOrder ∧ Claim.Placements ∧ Claim.Dispatch ∧
  Claim.PoolMoves ∧ Claim.NodesStart ∧ Claim.TaskInserts ∧ Claim.InstanceNumbers

/-- Roll calls complete, partitions are swapped out and in, failed nodes are dumped. -/
def Obligations.RollCallsSwapsAndDumps : Prop :=
  Claim.RollCalls ∧ Claim.Swaps ∧ Claim.Resumes ∧ Claim.Watchdogs ∧ Claim.Dumps

/-- Traps that wait, stamps that pass, registers that fill, accesses that end, replicas, waits. -/
def Obligations.CoreEvents : Prop :=
  Claim.PendingTraps ∧ Claim.StampOverruns ∧ Claim.ProducersFill ∧ Claim.AccessesEnd ∧ Claim.ReplicaEvents ∧ Claim.WaitsEnd

/-- The pool manager's requests, recasts and migrations. -/
def Obligations.PagesMove : Prop :=
  Claim.PoolRequests ∧ Claim.Recasts ∧ Claim.Migrations

/-- Routers, flow control, requests, answers, inboxes and relays of the fabric. -/
def Obligations.FabricEvents : Prop :=
  Claim.RouterPackets ∧ Claim.FabricFlow ∧ Claim.FabricRequests ∧ Claim.FabricAnswers ∧ Claim.InboxWords ∧ Claim.RelayChunks

/-- Crossbar arbitration, the accesses of a slice, its refresh. -/
def Obligations.CrossbarEvents : Prop :=
  Claim.Arbitration ∧ Claim.SliceAccesses ∧ Claim.SliceRefresh

/-- A step runs the decoded instruction. -/
def Obligations.StepRunsDecodedInstruction : Prop :=
  Claim.SlotIsFetched ∧ Claim.GroupIssues ∧ Claim.OtherTurns

/-- Words written out from the encoding tables decode to the operations they stand for. -/
def Obligations.WordsDecode : Prop :=
  Claim.WordsDecode

/-- Decoding is the inverse of encoding for every well-formed instruction. -/
def Obligations.EncodingRoundTrips : Prop :=
  Claim.EncodingRoundTrips

/-- No step is refused, and only a dump to an unmapped address faults. -/
def Obligations.NoStepRefuses : Prop :=
  Claim.NoStepRefuses

/-- Every step keeps the canonical form of every memory. -/
def Obligations.StepKeepsMemories : Prop :=
  Claim.StepKeepsMemories

/-- The state at reset is canonical and holds the reset values of the rules. -/
def Obligations.ResetState : Prop :=
  Claim.ResetIsCanonical ∧ Claim.ResetValues
end

