-- ==== Sys2Proof/Laws/Elements.lean ====
section
/-!
SUPPORT. Reading an element of a packed register (11_formats R228): the places of elements do not overlap.
-/

namespace Sys2Proof.Machine

/-- The number that holds element i of width w at its place, for i below n. -/
def packSum (w : Nat) (g : Nat → Nat) (n : Nat) : Nat :=
  (List.range n).foldl (fun acc i => acc + g i % 2 ^ w * 2 ^ elemPos w i) 0

theorem packSum_succ (w : Nat) (g : Nat → Nat) (n : Nat) :
    packSum w g (n + 1) = packSum w g n + g n % 2 ^ w * 2 ^ elemPos w n := by
  simp [packSum, List.range_succ, List.foldl_append]

theorem elemPos_step (w n : Nat) : elemPos w n + w ≤ elemPos w (n + 1) := by
  unfold elemPos
  split
  · subst w
    have := Nat.div_add_mod n 21
    have := Nat.div_add_mod (n + 1) 21
    have := Nat.mod_lt n (show 0 < 21 by omega)
    have := Nat.mod_lt (n+1) (show 0 < 21 by omega)
    omega
  · rw [Nat.succ_mul]

theorem elemPos_mono (w : Nat) {i n : Nat} (h : i < n) : elemPos w i + w ≤ elemPos w n := by
  induction n with
  | zero => omega
  | succ n ih =>
    have := elemPos_step w n
    by_cases hi : i = n
    · subst hi; exact this
    · have := ih (by omega); omega

theorem packSum_lt (w : Nat) (g : Nat → Nat) (n : Nat) : packSum w g n < 2 ^ elemPos w n := by
  induction n with
  | zero => simp [packSum]
  | succ n ih =>
    rw [packSum_succ]
    have h1 : g n % 2 ^ w < 2 ^ w := Nat.mod_lt _ (by positivity)
    have h2 : (g n % 2 ^ w + 1) * 2 ^ elemPos w n ≤ 2 ^ w * 2 ^ elemPos w n := Nat.mul_le_mul_right _ h1
    have h3 : 2 ^ w * 2 ^ elemPos w n ≤ 2 ^ elemPos w (n + 1) := by
      rw [← pow_add]; apply Nat.pow_le_pow_right (by omega)
      have := elemPos_step w n; omega
    rw [add_mul, one_mul] at h2
    omega

theorem packSum_get (w : Nat) (g : Nat → Nat) (n j : Nat) (hj : j < n) :
    packSum w g n / 2 ^ elemPos w j % 2 ^ w = g j % 2 ^ w := by
  induction n with
  | zero => omega
  | succ n ih =>
    rw [packSum_succ]
    by_cases h : j = n
    · subst h
      rw [Nat.add_mul_div_right _ _ (by positivity), Nat.div_eq_of_lt (packSum_lt w g j), zero_add, Nat.mod_mod]
    · have hlt : j < n := by omega
      have := elemPos_mono w hlt
      obtain ⟨k, hk⟩ := Nat.exists_eq_add_of_le this
      rw [hk, pow_add, pow_add]
      have e : g n % 2 ^ w * (2 ^ elemPos w j * 2 ^ w * 2 ^ k) = (g n % 2 ^ w * 2 ^ k * 2 ^ w) * 2 ^ elemPos w j := by ring
      rw [e, Nat.add_mul_div_right _ _ (by positivity), Nat.add_mul_mod_self_right]
      exact ih hlt

theorem elemPos_fits (w : Nat) (h : w = 6 ∨ w ∣ 4096) : elemPos w (elemCount w) ≤ 4096 := by
  unfold elemPos elemCount
  split
  · simp
  · rcases h with h | h
    · contradiction
    · rw [Nat.div_mul_cancel h]

/-- Element j of a register packed from elements. -/
theorem getE_packE (w n j : Nat) (g : Nat → Nat) (h : w = 6 ∨ w ∣ 4096) (hn : n ≤ elemCount w)
    (hj : j < n) : getE w j (packE w n g) = g j % 2 ^ w := by
  have hlt : packSum w g n < 2 ^ 4096 := by
    refine lt_of_lt_of_le (packSum_lt w g n) (Nat.pow_le_pow_right (by omega) ?_)
    rcases Nat.lt_or_eq_of_le hn with h' | h'
    · have := elemPos_mono w h'; have := elemPos_fits w h; omega
    · rw [h']; exact elemPos_fits w h
  unfold getE packE
  rw [BitVec.toNat_ofNat]
  have : ((List.range n).foldl (fun acc i => acc + g i % 2 ^ w * 2 ^ elemPos w i) 0) = packSum w g n := rfl
  rw [this, Nat.mod_eq_of_lt hlt]
  exact packSum_get w g n j hj
end Sys2Proof.Machine
end

