-- ==== Sys2Proof/Laws/Lift.lean ====
section
/-!
SUPPORT. What the lifted operations do when no operand carries a tag (10_core R217, R219): one lemma for each of
the shared operations over registers.
-/

namespace Sys2Proof.Machine

theorem Lift.of_zero (l : Lift) : l.of 0#3 = [] := by
  simp [Lift.of, hasTag, bitOf]

theorem Lift.extent_zero (l : Lift) : l.extent 0#3 = 1 := by simp [Lift.extent, Lift.of_zero]

theorem Lift.project_zero (l : Lift) (f : BitVec 3) (m : Nat) : l.project f 0#3 m = 0 := by
  simp [Lift.project, Lift.of_zero, undigits]

theorem Regs.tags_zero (r : Regs) (l : List Opd) (h : ∀ o ∈ l, r.tagOf o = 0#3) : r.tags l = 0#3 := by
  unfold Regs.tags
  have go : ∀ (l : List Opd) (a : BitVec 3), (∀ o ∈ l, r.tagOf o = 0#3) →
      l.foldl (fun a o => a ||| r.tagOf o) a = a := by
    intro l
    induction l with
    | nil => intros; rfl
    | cons o l ih =>
      intro a h
      simp only [List.foldl_cons, h o (by simp), BitVec.or_zero]
      exact ih a fun o ho => h o (by simp [ho])
  exact go l 0#3 h

theorem misnamed_zero (l : Lift) (f : RegFile) (n : Nat) (hn : n < Opd.size f) : misnamed l f n 0#3 = none := by
  have h : nameOk (Opd.size f) n 1 = true := by simp [nameOk, pow2Up]; omega
  simp [misnamed, Lift.extent_zero, h]

theorem badDest_zero (l : Lift) (f : RegFile) (n : Nat) (hn : n < Opd.size f) : badDest l f n 0#3 = none := by
  simp [badDest, misnamed_zero l f n hn]

theorem liftBad_zero (l : Lift) (r : Regs) (os : List Opd) (d : Option Opd)
    (h : ∀ o ∈ os, r.tagOf o = 0#3 ∧ o.n < Opd.size o.file) (hd : ∀ o ∈ d, o.n < Opd.size o.file) :
    liftBad l r os d 0#3 = none := by
  have h1 : os.findSome? (fun o => misnamed l o.file o.n (r.tagOf o)) = none := by
    rw [List.findSome?_eq_none_iff]
    intro o ho
    rw [(h o ho).1]
    exact misnamed_zero l _ _ (h o ho).2
  simp only [liftBad, h1]
  cases d with
  | none => rfl
  | some o => exact badDest_zero l _ _ (hd o rfl)

theorem memberOf_zero (l : Lift) (r : Regs) (o : Opd) (h : r.tagOf o = 0#3) : memberOf l r 0#3 o 0 = o.n := by
  simp [memberOf, h, Lift.project_zero]

theorem overMembers_zero (l : Lift) (act off : Nat → State → State) (s : State) (h : l.live 0#3 0 = true) :
    overMembers l 0#3 act off s = act 0 s := by
  simp [overMembers, Lift.extent_zero, h]

theorem sOpd_lt (n : BitVec 6) : (sOpd n).n < Opd.size (sOpd n).file := by simp [sOpd, Opd.size]; omega
theorem vOpd_lt (n : BitVec 6) : (vOpd n).n < Opd.size (vOpd n).file := by simp [vOpd, Opd.size]; omega
theorem kOpd_lt (n : BitVec 3) : (kOpd n).n < Opd.size (kOpd n).file := by simp [kOpd, Opd.size]; omega

/-- The values that the one member of untagged s registers reads. -/
theorem sValues_zero (s : State) (l : Lift) (srcs : List (BitVec 6)) (h : s.plain srcs) :
    (srcs.map sOpd).map (fun o => s.regs.getS (.ofNat 6 (memberOf l s.regs 0#3 o 0))) = srcs.map s.regs.getS := by
  rw [List.map_map]
  apply List.map_congr_left
  intro n hn
  have h0 : s.regs.tagOf (sOpd n) = 0#3 := h n hn
  simp only [Function.comp]
  rw [memberOf_zero _ _ _ h0]
  simp [sOpd]

theorem plain_tags (s : State) (srcs : List (BitVec 6)) (h : s.plain srcs) :
    s.regs.tags (srcs.map sOpd) = 0#3 := by
  apply Regs.tags_zero
  intro o ho
  simp only [List.mem_map] at ho
  obtain ⟨n, hn, rfl⟩ := ho
  exact h n hn

theorem plain_bad (s : State) (l : Lift) (srcs : List (BitVec 6)) (h : s.plain srcs) (d : Option Opd)
    (hd : ∀ o ∈ d, o.n < Opd.size o.file) : liftBad l s.regs (srcs.map sOpd) d 0#3 = none := by
  apply liftBad_zero _ _ _ _ _ hd
  intro o ho
  simp only [List.mem_map] at ho
  obtain ⟨n, hn, rfl⟩ := ho
  exact ⟨h n hn, sOpd_lt n⟩

/-- An S operation whose sources carry no tag writes g of their values to its destination, and nothing else. -/
theorem sRun_plain (i : Instr) (srcs : List (BitVec 6)) (d : BitVec 6) (g : List W → W) (s : State)
    (ha : s.allows i) (hp : s.plain srcs) (h1 : s.single) :
    sRun i srcs d g s = .next (s.mapRegs fun r => r.setS d (g (srcs.map s.regs.getS))) := by
  unfold sRun withReady
  rw [ha]
  simp only [plain_tags s srcs hp, plain_bad s s.lift srcs hp (some (sOpd d)) (by rintro o ⟨⟩; exact sOpd_lt d),
    overMembers_zero _ _ _ _ h1, sValues_zero s s.lift srcs hp]
  simp

/-- A compare whose sources carry no tag. -/
theorem pRun_plain (i : Instr) (srcs : List (BitVec 6)) (d : BitVec 3) (g : List W → Bool) (s : State)
    (ha : s.allows i) (hp : s.plain srcs) (h1 : s.single) :
    pRun i srcs d g s = .next (s.mapRegs fun r => r.setP d (g (srcs.map s.regs.getS))) := by
  unfold pRun withReady
  rw [ha]
  simp only [plain_tags s srcs hp, plain_bad s s.lift srcs hp (some ⟨.p, d.toNat⟩)
    (by rintro o ⟨⟩; simp [Opd.size]; omega),
    overMembers_zero _ _ _ _ h1, sValues_zero s s.lift srcs hp]
  simp

/-! ### Operations over v, k and s registers -/

theorem plainOps_tags (s : State) (l : List Opd) (h : s.plainOps l) : s.regs.tags l = 0#3 :=
  Regs.tags_zero _ _ h

theorem plainOps_bad (s : State) (l : Lift) (os : List Opd) (h : s.plainOps os) (d : Option Opd)
    (ho : ∀ o ∈ os, o.n < Opd.size o.file) (hd : ∀ o ∈ d, o.n < Opd.size o.file) :
    liftBad l s.regs os d 0#3 = none :=
  liftBad_zero _ _ _ _ (fun o h' => ⟨h o h', ho o h'⟩) hd

theorem vValues_zero (s : State) (l : Lift) (vs : List (BitVec 6)) (h : s.plainOps (vs.map vOpd)) :
    (vs.map vOpd).map (fun o => s.regs.vAt (memberOf l s.regs 0#3 o 0)) = vs.map s.regs.getV := by
  rw [List.map_map]
  apply List.map_congr_left
  intro n hn
  have h0 : s.regs.tagOf (vOpd n) = 0#3 := h _ (List.mem_map_of_mem hn)
  simp only [Function.comp]
  rw [memberOf_zero _ _ _ h0]
  simp [vOpd, Regs.vAt]

theorem sValues_ops (s : State) (l : Lift) (ss : List (BitVec 6)) (h : s.plainOps (ss.map sOpd)) :
    (ss.map sOpd).map (fun o => s.regs.sAt (memberOf l s.regs 0#3 o 0)) = ss.map s.regs.getS := by
  rw [List.map_map]
  apply List.map_congr_left
  intro n hn
  have h0 : s.regs.tagOf (sOpd n) = 0#3 := h _ (List.mem_map_of_mem hn)
  simp only [Function.comp]
  rw [memberOf_zero _ _ _ h0]
  simp [sOpd, Regs.sAt]

theorem kValues_zero (s : State) (l : Lift) (ks : List (BitVec 3)) (h : s.plainOps (ks.map kOpd)) :
    (ks.map kOpd).map (fun o => s.regs.kAt (memberOf l s.regs 0#3 o 0)) = ks.map s.regs.getK := by
  rw [List.map_map]
  apply List.map_congr_left
  intro n hn
  have h0 : s.regs.tagOf (kOpd n) = 0#3 := h _ (List.mem_map_of_mem hn)
  simp only [Function.comp]
  rw [memberOf_zero _ _ _ h0]
  simp [kOpd, Regs.kAt]

theorem maskOpd_lt (s : State) : ∀ o ∈ s.maskOpd, o.n < Opd.size o.file := by
  intro o ho
  unfold State.maskOpd at ho
  split at ho
  · simp at ho
  · simp only [List.mem_singleton] at ho
    subst ho
    exact kOpd_lt _

theorem maskAt_zero (s : State) (l : Lift) (h : s.plainOps s.maskOpd) : s.maskAt l s.regs 0#3 0 = s.maskNow := by
  unfold State.maskAt State.maskNow
  by_cases h0 : s.issue.ctx.mask = 0
  · simp [h0, Regs.getK]
  · have hm : s.regs.tagOf (kOpd s.issue.ctx.mask) = 0#3 := h _ (by unfold State.maskOpd; rw [if_neg h0]; exact List.mem_singleton.mpr rfl)
    simp only [h0, if_false]
    rw [memberOf_zero _ _ _ hm]
    simp [kOpd, Regs.kAt]

/-- The operands of a V operation. -/
def vOperands (s : State) (vs ss : List (BitVec 6)) : List Opd := vs.map vOpd ++ ss.map sOpd ++ s.maskOpd

theorem vOperands_parts {s : State} {vs ss : List (BitVec 6)} (h : s.plainOps (vOperands s vs ss)) :
    s.plainOps (vs.map vOpd) ∧ s.plainOps (ss.map sOpd) ∧ s.plainOps s.maskOpd := by
  refine ⟨fun o ho => h o ?_, fun o ho => h o ?_, fun o ho => h o ?_⟩ <;> simp only [vOperands, List.mem_append] <;>
    first | exact .inl (.inl ho) | exact .inl (.inr ho) | exact .inr ho

theorem vOperands_lt (s : State) (vs ss : List (BitVec 6)) : ∀ o ∈ vOperands s vs ss, o.n < Opd.size o.file := by
  intro o ho
  simp only [vOperands, List.mem_append, List.mem_map] at ho
  rcases ho with (⟨n, -, rfl⟩ | ⟨n, -, rfl⟩) | ho
  · exact vOpd_lt n
  · exact sOpd_lt n
  · exact maskOpd_lt s o ho

theorem VDest_lt (d : VDest) : ∀ o ∈ some d.opd, o.n < Opd.size o.file := by
  rintro o ⟨⟩
  cases d
  · exact vOpd_lt _
  · exact kOpd_lt _
  · exact vOpd_lt _

/-- A V operation without tags: the member's result is g of its operands, and goes where its kind says. -/
theorem vRun_plain (i : Instr) (cls : List VClass) (vs ss : List (BitVec 6)) (d : VDest) (z : Bool)
    (g : VEnv → VReg → List VReg → List W → VReg × Flags) (s : State) (ha : s.allows i)
    (hc : ∀ c ∈ cls, inClass c s.opFmt = true) (hp : s.plainOps (vOperands s vs ss)) (h1 : s.single) :
    vRun i cls vs ss d z g s = .next
      (let r := g (s.venv z s.maskNow) (s.regs.vAt d.opd.n) (vs.map s.regs.getV) (ss.map s.regs.getS)
       match d with
       | .v n => (s.mapRegs fun x => x.setV n r.1).orFlags r.2
       | .k n => (s.mapRegs fun x => x.setK n (r.1.setWidth 1024)).orFlags r.2
       | .sfu n => s.mapCore fun x => { x.onRegs (·.mark .v n .empty) with
           fills := x.fills ++ [⟨.v, n, .value r.1 r.2, s.cyc + 12⟩] }) := by
  obtain ⟨hv, hs, hm⟩ := vOperands_parts hp
  unfold vRun withReady
  rw [ha]
  have hf : (cls.any fun c => !inClass c s.opFmt) = false := by
    rw [List.any_eq_false]
    intro c hc'
    simp [hc c hc']
  have ht := plainOps_tags s _ hp
  have hb := plainOps_bad s s.lift _ hp (some d.opd) (vOperands_lt s vs ss) (VDest_lt d)
  simp only [vOperands] at ht hb
  simp only [hf, ht, hb, Bool.false_eq_true, if_false, overMembers_zero _ _ _ _ h1, maskAt_zero s s.lift hm,
    vValues_zero s s.lift vs hv, sValues_ops s s.lift ss hs]
  cases d <;> simp [VDest.opd, vOpd, kOpd]

/-- A mask operation without tags. -/
theorem kRun_plain (i : Instr) (cls : List VClass) (ks : List (BitVec 3)) (d : Opd)
    (g : Nat → Bool → List KReg → VReg) (s : State) (ha : s.allows i) (hd : d.n < Opd.size d.file)
    (hc : ∀ c ∈ cls, inClass c s.opFmt = true) (hp : s.plainOps (ks.map kOpd)) (h1 : s.single) :
    kRun i cls ks d g s = .next (s.mapRegs fun r => match d.file with
      | .k => r.setK (.ofNat 3 d.n) ((g s.opFmt s.vSat (ks.map s.regs.getK)).setWidth 1024)
      | _ => r.setV (.ofNat 6 d.n) (g s.opFmt s.vSat (ks.map s.regs.getK))) := by
  unfold kRun withReady
  rw [ha]
  have hf : (cls.any fun c => !inClass c s.opFmt) = false := by
    rw [List.any_eq_false]
    intro c hc'
    simp [hc c hc']
  have hk : ∀ o ∈ ks.map kOpd, o.n < Opd.size o.file := by
    intro o ho
    simp only [List.mem_map] at ho
    obtain ⟨n, -, rfl⟩ := ho
    exact kOpd_lt n
  simp only [hf, plainOps_tags s _ hp, plainOps_bad s s.lift _ hp (some d) hk (by rintro o ⟨⟩; exact hd),
    Bool.false_eq_true, if_false, overMembers_zero _ _ _ _ h1, kValues_zero s s.lift ks hp]
  simp only [Nat.add_zero]
  congr 1

end Sys2Proof.Machine
end

