-- ==== Sys2Proof/Laws/State.lean ====
section
/-!
SUPPORT. What each named update of the state leaves alone: one lemma for each field and update, and what each core,
partition, die and register reads after it.
-/

namespace Sys2Proof.Machine

variable (s : State)

/-! ### State.setCoreAt -/

@[simp] theorem State.setCoreAt_ms (c : CoreId) (x : Core) : (s.setCoreAt c x).ms = s.ms := rfl
@[simp] theorem State.setCoreAt_parts (c : CoreId) (x : Core) : (s.setCoreAt c x).parts = s.parts := rfl
@[simp] theorem State.setCoreAt_xbar (c : CoreId) (x : Core) : (s.setCoreAt c x).xbar = s.xbar := rfl
@[simp] theorem State.setCoreAt_fab (c : CoreId) (x : Core) : (s.setCoreAt c x).fab = s.fab := rfl
@[simp] theorem State.setCoreAt_host (c : CoreId) (x : Core) : (s.setCoreAt c x).host = s.host := rfl
@[simp] theorem State.setCoreAt_sched (c : CoreId) (x : Core) : (s.setCoreAt c x).sched = s.sched := rfl
@[simp] theorem State.setCoreAt_fw (c : CoreId) (x : Core) : (s.setCoreAt c x).fw = s.fw := rfl
@[simp] theorem State.setCoreAt_satchels (c : CoreId) (x : Core) : (s.setCoreAt c x).satchels = s.satchels := rfl
@[simp] theorem State.setCoreAt_cyc (c : CoreId) (x : Core) : (s.setCoreAt c x).cyc = s.cyc := rfl
@[simp] theorem State.setCoreAt_nextId (c : CoreId) (x : Core) : (s.setCoreAt c x).nextId = s.nextId := rfl
@[simp] theorem State.setCoreAt_cur (c : CoreId) (x : Core) : (s.setCoreAt c x).cur = s.cur := rfl
@[simp] theorem State.setCoreAt_order (c : CoreId) (x : Core) : (s.setCoreAt c x).order = s.order := rfl
@[simp] theorem State.setCoreAt_inp (c : CoreId) (x : Core) : (s.setCoreAt c x).inp = s.inp := rfl
@[simp] theorem State.setCoreAt_issue (c : CoreId) (x : Core) : (s.setCoreAt c x).issue = s.issue := rfl
@[simp] theorem State.setCoreAt_freeCtr (c : CoreId) (x : Core) : (s.setCoreAt c x).freeCtr = s.freeCtr := rfl

/-! ### State.onCore -/

@[simp] theorem State.onCore_ms (c : CoreId) (f : Core → Core) : (s.onCore c f).ms = s.ms := rfl
@[simp] theorem State.onCore_parts (c : CoreId) (f : Core → Core) : (s.onCore c f).parts = s.parts := rfl
@[simp] theorem State.onCore_xbar (c : CoreId) (f : Core → Core) : (s.onCore c f).xbar = s.xbar := rfl
@[simp] theorem State.onCore_fab (c : CoreId) (f : Core → Core) : (s.onCore c f).fab = s.fab := rfl
@[simp] theorem State.onCore_host (c : CoreId) (f : Core → Core) : (s.onCore c f).host = s.host := rfl
@[simp] theorem State.onCore_sched (c : CoreId) (f : Core → Core) : (s.onCore c f).sched = s.sched := rfl
@[simp] theorem State.onCore_fw (c : CoreId) (f : Core → Core) : (s.onCore c f).fw = s.fw := rfl
@[simp] theorem State.onCore_satchels (c : CoreId) (f : Core → Core) : (s.onCore c f).satchels = s.satchels := rfl
@[simp] theorem State.onCore_cyc (c : CoreId) (f : Core → Core) : (s.onCore c f).cyc = s.cyc := rfl
@[simp] theorem State.onCore_nextId (c : CoreId) (f : Core → Core) : (s.onCore c f).nextId = s.nextId := rfl
@[simp] theorem State.onCore_cur (c : CoreId) (f : Core → Core) : (s.onCore c f).cur = s.cur := rfl
@[simp] theorem State.onCore_order (c : CoreId) (f : Core → Core) : (s.onCore c f).order = s.order := rfl
@[simp] theorem State.onCore_inp (c : CoreId) (f : Core → Core) : (s.onCore c f).inp = s.inp := rfl
@[simp] theorem State.onCore_issue (c : CoreId) (f : Core → Core) : (s.onCore c f).issue = s.issue := rfl
@[simp] theorem State.onCore_freeCtr (c : CoreId) (f : Core → Core) : (s.onCore c f).freeCtr = s.freeCtr := rfl

/-! ### State.setCore -/

@[simp] theorem State.setCore_ms (x : Core) : (s.setCore x).ms = s.ms := rfl
@[simp] theorem State.setCore_parts (x : Core) : (s.setCore x).parts = s.parts := rfl
@[simp] theorem State.setCore_xbar (x : Core) : (s.setCore x).xbar = s.xbar := rfl
@[simp] theorem State.setCore_fab (x : Core) : (s.setCore x).fab = s.fab := rfl
@[simp] theorem State.setCore_host (x : Core) : (s.setCore x).host = s.host := rfl
@[simp] theorem State.setCore_sched (x : Core) : (s.setCore x).sched = s.sched := rfl
@[simp] theorem State.setCore_fw (x : Core) : (s.setCore x).fw = s.fw := rfl
@[simp] theorem State.setCore_satchels (x : Core) : (s.setCore x).satchels = s.satchels := rfl
@[simp] theorem State.setCore_cyc (x : Core) : (s.setCore x).cyc = s.cyc := rfl
@[simp] theorem State.setCore_nextId (x : Core) : (s.setCore x).nextId = s.nextId := rfl
@[simp] theorem State.setCore_cur (x : Core) : (s.setCore x).cur = s.cur := rfl
@[simp] theorem State.setCore_order (x : Core) : (s.setCore x).order = s.order := rfl
@[simp] theorem State.setCore_inp (x : Core) : (s.setCore x).inp = s.inp := rfl
@[simp] theorem State.setCore_issue (x : Core) : (s.setCore x).issue = s.issue := rfl
@[simp] theorem State.setCore_freeCtr (x : Core) : (s.setCore x).freeCtr = s.freeCtr := rfl

/-! ### State.mapCore -/

@[simp] theorem State.mapCore_ms (f : Core → Core) : (s.mapCore f).ms = s.ms := rfl
@[simp] theorem State.mapCore_parts (f : Core → Core) : (s.mapCore f).parts = s.parts := rfl
@[simp] theorem State.mapCore_xbar (f : Core → Core) : (s.mapCore f).xbar = s.xbar := rfl
@[simp] theorem State.mapCore_fab (f : Core → Core) : (s.mapCore f).fab = s.fab := rfl
@[simp] theorem State.mapCore_host (f : Core → Core) : (s.mapCore f).host = s.host := rfl
@[simp] theorem State.mapCore_sched (f : Core → Core) : (s.mapCore f).sched = s.sched := rfl
@[simp] theorem State.mapCore_fw (f : Core → Core) : (s.mapCore f).fw = s.fw := rfl
@[simp] theorem State.mapCore_satchels (f : Core → Core) : (s.mapCore f).satchels = s.satchels := rfl
@[simp] theorem State.mapCore_cyc (f : Core → Core) : (s.mapCore f).cyc = s.cyc := rfl
@[simp] theorem State.mapCore_nextId (f : Core → Core) : (s.mapCore f).nextId = s.nextId := rfl
@[simp] theorem State.mapCore_cur (f : Core → Core) : (s.mapCore f).cur = s.cur := rfl
@[simp] theorem State.mapCore_order (f : Core → Core) : (s.mapCore f).order = s.order := rfl
@[simp] theorem State.mapCore_inp (f : Core → Core) : (s.mapCore f).inp = s.inp := rfl
@[simp] theorem State.mapCore_issue (f : Core → Core) : (s.mapCore f).issue = s.issue := rfl
@[simp] theorem State.mapCore_freeCtr (f : Core → Core) : (s.mapCore f).freeCtr = s.freeCtr := rfl

/-! ### State.onCores -/

@[simp] theorem State.onCores_ms (p : CoreId → Core → Bool) (f : Core → Core) : (s.onCores p f).ms = s.ms := by simp only [State.onCores]
@[simp] theorem State.onCores_parts (p : CoreId → Core → Bool) (f : Core → Core) : (s.onCores p f).parts = s.parts := by simp only [State.onCores]
@[simp] theorem State.onCores_xbar (p : CoreId → Core → Bool) (f : Core → Core) : (s.onCores p f).xbar = s.xbar := by simp only [State.onCores]
@[simp] theorem State.onCores_fab (p : CoreId → Core → Bool) (f : Core → Core) : (s.onCores p f).fab = s.fab := by simp only [State.onCores]
@[simp] theorem State.onCores_host (p : CoreId → Core → Bool) (f : Core → Core) : (s.onCores p f).host = s.host := by simp only [State.onCores]
@[simp] theorem State.onCores_sched (p : CoreId → Core → Bool) (f : Core → Core) : (s.onCores p f).sched = s.sched := by simp only [State.onCores]
@[simp] theorem State.onCores_fw (p : CoreId → Core → Bool) (f : Core → Core) : (s.onCores p f).fw = s.fw := by simp only [State.onCores]
@[simp] theorem State.onCores_satchels (p : CoreId → Core → Bool) (f : Core → Core) : (s.onCores p f).satchels = s.satchels := by simp only [State.onCores]
@[simp] theorem State.onCores_cyc (p : CoreId → Core → Bool) (f : Core → Core) : (s.onCores p f).cyc = s.cyc := by simp only [State.onCores]
@[simp] theorem State.onCores_nextId (p : CoreId → Core → Bool) (f : Core → Core) : (s.onCores p f).nextId = s.nextId := by simp only [State.onCores]
@[simp] theorem State.onCores_cur (p : CoreId → Core → Bool) (f : Core → Core) : (s.onCores p f).cur = s.cur := by simp only [State.onCores]
@[simp] theorem State.onCores_order (p : CoreId → Core → Bool) (f : Core → Core) : (s.onCores p f).order = s.order := by simp only [State.onCores]
@[simp] theorem State.onCores_inp (p : CoreId → Core → Bool) (f : Core → Core) : (s.onCores p f).inp = s.inp := by simp only [State.onCores]
@[simp] theorem State.onCores_issue (p : CoreId → Core → Bool) (f : Core → Core) : (s.onCores p f).issue = s.issue := by simp only [State.onCores]
@[simp] theorem State.onCores_freeCtr (p : CoreId → Core → Bool) (f : Core → Core) : (s.onCores p f).freeCtr = s.freeCtr := by simp only [State.onCores]

/-! ### State.mapRegs -/

@[simp] theorem State.mapRegs_ms (f : Regs → Regs) : (s.mapRegs f).ms = s.ms := rfl
@[simp] theorem State.mapRegs_parts (f : Regs → Regs) : (s.mapRegs f).parts = s.parts := rfl
@[simp] theorem State.mapRegs_xbar (f : Regs → Regs) : (s.mapRegs f).xbar = s.xbar := rfl
@[simp] theorem State.mapRegs_fab (f : Regs → Regs) : (s.mapRegs f).fab = s.fab := rfl
@[simp] theorem State.mapRegs_host (f : Regs → Regs) : (s.mapRegs f).host = s.host := rfl
@[simp] theorem State.mapRegs_sched (f : Regs → Regs) : (s.mapRegs f).sched = s.sched := rfl
@[simp] theorem State.mapRegs_fw (f : Regs → Regs) : (s.mapRegs f).fw = s.fw := rfl
@[simp] theorem State.mapRegs_satchels (f : Regs → Regs) : (s.mapRegs f).satchels = s.satchels := rfl
@[simp] theorem State.mapRegs_cyc (f : Regs → Regs) : (s.mapRegs f).cyc = s.cyc := rfl
@[simp] theorem State.mapRegs_nextId (f : Regs → Regs) : (s.mapRegs f).nextId = s.nextId := rfl
@[simp] theorem State.mapRegs_cur (f : Regs → Regs) : (s.mapRegs f).cur = s.cur := rfl
@[simp] theorem State.mapRegs_order (f : Regs → Regs) : (s.mapRegs f).order = s.order := rfl
@[simp] theorem State.mapRegs_inp (f : Regs → Regs) : (s.mapRegs f).inp = s.inp := rfl
@[simp] theorem State.mapRegs_issue (f : Regs → Regs) : (s.mapRegs f).issue = s.issue := rfl
@[simp] theorem State.mapRegs_freeCtr (f : Regs → Regs) : (s.mapRegs f).freeCtr = s.freeCtr := rfl

/-! ### State.mapCsr -/

@[simp] theorem State.mapCsr_ms (f : Csr → Csr) : (s.mapCsr f).ms = s.ms := rfl
@[simp] theorem State.mapCsr_parts (f : Csr → Csr) : (s.mapCsr f).parts = s.parts := rfl
@[simp] theorem State.mapCsr_xbar (f : Csr → Csr) : (s.mapCsr f).xbar = s.xbar := rfl
@[simp] theorem State.mapCsr_fab (f : Csr → Csr) : (s.mapCsr f).fab = s.fab := rfl
@[simp] theorem State.mapCsr_host (f : Csr → Csr) : (s.mapCsr f).host = s.host := rfl
@[simp] theorem State.mapCsr_sched (f : Csr → Csr) : (s.mapCsr f).sched = s.sched := rfl
@[simp] theorem State.mapCsr_fw (f : Csr → Csr) : (s.mapCsr f).fw = s.fw := rfl
@[simp] theorem State.mapCsr_satchels (f : Csr → Csr) : (s.mapCsr f).satchels = s.satchels := rfl
@[simp] theorem State.mapCsr_cyc (f : Csr → Csr) : (s.mapCsr f).cyc = s.cyc := rfl
@[simp] theorem State.mapCsr_nextId (f : Csr → Csr) : (s.mapCsr f).nextId = s.nextId := rfl
@[simp] theorem State.mapCsr_cur (f : Csr → Csr) : (s.mapCsr f).cur = s.cur := rfl
@[simp] theorem State.mapCsr_order (f : Csr → Csr) : (s.mapCsr f).order = s.order := rfl
@[simp] theorem State.mapCsr_inp (f : Csr → Csr) : (s.mapCsr f).inp = s.inp := rfl
@[simp] theorem State.mapCsr_issue (f : Csr → Csr) : (s.mapCsr f).issue = s.issue := rfl
@[simp] theorem State.mapCsr_freeCtr (f : Csr → Csr) : (s.mapCsr f).freeCtr = s.freeCtr := rfl

/-! ### State.mapSeq -/

@[simp] theorem State.mapSeq_ms (f : Seq → Seq) : (s.mapSeq f).ms = s.ms := rfl
@[simp] theorem State.mapSeq_parts (f : Seq → Seq) : (s.mapSeq f).parts = s.parts := rfl
@[simp] theorem State.mapSeq_xbar (f : Seq → Seq) : (s.mapSeq f).xbar = s.xbar := rfl
@[simp] theorem State.mapSeq_fab (f : Seq → Seq) : (s.mapSeq f).fab = s.fab := rfl
@[simp] theorem State.mapSeq_host (f : Seq → Seq) : (s.mapSeq f).host = s.host := rfl
@[simp] theorem State.mapSeq_sched (f : Seq → Seq) : (s.mapSeq f).sched = s.sched := rfl
@[simp] theorem State.mapSeq_fw (f : Seq → Seq) : (s.mapSeq f).fw = s.fw := rfl
@[simp] theorem State.mapSeq_satchels (f : Seq → Seq) : (s.mapSeq f).satchels = s.satchels := rfl
@[simp] theorem State.mapSeq_cyc (f : Seq → Seq) : (s.mapSeq f).cyc = s.cyc := rfl
@[simp] theorem State.mapSeq_nextId (f : Seq → Seq) : (s.mapSeq f).nextId = s.nextId := rfl
@[simp] theorem State.mapSeq_cur (f : Seq → Seq) : (s.mapSeq f).cur = s.cur := rfl
@[simp] theorem State.mapSeq_order (f : Seq → Seq) : (s.mapSeq f).order = s.order := rfl
@[simp] theorem State.mapSeq_inp (f : Seq → Seq) : (s.mapSeq f).inp = s.inp := rfl
@[simp] theorem State.mapSeq_issue (f : Seq → Seq) : (s.mapSeq f).issue = s.issue := rfl
@[simp] theorem State.mapSeq_freeCtr (f : Seq → Seq) : (s.mapSeq f).freeCtr = s.freeCtr := rfl

/-! ### State.onPart -/

@[simp] theorem State.onPart_cores (p : PartId) (f : Part → Part) : (s.onPart p f).cores = s.cores := rfl
@[simp] theorem State.onPart_ms (p : PartId) (f : Part → Part) : (s.onPart p f).ms = s.ms := rfl
@[simp] theorem State.onPart_xbar (p : PartId) (f : Part → Part) : (s.onPart p f).xbar = s.xbar := rfl
@[simp] theorem State.onPart_fab (p : PartId) (f : Part → Part) : (s.onPart p f).fab = s.fab := rfl
@[simp] theorem State.onPart_host (p : PartId) (f : Part → Part) : (s.onPart p f).host = s.host := rfl
@[simp] theorem State.onPart_sched (p : PartId) (f : Part → Part) : (s.onPart p f).sched = s.sched := rfl
@[simp] theorem State.onPart_fw (p : PartId) (f : Part → Part) : (s.onPart p f).fw = s.fw := rfl
@[simp] theorem State.onPart_satchels (p : PartId) (f : Part → Part) : (s.onPart p f).satchels = s.satchels := rfl
@[simp] theorem State.onPart_cyc (p : PartId) (f : Part → Part) : (s.onPart p f).cyc = s.cyc := rfl
@[simp] theorem State.onPart_nextId (p : PartId) (f : Part → Part) : (s.onPart p f).nextId = s.nextId := rfl
@[simp] theorem State.onPart_cur (p : PartId) (f : Part → Part) : (s.onPart p f).cur = s.cur := rfl
@[simp] theorem State.onPart_order (p : PartId) (f : Part → Part) : (s.onPart p f).order = s.order := rfl
@[simp] theorem State.onPart_inp (p : PartId) (f : Part → Part) : (s.onPart p f).inp = s.inp := rfl
@[simp] theorem State.onPart_issue (p : PartId) (f : Part → Part) : (s.onPart p f).issue = s.issue := rfl
@[simp] theorem State.onPart_freeCtr (p : PartId) (f : Part → Part) : (s.onPart p f).freeCtr = s.freeCtr := rfl

/-! ### State.onXbar -/

@[simp] theorem State.onXbar_cores (d : Die) (f : Xbar → Xbar) : (s.onXbar d f).cores = s.cores := rfl
@[simp] theorem State.onXbar_ms (d : Die) (f : Xbar → Xbar) : (s.onXbar d f).ms = s.ms := rfl
@[simp] theorem State.onXbar_parts (d : Die) (f : Xbar → Xbar) : (s.onXbar d f).parts = s.parts := rfl
@[simp] theorem State.onXbar_fab (d : Die) (f : Xbar → Xbar) : (s.onXbar d f).fab = s.fab := rfl
@[simp] theorem State.onXbar_host (d : Die) (f : Xbar → Xbar) : (s.onXbar d f).host = s.host := rfl
@[simp] theorem State.onXbar_sched (d : Die) (f : Xbar → Xbar) : (s.onXbar d f).sched = s.sched := rfl
@[simp] theorem State.onXbar_fw (d : Die) (f : Xbar → Xbar) : (s.onXbar d f).fw = s.fw := rfl
@[simp] theorem State.onXbar_satchels (d : Die) (f : Xbar → Xbar) : (s.onXbar d f).satchels = s.satchels := rfl
@[simp] theorem State.onXbar_cyc (d : Die) (f : Xbar → Xbar) : (s.onXbar d f).cyc = s.cyc := rfl
@[simp] theorem State.onXbar_nextId (d : Die) (f : Xbar → Xbar) : (s.onXbar d f).nextId = s.nextId := rfl
@[simp] theorem State.onXbar_cur (d : Die) (f : Xbar → Xbar) : (s.onXbar d f).cur = s.cur := rfl
@[simp] theorem State.onXbar_order (d : Die) (f : Xbar → Xbar) : (s.onXbar d f).order = s.order := rfl
@[simp] theorem State.onXbar_inp (d : Die) (f : Xbar → Xbar) : (s.onXbar d f).inp = s.inp := rfl
@[simp] theorem State.onXbar_issue (d : Die) (f : Xbar → Xbar) : (s.onXbar d f).issue = s.issue := rfl
@[simp] theorem State.onXbar_freeCtr (d : Die) (f : Xbar → Xbar) : (s.onXbar d f).freeCtr = s.freeCtr := rfl

/-! ### State.onFab -/

@[simp] theorem State.onFab_cores (d : Die) (f : Fabric → Fabric) : (s.onFab d f).cores = s.cores := rfl
@[simp] theorem State.onFab_ms (d : Die) (f : Fabric → Fabric) : (s.onFab d f).ms = s.ms := rfl
@[simp] theorem State.onFab_parts (d : Die) (f : Fabric → Fabric) : (s.onFab d f).parts = s.parts := rfl
@[simp] theorem State.onFab_xbar (d : Die) (f : Fabric → Fabric) : (s.onFab d f).xbar = s.xbar := rfl
@[simp] theorem State.onFab_host (d : Die) (f : Fabric → Fabric) : (s.onFab d f).host = s.host := rfl
@[simp] theorem State.onFab_sched (d : Die) (f : Fabric → Fabric) : (s.onFab d f).sched = s.sched := rfl
@[simp] theorem State.onFab_fw (d : Die) (f : Fabric → Fabric) : (s.onFab d f).fw = s.fw := rfl
@[simp] theorem State.onFab_satchels (d : Die) (f : Fabric → Fabric) : (s.onFab d f).satchels = s.satchels := rfl
@[simp] theorem State.onFab_cyc (d : Die) (f : Fabric → Fabric) : (s.onFab d f).cyc = s.cyc := rfl
@[simp] theorem State.onFab_nextId (d : Die) (f : Fabric → Fabric) : (s.onFab d f).nextId = s.nextId := rfl
@[simp] theorem State.onFab_cur (d : Die) (f : Fabric → Fabric) : (s.onFab d f).cur = s.cur := rfl
@[simp] theorem State.onFab_order (d : Die) (f : Fabric → Fabric) : (s.onFab d f).order = s.order := rfl
@[simp] theorem State.onFab_inp (d : Die) (f : Fabric → Fabric) : (s.onFab d f).inp = s.inp := rfl
@[simp] theorem State.onFab_issue (d : Die) (f : Fabric → Fabric) : (s.onFab d f).issue = s.issue := rfl
@[simp] theorem State.onFab_freeCtr (d : Die) (f : Fabric → Fabric) : (s.onFab d f).freeCtr = s.freeCtr := rfl

/-! ### State.onVf -/

@[simp] theorem State.onVf_cores (p : PartId) (f : Vf → Vf) : (s.onVf p f).cores = s.cores := rfl
@[simp] theorem State.onVf_ms (p : PartId) (f : Vf → Vf) : (s.onVf p f).ms = s.ms := rfl
@[simp] theorem State.onVf_parts (p : PartId) (f : Vf → Vf) : (s.onVf p f).parts = s.parts := rfl
@[simp] theorem State.onVf_xbar (p : PartId) (f : Vf → Vf) : (s.onVf p f).xbar = s.xbar := rfl
@[simp] theorem State.onVf_fab (p : PartId) (f : Vf → Vf) : (s.onVf p f).fab = s.fab := rfl
@[simp] theorem State.onVf_sched (p : PartId) (f : Vf → Vf) : (s.onVf p f).sched = s.sched := rfl
@[simp] theorem State.onVf_fw (p : PartId) (f : Vf → Vf) : (s.onVf p f).fw = s.fw := rfl
@[simp] theorem State.onVf_satchels (p : PartId) (f : Vf → Vf) : (s.onVf p f).satchels = s.satchels := rfl
@[simp] theorem State.onVf_cyc (p : PartId) (f : Vf → Vf) : (s.onVf p f).cyc = s.cyc := rfl
@[simp] theorem State.onVf_nextId (p : PartId) (f : Vf → Vf) : (s.onVf p f).nextId = s.nextId := rfl
@[simp] theorem State.onVf_cur (p : PartId) (f : Vf → Vf) : (s.onVf p f).cur = s.cur := rfl
@[simp] theorem State.onVf_order (p : PartId) (f : Vf → Vf) : (s.onVf p f).order = s.order := rfl
@[simp] theorem State.onVf_inp (p : PartId) (f : Vf → Vf) : (s.onVf p f).inp = s.inp := rfl
@[simp] theorem State.onVf_issue (p : PartId) (f : Vf → Vf) : (s.onVf p f).issue = s.issue := rfl
@[simp] theorem State.onVf_freeCtr (p : PartId) (f : Vf → Vf) : (s.onVf p f).freeCtr = s.freeCtr := rfl

/-! ### State.onQueue -/

@[simp] theorem State.onQueue_cores (p : PartId) (q : Fin 16) (f : LQueue → LQueue) : (s.onQueue p q f).cores = s.cores := rfl
@[simp] theorem State.onQueue_ms (p : PartId) (q : Fin 16) (f : LQueue → LQueue) : (s.onQueue p q f).ms = s.ms := rfl
@[simp] theorem State.onQueue_parts (p : PartId) (q : Fin 16) (f : LQueue → LQueue) : (s.onQueue p q f).parts = s.parts := rfl
@[simp] theorem State.onQueue_xbar (p : PartId) (q : Fin 16) (f : LQueue → LQueue) : (s.onQueue p q f).xbar = s.xbar := rfl
@[simp] theorem State.onQueue_fab (p : PartId) (q : Fin 16) (f : LQueue → LQueue) : (s.onQueue p q f).fab = s.fab := rfl
@[simp] theorem State.onQueue_sched (p : PartId) (q : Fin 16) (f : LQueue → LQueue) : (s.onQueue p q f).sched = s.sched := rfl
@[simp] theorem State.onQueue_fw (p : PartId) (q : Fin 16) (f : LQueue → LQueue) : (s.onQueue p q f).fw = s.fw := rfl
@[simp] theorem State.onQueue_satchels (p : PartId) (q : Fin 16) (f : LQueue → LQueue) : (s.onQueue p q f).satchels = s.satchels := rfl
@[simp] theorem State.onQueue_cyc (p : PartId) (q : Fin 16) (f : LQueue → LQueue) : (s.onQueue p q f).cyc = s.cyc := rfl
@[simp] theorem State.onQueue_nextId (p : PartId) (q : Fin 16) (f : LQueue → LQueue) : (s.onQueue p q f).nextId = s.nextId := rfl
@[simp] theorem State.onQueue_cur (p : PartId) (q : Fin 16) (f : LQueue → LQueue) : (s.onQueue p q f).cur = s.cur := rfl
@[simp] theorem State.onQueue_order (p : PartId) (q : Fin 16) (f : LQueue → LQueue) : (s.onQueue p q f).order = s.order := rfl
@[simp] theorem State.onQueue_inp (p : PartId) (q : Fin 16) (f : LQueue → LQueue) : (s.onQueue p q f).inp = s.inp := rfl
@[simp] theorem State.onQueue_issue (p : PartId) (q : Fin 16) (f : LQueue → LQueue) : (s.onQueue p q f).issue = s.issue := rfl
@[simp] theorem State.onQueue_freeCtr (p : PartId) (q : Fin 16) (f : LQueue → LQueue) : (s.onQueue p q f).freeCtr = s.freeCtr := rfl

/-! ### State.onSched -/

@[simp] theorem State.onSched_cores (f : Sched → Sched) : (s.onSched f).cores = s.cores := rfl
@[simp] theorem State.onSched_ms (f : Sched → Sched) : (s.onSched f).ms = s.ms := rfl
@[simp] theorem State.onSched_parts (f : Sched → Sched) : (s.onSched f).parts = s.parts := rfl
@[simp] theorem State.onSched_xbar (f : Sched → Sched) : (s.onSched f).xbar = s.xbar := rfl
@[simp] theorem State.onSched_fab (f : Sched → Sched) : (s.onSched f).fab = s.fab := rfl
@[simp] theorem State.onSched_host (f : Sched → Sched) : (s.onSched f).host = s.host := rfl
@[simp] theorem State.onSched_fw (f : Sched → Sched) : (s.onSched f).fw = s.fw := rfl
@[simp] theorem State.onSched_satchels (f : Sched → Sched) : (s.onSched f).satchels = s.satchels := rfl
@[simp] theorem State.onSched_cyc (f : Sched → Sched) : (s.onSched f).cyc = s.cyc := rfl
@[simp] theorem State.onSched_nextId (f : Sched → Sched) : (s.onSched f).nextId = s.nextId := rfl
@[simp] theorem State.onSched_cur (f : Sched → Sched) : (s.onSched f).cur = s.cur := rfl
@[simp] theorem State.onSched_order (f : Sched → Sched) : (s.onSched f).order = s.order := rfl
@[simp] theorem State.onSched_inp (f : Sched → Sched) : (s.onSched f).inp = s.inp := rfl
@[simp] theorem State.onSched_issue (f : Sched → Sched) : (s.onSched f).issue = s.issue := rfl
@[simp] theorem State.onSched_freeCtr (f : Sched → Sched) : (s.onSched f).freeCtr = s.freeCtr := rfl

/-! ### State.onTele -/

@[simp] theorem State.onTele_cores (f : Telemetry → Telemetry) : (s.onTele f).cores = s.cores := rfl
@[simp] theorem State.onTele_ms (f : Telemetry → Telemetry) : (s.onTele f).ms = s.ms := rfl
@[simp] theorem State.onTele_parts (f : Telemetry → Telemetry) : (s.onTele f).parts = s.parts := rfl
@[simp] theorem State.onTele_xbar (f : Telemetry → Telemetry) : (s.onTele f).xbar = s.xbar := rfl
@[simp] theorem State.onTele_fab (f : Telemetry → Telemetry) : (s.onTele f).fab = s.fab := rfl
@[simp] theorem State.onTele_host (f : Telemetry → Telemetry) : (s.onTele f).host = s.host := rfl
@[simp] theorem State.onTele_sched (f : Telemetry → Telemetry) : (s.onTele f).sched = s.sched := rfl
@[simp] theorem State.onTele_satchels (f : Telemetry → Telemetry) : (s.onTele f).satchels = s.satchels := rfl
@[simp] theorem State.onTele_cyc (f : Telemetry → Telemetry) : (s.onTele f).cyc = s.cyc := rfl
@[simp] theorem State.onTele_nextId (f : Telemetry → Telemetry) : (s.onTele f).nextId = s.nextId := rfl
@[simp] theorem State.onTele_cur (f : Telemetry → Telemetry) : (s.onTele f).cur = s.cur := rfl
@[simp] theorem State.onTele_order (f : Telemetry → Telemetry) : (s.onTele f).order = s.order := rfl
@[simp] theorem State.onTele_inp (f : Telemetry → Telemetry) : (s.onTele f).inp = s.inp := rfl
@[simp] theorem State.onTele_issue (f : Telemetry → Telemetry) : (s.onTele f).issue = s.issue := rfl
@[simp] theorem State.onTele_freeCtr (f : Telemetry → Telemetry) : (s.onTele f).freeCtr = s.freeCtr := rfl

/-! ### State.onInst -/

@[simp] theorem State.onInst_cores (i : Nat) (f : Inst → Inst) : (s.onInst i f).cores = s.cores := rfl
@[simp] theorem State.onInst_ms (i : Nat) (f : Inst → Inst) : (s.onInst i f).ms = s.ms := rfl
@[simp] theorem State.onInst_parts (i : Nat) (f : Inst → Inst) : (s.onInst i f).parts = s.parts := rfl
@[simp] theorem State.onInst_xbar (i : Nat) (f : Inst → Inst) : (s.onInst i f).xbar = s.xbar := rfl
@[simp] theorem State.onInst_fab (i : Nat) (f : Inst → Inst) : (s.onInst i f).fab = s.fab := rfl
@[simp] theorem State.onInst_host (i : Nat) (f : Inst → Inst) : (s.onInst i f).host = s.host := rfl
@[simp] theorem State.onInst_fw (i : Nat) (f : Inst → Inst) : (s.onInst i f).fw = s.fw := rfl
@[simp] theorem State.onInst_satchels (i : Nat) (f : Inst → Inst) : (s.onInst i f).satchels = s.satchels := rfl
@[simp] theorem State.onInst_cyc (i : Nat) (f : Inst → Inst) : (s.onInst i f).cyc = s.cyc := rfl
@[simp] theorem State.onInst_nextId (i : Nat) (f : Inst → Inst) : (s.onInst i f).nextId = s.nextId := rfl
@[simp] theorem State.onInst_cur (i : Nat) (f : Inst → Inst) : (s.onInst i f).cur = s.cur := rfl
@[simp] theorem State.onInst_order (i : Nat) (f : Inst → Inst) : (s.onInst i f).order = s.order := rfl
@[simp] theorem State.onInst_inp (i : Nat) (f : Inst → Inst) : (s.onInst i f).inp = s.inp := rfl
@[simp] theorem State.onInst_issue (i : Nat) (f : Inst → Inst) : (s.onInst i f).issue = s.issue := rfl
@[simp] theorem State.onInst_freeCtr (i : Nat) (f : Inst → Inst) : (s.onInst i f).freeCtr = s.freeCtr := rfl

/-! ### State.onMem -/

@[simp] theorem State.onMem_cores (f : Memory → Memory) : (s.onMem f).cores = s.cores := rfl
@[simp] theorem State.onMem_parts (f : Memory → Memory) : (s.onMem f).parts = s.parts := rfl
@[simp] theorem State.onMem_xbar (f : Memory → Memory) : (s.onMem f).xbar = s.xbar := rfl
@[simp] theorem State.onMem_fab (f : Memory → Memory) : (s.onMem f).fab = s.fab := rfl
@[simp] theorem State.onMem_host (f : Memory → Memory) : (s.onMem f).host = s.host := rfl
@[simp] theorem State.onMem_sched (f : Memory → Memory) : (s.onMem f).sched = s.sched := rfl
@[simp] theorem State.onMem_fw (f : Memory → Memory) : (s.onMem f).fw = s.fw := rfl
@[simp] theorem State.onMem_satchels (f : Memory → Memory) : (s.onMem f).satchels = s.satchels := rfl
@[simp] theorem State.onMem_cyc (f : Memory → Memory) : (s.onMem f).cyc = s.cyc := rfl
@[simp] theorem State.onMem_nextId (f : Memory → Memory) : (s.onMem f).nextId = s.nextId := rfl
@[simp] theorem State.onMem_cur (f : Memory → Memory) : (s.onMem f).cur = s.cur := rfl
@[simp] theorem State.onMem_order (f : Memory → Memory) : (s.onMem f).order = s.order := rfl
@[simp] theorem State.onMem_inp (f : Memory → Memory) : (s.onMem f).inp = s.inp := rfl
@[simp] theorem State.onMem_issue (f : Memory → Memory) : (s.onMem f).issue = s.issue := rfl
@[simp] theorem State.onMem_freeCtr (f : Memory → Memory) : (s.onMem f).freeCtr = s.freeCtr := rfl

/-! ### State.takeFree -/

@[simp] theorem State.takeFree_cores : (s.takeFree).cores = s.cores := rfl
@[simp] theorem State.takeFree_ms : (s.takeFree).ms = s.ms := rfl
@[simp] theorem State.takeFree_parts : (s.takeFree).parts = s.parts := rfl
@[simp] theorem State.takeFree_xbar : (s.takeFree).xbar = s.xbar := rfl
@[simp] theorem State.takeFree_fab : (s.takeFree).fab = s.fab := rfl
@[simp] theorem State.takeFree_host : (s.takeFree).host = s.host := rfl
@[simp] theorem State.takeFree_sched : (s.takeFree).sched = s.sched := rfl
@[simp] theorem State.takeFree_fw : (s.takeFree).fw = s.fw := rfl
@[simp] theorem State.takeFree_satchels : (s.takeFree).satchels = s.satchels := rfl
@[simp] theorem State.takeFree_cyc : (s.takeFree).cyc = s.cyc := rfl
@[simp] theorem State.takeFree_nextId : (s.takeFree).nextId = s.nextId := rfl
@[simp] theorem State.takeFree_cur : (s.takeFree).cur = s.cur := rfl
@[simp] theorem State.takeFree_order : (s.takeFree).order = s.order := rfl
@[simp] theorem State.takeFree_inp : (s.takeFree).inp = s.inp := rfl
@[simp] theorem State.takeFree_issue : (s.takeFree).issue = s.issue := rfl

/-! ### Core.onRegs -/

@[simp] theorem Core.onRegs_csr (x : Core) (f : Regs → Regs) : (x.onRegs f).csr = x.csr := rfl
@[simp] theorem Core.onRegs_lift (x : Core) (f : Regs → Regs) : (x.onRegs f).lift = x.lift := rfl
@[simp] theorem Core.onRegs_seq (x : Core) (f : Regs → Regs) : (x.onRegs f).seq = x.seq := rfl
@[simp] theorem Core.onRegs_queues (x : Core) (f : Regs → Regs) : (x.onRegs f).queues = x.queues := rfl
@[simp] theorem Core.onRegs_tl (x : Core) (f : Regs → Regs) : (x.onRegs f).tl = x.tl := rfl
@[simp] theorem Core.onRegs_ts (x : Core) (f : Regs → Regs) : (x.onRegs f).ts = x.ts := rfl
@[simp] theorem Core.onRegs_tsLog (x : Core) (f : Regs → Regs) : (x.onRegs f).tsLog = x.tsLog := rfl
@[simp] theorem Core.onRegs_halves (x : Core) (f : Regs → Regs) : (x.onRegs f).halves = x.halves := rfl
@[simp] theorem Core.onRegs_scratch (x : Core) (f : Regs → Regs) : (x.onRegs f).scratch = x.scratch := rfl
@[simp] theorem Core.onRegs_live1 (x : Core) (f : Regs → Regs) : (x.onRegs f).live1 = x.live1 := rfl
@[simp] theorem Core.onRegs_acc (x : Core) (f : Regs → Regs) : (x.onRegs f).acc = x.acc := rfl
@[simp] theorem Core.onRegs_accPoison (x : Core) (f : Regs → Regs) : (x.onRegs f).accPoison = x.accPoison := rfl
@[simp] theorem Core.onRegs_vPoison (x : Core) (f : Regs → Regs) : (x.onRegs f).vPoison = x.vPoison := rfl
@[simp] theorem Core.onRegs_locks (x : Core) (f : Regs → Regs) : (x.onRegs f).locks = x.locks := rfl
@[simp] theorem Core.onRegs_fills (x : Core) (f : Regs → Regs) : (x.onRegs f).fills = x.fills := rfl
@[simp] theorem Core.onRegs_busy (x : Core) (f : Regs → Regs) : (x.onRegs f).busy = x.busy := rfl
@[simp] theorem Core.onRegs_loads (x : Core) (f : Regs → Regs) : (x.onRegs f).loads = x.loads := rfl
@[simp] theorem Core.onRegs_stores (x : Core) (f : Regs → Regs) : (x.onRegs f).stores = x.stores := rfl
@[simp] theorem Core.onRegs_fence (x : Core) (f : Regs → Regs) : (x.onRegs f).fence = x.fence := rfl
@[simp] theorem Core.onRegs_relFence (x : Core) (f : Regs → Regs) : (x.onRegs f).relFence = x.relFence := rfl
@[simp] theorem Core.onRegs_readRels (x : Core) (f : Regs → Regs) : (x.onRegs f).readRels = x.readRels := rfl
@[simp] theorem Core.onRegs_copy (x : Core) (f : Regs → Regs) : (x.onRegs f).copy = x.copy := rfl
@[simp] theorem Core.onRegs_matrix (x : Core) (f : Regs → Regs) : (x.onRegs f).matrix = x.matrix := rfl
@[simp] theorem Core.onRegs_templates (x : Core) (f : Regs → Regs) : (x.onRegs f).templates = x.templates := rfl
@[simp] theorem Core.onRegs_tlb (x : Core) (f : Regs → Regs) : (x.onRegs f).tlb = x.tlb := rfl
@[simp] theorem Core.onRegs_kvc (x : Core) (f : Regs → Regs) : (x.onRegs f).kvc = x.kvc := rfl
@[simp] theorem Core.onRegs_mail (x : Core) (f : Regs → Regs) : (x.onRegs f).mail = x.mail := rfl
@[simp] theorem Core.onRegs_redun (x : Core) (f : Regs → Regs) : (x.onRegs f).redun = x.redun := rfl
@[simp] theorem Core.onRegs_node (x : Core) (f : Regs → Regs) : (x.onRegs f).node = x.node := rfl
@[simp] theorem Core.onRegs_tsSeen (x : Core) (f : Regs → Regs) : (x.onRegs f).tsSeen = x.tsSeen := rfl
@[simp] theorem Core.onRegs_moved (x : Core) (f : Regs → Regs) : (x.onRegs f).moved = x.moved := rfl
@[simp] theorem Core.onRegs_wrote (x : Core) (f : Regs → Regs) : (x.onRegs f).wrote = x.wrote := rfl

/-! ### Core.onCsr -/

@[simp] theorem Core.onCsr_regs (x : Core) (f : Csr → Csr) : (x.onCsr f).regs = x.regs := rfl
@[simp] theorem Core.onCsr_lift (x : Core) (f : Csr → Csr) : (x.onCsr f).lift = x.lift := rfl
@[simp] theorem Core.onCsr_seq (x : Core) (f : Csr → Csr) : (x.onCsr f).seq = x.seq := rfl
@[simp] theorem Core.onCsr_queues (x : Core) (f : Csr → Csr) : (x.onCsr f).queues = x.queues := rfl
@[simp] theorem Core.onCsr_tl (x : Core) (f : Csr → Csr) : (x.onCsr f).tl = x.tl := rfl
@[simp] theorem Core.onCsr_ts (x : Core) (f : Csr → Csr) : (x.onCsr f).ts = x.ts := rfl
@[simp] theorem Core.onCsr_tsLog (x : Core) (f : Csr → Csr) : (x.onCsr f).tsLog = x.tsLog := rfl
@[simp] theorem Core.onCsr_halves (x : Core) (f : Csr → Csr) : (x.onCsr f).halves = x.halves := rfl
@[simp] theorem Core.onCsr_scratch (x : Core) (f : Csr → Csr) : (x.onCsr f).scratch = x.scratch := rfl
@[simp] theorem Core.onCsr_live1 (x : Core) (f : Csr → Csr) : (x.onCsr f).live1 = x.live1 := rfl
@[simp] theorem Core.onCsr_acc (x : Core) (f : Csr → Csr) : (x.onCsr f).acc = x.acc := rfl
@[simp] theorem Core.onCsr_accPoison (x : Core) (f : Csr → Csr) : (x.onCsr f).accPoison = x.accPoison := rfl
@[simp] theorem Core.onCsr_vPoison (x : Core) (f : Csr → Csr) : (x.onCsr f).vPoison = x.vPoison := rfl
@[simp] theorem Core.onCsr_locks (x : Core) (f : Csr → Csr) : (x.onCsr f).locks = x.locks := rfl
@[simp] theorem Core.onCsr_fills (x : Core) (f : Csr → Csr) : (x.onCsr f).fills = x.fills := rfl
@[simp] theorem Core.onCsr_busy (x : Core) (f : Csr → Csr) : (x.onCsr f).busy = x.busy := rfl
@[simp] theorem Core.onCsr_loads (x : Core) (f : Csr → Csr) : (x.onCsr f).loads = x.loads := rfl
@[simp] theorem Core.onCsr_stores (x : Core) (f : Csr → Csr) : (x.onCsr f).stores = x.stores := rfl
@[simp] theorem Core.onCsr_fence (x : Core) (f : Csr → Csr) : (x.onCsr f).fence = x.fence := rfl
@[simp] theorem Core.onCsr_relFence (x : Core) (f : Csr → Csr) : (x.onCsr f).relFence = x.relFence := rfl
@[simp] theorem Core.onCsr_readRels (x : Core) (f : Csr → Csr) : (x.onCsr f).readRels = x.readRels := rfl
@[simp] theorem Core.onCsr_copy (x : Core) (f : Csr → Csr) : (x.onCsr f).copy = x.copy := rfl
@[simp] theorem Core.onCsr_matrix (x : Core) (f : Csr → Csr) : (x.onCsr f).matrix = x.matrix := rfl
@[simp] theorem Core.onCsr_templates (x : Core) (f : Csr → Csr) : (x.onCsr f).templates = x.templates := rfl
@[simp] theorem Core.onCsr_tlb (x : Core) (f : Csr → Csr) : (x.onCsr f).tlb = x.tlb := rfl
@[simp] theorem Core.onCsr_kvc (x : Core) (f : Csr → Csr) : (x.onCsr f).kvc = x.kvc := rfl
@[simp] theorem Core.onCsr_mail (x : Core) (f : Csr → Csr) : (x.onCsr f).mail = x.mail := rfl
@[simp] theorem Core.onCsr_redun (x : Core) (f : Csr → Csr) : (x.onCsr f).redun = x.redun := rfl
@[simp] theorem Core.onCsr_node (x : Core) (f : Csr → Csr) : (x.onCsr f).node = x.node := rfl
@[simp] theorem Core.onCsr_tsSeen (x : Core) (f : Csr → Csr) : (x.onCsr f).tsSeen = x.tsSeen := rfl
@[simp] theorem Core.onCsr_moved (x : Core) (f : Csr → Csr) : (x.onCsr f).moved = x.moved := rfl
@[simp] theorem Core.onCsr_wrote (x : Core) (f : Csr → Csr) : (x.onCsr f).wrote = x.wrote := rfl

/-! ### Core.onSeq -/

@[simp] theorem Core.onSeq_regs (x : Core) (f : Seq → Seq) : (x.onSeq f).regs = x.regs := rfl
@[simp] theorem Core.onSeq_csr (x : Core) (f : Seq → Seq) : (x.onSeq f).csr = x.csr := rfl
@[simp] theorem Core.onSeq_lift (x : Core) (f : Seq → Seq) : (x.onSeq f).lift = x.lift := rfl
@[simp] theorem Core.onSeq_queues (x : Core) (f : Seq → Seq) : (x.onSeq f).queues = x.queues := rfl
@[simp] theorem Core.onSeq_tl (x : Core) (f : Seq → Seq) : (x.onSeq f).tl = x.tl := rfl
@[simp] theorem Core.onSeq_ts (x : Core) (f : Seq → Seq) : (x.onSeq f).ts = x.ts := rfl
@[simp] theorem Core.onSeq_tsLog (x : Core) (f : Seq → Seq) : (x.onSeq f).tsLog = x.tsLog := rfl
@[simp] theorem Core.onSeq_halves (x : Core) (f : Seq → Seq) : (x.onSeq f).halves = x.halves := rfl
@[simp] theorem Core.onSeq_scratch (x : Core) (f : Seq → Seq) : (x.onSeq f).scratch = x.scratch := rfl
@[simp] theorem Core.onSeq_live1 (x : Core) (f : Seq → Seq) : (x.onSeq f).live1 = x.live1 := rfl
@[simp] theorem Core.onSeq_acc (x : Core) (f : Seq → Seq) : (x.onSeq f).acc = x.acc := rfl
@[simp] theorem Core.onSeq_accPoison (x : Core) (f : Seq → Seq) : (x.onSeq f).accPoison = x.accPoison := rfl
@[simp] theorem Core.onSeq_vPoison (x : Core) (f : Seq → Seq) : (x.onSeq f).vPoison = x.vPoison := rfl
@[simp] theorem Core.onSeq_locks (x : Core) (f : Seq → Seq) : (x.onSeq f).locks = x.locks := rfl
@[simp] theorem Core.onSeq_fills (x : Core) (f : Seq → Seq) : (x.onSeq f).fills = x.fills := rfl
@[simp] theorem Core.onSeq_busy (x : Core) (f : Seq → Seq) : (x.onSeq f).busy = x.busy := rfl
@[simp] theorem Core.onSeq_loads (x : Core) (f : Seq → Seq) : (x.onSeq f).loads = x.loads := rfl
@[simp] theorem Core.onSeq_stores (x : Core) (f : Seq → Seq) : (x.onSeq f).stores = x.stores := rfl
@[simp] theorem Core.onSeq_fence (x : Core) (f : Seq → Seq) : (x.onSeq f).fence = x.fence := rfl
@[simp] theorem Core.onSeq_relFence (x : Core) (f : Seq → Seq) : (x.onSeq f).relFence = x.relFence := rfl
@[simp] theorem Core.onSeq_readRels (x : Core) (f : Seq → Seq) : (x.onSeq f).readRels = x.readRels := rfl
@[simp] theorem Core.onSeq_copy (x : Core) (f : Seq → Seq) : (x.onSeq f).copy = x.copy := rfl
@[simp] theorem Core.onSeq_matrix (x : Core) (f : Seq → Seq) : (x.onSeq f).matrix = x.matrix := rfl
@[simp] theorem Core.onSeq_templates (x : Core) (f : Seq → Seq) : (x.onSeq f).templates = x.templates := rfl
@[simp] theorem Core.onSeq_tlb (x : Core) (f : Seq → Seq) : (x.onSeq f).tlb = x.tlb := rfl
@[simp] theorem Core.onSeq_kvc (x : Core) (f : Seq → Seq) : (x.onSeq f).kvc = x.kvc := rfl
@[simp] theorem Core.onSeq_mail (x : Core) (f : Seq → Seq) : (x.onSeq f).mail = x.mail := rfl
@[simp] theorem Core.onSeq_redun (x : Core) (f : Seq → Seq) : (x.onSeq f).redun = x.redun := rfl
@[simp] theorem Core.onSeq_node (x : Core) (f : Seq → Seq) : (x.onSeq f).node = x.node := rfl
@[simp] theorem Core.onSeq_tsSeen (x : Core) (f : Seq → Seq) : (x.onSeq f).tsSeen = x.tsSeen := rfl
@[simp] theorem Core.onSeq_moved (x : Core) (f : Seq → Seq) : (x.onSeq f).moved = x.moved := rfl
@[simp] theorem Core.onSeq_wrote (x : Core) (f : Seq → Seq) : (x.onSeq f).wrote = x.wrote := rfl

/-! ### Core.setQueue -/

@[simp] theorem Core.setQueue_regs (x : Core) (n : BitVec 4) (q : QueueSt) : (x.setQueue n q).regs = x.regs := rfl
@[simp] theorem Core.setQueue_csr (x : Core) (n : BitVec 4) (q : QueueSt) : (x.setQueue n q).csr = x.csr := rfl
@[simp] theorem Core.setQueue_lift (x : Core) (n : BitVec 4) (q : QueueSt) : (x.setQueue n q).lift = x.lift := rfl
@[simp] theorem Core.setQueue_seq (x : Core) (n : BitVec 4) (q : QueueSt) : (x.setQueue n q).seq = x.seq := rfl
@[simp] theorem Core.setQueue_tl (x : Core) (n : BitVec 4) (q : QueueSt) : (x.setQueue n q).tl = x.tl := rfl
@[simp] theorem Core.setQueue_ts (x : Core) (n : BitVec 4) (q : QueueSt) : (x.setQueue n q).ts = x.ts := rfl
@[simp] theorem Core.setQueue_tsLog (x : Core) (n : BitVec 4) (q : QueueSt) : (x.setQueue n q).tsLog = x.tsLog := rfl
@[simp] theorem Core.setQueue_halves (x : Core) (n : BitVec 4) (q : QueueSt) : (x.setQueue n q).halves = x.halves := rfl
@[simp] theorem Core.setQueue_scratch (x : Core) (n : BitVec 4) (q : QueueSt) : (x.setQueue n q).scratch = x.scratch := rfl
@[simp] theorem Core.setQueue_live1 (x : Core) (n : BitVec 4) (q : QueueSt) : (x.setQueue n q).live1 = x.live1 := rfl
@[simp] theorem Core.setQueue_acc (x : Core) (n : BitVec 4) (q : QueueSt) : (x.setQueue n q).acc = x.acc := rfl
@[simp] theorem Core.setQueue_accPoison (x : Core) (n : BitVec 4) (q : QueueSt) : (x.setQueue n q).accPoison = x.accPoison := rfl
@[simp] theorem Core.setQueue_vPoison (x : Core) (n : BitVec 4) (q : QueueSt) : (x.setQueue n q).vPoison = x.vPoison := rfl
@[simp] theorem Core.setQueue_locks (x : Core) (n : BitVec 4) (q : QueueSt) : (x.setQueue n q).locks = x.locks := rfl
@[simp] theorem Core.setQueue_fills (x : Core) (n : BitVec 4) (q : QueueSt) : (x.setQueue n q).fills = x.fills := rfl
@[simp] theorem Core.setQueue_busy (x : Core) (n : BitVec 4) (q : QueueSt) : (x.setQueue n q).busy = x.busy := rfl
@[simp] theorem Core.setQueue_loads (x : Core) (n : BitVec 4) (q : QueueSt) : (x.setQueue n q).loads = x.loads := rfl
@[simp] theorem Core.setQueue_stores (x : Core) (n : BitVec 4) (q : QueueSt) : (x.setQueue n q).stores = x.stores := rfl
@[simp] theorem Core.setQueue_fence (x : Core) (n : BitVec 4) (q : QueueSt) : (x.setQueue n q).fence = x.fence := rfl
@[simp] theorem Core.setQueue_relFence (x : Core) (n : BitVec 4) (q : QueueSt) : (x.setQueue n q).relFence = x.relFence := rfl
@[simp] theorem Core.setQueue_readRels (x : Core) (n : BitVec 4) (q : QueueSt) : (x.setQueue n q).readRels = x.readRels := rfl
@[simp] theorem Core.setQueue_copy (x : Core) (n : BitVec 4) (q : QueueSt) : (x.setQueue n q).copy = x.copy := rfl
@[simp] theorem Core.setQueue_matrix (x : Core) (n : BitVec 4) (q : QueueSt) : (x.setQueue n q).matrix = x.matrix := rfl
@[simp] theorem Core.setQueue_templates (x : Core) (n : BitVec 4) (q : QueueSt) : (x.setQueue n q).templates = x.templates := rfl
@[simp] theorem Core.setQueue_tlb (x : Core) (n : BitVec 4) (q : QueueSt) : (x.setQueue n q).tlb = x.tlb := rfl
@[simp] theorem Core.setQueue_kvc (x : Core) (n : BitVec 4) (q : QueueSt) : (x.setQueue n q).kvc = x.kvc := rfl
@[simp] theorem Core.setQueue_mail (x : Core) (n : BitVec 4) (q : QueueSt) : (x.setQueue n q).mail = x.mail := rfl
@[simp] theorem Core.setQueue_redun (x : Core) (n : BitVec 4) (q : QueueSt) : (x.setQueue n q).redun = x.redun := rfl
@[simp] theorem Core.setQueue_node (x : Core) (n : BitVec 4) (q : QueueSt) : (x.setQueue n q).node = x.node := rfl
@[simp] theorem Core.setQueue_tsSeen (x : Core) (n : BitVec 4) (q : QueueSt) : (x.setQueue n q).tsSeen = x.tsSeen := rfl
@[simp] theorem Core.setQueue_moved (x : Core) (n : BitVec 4) (q : QueueSt) : (x.setQueue n q).moved = x.moved := rfl
@[simp] theorem Core.setQueue_wrote (x : Core) (n : BitVec 4) (q : QueueSt) : (x.setQueue n q).wrote = x.wrote := rfl

/-! ### Core.onTl -/

@[simp] theorem Core.onTl_regs (x : Core) (i : Fin 3) (f : Timeline → Timeline) : (x.onTl i f).regs = x.regs := rfl
@[simp] theorem Core.onTl_csr (x : Core) (i : Fin 3) (f : Timeline → Timeline) : (x.onTl i f).csr = x.csr := rfl
@[simp] theorem Core.onTl_lift (x : Core) (i : Fin 3) (f : Timeline → Timeline) : (x.onTl i f).lift = x.lift := rfl
@[simp] theorem Core.onTl_seq (x : Core) (i : Fin 3) (f : Timeline → Timeline) : (x.onTl i f).seq = x.seq := rfl
@[simp] theorem Core.onTl_queues (x : Core) (i : Fin 3) (f : Timeline → Timeline) : (x.onTl i f).queues = x.queues := rfl
@[simp] theorem Core.onTl_ts (x : Core) (i : Fin 3) (f : Timeline → Timeline) : (x.onTl i f).ts = x.ts := rfl
@[simp] theorem Core.onTl_tsLog (x : Core) (i : Fin 3) (f : Timeline → Timeline) : (x.onTl i f).tsLog = x.tsLog := rfl
@[simp] theorem Core.onTl_halves (x : Core) (i : Fin 3) (f : Timeline → Timeline) : (x.onTl i f).halves = x.halves := rfl
@[simp] theorem Core.onTl_scratch (x : Core) (i : Fin 3) (f : Timeline → Timeline) : (x.onTl i f).scratch = x.scratch := rfl
@[simp] theorem Core.onTl_live1 (x : Core) (i : Fin 3) (f : Timeline → Timeline) : (x.onTl i f).live1 = x.live1 := rfl
@[simp] theorem Core.onTl_acc (x : Core) (i : Fin 3) (f : Timeline → Timeline) : (x.onTl i f).acc = x.acc := rfl
@[simp] theorem Core.onTl_accPoison (x : Core) (i : Fin 3) (f : Timeline → Timeline) : (x.onTl i f).accPoison = x.accPoison := rfl
@[simp] theorem Core.onTl_vPoison (x : Core) (i : Fin 3) (f : Timeline → Timeline) : (x.onTl i f).vPoison = x.vPoison := rfl
@[simp] theorem Core.onTl_locks (x : Core) (i : Fin 3) (f : Timeline → Timeline) : (x.onTl i f).locks = x.locks := rfl
@[simp] theorem Core.onTl_fills (x : Core) (i : Fin 3) (f : Timeline → Timeline) : (x.onTl i f).fills = x.fills := rfl
@[simp] theorem Core.onTl_busy (x : Core) (i : Fin 3) (f : Timeline → Timeline) : (x.onTl i f).busy = x.busy := rfl
@[simp] theorem Core.onTl_loads (x : Core) (i : Fin 3) (f : Timeline → Timeline) : (x.onTl i f).loads = x.loads := rfl
@[simp] theorem Core.onTl_stores (x : Core) (i : Fin 3) (f : Timeline → Timeline) : (x.onTl i f).stores = x.stores := rfl
@[simp] theorem Core.onTl_fence (x : Core) (i : Fin 3) (f : Timeline → Timeline) : (x.onTl i f).fence = x.fence := rfl
@[simp] theorem Core.onTl_relFence (x : Core) (i : Fin 3) (f : Timeline → Timeline) : (x.onTl i f).relFence = x.relFence := rfl
@[simp] theorem Core.onTl_readRels (x : Core) (i : Fin 3) (f : Timeline → Timeline) : (x.onTl i f).readRels = x.readRels := rfl
@[simp] theorem Core.onTl_copy (x : Core) (i : Fin 3) (f : Timeline → Timeline) : (x.onTl i f).copy = x.copy := rfl
@[simp] theorem Core.onTl_matrix (x : Core) (i : Fin 3) (f : Timeline → Timeline) : (x.onTl i f).matrix = x.matrix := rfl
@[simp] theorem Core.onTl_templates (x : Core) (i : Fin 3) (f : Timeline → Timeline) : (x.onTl i f).templates = x.templates := rfl
@[simp] theorem Core.onTl_tlb (x : Core) (i : Fin 3) (f : Timeline → Timeline) : (x.onTl i f).tlb = x.tlb := rfl
@[simp] theorem Core.onTl_kvc (x : Core) (i : Fin 3) (f : Timeline → Timeline) : (x.onTl i f).kvc = x.kvc := rfl
@[simp] theorem Core.onTl_mail (x : Core) (i : Fin 3) (f : Timeline → Timeline) : (x.onTl i f).mail = x.mail := rfl
@[simp] theorem Core.onTl_redun (x : Core) (i : Fin 3) (f : Timeline → Timeline) : (x.onTl i f).redun = x.redun := rfl
@[simp] theorem Core.onTl_node (x : Core) (i : Fin 3) (f : Timeline → Timeline) : (x.onTl i f).node = x.node := rfl
@[simp] theorem Core.onTl_tsSeen (x : Core) (i : Fin 3) (f : Timeline → Timeline) : (x.onTl i f).tsSeen = x.tsSeen := rfl
@[simp] theorem Core.onTl_moved (x : Core) (i : Fin 3) (f : Timeline → Timeline) : (x.onTl i f).moved = x.moved := rfl
@[simp] theorem Core.onTl_wrote (x : Core) (i : Fin 3) (f : Timeline → Timeline) : (x.onTl i f).wrote = x.wrote := rfl

/-! ### Core.noteWrite -/

@[simp] theorem Core.noteWrite_regs (x : Core) (l : List Nat) : (x.noteWrite l).regs = x.regs := rfl
@[simp] theorem Core.noteWrite_csr (x : Core) (l : List Nat) : (x.noteWrite l).csr = x.csr := rfl
@[simp] theorem Core.noteWrite_lift (x : Core) (l : List Nat) : (x.noteWrite l).lift = x.lift := rfl
@[simp] theorem Core.noteWrite_seq (x : Core) (l : List Nat) : (x.noteWrite l).seq = x.seq := rfl
@[simp] theorem Core.noteWrite_queues (x : Core) (l : List Nat) : (x.noteWrite l).queues = x.queues := rfl
@[simp] theorem Core.noteWrite_tl (x : Core) (l : List Nat) : (x.noteWrite l).tl = x.tl := rfl
@[simp] theorem Core.noteWrite_ts (x : Core) (l : List Nat) : (x.noteWrite l).ts = x.ts := rfl
@[simp] theorem Core.noteWrite_tsLog (x : Core) (l : List Nat) : (x.noteWrite l).tsLog = x.tsLog := rfl
@[simp] theorem Core.noteWrite_halves (x : Core) (l : List Nat) : (x.noteWrite l).halves = x.halves := rfl
@[simp] theorem Core.noteWrite_scratch (x : Core) (l : List Nat) : (x.noteWrite l).scratch = x.scratch := rfl
@[simp] theorem Core.noteWrite_live1 (x : Core) (l : List Nat) : (x.noteWrite l).live1 = x.live1 := rfl
@[simp] theorem Core.noteWrite_acc (x : Core) (l : List Nat) : (x.noteWrite l).acc = x.acc := rfl
@[simp] theorem Core.noteWrite_accPoison (x : Core) (l : List Nat) : (x.noteWrite l).accPoison = x.accPoison := rfl
@[simp] theorem Core.noteWrite_vPoison (x : Core) (l : List Nat) : (x.noteWrite l).vPoison = x.vPoison := rfl
@[simp] theorem Core.noteWrite_locks (x : Core) (l : List Nat) : (x.noteWrite l).locks = x.locks := rfl
@[simp] theorem Core.noteWrite_fills (x : Core) (l : List Nat) : (x.noteWrite l).fills = x.fills := rfl
@[simp] theorem Core.noteWrite_busy (x : Core) (l : List Nat) : (x.noteWrite l).busy = x.busy := rfl
@[simp] theorem Core.noteWrite_loads (x : Core) (l : List Nat) : (x.noteWrite l).loads = x.loads := rfl
@[simp] theorem Core.noteWrite_stores (x : Core) (l : List Nat) : (x.noteWrite l).stores = x.stores := rfl
@[simp] theorem Core.noteWrite_fence (x : Core) (l : List Nat) : (x.noteWrite l).fence = x.fence := rfl
@[simp] theorem Core.noteWrite_relFence (x : Core) (l : List Nat) : (x.noteWrite l).relFence = x.relFence := rfl
@[simp] theorem Core.noteWrite_readRels (x : Core) (l : List Nat) : (x.noteWrite l).readRels = x.readRels := rfl
@[simp] theorem Core.noteWrite_copy (x : Core) (l : List Nat) : (x.noteWrite l).copy = x.copy := rfl
@[simp] theorem Core.noteWrite_matrix (x : Core) (l : List Nat) : (x.noteWrite l).matrix = x.matrix := rfl
@[simp] theorem Core.noteWrite_templates (x : Core) (l : List Nat) : (x.noteWrite l).templates = x.templates := rfl
@[simp] theorem Core.noteWrite_tlb (x : Core) (l : List Nat) : (x.noteWrite l).tlb = x.tlb := rfl
@[simp] theorem Core.noteWrite_kvc (x : Core) (l : List Nat) : (x.noteWrite l).kvc = x.kvc := rfl
@[simp] theorem Core.noteWrite_mail (x : Core) (l : List Nat) : (x.noteWrite l).mail = x.mail := rfl
@[simp] theorem Core.noteWrite_redun (x : Core) (l : List Nat) : (x.noteWrite l).redun = x.redun := rfl
@[simp] theorem Core.noteWrite_node (x : Core) (l : List Nat) : (x.noteWrite l).node = x.node := rfl
@[simp] theorem Core.noteWrite_tsSeen (x : Core) (l : List Nat) : (x.noteWrite l).tsSeen = x.tsSeen := rfl
@[simp] theorem Core.noteWrite_moved (x : Core) (l : List Nat) : (x.noteWrite l).moved = x.moved := rfl

/-! ### Core.lock -/

@[simp] theorem Core.lock_regs (x : Core) (u : Nat) (p : LockPfx) : (x.lock u p).regs = x.regs := rfl
@[simp] theorem Core.lock_csr (x : Core) (u : Nat) (p : LockPfx) : (x.lock u p).csr = x.csr := rfl
@[simp] theorem Core.lock_lift (x : Core) (u : Nat) (p : LockPfx) : (x.lock u p).lift = x.lift := rfl
@[simp] theorem Core.lock_seq (x : Core) (u : Nat) (p : LockPfx) : (x.lock u p).seq = x.seq := rfl
@[simp] theorem Core.lock_queues (x : Core) (u : Nat) (p : LockPfx) : (x.lock u p).queues = x.queues := rfl
@[simp] theorem Core.lock_tl (x : Core) (u : Nat) (p : LockPfx) : (x.lock u p).tl = x.tl := rfl
@[simp] theorem Core.lock_ts (x : Core) (u : Nat) (p : LockPfx) : (x.lock u p).ts = x.ts := rfl
@[simp] theorem Core.lock_tsLog (x : Core) (u : Nat) (p : LockPfx) : (x.lock u p).tsLog = x.tsLog := rfl
@[simp] theorem Core.lock_halves (x : Core) (u : Nat) (p : LockPfx) : (x.lock u p).halves = x.halves := rfl
@[simp] theorem Core.lock_scratch (x : Core) (u : Nat) (p : LockPfx) : (x.lock u p).scratch = x.scratch := rfl
@[simp] theorem Core.lock_live1 (x : Core) (u : Nat) (p : LockPfx) : (x.lock u p).live1 = x.live1 := rfl
@[simp] theorem Core.lock_acc (x : Core) (u : Nat) (p : LockPfx) : (x.lock u p).acc = x.acc := rfl
@[simp] theorem Core.lock_accPoison (x : Core) (u : Nat) (p : LockPfx) : (x.lock u p).accPoison = x.accPoison := rfl
@[simp] theorem Core.lock_vPoison (x : Core) (u : Nat) (p : LockPfx) : (x.lock u p).vPoison = x.vPoison := rfl
@[simp] theorem Core.lock_fills (x : Core) (u : Nat) (p : LockPfx) : (x.lock u p).fills = x.fills := rfl
@[simp] theorem Core.lock_busy (x : Core) (u : Nat) (p : LockPfx) : (x.lock u p).busy = x.busy := rfl
@[simp] theorem Core.lock_loads (x : Core) (u : Nat) (p : LockPfx) : (x.lock u p).loads = x.loads := rfl
@[simp] theorem Core.lock_stores (x : Core) (u : Nat) (p : LockPfx) : (x.lock u p).stores = x.stores := rfl
@[simp] theorem Core.lock_fence (x : Core) (u : Nat) (p : LockPfx) : (x.lock u p).fence = x.fence := rfl
@[simp] theorem Core.lock_relFence (x : Core) (u : Nat) (p : LockPfx) : (x.lock u p).relFence = x.relFence := rfl
@[simp] theorem Core.lock_readRels (x : Core) (u : Nat) (p : LockPfx) : (x.lock u p).readRels = x.readRels := rfl
@[simp] theorem Core.lock_copy (x : Core) (u : Nat) (p : LockPfx) : (x.lock u p).copy = x.copy := rfl
@[simp] theorem Core.lock_matrix (x : Core) (u : Nat) (p : LockPfx) : (x.lock u p).matrix = x.matrix := rfl
@[simp] theorem Core.lock_templates (x : Core) (u : Nat) (p : LockPfx) : (x.lock u p).templates = x.templates := rfl
@[simp] theorem Core.lock_tlb (x : Core) (u : Nat) (p : LockPfx) : (x.lock u p).tlb = x.tlb := rfl
@[simp] theorem Core.lock_kvc (x : Core) (u : Nat) (p : LockPfx) : (x.lock u p).kvc = x.kvc := rfl
@[simp] theorem Core.lock_mail (x : Core) (u : Nat) (p : LockPfx) : (x.lock u p).mail = x.mail := rfl
@[simp] theorem Core.lock_redun (x : Core) (u : Nat) (p : LockPfx) : (x.lock u p).redun = x.redun := rfl
@[simp] theorem Core.lock_node (x : Core) (u : Nat) (p : LockPfx) : (x.lock u p).node = x.node := rfl
@[simp] theorem Core.lock_tsSeen (x : Core) (u : Nat) (p : LockPfx) : (x.lock u p).tsSeen = x.tsSeen := rfl
@[simp] theorem Core.lock_moved (x : Core) (u : Nat) (p : LockPfx) : (x.lock u p).moved = x.moved := rfl
@[simp] theorem Core.lock_wrote (x : Core) (u : Nat) (p : LockPfx) : (x.lock u p).wrote = x.wrote := rfl

/-! ### Core.ageLocks -/

@[simp] theorem Core.ageLocks_regs (x : Core) : (x.ageLocks).regs = x.regs := rfl
@[simp] theorem Core.ageLocks_csr (x : Core) : (x.ageLocks).csr = x.csr := rfl
@[simp] theorem Core.ageLocks_lift (x : Core) : (x.ageLocks).lift = x.lift := rfl
@[simp] theorem Core.ageLocks_seq (x : Core) : (x.ageLocks).seq = x.seq := rfl
@[simp] theorem Core.ageLocks_queues (x : Core) : (x.ageLocks).queues = x.queues := rfl
@[simp] theorem Core.ageLocks_tl (x : Core) : (x.ageLocks).tl = x.tl := rfl
@[simp] theorem Core.ageLocks_ts (x : Core) : (x.ageLocks).ts = x.ts := rfl
@[simp] theorem Core.ageLocks_tsLog (x : Core) : (x.ageLocks).tsLog = x.tsLog := rfl
@[simp] theorem Core.ageLocks_halves (x : Core) : (x.ageLocks).halves = x.halves := rfl
@[simp] theorem Core.ageLocks_scratch (x : Core) : (x.ageLocks).scratch = x.scratch := rfl
@[simp] theorem Core.ageLocks_live1 (x : Core) : (x.ageLocks).live1 = x.live1 := rfl
@[simp] theorem Core.ageLocks_acc (x : Core) : (x.ageLocks).acc = x.acc := rfl
@[simp] theorem Core.ageLocks_accPoison (x : Core) : (x.ageLocks).accPoison = x.accPoison := rfl
@[simp] theorem Core.ageLocks_vPoison (x : Core) : (x.ageLocks).vPoison = x.vPoison := rfl
@[simp] theorem Core.ageLocks_fills (x : Core) : (x.ageLocks).fills = x.fills := rfl
@[simp] theorem Core.ageLocks_busy (x : Core) : (x.ageLocks).busy = x.busy := rfl
@[simp] theorem Core.ageLocks_loads (x : Core) : (x.ageLocks).loads = x.loads := rfl
@[simp] theorem Core.ageLocks_stores (x : Core) : (x.ageLocks).stores = x.stores := rfl
@[simp] theorem Core.ageLocks_fence (x : Core) : (x.ageLocks).fence = x.fence := rfl
@[simp] theorem Core.ageLocks_relFence (x : Core) : (x.ageLocks).relFence = x.relFence := rfl
@[simp] theorem Core.ageLocks_readRels (x : Core) : (x.ageLocks).readRels = x.readRels := rfl
@[simp] theorem Core.ageLocks_copy (x : Core) : (x.ageLocks).copy = x.copy := rfl
@[simp] theorem Core.ageLocks_matrix (x : Core) : (x.ageLocks).matrix = x.matrix := rfl
@[simp] theorem Core.ageLocks_templates (x : Core) : (x.ageLocks).templates = x.templates := rfl
@[simp] theorem Core.ageLocks_tlb (x : Core) : (x.ageLocks).tlb = x.tlb := rfl
@[simp] theorem Core.ageLocks_kvc (x : Core) : (x.ageLocks).kvc = x.kvc := rfl
@[simp] theorem Core.ageLocks_mail (x : Core) : (x.ageLocks).mail = x.mail := rfl
@[simp] theorem Core.ageLocks_redun (x : Core) : (x.ageLocks).redun = x.redun := rfl
@[simp] theorem Core.ageLocks_node (x : Core) : (x.ageLocks).node = x.node := rfl
@[simp] theorem Core.ageLocks_tsSeen (x : Core) : (x.ageLocks).tsSeen = x.tsSeen := rfl
@[simp] theorem Core.ageLocks_moved (x : Core) : (x.ageLocks).moved = x.moved := rfl
@[simp] theorem Core.ageLocks_wrote (x : Core) : (x.ageLocks).wrote = x.wrote := rfl

/-! ### Core.pop -/

@[simp] theorem Core.pop_regs (x : Core) (n : BitVec 4) (k : Nat) : (x.pop n k).regs = x.regs := rfl
@[simp] theorem Core.pop_csr (x : Core) (n : BitVec 4) (k : Nat) : (x.pop n k).csr = x.csr := rfl
@[simp] theorem Core.pop_lift (x : Core) (n : BitVec 4) (k : Nat) : (x.pop n k).lift = x.lift := rfl
@[simp] theorem Core.pop_seq (x : Core) (n : BitVec 4) (k : Nat) : (x.pop n k).seq = x.seq := rfl
@[simp] theorem Core.pop_tl (x : Core) (n : BitVec 4) (k : Nat) : (x.pop n k).tl = x.tl := rfl
@[simp] theorem Core.pop_ts (x : Core) (n : BitVec 4) (k : Nat) : (x.pop n k).ts = x.ts := rfl
@[simp] theorem Core.pop_tsLog (x : Core) (n : BitVec 4) (k : Nat) : (x.pop n k).tsLog = x.tsLog := rfl
@[simp] theorem Core.pop_halves (x : Core) (n : BitVec 4) (k : Nat) : (x.pop n k).halves = x.halves := rfl
@[simp] theorem Core.pop_scratch (x : Core) (n : BitVec 4) (k : Nat) : (x.pop n k).scratch = x.scratch := rfl
@[simp] theorem Core.pop_live1 (x : Core) (n : BitVec 4) (k : Nat) : (x.pop n k).live1 = x.live1 := rfl
@[simp] theorem Core.pop_acc (x : Core) (n : BitVec 4) (k : Nat) : (x.pop n k).acc = x.acc := rfl
@[simp] theorem Core.pop_accPoison (x : Core) (n : BitVec 4) (k : Nat) : (x.pop n k).accPoison = x.accPoison := rfl
@[simp] theorem Core.pop_vPoison (x : Core) (n : BitVec 4) (k : Nat) : (x.pop n k).vPoison = x.vPoison := rfl
@[simp] theorem Core.pop_locks (x : Core) (n : BitVec 4) (k : Nat) : (x.pop n k).locks = x.locks := rfl
@[simp] theorem Core.pop_fills (x : Core) (n : BitVec 4) (k : Nat) : (x.pop n k).fills = x.fills := rfl
@[simp] theorem Core.pop_busy (x : Core) (n : BitVec 4) (k : Nat) : (x.pop n k).busy = x.busy := rfl
@[simp] theorem Core.pop_loads (x : Core) (n : BitVec 4) (k : Nat) : (x.pop n k).loads = x.loads := rfl
@[simp] theorem Core.pop_stores (x : Core) (n : BitVec 4) (k : Nat) : (x.pop n k).stores = x.stores := rfl
@[simp] theorem Core.pop_fence (x : Core) (n : BitVec 4) (k : Nat) : (x.pop n k).fence = x.fence := rfl
@[simp] theorem Core.pop_relFence (x : Core) (n : BitVec 4) (k : Nat) : (x.pop n k).relFence = x.relFence := rfl
@[simp] theorem Core.pop_readRels (x : Core) (n : BitVec 4) (k : Nat) : (x.pop n k).readRels = x.readRels := rfl
@[simp] theorem Core.pop_copy (x : Core) (n : BitVec 4) (k : Nat) : (x.pop n k).copy = x.copy := rfl
@[simp] theorem Core.pop_matrix (x : Core) (n : BitVec 4) (k : Nat) : (x.pop n k).matrix = x.matrix := rfl
@[simp] theorem Core.pop_templates (x : Core) (n : BitVec 4) (k : Nat) : (x.pop n k).templates = x.templates := rfl
@[simp] theorem Core.pop_tlb (x : Core) (n : BitVec 4) (k : Nat) : (x.pop n k).tlb = x.tlb := rfl
@[simp] theorem Core.pop_kvc (x : Core) (n : BitVec 4) (k : Nat) : (x.pop n k).kvc = x.kvc := rfl
@[simp] theorem Core.pop_mail (x : Core) (n : BitVec 4) (k : Nat) : (x.pop n k).mail = x.mail := rfl
@[simp] theorem Core.pop_redun (x : Core) (n : BitVec 4) (k : Nat) : (x.pop n k).redun = x.redun := rfl
@[simp] theorem Core.pop_node (x : Core) (n : BitVec 4) (k : Nat) : (x.pop n k).node = x.node := rfl
@[simp] theorem Core.pop_tsSeen (x : Core) (n : BitVec 4) (k : Nat) : (x.pop n k).tsSeen = x.tsSeen := rfl
@[simp] theorem Core.pop_moved (x : Core) (n : BitVec 4) (k : Nat) : (x.pop n k).moved = x.moved := rfl
@[simp] theorem Core.pop_wrote (x : Core) (n : BitVec 4) (k : Nat) : (x.pop n k).wrote = x.wrote := rfl

/-! ### Core.report -/

@[simp] theorem Core.report_regs (x : Core) (t : Trap) : (x.report t).regs = x.regs := rfl
@[simp] theorem Core.report_csr (x : Core) (t : Trap) : (x.report t).csr = x.csr := rfl
@[simp] theorem Core.report_lift (x : Core) (t : Trap) : (x.report t).lift = x.lift := rfl
@[simp] theorem Core.report_queues (x : Core) (t : Trap) : (x.report t).queues = x.queues := rfl
@[simp] theorem Core.report_tl (x : Core) (t : Trap) : (x.report t).tl = x.tl := rfl
@[simp] theorem Core.report_ts (x : Core) (t : Trap) : (x.report t).ts = x.ts := rfl
@[simp] theorem Core.report_tsLog (x : Core) (t : Trap) : (x.report t).tsLog = x.tsLog := rfl
@[simp] theorem Core.report_halves (x : Core) (t : Trap) : (x.report t).halves = x.halves := rfl
@[simp] theorem Core.report_scratch (x : Core) (t : Trap) : (x.report t).scratch = x.scratch := rfl
@[simp] theorem Core.report_live1 (x : Core) (t : Trap) : (x.report t).live1 = x.live1 := rfl
@[simp] theorem Core.report_acc (x : Core) (t : Trap) : (x.report t).acc = x.acc := rfl
@[simp] theorem Core.report_accPoison (x : Core) (t : Trap) : (x.report t).accPoison = x.accPoison := rfl
@[simp] theorem Core.report_vPoison (x : Core) (t : Trap) : (x.report t).vPoison = x.vPoison := rfl
@[simp] theorem Core.report_locks (x : Core) (t : Trap) : (x.report t).locks = x.locks := rfl
@[simp] theorem Core.report_fills (x : Core) (t : Trap) : (x.report t).fills = x.fills := rfl
@[simp] theorem Core.report_busy (x : Core) (t : Trap) : (x.report t).busy = x.busy := rfl
@[simp] theorem Core.report_loads (x : Core) (t : Trap) : (x.report t).loads = x.loads := rfl
@[simp] theorem Core.report_stores (x : Core) (t : Trap) : (x.report t).stores = x.stores := rfl
@[simp] theorem Core.report_fence (x : Core) (t : Trap) : (x.report t).fence = x.fence := rfl
@[simp] theorem Core.report_relFence (x : Core) (t : Trap) : (x.report t).relFence = x.relFence := rfl
@[simp] theorem Core.report_readRels (x : Core) (t : Trap) : (x.report t).readRels = x.readRels := rfl
@[simp] theorem Core.report_copy (x : Core) (t : Trap) : (x.report t).copy = x.copy := rfl
@[simp] theorem Core.report_matrix (x : Core) (t : Trap) : (x.report t).matrix = x.matrix := rfl
@[simp] theorem Core.report_templates (x : Core) (t : Trap) : (x.report t).templates = x.templates := rfl
@[simp] theorem Core.report_tlb (x : Core) (t : Trap) : (x.report t).tlb = x.tlb := rfl
@[simp] theorem Core.report_kvc (x : Core) (t : Trap) : (x.report t).kvc = x.kvc := rfl
@[simp] theorem Core.report_mail (x : Core) (t : Trap) : (x.report t).mail = x.mail := rfl
@[simp] theorem Core.report_redun (x : Core) (t : Trap) : (x.report t).redun = x.redun := rfl
@[simp] theorem Core.report_node (x : Core) (t : Trap) : (x.report t).node = x.node := rfl
@[simp] theorem Core.report_tsSeen (x : Core) (t : Trap) : (x.report t).tsSeen = x.tsSeen := rfl
@[simp] theorem Core.report_moved (x : Core) (t : Trap) : (x.report t).moved = x.moved := rfl
@[simp] theorem Core.report_wrote (x : Core) (t : Trap) : (x.report t).wrote = x.wrote := rfl

/-! ### Core.trapReturn -/

@[simp] theorem Core.trapReturn_regs (x : Core) : (x.trapReturn).regs = x.regs := rfl
@[simp] theorem Core.trapReturn_lift (x : Core) : (x.trapReturn).lift = x.lift := rfl
@[simp] theorem Core.trapReturn_queues (x : Core) : (x.trapReturn).queues = x.queues := rfl
@[simp] theorem Core.trapReturn_tl (x : Core) : (x.trapReturn).tl = x.tl := rfl
@[simp] theorem Core.trapReturn_ts (x : Core) : (x.trapReturn).ts = x.ts := rfl
@[simp] theorem Core.trapReturn_tsLog (x : Core) : (x.trapReturn).tsLog = x.tsLog := rfl
@[simp] theorem Core.trapReturn_halves (x : Core) : (x.trapReturn).halves = x.halves := rfl
@[simp] theorem Core.trapReturn_scratch (x : Core) : (x.trapReturn).scratch = x.scratch := rfl
@[simp] theorem Core.trapReturn_live1 (x : Core) : (x.trapReturn).live1 = x.live1 := rfl
@[simp] theorem Core.trapReturn_acc (x : Core) : (x.trapReturn).acc = x.acc := rfl
@[simp] theorem Core.trapReturn_accPoison (x : Core) : (x.trapReturn).accPoison = x.accPoison := rfl
@[simp] theorem Core.trapReturn_vPoison (x : Core) : (x.trapReturn).vPoison = x.vPoison := rfl
@[simp] theorem Core.trapReturn_locks (x : Core) : (x.trapReturn).locks = x.locks := rfl
@[simp] theorem Core.trapReturn_fills (x : Core) : (x.trapReturn).fills = x.fills := rfl
@[simp] theorem Core.trapReturn_busy (x : Core) : (x.trapReturn).busy = x.busy := rfl
@[simp] theorem Core.trapReturn_loads (x : Core) : (x.trapReturn).loads = x.loads := rfl
@[simp] theorem Core.trapReturn_stores (x : Core) : (x.trapReturn).stores = x.stores := rfl
@[simp] theorem Core.trapReturn_fence (x : Core) : (x.trapReturn).fence = x.fence := rfl
@[simp] theorem Core.trapReturn_relFence (x : Core) : (x.trapReturn).relFence = x.relFence := rfl
@[simp] theorem Core.trapReturn_readRels (x : Core) : (x.trapReturn).readRels = x.readRels := rfl
@[simp] theorem Core.trapReturn_copy (x : Core) : (x.trapReturn).copy = x.copy := rfl
@[simp] theorem Core.trapReturn_matrix (x : Core) : (x.trapReturn).matrix = x.matrix := rfl
@[simp] theorem Core.trapReturn_templates (x : Core) : (x.trapReturn).templates = x.templates := rfl
@[simp] theorem Core.trapReturn_tlb (x : Core) : (x.trapReturn).tlb = x.tlb := rfl
@[simp] theorem Core.trapReturn_kvc (x : Core) : (x.trapReturn).kvc = x.kvc := rfl
@[simp] theorem Core.trapReturn_mail (x : Core) : (x.trapReturn).mail = x.mail := rfl
@[simp] theorem Core.trapReturn_redun (x : Core) : (x.trapReturn).redun = x.redun := rfl
@[simp] theorem Core.trapReturn_node (x : Core) : (x.trapReturn).node = x.node := rfl
@[simp] theorem Core.trapReturn_tsSeen (x : Core) : (x.trapReturn).tsSeen = x.tsSeen := rfl
@[simp] theorem Core.trapReturn_moved (x : Core) : (x.trapReturn).moved = x.moved := rfl
@[simp] theorem Core.trapReturn_wrote (x : Core) : (x.trapReturn).wrote = x.wrote := rfl

/-! ### Core.push -/

@[simp] theorem Core.push_regs (x : Core) (n : BitVec 4) (v : VReg) : (x.push n v).regs = x.regs := rfl
@[simp] theorem Core.push_csr (x : Core) (n : BitVec 4) (v : VReg) : (x.push n v).csr = x.csr := rfl
@[simp] theorem Core.push_lift (x : Core) (n : BitVec 4) (v : VReg) : (x.push n v).lift = x.lift := rfl
@[simp] theorem Core.push_seq (x : Core) (n : BitVec 4) (v : VReg) : (x.push n v).seq = x.seq := rfl
@[simp] theorem Core.push_tl (x : Core) (n : BitVec 4) (v : VReg) : (x.push n v).tl = x.tl := rfl
@[simp] theorem Core.push_ts (x : Core) (n : BitVec 4) (v : VReg) : (x.push n v).ts = x.ts := rfl
@[simp] theorem Core.push_tsLog (x : Core) (n : BitVec 4) (v : VReg) : (x.push n v).tsLog = x.tsLog := rfl
@[simp] theorem Core.push_halves (x : Core) (n : BitVec 4) (v : VReg) : (x.push n v).halves = x.halves := rfl
@[simp] theorem Core.push_live1 (x : Core) (n : BitVec 4) (v : VReg) : (x.push n v).live1 = x.live1 := rfl
@[simp] theorem Core.push_acc (x : Core) (n : BitVec 4) (v : VReg) : (x.push n v).acc = x.acc := rfl
@[simp] theorem Core.push_accPoison (x : Core) (n : BitVec 4) (v : VReg) : (x.push n v).accPoison = x.accPoison := rfl
@[simp] theorem Core.push_vPoison (x : Core) (n : BitVec 4) (v : VReg) : (x.push n v).vPoison = x.vPoison := rfl
@[simp] theorem Core.push_locks (x : Core) (n : BitVec 4) (v : VReg) : (x.push n v).locks = x.locks := rfl
@[simp] theorem Core.push_fills (x : Core) (n : BitVec 4) (v : VReg) : (x.push n v).fills = x.fills := rfl
@[simp] theorem Core.push_busy (x : Core) (n : BitVec 4) (v : VReg) : (x.push n v).busy = x.busy := rfl
@[simp] theorem Core.push_loads (x : Core) (n : BitVec 4) (v : VReg) : (x.push n v).loads = x.loads := rfl
@[simp] theorem Core.push_stores (x : Core) (n : BitVec 4) (v : VReg) : (x.push n v).stores = x.stores := rfl
@[simp] theorem Core.push_fence (x : Core) (n : BitVec 4) (v : VReg) : (x.push n v).fence = x.fence := rfl
@[simp] theorem Core.push_relFence (x : Core) (n : BitVec 4) (v : VReg) : (x.push n v).relFence = x.relFence := rfl
@[simp] theorem Core.push_readRels (x : Core) (n : BitVec 4) (v : VReg) : (x.push n v).readRels = x.readRels := rfl
@[simp] theorem Core.push_copy (x : Core) (n : BitVec 4) (v : VReg) : (x.push n v).copy = x.copy := rfl
@[simp] theorem Core.push_matrix (x : Core) (n : BitVec 4) (v : VReg) : (x.push n v).matrix = x.matrix := rfl
@[simp] theorem Core.push_templates (x : Core) (n : BitVec 4) (v : VReg) : (x.push n v).templates = x.templates := rfl
@[simp] theorem Core.push_tlb (x : Core) (n : BitVec 4) (v : VReg) : (x.push n v).tlb = x.tlb := rfl
@[simp] theorem Core.push_kvc (x : Core) (n : BitVec 4) (v : VReg) : (x.push n v).kvc = x.kvc := rfl
@[simp] theorem Core.push_mail (x : Core) (n : BitVec 4) (v : VReg) : (x.push n v).mail = x.mail := rfl
@[simp] theorem Core.push_redun (x : Core) (n : BitVec 4) (v : VReg) : (x.push n v).redun = x.redun := rfl
@[simp] theorem Core.push_node (x : Core) (n : BitVec 4) (v : VReg) : (x.push n v).node = x.node := rfl
@[simp] theorem Core.push_tsSeen (x : Core) (n : BitVec 4) (v : VReg) : (x.push n v).tsSeen = x.tsSeen := rfl
@[simp] theorem Core.push_moved (x : Core) (n : BitVec 4) (v : VReg) : (x.push n v).moved = x.moved := rfl

/-! ### Reading after an update -/

theorem tabulate_getElem {α : Type} {n : Nat} (f : Fin n → α) (i : Nat) (h : i < n) : (tabulate f)[i] = f ⟨i, h⟩ := by
  simp [tabulate]
theorem vector_get {α : Type} {n : Nat} (v : Vector α n) (i : Fin n) : v.get i = v[i.val] := rfl

@[simp] theorem State.coreAt_setCoreAt (c d : CoreId) (x : Core) :
    (s.setCoreAt c x).coreAt d = if c = d then x else s.coreAt d := by
  simp only [State.coreAt, State.setCoreAt, vector_get, Vector.getElem_set, Fin.val_inj]

@[simp] theorem State.coreAt_onCore (c d : CoreId) (f : Core → Core) :
    (s.onCore c f).coreAt d = if c = d then f (s.coreAt c) else s.coreAt d := s.coreAt_setCoreAt c d _

@[simp] theorem State.coreAt_setCore (d : CoreId) (x : Core) :
    (s.setCore x).coreAt d = if s.cur = d then x else s.coreAt d := s.coreAt_setCoreAt s.cur d x

@[simp] theorem State.coreAt_mapCore (d : CoreId) (f : Core → Core) :
    (s.mapCore f).coreAt d = if s.cur = d then f s.core else s.coreAt d := s.coreAt_setCoreAt s.cur d _

@[simp] theorem State.coreAt_onCores (d : CoreId) (p : CoreId → Core → Bool) (f : Core → Core) :
    (s.onCores p f).coreAt d = if p d (s.coreAt d) then f (s.coreAt d) else s.coreAt d := by
  unfold State.coreAt State.onCores
  simp only [vector_get, tabulate_getElem]

/-- The cores that meet a condition are those whose core meets it. -/
theorem State.coresWhere_eq (p : CoreId → Core → Bool) : s.coresWhere p = allCores.filter fun c => p c (s.coreAt c) := by
  have h : allCores.zip s.cores.toList = allCores.map fun c => (c, s.coreAt c) := by
    apply List.ext_getElem
    · simp [allCores]
    · intro i h1 h2
      simp [allCores, State.coreAt, vector_get]
  unfold State.coresWhere
  rw [h, List.filter_map, List.map_map]
  simp [Function.comp_def]

@[simp] theorem State.core_setCore (x : Core) : (s.setCore x).core = x := by simp [State.core]
@[simp] theorem State.core_mapCore (f : Core → Core) : (s.mapCore f).core = f s.core := by simp [State.core]
@[simp] theorem State.regs_mapRegs (f : Regs → Regs) : (s.mapRegs f).regs = f s.regs := by
  simp [State.regs, State.mapRegs, Core.onRegs]
@[simp] theorem State.csr_mapRegs (f : Regs → Regs) : (s.mapRegs f).csr = s.csr := by
  simp [State.csr, State.mapRegs, Core.onRegs]
@[simp] theorem State.csr_mapCsr (f : Csr → Csr) : (s.mapCsr f).csr = f s.csr := by
  simp [State.csr, State.mapCsr, Core.onCsr]
@[simp] theorem State.regs_mapCsr (f : Csr → Csr) : (s.mapCsr f).regs = s.regs := by
  simp [State.regs, State.mapCsr, Core.onCsr]

@[simp] theorem State.partAt_onPart (p q : PartId) (f : Part → Part) :
    (s.onPart p f).partAt q = if p = q then f (s.partAt p) else s.partAt q := by
  simp only [State.partAt, State.onPart, vector_get, Vector.getElem_set, Fin.val_inj]

theorem dieIx_inj {a b : Die} : dieIx a = dieIx b ↔ a = b := by cases a <;> cases b <;> decide

@[simp] theorem State.xbarAt_onXbar (d k : Die) (f : Xbar → Xbar) :
    (s.onXbar d f).xbarAt k = if d = k then f (s.xbarAt d) else s.xbarAt k := by
  simp only [State.xbarAt, State.onXbar, vector_get, Vector.getElem_set, Fin.val_inj, dieIx_inj]

@[simp] theorem State.fabAt_onFab (d k : Die) (f : Fabric → Fabric) :
    (s.onFab d f).fabAt k = if d = k then f (s.fabAt d) else s.fabAt k := by
  simp only [State.fabAt, State.onFab, vector_get, Vector.getElem_set, Fin.val_inj, dieIx_inj]

@[simp] theorem State.vfAt_onVf (p q : PartId) (f : Vf → Vf) :
    (s.onVf p f).vfAt q = if p = q then f (s.vfAt p) else s.vfAt q := by
  simp only [State.vfAt, State.onVf, vector_get, Vector.getElem_set, Fin.val_inj]

@[simp] theorem State.sched_onSched (f : Sched → Sched) : (s.onSched f).sched = f s.sched := rfl
@[simp] theorem State.mem_onMem (f : Memory → Memory) : (s.onMem f).ms.mem = f s.ms.mem := rfl
@[simp] theorem State.freeCtr_takeFree : s.takeFree.freeCtr = s.freeCtr + 1 := rfl

@[simp] theorem Core.queue_setQueue (x : Core) (n m : BitVec 4) (q : QueueSt) :
    (x.setQueue n q).queue m = if n = m then q else x.queue m := by
  have h : (n.toNat = m.toNat) ↔ n = m := BitVec.toNat_inj
  have hm : (m.toFin : Fin 16).val = m.toNat := rfl
  simp only [Core.queue, Core.setQueue, vector_get, Vector.getElem_set, hm, h]

@[simp] theorem Core.tlAt_onTl (x : Core) (i j : Fin 3) (f : Timeline → Timeline) :
    (x.onTl i f).tlAt j = if i = j then f (x.tlAt i) else x.tlAt j := by
  simp only [Core.tlAt, Core.onTl, vector_get, Vector.getElem_set, Fin.val_inj]

/-! ### Registers -/

theorem toNat_ne6 {n m : BitVec 6} (h : n ≠ m) : n.toNat ≠ m.toNat := fun e => h (BitVec.eq_of_toNat_eq e)
theorem toNat_ne3 {n m : BitVec 3} (h : n ≠ m) : n.toNat ≠ m.toNat := fun e => h (BitVec.eq_of_toNat_eq e)

@[simp] theorem Regs.getS_zero (r : Regs) : r.getS 0 = 0 := rfl
@[simp] theorem Regs.setS_zero (r : Regs) (v : W) (t : BitVec 3) : r.setS 0 v t = r := rfl
@[simp] theorem Regs.setP_zero (r : Regs) (v : Bool) (t : BitVec 3) : r.setP 0 v t = r := rfl
@[simp] theorem Regs.setK_zero (r : Regs) (v : KReg) (t : BitVec 3) : r.setK 0 v t = r := rfl

theorem set_same {α : Type} {n : Nat} (v : Vector α n) (i : Nat) (h : i < n) (x : α) (j : Fin n) (e : i = j.val) :
    (v.set i x h).get j = x := by
  subst e; rw [vector_get]; exact Vector.getElem_set_self h

theorem set_other {α : Type} {n : Nat} (v : Vector α n) (i : Nat) (h : i < n) (x : α) (j : Fin n) (e : i ≠ j.val) :
    (v.set i x h).get j = v.get j := by
  rw [vector_get, vector_get]; exact Vector.getElem_set_ne h j.isLt e

theorem Regs.getS_setS_same (r : Regs) (n : BitVec 6) (v : W) (t : BitVec 3) (h : n ≠ 0) :
    (r.setS n v t).getS n = v := by
  unfold Regs.getS Regs.setS
  rw [if_neg h, if_neg h]
  exact set_same _ _ n.isLt _ _ rfl

theorem Regs.getS_setS_other (r : Regs) (n m : BitVec 6) (v : W) (t : BitVec 3) (h : n ≠ m) :
    (r.setS n v t).getS m = r.getS m := by
  unfold Regs.getS Regs.setS
  by_cases hm : m = 0
  · rw [if_pos hm, if_pos hm]
  · rw [if_neg hm, if_neg hm]
    split
    · rfl
    · exact set_other _ _ n.isLt _ _ (toNat_ne6 h)

theorem Regs.getV_setV_same (r : Regs) (n : BitVec 6) (v : VReg) (t : BitVec 3) : (r.setV n v t).getV n = v :=
  set_same _ _ n.isLt _ _ rfl

theorem Regs.getV_setV_other (r : Regs) (n m : BitVec 6) (v : VReg) (t : BitVec 3) (h : n ≠ m) :
    (r.setV n v t).getV m = r.getV m := set_other _ _ n.isLt _ _ (toNat_ne6 h)

theorem Regs.getP_setP_other (r : Regs) (n m : BitVec 3) (v : Bool) (t : BitVec 3) (h : n ≠ m) :
    (r.setP n v t).getP m = r.getP m := by
  unfold Regs.getP Regs.setP
  split
  · rfl
  · exact congrArg _ (set_other _ _ n.isLt _ _ (toNat_ne3 h))

/-! ### The order of a step -/

/-- A step with turns in the order takes the first. -/
theorem step_cons (t : Turn) (l : List Turn) (h : s.order = t :: l) : step s = takeTurn t { s with order := l } := by
  simp [step, nextStep, h]

end Sys2Proof.Machine
end

