-- ==== Sys2Proof/Laws/Memory.lean ====
section
/-!
SUPPORT. The canonical form of memory: every memory operation keeps it, and reset's memory has it.
-/

namespace Sys2Proof.Machine

/-! ### Cells -/

theorem cellsOk_mono {lo lo2 : Nat} (h : lo2 ≤ lo) : ∀ {l : List Host.Cell}, cellsOk lo l = true → cellsOk lo2 l = true
  | [], _ => rfl
  | (k, v) :: r, hl => by
    simp only [cellsOk, Bool.and_eq_true, decide_eq_true_eq] at hl ⊢
    exact ⟨⟨le_trans h hl.1.1, hl.1.2⟩, hl.2⟩

theorem cellsOk_filter (p : Host.Cell → Bool) : ∀ (l : List Host.Cell) (lo : Nat), cellsOk lo l = true →
    cellsOk lo (l.filter p) = true
  | [], _, _ => rfl
  | (k, v) :: r, lo, hl => by
    simp only [cellsOk, Bool.and_eq_true, decide_eq_true_eq] at hl
    have ih := cellsOk_filter p r (k + 1) hl.2
    rw [List.filter_cons]
    split
    · simp only [cellsOk, Bool.and_eq_true, decide_eq_true_eq]
      exact ⟨hl.1, ih⟩
    · exact cellsOk_mono (by omega) ih

theorem cellsOk_put : ∀ (l : List Host.Cell) (lo a : Nat) (v : Byte), lo ≤ a → v ≠ unlisted → cellsOk lo l = true →
    cellsOk lo (cellsPut l a v) = true
  | [], lo, a, v, ha, hv, _ => by simp [cellsPut, cellsOk, *]
  | (k, w) :: r, lo, a, v, ha, hv, hl => by
    have hl' := hl
    simp only [cellsOk, Bool.and_eq_true, decide_eq_true_eq] at hl
    obtain ⟨⟨h1, h2⟩, h3⟩ := hl
    unfold cellsPut
    split
    · simp only [cellsOk, Bool.and_eq_true, decide_eq_true_eq]
      exact ⟨⟨ha, by simpa using hv⟩, ⟨by omega, h2⟩, h3⟩
    · split
      · rename_i hak
        subst hak
        simp only [cellsOk, Bool.and_eq_true, decide_eq_true_eq]
        exact ⟨⟨h1, by simpa using hv⟩, h3⟩
      · simp only [cellsOk, Bool.and_eq_true, decide_eq_true_eq]
        exact ⟨⟨h1, h2⟩, cellsOk_put r (k + 1) a v (by omega) hv h3⟩

theorem cellsOk_drop : ∀ (l : List Host.Cell) (lo a : Nat), cellsOk lo l = true → cellsOk lo (cellsDrop l a) = true
  | [], _, _, _ => rfl
  | (k, v) :: r, lo, a, hl => by
    simp only [cellsOk, Bool.and_eq_true, decide_eq_true_eq] at hl
    have ih := cellsOk_drop r (k + 1) a hl.2
    unfold cellsDrop
    split
    · exact cellsOk_mono (by omega) ih
    · simp only [cellsOk, Bool.and_eq_true, decide_eq_true_eq]
      exact ⟨hl.1, ih⟩

theorem cellsOk_write (l : List Host.Cell) (lo a : Nat) (v : Byte) (ha : lo ≤ a) (hl : cellsOk lo l = true) :
    cellsOk lo (cellsWrite l a v) = true := by
  unfold cellsWrite
  split
  · exact cellsOk_drop _ _ _ hl
  · exact cellsOk_put _ _ _ _ ha (by assumption) hl

theorem numsOk_mono {lo lo2 : Nat} (h : lo2 ≤ lo) : ∀ {l : List Nat}, numsOk lo l = true → numsOk lo2 l = true
  | [], _ => rfl
  | k :: r, hl => by
    simp only [numsOk, Bool.and_eq_true, decide_eq_true_eq] at hl ⊢
    exact ⟨le_trans h hl.1, hl.2⟩

theorem numsOk_insert : ∀ (l : List Nat) (lo a : Nat), lo ≤ a → numsOk lo l = true → numsOk lo (numInsert l a) = true
  | [], lo, a, ha, _ => by simp [numInsert, numsOk, ha]
  | k :: r, lo, a, ha, hl => by
    have hl' := hl
    simp only [numsOk, Bool.and_eq_true, decide_eq_true_eq] at hl
    unfold numInsert
    split
    · simp only [numsOk, Bool.and_eq_true, decide_eq_true_eq]
      exact ⟨ha, by omega, hl.2⟩
    · split
      · exact hl'
      · simp only [numsOk, Bool.and_eq_true, decide_eq_true_eq]
        exact ⟨hl.1, numsOk_insert r (k + 1) a (by omega) hl.2⟩

theorem numsOk_filter (p : Nat → Bool) : ∀ (l : List Nat) (lo : Nat), numsOk lo l = true →
    numsOk lo (l.filter p) = true
  | [], _, _ => rfl
  | k :: r, lo, hl => by
    simp only [numsOk, Bool.and_eq_true, decide_eq_true_eq] at hl
    have ih := numsOk_filter p r (k + 1) hl.2
    rw [List.filter_cons]
    split
    · simp only [numsOk, Bool.and_eq_true, decide_eq_true_eq]
      exact ⟨hl.1, ih⟩
    · exact numsOk_mono (by omega) ih

/-! ### Memory -/

theorem Memory.wf_iff (m : Memory) : m.wf = true ↔ cellsOk 0 m.cells = true ∧ numsOk 0 m.poison = true := by
  simp [Memory.wf]

@[simp] theorem Memory.empty_wf : Memory.empty.wf = true := rfl

theorem Memory.wf_write {m : Memory} (h : m.wf = true) (a : Nat) (v : Byte) : (m.write a v).wf = true := by
  rw [Memory.wf_iff] at h ⊢
  exact ⟨cellsOk_write _ _ _ _ (Nat.zero_le a) h.1, h.2⟩

theorem Memory.wf_poisonAt {m : Memory} (h : m.wf = true) (a : Nat) : (m.poisonAt a).wf = true := by
  rw [Memory.wf_iff] at h ⊢
  exact ⟨h.1, numsOk_insert _ _ _ (Nat.zero_le _) h.2⟩

theorem Memory.wf_clearAt {m : Memory} (h : m.wf = true) (a : Nat) : (m.clearAt a).wf = true := by
  rw [Memory.wf_iff] at h ⊢
  exact ⟨h.1, numsOk_filter _ _ _ h.2⟩

/-- Any selection of the cells and of the poisoned words of a memory. -/
theorem Memory.wf_filter {m : Memory} (h : m.wf = true) (p : Host.Cell → Bool) (q : Nat → Bool) :
    (⟨m.cells.filter p, m.poison.filter q⟩ : Memory).wf = true := by
  rw [Memory.wf_iff] at h ⊢
  exact ⟨cellsOk_filter _ _ _ h.1, numsOk_filter _ _ _ h.2⟩

/-- A selection of the poisoned words beside the cells of a memory. -/
theorem Memory.wf_filterPoison {m n : Memory} (h : m.wf = true) (g : n.wf = true) (q : Nat → Bool) :
    (⟨m.cells, n.poison.filter q⟩ : Memory).wf = true := by
  rw [Memory.wf_iff] at h g ⊢
  exact ⟨h.1, numsOk_filter _ _ _ g.2⟩

theorem Memory.wf_zeroRange {m : Memory} (h : m.wf = true) (a n : Nat) : (m.zeroRange a n).wf = true :=
  Memory.wf_filter h _ _

/-- A fold of steps that each keep the form. -/
theorem Memory.wf_foldl {α : Type} (f : Memory → α → Memory) (hf : ∀ m a, m.wf = true → (f m a).wf = true) :
    ∀ (l : List α) {m : Memory}, m.wf = true → (l.foldl f m).wf = true
  | [], _, h => h
  | a :: r, _, h => Memory.wf_foldl f hf r (hf _ a h)

theorem Memory.wf_writeBytes : ∀ (l : List Byte) (a : Nat) {m : Memory}, m.wf = true → (m.writeBytes a l).wf = true
  | [], _, _, h => h
  | v :: r, a, _, h => Memory.wf_writeBytes r (a + 1) (Memory.wf_write h a v)

theorem Memory.wf_writeNum {m : Memory} (h : m.wf = true) (a n v : Nat) : (m.writeNum a n v).wf = true :=
  Memory.wf_writeBytes _ _ h

theorem Memory.wf_writeBits {m : Memory} (h : m.wf = true) (a : Nat) (v k : Byte) : (m.writeBits a v k).wf = true :=
  Memory.wf_write h _ _

theorem Memory.wf_writeList : ∀ (l : List (Nat × Byte × Byte)) {m : Memory}, m.wf = true → (m.writeList l).wf = true
  | [], _, h => h
  | (a, v, k) :: r, _, h => Memory.wf_writeList r (Memory.wf_writeBits h a v k)

theorem Memory.wf_store {m : Memory} (h : m.wf = true) (l : List (Nat × Byte × Byte)) : (m.store l).wf = true :=
  Memory.wf_foldl _ (fun _ a g => Memory.wf_clearAt g a) _ (Memory.wf_writeList l h)

theorem Memory.wf_copyRange {m : Memory} (h : m.wf = true) (a b n : Nat) : (m.copyRange a b n).wf = true := by
  unfold Memory.copyRange
  exact Memory.wf_foldl _ (fun _ _ g => Memory.wf_poisonAt g _) _
    (Memory.wf_foldl _ (fun _ _ g => Memory.wf_write g _ _) _ (Memory.wf_zeroRange h _ _))

theorem rewrite32_wf {m : Memory} (h : m.wf = true) (a p n : Nat) : (rewrite32 m a p n).wf = true :=
  Memory.wf_foldl _ (fun _ _ g => Memory.wf_writeNum g _ _ _) _ h

/-- A core's push keeps its scratch in the form, and so does a swap of its banks. -/
theorem Core.push_wf {x : Core} (h : x.scratch.wf = true) (n : BitVec 4) (v : VReg) : (x.push n v).scratch.wf = true :=
  Memory.wf_store h _

theorem Core.swapBanks_wf {x : Core} (h : x.scratch.wf = true) : x.swapBanks.scratch.wf = true := by
  unfold Core.swapBanks
  exact Memory.wf_foldl _ (fun _ _ g => Memory.wf_zeroRange g _ _) _ h

theorem Core.restoreKept_wf {x : Core} (h : x.scratch.wf = true) (k : W) (l : List Host.Cell)
    (bad : List Nat) : (x.restoreKept k l bad).wf = true :=
  Memory.wf_foldl _ (fun _ _ g => Memory.wf_poisonAt g _) _
    (Memory.wf_foldl _ (fun _ _ g => Memory.wf_write g _ _) _ (Memory.wf_filter h _ _))

theorem Core.context_wf {x : Core} (h : x.scratch.wf = true) : x.context.scratch.wf = true :=
  Memory.wf_filter h _ _

/-! ### The module's memories -/

/-- An update of one memory that keeps the form keeps every memory of the module in it. -/
theorem State.Canonical.onMem {s : State} (h : s.Canonical) {f : Memory → Memory}
    (hf : ∀ m, m.wf = true → (f m).wf = true) : (s.onMem f).Canonical :=
  ⟨hf _ h.1, h.2.1, h.2.2⟩

theorem State.Canonical.setCoreAt {s : State} (h : s.Canonical) (c : CoreId) {x : Core} (hx : x.scratch.wf = true) :
    (s.setCoreAt c x).Canonical := by
  refine ⟨h.1, fun d => ?_, h.2.2⟩
  rw [State.coreAt_setCoreAt]
  split
  · exact hx
  · exact h.2.1 d

theorem State.Canonical.onCore {s : State} (h : s.Canonical) (c : CoreId) {f : Core → Core}
    (hf : (f (s.coreAt c)).scratch.wf = true) : (s.onCore c f).Canonical := h.setCoreAt c hf

theorem State.Canonical.mapCore {s : State} (h : s.Canonical) {f : Core → Core}
    (hf : (f s.core).scratch.wf = true) : (s.mapCore f).Canonical := h.setCoreAt _ hf

/-- An update of a core that leaves its scratch alone. -/
theorem State.Canonical.onCore_same {s : State} (h : s.Canonical) (c : CoreId) {f : Core → Core}
    (hf : ∀ x, (f x).scratch = x.scratch) : (s.onCore c f).Canonical :=
  h.onCore c (by rw [hf]; exact h.2.1 c)

theorem State.Canonical.onCores {s : State} (h : s.Canonical) (p : CoreId → Core → Bool) {f : Core → Core}
    (hf : ∀ x, x.scratch.wf = true → (f x).scratch.wf = true) : (s.onCores p f).Canonical := by
  refine ⟨by rw [State.onCores_ms]; exact h.1, fun d => ?_, by rw [State.onCores_satchels]; exact h.2.2⟩
  rw [State.coreAt_onCores]
  split
  · exact hf _ (h.2.1 d)
  · exact h.2.1 d

theorem State.Canonical.mapRegs {s : State} (h : s.Canonical) (f : Regs → Regs) : (s.mapRegs f).Canonical :=
  h.setCoreAt _ (h.2.1 _)

theorem State.Canonical.mapCsr {s : State} (h : s.Canonical) (f : Csr → Csr) : (s.mapCsr f).Canonical :=
  h.setCoreAt _ (h.2.1 _)

theorem State.Canonical.mapSeq {s : State} (h : s.Canonical) (f : Seq → Seq) : (s.mapSeq f).Canonical :=
  h.setCoreAt _ (h.2.1 _)

theorem State.Canonical.onSched {s : State} (h : s.Canonical) (f : Sched → Sched) : (s.onSched f).Canonical := h
theorem State.Canonical.onPart {s : State} (h : s.Canonical) (p : PartId) (f : Part → Part) : (s.onPart p f).Canonical := h
theorem State.Canonical.onXbar {s : State} (h : s.Canonical) (d : Die) (f : Xbar → Xbar) : (s.onXbar d f).Canonical := h
theorem State.Canonical.onFab {s : State} (h : s.Canonical) (d : Die) (f : Fabric → Fabric) : (s.onFab d f).Canonical := h
theorem State.Canonical.onVf {s : State} (h : s.Canonical) (p : PartId) (f : Vf → Vf) : (s.onVf p f).Canonical := h

/-- A fold of steps that each keep the module's memories. -/
theorem State.Canonical.foldl {α : Type} {f : State → α → State} (hf : ∀ s a, s.Canonical → (f s a).Canonical) :
    ∀ (l : List α) {s : State}, s.Canonical → (l.foldl f s).Canonical
  | [], _, h => h
  | a :: r, _, h => State.Canonical.foldl hf r (hf _ a h)

/-- The memory of the module at reset. -/
theorem reset_mem_wf : State.reset.ms.mem.wf = true := rfl

end Sys2Proof.Machine
end

