-- ==== Sys2Proof/Laws/Ops.lean ====
section
/-!
SUPPORT. What each shared operation of an instruction's meaning can do, said once: raising a trap, holding, the
readiness of registers, compare points, control registers, queues and timelines.
-/

namespace Sys2Proof.Machine

/-- A meaning that always answers a next state. -/
def Out.isNext : Out → Bool
  | .next _ => true
  | _ => false

theorem Out.isNext_iff {o : Out} : o.isNext = true ↔ ∃ t : State, o = .next t := by
  cases o <;> simp [Out.isNext]

/-! ### Holding and raising (07_faults R128, R129) -/

theorem hold_eq (s : State) : hold s = .next { s with issue := { s.issue with held := true } } := rfl

/-- Inside a group an operation alone, or of a leader, records its failure and changes nothing else. -/
theorem raise_opened (t : Trap) (s : State) (ho : s.issue.opened = true) (h1 : s.csr.nrep.toNat ≤ 1)
    (he : t.code ≠ 0x12) :
    raise t s = .next { s with issue := { s.issue with fails := s.issue.fails ++ [⟨s.issue.ctx.idx, t⟩] } } := by
  have h2 : s.leadersTrap t = some t := by
    unfold State.leadersTrap
    rw [if_neg]
    rintro ⟨-, h, -⟩
    omega
  unfold raise
  rw [if_neg (fun h => he h.1), h2]
  simp [ho]

/-- Whatever a failing operation of a group does, it is to the record of the group. -/
theorem raise_frame (t : Trap) (s u : State) (ho : s.issue.opened = true) (h : raise t s = .next u) :
    u = { s with issue := u.issue } := by
  unfold raise at h
  split at h
  · cases h; rfl
  · rw [if_pos ho] at h
    cases h; rfl

theorem raise_next (t : Trap) (s : State) : (raise t s).isNext = true := by
  unfold raise
  split
  · rfl
  · split <;> rfl

theorem raiseAfter_next (t : Trap) (s : State) : (raiseAfter t s).isNext = true := by
  unfold raiseAfter
  split
  · exact raise_next t s
  · split
    · rfl
    · dsimp only
      split <;> rfl

/-- A class C trap of a group that issues waits for its end. -/
theorem raiseAfter_opened (t : Trap) (s : State) (ho : s.issue.opened = true) (h1 : s.csr.nrep.toNat ≤ 1)
    (hm : s.csr.hm = false) :
    raiseAfter t s = .next { s with issue := { s.issue with after := some { t with mask := 2 ^ s.issue.ctx.idx } } } := by
  have h2 : s.leadersTrap t 1 = some t := by
    unfold State.leadersTrap
    rw [if_neg]
    rintro ⟨-, h, -⟩
    omega
  unfold raiseAfter
  rw [hm, h2]
  simp [ho]

theorem illegalOp_next (s : State) : (illegalOp s).isNext = true := raise_next _ s
theorem axisCollision_next (s : State) : (axisCollision s).isNext = true := raise_next _ s

/-! ### Readiness (10_core R195 to R198) -/

/-- An operation whose registers are full does what its body does. -/
theorem withReady_go {i : Instr} {s : State} (h : s.readyFor i = .go)
    (body : State → Out) : withReady i body s = body s := by
  simp [withReady, h]

/-- Otherwise it holds, or raises EARLY_READ. -/
theorem withReady_cases (i : Instr) (body : State → Out) (s : State) :
    (s.readyFor i = .go ∧ withReady i body s = body s) ∨
    withReady i body s = hold s ∨ ∃ f b, withReady i body s = raise { code := 0x12, info := .ofNat 64 f, self := b } s := by
  unfold withReady
  split
  · exact .inl ⟨‹_›, rfl⟩
  · exact .inr (.inl rfl)
  · exact .inr (.inr ⟨_, _, rfl⟩)

theorem withReady_next (i : Instr) {body : State → Out} (hb : ∀ s, (body s).isNext = true) (s : State) :
    (withReady i body s).isNext = true := by
  rcases withReady_cases i body s with ⟨-, h⟩ | h | ⟨f, b, h⟩ <;> rw [h]
  · exact hb s
  · rfl
  · exact raise_next _ _

/-! ### Compare points (09_redundancy R182) -/

theorem comparePoint_go {s : State} (h : s.csr.nrep.toNat ≤ 1) (k : Nat) (body : State → Out) :
    comparePoint k body s = body s := by simp [comparePoint, h]

theorem comparePoint_next (k : Nat) {body : State → Out} (hb : ∀ s, (body s).isNext = true) (s : State) :
    (comparePoint k body s).isNext = true := by
  unfold comparePoint
  split
  · exact hb s
  · rfl

/-! ### Control registers (14_scalar R299) -/

theorem follows_alone {s : State} (h : s.csr.nrep.toNat ≤ 1) : s.follows = false := by
  have : ¬ 1 < s.csr.nrep.toNat := by omega
  simp [State.follows, this]
theorem leads_alone {s : State} (h : s.csr.nrep.toNat ≤ 1) : s.leads = false := by
  have : ¬ 1 < s.csr.nrep.toNat := by omega
  simp [State.leads, this]

/-- A write of a control register leaves the replica's number alone. -/
theorem Csr.write_nrep (c : Csr) (n : Nat) (v : W) : (c.write n v).nrep = c.nrep := by
  unfold Csr.write Csr.writeVfmt
  split <;> first | rfl | (split <;> rfl)

theorem State.writeCsr_nrep (s : State) (n : Nat) (v : W) : (s.writeCsr n v).csr.nrep = s.csr.nrep := by
  unfold State.writeCsr
  rw [State.csr_mapCsr]
  split <;> exact Csr.write_nrep _ _ _

/-- A control register operation on a listed register, with an untagged source and no replica, gives sd the old value
and writes the new one. -/
theorem csrOp_ok (i : Instr) (d : BitVec 6) (n : Nat) (a : Option Src) (f : W → W → W) (s : State) (old : W)
    (hr : s.readyFor i = .go) (ho : s.readCsr n = some old)
    (ha : ∀ x ∈ a, s.regs.tagOf (sOpd x.reg) = 0) (h7 : n = 7 → s.flagsSettled = true)
    (h1 : s.csr.nrep.toNat ≤ 1) :
    csrOp i d n a f s = .next ((match a with
      | some x => s.writeCsr n (f old (s.regs.getS x.reg))
      | none => s).mapRegs fun r => r.setS d old) := by
  have h7' : ¬(n = 7 ∧ (!s.flagsSettled) = true) := by
    rintro ⟨h, g⟩; rw [h7 h] at g; exact absurd g (by decide)
  have ha' : ¬((a.any fun x => s.regs.tagOf (sOpd x.reg) != 0) = true) := by
    cases a with
    | none => simp
    | some x => simp [ha x rfl]
  unfold csrOp
  rw [withReady_go hr]
  simp only [ho, if_neg ha', if_neg h7']
  cases a with
  | none =>
    have hm : (s.mapRegs fun r => r.setS d old).csr.nrep.toNat ≤ 1 := by rw [State.csr_mapRegs]; exact h1
    simp [follows_alone h1]
    intro _ hc
    exact absurd (hc.symm.trans (leads_alone hm)) (by decide)
  | some x =>
    have h2 : (s.writeCsr n (f old (s.regs.getS x.reg))).csr.nrep.toNat ≤ 1 := by
      rw [State.writeCsr_nrep]; exact h1
    have hm : ((s.writeCsr n (f old (s.regs.getS x.reg))).mapRegs
        fun r => r.setS d old).csr.nrep.toNat ≤ 1 := by rw [State.csr_mapRegs]; exact h2
    simp [follows_alone h2]
    intro _ hc
    exact absurd (hc.symm.trans (leads_alone hm)) (by decide)

/-! ### Queues and timelines (10_core R214 to R216) -/

/-- A push advances PI and leaves the other fields of every queue alone. -/
theorem Core.push_queue (x : Core) (n m : BitVec 4) (v : VReg) :
    (x.push n v).queue m = if n = m then { x.queue n with pi := (x.queue n).pi + 1 } else x.queue m :=
  Core.queue_setQueue x n m _

/-- A pop advances CI. -/
theorem Core.pop_queue (x : Core) (n m : BitVec 4) (k : Nat) :
    (x.pop n k).queue m = if n = m then { x.queue n with ci := (x.queue n).ci + .ofNat 16 k } else x.queue m :=
  Core.queue_setQueue x n m _

/-- A timeline never goes back while its count does not wrap, and completing a command keeps its issued count. -/
theorem Timeline.advance_issued : ∀ (k : Nat) (t : Timeline), (t.advance k).issued = t.issued
  | 0, _ => rfl
  | k + 1, t => by
    unfold Timeline.advance
    split
    · exact Timeline.advance_issued k _
    · rfl

/-- ts is never lowered (16_sync R349). -/
theorem Core.signal_le (x : Core) (now v : W) : x.ts.toNat ≤ (x.signal now v).ts.toNat := by
  unfold Core.signal
  split
  · dsimp only; omega
  · exact Nat.le_refl _

/-! ### Traps (07_faults R134) -/

/-- Entering a handler leaves the registers of the node alone when no producer is outstanding. -/
theorem Core.enterHandler_regs (x : Core) (t : Trap) (sync : Bool) (pc : Pc) (now : W) (h : x.fills = []) :
    (x.enterHandler t sync pc now).regs = x.regs ∧ (x.enterHandler t sync pc now).scratch = x.scratch ∧
    (x.enterHandler t sync pc now).lift = x.lift := by
  unfold Core.enterHandler Core.clearErr Core.drain
  rw [h]
  dsimp only [List.foldl_nil]
  split <;> exact ⟨rfl, rfl, rfl⟩

theorem Core.trapReturn_hm (x : Core) : x.trapReturn.csr.hm = false := rfl

/-! ### Running a group (10_core R191) -/

@[simp] theorem runOps_nil (s : State) : runOps [] s = .next s := rfl

theorem runOps_cons (i : Instr) (c : OpCtx) (l : List (Instr × OpCtx)) (s : State) :
    runOps ((i, c) :: l) s = match exec i { s with issue := { s.issue with ctx := c } } with
      | .next t => runOps l t
      | o => o := rfl

theorem runOps_next : ∀ (l : List (Instr × OpCtx)) (s : State),
    (∀ x ∈ l, ∀ s, Out.isNext (exec x.1 s) = true) → (runOps l s).isNext = true
  | [], _, _ => rfl
  | (i, c) :: l, s, h => by
    rw [runOps_cons]
    obtain ⟨t, ht⟩ := Out.isNext_iff.1 (h (i, c) (by simp) { s with issue := { s.issue with ctx := c } })
    rw [ht]
    exact runOps_next l t fun x hx => h x (by simp [hx])

end Sys2Proof.Machine
end

