-- ==== Sys2Proof/Laws/PerInstr.lean ====
section
/-!
SUPPORT. What holds of every instruction as syntax, one lemma for each constructor: the word that encodes it leaves bit
31, the stop bit of a slot, free (12_encoding R239).
-/

namespace Sys2Proof.Laws

theorem b2n_le (b : Bool) : b2n b ≤ 1 := by cases b <;> decide

theorem Src.toN_lt (a : Src) : a.toN < 128 := by
  have h := b2n_le a.wait
  have := a.reg.isLt
  unfold Sys2Proof.Src.toN
  omega

theorem FenceKind.toN_lt (k : FenceKind) : k.toN < 4 := by cases k <;> decide

/-- The instruction's word, where it has one, is below 2³¹; a micro-word has 32 bits. -/
def WordRange.Statement (i : Instr) : Prop := ∀ n, encodeBody i = some n → n < if i.isMicro then 2 ^ 32 else 2 ^ 31

theorem WordRange.sAdd (d : BitVec 6) (a : Src) (b : Src) : WordRange.Statement (.sAdd d a b) := by
  intro n h
  cases h
  have h0 := Src.toN_lt a
  have h1 := Src.toN_lt b
  show _ < 2 ^ 31
  omega

theorem WordRange.sSub (d : BitVec 6) (a : Src) (b : Src) : WordRange.Statement (.sSub d a b) := by
  intro n h
  cases h
  have h0 := Src.toN_lt a
  have h1 := Src.toN_lt b
  show _ < 2 ^ 31
  omega

theorem WordRange.sMul (d : BitVec 6) (a : Src) (b : Src) : WordRange.Statement (.sMul d a b) := by
  intro n h
  cases h
  have h0 := Src.toN_lt a
  have h1 := Src.toN_lt b
  show _ < 2 ^ 31
  omega

theorem WordRange.sMulh (d : BitVec 6) (a : Src) (b : Src) : WordRange.Statement (.sMulh d a b) := by
  intro n h
  cases h
  have h0 := Src.toN_lt a
  have h1 := Src.toN_lt b
  show _ < 2 ^ 31
  omega

theorem WordRange.sMulhn (d : BitVec 6) (a : Src) (b : Src) : WordRange.Statement (.sMulhn d a b) := by
  intro n h
  cases h
  have h0 := Src.toN_lt a
  have h1 := Src.toN_lt b
  show _ < 2 ^ 31
  omega

theorem WordRange.sDiv (d : BitVec 6) (a : Src) (b : Src) : WordRange.Statement (.sDiv d a b) := by
  intro n h
  cases h
  have h0 := Src.toN_lt a
  have h1 := Src.toN_lt b
  show _ < 2 ^ 31
  omega

theorem WordRange.sDivn (d : BitVec 6) (a : Src) (b : Src) : WordRange.Statement (.sDivn d a b) := by
  intro n h
  cases h
  have h0 := Src.toN_lt a
  have h1 := Src.toN_lt b
  show _ < 2 ^ 31
  omega

theorem WordRange.sRem (d : BitVec 6) (a : Src) (b : Src) : WordRange.Statement (.sRem d a b) := by
  intro n h
  cases h
  have h0 := Src.toN_lt a
  have h1 := Src.toN_lt b
  show _ < 2 ^ 31
  omega

theorem WordRange.sRemn (d : BitVec 6) (a : Src) (b : Src) : WordRange.Statement (.sRemn d a b) := by
  intro n h
  cases h
  have h0 := Src.toN_lt a
  have h1 := Src.toN_lt b
  show _ < 2 ^ 31
  omega

theorem WordRange.sAnd (d : BitVec 6) (a : Src) (b : Src) : WordRange.Statement (.sAnd d a b) := by
  intro n h
  cases h
  have h0 := Src.toN_lt a
  have h1 := Src.toN_lt b
  show _ < 2 ^ 31
  omega

theorem WordRange.sOr (d : BitVec 6) (a : Src) (b : Src) : WordRange.Statement (.sOr d a b) := by
  intro n h
  cases h
  have h0 := Src.toN_lt a
  have h1 := Src.toN_lt b
  show _ < 2 ^ 31
  omega

theorem WordRange.sXor (d : BitVec 6) (a : Src) (b : Src) : WordRange.Statement (.sXor d a b) := by
  intro n h
  cases h
  have h0 := Src.toN_lt a
  have h1 := Src.toN_lt b
  show _ < 2 ^ 31
  omega

theorem WordRange.sAndn (d : BitVec 6) (a : Src) (b : Src) : WordRange.Statement (.sAndn d a b) := by
  intro n h
  cases h
  have h0 := Src.toN_lt a
  have h1 := Src.toN_lt b
  show _ < 2 ^ 31
  omega

theorem WordRange.sSll (d : BitVec 6) (a : Src) (b : Src) : WordRange.Statement (.sSll d a b) := by
  intro n h
  cases h
  have h0 := Src.toN_lt a
  have h1 := Src.toN_lt b
  show _ < 2 ^ 31
  omega

theorem WordRange.sSrl (d : BitVec 6) (a : Src) (b : Src) : WordRange.Statement (.sSrl d a b) := by
  intro n h
  cases h
  have h0 := Src.toN_lt a
  have h1 := Src.toN_lt b
  show _ < 2 ^ 31
  omega

theorem WordRange.sSra (d : BitVec 6) (a : Src) (b : Src) : WordRange.Statement (.sSra d a b) := by
  intro n h
  cases h
  have h0 := Src.toN_lt a
  have h1 := Src.toN_lt b
  show _ < 2 ^ 31
  omega

theorem WordRange.sMin (d : BitVec 6) (a : Src) (b : Src) : WordRange.Statement (.sMin d a b) := by
  intro n h
  cases h
  have h0 := Src.toN_lt a
  have h1 := Src.toN_lt b
  show _ < 2 ^ 31
  omega

theorem WordRange.sMax (d : BitVec 6) (a : Src) (b : Src) : WordRange.Statement (.sMax d a b) := by
  intro n h
  cases h
  have h0 := Src.toN_lt a
  have h1 := Src.toN_lt b
  show _ < 2 ^ 31
  omega

theorem WordRange.sMinn (d : BitVec 6) (a : Src) (b : Src) : WordRange.Statement (.sMinn d a b) := by
  intro n h
  cases h
  have h0 := Src.toN_lt a
  have h1 := Src.toN_lt b
  show _ < 2 ^ 31
  omega

theorem WordRange.sMaxn (d : BitVec 6) (a : Src) (b : Src) : WordRange.Statement (.sMaxn d a b) := by
  intro n h
  cases h
  have h0 := Src.toN_lt a
  have h1 := Src.toN_lt b
  show _ < 2 ^ 31
  omega

theorem WordRange.sSlt (d : BitVec 6) (a : Src) (b : Src) : WordRange.Statement (.sSlt d a b) := by
  intro n h
  cases h
  have h0 := Src.toN_lt a
  have h1 := Src.toN_lt b
  show _ < 2 ^ 31
  omega

theorem WordRange.sSltn (d : BitVec 6) (a : Src) (b : Src) : WordRange.Statement (.sSltn d a b) := by
  intro n h
  cases h
  have h0 := Src.toN_lt a
  have h1 := Src.toN_lt b
  show _ < 2 ^ 31
  omega

theorem WordRange.sSel (d : BitVec 6) (a : Src) (b : Src) : WordRange.Statement (.sSel d a b) := by
  intro n h
  cases h
  have h0 := Src.toN_lt a
  have h1 := Src.toN_lt b
  show _ < 2 ^ 31
  omega

theorem WordRange.sMov (d : BitVec 6) (a : Src) : WordRange.Statement (.sMov d a) := by
  intro n h
  cases h
  have h0 := Src.toN_lt a
  show _ < 2 ^ 31
  omega

theorem WordRange.sClz (d : BitVec 6) (a : Src) : WordRange.Statement (.sClz d a) := by
  intro n h
  cases h
  have h0 := Src.toN_lt a
  show _ < 2 ^ 31
  omega

theorem WordRange.sCtz (d : BitVec 6) (a : Src) : WordRange.Statement (.sCtz d a) := by
  intro n h
  cases h
  have h0 := Src.toN_lt a
  show _ < 2 ^ 31
  omega

theorem WordRange.sPopc (d : BitVec 6) (a : Src) : WordRange.Statement (.sPopc d a) := by
  intro n h
  cases h
  have h0 := Src.toN_lt a
  show _ < 2 ^ 31
  omega

theorem WordRange.sBswap (d : BitVec 6) (a : Src) : WordRange.Statement (.sBswap d a) := by
  intro n h
  cases h
  have h0 := Src.toN_lt a
  show _ < 2 ^ 31
  omega

theorem WordRange.sAddi (d : BitVec 6) (a : Src) (i : BitVec 8) : WordRange.Statement (.sAddi d a i) := by
  intro n h
  cases h
  have h0 := Src.toN_lt a
  show _ < 2 ^ 31
  omega

theorem WordRange.sMuli (d : BitVec 6) (a : Src) (i : BitVec 8) : WordRange.Statement (.sMuli d a i) := by
  intro n h
  cases h
  have h0 := Src.toN_lt a
  show _ < 2 ^ 31
  omega

theorem WordRange.sAndi (d : BitVec 6) (a : Src) (i : BitVec 8) : WordRange.Statement (.sAndi d a i) := by
  intro n h
  cases h
  have h0 := Src.toN_lt a
  show _ < 2 ^ 31
  omega

theorem WordRange.sOri (d : BitVec 6) (a : Src) (i : BitVec 8) : WordRange.Statement (.sOri d a i) := by
  intro n h
  cases h
  have h0 := Src.toN_lt a
  show _ < 2 ^ 31
  omega

theorem WordRange.sXori (d : BitVec 6) (a : Src) (i : BitVec 8) : WordRange.Statement (.sXori d a i) := by
  intro n h
  cases h
  have h0 := Src.toN_lt a
  show _ < 2 ^ 31
  omega

theorem WordRange.sSlli (d : BitVec 6) (a : Src) (i : BitVec 6) : WordRange.Statement (.sSlli d a i) := by
  intro n h
  cases h
  have h0 := Src.toN_lt a
  show _ < 2 ^ 31
  omega

theorem WordRange.sSrli (d : BitVec 6) (a : Src) (i : BitVec 6) : WordRange.Statement (.sSrli d a i) := by
  intro n h
  cases h
  have h0 := Src.toN_lt a
  show _ < 2 ^ 31
  omega

theorem WordRange.sSrai (d : BitVec 6) (a : Src) (i : BitVec 6) : WordRange.Statement (.sSrai d a i) := by
  intro n h
  cases h
  have h0 := Src.toN_lt a
  show _ < 2 ^ 31
  omega

theorem WordRange.sSlti (d : BitVec 6) (a : Src) (i : BitVec 8) : WordRange.Statement (.sSlti d a i) := by
  intro n h
  cases h
  have h0 := Src.toN_lt a
  show _ < 2 ^ 31
  omega

theorem WordRange.sSltni (d : BitVec 6) (a : Src) (i : BitVec 8) : WordRange.Statement (.sSltni d a i) := by
  intro n h
  cases h
  have h0 := Src.toN_lt a
  show _ < 2 ^ 31
  omega

theorem WordRange.sLi (d : BitVec 6) (i : BitVec 8) : WordRange.Statement (.sLi d i) := by
  intro n h
  cases h
  show _ < 2 ^ 31
  omega

theorem WordRange.sLih (d : BitVec 6) (a : Src) (i : BitVec 8) : WordRange.Statement (.sLih d a i) := by
  intro n h
  cases h
  have h0 := Src.toN_lt a
  show _ < 2 ^ 31
  omega

theorem WordRange.sLdB (d : BitVec 6) (a : Src) (i : BitVec 8) : WordRange.Statement (.sLdB d a i) := by
  intro n h
  cases h
  have h0 := Src.toN_lt a
  show _ < 2 ^ 31
  omega

theorem WordRange.sLdBn (d : BitVec 6) (a : Src) (i : BitVec 8) : WordRange.Statement (.sLdBn d a i) := by
  intro n h
  cases h
  have h0 := Src.toN_lt a
  show _ < 2 ^ 31
  omega

theorem WordRange.sLdH (d : BitVec 6) (a : Src) (i : BitVec 8) : WordRange.Statement (.sLdH d a i) := by
  intro n h
  cases h
  have h0 := Src.toN_lt a
  show _ < 2 ^ 31
  omega

theorem WordRange.sLdHn (d : BitVec 6) (a : Src) (i : BitVec 8) : WordRange.Statement (.sLdHn d a i) := by
  intro n h
  cases h
  have h0 := Src.toN_lt a
  show _ < 2 ^ 31
  omega

theorem WordRange.sLdW (d : BitVec 6) (a : Src) (i : BitVec 8) : WordRange.Statement (.sLdW d a i) := by
  intro n h
  cases h
  have h0 := Src.toN_lt a
  show _ < 2 ^ 31
  omega

theorem WordRange.sLdWn (d : BitVec 6) (a : Src) (i : BitVec 8) : WordRange.Statement (.sLdWn d a i) := by
  intro n h
  cases h
  have h0 := Src.toN_lt a
  show _ < 2 ^ 31
  omega

theorem WordRange.sLdD (d : BitVec 6) (a : Src) (i : BitVec 8) : WordRange.Statement (.sLdD d a i) := by
  intro n h
  cases h
  have h0 := Src.toN_lt a
  show _ < 2 ^ 31
  omega

theorem WordRange.sStB (d : BitVec 6) (a : Src) (i : BitVec 8) : WordRange.Statement (.sStB d a i) := by
  intro n h
  cases h
  have h0 := Src.toN_lt a
  show _ < 2 ^ 31
  omega

theorem WordRange.sStH (d : BitVec 6) (a : Src) (i : BitVec 8) : WordRange.Statement (.sStH d a i) := by
  intro n h
  cases h
  have h0 := Src.toN_lt a
  show _ < 2 ^ 31
  omega

theorem WordRange.sStW (d : BitVec 6) (a : Src) (i : BitVec 8) : WordRange.Statement (.sStW d a i) := by
  intro n h
  cases h
  have h0 := Src.toN_lt a
  show _ < 2 ^ 31
  omega

theorem WordRange.sStD (d : BitVec 6) (a : Src) (i : BitVec 8) : WordRange.Statement (.sStD d a i) := by
  intro n h
  cases h
  have h0 := Src.toN_lt a
  show _ < 2 ^ 31
  omega

theorem WordRange.sLdAcqW (d : BitVec 6) (a : Src) (i : BitVec 8) : WordRange.Statement (.sLdAcqW d a i) := by
  intro n h
  cases h
  have h0 := Src.toN_lt a
  show _ < 2 ^ 31
  omega

theorem WordRange.sLdAcqD (d : BitVec 6) (a : Src) (i : BitVec 8) : WordRange.Statement (.sLdAcqD d a i) := by
  intro n h
  cases h
  have h0 := Src.toN_lt a
  show _ < 2 ^ 31
  omega

theorem WordRange.sStRelW (d : BitVec 6) (a : Src) (i : BitVec 8) : WordRange.Statement (.sStRelW d a i) := by
  intro n h
  cases h
  have h0 := Src.toN_lt a
  show _ < 2 ^ 31
  omega

theorem WordRange.sStRelD (d : BitVec 6) (a : Src) (i : BitVec 8) : WordRange.Statement (.sStRelD d a i) := by
  intro n h
  cases h
  have h0 := Src.toN_lt a
  show _ < 2 ^ 31
  omega

theorem WordRange.sCmpEq (p : BitVec 3) (a : Src) (b : Src) : WordRange.Statement (.sCmpEq p a b) := by
  intro n h
  cases h
  have h0 := Src.toN_lt a
  have h1 := Src.toN_lt b
  show _ < 2 ^ 31
  omega

theorem WordRange.sCmpNe (p : BitVec 3) (a : Src) (b : Src) : WordRange.Statement (.sCmpNe p a b) := by
  intro n h
  cases h
  have h0 := Src.toN_lt a
  have h1 := Src.toN_lt b
  show _ < 2 ^ 31
  omega

theorem WordRange.sCmpLt (p : BitVec 3) (a : Src) (b : Src) : WordRange.Statement (.sCmpLt p a b) := by
  intro n h
  cases h
  have h0 := Src.toN_lt a
  have h1 := Src.toN_lt b
  show _ < 2 ^ 31
  omega

theorem WordRange.sCmpGe (p : BitVec 3) (a : Src) (b : Src) : WordRange.Statement (.sCmpGe p a b) := by
  intro n h
  cases h
  have h0 := Src.toN_lt a
  have h1 := Src.toN_lt b
  show _ < 2 ^ 31
  omega

theorem WordRange.sCmpLtn (p : BitVec 3) (a : Src) (b : Src) : WordRange.Statement (.sCmpLtn p a b) := by
  intro n h
  cases h
  have h0 := Src.toN_lt a
  have h1 := Src.toN_lt b
  show _ < 2 ^ 31
  omega

theorem WordRange.sCmpGen (p : BitVec 3) (a : Src) (b : Src) : WordRange.Statement (.sCmpGen p a b) := by
  intro n h
  cases h
  have h0 := Src.toN_lt a
  have h1 := Src.toN_lt b
  show _ < 2 ^ 31
  omega

theorem WordRange.sCmpiEq (p : BitVec 3) (a : Src) (i : BitVec 8) : WordRange.Statement (.sCmpiEq p a i) := by
  intro n h
  cases h
  have h0 := Src.toN_lt a
  show _ < 2 ^ 31
  omega

theorem WordRange.sCmpiNe (p : BitVec 3) (a : Src) (i : BitVec 8) : WordRange.Statement (.sCmpiNe p a i) := by
  intro n h
  cases h
  have h0 := Src.toN_lt a
  show _ < 2 ^ 31
  omega

theorem WordRange.sCmpiLt (p : BitVec 3) (a : Src) (i : BitVec 8) : WordRange.Statement (.sCmpiLt p a i) := by
  intro n h
  cases h
  have h0 := Src.toN_lt a
  show _ < 2 ^ 31
  omega

theorem WordRange.sCmpiGe (p : BitVec 3) (a : Src) (i : BitVec 8) : WordRange.Statement (.sCmpiGe p a i) := by
  intro n h
  cases h
  have h0 := Src.toN_lt a
  show _ < 2 ^ 31
  omega

theorem WordRange.sFence (k : FenceKind) (s : BitVec 3) : WordRange.Statement (.sFence k s) := by
  intro n h
  cases h
  have h0 := FenceKind.toN_lt k
  show _ < 2 ^ 31
  omega

theorem WordRange.sCsrr (d : BitVec 6) (c : BitVec 8) : WordRange.Statement (.sCsrr d c) := by
  intro n h
  cases h
  show _ < 2 ^ 31
  omega

theorem WordRange.sCsrw (d : BitVec 6) (a : Src) (c : BitVec 8) : WordRange.Statement (.sCsrw d a c) := by
  intro n h
  cases h
  have h0 := Src.toN_lt a
  show _ < 2 ^ 31
  omega

theorem WordRange.sCsrs (d : BitVec 6) (a : Src) (c : BitVec 8) : WordRange.Statement (.sCsrs d a c) := by
  intro n h
  cases h
  have h0 := Src.toN_lt a
  show _ < 2 ^ 31
  omega

theorem WordRange.sCsrc (d : BitVec 6) (a : Src) (c : BitVec 8) : WordRange.Statement (.sCsrc d a c) := by
  intro n h
  cases h
  have h0 := Src.toN_lt a
  show _ < 2 ^ 31
  omega

theorem WordRange.sRdcyc (d : BitVec 6) : WordRange.Statement (.sRdcyc d) := by
  intro n h
  cases h
  show _ < 2 ^ 31
  omega

theorem WordRange.bBr (o : BitVec 18) : WordRange.Statement (.bBr o) := by
  intro n h
  cases h
  show _ < 2 ^ 31
  omega

theorem WordRange.bBp (p : BitVec 3) (n : Bool) (o : BitVec 18) : WordRange.Statement (.bBp p n o) := by
  intro n h
  cases h
  have h0 := b2n_le n
  show _ < 2 ^ 31
  omega

theorem WordRange.bJal (o : BitVec 18) : WordRange.Statement (.bJal o) := by
  intro n h
  cases h
  show _ < 2 ^ 31
  omega

theorem WordRange.bJr (r : BitVec 6) : WordRange.Statement (.bJr r) := by
  intro n h
  cases h
  show _ < 2 ^ 31
  omega

theorem WordRange.bLoop (c : BitVec 6) (o : BitVec 12) : WordRange.Statement (.bLoop c o) := by
  intro n h
  cases h
  show _ < 2 ^ 31
  omega

theorem WordRange.bLoopi (c : BitVec 8) (o : BitVec 10) : WordRange.Statement (.bLoopi c o) := by
  intro n h
  cases h
  show _ < 2 ^ 31
  omega

theorem WordRange.bTrap (p : BitVec 3) (n : Bool) (c : BitVec 18) : WordRange.Statement (.bTrap p n c) := by
  intro n h
  cases h
  have h0 := b2n_le n
  show _ < 2 ^ 31
  omega

theorem WordRange.bTask (i : BitVec 6) (b : BitVec 6) (s : BitVec 6) : WordRange.Statement (.bTask i b s) := by
  intro n h
  cases h
  show _ < 2 ^ 31
  omega

theorem WordRange.bSwap (x : BitVec 12) : WordRange.Statement (.bSwap x) := by
  intro n h
  cases h
  show _ < 2 ^ 31
  omega

theorem WordRange.bSleep (r : BitVec 6) : WordRange.Statement (.bSleep r) := by
  intro n h
  cases h
  show _ < 2 ^ 31
  omega

theorem WordRange.bPark (m : BitVec 2) : WordRange.Statement (.bPark m) := by
  intro n h
  cases h
  show _ < 2 ^ 31
  omega

theorem WordRange.vFadd (d : BitVec 6) (a : Src) (b : Src) (z : Bool) : WordRange.Statement (.vFadd d a b z) := by
  intro n h
  cases h
  have h0 := b2n_le z
  have h1 := Src.toN_lt a
  have h2 := Src.toN_lt b
  show _ < 2 ^ 31
  omega

theorem WordRange.vFsub (d : BitVec 6) (a : Src) (b : Src) (z : Bool) : WordRange.Statement (.vFsub d a b z) := by
  intro n h
  cases h
  have h0 := b2n_le z
  have h1 := Src.toN_lt a
  have h2 := Src.toN_lt b
  show _ < 2 ^ 31
  omega

theorem WordRange.vFmul (d : BitVec 6) (a : Src) (b : Src) (z : Bool) : WordRange.Statement (.vFmul d a b z) := by
  intro n h
  cases h
  have h0 := b2n_le z
  have h1 := Src.toN_lt a
  have h2 := Src.toN_lt b
  show _ < 2 ^ 31
  omega

theorem WordRange.vFma (d : BitVec 6) (a : Src) (b : Src) (z : Bool) : WordRange.Statement (.vFma d a b z) := by
  intro n h
  cases h
  have h0 := b2n_le z
  have h1 := Src.toN_lt a
  have h2 := Src.toN_lt b
  show _ < 2 ^ 31
  omega

theorem WordRange.vFms (d : BitVec 6) (a : Src) (b : Src) (z : Bool) : WordRange.Statement (.vFms d a b z) := by
  intro n h
  cases h
  have h0 := b2n_le z
  have h1 := Src.toN_lt a
  have h2 := Src.toN_lt b
  show _ < 2 ^ 31
  omega

theorem WordRange.vFmin (d : BitVec 6) (a : Src) (b : Src) (z : Bool) : WordRange.Statement (.vFmin d a b z) := by
  intro n h
  cases h
  have h0 := b2n_le z
  have h1 := Src.toN_lt a
  have h2 := Src.toN_lt b
  show _ < 2 ^ 31
  omega

theorem WordRange.vFmax (d : BitVec 6) (a : Src) (b : Src) (z : Bool) : WordRange.Statement (.vFmax d a b z) := by
  intro n h
  cases h
  have h0 := b2n_le z
  have h1 := Src.toN_lt a
  have h2 := Src.toN_lt b
  show _ < 2 ^ 31
  omega

theorem WordRange.vFabs (d : BitVec 6) (a : Src) (z : Bool) : WordRange.Statement (.vFabs d a z) := by
  intro n h
  cases h
  have h0 := b2n_le z
  have h1 := Src.toN_lt a
  show _ < 2 ^ 31
  omega

theorem WordRange.vFneg (d : BitVec 6) (a : Src) (z : Bool) : WordRange.Statement (.vFneg d a z) := by
  intro n h
  cases h
  have h0 := b2n_le z
  have h1 := Src.toN_lt a
  show _ < 2 ^ 31
  omega

theorem WordRange.vFcmpEq (k : BitVec 3) (a : Src) (b : Src) : WordRange.Statement (.vFcmpEq k a b) := by
  intro n h
  cases h
  have h0 := Src.toN_lt a
  have h1 := Src.toN_lt b
  show _ < 2 ^ 31
  omega

theorem WordRange.vFcmpLt (k : BitVec 3) (a : Src) (b : Src) : WordRange.Statement (.vFcmpLt k a b) := by
  intro n h
  cases h
  have h0 := Src.toN_lt a
  have h1 := Src.toN_lt b
  show _ < 2 ^ 31
  omega

theorem WordRange.vFcmpLe (k : BitVec 3) (a : Src) (b : Src) : WordRange.Statement (.vFcmpLe k a b) := by
  intro n h
  cases h
  have h0 := Src.toN_lt a
  have h1 := Src.toN_lt b
  show _ < 2 ^ 31
  omega

theorem WordRange.vFcmpUn (k : BitVec 3) (a : Src) (b : Src) : WordRange.Statement (.vFcmpUn k a b) := by
  intro n h
  cases h
  have h0 := Src.toN_lt a
  have h1 := Src.toN_lt b
  show _ < 2 ^ 31
  omega

theorem WordRange.vAdd (d : BitVec 6) (a : Src) (b : Src) (z : Bool) : WordRange.Statement (.vAdd d a b z) := by
  intro n h
  cases h
  have h0 := b2n_le z
  have h1 := Src.toN_lt a
  have h2 := Src.toN_lt b
  show _ < 2 ^ 31
  omega

theorem WordRange.vSub (d : BitVec 6) (a : Src) (b : Src) (z : Bool) : WordRange.Statement (.vSub d a b z) := by
  intro n h
  cases h
  have h0 := b2n_le z
  have h1 := Src.toN_lt a
  have h2 := Src.toN_lt b
  show _ < 2 ^ 31
  omega

theorem WordRange.vMul (d : BitVec 6) (a : Src) (b : Src) (z : Bool) : WordRange.Statement (.vMul d a b z) := by
  intro n h
  cases h
  have h0 := b2n_le z
  have h1 := Src.toN_lt a
  have h2 := Src.toN_lt b
  show _ < 2 ^ 31
  omega

theorem WordRange.vMulh (d : BitVec 6) (a : Src) (b : Src) (z : Bool) : WordRange.Statement (.vMulh d a b z) := by
  intro n h
  cases h
  have h0 := b2n_le z
  have h1 := Src.toN_lt a
  have h2 := Src.toN_lt b
  show _ < 2 ^ 31
  omega

theorem WordRange.vMulhn (d : BitVec 6) (a : Src) (b : Src) (z : Bool) : WordRange.Statement (.vMulhn d a b z) := by
  intro n h
  cases h
  have h0 := b2n_le z
  have h1 := Src.toN_lt a
  have h2 := Src.toN_lt b
  show _ < 2 ^ 31
  omega

theorem WordRange.vAnd (d : BitVec 6) (a : Src) (b : Src) (z : Bool) : WordRange.Statement (.vAnd d a b z) := by
  intro n h
  cases h
  have h0 := b2n_le z
  have h1 := Src.toN_lt a
  have h2 := Src.toN_lt b
  show _ < 2 ^ 31
  omega

theorem WordRange.vOr (d : BitVec 6) (a : Src) (b : Src) (z : Bool) : WordRange.Statement (.vOr d a b z) := by
  intro n h
  cases h
  have h0 := b2n_le z
  have h1 := Src.toN_lt a
  have h2 := Src.toN_lt b
  show _ < 2 ^ 31
  omega

theorem WordRange.vXor (d : BitVec 6) (a : Src) (b : Src) (z : Bool) : WordRange.Statement (.vXor d a b z) := by
  intro n h
  cases h
  have h0 := b2n_le z
  have h1 := Src.toN_lt a
  have h2 := Src.toN_lt b
  show _ < 2 ^ 31
  omega

theorem WordRange.vAndn (d : BitVec 6) (a : Src) (b : Src) (z : Bool) : WordRange.Statement (.vAndn d a b z) := by
  intro n h
  cases h
  have h0 := b2n_le z
  have h1 := Src.toN_lt a
  have h2 := Src.toN_lt b
  show _ < 2 ^ 31
  omega

theorem WordRange.vShl (d : BitVec 6) (a : Src) (b : Src) (z : Bool) : WordRange.Statement (.vShl d a b z) := by
  intro n h
  cases h
  have h0 := b2n_le z
  have h1 := Src.toN_lt a
  have h2 := Src.toN_lt b
  show _ < 2 ^ 31
  omega

theorem WordRange.vShr (d : BitVec 6) (a : Src) (b : Src) (z : Bool) : WordRange.Statement (.vShr d a b z) := by
  intro n h
  cases h
  have h0 := b2n_le z
  have h1 := Src.toN_lt a
  have h2 := Src.toN_lt b
  show _ < 2 ^ 31
  omega

theorem WordRange.vSra (d : BitVec 6) (a : Src) (b : Src) (z : Bool) : WordRange.Statement (.vSra d a b z) := by
  intro n h
  cases h
  have h0 := b2n_le z
  have h1 := Src.toN_lt a
  have h2 := Src.toN_lt b
  show _ < 2 ^ 31
  omega

theorem WordRange.vMin (d : BitVec 6) (a : Src) (b : Src) (z : Bool) : WordRange.Statement (.vMin d a b z) := by
  intro n h
  cases h
  have h0 := b2n_le z
  have h1 := Src.toN_lt a
  have h2 := Src.toN_lt b
  show _ < 2 ^ 31
  omega

theorem WordRange.vMax (d : BitVec 6) (a : Src) (b : Src) (z : Bool) : WordRange.Statement (.vMax d a b z) := by
  intro n h
  cases h
  have h0 := b2n_le z
  have h1 := Src.toN_lt a
  have h2 := Src.toN_lt b
  show _ < 2 ^ 31
  omega

theorem WordRange.vMinn (d : BitVec 6) (a : Src) (b : Src) (z : Bool) : WordRange.Statement (.vMinn d a b z) := by
  intro n h
  cases h
  have h0 := b2n_le z
  have h1 := Src.toN_lt a
  have h2 := Src.toN_lt b
  show _ < 2 ^ 31
  omega

theorem WordRange.vMaxn (d : BitVec 6) (a : Src) (b : Src) (z : Bool) : WordRange.Statement (.vMaxn d a b z) := by
  intro n h
  cases h
  have h0 := b2n_le z
  have h1 := Src.toN_lt a
  have h2 := Src.toN_lt b
  show _ < 2 ^ 31
  omega

theorem WordRange.vAbs (d : BitVec 6) (a : Src) (z : Bool) : WordRange.Statement (.vAbs d a z) := by
  intro n h
  cases h
  have h0 := b2n_le z
  have h1 := Src.toN_lt a
  show _ < 2 ^ 31
  omega

theorem WordRange.vIcmpEq (k : BitVec 3) (a : Src) (b : Src) : WordRange.Statement (.vIcmpEq k a b) := by
  intro n h
  cases h
  have h0 := Src.toN_lt a
  have h1 := Src.toN_lt b
  show _ < 2 ^ 31
  omega

theorem WordRange.vIcmpLt (k : BitVec 3) (a : Src) (b : Src) : WordRange.Statement (.vIcmpLt k a b) := by
  intro n h
  cases h
  have h0 := Src.toN_lt a
  have h1 := Src.toN_lt b
  show _ < 2 ^ 31
  omega

theorem WordRange.vIcmpLtn (k : BitVec 3) (a : Src) (b : Src) : WordRange.Statement (.vIcmpLtn k a b) := by
  intro n h
  cases h
  have h0 := Src.toN_lt a
  have h1 := Src.toN_lt b
  show _ < 2 ^ 31
  omega

theorem WordRange.vAddsat (d : BitVec 6) (a : Src) (b : Src) (z : Bool) : WordRange.Statement (.vAddsat d a b z) := by
  intro n h
  cases h
  have h0 := b2n_le z
  have h1 := Src.toN_lt a
  have h2 := Src.toN_lt b
  show _ < 2 ^ 31
  omega

theorem WordRange.vSubsat (d : BitVec 6) (a : Src) (b : Src) (z : Bool) : WordRange.Statement (.vSubsat d a b z) := by
  intro n h
  cases h
  have h0 := b2n_le z
  have h1 := Src.toN_lt a
  have h2 := Src.toN_lt b
  show _ < 2 ^ 31
  omega

theorem WordRange.vMov (d : BitVec 6) (a : Src) (z : Bool) : WordRange.Statement (.vMov d a z) := by
  intro n h
  cases h
  have h0 := b2n_le z
  have h1 := Src.toN_lt a
  show _ < 2 ^ 31
  omega

theorem WordRange.vSel (d : BitVec 6) (a : Src) (b : Src) (z : Bool) : WordRange.Statement (.vSel d a b z) := by
  intro n h
  cases h
  have h0 := b2n_le z
  have h1 := Src.toN_lt a
  have h2 := Src.toN_lt b
  show _ < 2 ^ 31
  omega

theorem WordRange.vBcast (d : BitVec 6) (a : Src) (z : Bool) : WordRange.Statement (.vBcast d a z) := by
  intro n h
  cases h
  have h0 := b2n_le z
  have h1 := Src.toN_lt a
  show _ < 2 ^ 31
  omega

theorem WordRange.vIns (d : BitVec 6) (a : Src) (b : Src) (z : Bool) : WordRange.Statement (.vIns d a b z) := by
  intro n h
  cases h
  have h0 := b2n_le z
  have h1 := Src.toN_lt a
  have h2 := Src.toN_lt b
  show _ < 2 ^ 31
  omega

theorem WordRange.vExt (d : BitVec 6) (a : Src) (b : Src) (z : Bool) : WordRange.Statement (.vExt d a b z) := by
  intro n h
  cases h
  have h0 := b2n_le z
  have h1 := Src.toN_lt a
  have h2 := Src.toN_lt b
  show _ < 2 ^ 31
  omega

theorem WordRange.vIota (d : BitVec 6) (z : Bool) : WordRange.Statement (.vIota d z) := by
  intro n h
  cases h
  have h0 := b2n_le z
  show _ < 2 ^ 31
  omega

theorem WordRange.vPerm (d : BitVec 6) (a : Src) (b : Src) (z : Bool) : WordRange.Statement (.vPerm d a b z) := by
  intro n h
  cases h
  have h0 := b2n_le z
  have h1 := Src.toN_lt a
  have h2 := Src.toN_lt b
  show _ < 2 ^ 31
  omega

theorem WordRange.vRot (d : BitVec 6) (a : Src) (b : Src) (z : Bool) : WordRange.Statement (.vRot d a b z) := by
  intro n h
  cases h
  have h0 := b2n_le z
  have h1 := Src.toN_lt a
  have h2 := Src.toN_lt b
  show _ < 2 ^ 31
  omega

theorem WordRange.vZip (d : BitVec 6) (a : Src) (b : Src) (z : Bool) : WordRange.Statement (.vZip d a b z) := by
  intro n h
  cases h
  have h0 := b2n_le z
  have h1 := Src.toN_lt a
  have h2 := Src.toN_lt b
  show _ < 2 ^ 31
  omega

theorem WordRange.vUnzip (d : BitVec 6) (a : Src) (b : Src) (z : Bool) : WordRange.Statement (.vUnzip d a b z) := by
  intro n h
  cases h
  have h0 := b2n_le z
  have h1 := Src.toN_lt a
  have h2 := Src.toN_lt b
  show _ < 2 ^ 31
  omega

theorem WordRange.vCvt (d : BitVec 6) (a : Src) (f : BitVec 5) (z : Bool) : WordRange.Statement (.vCvt d a f z) := by
  intro n h
  cases h
  have h0 := b2n_le z
  have h1 := Src.toN_lt a
  show _ < 2 ^ 31
  omega

theorem WordRange.vWiden (d : BitVec 6) (a : Src) (q : Bool) (f : BitVec 5) (z : Bool) : WordRange.Statement (.vWiden d a q f z) := by
  intro n h
  cases h
  have h0 := b2n_le q
  have h1 := b2n_le z
  have h2 := Src.toN_lt a
  show _ < 2 ^ 31
  omega

theorem WordRange.vNarrow (d : BitVec 6) (a : Src) (q : Bool) (f : BitVec 5) (z : Bool) : WordRange.Statement (.vNarrow d a q f z) := by
  intro n h
  cases h
  have h0 := b2n_le q
  have h1 := b2n_le z
  have h2 := Src.toN_lt a
  show _ < 2 ^ 31
  omega

theorem WordRange.vPack6 (d : BitVec 6) (a : Src) (z : Bool) : WordRange.Statement (.vPack6 d a z) := by
  intro n h
  cases h
  have h0 := b2n_le z
  have h1 := Src.toN_lt a
  show _ < 2 ^ 31
  omega

theorem WordRange.vUnpack6 (d : BitVec 6) (a : Src) (z : Bool) : WordRange.Statement (.vUnpack6 d a z) := by
  intro n h
  cases h
  have h0 := b2n_le z
  have h1 := Src.toN_lt a
  show _ < 2 ^ 31
  omega

theorem WordRange.vPackq4 (d : BitVec 6) (a : Src) (z : Bool) : WordRange.Statement (.vPackq4 d a z) := by
  intro n h
  cases h
  have h0 := b2n_le z
  have h1 := Src.toN_lt a
  show _ < 2 ^ 31
  omega

theorem WordRange.vUnpackq4 (d : BitVec 6) (a : Src) (z : Bool) : WordRange.Statement (.vUnpackq4 d a z) := by
  intro n h
  cases h
  have h0 := b2n_le z
  have h1 := Src.toN_lt a
  show _ < 2 ^ 31
  omega

theorem WordRange.vSetfmt (a : Src) : WordRange.Statement (.vSetfmt a) := by
  intro n h
  cases h
  have h0 := Src.toN_lt a
  show _ < 2 ^ 31
  omega

theorem WordRange.vRadd (d : BitVec 6) (a : Src) (z : Bool) : WordRange.Statement (.vRadd d a z) := by
  intro n h
  cases h
  have h0 := b2n_le z
  have h1 := Src.toN_lt a
  show _ < 2 ^ 31
  omega

theorem WordRange.vRmax (d : BitVec 6) (a : Src) (z : Bool) : WordRange.Statement (.vRmax d a z) := by
  intro n h
  cases h
  have h0 := b2n_le z
  have h1 := Src.toN_lt a
  show _ < 2 ^ 31
  omega

theorem WordRange.vRmin (d : BitVec 6) (a : Src) (z : Bool) : WordRange.Statement (.vRmin d a z) := by
  intro n h
  cases h
  have h0 := b2n_le z
  have h1 := Src.toN_lt a
  show _ < 2 ^ 31
  omega

theorem WordRange.vRfadd (d : BitVec 6) (a : Src) (z : Bool) : WordRange.Statement (.vRfadd d a z) := by
  intro n h
  cases h
  have h0 := b2n_le z
  have h1 := Src.toN_lt a
  show _ < 2 ^ 31
  omega

theorem WordRange.vRfmax (d : BitVec 6) (a : Src) (z : Bool) : WordRange.Statement (.vRfmax d a z) := by
  intro n h
  cases h
  have h0 := b2n_le z
  have h1 := Src.toN_lt a
  show _ < 2 ^ 31
  omega

theorem WordRange.vRfmin (d : BitVec 6) (a : Src) (z : Bool) : WordRange.Statement (.vRfmin d a z) := by
  intro n h
  cases h
  have h0 := b2n_le z
  have h1 := Src.toN_lt a
  show _ < 2 ^ 31
  omega

theorem WordRange.vScanAdd (d : BitVec 6) (a : Src) (z : Bool) : WordRange.Statement (.vScanAdd d a z) := by
  intro n h
  cases h
  have h0 := b2n_le z
  have h1 := Src.toN_lt a
  show _ < 2 ^ 31
  omega

theorem WordRange.vScanFadd (d : BitVec 6) (a : Src) (z : Bool) : WordRange.Statement (.vScanFadd d a z) := by
  intro n h
  cases h
  have h0 := b2n_le z
  have h1 := Src.toN_lt a
  show _ < 2 ^ 31
  omega

theorem WordRange.vRcp (d : BitVec 6) (a : Src) (z : Bool) : WordRange.Statement (.vRcp d a z) := by
  intro n h
  cases h
  have h0 := b2n_le z
  have h1 := Src.toN_lt a
  show _ < 2 ^ 31
  omega

theorem WordRange.vRsqrt (d : BitVec 6) (a : Src) (z : Bool) : WordRange.Statement (.vRsqrt d a z) := by
  intro n h
  cases h
  have h0 := b2n_le z
  have h1 := Src.toN_lt a
  show _ < 2 ^ 31
  omega

theorem WordRange.vSqrt (d : BitVec 6) (a : Src) (z : Bool) : WordRange.Statement (.vSqrt d a z) := by
  intro n h
  cases h
  have h0 := b2n_le z
  have h1 := Src.toN_lt a
  show _ < 2 ^ 31
  omega

theorem WordRange.vExp2 (d : BitVec 6) (a : Src) (z : Bool) : WordRange.Statement (.vExp2 d a z) := by
  intro n h
  cases h
  have h0 := b2n_le z
  have h1 := Src.toN_lt a
  show _ < 2 ^ 31
  omega

theorem WordRange.vLog2 (d : BitVec 6) (a : Src) (z : Bool) : WordRange.Statement (.vLog2 d a z) := by
  intro n h
  cases h
  have h0 := b2n_le z
  have h1 := Src.toN_lt a
  show _ < 2 ^ 31
  omega

theorem WordRange.vTanh (d : BitVec 6) (a : Src) (z : Bool) : WordRange.Statement (.vTanh d a z) := by
  intro n h
  cases h
  have h0 := b2n_le z
  have h1 := Src.toN_lt a
  show _ < 2 ^ 31
  omega

theorem WordRange.vErf (d : BitVec 6) (a : Src) (z : Bool) : WordRange.Statement (.vErf d a z) := by
  intro n h
  cases h
  have h0 := b2n_le z
  have h1 := Src.toN_lt a
  show _ < 2 ^ 31
  omega

theorem WordRange.vLd (d : BitVec 6) (a : Src) (o : BitVec 7) (z : Bool) : WordRange.Statement (.vLd d a o z) := by
  intro n h
  cases h
  have h0 := b2n_le z
  have h1 := Src.toN_lt a
  show _ < 2 ^ 31
  omega

theorem WordRange.vSt (d : BitVec 6) (a : Src) (o : BitVec 7) : WordRange.Statement (.vSt d a o) := by
  intro n h
  cases h
  have h0 := Src.toN_lt a
  show _ < 2 ^ 31
  omega

theorem WordRange.vLdx (d : BitVec 6) (a : Src) (b : Src) (z : Bool) : WordRange.Statement (.vLdx d a b z) := by
  intro n h
  cases h
  have h0 := b2n_le z
  have h1 := Src.toN_lt a
  have h2 := Src.toN_lt b
  show _ < 2 ^ 31
  omega

theorem WordRange.vStx (d : BitVec 6) (a : Src) (b : Src) : WordRange.Statement (.vStx d a b) := by
  intro n h
  cases h
  have h0 := Src.toN_lt a
  have h1 := Src.toN_lt b
  show _ < 2 ^ 31
  omega

theorem WordRange.vLds (d : BitVec 6) (a : Src) (b : Src) (z : Bool) : WordRange.Statement (.vLds d a b z) := by
  intro n h
  cases h
  have h0 := b2n_le z
  have h1 := Src.toN_lt a
  have h2 := Src.toN_lt b
  show _ < 2 ^ 31
  omega

theorem WordRange.vSts (d : BitVec 6) (a : Src) (b : Src) : WordRange.Statement (.vSts d a b) := by
  intro n h
  cases h
  have h0 := Src.toN_lt a
  have h1 := Src.toN_lt b
  show _ < 2 ^ 31
  omega

theorem WordRange.vRda (d : BitVec 6) (a : Src) (n : BitVec 3) (z : Bool) : WordRange.Statement (.vRda d a n z) := by
  intro n h
  cases h
  have h0 := b2n_le z
  have h1 := Src.toN_lt a
  show _ < 2 ^ 31
  omega

theorem WordRange.vWra (d : BitVec 6) (a : Src) (n : BitVec 3) : WordRange.Statement (.vWra d a n) := by
  intro n h
  cases h
  have h0 := Src.toN_lt a
  show _ < 2 ^ 31
  omega

theorem WordRange.vAdda (d : BitVec 6) (a : Src) (n : BitVec 3) : WordRange.Statement (.vAdda d a n) := by
  intro n h
  cases h
  have h0 := Src.toN_lt a
  show _ < 2 ^ 31
  omega

theorem WordRange.vQpop (d : BitVec 6) (q : BitVec 4) (z : Bool) : WordRange.Statement (.vQpop d q z) := by
  intro n h
  cases h
  have h0 := b2n_le z
  show _ < 2 ^ 31
  omega

theorem WordRange.vQpush (q : BitVec 4) (a : Src) : WordRange.Statement (.vQpush q a) := by
  intro n h
  cases h
  have h0 := Src.toN_lt a
  show _ < 2 ^ 31
  omega

theorem WordRange.vKand (d : BitVec 3) (a : BitVec 3) (b : BitVec 3) : WordRange.Statement (.vKand d a b) := by
  intro n h
  cases h
  show _ < 2 ^ 31
  omega

theorem WordRange.vKor (d : BitVec 3) (a : BitVec 3) (b : BitVec 3) : WordRange.Statement (.vKor d a b) := by
  intro n h
  cases h
  show _ < 2 ^ 31
  omega

theorem WordRange.vKxor (d : BitVec 3) (a : BitVec 3) (b : BitVec 3) : WordRange.Statement (.vKxor d a b) := by
  intro n h
  cases h
  show _ < 2 ^ 31
  omega

theorem WordRange.vKnot (d : BitVec 3) (a : BitVec 3) : WordRange.Statement (.vKnot d a) := by
  intro n h
  cases h
  show _ < 2 ^ 31
  omega

theorem WordRange.vKpopc (d : BitVec 6) (k : BitVec 3) : WordRange.Statement (.vKpopc d k) := by
  intro n h
  cases h
  show _ < 2 ^ 31
  omega

theorem WordRange.vKfirst (d : BitVec 6) (k : BitVec 3) : WordRange.Statement (.vKfirst d k) := by
  intro n h
  cases h
  show _ < 2 ^ 31
  omega

theorem WordRange.vKset (k : BitVec 3) (a : Src) : WordRange.Statement (.vKset k a) := by
  intro n h
  cases h
  have h0 := Src.toN_lt a
  show _ < 2 ^ 31
  omega

theorem WordRange.vLred (d : BitVec 6) (a : Src) (s : BitVec 3) (t : BitVec 2) (z : Bool) : WordRange.Statement (.vLred d a s t z) := by
  intro n h
  cases h
  have h0 := b2n_le z
  have h1 := Src.toN_lt a
  show _ < 2 ^ 31
  omega

theorem WordRange.vLpick (d : BitVec 6) (a : Src) (b : Src) (z : Bool) : WordRange.Statement (.vLpick d a b z) := by
  intro n h
  cases h
  have h0 := b2n_le z
  have h1 := Src.toN_lt a
  have h2 := Src.toN_lt b
  show _ < 2 ^ 31
  omega

theorem WordRange.vLbcast (d : BitVec 6) (a : Src) (t : BitVec 2) (z : Bool) : WordRange.Statement (.vLbcast d a t z) := by
  intro n h
  cases h
  have h0 := b2n_le z
  have h1 := Src.toN_lt a
  show _ < 2 ^ 31
  omega

theorem WordRange.mCall (c : CallFields) : WordRange.Statement (.mCall c) := by
  intro n h
  cases h
  have h0 := b2n_le c.gv
  have h1 := b2n_le c.z
  show _ < 2 ^ 31
  omega

theorem WordRange.mSetp (p : BitVec 3) (s : BitVec 6) : WordRange.Statement (.mSetp p s) := by
  intro n h
  cases h
  show _ < 2 ^ 31
  omega

theorem WordRange.mGetp (p : BitVec 3) (d : BitVec 6) : WordRange.Statement (.mGetp p d) := by
  intro n h
  cases h
  show _ < 2 ^ 31
  omega

theorem WordRange.mZacc (n : BitVec 3) : WordRange.Statement (.mZacc n) := by
  intro n h
  cases h
  show _ < 2 ^ 31
  omega

theorem WordRange.mUld (n : BitVec 3) (s : BitVec 6) (f : BitVec 5) : WordRange.Statement (.mUld n s f) := by
  intro n h
  cases h
  show _ < 2 ^ 31
  omega

theorem WordRange.mGang (c : CallFields) : WordRange.Statement (.mGang c) := by
  intro n h
  cases h
  have h0 := b2n_le c.gv
  have h1 := b2n_le c.z
  show _ < 2 ^ 31
  omega

theorem WordRange.cCopy (c : CFields) : WordRange.Statement (.cCopy c) := by
  intro n h
  cases h
  have h0 := b2n_le c.cqv
  have h1 := b2n_le c.rel
  have h2 := b2n_le c.acq
  show _ < 2 ^ 31
  omega

theorem WordRange.cCopyi (c : CFields) : WordRange.Statement (.cCopyi c) := by
  intro n h
  cases h
  have h0 := b2n_le c.cqv
  have h1 := b2n_le c.rel
  have h2 := b2n_le c.acq
  show _ < 2 ^ 31
  omega

theorem WordRange.cGath (c : CFields) : WordRange.Statement (.cGath c) := by
  intro n h
  cases h
  have h0 := b2n_le c.cqv
  have h1 := b2n_le c.rel
  have h2 := b2n_le c.acq
  show _ < 2 ^ 31
  omega

theorem WordRange.cScat (c : CFields) : WordRange.Statement (.cScat c) := by
  intro n h
  cases h
  have h0 := b2n_le c.cqv
  have h1 := b2n_le c.rel
  have h2 := b2n_le c.acq
  show _ < 2 ^ 31
  omega

theorem WordRange.cFill (c : CFields) : WordRange.Statement (.cFill c) := by
  intro n h
  cases h
  have h0 := b2n_le c.cqv
  have h1 := b2n_le c.rel
  have h2 := b2n_le c.acq
  show _ < 2 ^ 31
  omega

theorem WordRange.cPref (c : CFields) : WordRange.Statement (.cPref c) := by
  intro n h
  cases h
  have h0 := b2n_le c.cqv
  have h1 := b2n_le c.rel
  have h2 := b2n_le c.acq
  show _ < 2 ^ 31
  omega

theorem WordRange.cRelay (c : CFields) : WordRange.Statement (.cRelay c) := by
  intro n h
  cases h
  have h0 := b2n_le c.cqv
  have h1 := b2n_le c.rel
  have h2 := b2n_le c.acq
  show _ < 2 ^ 31
  omega

theorem WordRange.cDecomp (c : CFields) : WordRange.Statement (.cDecomp c) := by
  intro n h
  cases h
  have h0 := b2n_le c.cqv
  have h1 := b2n_le c.rel
  have h2 := b2n_le c.acq
  show _ < 2 ^ 31
  omega

theorem WordRange.cAccAdd (c : CFields) : WordRange.Statement (.cAccAdd c) := by
  intro n h
  cases h
  have h0 := b2n_le c.cqv
  have h1 := b2n_le c.rel
  have h2 := b2n_le c.acq
  show _ < 2 ^ 31
  omega

theorem WordRange.cAccFadd (c : CFields) : WordRange.Statement (.cAccFadd c) := by
  intro n h
  cases h
  have h0 := b2n_le c.cqv
  have h1 := b2n_le c.rel
  have h2 := b2n_le c.acq
  show _ < 2 ^ 31
  omega

theorem WordRange.cAccMax (c : CFields) : WordRange.Statement (.cAccMax c) := by
  intro n h
  cases h
  have h0 := b2n_le c.cqv
  have h1 := b2n_le c.rel
  have h2 := b2n_le c.acq
  show _ < 2 ^ 31
  omega

theorem WordRange.cAccMin (c : CFields) : WordRange.Statement (.cAccMin c) := by
  intro n h
  cases h
  have h0 := b2n_le c.cqv
  have h1 := b2n_le c.rel
  have h2 := b2n_le c.acq
  show _ < 2 ^ 31
  omega

theorem WordRange.cAccOr (c : CFields) : WordRange.Statement (.cAccOr c) := by
  intro n h
  cases h
  have h0 := b2n_le c.cqv
  have h1 := b2n_le c.rel
  have h2 := b2n_le c.acq
  show _ < 2 ^ 31
  omega

theorem WordRange.cAccAnd (c : CFields) : WordRange.Statement (.cAccAnd c) := by
  intro n h
  cases h
  have h0 := b2n_le c.cqv
  have h1 := b2n_le c.rel
  have h2 := b2n_le c.acq
  show _ < 2 ^ 31
  omega

theorem WordRange.cFopAdd (c : CFields) : WordRange.Statement (.cFopAdd c) := by
  intro n h
  cases h
  have h0 := b2n_le c.cqv
  have h1 := b2n_le c.rel
  have h2 := b2n_le c.acq
  show _ < 2 ^ 31
  omega

theorem WordRange.cFopMin (c : CFields) : WordRange.Statement (.cFopMin c) := by
  intro n h
  cases h
  have h0 := b2n_le c.cqv
  have h1 := b2n_le c.rel
  have h2 := b2n_le c.acq
  show _ < 2 ^ 31
  omega

theorem WordRange.cFopMax (c : CFields) : WordRange.Statement (.cFopMax c) := by
  intro n h
  cases h
  have h0 := b2n_le c.cqv
  have h1 := b2n_le c.rel
  have h2 := b2n_le c.acq
  show _ < 2 ^ 31
  omega

theorem WordRange.cFopAnd (c : CFields) : WordRange.Statement (.cFopAnd c) := by
  intro n h
  cases h
  have h0 := b2n_le c.cqv
  have h1 := b2n_le c.rel
  have h2 := b2n_le c.acq
  show _ < 2 ^ 31
  omega

theorem WordRange.cFopOr (c : CFields) : WordRange.Statement (.cFopOr c) := by
  intro n h
  cases h
  have h0 := b2n_le c.cqv
  have h1 := b2n_le c.rel
  have h2 := b2n_le c.acq
  show _ < 2 ^ 31
  omega

theorem WordRange.cFopXor (c : CFields) : WordRange.Statement (.cFopXor c) := by
  intro n h
  cases h
  have h0 := b2n_le c.cqv
  have h1 := b2n_le c.rel
  have h2 := b2n_le c.acq
  show _ < 2 ^ 31
  omega

theorem WordRange.cFopSwap (c : CFields) : WordRange.Statement (.cFopSwap c) := by
  intro n h
  cases h
  have h0 := b2n_le c.cqv
  have h1 := b2n_le c.rel
  have h2 := b2n_le c.acq
  show _ < 2 ^ 31
  omega

theorem WordRange.cFopCas (c : CFields) : WordRange.Statement (.cFopCas c) := by
  intro n h
  cases h
  have h0 := b2n_le c.cqv
  have h1 := b2n_le c.rel
  have h2 := b2n_le c.acq
  show _ < 2 ^ 31
  omega

theorem WordRange.cGet (c : CFields) : WordRange.Statement (.cGet c) := by
  intro n h
  cases h
  have h0 := b2n_le c.cqv
  have h1 := b2n_le c.rel
  have h2 := b2n_le c.acq
  show _ < 2 ^ 31
  omega

theorem WordRange.cPut (c : CFields) : WordRange.Statement (.cPut c) := by
  intro n h
  cases h
  have h0 := b2n_le c.cqv
  have h1 := b2n_le c.rel
  have h2 := b2n_le c.acq
  show _ < 2 ^ 31
  omega

theorem WordRange.cKvput (c : CFields) : WordRange.Statement (.cKvput c) := by
  intro n h
  cases h
  have h0 := b2n_le c.cqv
  have h1 := b2n_le c.rel
  have h2 := b2n_le c.acq
  show _ < 2 ^ 31
  omega

theorem WordRange.cKvapp (c : CFields) : WordRange.Statement (.cKvapp c) := by
  intro n h
  cases h
  have h0 := b2n_le c.cqv
  have h1 := b2n_le c.rel
  have h2 := b2n_le c.acq
  show _ < 2 ^ 31
  omega

theorem WordRange.cKvinv (c : CFields) : WordRange.Statement (.cKvinv c) := by
  intro n h
  cases h
  have h0 := b2n_le c.cqv
  have h1 := b2n_le c.rel
  have h2 := b2n_le c.acq
  show _ < 2 ^ 31
  omega

theorem WordRange.cRecast (n : BitVec 4) (p : BitVec 6) (v : Bool) (q : BitVec 4) (s : BitVec 3) : WordRange.Statement (.cRecast n p v q s) := by
  intro n h
  cases h
  have h0 := b2n_le v
  show _ < 2 ^ 31
  omega

theorem WordRange.cSbar (p : BitVec 6) (v : Bool) (q : BitVec 4) (x : Bool) (y : Bool) (w : Bool) : WordRange.Statement (.cSbar p v q x y w) := by
  intro n h
  cases h
  have h0 := b2n_le v
  have h1 := b2n_le x
  have h2 := b2n_le y
  have h3 := b2n_le w
  show _ < 2 ^ 31
  omega

theorem WordRange.cMigr (c : CFields) : WordRange.Statement (.cMigr c) := by
  intro n h
  cases h
  have h0 := b2n_le c.cqv
  have h1 := b2n_le c.rel
  have h2 := b2n_le c.acq
  show _ < 2 ^ 31
  omega

theorem WordRange.qQcfg (x : BitVec 4) (a : BitVec 6) : WordRange.Statement (.qQcfg x a) := by
  intro n h
  cases h
  show _ < 2 ^ 31
  omega

theorem WordRange.qQpush (x : BitVec 4) (a : BitVec 6) : WordRange.Statement (.qQpush x a) := by
  intro n h
  cases h
  show _ < 2 ^ 31
  omega

theorem WordRange.qQpop (x : BitVec 4) (d : BitVec 6) : WordRange.Statement (.qQpop x d) := by
  intro n h
  cases h
  show _ < 2 ^ 31
  omega

theorem WordRange.qQpeek (x : BitVec 4) (d : BitVec 6) (i : BitVec 6) : WordRange.Statement (.qQpeek x d i) := by
  intro n h
  cases h
  show _ < 2 ^ 31
  omega

theorem WordRange.qQcnt (x : BitVec 4) (d : BitVec 6) : WordRange.Statement (.qQcnt x d) := by
  intro n h
  cases h
  show _ < 2 ^ 31
  omega

theorem WordRange.qTlwait (t : BitVec 2) (a : BitVec 6) : WordRange.Statement (.qTlwait t a) := by
  intro n h
  cases h
  show _ < 2 ^ 31
  omega

theorem WordRange.qTlsig (a : BitVec 6) : WordRange.Statement (.qTlsig a) := by
  intro n h
  cases h
  show _ < 2 ^ 31
  omega

theorem WordRange.qTlrd (t : BitVec 2) (d : BitVec 6) : WordRange.Statement (.qTlrd t d) := by
  intro n h
  cases h
  show _ < 2 ^ 31
  omega

theorem WordRange.qTlwaitx (d : BitVec 6) (a : BitVec 6) : WordRange.Statement (.qTlwaitx d a) := by
  intro n h
  cases h
  show _ < 2 ^ 31
  omega

theorem WordRange.qBar (m : BitVec 2) (s : Bool) : WordRange.Statement (.qBar m s) := by
  intro n h
  cases h
  have h0 := b2n_le s
  show _ < 2 ^ 31
  omega

theorem WordRange.qSlack (a : BitVec 6) : WordRange.Statement (.qSlack a) := by
  intro n h
  cases h
  show _ < 2 ^ 31
  omega

theorem WordRange.qFin (d : BitVec 6) : WordRange.Statement (.qFin d) := by
  intro n h
  cases h
  show _ < 2 ^ 31
  omega

theorem WordRange.qFout (d : BitVec 6) (a : BitVec 6) : WordRange.Statement (.qFout d a) := by
  intro n h
  cases h
  show _ < 2 ^ 31
  omega

theorem WordRange.qPromise (t : BitVec 2) (d : BitVec 6) (a : BitVec 6) : WordRange.Statement (.qPromise t d a) := by
  intro n h
  cases h
  show _ < 2 ^ 31
  omega

theorem WordRange.qLift (t : BitVec 2) (a : BitVec 6) : WordRange.Statement (.qLift t a) := by
  intro n h
  cases h
  show _ < 2 ^ 31
  omega

theorem WordRange.qLmask (a : BitVec 6) : WordRange.Statement (.qLmask a) := by
  intro n h
  cases h
  show _ < 2 ^ 31
  omega

theorem WordRange.uLda (l : LoadFields) : WordRange.Statement (.uLda l) := by
  intro n h
  cases h
  show _ < 2 ^ 32
  omega

theorem WordRange.uLdb (l : LoadFields) : WordRange.Statement (.uLdb l) := by
  intro n h
  cases h
  show _ < 2 ^ 32
  omega

theorem WordRange.uLdk (l : LoadFields) : WordRange.Statement (.uLdk l) := by
  intro n h
  cases h
  show _ < 2 ^ 32
  omega

theorem WordRange.uLdv (l : LoadFields) : WordRange.Statement (.uLdv l) := by
  intro n h
  cases h
  show _ < 2 ^ 32
  omega

theorem WordRange.uMma (a : BitVec 2) (b : BitVec 2) (k : BitVec 8) : WordRange.Statement (.uMma a b k) := by
  intro n h
  cases h
  show _ < 2 ^ 32
  omega

theorem WordRange.uStep (d : BitVec 3) (i : BitVec 3) : WordRange.Statement (.uStep d i) := by
  intro n h
  cases h
  show _ < 2 ^ 32
  omega

theorem WordRange.uLoop (c : BitVec 3) (l : BitVec 12) : WordRange.Statement (.uLoop c l) := by
  intro n h
  cases h
  show _ < 2 ^ 32
  omega

theorem WordRange.uGate (q : BitVec 4) (n : BitVec 4) : WordRange.Statement (.uGate q n) := by
  intro n h
  cases h
  show _ < 2 ^ 32
  omega

theorem WordRange.uPop (q : BitVec 4) (n : BitVec 4) : WordRange.Statement (.uPop q n) := by
  intro n h
  cases h
  show _ < 2 ^ 32
  omega

theorem WordRange.uPush (q : BitVec 4) (p : BitVec 3) : WordRange.Statement (.uPush q p) := by
  intro n h
  cases h
  show _ < 2 ^ 32
  omega

theorem WordRange.uScale (b : BitVec 2) (p : BitVec 3) : WordRange.Statement (.uScale b p) := by
  intro n h
  cases h
  show _ < 2 ^ 32
  omega

theorem WordRange.uChk (b : BitVec 2) : WordRange.Statement (.uChk b) := by
  intro n h
  cases h
  show _ < 2 ^ 32
  omega

theorem WordRange.uWb (p : BitVec 3) (f : BitVec 5) : WordRange.Statement (.uWb p f) := by
  intro n h
  cases h
  show _ < 2 ^ 32
  omega

theorem WordRange.uSig (p : BitVec 3) : WordRange.Statement (.uSig p) := by
  intro n h
  cases h
  show _ < 2 ^ 32
  omega

theorem WordRange.bTret : WordRange.Statement .bTret := by
  intro n h
  cases h
  show _ < 2 ^ 31
  omega

theorem WordRange.bDone : WordRange.Statement .bDone := by
  intro n h
  cases h
  show _ < 2 ^ 31
  omega

theorem WordRange.bYield : WordRange.Statement .bYield := by
  intro n h
  cases h
  show _ < 2 ^ 31
  omega

theorem WordRange.bTrig : WordRange.Statement .bTrig := by
  intro n h
  cases h
  show _ < 2 ^ 31
  omega

theorem WordRange.bJoin : WordRange.Statement .bJoin := by
  intro n h
  cases h
  show _ < 2 ^ 31
  omega

theorem WordRange.qFrame : WordRange.Statement .qFrame := by
  intro n h
  cases h
  show _ < 2 ^ 31
  omega

theorem WordRange.qIfence : WordRange.Statement .qIfence := by
  intro n h
  cases h
  show _ < 2 ^ 31
  omega

theorem WordRange.qLend : WordRange.Statement .qLend := by
  intro n h
  cases h
  show _ < 2 ^ 31
  omega

theorem WordRange.uEndl : WordRange.Statement .uEndl := by
  intro n h
  cases h
  show _ < 2 ^ 32
  omega

theorem WordRange.uEnd : WordRange.Statement .uEnd := by
  intro n h
  cases h
  show _ < 2 ^ 32
  omega

theorem WordRange.boot : WordRange.Statement .boot := by
  intro n h; cases h

theorem WordRange.thermalAlarm : WordRange.Statement .thermalAlarm := by
  intro n h; cases h

theorem WordRange.thermalShutdown : WordRange.Statement .thermalShutdown := by
  intro n h; cases h

theorem WordRange.thermalRecovery : WordRange.Statement .thermalRecovery := by
  intro n h; cases h

theorem WordRange.hbmRowRepair : WordRange.Statement .hbmRowRepair := by
  intro n h; cases h

theorem WordRange.fabricLaneFailure : WordRange.Statement .fabricLaneFailure := by
  intro n h; cases h

theorem WordRange.correctableError : WordRange.Statement .correctableError := by
  intro n h; cases h

theorem WordRange.freezeEnd : WordRange.Statement .freezeEnd := by
  intro n h; cases h

theorem WordRange.wordPoisoned : WordRange.Statement .wordPoisoned := by
  intro n h; cases h

theorem WordRange.flitReplay : WordRange.Statement .flitReplay := by
  intro n h; cases h

theorem WordRange.routerPacketArrive : WordRange.Statement .routerPacketArrive := by
  intro n h; cases h

theorem WordRange.creditReturn : WordRange.Statement .creditReturn := by
  intro n h; cases h

theorem WordRange.hedgeQueueAssign : WordRange.Statement .hedgeQueueAssign := by
  intro n h; cases h

theorem WordRange.hedgeQueueRelease : WordRange.Statement .hedgeQueueRelease := by
  intro n h; cases h

theorem WordRange.congestionNotice : WordRange.Statement .congestionNotice := by
  intro n h; cases h

theorem WordRange.hedgeReleaseNotice : WordRange.Statement .hedgeReleaseNotice := by
  intro n h; cases h

theorem WordRange.readRequest : WordRange.Statement .readRequest := by
  intro n h; cases h

theorem WordRange.writeRequest : WordRange.Statement .writeRequest := by
  intro n h; cases h

theorem WordRange.accumulateRequest : WordRange.Statement .accumulateRequest := by
  intro n h; cases h

theorem WordRange.fetchOpRequest : WordRange.Statement .fetchOpRequest := by
  intro n h; cases h

theorem WordRange.readResponse : WordRange.Statement .readResponse := by
  intro n h; cases h

theorem WordRange.completionAcknowledgement : WordRange.Statement .completionAcknowledgement := by
  intro n h; cases h

theorem WordRange.relayData : WordRange.Statement .relayData := by
  intro n h; cases h

theorem WordRange.inboxWord : WordRange.Statement .inboxWord := by
  intro n h; cases h

theorem WordRange.inboxRefusal : WordRange.Statement .inboxRefusal := by
  intro n h; cases h

theorem WordRange.outboxResend : WordRange.Statement .outboxResend := by
  intro n h; cases h

theorem WordRange.outboxSend : WordRange.Statement .outboxSend := by
  intro n h; cases h

theorem WordRange.requestTimeout : WordRange.Statement .requestTimeout := by
  intro n h; cases h

theorem WordRange.relayOpenRetry : WordRange.Statement .relayOpenRetry := by
  intro n h; cases h

theorem WordRange.relayStallTimeout : WordRange.Statement .relayStallTimeout := by
  intro n h; cases h

theorem WordRange.fabctlWrite : WordRange.Statement .fabctlWrite := by
  intro n h; cases h

theorem WordRange.registerWrite : WordRange.Statement .registerWrite := by
  intro n h; cases h

theorem WordRange.windowDRead : WordRange.Statement .windowDRead := by
  intro n h; cases h

theorem WordRange.windowDWrite : WordRange.Statement .windowDWrite := by
  intro n h; cases h

theorem WordRange.hostWriteForward : WordRange.Statement .hostWriteForward := by
  intro n h; cases h

theorem WordRange.unsupportedRequest : WordRange.Statement .unsupportedRequest := by
  intro n h; cases h

theorem WordRange.fnerrWrite : WordRange.Statement .fnerrWrite := by
  intro n h; cases h

theorem WordRange.lqcfgWrite : WordRange.Statement .lqcfgWrite := by
  intro n h; cases h

theorem WordRange.lqpiWrite : WordRange.Statement .lqpiWrite := by
  intro n h; cases h

theorem WordRange.skip : WordRange.Statement .skip := by
  intro n h; cases h

theorem WordRange.launchRecordRead : WordRange.Statement .launchRecordRead := by
  intro n h; cases h

theorem WordRange.recordStart : WordRange.Statement .recordStart := by
  intro n h; cases h

theorem WordRange.vfFlr : WordRange.Statement .vfFlr := by
  intro n h; cases h

theorem WordRange.pfFlr : WordRange.Statement .pfFlr := by
  intro n h; cases h

theorem WordRange.owner : WordRange.Statement .owner := by
  intro n h; cases h

theorem WordRange.install : WordRange.Statement .install := by
  intro n h; cases h

theorem WordRange.revoke : WordRange.Statement .revoke := by
  intro n h; cases h

theorem WordRange.accessTableWrite : WordRange.Statement .accessTableWrite := by
  intro n h; cases h

theorem WordRange.partmapWrite : WordRange.Statement .partmapWrite := by
  intro n h; cases h

theorem WordRange.signatureVerifyEnd : WordRange.Statement .signatureVerifyEnd := by
  intro n h; cases h

theorem WordRange.xlatinvWrite : WordRange.Statement .xlatinvWrite := by
  intro n h; cases h

theorem WordRange.xlatinvComplete : WordRange.Statement .xlatinvComplete := by
  intro n h; cases h

theorem WordRange.rangeEntryWrite : WordRange.Statement .rangeEntryWrite := by
  intro n h; cases h

theorem WordRange.pageWalkDone : WordRange.Statement .pageWalkDone := by
  intro n h; cases h

theorem WordRange.streamReadDeliver : WordRange.Statement .streamReadDeliver := by
  intro n h; cases h

theorem WordRange.streamReadTimeout : WordRange.Statement .streamReadTimeout := by
  intro n h; cases h

theorem WordRange.recastDrainEnd : WordRange.Statement .recastDrainEnd := by
  intro n h; cases h

theorem WordRange.recastRewriteEnd : WordRange.Statement .recastRewriteEnd := by
  intro n h; cases h

theorem WordRange.migrationPolicy : WordRange.Statement .migrationPolicy := by
  intro n h; cases h

theorem WordRange.migrationPortsClosed : WordRange.Statement .migrationPortsClosed := by
  intro n h; cases h

theorem WordRange.migrationCopyDone : WordRange.Statement .migrationCopyDone := by
  intro n h; cases h

theorem WordRange.movedCompletion : WordRange.Statement .movedCompletion := by
  intro n h; cases h

theorem WordRange.kvgeomWrite : WordRange.Statement .kvgeomWrite := by
  intro n h; cases h

theorem WordRange.kvqlognWrite : WordRange.Statement .kvqlognWrite := by
  intro n h; cases h

theorem WordRange.kvqrelWrite : WordRange.Statement .kvqrelWrite := by
  intro n h; cases h

theorem WordRange.poolManagerRequest : WordRange.Statement .poolManagerRequest := by
  intro n h; cases h

theorem WordRange.graphLoad : WordRange.Statement .graphLoad := by
  intro n h; cases h

theorem WordRange.dispatchDecision : WordRange.Statement .dispatchDecision := by
  intro n h; cases h

theorem WordRange.freeCoreSummary : WordRange.Statement .freeCoreSummary := by
  intro n h; cases h

theorem WordRange.poolMove : WordRange.Statement .poolMove := by
  intro n h; cases h

theorem WordRange.placementReserve : WordRange.Statement .placementReserve := by
  intro n h; cases h

theorem WordRange.nodeStart : WordRange.Statement .nodeStart := by
  intro n h; cases h

theorem WordRange.taskPoolInsert : WordRange.Statement .taskPoolInsert := by
  intro n h; cases h

theorem WordRange.rollCallComplete : WordRange.Statement .rollCallComplete := by
  intro n h; cases h

theorem WordRange.watchdogExpiry : WordRange.Statement .watchdogExpiry := by
  intro n h; cases h

theorem WordRange.stampOverrun : WordRange.Statement .stampOverrun := by
  intro n h; cases h

theorem WordRange.trapEntry : WordRange.Statement .trapEntry := by
  intro n h; cases h

theorem WordRange.engineFaultReport : WordRange.Statement .engineFaultReport := by
  intro n h; cases h

theorem WordRange.forcedSwap : WordRange.Statement .forcedSwap := by
  intro n h; cases h

theorem WordRange.swapQuiesceEnd : WordRange.Statement .swapQuiesceEnd := by
  intro n h; cases h

theorem WordRange.swapResume : WordRange.Statement .swapResume := by
  intro n h; cases h

theorem WordRange.dumpWritten : WordRange.Statement .dumpWritten := by
  intro n h; cases h

theorem WordRange.dumpackWrite : WordRange.Statement .dumpackWrite := by
  intro n h; cases h

theorem WordRange.halfRetentionEntry : WordRange.Statement .halfRetentionEntry := by
  intro n h; cases h

theorem WordRange.retentionExitEnd : WordRange.Statement .retentionExitEnd := by
  intro n h; cases h

theorem WordRange.producerFill : WordRange.Statement .producerFill := by
  intro n h; cases h

theorem WordRange.loadDataReturn : WordRange.Statement .loadDataReturn := by
  intro n h; cases h

theorem WordRange.writeAcknowledgement : WordRange.Statement .writeAcknowledgement := by
  intro n h; cases h

theorem WordRange.compareVerdict : WordRange.Statement .compareVerdict := by
  intro n h; cases h

theorem WordRange.forwardedValueArrive : WordRange.Statement .forwardedValueArrive := by
  intro n h; cases h

theorem WordRange.engineCommandStart : WordRange.Statement .engineCommandStart := by
  intro n h; cases h

theorem WordRange.slackStallRelease : WordRange.Statement .slackStallRelease := by
  intro n h; cases h

theorem WordRange.promiseWrite : WordRange.Statement .promiseWrite := by
  intro n h; cases h

theorem WordRange.copyRequestIssue : WordRange.Statement .copyRequestIssue := by
  intro n h; cases h

theorem WordRange.copyCommandComplete : WordRange.Statement .copyCommandComplete := by
  intro n h; cases h

theorem WordRange.sleepWake : WordRange.Statement .sleepWake := by
  intro n h; cases h

theorem WordRange.tsUpdateArrive : WordRange.Statement .tsUpdateArrive := by
  intro n h; cases h

theorem WordRange.xbarArbitrate : WordRange.Statement .xbarArbitrate := by
  intro n h; cases h

theorem WordRange.xbarwtWrite : WordRange.Statement .xbarwtWrite := by
  intro n h; cases h

theorem WordRange.sliceTakePacket : WordRange.Statement .sliceTakePacket := by
  intro n h; cases h

theorem WordRange.sliceReadData : WordRange.Statement .sliceReadData := by
  intro n h; cases h

theorem WordRange.sliceWriteComplete : WordRange.Statement .sliceWriteComplete := by
  intro n h; cases h

theorem WordRange.sliceRefreshStart : WordRange.Statement .sliceRefreshStart := by
  intro n h; cases h

theorem WordRange.sliceRefreshEnd : WordRange.Statement .sliceRefreshEnd := by
  intro n h; cases h

theorem WordRange.matrixCallStart : WordRange.Statement .matrixCallStart := by
  intro n h; cases h

theorem WordRange.matrixRowComplete : WordRange.Statement .matrixRowComplete := by
  intro n h; cases h

theorem WordRange.matrixCallComplete : WordRange.Statement .matrixCallComplete := by
  intro n h; cases h

theorem WordRange.zaccComplete : WordRange.Statement .zaccComplete := by
  intro n h; cases h

theorem WordRange.uldComplete : WordRange.Statement .uldComplete := by
  intro n h; cases h

theorem WordRange.getpWrite : WordRange.Statement .getpWrite := by
  intro n h; cases h

end Sys2Proof.Laws
end

