-- ==== Sys2Proof/Tests/Slice0.lean ====
section
/-!
SUPPORT. Tests: ill-formed terms that are refused; words written out from the spec's encodings and what they decode to;
single operations on small states; and a witness for the hypotheses of each claim. Expected words and values are the
spec's own examples, or worked out by hand from the rule named.
-/

open Sys2Proof Sys2Proof.Machine

section

set_option synthInstance.maxSize 2000
set_option Elab.async false

/-! ### Small states -/

/-- Core 0 as reset leaves it, with an update, while a group of it is issued. -/
def tState (f : Core → Core) : State := { State.reset.mapCore f with issue := { Issue.idle with opened := true } }

/-- s registers of core 0 with values. -/
def tRegs (l : List (BitVec 6 × W)) : State := tState fun x => x.onRegs fun r => l.foldl (fun r p => r.setS p.1 p.2) r

/-- The next state, if there is one. -/
def nextOf : Out → State
  | .next t => t
  | _ => State.reset

/-- An s register after a meaning. -/
def sAfter (o : Out) (n : BitVec 6) : W := (nextOf o).regs.getS n

/-- Element j of w bits of a v register after a meaning. -/
def vAfter (o : Out) (w j : Nat) (n : BitVec 6) : Nat := getE w j ((nextOf o).regs.getV n)

/-- A source with its wait bit. -/
def w (n : BitVec 6) : Src := ⟨true, n⟩

/-- Why a word is refused. -/
def errorOf (r : Except SlotErr Instr) : Option SlotErr :=
  match r with
  | .ok _ => none
  | .error e => some e

/-- What a computation answers, and what holds of it. -/
theorem some_of {α : Type} {o : Option α} {P : α → Prop} [DecidablePred P] (h : o.any (fun r => decide (P r)) = true) :
    ∃ r, o = some r ∧ P r := by
  cases o with
  | none => simp at h
  | some r => exact ⟨r, rfl, by simpa using h⟩
theorem error_of {α : Type} {x : Except Nat α} {k : Nat} (h : (match x with
    | .error r => decide (r = k)
    | .ok _ => false) = true) : x = .error k := by
  cases x <;> simp_all
theorem ok_of {α : Type} [DecidableEq α] {x : Except Nat α} {v : α} (h : (match x with
    | .ok r => decide (r = v)
    | .error _ => false) = true) : x = .ok v := by
  cases x <;> simp_all

/-! ### Ill-formed terms (12_encoding R246 to R255, R262): each check of `Instr.violation` refuses one -/

theorem wf_fence_scope : (Instr.sFence .acq 5).wf = false ∧ (Instr.sFence .acq 4).wf = true := by decide
theorem wf_loopi_count : (Instr.bLoopi 0 1).wf = false ∧ (Instr.bLoopi 1 1).wf = true := by decide
theorem wf_task_base : (Instr.bTask 0 58 0).wf = false ∧ (Instr.bTask 0 57 0).wf = true := by decide
theorem wf_cvt_format : (Instr.vCvt 0 (w 1) 17 false).wf = false ∧ (Instr.vCvt 0 (w 1) 25 false).wf = true := by decide
theorem wf_widen_aligned : (Instr.vWiden 2 (w 1) true 0 false).wf = false ∧
    (Instr.vWiden 2 (w 1) false 0 false).wf = true := by decide
theorem wf_narrow_aligned : (Instr.vNarrow 2 (w 3) false 0 false).wf = false ∧
    (Instr.vNarrow 2 (w 4) false 0 false).wf = true := by decide
theorem wf_lred : (Instr.vLred 0 (w 1) 6 1 false).wf = false ∧ (Instr.vLred 0 (w 1) 0 0 false).wf = false := by decide
theorem wf_lbcast : (Instr.vLbcast 0 (w 1) 0 false).wf = false := by decide
theorem wf_call_gate : (Instr.mCall ⟨40, 3, true, 1, 0, false⟩).wf = false ∧
    (Instr.mGang ⟨40, 3, false, 1, 0, false⟩).wf = false := by decide
theorem wf_copy_fields : (Instr.cCopy ⟨2, 3, false, 1, false, false, 0⟩).wf = false ∧
    (Instr.cGet ⟨2, 3, true, 1, true, false, 5⟩).wf = false := by decide
theorem wf_recast : (Instr.cRecast 2 3 false 1 0).wf = false ∧ (Instr.cRecast 2 3 true 1 5).wf = false := by decide
theorem wf_sbar : (Instr.cSbar 3 false 1 true true true).wf = false ∧
    (Instr.cSbar 3 false 0 false false false).wf = false := by decide
theorem wf_bar : (Instr.qBar 1 true).wf = false ∧ (Instr.qBar 0 true).wf = true := by decide
theorem wf_lift : (Instr.qLift 0 4).wf = false := by decide
theorem wf_gate_pop : (Instr.uGate 1 0).wf = false ∧ (Instr.uPop 1 0).wf = false := by decide

/-! ### Words of the spec's encodings (12_encoding to 16_sync, 20_prog_chase, 21_vector, 23_matrix: the examples) -/

theorem word_s : decodeTableWord 32 0x0402422C = some (.sAddi 4 (w 2) 0x2C) ∧
    decodeTableWord 32 0x054200E8 = some (.sLi 4 0xE8) ∧
    decodeTableWord 32 0x89A24A02 = some (.sStRelW 4 (w 10) 2) ∧
    decodeTableWord 32 0x88C4C601 = some (.sLdD 9 (w 6) 1) ∧
    decodeTableWord 32 0x82E34800 = some (.sMov 6 (w 8)) := by decide +kernel
theorem word_b : decodeTableWord 32 0x905FFFFE = some (.bBp 3 true 0x3FFFE) ∧
    decodeTableWord 32 0x91402001 = some (.bLoopi 8 1) ∧ decodeTableWord 32 0x92000000 = some .bDone := by decide +kernel
theorem word_v : decodeTableWord 32 0x20444184 = some (.vFmul 8 (w 1) (w 2) false) ∧
    decodeTableWord 32 0xA004C388 = some (.vFadd 9 (w 3) (w 4) false) ∧
    decodeTableWord 32 0x2000C287 = some (.vFadd 1 (w 2) (w 3) true) ∧
    decodeTableWord 32 0xAE084802 = some (.vLred 16 (w 8) 0 1 false) ∧
    decodeTableWord 32 0xAE28C88A = some (.vLpick 17 (w 8) (w 5) false) ∧
    decodeTableWord 32 0xAE4A5002 = some (.vLbcast 20 (w 16) 1 false) := by decide +kernel
theorem word_m : decodeTableWord 32 0xB0286000 = some (.mCall ⟨40, 3, false, 0, 0, false⟩) ∧
    decodeTableWord 32 0xB1420000 = some (.mSetp 2 4) ∧ decodeTableWord 32 0xB2420000 = some (.mGetp 2 4) ∧
    decodeTableWord 32 0xB3006000 = some (.mZacc 3) ∧ decodeTableWord 32 0xB4006308 = some (.mUld 3 6 2) ∧
    decodeTableWord 32 0xB5010000 = some (.mGang ⟨1, 0, false, 0, 0, false⟩) := by decide +kernel
theorem word_c : decodeTableWord 32 0xC0080000 = some (.cCopy ⟨2, 0, false, 0, false, false, 0⟩) := by decide +kernel
theorem word_q : decodeTableWord 32 0xD2000100 = some (.qTlwait 0 4) ∧
    decodeTableWord 32 0xD4040000 = some (.qBar 1 false) ∧ decodeTableWord 32 0xD0884000 = some (.qQpop 2 4) ∧
    decodeTableWord 32 0xD5405100 = some (.qFout 5 4) ∧ decodeTableWord 32 0xD6040100 = some (.qLift 1 4) := by decide +kernel
theorem word_u : (decodeMicro 0x00410000).toOption = some (.uLda ⟨0, 1, 1, 0⟩) ∧ (decodeMicro 0x41010000).toOption = some (.uMma 0 1 1) ∧
    (decodeMicro 0xA2C00000).toOption = some (.uPush 2 6) ∧ (decodeMicro 0xF0000000).toOption = some .uEnd := by decide +kernel
theorem word_refused : errorOf (decodeSlot 0x91400002) = some (.reason 6) ∧ errorOf (decodeSlot 0x0FE00000) = some .reserved ∧
    errorOf (decodeSlot 0x0A440000) = some (.reason 5) ∧ errorOf (decodeMicro 0x80000000) = some (.reason 6) := by decide +kernel

/-- The four bytes of a bundle slot as memory holds them (R239: lowest address first), and what follows. -/
theorem word_bytes : decodeBytes [0x2C, 0x42, 0x02, 0x04, 0x84] = some (.sAddi 4 (w 2) 0x2C, [0x84]) := by decide +kernel

/-! ### S operations (14_scalar) -/

/-- R292: −7 div 2 is −3, −7 rem 2 is −1; 5 div 0 is −1, 5 rem 0 is 5. -/
theorem test_div : sAfter (exec (.sDiv 1 (w 2) (w 3)) (tRegs [(2, -7), (3, 2)])) 1 = -3 ∧
    sAfter (exec (.sRem 1 (w 2) (w 3)) (tRegs [(2, -7), (3, 2)])) 1 = -1 ∧
    sAfter (exec (.sDiv 1 (w 2) (w 3)) (tRegs [(2, 5)])) 1 = -1 ∧
    sAfter (exec (.sRem 1 (w 2) (w 3)) (tRegs [(2, 5)])) 1 = 5 := by decide +kernel
/-- R292: 0xFFFF_FFFF_FFFF_FFF9 divn 2 and remn 2. -/
theorem test_divn : sAfter (exec (.sDivn 1 (w 2) (w 3)) (tRegs [(2, 0xFFFFFFFFFFFFFFF9), (3, 2)])) 1 = 0x7FFFFFFFFFFFFFFC ∧
    sAfter (exec (.sRemn 1 (w 2) (w 3)) (tRegs [(2, 0xFFFFFFFFFFFFFFF9), (3, 2)])) 1 = 1 := by decide +kernel
/-- R293: s.lih with −0x6000_0000 sets the high word to 0xA000_0000 (the long immediate of a header, R243). -/
theorem test_lih : sAfter (exec (.sLih 4 (w 4) 0) { tRegs [(4, 0x1234)] with issue := { Issue.idle with
    ctx := { imm := .long 0xA00000 } } }) 4 = 0xA000000000001234 := by decide +kernel
/-- A source that is also the destination; a destination s0 takes nothing. -/
theorem test_add : sAfter (exec (.sAdd 2 (w 2) (w 3)) (tRegs [(2, 0xFFFFFFFFFFFFFFFF), (3, 2)])) 2 = 1 ∧
    sAfter (exec (.sAdd 0 (w 2) (w 3)) (tRegs [(2, 5), (3, 2)])) 0 = 0 := by decide +kernel
theorem test_sra : sAfter (exec (.sSra 1 (w 2) (w 3)) (tRegs [(2, 0x8000000000000000), (3, 67)])) 1 = 0xF000000000000000 := by
  decide +kernel
theorem test_cmp : (nextOf (exec (.sCmpLt 2 (w 4) (w 5)) (tRegs [(4, -1), (5, 1)]))).regs.getP 2 = true ∧
    (nextOf (exec (.sCmpLtn 2 (w 4) (w 5)) (tRegs [(4, -1), (5, 1)]))).regs.getP 2 = false := by decide +kernel

theorem witness_ScalarResults : ∃ (s : State) (i : Instr) (d : BitVec 6) (src : List (BitVec 6)) (f : List W → W),
    scalarOp s.imm i = some (d, src, f) ∧ s.allows i ∧ s.plain src ∧ s.single :=
  ⟨tRegs [(2, 5)], .sAdd 1 (w 2) (w 3), 1, [2, 3], _, rfl, by decide +kernel⟩
theorem witness_DivisionNeverTraps : ∃ (s : State) (d : BitVec 6) (a b : Src), s.plain [a.reg, b.reg] ∧ s.single ∧
    s.allows (.sDiv d a b) ∧ s.allows (.sRem d a b) ∧ s.allows (.sDivn d a b) ∧ s.allows (.sRemn d a b) :=
  ⟨tRegs [(2, 5)], 1, w 2, w 3, by decide +kernel⟩
theorem witness_CompareResults : ∃ (s : State) (i : Instr) (p : BitVec 3) (src : List (BitVec 6)) (v : Bool),
    compareResult s i = some (p, src, v) ∧ s.allows i ∧ s.plain src ∧ s.single :=
  ⟨tRegs [(2, 5)], .sCmpGe 1 (w 2) (w 3), 1, [2, 3], true, by decide +kernel⟩

/-- Core 0 under q.lift 1 of extent 4, with s4 to s7 the members of a register that carries tag 1. -/
def tLift (f : Core → Core) : State := tState fun x => f { x with
  lift := { x.lift with levels := [⟨1, 4, BitVec.allOnes 64⟩] }
  regs := ([1, 2, 3, 4].zipIdx.foldl (fun r p => r.setS (.ofNat 6 (4 + p.2)) p.1 1) x.regs) }
theorem witness_LiftedScalar : ∃ (s : State) (i : Instr) (d : BitVec 6) (srcs : List (BitVec 6)) (g : List W → W),
    scalarOp s.imm i = some (d, srcs, g) ∧ s.allows i ∧
    liftBad s.lift s.regs (srcs.map sOpd) (some (sOpd d)) (s.regs.tags (srcs.map sOpd)) = none ∧
    s.regs.tags (srcs.map sOpd) = 1 :=
  ⟨tLift id, .sAddi 8 (w 4) 10, 8, [4], _, rfl, by decide +kernel⟩
/-- R219: every member of the lift adds. -/
theorem test_lifted_addi : (List.range 4).map (fun m => sAfter (exec (.sAddi 8 (w 4) 10) (tLift id)) (.ofNat 6 (8 + m))) =
    [11, 12, 13, 14] := by decide +kernel

/-! ### Loads, stores, memory -/

/-- s2 holds a tag 5 address of private scratch, s3 a value. -/
def tScr : State := tRegs [(2, 0xA000000000001000), (3, 0x8182838485868788)]
/-- s2 holds a tag 6 address: the live exchange bank of the classroom's core 1, which core 0 may read and write. -/
def tPeer : State :=
  let s := tRegs [(2, 0xC000000000080000), (3, 7)]
  { s with ms := { s.ms with access := [⟨.scratch 1, masterOf 0 0, 0x801F⟩] } }

/-- R295: ld.w sign-extends, ld.wn zero-extends, ld.bn takes the lowest byte. -/
theorem test_ld : (let s := nextOf (exec (.sStD 3 (w 2) 0) tScr)
    sAfter (exec (.sLdW 1 (w 2) 0) s) 1 = 0xFFFFFFFF85868788 ∧ sAfter (exec (.sLdWn 1 (w 2) 1) s) 1 = 0x81828384 ∧
    sAfter (exec (.sLdBn 1 (w 2) 7) s) 1 = 0x81 ∧ sAfter (exec (.sLdH 1 (w 2) 0) s) 1 = 0xFFFFFFFFFFFF8788) := by
  decide +kernel
/-- R3: bytes lie little-endian. -/
theorem test_st : (nextOf (exec (.sStH 3 (w 2) 1) tScr)).core.scratch.bytes 0x1000 6 = [0, 0, 0x88, 0x87, 0, 0] := by
  decide +kernel

theorem witness_ScratchLoads : ∃ (s : State) (i : Instr) (d : BitVec 6) (a : Src) (k : BitVec 8) (n : Nat) (sx acq : Bool),
    loadForm i = some (d, a, k, n, sx, acq) ∧ s.allows i ∧ s.plain [a.reg] ∧ s.single ∧ s.core.memReady = true ∧
    acq = true ∧ (∀ q ∈ s.core.stores, q.rel = false) ∧ (effAddr s a k n).toNat % n = 0 ∧ scratchFree s 0 (effAddr s a k n) n :=
  ⟨tScr, .sLdAcqW 1 (w 2) 3, 1, w 2, 3, 4, true, true, by decide +kernel⟩
/-- The last eight bytes of scratch (R60). -/
theorem witness_ScratchLoads_end : ∃ (s : State) (a : Src) (k : BitVec 8), (effAddr s a k 8).toNat % 8 = 0 ∧
    scratchFree s 0 (effAddr s a k 8) 8 ∧ scratchOff (effAddr s a k 8) = 0x2FFFF8 :=
  ⟨tRegs [(2, 0xA0000000002FFFF0)], w 2, 1, by decide +kernel⟩
theorem witness_ScratchStores : ∃ (s : State) (i : Instr) (d : BitVec 6) (a : Src) (k : BitVec 8) (n : Nat) (rel : Bool),
    storeForm i = some (d, a, k, n, rel) ∧ s.allows i ∧ s.plain [a.reg, d] ∧ s.single ∧ s.core.memReady = true ∧
    s.csr.nrep.toNat ≤ 1 ∧ s.core.behindFence = [] ∧ (rel = true → s.core.openIds = []) ∧
    (effAddr s a k n).toNat % n = 0 ∧ scratchFree s 0 (effAddr s a k n) n :=
  ⟨tScr, .sStRelW 3 (w 2) 3, 3, w 2, 3, 4, true, by decide +kernel⟩
theorem witness_MisalignedAccess : ∃ (s : State) (i : Instr) (a : Src) (k : BitVec 8) (n : Nat),
    (∃ d sx acq, loadForm i = some (d, a, k, n, sx, acq) ∧ s.plain [a.reg]) ∧ s.allows i ∧ s.single ∧
    s.core.memReady = true ∧ s.csr.nrep.toNat ≤ 1 ∧ s.issue.opened = true ∧ (effAddr s a k n).toNat % n ≠ 0 :=
  ⟨tRegs [(2, 1)], .sLdH 1 (w 2) 0, w 2, 0, 2, ⟨1, true, false, by decide +kernel⟩, by decide +kernel⟩
theorem witness_MemoryLoads : ∃ (s : State) (i : Instr) (d : BitVec 6) (a : Src) (k : BitVec 8) (n : Nat) (sx acq : Bool)
    (l : Loc), loadForm i = some (d, a, k, n, sx, acq) ∧ s.allows i ∧ s.plain [a.reg] ∧ s.single ∧
    s.core.memReady = true ∧ (acq = true → ∀ q ∈ s.core.stores, q.rel = false) ∧
    s.csr.nrep.toNat ≤ 1 ∧ (effAddr s a k n).toNat % n = 0 ∧ s.passes (effAddr s a k n) .load = .go l ∧ l.own = false ∧ (∀ j, j < n → s.core.forwardOf (l.place + j) = none) ∧
    (∀ b ∈ s.core.ownStores, b.2.2 = 0xFF#8) ∧ s.poisonRead ((List.range n).map (l.place + ·)) = none :=
  ⟨tPeer, .sLdAcqD 1 (w 2) 0, 1, w 2, 0, 8, true, true, { place := windowPlace 1 false 0 }, by decide +kernel⟩
theorem witness_MemoryStores : ∃ (s : State) (i : Instr) (d : BitVec 6) (a : Src) (k : BitVec 8) (n : Nat) (rel : Bool)
    (l : Loc), storeForm i = some (d, a, k, n, rel) ∧ s.allows i ∧ s.plain [a.reg, d] ∧ s.single ∧
    s.core.memReady = true ∧ s.csr.nrep.toNat ≤ 1 ∧ (effAddr s a k n).toNat % n = 0 ∧
    s.passes (effAddr s a k n) .store = .go l ∧ l.own = false ∧
    s.poisonWrite ((List.range n).map fun j => (l.place + j, (s.regs.getS d).extractLsb' (8 * j) 8, 0xFF#8)) = none :=
  ⟨tPeer, .sStD 3 (w 2) 0, 3, w 2, 0, 8, false, { place := windowPlace 1 true 0 }, by decide +kernel⟩
theorem witness_MemoryReadAfterWrite : ∃ m : Memory, m.wf = true ∧ m.cells.length = 2 ∧ m.read 5 = 7 :=
  ⟨⟨[(5, 7), (6, 1)], [8]⟩, by decide⟩
theorem witness_PoisonedWords : ∃ (m : Memory) (l : List (Nat × Byte × Byte)) (a : Nat), m.wf = true ∧ a % 8 = 0 ∧
    m.isPoisoned a = true ∧ coversWord l a = false ∧ ∃ x ∈ l, x.1 / 8 * 8 = a :=
  ⟨⟨[], [8]⟩, [(9, 1, 0xFF)], 8, by decide, by decide, by decide, by decide, (9, 1, 0xFF), by decide⟩
theorem witness_PoisonedWords_covered : ∃ (l : List (Nat × Byte × Byte)), coversWord l 8 = true :=
  ⟨(List.range 8).map fun i => (8 + i, 0, 0xFF), by decide⟩
/-- R141: a full write clears the poison of its word. -/
theorem test_poison_cleared : ((⟨[], [8, 16]⟩ : Memory).store ((List.range 8).map fun i => (8 + i, 1, 0xFF))).poison = [16] := by
  decide

/-! ### Fences, control registers, traps, branches -/

/-- A handler at bundle 9 of half 1 is set. -/
def tHandler (f : Core → Core) : State := tState fun x => f { x with csr := { x.csr with tvec := 0x8000000000004024 } }
/-- Core 0 is in its handler, entered from bundle 5, slot 2. -/
def tInHandler : State := tHandler fun x => { x with
  csr := { x.csr with hm := true, trappc := 0x16, trapcause := 0x0800000000000012 }
  seq := { x.seq with savedLoops := [⟨⟨false, 1, 0⟩, 2, 3⟩] } }

/-- R201: a write leaves a reserved FMT and takes the other fields. -/
theorem test_csrw_vfmt : (nextOf (exec (.sCsrw 1 (w 2) 6) (tRegs [(2, 0xA011)]))).csr.vfmt = 0xA000 := by decide +kernel
theorem test_csrs : sAfter (exec (.sCsrs 1 (w 2) 1) { tHandler id with cur := 0 }) 1 = 0x8000000000004024 := by decide +kernel
theorem test_trap_word : (⟨true, 9, 2⟩ : Pc).word = 0x4026 := by decide
/-- R134: the handler is entered at TVEC's bundle, slot 0. -/
theorem test_trap_entry : (let u := (tHandler id).takeTrap { code := 0x12, info := 0x1001, mask := 4 } ⟨false, 5, 2⟩
    u.core.seq.pc = ⟨true, 9, 0⟩ ∧ u.csr.trappc = 0x16 ∧ u.csr.faultmask = 4 ∧ u.csr.hm = true) := by decide +kernel
theorem test_tret : (let t := nextOf (exec .bTret tInHandler)
    t.csr.hm = false ∧ t.core.seq.npc = ⟨false, 5, 2⟩ ∧ t.core.seq.loops.length = 1) := by decide +kernel
/-- R303: `b.bp p3` placed two bundles after its target (offset −2). -/
theorem test_bp : (let s := { tState id with issue := { Issue.idle with opened := true, ctx := { bundle := 7 } } }
    (nextOf (exec (.bBp 0 false 0x3FFFE) s)).core.seq.npc = ⟨false, 5, 0⟩ ∧
    (nextOf (exec (.bBp 3 false 0x3FFFE) s)).issue.redirect = none) := by decide +kernel
theorem test_jal : (let s := tState fun x => x.onSeq fun q => { q with npc := ⟨false, 7, 2⟩ }
    sAfter (exec (.bJal 4) s) 60 = 8 ∧ (nextOf (exec (.bJal 4) s)).core.seq.npc = ⟨false, 4, 0⟩) := by decide +kernel
theorem test_jr : (nextOf (exec (.bJr 2) (tRegs [(2, 0x12345)]))).core.seq.npc = ⟨false, 0x345, 0⟩ := by decide +kernel
theorem test_br : (nextOf (exec (.bBr 4) (tState id))).core.seq.npc = ⟨false, 4, 0⟩ := by decide +kernel
/-- R305: b.loopi 4, last of R306's example opens a loop of four passes that ends at bundle 2. -/
theorem test_loopi : (let s := tState fun x => x.onSeq fun q => { q with npc := ⟨false, 0, 3⟩ }
    (nextOf (exec (.bLoopi 4 2) s)).core.seq.loops = [⟨⟨false, 0, 3⟩, 2, 4⟩]) := by decide +kernel
theorem test_loop_zero : (nextOf (exec (.bLoop 0 2) (tState id))).core.seq.npc = ⟨false, 3, 0⟩ := by decide +kernel
theorem test_btrap : (nextOf (exec (.bTrap 0 false 0x155) (tHandler id))).issue.after =
    some { code := 4, info := 0x155, mask := 1 } := by decide +kernel
theorem test_bswap : (nextOf (exec (.bSwap 6) (tState id))).core.seq.npc = ⟨true, 6, 0⟩ := by decide +kernel

theorem witness_FencesStand : ∃ (s : State) (k : FenceKind) (sc : BitVec 3), s.allows (.sFence k sc) ∧
    s.csr.nrep.toNat ≤ 1 := ⟨tState id, .sc, 3, by decide +kernel⟩
theorem witness_FencesStand_kinds : ∀ k : FenceKind, ∃ (x : Core) (f : FenceSt), f ∈ x.fence ∧ f.kind = k ∧
    x.memReady = true := fun k =>
  ⟨{ Core.reset 0 with fence := [⟨k, 0, [1], [1]⟩] }, ⟨k, 0, [1], [1]⟩, by simp, rfl, by cases k <;> decide +kernel⟩
theorem witness_FencesStand_open : ∃ (x : Core) (f : FenceSt) (n : Nat), f ∈ x.fence ∧ f.kind = .rel ∧ n ∈ f.all ∧
    n ∈ x.openIds :=
  ⟨{ Core.reset 0 with fence := [⟨.rel, 0, [], [4]⟩], stores := [⟨4, [], false, 0, false, [], 0, []⟩] },
    ⟨.rel, 0, [], [4]⟩, 4, by decide +kernel⟩
theorem witness_ControlRegisterOperations : ∃ (s : State) (i : Instr) (d : BitVec 6) (c : BitVec 8)
    (o : Option (Src × (W → W → W))) (old : W), csrForm i = some (d, c, o) ∧ s.allows i ∧
    s.plain (o.toList.map (·.1.reg)) ∧ s.csr.nrep.toNat ≤ 1 ∧ s.readCsr c.toNat = some old ∧
    (c = 7 → s.flagsSettled = true) :=
  ⟨tRegs [(2, 5)], .sCsrc 1 (w 2) 7, 1, 7, _, 0, rfl, by decide +kernel⟩
theorem witness_UnlistedControlRegister : ∃ (s : State) (i : Instr) (d : BitVec 6) (c : BitVec 8)
    (o : Option (Src × (W → W → W))), csrForm i = some (d, c, o) ∧ s.allows i ∧ 0x14 < c.toNat ∧ s.issue.opened = true :=
  ⟨tState id, .sCsrr 1 0x15, 1, 0x15, none, rfl, by decide +kernel⟩
theorem witness_ReadCycleCounter : ∃ (s : State) (d : BitVec 6), s.allows (.sRdcyc d) ∧ s.csr.nrep.toNat ≤ 1 :=
  ⟨tState id, 1, by decide +kernel⟩

/-- A group whose second operation has failed. -/
def tFailed : State := { tHandler id with issue := { Issue.idle with opened := true, fails := [⟨1, { code := 3, info := 9 }⟩] } }
theorem witness_FailingGroupHasNoEffect : ∃ (s t u : State) (g : Group) (prev : Option (BitVec 32 × BitVec 12))
    (f : Failure), t.issue.held = false ∧ t.issue.fails = [f] ∧ t.cur = s.cur ∧ s.csr.nrep.toNat ≤ 1 ∧ s.csr.hm = false ∧
    bitOf s.csr.tvec.toNat 63 = true ∧ f.trap.cls ≠ .f ∧ f.trap.code ≠ 0x10 ∧ s.core.fills = [] ∧
    s.finishGroup g prev (.next t) = .next u :=
  ⟨tHandler id, { tFailed with issue := { tFailed.issue with fails := [⟨1, { code := 0x12, info := 9 }⟩] } }, _,
    ⟨[], none, none, 0, 0⟩, none, _, rfl, rfl, rfl, by decide +kernel, by decide +kernel, by decide +kernel,
    by decide, by decide, by decide +kernel, rfl⟩
theorem witness_TrapEntry : ∃ (s : State) (t : Trap), s.csr.hm = false ∧ bitOf s.csr.tvec.toNat 63 = true ∧
    t.cls ≠ .f ∧ s.core.fills = [] := ⟨tHandler id, { code := 4 }, by decide +kernel⟩
theorem witness_DoubleTrap : ∃ s : State, s.csr.hm = true ∧ s.core.fills = [] := ⟨tInHandler, by decide +kernel⟩
theorem witness_TrapReturn : ∃ s : State, s.allows .bTret ∧ s.csr.hm = true ∧ bitOf s.csr.trapcause.toNat 63 = false :=
  ⟨tInHandler, by decide +kernel⟩
theorem witness_TrapReturn_outside : ∃ s : State, s.allows .bTret ∧ s.csr.hm = false := ⟨tState id, by decide +kernel⟩
theorem witness_SyncIgnoredOnce : ∃ s t : State, s.allows .bTret ∧ s.csr.hm = true ∧ exec .bTret s = .next t :=
  have ⟨t, h⟩ := Out.isNext_iff.1 (show Out.isNext (exec .bTret tInHandler) = true by decide +kernel)
  ⟨tInHandler, t, by decide +kernel, by decide +kernel, h⟩
theorem witness_BranchTargets : ∃ s : State, s.allows (.bBr 1) ∧ s.allows (.bJal 1) ∧ s.allows (.bJr 1) ∧ s.plain [1] ∧
    s.allows (.bBp 1 true 2) ∧ misnamed s.lift .p 1 (s.regs.tagOf ⟨.p, 1⟩) = none ∧ (∀ x ∈ s.eachP 1, x.2 = !true) ∧
    s.eachP 1 ≠ [] := ⟨tState id, by decide +kernel⟩
theorem witness_BranchTargets_other : ∃ s : State, s.allows (.bBp 1 false 2) ∧
    misnamed s.lift .p 1 (s.regs.tagOf ⟨.p, 1⟩) = none ∧ (∀ x ∈ s.eachP 1, x.2 = false) ∧ s.eachP 1 ≠ [] :=
  ⟨tState id, by decide +kernel⟩

/-- p4 to p7 under a lift of four members: p5 holds, the others do not. -/
def tSplit : State :=
  let s := tLift fun x => x.onRegs fun r => (((r.setP 4 false 1).setP 5 true 1).setP 6 false 1).setP 7 false 1
  { s with issue := { s.issue with ctx := { split := true } } }
theorem witness_SplitBranches : ∃ (s : State) (p : BitVec 3) (n : Bool) (o : BitVec 18), s.allows (.bBp p n o) ∧
    misnamed s.lift .p p.toNat (s.regs.tagOf ⟨.p, p.toNat⟩) = none ∧ s.issue.ctx.split = true ∧
    s.core.seq.splits.length < 4 ∧ (∃ x ∈ s.eachP p, x.2 = n) ∧ (∃ x ∈ s.eachP p, x.2 = !n) :=
  ⟨tSplit, 4, false, 3, by decide +kernel⟩
/-- R309: the true member runs first. -/
theorem test_split : (nextOf (exec (.bBp 4 false 3) tSplit)).lift.lmask = 2 ∧
    (nextOf (exec .bJoin (nextOf (exec (.bBp 4 false 3) tSplit)))).lift.lmask.toNat % 16 = 13 := by decide +kernel
theorem witness_SplitBranches_join : ∃ (s : State) (e : SplitEnt) (r : List SplitEnt), s.allows .bJoin ∧
    s.core.seq.splits = e :: r ∧ e.second = true :=
  ⟨tState fun x => x.onSeq fun q => { q with splits := [⟨3, 1, ⟨false, 4, 0⟩, true, 1⟩] }, ⟨3, 1, ⟨false, 4, 0⟩, true, 1⟩, [],
    by decide +kernel⟩
theorem witness_LoopsOpen : ∃ (s : State) (c : BitVec 6) (o : BitVec 12), s.allows (.bLoop c o) ∧ s.plain [c] ∧
    s.allows (.bLoopi 3 2) := ⟨tRegs [(1, 4)], 1, 2, by decide +kernel⟩
theorem witness_LoopBackEdge : ∃ (q : Seq) (e : LoopEnt) (r : List LoopEnt), q.loops = e :: r ∧ 1 < e.count.toNat :=
  ⟨{ Seq.reset with loops := [⟨⟨false, 0, 3⟩, 2, 2⟩] }, _, _, rfl, by decide⟩
/-- A loop's last pass: a count of one. -/
theorem witness_LoopBackEdge_last : ∃ (q : Seq) (e : LoopEnt) (r : List LoopEnt), q.loops = e :: r ∧ e.count.toNat ≤ 1 :=
  ⟨{ Seq.reset with loops := [⟨⟨false, 0, 3⟩, 2, 1⟩] }, _, _, rfl, by decide⟩
theorem witness_SoftwareTrap : ∃ (s : State) (p : BitVec 3) (n : Bool) (c : BitVec 18), s.allows (.bTrap p n c) ∧
    misnamed s.lift .p p.toNat (s.regs.tagOf ⟨.p, p.toNat⟩) = none ∧ s.csr.nrep.toNat ≤ 1 ∧ s.csr.hm = false ∧
    s.issue.opened = true ∧ ∃ x ∈ s.eachP p, x.2 = !n := ⟨tHandler id, 0, false, 7, by decide +kernel⟩
theorem witness_SoftwareTrap_not : ∃ (s : State) (p : BitVec 3) (n : Bool) (c : BitVec 18), s.allows (.bTrap p n c) ∧
    misnamed s.lift .p p.toNat (s.regs.tagOf ⟨.p, p.toNat⟩) = none ∧ s.csr.nrep.toNat ≤ 1 ∧ s.csr.hm = false ∧
    s.issue.opened = true ∧ ∀ x ∈ s.eachP p, x.2 = n := ⟨tHandler id, 0, true, 7, by decide +kernel⟩
theorem witness_HalfSwap : ∃ (s : State) (o : BitVec 12), s.allows (.bSwap o) ∧ s.core.seq.splits = [] ∧
    s.core.decomping true = false := ⟨tState id, 6, by decide +kernel⟩

/-! ### Nodes -/

/-- A node descriptor of one core: a NOP group, entry 0. -/
def tDesc : NodeDesc where
  codeOff := 0
  code := [0x80000000]
  entry := 0
  opnds := []
  spare := []
  succOff := 0
  demand := 0
  engines := 0
  prio := 0
  redun := 1
  nsave := 0
  keep := 0
  preds := 0
  succs := []
  frame := 0
  lift := 0x80
  gm := []
  gmv := 0
  pin := 0
  tail := 0
  keepmap := 0
  xclr := 0
/-- A graph of that one node. -/
def tGraph : Graph := ⟨1, 0, ⟨[tDesc], [], [], [], [], none⟩, []⟩
/-- An instance of it. -/
def tInst : Inst where
  id := 0
  graph := 1
  vf := 0
  queue := 0
  record := 0
  node := 0
  state := .running
  preds := 0
  base := 0
  running := 0
  redun := 1
  tt := false
  args := []
  die := .e
  entered := 0
  readyAt := 0
  pooled := false
  started := 0
  early := false
  saved := none
  first := 0
  entry := none
  groups := []
  trigs := []
  expired := false
/-- Core 0 runs it; so do the other cores up to n, as seats of one gang. -/
def tNode (n : Nat) (f : Core → Core) : State :=
  let s := (tState id).onSched fun h => { h with graphs := [tGraph], insts := [tInst] }
  let s := (List.range n).foldl (init := s) fun s c => s.onCore (toCore c) fun x =>
    { x with node := { x.node with inst := some 0, seat := c }, seq := { x.seq with mode := .running } }
  s.mapCore f

theorem test_done : (nextOf (exec .bDone (tNode 2 id))).core.seq.mode = .done := by decide +kernel
/-- R311: a queue that holds an entry is QUEUE_NOT_EMPTY, with the mask of the queues. -/
def tQueueLeft : State := tNode 1 fun x => x.setQueue 3 ⟨true, 0, 2, false, 5, 4⟩
theorem test_done_queue : (nextOf (exec .bDone tQueueLeft)).issue.fails = [⟨0, { code := 0x19, info := 8 }⟩] := by decide +kernel
theorem test_yield : (nextOf (exec .bYield (tNode 2 id))).core.seq.mode = .yielded := by decide +kernel
theorem test_park : (nextOf (exec (.bPark 1) (tNode 2 fun x => x.onRegs fun r => { r with gm := r.gm.set 1 0x107 }))).core.seq.mode =
    .parked 7 0 ∧ (nextOf (exec (.bPark 1) (tNode 1 id))).issue.fails = [⟨0, { code := 0x14, info := 1 }⟩] := by decide +kernel
theorem test_trig : (nextOf (exec .bTrig (tNode 2 id))).core.node.trig = true := by decide +kernel
theorem test_task : (nextOf (exec (.bTask 1 2 20) (tNode 1 id))).sched.tasks.length = 1 ∧
    (nextOf (exec (.bTask 1 2 20) (tNode 1 fun x => x.onRegs fun r => r.setS 1 1))).issue.fails =
      [⟨0, { code := 0x18, info := 1 }⟩] := by decide +kernel
/-- R316: CTX 3 waits for DUE only. -/
theorem test_sleep : (nextOf (exec (.bSleep 1) (tRegs [(1, 0xC000000000000000)]))).issue.held = false ∧
    (nextOf (exec (.bSleep 1) (tRegs [(1, 0xC000000000000005)]))).issue.held = true := by decide +kernel

theorem witness_NodeDone : ∃ s : State, s.allows .bDone ∧ s.core.enginesIdle = true ∧ s.csr.nrep.toNat ≤ 1 ∧
    s.core.openIds = [] ∧ s.core.queueMask = 0 ∧ s.core.node.inst = some 0 ∧
    (s.allSeats fun y => y.seq.mode == .done || y.redun.retired) = true ∧ (s.instAt 0).isSome = true :=
  ⟨tNode 1 id, by decide +kernel⟩
theorem witness_NodeDone_gang : ∃ s : State, s.allows .bDone ∧ s.core.enginesIdle = true ∧ s.csr.nrep.toNat ≤ 1 ∧
    s.core.openIds = [] ∧ s.core.queueMask = 0 ∧ s.core.node.inst = some 0 ∧
    (s.allSeats fun y => y.seq.mode == .done || y.redun.retired) = false := ⟨tNode 2 id, by decide +kernel⟩
theorem witness_NodeDone_queue : ∃ s : State, s.allows .bDone ∧ s.core.enginesIdle = true ∧ s.csr.nrep.toNat ≤ 1 ∧
    s.core.openIds = [] ∧ s.core.queueMask ≠ 0 ∧ s.issue.opened = true := ⟨tQueueLeft, by decide +kernel⟩
theorem witness_NodeYield : ∃ s : State, s.allows .bYield ∧ s.csr.hm = false ∧ s.csr.nrep.toNat ≤ 1 ∧
    s.core.node.inst = some 0 ∧ (s.allSeats fun y => y.seq.mode == .yielded || y.redun.retired) = false :=
  ⟨tNode 2 id, by decide +kernel⟩
theorem witness_NodeYield_all : ∃ s : State, s.allows .bYield ∧ s.csr.hm = false ∧ s.csr.nrep.toNat ≤ 1 ∧
    s.core.node.inst = some 0 ∧ (s.allSeats fun y => y.seq.mode == .yielded || y.redun.retired) = true ∧
    s.preempts 0 = false := ⟨tNode 1 id, by decide +kernel⟩
/-- A pinned node of higher priority waits for core 0, where the other runs. -/
def tRival : State := (tNode 1 id).onSched fun h => { h with
  graphs := [⟨1, 0, ⟨[tDesc, { tDesc with pin := 0x8000 }], [], [], [], [], none⟩, []⟩]
  insts := [tInst, { tInst with id := 1, node := 1, state := .ready, base := 9, pooled := true }] }
theorem witness_NodeYield_gives : ∃ s : State, s.allows .bYield ∧ s.csr.hm = false ∧ s.csr.nrep.toNat ≤ 1 ∧
    s.core.node.inst = some 0 ∧ (s.allSeats fun y => y.seq.mode == .yielded || y.redun.retired) = true ∧
    s.preempts 0 = true ∧ s.boundary (s.instCores 0) = .ok :=
  ⟨{ tRival with fw := { tRival.fw with partmap := #v[1, 0] } }, by decide +kernel⟩
theorem witness_NodePark : ∃ (s : State) (m : BitVec 2), s.allows (.bPark m) ∧ s.csr.hm = false ∧
    (s.regs.gm.get m.toFin).getLsbD 8 = true ∧ s.csr.nrep.toNat ≤ 1 ∧ s.core.node.inst = some 0 ∧
    (s.instAt 0).isSome = true ∧ s.boundary [s.cur] = .ok ∧ ∀ c ∈ s.instCores 0, c = s.cur :=
  ⟨tNode 1 fun x => x.onRegs fun r => { r with gm := r.gm.set 1 0x107 }, 1, by decide +kernel⟩
theorem witness_NodePark_gang : ∃ (s : State) (m : BitVec 2), s.allows (.bPark m) ∧ s.csr.hm = false ∧
    (s.regs.gm.get m.toFin).getLsbD 8 = true ∧ s.csr.nrep.toNat ≤ 1 ∧ s.core.node.inst = some 0 ∧
    (s.instAt 0).isSome = true ∧ s.boundary [s.cur] = .ok ∧
    ∃ c ∈ s.instCores 0, c ≠ s.cur ∧ (s.coreAt c).redun.retired = false ∧ (s.coreAt c).seq.mode = .running :=
  ⟨tNode 2 fun x => x.onRegs fun r => { r with gm := r.gm.set 1 0x107 }, 1, by decide +kernel⟩
theorem witness_NodePark_invalid : ∃ (s : State) (m : BitVec 2), s.allows (.bPark m) ∧ s.csr.hm = false ∧
    (s.regs.gm.get m.toFin).getLsbD 8 = false ∧ s.csr.nrep.toNat ≤ 1 ∧ s.issue.opened = true :=
  ⟨tNode 1 id, 1, by decide +kernel⟩
theorem witness_NodeTrigger : ∃ s : State, s.allows .bTrig ∧ s.csr.nrep.toNat ≤ 1 ∧ s.core.node.trig = false ∧
    s.core.openIds = [] := ⟨tNode 1 id, by decide +kernel⟩
theorem witness_TaskRequests : ∃ (s : State) (i b d : BitVec 6) (n : NodeDesc), s.allows (.bTask i b d) ∧
    s.csr.nrep.toNat ≤ 1 ∧ b.toNat ≤ 57 ∧ s.plain (i :: (List.range 7).map fun k => BitVec.ofNat 6 (b.toNat + k)) ∧
    (((s.instOf s.cur).bind fun me => s.graphAt me.graph).elim [] (·.image.nodes))[(s.regs.getS i).toNat]? = some n ∧
    n.preds = 0 ∧ n.succs = [] := ⟨tNode 1 id, 1, 57, 20, tDesc, by decide +kernel⟩
theorem witness_TaskRequests_none : ∃ (s : State) (i b d : BitVec 6), s.allows (.bTask i b d) ∧
    s.csr.nrep.toNat ≤ 1 ∧ b.toNat ≤ 57 ∧ s.plain (i :: (List.range 7).map fun k => BitVec.ofNat 6 (b.toNat + k)) ∧
    (((s.instOf s.cur).bind fun me => s.graphAt me.graph).elim [] (·.image.nodes))[(s.regs.getS i).toNat]? = none ∧
    s.issue.opened = true := ⟨tState id, 1, 2, 20, by decide +kernel⟩
theorem witness_TaskRequests_tagged : ∃ (s : State) (i b d : BitVec 6), s.allows (.bTask i b d) ∧
    s.csr.nrep.toNat ≤ 1 ∧ b.toNat ≤ 57 ∧
    s.regs.tags ((i :: (List.range 7).map fun k => BitVec.ofNat 6 (b.toNat + k)).map sOpd) ≠ 0 ∧ s.issue.opened = true :=
  ⟨tLift id, 1, 2, 20, by decide +kernel⟩
theorem witness_SleepOnPromise : ∃ (s : State) (r : BitVec 6), s.allows (.bSleep r) ∧ s.plain [r] ∧ s.csr.nrep.toNat ≤ 1 ∧
    s.csr.hm = false ∧ ¬((s.cyc.toNat % 2 ^ 40 + 2 ^ 40 - (s.regs.getS r).toNat % 2 ^ 40) % 2 ^ 40 < 2 ^ 39) :=
  ⟨tRegs [(1, 5)], 1, by decide +kernel⟩
/-- Command 3 of tc1 was promised, command 2 has completed. -/
theorem witness_SleepOnPromise_missed : ∃ (s : State) (r : BitVec 6), s.allows (.bSleep r) ∧ s.plain [r] ∧
    s.csr.nrep.toNat ≤ 1 ∧ s.csr.hm = false ∧
    (s.cyc.toNat % 2 ^ 40 + 2 ^ 40 - (s.regs.getS r).toNat % 2 ^ 40) % 2 ^ 40 < 2 ^ 39 ∧
    (s.regs.getS r).toNat / 2 ^ 62 = (1 : Fin 3).val ∧ 3 ≤ (s.core.tlAt 1).issued.toNat ∧
    3 % 2 ^ 22 = (s.regs.getS r).toNat / 2 ^ 40 % 2 ^ 22 ∧ (s.core.tlAt 1).val.toNat < 3 ∧ s.issue.opened = true :=
  ⟨tState fun x => (x.onRegs fun r => r.setS 1 (2 ^ 62 + 3 * 2 ^ 40)).onTl 1 fun t => { t with issued := 5, val := 2 }, 1,
    by decide +kernel⟩

/-! ### Queues, timelines, promises, the fabric's words, lifts -/

/-- q2 is configured at 0x400 with four entries of eight bytes, one of them held; s1 holds a word. -/
def tQueue : State := tState fun x => { (x.onRegs fun r => r.setS 1 0x1122334455667788).setQueue 2 ⟨true, 0x400, 2, false, 0xFFFF, 0xFFFE⟩ with
  scratch := ⟨[(0x410, 7)], []⟩ }

theorem test_qpush : (let t := nextOf (exec (.qQpush 2 1) tQueue)
    t.core.scratch.num 0x418 8 = 0x1122334455667788 ∧ (t.core.queue 2).count = 2 ∧ (t.core.queue 2).pi = 0) := by decide +kernel
theorem test_qpop : sAfter (exec (.qQpop 2 4) tQueue) 4 = 7 ∧ ((nextOf (exec (.qQpop 2 4) tQueue)).core.queue 2).ci = 0xFFFF := by
  decide +kernel
theorem test_qpeek : sAfter (exec (.qQpeek 2 4 0) tQueue) 4 = 7 ∧ sAfter (exec (.qQcnt 2 4) tQueue) 4 = 1 := by decide +kernel
theorem test_qpop_empty : (nextOf (exec (.qQpop 2 4) (nextOf (exec (.qQpop 2 5) tQueue)))).issue.held = true := by decide +kernel
theorem test_tlsig : (nextOf (exec (.qTlsig 1) (tRegs [(1, 9)]))).core.ts = 9 := by decide +kernel
/-- R316: a promise of a command that has completed is due now; the timeline stands in [63:62]. -/
theorem test_promise : ((nextOf (exec (.qPromise 1 4 5) (tState fun x => (x.onRegs fun r => r.setS 5 2).onTl 1
    fun t => { t with issued := 5, val := 2 }))).core.fills.map fun f => (f.reg, f.due)) = [(4, 4)] := by decide +kernel
theorem test_lift : (let s := nextOf (exec (.qLift 1 4) (tRegs [(4, 4)]))
    s.lift.liftx = 4 * 512 + 2 ^ 16 + 4 * 4 + 1 ∧ s.lift.lmask = 15) := by decide +kernel
theorem test_lmask : (nextOf (exec (.qLmask 4) { tLift (fun x => x.onRegs fun r => r.setS 4 0xB) with cur := 0 })).lift.lmask = 0xB := by
  decide +kernel
theorem test_slack : (nextOf (exec (.qSlack 1) (tRegs [(1, 0x12345)]))).csr.slack = 0xFFFF00000000 := by decide +kernel

theorem witness_QueueConfiguration : ∃ (s : State) (x : BitVec 4) (a : BitVec 6), s.allows (.qQcfg x a) ∧ s.plain [a] ∧
    s.core.enginesIdle = true ∧ qcfgOk (s.regs.getS a).toNat = true :=
  ⟨tRegs [(1, 0x8000000000000000 + 2 * 2 ^ 24 + 0x400)], 2, 1, by decide +kernel⟩
theorem witness_QueueConfiguration_bad : ∃ (s : State) (x : BitVec 4) (a : BitVec 6), s.allows (.qQcfg x a) ∧ s.plain [a] ∧
    s.core.enginesIdle = true ∧ qcfgOk (s.regs.getS a).toNat = false ∧ s.issue.opened = true :=
  ⟨tRegs [(1, 0x8000000000000000 + 9 * 2 ^ 24)], 2, 1, by decide +kernel⟩
theorem witness_QueuePush : ∃ (s : State) (x : BitVec 4) (a : BitVec 6), s.allows (.qQpush x a) ∧ s.plain [a] ∧ s.single ∧
    queueSeen s x ∧ s.core.openIds = [] ∧ (s.core.queue x).cfg = true ∧ (s.core.queue x).count < (s.core.queue x).depth ∧
    s.core.lockedFor 0 ((s.core.queue x).slotAt (s.core.queue x).pi.toNat) = false := ⟨tQueue, 2, 1, by decide +kernel⟩
theorem witness_QueueReads : ∃ (s : State) (x : BitVec 4) (d : BitVec 6) (k : BitVec 6), queueSeen s x ∧
    (s.core.queue x).cfg = true ∧ s.allows (.qQpop x d) ∧ s.allows (.qQpeek x d k) ∧ s.allows (.qQcnt x d) ∧
    k.toNat < (s.core.queue x).count ∧ k.toNat < (s.core.queue x).depth ∧
    s.core.lockedFor 0 ((s.core.queue x).slotAt ((s.core.queue x).ci.toNat + k.toNat)) = false ∧
    s.core.scratch.firstPoison ((List.range (s.core.queue x).size).map
      ((s.core.queue x).slotAt ((s.core.queue x).ci.toNat + k.toNat) + ·)) = none := ⟨tQueue, 2, 4, 0, by decide +kernel⟩
theorem witness_QueueReads_past : ∃ (s : State) (x : BitVec 4) (d k : BitVec 6), queueSeen s x ∧
    (s.core.queue x).cfg = true ∧ s.allows (.qQpeek x d k) ∧ (s.core.queue x).depth ≤ k.toNat ∧ s.issue.opened = true :=
  ⟨tQueue, 2, 4, 4, by decide +kernel⟩
theorem witness_QueueHolds : ∃ (s : State) (x : BitVec 4) (a : BitVec 6), queueSeen s x ∧ (s.core.queue x).cfg = false ∧
    s.issue.opened = true ∧ s.allows (.qQpush x a) ∧ s.allows (.qQpop x a) ∧ s.allows (.qQcnt x a) :=
  ⟨tQueue, 3, 1, by decide +kernel⟩
theorem witness_QueueHolds_empty : ∃ (s : State) (x : BitVec 4) (a : BitVec 6), queueSeen s x ∧
    (s.core.queue x).cfg = true ∧ s.allows (.qQpop x a) ∧ (s.core.queue x).count = 0 :=
  ⟨tState fun x => x.setQueue 2 ⟨true, 0, 0, false, 1, 1⟩, 2, 1, by decide +kernel⟩
theorem witness_QueueHolds_full : ∃ (s : State) (x : BitVec 4) (a : BitVec 6), queueSeen s x ∧
    (s.core.queue x).cfg = true ∧ s.allows (.qQpush x a) ∧ s.plain [a] ∧ s.single ∧
    (s.core.queue x).count = (s.core.queue x).depth :=
  ⟨tState fun x => x.setQueue 2 ⟨true, 0, 0, false, 2, 1⟩, 2, 1, by decide +kernel⟩
theorem witness_QueueOrder : ∃ (x : Core) (n : BitVec 4), (x.queue n).count < (x.queue n).depth ∧ (x.queue n).depth ≤ 256 ∧
    2 < (x.queue n).count := ⟨(Core.reset 0).setQueue 2 ⟨true, 0x400, 8, true, 3, 0⟩, 2, by decide +kernel⟩
theorem witness_TimelineWaits : ∃ (s : State) (t : BitVec 2) (a : BitVec 6), s.allows (.qTlrd t a) ∧ s.allows (.qTlwait t a) ∧
    s.plain [a] ∧ s.csr.nrep.toNat ≤ 1 ∧ s.csr.hm = false ∧ s.issue.opened = true ∧
    (s.regs.getS a).toNat ≤ (s.core.tlVal t).toNat ∧ t.toNat = (1 : Fin 3).val ∧
    (s.core.tlAt 1).err = some (3, 8) :=
  ⟨tState fun x => x.onTl 1 fun t => { t with val := 4, err := some (3, 8) }, 1, 1, by decide +kernel⟩
theorem witness_TimelineWaits_later : ∀ t : BitVec 2, ∃ (s : State) (a : BitVec 6), s.allows (.qTlwait t a) ∧ s.plain [a] ∧
    s.csr.nrep.toNat ≤ 1 ∧ s.csr.hm = false ∧ s.issue.opened = true ∧
    (s.core.tlVal t).toNat < (s.regs.getS a).toNat := fun t =>
  ⟨tRegs [(1, 9)], 1, by revert t; decide +kernel⟩
theorem witness_TimelineOrder : ∃ (t : Timeline) (n : Nat), t.val.toNat + t.ahead.length + 1 < 2 ^ 64 ∧
    (∀ m ∈ t.ahead, t.val.toNat + 1 < m) ∧ n ∉ t.ahead ∧ t.val.toNat < n ∧ t.ahead ≠ [] :=
  ⟨⟨4, 9, [6, 7], none, none, 0, []⟩, 5, by decide⟩
/-- R216: command 5 takes the timeline past 6 and 7. -/
theorem test_timeline : ((⟨4, 9, [6, 7], none, none, 0, []⟩ : Timeline).complete 5 none).val = 7 := by decide +kernel
theorem witness_TimelineSignals : ∃ (s : State) (a : BitVec 6), s.allows (.qTlsig a) ∧ s.plain [a] ∧ s.csr.nrep.toNat ≤ 1 ∧
    s.core.enginesIdle = true ∧ s.core.openIds = [] := ⟨tRegs [(1, 9)], 1, by decide +kernel⟩
theorem witness_TimelineSignals_x : ∃ (s : State) (d a : BitVec 6), s.allows (.qTlwaitx d a) ∧ s.plain [d, a] ∧
    s.csr.nrep.toNat ≤ 1 ∧ toCore ((s.regs.getS d).toNat % 256) = s.cur ∧ (s.regs.getS a).toNat ≤ s.core.ts.toNat :=
  ⟨tState id, 1, 2, by decide +kernel⟩
theorem witness_TimelineSignals_other : ∃ (s : State) (d a : BitVec 6) (v : W), s.allows (.qTlwaitx d a) ∧ s.plain [d, a] ∧
    s.csr.nrep.toNat ≤ 1 ∧ toCore ((s.regs.getS d).toNat % 256) ≠ s.cur ∧
    s.tsSeenOf (toCore ((s.regs.getS d).toNat % 256)) = some v ∧ (s.regs.getS a).toNat ≤ v.toNat :=
  ⟨(tNode 2 fun x => { x.onRegs (fun r => r.setS 1 1) with tsSeen := [(1, 5)] }), 1, 2, 5, by decide +kernel⟩
theorem witness_PromiseWords : ∃ (s : State) (t : BitVec 2) (d a : BitVec 6), s.allows (.qPromise t d a) ∧ s.plain [a] ∧
    s.csr.nrep.toNat ≤ 1 ∧ t.toNat = (1 : Fin 3).val ∧ 0 < (s.regs.getS a).toNat ∧
    (s.regs.getS a).toNat ≤ (s.core.tlAt 1).issued.toNat ∧ (s.regs.getS a).toNat ≤ (s.core.tlAt 1).val.toNat :=
  ⟨tState fun x => (x.onRegs fun r => r.setS 5 2).onTl 1 fun t => { t with issued := 5, val := 2 }, 1, 4, 5,
    by decide +kernel⟩
theorem witness_PromiseWords_future : ∃ (s : State) (t : BitVec 2) (d a : BitVec 6), s.allows (.qPromise t d a) ∧
    s.plain [a] ∧ s.csr.nrep.toNat ≤ 1 ∧ t.toNat = (1 : Fin 3).val ∧
    (s.core.tlAt 1).issued.toNat < (s.regs.getS a).toNat ∧ s.issue.opened = true :=
  ⟨tRegs [(5, 1)], 1, 4, 5, by decide +kernel⟩
theorem witness_PromiseWords_ts : ∃ (s : State) (d a : BitVec 6), s.allows (.qPromise 3 d a) ∧ s.plain [a] ∧
    s.csr.nrep.toNat ≤ 1 := ⟨tRegs [(5, 1)], 4, 5, by decide +kernel⟩
theorem witness_PacingOperations : ∃ s : State, s.allows (.qBar 0 true) ∧ s.allows (.qSlack 1) ∧ s.plain [1] ∧
    s.allows .qFrame ∧ s.csr.tt = false ∧ s.allows .qIfence ∧ s.core.decomping = false := ⟨tState id, by decide +kernel⟩
theorem witness_PacingOperations_frame : ∃ s : State, s.allows .qFrame ∧ s.csr.tt = true ∧ s.csr.cnt = 0 :=
  ⟨tState fun x => x.onCsr fun c => { c with tt := true }, by decide +kernel⟩
theorem witness_FabricWords : ∃ (s : State) (d a : BitVec 6), s.allows (.qFout d a) ∧ s.plain [d, a] ∧ s.single ∧
    s.csr.nrep.toNat ≤ 1 ∧ s.core.mail.outbox.length < 16 ∧ s.allows (.qFin d) ∧
    (s.core.fills.filter fun f => match f.src with | .fin _ => true | _ => false).length < 8 :=
  ⟨tRegs [(1, 5)], 1, 2, by decide +kernel⟩
theorem witness_FabricWords_full : ∃ (s : State) (d a : BitVec 6), s.allows (.qFout d a) ∧ s.plain [d, a] ∧ s.single ∧
    s.csr.nrep.toNat ≤ 1 ∧ 16 ≤ s.core.mail.outbox.length ∧ s.allows (.qFin d) ∧
    8 ≤ (s.core.fills.filter fun f => match f.src with | .fin _ => true | _ => false).length :=
  ⟨tState fun x => { x with
    mail := ⟨[], .replicate 16 ⟨0, 0, false, none, []⟩⟩
    fills := .replicate 8 ⟨.s, 9, .fin none, 0⟩ }, 1, 2, by decide +kernel⟩
theorem witness_LiftLevels : ∃ (s : State) (t : BitVec 2) (a : BitVec 6), s.allows (.qLift t a) ∧ s.plain [a] ∧
    1 ≤ (s.regs.getS a).toNat ∧ s.lift.prod * (s.regs.getS a).toNat ≤ 64 ∧ s.lift.levels.length < 3 ∧
    s.lift.levels.length < s.lift.maxDepth ∧ s.lift.prod * (s.regs.getS a).toNat ≤ s.lift.maxProd ∧ 0 < s.lift.prod ∧
    s.lift.levels.all (fun v => v.tag != t) = true := ⟨tLift fun x => x.onRegs fun r => r.setS 1 16, 2, 1, by decide +kernel⟩
theorem witness_LiftLevels_zero : ∃ (s : State) (t : BitVec 2) (a : BitVec 6), s.allows (.qLift t a) ∧ s.plain [a] ∧
    (s.regs.getS a).toNat = 0 ∧ s.issue.opened = true := ⟨tState id, 2, 1, by decide +kernel⟩
theorem witness_LiftLevels_lend : ∃ (s : State) (v : LiftLevel) (r : List LiftLevel), s.allows .qLend ∧
    s.lift.levels = v :: r ∧ v.tag ≠ 0 ∧ s.core.seq.splits = [] := ⟨tLift id, ⟨1, 4, BitVec.allOnes 64⟩, [], by decide +kernel⟩
theorem witness_LiftLevels_lmask : ∃ (s : State) (a : BitVec 6), s.allows (.qLmask a) ∧ s.plain [a] ∧ s.lift.levels ≠ [] :=
  ⟨tLift id, 1, by decide +kernel⟩

/-! ### The vector operations -/

/-- Format f in VFMT, v registers with elements of wd bits. -/
def tVec (f : BitVec 5) (wd : Nat) (l : List (BitVec 6 × List Nat)) : State := tState fun x =>
  { (x.onRegs fun r => l.foldl (fun r p => r.setV p.1 (packE wd p.2.length fun i => p.2.getD i 0)) r) with
    csr := { x.csr with fmt := f } }
/-- What stands around the operation. -/
def tCtx (c : OpCtx) (s : State) : State := { s with issue := { s.issue with ctx := c } }
/-- The FPFLAGS after a meaning. -/
def flagsAfter (o : Out) : Flags := (nextOf o).csr.fpflags

/-- The spec's example of 21_vector: 1.5 · (1 + 2^−10) − 1.5 in FP16, fused (exact) and as a cascade (2^−9, with NX). -/
def tFma : State := tVec 2 16 [(4, [0x3E00]), (5, [0x3C01]), (6, [0xBE00]), (10, [0xBE00])]
def tCasc : State := tCtx { casc := some ⟨1, 0, w 6, w 0⟩ } tFma
theorem test_fma : vAfter (exec (.vFma 10 (w 4) (w 5) false) tFma) 16 0 10 = 0x1600 ∧
    flagsAfter (exec (.vFma 10 (w 4) (w 5) false) tFma) = 0 := by decide +kernel
theorem test_cascade : vAfter (exec (.vFmul 9 (w 4) (w 5) false) tCasc) 16 0 9 = 0x1800 ∧
    flagsAfter (exec (.vFmul 9 (w 4) (w 5) false) tCasc) = fNX := by decide +kernel
/-- R222: FP16 1.0 + 1.0, 1.0 − 1.0, and infinity minus infinity. -/
def tHalf : State := tVec 2 16 [(1, [0x3C00, 0x7C00, 0x7E00]), (2, [0x3C00, 0xFC00, 0x3C00])]
theorem test_fadd : (List.range 3).map (fun j => vAfter (exec (.vFadd 3 (w 1) (w 2) false) tHalf) 16 j 3) =
    [0x4000, 0x7E00, 0x7E00] ∧ flagsAfter (exec (.vFadd 3 (w 1) (w 2) false) tHalf) = fNV := by decide +kernel
theorem test_fmin : (List.range 3).map (fun j => vAfter (exec (.vFmin 3 (w 1) (w 2) false) tHalf) 16 j 3) =
    [0x3C00, 0xFC00, 0x3C00] := by decide +kernel
theorem test_fneg : vAfter (exec (.vFneg 3 (w 1) false) tHalf) 16 0 3 = 0xBC00 ∧
    vAfter (exec (.vFabs 3 (w 2) false) tHalf) 16 1 3 = 0x7C00 := by decide +kernel
/-- Under k1, with bit 0 clear, element 0 keeps its old value; with z it is zero. -/
def tInt : State := tVec 11 8 [(1, [100, 0xFF, 0x80, 3]), (2, [100, 1, 0xFF, 9]), (3, [7, 7])]
def tMask : State := tCtx { mask := 1 } (tInt.mapRegs fun r => r.setK 1 2)
theorem test_mask : vAfter (exec (.vAdd 3 (w 1) (w 2) false) tMask) 8 0 3 = 7 ∧
    vAfter (exec (.vAdd 3 (w 1) (w 2) true) tMask) 8 0 3 = 0 ∧ vAfter (exec (.vAdd 3 (w 1) (w 2) true) tMask) 8 1 3 = 0 := by
  decide +kernel
theorem test_addsat : (List.range 4).map (fun j => vAfter (exec (.vAddsat 3 (w 1) (w 2) false) tInt) 8 j 3) =
    [0x7F, 0, 0x80, 12] := by decide +kernel
theorem test_subsat : vAfter (exec (.vSubsat 3 (w 1) (w 2) false) tInt) 8 2 3 = 0x81 := by decide +kernel
/-- The high half of −1 · 1 is −1, of 255 · 1 zero. -/
theorem test_mulh : vAfter (exec (.vMulh 3 (w 1) (w 2) false) tInt) 8 1 3 = 0xFF ∧
    vAfter (exec (.vMulhn 3 (w 1) (w 2) false) tInt) 8 1 3 = 0 := by decide +kernel
/-- A shift by 9 of eight bits: zero, or the sign. -/
theorem test_shifts : vAfter (exec (.vShl 3 (w 1) (w 2) false) tInt) 8 3 3 = 0 ∧
    vAfter (exec (.vSra 3 (w 1) (w 2) false) tInt) 8 2 3 = 0xFF ∧ vAfter (exec (.vShr 3 (w 1) (w 2) false) tInt) 8 1 3 = 0x7F := by
  decide +kernel
theorem test_minmax : vAfter (exec (.vMin 3 (w 1) (w 2) false) tInt) 8 1 3 = 0xFF ∧
    vAfter (exec (.vMinn 3 (w 1) (w 2) false) tInt) 8 1 3 = 1 := by decide +kernel
theorem test_compares : ((nextOf (exec (.vIcmpLt 1 (w 1) (w 2)) tInt)).regs.getK 1).toNat = 0b1110 ∧
    ((nextOf (exec (.vIcmpLtn 1 (w 1) (w 2)) tInt)).regs.getK 1).toNat = 0b1100 := by decide +kernel
theorem test_fcompares : ((nextOf (exec (.vFcmpUn 1 (w 1) (w 2)) tHalf)).regs.getK 1).toNat = 0b100 ∧
    flagsAfter (exec (.vFcmpLt 1 (w 1) (w 2)) tHalf) = fNV ∧ flagsAfter (exec (.vFcmpEq 1 (w 1) (w 2)) tHalf) = 0 := by
  decide +kernel
theorem test_perm : vAfter (exec (.vPerm 3 (w 1) (w 2) false) tInt) 8 1 3 = 0xFF ∧
    vAfter (exec (.vPerm 3 (w 1) (w 2) false) tInt) 8 2 3 = 0 := by decide +kernel
theorem test_zip : (List.range 4).map (fun j => vAfter (exec (.vZip 3 (w 1) (w 2) false) tInt) 8 j 3) = [100, 100, 0xFF, 1] ∧
    vAfter (exec (.vUnzip 3 (w 1) (w 2) false) tInt) 8 1 3 = 0x80 := by decide +kernel
theorem test_iota : vAfter (exec (.vIota 3 false) tInt) 8 5 3 = 5 ∧ vAfter (exec (.vIota 3 false) tHalf) 16 2 3 = 0x4000 := by
  decide +kernel
/-- R394: FP16 100.0 becomes INT8 100, and INT8 −1 becomes FP16 −1.0. -/
theorem test_cvt : vAfter (exec (.vCvt 3 (w 1) 2 false) (tVec 11 16 [(1, [0x5640])])) 8 0 3 = 100 ∧
    vAfter (exec (.vCvt 3 (w 1) 11 false) (tVec 2 8 [(1, [100, 0xFF])])) 16 1 3 = 0xBC00 := by decide +kernel
/-- R395: byte 1 of v1 widens to element 0 of the second register. -/
theorem test_widen : vAfter (exec (.vWiden 4 (w 1) false 11 false) (tVec 10 8 [(1, [100, 0xFF])])) 16 0 5 = 0xFFFF := by
  decide +kernel
theorem test_pack6 : vAfter (exec (.vPack6 3 (w 1) false) tInt) 6 1 3 = 0x3F ∧
    vAfter (exec (.vUnpack6 3 (w 1) false) (tVec 11 6 [(1, [0x3F])])) 8 0 3 = 0xFF := by decide +kernel
theorem test_setfmt : (nextOf (exec (.vSetfmt (w 1)) (tRegs [(1, 0x182)]))).csr.fmt = 2 := by decide +kernel
/-- The active elements 0 to 3 alone. -/
def tFour (s : State) : State := tCtx { mask := 1 } (s.mapRegs fun r => r.setK 1 15)
theorem test_reductions : vAfter (exec (.vRadd 3 (w 1) false) (tFour tInt)) 8 0 3 = 0xE6 ∧
    vAfter (exec (.vRmax 3 (w 1) false) (tFour tInt)) 8 0 3 = 100 ∧
    vAfter (exec (.vScanAdd 3 (w 1) false) (tFour (tVec 25 32 [(1, [5, 6, 7])]))) 32 2 3 = 18 := by
  decide +kernel
theorem test_rfadd : vAfter (exec (.vRfadd 3 (w 1) false) (tFour (tVec 2 16 [(1, [0x3C00, 0x4000])]))) 16 0 3 = 0x4200 := by
  decide +kernel
/-- R401: the value is on its way at once: 1/4 in FP16. -/
theorem test_rcp : ((nextOf (exec (.vRcp 3 (w 1) false) (tFour (tVec 2 16 [(1, [0x4400])])))).core.fills.map fun f =>
    match f.src with | .value v _ => getE 16 0 v | _ => 0) = [0x3400] ∧ (sfuC .exp2 2 0 0x4000).1 = 0x4400 := by decide +kernel
/-- R402: byte 3 of the row at base + 512. -/
def tVmem : State := (tInt.mapRegs fun r => r.setS 4 0xA000000000000000).mapCore fun x =>
  { x with scratch := ⟨[(3, 9), (515, 0x5A)], []⟩ }
theorem test_vld : vAfter (exec (.vLd 3 (w 4) 1 false) (tFour tVmem)) 8 3 3 = 0x5A := by decide +kernel
theorem test_vst : (match tInt.vPlan .store (.cont 0) 25 (BitVec.allOnes 1024) 0xA000000000000000 0 0 with
    | .ok p => (storeBytes p true [1, 0x5A]).map fun x => (x.1, x.2.1) | .error _ => []) =
    (List.range 8).map fun j => ((0xA000000000000000 : W) + .ofNat 64 j, ([1, 0, 0, 0, 0x5A, 0, 0, 0] : List Byte).getD j 0) := by
  decide +kernel
/-- An index of −1 stands four bytes below the base. -/
theorem test_vldx : vAfter (exec (.vLdx 3 (w 4) (w 1) false) (tFour (((tVec 25 32 [(1, List.replicate 128 0xFFFFFFFF)]).mapRegs
    fun r => r.setS 4 0xA000000000000004).mapCore fun x => { x with scratch := ⟨[(0, 8)], []⟩ }))) 32 2 3 = 8 := by
  decide +kernel
theorem test_acc : (let s := tVec 25 32 [(1, [5, 6])]
    let t := nextOf (exec (.vWra 1 (w 0) 2) s)
    getE 32 1 (t.core.acc.get 128) = 6 ∧ getE 32 1 ((nextOf (exec (.vAdda 1 (w 0) 2) t)).core.acc.get 128) = 12 ∧
    vAfter (exec (.vRda 3 (w 0) 2 false) t) 32 0 3 = 5) := by decide +kernel
theorem test_vqueue : (nextOf (exec (.vQpush 2 (w 1)) (tQueue.mapRegs fun r => r.setV 1 0xABCD))).core.scratch.num 0x418 8 = 0xABCD ∧
    vAfter (exec (.vQpop 3 2 false) tQueue) 32 0 3 = 7 := by decide +kernel
theorem test_kfirst : (let s := tInt.mapRegs fun r => r.setK 2 0b101000
    vAfter (exec (.vKfirst 3 2) s) 8 0 3 = 3 ∧ vAfter (exec (.vKpopc 3 2) s) 8 0 3 = 2) := by decide +kernel
theorem test_kset : ((nextOf (exec (.vKset 2 (w 3)) tInt)).regs.getK 2).toNat = 3 := by decide +kernel

/-- The spec's example of R408: v8 to v11 hold 1, 2, 3, 4 in each element under q.lift 1 of extent 4. -/
def tLanes (lmask : W) : State := tState fun x => { x with
  lift := { x.lift with levels := [⟨1, 4, BitVec.allOnes 64⟩], lmask := lmask }
  csr := { x.csr with fmt := 25 }
  regs := (List.range 4).foldl (fun r m => r.setV (.ofNat 6 (8 + m)) (packE 32 128 fun _ => m + 1) 1) x.regs }
theorem test_lred : vAfter (exec (.vLred 3 (w 8) 0 1 false) (tLanes 15)) 32 5 3 = 10 ∧
    vAfter (exec (.vLred 3 (w 8) 0 1 false) (tLanes 0b1011)) 32 5 3 = 7 := by decide +kernel
theorem test_lpick : vAfter (exec (.vLpick 3 (w 8) (w 5) false) ((tLanes 15).mapRegs fun r => r.setS 5 2)) 32 5 3 = 3 := by
  decide +kernel

theorem witness_VectorArithmetic : ∃ (s : State) (i : Instr) (op : VOp) (d a b c : BitVec 6) (z : Bool),
    vectorForm i = some (op, d, a, b, c, z) ∧ inClass (vopClass op) s.opFmt = true ∧ s.issue.ctx.casc = none ∧
    vReady s i [a, b, c] [] := ⟨tFma, .vFma 10 (w 4) (w 5) false, .fma, 10, 4, 5, 10, false, by decide +kernel⟩
theorem witness_VectorArithmetic_int : ∃ (s : State) (i : Instr) (op : VOp) (d a b c : BitVec 6) (z : Bool),
    vectorForm i = some (op, d, a, b, c, z) ∧ inClass (vopClass op) s.opFmt = true ∧ s.issue.ctx.casc = none ∧
    vReady s i [a, b, c] [] := ⟨tMask, .vAdd 3 (w 1) (w 2) true, .add, 3, 1, 2, 1, true, by decide +kernel⟩
theorem witness_VectorArithmetic_cascade : ∃ (s : State) (i : Instr) (op : VOp) (d a b c : BitVec 6) (z : Bool) (k : Casc),
    vectorForm i = some (op, d, a, b, c, z) ∧ inClass (vopClass op) s.opFmt = true ∧ s.issue.ctx.casc = some k ∧
    inClass (vopClass (stageOp k.opB)) s.opFmt = true ∧ inClass (vopClass (stageOp k.opC)) s.opFmt = true ∧
    vReady s i [a, b, c, k.c.reg, a] [] :=
  ⟨tCasc, .vFmul 9 (w 4) (w 5) false, .fmul, 9, 4, 5, 4, false, ⟨1, 0, w 6, w 0⟩, by decide +kernel⟩
theorem witness_IntegerElements : ∃ f a b : Nat, ((10 ≤ f ∧ f ≤ 16) ∨ f = 25) ∧ a < 2 ^ fmtBits f ∧ b < 2 ^ fmtBits f :=
  ⟨11, 0x80, 0xFF, by decide⟩
theorem witness_RepresentableValuesRound : ∃ f rm c : Nat, 1 ≤ f ∧ f ≤ 9 ∧ rm ≤ 4 ∧ c < 2 ^ fmtBits f ∧
    decodeF f c ≠ .nan := ⟨9, 4, 7, by decide +kernel⟩
theorem witness_RepresentableValuesRound_nan : ∃ f rm c : Nat, 1 ≤ f ∧ f ≤ 9 ∧ rm ≤ 4 ∧ c < 2 ^ fmtBits f ∧
    decodeF f c = .nan := ⟨5, 0, 0x7F, by decide +kernel⟩
theorem witness_FloatElements : ∃ (f rm a b d s m n : Nat) (e g : Int), 1 ≤ f ∧ f ≤ 9 ∧ rm ≤ 4 ∧ a < 2 ^ fmtBits f ∧
    b < 2 ^ fmtBits f ∧ d < 2 ^ fmtBits f ∧ s = 0 ∧ decodeF f a = .fin false m e ∧ decodeF f b = .fin false n g ∧ m ≠ 0 ∧ n ≠ 0 ∧
    scaled false m e (min e g) + scaled false n g (min e g) ≠ 0 := by
  refine ⟨2, 0, 0x3C00, 0x3C00, 0, 0, 1024, 1024, -10, -10, ?_⟩; decide +kernel
theorem witness_FloatElements_special : ∃ (f rm a b c : Nat), 1 ≤ f ∧ f ≤ 9 ∧ rm ≤ 4 ∧ a < 2 ^ fmtBits f ∧
    b < 2 ^ fmtBits f ∧ c < 2 ^ fmtBits f ∧ decodeF f a = .inf false ∧ decodeF f b = .inf true ∧ decodeF f c = .nan ∧
    ltV (decodeF f b) (decodeF f a) = true := ⟨2, 0, 0x7C00, 0xFC00, 0x7E00, by decide +kernel⟩
theorem witness_FloatElements_zero : ∃ (f a b : Nat) (g : Int), 1 ≤ f ∧ f ≤ 9 ∧ a < 2 ^ fmtBits f ∧ b < 2 ^ fmtBits f ∧
    decodeF f a = .inf false ∧ decodeF f b = .fin false 0 g := by refine ⟨2, 0x7C00, 0, -24, ?_⟩; decide +kernel
theorem witness_VectorCompares : ∃ (s : State) (i : Instr) (op : VCmp) (k : BitVec 3) (a b : BitVec 6),
    vcompareForm i = some (op, k, a, b) ∧ s.issue.ctx.mask = 0 ∧ inClass (vcmpClass op) s.opFmt = true ∧
    vReady s i [a, b] [] := ⟨tHalf, .vFcmpLt 1 (w 1) (w 2), .flt, 1, 1, 2, by decide +kernel⟩
theorem witness_VectorCompares_int : ∃ (s : State) (i : Instr) (op : VCmp) (k : BitVec 3) (a b : BitVec 6),
    vcompareForm i = some (op, k, a, b) ∧ s.issue.ctx.mask = 0 ∧ inClass (vcmpClass op) s.opFmt = true ∧
    vReady s i [a, b] [] := ⟨tInt, .vIcmpLtn 7 (w 1) (w 2), .iltn, 7, 1, 2, by decide +kernel⟩
theorem witness_VectorMoves : ∃ (s : State) (d : BitVec 6) (a b : Src) (z : Bool),
    vReady s (.vMov d a z) [a.reg] [] ∧ vReady s (.vSel d a b z) [a.reg, b.reg] [] ∧ vReady s (.vBcast d a z) [] [a.reg] ∧
    vReady s (.vIns d a b z) [d] [a.reg, b.reg] ∧ vReady s (.vExt d a b z) [a.reg] [b.reg] ∧ vReady s (.vIota d z) [] [] ∧
    vReady s (.vPerm d a b z) [a.reg, b.reg] [] ∧ vReady s (.vRot d a b z) [a.reg] [b.reg] ∧
    vReady s (.vZip d a b z) [a.reg, b.reg] [] ∧ vReady s (.vUnzip d a b z) [a.reg, b.reg] [] :=
  ⟨tMask, 3, w 1, w 2, false, by decide +kernel⟩
/-- Six-bit elements, whose spare bits v.mov copies too. -/
theorem witness_VectorMoves_spare : ∃ (s : State) (d : BitVec 6) (a : Src) (z : Bool), vReady s (.vMov d a z) [a.reg] [] ∧
    fmtBits s.opFmt = 6 := ⟨tVec 13 6 [(1, [5])], 3, w 1, false, by decide +kernel⟩
theorem witness_VectorConversion : ∃ (s : State) (d : BitVec 6) (a : Src) (g : BitVec 5) (z : Bool),
    Sys2Proof.isRegFmt g.toNat = true ∧ vReady s (.vCvt d a g z) [a.reg] [] ∧
    elemCount (fmtBits (normFmt g.toNat)) < countNow s := ⟨tInt, 3, w 1, 2, false, by decide +kernel⟩
theorem witness_WidenAndNarrow : ∃ (s : State) (d : BitVec 6) (a : Src) (q : Bool) (g : BitVec 5) (z : Bool),
    Sys2Proof.isRegFmt g.toNat = true ∧ q = true ∧ d.toNat % 4 = 0 ∧ vReady s (.vWiden d a q g z) [a.reg] [] ∧
    widenPair 4 (fmtBits (normFmt g.toNat)) (fmtBits s.opFmt) = true :=
  ⟨tVec 25 8 [(1, [5])], 60, w 1, true, 11, false, by decide +kernel⟩
theorem witness_WidenAndNarrow_narrow : ∃ (s : State) (d : BitVec 6) (a : Src) (q : Bool) (g : BitVec 5) (z : Bool),
    Sys2Proof.isRegFmt g.toNat = true ∧ q = false ∧ a.reg.toNat % 2 = 0 ∧
    vReady s (.vNarrow d a q g z) (groupRegs a.reg q) [] ∧
    widenPair 2 (fmtBits s.opFmt) (fmtBits (normFmt g.toNat)) = true :=
  ⟨tInt, 3, w 62, false, 2, false, by decide +kernel⟩
theorem witness_WidenAndNarrow_bad : ∃ (s : State) (d : BitVec 6) (a : Src) (q : Bool) (g : BitVec 5) (z : Bool),
    Sys2Proof.isRegFmt g.toNat = true ∧ s.issue.opened = true ∧ q = false ∧
    widenPair 2 (fmtBits (normFmt g.toNat)) (fmtBits s.opFmt) = false ∧ vReady s (.vWiden d a q g z) [a.reg] [] :=
  ⟨tInt, 4, w 1, false, 2, false, by decide +kernel⟩
theorem witness_VectorPacking : ∃ (s : State) (d : BitVec 6) (a : Src) (z : Bool), vReady s (.vPack6 d a z) [a.reg] [] ∧
    s.opFmt = 11 ∧ vReady s (.vUnpack6 d a z) [a.reg] [] := ⟨tInt, 3, w 1, false, by decide +kernel⟩
theorem witness_VectorPacking_q4 : ∃ (s : State) (d : BitVec 6) (a : Src) (z : Bool), s.opFmt = 4 ∧
    vReady s (.vUnpackq4 d a z) [a.reg] [] ∧ vReady s (.vPackq4 d a z) [a.reg] [] :=
  ⟨tVec 4 8 [(1, [0x3C])], 3, w 1, false, by decide +kernel⟩
theorem witness_SetFormat : ∃ (s : State) (a : Src), s.allows (.vSetfmt a) ∧ s.plain [a.reg] :=
  ⟨tRegs [(1, 0x182)], w 1, by decide +kernel⟩
theorem witness_ReductionsAndScans : ∃ (s : State) (d : BitVec 6) (a : Src) (z : Bool), isFloatFmt s.opFmt = false ∧
    Sys2Proof.isRegFmt s.opFmt = true ∧ vReady s (.vRadd d a z) [a.reg] [] ∧ vReady s (.vRmax d a z) [a.reg] [] ∧ vReady s (.vRmin d a z) [a.reg] [] ∧
    vReady s (.vScanAdd d a z) [a.reg] [] := ⟨tMask, 3, w 1, false, by decide +kernel⟩
theorem witness_ReductionsAndScans_float : ∃ (s : State) (d : BitVec 6) (a : Src) (z : Bool), isFloatFmt s.opFmt = true ∧
    vReady s (.vRfadd d a z) [a.reg] [] ∧ vReady s (.vRfmax d a z) [a.reg] [] ∧ vReady s (.vRfmin d a z) [a.reg] [] ∧
    vReady s (.vScanFadd d a z) [a.reg] [] := ⟨tHalf, 3, w 1, false, by decide +kernel⟩
theorem witness_ReductionsAndScans_none : ∃ (s : State) (d : BitVec 6) (a : Src) (z : Bool), isFloatFmt s.opFmt = true ∧
    vReady s (.vRfadd d a z) [a.reg] [] ∧
    ((List.range (countNow s)).filter fun j => s.maskNow.getLsbD j) = [] :=
  ⟨tCtx { mask := 1 } tHalf, 3, w 1, false, by decide +kernel⟩
theorem witness_SpecialFunctionsIssue : ∃ (s : State) (i : Instr) (op : Sfu) (d : BitVec 6) (a : Src) (z : Bool),
    sfuForm i = some (op, d, a, z) ∧ isFloatFmt s.opFmt = true ∧ vReady s i [a.reg] [] :=
  ⟨tHalf, .vTanh 3 (w 1) false, .tanh, 3, w 1, false, by decide +kernel⟩
theorem witness_SpecialOperands : ∃ (f rm a b c d e m : Nat) (g h : Int), 1 ≤ f ∧ f ≤ 4 ∧ rm ≤ 4 ∧ decodeF f a = .nan ∧
    decodeF f b = .fin true 0 g ∧ decodeF f c = .inf false ∧ decodeF f d = .inf true ∧ decodeF f e = .fin true (m + 1) h := by
  refine ⟨2, 0, 0x7E00, 0x8000, 0x7C00, 0xFC00, 0xBC00, 1023, -24, -10, ?_⟩; decide +kernel
theorem witness_AccumulatorPorts : ∃ (s : State) (d : BitVec 6) (a : Src) (n : BitVec 3) (z : Bool), s.opFmt = 25 ∧
    s.core.owned n = false ∧ vReady s (.vRda d a n z) [] [a.reg] ∧ s.allows (.vWra d a n) ∧ s.allows (.vAdda d a n) ∧
    s.plainOps [sOpd a.reg, vOpd d] ∧ s.single := ⟨tVec 25 32 [(1, [5])], 1, w 0, 7, false, by decide +kernel⟩
theorem witness_AccumulatorPorts_held : ∃ (s : State) (d : BitVec 6) (a : Src) (n : BitVec 3), s.opFmt = 25 ∧
    s.core.owned n = true ∧ s.allows (.vRda d a n false) ∧ s.allows (.vWra d a n) ∧ s.allows (.vAdda d a n) :=
  ⟨nextOf (exec (.mZacc 3) (tVec 25 32 [])), 1, w 0, 3, by decide +kernel⟩
theorem witness_VectorQueues : ∃ (s : State) (q : BitVec 4) (a : Src) (d : BitVec 6) (z : Bool), queueSeen s q ∧
    (s.core.queue q).cfg = true ∧ (s.core.queue q).count < (s.core.queue q).depth ∧ 0 < (s.core.queue q).count ∧
    s.core.openIds = [] ∧ s.core.lockedFor s.vunit ((s.core.queue q).slotAt (s.core.queue q).pi.toNat) = false ∧
    s.core.lockedFor s.vunit ((s.core.queue q).slotAt (s.core.queue q).ci.toNat) = false ∧
    s.core.scratch.firstPoison ((s.core.queue q).entry (s.core.queue q).ci.toNat) = none ∧
    s.allows (.vQpush q a) ∧ s.plainOps [vOpd a.reg] ∧ s.single ∧ vReady s (.vQpop d q z) [] [] ∧ fmtBits s.opFmt ≠ 6 :=
  ⟨tQueue, 2, w 1, 3, false, by decide +kernel⟩
theorem witness_MaskOperations : ∃ (s : State) (a b d : BitVec 3) (v : BitVec 6) (x : Src), s.issue.ctx.mask = 0 ∧
    s.single ∧ s.plainOps [kOpd a, kOpd b] ∧ s.allows (.vKand d a b) ∧ s.allows (.vKor d a b) ∧ s.allows (.vKxor d a b) ∧
    s.allows (.vKnot d a) ∧ vReady s (.vKpopc v a) [] [] ∧ vReady s (.vKfirst v a) [] [] ∧ isFloatFmt s.opFmt = false ∧
    vReady s (.vKset d x) [x.reg] [] := ⟨tInt, 1, 0, 7, 3, w 1, by decide +kernel⟩
/-- Two members: v8 and v9. -/
def tPair : State := tState fun x => { x with
  lift := { x.lift with levels := [⟨1, 2, BitVec.allOnes 64⟩], lmask := 3 }
  csr := { x.csr with fmt := 25 }
  regs := ((x.regs.setV 8 5 1).setV 9 6 1).setS 5 1 }
theorem witness_LiftMoves : ∃ (s : State) (d : BitVec 6) (a b : Src) (h : BitVec 3) (t : BitVec 2) (z : Bool)
    (v : LiftLevel), s.lift.levels = [v] ∧ v.tag = t ∧ t ≠ 0 ∧ v.ext = 2 ∧ bitOf s.lift.lmask.toNat 0 = true ∧
    bitOf s.lift.lmask.toNat 1 = true ∧ s.issue.ctx.mask = 0 ∧ 4 ≤ fmtBits s.opFmt ∧ fmtBits s.opFmt ≤ 32 ∧
    s.regs.tagOf (vOpd a.reg) = 1#3 <<< (t.toNat - 1) ∧ a.reg.toNat % 2 = 0 ∧ h.toNat ≤ 5 ∧
    inClass (vredClass (lredKind h.toNat)) s.opFmt = true ∧ s.allows (.vLred d a h t z) ∧
    s.plain [b.reg] ∧ (s.regs.getS b.reg).toNat < 2 ∧ s.allows (.vLpick d a b z) :=
  ⟨tPair, 3, w 8, w 5, 0, 1, false, ⟨1, 2, BitVec.allOnes 64⟩, by decide +kernel⟩
theorem witness_LiftMoves_bcast : ∃ (s : State) (d : BitVec 6) (a : Src) (t : BitVec 2) (z : Bool)
    (v : LiftLevel), s.lift.levels = [v] ∧ v.tag = t ∧ t ≠ 0 ∧ v.ext = 2 ∧ bitOf s.lift.lmask.toNat 0 = true ∧
    bitOf s.lift.lmask.toNat 1 = true ∧ s.issue.ctx.mask = 0 ∧ 4 ≤ fmtBits s.opFmt ∧ fmtBits s.opFmt ≤ 32 ∧
    s.regs.tagOf (vOpd a.reg) = 0 ∧ d.toNat % 2 = 0 ∧ s.allows (.vLbcast d a t z) :=
  ⟨tPair, 20, w 1, 1, false, ⟨1, 2, BitVec.allOnes 64⟩, by decide +kernel⟩
theorem witness_VectorMemory : ∃ (s : State) (i : Instr) (d : BitVec 6) (a : Src) (form : VForm) (b : Option Opd) (z st : Bool),
    vectorMemory i = some (d, a, form, b, z, st) ∧ s.allows i ∧
    s.plainOps ([sOpd a.reg, vOpd d] ++ b.toList ++ s.maskOpd) ∧
    s.single ∧ s.core.memReady = true ∧ s.csr.nrep.toNat ≤ 1 ∧ s.issue.ctx.lock = none ∧ s.maskNow.getLsbD 9 = false ∧
    s.core.behindFence = [] ∧ s.core.openIds = [] ∧ Sys2Proof.isRegFmt s.opFmt = true ∧ fmtBits s.opFmt = 8 ∧
    ∀ j < countNow s, scratchFree s s.vunit (vectorAddr s a form b 1 j) 1 :=
  ⟨tFour tVmem, .vLd 3 (w 4) 1 false, 3, w 4, .cont 1, none, false, false, by decide +kernel⟩
theorem witness_VectorImages : ∃ (s : State) (d : BitVec 6) (a : Src) (o : BitVec 7) (z : Bool),
    s.plainOps [sOpd a.reg, vOpd d] ∧ s.single ∧ s.core.memReady = true ∧ s.csr.nrep.toNat ≤ 1 ∧
    s.issue.ctx.lock = none ∧ s.issue.ctx.mask = 0 ∧ s.core.behindFence = [] ∧ s.core.openIds = [] ∧
    Sys2Proof.isRegFmt s.opFmt = true ∧ fmtBits s.opFmt = 6 ∧ (vectorAddr s a (.cont o) none 1 0).toNat % 16 = 0 ∧
    (∀ k < 512, scratchFree s s.vunit (vectorAddr s a (.cont o) none 1 k) 1) ∧ s.allows (.vLd d a o z) ∧ s.allows (.vSt d a o) :=
  ⟨(tVec 13 6 []).mapRegs fun r => r.setS 4 0xA000000000000000, 3, w 4, 1, false, by decide +kernel⟩
theorem witness_VectorMemory_strided : ∃ (s : State) (i : Instr) (d : BitVec 6) (a : Src) (form : VForm) (b : Option Opd) (z st : Bool),
    vectorMemory i = some (d, a, form, b, z, st) ∧ s.allows i ∧
    s.plainOps ([sOpd a.reg, vOpd d] ++ b.toList ++ s.maskOpd) ∧
    s.single ∧ s.core.memReady = true ∧ s.csr.nrep.toNat ≤ 1 ∧ s.issue.ctx.lock = none ∧
    s.core.behindFence = [] ∧ s.core.openIds = [] ∧ Sys2Proof.isRegFmt s.opFmt = true ∧ fmtBits s.opFmt = 8 ∧ st = true ∧
    ∀ j < countNow s, scratchFree s s.vunit (vectorAddr s a form b 1 j) 1 :=
  ⟨tVmem.mapRegs fun r => r.setS 5 64, .vSts 1 (w 4) (w 5), 1, w 4, .strided, some (sOpd 5), false, true, by decide +kernel⟩

/-! ### The matrix engine's commands -/

/-- Core 0 runs, outside a group; it may have its engines' state given. -/
def tRun (f : Core → Core) : State := State.reset.mapCore fun x => f { x with seq := { x.seq with mode := .running } }
/-- A command of tm. -/
def tCmd (op : MOp) : MCmd := ⟨op, 1, 0, .replicate 8 0, .ofFn fun n => some n, [], 0, (0, 0)⟩
/-- Routine 40 in bank 3. -/
def tCall : CallFields := ⟨40, 3, false, 0, 0, false⟩
/-- A routine 40 of the words given is in the store at word 0. -/
def tStore (l : List (BitVec 32)) (x : Core) : Core := { x with matrix := { x.matrix with
  store := l.zipIdx.map fun p => (p.2, p.1), routines := [(40, 0, l.length)] } }
/-- The running command. -/
def tTm (f : MRun → MRun) (op : MOp) : Core → Core := fun x =>
  { x with matrix := { x.matrix with run := some (f (MRun.start (tCmd op) 0)) } }
/-- Core 0 issues a group with a routine in its store. -/
def tIssue : State := tState fun x => tStore [0x60000000] (x.onRegs fun r => (r.setS 4 0x55).setPm 2 9 0)

theorem test_setp : ((nextOf (exec (.mSetp 2 4) tIssue)).core.regs.pmAt 2) = 0x55 := by decide +kernel
theorem test_getp : (nextOf (exec (.mGetp 2 4) tIssue)).core.fills.map (fun f => (f.reg, f.due)) = [(4, 2)] ∧
    (nextOf (exec (.mGetp 2 4) tIssue)).core.regs.statusS 4 = .empty := by decide +kernel
theorem test_call : (nextOf (exec (.mCall tCall) tIssue)).core.matrix.queue.map (fun m => (m.num, m.pm.get 2)) = [(1, 9)] ∧
    (nextOf (exec (.mCall ⟨41, 3, false, 0, 0, false⟩) tIssue)).issue.fails.map (·.trap.code) = [2] := by decide +kernel
theorem test_gang : (nextOf (exec (.mGang tCall) tIssue)).issue.fails.map (·.trap.code) = [2] := by decide +kernel
theorem test_zacc : (nextOf (exec (.mZacc 3) tIssue)).core.matrix.queue.map (·.op) = [.zacc 3] ∧
    (nextOf (exec (.mZacc 3) (nextOf (exec (.mZacc 3) tIssue)))).issue.held = true := by decide +kernel
theorem test_uld : (nextOf (exec (.mUld 3 4 0) tIssue)).issue.fails.map (·.trap.code) = [2] ∧
    (nextOf (exec (.mUld 3 0 2) tIssue)).core.matrix.queue.map (·.op) = [.uld 3 0 2 0 false] := by decide +kernel
/-- m.zacc takes 16 cycles. -/
def tZacc (t : W) : State := { tRun (fun x => tTm id (.zacc 3) { x with acc := x.acc.set 192 7 }) with cyc := t }
theorem test_zacc_complete : (nextOf (exec .zaccComplete (tZacc 16))).core.acc.get 192 = 0 ∧
    (nextOf (exec .zaccComplete (tZacc 15))).core.acc.get 192 = 7 := by decide +kernel
/-- A call ends: pm takes the working value back and tm moves. -/
def tEnded : State := tRun (tTm (fun r => { r with ended := true, wp := r.wp.set 2 7 }) (.call tCall false))
theorem test_call_complete : (nextOf (exec .matrixCallComplete tEnded)).core.regs.pmAt 2 = 7 ∧
    (nextOf (exec .matrixCallComplete tEnded)).core.matrix.run = none := by decide +kernel
theorem test_call_start : ((nextOf (exec .matrixCallStart (tRun fun x => tStore [0x60000000]
    { x with matrix := { x.matrix with queue := [tCmd (.call tCall false)] } }))).core.matrix.run.map (·.cmd.op)) =
    some (.call tCall false) := by decide +kernel

theorem witness_ParameterWrites : ∃ (s : State) (p : BitVec 3) (a : BitVec 6), s.allows (.mSetp p a) ∧ s.plain [a] ∧
    s.single ∧ s.csr.nrep.toNat ≤ 1 := ⟨tIssue, 7, 4, by decide +kernel⟩
theorem witness_ParameterReads : ∃ (s : State) (p : BitVec 3) (d : BitVec 6), s.allows (.mGetp p d) ∧
    s.regs.pmTagAt p.toNat = 0 ∧ s.single ∧ s.core.lastCall = 0 := ⟨tIssue, 2, 5, by decide +kernel⟩
theorem witness_ParameterReads_write : ∃ (s : State) (f : PendFill) (p : BitVec 3) (n : Nat) (v : W) (r : List PendFill),
    (s.coreAt s.inp.core).fills = f :: r ∧ f.src = .getp p n (some v) ∧ f.due.toNat ≤ s.cyc.toNat ∧
    (s.coreAt s.inp.core).seq.freeze = 0 :=
  ⟨{ tRun fun x => { x with fills := [⟨.s, 4, .getp 2 0 (some 9), 2⟩] } with cyc := 2 }, ⟨.s, 4, .getp 2 0 (some 9), 2⟩, 2, 0, 9,
    [], by decide +kernel⟩
theorem witness_CallsEnterTheQueue : ∃ (s : State) (c : CallFields), s.allows (.mCall c) ∧ s.core.hasRoutine c.routine ∧
    (c.gv = true → (s.queueBefore c.gq).cfg = true) ∧ s.core.tmHeld c.bank = false ∧
    (∀ n < 8, s.regs.pmTagAt n = 0) ∧ s.single ∧ s.csr.nrep.toNat ≤ 1 := ⟨tIssue, tCall, by decide +kernel⟩
theorem witness_CallsEnterTheQueue_held : ∃ (s : State) (c : CallFields), s.allows (.mCall c) ∧ s.core.hasRoutine c.routine ∧
    c.gv = false ∧ s.core.tmHeld c.bank = true := ⟨nextOf (exec (.mZacc 3) tIssue), tCall, by decide +kernel⟩
theorem witness_CallsEnterTheQueue_bad : ∃ (s : State) (c : CallFields), s.allows (.mGang c) ∧
    ¬ (s.matrixGang s.cur).isSome = true ∧ s.issue.opened = true := ⟨tIssue, tCall, by decide +kernel⟩
/-- Cores 0 and 1 are the seats of a matrix gang of one row and two columns. -/
def tGang : State :=
  let s := tNode 2 (tStore [0x60000000])
  (s.onSched fun h => { h with graphs := [⟨1, 0, ⟨[{ tDesc with demand := 0x86 }], [], [], [], [], none⟩, []⟩] })
theorem witness_CallsEnterTheQueue_gang : ∃ (s : State) (c : CallFields), s.allows (.mGang c) ∧ s.core.hasRoutine c.routine ∧
    c.gv = false ∧ (s.matrixGang s.cur).isSome = true ∧ s.core.tmHeld c.bank = false ∧ s.gangAgrees s.cur = true ∧
    ∃ g ∈ s.gangSeats s.cur, g ≠ s.cur ∧ (s.coreAt g).gangCalls.length ≤ s.core.gangCalls.length :=
  ⟨tGang, tCall, by decide +kernel⟩
theorem witness_AccumulatorCommands : ∃ (s : State) (b : BitVec 3) (a : BitVec 6) (f : BitVec 5), s.allows (.mZacc b) ∧
    s.core.tmHeld b = false ∧ s.allows (.mUld b a f) ∧ s.plain [a] ∧ f ≠ 0 ∧ Sys2Proof.isRegFmt f.toNat = true ∧
    (s.regs.getS a).toNat < 2 ^ 22 ∧ (s.regs.getS a).toNat % accAlign f.toNat = 0 ∧
    (s.regs.getS a).toNat + 64 * accRowBytes f.toNat 128 = 0x300000 :=
  ⟨tRegs [(4, 0x2FC000)], 7, 4, 2, by decide +kernel⟩
theorem witness_AccumulatorCommands_past : ∃ (s : State) (b : BitVec 3) (a : BitVec 6) (f : BitVec 5), s.allows (.mUld b a f) ∧
    s.plain [a] ∧ f = 0 ∧ (s.regs.getS a).toNat < 2 ^ 22 ∧ (s.regs.getS a).toNat % accAlign f.toNat = 0 ∧
    0x300000 < (s.regs.getS a).toNat + 64 * accRowBytes f.toNat 128 ∧ s.issue.opened = true ∧ s.csr.nrep.toNat ≤ 1 :=
  ⟨tRegs [(4, 0x2F8004)], 7, 4, 0, by decide +kernel⟩
theorem witness_AccumulatorCommands_held : ∃ (s : State) (b : BitVec 3), s.allows (.mZacc b) ∧ s.core.tmHeld b = true :=
  ⟨nextOf (exec (.mZacc 3) tIssue), 3, by decide +kernel⟩
/-- A gated call of a routine that pushes to q2; two entries wait in q3. -/
def tGated : CallFields := { tCall with z := true, gv := true, gq := 3, gcnt := 2 }
theorem witness_CallsStart : ∃ (s : State) (m : MCmd) (k : CallFields) (q : BitVec 4), let x := s.coreAt s.inp.core
    x.matrix.run = none ∧ x.matrix.queue = [m] ∧ m.op = .call k false ∧ k.z = true ∧ k.gv = true ∧
    s.engineLive s.inp.core = true ∧ s.throttledAt s.inp.core = false ∧ (∀ n ∈ m.after, n ∉ x.openIds) ∧
    x.sbarHolds m.seen none = false ∧ k.gcnt.toNat ≤ (x.queue k.gq).count ∧ x.firstPush k.routine = some q ∧
    (x.queue q).cfg = true ∧ (x.queue q).full = false :=
  ⟨tRun fun x => tStore [0xA2C00000] { (x.setQueue 2 ⟨true, 0x400, 2, false, 0, 0⟩).setQueue 3 ⟨true, 0x800, 2, false, 5, 3⟩ with
      matrix := { x.matrix with queue := [tCmd (.call tGated false)] } },
    tCmd (.call tGated false), tGated, (2 : BitVec 4), by decide +kernel⟩
theorem witness_CallsComplete : ∃ (s : State) (r : MRun) (k : CallFields) (v : FVal), let x := s.coreAt s.inp.core
    x.matrix.run = some r ∧ r.cmd.op = .call k false ∧ s.engineLive s.inp.core = true ∧ r.ended = true ∧
    r.bankAt.toNat ≤ s.cyc.toNat ∧ r.wbOut = [] ∧ (∀ e ∈ r.acc, e.1 < 8192) ∧ r.stop = none ∧
    (r.allPipes.all fun p => p.stop.isNone) = true ∧ r.acc.find? (fun e => e.1 == 5 * 128 + 3) = some (5 * 128 + 3, v) ∧
    r.cmd.src.get 7 = some 7 ∧ ∀ m : Fin 8, m ≠ 7 → r.cmd.src.get m ≠ some 7 :=
  ⟨tRun (tTm (fun r => { r with ended := true, acc := [(643, .nan)] }) (.call tCall false)),
    { MRun.start (tCmd (.call tCall false)) 0 with ended := true, acc := [(643, .nan)] }, tCall, .nan, by decide +kernel⟩
theorem witness_CallsStart_zacc : ∃ (s : State) (r : MRun) (b : BitVec 3),
    (s.coreAt s.inp.core).matrix.run = some r ∧ r.cmd.op = .zacc b ∧ s.engineLive s.inp.core = true ∧
    r.since.toNat + 16 ≤ s.cyc.toNat := ⟨tZacc 16, MRun.start (tCmd (.zacc 3)) 0, 3, by decide +kernel⟩
def tUld : State := { tRun (tTm id (.uld 3 0x2F8000 0 0 false)) with cyc := 137 }
theorem witness_BankUnload : ∃ (s : State) (r : MRun) (b : BitVec 3) (off f rm : Nat) (sat : Bool),
    (s.coreAt s.inp.core).matrix.run = some r ∧ r.cmd.op = .uld b off f rm sat ∧ s.engineLive s.inp.core = true ∧
    r.since.toNat + (64 * accRowBytes f 128 + 255) / 256 + 8 ≤ s.cyc.toNat ∧ off + 64 * accRowBytes f 128 ≤ 0x300000 ∧
    (f = 0 ∨ Sys2Proof.isRegFmt f = true) ∧ ∀ i < 64, (s.coreAt s.inp.core).lockedFor 5 (off + i * accRowBytes f 128) = false :=
  ⟨{ tUld with cyc := 136 }, MRun.start (tCmd (.uld 3 0x2F8000 0 0 false)) 0, 3, 0x2F8000, 0, 0, false, by decide +kernel⟩

/-! ### Copy commands -/

theorem word_copy : decodeTableWord 32 0xC008394C = some (.cCopy ⟨2, 3, true, 2, true, false, 3⟩) ∧
    decodeTableWord 32 0xC8400070 = some (.cSbar 0 false 0 true true true) := by decide +kernel

/-- c.copy s8, with promise s3: one row of 64 bytes of scratch, from 0 to 0x40; q2 is configured. -/
def tCopyF : CFields := ⟨2, 3, true, 2, false, false, 3⟩
def tCopyS : State := tState fun x => (x.onRegs fun r => [(8, 0xA000000000000000), (9, 0xA000000000000040), (10, 64),
  (11, 0x0001000000000000)].foldl (fun r (p : BitVec 6 × W) => r.setS p.1 p.2) r).setQueue 2 ⟨true, 0x400, 2, false, 0, 0⟩
/-- R325: the promise holds the context, the number and DUE. -/
theorem test_copy : ((nextOf (exec (.cCopy tCopyF) tCopyS)).core.copy.get 0).queue.map (fun m => (m.num, m.len, m.rows)) =
    [(1, 64, 1)] ∧ (nextOf (exec (.cCopy tCopyF) tCopyS)).core.regs.statusS 3 = .empty ∧
    ((nextOf (exec (.cCopy tCopyF) tCopyS)).core.tlAt 0).issued = 1 := by decide +kernel
theorem test_sbar : ((nextOf (exec (.cSbar 0 false 0 true false false) tCopyS)).core.copy.get 0).queue.map (·.op) =
    [.cSbar 0 false 0 true false false] ∧
    (nextOf (exec (.cSbar 0 true 3 true false false) tCopyS)).issue.fails.map (·.trap.code) = [2] := by decide +kernel
/-- R327: rows of c.copy with strides −64 and 64; R328: a list entry of c.gath. -/
theorem test_rows : (let m : CopyCmd := ⟨.cCopy tCopyF, 1, [1000, 2000, 64, 0x0003FFFFC0000040], false, false, 3, none, 0, [],
      (0, 0), false, none, false⟩
    rowAddr m .copy (fun _ _ => 0) 0 2 = (872, 2128) ∧ rowAddr m .gath (fun _ _ => 3) 512 2 = (2536, 2128)) := by decide +kernel
/-- A running command that has sent everything. -/
def tCopyCmd (i : Instr) : CopyCmd := ⟨i, 1, [0, 0, 0, 0], false, false, 3, some 2, 0, [], (0, 0), false, none, false⟩
def tCopyRun (i : Instr) (p : CopyPhase) : CopyRun :=
  ⟨tCopyCmd i, p, 0, 0, 0, noRead, [], none, none, none, none, 0, 0, 0, [], 0, none, 0⟩
def tEngine (r : CopyRun) : State := tRun fun x =>
  ({ x with copy := x.copy.set 0 ⟨[], some r⟩ }.setQueue 2 ⟨true, 0x400, 2, false, 0, 0⟩).onTl 0 fun t => { t with issued := 1 }
theorem test_copy_complete : (let t := nextOf (exec .copyCommandComplete (tEngine (tCopyRun (.cCopy tCopyF) .finish)))
    (t.core.tlAt 0).val = 1 ∧ (t.core.queue 2).count = 1 ∧ t.core.scratch.num 0x400 8 = 1 ∧
    (t.core.copy.get 0).run = none) := by decide +kernel
theorem test_request : ((nextOf (exec .copyRequestIssue (tEngine (tCopyRun (.cKvinv tCopyF) .reqs)))).ms.manager) = [(0, 0)] := by
  decide +kernel
theorem test_relay_timeout : (let s := tEngine (tCopyRun (.cRelay tCopyF) .relayRecv)
    ((nextOf (exec .relayStallTimeout { s with cyc := 150000 })).core.copy.get 0).run.map (·.err) = some (some 0x0A) ∧
    ((nextOf (exec .relayStallTimeout { s with cyc := 149999 })).core.copy.get 0).run.map (·.err) = some none) := by
  decide +kernel

theorem witness_CopyCommandsEnter : ∃ (s : State) (i : Instr) (prom : BitVec 6) (cq : Option (BitVec 4))
    (quad : List (BitVec 6)) (x : Ctx), copyForm i prom cq quad ∧ notRecasting s i quad ∧ s.allows i ∧ s.plain quad ∧
    s.csr.nrep.toNat ≤ 1 ∧ s.ctxOfSlot s.issue.ctx.slot = some x ∧ (cq = some 2 ∧ (s.queueBefore 2).cfg = true) ∧
    (s.core.copy.get x).queue.length < 8 := by
  refine ⟨tCopyS, .cCopy tCopyF, 3, some 2, [8, 9, 10, 11], 0, .inl ⟨tCopyF, ?_⟩, ?_, ?_⟩
  · decide +kernel
  · intro m h1 h2
    have h : ∀ m : CopyCmd, tCopyS.recasting tCopyS.cur tCopyS.csr.part.toFin m = tCopyS.recasting tCopyS.cur
      tCopyS.csr.part.toFin ⟨m.op, 0, m.quad, false, false, 0, none, 0, [], (0, 0), false, none, false⟩ := fun _ => rfl
    rw [h, h1, h2]; decide +kernel
  · decide +kernel
theorem witness_CopyCommandsEnter_sbar : ∃ (s : State) (i : Instr) (prom : BitVec 6) (cq : Option (BitVec 4))
    (quad : List (BitVec 6)) (x : Ctx), copyForm i prom cq quad ∧ notRecasting s i quad ∧ s.allows i ∧ s.plain quad ∧
    s.csr.nrep.toNat ≤ 1 ∧ s.ctxOfSlot s.issue.ctx.slot = some x ∧ cq = none ∧ prom = 0 ∧
    (s.core.copy.get x).queue.length < 8 := by
  refine ⟨tCopyS, .cSbar 0 false 0 true false false, 0, none, [], 0, .inr (.inr ⟨false, 0, true, false, false, ?_⟩), ?_, ?_⟩
  · decide
  · intro m h1 h2
    simp [State.recasting, h1, xopOf]
  · decide +kernel
theorem witness_CopyCommandsEnter_recast : ∃ (prom : BitVec 6) (cq : Option (BitVec 4)) (quad : List (BitVec 6)),
    copyForm (.cRecast 2 3 true 2 3) prom cq quad :=
  ⟨3, some 2, [8, 9, 10, 11], .inr (.inl ⟨2, true, 2, 3, by decide⟩)⟩
theorem witness_CopyCommandsHeld : ∃ (s : State) (i : Instr) (prom : BitVec 6) (cq : Option (BitVec 4))
    (quad : List (BitVec 6)) (x : Ctx), copyForm i prom cq quad ∧ s.allows i ∧ s.plain quad ∧
    s.ctxOfSlot s.issue.ctx.slot = some x ∧ cq = none ∧ 8 ≤ (s.core.copy.get x).queue.length :=
  ⟨tCopyS.mapCore fun x => { x with copy := x.copy.set 0 ⟨.replicate 8 (tCopyCmd (.cCopy tCopyF)), none⟩ },
    .cPut { tCopyF with cqv := false }, 3, none, [8, 9, 10, 11], 0, .inl ⟨{ tCopyF with cqv := false }, by decide +kernel⟩,
    by decide +kernel⟩
theorem witness_CopyCommandsHeld_bad : ∃ (s : State) (i : Instr) (prom : BitVec 6) (cq : Option (BitVec 4))
    (quad : List (BitVec 6)) (x : Ctx), copyForm i prom cq quad ∧ s.allows i ∧ s.plain quad ∧
    s.ctxOfSlot s.issue.ctx.slot = some x ∧ cq = some 3 ∧ (s.queueBefore 3).cfg = false ∧ s.issue.opened = true :=
  ⟨tCopyS, .cKvapp { tCopyF with cq := 3 }, 3, some 3, [8, 9, 10, 11], 0, .inl ⟨{ tCopyF with cq := 3 }, by decide +kernel⟩,
    by decide +kernel⟩
theorem witness_RowAddresses : ∃ (a b c d : W) (m : CopyCmd), m.quad = [a, b, c, d] :=
  ⟨0, 0, 0, 0, tCopyCmd (.cCopy tCopyF), rfl⟩
theorem witness_RowConversions : ∃ (m : CopyCmd) (a b : Side), a.fmt ≠ 0 ∧ b.fmt ≠ 0 ∧ a.fmt ≠ b.fmt ∧ m.cvt = 0 ∧
    a.fmt ≠ 26 ∧ b.fmt ≠ 26 ∧ convOk a.fmt b.fmt = true :=
  ⟨tCopyCmd (.cCopy tCopyF), { fmt := 1 }, { fmt := 2 }, by decide⟩
theorem witness_CopyCompletion : ∃ (s : State) (r : CopyRun), s.engineFree s.inp.core s.inp.ctx = some r ∧ r.phase = .finish ∧
    r.out = [] ∧ r.rd.left = [] ∧ r.cmd.led = false ∧ r.result = [] ∧ (s.coreAt s.inp.core).bankq = [] ∧
    (r.cmd.cq = some 2 ∧ ((s.coreAt s.inp.core).queue 2).full = false) ∧ r.cmd.op = .cCopy tCopyF :=
  ⟨tEngine (tCopyRun (.cCopy tCopyF) .finish), tCopyRun (.cCopy tCopyF) .finish, by decide +kernel⟩
theorem witness_CopyCompletion_waits : ∃ (s : State) (r : CopyRun), s.engineFree s.inp.core s.inp.ctx = some r ∧ r.phase = .finish ∧
    r.cmd.cq = some 2 ∧ ((s.coreAt s.inp.core).queue 2).full = true :=
  ⟨(tEngine (tCopyRun (.cCopy tCopyF) .finish)).mapCore fun x => x.setQueue 2 ⟨true, 0x400, 0, false, 1, 0⟩,
    tCopyRun (.cCopy tCopyF) .finish, by decide +kernel⟩
theorem witness_CopyTimeouts : ∃ (s : State) (r : CopyRun), ((s.coreAt s.inp.core).copy.get s.inp.ctx).run = some r ∧ r.err = none ∧
    s.engineFree s.inp.core s.inp.ctx = some r ∧ r.phase = .streamWait ∧ r.since.toNat + 150000 = s.cyc.toNat :=
  ⟨{ tEngine (tCopyRun (.cCopy tCopyF) .streamWait) with cyc := 150000 }, tCopyRun (.cCopy tCopyF) .streamWait,
    by decide +kernel⟩
theorem witness_CopyTimeouts_before : ∃ (s : State) (r : CopyRun), ((s.coreAt s.inp.core).copy.get s.inp.ctx).run = some r ∧
    r.err = none ∧ s.engineFree s.inp.core s.inp.ctx = some r ∧ r.phase = .streamWait ∧
    s.cyc.toNat + 1 = r.since.toNat + 150000 :=
  ⟨{ tEngine (tCopyRun (.cCopy tCopyF) .streamWait) with cyc := 149999 }, tCopyRun (.cCopy tCopyF) .streamWait,
    by decide +kernel⟩
/-- A read of 64 bytes of a stream extent waits; as much of it is written. -/
def tStreamWait : CopyRun := { tCopyRun (.cCopy tCopyF) .streamWait with cmd := { tCopyCmd (.cCopy tCopyF) with
  quad := [0x4000000000010000, 0xA000000000000140, 64, 0x0001000000000000] } }
def tStreamed (done : Nat) : State := (tEngine tStreamWait).onPart 0 fun p => { p with
  ranges := [(3, ⟨0x10000, 0x20000, 0, 0xA000000000000000⟩)]
  streams := [⟨3, 0x20000, done, 0x10000, none, [], false, false, none⟩] }
theorem test_stream_read : (((nextOf (exec .streamReadDeliver (tStreamed 0x10040))).core.copy.get 0).run.map (·.phase)) = some .reqs ∧
    (((nextOf (exec .streamReadDeliver (tStreamed 0x1003F))).core.copy.get 0).run.map (·.phase)) = some .streamWait := by
  decide +kernel
theorem witness_CopyTimeouts_stream : ∃ (s : State) (r : CopyRun) (f : CFields) (src dst : Side) (pl : Plan) (i : Nat),
    s.engineFree s.inp.core s.inp.ctx = some r ∧ r.err = none ∧ r.phase = .streamWait ∧ r.cmd.op = .cCopy f ∧
    s.rowSides s.inp.core (s.coreAt s.inp.core).csr.part.toFin r.cmd .copy r.row = some (src, dst) ∧
    rowPlan r.cmd .copy src dst = .ok (pl, 0) ∧ src.role = 2 ∧ src.idx = some i ∧
    streamNeed pl (s.rowOf s.inp.core (s.coreAt s.inp.core).csr.part.toFin r.cmd .copy r.row).1
      (s.rowOf s.inp.core (s.coreAt s.inp.core).csr.part.toFin r.cmd .copy r.row).2 r.pos =
      (s.streamOf (s.coreAt s.inp.core).csr.part.toFin i).wdone :=
  ⟨tStreamed 0x10040, tStreamWait, tCopyF, { role := 2, idx := some 3 }, { place := 35184372089152 }, .bytes 64, 3,
    by decide +kernel, rfl, rfl, rfl, by decide +kernel, rfl, rfl, rfl, by decide +kernel⟩
theorem witness_CopyTimeouts_relay : ∃ (s : State) (r : CopyRun), ((s.coreAt s.inp.core).copy.get s.inp.ctx).run = some r ∧
    r.err = none ∧ r.phase = .relayOpen true ∧ r.since.toNat + 1500 = s.cyc.toNat :=
  ⟨{ tEngine (tCopyRun (.cRelay tCopyF) (.relayOpen true)) with cyc := 1500 }, tCopyRun (.cRelay tCopyF) (.relayOpen true),
    by decide +kernel⟩
theorem witness_CopyTimeouts_receive : ∃ (s : State) (r : CopyRun), ((s.coreAt s.inp.core).copy.get s.inp.ctx).run = some r ∧
    r.err = none ∧ r.phase = .relayRecv ∧ r.since.toNat + 150000 = s.cyc.toNat :=
  ⟨{ tEngine (tCopyRun (.cRelay tCopyF) .relayRecv) with cyc := 150000 }, tCopyRun (.cRelay tCopyF) .relayRecv,
    by decide +kernel⟩
theorem witness_CopyRequests : ∃ (s : State) (r : CopyRun), s.engineFree s.inp.core s.inp.ctx = some r ∧ r.phase = .reqs ∧
    r.err.isSome = true := ⟨tEngine { tCopyRun (.cCopy tCopyF) .reqs with err := some 2 },
    { tCopyRun (.cCopy tCopyF) .reqs with err := some 2 }, by decide +kernel⟩
theorem witness_CopyRequests_pool : ∃ (s : State) (r : CopyRun) (f : CFields), s.engineFree s.inp.core s.inp.ctx = some r ∧
    r.phase = .reqs ∧ r.err = none ∧ r.cmd.led = false ∧ r.cmd.op = .cKvinv f :=
  ⟨tEngine (tCopyRun (.cKvinv tCopyF) .reqs), tCopyRun (.cKvinv tCopyF) .reqs, tCopyF, by decide +kernel⟩
theorem witness_CopyRequests_waits : ∃ (s : State) (r : CopyRun), ((s.coreAt s.inp.core).copy.get s.inp.ctx).run = some r ∧
    (s.coreAt s.inp.core).seq.freeze ≠ 0 := ⟨(tEngine (tCopyRun (.cCopy tCopyF) .reqs)).mapCore fun x =>
    { x with seq := { x.seq with freeze := 8 } }, tCopyRun (.cCopy tCopyF) .reqs, by decide +kernel⟩
/-- The first of two rows of 64 bytes that stand side by side at 0x100 and at 0x140 of scratch. -/
def tScratchCopy : CopyRun := { tCopyRun (.cCopy tCopyF) .reqs with cmd := { tCopyCmd (.cCopy tCopyF) with
  quad := [0xA000000000000100, 0xA000000000000140, 64, 0x0002000040000040] } }
theorem test_copy_row : (let t := nextOf (exec .copyRequestIssue ((tEngine tScratchCopy).mapCore fun x => { x with
      scratch := ⟨[(0x100, 5), (0x13F, 6)], []⟩ }))
    t.core.scratch.cells = [(0x100, 5), (0x13F, 6), (0x140, 5), (0x17F, 6)] ∧
    (t.core.copy.get 0).run.map (fun r => (r.row, r.bytes, r.phase)) = some (1, 64, .reqs)) := by decide +kernel
theorem witness_CopyRequests_copy : ∃ (s : State) (r : CopyRun) (f : CFields), s.engineFree s.inp.core s.inp.ctx = some r ∧
    r.phase = .reqs ∧ r.err = none ∧ r.cmd.led = false ∧ r.cmd.op = .cCopy f ∧ r.cmd.cvt = 0 ∧ r.cmd.rv = false ∧ r.out = [] ∧
    r.rd = noRead ∧ r.pos = 0 ∧ r.row < r.cmd.rows ∧ (s.coreAt s.inp.core).bankq = [] ∧ (s.coreAt s.inp.core).locks = [] ∧
    (s.coreAt s.inp.core).scratch.poison = [] ∧ r.cmd.len = 64 ∧ ownRow (r.cmd.q 0 + .ofNat 64 r.row * r.cmd.sstr) 64 ∧
    ownRow (r.cmd.q 1 + .ofNat 64 r.row * r.cmd.dstr) 64 := ⟨tEngine tScratchCopy, tScratchCopy, tCopyF, by decide +kernel⟩

/-! ### Micro-operations -/

/-- Core 0 runs a call of routine 40, whose words are given, with parameters; q2 holds one entry of four. -/
def tMicro (ws : List (BitVec 32)) (ps : List (Nat × W)) (f : MRun → MRun) : State := tRun fun x =>
  (tStore ws (tTm (fun r => f { r with wp := ps.foldl (fun v p => v.setIfInBounds p.1 p.2) r.wp }) (.call tCall false) x)).setQueue 2
    ⟨true, 0x400, 2, false, 0xFFFF, 0xFFFE⟩
/-- The call after a micro-operation. -/
def callAfter (i : Instr) (s : State) : Option MRun := (nextOf (exec i s)).core.matrix.run

/-- u.loop pm1 to word 2, u.step pm0 by pm2, u.endl. -/
def tLoop (n : W) (f : MRun → MRun) : State := tMicro [0x61002000, 0x50200000, 0x70000000] [(1, n), (2, 5)] f
theorem test_loop : (callAfter (.uLoop 1 2) (tLoop 3 id)).map (fun r => (r.upc, r.loops)) = some (1, [(3, 0)]) ∧
    (callAfter (.uLoop 1 2) (tLoop 0 id)).map (fun r => (r.upc, r.loops)) = some (3, []) := by decide +kernel
theorem test_endl : (callAfter .uEndl (tLoop 3 fun r => { r with upc := 2, loops := [(2, 0)] })).map (fun r => (r.upc, r.loops)) =
    some (1, [(1, 0)]) ∧ (callAfter .uEndl (tLoop 3 fun r => { r with upc := 2, loops := [(1, 0)] })).map
      (fun r => (r.upc, r.loops)) = some (3, []) := by decide +kernel
theorem test_step : (callAfter (.uStep 0 2) (tLoop 3 id)).map (·.wp.get 0) = some 5 ∧
    (callAfter .uEnd (tLoop 3 id)).map (·.ended) = some true := by decide +kernel
theorem test_gate : (callAfter (.uGate 2 1) (tLoop 3 id)).map (·.upc) = some 1 ∧
    (callAfter (.uGate 2 2) (tLoop 3 id)).map (·.upc) = some 0 ∧
    (callAfter (.uGate 3 1) (tLoop 3 id)).map (fun r => r.stop.map (·.code)) = some (some 2) := by decide +kernel
theorem test_pop : ((nextOf (exec (.uPop 2 1) (tLoop 3 id))).core.queue 2).count = 0 ∧
    ((nextOf (exec (.uPush 2 2) (tLoop 3 id))).core.queue 2).count = 2 ∧
    (nextOf (exec (.uPush 2 2) (tLoop 3 id))).core.scratch.num 0x418 8 = 5 := by decide +kernel
theorem test_lda : (callAfter (.uLda ⟨0, 1, 7, 0⟩) (tMicro [] [(0, 0xA000000000000000), (1, 0x0030000000000040)] id)).map
    (fun r => ((r.pipes.get 0).map fun q => (q.spec.rows, q.spec.stride))) = some [(3, 0x40)] := by decide +kernel
theorem test_ldb : (callAfter (.uLdb ⟨0, 1, 7, 0⟩) (tMicro [] [(1, 0x0000100000000040)] id)).map
    (fun r => r.stop.map (·.code)) = some (some 2) := by decide +kernel
theorem test_ldk : (callAfter (.uLdk ⟨0, 1, 7, 2⟩) (tMicro [] [(0, 0x8000000000000000), (1, 0)] id)).map
    (fun r => (r.pipes.get 2).map (·.spec.rows)) = some [8] ∧
    (callAfter (.uLdv ⟨0, 1, 0, 2⟩) (tMicro [] [(0, 0x8000000000000000), (1, 65)] id)).map
    (fun r => r.stop.map (·.code)) = some (some 2) := by decide +kernel
theorem test_scale : (callAfter (.uScale 0 1) (tMicro [] [] id)).map (fun r => r.stop.map (·.code)) = some (some 2) := by
  decide +kernel
/-- Two buffers of one line of INT8: 2·3 + (−1)·4 = 2, at the origin that wp7 names. -/
def tBuf (l : List (List (Nat × Nat))) : Buf := ⟨3, 11, 2, l, [], none, none⟩
def tMma (p7 : W) : State := tMicro [] [(7, p7)] fun r =>
  { r with bufs := (r.bufs.set 0 (tBuf [[(2, 0), (255, 0)]])).set 1 (tBuf [[(3, 0), (4, 0)], [(1, 0), (1, 0)]]) }
theorem test_mma : (nextOf (exec (.uMma 0 1 0) (tMma 0x00020001))).core.bankCode 3 1 2 = 2 ∧
    (nextOf (exec (.uMma 0 1 0) (tMma 0x00020001))).core.bankCode 3 1 3 = 1 := by decide +kernel
/-- A product at row 1, column 2, of one row and two columns, written back raw at 0x40. -/
def tWb (last : Option LastMma) : State := tMicro [] [(0, 0xA000000000000040)] fun r => { r with last := last }
theorem test_wb : (nextOf (exec (.uWb 0 0) ((tWb (some ⟨1, 2, 1, 2, true⟩)).mapCore fun x =>
      { x with acc := x.acc.set 193 (packE 32 4 fun j => j + 5) }))).core.scratch.num 0x40 8 = 0x800000007 ∧
    (callAfter (.uWb 0 0) (tWb none)).map (fun r => r.stop.map (·.code)) = some (some 2) := by decide +kernel
/-- An m.getp waits for pm2 of call 1. -/
def tSig : State := (tLoop 3 id).mapCore fun x => { x with fills := [⟨.s, 4, .getp 2 1 none, 0⟩, ⟨.s, 5, .getp 2 9 none, 0⟩] }
theorem test_sig : (nextOf (exec (.uSig 2) tSig)).core.fills.map (·.src) = [.getp 2 1 (some 5), .getp 2 9 none] := by
  decide +kernel
def tNonFinite : State := tMicro [] [] fun r => { r with bufs := r.bufs.set 0 ⟨1, 2, 1, [[(0x7C00, 0)]], [], none, none⟩ }
theorem test_chk : (callAfter (.uChk 0) tNonFinite).map (·.always) = some fNV := by decide +kernel

theorem witness_MicroControl : ∃ (s : State) (c : BitVec 3) (l : BitVec 12), ∃ r, s.microReady s.cur = some r ∧
    fld (s.core.microWord l.toNat) 31 28 = 7 ∧ r.wp.get c.toFin = 0 ∧ (s.core.routineAt r.routine).1 ≤ l.toNat ∧
    r.loops = [] :=
  ⟨tLoop 0 id, 1, 2, some_of (by decide +kernel)⟩
theorem witness_MicroControl_loops : ∃ (s : State) (c : BitVec 3) (l : BitVec 12), ∃ r, s.microReady s.cur = some r ∧
    fld (s.core.microWord l.toNat) 31 28 = 7 ∧ r.wp.get c.toFin ≠ 0 ∧ r.loops.length = 3 ∧
    r.loops = (2, 0) :: r.loops.drop 1 :=
  ⟨tLoop 3 fun r => { r with loops := .replicate 3 (2, 0) }, 1, 2, some_of (by decide +kernel)⟩
theorem witness_MicroControl_deep : ∃ (s : State) (c : BitVec 3) (l : BitVec 12), ∃ r, s.microReady s.cur = some r ∧
    fld (s.core.microWord l.toNat) 31 28 = 7 ∧ r.wp.get c.toFin ≠ 0 ∧ r.loops.length = 4 ∧
    r.loops = (1, 0) :: r.loops.drop 1 :=
  ⟨tLoop 3 fun r => { r with loops := .replicate 4 (1, 0) }, 1, 2, some_of (by decide +kernel)⟩
/-- u.loop's end word is no u.endl. -/
theorem witness_MicroControl_end : ∃ (s : State) (l : BitVec 12), ∃ r, s.microReady s.cur = some r ∧
    s.core.microWord l.toNat / 2 ^ 28 % 16 ≠ 7 := ⟨tLoop 3 id, 1, some_of (by decide +kernel)⟩
theorem witness_MicroQueues : ∃ (s : State) (q n : BitVec 4), ∃ r, s.microReady s.cur = some r ∧
    (s.core.queue q).cfg = true ∧ n ≠ 0 ∧ n.toNat = (s.core.queue q).count ∧ (s.core.queue q).full = false ∧ r.wbOut = [] ∧
    s.core.lockedFor 5 ((s.core.queue q).slotAt (s.core.queue q).pi.toNat) = false :=
  ⟨tLoop 3 id, 2, 1, some_of (by decide +kernel)⟩
theorem witness_MicroQueues_waits : ∃ (s : State) (q n : BitVec 4), ∃ r, s.microReady s.cur = some r ∧
    (s.core.queue q).cfg = true ∧ n ≠ 0 ∧ (s.core.queue q).count < n.toNat :=
  ⟨tLoop 3 id, 2, 2, some_of (by decide +kernel)⟩
theorem witness_MicroQueues_full : ∃ (s : State) (q : BitVec 4), ∃ r, s.microReady s.cur = some r ∧
    (s.core.queue q).cfg = true ∧ (s.core.queue q).full = true :=
  ⟨(tLoop 3 id).mapCore (·.setQueue 2 ⟨true, 0x400, 0, false, 1, 0⟩), 2, some_of (by decide +kernel)⟩
theorem witness_MicroQueues_none : ∃ (s : State) (q : BitVec 4), ∃ r, s.microReady s.cur = some r ∧
    (s.core.queue q).cfg = false :=
  ⟨tLoop 3 id, 3, some_of (by decide +kernel)⟩
theorem witness_MicroLoads : ∃ (s : State) (l : LoadFields), ∃ r, s.microReady s.cur = some r ∧ r.pipes.get 3 = [] ∧
    (r.wpAt l.stride).toNat / 2 ^ 52 % 128 = 64 ∧ (r.wpAt l.stride).toNat / 2 ^ 59 = 0 ∧
    (r.wpAt l.stride).toNat / 2 ^ 9 % 2 ^ 43 = 0 ∧ (r.wpAt l.stride).toNat % 2 ^ 9 % 64 = 0 ∧
    (s.partAt s.csr.part.toFin).kg.testBit 63 = false :=
  ⟨tMicro [] [(0, 0x8000000000000000), (1, 0x0400000000000000 + 448)] id, ⟨0, 1, 63, 3⟩, some_of (by decide +kernel)⟩
theorem witness_MicroLoads_bad : ∃ (s : State) (l : LoadFields), ∃ r, s.microReady s.cur = some r ∧ r.pipes.get 0 = [] ∧
    64 < (r.wpAt l.stride).toNat / 2 ^ 52 % 128 :=
  ⟨tMicro [] [(1, 0x0410000000000000)] id, ⟨0, 1, 63, 3⟩, some_of (by decide +kernel)⟩
/-- A load runs in the lda pipe. -/
def tLoading : State := nextOf (exec (.uLda ⟨0, 1, 7, 0⟩) (tMicro [] [(0, 0xA000000000000000)] id))
theorem witness_MicroLoads_waits : ∃ (s : State), ∃ r, s.microReady s.cur = some r ∧ r.pipes.get 0 ≠ [] ∧
    r.filling 0 = true :=
  ⟨tLoading, some_of (by decide +kernel)⟩
theorem witness_MicroScales : ∃ (s : State) (b : BitVec 2), ∃ r, s.microReady s.cur = some r ∧ r.filling b.toFin = false ∧
    r.pipes.get 0 = [] ∧ (r.bufs.get b.toFin).src = 1 ∧ isBlockFmt (r.bufs.get b.toFin).fmt = true :=
  ⟨tMicro [] [] fun r => { r with bufs := r.bufs.set 2 ⟨1, 20, 32, [[(1, 0)]], [], none, none⟩ }, 2, some_of (by decide +kernel)⟩
theorem witness_MicroScales_bad : ∃ (s : State) (b : BitVec 2), ∃ r, s.microReady s.cur = some r ∧
    r.filling b.toFin = false ∧ r.pipes.get 0 = [] ∧ isBlockFmt (r.bufs.get b.toFin).fmt = false :=
  ⟨tMma 0, 0, some_of (by decide +kernel)⟩
theorem witness_MicroSignals : ∃ (s : State) (f : PendFill) (q : BitVec 3), ∃ r, s.microReady s.cur = some r ∧
    s.core.fills[0]? = some f ∧ f.src = .getp q r.cmd.num none ∧ r.cmd.src.get 2 = some q.toFin :=
  ⟨tSig, ⟨.s, 4, .getp 2 1 none, 0⟩, 2, some_of (by decide +kernel)⟩
theorem witness_MicroSignals_chk : ∃ (s : State) (b : BitVec 2), ∃ r, s.microReady s.cur = some r ∧
    r.filling b.toFin = false ∧ (r.bufs.get b.toFin).src = 1 ∧
    ∃ l ∈ ((r.bufs.get b.toFin).values false).1, ∃ x ∈ l, x.nonFinite = true :=
  ⟨tNonFinite, 0, some_of (by decide +kernel)⟩
theorem witness_MicroProducts : ∃ (s : State) (a b : BitVec 2), ∃ r, s.microReady s.cur = some r ∧
    r.filling a.toFin = false ∧ r.filling b.toFin = false ∧ (r.bufs.get a.toFin).lines ≠ [] ∧
    (r.bufs.get b.toFin).lines ≠ [] ∧ (r.bufs.get a.toFin).fmt = 11 ∧ (r.bufs.get b.toFin).fmt = 11 ∧ r.isInt ≠ some false ∧
    (r.wp.get 7).toNat % 64 + (r.bufs.get a.toFin).lines.length = 64 ∧
    (r.wp.get 7).toNat / 2 ^ 16 % 128 + (r.bufs.get b.toFin).lines.length = 128 :=
  ⟨tMma 0x007E003F, 0, 1, some_of (by decide +kernel)⟩
theorem witness_MicroProducts_past : ∃ (s : State) (a b : BitVec 2), ∃ r, s.microReady s.cur = some r ∧
    r.filling a.toFin = false ∧ r.filling b.toFin = false ∧ (r.bufs.get a.toFin).lines ≠ [] ∧
    (r.bufs.get b.toFin).lines ≠ [] ∧ (r.bufs.get a.toFin).fmt = 11 ∧ (r.bufs.get b.toFin).fmt = 11 ∧ r.isInt ≠ some false ∧
    128 < (r.wp.get 7).toNat / 2 ^ 16 % 128 + (r.bufs.get b.toFin).lines.length :=
  ⟨tMma 0x007F0000, 0, 1, some_of (by decide +kernel)⟩
theorem witness_MicroProducts_empty : ∃ (s : State) (a b : BitVec 2), ∃ r, s.microReady s.cur = some r ∧
    r.filling a.toFin = false ∧ r.filling b.toFin = false ∧ (r.bufs.get a.toFin).lines = [] :=
  ⟨tMma 0, 2, 1, some_of (by decide +kernel)⟩
/-- Two lines of FP16 elements, in a call of a profile that rounds at its end. -/
theorem witness_MicroProducts_float : ∃ (s : State) (a b : BitVec 2), ∃ r, s.microReady s.cur = some r ∧
    r.filling a.toFin = false ∧ r.filling b.toFin = false ∧ (r.bufs.get a.toFin).lines ≠ [] ∧
    (r.bufs.get b.toFin).lines ≠ [] ∧ (r.bufs.get a.toFin).fmt = 2 ∧ (r.bufs.get b.toFin).fmt = 2 ∧ r.isInt ≠ some true ∧
    (r.wp.get 7).toNat % 64 + (r.bufs.get a.toFin).lines.length ≤ 64 ∧
    (r.wp.get 7).toNat / 2 ^ 16 % 128 + (r.bufs.get b.toFin).lines.length ≤ 128 ∧ (profile r.cmd.prof).perStep = false :=
  ⟨tMicro [] [] fun r => { r with
      cmd := { r.cmd with prof := 3 }
      bufs := (r.bufs.set 0 ⟨3, 2, 1, [[(0x3C00, 0)]], [], none, none⟩).set 1 ⟨3, 2, 1, [[(0x4000, 0)]], [], none, none⟩ }, 0, 1,
    some_of (by decide +kernel)⟩
theorem witness_MicroWriteBack : ∃ (s : State) (p : BitVec 3) (m : LastMma) (a : Nat), ∃ r, s.microReady s.cur = some r ∧
    r.last = some m ∧ r.wpAt p = .ofNat 64 (5 * 2 ^ 61 + a) ∧ a % 4 = 0 ∧ m.nb = 128 ∧ m.na = 64 ∧
    a + 4 * m.nb * m.na = 0x200000 ∧ r.acc = [] ∧ s.core.locks = [] :=
  ⟨tMicro [] [(0, 0xA0000000001F8000)] fun r => { r with last := some ⟨0, 0, 64, 128, true⟩ }, 0, ⟨0, 0, 64, 128, true⟩,
    0x1F8000, some_of (by decide +kernel)⟩
theorem witness_MicroWriteBack_int8 : ∃ (s : State) (p : BitVec 3) (m : LastMma) (a : Nat), ∃ r, s.microReady s.cur = some r ∧
    r.last = some m ∧ r.wpAt p = .ofNat 64 (5 * 2 ^ 61 + a) ∧ fmtBits 11 = 8 ∧ Sys2Proof.isRegFmt 11 = true ∧
    m.nb = 2 ∧ m.na = 1 ∧ a + m.nb * m.na ≤ 0x200000 ∧ r.acc = [] ∧ s.core.locks = [] :=
  ⟨tWb (some ⟨1, 2, 1, 2, true⟩), 0, ⟨1, 2, 1, 2, true⟩, 0x40, some_of (by decide +kernel)⟩
theorem witness_MicroWriteBack_none : ∃ (s : State), ∃ r, s.microReady s.cur = some r ∧ r.last = none :=
  ⟨tWb none, some_of (by decide +kernel)⟩
theorem witness_MicroWriteBack_format : ∃ (s : State) (m : LastMma) (f : BitVec 5), ∃ r, s.microReady s.cur = some r ∧
    r.last = some m ∧ f ≠ 0 ∧ Sys2Proof.isRegFmt f.toNat = false :=
  ⟨tWb (some ⟨1, 2, 1, 2, true⟩), ⟨1, 2, 1, 2, true⟩, 17, some_of (by decide +kernel)⟩
theorem witness_MatrixRows_none : ∃ s : State, s.pipeAt s.inp.core (Fin.ofNat 4 s.inp.n) = none :=
  ⟨State.reset, by decide +kernel⟩
/-- A load of two rows of two INT8 elements, 16 bytes apart; f says what the core's pipe has come to. -/
def tRows (q : PipeRun → PipeRun) : State :=
  (nextOf (exec (.uLda ⟨0, 1, 1, 0⟩) ((tMicro [] [(0, 0xA000000000000000), (1, 0x5800000200000010)] id).mapCore fun x =>
    { x with scratch := ⟨[(0x10, 5), (0x11, 6)], []⟩ }))).mapCore (·.onMRun (·.onPipe 0 q))
/-- The second row, once both have been asked for and are due. -/
def tSecond : State := tRows fun q => { q with next := 1, fmt := 11, due := [0] }
def tSecondPipe : PipeRun := ⟨⟨0, 0, 0, 0, 0xA000000000000000, 0x10, 11, 2, 2, 16, 0, false, false⟩, false, 1, 11, 0, false, [],
  none, none, [], false, noRead, [0], none, none, none⟩
theorem witness_MatrixRows : ∃ (s : State) (q : PipeRun), let x := s.coreAt s.inp.core
    ∃ r, x.matrix.run = some r ∧ r.stop = none ∧ r.pipes.get 0 = [q] ∧ q.stop = none ∧ s.engineLive s.inp.core = true ∧
    x.csr.nrep.toNat ≤ 1 ∧ r.cmd.op.isGang = false ∧ q.spec.scale = false ∧ q.spec.lib = false ∧ q.rd = noRead ∧ x.locks = [] ∧
    x.scratch.poison = [] ∧ q.spec.ufmt = 11 ∧ q.fmt = 11 ∧ q.spec.k = 2 ∧ q.next = 1 ∧
    ownRow (q.spec.base + .ofNat 64 q.next * q.spec.stride) 2 ∧ q.spec.rows = q.next + q.due.length ∧ 0 ∈ q.due :=
  ⟨tSecond, tSecondPipe, some_of (by decide +kernel)⟩
theorem witness_MatrixRows_request : ∃ (s : State), let x := s.coreAt s.inp.core
    ∃ r, x.matrix.run = some r ∧ (r.pipes.get 0).map (fun q => (q.due, q.next, q.spec.rows, q.sent)) = [([], 0, 2, none)] ∧
    x.bankq = [] := ⟨tRows id, some_of (by decide +kernel)⟩
/-- Core 1, in the second column of the gang, takes its rows from core 0. -/
def tTaker (l : List FwdRow) : State :=
  let s := tGang.onCore 1 fun x => { tTm (fun r => { r with pipes := r.pipes.set 0 [tSecondPipe] }) (.call tCall true) x with
    matrix := { (tTm (fun r => { r with pipes := r.pipes.set 0 [tSecondPipe] }) (.call tCall true) x).matrix with fwd := l } }
  { s with inp := { s.inp with core := 1 } }
theorem witness_MatrixRows_taken : ∃ (s : State), let x := s.coreAt s.inp.core
    ∃ r, x.matrix.run = some r ∧ r.stop = none ∧ r.pipes.get 0 = [tSecondPipe] ∧ s.engineLive s.inp.core = true ∧
    x.csr.nrep.toNat ≤ 1 ∧ s.takesRows s.inp.core r tSecondPipe = true ∧ tSecondPipe.spec.pipe = 0 ∧
    (x.fwdRow r.cmd.num tSecondPipe.spec.ord tSecondPipe.next).any (·.bad == none) = true :=
  ⟨tTaker [⟨1, 0, 1, 11, 2, false, [(1, 0), (2, 0)], false, none⟩], some_of (by decide +kernel)⟩
theorem witness_MatrixRows_waits : ∃ (s : State), let x := s.coreAt s.inp.core
    ∃ r, x.matrix.run = some r ∧ r.pipes.get 0 = [tSecondPipe] ∧ s.takesRows s.inp.core r tSecondPipe = true ∧
    x.fwdRow r.cmd.num tSecondPipe.spec.ord tSecondPipe.next = none := ⟨tTaker [], some_of (by decide +kernel)⟩
/-- The last row ends the load: its buffer holds the lines. -/
theorem test_row : (nextOf (exec .matrixRowComplete (tRows fun q =>
    { q with next := 1, fmt := 11, klen := 2, got := [[(1, 0), (2, 0)]], due := [0] }))).core.matrix.run.map
    (fun r => ((r.bufs.get 0).lines, r.pipes.get 0)) = some ([[(1, 0), (2, 0)], [(5, 0), (6, 0)]], []) := by decide +kernel
theorem witness_MatrixRows_stopped : ∃ (s : State) (q : PipeRun), s.pipeAt s.cur 0 = some q ∧ q.stop.isSome = true :=
  ⟨tRows fun _ => { tSecondPipe with stop := some { code := 2 } }, { tSecondPipe with stop := some { code := 2 } },
    by decide +kernel⟩

/-! ### Firmware's events -/

def tEv (a : EventArgs) (s : State := State.reset) : State := { s with inp := a }

/-- Sites 0 to 5 of die E are bad, and site 9 has lost a vector instance. -/
def tBoot : BootReport := ⟨(.e, 9, .vec 0) :: (List.range 6).map fun i => (.e, Fin.ofNat 136 i, .matrix), true, false, [],
  List.replicate 9 0, []⟩
/-- R12 to R16: two spares on die E, eight on W; core 3 degraded; SRAM low and a ninth one-lane port of die W's rail. -/
theorem test_boot : (let f := (nextOf (exec .boot (tEv { boot := tBoot }))).fw
    (f.spareE, f.spareW, f.degraded, f.reason) = (2, 8, 1, 0b10100)) := by decide +kernel
theorem test_thermal : (nextOf (exec .thermalAlarm State.reset)).fw.thermal = true ∧
    (nextOf (exec .thermalShutdown State.reset)).fw.hot = true ∧
    (nextOf (exec .thermalRecovery { State.reset with fw := { State.reset.fw with hot := true } })).fw.hot = false := by
  decide +kernel
/-- A refresh of slice 0 of die E lasts. -/
def tRefresh (s : State) : State := s.onXbar .e fun b => b.setSlice 0 { b.sliceAt 0 with refresh := some 0 }
theorem test_repair : (nextOf (exec .hbmRowRepair (tRefresh (tEv { n := 0 })))).fw.reason = 8 ∧
    (nextOf (exec .hbmRowRepair (tRefresh (tEv { n := 1 })))).fw.tele.retired = 1 := by decide +kernel
theorem test_lane : ((nextOf (exec .fabricLaneFailure (tEv { fport := 5 }))).fabAt .e).oneLane = [5] := by decide +kernel
/-- The owner's key is fused, slot 2 holds a key, and the key store lets its masters in. -/
def tOwned (slot : BitVec 2) : State :=
  { State.reset with
    fw := { State.reset.fw with owner := some 7, keyslots := State.reset.fw.keyslots.set 2 slot }
    ms := { State.reset.ms with access := [⟨.keys, 0x310, 0x8013⟩, ⟨.keys, 0x324, 0x8011⟩] } }
theorem test_owner : (nextOf (exec .owner (tEv { key := 9 }))).fw.owner = some 9 ∧
    (nextOf (exec .owner (tEv { key := 9 } (tOwned 0)))).fw.mboxStatus = 1 := by decide +kernel
theorem test_install : (nextOf (exec .install (tEv { slot := 2, ok := true } (tOwned 0)))).fw.keyslots.get 2 = 1 ∧
    (nextOf (exec .install (tEv { slot := 2, ok := true, word := 1 } (tOwned 0)))).fw.mboxStatus = 1 := by decide +kernel
theorem test_revoke : (nextOf (exec .revoke (tEv { slot := 2, ok := true } (tOwned 1)))).fw.keyslots.get 2 = 2 ∧
    (nextOf (exec .revoke (tEv { slot := 2, ok := true } (tOwned 0)))).fw.mboxStatus = 1 := by decide +kernel
/-- Range entry 3 of partition 0: a signed stream extent under key slot 2, full. -/
def tSigned : State := (tOwned 1).onPart 0 fun p => { p with
  ranges := [(3, ⟨0x10000, 0x20000, 0, 0xA000000000000000 + 2 ^ 46 + 2 * 2 ^ 41⟩)]
  streams := [⟨3, 0x20000, 0x20000, 0x10000, none, [], false, false, none⟩] }
/-- No slice of the extent lets the security block in: the verification fails, is counted, and is over. -/
theorem test_verify : (((nextOf (exec .signatureVerifyEnd (tEv { n := 3 } tSigned))).partAt 0).rangeIx 3).map (·.has 45) =
    some false ∧ (nextOf (exec .signatureVerifyEnd (tEv { n := 3 } tSigned))).fw.tele.sigFails = 1 ∧
    ((nextOf (exec .signatureVerifyEnd (tEv { n := 3 } tSigned))).streamOf 0 3).checked = true := by decide +kernel
theorem test_correctable : (nextOf (exec .correctableError (tEv { place := .scratch 0 8 }))).core.seq.freeze = 8 ∧
    (nextOf (exec .freezeEnd ({ tRun (fun x => { x with seq := { x.seq with freeze := 8 } }) with cyc := 8 }))).core.seq.freeze = 0 := by
  decide +kernel
theorem test_poison : (nextOf (exec .wordPoisoned (tEv { place := .mem 0x105 }))).ms.mem.isPoisoned 0x100 = true ∧
    ((nextOf (exec .wordPoisoned (tEv { place := .scratch 1 8 }))).coreAt 1).scratch.isPoisoned 8 = true := by decide +kernel
/-- R142: the idle half, half 1, last used at cycle 0. -/
theorem test_retention : ((nextOf (exec .halfRetentionEntry { State.reset with cyc := 65536 })).core.halves.get 1).retained = true ∧
    ((nextOf (exec .halfRetentionEntry { State.reset with cyc := 65535 })).core.halves.get 1).retained = false := by decide +kernel
theorem test_retention_exit : ((nextOf (exec .retentionExitEnd { State.reset.mapCore (fun x => { x with
    halves := x.halves.set 1 { x.halves.get 1 with retained := true, leaving := true } }) with cyc := 256 })).core.halves.get 1).retained =
    false := by decide +kernel
theorem test_fabctl : ((nextOf (exec .fabctlWrite (tEv { word := 0x8000000001234567 }))).fabAt .e).dims = #v[1, 2, 3] ∧
    ((nextOf (exec .xbarwtWrite (tEv { word := 0x4321 }))).xbarAt .e).wt = 0x4321 := by decide +kernel
theorem test_partmap : (nextOf (exec .partmapWrite (tEv { n := 1, word := 0x76543210 }))).fw.partmap.get 1 = 0x76543210 ∧
    ((nextOf (exec .kvqlognWrite (tEv { word := 5 }))).partAt 0).kvqlogn = 5 := by decide +kernel
theorem test_kvgeom : ((nextOf (exec .kvgeomWrite (tEv { word := 0x8000000000000000 + 2 ^ 62 }))).partAt 0).kvgeom.getLsbD 63 = false := by
  decide +kernel
theorem test_kvqrel : ((nextOf (exec .kvqrelWrite (tEv { word := 4 } (State.reset.onPart 0 fun p => { p with kvquar := [(4, false)] })))).partAt
    0).kvquar = [] ∧ ((nextOf (exec .kvqrelWrite (tEv { word := 4 } (State.reset.onPart 0 fun p => { p with kvquar := [(4, true)] })))).partAt
    0).kvquar = [(4, true)] := by decide +kernel
theorem test_dumpack : ((nextOf (exec .dumpackWrite (tEv { word := 1 } (State.reset.onPart 0 fun p => { p with dumpPend := true })))).partAt
    0).dumpPend = false := by decide +kernel
theorem test_access : (nextOf (exec .accessTableWrite (tEv { target := .keys, n := 5, word := 0xFFFF }))).accessEntry .keys 5 = 0xF01F := by
  decide +kernel
theorem test_range : (((nextOf (exec .rangeEntryWrite (tEv { n := 3, words := [1, 2, 3, 4] }))).partAt 0).rangeIx 3) = some ⟨1, 2, 3, 4⟩ := by
  decide +kernel
/-- Core 0 holds a translation of [0x1000, 0x2000). -/
def tTlb : State := tRun fun x => { x with tlb := [⟨0, 0x1000, 0x1000, 0⟩, ⟨0, 0x2000, 0x1000, 0⟩] }
theorem test_xlatinv : (nextOf (exec .xlatinvWrite (tEv { word := 0x8300000000000001 } tTlb))).core.tlb = [⟨0, 0x2000, 0x1000, 0⟩] ∧
    ((nextOf (exec .xlatinvComplete (tEv {} (nextOf (exec .xlatinvWrite (tEv { word := 0x8300000000000001 } tTlb)))))).ms.xlatinv.get
      0).getLsbD 63 = false := by decide +kernel
/-- A page table at 0x20_0000; core 0 walks for offset 0x1000. tLeaf: its entry 0 leads to a leaf of 1 GB at PA 0. -/
def tTable (l : List (Nat × Byte)) : State := { (State.reset.onPart 0 fun p => { p with ptroot := 0x8000000000200000 }) with
  ms := { State.reset.ms with mem := ⟨l, []⟩, walks := [⟨0, 0, 0x1000, 0, none⟩] }, cyc := 20 }
def tLeaf : State := tTable [(0x200001, 0x10), (0x200002, 0x20), (0x200007, 0x80), (0x201007, 0xE0)]
theorem test_walk : (nextOf (exec .pageWalkDone (tEv {} (tTable [])))).ms.walks = [⟨0, 0, 0x1000, 0, some 0⟩] ∧
    (nextOf (exec .pageWalkDone (tEv {} tLeaf))).core.tlb = [⟨0, 0, 0x40000000, 0xE000000000000000⟩] := by decide +kernel
theorem test_register : (nextOf (exec .registerWrite (tEv { rtarget := .control 0xF0000000100, word := 7 }))).fw.partmap.get 0 = 7 := by
  decide +kernel

theorem witness_HeatAndRepair : ∃ (s : State) (c : CoreId) (i : Inst), s.instOf c = some i ∧ (s.partAt i.vf).swapped = false ∧
    (s.coreAt c).seq.mode = .running := ⟨tNode 1 id, 0, tInst, by decide +kernel⟩
theorem witness_HeatAndRepair_window : ∃ s : State,
    ((s.xbarAt s.inp.die).slices.get (Fin.ofNat 32 s.inp.slot.val)).refresh ≠ none := ⟨tRefresh (tEv {}), by decide +kernel⟩
theorem witness_KeyCommands_owner : ∃ s u : State, s.fw.owner = none ∧ u.fw.owner ≠ none :=
  ⟨tEv { key := 9 }, tOwned 0, by decide +kernel⟩
theorem witness_KeyCommands : ∃ s : State, s.inp.ok = true ∧ s.fw.owner.isSome = true ∧ s.inp.word = s.fw.nonce ∧
    keyWriter s ∧ s.fw.keyslots.get (Fin.ofNat 16 s.inp.slot.val) = 1 :=
  ⟨tEv { slot := 2, ok := true } (tOwned 1), by decide +kernel⟩
theorem witness_KeyCommands_free : ∃ s : State, s.inp.ok = true ∧ s.fw.owner.isSome = true ∧ s.inp.word = s.fw.nonce ∧
    keyWriter s ∧ s.fw.keyslots.get (Fin.ofNat 16 s.inp.slot.val) ≠ 1 :=
  ⟨tEv { slot := 15, ok := true } (tOwned 1), by decide +kernel⟩
theorem witness_KeyCommands_refused : ∃ s : State, ¬ keyWriter s := ⟨State.reset, by decide +kernel⟩
theorem witness_SignatureVerification : ∃ (s : State) (r : Range), (s.partAt s.inp.part).rangeIx (s.inp.n % 2048) = some r ∧
    r.has 46 = true ∧ r.role = 2 ∧ (s.streamOf s.inp.part (s.inp.n % 2048)).wdone = r.limit.toNat ∧
    (s.streamOf s.inp.part (s.inp.n % 2048)).checked = false :=
  ⟨tEv { n := 3 } tSigned, ⟨0x10000, 0x20000, 0, 0xA000000000000000 + 2 ^ 46 + 2 * 2 ^ 41⟩, by decide +kernel⟩
theorem witness_SoftErrors : ∃ (s : State) (c : CoreId) (o : BitVec 22), s.inp.place = .scratch c o ∧
    (s.partAt (s.coreAt c).csr.part.toFin).tt = false := ⟨tEv { place := .scratch 255 8 }, 255, 8, by decide +kernel⟩
theorem witness_SoftErrors_mem : ∃ (s : State) (a : BitVec 44), s.inp.place = .mem a ∧ freezes s.inp.place = none :=
  ⟨tEv { place := .mem 8 }, 8, by decide⟩
theorem witness_HalvesAtRest : ∃ s : State, ((s.coreAt s.inp.core).halves.get (idleIx (s.coreAt s.inp.core))).retained = false ∧
    ((s.coreAt s.inp.core).halves.get (idleIx (s.coreAt s.inp.core))).lastUse.toNat + 65536 = s.cyc.toNat :=
  ⟨{ State.reset with cyc := 65536 }, by decide +kernel⟩
theorem witness_ControlWrites : ∃ s : State, (s.inp.word.toNat, false) ∉ (s.partAt s.inp.part).kvquar :=
  ⟨State.reset, by decide +kernel⟩
theorem witness_ControlWrites_back : ∃ s : State, (s.inp.word.toNat, false) ∈ (s.partAt s.inp.part).kvquar :=
  ⟨tEv { word := 4 } (State.reset.onPart 0 fun p => { p with kvquar := [(4, false)] }), by decide +kernel⟩
/-- Two pages of 4 KiB are given to partition 0, 16 tokens of format 2 a page. -/
def tRing : State := tEv { word := 0x8800000000000000 } (State.reset.onPart 0 fun p => { p with
  kvpages := 2, kvflb := 0x3000, kvpoolb := 0x10000 })
theorem witness_ControlWrites_pool : ∃ s : State, s.inp.word.getLsbD 63 = true ∧
    (s.partAt s.inp.part).kvOk (s.inp.word.toNat - s.inp.word.toNat % 2 ^ 20) = true ∧
    (s.partAt s.inp.part).kvgeom.getLsbD 63 = false := ⟨tRing, by decide +kernel⟩
/-- R50, R115: classroom 0 goes to partition 0, on whose cores another partition's program has run. -/
theorem witness_ControlWrites_moved : ∃ (s t : State) (c : CoreId) (q : PartId), exec .partmapWrite s = .next t ∧
    t.partOfCore c = some q ∧ s.partOfCore c ≠ some q ∧ (s.coreAt c).csr.part.toNat ≠ q.val :=
  let s := tEv { word := 1 } (State.reset.mapCore fun x => { x with csr := { x.csr with part := 3 } })
  ⟨s, nextOf (exec .partmapWrite s), 0, 0, rfl, by decide +kernel⟩
theorem witness_TranslationWrites : ∃ (s : State) (e : TlbEnt), s.inp.word.getLsbD 63 = true ∧ s.inp.word.toNat / 2 ^ 54 % 64 = 12 ∧
    e ∈ (nextOf (exec .xlatinvWrite s)).core.tlb ∧ e.part = toPart (s.inp.word.toNat / 2 ^ 60 % 8) :=
  ⟨tEv { word := 0x8300000000000001 } tTlb, ⟨0, 0x2000, 0x1000, 0⟩, by decide +kernel⟩
theorem witness_TranslationWrites_size : ∃ s : State, s.inp.word.toNat / 2 ^ 54 % 64 = 11 := ⟨tEv { word := 0x82C0000000000001 }, by decide⟩
/-- The one walk is due. -/
theorem witness_TranslationWrites_walk : ∃ (s : State) (w : Walk) (r : Nat), s.ms.walks = [] ++ w :: [] ∧ w.bad = none ∧
    dieOf w.core = s.inp.die ∧ w.since.toNat + 20 ≤ s.cyc.toNat ∧ rangeAt (s.partAt w.part) w.off = [] ∧
    tlbFind (s.roomTlb (w.core.val / 16)) w.part w.off = none ∧ s.pageWalk w.part w.off = .error r :=
  ⟨tTable [], ⟨0, 0, 0x1000, 0, none⟩, 0, by decide +kernel, rfl, by decide +kernel, by decide +kernel, by decide +kernel,
    by decide +kernel, error_of (by decide +kernel)⟩
theorem witness_TranslationWrites_leaf : ∃ (s : State) (w : Walk) (r : Nat × Nat × Nat), s.ms.walks = [] ++ w :: [] ∧ w.bad = none ∧
    dieOf w.core = s.inp.die ∧ w.since.toNat + 20 ≤ s.cyc.toNat ∧ rangeAt (s.partAt w.part) w.off = [] ∧
    tlbFind (s.roomTlb (w.core.val / 16)) w.part w.off = none ∧ s.pageWalk w.part w.off = .ok r :=
  ⟨tLeaf, ⟨0, 0, 0x1000, 0, none⟩, (0xE000000000000000, 0, 0x40000000), by decide +kernel, rfl, by decide +kernel, by decide +kernel,
    by decide +kernel, by decide +kernel, ok_of (by decide +kernel)⟩
theorem witness_RegisterWrites : ∃ s : State, s.inp.rtarget = .control (.ofNat 44 (0xF0000000100 + 8 * s.inp.n)) ∧ s.inp.n < 2 :=
  ⟨tEv { n := 1, rtarget := .control 0xF0000000108 }, by decide⟩
theorem witness_RegisterWrites_block : ∃ s : State, s.inp.rtarget = .control (.ofNat 44 (0xF0000100000 + 0x1000 * 7 + 0x18)) :=
  ⟨tEv { rtarget := .control 0xF0000107018 }, by decide⟩
theorem witness_RegisterWrites_posted : ∃ (s : State) (f : Fin 9) (off : BitVec 16), s.inp.rtarget = .windowC f off ∧
    (s.host.posted.any fun w => w.fn == f) = true :=
  ⟨tEv { rtarget := .windowC 8 0x1040 } { State.reset with host := { State.reset.host with posted := [⟨8, true, 0, []⟩] } }, 8,
    0x1040, by decide +kernel⟩

/-! ### The host -/

/-- Partition 0 has range entry 0, [0, 0x10000) with a role, at PA 0x10000, and masters that may read, write and combine in
every slice of die E. -/
def tMapped (role : Nat) (masters : List (BitVec 10)) (s : State) : State :=
  let s := s.onPart 0 fun p => { p with ranges := [(0, ⟨0, 0x10000, 0x10000, .ofNat 64 (2 ^ 63 + role * 2 ^ 60)⟩)] }
  { s with ms := { s.ms with access := masters.flatMap fun m => (List.finRange 32).map fun i => ⟨.slice .e i, m, 0x8007⟩ } }
def tHost : State := tMapped 0 [0x301, 0x320] { State.reset with ms := { State.reset.ms with mem := ⟨[(0x10008, 0x5A)], []⟩ } }

theorem access_of {s : State} {m : BitVec 10} {p : PartId} {k : AKind} {l : Loc} (ho : l.place < 0x4000000000)
    (h : ∀ i : Fin 32, s.accessOk (.slice .e i) m p k.right l.sys = true) : s.mayAccess m p k l = true := by
  have h3 : targetOf l.place = .slice .e (Config.hash32 (fld l.place 37 12)) := by
    unfold targetOf
    rw [if_neg (by omega), if_pos (by omega), if_pos ho]
  simp only [State.mayAccess, h3, h, Bool.or_true]

/-- Offset 8 of window D. -/
def tHostEv : State := tEv { off := 8, n := 1, bytes := [0x77] } tHost
theorem go_read : tHostEv.hostGo 0 .hostRead (vas ((tHostEv.vfAt 0).wdbase + .ofNat 64 8) 1) {} [] =
    .go [0x10008] { idx := some 0 } := by
  have t : tHostEv.translateHost 0 8#64 .hostRead = .ok { place := 0x10008, attr := { idx := some 0 } } := by decide +kernel
  have a : tHostEv.mayAccess (hostMaster 0) 0 .hostRead { place := 0x10008, attr := { idx := some 0 } } = true :=
    access_of (by decide) (by decide +kernel)
  have v : vas ((tHostEv.vfAt 0).wdbase + .ofNat 64 8) 1 = [8] := by decide +kernel
  have g : tHostEv.migrating 0x10008 = false := by decide +kernel
  rw [v]; simp [State.hostGo, t, a, g]
theorem go_write : tHostEv.hostGo 0 .hostWrite (vas ((tHostEv.vfAt 0).wdbase + .ofNat 64 8) 1) {} [] =
    .go [0x10008] { idx := some 0 } := by
  have t : tHostEv.translateHost 0 8#64 .hostWrite = .ok { place := 0x10008, attr := { idx := some 0 } } := by decide +kernel
  have a : tHostEv.mayAccess (hostMaster 0) 0 .hostWrite { place := 0x10008, attr := { idx := some 0 } } = true :=
    access_of (by decide) (by decide +kernel)
  have v : vas ((tHostEv.vfAt 0).wdbase + .ofNat 64 8) 1 = [8] := by decide +kernel
  have g : tHostEv.migrating 0x10008 = false := by decide +kernel
  rw [v]; simp [State.hostGo, t, a, g]
/-- R38: offset 8 of window D is address 8; another function's partition has no translation. -/
theorem test_window_read : exec .windowDRead tHostEv = .next { tHostEv with host := { tHostEv.host with answer := some [0x5A] } } := by
  have h := go_read
  have p : tHostEv.postedBy (fnOf 0) = false := by decide +kernel
  have b : [0x10008].map tHostEv.readByte = [0x5A] := by decide +kernel
  have hi : tHostEv.inp.part = 0 := rfl
  have ho : tHostEv.inp.off.toNat % 2 ^ 38 = 8 := rfl
  have hn : tHostEv.inp.n = 1 := rfl
  show execWindowDRead tHostEv = _
  simp only [execWindowDRead, hi, ho, hn, p, h, b]
  rfl
theorem test_window_fail : ((nextOf (exec .windowDRead (tEv { off := 8, n := 1, part := 1 } tHost))).vfAt 1).fnerr = 1 ∧
    ((nextOf (exec .windowDRead (tEv { off := 8, n := 1, part := 1 } tHost))).vfAt 1).fnerraddr = 8 := by decide +kernel
theorem test_window_write : ((nextOf (exec .windowDWrite (tEv { off := 8, bytes := [1], part := 1 } tHost))).vfAt 1).fnerr = 1 ∧
    (nextOf (exec .windowDWrite (tEv { off := 8, bytes := [1] } { tHost with host :=
      { tHost.host with posted := [⟨1, true, 0, []⟩] } }))).host.posted.length = 2 := by decide +kernel
theorem test_forward : (nextOf (exec .hostWriteForward (tEv { fn := 2 } { tHost with host :=
    { tHost.host with posted := [⟨2, true, 0, [1]⟩] } }))).host.posted = [] ∧
    (nextOf (exec .unsupportedRequest State.reset)).host.unsupported = 1 := by decide +kernel
/-- R41: queue 0 of VF 0 is set up with 64 entries at 0x1000. -/
def tQueueOn (x : LQueue) (s : State) : State := s.onVf 0 fun v => { v with queues := v.queues.set 0 x }
def tLq : LQueue := { LQueue.reset with base := 0x1000, log2n := 6, en := true, pi := 2, ci := 0, ct := 0 }
/-- Partition 0 has core 0. -/
def tCores (s : State) : State := { s with fw := { s.fw with partmap := #v[1, 0] } }
theorem test_lqcfg : ((nextOf (exec .lqcfgWrite (tEv { word := 0x80000006 } (tCores (tQueueOn { tLq with en := false } State.reset))))).queueAt
    0 0).en = true ∧ ((nextOf (exec .lqcfgWrite (tEv { word := 0x80000005 } (tCores (tQueueOn { tLq with en := false }
      State.reset))))).queueAt 0 0).err = 1 := by decide +kernel
theorem test_lqpi : ((nextOf (exec .lqpiWrite (tEv { word := 64 } (tQueueOn tLq State.reset)))).queueAt 0 0).pi = 64 ∧
    ((nextOf (exec .lqpiWrite (tEv { word := 65 } (tQueueOn tLq State.reset)))).queueAt 0 0).err = 2 := by decide +kernel
theorem test_skip : ((nextOf (exec .skip (tEv {} (tQueueOn { tLq with halt := some (1, 0), err := 3 } State.reset)))).queueAt
    0 0).failcnt = 1 ∧ ((nextOf (exec .skip (tEv {} (tQueueOn { tLq with halt := some (1, 0), err := 3 } State.reset)))).queueAt
    0 0).ci = 1 := by decide +kernel
theorem test_fnerr : ((nextOf (exec .fnerrWrite (tEv {} (State.reset.onVf 0 fun v => { v with fnerr := 5 })))).vfAt 0).fnerr = 0 := by
  decide +kernel
/-- No translation: ERR 6. -/
theorem test_record_read : ((nextOf (exec .launchRecordRead (tEv {} (tQueueOn tLq State.reset)))).queueAt 0 0).err = 6 := by
  decide +kernel
theorem test_flr : ((nextOf (exec .vfFlr (tQueueOn tLq (tNode 1 id)))).queueAt 0 0).en = false := by decide +kernel

/-- One byte of window D at offset 8. -/
theorem places_of {s : State} {k : AKind} {va : W} {l : Loc} {P : Nat → Prop} (t : s.translateHost 0 (va + 0#64) k = .ok l)
    (a : s.mayAccess 0x301 0 k l = true) (g : s.migrating l.place = false) (h : P l.place) :
    hostPlaces s 0 k va 1 P fun _ => l := by
  intro i hi
  have : i = 0 := by omega
  subst this
  exact ⟨t, a, g, h⟩
theorem witness_WindowReads : ∃ (s : State) (m : Nat → Loc), s.postedBy (fnOf s.inp.part) = false ∧
    (s.host.away.any fun a => a.fn == fnOf s.inp.part) = false ∧
    hostPlaces s s.inp.part .hostRead ((s.vfAt s.inp.part).wdbase + .ofNat 64 (s.inp.off.toNat % 2 ^ 38)) s.inp.n (· < 2 ^ 80) m ∧
    s.poisonRead ((List.range s.inp.n).map fun i => (m i).place) = none ∧ 0 < s.inp.n :=
  ⟨tHostEv, fun _ => { place := 0x10008, attr := { idx := some 0 } }, by decide +kernel, by decide +kernel,
    places_of (by decide +kernel) (access_of (by decide) (by decide +kernel)) (by decide +kernel) (by decide),
    by decide +kernel, by decide⟩
/-- Nothing is mapped: the first byte has no translation. -/
theorem fails_of {s : State} {k : AKind} {va : W} {n : Nat} (hn : 0 < n)
    (t : (match s.translateHost 0 (va + 0#64) k with
      | .fault .. => true
      | _ => false) = true) : hostFails s 0 k va n :=
  ⟨0, fun _ => { place := 0 }, hn, fun i hi => absurd hi (by omega), .inl (by
    revert t; cases h : s.translateHost 0 (va + 0#64) k <;> simp_all)⟩
theorem waits_of {s : State} {k : AKind} {va : W} {n : Nat} (hn : 0 < n)
    (t : (match s.translateHost 0 (va + 0#64) k with
      | .held => true
      | _ => false) = true) : hostWaits s 0 k va n :=
  ⟨0, fun _ => { place := 0 }, hn, fun i hi => absurd hi (by omega), .inl (by
    revert t; cases h : s.translateHost 0 (va + 0#64) k <;> simp_all)⟩
theorem witness_WindowReads_fail : ∃ s : State, s.postedBy (fnOf s.inp.part) = false ∧ (s.vfAt s.inp.part).fnerr = BitVec.allOnes 32 ∧
    hostFails s s.inp.part .hostRead ((s.vfAt s.inp.part).wdbase + .ofNat 64 (s.inp.off.toNat % 2 ^ 38)) s.inp.n :=
  ⟨(tEv { off := 8, n := 1 } State.reset).onVf 0 fun v => { v with fnerr := BitVec.allOnes 32 }, by decide +kernel,
    by decide +kernel, fails_of (by decide) (by decide +kernel)⟩
/-- The range is being recast. -/
def tRecastEv : State := (tEv { off := 8, n := 1, bytes := [1] } State.reset).onPart 0 fun p => { p with
  ranges := [(0, ⟨0, 0x10000, 0x10000, .ofNat 64 (2 ^ 63 + 2 ^ 26)⟩)] }
theorem witness_WindowReads_wait : ∃ s : State, s.postedBy (fnOf s.inp.part) = false ∧
    hostWaits s s.inp.part .hostRead ((s.vfAt s.inp.part).wdbase + .ofNat 64 (s.inp.off.toNat % 2 ^ 38)) s.inp.n :=
  ⟨tRecastEv, by decide +kernel, waits_of (by decide) (by decide +kernel)⟩
/-- The extent is another module's, TIER 2. -/
theorem witness_WindowReads_peer : ∃ (s : State) (m : Nat → Loc), s.postedBy (fnOf s.inp.part) = false ∧ 0 < s.inp.n ∧
    hostPlaces s s.inp.part .hostRead ((s.vfAt s.inp.part).wdbase + .ofNat 64 (s.inp.off.toNat % 2 ^ 38)) s.inp.n
      (fun q => 2 ^ 80 ≤ q ∧ s.devBad 0 (q / 2 ^ 80 - 1) = false) m := by
  let s : State := tHostEv.onPart 0 fun p => { p with ranges := [(0, ⟨0, 0x10000, 0, .ofNat 64 (2 ^ 63 + 2 * 2 ^ 50)⟩)] }
  let l : Loc := match s.translateHost 0 8#64 .hostRead with
    | .ok l => l
    | _ => { place := 0 }
  have h : 2 ^ 80 ≤ l.place := by decide +kernel
  exact ⟨s, fun _ => l, by decide +kernel, by decide,
    places_of (by decide +kernel) (by simp only [State.mayAccess, decide_eq_true h, Bool.or_true, Bool.true_or]) (by decide +kernel) ⟨h, by decide +kernel⟩⟩
theorem witness_WindowWrites : ∃ (s : State) (m : Nat → Loc), s.postedBy (fnOf s.inp.part) = false ∧
    hostPlaces s s.inp.part .hostWrite ((s.vfAt s.inp.part).wdbase + .ofNat 64 (s.inp.off.toNat % 2 ^ 38)) s.inp.bytes.length
      (· < 2 ^ 45) m ∧ (m 0).attr.role ≠ 2 ∧
    (∀ i j, i < s.inp.bytes.length → j < s.inp.bytes.length → (m i).place = (m j).place → i = j) ∧
    s.poisonWrite ((List.range s.inp.bytes.length).map fun i => ((m i).place, s.inp.bytes.getD i 0, 0xFF#8)) = none :=
  ⟨tHostEv, fun _ => { place := 0x10008, attr := { idx := some 0 } }, by decide +kernel,
    places_of (by decide +kernel) (access_of (by decide) (by decide +kernel)) (by decide +kernel) (by decide), by decide,
    fun i j hi hj _ => by
      have h : tHostEv.inp.bytes.length = 1 := rfl
      omega, by decide +kernel⟩
/-- A byte written into a poisoned word. -/
theorem witness_WindowWrites_poison : ∃ (s : State) (m : Nat → Loc), s.postedBy (fnOf s.inp.part) = false ∧
    hostPlaces s s.inp.part .hostWrite ((s.vfAt s.inp.part).wdbase + .ofNat 64 (s.inp.off.toNat % 2 ^ 38)) s.inp.bytes.length
      (· < 2 ^ 45) m ∧ (m 0).attr.role ≠ 2 ∧
    s.poisonWrite ((List.range s.inp.bytes.length).map fun i => ((m i).place, s.inp.bytes.getD i 0, 0xFF#8)) ≠ none :=
  ⟨{ tHostEv with ms := { tHostEv.ms with mem := ⟨[], [0x10008]⟩ } }, fun _ => { place := 0x10008, attr := { idx := some 0 } },
    by decide +kernel, places_of (by decide +kernel) (access_of (by decide) (by decide +kernel)) (by decide +kernel) (by decide),
    by decide, by decide +kernel⟩
theorem witness_WindowWrites_wait : ∃ s : State, s.postedBy (fnOf s.inp.part) = false ∧
    hostWaits s s.inp.part .hostWrite ((s.vfAt s.inp.part).wdbase + .ofNat 64 (s.inp.off.toNat % 2 ^ 38)) s.inp.bytes.length :=
  ⟨tRecastEv, by decide +kernel, waits_of (by decide) (by decide +kernel)⟩
theorem witness_WindowWrites_posted : ∃ s : State, s.postedBy (fnOf s.inp.part) = true ∧ s.inp.ok = false :=
  ⟨tEv {} { State.reset with host := { State.reset.host with posted := [⟨1, true, 0, []⟩] } }, by decide +kernel⟩
theorem witness_WindowWrites_forward : ∃ s : State, s.inp.fn = fnOf s.inp.part ∧
    s.host.posted.find? (fun u => u.fn == fnOf s.inp.part) = some ⟨fnOf s.inp.part, true, s.inp.off.toNat % 2 ^ 38, s.inp.bytes⟩ ∧
    hostFails s s.inp.part .hostWrite ((s.vfAt s.inp.part).wdbase + .ofNat 64 (s.inp.off.toNat % 2 ^ 38)) s.inp.bytes.length :=
  ⟨tEv { off := 8, bytes := [1], fn := 1 } { State.reset with host := { State.reset.host with posted := [⟨1, true, 8, [1]⟩] } },
    by decide +kernel, by decide +kernel, fails_of (by decide) (by decide +kernel)⟩
theorem witness_LaunchQueueRegisters : ∃ s : State, s.postedBy (fnOf s.inp.part) = false ∧
    (s.queueAt s.inp.part s.inp.queue).en = true ∧ (s.queueAt s.inp.part s.inp.queue).pi.toNat ≤ s.inp.word.toNat ∧
    s.inp.word.toNat = (s.queueAt s.inp.part s.inp.queue).ci.toNat + 2 ^ (s.queueAt s.inp.part s.inp.queue).log2n.toNat :=
  ⟨tEv { word := 64 } (tQueueOn tLq State.reset), by decide +kernel⟩
theorem witness_LaunchQueueRegisters_past : ∃ s : State, s.postedBy (fnOf s.inp.part) = false ∧
    (s.queueAt s.inp.part s.inp.queue).en = true ∧ (s.queueAt s.inp.part s.inp.queue).halt = none ∧
    s.inp.word.toNat = (s.queueAt s.inp.part s.inp.queue).ci.toNat + 2 ^ (s.queueAt s.inp.part s.inp.queue).log2n.toNat + 1 :=
  ⟨tEv { word := 65 } (tQueueOn tLq State.reset), by decide +kernel⟩
theorem witness_LaunchQueueRegisters_enable : ∃ s : State, s.postedBy (fnOf s.inp.part) = false ∧
    (s.queueAt s.inp.part s.inp.queue).en = false ∧ s.inp.word.getLsbD 31 = true ∧ s.inp.word.toNat % 32 = 6 ∧
    (s.queueAt s.inp.part s.inp.queue).base.toNat / 2 ^ 61 = 0 ∧
    (s.queueAt s.inp.part s.inp.queue).base.toNat % (64 * 2 ^ (s.inp.word.toNat % 32)) = 0 ∧
    (s.partCores s.inp.part).isEmpty = false :=
  ⟨tEv { word := 0x80000006 } (tCores (tQueueOn { tLq with en := false } State.reset)), by decide +kernel⟩
theorem witness_LaunchQueueRegisters_skip : ∃ (s : State) (k : Nat) (g : W), s.postedBy (fnOf s.inp.part) = false ∧
    (s.queueAt s.inp.part s.inp.queue).halt = some (k, g) ∧ (s.queueAt s.inp.part s.inp.queue).failcnt = 0xFFFF ∧
    (s.queueAt s.inp.part s.inp.queue).recs = [] :=
  ⟨tQueueOn { tLq with halt := some (1, 0), failcnt := 0xFFFF } State.reset, 1, 0, by decide +kernel⟩
/-- A launch record of graph 1 in ring slot 0, at address 0x1000 of the mapped range. -/
def tRecords : State := tQueueOn tLq (tMapped 0 [0x320] ({ State.reset with ms := { State.reset.ms with
  mem := ⟨[(0x11000, 1)], []⟩ } }.onSched fun h => { h with graphs := [tGraph] }))
theorem tr_of {x : Tr} {l : Loc} (h : (match x with
    | .ok m => decide (m = l)
    | _ => false) = true) : x = .ok l := by cases x <;> simp_all
/-- What record 1 of queue 0 is, read from place 0x11000. -/
abbrev tBytes (s : State) : List Byte := (span 0x11000 64).map s.readByte
/-- Whether a record's checks all pass but one, which is `e`; 0 for none. -/
abbrev checked (s : State) (e : Nat) : Prop :=
  (s.queueAt 0 0).en = true ∧ (s.queueAt 0 0).halt = none ∧ (s.queueAt 0 0).ci.toNat < (s.queueAt 0 0).pi.toNat ∧
  s.trOffset 0 0x1000 .hostRead .e .walk = .ok { place := 0x11000, attr := { idx := some 0 } } ∧
  s.mayAccess 0x320 0 .hostRead { place := 0x11000, attr := { idx := some 0 } } = true ∧
  s.poisonRead (span 0x11000 64) = none ∧ (e = 3 ↔ err3 s 0 (tBytes s)) ∧ (e = 4 ↔ err4 s 0 (tBytes s)) ∧
  (e = 5 ↔ err5 s 0 0 1 (tBytes s))
theorem checked_of {s : State} {e : Nat} (h : (s.queueAt 0 0).en = true ∧ (s.queueAt 0 0).halt = none ∧
      (s.queueAt 0 0).ci.toNat < (s.queueAt 0 0).pi.toNat) (t : (match s.trOffset 0 0x1000 .hostRead .e .walk with
        | .ok m => decide (m = { place := 0x11000, attr := { idx := some 0 } })
        | _ => false) = true) (a : ∀ i : Fin 32, s.accessOk (.slice .e i) 0x320 0 AKind.hostRead.right false = true)
    (p : s.poisonRead (span 0x11000 64) = none) (h3 : (e = 3 ↔ err3 s 0 (tBytes s))) (h4 : (e = 4 ↔ err4 s 0 (tBytes s)))
    (h5 : (e = 5 ↔ err5 s 0 0 1 (tBytes s))) : checked s e :=
  ⟨h.1, h.2.1, h.2.2, tr_of t, access_of (by decide) a, p, h3, h4, h5⟩
theorem witness_LaunchRecords : ∃ s : State, checked s 0 :=
  ⟨tRecords, checked_of (by decide +kernel) (by decide +kernel) (by decide +kernel) (by decide +kernel) (by decide +kernel)
    (by decide +kernel) (by decide +kernel)⟩
theorem witness_LaunchRecords_graph : ∃ s : State, checked s 4 :=
  ⟨tRecords.onSched fun h => { h with graphs := [] }, checked_of (by decide +kernel) (by decide +kernel) (by decide +kernel)
    (by decide +kernel) (by decide +kernel) (by decide +kernel) (by decide +kernel)⟩
/-- REDUN is 4; record 1 waits for itself. -/
theorem witness_LaunchRecords_bits : ∃ s : State, checked s 3 :=
  ⟨{ tRecords with ms := { tRecords.ms with mem := ⟨[(0x11000, 1), (0x11011, 4)], []⟩ } }, checked_of (by decide +kernel)
    (by decide +kernel) (by decide +kernel) (by decide +kernel) (by decide +kernel) (by decide +kernel) (by decide +kernel)⟩
theorem witness_LaunchRecords_wait : ∃ s : State, checked s 5 :=
  ⟨{ tRecords with ms := { tRecords.ms with mem := ⟨[(0x11000, 1), (0x11013, 1), (0x11018, 1)], []⟩ } }, checked_of
    (by decide +kernel) (by decide +kernel) (by decide +kernel) (by decide +kernel) (by decide +kernel) (by decide +kernel)
    (by decide +kernel)⟩
theorem denied_of {s : State} {m : BitVec 10} {p : PartId} {k : AKind} {l : Loc} (h : s.ms.access = []) (ho : l.own = false)
    (hp : l.place < 2 ^ 80) (hk : (k == .pref) = false) : s.mayAccess m p k l = false := by
  have d : decide (2 ^ 80 ≤ l.place) = false := decide_eq_false (by omega)
  have e : s.accessOk (targetOf l.place) m p k.right l.sys = false := by simp [State.accessOk, State.accessEntry, h, bitOf]
  simp only [State.mayAccess, ho, d, hk, e, Bool.or_false]
theorem witness_LaunchRecords_denied : ∃ (s : State) (a : Loc), (s.queueAt s.inp.part s.inp.queue).en = true ∧
    (s.queueAt s.inp.part s.inp.queue).halt = none ∧
    (s.queueAt s.inp.part s.inp.queue).ci.toNat < (s.queueAt s.inp.part s.inp.queue).pi.toNat ∧
    s.trOffset s.inp.part ((s.queueAt s.inp.part s.inp.queue).base + .ofNat 64 (64 * ((s.queueAt s.inp.part s.inp.queue).ci.toNat %
      2 ^ (s.queueAt s.inp.part s.inp.queue).log2n.toNat))).toNat .hostRead .e .walk = .ok a ∧
    s.mayAccess 0x320 s.inp.part .hostRead a = false :=
  ⟨tQueueOn tLq (tMapped 0 [] State.reset), { place := 0x11000, attr := { idx := some 0 } }, by decide +kernel,
    by decide +kernel, by decide +kernel, tr_of (by decide +kernel), denied_of (by decide +kernel) rfl (by decide) rfl⟩
theorem witness_FunctionResets : ∃ (s : State) (c : CoreId), ∃ i ∈ s.sched.insts, i.vf = s.inp.part ∧
    (s.coreAt c).node.inst = some i.id := ⟨tNode 1 id, 0, tInst, by decide +kernel⟩

/-! ### The schedulers -/

/-- Record 1 of queue 0 of VF 0, for graph 1. -/
def tRec : Rec := ⟨1, 1, 0x77, 0, 1, false, [], 0, false, false, false⟩
def tStart : State := tQueueOn { tLq with recs := [tRec], ci := 1 } (State.reset.onSched fun h => { h with graphs := [tGraph] })
theorem test_record_start : ((nextOf (exec .recordStart tStart)).sched.insts.map fun i => (i.id, i.node, i.args, i.state)) =
    [(0, 0, [0x77, 1, 0, 0, 0, 0, 0], .ready)] := by decide +kernel
/-- A BOF file (13_assembly R281) of sections (TYPE, LINK, bytes) and symbols (SECT, KIND, VALUE). -/
def tFile (secs : List (Nat × Nat × List Byte)) (syms : List (Nat × Nat × Nat)) : List Byte :=
  let so := 64 + 32 * secs.length
  let at_ := so + 24 * syms.length
  let body := secs.flatMap (·.2.2)
  [0x42, 0x4F, 0x46, 0x5A] ++ leBytes 2 1 ++ leBytes 2 1 ++ leBytes 4 secs.length ++ leBytes 4 syms.length ++ leBytes 8 64 ++
  leBytes 8 so ++ leBytes 16 0 ++ leBytes 8 (at_ + body.length) ++ leBytes 8 0 ++
  (secs.foldl (fun (a : List Byte × Nat) x => (a.1 ++ leBytes 4 0 ++ leBytes 2 x.1 ++ leBytes 2 x.2.1 ++ leBytes 8 a.2 ++
    leBytes 8 x.2.2.length ++ leBytes 8 0, a.2 + x.2.2.length)) ([], at_)).1 ++
  (syms.flatMap fun y => leBytes 4 0 ++ leBytes 2 y.1 ++ leBytes 2 y.2.1 ++ leBytes 8 y.2.2 ++ leBytes 8 0) ++ body
/-- A .node section of one node of one bundle, whose operand 0 is row 2, column 3, lift limits 0:1. -/
def tNodeSect (entry nopnd : Nat) : List Byte :=
  leBytes 4 0 ++ leBytes 2 1 ++ leBytes 2 entry ++ (if nopnd = 0 then leBytes 8 0 else leBytes 8 0x20003) ++ leBytes 56 0 ++
  leBytes 4 nopnd ++ leBytes 14 1 ++ leBytes 2 0x80 ++ leBytes 52 0
/-- One extent of role Common and 64 KiB, its operand's relocation of a kind at OPND0's handle, and perhaps one more section. -/
def tImage (entry kind : Nat) (more : List (Nat × Nat × List Byte)) : List Byte :=
  tFile ([(1, 0, leBytes 16 0x80000000), (7, 0, tNodeSect entry 1), (6, 0, leBytes 8 0x10000 ++ leBytes 8 0 ++ leBytes 48 0xFFFF),
    (12, 1, leBytes 8 12 ++ leBytes 4 1 ++ leBytes 12 kind)] ++ more) [(1, 1, 0), (2, 2, 0)]
def tPlaced (f : List Byte) (s : State) : State := tEv { bytes := f, places := [⟨5, 0, 0x10000⟩] } s
def tLoaded (f : List Byte) : List Graph := (nextOf (exec .graphLoad (tPlaced f (tCores State.reset)))).sched.graphs
/-- R282: kind 2 puts the extent's handle, GEN 1 and entry 5, into the operand. -/
theorem test_graph_load : (tLoaded (tImage 0 2 [])).map (fun g => (g.handle, g.handles, g.image.nodes.map (·.opnds))) =
    [(1, [0x1005], [[⟨0x1005, 2, 3⟩]])] := by decide +kernel
/-- R281, R282: a relocation of the linker's and a reserved TYPE are refused; so is an ENTRY past the segment (R106). -/
theorem test_graph_refused : tLoaded (tImage 0 8 []) = [] ∧ tLoaded (tImage 0 2 [(13, 0, [])]) = [] ∧
    tLoaded (tImage 1 2 []) = [] := by decide +kernel
/-- One ready instance in die E's pool, and core 0 for it. -/
def tReady (n : NodeDesc) (i : Inst) : State := tCores (State.reset.onSched fun h => { h with
  graphs := [⟨1, 0, ⟨[n], [], [], [], [], none⟩, []⟩]
  insts := [{ i with state := .ready, pooled := true }], nextInst := 1, descs := h.descs.set 0 [(1, 0)] })
/-- R116: a start 126 cycles after the decision, and 81 more for a segment of one bundle that the core does not hold. -/
theorem test_dispatch : (nextOf (exec .dispatchDecision { tReady tDesc tInst with cyc := 8 })).sched.insts.map (·.state) =
    [.dispatched 0 none 215] := by decide +kernel
theorem test_summary : ((nextOf (exec .freeCoreSummary { State.reset with cyc := 64 })).sched.summary.get 1).length = 128 := by
  decide +kernel
/-- A dispatched instance whose time has come. -/
def tDispatched : State := (tNode 1 fun x => { x with seq := { x.seq with mode := .idle } }).onSched fun h =>
  { h with insts := [{ tInst with state := .dispatched 0 none 0, args := [0x77] }] }
theorem test_node_start : ((nextOf (exec .nodeStart tDispatched)).core.seq.mode, (nextOf (exec .nodeStart tDispatched)).core.regs.getS 1) =
    (.running, 0x77) := by decide +kernel
/-- R119: 24 cycles after b.task of node 0. -/
def tTask (n : Nat) : State := { (tNode 1 fun x => x.onRegs (·.mark .s 20 .empty)).onSched (fun h =>
  { h with tasks := [⟨0, 0, 0, 20, n, [], 0, none⟩] }) with cyc := 24 }
theorem test_task_insert : (nextOf (exec .taskPoolInsert (tTask 0))).core.regs.getS 20 = 0 ∧
    (nextOf (exec .taskPoolInsert (tTask 0))).sched.insts.length = 2 ∧
    (nextOf (exec .taskPoolInsert (tTask 5))).core.regs.getS 20 = 1 := by decide +kernel
/-- Cores 0 and 1 are held at entry 3; swap says whether they exchange their banks. -/
def tRoll (swap : Bool) : State :=
  let hold := fun (x : Core) => { x with seq := { x.seq with held := some (3, swap) } }
  ((tEv { n := 3 } (tNode 2 hold)).onCore 1 hold).onSched fun h => { h with groups := [(3, ⟨3, 7, true, 0, false⟩)] }
theorem test_roll : (nextOf (exec .rollCallComplete (tRoll true))).sched.groups.map (·.2.phase) = [8] ∧
    ((nextOf (exec .rollCallComplete (tRoll true))).coreAt 1).live1 = true := by decide +kernel
theorem test_swap : ((nextOf (exec .forcedSwap (tNode 1 id))).partAt 0).swapped = true ∧
    (nextOf (exec .forcedSwap (tNode 1 id))).core.seq.mode = .halted := by decide +kernel
/-- Partition 0 is being swapped out. -/
def tSwapped : State := nextOf (exec .forcedSwap (tNode 1 id))
theorem test_resume : ((nextOf (exec .swapResume (State.reset.onPart 0 fun p => { p with swapped := true }))).partAt 0).swapped = false := by
  decide +kernel
def tWatched : State := { (tNode 1 id).onPart 0 fun p => { p with wdog := 1 } with cyc := 96000 }
theorem test_watchdog : ((nextOf (exec .watchdogExpiry tWatched)).sched.insts.map (·.expired)) = [true] := by decide +kernel
/-- A failed node holds core 0; partition 0's dump area is given. -/
def tDump (base : W) : State := ((tNode 1 id).onSched fun h => { h with insts := [{ tInst with state := .failed }] }).onPart 0
  fun p => { p with dumpbase := base, dumpsz := 8 }
theorem test_dump : ((nextOf (exec .dumpWritten (tDump 0x1000))).partAt 0).dumpPend = true ∧
    ((nextOf (exec .dumpWritten (tDump 0x1000))).partAt 0).dumpno = 1 := by decide +kernel
theorem fault_of {o : Out} {f : Fault} (h : (match o with
    | .fault g => decide (g = f)
    | _ => false) = true) : o = .fault f := by cases o <;> simp_all
theorem test_dump_hole : exec .dumpWritten (tDump 0x8000000000) = .fault (.hole 0x8000000000) := fault_of (by decide +kernel)

theorem witness_RecordsStart : ∃ (s : State) (r : Rec) (g : Graph),
    ((s.queueAt s.inp.part s.inp.queue).old ++ (s.queueAt s.inp.part s.inp.queue).recs).find? (fun r => !r.started && !r.ended) =
      some r ∧ s.graphAt r.graph.toNat = some g ∧ r.tt = false ∧ g.image.nodes ≠ [] ∧
    (∀ w ∈ r.waits, w.2 ≤ (s.queueAt s.inp.part (toQ w.1)).ct.toNat) ∧ g.image.groups.length ≤ s.freeEntries.length ∧
    (s.partAt s.inp.part).swapped = false ∧ ∀ i ∈ s.sched.insts, i.id < s.sched.nextInst :=
  ⟨tStart, tRec, tGraph, by decide +kernel⟩
/-- The record waits for its own queue's third. -/
theorem witness_RecordsStart_waits : ∃ (s : State) (r : Rec) (g : Graph),
    ((s.queueAt s.inp.part s.inp.queue).old ++ (s.queueAt s.inp.part s.inp.queue).recs).find? (fun r => !r.started && !r.ended) =
      some r ∧ s.graphAt r.graph.toNat = some g ∧ ¬ ∀ w ∈ r.waits, w.2 ≤ (s.queueAt s.inp.part (toQ w.1)).ct.toNat :=
  ⟨tQueueOn { tLq with recs := [{ tRec with waits := [(0, 3)] }], ci := 1 } (State.reset.onSched fun h => { h with
    graphs := [tGraph] }), { tRec with waits := [(0, 3)] }, tGraph, by decide +kernel⟩
theorem witness_ImageFiles : ∃ s : State, leAt s.inp.bytes 8 4 = 5 ∧
    leAt s.inp.bytes (leAt s.inp.bytes 16 8 + 32 * 4 + 4) 1 = 13 := ⟨tPlaced (tImage 0 2 [(13, 0, [])]) State.reset, by decide +kernel⟩
theorem witness_ImageFiles_reloc : ∃ (s : State) (b : Bof), bofOf s.inp.bytes = some b ∧ ∃ x ∈ b.relocs, x.kind ≠ 2 ∧ x.kind ≠ 3 :=
  ⟨tPlaced (tImage 0 8 []) State.reset, (bofOf (tImage 0 8 [])).get (by decide +kernel), by decide +kernel⟩
theorem witness_ImageFiles_magic : ∃ s : State, s.inp.bytes.take 4 ≠ [0x42, 0x4F, 0x46, 0x5A] := ⟨State.reset, by decide +kernel⟩
theorem witness_ImageFiles_signature : ∃ (s : State) (x : BofSect), sigOf s.inp.bytes = some x ∧ leAt x.bytes 0 1 = 3 :=
  ⟨tPlaced (tImage 0 2 [(11, 0, [3])]) State.reset, (sigOf (tImage 0 2 [(11, 0, [3])])).get (by decide +kernel), by decide +kernel⟩
theorem witness_ImageLimits : ∃ (s : State) (x : GraphImage × List (ExtentPlace × Range)) (n : NodeDesc),
    s.imageFor = some x ∧ x.1.nodes[0]? = some n ∧ n.code.length ≤ n.entry :=
  ⟨tPlaced (tImage 1 2 []) (tCores State.reset), ((tPlaced (tImage 1 2 []) (tCores State.reset)).imageFor).get (by decide +kernel),
    ((((tPlaced (tImage 1 2 []) (tCores State.reset)).imageFor).get (by decide +kernel)).1.nodes[0]?).get (by decide +kernel),
    by decide +kernel⟩
theorem witness_GraphLoads : ∃ (s : State) (x : GraphImage × List (ExtentPlace × Range)), s.imageFor = some x ∧
    s.sigOk s.inp.bytes = true ∧ s.imageOk s.inp.part x.1 (x.2.map fun y => handleOf y.1.index.val y.2) = true :=
  ⟨tPlaced (tImage 0 2 []) (tCores State.reset), ((tPlaced (tImage 0 2 []) (tCores State.reset)).imageFor).get (by decide +kernel),
    by decide +kernel⟩
theorem witness_GraphLoads_bad : ∃ s : State, s.imageFor = none :=
  ⟨tPlaced (tImage 0 8 []) (tCores State.reset), by decide +kernel⟩
theorem witness_DispatchOrder : ∃ (s : State) (l : List Inst), (∃ i ∈ l, ∃ j ∈ l, i.vf ≠ j.vf) ∧ ∃ i ∈ l, s.weight .e i.vf ≠ 0 :=
  ⟨State.reset, [tInst, { tInst with vf := 1 }], by decide +kernel⟩
theorem witness_Placements : ∃ (s : State) (i : Inst) (n : NodeDesc), n.pin.getLsbD 15 = true ∧ s.placements i n .e [] = [0] :=
  ⟨tReady { tDesc with pin := 0x8000 } tInst, tInst, { tDesc with pin := 0x8000 }, by decide +kernel⟩
theorem witness_Dispatch : ∃ (s : State) (i : Inst) (cr : Vector Nat 8) (n : NodeDesc),
    8 = (s.cyc - s.sched.lastDecision.get (dieIx s.inp.die)).toNat ∧
    (let u := s.fillPool
     let pool := u.inOrder (u.sched.insts.filter fun i =>
       i.state == .ready && i.pooled && i.die == s.inp.die && !(u.partAt i.vf).swapped)
     let can := pool.filter fun i => (u.descOf i).any fun n => !(u.placements i n s.inp.die []).isEmpty
     let kept := fun (i : Inst) => u.sched.reserved.any (·.2.1 == i.id)
     (pool.find? fun i => (u.descOf i).any (u.pinBad i)) = none ∧
     u.pickNode s.inp.die (can.filter kept ++ can.filter fun i => !kept i) = some (i, cr) ∧
     u.descOf i = some n ∧ u.instAt i.id = some i ∧ 1 ≤ i.redun ∧ i.redun ≤ 3 ∧ n.code.length ≤ 4096 ∧ s.cyc.toNat < 2 ^ 63) :=
  ⟨{ tReady tDesc tInst with cyc := 8 }, { tInst with state := .ready, pooled := true }, (Vector.replicate 8 0).set 0 1, tDesc,
    by decide +kernel⟩
/-- The node is pinned to a core that the partition does not own. -/
theorem witness_Dispatch_pin : ∃ (s : State) (i : Inst), 8 = (s.cyc - s.sched.lastDecision.get (dieIx s.inp.die)).toNat ∧
    (let u := s.fillPool
     ((u.inOrder (u.sched.insts.filter fun i =>
       i.state == .ready && i.pooled && i.die == s.inp.die && !(u.partAt i.vf).swapped)).find? fun i =>
         (u.descOf i).any (u.pinBad i)) = some i) ∧ (s.partAt i.vf).fatal = false :=
  ⟨{ tReady { tDesc with pin := 0x80FF } tInst with cyc := 8 }, { tInst with state := .ready, pooled := true }, by decide +kernel⟩
theorem witness_Dispatch_early : ∃ s : State, (s.cyc - s.sched.lastDecision.get (dieIx s.inp.die)).toNat = 7 :=
  ⟨{ State.reset with cyc := 7 }, by decide +kernel⟩
theorem witness_PoolMoves : ∃ s : State, 64 = (s.cyc - s.sched.lastSummary.get (dieIx s.inp.die)).toNat :=
  ⟨{ State.reset with cyc := 64 }, by decide +kernel⟩
/-- Core 128 of die W is free for the node; those of die E's classroom 0 are not. -/
def tMove : State :=
  let i : Inst := { tInst with state := .ready, pooled := true }
  let s := State.reset.onSched fun h => { h with graphs := [tGraph], insts := [i], summary := h.summary.set 0 [128] }
  { s with fw := { s.fw with partmap := #v[0x101, 0], absent := (List.range 16).map toCore }, cyc := 3000, inp := { n := 0 } }
theorem witness_PoolMoves_move : ∃ (s : State) (i : Inst) (n : NodeDesc), s.instAt s.inp.n = some i ∧ s.descOf i = some n ∧
    i.state = .ready ∧ i.pooled = true ∧ i.redun ≤ 1 ∧ n.pin.getLsbD 15 = false ∧ 3000 = (s.cyc - i.entered).toNat ∧
    s.placements i n i.die [] = [] ∧ s.poolOpen (otherDie i.die) i.vf = true ∧
    (128 ∈ s.starts i n (otherDie i.die) ∧ s.possible i.vf i.redun (seatsOf n) 128 = true ∧
      ∀ k ∈ runFrom 128 (seatsOf n), k ∈ s.sched.summary.get (dieIx i.die) ∧ s.degraded k = false) :=
  ⟨tMove, { tInst with state := .ready, pooled := true }, tDesc, by decide +kernel⟩
/-- A gang of two has waited a millisecond. -/
def tReserve : State := { tReady { tDesc with demand := 0x42 } tInst with cyc := 1500000 }
theorem witness_PoolMoves_reserve : ∃ (s : State) (i : Inst) (n : NodeDesc), s.instAt s.inp.n = some i ∧ s.descOf i = some n ∧
    i.state = .ready ∧ i.pooled = true ∧ 1500000 = (s.cyc - i.entered).toNat ∧ n.demand.toNat / 64 ≠ 0 ∧
    (s.inOrder (s.sched.insts.filter fun j => j.vf == i.vf && j.die == i.die && s.mayReserve j)).head?.map (·.id) = some i.id ∧
    s.sched.reserved = [] ∧ 0 ∈ s.starts i n i.die ∧ s.possible i.vf i.redun (seatsOf n) 0 = true ∧
    ∀ k ∈ withReplicas i.redun (runFrom 0 (seatsOf n)), s.degraded k = false :=
  ⟨tReserve, { tInst with state := .ready, pooled := true }, { tDesc with demand := 0x42 }, by decide +kernel⟩
theorem witness_NodesStart : ∃ (s : State) (i : Inst) (n : NodeDesc) (g : Graph), s.instAt s.inp.n = some i ∧
    i.state = .dispatched 0 none 0 ∧ s.descOf i = some n ∧ s.graphAt i.graph = some g ∧ i.tt = false ∧
    (s.partAt i.vf).swapped = false ∧ i.saved = none ∧ i.args.length < 64 ∧ n.opnds = [] :=
  ⟨tDispatched, { tInst with state := .dispatched 0 none 0, args := [0x77] }, tDesc, tGraph, by decide +kernel⟩
/-- The node's operand names no range entry. -/
theorem witness_NodesStart_handle : ∃ (s : State) (i : Inst) (n : NodeDesc), s.instAt s.inp.n = some i ∧
    i.state = .dispatched 0 none 0 ∧ s.descOf i = some n ∧ (s.partAt i.vf).swapped = false ∧ (s.partAt i.vf).fatal = false ∧
    ∃ o ∈ n.opnds, (s.partAt i.vf).rangeIx (o.handle.toNat % 2048) = none :=
  ⟨tDispatched.onSched fun h => { h with
      graphs := [⟨1, 0, ⟨[{ tDesc with opnds := [⟨5, 0, 0⟩] }], [], [], [], [], none⟩, []⟩] },
    { tInst with state := .dispatched 0 none 0, args := [0x77] }, { tDesc with opnds := [⟨5, 0, 0⟩] }, by decide +kernel⟩
theorem witness_TaskInserts : ∃ (s : State) (q : TaskReq) (me : Inst) (n : NodeDesc),
    s.sched.tasks.find? (·.core == s.inp.core) = some q ∧ s.instAt q.inst = some me ∧ me.tt = false ∧
    (∀ i ∈ s.sched.insts, i.id < s.sched.nextInst) ∧
    (s.coreAt q.core).node.inst = some q.inst ∧ (s.coreAt q.core).node.seat = q.seat ∧ (s.coreAt q.core).redun.retired = false ∧
    (s.coreAt q.core).csr.self = (s.coreAt q.core).csr.lead ∧ 24 = (s.cyc - q.at_).toNat ∧
    ((s.graphAt me.graph).bind fun g => g.image.nodes[q.node]?) = some n ∧
    s.poolOpen (s.poolDie { me with node := q.node, redun := max n.redun.toNat ((s.recOf me).elim 0 (·.redun)) } (dieOf q.core))
      me.vf = true :=
  ⟨(tTask 0).onSched fun h => { h with nextInst := 1 }, ⟨0, 0, 0, 20, 0, [], 0, none⟩, tInst, tDesc, by decide +kernel⟩
/-- R111: 4,096 instances hold every entry; here the freed entries of this cycle stand for them. -/
theorem witness_TaskInserts_full : ∃ (s : State) (q : TaskReq), s.sched.tasks.find? (·.core == s.inp.core) = some q ∧
    24 = (s.cyc - q.at_).toNat ∧ s.poolOpen .e 0 = false :=
  ⟨(tTask 0).onSched fun h => { h with freed := List.replicate 4096 (24, .e, 0) }, ⟨0, 0, 0, 20, 0, [], 0, none⟩, by decide +kernel⟩
theorem witness_RollCalls : ∃ (s : State) (g : GroupEnt), s.sched.groups.find? (·.1 == .ofNat 8 s.inp.n) = some (.ofNat 8 s.inp.n, g) ∧
    g.members ≠ 0 ∧ (s.partAt g.part).swapped = false ∧
    (let l := ((allCores.filter fun c => g.members.getLsbD c.val).flatMap s.memberCores).eraseDups
     (∀ c ∈ l, (s.coreAt c).seq.held = some (.ofNat 8 s.inp.n, true)) ∧
     ∀ c ∈ l, (s.coreAt c).openIds = [] ∧ s.shadowCopy c 0 = false ∧ s.shadowCopy c 1 = false ∧
       (s.coreAt c).matrix.run = none) :=
  ⟨tRoll true, ⟨3, 7, true, 0, false⟩, by decide +kernel⟩
/-- Core 2, which runs nothing, is a member too. -/
theorem witness_RollCalls_waits : ∃ (s : State) (g : GroupEnt) (c : CoreId),
    s.sched.groups.find? (·.1 == .ofNat 8 s.inp.n) = some (.ofNat 8 s.inp.n, g) ∧
    c ∈ ((allCores.filter fun c => g.members.getLsbD c.val).flatMap s.memberCores).eraseDups ∧
    (s.coreAt c).seq.held = none ∧ (s.coreAt c).seq.mode = .idle :=
  ⟨(tRoll false).onSched fun h => { h with groups := [(3, ⟨7, 7, true, 0, false⟩)] }, ⟨7, 7, true, 0, false⟩, 2, by decide +kernel⟩
theorem witness_Swaps : ∃ (s : State) (i : Inst), (s.partAt s.inp.part).swapped = false ∧ s.instOf 0 = some i ∧ i.vf = s.inp.part ∧
    (s.coreAt 0).seq.mode = .running := ⟨tNode 1 id, tInst, by decide +kernel⟩
theorem every_core {s : State} {q : Core → Bool} (h : s.cores.toList.all q = true) (c : CoreId) : q (s.coreAt c) = true :=
  List.all_eq_true.1 h _ (by simp [State.coreAt, vector_get])
theorem every_number {q : CoreId → Bool} (h : allCores.all q = true) (c : CoreId) : q c = true :=
  List.all_eq_true.1 h c (by simp [allCores])
theorem witness_Swaps_quiesce : ∃ (s : State) (i : Inst), (s.partAt s.inp.part).swapped = true ∧ s.instOf 0 = some i ∧
    i.vf = s.inp.part ∧ (∀ c, s.quiet c = true) ∧ ∀ i ∈ s.sched.insts, i.expired = false :=
  ⟨tSwapped, tInst, by decide +kernel, by decide +kernel, by decide +kernel, every_number (by decide +kernel), by decide +kernel⟩
/-- A context of partition 0 in its satchel. -/
def tKept : Satchel := ⟨0, 0, { (tSwapped.coreAt 0) with scratch := Memory.empty }, [], 0, true⟩
theorem witness_Resumes : ∃ s : State, s.fw.hot = false ∧ (∀ c, s.instOf c = none) ∧
    (∀ q ∈ s.satchels, q.part = s.inp.part → q.leaving = false ∧ q.ready.toNat < 2 ^ 63) ∧ s.satchels ≠ [] :=
  ⟨{ State.reset.onPart 0 fun p => { p with swapped := true } with satchels := [{ tKept with leaving := false }] },
    by decide +kernel, fun c => by
      have h := every_core (s := { State.reset.onPart 0 fun p => { p with swapped := true } with
        satchels := [{ tKept with leaving := false }] }) (q := fun x => x.node.inst.isNone) (by decide +kernel) c
      rw [Option.isNone_iff_eq_none] at h
      rw [State.instOf, h, Option.bind_none], by decide +kernel⟩
theorem witness_Resumes_node : ∃ (s : State) (q : Satchel) (i : Inst) (n : NodeDesc), s.fw.hot = false ∧
    (s.partAt s.inp.part).swapped = false ∧ s.satchels = [q] ∧ q.part = s.inp.part ∧ q.leaving = true ∧ q.poison = [] ∧
    q.ctx.node.inst = some i.id ∧ (s.sched.insts.filter fun j => j.vf == s.inp.part && j.state == .running) = [i] ∧
    s.descOf i = some n ∧ i.vf = s.inp.part ∧ q.ready.toNat ≤ s.cyc.toNat ∧ i.tt = false ∧
    s.placements { i with die := .e } n .e [] ++ s.placements i n .w [] ≠ [] :=
  ⟨{ tCores (State.reset.onSched fun h => { h with graphs := [tGraph], insts := [tInst] }) with satchels := [tKept] }, tKept, tInst,
    tDesc, by decide +kernel, by decide +kernel, rfl, by decide +kernel⟩
theorem witness_Watchdogs : ∃ (s : State) (i : Inst), s.instAt s.inp.n = some i ∧ i.state = .running ∧
    (s.partAt i.vf).wdog ≠ 0 ∧ (s.partAt i.vf).swapped = false ∧
    96000 * (s.partAt i.vf).wdog.toNat = (s.cyc - i.started).toNat ∧
    (0 ∈ s.instCores i.id ∧ (s.coreAt 0).node.stood = false ∧ (s.coreAt 0).redun.retired = false) :=
  ⟨tWatched, tInst, by decide +kernel⟩
theorem witness_Watchdogs_fails : ∃ (s : State) (i : Inst),
    (s.sched.insts.filter fun j => j.expired && j.vf == s.inp.part && j.state == .running) = [i] ∧
    (s.partAt s.inp.part).swapped = true ∧ (∀ c, s.quiet c = true) ∧ (s.partAt s.inp.part).fatal = false :=
  ⟨nextOf (exec .watchdogExpiry tWatched), { tInst with expired := true }, by decide +kernel, by decide +kernel,
    every_number (by decide +kernel), by decide +kernel⟩
theorem witness_Dumps : ∃ (s : State) (i : Inst), (s.sched.insts.filter fun i => i.vf == s.inp.part && i.state == .failed &&
      (s.instCores i.id).length + (s.satchels.filter fun t => t.ctx.node.inst == some i.id).length != 0).head? = some i ∧
    (s.partAt s.inp.part).dumpbase.toNat < 0x8000000000 ∧ (s.partAt s.inp.part).dumpPend = false :=
  ⟨tDump 0x7FFFFFFFF8, { tInst with state := .failed }, by decide +kernel⟩
theorem witness_Dumps_hole : ∃ s : State, (∃ i ∈ s.sched.insts, i.state = .failed ∧ s.instCores i.id ≠ []) ∧
    ¬ ((s.partAt s.inp.part).dumpbase.toNat < 0x8000000000 ∨ paInHeath (s.partAt s.inp.part).dumpbase.toNat = true) :=
  ⟨tDump 0x8000000000, by decide +kernel⟩
theorem witness_Dumps_none : ∃ s : State, s.sched.insts = [] := ⟨State.reset, by decide +kernel⟩

/-! ### What reaches a core between its groups -/

/-- The trap vector is set, to bundle 5 of half 0. -/
def tVector (f : Core → Core) : State := tRun fun x => f { x with csr := { x.csr with tvec := 0x8000000000000014 } }
def tTrap : Trap := { code := 0x0E, info := 9, async := true, engine := 1 }
theorem test_pending : (nextOf (exec .trapEntry (tVector fun x => { x with seq := { x.seq with pend := [tTrap] } }))).core.csr.trapinfo = 9 ∧
    (nextOf (exec .trapEntry (tVector fun x => { x with seq := { x.seq with pend := [tTrap] } }))).core.seq.pc.bundle = 5 := by
  decide +kernel
/-- R205: the head command of context 1 starts. -/
theorem test_engine_start : ((nextOf (exec .engineCommandStart (tEv { eng := .copy1 } (tRun fun x =>
    { x with copy := x.copy.set 1 ⟨[tCopyCmd (.cCopy tCopyF)], none⟩ })))).core.copy.get 1).run.map (·.cmd.num) = some 1 := by
  decide +kernel
theorem test_fault_report : (nextOf (exec .engineFaultReport (tEv { eng := .copy0 } (tEngine { tCopyRun (.cCopy tCopyF) .reqs with
    stop := some tTrap, bytes := 64 })))).core.csr.cprog.get 0 = 0x8000000000000040 := by decide +kernel
/-- Core 0 is time-triggered, in cycle cnt of a frame of 10; its next group is a timed header of stamp 5. -/
def tTimed (cnt : BitVec 12) : State := tRun fun x => { x with
  csr := { x.csr with tt := true, flen := 10, cnt := cnt }
  halves := x.halves.set 0 { x.halves.get 0 with cells := [(0, 0xF4014000)] } }
/-- The stamp of the next group of a core. -/
def stampOf (x : Except Violation Group) : Option (BitVec 12) :=
  match x with
  | .ok g => g.stamp
  | .error _ => none
theorem group_of {x : Except Violation Group} {k : BitVec 12} (h : stampOf x = some k) : ∃ g, x = .ok g ∧ g.stamp = some k := by
  cases x <;> simp_all [stampOf]
def tTimedAt (n : BitVec 12) : State := { tTimed n with cur := (tTimed n).inp.core, issue := Issue.idle }
theorem timed_stamp : stampOf (tTimedAt 5).nextGroup = some 5 ∧ stampOf (tTimedAt 6).nextGroup = some 5 := by decide +kernel
theorem test_overrun : ((nextOf (exec .stampOverrun (tTimed 6))).core.csr.trapinfo.toNat / 2 ^ 32,
    (nextOf (exec .stampOverrun (tTimed 6))).core.csr.trapcause.toNat % 256) = (5, 0x13) ∧
    (nextOf (exec .stampOverrun (tTimed 5))).core.seq.mode = .running := by decide +kernel
/-- A value for s4 is due in cycle 2. -/
def tFills (src : FillSrc) (t : W) : State := { tEv { reg := 4 } (tRun fun x =>
  { x.onRegs (·.mark .s 4 .empty) with fills := [⟨.s, 4, src, 2⟩] }) with cyc := t }
theorem test_fill : (nextOf (exec .producerFill (tFills (.value 9 fNX) 2))).core.regs.getS 4 = 9 ∧
    (nextOf (exec .producerFill (tFills (.value 9 fNX) 2))).core.csr.fpflags = fNX ∧
    (nextOf (exec .producerFill (tFills (.value 9 fNX) 1))).core.regs.statusS 4 = .empty := by decide +kernel
theorem test_promise_write : (nextOf (exec .promiseWrite (tFills (.value 9 0) 2))).core.regs.getS 4 = 9 ∧
    (nextOf (exec .getpWrite (tFills (.getp 2 0 (some 7)) 2))).core.regs.getS 4 = 7 := by decide +kernel
def tLoad : LoadReq where
  id := 1
  dst := some (.s, 4)
  tag := 0
  bytes := [(0, some 0x34), (1, some 0xFF)]
  kind := .scalar 2 true
  acq := false
  scope := 0
  left := []
  fwd := none
  fences := []
  rels := []
  laid := []
def tLoadS (l : List LoadReq) (st : List StoreReq) : State :=
  tEv { n := 1 } (tRun fun x => { x.onRegs (·.mark .s 4 .empty) with loads := l, stores := st })
theorem test_load_return : (nextOf (exec .loadDataReturn (tLoadS [tLoad] []))).core.regs.getS 4 = 0xFFFFFFFFFFFFFF34 ∧
    (nextOf (exec .loadDataReturn (tLoadS [{ tLoad with left := [7] }] []))).core.regs.statusS 4 = .empty := by decide +kernel
def tStoreReq : StoreReq := ⟨1, [(0, 5, 0xFF)], false, 0, true, [], 0, []⟩
theorem test_write_ack : (nextOf (exec .writeAcknowledgement (tLoadS [] [tStoreReq]))).core.stores = [] := by decide +kernel
/-- Core 0 and core 128 are replicas that have come to a compare point with the signatures given. -/
def tReplicas (a b : W) : State :=
  let f := fun (self : BitVec 2) (sig : W) (x : Core) => { x with
    seq := { x.seq with mode := .running }, node := { x.node with inst := some 0, replica := self.toNat }
    csr := { x.csr with nrep := 2, self := self, lead := 0 }, redun := { x.redun with arrived := some (0, none), sig := sig } }
  let s := ((State.reset.onSched fun h => { h with graphs := [tGraph], insts := [{ tInst with redun := 2 }] }).onCore 0 (f 0 a))
  { s.onCore 128 (f 1 b) with cyc := 24 }
theorem test_verdict : verdict [((0 : CoreId), (1 : BitVec 64)), (1, 1), (2, 3)] = .retire 2 ∧
    verdict [((0 : CoreId), (1 : BitVec 64)), (1, 2)] = .mismatch := by decide +kernel
/-- R182, R186: the verdict comes 24 cycles after the arrivals; the follower, replica 1, differs at compare 1. -/
theorem test_compare : (nextOf (exec .compareVerdict (tReplicas 5 5))).core.redun.agreed = true ∧
    (nextOf (exec .compareVerdict { tReplicas 5 5 with cyc := 23 })).core.redun.agreed = false ∧
    (nextOf (exec .compareVerdict (tReplicas 5 6))).core.csr.trapinfo = 0x0040000000000001 := by decide +kernel
theorem test_forwarded : (nextOf (exec .forwardedValueArrive ((tFills (.forwarded 3) 0).mapCore fun x =>
    { x with redun := { x.redun with inflight := [(3, 9, 0)] } }))).core.regs.getS 4 = 9 := by decide +kernel
theorem test_slack_release : (nextOf (exec .slackStallRelease (tRun fun x =>
    { x with csr := { x.csr with limit := 1, debt := 5 } }))).core.csr.debt = 0 ∧
    (nextOf (exec .sleepWake State.reset)).order = [.seq 0] := by decide +kernel
/-- Core 0 has signalled 7 in cycle 10; core 1 is on its die, core 128 is not. -/
def tSignal (d : CoreId) (t : W) : State := { tEv { dst := d } (tNode 1 fun x => { x with tsLog := [(10, 7)] }) with cyc := t }
theorem test_ts : ((nextOf (exec .tsUpdateArrive (tSignal 1 18))).coreAt 1).tsSeen = [(0, 7)] ∧
    ((nextOf (exec .tsUpdateArrive (tSignal 128 49))).coreAt 128).tsSeen = [] := by decide +kernel

theorem witness_PendingTraps : ∃ (s : State) (f : Trap) (r : List Trap), (s.coreAt s.inp.core).live = true ∧
    (s.coreAt s.inp.core).csr.nrep.toNat ≤ 1 ∧ (s.coreAt s.inp.core).redun.traps = [] ∧
    (s.coreAt s.inp.core).seq.pend = f :: r ∧ (s.coreAt s.inp.core).csr.hm = false ∧
    (s.coreAt s.inp.core).csr.tvec.getLsbD 63 = true ∧ f.cls ≠ .f ∧ (s.coreAt s.inp.core).fills = [] :=
  ⟨tVector fun x => { x with seq := { x.seq with pend := [tTrap] } }, tTrap, [], by decide +kernel⟩
/-- TVEC is not valid. -/
theorem witness_PendingTraps_fails : ∃ (s : State) (f : Trap) (r : List Trap) (i : Inst), (s.coreAt s.inp.core).live = true ∧
    (s.coreAt s.inp.core).csr.nrep.toNat ≤ 1 ∧ (s.coreAt s.inp.core).redun.traps = [] ∧
    (s.coreAt s.inp.core).seq.pend = f :: r ∧ (s.coreAt s.inp.core).csr.hm = false ∧
    (s.coreAt s.inp.core).csr.tvec.getLsbD 63 = false ∧ f.cls ≠ .f ∧ (s.coreAt s.inp.core).fills = [] ∧ dumps s s.inp.core i :=
  ⟨tNode 1 fun x => { x with seq := { x.seq with pend := [tTrap] } }, tTrap, [], tInst, by decide +kernel⟩
/-- Core 0 runs the node. -/
def tTimedNode (n : BitVec 12) : State := ((tTimed n).onSched fun h => { h with graphs := [tGraph], insts := [tInst] }).mapCore
  fun x => { x with node := { x.node with inst := some 0 } }
def tTimedNodeAt (n : BitVec 12) : State := State.withSync { tTimedNode n with cur := (tTimedNode n).inp.core }
theorem timed_node : stampOf (tTimedNodeAt 5).nextGroup = some 5 ∧ stampOf (tTimedNodeAt 6).nextGroup = some 5 := by decide +kernel
theorem witness_StampOverruns : ∃ (s : State) (i : Inst), (s.coreAt s.inp.core).csr.tt = true ∧
    (s.coreAt s.inp.core).seq.mode = .running ∧
    (s.coreAt s.inp.core).seq.freeze = 0 ∧ (s.coreAt s.inp.core).csr.nrep.toNat ≤ 1 ∧
    (∃ g, (State.withSync { s with cur := s.inp.core }).nextGroup = .ok g ∧ g.stamp = some 5) ∧
    (s.coreAt s.inp.core).seq.prev = none ∧
    5 < (s.coreAt s.inp.core).csr.fnum.toNat * 4096 + (s.coreAt s.inp.core).csr.cnt.toNat ∧
    (s.coreAt s.inp.core).csr.hm = false ∧ (s.coreAt s.inp.core).fills = [] ∧ dumps s s.inp.core i :=
  ⟨tTimedNode 6, tInst, by decide +kernel, by decide +kernel, by decide +kernel, by decide +kernel, group_of timed_node.2,
    by decide +kernel⟩
theorem witness_StampOverruns_not : ∃ s : State, (s.coreAt s.inp.core).csr.tt = true ∧ (s.coreAt s.inp.core).seq.mode = .running ∧
    (s.coreAt s.inp.core).seq.freeze = 0 ∧ (s.coreAt s.inp.core).csr.nrep.toNat ≤ 1 ∧
    (∃ g, (State.withSync { s with cur := s.inp.core }).nextGroup = .ok g ∧ g.stamp = some 5) ∧
    (s.coreAt s.inp.core).seq.prev = none ∧ 5 ≤ (s.coreAt s.inp.core).csr.flen.toNat ∧
    (s.coreAt s.inp.core).csr.fnum.toNat * 4096 + (s.coreAt s.inp.core).csr.cnt.toNat = 5 :=
  ⟨tTimedNode 5, by decide +kernel, by decide +kernel, by decide +kernel, by decide +kernel, group_of timed_node.1,
    by decide +kernel⟩
theorem witness_EngineCommands : ∃ (s : State) (m : CopyCmd), let c := s.inp.core
    s.inp.eng = .copy1 ∧ ((s.coreAt c).copy.get 1).run = none ∧ ((s.coreAt c).copy.get 1).queue = [m] ∧ s.engineLive c = true ∧
    (∀ n ∈ m.after, n ∉ (s.coreAt c).openIds) ∧ noSbar s c ∧ m.led = false :=
  ⟨tEv { eng := .copy1 } (tRun fun x => { x with copy := x.copy.set 1 ⟨[tCopyCmd (.cCopy tCopyF)], none⟩ }),
    tCopyCmd (.cCopy tCopyF), by decide +kernel⟩
theorem witness_EngineCommands_open : ∃ (s : State) (m : CopyCmd), s.inp.eng = .copy0 ∧
    ((s.coreAt s.inp.core).copy.get 0).queue = [m] ∧ ∃ n ∈ m.after, n ∈ (s.coreAt s.inp.core).openIds :=
  ⟨tEv { eng := .copy0 } (tRun fun x => { x with
      stores := [⟨4, [], false, 0, false, [], 0, []⟩]
      copy := x.copy.set 0 ⟨[{ tCopyCmd (.cCopy tCopyF) with after := [4] }], none⟩ }),
    { tCopyCmd (.cCopy tCopyF) with after := [4] }, by decide +kernel⟩
theorem witness_EngineCommands_fault : ∃ (s : State) (r : CopyRun) (f : Trap), s.inp.eng = .copy0 ∧
    ((s.coreAt s.inp.core).copy.get 0).run = some r ∧ r.stop = some f ∧
    ((s.coreAt s.inp.core).csr.cprog.get 0).getLsbD 63 = false :=
  ⟨tEv { eng := .copy0 } (tEngine { tCopyRun (.cCopy tCopyF) .reqs with stop := some tTrap }),
    { tCopyRun (.cCopy tCopyF) .reqs with stop := some tTrap }, tTrap, by decide +kernel⟩
theorem witness_EngineCommands_matrix : ∃ (s : State) (m : MCmd) (q : List MCmd), s.inp.eng = .matrix ∧
    (s.coreAt s.inp.core).matrix.run = none ∧ (s.coreAt s.inp.core).matrix.queue = m :: q ∧ m.op.isCall = false ∧
    s.engineLive s.inp.core = true ∧ s.throttledAt s.inp.core = false ∧ m.after = [] :=
  ⟨tEv { eng := .matrix } (tRun fun x => { x with matrix := { x.matrix with queue := [tCmd (.zacc 3)] } }), tCmd (.zacc 3), [],
    by decide +kernel⟩
theorem witness_ProducersFill : ∃ (s : State) (f : PendFill) (r : List PendFill) (v : VReg) (fl : Flags),
    (s.coreAt s.inp.core).fills = f :: r ∧ f.src = .value v fl ∧ f.file = s.inp.file ∧ f.reg = s.inp.reg ∧
    f.file = .s ∧ v.toNat / 2 ^ 62 % 4 = s.inp.ctx.val ∧ f.due.toNat = s.cyc.toNat ∧ (s.coreAt s.inp.core).seq.freeze = 0 :=
  ⟨tFills (.value 9 fNX) 2, ⟨.s, 4, .value 9 fNX, 2⟩, [], 9, fNX, by decide +kernel⟩
theorem witness_ProducersFill_early : ∃ (s : State) (f : PendFill) (r : List PendFill) (v : VReg) (fl : Flags),
    (s.coreAt s.inp.core).fills = f :: r ∧ f.src = .value v fl ∧ f.file = s.inp.file ∧ f.reg = s.inp.reg ∧
    s.cyc.toNat + 1 = f.due.toNat := ⟨tFills (.value 9 fNX) 1, ⟨.s, 4, .value 9 fNX, 2⟩, [], 9, fNX, by decide +kernel⟩
theorem witness_ProducersFill_frozen : ∃ s : State, (s.coreAt s.inp.core).fills ≠ [] ∧ (s.coreAt s.inp.core).seq.freeze ≠ 0 :=
  ⟨(tFills (.value 9 fNX) 2).mapCore fun x => { x with seq := { x.seq with freeze := 8 } }, by decide +kernel⟩
theorem witness_ProducersFill_fin : ∃ (s : State) (f : PendFill) (r : List PendFill), (s.coreAt s.inp.core).fills = f :: r ∧
    f.src = .fin none ∧ f.file = s.inp.file ∧ f.reg = s.inp.reg ∧ (s.coreAt s.inp.core).mail.inbox = [(5, 3)] ∧
    (s.coreAt s.inp.core).seq.freeze = 0 :=
  ⟨(tFills (.fin none) 2).mapCore fun x => { x with mail := { x.mail with inbox := [(5, 3)] } }, ⟨.s, 4, .fin none, 2⟩, [],
    by decide +kernel⟩
theorem witness_AccessesEnd : ∃ (s : State) (q : LoadReq), (s.coreAt s.inp.core).loads = [q] ∧ q.id = s.inp.n ∧ q.left = [] ∧
    q.fixed = true ∧ q.dst = some (.s, 4) ∧ q.kind = .scalar 2 true ∧ q.fwd = none ∧ q.bytes.length = 2 ∧
    (s.coreAt s.inp.core).stores = [] ∧ (s.coreAt s.inp.core).seq.freeze = 0 := ⟨tLoadS [tLoad] [], tLoad, by decide +kernel⟩
theorem witness_AccessesEnd_open : ∃ (s : State) (q : LoadReq),
    (s.coreAt s.inp.core).loads.find? (fun r => r.id == s.inp.n) = some q ∧ q.left ≠ [] :=
  ⟨tLoadS [{ tLoad with left := [7] }] [], { tLoad with left := [7] }, by decide +kernel⟩
theorem witness_AccessesEnd_store : ∃ (s : State) (q : StoreReq), (s.coreAt s.inp.core).stores = [q] ∧ q.id = s.inp.n ∧
    q.sent = true ∧ q.left = [] := ⟨tLoadS [] [tStoreReq], tStoreReq, by decide +kernel⟩
theorem witness_AccessesEnd_held : ∃ (s : State) (q : StoreReq), (s.coreAt s.inp.core).stores = [q] ∧ q.id = s.inp.n ∧
    q.sent = false ∧ q.from_.toNat = s.cyc.toNat ∧ ∀ n ∈ q.after, n ∉ (s.coreAt s.inp.core).openIds :=
  ⟨tLoadS [] [{ tStoreReq with sent := false, after := [7] }], { tStoreReq with sent := false, after := [7] }, by decide +kernel⟩
theorem witness_ReplicaEvents : ∃ (s : State) (f : PendFill) (n : Nat) (v : VReg) (fl : Flags),
    (s.coreAt s.inp.core).fills = [f] ∧ f.src = .forwarded n ∧ (s.coreAt s.inp.core).redun.inflight = [(n, v, fl)] ∧
    (s.coreAt s.inp.core).seq.freeze = 0 :=
  ⟨(tFills (.forwarded 3) 0).mapCore fun x => { x with redun := { x.redun with inflight := [(3, 9, 0)] } },
    ⟨.s, 4, .forwarded 3, 2⟩, 3, 9, 0, by decide +kernel⟩
theorem witness_ReplicaEvents_agree : ∃ s : State, 1 < (s.coreAt s.inp.core).csr.nrep.toNat ∧ s.inp.split = false ∧
    (State.running { s with cur := s.inp.core }).length = 2 ∧
    ∀ g ∈ State.running { s with cur := s.inp.core }, (s.coreAt g).redun.arrived = some (0, none) ∧
      (s.coreAt g).redun.since.toNat + 24 = s.cyc.toNat ∧
      (s.coreAt g).redun.sbuf = [] ∧ (s.coreAt g).redun.sig = (s.coreAt s.inp.core).redun.sig :=
  ⟨tReplicas 5 5, by decide +kernel⟩
theorem witness_ReplicaEvents_differ : ∃ (s : State) (g : CoreId) (i : Inst), 1 < (s.coreAt s.inp.core).csr.nrep.toNat ∧
    State.running { s with cur := s.inp.core } = [s.inp.core, g] ∧
    (∀ k ∈ [s.inp.core, g], (s.coreAt k).redun.arrived = some (0, none) ∧ (s.coreAt k).redun.since.toNat + 24 = s.cyc.toNat) ∧
    (s.coreAt g).redun.sig ≠ (s.coreAt s.inp.core).redun.sig ∧
    (s.coreAt s.inp.core).csr.self = (s.coreAt s.inp.core).csr.lead ∧ dumps s s.inp.core i :=
  ⟨tReplicas 5 6, 128, { tInst with redun := 2 }, by decide +kernel⟩
/-- A triplet on cores 0, 128 and 24, the last with another signature. -/
def tTriplet : State := (tReplicas 5 5).onCore 24 fun x => { x with
  seq := { x.seq with mode := .running }, node := { x.node with inst := some 0, replica := 2 }
  csr := { x.csr with nrep := 3, self := 2, lead := 0 }, redun := { x.redun with arrived := some (0, none), sig := 6 } }
theorem witness_ReplicaEvents_retire : ∃ (s : State) (a b d : CoreId), 1 < (s.coreAt s.inp.core).csr.nrep.toNat ∧
    s.inp.split = false ∧ State.running { s with cur := s.inp.core } = [a, b, d] ∧
    (∀ g ∈ [a, b, d], (s.coreAt g).redun.arrived = some (0, none) ∧ (s.coreAt g).redun.since.toNat + 24 = s.cyc.toNat ∧
      (s.coreAt g).redun.sbuf = []) ∧
    (s.coreAt a).node.replica ≠ (s.coreAt d).node.replica ∧ (s.coreAt b).node.replica ≠ (s.coreAt d).node.replica ∧
    (s.coreAt a).redun.sig = (s.coreAt b).redun.sig ∧ (s.coreAt d).redun.sig ≠ (s.coreAt a).redun.sig ∧
    (s.coreAt a).redun.retired = false := by
  refine ⟨{ tTriplet with inp := { core := 128 } }, 128, 0, 24, ?_⟩
  decide +kernel
theorem witness_WaitsEnd : ∃ s : State, (s.coreAt s.inp.core).csr.tt = false ∧ (s.coreAt s.inp.core).csr.limit ≠ 0xFFFF#16 ∧
    (s.coreAt s.inp.core).csr.limit.toNat < (s.coreAt s.inp.core).csr.debt.toNat ∧ (s.coreAt s.inp.core).matrix.queue = [] ∧
    ((s.coreAt s.inp.core).copy.get 0).queue = [] ∧ ((s.coreAt s.inp.core).copy.get 1).queue = [] :=
  ⟨tRun fun x => { x with csr := { x.csr with limit := 1, debt := 2 } }, by decide +kernel⟩
theorem witness_WaitsEnd_ts : ∃ (s : State) (at_ v : W), (s.coreAt s.inp.core).tsLog = [(at_, v)] ∧
    (s.coreAt s.inp.core).node.inst.isSome = true ∧ (s.coreAt s.inp.core).csr.part = (s.coreAt s.inp.dst).csr.part ∧
    dieOf s.inp.core ≠ dieOf s.inp.dst ∧ at_.toNat + 40 = s.cyc.toNat := ⟨tSignal 128 50, 10, 7, by decide +kernel⟩
theorem witness_WaitsEnd_early : ∃ (s : State) (at_ v : W), (s.coreAt s.inp.core).tsLog = [(at_, v)] ∧
    (s.coreAt s.inp.core).node.inst.isSome = true ∧ (s.coreAt s.inp.core).csr.part = (s.coreAt s.inp.dst).csr.part ∧
    dieOf s.inp.core = dieOf s.inp.dst ∧ s.cyc.toNat + 1 = at_.toNat + 8 := ⟨tSignal 1 17, 10, 7, by decide +kernel⟩

/-! ### The pool manager, recasts and migrations -/

/-- Core 0's context 0 asks the pool manager to truncate sequence 0; tPool: the key-value space has a geometry. -/
def tManager : State := let s := tEngine (tCopyRun (.cKvinv tCopyF) .manager)
  { s with ms := { s.ms with manager := [(0, 0)] } }
def tPool : State := tManager.onPart 0 fun p => { p with kvgeom := .ofNat 64 (2 ^ 63 + 2 ^ 59) }
/-- R99: a TRUNC of an empty sequence changes nothing; without a geometry the coordinate is KV_FAULT with reason 5. -/
theorem test_pool : (((nextOf (exec .poolManagerRequest tPool)).core.copy.get 0).run.map (·.phase)) = some (.pins []) ∧
    (((nextOf (exec .poolManagerRequest tManager)).core.copy.get 0).run.bind (·.stop)).map (fun t => (t.code, t.info)) =
      some (0x0C, 0x8000000000000005) := by decide +kernel
theorem kv_ok {α : Type} {x : Except Trap (State × List α)} (h : (match x with
    | .ok _ => true
    | .error _ => false) = true) : ∃ v l, x = .ok (v, l) := by
  cases x with
  | ok r => exact ⟨r.1, r.2, rfl⟩
  | error _ => simp at h
/-- What a witness of a c.kvinv says: the request stands first, and its coordinate checks as e. -/
abbrev kvinvAt (s : State) (r : CopyRun) (kind n : Nat) (e : Option Nat) (alen : Nat) : Prop :=
  s.ms.manager = [(0, 0)] ∧ ((s.coreAt 0).copy.get 0).run = some r ∧ (r.cmd.q 2).toNat / 2 ^ 62 = kind ∧ (r.cmd.q 2).toNat % 2 ^ 22 = n ∧
  (s.partAt (s.coreAt 0).csr.part.toFin).kvCoord (r.cmd.q 1) = e ∧
  (s.kvLens (s.coreAt 0).csr.part.toFin (kvS (r.cmd.q 1)) (kvL (r.cmd.q 1))).1 = alen
/-- Core 0 asks for a c.kvinv of a kind with a count; ALEN of (0, 0) is 32, PLEN 7. -/
def tKvinv (kind : Nat) (alen : Byte) (geom : Nat) : State :=
  let s := tEngine { tCopyRun (.cKvinv tCopyF) .manager with cmd := { tCopyCmd (.cKvinv tCopyF) with quad := [0, 0, .ofNat 64 (kind * 2 ^ 62 + 5), 0] } }
  { s.onPart 0 fun p => { p with kvgeom := .ofNat 64 geom, kvdirb := 0x1000 } with
    ms := { s.ms with manager := [(0, 0)], mem := ⟨if alen = 0 then [] else [(0x1000, alen), (0x1008, 7)], []⟩ } }
def tKvinvR (kind : Nat) : CopyRun :=
  { tCopyRun (.cKvinv tCopyF) .manager with cmd := { tCopyCmd (.cKvinv tCopyF) with quad := [0, 0, .ofNat 64 (kind * 2 ^ 62 + 5), 0] } }
theorem test_trunc : (nextOf (exec .poolManagerRequest (tKvinv 0 32 (2 ^ 63 + 2 ^ 59)))).kvLens 0 0 0 = (5, 5) := by decide +kernel
theorem witness_PoolRequests_fault : kvinvAt (tKvinv 0 0 0) (tKvinvR 0) 0 5 (some 5) 0 := by decide +kernel
theorem witness_PoolRequests_replace : kvinvAt (tKvinv 2 0 (2 ^ 63 + 2 ^ 59)) (tKvinvR 2) 2 5 none 0 ∧
    kvT ((tKvinvR 2).cmd.q 1) = 0 := by decide +kernel
theorem witness_PoolRequests_whole : kvinvAt (tKvinv 0 5 (2 ^ 63 + 2 ^ 59)) (tKvinvR 0) 0 5 none 5 := by decide +kernel
theorem witness_PoolRequests_trunc : kvinvAt (tKvinv 0 6 (2 ^ 63 + 2 ^ 59)) (tKvinvR 0) 0 5 none 6 ∧
    6 ≤ kvCap (tKvinv 0 6 (2 ^ 63 + 2 ^ 59) |>.partAt 0).kg ∧
    ∀ h < kvNh (tKvinv 0 6 (2 ^ 63 + 2 ^ 59) |>.partAt 0).kg, ∀ k < 8,
      bitOf ((tKvinv 0 6 (2 ^ 63 + 2 ^ 59)).ms.mem.num (((tKvinv 0 6 (2 ^ 63 + 2 ^ 59)).partAt 0).kvRoot 0 0 h k) 4) 31 = false := by
  decide +kernel
theorem witness_PoolRequests : ∃ (s : State) (r : CopyRun) (f : CFields), s.ms.manager = [(0, 0)] ∧
    ((s.coreAt 0).copy.get 0).run = some r ∧ r.cmd.op = .cKvinv f ∧ ∃ v pages,
    State.kvInv { s with ms := { s.ms with manager := [] } } (s.coreAt 0).csr.part.toFin ((r.cmd.q 2).toNat / 2 ^ 62) (r.cmd.q 1)
      ((r.cmd.q 2).toNat % 2 ^ 22) = .ok (v, pages) :=
  ⟨tPool, tCopyRun (.cKvinv tCopyF) .manager, tCopyF, by decide +kernel, by decide +kernel, rfl, kv_ok (by decide +kernel)⟩
/-- Core 0 asks for a c.kvapp of one record, n tokens of (0, 0), of which a are there; the free list holds k pages. -/
def tKvapp (n a k : Nat) (geom : Nat) : State :=
  let s := (tEngine (tCopyRun (.cKvapp tCopyF) .manager)).mapCore fun x => { x with
    copy := x.copy.set 0 ⟨[], some { tCopyRun (.cKvapp tCopyF) .manager with cmd := { tCopyCmd (.cKvapp tCopyF) with quad := [0xA000000000000000, 0, 1, 0] } }⟩
    scratch := if n = 0 then x.scratch else ⟨[(0, .ofNat 8 n)], []⟩ }
  { s.onPart 0 fun p => { p with kvgeom := .ofNat 64 geom, kvdirb := 0x1000, kvseqb := 0x3000, kvflb := 0x4000, kvpoolb := 0x10000, flTail := k } with
    ms := { s.ms with manager := [(0, 0)], mem := ⟨if a = 0 then [] else [(0x1000, .ofNat 8 (a % 256)), (0x1002, .ofNat 8 (a / 65536))], []⟩ } }
/-- R95, R96: one page and one block-table page make 5 tokens; a list of one page is one short. -/
theorem test_append : (nextOf (exec .poolManagerRequest (tKvapp 5 0 2 (2 ^ 63 + 2 ^ 59)))).kvLens 0 0 0 = (5, 0) ∧
    ((((nextOf (exec .poolManagerRequest (tKvapp 5 0 1 (2 ^ 63 + 2 ^ 59)))).core.copy.get 0).run.bind (·.stop)).map
      fun t => (t.code, t.info)) = some (0x0D, 1) := by decide +kernel
/-- What a witness of a c.kvapp says: its record has n tokens, of a that are there, of a geometry. -/
abbrev kvappAt (s : State) (n a : Nat) (en : Bool) : Prop :=
  let y := s.partAt (s.coreAt 0).csr.part.toFin
  let w := leNat ((List.range 8).map fun i => (s.coreAt 0).scratch.read ((s.coreAt 0).scratchPhys (scratchOff 0xA000000000000000) + i))
  s.ms.manager = [(0, 0)] ∧ (((s.coreAt 0).copy.get 0).run.map fun r => (r.cmd.q 0, (r.cmd.q 2).toNat % 2 ^ 9)) = some (0xA000000000000000, 1) ∧
  ownRow 0xA000000000000000 8 ∧ (s.coreAt 0).locks = [] ∧ (s.coreAt 0).scratch.poison = [] ∧ w = n ∧ kvEn y.kg = en ∧
  recS w < kvNs y.kg ∧ recL w < kvNl y.kg ∧ w / 2 ^ 22 % 2 ^ 16 = 0 ∧ w % 2 ^ 22 = n ∧ recS w = 0 ∧ recL w = 0 ∧ (s.kvLens 0 0 0).1 = a
theorem witness_PoolRequests_bad : kvappAt (tKvapp 0 0 0 (2 ^ 63 + 2 ^ 59)) 0 0 true := by decide +kernel
theorem witness_PoolRequests_cap : kvappAt (tKvapp 5 0x400000 0 (2 ^ 63 + 2 ^ 59)) 5 0x400000 true ∧
    kvCap (tKvapp 5 0x400000 0 (2 ^ 63 + 2 ^ 59) |>.partAt 0).kg < 0x400005 := by decide +kernel
theorem witness_PoolRequests_append : ∀ k < 3, kvappAt (tKvapp 5 0 k (2 ^ 63 + 2 ^ 59)) 5 0 true ∧
    5 ≤ kvCap (tKvapp 5 0 k (2 ^ 63 + 2 ^ 59) |>.partAt 0).kg ∧ (tKvapp 5 0 k (2 ^ 63 + 2 ^ 59) |>.partAt 0).kvAvail = k ∧
    (tKvapp 5 0 k (2 ^ 63 + 2 ^ 59) |>.partAt 0).kvLayer 0 0 + 8 ≤ (tKvapp 5 0 k (2 ^ 63 + 2 ^ 59) |>.partAt 0).kvSeq 0 := by
  decide +kernel

theorem except_ok {ε α : Type} [DecidableEq α] {x : Except ε α} {v : α} (h : (match x with
    | .ok r => decide (r = v)
    | .error _ => false) = true) : x = .ok v := by
  cases x <;> simp_all
theorem except_error {ε α : Type} [DecidableEq ε] {x : Except ε α} {v : ε} (h : (match x with
    | .ok _ => false
    | .error r => decide (r = v)) = true) : x = .error v := by
  cases x <;> simp_all
/-- The eight bytes of the record. -/
def tKvPlaces : List (W × Nat × Bool) := (List.range 8).map fun i => (0xA000000000000000 + .ofNat 64 i, 2 ^ 45 + i, true)
theorem witness_PoolRequests_batch : ∃ (s : State) (r : CopyRun) (f : CFields) (places : List (W × Nat × Bool)) (a : W) (e : Nat),
    let u : State := { s with ms := { s.ms with manager := [] } }
    s.ms.manager = [(0, 0)] ∧ ((s.coreAt 0).copy.get 0).run = some r ∧ r.cmd.op = .cKvapp f ∧
    u.reachAll 0 0 none ((List.range (8 * ((r.cmd.q 2).toNat % 2 ^ 9))).map fun i => r.cmd.q 0 + .ofNat 64 i) .copyRead = .ok places ∧
    u.poisoned (places.map (·.2.1)) = [] ∧
    kvCheck (s.partAt (s.coreAt 0).csr.part.toFin) ((List.range ((r.cmd.q 2).toNat % 2 ^ 9)).map fun i =>
      leNat (((places.map fun a => u.readByte a.2.1).drop (8 * i)).take 8)) (fun q j => (s.kvLens (s.coreAt 0).csr.part.toFin q j).1) 0 =
      .error (a, e) :=
  ⟨tKvapp 5 0 0 0, { tCopyRun (.cKvapp tCopyF) .manager with cmd := { tCopyCmd (.cKvapp tCopyF) with quad := [0xA000000000000000, 0, 1, 0] } },
    tCopyF, tKvPlaces, 0x8000000000000000, 5, by decide +kernel, by decide +kernel, rfl, except_ok (by decide +kernel),
    by decide +kernel, except_error (by decide +kernel)⟩

/-- Range entry 0 is being recast; tPended: a write of its first byte waits in the crossbar of die E. -/
def tRecast (p : CopyPhase) : State := tMapped 0 [] (tEngine (tCopyRun (.cRecast 2 3 true 2 3) p))
def tRange0 : Range := ⟨0, 0x10000, 0x10000, 0x8000000000000000⟩
def tPkt (b : PBody) : Pkt := ⟨1, 0, 0, 1, 1, 0, 1, .e, 0, 64, 0, 0, 0, b⟩
def tPended (s : State) : State := s.onXbar .e fun b => { b with wait := [tPkt (.write [(0x10000, 5, 0xFF)] none)] }
theorem test_recast_drain : ((nextOf (exec .recastDrainEnd (tRecast (.recastDrain 0)))).core.copy.get 0).run.map (·.phase) =
    some (.recastRewrite 0) ∧
    ((nextOf (exec .recastDrainEnd (tPended (tRecast (.recastDrain 0))))).core.copy.get 0).run.map (·.phase) =
    some (.recastDrain 0) := by decide +kernel
/-- R80: the entry's role is the one asked for, here 1, and nothing else of it changes. -/
def tTo1 : State := tMapped 0 [] (tEngine { tCopyRun (.cRecast 2 3 true 2 3) (.recastRewrite 0) with
  cmd := { tCopyCmd (.cRecast 2 3 true 2 3) with quad := [0, 0, 0x1000000000000000, 0] } })
theorem test_recast_rewrite : ((nextOf (exec .recastRewriteEnd tTo1)).partAt 0).rangeIx 0 =
    some { tRange0 with attr := 0x9000000000000000 } := by decide +kernel
/-- Entry 0 has an attribute and is long bytes; the command's word 2 is w; 1.0 and NaN stand at its base. -/
def tReformat (attr w long : Nat) (err : Option Nat := none) : State :=
  let s := tEngine { tCopyRun (.cRecast 2 3 true 2 3) (.recastRewrite 0) with
    cmd := { tCopyCmd (.cRecast 2 3 true 2 3) with quad := [0, 0, .ofNat 64 w, 0] }, err := err }
  { s.onPart 0 fun p => { p with ranges := [(0, ⟨0, .ofNat 64 long, 0x10000, .ofNat 64 (2 ^ 63 + attr)⟩)] } with
    ms := { s.ms with mem := ⟨[(0x10002, 0x80), (0x10003, 0x3F), (0x10006, 0xC0), (0x10007, 0x7F)], []⟩ } }
/-- R81: FP32 1.0 becomes 1 as FX128, a NaN 0 with NANF, and the extent is four times as long; the 64-bit integer is rounded to FP32;
into the immutable role the copy on die W is written. -/
theorem test_reformat :
    (let t := nextOf (exec .recastRewriteEnd (tReformat (1 * 2 ^ 55) (3 * 2 ^ 60 + 2 ^ 59 + 26 * 2 ^ 54) 8))
     (t.ms.mem.num 0x10000 16, t.ms.mem.num 0x10010 16) = (1, 0) ∧
      ((t.partAt 0).rangeIx 0).map (fun r => (r.limit, r.has 29, r.fmt, fld r.attr.toNat 40 38)) = some (32, true, 26, 1)) ∧
    (let t := nextOf (exec .recastRewriteEnd (tReformat (26 * 2 ^ 55) (2 ^ 59 + 2 ^ 54) 16))
     t.ms.mem.num 0x10000 4 = 0x5EFF8000 ∧ ((t.partAt 0).rangeIx 0).map (·.limit) = some 0x10000) ∧
    (nextOf (exec .recastRewriteEnd (tReformat (2 ^ 49) (2 ^ 60) 8))).ms.mem.num 0x4000010000 8 = 0x7FC000003F800000 := by decide +kernel
/-- What a witness of a recast's end says: the command, the entry's formats before and after, its tier, and the role asked for. -/
abbrev recastAt (s : State) (f g to_ tier : Nat) (err : Option Nat) : Prop :=
  (((s.coreAt s.inp.core).copy.get s.inp.ctx).run.map fun q => (decide (q.phase = .recastRewrite 0), q.err, rcTo q.cmd)) = some (true, err, to_) ∧
  (((s.partAt (s.coreAt s.inp.core).csr.part.toFin).rangeIx 0).map fun r => (r.fmt, r.attr.toNat / 2 ^ 50 % 4, decide (r.size < 2 ^ 36))) =
    some (f, tier, true) ∧
  (((s.coreAt s.inp.core).copy.get s.inp.ctx).run.bind fun q =>
    ((s.partAt (s.coreAt s.inp.core).csr.part.toFin).rangeIx 0).map fun r => rcFmt q.cmd r) = some g
theorem witness_Recasts_relabel : recastAt (tReformat 0 0 8) 0 0 0 0 none ∧ recastAt (tReformat (2 ^ 49) (2 ^ 60) 8) 0 0 1 0 none ∧
    recastAt (tReformat (2 * 2 ^ 50) 0 8) 0 0 0 2 none := by decide +kernel
theorem witness_Recasts_fx : recastAt (tReformat (26 * 2 ^ 55) (2 ^ 59 + 2 ^ 54) 16) 26 1 0 0 none ∧
    recastAt (tReformat (1 * 2 ^ 55) (3 * 2 ^ 60 + 2 ^ 59 + 26 * 2 ^ 54) 8) 1 26 3 0 none := by decide +kernel
theorem witness_Recasts_failed : recastAt (tReformat (2 * 2 ^ 50) 0 8 (some 0x0A)) 0 0 0 2 (some 0x0A) := by decide +kernel
theorem witness_Recasts_pending : ∃ (s : State) (q : CopyRun) (r : Range), ((s.coreAt s.inp.core).copy.get s.inp.ctx).run = some q ∧
    (s.partAt (s.coreAt s.inp.core).csr.part.toFin).rangeIx 0 = some r ∧ q.phase = .recastDrain 0 ∧ extentInUse s r :=
  ⟨tPended (tRecast (.recastDrain 0)), tCopyRun (.cRecast 2 3 true 2 3) (.recastDrain 0), tRange0, by decide +kernel, by decide +kernel,
    by decide +kernel, .inl ⟨tPkt (.write [(0x10000, 5, 0xFF)] none), by decide +kernel, 0x10000, by decide +kernel, by decide +kernel⟩⟩
theorem witness_Recasts_drained : ∃ (s : State) (q : CopyRun) (r : Range), ((s.coreAt s.inp.core).copy.get s.inp.ctx).run = some q ∧
    (s.partAt (s.coreAt s.inp.core).csr.part.toFin).rangeIx 0 = some r ∧ q.phase = .recastDrain 0 ∧ ¬ extentInUse s r :=
  ⟨tRecast (.recastDrain 0), tCopyRun (.cRecast 2 3 true 2 3) (.recastDrain 0), tRange0, by decide +kernel⟩

/-- A page of 4 KiB at PA 0x10000 that the policy may move, at offset 0; bits are its entry's byte 5; home 1 has a reserve page. The
migration engine of die E holds every right when may is set. -/
def tPolicy (bits : Byte) (l : List Migration) (may : Bool) : State :=
  let s := (tTable [(0x200001, 0x10), (0x200002, 0x20), (0x200007, 0x80), (0x201001, 0x20), (0x201002, 0x20), (0x201007, 0x80),
    (0x202001, 0x30), (0x202002, 0x20), (0x202007, 0x80), (0x203001, 0x04), (0x203002, 0x01), (0x203005, bits), (0x203007, 0xC0)]).onPart 0
    fun p => { p with reserve := [(1, 0x4000020000)] }
  let table := fun (d : Die) => (List.finRange 32).map fun i => (⟨.slice d i, 0x322, 0x8007⟩ : AccessEnt)
  { s with ms := { s.ms with migrations := l, access := if may then table .e ++ table .w else [] }, inp := { n := 1, off := 0 } }
def tMig (step : Nat) : Migration := ⟨0, 0, 0x10000, 0x1000, false, 1, 0x4000020000, 0, step, none⟩
theorem touch_of {s : State} {m : BitVec 10} {p : PartId} {pa n right : Nat} {v : Bool} (hp : pa + 4096 < 0x8000000000)
    (hn : (n + 4095) / 4096 = 1) (h : ∀ (d : Die) (i : Fin 32), s.accessOk (.slice d i) m p right false = v) :
    s.mayTouch m p pa n right = v := by
  have e : targetOf pa = .slice (if pa < 0x4000000000 then .e else .w) (Config.hash32 (fld pa 37 12)) := by
    unfold targetOf
    rw [if_neg (by omega), if_pos (by omega)]
  simp only [State.mayTouch, hn, List.range_one, List.all_cons, List.all_nil, Nat.mul_zero, Nat.add_zero, Bool.and_true, e, h]
theorem may_of (s : State) (v : Bool) (l : leafAddrs s.ms.mem 0 3 (fld (s.partAt 0).ptroot.toNat 43 21 * 2 ^ 21) = [0x203000])
    (h : ∀ right < 2, ∀ (d : Die) (i : Fin 32), s.accessOk (.slice d i) 0x322 0 right false = v) :
    s.mayMigrate 0 0 0 0x10000 0x1000 1 0x4000020000 = v := by
  have a := touch_of (s := s) (m := 0x322) (p := 0) (pa := 0x10000) (n := 0x1000) (right := 0) (v := v) (by decide) (by decide) (h 0 (by decide))
  have b := touch_of (s := s) (m := 0x322) (p := 0) (pa := 0x4000020000) (n := 0x1000) (right := 1) (v := v) (by decide) (by decide) (h 1 (by decide))
  have c := touch_of (s := s) (m := 0x322) (p := 0) (pa := 0x203000) (n := 8) (right := 1) (v := v) (by decide) (by decide) (h 1 (by decide))
  have m : migrMaster 0 = 0x322 := by decide
  rw [State.mayMigrate, m, l, a, b, List.all_cons, c]
  cases v <;> rfl
theorem may_policy (bits : Byte) (l : List Migration) (v : Bool) (hb : bits = 0 ∨ bits = 0x10) :
    (tPolicy bits l v).mayMigrate 0 0 0 0x10000 0x1000 1 0x4000020000 = v := by
  have e : (tPolicy bits l v).ms.mem = (tPolicy bits [] v).ms.mem ∧ (tPolicy bits l v).partAt 0 = (tPolicy bits [] v).partAt 0 := ⟨rfl, rfl⟩
  refine may_of _ v ?_ ?_
  · rw [e.1, e.2]; rcases hb with rfl | rfl <;> cases v <;> decide +kernel
  · have g : ∀ v, ∀ right < 2, ∀ i : Fin 32, (tPolicy 0 [] v).accessOk (.slice .e i) 0x322 0 right false = v ∧
        (tPolicy 0 [] v).accessOk (.slice .w i) 0x322 0 right false = v := by decide +kernel
    exact fun right hr d i => by cases d with
      | e => exact (g v right hr i).1
      | w => exact (g v right hr i).2
/-- R85: the entry's MIG bit is set, and the migration stands in step 0; its ports are closed; its data are copied. -/
theorem test_policy : (let t := nextOf (exec .migrationPolicy (tPolicy 0 [] true))
    (t.ms.migrations, t.ms.mem.read 0x203005)) = ([tMig 0], 0x10) := by
  have w : (tPolicy 0 [] true).pageWalk 0 0 = .ok (0xC000000000010400, 0, 0x1000) := ok_of (by decide +kernel)
  have g : ((tPolicy 0 [] true).beginMigration 0 0 1 0 0xC000000000010400 0x1000 none).map (fun t => (t.ms.migrations, t.ms.mem.read 0x203005)) =
      some ([tMig 0], 0x10) := by
    have m := may_policy 0 [] true (.inl rfl)
    have f : (pageHome 0xC000000000010400).1 = 0 := by decide
    have n : (((tPolicy 0 [] true).partAt 0).reserve.find? fun a => a.1.val == 1) = some (1, 0x4000020000) := by decide +kernel
    unfold State.beginMigration
    rw [show fld 0xC000000000010400 47 46 = 0 from by decide, show fld 0xC000000000010400 43 12 = 0x10 from by decide, n, f]
    simp only [Option.map_some, Option.getD_some, Nat.reduceMul, Nat.reduceEqDiff, if_false, m]
    decide +kernel
  have p : (tPolicy 0 [] true).inp.part = 0 ∧ fld (tPolicy 0 [] true).inp.off.toNat 56 0 = 0 ∧ (tPolicy 0 [] true).inp.n % 4 = 1 := by
    decide +kernel
  have c : ¬ (fld 0xC000000000010400 11 10 ≠ 1 ∨ bitOf 0xC000000000010400 44 = true ∨ (!(rangeAt ((tPolicy 0 [] true).partAt 0) 0).isEmpty) = true ∨
      pageHome 0xC000000000010400 = (1, 0) ∨ (!((tPolicy 0 [] true).partAt 0).reserve.any fun x => x.1.val == 1) = true ∨
      fld 0xC000000000010400 47 46 = 2) := by decide +kernel
  show (let t := nextOf (execMigrationPolicy (tPolicy 0 [] true)); (t.ms.migrations, t.ms.mem.read 0x203005)) = _
  obtain ⟨t, ht, h⟩ := Option.map_eq_some_iff.mp g
  unfold execMigrationPolicy
  simp only [p.1, p.2.1, p.2.2, w, ht]
  rw [if_neg c]
  exact h
theorem test_ports : (nextOf (exec .migrationPortsClosed (tPolicy 0x10 [tMig 0] true))).ms.migrations = [tMig 1] := by decide +kernel
theorem test_copied : ((tPolicy 0x10 [tMig 1] true).pageMoved (tMig 1) 0xC000100000010400 []).ms.mem.num 0x203000 8 = 0xC000004000020400 ∧
    ((tPolicy 0x10 [tMig 1] true).migrationFails (tMig 1) 0xC000100000010400).ms.mem.num 0x203000 8 = 0xC000000000010400 := by decide +kernel
/-- Core 0's write to the page was refused by its old home. -/
def tRefused : MovedPkt := ⟨tPkt (.write [(0x10008, 5, 0xFF)] none), 0, 0, 0x1000, 0x10000⟩
def tMoved (bits : Byte) : State := (tPolicy bits [] true).mapCore fun x => { x with
  moved := [tRefused] }
theorem test_moved : ((nextOf (exec .movedCompletion (tMoved 0))).xbarAt .e).wait.length = 1 ∧
    (nextOf (exec .movedCompletion (tMoved 0))).core.moved = [] ∧
    (nextOf (exec .movedCompletion (tMoved 0x10))).core.moved.length = 1 := by decide +kernel
theorem witness_Migrations_policy : ∀ may, ∃ (s : State) (pte base size pa : Nat) (new : Fin 4 × Nat),
    s.pageWalk s.inp.part (s.inp.off.toNat % 2 ^ 57) = .ok (pte, base, size) ∧ pte / 2 ^ 10 % 4 = 1 ∧ pte.testBit 44 = false ∧
    (rangeAt (s.partAt s.inp.part) (s.inp.off.toNat % 2 ^ 57)).isEmpty = true ∧ pageHome pte ≠ (s.inp.n % 4, 0) ∧
    pte / 2 ^ 46 % 4 ≠ 2 ∧ pa = pte / 2 ^ 12 % 2 ^ 32 * 4096 ∧ (s.partAt s.inp.part).reserve.find? (·.1.val == s.inp.n % 4) = some new ∧
    s.mayMigrate s.inp.part base (pageHome pte).1 pa size (s.inp.n % 4) new.2 = may := by
  intro may
  have r : ∀ may, (rangeAt ((tPolicy 0 [] may).partAt 0) 0).isEmpty = true ∧
      ((tPolicy 0 [] may).partAt 0).reserve.find? (·.1.val == 1) = some (1, 0x4000020000) := by decide +kernel
  have h : pageHome 0xC000000000010400 ≠ (1, 0) := by decide
  exact ⟨tPolicy 0 [] may, 0xC000000000010400, 0, 0x1000, 0x10000, (1, 0x4000020000), ok_of (by cases may <;> decide +kernel),
    by decide, by decide, (r may).1, h, by decide, by decide, (r may).2, may_policy 0 [] may (.inl rfl)⟩
/-- A read of the page has been accepted by a crossbar. -/
def tBusy (s : State) : State := s.onXbar .e fun b => { b with recv := [tPkt (.read [0x10FFF])] }
theorem witness_Migrations_ports : ∃ (s : State) (g : Migration), s.migrationAt s.inp.part (s.inp.off.toNat % 2 ^ 57) = some g ∧
    g.step = 0 ∧ g.cmd = none ∧
    (∀ k ∈ (s.xbarAt .e).accepted ++ (s.xbarAt .w).accepted, ∀ a ∈ k.body.places, g.covers a = false) ∧
    (s.fabAt .e).reqs ++ (s.fabAt .w).reqs = [] :=
  ⟨tPolicy 0x10 [tMig 0] true, tMig 0, by decide +kernel⟩
theorem witness_Migrations_busy : ∃ (s : State) (g : Migration), s.migrationAt s.inp.part (s.inp.off.toNat % 2 ^ 57) = some g ∧
    g.step = 0 ∧ g.cmd = none ∧
    ∃ k ∈ (s.xbarAt .e).accepted ++ (s.xbarAt .w).accepted, ∃ a ∈ k.body.places, g.covers a = true :=
  ⟨tBusy (tPolicy 0x10 [tMig 0] true), tMig 0, by decide +kernel⟩
theorem witness_Migrations_early : ∃ (s : State) (g : Migration) (r : Nat × Nat × Nat),
    s.migrationAt s.inp.part (s.inp.off.toNat % 2 ^ 57) = some g ∧ g.step = 0 ∧ g.cmd = none ∧ s.pageWalk s.inp.part g.off = .ok r :=
  ⟨tPolicy 0x10 [tMig 0] true, tMig 0, (0xC000100000010400, 0, 0x1000), by decide +kernel, rfl, rfl, ok_of (by decide +kernel)⟩
theorem witness_Migrations_copied : ∀ may, ∃ (s : State) (g : Migration) (pte base size : Nat),
    s.migrationAt s.inp.part (s.inp.off.toNat % 2 ^ 57) = some g ∧ g.step = 1 ∧ g.cmd = none ∧
    s.pageWalk s.inp.part g.off = .ok (pte, base, size) ∧ s.mayMigrate s.inp.part g.off (pageHome pte).1 g.pa g.size g.home g.newPa = may ∧
    g.home < 4 ∧ pte / 2 ^ 46 % 4 ≠ 2 ∧ g.newPa < 2 ^ 44 ∧ g.newPa % 4096 = 0 ∧ pte.testBit 44 = true ∧
    ∀ e ∈ leavesOf s (s.ms.mem.copyRange g.pa g.newPa g.size) s.inp.part g.off, e + 8 ≤ g.newPa ∨ g.newPa + g.size ≤ e := by
  intro may
  have w : ∀ may, (tPolicy 0x10 [tMig 1] may).migrationAt 0 0 = some (tMig 1) ∧
    ∀ e ∈ leavesOf (tPolicy 0x10 [tMig 1] may) ((tPolicy 0x10 [tMig 1] may).ms.mem.copyRange 0x10000 0x4000020000 0x1000) 0 0,
      e + 8 ≤ 0x4000020000 ∨ 0x4000020000 + 0x1000 ≤ e := by decide +kernel
  exact ⟨tPolicy 0x10 [tMig 1] may, tMig 1, 0xC000100000010400, 0, 0x1000, (w may).1, rfl, rfl, ok_of (by cases may <;> decide +kernel),
    may_policy 0x10 [tMig 1] may (.inr rfl), by decide, by decide, by decide, by decide, by decide, (w may).2⟩
theorem witness_Migrations_moved : ∃ (s : State) (g : MovedPkt) (l : List MovedPkt) (pte base size : Nat),
    (s.coreAt s.inp.core).moved = g :: l ∧ s.pageWalk g.part g.off = .ok (pte, base, size) ∧ pte.testBit 44 = false :=
  ⟨tMoved 0, tRefused, [], 0xC000000000010400, 0, 0x1000, by decide +kernel, ok_of (by decide +kernel), by decide⟩
theorem witness_Migrations_moving : ∃ (s : State) (g : MovedPkt) (l : List MovedPkt) (pte base size : Nat),
    (s.coreAt s.inp.core).moved = g :: l ∧ s.pageWalk g.part g.off = .ok (pte, base, size) ∧ pte.testBit 44 = true :=
  ⟨tMoved 0x10, tRefused, [], 0xC000100000010400, 0, 0x1000, by decide +kernel, ok_of (by decide +kernel), by decide⟩

/-! ### The fabric -/

/-- A packet of a kind, class 0 to 3, of job 5 to device d, with its source in module 3. -/
def tPacket (op tc d : Nat) : FabPacket :=
  { (default : FabPacket) with route := routeWord 5 d false tc 0 op, src := 3, va := 8 }
/-- Job 5 is known at port 7 and at the endpoint; x = 1 is reached by port 0, x = 2 has no route; each dimension has 15 modules. -/
def tFabric (f : Fabric → Fabric) (s : State := State.reset) : State := s.onFab .e fun x => f { x with
  members := [(some 7, 3, 5, 0), (none, 4, 5, 0)], routes := [(false, 0, 1, 0x4001), (false, 0, 2, 0xC000)], dims := #v[14, 14, 14] }
def tArrive (k : FabPacket) (f : Fabric → Fabric := id) : State := tEv { pkt := k, rin := .port 7 } (tFabric f)
/-- R22, R26: a read in class 1, and a packet at a port that does not know its job, are dropped. -/
theorem test_drop : ((nextOf (exec .routerPacketArrive (tArrive (tPacket 0 1 0)))).fabAt .e).counts.get 4 = 1 ∧
    ((nextOf (exec .routerPacketArrive (tEv { pkt := tPacket 0 0 0, rin := .port 8 } (tFabric id)))).fabAt .e).counts.get 4 = 1 := by
  decide +kernel
theorem test_eject : ((nextOf (exec .routerPacketArrive (tArrive (tPacket 0 0 0)))).fabAt .e).ejected = [tPacket 0 0 0] ∧
    ((nextOf (exec .routerPacketArrive (tArrive (tPacket 0 0 0)))).fabAt .e).credits = [(7, 0)] := by decide +kernel
theorem hop_out : ((tArrive (tPacket 0 0 1)).fabAt .e).hop (tPacket 0 0 1) [0, 1, 2] = .out 0 0 true := by
  have e : ((tArrive (tPacket 0 0 1)).fabAt .e).entry false 0 1 = 0x4001 := by decide +kernel
  have b : (tPacket 0 0 1).bank = false := by decide +kernel
  have d : (tPacket 0 0 1).dim 0 = 1 := by decide +kernel
  have f : fld 0x4001 15 14 = 1 := by decide
  have g : setBits 12 (fld 0x4001 11 0) = [0] := by decide
  simp [Fabric.hop, b, d, e, f, g, Nat.mod_one]
theorem test_replay : ((nextOf (exec .flitReplay (tEv { fport := 7, vc := 1, n := 9 } (tFabric id)))).fabAt .e).accepted =
    [(7, 1, 9)] := by decide +kernel
def tChan (free : Nat) (at_ : W) (f : Fabric → Fabric) : State :=
  tFabric (fun x => f { x with vcs := [⟨0, 0, free, none, some at_⟩] }) (tEv { fport := 0, vc := 0 })
theorem test_credit : (((nextOf (exec .creditReturn (tChan 15 0 id))).fabAt .e).chanAt 0 0).free = 16 ∧
    (((nextOf (exec .creditReturn (tChan 16 0 id))).fabAt .e).chanAt 0 0).free = 16 := by decide +kernel
/-- The endpoint's packet waits for port 0 since cycle 0. -/
def tWait : FabWait := ⟨.inject, .own, 0, tPacket 0 0 1⟩
def tBlocked (t : W) : State := { tChan 0 0 (fun x => { x with waiting := [tWait] }) with cyc := t }
theorem test_hedge : ((nextOf (exec .hedgeQueueAssign (tBlocked 512))).fabAt .e).hedges.length = 1 ∧
    ((nextOf (exec .hedgeQueueAssign (tBlocked 511))).fabAt .e).hedges.length = 0 := by decide +kernel
def tHedge (l : List RouterIn) : Hedge := ⟨0, 2, ⟨1, 0⟩, l, [], some 0⟩
def tHedged (t : W) (l : List RouterIn) (n : Nat) : State :=
  { tEv { slot := 2, flow := ⟨1, 0⟩, n := n } (tFabric fun x => { x with hedges := [tHedge l] }) with cyc := t }
theorem test_hedge_release : ((nextOf (exec .hedgeQueueRelease (tHedged 1024 [] 0))).fabAt .e).hedges = [] ∧
    ((nextOf (exec .hedgeQueueRelease (tHedged 1023 [] 0))).fabAt .e).hedges = [tHedge []] := by decide +kernel
theorem test_notice : ((nextOf (exec .congestionNotice (tEv { flow := ⟨3, 1⟩ }))).fabAt .e).halved = [⟨3, 1⟩] ∧
    ((nextOf (exec .hedgeReleaseNotice (tEv { flow := ⟨3, 1⟩ } (State.reset.onFab .e fun x => { x with halved := [⟨3, 1⟩] })))).fabAt
      .e).halved = [] := by decide +kernel

/-- What a witness says of a packet that a router takes in: by port p, of the rules and the job, its next dimension, and that the
router holds nothing. -/
abbrev tEnters (s : State) (p : Fin 72) (e : Option (Fin 3 × Nat)) : Prop :=
  let f := s.fabAt s.inp.die
  let k := s.inp.pkt
  s.inp.crc = false ∧ f.connected p = true ∧ k.bad = none ∧ k.key ≠ 0 ∧
  (f.members.any fun e => e.1 == some p && e.2.2.1.toNat == k.key) = true ∧ k.op < 9 ∧ nextDim f k = e ∧ Fabric.clear f
theorem witness_RouterPackets_closed : (tArrive (tPacket 0 0 0) fun x => { x with dims := #v[0, 0, 0] }).inp.rin = .port 7 ∧
    ((tArrive (tPacket 0 0 0) fun x => { x with dims := #v[0, 0, 0] }).fabAt .e).connected 7 = false := by decide +kernel
theorem witness_RouterPackets_bad : (tArrive (tPacket 0 1 0)).inp.pkt.bad = some 1 ∧ (tArrive (tPacket 0 1 0)).inp.crc = false ∧
    ((tArrive (tPacket 0 1 0)).fabAt .e).connected 7 = true := by decide +kernel
theorem witness_RouterPackets_stranger : ∃ (s : State) (p : Fin 72), s.inp.pkt.bad = none ∧ s.inp.rin = .port p ∧ s.inp.pkt.op < 9 ∧
    s.inp.crc = false ∧ (s.fabAt s.inp.die).connected p = true ∧ ∀ e ∈ (s.fabAt s.inp.die).members, e.1 ≠ some p :=
  ⟨tEv { pkt := tPacket 8 3 0, rin := .port 8 } (tFabric id), 8, by decide +kernel, rfl, by decide +kernel, rfl, by decide +kernel,
    fun e h => by
      have a : ((tFabric id).fabAt .e).members.all (fun e => e.1 != some 8) = true := by decide +kernel
      simpa using List.all_eq_true.1 a e h⟩
theorem witness_RouterPackets_eject : tEnters (tArrive (tPacket 0 0 0)) 7 none := by decide +kernel
theorem witness_RouterPackets_none : tEnters (tArrive (tPacket 0 0 2)) 7 (some (0, 0xC000)) := by decide +kernel
theorem witness_RouterPackets_out : tEnters (tArrive (tPacket 0 0 1)) 7 (some (0, 0x4001)) ∧ (0x4001).testBit 0 = true ∧
    ((tArrive (tPacket 0 0 1)).fabAt .e).connected 0 = true ∧
    (tPacket 0 0 1).flits = 1 ∧ ((tArrive (tPacket 0 0 1)).fabAt .e).chanAt 0 (tPacket 0 0 1).chan = ⟨0, 0, 16, none, none⟩ := by
  decide +kernel
theorem witness_RouterPackets_full : tEnters (tArrive (tPacket 0 0 1) fun x => { x with vcs := [⟨0, 0, 0, none, none⟩] }) 7 (some (0, 0x4001)) ∧
    (((tArrive (tPacket 0 0 1) fun x => { x with vcs := [⟨0, 0, 0, none, none⟩] }).fabAt .e).chanAt 0 (tPacket 0 0 1).chan).free = 0 := by
  decide +kernel
theorem witness_RouterPackets_replay : ∃ s : State, (s.fabAt s.inp.die).lastSeq s.inp.fport s.inp.vc + 1 = s.inp.n :=
  ⟨tEv { fport := 7, vc := 1, n := 1 } (tFabric id), by decide +kernel⟩
/-- The endpoint of die E, of module 5, has a packet of a kind for x = d to inject. -/
def tInject (op d : Nat) (f : Fabric → Fabric) : State := tEv { rin := .inject } (tFabric fun x =>
  f { x with outq := [tPacket op 0 d], my := #v[5, 0, 0] })
/-- What a witness says of a packet that the endpoint has to inject. -/
abbrev tInjects (s : State) (j : FabPacket) (held early own : Bool) (e : Option (Fin 3 × Nat)) : Prop :=
  let f := s.fabAt s.inp.die
  s.inp.rin = .inject ∧ f.outq = [j] ∧
  (decide (j.isRequest = true ∧ ∃ r ∈ f.reqs, r.injected = true ∧ r.bank ≠ f.injbank ∧ r.dst.toNat % 4096 = j.dst % 4096) = held) ∧
  decide (j.flow ∈ f.halved ∧ j.flow ∉ f.passed) = early ∧ decide (j.dst % 4096 = f.me .e % 4096) = own ∧
  (j.setBank f.injbank).bad = none ∧ nextDim f (j.setBank f.injbank) = e ∧ Fabric.clear f
theorem witness_RouterPackets_inject : tInjects (tInject 0 1 id) (tPacket 0 0 1) false false false (some (0, 0x4001)) ∧
    tInjects (tInject 0 5 id) (tPacket 0 0 5) false false true none ∧
    tInjects (tInject 0 1 fun x => { x with halved := [⟨1, 0⟩] }) (tPacket 0 0 1) false true false (some (0, 0x4001)) ∧
    tInjects (tInject 0 1 fun x => { x with halved := [⟨1, 0⟩], passed := [⟨1, 0⟩] }) (tPacket 0 0 1) false false false (some (0, 0x4001)) ∧
    tInjects (tInject 0 1 fun x => { x with reqs := [⟨0, 0, 1, 1, 9, 0, true, 0, 1, true, [], 0, 0⟩] }) (tPacket 0 0 1) true false false
      (some (0, 0x4001)) := by decide +kernel
/-- R26, R27, R29: an injection is counted; a held one is not. -/
theorem test_inject : ((nextOf (exec .routerPacketArrive (tInject 0 5 id))).fabAt .e).counts.toList = [1, 0, 1, 0, 0, 0] ∧
    ((nextOf (exec .routerPacketArrive (tInject 0 5 fun x => { x with halved := [⟨5, 0⟩] }))).fabAt .e).passed = [⟨5, 0⟩] := by decide +kernel
theorem witness_FabricFlow : ∃ s : State, Fabric.clear (s.fabAt s.inp.die) ∧
    ((s.fabAt s.inp.die).chanAt s.inp.fport s.inp.vc).free = 16 := ⟨tChan 16 0 id, by decide +kernel⟩
theorem witness_FabricFlow_assign : ∃ (s : State) (at_ : W) (w : FabWait), let f := s.fabAt s.inp.die
    (f.chanAt s.inp.fport s.inp.vc).since = some at_ ∧ (f.chanAt s.inp.fport s.inp.vc).free = 0 ∧ f.waiting = [w] ∧ f.hedges = [] ∧
    (∀ v ∈ f.vcs, v.busy = none) ∧ w.port = s.inp.fport ∧ w.pkt.chan = s.inp.vc ∧ at_.toNat + 512 = s.cyc.toNat ∧ w.inp = .inject ∧
    w.pkt.flits = 1 ∧ f.connected s.inp.fport = true := ⟨tBlocked 512, 0, tWait, by decide +kernel⟩
theorem witness_FabricFlow_release : ∃ (s : State) (h : Hedge) (at_ : W), let f := s.fabAt s.inp.die
    f.hedges = [h] ∧ h.port = s.inp.fport ∧ h.slot.val = s.inp.slot.val ∧ h.empty = some at_ ∧ h.pkts = [] ∧ f.waiting = [] ∧
    (∀ v ∈ f.vcs, v.busy = none) ∧ h.ups = [.inject] ∧ at_.toNat + 1024 = s.cyc.toNat :=
  ⟨tHedged 1024 [.inject] 0, tHedge [.inject], 0, by decide +kernel⟩
theorem witness_FabricFlow_beyond : ∃ (s : State) (h : Hedge), let f := s.fabAt s.inp.die
    s.inp.n ≠ 0 ∧ f.hedges = [h] ∧ h.port = s.inp.fport ∧ h.flow = s.inp.flow ∧ h.pkts = [] ∧ h.ups = [] ∧ f.waiting = [] ∧
    ∀ v ∈ f.vcs, v.busy = none := ⟨tHedged 0 [] 1, tHedge [], by decide +kernel⟩
theorem witness_FabricFlow_notice : ∃ s : State, s.inp.n = 0 ∧ s.inp.flow ∈ (s.fabAt s.inp.die).halved :=
  ⟨tEv { flow := ⟨3, 1⟩ } (State.reset.onFab .e fun x => { x with halved := [⟨3, 1⟩] }), by decide +kernel⟩

/-- A request of a kind stands at the endpoint, for address va, with four bytes; masters are the access table's. -/
def tReqPkt (op : Nat) (va : W) : FabPacket := { tPacket op 0 0 with va := va, cnt := 4, data := if op = 0 then [] else [1, 2, 3, 4] }
def tRequest (op : Nat) (va : W) (masters : List (BitVec 10)) : State :=
  tFabric (fun x => { x with ejected := [tReqPkt op va] }) (tMapped 0 masters State.reset)
def tLoc : Loc := { place := 0x10008, attr := { idx := some 0 } }
theorem access_at {s : State} {m : BitVec 10} {right : Nat} {v : Bool} (h : ∀ i : Fin 32, s.accessOk (.slice .e i) m 0 right false = v) :
    s.accessOk (targetOf 0x10008) m 0 right false = v := by
  have e : targetOf 0x10008 = .slice .e (Config.hash32 (fld 0x10008 37 12)) := by
    unfold targetOf
    rw [if_neg (by omega), if_pos (by omega), if_pos (by omega)]
  rw [e]; exact h _
theorem tr_request (op : Nat) (h : op < 4) (l : List (BitVec 10)) (hl : l = [] ∨ l = [0x344]) :
    (tRequest op 8 l).translate 0 0 8 (reqKind (tReqPkt op 8)) .walk = .ok tLoc := by
  have q : ∀ op < 4, ∀ l ∈ [[], [0x344]], (match (tRequest op 8 l).translate 0 0 8 (reqKind (tReqPkt op 8)) .walk with
    | .ok r => decide (r = tLoc)
    | _ => false) = true := by decide +kernel
  exact tr_of (q op h l (by rcases hl with rfl | rfl <;> simp))
theorem witness_FabricRequests : ∀ op < 4, ∃ (s : State) (k : FabPacket) (p : PartId) (m : Fin 64) (l : Loc), served s k p m l 4 ∧
    k.op = op ∧ k.op0.getLsbD 63 = false ∧ k.op0.toNat % 16 = 0 ∧ k.ens = [] ∧ l.attr.fmt = 0 ∧ k.cnt = 4 ∧
    (op ≠ 0 → k.data.length = 4) := by
  intro op h
  have r : ∀ op < 4, ((tRequest op 8 [0x344]).fabAt .e).ejected = [tReqPkt op 8] ∧
      ((tRequest op 8 [0x344]).fabAt .e).member none (tReqPkt op 8).key = some (4, 0) ∧
      (∀ i < 4, (tRequest op 8 [0x344]).ms.mem.isPoisoned (0x10008 + i) = false) ∧
      (∀ i : Fin 32, (tRequest op 8 [0x344]).accessOk (.slice .e i) 0x344 0 (reqKind (tReqPkt op 8)).right false = true) ∧
      (tReqPkt op 8).op = op ∧ (tReqPkt op 8).op0.getLsbD 63 = false ∧ (tReqPkt op 8).op0.toNat % 16 = 0 ∧
      (tReqPkt op 8).ens = [] ∧ (tReqPkt op 8).cnt = 4 ∧ (op ≠ 0 → (tReqPkt op 8).data.length = 4) := by decide +kernel
  have r := r op h
  have a := access_at (s := tRequest op 8 [0x344]) r.2.2.2.1
  exact ⟨tRequest op 8 [0x344], tReqPkt op 8, 0, 4, tLoc,
    ⟨r.1, r.2.1, tr_request op h [0x344] (.inr rfl), by decide, by decide, by decide, List.forall_mem_nil _, a, r.2.2.1⟩,
    r.2.2.2.2.1, r.2.2.2.2.2.1, r.2.2.2.2.2.2.1, r.2.2.2.2.2.2.2.1, rfl, r.2.2.2.2.2.2.2.2.1, r.2.2.2.2.2.2.2.2.2⟩
theorem tr_fault {x : Tr} {c r : Nat} (h : (match x with
    | .fault a b => decide (a = c ∧ b = r)
    | _ => false) = true) : x = .fault c r := by
  cases x <;> simp_all
theorem witness_FabricRequests_fault : ∀ op < 4, ∃ (s : State) (k : FabPacket) (c r : Nat), (s.fabAt s.inp.die).ejected = [k] ∧
    k.op = op ∧ k.op0.getLsbD 63 = false ∧ (s.fabAt s.inp.die).member none k.key = some (4, 0) ∧
    s.translate (toCore (k.op2.toNat % 256)) 0 k.va (reqKind k) .walk = .fault c r := by
  intro op h
  have q : ∀ op < 4, (((tRequest op 0x8000000000000000 []).fabAt .e).ejected = [tReqPkt op 0x8000000000000000] ∧ (tReqPkt op 0x8000000000000000).op = op ∧
      (tReqPkt op 0x8000000000000000).op0.getLsbD 63 = false ∧
      ((tRequest op 0x8000000000000000 []).fabAt .e).member none (tReqPkt op 0x8000000000000000).key = some (4, 0)) ∧
    (match (tRequest op 0x8000000000000000 []).translate (toCore ((tReqPkt op 0x8000000000000000).op2.toNat % 256)) 0
        (tReqPkt op 0x8000000000000000).va (reqKind (tReqPkt op 0x8000000000000000)) .walk with
      | .fault a b => decide (a = 9 ∧ b = 0)
      | _ => false) = true := by decide +kernel
  exact ⟨tRequest op 0x8000000000000000 [], tReqPkt op 0x8000000000000000, 9, 0, (q op h).1.1, (q op h).1.2.1, (q op h).1.2.2.1, (q op h).1.2.2.2, tr_fault (q op h).2⟩
theorem witness_FabricRequests_refused : ∀ op < 4, ∃ (s : State) (k : FabPacket) (l : Loc), (s.fabAt s.inp.die).ejected = [k] ∧
    k.op = op ∧ k.op0.getLsbD 63 = false ∧ (s.fabAt s.inp.die).member none k.key = some (4, 0) ∧
    s.translate (toCore (k.op2.toNat % 256)) 0 k.va (reqKind k) .walk = .ok l ∧ l.place < 2 ^ 80 ∧ s.ms.migrations = [] ∧
    s.accessOk (targetOf l.place) (.ofNat 10 (0x340 + (4 : Fin 64).val)) 0 (reqKind k).right l.sys = false := by
  intro op h
  have q : ∀ op < 4, ((tRequest op 8 []).fabAt .e).ejected = [tReqPkt op 8] ∧ (tReqPkt op 8).op = op ∧
      (tReqPkt op 8).op0.getLsbD 63 = false ∧ ((tRequest op 8 []).fabAt .e).member none (tReqPkt op 8).key = some (4, 0) ∧
      (∀ i : Fin 32, (tRequest op 8 []).accessOk (.slice .e i) 0x344 0 (reqKind (tReqPkt op 8)).right false = false) := by decide +kernel
  have q := q op h
  exact ⟨tRequest op 8 [], tReqPkt op 8, tLoc, q.1, q.2.1, q.2.2.1, q.2.2.2.1, tr_request op h [] (.inl rfl), by decide, rfl,
    access_at q.2.2.2.2⟩
theorem witness_FabricRequests_dropped : ∃ (s : State) (k : FabPacket), (s.fabAt s.inp.die).ejected = [k] ∧ k.op = 0 ∧
    (s.fabAt s.inp.die).member none k.key = none :=
  ⟨(State.reset.onFab .e fun x => { x with ejected := [tReqPkt 0 8] }), tReqPkt 0 8, by decide +kernel⟩

/-- An answer of a kind has come for tag 0; core 0's access 1 waits for packet 9 of it. -/
def tFabReq (unit : Nat) : FabReq := ⟨0, 0, unit, 1, 9, 0, true, 0, 0, false, [], 0, 0⟩
def tAnswer (op : Nat) (l : List FabReq) : State :=
  tFabric (fun x => { x with ejected := [tPacket op 1 0], reqs := l }) (tRun fun x =>
    { x with loads := [{ tLoad with left := [9] }], stores := [{ tStoreReq with left := [9] }] })
theorem test_answer : (nextOf (exec .readResponse (tAnswer 4 [tFabReq 0]))).core.loads.map (·.left) = [[]] ∧
    (nextOf (exec .completionAcknowledgement (tAnswer 5 [tFabReq 0]))).core.stores.map (·.left) = [[]] := by decide +kernel
/-- What a witness says of an answer of a kind: it has come, for a request r or for none. -/
abbrev tAnswers (s : State) (k : FabPacket) (op : Nat) (r : Option FabReq) : Prop :=
  ((s.fabAt s.inp.die).member none k.key).isSome = true ∧ (s.fabAt s.inp.die).firstOf [op] = some k ∧
  (s.fabAt s.inp.die).reqs.find? (·.tag == k.tag) = r ∧ k.op0 = 0
theorem witness_FabricAnswers : tAnswers (tAnswer 4 [tFabReq 0]) (tPacket 4 1 0) 4 (some (tFabReq 0)) ∧
    (tAnswer 4 [tFabReq 0]).core.loads = [{ tLoad with left := [9] }] ∧ tLoad.id = 1 ∧ tLoad.acq = false ∧ tLoad.fences = [] ∧
    tLoad.laid = [] := by decide +kernel
theorem witness_FabricAnswers_ack : tAnswers (tAnswer 5 [tFabReq 0]) (tPacket 5 1 0) 5 (some (tFabReq 0)) ∧
    (tAnswer 5 [tFabReq 0]).core.stores = [{ tStoreReq with left := [9] }] ∧ tStoreReq.id = 1 := by decide +kernel
theorem witness_FabricAnswers_none : tAnswers (tAnswer 4 []) (tPacket 4 1 0) 4 none ∧ tAnswers (tAnswer 5 []) (tPacket 5 1 0) 5 none := by
  decide +kernel
/-- Core 0's copy command waits for packet 9, of data or of an acknowledgement; its outbox for a word. -/
def tAnswerCopy (op : Nat) (l : List FabReq) : State :=
  tFabric (fun x => { x with ejected := [tPacket op 1 0], reqs := l }) ((tEngine { tCopyRun (.cCopy tCopyF) .finish with
    out := [9], rd := { noRead with left := [9] } }).mapCore fun x => { x with mail := { x.mail with outbox := [⟨1, 5, true, none, []⟩] } })
theorem witness_FabricAnswers_copy : tAnswers (tAnswerCopy 4 [tFabReq 1]) (tPacket 4 1 0) 4 (some (tFabReq 1)) ∧
    tAnswers (tAnswerCopy 5 [tFabReq 1]) (tPacket 5 1 0) 5 (some (tFabReq 1)) ∧
    ((tAnswerCopy 4 [tFabReq 1]).core.copy.get 0).run.map (fun q => (q.rd.left, q.out, q.wd, q.cmd.acq)) = some ([9], [9], none, false) ∧
    tAnswers (tAnswerCopy 5 [tFabReq 4]) (tPacket 5 1 0) 5 (some (tFabReq 4)) ∧
    (tAnswerCopy 5 [tFabReq 4]).core.mail.outbox.map (fun w => (w.outstanding, w.dst.toNat)) = [(true, (tFabReq 4).req)] := by decide +kernel
def tLate (t : W) : State := { (tEngine { tCopyRun (.cCopy tCopyF) .finish with out := [9] }).onFab .e (fun x =>
  { x with reqs := [tFabReq 1], members := [(none, 4, 5, 0)] }) with cyc := t }
theorem test_timeout : ((nextOf (exec .requestTimeout (tLate 150000))).core.copy.get 0).run.map (·.err) = some (some 0x0A) ∧
    ((nextOf (exec .requestTimeout (tLate 149999))).core.copy.get 0).run.map (·.err) = some none := by decide +kernel
theorem witness_FabricAnswers_timeout : ∃ (s : State) (r : FabReq) (q : CopyRun),
    (s.fabAt .e).reqs = [r] ∧ (s.fabAt .w).reqs = [] ∧ r.injected = true ∧
    r.core = s.inp.core ∧ r.unit = s.inp.ctx.val + 1 ∧ ((s.coreAt r.core).copy.get s.inp.ctx).run = some q ∧ q.err = none ∧
    r.pkt ∈ q.out ∧ r.cycle.toNat + 150000 = s.cyc.toNat :=
  ⟨tLate 150000, tFabReq 1, { tCopyRun (.cCopy tCopyF) .finish with out := [9] }, by decide +kernel⟩

/-- An inbox word for core 0, which holds n words; the classroom of core 0 is partition 0's, or nobody's. -/
def tInbox (n : Nat) (mine : Bool) : State :=
  let s := tFabric (fun x => { x with ejected := [{ tPacket 7 3 0 with va := 0, op0 := 5 }] })
    (tRun fun x => { x with mail := { x.mail with inbox := .replicate n (1, 3) } })
  { s with fw := { s.fw with partmap := #v[if mine then 1 else 0, 0] } }
theorem test_inbox : (nextOf (exec .inboxWord (tInbox 63 true))).core.mail.inbox.length = 64 ∧
    (nextOf (exec .inboxWord (tInbox 64 true))).fw.tele.refusals = 1 := by decide +kernel
/-- What a witness says of an inbox word: its core's partition, and how many words are there. -/
abbrev tInboxAt (s : State) (q : Option PartId) (n : Nat) : Prop :=
  (s.fabAt s.inp.die).firstOf [7] = some { tPacket 7 3 0 with va := 0, op0 := 5 } ∧
  (s.fabAt s.inp.die).member none (tPacket 7 3 0).key = some (4, 0) ∧ s.partOfCore 0 = q ∧
  (s.partAt (s.coreAt 0).csr.part.toFin).swapped = false ∧ (s.coreAt 0).mail.inbox.length = n
theorem witness_InboxWords : tInboxAt (tInbox 63 true) (some 0) 63 ∧ tInboxAt (tInbox 64 true) (some 0) 64 ∧
    tInboxAt (tInbox 0 false) none 0 := by decide +kernel
/-- The outbox of core 0 holds a word for core 2 of this module. -/
def tWord (sent : Bool) (r : Option W) : OutWord := ⟨0x200002, 5, sent, r, []⟩
def tOutbox (w : OutWord) (f : State → State) : State :=
  let s := f (tRun fun x => { x with mail := { x.mail with outbox := [w] } })
  { s with fw := { s.fw with partmap := #v[1, 0] }, cyc := 256 }
theorem test_outbox : (nextOf (exec .outboxSend (tOutbox (tWord false none) id))).core.mail.outbox = [tWord true none] ∧
    (nextOf (exec .outboxResend (tOutbox (tWord false (some 257)) id))).core.mail.outbox = [tWord false (some 257)] := by decide +kernel
/-- What a witness says of the outbox: its one word, and whether that goes to a core here. -/
abbrev tOutboxAt (s : State) (w : OutWord) (bad home : Bool) : Prop :=
  (s.coreAt s.inp.core).mail.outbox = [w] ∧ (s.fabAt .e).reqs ++ (s.fabAt .w).reqs = [] ∧ w.dst.toNat.testBit 21 = home ∧
  decide (w.dst.toNat / 2 ^ 22 ≠ 0 ∨ if home = true then w.dst.toNat / 2 ^ 8 % 2 ^ 13 ≠ 0 ∨
      s.partOfCore (toCore (w.dst.toNat % 256)) ≠ some (s.coreAt s.inp.core).csr.part.toFin
    else s.devBad s.inp.core (w.dst.toNat / 2 ^ 8 % 2 ^ 13) = true) = bad ∧
  (∀ n ∈ w.after, n ∉ (s.coreAt s.inp.core).openIds) ∧ (s.partAt (s.coreAt s.inp.core).csr.part.toFin).swapped = false
def tAway (d : Nat) : OutWord := ⟨.ofNat 64 d, 5, false, none, []⟩
theorem witness_InboxWords_send : tOutboxAt (tOutbox (tWord false none) id) (tWord false none) false true ∧
    tOutboxAt (tOutbox (tWord false (some 256)) id) (tWord false (some 256)) false true ∧
    tOutboxAt (tOutbox (tAway 0x002) id) (tAway 0x002) false false ∧ tOutboxAt (tOutbox (tAway 0x102) id) (tAway 0x102) true false ∧
    tOutboxAt (tOutbox (tWord true none) id) (tWord true none) false true := by decide +kernel
theorem witness_InboxWords_stays : ∃ (s : State) (w : OutWord), (s.coreAt s.inp.core).mail.outbox = [w] ∧
    (∃ n ∈ w.after, n ∈ (s.coreAt s.inp.core).openIds) ∧ (s.partAt (s.coreAt s.inp.core).csr.part.toFin).swapped = true :=
  ⟨tOutbox { tWord false none with after := [1] } fun s => (s.mapCore fun x => { x with stores := [tStoreReq] }).onPart 0 fun p => { p with swapped := true },
    { tWord false none with after := [1] }, by decide +kernel, ⟨1, by decide +kernel, by decide +kernel⟩, by decide +kernel⟩
theorem witness_InboxWords_lost : ∃ (s : State) (w : OutWord) (r : FabReq), (s.coreAt s.inp.core).mail.outbox = [w] ∧
    (s.fabAt .e).reqs = [r] ∧ r.core = s.inp.core ∧ r.unit = 4 ∧ r.injected = true ∧ r.cycle.toNat + 150000 ≤ s.cyc.toNat ∧
    w.outstanding = true ∧ w.dst.toNat = r.req :=
  ⟨{ tOutbox (tWord true none) (tFabric (fun x => { x with reqs := [{ tFabReq 4 with req := 0x200002 }] }) ·) with cyc := 150000 },
    tWord true none, { tFabReq 4 with req := 0x200002 }, by decide +kernel⟩
theorem witness_InboxWords_refusal : ∃ (s : State) (k : FabPacket) (r : FabReq) (w : OutWord),
    (s.fabAt s.inp.die).firstOf [8] = some k ∧ ((s.fabAt s.inp.die).member none k.key).isSome = true ∧
    ((s.fabAt s.inp.die).reqs.find? fun r => r.tag == k.tag && r.unit == 4) = some r ∧
    (s.coreAt r.core).mail.outbox = [w] ∧ w.outstanding = true ∧ w.dst.toNat = r.req :=
  ⟨tOutbox (tWord true none) (tFabric (fun x => { x with ejected := [tPacket 8 3 0], reqs := [{ tFabReq 4 with req := 0x200002 }] }) ·),
    tPacket 8 3 0, { tFabReq 4 with req := 0x200002 }, tWord true none, by decide +kernel⟩

/-- A chunk of one byte for the relay whose stream begins at 8, which core 0 receives by context 0. -/
def tChunk : FabPacket := { tPacket 6 2 0 with op1 := 8, data := [0x5A] }
def tRelay : CopyRun := { tCopyRun (.cRelay tCopyF) .relayRecv with cmd := { tCopyCmd (.cRelay tCopyF) with quad := [0, 8, 1, 0] } }
def tRelayS : State := tFabric (fun x => { x with ejected := [tChunk], relays := [(8, 0, 0)] }) (tMapped 0 [masterOf 0 1] (tEngine tRelay))
theorem relay_reach : tRelayS.reachAll 0 0 none ((List.range tChunk.data.length).map fun i => tChunk.va + .ofNat 64 i) .copyWrite =
    .ok [(8, 0x10008, false)] := by
  have t : tRelayS.translate 0 0 8#64 .copyWrite .walk = .ok { place := 0x10008, attr := { idx := some 0 } } := tr_of (by decide +kernel)
  have a : tRelayS.mayAccess (masterOf 0 1) 0 .copyWrite { place := 0x10008, attr := { idx := some 0 } } = true :=
    access_of (by decide) (by decide +kernel)
  have l : (List.range tChunk.data.length).map (fun i => tChunk.va + .ofNat 64 i) = [8] := by decide +kernel
  have p : (tRelayS.coreAt 0).csr.part.toFin = 0 := by decide +kernel
  have c : coreIx 0 = 1 := rfl
  have r : tRelayS.reach 0 0 8#64 .copyWrite = .at_ 0x10008 false := by
    simp only [State.reach, p, t, c, a]
    rfl
  have e : ([0] : List Nat).eraseDups = [0] := rfl
  rw [l]
  simp [State.reachAll, State.reachOn, e, List.find?, r]
/-- What a witness says of a chunk: what takes it. -/
abbrev tChunkAt (s : State) (e : Option (W × CoreId × Ctx)) : Prop :=
  (s.fabAt s.inp.die).firstOf [6] = some tChunk ∧ (s.fabAt s.inp.die).member none tChunk.key = some (4, 0) ∧
  ((s.fabAt s.inp.die).relays.find? fun e => e.1 == tChunk.op1 && (s.coreAt e.2.1).csr.part.toFin == 0) = e
theorem witness_RelayChunks : tChunkAt tRelayS (some (8, 0, 0)) ∧ ((tRelayS.coreAt 0).copy.get 0).run = some tRelay ∧
    tRelay.cmd.q 1 = tChunk.op1 ∧ tRelay.phase = .relayRecv ∧ tRelay.stop = none ∧ (tRelay.cmd.q 2).getLsbD 63 = false ∧
    0 < tChunk.data.length ∧
    tRelayS.reachAll 0 0 none ((List.range tChunk.data.length).map fun i => tChunk.va + .ofNat 64 i) .copyWrite = .ok [(8, 0x10008, false)] ∧
    [(8, 0x10008, false)].map (fun a : W × Nat × Bool => a.2.1) = (List.range tChunk.data.length).map (0x10008 + ·) ∧
    0x10008 + tChunk.data.length ≤ 2 ^ 45 :=
  ⟨by decide +kernel, by decide +kernel, by decide +kernel, rfl, rfl, by decide +kernel, by decide +kernel, relay_reach, by decide +kernel,
    by decide +kernel⟩
theorem witness_RelayChunks_none : tChunkAt (tRelayS.onFab .e fun x => { x with relays := [] }) none ∧
    tChunkAt (tFabric (fun x => { x with ejected := [tChunk], relays := [(8, 0, 0)] }) (tEngine { tRelay with phase := .finish }))
      (some (8, 0, 0)) := by decide +kernel

/-! ### Crossbars and slices -/

/-- Output 64 of die E, which leads to its slice 0, with a packet of core 0 waiting; the slice holds n packets. -/
def tArb (n : Nat) (last : Option W) : State :=
  let s := tEv { die := .e, xport := 64 } (State.reset.onXbar .e fun b => { b.setSlice 0 { b.sliceAt 0 with
    recv := List.replicate n (tPkt (.read [0])) } with
    wait := [{ tPkt (.read [8]) with at_ := 100 }], outs := [⟨64, last, .replicate 4 1, .replicate 4 []⟩] })
  { s with cyc := 100 }
/-- R377, R380: granted in the cycle it waits from, the packet is in the slice's buffer two cycles later; a full buffer, and
an output that has granted in this cycle, grant nothing. -/
theorem test_grant : (((nextOf (exec .xbarArbitrate (tArb 7 none))).xbarAt .e).sliceAt 0).recv.map (·.at_) =
    List.replicate 7 0 ++ [102] ∧
    (((nextOf (exec .xbarArbitrate (tArb 8 none))).xbarAt .e).sliceAt 0).recv.length = 8 ∧
    (((nextOf (exec .xbarArbitrate (tArb 0 (some 100)))).xbarAt .e).sliceAt 0).recv = [] := by decide +kernel
/-- Packets wait for an output of die E, whose order of grants is l. -/
def tHeads (port : Fin 128) (l : List Pkt) (lrg : List (Fin 128)) : State :=
  let s := tEv { die := .e, xport := port } (State.reset.onXbar .e fun b => { b with
    wait := l, outs := [⟨port, none, .replicate 4 2, .replicate 4 lrg⟩] })
  { s with cyc := 100 }
def tHead (port : Fin 128) (id : Nat) (inp : Fin 128) (vc : Fin 4) (age : Nat) : Pkt :=
  { tPkt (.read [8]) with id := id, inp := inp, vc := vc, age := age, out := port, at_ := 100 }
/-- R380: the lower channel, the input granted less recently, the packet that has aged. -/
theorem test_pick : (let g := fun (l : List Pkt) => (((nextOf (exec .xbarArbitrate (tHeads 64 l [0, 1]))).xbarAt .e).sliceAt 0).recv.map (·.id)
    (g [tHead 64 1 0 1 0, tHead 64 2 1 0 0], g [tHead 64 1 1 1 0, tHead 64 2 0 1 0], g [tHead 64 1 0 1 64, tHead 64 2 1 0 0])) =
    ([2], [2], [1]) := by decide +kernel
/-- What a witness says of packets that wait for a slice's output. -/
abbrev tHeadsAt (s : State) (l : List Pkt) : Prop :=
  let b := s.xbarAt s.inp.die
  s.inp.xport.val = 64 + (0 : Fin 32).val ∧ (b.recv.filter fun j => j.out == s.inp.xport) = [] ∧ (b.sliceAt 0).recv.length < 8 ∧
  (b.outAt s.inp.xport).last ≠ some s.cyc ∧ s.ms.migrations = [] ∧ headsFor s b s.inp.xport l
theorem witness_Arbitration : tHeadsAt (tArb 7 none) [{ tPkt (.read [8]) with at_ := 100 }] ∧
    tHeadsAt (tHeads 64 [tHead 64 1 0 1 0, tHead 64 2 1 0 0] []) [tHead 64 1 0 1 0, tHead 64 2 1 0 0] ∧
    tHeadsAt (tHeads 64 [tHead 64 1 1 1 0, tHead 64 2 0 1 0] [0, 1]) [tHead 64 1 1 1 0, tHead 64 2 0 1 0] ∧
    ((tHeads 64 [tHead 64 1 1 1 0, tHead 64 2 0 1 0] [0, 1]).xbarAt .e |>.outAt 64).lrg.get 1 = [0, 1] ∧
    ((tHeads 64 [tHead 64 1 1 1 0, tHead 64 2 0 1 0] [0, 1]).xbarAt .e |>.outAt 64).c.get 0 ≠ 0 ∧
    tHeadsAt (tHeads 64 [tHead 64 1 0 1 64, tHead 64 2 1 0 0] []) [tHead 64 1 0 1 64, tHead 64 2 1 0 0] := by decide +kernel
theorem witness_Arbitration_full : ∃ s : State, s.inp.xport.val = 64 + (0 : Fin 32).val ∧
    ((s.xbarAt s.inp.die).sliceAt 0).recv.length = 8 ∧
    ((s.xbarAt s.inp.die).recv.filter fun j => j.out == s.inp.xport) = [] := ⟨tArb 8 none, by decide +kernel⟩
theorem witness_Arbitration_granted : ∃ s : State, s.inp.xport.val = 64 + (0 : Fin 32).val ∧
    ((s.xbarAt s.inp.die).outAt s.inp.xport).last = some s.cyc ∧
    ((s.xbarAt s.inp.die).recv.filter fun j => j.out == s.inp.xport) = [] := ⟨tArb 0 (some 100), by decide +kernel⟩
/-- An answer to core 0's access 1 waits for, or has reached, its desk's output. -/
def tDesk (b : PBody) : Pkt := { tHead 0 9 64 2 0 with core := 0, unit := 0, req := 1, body := b }
def tDeskS (b : PBody) : State :=
  let s := tEv { die := .e, xport := 0 } ((tRun fun x => { x with
    loads := [{ tLoad with left := [9] }], stores := [{ tStoreReq with left := [9] }] }).onXbar .e fun y => { y with recv := [tDesk b] })
  { s with cyc := 100 }
theorem witness_Arbitration_desk : ∀ b ∈ [PBody.ack [] 0 [], .data [(0, 5)] [] []],
    headsFor (tHeads 0 [tDesk b] []) ((tHeads 0 [tDesk b] []).xbarAt .e) 0 [tDesk b] ∧ ((tHeads 0 [tDesk b] []).xbarAt .e).recv = [] ∧
    ((tHeads 0 [tDesk b] []).xbarAt .e |>.outAt 0).last ≠ some (tHeads 0 [tDesk b] []).cyc ∧ (tDesk b).body = b := by decide +kernel
theorem witness_Arbitration_answer : ∀ b ∈ [PBody.ack [] 0 [], .data [(0, 5)] [] []],
    ((tDeskS b).xbarAt .e).wait = [] ∧ ((tDeskS b).xbarAt .e).recv = [tDesk b] ∧ (tDesk b).out = 0 ∧
    (tDesk b).at_.toNat ≤ (tDeskS b).cyc.toNat ∧ (tDesk b).unit = 0 ∧
    ((tDeskS b).coreAt (tDesk b).core).stores = [{ tStoreReq with left := [9] }] ∧ tStoreReq.id = (tDesk b).req ∧
    ((tDeskS b).coreAt (tDesk b).core).loads = [{ tLoad with left := [9] }] ∧ tLoad.id = (tDesk b).req ∧ tLoad.acq = false ∧
    tLoad.fences = [] ∧ tLoad.laid = [] := by decide +kernel
theorem test_desk : (nextOf (exec .xbarArbitrate (tDeskS (.ack [] 0 [])))).core.stores.map (·.left) = [[]] ∧
    (nextOf (exec .xbarArbitrate (tDeskS (.data [(0, 5)] [] [])))).core.loads.map (·.left) = [[]] := by decide +kernel

/-- Slice 0 of die E at cycle t. -/
def tSlice (f : Slice → Slice) (t : W) : State :=
  let s := tEv { die := .e, n := 0 } (State.reset.onXbar .e fun b => b.setSlice 0 (f (b.sliceAt 0)))
  { s with cyc := t, ms := { s.ms with mem := ⟨[(8, 0x5A)], []⟩ } }
def tSliceOf (o : Out) : Slice := ((nextOf o).xbarAt .e).sliceAt 0
def tRead8 : Pkt := tPkt (.read [8])
def tWrite8 : Pkt := tPkt (.write [(8, 0x77, 0xFF)] none)
/-- R381: a write is taken in the cycle and done in four; a slice with no entry refuses the read (03_host R54). -/
theorem test_take : (tSliceOf (exec .sliceTakePacket (tSlice (fun q => { q with recv := [tWrite8] }) 100))).writes.map (·.2) = [104] ∧
    (tSliceOf (exec .sliceTakePacket (tSlice (fun q => { q with recv := [tWrite8] }) 100))).took = some 100 := by
  decide +kernel
/-- The state of tSlice in which every slice of die E lets core 0's copy engine 1 read and write. -/
def tOpen (s : State) : State := { s with ms := { s.ms with access := (List.finRange 32).map fun i => ⟨.slice .e i, 1, 0x8007⟩ } }
theorem allowed_of {s : State} {k : Pkt} {right : Nat} (hp : k.body.places = [8])
    (h : ∀ i : Fin 32, s.accessOk (.slice .e i) k.master k.part right false = true) : allowed s k right := by
  intro a ha
  rw [hp, List.mem_singleton] at ha
  subst ha
  have e : targetOf 8 = .slice .e (Config.hash32 (fld 8 37 12)) := by
    unfold targetOf
    rw [if_neg (by omega), if_pos (by omega), if_pos (by omega)]
  rw [e]; exact h _
theorem refused_of {s : State} {k : Pkt} {right : Nat} (hp : k.body.places = [8])
    (h : ∀ i : Fin 32, s.accessOk (.slice .e i) k.master k.part right false = false) : ¬ allowed s k right := by
  intro g
  have e : targetOf 8 = .slice .e (Config.hash32 (fld 8 37 12)) := by
    unfold targetOf
    rw [if_neg (by omega), if_pos (by omega), if_pos (by omega)]
  have g := g 8 (by rw [hp]; exact List.mem_singleton.mpr rfl)
  rw [e, h] at g
  exact Bool.false_ne_true g
theorem test_read_data : (tSliceOf (exec .sliceReadData (tSlice (fun q => { q with reads := [(tRead8, 140)] }) 140))).reads = [] ∧
    (tSliceOf (exec .sliceReadData (tSlice (fun q => { q with reads := [(tRead8, 140)] }) 139))).reads.length = 1 := by decide +kernel
/-- R381: before its cycle a write is not performed. -/
theorem test_write_early :
    (nextOf (exec .sliceWriteComplete (tSlice (fun q => { q with writes := [(tWrite8, 104)] }) 103))).ms.mem.read 8 = 0x5A := by
  decide +kernel
/-- R382: 5,850 cycles from start to start; 96 cycles long; then the write that waited takes its four cycles. -/
theorem test_refresh : (tSliceOf (exec .sliceRefreshStart (tSlice (fun q => { q with refreshed := some 10 }) 5860))).refresh = some 5860 ∧
    (tSliceOf (exec .sliceRefreshStart (tSlice (fun q => { q with refreshed := some 10 }) 5859))).refresh = none := by decide +kernel
theorem test_refresh_end :
    (tSliceOf (exec .sliceRefreshEnd (tSlice (fun q => { q with refresh := some 10, writes := [(tWrite8, 0)] }) 106))).writes.map
      (·.2) = [110] ∧
    (tSliceOf (exec .sliceRefreshEnd (tSlice (fun q => { q with refresh := some 10 }) 105))).refresh = some 10 := by decide +kernel
/-- What a witness says of slice 0 of die E: what it does not do, and what has come. -/
abbrev tSliceAt (s : State) (l : List Pkt) : Prop :=
  let q := (s.xbarAt s.inp.die).sliceAt (Fin.ofNat 32 s.inp.n)
  q.refresh = none ∧ q.took ≠ some s.cyc ∧ q.recv = l ∧ ∀ k ∈ l, k.at_.toNat ≤ s.cyc.toNat
def tTake : State := tSlice (fun q => { q with recv := [tWrite8, tRead8] }) 100
theorem witness_SliceAccesses : tSliceAt (tOpen tTake) [tWrite8, tRead8] ∧ tWrite8.body.isRead = false ∧ tRead8.body = .read [8] ∧
    allowed (tOpen tTake) tRead8 0 ∧ (tOpen tTake).ms.mem.isPoisoned 8 = false :=
  ⟨by decide +kernel, by decide +kernel, rfl, allowed_of (by decide +kernel) (by decide +kernel), by decide +kernel⟩
theorem witness_SliceAccesses_refused : tSliceAt tTake [tWrite8, tRead8] ∧ ¬ allowed tTake tRead8 0 :=
  ⟨by decide +kernel, refused_of (by decide +kernel) (by decide +kernel)⟩
theorem witness_SliceAccesses_write : ∀ n < 5, let s := tSlice (fun q => { q with
      recv := [tWrite8], writes := List.replicate n (tWrite8, 104) }) 100
    tSliceAt s [tWrite8] ∧ tWrite8.body.isRead = false ∧ ((s.xbarAt s.inp.die).sliceAt (Fin.ofNat 32 s.inp.n)).writes.length = n := by
  decide +kernel
theorem witness_SliceAccesses_refresh : ∃ s : State,
    ((s.xbarAt s.inp.die).sliceAt (Fin.ofNat 32 s.inp.n)).refresh.isSome = true :=
  ⟨tSlice (fun q => { q with refresh := some 1 }) 100, by decide +kernel⟩
theorem witness_SliceAccesses_data : ∃ (s : State) (k : Pkt) (at_ : W),
    ((s.xbarAt s.inp.die).sliceAt (Fin.ofNat 32 s.inp.n)).reads = [(k, at_)] ∧ at_.toNat = s.cyc.toNat :=
  ⟨tSlice (fun q => { q with reads := [(tRead8, 140)] }) 140, tRead8, 140, by decide +kernel⟩
theorem witness_SliceAccesses_early : ∃ (s : State) (k : Pkt) (at_ : W),
    ((s.xbarAt s.inp.die).sliceAt (Fin.ofNat 32 s.inp.n)).reads = [(k, at_)] ∧ s.cyc.toNat + 1 = at_.toNat :=
  ⟨tSlice (fun q => { q with reads := [(tRead8, 140)] }) 139, tRead8, 140, by decide +kernel⟩
/-- What a witness says of a write of slice 0 whose cycle has come. -/
abbrev tDone (s : State) (k : Pkt) (w : List (Nat × Byte × Byte)) : Prop :=
  ((s.xbarAt s.inp.die).sliceAt (Fin.ofNat 32 s.inp.n)).writes = [(k, 104)] ∧ k.body = .write w none ∧
  ((s.xbarAt s.inp.die).sliceAt (Fin.ofNat 32 s.inp.n)).refresh = none ∧ w ≠ [] ∧
  (∀ x ∈ w, x.1 < 2 ^ 45 ∧ x.2.2 = 0xFF#8 ∧ s.ms.mem.isPoisoned x.1 = false) ∧ (w.map (·.1)).Nodup ∧ (104 : W).toNat = s.cyc.toNat
def tWriteS : State := tSlice (fun q => { q with writes := [(tWrite8, 104)] }) 104
theorem witness_SliceAccesses_complete : tDone (tOpen tWriteS) tWrite8 [(8, 0x77, 0xFF)] ∧ allowed (tOpen tWriteS) tWrite8 1 ∧
    tDone tWriteS tWrite8 [(8, 0x77, 0xFF)] ∧ ¬ allowed tWriteS tWrite8 1 :=
  ⟨by decide +kernel, allowed_of (by decide +kernel) (by decide +kernel), by decide +kernel, refused_of (by decide +kernel) (by decide +kernel)⟩
theorem witness_SliceRefresh : ∃ (s : State) (r : W), ((s.xbarAt s.inp.die).sliceAt (Fin.ofNat 32 s.inp.n)).refresh = none ∧
    (∀ w ∈ ((s.xbarAt s.inp.die).sliceAt (Fin.ofNat 32 s.inp.n)).writes, s.cyc.toNat + 4 ≤ w.2.toNat) ∧
    ((s.xbarAt s.inp.die).sliceAt (Fin.ofNat 32 s.inp.n)).refreshed = some r ∧ r.toNat + 5850 = s.cyc.toNat :=
  ⟨tSlice (fun q => { q with refreshed := some 10, writes := [(tWrite8, 5864)] }) 5860, 10, by decide +kernel⟩
theorem witness_SliceRefresh_end : ∃ (s : State) (r : W),
    ((s.xbarAt s.inp.die).sliceAt (Fin.ofNat 32 s.inp.n)).refresh = some r ∧ r.toNat + 96 = s.cyc.toNat :=
  ⟨tSlice (fun q => { q with refresh := some 10 }) 106, 10, by decide +kernel⟩

/-! ### A step, encoding and the invariant -/

/-- Bundle 0 of core 0's active half holds a word in its first slot, and core 0's turn is next. -/
def tSlot (w : Nat) (f : Core → Core) : State := { (tRun fun x => f { x with
  halves := x.halves.set 0 { x.halves.get 0 with cells := [(0, .ofNat _ w)] } }) with order := [.seq 0] }
/-- Core 0 as its turn finds it. -/
def tTurn (s : State) : State := s.atTurn 0 []
theorem group_ok {x : Except Violation Group} {P : Group → Prop} [DecidablePred P] (h : (match x with
    | .ok g => decide (P g)
    | .error _ => false) = true) : ∃ g, x = .ok g ∧ P g := by
  cases x with
  | ok g => exact ⟨g, rfl, by simpa using h⟩
  | error _ => simp at h
theorem next_ok {o : Out} {P : State → Prop} [DecidablePred P] (h : (match o with
    | .next u => decide (P u)
    | _ => false) = true) : ∃ u, o = .next u ∧ P u := by
  cases o with
  | next u => exact ⟨u, rfl, by simpa using h⟩
  | _ => simp at h
theorem micro_ok {x : Except SlotErr Instr} {i : Instr} (h : (match x with
    | .ok j => decide (j = i)
    | .error _ => false) = true) : x = .ok i := by cases x <;> simp_all
def tSbar : Nat := (encodeWord true (.cSbar 0 true 3 true false false)).getD 0
/-- s.addi s4, s2, 44 issues from reset's placed word, is held while s2 is empty; a group that fails takes its trap. -/
theorem test_step_placed : (nextOf (step (State.reset.withFetchWord 32 0x0402422C))).core.seq.pc.slot = 1 ∨
    (nextOf (step (State.reset.withFetchWord 32 0x8402422C))).core.seq.pc.slot = 1 := by decide +kernel
theorem test_step_addi : (nextOf (step (tSlot 0x8402422C id))).core.seq.pc.slot = 1 ∧
    (nextOf (step (tSlot 0x8402422C fun x => x.onRegs (·.mark .s 2 .empty)))).core.seq.pc.slot = 0 := by decide +kernel
theorem witness_SlotIsFetched : ∃ (s : State) (i : Instr), s.core.activeHalf.stale = [] ∧ s.core.seq.pc.bundle ≤ 4095 ∧
    s.core.seq.pc.slot < 4 ∧ bitOf s.slotHere.w 31 = true ∧ s.slotHere.isOp = true ∧ decodeSlot s.slotHere.w = .ok i ∧
    csrNamed i = true := ⟨tSlot 0x8402422C id, .sAddi 4 ⟨true, 2⟩ 0x2C, by decide +kernel, by decide +kernel, by decide +kernel, by decide +kernel,
    by decide +kernel, micro_ok (by decide +kernel), by decide⟩
theorem witness_SlotIsFetched_last : ∃ (s : State) (i : Instr), s.core.activeHalf.stale = [] ∧ s.core.seq.pc.bundle = 4095 ∧
    s.core.seq.pc.slot = 3 ∧ bitOf s.slotHere.w 31 = true ∧ s.slotHere.isOp = true ∧ decodeSlot s.slotHere.w = .ok i ∧
    csrNamed i = true :=
  ⟨tRun fun x => { x with
    seq := { x.seq with pc := { x.seq.pc with bundle := 4095, slot := 3 } }
    halves := x.halves.set 0 { x.halves.get 0 with cells := [(4095, 0x8402422C * 2 ^ 96)] } }, .sAddi 4 ⟨true, 2⟩ 0x2C, by decide +kernel,
    by decide +kernel, by decide +kernel, by decide +kernel, by decide +kernel, micro_ok (by decide +kernel), by decide⟩
/-- A group that may issue, and what becomes of its one operation. -/
def issues (s : State) (P : State → Prop) : Prop := s.order = [.seq 0] ∧ (tTurn s).mayIssue ∧ ∃ g, (tTurn s).nextGroup = .ok g ∧
  g.sync = none ∧ g.stamp = none ∧ (tTurn s).groupWaits g = false ∧ ∃ i x, g.ops = [(i, x)] ∧
  ∃ u, exec i { (tTurn s).beginGroup g with issue := { ((tTurn s).beginGroup g).issue with ctx := x } } = .next u ∧ P u
/-- The same, to be evaluated. -/
def issuesB (s : State) (P : State → Bool) : Bool := s.order == [.seq 0] && decide (tTurn s).mayIssue &&
  match (tTurn s).nextGroup with
  | .ok g => g.sync.isNone && g.stamp.isNone && !(tTurn s).groupWaits g && (match g.ops with
    | [(i, x)] => (match exec i { (tTurn s).beginGroup g with issue := { ((tTurn s).beginGroup g).issue with ctx := x } } with
      | .next u => P u
      | _ => false)
    | _ => false)
  | .error _ => false
theorem issues_of {s : State} {P : State → Bool} (h : issuesB s P = true) : issues s fun u => P u = true := by
  unfold issuesB at h
  simp only [Bool.and_eq_true, beq_iff_eq, decide_eq_true_eq] at h
  obtain ⟨⟨h1, h2⟩, h⟩ := h
  refine ⟨h1, h2, ?_⟩
  cases hg : (tTurn s).nextGroup with
  | error _ => simp [hg] at h
  | ok g =>
    simp only [hg, Bool.and_eq_true, Option.isNone_iff_eq_none, Bool.not_eq_true'] at h
    obtain ⟨⟨⟨a, b⟩, c⟩, h⟩ := h
    refine ⟨g, rfl, a, b, c, ?_⟩
    split at h
    · rename_i i x he
      refine ⟨i, x, he, ?_⟩
      split at h
      · rename_i u hu; exact ⟨u, hu, h⟩
      · simp at h
    · simp at h
theorem witness_GroupIssues : ∃ s : State, issues s fun u => (!u.issue.held && u.issue.fails.isEmpty && u.issue.compare.isNone) = true :=
  ⟨tSlot 0x8402422C id, issues_of (by decide +kernel)⟩
theorem witness_GroupIssues_held : ∃ s : State, issues s fun u => u.issue.held = true :=
  ⟨tSlot 0x8402422C fun x => x.onRegs (·.mark .s 2 .empty), issues_of (by decide +kernel)⟩
theorem witness_GroupIssues_fails : ∃ s : State, issues s fun u => (!u.issue.held && !u.issue.fails.isEmpty) = true :=
  ⟨tSlot tSbar id, issues_of (by decide +kernel)⟩
/-- A c.copy with the release flag, of one of two replicas: a compare point. -/
theorem witness_GroupIssues_compare : ∃ s : State, issues s fun u => (!u.issue.held && u.issue.fails.isEmpty && u.issue.compare.isSome) = true :=
  ⟨tSlot ((encodeWord true (.cCopy { tCopyF with rel := true })).getD 0) fun x => { (tCopyS.core) with
    seq := { x.seq with pc := x.seq.pc }, halves := x.halves, csr := { tCopyS.core.csr with nrep := 2 } }, issues_of (by decide +kernel)⟩
theorem witness_GroupIssues_waits : ∃ (s : State) (g : Group), s.order = [.seq 0] ∧ (tTurn s).mayIssue ∧ (tTurn s).nextGroup = .ok g ∧
    g.sync = none ∧ g.stamp = none ∧ g.ops.any ((tTurn s).core.waitsFor (tTurn s).cyc) = true := by
  have h : ∃ g, (tTurn (tSlot 0x8402422C fun x => { x with busy := [(.s, 2, 5)] })).nextGroup = .ok g ∧
      (g.sync = none ∧ g.stamp = none ∧ g.ops.any ((tTurn (tSlot 0x8402422C fun x => { x with busy := [(.s, 2, 5)] })).core.waitsFor
        (tTurn (tSlot 0x8402422C fun x => { x with busy := [(.s, 2, 5)] })).cyc) = true) :=
    group_ok (by decide +kernel)
  obtain ⟨g, h⟩ := h
  exact ⟨tSlot 0x8402422C fun x => { x with busy := [(.s, 2, 5)] }, g, by decide +kernel,
    by decide +kernel, h⟩
/-- Word 0 of the running call is u.mma 0, 1, 3. -/
def tMicroTurn : State := { tMicro [0x41030000] [] id with order := [.micro 0] }
theorem witness_OtherTurns : ∃ (s : State) (r : MRun) (i : Instr), s.order = [.micro 0] ∧
    (s.atTurn 0 []).microReady 0 = some r ∧ 5 ≤ r.routine.toNat ∧
    ((s.atTurn 0 []).core.routineAt r.routine).1 + r.upc ≤ 4095 ∧ decodeMicro ((s.atTurn 0 []).core.microWord
      (((s.atTurn 0 []).core.routineAt r.routine).1 + r.upc)) = .ok i := by
  have h : ∃ r, (tMicroTurn.atTurn 0 []).microReady 0 = some r ∧ 5 ≤ r.routine.toNat ∧
      ((tMicroTurn.atTurn 0 []).core.routineAt r.routine).1 + r.upc ≤ 4095 ∧ ((tMicroTurn.atTurn 0 []).core.microWord
      (((tMicroTurn.atTurn 0 []).core.routineAt r.routine).1 + r.upc)) = 0x41030000 := some_of (by decide +kernel)
  obtain ⟨r, a, b, c, d⟩ := h
  exact ⟨tMicroTurn, r, .uMma 0 1 3, by decide +kernel, a, b, c, by rw [d]; exact micro_ok (by decide +kernel)⟩
theorem witness_OtherTurns_stop : ∃ (s : State) (r : MRun), s.order = [.micro 0] ∧ (s.atTurn 0 []).microReady 0 = some r ∧
    5 ≤ r.routine.toNat ∧ ((s.atTurn 0 []).core.routineAt r.routine).1 + r.upc ≤ 4095 ∧
    ∃ e, decodeMicro ((s.atTurn 0 []).core.microWord (((s.atTurn 0 []).core.routineAt r.routine).1 + r.upc)) = .error e := by
  have h : ∃ r, ({ tMicro [0xFFFFFFFF] [] id with order := [.micro 0] }.atTurn 0 []).microReady 0 = some r ∧ 5 ≤ r.routine.toNat ∧
      (({ tMicro [0xFFFFFFFF] [] id with order := [.micro 0] }.atTurn 0 []).core.routineAt r.routine).1 + r.upc ≤ 4095 ∧
      (match decodeMicro (({ tMicro [0xFFFFFFFF] [] id with order := [.micro 0] }.atTurn 0 []).core.microWord
        ((({ tMicro [0xFFFFFFFF] [] id with order := [.micro 0] }.atTurn 0 []).core.routineAt r.routine).1 + r.upc)) with
        | .ok _ => false
        | .error _ => true) = true := some_of (by decide +kernel)
  obtain ⟨r, a, b, c, d⟩ := h
  refine ⟨{ tMicro [0xFFFFFFFF] [] id with order := [.micro 0] }, r, rfl, a, b, c, ?_⟩
  cases e : decodeMicro (({ tMicro [0xFFFFFFFF] [] id with order := [.micro 0] }.atTurn 0 []).core.microWord
        ((({ tMicro [0xFFFFFFFF] [] id with order := [.micro 0] }.atTurn 0 []).core.routineAt r.routine).1 + r.upc)) with
  | ok _ => rw [e] at d; simp at d
  | error v => exact ⟨v, rfl⟩
theorem witness_OtherTurns_idle : ∃ s : State, s.order = [.micro 0] ∧ (s.atTurn 0 []).microReady 0 = none :=
  ⟨{ State.reset with order := [.micro 0] }, by decide +kernel⟩
theorem witness_OtherTurns_others : ∀ t ∈ [Turn.window .e, .readC 0 0, .power [0]], ∃ s : State, s.order = [t] ∧ s.postedBy 0 = false :=
  fun t _ => ⟨{ State.reset with order := [t] }, rfl, by rfl⟩
theorem witness_OtherTurns_event : ∃ s : State, s.order = [.ev .thermalAlarm {}] :=
  ⟨{ State.reset with order := [.ev .thermalAlarm {}] }, by decide +kernel⟩
theorem witness_OtherTurns_tick : ∃ s : State, s.order = [.tick 1] := ⟨{ State.reset with order := [.tick 1] }, by decide +kernel⟩
theorem witness_OtherTurns_plan : ∃ s : State, s.order = [.plan 7] := ⟨{ State.reset with order := [.plan 7] }, by decide +kernel⟩
theorem witness_OtherTurns_none : ∃ s : State, s.order = [] := ⟨State.reset, by decide +kernel⟩
/-- R74: a dump is asked for at a physical address of no region. -/
def tHole : State := (tDump 0x1000).onPart 0 fun p => { p with dumpbase := 0x10000000000 }
theorem witness_NoStepRefuses : ∃ (s : State) (f : Fault), exec .dumpWritten s = .fault f := ⟨tHole, .hole 0x10000000000, fault_of (by decide +kernel)⟩
theorem witness_EncodingRoundTrips : ∃ (i : Instr) (g : Bool) (w : Nat), i.wf = true ∧ encodeWord g i = some w ∧ i.isMicro = false :=
  ⟨.sAddi 4 ⟨true, 2⟩ 0x2C, true, 0x8402422C, by decide +kernel⟩
theorem witness_EncodingRoundTrips_micro : ∃ (i : Instr) (w : Nat), i.wf = true ∧ encodeWord false i = some w ∧ i.isMicro = true :=
  ⟨.uMma 0 1 3, 0x41030000, by decide +kernel⟩
/-- Data of HBM is copied to die W; the form holds before and after. -/
theorem witness_StepKeepsMemories : ∃ (s t : State), s.Canonical ∧ step s = .next t ∧ t.ms.mem.read 0x4000010002 = 0x80 := by
  have h : ∃ t, step { tReformat (2 ^ 49) (2 ^ 60) 8 with order := [.ev .recastRewriteEnd {}] } = .next t ∧
      t.ms.mem.read 0x4000010002 = 0x80 := next_ok (by decide +kernel)
  obtain ⟨t, a, b⟩ := h
  exact ⟨_, t, ⟨by decide +kernel, every_core (q := fun x => x.scratch.wf) (by decide +kernel), by decide +kernel⟩, a, b⟩

end
end

section
/-!
SUPPORT. Errors of memories and instruction halves at rest (01_module R17, 07_faults R140 to R142): what the events of O45
do, from what each of the state's operations does.
-/

namespace Sys2Proof.Machine

/-! ### Counts by place -/

/-- A search does not meet what a filter keeps out, when the filter keeps all it searches for. -/
theorem find?_filter_of_imp {α : Type} {p q : α → Bool} (h : ∀ e, q e = true → p e = true) (l : List α) :
    (l.filter p).find? q = l.find? q := by
  rw [List.find?_filter]
  congr 1
  funext e
  rw [Bool.eq_iff_iff, decide_eq_true_eq]
  exact and_iff_right_of_imp (h e)

theorem countOf_bumpPlace_same (l : List (Place × Nat)) (p : Place) : countOf (bumpPlace l p) p = countOf l p + 1 := by
  simp [countOf, bumpPlace]

theorem countOf_bumpPlace_other (l : List (Place × Nat)) {p q : Place} (h : q ≠ p) :
    countOf (bumpPlace l p) q = countOf l q := by
  have hp : (p == q) = false := by simpa using h.symm
  unfold countOf bumpPlace
  rw [List.find?_cons_of_neg (by simp [hp]), find?_filter_of_imp]
  intro e he
  rw [beq_iff_eq] at he
  simpa [he] using h

/-! ### Poison -/

theorem mem_numInsert : ∀ (l : List Nat) (a b : Nat), b ∈ numInsert l a ↔ b = a ∨ b ∈ l
  | [], a, b => by simp [numInsert]
  | k :: r, a, b => by
    unfold numInsert
    split
    · simp
    · split
      · next h => simp [h]
      · simp [mem_numInsert r a b, or_left_comm]

/-- Poisoning a word poisons every byte of it. -/
theorem Memory.isPoisoned_poisonAt_same (m : Memory) {a b : Nat} (h : b / 8 = a / 8) : (m.poisonAt a).isPoisoned b = true := by
  simp [Memory.isPoisoned, Memory.poisonAt, mem_numInsert, h]

theorem Memory.isPoisoned_poisonAt_other (m : Memory) {a b : Nat} (h : b / 8 ≠ a / 8) :
    (m.poisonAt a).isPoisoned b = m.isPoisoned b := by
  have h8 : b / 8 * 8 ≠ a / 8 * 8 := by omega
  simp [Memory.isPoisoned, Memory.poisonAt, mem_numInsert, h8]

/-! ### Freezes (R140) -/

@[simp] theorem Core.freezeMore_freeze (now : Nat) (x : Core) : (x.freezeMore now).seq.freeze = max now x.seq.freeze + 8 := rfl
@[simp] theorem Core.freezeMore_regs (now : Nat) (x : Core) : (x.freezeMore now).regs = x.regs := rfl
@[simp] theorem Core.freezeMore_csr (now : Nat) (x : Core) : (x.freezeMore now).csr = x.csr := rfl
@[simp] theorem Core.freezeMore_scratch (now : Nat) (x : Core) : (x.freezeMore now).scratch = x.scratch := rfl
@[simp] theorem Core.freezeMore_acc (now : Nat) (x : Core) : (x.freezeMore now).acc = x.acc := rfl

@[simp] theorem State.coreAt_onXbar (s : State) (d : Die) (f : Xbar → Xbar) (c : CoreId) :
    (s.onXbar d f).coreAt c = s.coreAt c := rfl
@[simp] theorem State.coreAt_onTele (s : State) (f : Telemetry → Telemetry) (c : CoreId) :
    (s.onTele f).coreAt c = s.coreAt c := rfl
@[simp] theorem State.tele_onTele (s : State) (f : Telemetry → Telemetry) : (s.onTele f).fw.tele = f s.fw.tele := rfl

/-- The cores that an error on a core freezes: that core, and in a timetable partition each core of the partition. -/
def State.freezesWith (s : State) (c d : CoreId) : Bool :=
  d == c || ((s.partAt (s.coreAt c).csr.part.toFin).tt &&
    (s.coreAt d).csr.part.toFin == (s.coreAt c).csr.part.toFin)

theorem State.freezesWith_iff (s : State) (c d : CoreId) : s.freezesWith c d = true ↔
    (d = c ∨ ((s.partAt (s.coreAt c).csr.part.toFin).tt = true ∧
      (s.coreAt d).csr.part.toFin = (s.coreAt c).csr.part.toFin)) := by
  simp [State.freezesWith]

/-- A correctable error as telemetry counts it. -/
def State.countCorrectable (s : State) : State :=
  s.onTele fun t => { t with correctable := bumpPlace t.correctable s.inp.place }

/-- The cores that an error freezes are those of the core whose array it lies in, and their requests come later. -/
def State.frozenFor (s : State) (c : CoreId) : State :=
  ((s.countCorrectable.onCores (fun d _ => s.freezesWith c d) (Core.freezeMore s.cyc.toNat)).onXbar .e
    (Xbar.delay8 s.cyc (s.freezesWith c))).onXbar .w (Xbar.delay8 s.cyc (s.freezesWith c))

theorem exec_correctableError (s : State) : exec .correctableError s = .next (match freezes s.inp.place with
    | none => s.countCorrectable
    | some c => s.frozenFor c) := by
  show execCorrectableError s = _
  unfold execCorrectableError State.frozenFor State.countCorrectable
  cases s.inp.place <;> rfl

/-- An error outside the arrays of a core is counted, and that is all. -/
theorem exec_correctableError_none {s : State} (h : freezes s.inp.place = none) :
    exec .correctableError s = .next s.countCorrectable := by
  rw [exec_correctableError, h]

theorem exec_correctableError_some {s : State} {c : CoreId} (h : freezes s.inp.place = some c) :
    exec .correctableError s = .next (s.frozenFor c) := by
  rw [exec_correctableError, h]

/-- R17, R140, R141: what a correctable error does. -/
theorem correctableError_effect (s : State) : ∃ t : State, exec .correctableError s = .next t ∧ t.ms = s.ms ∧
    countOf t.fw.tele.correctable s.inp.place = countOf s.fw.tele.correctable s.inp.place + 1 ∧
    (∀ q, q ≠ s.inp.place → countOf t.fw.tele.correctable q = countOf s.fw.tele.correctable q) ∧
    (freezes s.inp.place = none → t.cores = s.cores) ∧
    (∀ c, freezes s.inp.place = some c → ∀ d, t.coreAt d =
      if s.freezesWith c d then (s.coreAt d).freezeMore s.cyc.toNat else s.coreAt d) := by
  cases h : freezes s.inp.place with
  | none =>
    refine ⟨_, exec_correctableError_none h, rfl, countOf_bumpPlace_same _ _, fun q hq => countOf_bumpPlace_other _ hq,
      fun _ => rfl, ?_⟩
    rintro c ⟨⟩
  | some c =>
    have htele : (s.frozenFor c).fw = s.countCorrectable.fw := by simp [State.frozenFor]
    refine ⟨_, exec_correctableError_some h, by simp [State.frozenFor, State.countCorrectable], ?_, fun q hq => ?_, ?_, ?_⟩
    · rw [htele]
      exact countOf_bumpPlace_same _ _
    · rw [htele]
      exact countOf_bumpPlace_other _ hq
    · rintro ⟨⟩
    · rintro _ ⟨⟩ d
      simp [State.frozenFor, State.countCorrectable]

/-- R140: a freeze ends when its cycles are over. -/
theorem freezeEnd_effect (s : State) : ∃ t : State, exec .freezeEnd s = .next t ∧ t.ms = s.ms ∧
    ((s.coreAt s.inp.core).seq.freeze ≤ s.cyc.toNat →
      t.coreAt s.inp.core = { s.coreAt s.inp.core with seq := { (s.coreAt s.inp.core).seq with freeze := 0 } }) ∧
    (s.cyc.toNat < (s.coreAt s.inp.core).seq.freeze → t.coreAt s.inp.core = s.coreAt s.inp.core) ∧
    ∀ d, d ≠ s.inp.core → t.coreAt d = s.coreAt d := by
  refine ⟨_, rfl, rfl, fun h => ?_, fun h => ?_, fun d hd => ?_⟩
  · simp [h]
  · simp [Nat.not_le.2 h]
  · simp [hd.symm]

/-- A poisoned word as telemetry counts it. -/
def State.countPoisoned (s : State) : State :=
  s.onTele fun t => { t with poisoned := bumpPlace t.poisoned s.inp.place }

/-! A poisoned word is counted, and poisoned in its array (R17). -/

theorem exec_wordPoisoned_mem {s : State} {a : BitVec 44} (h : s.inp.place = .mem a) :
    ∃ b, exec .wordPoisoned s = .next { s.countPoisoned with
      ms := { s.ms with mem := s.ms.mem.poisonAt (a.toNat / 8 * 8), births := b } } := by
  refine ⟨(a.toNat / 8 * 8, s.cyc) :: s.ms.births.filter (·.1 != a.toNat / 8 * 8), ?_⟩
  show execWordPoisoned s = _
  unfold execWordPoisoned
  rw [h]
  simp only [State.countPoisoned, h]
  rfl

theorem exec_wordPoisoned_scratch {s : State} {c : CoreId} {o : BitVec 22} (h : s.inp.place = .scratch c o) :
    exec .wordPoisoned s = .next (s.countPoisoned.onCore c fun x => { x with scratch := x.scratch.poisonAt o.toNat }) := by
  show execWordPoisoned s = _
  simp only [execWordPoisoned, State.countPoisoned, h]

theorem exec_wordPoisoned_acc {s : State} {c : CoreId} {b : BitVec 3} {r : BitVec 6} {k : BitVec 7}
    (h : s.inp.place = .acc c b r k) : exec .wordPoisoned s = .next (s.countPoisoned.onCore c fun x =>
      { x with accPoison := (b.toNat * 64 + r.toNat, k.toNat) :: x.accPoison }) := by
  show execWordPoisoned s = _
  simp only [execWordPoisoned, State.countPoisoned, h]

theorem exec_wordPoisoned_vreg {s : State} {c : CoreId} {r k : BitVec 6} (h : s.inp.place = .vreg c r k) :
    exec .wordPoisoned s = .next (s.countPoisoned.onCore c fun x =>
      { x with vPoison := (r.toNat, k.toNat) :: x.vPoison }) := by
  show execWordPoisoned s = _
  simp only [execWordPoisoned, State.countPoisoned, h]

theorem exec_wordPoisoned_tele (s : State) :
    ∃ t : State, exec .wordPoisoned s = .next t ∧ t.fw = s.countPoisoned.fw := by
  refine ⟨_, rfl, ?_⟩
  simp only [State.countPoisoned]
  cases s.inp.place <;> rfl

/-- R17, R141: what the poisoning of a word does. -/
theorem wordPoisoned_effect (s : State) : ∃ t : State, exec .wordPoisoned s = .next t ∧
    countOf t.fw.tele.poisoned s.inp.place = countOf s.fw.tele.poisoned s.inp.place + 1 ∧
    (∀ a, s.inp.place = .mem a → t.ms.mem.isPoisoned a.toNat = true ∧ t.ms.mem.cells = s.ms.mem.cells ∧
      (∀ b, b / 8 ≠ a.toNat / 8 → t.ms.mem.isPoisoned b = s.ms.mem.isPoisoned b) ∧ t.cores = s.cores) ∧
    (∀ c o, s.inp.place = .scratch c o →
      t.coreAt c = { s.coreAt c with scratch := (s.coreAt c).scratch.poisonAt o.toNat } ∧
      (∀ d, d ≠ c → t.coreAt d = s.coreAt d) ∧ t.ms = s.ms) ∧
    (∀ c b r k, s.inp.place = .acc c b r k → t.coreAt c = { s.coreAt c with
        accPoison := (b.toNat * 64 + r.toNat, k.toNat) :: (s.coreAt c).accPoison } ∧
      (∀ d, d ≠ c → t.coreAt d = s.coreAt d) ∧ t.ms = s.ms) ∧
    (∀ c r k, s.inp.place = .vreg c r k →
      t.coreAt c = { s.coreAt c with vPoison := (r.toNat, k.toNat) :: (s.coreAt c).vPoison } ∧
      (∀ d, d ≠ c → t.coreAt d = s.coreAt d) ∧ t.ms = s.ms) := by
  obtain ⟨t, ht, hf⟩ := exec_wordPoisoned_tele s
  have next {u : State} (h : exec .wordPoisoned s = .next u) : t = u := by
    rw [ht] at h
    exact Host.Outcome.next.inj h
  have onCore_rest (c : CoreId) (f : Core → Core) (h : t = s.countPoisoned.onCore c f) :
      t.coreAt c = f (s.coreAt c) ∧ (∀ d, d ≠ c → t.coreAt d = s.coreAt d) ∧ t.ms = s.ms := by
    subst h
    exact ⟨by simp [State.countPoisoned], fun d hd => by simp [State.countPoisoned, hd.symm], rfl⟩
  refine ⟨t, ht, ?_, fun a h => ?_, fun c o h => onCore_rest c _ (next (exec_wordPoisoned_scratch h)),
    fun c b r k h => onCore_rest c _ (next (exec_wordPoisoned_acc h)),
    fun c r k h => onCore_rest c _ (next (exec_wordPoisoned_vreg h))⟩
  · rw [hf]
    exact countOf_bumpPlace_same _ _
  · obtain ⟨l, hl⟩ := exec_wordPoisoned_mem h
    obtain rfl := next hl
    exact ⟨Memory.isPoisoned_poisonAt_same _ (by omega), rfl,
      fun b hb => Memory.isPoisoned_poisonAt_other _ (by omega), rfl⟩

/-- The claim of errors of memories. -/
theorem claim_softErrors : Claim.SoftErrors := by
  intro s
  obtain ⟨t, ht, hms, hsame, hother, hnone, hcores⟩ := correctableError_effect s
  obtain ⟨u, hu, hcount, hmem, hscratch, hacc, hvreg⟩ := wordPoisoned_effect s
  refine ⟨⟨t, ht, hms, hsame, hother, hnone, fun c hc d => ⟨fun hd => ?_, fun hd => ?_⟩⟩, freezeEnd_effect s,
    u, hu, hcount, hmem, fun c o h => ?_, hacc, hvreg⟩
  · rw [hcores c hc d, if_pos ((s.freezesWith_iff c d).2 hd)]
    exact ⟨rfl, rfl, rfl, rfl, rfl⟩
  · rw [hcores c hc d, if_neg fun hf => hd ((s.freezesWith_iff c d).1 hf)]
  · obtain ⟨hc, hd, hms⟩ := hscratch c o h
    rw [hc]
    exact ⟨Memory.isPoisoned_poisonAt_same _ rfl, rfl, fun b hb => Memory.isPoisoned_poisonAt_other _ hb, hd, hms⟩

/-! ### Halves at rest (R142) -/

theorem State.coreAt_onCore_same (s : State) (c : CoreId) (f : Core → Core) :
    (s.onCore c f).coreAt c = f (s.coreAt c) := by simp

theorem State.coreAt_onCore_other (s : State) {c d : CoreId} (f : Core → Core) (h : d ≠ c) :
    (s.onCore c f).coreAt d = s.coreAt d := by simp [h.symm]

theorem Core.halves_setIdle_same (x : Core) (h : Half) : (x.setIdle h).halves.get (idleIx x) = h :=
  set_same _ _ (idleIx x).isLt _ _ rfl

theorem Core.halves_setIdle_other (x : Core) (h : Half) {i : Fin 2} (hi : i ≠ idleIx x) :
    (x.setIdle h).halves.get i = x.halves.get i :=
  set_other _ _ (idleIx x).isLt _ _ fun e => hi (Fin.ext e.symm)

/-- The idle half of a core has rested long enough to enter retention. -/
def Core.halfDue (now : Nat) (x : Core) : Prop :=
  (x.halves.get (idleIx x)).retained = false ∧ (x.halves.get (idleIx x)).lastUse.toNat + 65536 ≤ now

theorem exec_halfRetentionEntry_due {s : State} (h : (s.coreAt s.inp.core).halfDue s.cyc.toNat) :
    exec .halfRetentionEntry s = .next (s.onCore s.inp.core fun x =>
      x.setIdle { x.halves.get (idleIx x) with retained := true, leaving := false }) := by
  show execHalfRetentionEntry s = _
  obtain ⟨hr, hl⟩ := h
  simp [execHalfRetentionEntry, State.onCore, hr, hl]

theorem exec_halfRetentionEntry_early {s : State} (h : ¬ (s.coreAt s.inp.core).halfDue s.cyc.toNat) :
    exec .halfRetentionEntry s = .next (s.onCore s.inp.core id) := by
  show execHalfRetentionEntry s = _
  unfold Core.halfDue at h
  simp [execHalfRetentionEntry, State.onCore, h]

/-- A half that is leaving retention is out of it when its time is over. -/
def Half.leave (now : Nat) (h : Half) : Half :=
  if h.leaving = true ∧ h.lastUse.toNat + 256 ≤ now then { h with retained := false, leaving := false } else h

theorem exec_retentionExitEnd (s : State) : exec .retentionExitEnd s =
    .next (s.onCore s.inp.core fun x => { x with halves := x.halves.map (Half.leave s.cyc.toNat) }) := by
  show execRetentionExitEnd s = _
  unfold execRetentionExitEnd Half.leave
  simp

/-- The claim of halves at rest. -/
theorem claim_halvesAtRest : Claim.HalvesAtRest := by
  intro s
  refine ⟨fun hr hl => ⟨_, exec_halfRetentionEntry_due ⟨hr, hl⟩, ?_⟩,
    fun h => ⟨_, exec_halfRetentionEntry_early ?_, ?_⟩, _, exec_retentionExitEnd s, ?_⟩
  · simp only [State.coreAt_onCore_same]
    exact ⟨Core.halves_setIdle_same _ _, fun i hi => Core.halves_setIdle_other _ _ hi, rfl, rfl, rfl, rfl,
      fun d => State.coreAt_onCore_other s _⟩
  · rintro ⟨hr, hl⟩
    rcases h with h | h
    · rw [hr] at h
      exact Bool.noConfusion h
    · omega
  · exact ⟨State.coreAt_onCore_same s _ id, by simp, by simp, by simp, rfl, fun d => State.coreAt_onCore_other s _⟩
  · simp only [State.coreAt_onCore_same]
    exact ⟨⟨trivial, trivial, trivial, rfl, fun d => State.coreAt_onCore_other s _⟩,
      fun i => by simp [vector_get, Half.leave]⟩

/-- Settles O45: every error event and every event of a half at rest, by the operation it makes on a core or on memory. -/
theorem softErrors : Obligations.SoftErrors := ⟨claim_softErrors, claim_halvesAtRest⟩

end Sys2Proof.Machine
end

section
/-!
SUPPORT. Boot, heat and repair (01_module R11 to R16): what the events of O44 do to firmware's state.
-/

namespace Sys2Proof.Machine

/-! ### Reasons for repair (R15, R16) -/

/-- A reason that is set joins the others. -/
theorem Firmware.reason_because (f : Firmware) {i : Nat} (hi : i < 5) (b : Bool) (k : Nat) :
    (f.because i b).reason.getLsbD k = (f.reason.getLsbD k || (b && decide (k = i))) := by
  have hbit : (BitVec.ofNat 5 (2 ^ i)).getLsbD k = decide (k = i) := by
    rw [BitVec.getLsbD_ofNat, Nat.testBit_two_pow, ← Bool.decide_and]
    exact decide_eq_decide.2 (by omega)
  cases b
  · simp [Firmware.because]
  · simp only [Firmware.because, if_true, BitVec.getLsbD_or, hbit, Bool.true_and]

/-- The five reasons, given one after another to a state without any. -/
theorem Firmware.reason_five {f : Firmware} (h : f.reason = 0) (a b c d e : Bool) (k : Nat) :
    (((((f.because 0 a).because 1 b).because 2 c).because 3 d).because 4 e).reason.getLsbD k =
      (k == 0 && a || k == 1 && b || k == 2 && c || k == 3 && d || k == 4 && e) := by
  rw [Firmware.reason_because _ (by decide), Firmware.reason_because _ (by decide), Firmware.reason_because _ (by decide),
    Firmware.reason_because _ (by decide), Firmware.reason_because _ (by decide), h]
  simp [Bool.and_comm, Bool.beq_eq_decide_eq]

/-- Giving a reason leaves every other field as it is. -/
theorem Firmware.because_eq (f : Firmware) (i : Nat) (b : Bool) :
    f.because i b = { f with reason := (f.because i b).reason } := by
  cases b <;> rfl

@[simp] theorem Firmware.because_sites (f : Firmware) (i : Nat) (b : Bool) : (f.because i b).sites = f.sites := by
  rw [f.because_eq]
@[simp] theorem Firmware.because_seats (f : Firmware) (i : Nat) (b : Bool) : (f.because i b).seats = f.seats := by
  rw [f.because_eq]
@[simp] theorem Firmware.because_absent (f : Firmware) (i : Nat) (b : Bool) : (f.because i b).absent = f.absent := by
  rw [f.because_eq]
@[simp] theorem Firmware.because_lostVec (f : Firmware) (i : Nat) (b : Bool) : (f.because i b).lostVec = f.lostVec := by
  rw [f.because_eq]
@[simp] theorem Firmware.because_lostCopy (f : Firmware) (i : Nat) (b : Bool) : (f.because i b).lostCopy = f.lostCopy := by
  rw [f.because_eq]
@[simp] theorem Firmware.because_spareE (f : Firmware) (i : Nat) (b : Bool) : (f.because i b).spareE = f.spareE := by
  rw [f.because_eq]
@[simp] theorem Firmware.because_spareW (f : Firmware) (i : Nat) (b : Bool) : (f.because i b).spareW = f.spareW := by
  rw [f.because_eq]
@[simp] theorem Firmware.because_degraded (f : Firmware) (i : Nat) (b : Bool) : (f.because i b).degraded = f.degraded := by
  rw [f.because_eq]
@[simp] theorem Firmware.because_tele (f : Firmware) (i : Nat) (b : Bool) : (f.because i b).tele = f.tele := by
  rw [f.because_eq]

/-! ### Boot (R12, R13, R55) -/

@[simp] theorem mem_allCores (c : CoreId) : c ∈ allCores := List.mem_finRange c

/-- The cores that stand on a site, each with its site. -/
def bootSites (r : BootReport) : List (CoreId × Fin 136) := allCores.filterMap fun c => (r.site c).map fun i => (c, i)

theorem mem_bootSites (r : BootReport) (c : CoreId) (i : Fin 136) : (c, i) ∈ bootSites r ↔ r.site c = some i := by
  simp [bootSites]

/-- The cores past the last good site of their die. -/
def bootAbsent (r : BootReport) : List CoreId := allCores.filter fun c =>
  if c.val < 128 then decide (r.goodE ≤ c.val) else decide (128 + r.goodW ≤ c.val)

theorem mem_bootAbsent (r : BootReport) (c : CoreId) : c ∈ bootAbsent r ↔ r.site c = none := by
  unfold bootAbsent BootReport.site
  rw [List.mem_filter]
  split
  · simp only [mem_allCores, true_and, decide_eq_true_eq, List.getElem?_eq_none_iff]
    rfl
  · simp only [mem_allCores, true_and, decide_eq_true_eq, List.getElem?_eq_none_iff]
    unfold BootReport.goodW
    omega

/-- The key store's table of a boot lets in the security block and the Ikimen controller alone. -/
theorem accessEntry_keyEntries {s : State} {l : List AccessEnt}
    (h : s.ms.access = keyEntries ++ l.filter fun e => e.target != .keys) (m : BitVec 10) :
    s.accessEntry .keys m = if m = 0x310 then 0x8013 else if m = 0x324 then 0x8011 else 0 := by
  have none_else : (l.filter fun e => e.target != .keys).find? (fun e => e.target == .keys && e.master == m) = none := by
    rw [List.find?_eq_none]
    intro e he
    have hk : e.target ≠ .keys := by simpa using (List.mem_filter.1 he).2
    simp [hk]
  unfold State.accessEntry
  rw [h]
  by_cases h1 : m = 0x310
  · subst h1; rfl
  · by_cases h2 : m = 0x324
    · subst h2; rfl
    · have hk : keyEntries.find? (fun e => e.target == .keys && e.master == m) = none := by
        simpa [keyEntries] using ⟨Ne.symm h1, Ne.symm h2⟩
      rw [List.find?_append, hk, none_else, if_neg h1, if_neg h2]
      rfl

theorem accessEntry_keyEntries_other {s t : State}
    (h : t.ms.access = keyEntries ++ s.ms.access.filter fun e => e.target != .keys) {g : Target} (hg : g ≠ .keys)
    (m : BitVec 10) : t.accessEntry g m = s.accessEntry g m := by
  unfold State.accessEntry
  have hk : keyEntries.find? (fun e => e.target == g && e.master == m) = none := by
    simp [keyEntries, Ne.symm hg]
  rw [h, List.find?_append, hk, Option.none_or, find?_filter_of_imp]
  intro e he
  rw [Bool.and_eq_true, beq_iff_eq] at he
  simpa [he.1] using hg

/-- At most eight spares of a die count, and so they fit their field. -/
theorem spare_toNat (n : Nat) : (BitVec.ofNat 4 (min 8 n)).toNat = min 8 n := by
  rw [BitVec.toNat_ofNat]
  omega

/-- R12, R13, R15, R16, R55: what boot reports. -/
theorem claim_bootReports : Claim.BootReports := by
  intro s
  refine ⟨_, rfl, fun c i => ?sites, fun c => ?absent, fun k => ?seats, ?spareE, ?spareW, ?lostVec, ?lostCopy, ?degraded,
    ?cores, ?sram, ?hbm, ?lanes, ?spares, ?laneE, ?laneW, fun m => ?keys, fun g m hg => ?others, rfl, rfl, rfl, rfl, rfl⟩ <;>
  simp only [State.onFab_fw, Firmware.because_sites, Firmware.because_absent, Firmware.because_seats,
    Firmware.because_lostVec, Firmware.because_lostCopy, Firmware.because_spareE, Firmware.because_spareW,
    Firmware.because_degraded]
  case sites => exact mem_bootSites _ c i
  case absent => exact mem_bootAbsent _ c
  case seats => simp [vector_get]
  case spareE => exact spare_toNat _
  case spareW => exact spare_toNat _
  case degraded =>
    rw [BitVec.toNat_ofNat]
    omega
  case cores | sram | hbm | lanes =>
    rw [Firmware.reason_five rfl]
    simp
  case spares =>
    rw [Firmware.reason_five rfl, spare_toNat, spare_toNat]
    simp
  case laneE => simp
  case laneW => simp
  case keys => exact accessEntry_keyEntries rfl m
  case others => exact accessEntry_keyEntries_other rfl hg m

/-! ### Halting a core (07_faults R145) -/

/-- A producer that has its value writes it, and another one is kept. -/
def Core.drainOne (x : Core) (f : PendFill) : Core :=
  match f.src with
  | .value v fl => { x.onRegs (fun r => r.fill f.file f.reg v) with csr := { x.csr with fpflags := x.csr.fpflags ||| fl } }
  | _ => { x with fills := x.fills ++ [f] }

theorem Core.drain_eq_foldl (x : Core) : x.drain = x.fills.foldl Core.drainOne { x with fills := [] } := rfl

/-- Draining writes registers, flags and the list of producers, and nothing else. -/
theorem Core.foldl_drainOne (l : List PendFill) (x : Core) :
    ∃ r c m, l.foldl Core.drainOne x = { x with regs := r, csr := c, fills := m } := by
  induction l generalizing x with
  | nil => exact ⟨_, _, _, rfl⟩
  | cons f l ih =>
    have hone : ∃ r c m, x.drainOne f = { x with regs := r, csr := c, fills := m } := by
      unfold Core.drainOne
      split <;> exact ⟨_, _, _, rfl⟩
    obtain ⟨r, c, m, hx⟩ := hone
    obtain ⟨r', c', m', h⟩ := ih (x.drainOne f)
    refine ⟨r', c', m', ?_⟩
    rw [List.foldl_cons, h, hx]

theorem Core.drain_eq (x : Core) : ∃ r c l, x.drain = { x with regs := r, csr := c, fills := l } := by
  obtain ⟨r, c, m, h⟩ := Core.foldl_drainOne x.fills { x with fills := [] }
  exact ⟨r, c, m, x.drain_eq_foldl.trans h⟩

theorem Core.halt_scratch (x : Core) : x.halt.scratch = x.scratch := by
  obtain ⟨r, c, l, h⟩ := x.drain_eq
  simp [Core.halt, h]

theorem Core.halt_node (x : Core) : x.halt.node = x.node := by
  obtain ⟨r, c, l, h⟩ := x.drain_eq
  simp [Core.halt, h]

theorem Core.halt_mode (x : Core) : x.halt.seq.mode = if x.seq.mode = .running then .halted else x.seq.mode := by
  obtain ⟨r, c, l, h⟩ := x.drain_eq
  simp [Core.halt, h]

/-! ### Swapping partitions out (R11, R145) -/

/-- A core runs for a partition when what it runs is the partition's. -/
theorem State.mem_runCores (s : State) (p : PartId) (c : CoreId) :
    c ∈ s.runCores p ↔ ∃ i, s.instOf c = some i ∧ i.vf = p := by
  unfold State.runCores
  rw [State.coresWhere_eq]
  simp [State.instOf, allCores, Option.any_eq_true]

theorem State.instOf_congr {s t : State} (hs : t.sched = s.sched) {c : CoreId} (hc : (t.coreAt c).node = (s.coreAt c).node) :
    t.instOf c = s.instOf c := by
  unfold State.instOf State.instAt
  rw [hs, hc]

/-- What a swap leaves: memory, the instances, and of each core its scratch and its node; a core that is halted stays halted,
and a partition that is swapped stays so. -/
structure SwapFrame (s t : State) : Prop where
  mem : t.ms.mem = s.ms.mem
  sched : t.sched = s.sched
  scratch : ∀ c, (t.coreAt c).scratch = (s.coreAt c).scratch
  node : ∀ c, (t.coreAt c).node = (s.coreAt c).node
  halted : ∀ c, (s.coreAt c).seq.mode = .halted → (t.coreAt c).seq.mode = .halted
  swapped : ∀ p, (s.partAt p).swapped = true → (t.partAt p).swapped = true

theorem SwapFrame.refl (s : State) : SwapFrame s s :=
  ⟨rfl, rfl, fun _ => rfl, fun _ => rfl, fun _ h => h, fun _ h => h⟩

theorem SwapFrame.trans {s t u : State} (h : SwapFrame s t) (g : SwapFrame t u) : SwapFrame s u where
  mem := g.mem.trans h.mem
  sched := g.sched.trans h.sched
  scratch c := (g.scratch c).trans (h.scratch c)
  node c := (g.node c).trans (h.node c)
  halted c hc := g.halted c (h.halted c hc)
  swapped p hp := g.swapped p (h.swapped p hp)

theorem SwapFrame.instOf {s t : State} (h : SwapFrame s t) (c : CoreId) : t.instOf c = s.instOf c :=
  State.instOf_congr h.sched (h.node c)

theorem State.swapOut_swapped {s : State} {p : PartId} (h : (s.partAt p).swapped = true) : s.swapOut p = s := by
  simp [State.swapOut, h]

/-- A swap withdraws the pool manager's requests and keeps satchels of the partition where they are. -/
def State.withdrawn (s : State) (p : PartId) : State := { s with
  ms := { s.ms with manager := s.ms.manager.filter fun m => !(s.runCores p).contains m.1 }
  satchels := s.satchels.map fun t => if t.part = p then t.stay s.cyc else t }

theorem State.coreAt_withdrawn (s : State) (p : PartId) (c : CoreId) : (s.withdrawn p).coreAt c = s.coreAt c := rfl

@[simp] theorem State.coreAt_onPart (s : State) (p : PartId) (f : Part → Part) (c : CoreId) :
    (s.onPart p f).coreAt c = s.coreAt c := rfl

/-- Then it halts the cores that run for the partition, and marks the partition. -/
theorem State.swapOut_running {s : State} {p : PartId} (h : (s.partAt p).swapped = false) :
    s.swapOut p = ((s.withdrawn p).onCores (fun c _ => (s.runCores p).contains c) Core.halt).onPart p
      fun x => { x with swapped := true } := by
  unfold State.swapOut
  rw [h]
  rfl

theorem State.coreAt_swapOut {s : State} {p : PartId} (h : (s.partAt p).swapped = false) (c : CoreId) :
    (s.swapOut p).coreAt c = if c ∈ s.runCores p then (s.coreAt c).halt else s.coreAt c := by
  rw [State.swapOut_running h, State.coreAt_onPart, State.coreAt_onCores, State.coreAt_withdrawn]
  simp only [List.contains_iff_mem]

theorem State.swapped_swapOut (s : State) (p q : PartId) :
    ((s.swapOut p).partAt q).swapped = (decide (p = q) || (s.partAt q).swapped) := by
  cases h : (s.partAt p).swapped with
  | true =>
    rw [State.swapOut_swapped h]
    by_cases hq : p = q
    · simp [← hq, h]
    · simp [hq]
  | false =>
    rw [State.swapOut_running h, State.partAt_onPart]
    by_cases hq : p = q
    · simp [hq]
    · simp only [hq, decide_false, Bool.false_or]
      simp [State.partAt, State.withdrawn]

theorem State.swapOut_frame (s : State) (p : PartId) : SwapFrame s (s.swapOut p) := by
  cases h : (s.partAt p).swapped with
  | true =>
    rw [State.swapOut_swapped h]
    exact SwapFrame.refl s
  | false =>
    refine ⟨?_, ?_, fun c => ?_, fun c => ?_, fun c hc => ?_, fun q hq => ?_⟩
    · rw [State.swapOut_running h]
      simp [State.withdrawn]
    · rw [State.swapOut_running h]
      simp [State.withdrawn]
    · rw [State.coreAt_swapOut h]
      split
      · exact Core.halt_scratch _
      · rfl
    · rw [State.coreAt_swapOut h]
      split
      · exact Core.halt_node _
      · rfl
    · rw [State.coreAt_swapOut h]
      split
      · simp [Core.halt_mode, hc]
      · exact hc
    · rw [State.swapped_swapOut, hq, Bool.or_true]

/-- The swaps of several partitions, one after another. -/
theorem State.swapOuts_frame (l : List PartId) (s : State) : SwapFrame s (l.foldl State.swapOut s) := by
  induction l generalizing s with
  | nil => exact SwapFrame.refl s
  | cons p l ih => exact (s.swapOut_frame p).trans (ih _)

theorem State.swapOuts_swapped {l : List PartId} {p : PartId} (h : p ∈ l) (s : State) :
    ((l.foldl State.swapOut s).partAt p).swapped = true := by
  induction l generalizing s with
  | nil => simp at h
  | cons q l ih =>
    rcases List.mem_cons.1 h with rfl | h
    · exact (State.swapOuts_frame l _).swapped _ (by simp [State.swapped_swapOut])
    · exact ih h _

/-- A running core is halted when the partition that it runs for is among those that are swapped. -/
theorem State.swapOuts_halted {l : List PartId} {c : CoreId} {i : Inst} (hl : i.vf ∈ l) {s : State}
    (hi : s.instOf c = some i) (hp : (s.partAt i.vf).swapped = false) (hr : (s.coreAt c).seq.mode = .running) :
    ((l.foldl State.swapOut s).coreAt c).seq.mode = .halted := by
  induction l generalizing s with
  | nil => simp at hl
  | cons q l ih =>
    by_cases hq : q = i.vf
    · subst hq
      refine (State.swapOuts_frame l _).halted c ?_
      rw [State.coreAt_swapOut hp, if_pos ((s.mem_runCores _ c).2 ⟨i, hi, rfl⟩), Core.halt_mode, if_pos hr]
    · have hstay : (s.swapOut q).coreAt c = s.coreAt c := by
        cases h : (s.partAt q).swapped with
        | true => rw [State.swapOut_swapped h]
        | false =>
          rw [State.coreAt_swapOut h, if_neg]
          rw [State.mem_runCores]
          rintro ⟨j, hj, rfl⟩
          rw [hi] at hj
          cases hj
          exact hq rfl
      refine ih ((List.mem_cons.1 hl).resolve_left (Ne.symm hq)) ?_ ?_ ?_
      · rw [(s.swapOut_frame q).instOf, hi]
      · simp [State.swapped_swapOut, hq, hp]
      · rw [hstay, hr]

/-! ### Heat and repair (R11, R14, R16) -/

@[simp] theorem State.coreAt_withFw (s : State) (f : Firmware) (c : CoreId) :
    State.coreAt { s with fw := f } c = s.coreAt c := rfl
@[simp] theorem State.partAt_withFw (s : State) (f : Firmware) (p : PartId) :
    State.partAt { s with fw := f } p = s.partAt p := rfl

/-- The module with every partition swapped out. -/
def State.allSwapped (s : State) : State := (List.finRange 8).foldl State.swapOut s

theorem exec_thermalShutdown (s : State) : exec .thermalShutdown s =
    .next { s.allSwapped with fw := { s.allSwapped.fw with hot := true } } := by
  show execThermalShutdown s = _
  simp only [execThermalShutdown, State.allSwapped]

/-- R11: a shutdown swaps every partition out and holds the cores. -/
theorem thermalShutdown_effect (s : State) : ∃ t : State, exec .thermalShutdown s = .next t ∧ t.fw.hot = true ∧
    (∀ p, (t.partAt p).swapped = true) ∧
    (∀ c i, s.instOf c = some i → (s.partAt i.vf).swapped = false → (s.coreAt c).seq.mode = .running →
      (t.coreAt c).seq.mode = .halted) ∧
    (∀ c, (t.coreAt c).scratch = (s.coreAt c).scratch) ∧ t.ms.mem = s.ms.mem := by
  refine ⟨_, exec_thermalShutdown s, rfl, ?_⟩
  simp only [State.coreAt_withFw, State.partAt_withFw]
  unfold State.allSwapped
  have hf := State.swapOuts_frame (List.finRange 8) s
  exact ⟨fun p => State.swapOuts_swapped (List.mem_finRange p) s,
    fun c i hi hp hr => State.swapOuts_halted (List.mem_finRange i.vf) hi hp hr, hf.scratch, hf.mem⟩

/-- A row is retired at a refresh window of its slice alone. -/
theorem exec_hbmRowRepair_closed {s : State}
    (h : ((s.xbarAt s.inp.die).slices.get (Fin.ofNat 32 s.inp.slot.val)).refresh = none) :
    exec .hbmRowRepair s = .next s := if_pos (Option.isNone_iff_eq_none.2 h)

theorem exec_hbmRowRepair_open {s : State}
    (h : ((s.xbarAt s.inp.die).slices.get (Fin.ofNat 32 s.inp.slot.val)).refresh ≠ none) :
    exec .hbmRowRepair s = .next ({ s with fw := s.fw.because 3 (s.inp.n == 0) }.onTele
      fun t => { t with retired := t.retired + 1 }) := if_neg fun g => h (Option.isNone_iff_eq_none.1 g)

/-- A port that runs on one lane is listed once. -/
def noteLane (p : Fin 72) (l : List (Fin 72)) : List (Fin 72) := if l.contains p then l else l ++ [p]

theorem mem_noteLane (p q : Fin 72) (l : List (Fin 72)) : q ∈ noteLane p l ↔ q = p ∨ q ∈ l := by
  unfold noteLane
  split
  · next h =>
    have hp : p ∈ l := by simpa using h
    exact ⟨Or.inr, by rintro (rfl | h); exacts [hp, h]⟩
  · rw [List.mem_append, List.mem_singleton, or_comm]

/-- A state that has noted a port of a die on one lane. -/
def State.laneLost (s : State) : State :=
  s.onFab s.inp.die fun f => { f with oneLane := noteLane s.inp.fport f.oneLane }

theorem exec_fabricLaneFailure (s : State) : exec .fabricLaneFailure s = .next { s.laneLost with
    fw := s.fw.because 4 (decide (8 < (s.laneLost.fabAt s.inp.die).oneLane.length)) } := rfl

theorem oneLane_laneLost (s : State) :
    (s.laneLost.fabAt s.inp.die).oneLane = noteLane s.inp.fport (s.fabAt s.inp.die).oneLane := by
  simp [State.laneLost]

/-- R11, R14, R16: what alarms, shutdowns, retired rows and lost lanes do. -/
theorem claim_heatAndRepair : Claim.HeatAndRepair := by
  intro s
  refine ⟨rfl, rfl, thermalShutdown_effect s, exec_hbmRowRepair_closed,
    fun h => ⟨_, exec_hbmRowRepair_open h, ?retired, fun k => ?rows, rfl, rfl⟩,
    _, exec_fabricLaneFailure s, ?here, fun p hp => ?others, fun k => ?lanes, rfl, rfl⟩
  case retired => simp
  case rows =>
    refine (Firmware.reason_because s.fw (by decide) _ k).trans ?_
    simp [Bool.and_comm, Bool.beq_eq_decide_eq]
  case here => exact (oneLane_laneLost s) ▸ (mem_noteLane _ _ _).2 (.inl rfl)
  case others =>
    have hl := mem_noteLane s.inp.fport p (s.fabAt s.inp.die).oneLane
    rw [← oneLane_laneLost] at hl
    exact hl.trans (or_iff_right hp)
  case lanes =>
    refine (Firmware.reason_because s.fw (by decide) _ k).trans ?_
    rw [Bool.and_comm, ← Bool.decide_and]
    rfl

end Sys2Proof.Machine
end

section
/-!
SUPPORT. The key store (03_host R53, R55 to R57): what the commands of its mailbox do.
-/

namespace Sys2Proof.Machine

theorem bitOf_eq_testBit (w i : Nat) : bitOf w i = w.testBit i := by
  rw [Nat.testBit_eq_decide_div_mod_eq, bitOf, Bool.beq_eq_decide_eq]

/-- The right to write the key store, as the claim says it. -/
theorem State.ikimenMay_iff (s : State) : s.ikimenMay = true ↔ keyWriter s := by
  simp [State.ikimenMay, State.accessOk, keyWriter, bitOf_eq_testBit, fld, isControl, and_assoc]

/-- The owner's signature over the current nonce verifies. -/
abbrev State.ownerSigned (s : State) : Prop := s.inp.ok = true ∧ s.fw.owner.isSome = true ∧ s.inp.word = s.fw.nonce

/-- The slot that a command names. -/
abbrev State.keySlot (s : State) : Fin 16 := Fin.ofNat 16 s.inp.slot.val

/-- A command has ended with a status: the nonce moves on, and no core and no memory changes. -/
abbrev MailboxEnded (s : State) (st : W) (t : State) : Prop :=
  t.fw.mboxStatus = st ∧ t.fw.nonce = s.fw.nonce + 1 ∧ t.cores = s.cores ∧ t.ms = s.ms

/-- The slots, the keys and the owner are as they were. -/
abbrev SameKeys (s t : State) : Prop :=
  t.fw.keyslots = s.fw.keyslots ∧ t.fw.keys = s.fw.keys ∧ t.fw.owner = s.fw.owner

theorem State.mailboxEnd_done (s : State) (f : Firmware → Firmware) (hf : (f s.fw).nonce = s.fw.nonce) :
    MailboxEnded s 0 (s.mailboxEnd true f) := ⟨rfl, congrArg (· + 1) hf, rfl, rfl⟩

/-- A command that fails leaves the key store as it is. -/
theorem State.mailboxEnd_failed (s : State) (f : Firmware → Firmware) :
    SameKeys s (s.mailboxEnd false f) ∧ MailboxEnded s 1 (s.mailboxEnd false f) := ⟨⟨rfl, rfl, rfl⟩, rfl, rfl, rfl, rfl⟩

/-- A command on a key slot fails when it is not signed, or the slot does not allow it, or the key store refuses it. -/
theorem State.keyCommand_failed {s : State} {ok : Bool} (f : Firmware → Firmware) (h : ok = false ∨ s.ikimenMay = false) :
    SameKeys s (s.keyCommand ok f) ∧ MailboxEnded s 1 (s.keyCommand ok f) := by
  cases ok with
  | false => exact s.mailboxEnd_failed f
  | true =>
    have hm : s.ikimenMay = false := h.resolve_left Bool.noConfusion
    have hk : s.keyCommand true f = s.refusedOp.mailboxEnd false f := by simp [State.keyCommand, hm]
    rw [hk]
    exact ⟨⟨rfl, rfl, rfl⟩, rfl, rfl, rfl, rfl⟩

/-- A command that the key store lets through makes its change. -/
theorem State.keyCommand_done {s : State} (f : Firmware → Firmware) (h : s.ikimenMay = true) :
    s.keyCommand true f = s.mailboxEnd true f := by simp [State.keyCommand, h]

/-- OWNER fuses a key where none is fused. -/
theorem exec_owner (s : State) : exec .owner s =
    .next (s.mailboxEnd s.fw.owner.isNone fun f => { f with owner := some s.inp.key }) := rfl

/-- INSTALL gives the slot a key and makes it active. -/
def installKey (j : Fin 16) (k : PubKey) (f : Firmware) : Firmware := { f with
  keyslots := f.keyslots.set j.val 1 j.isLt, keys := (j, k) :: f.keys.filter (·.1 != j) }

theorem keyslots_installKey_same (j : Fin 16) (k : PubKey) (f : Firmware) : (installKey j k f).keyslots.get j = 1 :=
  set_same _ _ j.isLt _ _ rfl

theorem keyslots_installKey_other {i j : Fin 16} (h : i ≠ j) (k : PubKey) (f : Firmware) :
    (installKey j k f).keyslots.get i = f.keyslots.get i := set_other _ _ j.isLt _ _ fun e => h (Fin.ext e.symm)

theorem keys_installKey_same (j : Fin 16) (k : PubKey) (f : Firmware) :
    (installKey j k f).keys.find? (·.1 == j) = some (j, k) := by simp [installKey]

theorem keys_installKey_other {i j : Fin 16} (h : i ≠ j) (k : PubKey) (f : Firmware) :
    (installKey j k f).keys.find? (·.1 == i) = f.keys.find? (·.1 == i) := by
  unfold installKey
  rw [List.find?_cons_of_neg (by simpa using h.symm), find?_filter_of_imp]
  intro e he
  rw [beq_iff_eq] at he
  simpa [he] using h

/-- INSTALL is carried out for the owner alone, on a slot that is not active. -/
theorem exec_install (s : State) : exec .install s = .next (s.keyCommand
    (decide (s.ownerSigned ∧ s.fw.keyslots.get s.keySlot ≠ 1)) (installKey s.keySlot s.inp.key)) := by
  have hok : (s.inp.ok && s.fw.owner.isSome && s.inp.word == s.fw.nonce && s.fw.keyslots.get s.keySlot != 1) =
      decide (s.ownerSigned ∧ s.fw.keyslots.get s.keySlot ≠ 1) := by
    rw [Bool.eq_iff_iff]
    simp [and_assoc]
  rw [← hok]
  rfl

/-- REVOKE marks the slot revoked. -/
def revokeKey (j : Fin 16) (f : Firmware) : Firmware := { f with keyslots := f.keyslots.set j.val 2 j.isLt }

theorem keyslots_revokeKey_same (j : Fin 16) (f : Firmware) : (revokeKey j f).keyslots.get j = 2 :=
  set_same _ _ j.isLt _ _ rfl

theorem keyslots_revokeKey_other {i j : Fin 16} (h : i ≠ j) (f : Firmware) :
    (revokeKey j f).keyslots.get i = f.keyslots.get i := set_other _ _ j.isLt _ _ fun e => h (Fin.ext e.symm)

/-- REVOKE is carried out for the owner alone, on an active slot; the verifications that it makes fail are the partitions'. -/
theorem exec_revoke (s : State) : ∃ l, exec .revoke s = .next { s.keyCommand
    (decide (s.ownerSigned ∧ s.fw.keyslots.get s.keySlot = 1)) (revokeKey s.keySlot) with parts := l } := by
  have hok : (s.inp.ok && s.fw.owner.isSome && s.inp.word == s.fw.nonce && s.fw.keyslots.get s.keySlot == 1) =
      decide (s.ownerSigned ∧ s.fw.keyslots.get s.keySlot = 1) := by
    rw [Bool.eq_iff_iff]
    simp [and_assoc]
  rw [← hok]
  show ∃ l, execRevoke s = _
  unfold execRevoke
  dsimp only
  split
  · exact ⟨_, rfl⟩
  · exact ⟨_, rfl⟩

/-- A command that is refused: what it asks for does not hold, or the key store lets nobody write. -/
theorem keyCommand_refused {s : State} {p : Prop} [Decidable p] (f : Firmware → Firmware) (h : ¬ p ∨ ¬ keyWriter s) :
    SameKeys s (s.keyCommand (decide p) f) ∧ MailboxEnded s 1 (s.keyCommand (decide p) f) :=
  State.keyCommand_failed f (h.imp decide_eq_false fun g => Bool.eq_false_iff.2 fun e => g (s.ikimenMay_iff.1 e))

/-- A command that is carried out. -/
theorem keyCommand_granted {s : State} {p : Prop} [Decidable p] (f : Firmware → Firmware) (h : p) (hw : keyWriter s) :
    s.keyCommand (decide p) f = s.mailboxEnd true f := by
  rw [decide_eq_true h, State.keyCommand_done f (s.ikimenMay_iff.2 hw)]

/-- R53, R55, R56: what the commands on the key store do. -/
theorem claim_keyCommands : Claim.KeyCommands := by
  intro s
  obtain ⟨l, hrevoke⟩ := exec_revoke s
  refine ⟨fun h => ⟨_, exec_owner s, ?_⟩, fun h => ⟨_, exec_owner s, ?_⟩,
    fun hs hw hj => ⟨_, exec_install s, ?_⟩, fun h => ⟨_, exec_install s, ?_⟩,
    fun hs hw hj => ⟨_, hrevoke, ?_⟩, fun h => ⟨_, hrevoke, ?_⟩⟩
  · rw [h]
    exact ⟨rfl, rfl, s.mailboxEnd_done _ rfl⟩
  · rw [Option.isNone_eq_false_iff.2 (Option.isSome_iff_ne_none.2 h)]
    exact s.mailboxEnd_failed _
  · rw [keyCommand_granted _ ⟨hs, hj⟩ hw]
    exact ⟨keyslots_installKey_same _ s.inp.key _, keys_installKey_same _ _ _, rfl,
      fun k hk => ⟨keyslots_installKey_other hk s.inp.key _, keys_installKey_other hk _ _⟩, s.mailboxEnd_done _ rfl⟩
  · exact keyCommand_refused _ (by tauto)
  · rw [keyCommand_granted _ ⟨hs, hj⟩ hw]
    exact ⟨keyslots_revokeKey_same _ _, fun k hk => keyslots_revokeKey_other hk _, rfl, rfl, s.mailboxEnd_done _ rfl⟩
  · exact keyCommand_refused _ (by tauto)

end Sys2Proof.Machine
end

section
/-!
SUPPORT. Signed stream extents (04_spaces R65, R83, R84, 03_host R57): what the end of a verification does.
-/

namespace Sys2Proof.Machine

/-! ### Bytes of memory -/

theorem Memory.length_bytes (m : Memory) (a n : Nat) : (m.bytes a n).length = n := by
  induction n generalizing a with
  | zero => rfl
  | succ n ih => simp [Memory.bytes, ih]

theorem Memory.bytes_add (m : Memory) (a n k : Nat) : m.bytes a (n + k) = m.bytes a n ++ m.bytes (a + n) k := by
  induction n generalizing a with
  | zero => simp [Memory.bytes]
  | succ n ih =>
    rw [Nat.succ_add]
    simp only [Memory.bytes, List.cons_append, ih]
    rw [Nat.add_assoc, Nat.add_comm 1 n]

/-- The last 3,328 bytes of a signed extent: 3,309 of signature, then padding (R83). -/
theorem State.signature_eq (s : State) (r : Range) : s.signature r =
    (s.ms.mem.bytes (r.pbase.toNat + (r.size - 3328)) 3309,
      s.ms.mem.bytes (r.pbase.toNat + (r.size - 3328) + 3309) 19) := by
  unfold State.signature
  rw [Memory.bytes_add _ _ 3309 19]
  dsimp only
  rw [List.take_left' (Memory.length_bytes _ _ _), List.drop_left' (Memory.length_bytes _ _ _)]

/-! ### Range entries and cursors -/

theorem Part.rangeIx_setRange (x : Part) (i : Nat) (r : Range) : (x.setRange i r).rangeIx i = some r := by
  simp [Part.rangeIx, Part.setRange]

/-- Bit 45 of ATTR, the mark of a verified entry, is set: it stands already, or it is added. -/
theorem setFld_verified (w : W) : setFld w 45 45 1 = w ||| .ofNat 64 (2 ^ 45) := by
  have hs : setFld w 45 45 1 = .ofNat 64 (w.toNat - w.toNat / 2 ^ 45 % 2 * 2 ^ 45 + 2 ^ 45) := rfl
  have ht : (.ofNat 64 (2 ^ 45) : W) = BitVec.twoPow 64 45 := rfl
  have hw : w.getLsbD 45 = decide (w.toNat / 2 ^ 45 % 2 = 1) := Nat.testBit_eq_decide_div_mod_eq
  cases h : w.getLsbD 45 with
  | true =>
    have hor : w ||| BitVec.twoPow 64 45 = w := by
      refine BitVec.eq_of_getLsbD_eq fun k hk => ?_
      rw [BitVec.getLsbD_or, BitVec.getLsbD_twoPow]
      by_cases hb : k = 45
      · simp [hb, h]
      · simp [Ne.symm hb]
    rw [h, eq_comm, decide_eq_true_eq] at hw
    rw [hs, ht, hor, hw]
    bv_omega
  | false =>
    have hand : w &&& BitVec.twoPow 64 45 = 0 := by
      rw [BitVec.and_twoPow, h]
      rfl
    rw [h, eq_comm, decide_eq_false_iff_not] at hw
    rw [hs, ht, ← BitVec.add_eq_or_of_and_eq_zero _ _ hand, Nat.mod_two_ne_one.1 hw]
    bv_omega

/-- The cursors of a stream are those of its entry. -/
theorem State.streamOf_index (s : State) (p : PartId) (i : Nat) : (s.streamOf p i).index = i := by
  unfold State.streamOf
  split
  · next q h => simpa using List.find?_some h
  · rfl

theorem State.rangeIx_setStream (s : State) (p : PartId) (q : Stream) (i : Nat) :
    ((s.setStream p q).partAt p).rangeIx i = (s.partAt p).rangeIx i := by
  simp [State.setStream, Part.rangeIx]

theorem State.streamOf_setRange (s : State) (p : PartId) (i k : Nat) (r : Range) {q : Stream}
    (h : (s.partAt p).streams.find? (·.index == k) = some q) : (s.onPart p fun x => x.setRange i r).streamOf p k = q := by
  simp [State.streamOf, Part.setRange, h]

/-! ### The verification (R83, R57) -/

/-- The slot under which an extent is signed. -/
abbrev Range.signSlot (r : Range) : Fin 16 := Fin.ofNat 16 (r.attr.toNat / 2 ^ 41 % 16)

/-- What a good signature is, as the claim says it: the slot's key is the first that the list has for it. -/
theorem State.signatureGood_iff (s : State) (r : Range) (q : Stream) : s.signatureGood r q = true ↔
    s.fw.keyslots.get r.signSlot = 1 ∧ q.revoked = false ∧
    (∀ b ∈ s.ms.mem.bytes (r.pbase.toNat + (r.size - 3328) + 3309) 19, b = 0) ∧
    ∃ k, s.fw.keys.find? (·.1 == r.signSlot) = some k ∧ Config.mlDsaVerify k.2 (signedMessage q (r.size - 3328))
      (s.ms.mem.bytes (r.pbase.toNat + (r.size - 3328)) 3309) = true := by
  have hj : Fin.ofNat 16 (fld r.attr.toNat 44 41) = r.signSlot := rfl
  unfold State.signatureGood
  rw [s.signature_eq, hj]
  generalize r.signSlot = j
  dsimp only
  cases s.fw.keys.find? (·.1 == j) with
  | none => simp
  | some k => simp [and_assoc]

/-- The state in which a verification has ended, before its outcome is entered. -/
def State.verifyEnded (s : State) (r : Range) : State :=
  (if s.securityMay s.inp.part r then s else s.refusedOp).setStream s.inp.part
    { s.streamOf s.inp.part (s.inp.n % 2048) with checked := true }

/-- The verification of a full signed extent ends: the entry is marked, or a failure is counted. -/
theorem exec_signatureVerifyEnd {s : State} {r : Range} (hr : (s.partAt s.inp.part).rangeIx (s.inp.n % 2048) = some r)
    (hsigned : r.has 46 = true) (hrole : r.role = 2)
    (hfull : (s.streamOf s.inp.part (s.inp.n % 2048)).wdone = r.limit.toNat)
    (hopen : (s.streamOf s.inp.part (s.inp.n % 2048)).checked = false) :
    exec .signatureVerifyEnd s = .next (
      if s.securityMay s.inp.part r && s.signatureGood r (s.streamOf s.inp.part (s.inp.n % 2048)) then
        (s.verifyEnded r).onPart s.inp.part fun y => y.setRange (s.inp.n % 2048) { r with attr := setFld r.attr 45 45 1 }
      else (s.verifyEnded r).onTele fun t => { t with sigFails := t.sigFails + 1 }) := by
  show execSignatureVerifyEnd s = _
  unfold execSignatureVerifyEnd
  simp only [hr]
  rw [if_neg (by simp [hsigned, hrole, hfull, hopen])]
  split <;> rfl

/-! What the end of a verification leaves, whatever its outcome: the cursors, the entries, the cores and memory. -/

theorem State.verifyEnded_stream (s : State) (r : Range) :
    ((s.verifyEnded r).partAt s.inp.part).streams.find? (·.index == s.inp.n % 2048) =
      some { s.streamOf s.inp.part (s.inp.n % 2048) with checked := true } := by
  simp [State.verifyEnded, State.setStream, State.streamOf_index]

theorem State.verifyEnded_rangeIx (s : State) (r : Range) (i : Nat) :
    ((s.verifyEnded r).partAt s.inp.part).rangeIx i = (s.partAt s.inp.part).rangeIx i := by
  unfold State.verifyEnded
  rw [State.rangeIx_setStream]
  split <;> rfl

theorem State.verifyEnded_cores (s : State) (r : Range) : (s.verifyEnded r).cores = s.cores := by
  unfold State.verifyEnded State.setStream
  split <;> rfl

theorem State.verifyEnded_ms (s : State) (r : Range) : (s.verifyEnded r).ms = s.ms := by
  unfold State.verifyEnded State.setStream
  split <;> rfl

theorem State.verifyEnded_sigFails (s : State) (r : Range) : (s.verifyEnded r).fw.tele.sigFails = s.fw.tele.sigFails := by
  unfold State.verifyEnded State.setStream
  split <;> rfl

/-- R83, R84, R57: the verification of a signed extent. -/
theorem claim_signatureVerification : Claim.SignatureVerification := by
  intro s r
  simp only [Nat.add_zero]
  intro hr hsigned hrole hfull hopen
  refine ⟨_, exec_signatureVerifyEnd hr hsigned hrole hfull hopen, ?_⟩
  have hgood : (s.securityMay s.inp.part r && s.signatureGood r (s.streamOf s.inp.part (s.inp.n % 2048))) = true ↔
      s.securityMay s.inp.part r = true ∧ _ :=
    Bool.and_eq_true_iff.trans (and_congr_right fun _ => s.signatureGood_iff r _)
  cases h : (s.securityMay s.inp.part r && s.signatureGood r (s.streamOf s.inp.part (s.inp.n % 2048))) with
  | true =>
    rw [if_pos rfl]
    have hstream := State.streamOf_setRange (s.verifyEnded r) s.inp.part (s.inp.n % 2048) _
      { r with attr := setFld r.attr 45 45 1 } (s.verifyEnded_stream r)
    refine ⟨by rw [hstream], fun _ => ⟨?_, s.verifyEnded_sigFails r⟩, fun hn => absurd (hgood.1 h) hn, by rw [hstream],
      s.verifyEnded_cores r, s.verifyEnded_ms r⟩
    rw [State.partAt_onPart, if_pos rfl, Part.rangeIx_setRange, setFld_verified]
  | false =>
    rw [if_neg Bool.false_ne_true]
    have hstream : ((s.verifyEnded r).onTele fun t => { t with sigFails := t.sigFails + 1 }).streamOf s.inp.part
        (s.inp.n % 2048) = { s.streamOf s.inp.part (s.inp.n % 2048) with checked := true } := by
      show (s.verifyEnded r).streamOf s.inp.part (s.inp.n % 2048) = _
      unfold State.streamOf
      rw [s.verifyEnded_stream r]
      rfl
    refine ⟨by rw [hstream], fun hg => absurd (hgood.2 hg) (by rw [h]; exact Bool.false_ne_true), fun _ => ⟨?_, ?_⟩,
      by rw [hstream], s.verifyEnded_cores r, s.verifyEnded_ms r⟩
    · exact (s.verifyEnded_rangeIx r _).trans hr
    · exact congrArg (· + 1) (s.verifyEnded_sigFails r)

/-- Settles O44: boot, heat and repair, the commands on the key store, and the verification of signed extents. -/
theorem firmwareEvents : Obligations.FirmwareEvents :=
  ⟨claim_bootReports, claim_heatAndRepair, claim_keyCommands, claim_signatureVerification⟩

end Sys2Proof.Machine
end

section
/-!
SUPPORT. Reading memory after a write: what a byte holds after writes of whole bytes (07_faults R141).
-/

namespace Sys2Proof.Machine

theorem cellsRead_put : ∀ (l : List Host.Cell) (a b : Nat) (v : Byte),
    cellsRead (cellsPut l a v) b = if b = a then v else cellsRead l b
  | [], a, b, v => by simp [cellsPut, cellsRead, eq_comm]
  | (k, w) :: r, a, b, v => by
    have ih := cellsRead_put r a b v
    unfold cellsPut
    split
    · simp [cellsRead, eq_comm]
    · split
      · next h => subst h; by_cases hb : b = a <;> simp [cellsRead, hb, eq_comm (b := b)]
      · next h => by_cases hk : k = b <;> simp_all [cellsRead, eq_comm]

theorem cellsRead_drop : ∀ (l : List Host.Cell) (a b : Nat),
    cellsRead (cellsDrop l a) b = if b = a then unlisted else cellsRead l b
  | [], a, b => by simp [cellsDrop, cellsRead]
  | (k, w) :: r, a, b => by
    have ih := cellsRead_drop r a b
    unfold cellsDrop
    split
    · next h => by_cases hb : b = a <;> simp_all [cellsRead, eq_comm]
    · next h => by_cases hk : k = b <;> simp_all [cellsRead, eq_comm]

/-- A byte written reads as written, and every other byte as before, whatever the order of the cells. -/
theorem Memory.read_write (m : Memory) (a b : Nat) (v : Byte) :
    (m.write a v).read b = if b = a then v else m.read b := by
  show cellsRead (cellsWrite m.cells a v) b = _
  unfold cellsWrite
  split
  · next h => rw [cellsRead_drop, h]; rfl
  · exact cellsRead_put _ _ _ _

theorem Memory.read_writeBits_full (m : Memory) (a b : Nat) (v : Byte) :
    (m.writeBits a v 0xFF#8).read b = if b = a then v else m.read b := by
  have hv : (m.read a &&& ~~~0xFF#8) ||| (v &&& 0xFF#8) = v := by
    have h0 : ~~~0xFF#8 = 0#8 := by decide
    have h1 : 0xFF#8 = BitVec.allOnes 8 := by decide
    rw [h0, h1, BitVec.and_zero, BitVec.and_allOnes, BitVec.zero_or]
  rw [Memory.writeBits, hv, Memory.read_write]

/-- Whole bytes to be written: each at its address. -/
def underFullMask (l : List (Nat × Byte)) : List (Nat × Byte × Byte) := l.map fun x => (x.1, x.2, 0xFF#8)

theorem Memory.read_writeList_other : ∀ (l : List (Nat × Byte)) (m : Memory) (b : Nat), (∀ x ∈ l, b ≠ x.1) →
    (m.writeList (underFullMask l)).read b = m.read b
  | [], _, _, _ => rfl
  | (a, v) :: r, m, b, h => by
    obtain ⟨hb, hr⟩ := List.forall_mem_cons.1 h
    show ((m.writeBits a v 0xFF#8).writeList (underFullMask r)).read b = _
    rw [Memory.read_writeList_other r _ b hr, Memory.read_writeBits_full, if_neg hb]

theorem Memory.read_writeList_mem : ∀ (l : List (Nat × Byte)) (m : Memory), (l.map (·.1)).Nodup →
    ∀ x ∈ l, (m.writeList (underFullMask l)).read x.1 = x.2
  | (a, v) :: r, m, h, x, hx => by
    obtain ⟨ha, hr⟩ := List.nodup_cons.1 h
    show ((m.writeBits a v 0xFF#8).writeList (underFullMask r)).read x.1 = _
    rcases List.mem_cons.1 hx with rfl | hx
    · rw [Memory.read_writeList_other r _ _ fun y hy e => ha (List.mem_map.2 ⟨y, hy, e.symm⟩),
        Memory.read_writeBits_full, if_pos rfl]
    · exact Memory.read_writeList_mem r _ hr x hx

theorem Memory.cells_clearAll (l : List Nat) (m : Memory) : (l.foldl Memory.clearAt m).cells = m.cells := by
  induction l generalizing m with
  | nil => rfl
  | cons a l ih => exact ih _

/-- A store reads as its bytes do; it clears poison besides. -/
theorem Memory.read_store (m : Memory) (l : List (Nat × Byte × Byte)) (b : Nat) :
    (m.store l).read b = (m.writeList l).read b := by
  unfold Memory.store Memory.read
  rw [Memory.cells_clearAll]

/-! ### Places of the module's memory -/

theorem State.resolve_low (s : State) {a : Nat} (h : a < 2 ^ 46) : s.resolve a = a := by
  unfold State.resolve
  rw [if_neg (by omega)]

theorem addrOf_low {a : Nat} (h : a < 2 ^ 45) : addrOf a = a := by
  unfold addrOf
  rw [if_neg (by omega)]

theorem State.onMemOf_low (s : State) {a : Nat} (h : a < 2 ^ 45) (f : Memory → Memory) : s.onMemOf a f = s.onMem f := by
  unfold State.onMemOf
  rw [if_neg (by omega), if_neg (by omega)]
  rfl

theorem State.noteAt_low (s : State) {a : Nat} (h : a < 2 ^ 45) (l : List (Nat × Byte × Byte)) : s.noteAt a l = s := by
  unfold State.noteAt
  rw [if_neg (by omega)]

theorem State.inMem_low (s : State) {l : List (Nat × Byte × Byte)} (h : ∀ x ∈ l, x.1 < 2 ^ 45) : s.inMem l = l := by
  unfold State.inMem
  refine (List.map_congr_left fun x hx => ?_).trans (List.map_id l)
  have hx := h x hx
  rw [s.resolve_low (by omega), addrOf_low hx]
  rfl

/-- A write to places of the module's memory is a store there, and ends release sequences. -/
theorem State.writePlaces_low (s : State) {l : List (Nat × Byte × Byte)} (h : ∀ x ∈ l, x.1 < 2 ^ 45) :
    ∃ rels, s.writePlaces l = { s with ms := { s.ms with mem := s.ms.mem.store l, rels := rels } } := by
  cases l with
  | nil => exact ⟨_, rfl⟩
  | cons x r =>
    have hx := h x (List.mem_cons_self ..)
    refine ⟨keepRels s.ms.rels (((x :: r).map fun b => s.resolve b.1)) none, ?_⟩
    show ((s.noteAt (s.resolve x.1) (x :: r)).onMemOf (s.resolve x.1) fun m => m.store (s.inMem (x :: r))).setRels _ = _
    rw [s.resolve_low (by omega), s.noteAt_low hx, s.onMemOf_low hx, s.inMem_low h]
    rfl

end Sys2Proof.Machine
end

section
/-!
SUPPORT. Window D (03_host R36 to R39, R47, R48): where an access of the host goes, and what its reads and posted writes do.
-/

namespace Sys2Proof.Machine

/-! ### Functions -/

@[simp] theorem partOfFn_fnOf (p : PartId) : partOfFn (fnOf p) = some p := by
  have h : toPart p.val = p := Fin.ext (Nat.mod_eq_of_lt p.isLt)
  simp [partOfFn, fnOf, h]

@[simp] theorem State.coreAt_onVf (s : State) (p : PartId) (f : Vf → Vf) (c : CoreId) :
    (s.onVf p f).coreAt c = s.coreAt c := rfl

/-! ### Where an access goes (R38) -/

/-- The addresses of an access are those of its first j bytes, the next, and the rest. -/
theorem vas_split (va : W) {j n : Nat} (h : j < n) : ∃ r, vas va n = vas va j ++ (va + .ofNat 64 j) :: r := by
  obtain ⟨k, rfl⟩ := Nat.exists_eq_add_of_lt h
  refine ⟨((List.range k).map fun i => va + .ofNat 64 (j + (i + 1))), ?_⟩
  unfold vas
  rw [Nat.add_assoc, List.range_add, List.map_append, List.map_map, List.range_succ_eq_map, List.map_cons, List.map_map]
  rfl

section
variable {s : State} {p : PartId} {k : AKind}

/-- A byte that translates, whose target lets the function in and that no migration covers, joins the places. -/
theorem State.hostGo_cons {va : W} {l : Loc} (ht : s.translateHost p va k = .ok l)
    (hm : s.mayAccess (hostMaster p) p k l = true) (hg : s.migrating l.place = false)
    (hd : l.place < 2 ^ 80 ∨ s.devBad 0 (l.place / 2 ^ 80 - 1) = false) (r : List W) (a : Attr) (acc : List Nat) :
    s.hostGo p k (va :: r) a acc = s.hostGo p k r (if acc.isEmpty then l.attr else a) (l.place :: acc) := by
  have hbad : ¬ ((!s.mayAccess (hostMaster p) p k l) = true ∨
      2 ^ 80 ≤ l.place ∧ s.devBad 0 (l.place / 2 ^ 80 - 1) = true) := by
    rintro (h | ⟨hp, hb⟩)
    · simp [hm] at h
    · rcases hd with hd | hd
      · omega
      · rw [hd] at hb
        exact Bool.noConfusion hb
  rw [State.hostGo, ht]
  dsimp only
  rw [if_neg hbad, hg, if_neg Bool.false_ne_true]

/-- So does every byte of a list of addresses; the attributes are those of the first. -/
theorem State.hostGo_append {at_ : Nat → W} {m : Nat → Loc} : ∀ (l : List Nat),
    (∀ i ∈ l, s.translateHost p (at_ i) k = .ok (m i) ∧ s.mayAccess (hostMaster p) p k (m i) = true ∧
      s.migrating (m i).place = false ∧
      ((m i).place < 2 ^ 80 ∨ s.devBad 0 ((m i).place / 2 ^ 80 - 1) = false)) →
    ∀ (r : List W) (a : Attr) (acc : List Nat), s.hostGo p k (l.map at_ ++ r) a acc =
      s.hostGo p k r (if acc.isEmpty then (l.head?.map fun i => (m i).attr).getD a else a)
        ((l.map fun i => (m i).place).reverse ++ acc)
  | [], _, r, a, acc => by cases acc <;> rfl
  | i :: l, h, r, a, acc => by
    obtain ⟨⟨ht, hm, hg, hd⟩, hl⟩ := List.forall_mem_cons.1 h
    rw [List.map_cons, List.cons_append, State.hostGo_cons ht hm hg hd, State.hostGo_append l hl]
    simp

/-- The bytes of an access of the module's own places, or of peer modules that exist, are gone through. -/
theorem State.hostGo_vas {va : W} {n : Nat} {P : Nat → Prop} {m : Nat → Loc} (h : hostPlaces s p k va n P m)
    (hP : ∀ q, P q → q < 2 ^ 80 ∨ s.devBad 0 (q / 2 ^ 80 - 1) = false) (r : List W) :
    ∃ a, (0 < n → a = (m 0).attr) ∧ (n = 0 → a = {}) ∧
      s.hostGo p k (vas va n ++ r) {} [] = s.hostGo p k r a ((List.range n).map fun i => (m i).place).reverse := by
  refine ⟨_, ?_, ?_, (State.hostGo_append (List.range n) (fun i hi => ?_) r {} []).trans (by rw [List.append_nil])⟩
  · intro hn
    cases n with
    | zero => omega
    | succ n => simp [List.range_succ_eq_map]
  · rintro rfl
    rfl
  · obtain ⟨ht, hm, hg, hp⟩ := h i (List.mem_range.1 hi)
    exact ⟨ht, hm, hg, hP _ hp⟩

theorem State.hostGo_go {va : W} {n : Nat} {P : Nat → Prop} {m : Nat → Loc} (h : hostPlaces s p k va n P m)
    (hP : ∀ q, P q → q < 2 ^ 80 ∨ s.devBad 0 (q / 2 ^ 80 - 1) = false) :
    ∃ a, (0 < n → a = (m 0).attr) ∧ (n = 0 → a = {}) ∧
      s.hostGo p k (vas va n) {} [] = .go ((List.range n).map fun i => (m i).place) a := by
  obtain ⟨a, ha, h0, hgo⟩ := State.hostGo_vas h hP []
  refine ⟨a, ha, h0, ?_⟩
  rw [← List.append_nil (vas va n), hgo, State.hostGo, List.reverse_reverse]

theorem State.hostGo_wait {va : W} {n : Nat} (h : hostWaits s p k va n) : s.hostGo p k (vas va n) {} [] = .wait := by
  obtain ⟨j, m, hj, hm, hw⟩ := h
  obtain ⟨r, hr⟩ := vas_split va hj
  obtain ⟨a, -, -, hgo⟩ := State.hostGo_vas hm (fun q hq => .inl hq) ((va + .ofNat 64 j) :: r)
  rw [hr, hgo, State.hostGo]
  rcases hw with hw | ⟨q, hw⟩ | ⟨l, hw, hma, hp, hg⟩
  · rw [hw]
  · rw [hw]
  · have hno : ¬ ((!s.mayAccess (hostMaster p) p k l) = true ∨
        2 ^ 80 ≤ l.place ∧ s.devBad 0 (l.place / 2 ^ 80 - 1) = true) := by
      rw [show s.mayAccess (hostMaster p) p k l = true from hma]
      rintro (h | ⟨h, -⟩)
      · exact Bool.noConfusion h
      · omega
    rw [hw]
    dsimp only
    rw [if_neg hno, hg, if_pos rfl]

theorem State.hostGo_fail {va : W} {n : Nat} (h : hostFails s p k va n) : s.hostGo p k (vas va n) {} [] = .fail := by
  obtain ⟨j, m, hj, hm, hf⟩ := h
  obtain ⟨r, hr⟩ := vas_split va hj
  obtain ⟨a, -, -, hgo⟩ := State.hostGo_vas hm (fun q hq => .inl hq) ((va + .ofNat 64 j) :: r)
  rw [hr, hgo, State.hostGo]
  rcases hf with ⟨c, x, hf⟩ | ⟨l, hf, hma⟩
  · rw [hf]
  · rw [hf]
    dsimp only
    rw [if_pos (Or.inl (by rw [show s.mayAccess (hostMaster p) p k l = false from hma]; rfl))]

end

/-! ### Failed accesses (R38, R39) -/

/-- A counter of 32 bits that stays at its largest value. -/
theorem toNat_countUp (v : BitVec 32) : (if v = BitVec.allOnes 32 then v else v + 1).toNat = min (2 ^ 32 - 1) (v.toNat + 1) := by
  split
  · next h => rw [h]; decide
  · next h =>
    have hv : v.toNat ≠ 2 ^ 32 - 1 := fun e => h (BitVec.eq_of_toNat_eq e)
    bv_omega

theorem State.fnErr_failed (s : State) (p : PartId) (off : Nat) : hostFailed s (s.fnErr p off) p off := by
  unfold State.fnErr
  refine ⟨?_, ?_, ?_, ?_, fun q hq => ?_, rfl, rfl, rfl⟩ <;> rw [State.vfAt_onVf]
  · rw [if_pos rfl]
    exact toNat_countUp _
  · rw [if_pos rfl]
  · rw [if_pos rfl]
  · rw [if_pos rfl]
  · rw [if_neg hq.symm]

/-- A read that fails is a Completer Abort. -/
def State.hostAbort (s : State) (p : PartId) (off : Nat) : State :=
  { s.fnErr p off with host := { (s.fnErr p off).host with answer := none } }

theorem State.hostAbort_failed (s : State) (p : PartId) (off : Nat) : hostFailed s (s.hostAbort p off) p off :=
  s.fnErr_failed p off

/-! ### Places that a peer module holds -/

theorem isPeer_low {q : Nat} (h : q < 2 ^ 80) : isPeer q = false := decide_eq_false (Nat.not_le.2 h)

theorem isPeer_high {q : Nat} (h : 2 ^ 80 ≤ q) : isPeer q = true := decide_eq_true h

theorem requestRuns_ne_nil {l : List Nat} (h : l ≠ []) : requestRuns l ≠ [] := by
  cases l with
  | nil => exact absurd rfl h
  | cons a r =>
    unfold requestRuns
    split
    · split <;> exact List.cons_ne_nil _ _
    · exact List.cons_ne_nil _ _

/-- One request of an access of a peer module: it has a number, which the access waits for. -/
def State.hostRequest (p : PartId) (id : Nat) (write : Bool) (val : Nat → Byte) (x : State × HostAway) (l : List Nat) :
    State × HostAway :=
  let q := l.headD 0
  let blank : FabPacket := { (default : FabPacket) with va := .ofNat 64 q, cnt := .ofNat 64 l.length }
  (({ x.1 with nextId := x.1.nextId + 1 }).request 0 5 id x.1.nextId p (q / 2 ^ 80 - 1) (if write then 1 else 0)
    (if write then [] else l) (if write then { blank with data := l.map val } else blank),
    { x.2 with left := x.2.left ++ [x.1.nextId] })

/-- What the requests of an access leave of the state and of the access that they belong to. -/
structure AwayFrame (x y : State × HostAway) : Prop where
  host : y.1.host = x.1.host
  cores : y.1.cores = x.1.cores
  ms : y.1.ms = x.1.ms
  fn : y.2.fn = x.2.fn
  write : y.2.write = x.2.write
  places : y.2.places = x.2.places
  left : x.2.left ⊆ y.2.left

theorem AwayFrame.trans {x y z : State × HostAway} (h : AwayFrame x y) (g : AwayFrame y z) : AwayFrame x z :=
  ⟨g.host.trans h.host, g.cores.trans h.cores, g.ms.trans h.ms, g.fn.trans h.fn, g.write.trans h.write,
    g.places.trans h.places, List.Subset.trans h.left g.left⟩

theorem State.hostRequest_frame (p : PartId) (id : Nat) (write : Bool) (val : Nat → Byte) (x : State × HostAway)
    (l : List Nat) : AwayFrame x (State.hostRequest p id write val x l) :=
  ⟨rfl, rfl, rfl, rfl, rfl, rfl, List.subset_append_left _ _⟩

theorem State.hostRequests_frame (p : PartId) (id : Nat) (write : Bool) (val : Nat → Byte) (l : List (List Nat))
    (x : State × HostAway) : AwayFrame x (l.foldl (State.hostRequest p id write val) x) := by
  induction l generalizing x with
  | nil => exact ⟨rfl, rfl, rfl, rfl, rfl, rfl, List.Subset.refl _⟩
  | cons r l ih => exact (State.hostRequest_frame p id write val x r).trans (ih _)

/-- An access with something of a peer module is on its way, with requests that are not answered. -/
theorem State.hostAway_effect (s : State) (p : PartId) (off : Nat) (write : Bool) {places : List Nat}
    (h : places.filter isPeer ≠ []) (known : List (Nat × Byte)) (val : Nat → Byte) :
    ∃ a : HostAway, (s.hostAway p off write places known val).host = { s.host with away := s.host.away ++ [a] } ∧
      (s.hostAway p off write places known val).cores = s.cores ∧
      (s.hostAway p off write places known val).ms = s.ms ∧
      a.fn = fnOf p ∧ a.write = write ∧ a.places = places ∧ a.left ≠ [] := by
  obtain ⟨r, rs, hr⟩ := List.exists_cons_of_ne_nil (requestRuns_ne_nil h)
  have first := State.hostRequest_frame p s.nextId write val
    ({ s with nextId := s.nextId + 1 }, ⟨fnOf p, s.nextId, off, write, places, known, [], false⟩) r
  have rest := State.hostRequests_frame p s.nextId write val rs (State.hostRequest p s.nextId write val
    ({ s with nextId := s.nextId + 1 }, ⟨fnOf p, s.nextId, off, write, places, known, [], false⟩) r)
  have all := first.trans rest
  have haway : s.hostAway p off write places known val =
      let go := rs.foldl (State.hostRequest p s.nextId write val) (State.hostRequest p s.nextId write val
        ({ s with nextId := s.nextId + 1 }, ⟨fnOf p, s.nextId, off, write, places, known, [], false⟩) r)
      { go.1 with host := { go.1.host with away := go.1.host.away ++ [go.2] } } := by
    rw [← List.foldl_cons, ← hr]
    rfl
  rw [haway]
  refine ⟨_, ?_, all.cores, all.ms, all.fn, all.write, all.places, List.ne_nil_of_mem (rest.left (List.mem_singleton.2 rfl))⟩
  dsimp only
  rw [all.host]

end Sys2Proof.Machine
end

section
/-!
SUPPORT. Reads and posted writes of window D (03_host R36, R38, R39, R47, R48): O47.
-/

namespace Sys2Proof.Machine

/-! ### Reads -/

/-- An earlier access of the function stands before a read of window D (R48). -/
abbrev State.readBehind (s : State) : Prop :=
  s.postedBy (fnOf s.inp.part) = true ∨ (s.host.away.any fun a => a.fn == fnOf s.inp.part) = true

/-- The offset in window D that an access of the host names, and its virtual address (R38). -/
abbrev State.windowOff (s : State) : Nat := s.inp.off.toNat % 2 ^ 38
abbrev State.windowVa (s : State) : W := (s.vfAt s.inp.part).wdbase + .ofNat 64 s.windowOff

section
variable {s : State}

theorem exec_windowDRead_behind (h : s.readBehind) : exec .windowDRead s = .next s := if_pos h

theorem exec_windowDRead_wait (hf : ¬ s.readBehind)
    (h : s.hostGo s.inp.part .hostRead (vas s.windowVa s.inp.n) {} [] = .wait) : exec .windowDRead s = .next s := by
  refine (if_neg hf).trans ?_
  dsimp only
  rw [h]

theorem exec_windowDRead_fail (hf : ¬ s.readBehind)
    (h : s.hostGo s.inp.part .hostRead (vas s.windowVa s.inp.n) {} [] = .fail) :
    exec .windowDRead s = .next (s.hostAbort s.inp.part s.windowOff) := by
  refine (if_neg hf).trans ?_
  dsimp only
  rw [h]
  rfl

/-- A read whose bytes all have places: it is aborted at poison, sent to the peer modules, or answered. -/
theorem exec_windowDRead_go (hf : ¬ s.readBehind) {l : List Nat} {a : Attr}
    (h : s.hostGo s.inp.part .hostRead (vas s.windowVa s.inp.n) {} [] = .go l a) :
    exec .windowDRead s =
      if (s.poisonRead (l.filter (!isPeer ·))).isSome then .next (s.hostAbort s.inp.part s.windowOff)
      else if l.any isPeer then
        .next (s.hostAway s.inp.part s.windowOff false l ((l.filter (!isPeer ·)).map fun a => (a, s.readByte a)) fun _ => 0)
      else .next { s with host := { s.host with answer := some (l.map s.readByte) } } := by
  refine (if_neg hf).trans ?_
  dsimp only
  rw [h]
  rfl

end

theorem filter_near {l : List Nat} (h : ∀ q ∈ l, q < 2 ^ 80) : l.filter (!isPeer ·) = l ∧ l.any isPeer = false := by
  refine ⟨List.filter_eq_self.2 fun q hq => ?_, List.any_eq_false.2 fun q hq => ?_⟩ <;> simp [isPeer_low (h q hq)]

theorem filter_far {l : List Nat} (h : ∀ q ∈ l, 2 ^ 80 ≤ q) : l.filter (!isPeer ·) = [] ∧ l.filter isPeer = l := by
  refine ⟨List.filter_eq_nil_iff.2 fun q hq => ?_, List.filter_eq_self.2 fun q hq => isPeer_high (h q hq)⟩
  simp [isPeer_high (h q hq)]

/-- The places of an access. -/
theorem mem_places {n : Nat} {m : Nat → Loc} {P : Nat → Prop} (h : ∀ i, i < n → P (m i).place) :
    ∀ q ∈ (List.range n).map fun i => (m i).place, P q := by
  intro q hq
  obtain ⟨i, hi, rfl⟩ := List.mem_map.1 hq
  exact h i (List.mem_range.1 hi)

/-- R38: tags above 2 are none of the host's. -/
theorem State.translateHost_tag (s : State) (p : PartId) {va : W} (k : AKind) (h : 2 < va.toNat / 2 ^ 61) :
    s.translateHost p va k = .fault 0x09 0 := by
  refine if_pos ?_
  unfold fld
  have := va.isLt
  omega

/-- R38, R39, R48: reads of window D. -/
theorem claim_windowReads : Claim.WindowReads := by
  refine ⟨fun s p va k h => s.translateHost_tag p k h, fun s => ⟨exec_windowDRead_behind, fun hf => ⟨fun h => ?wait,
    fun h => ?fail, fun m hm => ?near, fun m hn hm => ?far⟩⟩⟩
  case wait => exact exec_windowDRead_wait hf (State.hostGo_wait h)
  case fail => exact ⟨_, exec_windowDRead_fail hf (State.hostGo_fail h), rfl, s.hostAbort_failed _ _⟩
  case near =>
    obtain ⟨a, -, -, hgo⟩ := State.hostGo_go hm fun q hq => .inl hq
    obtain ⟨hnear, hany⟩ := filter_near (mem_places fun i hi => have ⟨_, _, _, hp⟩ := hm i hi; hp)
    have hexec := exec_windowDRead_go hf hgo
    rw [hnear, hany] at hexec
    refine ⟨fun hp => ?_, fun hp => ⟨_, ?_, rfl, s.hostAbort_failed s.inp.part s.windowOff⟩⟩
    · rw [hexec, hp]
      rfl
    · rw [hexec, if_pos (Option.isSome_iff_ne_none.2 hp)]
  case far =>
    obtain ⟨a, -, -, hgo⟩ := State.hostGo_go hm fun q hq => .inr hq.2
    have hall := mem_places fun i hi => have ⟨_, _, _, hp, _⟩ := hm i hi; hp
    obtain ⟨hnear, hfar⟩ := filter_far hall
    have hne : (List.range s.inp.n).map (fun i => (m i).place) ≠ [] := by simp; omega
    have hany : ((List.range s.inp.n).map fun i => (m i).place).any isPeer = true := by
      obtain ⟨q, hq⟩ := List.exists_mem_of_ne_nil _ hne
      exact List.any_eq_true.2 ⟨q, hq, isPeer_high (hall q hq)⟩
    have hexec := exec_windowDRead_go hf hgo
    rw [hnear, hany, if_neg (show ¬ (s.poisonRead []).isSome = true from Bool.false_ne_true), if_pos rfl] at hexec
    obtain ⟨b, hhost, hcores, hms, hfn, hwrite, hplaces, hleft⟩ :=
      s.hostAway_effect s.inp.part s.windowOff false (hfar.symm ▸ hne) [] fun _ => 0
    exact ⟨_, b, hexec, congrArg HostSt.away hhost, hfn, hwrite, hplaces, hleft, (congrArg HostSt.answer hhost :),
      (congrArg HostSt.vfs hhost :), hcores, hms⟩

end Sys2Proof.Machine
end

section
/-!
SUPPORT. Posted writes of window D (03_host R36, R38, R39, R47), and O47.
-/

namespace Sys2Proof.Machine

/-! ### A write of window D -/

section
variable {s : State} {p : PartId} {off : Nat} {bytes : List Byte}

theorem State.windowDWrite_wait
    (h : s.hostGo p .hostWrite (vas ((s.vfAt p).wdbase + .ofNat 64 off) bytes.length) {} [] = .wait) :
    s.windowDWrite p off bytes = none := by
  unfold State.windowDWrite
  dsimp only
  rw [h]

theorem State.windowDWrite_fail
    (h : s.hostGo p .hostWrite (vas ((s.vfAt p).wdbase + .ofNat 64 off) bytes.length) {} [] = .fail) :
    s.windowDWrite p off bytes = some (s.fnErr p off) := by
  unfold State.windowDWrite
  dsimp only
  rw [h]

end

/-- The bytes of a write at their places, each written whole. -/
abbrev placedBytes (bytes : List Byte) (m : Nat → Loc) : List (Nat × Byte × Byte) :=
  (List.range bytes.length).map fun i => ((m i).place, bytes.getD i 0, 0xFF#8)

theorem zip_places (bytes : List Byte) (m : Nat → Loc) :
    (((List.range bytes.length).map fun i => (m i).place).zip bytes).map (fun x => (x.1, x.2, 0xFF#8)) =
      placedBytes bytes m := by
  refine List.ext_getElem (by simp) fun i h1 h2 => ?_
  have hi : i < bytes.length := by simpa using h2
  simp [List.getElem?_eq_getElem hi]

/-- The bytes of an access that lie in this module's memory, in an extent that is no stream. -/
abbrev nearWrite (s : State) (p : PartId) (va : W) (bytes : List Byte) (m : Nat → Loc) : Prop :=
  hostPlaces s p .hostWrite va bytes.length (· < 2 ^ 45) m ∧ (m 0).attr.role ≠ 2 ∧
    ∀ i j, i < bytes.length → j < bytes.length → (m i).place = (m j).place → i = j

theorem placedBytes_low {s : State} {p : PartId} {va : W} {bytes : List Byte} {m : Nat → Loc}
    (h : nearWrite s p va bytes m) : ∀ x ∈ placedBytes bytes m, x.1 < 2 ^ 45 := by
  obtain ⟨hm, -, -⟩ := h
  intro x hx
  obtain ⟨i, hi, rfl⟩ := List.mem_map.1 hx
  obtain ⟨-, -, -, hp⟩ := hm i (List.mem_range.1 hi)
  exact hp

/-- A write whose bytes are here is discarded at poison that it does not cover, and is performed otherwise. -/
theorem State.windowDWrite_near {s : State} {p : PartId} {off : Nat} {bytes : List Byte} {m : Nat → Loc}
    (h : nearWrite s p ((s.vfAt p).wdbase + .ofNat 64 off) bytes m) : s.windowDWrite p off bytes =
      if (s.poisonWrite (placedBytes bytes m)).isSome then some (s.fnErr p off)
      else some (s.writePlaces (placedBytes bytes m)) := by
  obtain ⟨hm, hrole, -⟩ := id h
  obtain ⟨a, ha, h0, hgo⟩ := State.hostGo_go hm fun q hq => .inl (by omega)
  have hall : (placedBytes bytes m).filter (fun x => !isPeer x.1) = placedBytes bytes m :=
    List.filter_eq_self.2 fun x hx => by
      have := placedBytes_low h x hx
      rw [isPeer_low (by omega)]
      rfl
  have hany : ((List.range bytes.length).map fun i => (m i).place).any isPeer = false :=
    (filter_near (mem_places fun i hi => by
      obtain ⟨-, -, -, hp⟩ := hm i hi
      omega)).2
  have ha2 : a.role ≠ 2 := by
    rcases Nat.eq_zero_or_pos bytes.length with hn | hn
    · rw [h0 hn]
      decide
    · rwa [ha hn]
  unfold State.windowDWrite
  dsimp only
  rw [hgo]
  dsimp only
  rw [zip_places, hall, hany]
  split
  · rfl
  · split
    · next hr _ => exact absurd hr ha2
    · rfl

theorem State.windowDWrite_clean {s : State} {p : PartId} {off : Nat} {bytes : List Byte} {m : Nat → Loc}
    (h : nearWrite s p ((s.vfAt p).wdbase + .ofNat 64 off) bytes m) (hp : s.poisonWrite (placedBytes bytes m) = none) :
    s.windowDWrite p off bytes = some (s.writePlaces (placedBytes bytes m)) := by
  rw [State.windowDWrite_near h, hp]
  rfl

theorem State.windowDWrite_poison {s : State} {p : PartId} {off : Nat} {bytes : List Byte} {m : Nat → Loc}
    (h : nearWrite s p ((s.vfAt p).wdbase + .ofNat 64 off) bytes m) (hp : s.poisonWrite (placedBytes bytes m) ≠ none) :
    s.windowDWrite p off bytes = some (s.fnErr p off) := by
  rw [State.windowDWrite_near h, if_pos (Option.isSome_iff_ne_none.2 hp)]

/-- What a write of window D leaves: its bytes at their places, and every other byte as it was. -/
abbrev windowWritten (s : State) (bytes : List Byte) (m : Nat → Loc) (t : State) : Prop :=
  (∀ k, k < bytes.length → t.ms.mem.read (m k).place = bytes.getD k 0) ∧
  (∀ b, (∀ k, k < bytes.length → b ≠ (m k).place) → t.ms.mem.read b = s.ms.mem.read b) ∧
  t.cores = s.cores ∧ t.host.vfs = s.host.vfs ∧ t.host.answer = s.host.answer

theorem State.writePlaces_written {s : State} {p : PartId} {va : W} {bytes : List Byte} {m : Nat → Loc}
    (h : nearWrite s p va bytes m) : windowWritten s bytes m (s.writePlaces (placedBytes bytes m)) ∧
      (s.writePlaces (placedBytes bytes m)).host = s.host := by
  obtain ⟨rels, hw⟩ := s.writePlaces_low (placedBytes_low h)
  obtain ⟨-, -, hinj⟩ := h
  have hmask : placedBytes bytes m =
      underFullMask ((List.range bytes.length).map fun i => ((m i).place, bytes.getD i 0)) := by
    simp [underFullMask]
  have hnodup : (((List.range bytes.length).map fun i => ((m i).place, bytes.getD i 0)).map (·.1)).Nodup := by
    rw [List.map_map]
    exact List.Nodup.map_on (fun i hi j hj e => hinj i j (List.mem_range.1 hi) (List.mem_range.1 hj) e) List.nodup_range
  rw [hw]
  refine ⟨⟨fun k hk => ?_, fun b hb => ?_, rfl, rfl, rfl⟩, rfl⟩
  · show (s.ms.mem.store _).read _ = _
    rw [Memory.read_store, hmask]
    exact Memory.read_writeList_mem _ _ hnodup _ (List.mem_map.2 ⟨k, List.mem_range.2 hk, rfl⟩)
  · show (s.ms.mem.store _).read _ = _
    rw [Memory.read_store, hmask]
    refine Memory.read_writeList_other _ _ _ fun x hx => ?_
    obtain ⟨k, hk, rfl⟩ := List.mem_map.1 hx
    exact hb k (List.mem_range.1 hk)

/-! ### Posted writes (R47) -/

/-- The write of window D that an event brings. -/
abbrev State.windowWrite (s : State) : HostWrite := ⟨fnOf s.inp.part, true, s.windowOff, s.inp.bytes⟩

/-- A posted write that waits. -/
abbrev State.postHeld (s : State) (w : HostWrite) : State :=
  { s with host := { s.host with posted := s.host.posted ++ [w] } }

theorem State.performHost_windowWrite (s : State) (p : PartId) (off : Nat) (bytes : List Byte) :
    s.performHost ⟨fnOf p, true, off, bytes⟩ = s.windowDWrite p off bytes := by
  simp [State.performHost]

theorem State.postWrite_behind {s : State} {w : HostWrite} (h : s.postedBy w.fn = true) :
    s.postWrite w false = s.postHeld w := by
  unfold State.postWrite
  rw [if_pos ⟨h, rfl⟩]

/-- A write that need not wait for earlier ones goes to its target at once, which may make it wait. -/
theorem State.postWrite_now {s : State} {w : HostWrite} {relaxed : Bool} (h : s.postedBy w.fn = false ∨ relaxed = true) :
    s.postWrite w relaxed = (s.performHost w).getD (s.postHeld w) := by
  unfold State.postWrite
  rw [if_neg]
  rintro ⟨hp, hr⟩
  rcases h with h | h
  · rw [h] at hp
    exact Bool.noConfusion hp
  · rw [h] at hr
    exact Bool.noConfusion hr

section
variable {s : State}

theorem exec_windowDWrite_behind (h : s.postedBy (fnOf s.inp.part) = true) (hr : s.inp.ok = false) :
    exec .windowDWrite s = .next (s.postHeld s.windowWrite) := by
  show Host.Outcome.next (s.postWrite s.windowWrite s.inp.ok) = _
  rw [hr, State.postWrite_behind h]

theorem exec_windowDWrite_now (h : s.postedBy (fnOf s.inp.part) = false ∨ s.inp.ok = true) : exec .windowDWrite s =
    .next ((s.windowDWrite s.inp.part s.windowOff s.inp.bytes).getD (s.postHeld s.windowWrite)) := by
  show Host.Outcome.next (s.postWrite s.windowWrite s.inp.ok) = _
  rw [State.postWrite_now h, State.performHost_windowWrite]

theorem exec_hostWriteForward_none (h : s.host.posted.find? (·.fn == s.inp.fn) = none) :
    exec .hostWriteForward s = .next s := by
  show execHostWriteForward s = _
  unfold execHostWriteForward
  rw [h]

/-- The oldest posted write of a function is performed and leaves the queue, or waits there. -/
theorem exec_hostWriteForward_some {w : HostWrite} (h : s.host.posted.find? (·.fn == s.inp.fn) = some w) :
    exec .hostWriteForward s = .next (((s.performHost w).map fun t =>
      { t with host := { t.host with posted := t.host.posted.erase w } }).getD s) := by
  show execHostWriteForward s = _
  unfold execHostWriteForward
  rw [h]
  dsimp only
  cases s.performHost w <;> rfl

end

/-- R36, R38, R39, R47: posted writes of window D. -/
theorem claim_windowWrites : Claim.WindowWrites := by
  intro s
  refine ⟨exec_windowDWrite_behind, fun h => ⟨fun hw => ?_, fun hf => ?_, fun m hm hp => ?_, fun m hm hp => ?_⟩,
    fun hfn h => exec_hostWriteForward_none (hfn ▸ h), fun hfn h => ?_, rfl⟩
  · rw [exec_windowDWrite_now h, State.windowDWrite_wait (State.hostGo_wait hw)]
    rfl
  · rw [exec_windowDWrite_now h, State.windowDWrite_fail (State.hostGo_fail hf)]
    exact ⟨_, rfl, s.fnErr_failed _ _⟩
  · obtain ⟨hdone, hhost⟩ := State.writePlaces_written hm
    rw [exec_windowDWrite_now h, State.windowDWrite_clean hm hp]
    exact ⟨_, rfl, hdone, congrArg HostSt.posted hhost⟩
  · rw [exec_windowDWrite_now h, State.windowDWrite_poison hm hp]
    exact ⟨_, rfl, s.fnErr_failed _ _⟩
  · have hexec := exec_hostWriteForward_some (s := s) (w := s.windowWrite) (hfn ▸ h)
    rw [State.performHost_windowWrite] at hexec
    refine ⟨fun hw => ?_, fun hf => ?_, fun m hm hp => ?_⟩
    · rw [hexec, State.windowDWrite_wait (State.hostGo_wait hw)]
      rfl
    · obtain ⟨hcount, -, -, -, -, hcores, hms, hposted⟩ := s.fnErr_failed s.inp.part s.windowOff
      rw [hexec, State.windowDWrite_fail (State.hostGo_fail hf)]
      exact ⟨_, rfl, congrArg (List.erase · s.windowWrite) hposted, hcores, hms, hcount⟩
    · obtain ⟨hdone, hhost⟩ := State.writePlaces_written hm
      rw [hexec, State.windowDWrite_clean hm hp]
      exact ⟨_, rfl, hdone, congrArg (fun h => h.posted.erase s.windowWrite) hhost⟩

/-- Settles O47: reads and posted writes of window D, by where an access goes and what a posted write leaves. -/
theorem hostWindows : Obligations.HostWindows := ⟨claim_windowReads, claim_windowWrites⟩

end Sys2Proof.Machine
end

section
/-!
SUPPORT. Quiescing a partition and resetting functions (07_faults R152, 03_host R49): what is left of a partition, and that
nothing else changes.
-/

namespace Sys2Proof.Machine

/-! ### Launch queues of functions -/

@[simp] theorem State.queueAt_onQueue (s : State) (p r : PartId) (q k : Fin 16) (f : LQueue → LQueue) :
    (s.onQueue p q f).queueAt r k = if p = r ∧ q = k then f (s.queueAt p q) else s.queueAt r k := by
  unfold State.queueAt State.onQueue
  rw [State.vfAt_onVf]
  by_cases hp : p = r
  · subst hp
    by_cases hq : q = k
    · subst hq
      rw [if_pos rfl, if_pos ⟨rfl, rfl⟩]
      exact set_same _ _ q.isLt _ _ rfl
    · rw [if_pos rfl, if_neg fun h => hq h.2]
      exact set_other _ _ q.isLt _ _ fun e => hq (Fin.ext e)
  · rw [if_neg hp, if_neg fun h => hp h.1]

theorem State.vfAt_onQueue_other (s : State) {p r : PartId} (h : r ≠ p) (q : Fin 16) (f : LQueue → LQueue) :
    (s.onQueue p q f).vfAt r = s.vfAt r := by
  unfold State.onQueue
  rw [State.vfAt_onVf, if_neg h.symm]

/-! ### What a partition runs -/

/-- A core runs something of a partition. -/
def State.ranFor (s : State) (p : PartId) (c : CoreId) : Bool :=
  (s.coreAt c).node.inst.any ((s.sched.insts.filter fun i => i.vf == p).map (·.id)).contains

theorem State.ranFor_iff (s : State) (p : PartId) (c : CoreId) : s.ranFor p c = true ↔
    ∃ i ∈ s.sched.insts, i.vf = p ∧ (s.coreAt c).node.inst = some i.id := by
  unfold State.ranFor
  rw [Option.any_eq_true]
  constructor
  · rintro ⟨id, hid, h⟩
    obtain ⟨i, hi, rfl⟩ := List.mem_map.1 (List.contains_iff_mem.1 h)
    obtain ⟨hi, hp⟩ := List.mem_filter.1 hi
    exact ⟨i, hi, by simpa using hp, hid⟩
  · rintro ⟨i, hi, hp, hid⟩
    exact ⟨i.id, hid, List.contains_iff_mem.2 (List.mem_map.2 ⟨i, List.mem_filter.2 ⟨hi, by simpa using hp⟩, rfl⟩)⟩

/-- The schedulers' state without what a partition has there. -/
def Sched.without (h : Sched) (p : PartId) : Sched := { h with
  insts := h.insts.filter fun i => !(i.vf == p)
  groups := h.groups.filter fun g => g.2.part != p
  tasks := h.tasks.filter fun t => !((h.insts.filter fun i => i.vf == p).map (·.id)).contains t.inst
  reserved := h.reserved.filter fun r => r.1 != p
  causes := h.causes.filter (·.part != p) }

/-- The first part of a quiesce: the partition's cores are reset and its instances end. -/
def State.emptied (s : State) (p : PartId) : State := { s with
  cores := tabulate fun c => if s.ranFor p c then (s.coreAt c).resetCore c else s.coreAt c
  sched := s.sched.without p }

theorem State.coreAt_emptied (s : State) (p : PartId) (c : CoreId) :
    (s.emptied p).coreAt c = if s.ranFor p c then (s.coreAt c).resetCore c else s.coreAt c := by
  unfold State.emptied
  rw [State.coreAt, vector_get]
  exact tabulate_getElem _ _ c.isLt

/-- The records that a queue has open complete with failure. -/
def State.failOpen (p : PartId) (s : State) (q : Fin 16) : State :=
  let x := s.queueAt p q
  let l := x.recs.filter fun r => !r.ended
  if l.isEmpty then s else s.advanceQueue p q (l.foldl (fun x r => x.ended r true) x)

theorem State.vfAt_advanceQueue_other (s : State) {p r : PartId} (h : r ≠ p) (q : Fin 16) (x : LQueue) :
    (s.advanceQueue p q x).vfAt r = s.vfAt r :=
  s.vfAt_onQueue_other h q fun _ => (advanceCt (p.val + 1) x).1

theorem State.queueAt_advanceQueue (s : State) (p : PartId) (q k : Fin 16) (x : LQueue) :
    (s.advanceQueue p q x).queueAt p k = if q = k then (advanceCt (p.val + 1) x).1 else s.queueAt p k :=
  (s.queueAt_onQueue p p q k fun _ => (advanceCt (p.val + 1) x).1).trans (by simp)

/-- What the end of a partition's records leaves: all but its own function and the host's messages. -/
structure RecordsFrame (p : PartId) (s t : State) : Prop where
  cores : t.cores = s.cores
  mem : t.ms.mem = s.ms.mem
  sched : t.sched = s.sched
  fw : t.fw = s.fw
  vfs : ∀ q, q ≠ p → t.vfAt q = s.vfAt q

theorem RecordsFrame.refl (p : PartId) (s : State) : RecordsFrame p s s := ⟨rfl, rfl, rfl, rfl, fun _ _ => rfl⟩

theorem RecordsFrame.trans {p : PartId} {s t u : State} (h : RecordsFrame p s t) (g : RecordsFrame p t u) :
    RecordsFrame p s u :=
  ⟨g.cores.trans h.cores, g.mem.trans h.mem, g.sched.trans h.sched, g.fw.trans h.fw,
    fun q hq => (g.vfs q hq).trans (h.vfs q hq)⟩

theorem State.failOpen_frame (p : PartId) (s : State) (q : Fin 16) : RecordsFrame p s (s.failOpen p q) := by
  unfold State.failOpen
  dsimp only
  split
  · exact RecordsFrame.refl p s
  · exact ⟨rfl, rfl, rfl, rfl, fun r hr => s.vfAt_advanceQueue_other hr q _⟩

theorem State.failOpens_frame (p : PartId) (l : List (Fin 16)) (s : State) :
    RecordsFrame p s (l.foldl (State.failOpen p) s) := by
  induction l generalizing s with
  | nil => exact RecordsFrame.refl p s
  | cons q l ih => exact (s.failOpen_frame p q).trans (ih _)

/-- The state in which the partition is emptied and its records have ended. -/
def State.recordsEnded (s : State) (p : PartId) : State := (List.finRange 16).foldl (State.failOpen p) (s.emptied p)

/-- What a quiesce does after its records have ended reaches neither cores nor memory, and of the functions its own. -/
theorem State.quiesce_rest (s : State) (p : PartId) : (s.quiesce p).cores = (s.recordsEnded p).cores ∧
    (s.quiesce p).ms.mem = (s.recordsEnded p).ms.mem ∧ (s.quiesce p).sched = (s.recordsEnded p).sched ∧
    (s.quiesce p).fw = (s.recordsEnded p).fw ∧ (s.quiesce p).host = ((s.recordsEnded p).onVf p
      fun v => { v with queues := .replicate 16 LQueue.reset }).host := by
  unfold State.quiesce State.recordsEnded
  generalize List.finRange 16 = l
  exact ⟨rfl, rfl, rfl, rfl, rfl⟩

/-- A quiesce: the partition is emptied, its records end, and its queues are reset. -/
theorem State.quiesce_frame (s : State) (p : PartId) : RecordsFrame p (s.emptied p) (s.quiesce p) := by
  obtain ⟨hcores, hmem, hsched, hfw, hhost⟩ := s.quiesce_rest p
  have hrecords : RecordsFrame p (s.emptied p) (s.recordsEnded p) := State.failOpens_frame p (List.finRange 16) _
  refine hrecords.trans ⟨hcores, hmem, hsched, hfw, fun q hq => ?_⟩
  unfold State.vfAt
  rw [hhost]
  exact (State.vfAt_onVf _ p q _).trans (if_neg hq.symm)

theorem State.sched_quiesce (s : State) (p : PartId) : (s.quiesce p).sched = s.sched.without p :=
  (s.quiesce_frame p).sched

theorem State.coreAt_quiesce (s : State) (p : PartId) (c : CoreId) :
    (s.quiesce p).coreAt c = if s.ranFor p c then (s.coreAt c).resetCore c else s.coreAt c := by
  rw [← s.coreAt_emptied p c, State.coreAt, (s.quiesce_frame p).cores]
  rfl

end Sys2Proof.Machine
end

section
/-!
SUPPORT. Function-level resets (03_host R49): of one function, and of all of them.
-/

namespace Sys2Proof.Machine

/-! ### The reset of a VF -/

theorem State.vfAt_flr (s : State) (p q : PartId) : (s.flr p).vfAt q = if p = q then Vf.reset else s.vfAt q := by
  unfold State.flr
  rw [State.vfAt_onVf]
  split
  · rfl
  · next h => exact (s.quiesce_frame p).vfs q (Ne.symm h)

theorem State.sched_flr (s : State) (p : PartId) : (s.flr p).sched = s.sched.without p := by
  unfold State.flr
  rw [State.onVf_sched, s.sched_quiesce]

theorem State.coreAt_flr (s : State) (p : PartId) (c : CoreId) :
    (s.flr p).coreAt c = if s.ranFor p c then (s.coreAt c).resetCore c else s.coreAt c := by
  unfold State.flr
  rw [State.coreAt_onVf, s.coreAt_quiesce]

theorem State.fw_flr (s : State) (p : PartId) : (s.flr p).fw = s.fw := by
  unfold State.flr
  rw [State.onVf_fw, (s.quiesce_frame p).fw]
  rfl

theorem State.mem_flr (s : State) (p : PartId) : (s.flr p).ms.mem = s.ms.mem := by
  unfold State.flr
  rw [State.onVf_ms, (s.quiesce_frame p).mem]
  rfl

theorem Sched.mem_insts_without (h : Sched) (p : PartId) (i : Inst) : i ∈ (h.without p).insts ↔ i ∈ h.insts ∧ i.vf ≠ p := by
  simp [Sched.without]

theorem Sched.mem_groups_without (h : Sched) (p : PartId) (g : BitVec 8 × GroupEnt) :
    g ∈ (h.without p).groups ↔ g ∈ h.groups ∧ g.2.part ≠ p := by
  simp [Sched.without]

/-- A core that runs nothing, with general registers at reset and its memories as they were. -/
abbrev idleSince (x y : Core) : Prop :=
  y.node.inst = none ∧ y.seq.mode = .idle ∧ (∀ k, y.regs.s.get k = 0) ∧ y.scratch = x.scratch ∧ y.acc = x.acc

theorem Core.resetCore_idle (c : CoreId) (x : Core) : idleSince x (x.resetCore c) :=
  ⟨rfl, rfl, fun k => by simp [Core.resetCore, Core.reset, Regs.reset, vector_get], rfl, rfl⟩

/-! ### The reset of several -/

/-- A core that runs nothing is reset by none. -/
theorem State.coreAt_flrs_none {c : CoreId} : ∀ (l : List PartId) (s : State), (s.coreAt c).node.inst = none →
    (l.foldl State.flr s).coreAt c = s.coreAt c
  | [], _, _ => rfl
  | p :: l, s, h => by
    have hran : s.ranFor p c = false := by simp [State.ranFor, h]
    have hc : (s.flr p).coreAt c = s.coreAt c := by rw [s.coreAt_flr, hran, if_neg Bool.false_ne_true]
    rw [List.foldl_cons, State.coreAt_flrs_none l _ (by rw [hc, h]), hc]

/-- A core that ran for one of the functions is idle after their resets. -/
theorem State.coreAt_flrs_idle {c : CoreId} {i : Inst} {l : List PartId} {s : State} (hl : i.vf ∈ l) (hi : i ∈ s.sched.insts)
    (hc : (s.coreAt c).node.inst = some i.id) : idleSince (s.coreAt c) ((l.foldl State.flr s).coreAt c) := by
  induction l generalizing s with
  | nil => exact absurd hl List.not_mem_nil
  | cons p l ih =>
    have hstep := s.coreAt_flr p c
    rw [List.foldl_cons]
    cases hran : s.ranFor p c with
    | true =>
      rw [hran, if_pos rfl] at hstep
      have hnone : ((s.flr p).coreAt c).node.inst = none := by
        rw [hstep]
        rfl
      rw [State.coreAt_flrs_none l _ hnone, hstep]
      exact Core.resetCore_idle c _
    | false =>
      rw [hran, if_neg Bool.false_ne_true] at hstep
      have hp : i.vf ≠ p := fun e => by
        rw [(s.ranFor_iff p c).2 ⟨i, hi, e, hc⟩] at hran
        exact Bool.noConfusion hran
      have hmem : i ∈ (s.flr p).sched.insts := by
        rw [s.sched_flr]
        exact (Sched.mem_insts_without _ _ _).2 ⟨hi, hp⟩
      have hrest := ih ((List.mem_cons.1 hl).resolve_left hp) hmem (by rw [hstep, hc])
      rw [hstep] at hrest
      exact hrest

/-- What the resets of functions leave of the other functions, the instances and the group entries, firmware and memory. -/
theorem State.flrs_effect : ∀ (l : List PartId) (s : State),
    (∀ q, (l.foldl State.flr s).vfAt q = if q ∈ l then Vf.reset else s.vfAt q) ∧
    (∀ i ∈ (l.foldl State.flr s).sched.insts, i.vf ∉ l) ∧ (∀ g ∈ (l.foldl State.flr s).sched.groups, g.2.part ∉ l) ∧
    (∀ i ∈ (l.foldl State.flr s).sched.insts, i ∈ s.sched.insts) ∧
    (∀ g ∈ (l.foldl State.flr s).sched.groups, g ∈ s.sched.groups) ∧
    (l.foldl State.flr s).fw = s.fw ∧ (l.foldl State.flr s).ms.mem = s.ms.mem
  | [], s => ⟨fun _ => rfl, fun _ _ => List.not_mem_nil, fun _ _ => List.not_mem_nil, fun _ h => h, fun _ h => h, rfl, rfl⟩
  | p :: l, s => by
    obtain ⟨hvf, hinst, hgroup, hinsts, hgroups, hfw, hmem⟩ := State.flrs_effect l (s.flr p)
    rw [s.sched_flr] at hinsts hgroups
    rw [List.foldl_cons]
    refine ⟨fun q => ?_, fun i hi => ?_, fun g hg => ?_, fun i hi => ?_, fun g hg => ?_, hfw.trans (s.fw_flr p),
      hmem.trans (s.mem_flr p)⟩
    · rw [hvf, s.vfAt_flr]
      by_cases hq : q = p
      · subst hq
        simp
      · simp [hq, Ne.symm hq]
    · obtain ⟨-, hp⟩ := (Sched.mem_insts_without _ _ _).1 (hinsts i hi)
      exact List.not_mem_cons_of_ne_of_not_mem hp (hinst i hi)
    · obtain ⟨-, hp⟩ := (Sched.mem_groups_without _ _ _).1 (hgroups g hg)
      exact List.not_mem_cons_of_ne_of_not_mem hp (hgroup g hg)
    · exact ((Sched.mem_insts_without _ _ _).1 (hinsts i hi)).1
    · exact ((Sched.mem_groups_without _ _ _).1 (hgroups g hg)).1

/-- R49, R152: resets of functions. -/
theorem claim_functionResets : Claim.FunctionResets := by
  intro s
  refine ⟨⟨s.flr s.inp.part, rfl, ?vf, fun i hi => ?inst, fun i hi hp => ?other, fun g hg => ?group, fun c hc => ?ran,
    fun c hc => ?same, ⟨?partmap, ?keyslots, s.mem_flr _⟩, fun q hq => ?vfs⟩,
    ⟨(List.finRange 8).foldl State.flr s, rfl, ?_⟩⟩
  case vf => rw [s.vfAt_flr, if_pos rfl]
  case inst =>
    rw [s.sched_flr] at hi
    exact ((Sched.mem_insts_without _ _ _).1 hi).2
  case other =>
    rw [s.sched_flr]
    exact (Sched.mem_insts_without _ _ _).2 ⟨hi, hp⟩
  case group =>
    rw [s.sched_flr] at hg
    exact ((Sched.mem_groups_without _ _ _).1 hg).2
  case ran =>
    show idleSince _ ((s.flr s.inp.part).coreAt c)
    rw [s.coreAt_flr, if_pos ((s.ranFor_iff _ c).2 hc)]
    exact Core.resetCore_idle c _
  case same => rw [s.coreAt_flr, if_neg fun h => hc ((s.ranFor_iff _ c).1 h)]
  case partmap => rw [s.fw_flr]
  case keyslots => rw [s.fw_flr]
  case vfs => rw [s.vfAt_flr, if_neg hq.symm]
  obtain ⟨hvf, hinst, hgroup, -, -, hfw, hmem⟩ := State.flrs_effect (List.finRange 8) s
  refine ⟨fun r => ?_, ?_, ?_, fun c ⟨i, hi, hc⟩ => State.coreAt_flrs_idle (List.mem_finRange _) hi hc,
    congrArg Firmware.partmap hfw, congrArg Firmware.keyslots hfw, hmem⟩
  · rw [hvf, if_pos (List.mem_finRange r)]
  · exact List.eq_nil_iff_forall_not_mem.2 fun i hi => hinst i hi (List.mem_finRange _)
  · exact List.eq_nil_iff_forall_not_mem.2 fun g hg => hgroup g hg (List.mem_finRange _)

end Sys2Proof.Machine
end

section
/-!
SUPPORT. Writes of launch queue registers (03_host R39, R41 to R43, R45).
-/

namespace Sys2Proof.Machine

/-! ### Little-endian numbers -/

theorem leNat_leBytes (n v : Nat) : leNat (leBytes n v) = v % 256 ^ n := by
  induction n generalizing v with
  | zero => simp [leBytes, leNat, Nat.mod_one]
  | succ n ih =>
    rw [leBytes, leNat, ih, BitVec.toNat_ofNat, show 256 ^ (n + 1) = 256 * 256 ^ n from Nat.pow_succ', Nat.mod_mul (a := 256)]

theorem leNat_lt (l : List Byte) : leNat l < 256 ^ l.length := by
  induction l with
  | nil => exact Nat.one_pos
  | cons b l ih =>
    have hb := b.isLt
    rw [leNat, List.length_cons, Nat.pow_succ]
    omega

/-- The eight bytes of a word give the word back. -/
theorem ofNat_leBytes (v : W) : BitVec.ofNat 64 (leNat (leBytes 8 v.toNat)) = v := by
  rw [leNat_leBytes, Nat.mod_eq_of_lt (show v.toNat < 256 ^ 8 from v.isLt), BitVec.ofNat_toNat, BitVec.setWidth_eq]

/-! ### Registers of window C (R39, R40) -/

/-- With no posted write before it, a write of a register of window C takes effect at once. -/
theorem State.postC_now {s : State} {f : Fin 9} (h : s.postedBy f = false) (off : Nat) (v : W) :
    s.postC f off v = .next (s.windowCWrite f off v) := by
  unfold State.postC
  rw [State.postWrite_now (Or.inl h)]
  simp [State.performHost, ofNat_leBytes]

theorem State.windowCWrite_fnerr (s : State) (p : PartId) (v : W) :
    s.windowCWrite (fnOf p) 0x10 v = s.onVf p fun x => { x with fnerr := 0, fnerraddr := 0 } := by
  simp [State.windowCWrite]

/-- The place of a queue's register: 64 bytes of registers for each queue. -/
theorem qOff_split (q : Fin 16) {r : Nat} (hr : r < 0x40) : 0x1000 ≤ qOff q r ∧ qOff q r < 0x1400 ∧
    toQ ((qOff q r - 0x1000) / 0x40) = q ∧ (qOff q r - 0x1000) % 0x40 = r := by
  have hq := q.isLt
  have hdiv : (qOff q r - 0x1000) / 0x40 = q.val := by
    unfold qOff
    omega
  refine ⟨by unfold qOff; omega, by unfold qOff; omega, ?_, by unfold qOff; omega⟩
  rw [hdiv]
  exact Fin.ext (Nat.mod_eq_of_lt hq)

/-- A write of register r of a queue. -/
def State.writeQueueReg (s : State) (p : PartId) (q : Fin 16) (r : Nat) (v : W) : State :=
  match r with
  | 0x00 => s.onQueue p q fun x => if x.en then x else { x with base := v }
  | 0x08 => s.writeLqcfg p q v
  | 0x10 => s.onQueue p q (·.writePi v)
  | 0x38 => if bitOf v.toNat 0 then s.skipQueue p q else s
  | _ => s

theorem State.windowCWrite_queue (s : State) (p : PartId) (q : Fin 16) {r : Nat} (hr : r < 0x40) (v : W) :
    s.windowCWrite (fnOf p) (qOff q r) v = s.writeQueueReg p q r v := by
  obtain ⟨hlo, hhi, hq, hmod⟩ := qOff_split q hr
  unfold State.windowCWrite
  rw [partOfFn_fnOf]
  dsimp only
  rw [if_neg (by omega), if_neg (by omega), if_pos ⟨hlo, hhi⟩, hq, hmod]
  rfl

/-! ### What stays -/

/-- Of queues and functions, only one queue has changed; cores, memories and posted writes have not. -/
abbrev onlyQueue (p : PartId) (q : Fin 16) (s t : State) : Prop :=
  t.cores = s.cores ∧ t.ms = s.ms ∧ t.host.posted = s.host.posted ∧
    (∀ r, r ≠ q → t.queueAt p r = s.queueAt p r) ∧ ∀ r, r ≠ p → t.vfAt r = s.vfAt r

theorem onlyQueue_refl (p : PartId) (q : Fin 16) (s : State) : onlyQueue p q s s :=
  ⟨rfl, rfl, rfl, fun _ _ => rfl, fun _ _ => rfl⟩

theorem State.onQueue_only (s : State) (p : PartId) (q : Fin 16) (f : LQueue → LQueue) : onlyQueue p q s (s.onQueue p q f) :=
  ⟨rfl, rfl, rfl, fun r hr => by rw [s.queueAt_onQueue, if_neg fun h => hr h.2.symm], fun r hr => s.vfAt_onQueue_other hr q f⟩

theorem State.advanceQueue_only (s : State) (p : PartId) (q : Fin 16) (x : LQueue) : onlyQueue p q s (s.advanceQueue p q x) :=
  ⟨rfl, rfl, rfl, fun r hr => by rw [s.queueAt_advanceQueue, if_neg hr.symm], fun r hr => s.vfAt_advanceQueue_other hr q x⟩

theorem State.queueAt_onQueue_same (s : State) (p : PartId) (q : Fin 16) (f : LQueue → LQueue) :
    (s.onQueue p q f).queueAt p q = f (s.queueAt p q) := by simp

/-! ### LQPI (R41, R42) -/

theorem LQueue.writePi_off {x : LQueue} (h : x.en = false) (v : W) : x.writePi v = x := by simp [LQueue.writePi, h]

theorem LQueue.writePi_in {x : LQueue} {v : W} (h : x.en = true) (hlo : x.pi.toNat ≤ v.toNat)
    (hhi : v.toNat ≤ x.ci.toNat + 2 ^ x.log2n.toNat) : x.writePi v = { x with pi := v } := by
  unfold LQueue.writePi
  rw [h, if_neg (by decide), if_neg (by omega)]

theorem LQueue.writePi_out {x : LQueue} {v : W} (h : x.en = true)
    (hv : v.toNat < x.pi.toNat ∨ x.ci.toNat + 2 ^ x.log2n.toNat < v.toNat) :
    x.writePi v = if x.halt = none then { x with err := 2 } else x := by
  unfold LQueue.writePi
  rw [h, if_neg (by decide), if_pos hv]
  simp only [Option.isNone_iff_eq_none]

/-! ### LQCFG (R41) -/

/-- The configuration fields that a write of LQCFG gives. -/
abbrev LQueue.configured (x : LQueue) (v : W) : LQueue :=
  { x with irq := v.getLsbD 15, msiv := v.extractLsb' 8 6, log2n := v.extractLsb' 0 5 }

/-! The fields as the model takes them from the word. -/

theorem lqcfg_bit (v : W) (i : Nat) : v.getLsbD i = bitOf v.toNat i := (bitOf_eq_testBit _ _).symm

theorem lqcfg_msiv (v : W) : v.extractLsb' 8 6 = .ofNat 6 (fld v.toNat 13 8) :=
  BitVec.eq_of_toNat_eq (by simp [fld, Nat.shiftRight_eq_div_pow])

theorem lqcfg_log (v : W) : v.extractLsb' 0 5 = .ofNat 5 (fld v.toNat 4 0) :=
  BitVec.eq_of_toNat_eq (by simp [fld])

/-- The conditions under which EN = 1 starts a queue. -/
abbrev State.queueGood (s : State) (p : PartId) (q : Fin 16) (v : W) : Prop :=
  6 ≤ v.toNat % 32 ∧ v.toNat % 32 ≤ 16 ∧ (s.queueAt p q).base.toNat / 2 ^ 61 = 0 ∧
    (s.queueAt p q).base.toNat % (64 * 2 ^ (v.toNat % 32)) = 0 ∧ s.partCores p ≠ []

/-- The same conditions on the fields as the model takes them. -/
theorem State.queueGood_iff (s : State) (p : PartId) (q : Fin 16) (v : W) : s.queueGood p q v ↔
    (6 ≤ fld v.toNat 4 0 ∧ fld v.toNat 4 0 ≤ 16 ∧ fld (s.queueAt p q).base.toNat 63 61 = 0 ∧
      (s.queueAt p q).base.toNat % (64 * 2 ^ fld v.toNat 4 0) = 0 ∧ (!(s.partCores p).isEmpty) = true) := by
  have hlog : fld v.toNat 4 0 = v.toNat % 32 := by simp [fld]
  have hbase : fld (s.queueAt p q).base.toNat 63 61 = (s.queueAt p q).base.toNat / 2 ^ 61 := by
    have := (s.queueAt p q).base.isLt
    unfold fld
    omega
  simp [State.queueGood, hlog, hbase]

/-- A queue that EN = 1 starts: its records are none of the new count. -/
abbrev LQueue.startedWith (x : LQueue) (v : W) : LQueue := { x.configured v with
  en := true, pi := 0, ci := 0, ct := 0, err := 0, failcnt := 0, at_ := 0, tag := 0, recs := [], halt := none
  old := (x.old ++ x.recs.filter fun r => !r.ended).map fun r => { r with k := r.k + 2 ^ 64 } }

section
variable {s : State} {p : PartId} {q : Fin 16} {v : W}

/-! While EN is 1 only EN = 0 is taken. -/

theorem State.writeLqcfg_stays (h : (s.queueAt p q).en = true) (hv : bitOf v.toNat 31 = true) : s.writeLqcfg p q v = s := by
  unfold State.writeLqcfg
  dsimp only
  rw [if_pos h, if_pos hv]

theorem State.writeLqcfg_stops (h : (s.queueAt p q).en = true) (hv : bitOf v.toNat 31 = false) :
    s.writeLqcfg p q v = s.onQueue p q fun x => { x with en := false } := by
  unfold State.writeLqcfg
  dsimp only
  rw [if_pos h, hv, if_neg Bool.false_ne_true]

theorem State.writeLqcfg_configure (h : (s.queueAt p q).en = false) (hv : bitOf v.toNat 31 = false) :
    s.writeLqcfg p q v = s.onQueue p q (·.configured v) := by
  simp only [LQueue.configured, lqcfg_bit, lqcfg_msiv, lqcfg_log]
  unfold State.writeLqcfg
  dsimp only
  rw [h, hv, if_neg Bool.false_ne_true]
  rfl

/-- A good configuration starts the queue at zero. -/
theorem State.writeLqcfg_start (h : (s.queueAt p q).en = false) (hv : bitOf v.toNat 31 = true) (hg : s.queueGood p q v) :
    s.writeLqcfg p q v = (s.orphan p q).onQueue p q (·.startedWith v) := by
  simp only [LQueue.startedWith, lqcfg_bit, lqcfg_msiv, lqcfg_log]
  unfold State.writeLqcfg
  dsimp only
  rw [h, hv, if_neg Bool.false_ne_true, if_neg (by decide), if_pos (s.queueGood_iff p q v |>.1 hg)]

theorem State.writeLqcfg_refused (h : (s.queueAt p q).en = false) (hv : bitOf v.toNat 31 = true) (hg : ¬ s.queueGood p q v) :
    s.writeLqcfg p q v = s.onQueue p q fun x => { x with err := 1 } := by
  unfold State.writeLqcfg
  dsimp only
  rw [h, hv, if_neg Bool.false_ne_true, if_neg (by decide), if_neg fun hc => hg (s.queueGood_iff p q v |>.2 hc)]

end

/-- A start changes its queue alone: the instances of earlier records are the schedulers'. -/
theorem State.orphan_onQueue_only (s : State) (p : PartId) (q : Fin 16) (f : LQueue → LQueue) :
    onlyQueue p q s ((s.orphan p q).onQueue p q f) := (s.orphan p q).onQueue_only p q f

/-! ### SKIP (R42, R43, R45) -/

/-- A halted queue with the record it is halted on complete as failed, before LQCT advances. -/
abbrev LQueue.skipped (x : LQueue) (k : Nat) (tag : W) : LQueue := { x with
  recs := x.recs ++ [⟨k, 0, 0, 0, 0, false, [], tag, true, true, true⟩]
  failcnt := if x.failcnt = 0xFFFF#16 then x.failcnt else x.failcnt + 1
  tag := tag, ci := .ofNat 64 k, err := 0, halt := none }

theorem State.skipQueue_running {s : State} {p : PartId} {q : Fin 16} (h : (s.queueAt p q).halt = none) :
    s.skipQueue p q = s.onQueue p q fun x => { x with err := 0 } := by
  unfold State.skipQueue
  dsimp only
  rw [h]

theorem State.skipQueue_halted {s : State} {p : PartId} {q : Fin 16} {k : Nat} {tag : W}
    (h : (s.queueAt p q).halt = some (k, tag)) :
    s.skipQueue p q = s.advanceQueue p q ((s.queueAt p q).skipped k tag) := by
  unfold State.skipQueue
  dsimp only
  rw [h]
  rfl

/-- An advance of LQCT leaves all of a queue but its records and LQCT. -/
theorem advanceCt_eq (fn : Nat) (x : LQueue) :
    (advanceCt fn x).1 = { x with ct := (advanceCt fn x).1.ct, recs := (advanceCt fn x).1.recs } := rfl

/-- A counter of 16 bits that stays at its largest value. -/
theorem toNat_countUp16 (v : BitVec 16) :
    (if v = 0xFFFF#16 then v else v + 1).toNat = min (2 ^ 16 - 1) (v.toNat + 1) := by
  split
  · next h => rw [h]; decide
  · next h =>
    have hv : v.toNat ≠ 2 ^ 16 - 1 := fun e => h (BitVec.eq_of_toNat_eq e)
    bv_omega

/-- A queue that had no record open passes the one that SKIP has completed, with one message where IRQ is 1. -/
theorem advanceCt_skipped {x : LQueue} (h : x.recs = []) (fn k : Nat) (tag : W) :
    (advanceCt fn (x.skipped k tag)).1.ct = x.ct + 1 ∧ (advanceCt fn (x.skipped k tag)).1.recs = [] ∧
      (advanceCt fn (x.skipped k tag)).2 = if x.irq = true then [(fn, x.msiv.toNat)] else [] := by
  simp [advanceCt, h]

/-- A write of LQCFG changes its queue alone. -/
theorem State.writeLqcfg_only (s : State) (p : PartId) (q : Fin 16) (v : W) : onlyQueue p q s (s.writeLqcfg p q v) := by
  rcases Bool.eq_false_or_eq_true (s.queueAt p q).en with hen | hen <;>
    rcases Bool.eq_false_or_eq_true (bitOf v.toNat 31) with hv | hv
  · rw [State.writeLqcfg_stays hen hv]
    exact onlyQueue_refl p q s
  · rw [State.writeLqcfg_stops hen hv]
    exact s.onQueue_only p q _
  · by_cases hg : s.queueGood p q v
    · rw [State.writeLqcfg_start hen hv hg]
      exact s.orphan_onQueue_only p q _
    · rw [State.writeLqcfg_refused hen hv hg]
      exact s.onQueue_only p q _
  · rw [State.writeLqcfg_configure hen hv]
    exact s.onQueue_only p q _

/-- An enabled queue after a write of LQCFG. -/
theorem State.queueAt_writeLqcfg_enabled {s : State} {p : PartId} {q : Fin 16} {v : W} (h : (s.queueAt p q).en = true) :
    (s.writeLqcfg p q v).queueAt p q = { s.queueAt p q with en := v.getLsbD 31 } := by
  rw [lqcfg_bit]
  rcases Bool.eq_false_or_eq_true (bitOf v.toNat 31) with hv | hv
  · rw [State.writeLqcfg_stays h hv, hv, ← h]
  · rw [State.writeLqcfg_stops h hv, State.queueAt_onQueue_same, hv]

/-- SKIP changes its queue alone. -/
theorem State.skipQueue_only (s : State) (p : PartId) (q : Fin 16) : onlyQueue p q s (s.skipQueue p q) := by
  cases h : (s.queueAt p q).halt with
  | none =>
    rw [State.skipQueue_running h]
    exact s.onQueue_only p q _
  | some r =>
    rw [State.skipQueue_halted h]
    exact s.advanceQueue_only p q _

/-- R39, R41 to R43, R45: writes of launch queue registers. -/
theorem claim_launchQueueRegisters : Claim.LaunchQueueRegisters := by
  intro s p q x v log only hposted
  have write : ∀ (r : Nat) (w : W), r < 0x40 → s.postC (fnOf p) (qOff q r) w = .next (s.writeQueueReg p q r w) := by
    intro r w hr
    rw [State.postC_now hposted, s.windowCWrite_queue p q hr]
  have bit : ∀ {b : Bool}, v.getLsbD 31 = b → bitOf v.toNat 31 = b := fun h => (lqcfg_bit v 31).symm.trans h
  have queue : ∀ {t : State} {f : LQueue → LQueue}, t = s.onQueue p q f → t.queueAt p q = f x := by
    rintro t f rfl
    exact s.queueAt_onQueue_same p q f
  refine ⟨⟨_, (State.postC_now hposted _ _).trans (congrArg _ (s.windowCWrite_fnerr p _)), ?_, fun r hr => ?_, rfl, rfl⟩,
    ⟨_, write 0x10 v (by decide), s.onQueue_only p q _, ?_⟩,
    ⟨_, write 0x08 v (by decide), s.writeLqcfg_only p q v, ⟨fun hen hv => ⟨fun hg => ⟨(x.startedWith v).old, ?_⟩, fun hg => ?_⟩,
      fun hen hv => ?_⟩, State.queueAt_writeLqcfg_enabled⟩,
    ⟨_, write 0x38 1 (by decide), s.skipQueue_only p q, fun hk => ?_, fun k g hk => ?_⟩⟩
  · rw [State.vfAt_onVf, if_pos rfl]
  · rw [State.vfAt_onVf, if_neg hr.symm]
  · have hq : (s.writeQueueReg p q 0x10 v).queueAt p q = x.writePi v := queue rfl
    rw [hq]
    exact ⟨fun hen => LQueue.writePi_off hen v, LQueue.writePi_in, LQueue.writePi_out⟩
  · have hw : s.writeQueueReg p q 0x08 v = _ := State.writeLqcfg_start hen (bit hv) hg
    rw [hw]
    exact (s.orphan p q).queueAt_onQueue_same p q (·.startedWith v)
  · exact queue (State.writeLqcfg_refused hen (bit hv) hg)
  · exact queue (State.writeLqcfg_configure hen (bit hv))
  · exact queue (State.skipQueue_running hk)
  · have hw : s.writeQueueReg p q 0x38 1 = s.advanceQueue p q (x.skipped k g) := State.skipQueue_halted hk
    have hy : (s.writeQueueReg p q 0x38 1).queueAt p q = (advanceCt (p.val + 1) (x.skipped k g)).1 := by
      rw [hw, State.queueAt_advanceQueue, if_pos rfl]
    have hm : (s.writeQueueReg p q 0x38 1).host.msix = s.host.msix ++ (advanceCt (p.val + 1) (x.skipped k g)).2 := by
      rw [hw]
      rfl
    dsimp only
    rw [hy, hm]
    refine ⟨rfl, rfl, rfl, rfl, rfl, rfl, toNat_countUp16 _, fun hr => ?_⟩
    obtain ⟨hct, hrecs, hmsg⟩ := advanceCt_skipped hr (p.val + 1) k g
    exact ⟨hct, hrecs, congrArg _ hmsg⟩

end Sys2Proof.Machine
end

section
/-!
SUPPORT. The reading of launch records (03_host R42, R43, R45), and O48.
-/

namespace Sys2Proof.Machine

/-! ### The checks of a record (R43) -/

theorem any_drop_range (f : Nat → Nat) (g : Nat → Bool) (n k : Nat) :
    (((List.range n).map f).drop k).any g = true ↔ ∃ i, i < n ∧ k ≤ i ∧ g (f i) = true := by
  rw [List.any_eq_true]
  constructor
  · rintro ⟨x, hx, hg⟩
    obtain ⟨j, hj, rfl⟩ := List.mem_drop_iff_getElem.1 hx
    exact ⟨k + j, by simpa [Nat.add_comm] using hj, by omega, by simpa using hg⟩
  · rintro ⟨i, hi, hk, hg⟩
    exact ⟨f i, List.mem_drop_iff_getElem.2 ⟨i - k, by simp; omega, by simp [Nat.add_sub_cancel' hk]⟩, hg⟩

theorem any_take_range (f : Nat → Nat) (g : Nat → Bool) (n k : Nat) :
    (((List.range n).map f).take k).any g = true ↔ ∃ i, i < n ∧ i < k ∧ g (f i) = true := by
  rw [List.any_eq_true]
  constructor
  · rintro ⟨x, hx, hg⟩
    obtain ⟨j, hj, rfl⟩ := List.mem_take_iff_getElem.1 hx
    simp only [List.length_map, List.length_range] at hj
    exact ⟨j, by omega, by omega, by simpa using hg⟩
  · rintro ⟨i, hi, hk, hg⟩
    exact ⟨f i, List.mem_take_iff_getElem.2 ⟨i, by simp; omega, by simp⟩, hg⟩

/-- A field of eight bytes is a word, whose upper four bits name a queue and whose others a record. -/
theorem lrec_fields (b : List Byte) (lo : Nat) : lrec b lo 8 < 2 ^ 64 ∧ fld (lrec b lo 8) 63 60 = lrec b lo 8 / 2 ^ 60 ∧
    fld (lrec b lo 8) 59 0 = lrec b lo 8 % 2 ^ 60 := by
  have hlen : ((b.drop lo).take 8).length ≤ 8 := by simp
  have hlt : lrec b lo 8 < 2 ^ 64 :=
    (leNat_lt _).trans_le ((Nat.pow_le_pow_right (by decide) hlen).trans (by decide))
  refine ⟨hlt, ?_, ?_⟩ <;> unfold fld <;> omega

open scoped Classical in
/-- The error code of a record is the lowest of those whose condition holds (R43; assumption 83). -/
theorem State.recordErr_eq (s : State) (p : PartId) (q : Fin 16) (k : Nat) (b : List Byte) :
    s.recordErr p q k b = if err3 s p b then 3 else if err4 s p b then 4 else if err5 s p q k b then 5 else 0 := by
  refine if_congr ?form rfl (if_congr ?graph rfl (if_congr ?waits rfl rfl))
  case form =>
    simp only [any_drop_range, bne_iff_ne, Bool.not_eq_true']
    rfl
  case graph =>
    simp only [Bool.not_eq_true', List.any_eq_false, Bool.and_eq_true, beq_iff_eq, not_and]
    exact forall₂_congr fun g _ => ⟨fun h hp hg => h hg hp, fun h hg hp => h hp hg⟩
  case waits =>
    simp only [any_take_range, Bool.or_eq_true, Bool.not_eq_true', Bool.and_eq_true, beq_iff_eq, decide_eq_true_eq]
    refine exists_congr fun i => and_congr_right fun _ => and_congr_right fun _ => ?_
    obtain ⟨hlt, hq, hk⟩ := lrec_fields b (24 + 8 * i)
    have hqueue : toQ (lrec b (24 + 8 * i) 8 / 2 ^ 60) = q ↔ lrec b (24 + 8 * i) 8 / 2 ^ 60 = q.val := by
      unfold toQ
      rw [← Fin.val_inj, Fin.val_ofNat, Nat.mod_eq_of_lt (by omega)]
    rw [show recField b (24 + 8 * i) 8 = lrec b (24 + 8 * i) 8 from rfl, hq, hk, hqueue]

/-! ### The next record of a queue -/

/-- The queue whose record an event reads, the record's number, the address of its slot and what it translates to. -/
abbrev State.readQueue (s : State) : LQueue := s.queueAt s.inp.part s.inp.queue
abbrev State.readNum (s : State) : Nat := s.readQueue.ci.toNat + 1
abbrev State.readVa (s : State) : W :=
  s.readQueue.base + .ofNat 64 (64 * (s.readQueue.ci.toNat % 2 ^ s.readQueue.log2n.toNat))
abbrev State.readTr (s : State) : Tr := s.trOffset s.inp.part s.readVa.toNat .hostRead .e .walk

/-- A queue that reads: enabled, not halted, with a record before PI. -/
abbrev State.readsRecord (s : State) : Prop :=
  s.readQueue.en = true ∧ s.readQueue.halt = none ∧ s.readQueue.ci.toNat < s.readQueue.pi.toNat

/-- The 64 bytes of a record, and its tag. -/
abbrev State.recordBytes (s : State) (a : Loc) : List Byte := (span a.place 64).map s.readByte
abbrev State.recordTag (s : State) (a : Loc) : W := .ofNat 64 (lrec (s.recordBytes a) 56 8)

/-- A record's bytes are this module's, its master may read them, and they are not poisoned. -/
abbrev State.recordReads (s : State) (a : Loc) : Prop :=
  a.place < 2 ^ 80 ∧ s.mayAccess 0x320 s.inp.part .hostRead a = true ∧ s.poisonRead (span a.place 64) = none

/-- A record of a queue, from its bytes. -/
abbrev recordOf (k : Nat) (b : List Byte) : Rec where
  k := k
  graph := .ofNat 64 (lrec b 0 8)
  args := .ofNat 64 (lrec b 8 8)
  prio := lrec b 16 1
  redun := lrec b 17 1
  tt := lrec b 18 1 == 1
  waits := ((List.range (lrec b 19 1)).map fun i => lrec b (24 + 8 * i) 8).map fun w => (fld w 63 60, fld w 59 0)
  tag := .ofNat 64 (lrec b 56 8)
  started := false
  failed := false
  ended := false

theorem recordOf_waits (k : Nat) (b : List Byte) : (recordOf k b).waits =
    (List.range (lrec b 19 1)).map fun i => (lrec b (24 + 8 * i) 8 / 2 ^ 60, lrec b (24 + 8 * i) 8 % 2 ^ 60) := by
  show List.map _ (List.map _ _) = _
  rw [List.map_map]
  refine List.map_congr_left fun i _ => ?_
  obtain ⟨-, hq, hk⟩ := lrec_fields b (24 + 8 * i)
  exact Prod.ext hq hk

section
variable {s : State}

theorem exec_launchRecordRead_idle
    (h : s.readQueue.en = false ∨ s.readQueue.halt ≠ none ∨ s.readQueue.pi.toNat ≤ s.readQueue.ci.toNat) :
    exec .launchRecordRead s = .next s := by
  refine if_pos ?_
  obtain h | h | h := h
  · exact .inl (by rw [Bool.not_eq_true']; exact h)
  · exact .inr (.inl (Option.isSome_iff_ne_none.2 h))
  · exact .inr (.inr h)

theorem State.readsRecord_not_idle (h : s.readsRecord) : ¬ ((!s.readQueue.en) = true ∨ s.readQueue.halt.isSome = true ∨
    s.readQueue.pi.toNat ≤ s.readQueue.ci.toNat) := by
  obtain ⟨hen, hhalt, hci⟩ := h
  rw [hen, hhalt]
  simpa using hci

theorem exec_launchRecordRead_held (h : s.readsRecord) (ht : s.readTr = .held) : exec .launchRecordRead s = .next s := by
  refine (if_neg (State.readsRecord_not_idle h)).trans ?_
  unfold State.readTr State.readVa State.readQueue at ht
  dsimp only
  rw [Nat.add_sub_cancel, ht]

theorem exec_launchRecordRead_fault (h : s.readsRecord) {c r : Nat} (ht : s.readTr = .fault c r) :
    exec .launchRecordRead s = .next (s.haltQueue s.inp.part s.inp.queue s.readNum 6 0) := by
  refine (if_neg (State.readsRecord_not_idle h)).trans ?_
  unfold State.readTr State.readVa State.readQueue at ht
  dsimp only
  rw [Nat.add_sub_cancel, ht]

theorem exec_launchRecordRead_unread (h : s.readsRecord) {a : Loc} (ht : s.readTr = .ok a) (hr : ¬ s.recordReads a) :
    exec .launchRecordRead s = .next (s.haltQueue s.inp.part s.inp.queue s.readNum 6 0) := by
  have hbad : 2 ^ 80 ≤ a.place ∨ (!s.mayAccess 0x320 s.inp.part .hostRead a) = true ∨
      (s.poisonRead (span a.place 64)).isSome = true := by
    by_contra hc
    push Not at hc
    obtain ⟨hp, hm, hs⟩ := hc
    exact hr ⟨hp, by simpa using hm, by simpa using hs⟩
  refine (if_neg (State.readsRecord_not_idle h)).trans ?_
  unfold State.readTr State.readVa State.readQueue at ht
  dsimp only
  rw [Nat.add_sub_cancel, ht]
  exact if_pos hbad

/-- A record that is read halts its queue with its error, or joins it. -/
theorem exec_launchRecordRead_read (h : s.readsRecord) {a : Loc} (ht : s.readTr = .ok a) (hr : s.recordReads a) :
    exec .launchRecordRead s =
      if s.recordErr s.inp.part s.inp.queue s.readNum (s.recordBytes a) ≠ 0 then .next (s.haltQueue s.inp.part s.inp.queue
        s.readNum (s.recordErr s.inp.part s.inp.queue s.readNum (s.recordBytes a)) (s.recordTag a))
      else .next (s.onQueue s.inp.part s.inp.queue fun x => { x with
        ci := .ofNat 64 s.readNum, recs := x.recs ++ [recordOf s.readNum (s.recordBytes a)] }) := by
  have hgood : ¬ (2 ^ 80 ≤ a.place ∨ (!s.mayAccess 0x320 s.inp.part .hostRead a) = true ∨
      (s.poisonRead (span a.place 64)).isSome = true) := by
    obtain ⟨hp, hm, hs⟩ := hr
    rintro (hc | hc | hc)
    · omega
    · rw [hm] at hc
      exact Bool.noConfusion hc
    · rw [hs] at hc
      exact Bool.noConfusion hc
  refine (if_neg (State.readsRecord_not_idle h)).trans ?_
  unfold State.readTr State.readVa State.readQueue at ht
  dsimp only
  rw [Nat.add_sub_cancel, ht]
  exact if_neg hgood

end

/-- A queue that halts sends a message where IRQ is 1, and nothing else happens outside it. -/
theorem State.haltQueue_eq (s : State) (p : PartId) (q : Fin 16) (k e : Nat) (tag : W) : s.haltQueue p q k e tag =
    { s.onQueue p q fun x => { x with err := .ofNat 8 e, at_ := .ofNat 32 k, halt := some (k, tag) } with
      host := { (s.onQueue p q fun x => { x with err := .ofNat 8 e, at_ := .ofNat 32 k, halt := some (k, tag) }).host with
        msix := s.host.msix ++
          if (s.queueAt p q).irq = true then [(p.val + 1, (s.queueAt p q).msiv.toNat)] else [] } } := by
  unfold State.haltQueue
  dsimp only
  split
  · rfl
  · rw [List.append_nil]
    rfl

/-- The reading of a record halts its queue with an error. -/
abbrev recordHalts (s : State) (e : Nat) (tag : W) : Prop := ∃ t : State, exec .launchRecordRead s = .next t ∧
  t.queueAt s.inp.part s.inp.queue =
    { s.readQueue with err := .ofNat 8 e, at_ := .ofNat 32 s.readNum, halt := some (s.readNum, tag) } ∧
  t.host.msix = s.host.msix ++
    (if s.readQueue.irq = true then [(s.inp.part.val + 1, s.readQueue.msiv.toNat)] else []) ∧
  t.cores = s.cores ∧ t.ms = s.ms

theorem recordHalts_of {s : State} {e : Nat} {tag : W}
    (h : exec .launchRecordRead s = .next (s.haltQueue s.inp.part s.inp.queue s.readNum e tag)) : recordHalts s e tag := by
  rw [State.haltQueue_eq] at h
  exact ⟨_, h, s.queueAt_onQueue_same s.inp.part s.inp.queue
    fun x => { x with err := .ofNat 8 e, at_ := .ofNat 32 s.readNum, halt := some (s.readNum, tag) }, rfl, rfl, rfl⟩

/-- R42, R43, R45: the reading of launch records. -/
theorem claim_launchRecords : Claim.LaunchRecords := by
  intro s
  refine ⟨exec_launchRecordRead_idle, fun hen hhalt hci => ?_⟩
  have h : s.readsRecord := ⟨hen, hhalt, hci⟩
  refine ⟨exec_launchRecordRead_held h, fun c r ht => recordHalts_of (exec_launchRecordRead_fault h ht), fun a ht => ?_⟩
  have herr := s.recordErr_eq s.inp.part s.inp.queue s.readNum (s.recordBytes a)
  have bad : ∀ e, s.recordReads a → s.recordErr s.inp.part s.inp.queue s.readNum (s.recordBytes a) = e → e ≠ 0 →
      recordHalts s e (s.recordTag a) := by
    rintro e hr rfl he
    exact recordHalts_of ((exec_launchRecordRead_read h ht hr).trans (if_pos he))
  refine ⟨fun hr => recordHalts_of (exec_launchRecordRead_unread h ht hr), fun hr h3 => bad 3 hr ?_ (by decide),
    fun hr h3 h4 => bad 4 hr ?_ (by decide), fun hr h3 h4 h5 => bad 5 hr ?_ (by decide),
    fun hr h3 h4 h5 => ?_⟩
  · rw [herr, if_pos h3]
  · rw [herr, if_neg h3, if_pos h4]
  · rw [herr, if_neg h3, if_neg h4, if_pos h5]
  · have hexec := exec_launchRecordRead_read h ht hr
    rw [herr, if_neg h3, if_neg h4, if_neg h5, if_neg (by simp)] at hexec
    have word : ∀ lo, (BitVec.ofNat 64 (lrec (s.recordBytes a) lo 8)).toNat = lrec (s.recordBytes a) lo 8 := fun lo =>
      Nat.mod_eq_of_lt (lrec_fields _ lo).1
    exact ⟨_, recordOf s.readNum (s.recordBytes a), hexec, s.queueAt_onQueue_same _ _ _, rfl, word 0, word 8, rfl, rfl, rfl, rfl,
      recordOf_waits _ _, rfl, rfl, rfl, rfl, rfl, rfl, rfl⟩

/-- Settles O48: launch queue registers, the reading of launch records, and the resets of functions. -/
theorem launchQueues : Obligations.LaunchQueues :=
  ⟨claim_launchQueueRegisters, claim_launchRecords, claim_functionResets⟩

end Sys2Proof.Machine
end

section
/-!
SUPPORT. A dispatch decision that fails a pinned node (06_scheduler R110, R113), and O49.
-/

namespace Sys2Proof.Machine

/-- The nodes that a decision of a die is made among, in their order. -/
abbrev State.poolOrder (s : State) (d : Die) : List Inst := s.inOrder (s.sched.insts.filter fun i =>
  i.state == .ready && i.pooled && i.die == d && !(s.partAt i.vf).swapped)

/-- A die has decided in this cycle. -/
def State.decided (s : State) (d : Die) : State := s.onSched fun h => { h with
  lastDecision := h.lastDecision.set (dieIx d).val s.cyc (dieIx d).isLt }

/-- A decision that meets a node whose pin allows no placement fails its number. -/
theorem exec_dispatchDecision_pinBad {s : State} {i : Inst}
    (hdue : 8 ≤ (s.cyc - s.sched.lastDecision.get (dieIx s.inp.die)).toNat)
    (hbad : (s.fillPool.poolOrder s.inp.die).find? (fun i => (s.fillPool.descOf i).any (s.fillPool.pinBad i)) = some i) :
    exec .dispatchDecision s = .next ((s.fillPool.decided s.inp.die).schedFail i.id 0x1A 0 (.ofNat 64 i.node)) := by
  show execDispatchDecision s = _
  unfold execDispatchDecision
  dsimp only
  rw [if_neg (Nat.not_lt.2 hdue), hbad]
  rfl

/-- A failure in a partition with FATAL = 1 quiesces it: only the other partitions' instances are left, as they were. -/
theorem State.schedFail_fatal {s : State} {id : Nat} {i : Inst} (hi : s.instAt id = some i) (hf : (s.partAt i.vf).fatal = true)
    (code reason : Nat) (info : W) :
    (s.schedFail id code reason info).sched.insts = s.sched.insts.filter fun j => !(j.vf == i.vf) := by
  have hf' : ((s.releaseCores id).partAt i.vf).fatal = true := hf
  have hs : (s.releaseCores id).sched = s.sched := rfl
  unfold State.schedFail
  rw [hi]
  dsimp only
  unfold State.failChain
  rw [if_pos hf']
  dsimp only
  rw [State.onTele_sched, State.sched_quiesce, hs]
  rfl

/-! ### Two instances of one number -/

/-- A node that is pinned to the first core of its partition. -/
def pinnedNode : NodeDesc where
  codeOff := 0
  code := [0]
  entry := 0
  opnds := []
  spare := []
  succOff := 0
  demand := 0
  engines := 0
  prio := 0
  redun := 1
  nsave := 0
  keep := 0
  preds := 0
  succs := []
  frame := 0
  lift := 0x80
  gm := []
  gmv := 0
  pin := 0x8000
  tail := 0
  keepmap := 0
  xclr := 0

/-- That node, ready, in the pool of die E. -/
def pinnedInst : Inst where
  id := 0
  graph := 1
  vf := 0
  queue := 0
  record := 1
  node := 0
  state := .ready
  preds := 0
  base := 0
  running := 0
  redun := 1
  tt := false
  args := []
  die := .e
  entered := 0
  readyAt := 0
  pooled := true
  started := 0
  early := false
  saved := none
  first := 0
  entry := none
  groups := []
  trigs := []
  expired := false

/-- A complete one of partition 1 that has the same number. -/
def twinInst : Inst := { pinnedInst with vf := 1, state := .complete, pooled := false }

/-- Both instances, eight cycles after reset: no partition owns a core, and partition 1 has FATAL = 1. -/
def twins : State :=
  { (State.reset.onPart 1 fun x => { x with fatal := true }).onSched fun h => { h with
      graphs := [⟨1, 0, ⟨[pinnedNode], [], [], [], [], none⟩, []⟩], insts := [twinInst, pinnedInst] } with cyc := 8 }

theorem twins_fillPool : twins.fillPool = twins := rfl

theorem twins_pinBad : (twins.poolOrder .e).find? (fun i => (twins.descOf i).any (twins.pinBad i)) = some pinnedInst := by
  decide +kernel

/-- The decision fails what the number finds first, and so leaves the node it met ready. -/
theorem twins_decision : ∃ t : State, exec .dispatchDecision twins = .next t ∧ t.instAt 0 = some pinnedInst := by
  refine ⟨_, exec_dispatchDecision_pinBad (i := pinnedInst) (by decide) (by rw [twins_fillPool]; exact twins_pinBad), ?_⟩
  rw [twins_fillPool]
  unfold State.instAt
  rw [State.schedFail_fatal (i := twinInst) rfl rfl]
  rfl

/-- Refutes O49: a decision that meets a node with an impossible pin need not fail that node, for the claim of dispatch does not
ask that the numbers of instances be distinct. `twins` holds two instances of number 0, the first of partition 1, whose FATAL is 1. The
decision meets the second, of partition 0; the failure of number 0 finds the first, and the quiesce of partition 1 takes
it away and leaves the second ready. -/
theorem not_scheduler : ¬ Obligations.Scheduler := by
  rintro ⟨-, -, -, -, -, -, hdispatch, -⟩
  obtain ⟨-, hpin, -⟩ := hdispatch twins
  obtain ⟨t, ht, hready⟩ := twins_decision
  obtain ⟨u, hu, -, hfailed, -⟩ := hpin pinnedInst (by decide) (by rw [twins_fillPool]; exact twins_pinBad) rfl
  obtain rfl : t = u := Host.Outcome.next.inj (ht.symm.trans hu)
  rw [show t.instAt pinnedInst.id = some pinnedInst from hready] at hfailed
  exact absurd hfailed (by decide)

end Sys2Proof.Machine
end

section
/-! # What keeps the canonical form of the memories

The general rules: a state keeps the form of its memories when its cores, `ms.mem` and its satchels go through updates
that keep theirs. The sections after this one go through the model in the order of its files, one lemma per function:
`State.Canonical.f` says that `f` gives a state that keeps the form, `Out.From.f` that `f` answers a next state that
keeps it, and `Core.f_scratch` that `f` leaves the scratch of a core alone. -/

namespace Sys2Proof.Machine

/-- Whatever else of a state changes: its memories stand in its cores, in `ms.mem` and in its satchels. -/
theorem State.Canonical.update {s : State} (h : s.Canonical) {access : List AccessEnt} {xlatinv : Vector W 2}
    {walks : List Walk} {ctlb : List (Nat × TlbEnt)} {migrations : List Migration} {rels : List (Nat × Party × BitVec 3)}
    {manager : List (CoreId × Ctx)} {births : List (Nat × W)} {parts : Vector Part 8} {xbar : Vector Xbar 2}
    {fab : Vector Fabric 2} {host : HostSt} {sched : Sched} {fw : Firmware} {cyc : W} {nextId : Nat} {cur : CoreId}
    {order : List Turn} {inp : EventArgs} {issue : Issue} {freeCtr : Nat} :
    State.Canonical ⟨s.cores, ⟨s.ms.mem, access, xlatinv, walks, ctlb, migrations, rels, manager, births⟩, parts, xbar, fab,
      host, sched, fw, s.satchels, cyc, nextId, cur, order, inp, issue, freeCtr⟩ := h

theorem State.Canonical.ite {c : Prop} [Decidable c] {s t : State} (hs : s.Canonical) (ht : t.Canonical) :
    (if c then s else t).Canonical := by
  split
  · exact hs
  · exact ht

theorem State.Canonical.onQueue {s : State} (h : s.Canonical) {p : PartId} {q : Fin 16} {f : LQueue → LQueue} :
    (s.onQueue p q f).Canonical := h
theorem State.Canonical.onTele {s : State} (h : s.Canonical) {f : Telemetry → Telemetry} : (s.onTele f).Canonical := h
theorem State.Canonical.onInst {s : State} (h : s.Canonical) {id : Nat} {f : Inst → Inst} : (s.onInst id f).Canonical := h
theorem State.Canonical.takeFree {s : State} (h : s.Canonical) : s.takeFree.Canonical := h

/-! An update of cores that leaves their scratch alone. -/

theorem State.Canonical.setCore_frame {s : State} (h : s.Canonical) {x : Core}
    (hx : x.scratch = s.core.scratch) : (s.setCore x).Canonical :=
  h.setCoreAt _ (by rw [hx]; exact h.2.1 _)

theorem State.Canonical.onCore_frame {s : State} (h : s.Canonical) {c : CoreId} {f : Core → Core}
    (hf : ∀ x, (f x).scratch = x.scratch) : (s.onCore c f).Canonical := h.onCore_same c hf

theorem State.Canonical.mapCore_frame {s : State} (h : s.Canonical) {f : Core → Core}
    (hf : ∀ x, (f x).scratch = x.scratch) : (s.mapCore f).Canonical := h.setCore_frame (hf _)

theorem State.Canonical.onCores_frame {s : State} (h : s.Canonical) {p : CoreId → Core → Bool} {f : Core → Core}
    (hf : ∀ x, (f x).scratch = x.scratch) : (s.onCores p f).Canonical :=
  h.onCores p fun x hx => by rw [hf]; exact hx

theorem State.Canonical.of_fst {α : Type} {p : State × α} {t : State} {a : α} (e : p = (t, a)) (h : p.1.Canonical) :
    t.Canonical := by
  rw [e] at h
  exact h

/-- A fold of steps over a state beside a value. -/
theorem State.Canonical.foldl_fst {α β : Type} {f : State × β → α → State × β}
    (hf : ∀ p a, p.1.Canonical → (f p a).1.Canonical) :
    ∀ (l : List α) {s : State} {b : β}, s.Canonical → (l.foldl f (s, b)).1.Canonical
  | [], _, _, h => h
  | a :: r, _, _, h => State.Canonical.foldl_fst hf r (hf (_, _) a h)

/-- The answer is a next state, whose memories keep the canonical form that those of a state have. -/
def Out.From (s : State) (o : Out) : Prop := ∃ t : State, o = .next t ∧ (s.Canonical → t.Canonical)

theorem Out.From.next {s t : State} (h : s.Canonical → t.Canonical) : Out.From s (.next t) := ⟨t, rfl, h⟩

theorem Out.From.mono {s u : State} {o : Out} (h : s.Canonical → u.Canonical) (ho : Out.From u o) : Out.From s o := by
  obtain ⟨t, rfl, ht⟩ := ho
  exact .next (ht ∘ h)

theorem Out.From.ite {c : Prop} [Decidable c] {s : State} {a b : Out} (ha : Out.From s a) (hb : Out.From s b) :
    Out.From s (if c then a else b) := by
  split
  · exact ha
  · exact hb

theorem Out.From.hold {s : State} : Out.From s (hold s) := .next id

theorem Out.From.keeps {s t : State} {o : Out} (ho : Out.From s o) (e : o = .next t) (h : s.Canonical) : t.Canonical := by
  obtain ⟨u, rfl, hu⟩ := ho
  cases e
  exact hu h

theorem State.Canonical.core {s : State} (h : s.Canonical) : s.core.scratch.wf = true := h.2.1 _

/-- The next state that an answer gives, changed. -/
def Out.onNext (f : State → State) : Out → Out
  | .next t => .next (f t)
  | q => q

theorem Out.From.onNext {s : State} {o : Out} {f : State → State} (ho : Out.From s o)
    (hf : ∀ t, t.Canonical → (f t).Canonical) : Out.From s (o.onNext f) := by
  obtain ⟨t, rfl, ht⟩ := ho
  exact .next fun h => hf t (ht h)

/-- The state, where there is one, keeps the form. -/
def Kept (o : Option State) : Prop := ∀ t, o = some t → t.Canonical

theorem Kept.of_some {o : Option State} {t : State} (h : Kept o) (e : o = .some t) : t.Canonical := h t e

theorem Kept.some {s : State} (h : s.Canonical) : Kept (some s) := by
  rintro _ ⟨⟩
  exact h

theorem Kept.none : Kept none := fun _ e => absurd e (Option.some_ne_none _).symm

theorem Kept.bind {o : Option State} {f : State → Option State} (ho : Kept o) (hf : ∀ s, s.Canonical → Kept (f s)) :
    Kept (o.bind f) := by
  intro t ht
  obtain ⟨s, hs, ht⟩ := Option.bind_eq_some_iff.1 ht
  exact hf s (ho s hs) t ht

theorem Kept.ite {c : Prop} [Decidable c] {a b : Option State} (ha : Kept a) (hb : Kept b) : Kept (if c then a else b) := by
  split
  · exact ha
  · exact hb

theorem Kept.foldl {α : Type} {f : Option State → α → Option State} (hf : ∀ o a, Kept o → Kept (f o a)) :
    ∀ (l : List α) {o : Option State}, Kept o → Kept (l.foldl f o)
  | [], _, h => h
  | a :: r, _, h => Kept.foldl hf r (hf _ a h)

end Sys2Proof.Machine
end

section
/-! # Nodes, core updates and address spaces: what keeps the form -/

namespace Sys2Proof.Machine

theorem State.Canonical.leavePool {s : State} (h : s.Canonical) {id : Nat} : (s.leavePool id).Canonical := by
  unfold State.leavePool
  split
  · exact h
  · exact .ite (.onSched (.onInst h) _) h

theorem State.Canonical.fillPool {s : State} (h : s.Canonical) : s.fillPool.Canonical := by
  unfold State.fillPool
  refine .foldl (fun s1 a h1 => ?_) _ h
  exact .ite (.onInst h1) h1

theorem State.Canonical.makeReady {s : State} (h : s.Canonical) {id : Nat} {d : Die} :
    (s.makeReady id d).Canonical := by
  unfold State.makeReady
  split
  · exact h
  · exact .onInst h

theorem State.Canonical.countEdges {s : State} (h : s.Canonical) {i : Inst} {early : Bool} {d : Die} :
    (s.countEdges i early d).Canonical := by
  unfold State.countEdges
  split
  · exact h
  · refine .foldl (fun s1 a h1 => ?_) _ h
    split
    · exact h1
    · exact .ite (.makeReady (.onInst h1)) (.onInst h1)

theorem State.Canonical.advanceQueue {s : State} (h : s.Canonical) {p : PartId} {qn : Fin 16} {q : LQueue} :
    (s.advanceQueue p qn q).Canonical :=
  .update h

theorem State.Canonical.endRecord {s : State} (h : s.Canonical) {p : PartId} {qn : Fin 16} {k : Nat} {failed : Bool} :
    (s.endRecord p qn k failed).Canonical := by
  unfold State.endRecord
  dsimp only
  split
  · exact .ite (.onQueue h) h
  · exact .advanceQueue h

theorem State.Canonical.finishRecord {s : State} (h : s.Canonical) {i : Inst} : (s.finishRecord i).Canonical :=
  .ite (.endRecord (.onSched h _)) h

theorem State.Canonical.releaseCores {s : State} (h : s.Canonical) {id : Nat} : (s.releaseCores id).Canonical := by
  unfold State.releaseCores
  exact .onCores_frame (.onTele h) fun _ => rfl

theorem State.Canonical.freeEntry {s : State} (h : s.Canonical) {i : Inst} : (s.freeEntry i).Canonical := by
  unfold State.freeEntry
  split
  · exact h
  · exact .onSched h _

theorem State.Canonical.completeInst {s : State} (h : s.Canonical) {id : Nat} {d : Die} :
    (s.completeInst id d).Canonical := by
  unfold State.completeInst
  split
  · exact h
  · refine .finishRecord (.freeEntry (.releaseCores (.countEdges ?_)))
    exact .ite (.onInst h) (.countEdges (.onInst h))

theorem State.Canonical.failRound {s : State} (h : s.Canonical) : s.failRound.Canonical :=
  .foldl (fun _ _ h1 => .onSched (.onInst (.leavePool h1)) _) _ h

theorem State.Canonical.failRounds {n : Nat} : ∀ {s : State}, s.Canonical → (State.failRounds n s).Canonical := by
  induction n with
  | zero => exact fun h => h
  | succ n ih => exact fun h => ih h.failRound

theorem State.Canonical.failInst {s : State} (h : s.Canonical) {id : Nat} : (s.failInst id).Canonical := by
  unfold State.failInst
  split
  · exact h
  · exact .finishRecord (.freeEntry (.failRounds (.onSched (.onInst (.leavePool h)) _)))

theorem State.Canonical.emptied {s : State} (h : s.Canonical) {p : PartId} : (s.emptied p).Canonical := by
  refine ⟨h.1, fun c => ?_, h.2.2⟩
  rw [s.coreAt_emptied p c]
  split
  · exact h.2.1 c
  · exact h.2.1 c

theorem State.Canonical.failOpen {s : State} (h : s.Canonical) {p : PartId} {q : Fin 16} :
    (s.failOpen p q).Canonical :=
  .ite h h.advanceQueue

/-- A quiesce keeps only the satchels of other partitions. -/
theorem State.satchels_quiesce (s : State) (p : PartId) :
    (s.quiesce p).satchels = (s.recordsEnded p).satchels.filter (·.part != p) := by
  unfold State.quiesce State.recordsEnded
  generalize List.finRange 16 = l
  rfl

theorem State.Canonical.quiesce {s : State} (h : s.Canonical) {p : PartId} : (s.quiesce p).Canonical := by
  have ended : (s.recordsEnded p).Canonical := .foldl (fun _ _ hu => hu.failOpen) _ h.emptied
  obtain ⟨hmem, hscratch, hctx⟩ := ended
  obtain ⟨cores, mem, -⟩ := s.quiesce_rest p
  refine ⟨by rw [mem]; exact hmem, fun c => ?_, fun k hk => ?_⟩
  · rw [State.coreAt, cores]
    exact hscratch c
  · rw [s.satchels_quiesce p] at hk
    exact hctx k (List.mem_of_mem_filter hk)

theorem State.Canonical.failChain {s : State} (h : s.Canonical) {i : Inst} {recs : List CauseRec} :
    (s.failChain i recs).Canonical := by
  unfold State.failChain
  split
  · exact .onTele (.quiesce h)
  · dsimp only
    split
    · exact .onTele (.onSched (.releaseCores (.failInst (.onSched h _))) _)
    · exact .onSched (.failInst (.onSched h _)) _

theorem State.Canonical.failNode {s : State} (h : s.Canonical) {t : Trap} {prior : List CauseRec} :
    (s.failNode t prior).Canonical := by
  unfold State.failNode
  dsimp only
  split
  · exact .mapCore_frame (.onTele h) fun _ => by rfl
  · exact .failChain (.onCores_frame h fun _ => by rfl)

/-- A fold of updates of a core that leave its scratch alone. -/
theorem Core.foldl_scratch {α : Type} {f : Core → α → Core} (hf : ∀ x a, (f x a).scratch = x.scratch) :
    ∀ (l : List α) (x : Core), (l.foldl f x).scratch = x.scratch
  | [], _ => rfl
  | a :: r, x => (Core.foldl_scratch hf r (f x a)).trans (hf x a)

@[simp] theorem Core.drain_scratch {x : Core} : x.drain.scratch = x.scratch := by
  unfold Core.drain
  refine Core.foldl_scratch (fun x f => ?_) _ _
  dsimp only
  split <;> rfl

@[simp] theorem Core.clearErr_scratch {x : Core} {t : Trap} : (x.clearErr t).scratch = x.scratch := by
  unfold Core.clearErr
  split <;> rfl

@[simp] theorem Core.enterHandler_scratch {x : Core} {t : Trap} {sync : Bool} {pc : Pc} {now : W} :
    (x.enterHandler t sync pc now).scratch = x.scratch := Core.clearErr_scratch.trans Core.drain_scratch

theorem State.Canonical.takeTrap {s : State} (h : s.Canonical) {t : Trap} {pc : Pc} :
    (s.takeTrap t pc).Canonical := by
  unfold State.takeTrap
  dsimp only
  split
  · exact .failNode (.setCore_frame h (by simp))
  · exact .ite (.failNode (.setCore_frame h (by simp))) (.setCore_frame h (by simp))

theorem State.Canonical.trap {s : State} (h : s.Canonical) {t : Trap} {pc : Pc} : (s.trap t pc).Canonical := by
  unfold State.trap
  split
  · exact .takeTrap h
  · split
    · refine .takeTrap ?_
      split
      · exact .foldl (fun _ _ h1 => .onCore_frame h1 fun _ => by rfl) _ h
      · exact .mapCore_frame h fun _ => by rfl
    · exact .mapCore_frame h fun _ => by simp

theorem Out.From.raise {s : State} {t : Trap} : Out.From s (raise t s) := by
  unfold Machine.raise
  split
  · exact .next fun h => .update h
  · exact .ite (.next (fun h => .update h)) (.next (fun h => .trap h))

theorem Out.From.raiseAfter {s : State} {t : Trap} : Out.From s (raiseAfter t s) := by
  unfold Machine.raiseAfter
  split
  · exact .raise
  · split
    · exact .next fun h => .update h
    · exact .ite (.next (fun h => .update h)) (.next (fun h => .trap h))

theorem Out.From.comparePoint {s : State} {k : Nat} {body : State → Out} {recs : List (List Byte)}
    (hb : ∀ u, Out.From u (body u)) : Out.From s (comparePoint k body s recs) := .ite (hb s) (.next id)

theorem State.Canonical.foldSig {s : State} (h : s.Canonical) {l : List Byte} : (s.foldSig l).Canonical :=
  .ite h (.mapCore_frame h fun _ => rfl)

theorem State.Canonical.bumpFwd {s : State} (h : s.Canonical) : s.bumpFwd.Canonical :=
  .mapCore_frame h fun _ => rfl

theorem State.Canonical.forward {s : State} (h : s.Canonical) {n : Nat} {v : VReg} {fl : Flags} :
    (s.forward n v fl).Canonical :=
  .foldl (fun _ _ h1 => .onCore_frame h1 fun _ => by rfl) _ h

theorem State.Canonical.sendFwd {s : State} (h : s.Canonical) {v : VReg} : (s.sendFwd v).Canonical :=
  .forward (.bumpFwd h)

theorem Out.From.withReady {s : State} {i : Instr} {body : State → Out} (hb : ∀ u, Out.From u (body u)) :
    Out.From s (withReady i body s) := by
  unfold Machine.withReady
  split
  · exact hb s
  · exact .hold
  · exact .raise

@[simp] theorem Core.signal_scratch {x : Core} {now v : W} : (x.signal now v).scratch = x.scratch := by
  unfold Core.signal
  split <;> rfl

theorem State.Canonical.takeLock {s : State} (h : s.Canonical) {unit : Nat} : (s.takeLock unit).Canonical := by
  unfold State.takeLock
  split
  · exact .mapCore_frame h fun _ => rfl
  · exact h

@[simp] theorem Core.serveBank_scratch {now : W} {x : Core} {b : Nat} :
    (Core.serveBank now x b).scratch = x.scratch := by
  unfold Core.serveBank
  split <;> rfl

@[simp] theorem Core.bankCycles_scratch {n : Nat} :
    ∀ {now : W} {x : Core}, (Core.bankCycles n now x).scratch = x.scratch := by
  induction n with
  | zero => intro _ _; rfl
  | succ n ih =>
    intro now x
    unfold Core.bankCycles
    split
    · rfl
    · exact ih.trans (Core.foldl_scratch (fun _ _ => Core.serveBank_scratch) _ _)

theorem State.Canonical.useBanks {s : State} (h : s.Canonical) {unit : Nat} {offs : List Nat}
    {dsts : List (RegFile × Nat)} {from_ : Nat} : (s.useBanks unit offs dsts from_).Canonical :=
  .mapCore_frame h fun _ => rfl

@[simp] theorem Core.takeBanks_scratch {x : Core} {now : W} {unit : Nat} {offs : List Nat} :
    (x.takeBanks now unit offs).scratch = x.scratch := Core.foldl_scratch (fun _ _ => by rfl) _ _

theorem State.Canonical.addWalk {s : State} (h : s.Canonical) {c : CoreId} {p : PartId} {off : Nat} :
    (s.addWalk c p off).Canonical := by
  unfold State.addWalk
  split
  · exact h
  · exact .update h

theorem State.Canonical.tlbFill {s : State} (h : s.Canonical) {c : CoreId} {e : TlbEnt} : (s.tlbFill c e).Canonical :=
  .update (.onCore_frame h fun _ => by rfl)

theorem State.Canonical.rangeFill {s : State} (h : s.Canonical) {c : CoreId} {p : PartId} {i : Nat} :
    (s.rangeFill c p i).Canonical :=
  .onCore_frame h fun _ => rfl

theorem State.Canonical.lookupEnd {s : State} (h : s.Canonical) {w : Walk} : (s.lookupEnd w).Canonical := by
  unfold State.lookupEnd
  dsimp only
  split
  · exact .ite (.rangeFill (.update h)) h
  · exact .ite (.tlbFill (.update h)) h
  · exact h

theorem State.Canonical.lookups {s : State} (h : s.Canonical) : s.lookups.Canonical :=
  .foldl (fun _ _ h1 => .lookupEnd h1) _ h

theorem State.Canonical.dropRange {s : State} (h : s.Canonical) {p : PartId} {i : Nat} :
    (s.dropRange p i).Canonical :=
  .onCores_frame h fun _ => rfl

theorem State.Canonical.dropTlb {s : State} (h : s.Canonical) {p : PartId} {base size : Nat} :
    (s.dropTlb p base size).Canonical :=
  .update (.onCores_frame h fun _ => by rfl)

end Sys2Proof.Machine
end

section
/-! # Packets and what they do: what keeps the form -/

namespace Sys2Proof.Machine

theorem State.Canonical.onMemOf {s : State} (h : s.Canonical) {place : Nat} {f : Memory → Memory}
    (hf : ∀ m, m.wf = true → (f m).wf = true) : (s.onMemOf place f).Canonical :=
  .ite h (.ite (h.onCore _ (hf _ (h.2.1 _))) (h.onMem hf))

theorem State.Canonical.noteAt {s : State} (h : s.Canonical) {place : Nat} {l : List (Nat × Byte × Byte)} :
    (s.noteAt place l).Canonical :=
  .ite (.onCore_frame h fun _ => rfl) h

theorem State.Canonical.setRels {s : State} (h : s.Canonical) {l : List (Nat × Party × BitVec 3)} :
    (s.setRels l).Canonical :=
  .update h

theorem State.Canonical.addRels {s : State} (h : s.Canonical) {l : List Nat} {rel : Option (Party × BitVec 3)} :
    (s.addRels l rel).Canonical := by
  unfold State.addRels
  split
  · exact h
  · exact .setRels h

theorem State.Canonical.writeBy {s : State} (h : s.Canonical) {by_ : Option Party} {l : List (Nat × Byte × Byte)} :
    (s.writeBy by_ l).Canonical := by
  unfold State.writeBy
  split
  · exact h
  · exact (h.noteAt.onMemOf fun _ hm => Memory.wf_store hm _).setRels

theorem State.Canonical.writePlaces {s : State} (h : s.Canonical) {l : List (Nat × Byte × Byte)} :
    (s.writePlaces l).Canonical :=
  .writeBy h

theorem State.Canonical.enqueue {s : State} (h : s.Canonical) {k : Pkt} : (s.enqueue k).Canonical :=
  .onXbar h _ _

@[simp] theorem Core.noteSent_scratch {x : Core} {unit : Nat} {t : W} : (x.noteSent unit t).scratch = x.scratch := by
  unfold Core.noteSent
  split <;> rfl

theorem State.Canonical.post {s : State} (h : s.Canonical) {c : CoreId} {unit req : Nat} {vc : Fin 4} {p : PartId}
    {place : Nat} {b : PBody} : (s.post c unit req vc p place b).1.Canonical := by
  unfold State.post
  dsimp only
  exact .onCore_frame (.enqueue (.update h)) fun _ => Core.noteSent_scratch

theorem State.Canonical.finishLoad {s : State} (h : s.Canonical) {r : LoadReq} : (s.finishLoad r).Canonical := by
  unfold State.finishLoad
  dsimp only
  split
  · exact h
  · split
    · exact .mapCore_frame h fun _ => by rfl
    · exact .forward (.mapCore_frame h fun _ => by rfl)

theorem State.Canonical.scopeMiss {s : State} (h : s.Canonical) {rels : List (Party × BitVec 3)} {sc : BitVec 3} :
    (s.scopeMiss rels sc).Canonical :=
  .ite (.mapCsr h _) h

theorem State.Canonical.issueLoad {s : State} (h : s.Canonical) {dst : RFile × BitVec 6} {t : BitVec 3}
    {places : List (Nat × Bool)} {kind : LoadKind} {acq : Option (BitVec 3)} {fwd : Bool} :
        (s.issueLoad dst t places kind acq fwd).Canonical := by
  unfold State.issueLoad
  dsimp only
  split
  · refine .finishLoad (.mapRegs (.update ?_) _)
    exact .ite (.bumpFwd h) h
  · refine .mapCore_frame (.foldl_fst ?_ _ ?_) fun _ => rfl
    · exact fun _ _ h1 => .post h1
    · refine .mapRegs (.update ?_) _
      exact .ite (.bumpFwd h) h

theorem State.Canonical.loadArrive {s : State} (h : s.Canonical) {c : CoreId} {req pkt : Nat}
    {data : List (Nat × Byte)}
    {poison : List Nat} {rels : List (Party × BitVec 3)} : (s.loadArrive c req pkt data poison rels).Canonical := by
  unfold State.loadArrive
  dsimp only
  refine .update ?_
  split
  · split
    · exact .update h
    · exact .mapCore_frame (.foldl (fun _ _ hu => hu.scopeMiss) _
        (.ite (.scopeMiss (.update h)) (.update h))) fun _ => rfl
  · refine .mapCore_frame ?_ fun _ => rfl
    split
    · exact .update h
    · exact .mapCore_frame (.foldl (fun _ _ hu => hu.scopeMiss) _
        (.ite (.scopeMiss (.update h)) (.update h))) fun _ => rfl

theorem State.Canonical.sendStore {s : State} (h : s.Canonical) {r : StoreReq} : (s.sendStore r).Canonical := by
  unfold State.sendStore
  refine .mapCore_frame (.foldl_fst ?_ _ ?_) fun _ => rfl
  · exact fun _ _ h1 => .onCore_frame (.enqueue (.update h1)) fun _ => rfl
  · exact h

theorem State.Canonical.pumpStores {s : State} (h : s.Canonical) : s.pumpStores.Canonical := by
  unfold State.pumpStores
  refine .foldl (fun s1 a h1 => ?_) _ h
  exact .ite h1 (.sendStore h1)

theorem State.Canonical.issueStore {s : State} (h : s.Canonical) {bytes : List (Nat × Byte × Byte)} {own : Bool}
    {rel : Option (BitVec 3)} {plain : Bool} {from_ : W} : (s.issueStore bytes own rel plain from_).Canonical :=
  .ite (.addRels (.writeBy h)) (.pumpStores (.mapCore_frame (.update h) fun _ => rfl))

theorem State.Canonical.storeAck {s : State} (h : s.Canonical) {c : CoreId} {req pkt : Nat} :
    (s.storeAck c req pkt).Canonical :=
  .onCore_frame h fun _ => rfl

theorem Out.From.notAdmitted {s : State} {a : Admit} : Out.From s (notAdmitted a s) := by
  unfold Machine.notAdmitted
  dsimp only
  split
  · exact .next id
  · exact .raise
  · exact .hold
  · exact .mono (fun h => .addWalk h) .hold

theorem State.Canonical.stick {s : State} (h : s.Canonical) {r : Option (PartId × Nat)} {ovf nan : Bool} :
    (s.stick r ovf nan).Canonical := by
  unfold State.stick
  split
  · exact h
  · exact .onPart h _ _

theorem State.Canonical.rmwOne {s : State} (h : s.Canonical) {op : Rmw} {a v cmp : Nat} {r : Option (PartId × Nat)} :
    (s.rmwOne op a v cmp r).1.Canonical := by
  unfold State.rmwOne
  dsimp only
  split
  · exact h
  · exact .stick (.writePlaces h)

theorem State.Canonical.rmwAll {op : Rmw} {r : Option (PartId × Nat)} {n : Nat} :
    ∀ {s : State} {a : Nat} {opnd cmp : List Byte}, s.Canonical → (s.rmwAll op r a opnd cmp n).1.Canonical := by
  induction n with
  | zero =>
    intro s a opnd cmp h
    unfold State.rmwAll
    exact h
  | succ n ih =>
    intro s a opnd cmp h
    unfold State.rmwAll
    exact ih h.rmwOne

theorem State.Canonical.performRmw {s : State} (h : s.Canonical) {op : Rmw} {a : Nat} {opnd cmp : List Byte}
    {r : Option (PartId × Nat)} : (s.performRmw op a opnd cmp r).1.Canonical :=
  .setRels (.rmwAll h)

theorem State.Canonical.performBody {s : State} (h : s.Canonical) {unit : Nat} {b : PBody} :
    (s.performBody unit b).1.Canonical := by
  unfold State.performBody
  dsimp only
  split
  · exact h
  · split
    · exact h
    · exact .addRels (.writeBy h)
  · exact .addRels (.performRmw h)
  · exact h

theorem State.Canonical.metPoison {s : State} (h : s.Canonical) {c : CoreId} {x : Ctx} {l : List Nat} :
    (s.metPoison c x l).Canonical := by
  unfold State.metPoison
  split
  · exact h
  · exact .onCore_frame h fun _ => rfl

theorem State.Canonical.performPkt {s : State} (h : s.Canonical) {k : Pkt} : (s.performPkt k).1.Canonical := by
  unfold State.performPkt
  dsimp only
  split
  · exact h
  · refine .update ?_
    split
    · exact .metPoison (.performBody (.update h))
    · exact .metPoison (.performBody (.update h))
    · exact .performBody (.update h)

theorem State.Canonical.onCtx {s : State} (h : s.Canonical) {c : CoreId} {x : Ctx} {f : CopyCtx → CopyCtx} :
    (s.onCtx c x f).Canonical :=
  .onCore_frame h fun _ => rfl

theorem State.Canonical.onRun {s : State} (h : s.Canonical) {c : CoreId} {x : Ctx} {f : CopyRun → CopyRun} :
    (s.onRun c x f).Canonical :=
  .onCtx h

theorem State.Canonical.wdone {s : State} (h : s.Canonical) {p : PartId} {i lo hi : Nat} {data : Option (List Byte)} :
    (s.wdone p i lo hi data).Canonical :=
  .onPart h _ _

theorem State.Canonical.copyArrive {s : State} (h : s.Canonical) {c : CoreId} {x : Ctx} {pkt : Nat} {b : PBody} :
    (s.copyArrive c x pkt b).Canonical := by
  unfold State.copyArrive
  split
  · exact .onRun h
  · dsimp only
    split
    · split
      · exact .wdone (.onRun h)
      · exact .onRun h
    · refine .update (.scopeMiss (.update ?_))
      split
      · exact .wdone (.onRun h)
      · exact .onRun h
  · exact h

end Sys2Proof.Machine
end

section
/-! # The key-value space: what keeps the form -/

namespace Sys2Proof.Machine

theorem State.Canonical.kvTake {s : State} (h : s.Canonical) {p : PartId} : (s.kvTake p).1.Canonical :=
  .onMem (.onPart h _ _) fun _ a => Memory.wf_zeroRange a _ _

theorem State.Canonical.kvReturn {s : State} (h : s.Canonical) {p : PartId} {i : Nat} : (s.kvReturn p i).Canonical :=
  .onPart (.onMem h (fun _ a => Memory.wf_writeNum a _ _ _)) _ _

theorem State.Canonical.kvCount {s : State} (h : s.Canonical) {p : PartId} {q add sub : Nat} :
    (s.kvCount p q add sub).Canonical :=
  .onMem h fun _ a => Memory.wf_writeNum a _ _ _

theorem State.Canonical.kvGive {s : State} (h : s.Canonical) {p : PartId} {q l h1 j : Nat} :
    (s.kvGive p q l h1 j).Canonical := by
  unfold State.kvGive
  dsimp only
  split
  · refine .kvTake ?_
    split
    · exact h
    · exact .onMem (.kvTake h) fun _ a => Memory.wf_writeNum a _ _ _
  · refine .kvCount (.onMem (.kvTake ?_) (fun _ a => Memory.wf_writeNum a _ _ _))
    split
    · exact h
    · exact .onMem (.kvTake h) fun _ a => Memory.wf_writeNum a _ _ _

theorem State.Canonical.kvExtend {s : State} (h : s.Canonical) {p : PartId} {w : Nat} : (s.kvExtend p w).Canonical :=
  .onMem (.foldl (fun _ _ h1 => .foldl (fun _ _ h2 => .kvGive h2) _ h1) _ h) fun _ a => Memory.wf_writeNum
      (Memory.wf_writeNum a _ _ _) _ _ _

theorem State.Canonical.kvDrop {s : State} (h : s.Canonical) {p : PartId} {f : Nat × Nat → Bool} :
    (s.kvDrop p f).Canonical :=
  .onCores_frame h fun _ => rfl

theorem State.Canonical.kvUnname {s : State} (h : s.Canonical) {p : PartId} {i : Nat} :
    (s.kvUnname p i).1.Canonical := by
  unfold State.kvUnname
  split
  · exact .onPart h _ _
  · exact h

theorem State.Canonical.kvTrunc {s : State} (h : s.Canonical) {p : PartId} {q l n : Nat} :
    (s.kvTrunc p q l n).1.Canonical := by
  unfold State.kvTrunc
  dsimp only
  split
  · exact h
  · refine .kvDrop (.foldl_fst ?_ _ ?_)
    · refine fun p1 a h1 => .foldl_fst ?_ _ ?_
      · refine fun p2 a1 h2 => ?_
        split
        · exact h2
        · exact .kvCount (.onMem h2 (fun _ a2 => Memory.wf_writeNum a2 _ _ _))
      · refine .foldl_fst ?_ _ ?_
        · refine fun p2 a1 h2 => ?_
          split
          · exact h2
          · split
            · exact h2
            · exact .kvCount (.kvUnname (.onMem h2 (fun _ a2 => Memory.wf_writeNum a2 _ _ _)))
        · exact h1
    · exact .onMem h fun _ a => Memory.wf_writeNum (Memory.wf_writeNum a _ _ _) _ _ _

theorem State.Canonical.kvClose {s : State} (h : s.Canonical) {p : PartId} {q : Nat} :
    (s.kvClose p q).1.Canonical := by
  unfold State.kvClose
  extract_lets x
  split
  rename_i t f e
  have closed : t.Canonical := by
    refine .of_fst e (.foldl_fst (fun st l h1 => ?_) _ h)
    split
    rename_i u g e1
    exact .of_fst e1 h1.kvTrunc
  dsimp only
  exact closed.onMem fun _ hm => Memory.wf_writeNum hm _ _ _

theorem State.Canonical.kvQuarantine {s : State} (h : s.Canonical) {c : CoreId} {p : PartId} {va : W} {i : Nat}
    {value : Bool} {last elem code : Nat} : (s.kvQuarantine c p va i value last elem code).Canonical := by
  unfold State.kvQuarantine
  dsimp only
  split
  · exact h
  · split
    · exact h
    · split
      · exact .onPart (.onMem
          (.kvDrop (.onPart (.onMem h (fun _ a => Memory.wf_writeNum (Memory.wf_writeNum a _ _ _) _ _ _)) _ _))
              (fun _ a => Memory.wf_writeBytes _ _ a)) _ _
      · split
        · exact .onPart (.kvDrop
            (.onPart (.onMem h (fun _ a => Memory.wf_writeNum (Memory.wf_writeNum a _ _ _) _ _ _)) _ _)) _ _
        · exact .kvDrop (.onPart (.onMem h (fun _ a => Memory.wf_writeNum (Memory.wf_writeNum a _ _ _) _ _ _)) _ _)

end Sys2Proof.Machine
end

section
/-! # Operands, placement and branches: what keeps the form -/

namespace Sys2Proof.Machine

theorem Out.From.axisOverflow {s : State} {e : Nat} : Out.From s (axisOverflow e s) := .raise

theorem Out.From.axisCollision {s : State} : Out.From s (axisCollision s) := .raise

theorem Out.From.illegalOp {s : State} : Out.From s (illegalOp s) := .raise

theorem State.Canonical.overMembers {s : State} (h : s.Canonical) {l : Lift} {ts : BitVec 3}
    {act off : Nat → State → State}
    (ha : ∀ m u, u.Canonical → (act m u).Canonical) (ho : ∀ m u, u.Canonical → (off m u).Canonical) :
    (overMembers l ts act off s).Canonical :=
  .foldl (fun s m hs => .ite (ha m s hs) (ho m s hs)) _ h

theorem Out.From.sRun {s : State} {i : Instr} {srcs : List (BitVec 6)} {d : BitVec 6} {g : List W → W} :
    Out.From s (sRun i srcs d g s) := by
  unfold Machine.sRun
  refine .withReady fun s1 => ?_
  dsimp only
  split
  · exact .axisOverflow
  · exact .next fun h => .overMembers h (fun _ _ h1 => .mapRegs h1 _) fun _ _ h1 => .mapRegs h1 _

theorem Out.From.pRun {s : State} {i : Instr} {srcs : List (BitVec 6)} {d : BitVec 3} {g : List W → Bool} :
    Out.From s (pRun i srcs d g s) := by
  unfold Machine.pRun
  refine .withReady fun s1 => ?_
  dsimp only
  split
  · exact .axisOverflow
  · exact .next fun h => .overMembers h (fun _ _ h1 => .mapRegs h1 _) fun _ _ h1 => .mapRegs h1 _

theorem Out.From.loadChecks {s : State} {unit : Nat} {l : List Acc} {body : State → Out} (hb : Out.From s (body s)) :
    Out.From s (loadChecks unit l body s) := by
  unfold Machine.loadChecks
  dsimp only
  split
  · exact .hold
  · split
    · exact .raise
    · exact hb

theorem State.Canonical.awaitForward {s : State} (h : s.Canonical) {f : RFile} {n : BitVec 6} {ts : BitVec 3} :
    (s.awaitForward f n ts).Canonical :=
  .mapCore_frame (.bumpFwd h) fun _ => rfl

theorem Out.From.sLoad {s : State} {i : Instr} {d : BitVec 6} {a : Src} {imm : BitVec 8} {n : Nat} {sx acq : Bool} :
    Out.From s (sLoad i d a imm n sx acq s) := by
  unfold Machine.sLoad
  refine .withReady fun s1 => ?_
  split
  · exact .hold
  · dsimp only
    split
    · exact .axisOverflow
    · split
      · exact .raise
      · split
        · exact .notAdmitted
        · split
          · exact .hold
          · refine .loadChecks (.next
              (fun h => .foldl (fun s2 a1 h1 => ?_) _
                  (.overMembers (.takeLock h) (fun _ _ h1 => h1) (fun _ _ h1 => .mapRegs h1 _))))
            exact .ite (.awaitForward h1) (.issueLoad (.useBanks h1))

theorem State.Canonical.bufferStore {s : State} (h : s.Canonical) {c : Acc} {b : List (W × Byte × Byte)} :
    (s.bufferStore c b).Canonical :=
  .mapCore_frame h fun _ => rfl

theorem State.Canonical.makeStores {s : State} (h : s.Canonical) {unit : Nat}
    {l : List (Acc × List (W × Byte × Byte))} {rel : Option (BitVec 3)} {fold : Bool} :
        (s.makeStores unit l rel fold).Canonical := by
  unfold State.makeStores
  refine .foldl (fun s1 a h1 => ?_) _ (.useBanks (.takeLock h))
  dsimp only
  split
  · split
    · exact .issueStore (.foldl (fun _ _ h2 => .foldSig h2) _ h1)
    · split
      · exact .bufferStore (.foldl (fun _ _ h2 => .foldSig h2) _ h1)
      · split
        · exact .issueStore (.foldl (fun _ _ h2 => .foldSig h2) _ h1)
        · exact .foldl (fun _ _ h2 => .foldSig h2) _ h1
  · exact .ite (.issueStore h1) (.ite (.bufferStore h1) (.ite (.issueStore h1) h1))

theorem Out.From.storeAll {s : State} {unit : Nat} {l : List (Acc × List (W × Byte × Byte))}
    {rel : Option (BitVec 3)} : Out.From s (storeAll unit l rel s) := by
  unfold Machine.storeAll
  dsimp only
  split
  · exact .hold
  · split
    · exact .hold
    · split
      · exact .raise
      · split
        · exact .comparePoint fun _ => .next fun h => .makeStores h
        · split
          · exact .comparePoint fun _ => .next fun h => .makeStores h
          · exact .next fun h => .makeStores h

theorem Out.From.sStore {s : State} {i : Instr} {d : BitVec 6} {a : Src} {imm : BitVec 8} {n : Nat} {rel : Bool} :
    Out.From s (sStore i d a imm n rel s) := by
  unfold Machine.sStore
  refine .withReady fun s1 => ?_
  split
  · exact .hold
  · dsimp only
    split
    · exact .axisCollision
    · split
      · exact .axisOverflow
      · split
        · exact .raise
        · split
          · exact .notAdmitted
          · exact .storeAll

theorem State.Canonical.orFlags {s : State} (h : s.Canonical) {f : Flags} : (s.orFlags f).Canonical :=
  .update (.mapCsr h _)

theorem Out.From.vRun {s : State} {i : Instr} {cls : List VClass} {vs ss : List (BitVec 6)} {d : VDest} {z : Bool}
    {g : VEnv → VReg → List VReg → List W → VReg × Flags} : Out.From s (vRun i cls vs ss d z g s) := by
  unfold Machine.vRun
  refine .withReady fun s1 => ?_
  dsimp only
  split
  · exact .illegalOp
  · split
    · exact .axisOverflow
    · refine .next fun h => .overMembers h (fun m s2 h1 => ?_) fun m s2 h1 => .mapRegs h1 _
      split
      · exact .orFlags (.mapRegs h1 _)
      · exact .orFlags (.mapRegs h1 _)
      · exact .mapCore_frame h1 fun _ => rfl

theorem Out.From.vLoad {s : State} {i : Instr} {d : BitVec 6} {a : Src} {form : VForm} {b : Option Opd} {z : Bool} :
    Out.From s (vLoad i d a form b z s) := by
  unfold Machine.vLoad
  refine .withReady fun u => .ite .hold ?_
  dsimp only
  split
  · exact .axisOverflow
  · split
    · exact .raise
    · exact .illegalOp
    · split
      · exact .notAdmitted
      · refine .ite .illegalOp (.loadChecks (.next fun h => .foldl (fun _ _ hw => ?_) _
          (.overMembers h.takeLock (fun _ _ hw => hw) fun _ _ hw => .mapRegs hw _)))
        exact .ite hw.awaitForward hw.useBanks.issueLoad

theorem Out.From.vStore {s : State} {i : Instr} {d : BitVec 6} {a : Src} {form : VForm} {b : Option Opd} :
    Out.From s (vStore i d a form b s) := by
  unfold Machine.vStore
  refine .withReady fun u => .ite .hold (.ite .axisCollision ?_)
  split
  · exact .axisOverflow
  · dsimp only
    split
    · exact .raise
    · exact .illegalOp
    · split
      · exact .notAdmitted
      · refine .ite .illegalOp ?_
        exact Out.From.onNext (f := fun t => if t.issue.held then t else t.orFlags _) .storeAll
          fun _ ht => .ite ht ht.orFlags

theorem State.Canonical.writeCsr {s : State} (h : s.Canonical) {n : Nat} {v : W} : (s.writeCsr n v).Canonical :=
  .mapCsr h _

theorem Out.From.csrOp {s : State} {i : Instr} {d : BitVec 6} {n : Nat} {a : Option Src} {f : W → W → W} :
    Out.From s (csrOp i d n a f s) := by
  unfold Machine.csrOp
  refine .withReady fun s1 => ?_
  split
  · exact .illegalOp
  · split
    · exact .axisCollision
    · split
      · exact .hold
      · dsimp only
        split
        · split
          · exact .next fun h => .awaitForward (.writeCsr h)
          · refine .next fun h => ?_
            exact .ite (.sendFwd (.mapRegs (.writeCsr h) _)) (.mapRegs (.writeCsr h) _)
        · split
          · exact .next fun h => .awaitForward h
          · refine .next fun h => ?_
            exact .ite (.sendFwd (.mapRegs h _)) (.mapRegs h _)

theorem State.Canonical.seatTrig {s : State} (h : s.Canonical) {id seat : Nat} {d : Die} :
    (s.seatTrig id seat d).Canonical := by
  unfold State.seatTrig
  split
  · exact h
  · exact .ite h (.ite (.countEdges (.onInst (.onInst h))) (.onInst h))

theorem State.Canonical.leaveCores {s : State} (h : s.Canonical) {id : Nat} : (s.leaveCores id).Canonical := by
  unfold State.leaveCores
  split
  · exact h
  · exact .onSched (.onInst (.releaseCores h)) _

theorem State.Canonical.parkNode {s : State} (h : s.Canonical) {id : Nat} {e : BitVec 8} {p0 : BitVec 32} :
    (s.parkNode id e p0).Canonical :=
  .ite (.makeReady (.leaveCores h)) (.onInst (.leaveCores h))

theorem State.Canonical.branch {s : State} (h : s.Canonical) {b : Nat} {pops : Bool} : (s.branch b pops).Canonical :=
  .update (.mapSeq h _)

theorem Out.From.agreed {s : State} {r : BitVec 6} {body : W → State → Out} (hb : ∀ v, Out.From s (body v s)) :
    Out.From s (agreed r body s) := by
  unfold Machine.agreed
  split
  · exact .axisOverflow
  · split
    · exact hb _
    · exact .ite (hb _) .raise

theorem Out.From.execBBr {s : State} {o : BitVec 18} : Out.From s (execBBr o s) :=
  .withReady fun _ => .next fun h => .branch h

theorem Out.From.execBBp {s : State} {p : BitVec 3} {n : Bool} {o : BitVec 18} : Out.From s (execBBp p n o s) := by
  unfold Machine.execBBp
  refine .withReady fun s1 => ?_
  dsimp only
  split
  · exact .axisOverflow
  · split
    · exact .next fun h => .branch h
    · split
      · exact .next id
      · exact .ite .raise (.ite .axisOverflow (.next (fun h => .branch (.mapCore_frame h fun _ => by rfl))))

theorem Out.From.execBJoin {s : State} : Out.From s (execBJoin s) := by
  unfold Machine.execBJoin
  refine .withReady fun s1 => ?_
  split
  · exact .next id
  · dsimp only
    split
    · exact .next fun h => .mapCore_frame h fun _ => by rfl
    · exact .next fun h => .update (.mapSeq (.mapCore_frame h fun _ => by rfl) _)

theorem Out.From.execBJal {s : State} {o : BitVec 18} : Out.From s (execBJal o s) :=
  .withReady fun _ => .next fun h => .branch (.mapRegs h _)

theorem Out.From.execBJr {s : State} {r : BitVec 6} : Out.From s (execBJr r s) :=
  .withReady fun _ => .agreed fun _ => .next fun h => .branch h

theorem State.Canonical.openLoop {s : State} (h : s.Canonical) {count : W} {e : Nat} :
    (s.openLoop count e).Canonical :=
  .ite (.update (.mapSeq h _)) (.update (.mapSeq h _))

theorem Out.From.execBLoop {s : State} {c : BitVec 6} {o : BitVec 12} : Out.From s (execBLoop c o s) :=
  .withReady fun _ => .agreed fun _ => .next fun h => .openLoop h

theorem Out.From.execBLoopi {s : State} {c : BitVec 8} {o : BitVec 10} : Out.From s (execBLoopi c o s) :=
  .withReady fun _ => .next fun h => .openLoop h

theorem Out.From.execBTrap {s : State} {p : BitVec 3} {n : Bool} {c : BitVec 18} :
    Out.From s (execBTrap p n c s) := by
  unfold Machine.execBTrap
  refine .withReady fun s1 => ?_
  split
  · exact .axisOverflow
  · exact .ite .raiseAfter (.next id)

@[simp] theorem Core.resumeEngine_scratch {engine : Nat} {x : Core} :
    (Core.resumeEngine engine x).scratch = x.scratch := by
  unfold Core.resumeEngine
  split <;> rfl

theorem Out.From.execBTret {s : State} : Out.From s (execBTret s) := by
  unfold Machine.execBTret
  refine .withReady fun s1 => ?_
  split
  · exact .next id
  · refine .next fun h => .update (.ite (.foldl (fun _ _ hs => .onCore_frame hs fun _ => by simp) _ ?_) ?_) <;>
    · refine .mapCore_frame h fun x => ?_
      dsimp only
      split <;> simp

@[simp] theorem Core.stands_scratch {x : Core} : x.stands.scratch = x.scratch := rfl

theorem Out.From.execBDone {s : State} : Out.From s (execBDone s) := by
  unfold Machine.execBDone
  refine .withReady fun s1 => ?_
  split
  · exact .hold
  · refine .comparePoint fun s2 => ?_
    dsimp only
    split
    · exact .hold
    · split
      · exact .raise
      · split
        · exact .next fun h => .mapSeq (.mapCore_frame h (fun _ => by simp)) _
        · refine .next fun h => ?_
          split
          · split
            · exact .completeInst (.seatTrig (.mapSeq (.mapCore_frame h (fun _ => by simp)) _))
            · exact .seatTrig (.mapSeq (.mapCore_frame h (fun _ => by simp)) _)
          · split
            · exact .completeInst (.mapSeq (.mapCore_frame h (fun _ => by simp)) _)
            · exact .mapSeq (.mapCore_frame h (fun _ => by simp)) _

theorem Out.From.execBYield {s : State} : Out.From s (execBYield s) := by
  unfold Machine.execBYield
  refine .withReady fun s1 => ?_
  split
  · exact .next id
  · refine .comparePoint fun s2 => ?_
    split
    · exact .next id
    · split
      · exact .next fun h => .mapCore_frame h fun _ => by rfl
      · split
        · split
          · exact .hold
          · exact .raise
          · exact .next fun h => .makeReady (.leaveCores h)
        · exact .next fun h => .onCores_frame (.mapCore_frame h fun _ => by rfl) fun _ => by rfl

theorem Out.From.execBPark {s : State} {m : BitVec 2} : Out.From s (execBPark m s) := by
  unfold Machine.execBPark
  refine .withReady fun s1 => ?_
  dsimp only
  split
  · exact .next id
  · split
    · exact .raise
    · refine .comparePoint fun s2 => ?_
      split
      · exact .next id
      · split
        · exact .hold
        · exact .raise
        · split
          · exact .next fun h => .parkNode (.mapCore_frame h fun _ => by rfl)
          · exact .next fun h => .mapCore_frame h fun _ => by rfl

theorem Out.From.execBTrig {s : State} : Out.From s (execBTrig s) := by
  unfold Machine.execBTrig
  refine .withReady fun s1 => .comparePoint fun s2 => ?_
  dsimp only
  split
  · exact .next id
  · split
    · exact .hold
    · split
      · exact .next fun h => .mapCore_frame h fun _ => by rfl
      · refine .next fun h => ?_
        exact .ite (.seatTrig (.mapCore_frame h fun _ => by rfl)) (.mapCore_frame h fun _ => by rfl)

theorem Out.From.execBTask {s : State} {i b d : BitVec 6} : Out.From s (execBTask i b d s) := by
  unfold Machine.execBTask
  refine .withReady fun s1 => ?_
  dsimp only
  split
  · exact .axisCollision
  · split
    · exact .raise
    · split
      · exact .raise
      · split
        · exact .next fun h => .awaitForward (.foldSig h)
        · refine .next fun h => .onSched (.mapRegs ?_ _) _
          exact .ite (.bumpFwd (.foldSig h)) (.foldSig h)

theorem Out.From.execBSwap {s : State} {o : BitVec 12} : Out.From s (execBSwap o s) := by
  unfold Machine.execBSwap
  refine .withReady fun s1 => ?_
  exact .ite .raise (.ite .hold (.next (fun h => .update (.mapCore_frame h fun _ => by rfl))))

theorem Out.From.execBSleep {s : State} {r : BitVec 6} : Out.From s (execBSleep r s) := by
  unfold Machine.execBSleep
  refine .withReady fun s1 => ?_
  split
  · exact .axisCollision
  · dsimp only
    split
    · split
      · exact .raiseAfter
      · exact .ite (.next (fun h => .mapCore_frame (.bumpFwd h) fun _ => rfl)) .hold
    · split
      · exact .hold
      · split
        · split
          · refine .next fun h => ?_
            exact .ite (.sendFwd h) h
          · exact .raiseAfter
        · refine .next fun h => ?_
          exact .ite (.sendFwd h) h

end Sys2Proof.Machine
end

section
/-! # Queues: what keeps the form -/

namespace Sys2Proof.Machine

theorem Out.From.untagged {s : State} {l : List (BitVec 6)} {body : State → Out} (hb : Out.From s (body s)) :
    Out.From s (untagged l body s) := .ite .axisCollision hb

theorem Out.From.onQueueOp {s : State} {q : BitVec 4} {body : State → Out} (hb : Out.From s (body s)) :
    Out.From s (onQueueOp q body s) := .ite .illegalOp hb

theorem Out.From.readEntry {s : State} {unit : Nat} {q : BitVec 4} {k : Nat} {dsts : List (RegFile × Nat)}
    {body : State → Out} (hb : ∀ u, Out.From u (body u)) : Out.From s (readEntry unit q k dsts body s) := by
  unfold Machine.readEntry
  refine .ite .hold ?_
  split
  · exact .raise
  · exact .mono (fun h => h.useBanks) (hb _)

theorem Core.pushes_wf {n : BitVec 4} : ∀ (l : List VReg) {x : Core}, x.scratch.wf = true →
    (l.foldl (fun x v => x.push n v) x).scratch.wf = true
  | [], _, h => h
  | v :: r, _, h => Core.pushes_wf r (Core.push_wf h n v)

theorem Out.From.pushAll {s : State} {unit : Nat} {q : BitVec 4} {vs : List VReg} :
    Out.From s (pushAll unit q vs s) :=
  .ite .hold (.next fun h => .mapCore (.useBanks h) (Core.pushes_wf _ (State.Canonical.useBanks h).core))

theorem Out.From.execQQcfg {s : State} {x : BitVec 4} {a : BitVec 6} : Out.From s (execQQcfg x a s) := by
  unfold Machine.execQQcfg
  refine .withReady fun s1 => .untagged ?_
  exact .ite .hold (.ite .illegalOp (.next (fun h => .mapCore_frame h fun _ => rfl)))

theorem Out.From.execQQpush {s : State} {x : BitVec 4} {a : BitVec 6} : Out.From s (execQQpush x a s) := by
  unfold Machine.execQQpush
  refine .withReady fun s1 => .onQueueOp ?_
  dsimp only
  split
  · exact .axisOverflow
  · exact .pushAll

theorem Out.From.execQQpop {s : State} {x : BitVec 4} {d : BitVec 6} : Out.From s (execQQpop x d s) :=
  .withReady fun _ => .onQueueOp (.readEntry
      (fun _ => .next (fun h => .mapRegs (.mapCore_frame h fun _ => by rfl) _)))

theorem Out.From.execQQpeek {s : State} {x : BitVec 4} {d i : BitVec 6} : Out.From s (execQQpeek x d i s) := by
  unfold Machine.execQQpeek
  refine .withReady fun s1 => .onQueueOp ?_
  exact .ite .illegalOp (.readEntry (fun _ => .next (fun h => .mapRegs h _)))

theorem Out.From.execQQcnt {s : State} {x : BitVec 4} {d : BitVec 6} : Out.From s (execQQcnt x d s) :=
  .withReady fun _ => .onQueueOp (.next (fun h => .mapRegs h _))

theorem Out.From.waitDone {s : State} {t : BitVec 2} : Out.From s (waitDone t s) := by
  unfold Machine.waitDone
  split
  · split
    · exact .raiseAfter
    · exact .next id
  · exact .next id

theorem Out.From.waitTl {s : State} {t : BitVec 2} {v : W} : Out.From s (waitTl t v s) :=
  .ite .waitDone (.ite .illegalOp .hold)

theorem Out.From.execQTlwait {s : State} {t : BitVec 2} {a : BitVec 6} : Out.From s (execQTlwait t a s) :=
  .withReady fun _ => .untagged .waitTl

theorem Out.From.execQTlsig {s : State} {a : BitVec 6} : Out.From s (execQTlsig a s) := by
  unfold Machine.execQTlsig
  refine .withReady fun s1 => .untagged (.comparePoint (fun s2 => ?_))
  exact .ite .hold (.next (fun h => .mapCore_frame h (fun _ => by simp)))

theorem Out.From.execQTlrd {s : State} {t : BitVec 2} {d : BitVec 6} : Out.From s (execQTlrd t d s) :=
  .withReady fun _ => .next fun h => .mapRegs h _

theorem Out.From.execQTlwaitx {s : State} {d a : BitVec 6} : Out.From s (execQTlwaitx d a s) := by
  unfold Machine.execQTlwaitx
  refine .withReady fun s1 => .untagged ?_
  dsimp only
  split
  · exact .ite (.next (fun h => .mapCore_frame (.bumpFwd h) fun _ => rfl)) .hold
  · split
    · split
      · refine .next fun h => ?_
        exact .ite (.sendFwd h) h
      · exact .illegalOp
    · split
      · exact .hold
      · split
        · refine .next fun h => ?_
          exact .ite (.sendFwd h) h
        · exact .hold

theorem Out.From.execQPromise {s : State} {t : BitVec 2} {d a : BitVec 6} : Out.From s (execQPromise t d a s) := by
  unfold Machine.execQPromise
  refine .withReady fun s1 => .untagged ?_
  split
  · exact .illegalOp
  · split
    · exact .next fun h => .awaitForward h
    · refine .next fun h => .mapCore_frame ?_ fun _ => rfl
      exact .ite (.sendFwd h) h

theorem Out.From.execQBar {s : State} {m : BitVec 2} {w : Bool} : Out.From s (execQBar m w s) :=
  .withReady fun _ => .next id

theorem Out.From.execQSlack {s : State} {a : BitVec 6} : Out.From s (execQSlack a s) :=
  .withReady fun _ => .untagged (.next (fun h => .mapCsr h _))

theorem Out.From.execQFrame {s : State} : Out.From s (execQFrame s) := by
  unfold Machine.execQFrame
  refine .withReady fun s1 => ?_
  exact .ite (.next id) (.ite .hold (.next (fun h => .mapCore_frame h fun _ => rfl)))

theorem Out.From.execQIfence {s : State} : Out.From s (execQIfence s) :=
  .withReady fun _ => .next fun h => .mapCore_frame h fun _ => rfl

theorem Out.From.execQFout {s : State} {d a : BitVec 6} : Out.From s (execQFout d a s) := by
  unfold Machine.execQFout
  refine .withReady fun s1 => ?_
  dsimp only
  split
  · exact .axisCollision
  · split
    · exact .axisOverflow
    · split
      · refine .comparePoint fun s2 => ?_
        exact .ite .hold (.ite (.next id) (.next (fun h => .mapCore_frame h fun _ => rfl)))
      · split
        · exact .hold
        · split
          · exact .next fun h => .foldl (fun _ _ h1 => .foldSig h1) _ h
          · exact .next fun h => .mapCore_frame (.foldl (fun _ _ h1 => .foldSig h1) _ h) fun _ => rfl

theorem Out.From.execQFin {s : State} {d : BitVec 6} : Out.From s (execQFin d s) := by
  unfold Machine.execQFin
  refine .withReady fun s1 => ?_
  dsimp only
  split
  · exact .hold
  · split
    · exact .next fun h => .awaitForward h
    · refine .next fun h => .mapCore_frame ?_ fun _ => rfl
      exact .ite (.bumpFwd h) h

theorem Out.From.execQLift {s : State} {t : BitVec 2} {a : BitVec 6} : Out.From s (execQLift t a s) := by
  unfold Machine.execQLift
  refine .withReady fun s1 => .untagged ?_
  exact .ite .axisOverflow (.ite .axisOverflow (.next (fun h => .mapCore_frame h fun _ => rfl)))

theorem Out.From.execQLend {s : State} : Out.From s (execQLend s) := by
  unfold Machine.execQLend
  refine .withReady fun s1 => ?_
  dsimp only
  split
  · exact .axisOverflow
  · exact .ite .raise (.next (fun h => .mapCore_frame h fun _ => rfl))

theorem Out.From.execQLmask {a : BitVec 6} {s : State} : Out.From s (execQLmask a s) := by
  unfold Machine.execQLmask
  refine .withReady fun s1 => .untagged (.next fun h => .mapCore_frame h fun x => ?_)
  split <;> rfl

end Sys2Proof.Machine
end

section
/-! # Copy commands: what keeps the form -/

namespace Sys2Proof.Machine

theorem State.Canonical.setStream {s : State} (h : s.Canonical) {p : PartId} {q : Stream} :
    (s.setStream p q).Canonical :=
  .onPart h _ _

theorem State.Canonical.claim {s : State} (h : s.Canonical) {p : PartId} {i off n : Nat} {master : BitVec 10}
    {write : Bool} :
    Kept (s.claim p i off n master write) :=
  .ite .none (.ite (.ite .none (.some h.setStream)) (.ite .none (.some h.setStream)))

theorem State.Canonical.claimAt {s : State} (h : s.Canonical) {c : CoreId} {p : PartId} {va : W} {n : Nat}
    {write : Bool} :
    Kept (s.claimAt c p va n write) := by
  unfold State.claimAt
  split
  · exact h.claim
  · exact .some h

theorem State.Canonical.claims {s : State} (h : s.Canonical) {c : CoreId} {p : PartId} {m : CopyCmd} :
    Kept (s.claims c p m) := by
  unfold State.claims
  split
  · refine .ite (.some h) (.foldl (fun o i ho => .bind ho fun u hu => ?_) _ (.some h))
    dsimp only
    split
    · exact .some hu
    · exact .some hu
    · split
      · exact .some hu
      · exact .ite (.ite (.some hu) hu.claimAt) (.bind (.ite (.some hu) hu.claimAt) fun _ hv => hv.claimAt)
  · exact .bind (.ite h.claimAt (.some h)) fun _ hu => hu.claimAt
  · exact h.claimAt
  · exact .some h

/-- A command makes the claims of its operands, unless the leader makes them. -/
theorem State.Canonical.claimed {s : State} (h : s.Canonical) {c : Prop} [Decidable c] {d : CoreId} {p : PartId}
    {m : CopyCmd} : (if c then (s, none) else match s.claims d p m with
      | some t => (t, none)
      | none => (s, some 9) : State × Option Nat).1.Canonical := by
  split
  · exact h
  · split
    · exact h.claims.of_some ‹_›
    · exact h

theorem State.Canonical.enterCmd {s : State} (h : s.Canonical) {x : Ctx} {i : Instr} {f : COp} {quad : List W}
    {prom : BitVec 6} {ts : BitVec 3} : (s.enterCmd x i f quad prom ts).Canonical := by
  unfold State.enterCmd
  dsimp only
  exact .ite (.mapCore_frame h.claimed fun _ => by rfl) (.ite
      (.awaitForward (.mapCore_frame h.claimed fun _ => by rfl))
    (.mapCore_frame (.ite (.sendFwd (.mapCore_frame h.claimed fun _ => by rfl))
      (.mapCore_frame h.claimed fun _ => by rfl)) fun _ => by rfl))

theorem Out.From.copyOp {s : State} {i : Instr} {f : COp} {dst : Nat} : Out.From s (copyOp i f dst s) := by
  unfold Machine.copyOp
  refine .withReady fun u => .ite .illegalOp (.ite .axisCollision ?_)
  split
  · exact .axisOverflow
  · split
    · exact .raise
    · refine .ite .hold (.ite (.comparePoint fun v => ?_) ?_) <;>
        exact .next fun h => .foldl (fun _ _ hw => .enterCmd (.ite hw hw.foldSig)) _
          (.ite h.takeLock (.foldl (fun _ _ hw => .ite hw (.mapRegs hw _)) _ h.takeLock))

end Sys2Proof.Machine
end

section
/-! # The fabric: what keeps the form -/

namespace Sys2Proof.Machine

theorem State.Canonical.countDrop {s : State} (h : s.Canonical) {d : Die} {port cause : Nat} :
    (s.countDrop d port cause).Canonical :=
  .onTele h

theorem State.Canonical.dropPkt {s : State} (h : s.Canonical) {d : Die} {inp : RouterIn} {k : FabPacket}
    {cause : Nat} : (s.dropPkt d inp k cause).Canonical :=
  .onFab (.countDrop h) _ _

theorem State.Canonical.noticed {s : State} (h : s.Canonical) {d : Die} {op : Nat} {out : Option (Fin 72)}
    {fl : Flow} : (s.noticed d op out fl).Canonical :=
  .onFab h _ _

theorem State.Canonical.routeIn {s : State} (h : s.Canonical) {d : Die} {inp : RouterIn} {k : FabPacket} :
    (s.routeIn d inp k).Canonical := by
  have go (f : Fabric) : (State.routeIn.go s d inp k f).Canonical := by
    unfold State.routeIn.go
    split
    · exact h.dropPkt
    · exact h.onFab _ _
    · exact h.onFab _ _
  unfold State.routeIn
  dsimp only
  split
  · exact h.dropPkt
  · exact .ite (h.noticed.onFab _ _) (.ite h.dropPkt (go _))
  · exact go _

theorem State.Canonical.injectNext {s : State} (h : s.Canonical) {d : Die} : (s.injectNext d).Canonical := by
  unfold State.injectNext
  dsimp only
  split
  · exact .onFab h _ _
  · exact .routeIn (.onFab (.onFab h _ _) _ _)

theorem Out.From.execRouterPacketArrive {s : State} : Out.From s (execRouterPacketArrive s) := by
  unfold Machine.execRouterPacketArrive
  dsimp only
  split
  · exact .next fun h => .injectNext h
  · exact .ite (.next id) (.next (fun h => .routeIn (.onFab h _ _)))

theorem Out.From.execFlitReplay {s : State} : Out.From s (execFlitReplay s) :=
  .ite (.next id) (.next (fun h => .routeIn (.onFab h _ _)))

theorem Out.From.execCreditReturn {s : State} : Out.From s (execCreditReturn s) := .next fun h => .onFab h _ _

theorem Out.From.execHedgeQueueAssign {s : State} : Out.From s (execHedgeQueueAssign s) := by
  unfold Machine.execHedgeQueueAssign
  dsimp only
  split
  · exact .ite (.next (fun h => .onFab h _ _)) (.next id)
  · exact .next id

theorem Out.From.execHedgeQueueRelease {s : State} : Out.From s (execHedgeQueueRelease s) := by
  unfold Machine.execHedgeQueueRelease
  split
  · split
    · exact .ite (.next (fun h => .noticed h)) (.next id)
    · exact .next id
  · exact .next id

theorem State.Canonical.inject {s : State} (h : s.Canonical) {p : PartId} {dev op : Nat} {k : FabPacket} :
    (s.inject p dev op k).Canonical :=
  .onFab h _ _

theorem State.Canonical.request {s : State} (h : s.Canonical) {c : CoreId} {unit req pkt : Nat} {p : PartId}
    {dev op : Nat} {addrs : List Nat} {k : FabPacket} : (s.request c unit req pkt p dev op addrs k).Canonical :=
  .inject (.onFab h _ _)

theorem State.Canonical.fabricSend {s : State} (h : s.Canonical) {k : Pkt} : (s.fabricSend k).Canonical := by
  unfold State.fabricSend
  dsimp only
  split
  · exact .request h
  · exact .request h
  · exact .request h
  · exact .request h
  · exact h

theorem State.Canonical.takePkt {s : State} (h : s.Canonical) {d : Die} {k : FabPacket} : (s.takePkt d k).Canonical :=
  .onFab h _ _

theorem State.Canonical.endDrop {s : State} (h : s.Canonical) {d : Die} {k : FabPacket} : (s.endDrop d k).Canonical :=
  .countDrop (.takePkt h)

theorem State.Canonical.answerAck {s : State} (h : s.Canonical) {p : PartId} {k : FabPacket} {status : Nat}
    {old : List Byte} {marks : W} : (s.answerAck p k status old marks).Canonical :=
  .inject h

theorem State.Canonical.serveClaim {s : State} (h : s.Canonical) {p : PartId} {m : Fin 64} {k : FabPacket} {l : Loc} :
    Kept (s.serveClaim p m k l) := by
  unfold State.serveClaim
  split
  · exact h.claim
  · exact .some h

theorem State.Canonical.serveOne {s : State} (h : s.Canonical) {d : Die} {k : FabPacket}
    {f : PartId → Loc → State → State}
    (hf : ∀ p l u, u.Canonical → (f p l u).Canonical) : (s.serveOne d k f).Canonical := by
  unfold State.serveOne
  split
  · exact h.endDrop
  · dsimp only
    split
    · exact h.takePkt
    · exact h.takePkt.answerAck
    · split
      · exact h.takePkt.answerAck
      · exact hf _ _ _ (h.takePkt.serveClaim.of_some ‹_›)

theorem Out.From.serveKind {op : Nat} {s : State} {f : Die → FabPacket → State}
    (hf : ∀ d k, s.Canonical → (f d k).Canonical) : Out.From s (serveKind op s f) := by
  unfold Machine.serveKind
  dsimp only
  split
  · exact .next id
  · exact .ite (.next (hf _ _)) (.next id)

theorem Out.From.execReadRequest {s : State} : Out.From s (execReadRequest s) :=
  .serveKind fun _ _ h => .serveOne h fun _ _ _ h1 => .inject h1

theorem Out.From.execWriteRequest {s : State} : Out.From s (execWriteRequest s) := by
  unfold Machine.execWriteRequest
  refine .serveKind fun d k h => ?_
  split
  · split
    · exact .endDrop h
    · dsimp only
      split
      · exact .answerAck (.takePkt h)
      · exact .answerAck (.onFab (.takePkt h) _ _)
  · refine .serveOne h fun p l s1 h1 => ?_
    dsimp only
    split
    · exact .answerAck h1
    · refine .answerAck ?_
      split
      · exact .wdone (.addRels (.writeBy h1))
      · exact .addRels (.writeBy h1)

theorem Out.From.execAccumulateRequest {s : State} : Out.From s (execAccumulateRequest s) := by
  unfold Machine.execAccumulateRequest
  refine .serveKind fun d k h => .serveOne h fun p l s1 h1 => ?_
  dsimp only
  split
  · exact .answerAck (.addRels (.performRmw h1))
  · exact .answerAck h1
  · exact .answerAck h1

theorem Out.From.execFetchOpRequest {s : State} : Out.From s (execFetchOpRequest s) :=
  .serveKind fun _ _ h => .serveOne h fun _ _ _ h1 => .answerAck (.addRels (.setRels (.rmwAll h1)))

theorem State.Canonical.fnErr {s : State} (h : s.Canonical) {p : PartId} {off : Nat} : (s.fnErr p off).Canonical :=
  .onVf h _ _

theorem State.Canonical.hostArrive {s : State} (h : s.Canonical) {r : FabReq} {data : List (Nat × Byte)}
    {failed : Bool} : (s.hostArrive r data failed).Canonical := by
  unfold State.hostArrive
  split
  · exact h
  · dsimp only
    split
    · exact .update h
    · refine .update ?_
      exact .ite (.fnErr h) h

theorem State.Canonical.dropReq {s : State} (h : s.Canonical) {d : Die} {tag : BitVec 16} :
    (s.dropReq d tag).Canonical :=
  .onFab h _ _

theorem State.Canonical.peerFail {s : State} (h : s.Canonical) {r : FabReq} {cause : Nat} :
    (s.peerFail r cause).Canonical := by
  unfold State.peerFail
  split
  · exact .onRun h
  · exact .onRun h
  · exact .hostArrive h
  · exact .onCore_frame h fun _ => by rfl
  · dsimp only
    split
    · exact .storeAck (.onCore_frame h fun _ => by rfl)
    · exact .takeFree (.loadArrive (.onCore_frame h fun _ => by rfl))

theorem State.Canonical.wbAck {s : State} (h : s.Canonical) {c : CoreId} {pkt : Nat} : (s.wbAck c pkt).Canonical := by
  unfold State.wbAck
  dsimp only
  split
  · exact .wdone (.onCore_frame h fun _ => by rfl)
  · exact .onCore_frame h fun _ => by rfl

theorem State.Canonical.peerData {s : State} (h : s.Canonical) {r : FabReq} {data : List (Nat × Byte)}
    {poison : List Nat} {rels : List (Party × BitVec 3)} : (s.peerData r data poison rels).Canonical := by
  unfold State.peerData
  split
  · exact .copyArrive h
  · exact .copyArrive h
  · exact .hostArrive h
  · exact .onCore_frame h fun _ => rfl
  · exact .loadArrive h

theorem Out.From.execReadResponse {s : State} : Out.From s (execReadResponse s) := by
  unfold Machine.execReadResponse
  dsimp only
  split
  · exact .next id
  · split
    · exact .next fun h => .endDrop h
    · split
      · exact .next fun h => .takePkt h
      · exact .next fun h => .peerData (.dropReq (.takePkt h))

theorem State.Canonical.outboxFor {s : State} (h : s.Canonical) {c : CoreId} {dst : Nat} {refused : Bool} :
    (s.outboxFor c dst refused).Canonical :=
  .onCore_frame h fun _ => rfl

theorem Out.From.execCompletionAcknowledgement {s : State} : Out.From s (execCompletionAcknowledgement s) := by
  unfold Machine.execCompletionAcknowledgement
  dsimp only
  split
  · exact .next id
  · split
    · exact .next fun h => .endDrop h
    · split
      · exact .next fun h => .takePkt h
      · split
        · exact .next fun h => .outboxFor (.dropReq (.takePkt h))
        · exact .next fun h => .hostArrive (.dropReq (.takePkt h))
        · split
          · exact .next fun h => .onRun (.dropReq (.takePkt h))
          · split
            · exact .next fun h => .copyArrive (.dropReq (.takePkt h))
            · exact .next fun h => .peerFail (.dropReq (.takePkt h))
        · split
          · exact .next fun h => .onRun (.dropReq (.takePkt h))
          · split
            · exact .next fun h => .copyArrive (.dropReq (.takePkt h))
            · exact .next fun h => .peerFail (.dropReq (.takePkt h))
        · refine .next fun h => ?_
          exact .ite (.wbAck (.dropReq (.takePkt h))) (.peerFail (.dropReq (.takePkt h)))
        · split
          · exact .next fun h => .storeAck (.dropReq (.takePkt h))
          · exact .next fun h => .peerFail (.dropReq (.takePkt h))

theorem Out.From.execRequestTimeout {s : State} : Out.From s (execRequestTimeout s) := by
  unfold Machine.execRequestTimeout
  dsimp only
  split
  · exact .next id
  · exact .next fun h => .peerFail (.dropReq h)

theorem State.Canonical.inboxPut {s : State} (h : s.Canonical) {c : CoreId} {w : W} {sc : BitVec 3} :
    (s.inboxPut c w sc).1.Canonical := by
  unfold State.inboxPut
  dsimp only
  split
  · exact .onTele h
  · exact .onCore_frame h fun _ => rfl

theorem Out.From.execInboxWord {s : State} : Out.From s (execInboxWord s) := by
  unfold Machine.execInboxWord
  dsimp only
  split
  · exact .next id
  · split
    · exact .next fun h => .endDrop h
    · split
      · exact .next fun h => .endDrop h
      · split
        · exact .next fun h => .answerAck (.inboxPut (.takePkt h))
        · exact .next fun h => .inject (.inboxPut (.takePkt h))

theorem Out.From.execInboxRefusal {s : State} : Out.From s (execInboxRefusal s) := by
  unfold Machine.execInboxRefusal
  dsimp only
  split
  · exact .next id
  · split
    · exact .next fun h => .endDrop h
    · split
      · exact .next fun h => .takePkt h
      · exact .next fun h => .outboxFor (.dropReq (.takePkt h))

theorem State.Canonical.loseWord {s : State} (h : s.Canonical) {c : CoreId} {w : OutWord} :
    (s.loseWord c w).Canonical :=
  .onTele (.onCore_frame h fun _ => by rfl)

theorem State.Canonical.sendWord {s : State} (h : s.Canonical) {c : CoreId} {w : OutWord} :
    (s.sendWord c w).Canonical := by
  unfold State.sendWord
  dsimp only
  split
  · exact .ite (.loseWord h) (.onCore_frame (.post h) fun _ => rfl)
  · exact .ite (.loseWord h) (.onCore_frame (.request h) fun _ => rfl)

theorem Out.From.execOutboxSend {s : State} : Out.From s (execOutboxSend s) := by
  unfold Machine.execOutboxSend
  dsimp only
  split
  · exact .next fun h => .onTele (.outboxFor (.dropReq h))
  · split
    · refine .next fun h => ?_
      exact .ite h (.sendWord h)
    · exact .next id

theorem Out.From.execOutboxResend {s : State} : Out.From s (execOutboxResend s) := by
  unfold Machine.execOutboxResend
  split
  · refine .next fun h => ?_
    exact .ite h (.sendWord h)
  · exact .next id

end Sys2Proof.Machine
end

section
/-! # Replicas: what keeps the form -/

namespace Sys2Proof.Machine

theorem State.Canonical.mismatch {s : State} (h : s.Canonical) {α : Type} [BEq α] {kind : Nat} {l : List (CoreId × α)}
    {split : Bool} : (s.mismatch kind l split).Canonical :=
  .update (.failNode (.update (.foldl (fun _ _ h1 => .onCore_frame h1 fun _ => by rfl) _ h)))

theorem State.Canonical.retire {s : State} (h : s.Canonical) {c : CoreId} : (s.retire c).Canonical := by
  unfold State.retire
  split
  · exact h
  · exact .onCores_frame (.onCores_frame (.onTele (.onSched h _)) fun _ => by rfl) fun _ => by rfl

theorem State.Canonical.drainBuffer {s : State} (h : s.Canonical) : s.drainBuffer.Canonical := by
  unfold State.drainBuffer
  refine .foldl_fst ?_ _ ?_
  · exact fun _ _ h1 => .issueStore h1
  · exact .mapCore_frame h fun _ => rfl

theorem State.Canonical.agreed {s : State} (h : s.Canonical) {used : Nat} : (State.agreed used s).Canonical := by
  unfold State.agreed
  split
  · exact h
  · exact .takeTrap (.mapCore_frame h fun _ => by rfl)
  · dsimp only
    split
    · exact .drainBuffer (.mapSeq (.mapCore_frame h fun _ => by rfl) _)
    · exact .mapCore_frame (.mapSeq (.mapCore_frame h fun _ => by rfl) _) fun _ => by rfl

theorem State.Canonical.allAgreed {s : State} (h : s.Canonical) {l : List CoreId} : (s.allAgreed l).Canonical :=
  .update (.foldl (fun _ _ h1 => .agreed (.update h1)) _ h)

theorem Out.From.execCompareVerdict {s : State} : Out.From s (execCompareVerdict s) := by
  unfold Machine.execCompareVerdict
  dsimp only
  split
  · exact .next fun h => .update h
  · split
    · exact .next fun h => .mismatch (.update h)
    · split
      · exact .next fun h => .allAgreed (.update h)
      · exact .next fun h => .mismatch (.update h)
      · exact .next fun h => .allAgreed (.retire (.update h))

theorem Out.From.execForwardedValueArrive {s : State} : Out.From s (execForwardedValueArrive s) := by
  unfold Machine.execForwardedValueArrive
  dsimp only
  split
  · exact .next fun h => .update h
  · exact .next fun h => .mapCore_frame (.update h) fun _ => rfl

end Sys2Proof.Machine
end

section
/-! # The key-value space: what keeps the form -/

namespace Sys2Proof.Machine

theorem State.Canonical.kvAppend {s t : State} (h : s.Canonical) {p : PartId} {recs : List Nat}
    (e : s.kvAppend p recs = .ok t) : t.Canonical := by
  unfold State.kvAppend at e
  dsimp only at e
  split at e
  · cases e
  · split at e <;> cases e
    exact .foldl (fun _ _ hu => hu.kvExtend) _ h

theorem State.Canonical.kvReplace {s t : State} (h : s.Canonical) {p : PartId} {va : W} {l : List (Nat × Bool)}
    (e : s.kvReplace p va = .ok (t, l)) : t.Canonical := by
  unfold State.kvReplace at e
  dsimp only at e
  split at e
  · cases e
  · split at e
    · cases e
    · split at e
      · cases e
      · split at e
        · cases e
        · split at e
          · cases e
            exact h
          · split at e <;> cases e
            exact .kvDrop (.kvUnname (.onMem (.kvTake h) fun _ hm => Memory.wf_writeNum hm _ _ _))

theorem State.Canonical.kvInv {s t : State} (h : s.Canonical) {p : PartId} {kind : Nat} {va : W} {n : Nat}
    {l : List (Nat × Bool)} (e : s.kvInv p kind va n = .ok (t, l)) : t.Canonical := by
  unfold State.kvInv at e
  dsimp only at e
  split at e
  · split at e
    · cases e
    · exact .of_fst (Except.ok.inj e) h.kvTrunc
  · split at e
    · cases e
    · exact .of_fst (Except.ok.inj e) h.kvClose
  · exact h.kvReplace e

end Sys2Proof.Machine
end

section
/-! # Running copy commands: what keeps the form -/

namespace Sys2Proof.Machine

theorem State.Canonical.engineRead {s t : State} (h : s.Canonical) {c : CoreId} {x : Ctx} {r : CopyRun}
    {dev : Option Nat} {vas : List W} {k : AKind} {fast : Bool}
    (e : s.engineRead c x r dev vas k fast = .asked t) : t.Canonical := by
  unfold State.engineRead at e
  dsimp only at e
  split at e
  · cases e
  · split at e
    · cases e
    · split at e
      · cases e
      · split at e <;> cases e
        refine .onRun (.foldl_fst (fun _ _ hp => ?_) _ h)
        exact hp.post

theorem State.Canonical.metRead {s : State} (h : s.Canonical) {c : CoreId} {x : Ctx} {dev : Option Nat}
    {bad : List W} : (s.metRead c x dev bad).Canonical := by
  unfold State.metRead
  split
  · exact h
  · split
    · exact .metPoison h
    · exact h

theorem State.Canonical.putPoison {s : State} (h : s.Canonical) {l : List (Nat × Byte × Byte)} {bad : List Nat} :
    (s.putPoison l bad).Canonical :=
  .foldl (fun _ _ h1 => .onMemOf h1 (fun _ a1 => Memory.wf_poisonAt a1 _)) _ (.writePlaces h)

theorem State.Canonical.enginePut {s : State} (h : s.Canonical) {c : CoreId} {x : Ctx} {m : CopyCmd} {own : Bool}
    {l : List (Nat × Byte × Byte)} {bad : List Nat} : (s.enginePut c x m own l bad).1.Canonical := by
  unfold State.enginePut
  dsimp only
  split
  · exact .writePlaces (.putPoison h)
  · refine .foldl_fst ?_ _ ?_
    · exact fun _ _ h1 => .post h1
    · exact .putPoison h

theorem State.Canonical.engineWrite {s t : State} (h : s.Canonical) {c : CoreId} {x : Ctx} {m : CopyCmd}
    {dev : Option Nat} {l : List (W × Byte × Byte)} {poison : List W} {ids : List Nat}
    (e : s.engineWrite c x m dev l poison = .ok (t, ids)) : t.Canonical := by
  unfold State.engineWrite at e
  dsimp only at e
  split at e
  · cases e
  · split at e
    · cases e
    · split at e <;> cases e
      refine .ite (.update (.foldl (fun u g hu => ?_) _ h.enginePut)) h.enginePut
      split
      · exact hu.writePlaces.putPoison
      · exact hu

theorem State.Canonical.copyStuck {s : State} (h : s.Canonical) {c : CoreId} {x : Ctx} {a : Reach} :
    (s.copyStuck c x a).Canonical := by
  unfold State.copyStuck
  split
  · exact .onRun h
  · exact .onRun h
  · exact h

theorem State.Canonical.copyErr {s : State} (h : s.Canonical) {c : CoreId} {x : Ctx} {n : Nat} :
    (s.copyErr c x n).Canonical :=
  .copyStuck h

theorem State.Canonical.copyPhase {s : State} (h : s.Canonical) {c : CoreId} {x : Ctx} {p : CopyPhase} :
    (s.copyPhase c x p).Canonical :=
  .onRun h

theorem State.Canonical.startCopy {s : State} (h : s.Canonical) {c : CoreId} {x : Ctx} :
    (s.startCopy c x).Canonical := by
  unfold State.startCopy
  split
  · exact h
  · exact .onCtx h

theorem State.Canonical.countCmp {s : State} (h : s.Canonical) {c : CoreId} {m : CopyCmd} {vas : List W} :
    (s.countCmp c m vas).Canonical :=
  .ite (.foldl (fun _ _ h1 => .onCore_frame h1 fun _ => by rfl) _ h) h

theorem State.Canonical.sourceCheck {s : State} (h : s.Canonical) {c : CoreId} {x : Ctx} {m : CopyCmd}
    {vas : List W} : (s.sourceCheck c x m vas).1.Canonical := by
  unfold State.sourceCheck
  dsimp only
  split
  · split
    · exact h
    · exact .retire h
    · exact .mismatch h
  · exact h

theorem State.Canonical.rowRequest {s : State} (h : s.Canonical) {c : CoreId} {x : Ctx} {r : CopyRun} {o : XOp} :
    (s.rowRequest c x r o).Canonical := by
  unfold State.rowRequest
  dsimp only
  split
  · split <;> exact h.copyStuck
  · split
    · exact h.copyErr
    · refine .ite h.onRun (.ite h ?_)
      split
      · exact h.copyStuck
      · exact h.engineRead ‹_›
      · split
        · exact .of_fst ‹_› h.sourceCheck
        · rename_i e
          replace h := State.Canonical.of_fst e h.sourceCheck
          split
          · refine .ite h.metRead.copyErr ?_
            split
            · exact .ite (.onRun (.ite h.countCmp.performRmw h.countCmp.performRmw.metPoison))
                (.ite h (.onRun h.countCmp.post))
            · exact h.copyStuck
          · split
            · exact h.copyStuck
            · exact .onRun (.metRead (.countCmp (h.engineWrite ‹_›)))

theorem State.Canonical.fopRequest {s : State} (h : s.Canonical) {c : CoreId} {x : Ctx} {r : CopyRun} {o : BitVec 3} :
    (s.fopRequest c x r o).Canonical := by
  unfold State.fopRequest
  dsimp only
  refine .ite h (.ite h.copyPhase ?_)
  split
  · exact h.copyStuck
  · exact h.engineRead ‹_›
  · refine .ite h.metRead.copyErr ?_
    split
    · exact .of_fst ‹_› h.sourceCheck
    · rename_i e
      replace h := State.Canonical.of_fst e h.sourceCheck
      split
      · exact .ite (.onRun (.ite h.countCmp.performRmw h.countCmp.performRmw.metPoison))
          (.ite h (.onRun h.countCmp.post))
      · exact h.copyStuck

theorem State.Canonical.prefRow {s : State} (h : s.Canonical) {c : CoreId} {x : Ctx} {r : CopyRun} :
    (s.prefRow c x r).Canonical := by
  unfold State.prefRow
  refine .onRun (.foldl (fun s1 a h1 => ?_) _ h)
  dsimp only
  split
  · exact h1
  · split
    · exact h1
    · exact .ite (.rangeFill h1) h1
    · split
      · exact .tlbFill h1
      · exact h1

theorem State.Canonical.onHalves {s : State} (h : s.Canonical) {c : CoreId} {m : CopyCmd} {f : Core → Core}
    (hf : ∀ y, (f y).scratch = y.scratch) : (s.onHalves c m f).Canonical :=
  .foldl (fun _ _ hu => hu.onCore_frame hf) _ h

theorem State.Canonical.decompStep {s : State} (h : s.Canonical) {c : CoreId} {x : Ctx} {r : CopyRun} :
    (s.decompStep c x r).Canonical := by
  unfold State.decompStep
  refine .ite h.copyPhase (.ite h.copyErr (.ite (h.onHalves fun _ => by rfl) (.ite h.onRun ?_)))
  split
  · exact h.copyStuck
  · exact h.engineRead ‹_›
  · dsimp only
    split
    · exact h.copyErr
    · refine .ite h.metRead.copyErr (.ite h.copyErr (.ite h.onRun ?_))
      split
      · exact h.copyStuck
      · exact h.engineRead ‹_›
      · refine .ite (.ite (h.metRead.copyErr.onHalves fun _ => by rfl) ?_)
          (.ite (.onRun (h.onHalves fun _ => by rfl)) ?_)
        · split
          · exact h.metRead.copyErr
          · exact h.metRead.copyErr.engineWrite ‹_›
        · split
          · exact h.copyStuck
          · exact .onRun (h.engineWrite ‹_›)

theorem State.Canonical.decompSteps {c : CoreId} {x : Ctx} {k : Nat} :
    ∀ {s : State} {r : CopyRun}, s.Canonical → (State.decompSteps k s c x r).Canonical := by
  induction k with
  | zero => exact fun h => h
  | succ k ih =>
    intro s r h
    unfold State.decompSteps
    dsimp only
    split
    · exact .ite h.decompStep (ih h.decompStep)
    · exact h.decompStep

theorem State.Canonical.kvputStep {s : State} (h : s.Canonical) {c : CoreId} {x : Ctx} {r : CopyRun} :
    (s.kvputStep c x r).Canonical := by
  unfold State.kvputStep
  refine .ite h.copyPhase (.ite h.copyStuck ?_)
  split
  · exact h.copyStuck
  · dsimp only
    split
    · exact h.copyStuck
    · exact h.engineRead ‹_›
    · split
      · exact .of_fst ‹_› h.sourceCheck
      · rename_i e
        replace h := State.Canonical.of_fst e h.sourceCheck
        exact .ite h.copyErr (.ite h h.enginePut.countCmp.metRead.onRun)

theorem State.Canonical.appendCheck {s : State} (h : s.Canonical) {c : CoreId} {x : Ctx} {m : CopyCmd} :
    (s.appendCheck c x m).1.Canonical := by
  unfold State.appendCheck
  dsimp only
  split
  · refine .foldl_fst ?_ _ ?_
    · refine fun p a h1 => ?_
      split
      · exact .ite (.countCmp (.sourceCheck h1)) (.sourceCheck h1)
      · exact h1
    · exact h
  · exact h

theorem State.Canonical.toManager {s : State} (h : s.Canonical) {c : CoreId} {x : Ctx} {m : CopyCmd} :
    (s.toManager c x m).Canonical := by
  unfold State.toManager
  split
  · exact .of_fst ‹_› h.appendCheck
  · exact .copyPhase (.update (.of_fst ‹_› h.appendCheck))

theorem State.Canonical.managerStop {s : State} (h : s.Canonical) {c : CoreId} {x : Ctx} {t : Trap} :
    (s.managerStop c x t).Canonical :=
  .onRun h

theorem Out.From.execPoolManagerRequest {s : State} : Out.From s (execPoolManagerRequest s) := by
  unfold Machine.execPoolManagerRequest
  split
  · exact .next id
  · dsimp only
    split
    · exact .next fun h => .update h
    · split
      · split
        · exact .next fun h => .managerStop (.update h)
        · exact .next fun h => .copyStuck (.update h)
        · split
          · exact .next fun h => .copyErr (.metPoison (.update h))
          · split
            · rename_i e
              exact .next fun h => .copyPhase (State.Canonical.kvAppend (.update h) e)
            · exact .next fun h => .managerStop (.update h)
      · split
        · rename_i e
          exact .next fun h => .copyPhase (State.Canonical.kvInv (.update h) e)
        · exact .next fun h => .managerStop (.update h)

theorem State.Canonical.kvFreed {s : State} (h : s.Canonical) {c : CoreId} {x : Ctx} {pages : List (Nat × Bool)} :
    (s.kvFreed c x pages).Canonical :=
  .ite (.copyPhase (.foldl (fun _ _ h1 => .kvReturn h1) _ h)) h

theorem State.Canonical.relaySend {s : State} (h : s.Canonical) {c : CoreId} {x : Ctx} {m : CopyCmd} {op : Nat}
    {k : FabPacket} : (s.relaySend c x m op k).Canonical :=
  .request (.onRun (.update h))

theorem State.Canonical.relayOpen {s : State} (h : s.Canonical) {c : CoreId} {x : Ctx} {m : CopyCmd} :
    (s.relayOpen c x m).Canonical :=
  .onRun (.relaySend h)

theorem State.Canonical.relayStep {s : State} (h : s.Canonical) {c : CoreId} {x : Ctx} {r : CopyRun} :
    (s.relayStep c x r).Canonical := by
  unfold State.relayStep
  dsimp only
  split
  · exact .copyPhase h
  · split
    · exact h
    · split
      · exact .copyStuck h
      · exact State.Canonical.engineRead h ‹_›
      · split
        · exact .of_fst ‹_› (.sourceCheck h)
        · split
          · exact .copyStuck (.of_fst ‹_› (.sourceCheck h))
          · split
            · exact .copyErr (.metRead (.countCmp (State.Canonical.engineWrite (.of_fst ‹_› (.sourceCheck h)) ‹_›)))
            · refine .onRun ?_
              split
              · exact .relaySend (.countCmp (State.Canonical.engineWrite (.of_fst ‹_› (.sourceCheck h)) ‹_›))
              · exact .countCmp (State.Canonical.engineWrite (.of_fst ‹_› (.sourceCheck h)) ‹_›)

theorem Out.From.execRelayData {s : State} : Out.From s (execRelayData s) := by
  unfold Machine.execRelayData
  dsimp only
  split
  · exact .next id
  · split
    · exact .next fun h => .endDrop h
    · split
      · exact .next fun h => .answerAck (.takePkt h)
      · split
        · split
          · exact .next fun h => .answerAck (.takePkt h)
          · split
            · exact .next id
            · split
              · exact .next fun h => .copyStuck h
              · refine .next fun h => .answerAck (.onRun ?_)
                split
                · refine .relaySend ?_
                  split
                  · exact .wdone (.writePlaces (.takePkt h))
                  · exact .writePlaces (.takePkt h)
                · split
                  · exact .wdone (.writePlaces (.takePkt h))
                  · exact .writePlaces (.takePkt h)
        · exact .next id

theorem Out.From.execRelayOpenRetry {s : State} : Out.From s (execRelayOpenRetry s) := by
  unfold Machine.execRelayOpenRetry
  dsimp only
  split
  · exact .ite (.next (fun h => .relayOpen h)) (.next id)
  · exact .next id

theorem Out.From.execRelayStallTimeout {s : State} : Out.From s (execRelayStallTimeout s) := by
  unfold Machine.execRelayStallTimeout
  dsimp only
  split
  · exact .ite (.next (fun h => .copyErr h)) (.next id)
  · exact .next id

end Sys2Proof.Machine
end

section
/-! # Recasts, migrations and the end of a command: what keeps the form -/

namespace Sys2Proof.Machine

theorem State.Canonical.rangeChanged {s : State} (h : s.Canonical) {p : PartId} {i : Nat} {r : Range} :
    (s.rangeChanged p i r).Canonical :=
  .dropRange (.dropTlb h)

theorem State.Canonical.splitRange {s t : State} (h : s.Canonical) {p : PartId} {i : Nat} {r : Range}
    {off len j : Nat}
    (e : s.splitRange p i r off len = some (t, j)) : t.Canonical := by
  unfold State.splitRange at e
  dsimp only at e
  split at e
  · cases e
  · obtain ⟨_, _, ht⟩ := Option.map_eq_some_iff.1 e
    cases ht
    exact h.onPart _ _

theorem State.Canonical.recastEnd {s : State} (h : s.Canonical) {c : CoreId} {x : Ctx} {h1 trap : Nat} :
    (s.recastEnd c x h1 trap).Canonical :=
  .onRun h

/-- A recast splits the range unless it covers the whole of it. -/
theorem State.Canonical.splitUnless {s t : State} (h : s.Canonical) {whole : Prop} [Decidable whole] {p : PartId}
    {i : Nat} {r : Range} {off len j : Nat}
    (e : (if whole then some (s, i) else s.splitRange p i r off len) = some (t, j)) : t.Canonical := by
  split at e
  · cases e
    exact h
  · exact h.splitRange e

theorem State.Canonical.recastBegin {s : State} (h : s.Canonical) {c : CoreId} {x : Ctx} {m : CopyCmd} :
    (s.recastBegin c x m).Canonical := by
  unfold State.recastBegin
  dsimp only
  split
  · exact h.copyStuck
  · refine .ite h.copyPhase (.ite h.copyErr
      (.ite h.recastEnd (.ite h.copyErr (.ite (.ite h.recastEnd h.copyPhase) ?_))))
    split
    · exact h.recastEnd
    · rename_i e
      refine .copyPhase (.dropRange (.rangeChanged (.onPart ?_ _ _)))
      exact h.splitUnless e

theorem Out.From.execRecastDrainEnd {s : State} : Out.From s (execRecastDrainEnd s) := by
  unfold Machine.execRecastDrainEnd
  dsimp only
  split
  · split
    · exact .next fun h => .copyPhase h
    · exact .ite (.next id) (.next (fun h => .copyPhase h))
  · exact .next id

theorem rewrite128_wf {m : Memory} (h : m.wf = true) (a p n : Nat) : (rewrite128 m a p n).1.wf = true := by
  have go : ∀ (l : List Nat) (st : Memory × Bool × Bool), st.1.wf = true → (l.foldl (fun st i =>
      let (v, ovf, nan) := toFx128 (st.1.num (a + 4 * i) 4) p
      (st.1.writeNum (a + 16 * i) 16
          (v.emod (2 ^ 128 : Nat)).toNat, st.2.1 || ovf, st.2.2 || nan)) st).1.wf = true := by
    intro l
    induction l with
    | nil => exact fun _ h => h
    | cons i l ih => exact fun _ h => ih _ (Memory.wf_writeNum h _ _ _)
  exact go _ _ h

theorem rewriteData_wf {m : Memory} (h : m.wf = true) (r : Range) (f a p : Nat) :
    (rewriteData m r f a p).1.wf = true := by
  unfold rewriteData
  split
  · exact rewrite32_wf h _ _ _
  · split
    · exact rewrite128_wf h _ _ _
    · exact h

theorem State.Canonical.peerReads {s : State} (h : s.Canonical) {c : CoreId} {x : Ctx} {r : Range} :
    (s.peerReads c x r).Canonical :=
  .foldl (fun _ _ h1 => .request (.onRun (.update h1))) _ h

theorem State.Canonical.peerWrites {s : State} (h : s.Canonical) {c : CoreId} {x : Ctx} {m : CopyCmd} {r : Range}
    {q : CopyRun} : (s.peerWrites c x m r q).Canonical :=
  .foldl (fun _ _ h1 => .request (.onRun (.update h1))) _ (.onRun h)

theorem State.Canonical.recastFlip {s : State} (h : s.Canonical) {c : CoreId} {x : Ctx} {m : CopyCmd} {j : Nat}
    {r : Range} {size : Nat} {ovf nan : Bool} : (s.recastFlip c x m j r size ovf nan).Canonical :=
  .recastEnd (.rangeChanged (.onPart h _ _))

theorem State.Canonical.recastFail {s : State} (h : s.Canonical) {c : CoreId} {x : Ctx} {j : Nat} {r : Range}
    {e : Nat} : (s.recastFail c x j r e).Canonical :=
  .copyErr (.onPart h _ _)

/-- A recast rewrites bytes of HBM, and copies them for a role that stands twice. -/
theorem Memory.wf_rewriteCopy {m : Memory} (h : m.wf = true) {r : Range} {f a p b n : Nat} {c : Prop} [Decidable c] :
    (if c then (rewriteData m r f a p).1.copyRange a b n else (rewriteData m r f a p).1).wf = true := by
  split
  · exact Memory.wf_copyRange (rewriteData_wf h _ _ _ _) _ _ _
  · exact rewriteData_wf h _ _ _ _

theorem Out.From.execRecastRewriteEnd {s : State} : Out.From s (execRecastRewriteEnd s) := by
  unfold Machine.execRecastRewriteEnd
  dsimp only
  split
  · split
    · exact .next fun h => h.copyPhase
    · split
      · split
        · split
          · exact .next fun h => h.recastFail
          · split
            · exact .next fun h => h.recastFlip
            · split
              · exact .next fun h => h.peerReads
              · split
                · exact .next id
                · split
                  · exact .ite (.next fun h => h.recastFail) (.next fun h => h.peerWrites)
                  · exact .next fun h => h.recastFlip
        · exact .next id
      · exact .next fun h => .recastFlip (h.onMem fun _ hm => Memory.wf_rewriteCopy hm)
  · exact .next id

theorem State.Canonical.setLeaf {s : State} (h : s.Canonical) {p : PartId} {off pte : Nat} :
    (s.setLeaf p off pte).Canonical :=
  .onMem h fun _ a => Memory.wf_foldl _ (fun _ _ a2 => Memory.wf_writeNum a2 _ _ _) _ a

theorem State.Canonical.refusedOp {s : State} (h : s.Canonical) : s.refusedOp.Canonical := .onTele h

theorem State.Canonical.beginMigration {s : State} (h : s.Canonical) {p : PartId} {off home dev pte size : Nat}
    {cmd : Option (CoreId × Ctx)} : Kept (s.beginMigration p off home dev pte size cmd) :=
  .ite .none (.some (.update (.onPart h.setLeaf _ _)))

theorem State.Canonical.migrBegin {s : State} (h : s.Canonical) {c : CoreId} {x : Ctx} {m : CopyCmd} :
    (s.migrBegin c x m).Canonical := by
  unfold State.migrBegin
  dsimp only
  split
  · exact .copyStuck h
  · split
    · exact .copyErr h
    · split
      · exact .copyStuck h
      · split
        · exact .copyErr h
        · split
          · exact h
          · split
            · split
              · exact .copyPhase h
              · split
                · exact .copyErr h
                · split
                  · exact .copyPhase (Kept.of_some (State.Canonical.beginMigration h) ‹_›)
                  · exact .copyErr (.refusedOp h)
            · split
              · exact .copyPhase h
              · split
                · exact .copyErr h
                · split
                  · exact .copyPhase (Kept.of_some (State.Canonical.beginMigration h) ‹_›)
                  · exact .copyErr (.refusedOp h)

theorem State.Canonical.getD_of_kept {o : Option State} {s : State} (ho : Kept o) (h : s.Canonical) :
    (o.getD s).Canonical := by
  cases o with
  | none => exact h
  | some t => exact ho t rfl

theorem Out.From.execMigrationPolicy {s : State} : Out.From s (execMigrationPolicy s) := by
  unfold Machine.execMigrationPolicy
  dsimp only
  split
  · exact .next id
  · exact .ite (.next id) (.next fun h => .getD_of_kept h.beginMigration h.refusedOp)

theorem State.Canonical.onMigration {s : State} (h : s.Canonical) {g : Migration} {f : Migration → Migration} :
    (s.onMigration g f).Canonical :=
  .update h

theorem Out.From.execMigrationPortsClosed {s : State} : Out.From s (execMigrationPortsClosed s) := by
  unfold Machine.execMigrationPortsClosed
  dsimp only
  split
  · exact .next id
  · split
    · exact .next id
    · split
      · split
        · exact .next fun h => .foldl (fun _ _ h1 => .request (.onRun (.update h1))) _ (.onMigration h)
        · split
          · exact .next fun h => .onMigration h
          · exact .next fun h => .foldl (fun _ _ h1 => .request (.onRun (.update h1))) _ (.onMigration h)
      · exact .next fun h => .onMigration h

theorem State.Canonical.pageMoved {s : State} (h : s.Canonical) {g : Migration} {pte : Nat}
    {known : List (W × Byte)} : (s.pageMoved g pte known).Canonical := by
  unfold State.pageMoved
  refine .update (.dropTlb (.setLeaf ?_))
  split
  · exact h
  · split
    · exact .onMem h fun _ a => Memory.wf_foldl _ (fun _ _ a2 => Memory.wf_write a2 _ _) _ a
    · exact .onMem h fun _ a => Memory.wf_copyRange a _ _ _

theorem State.Canonical.migrationFails {s : State} (h : s.Canonical) {g : Migration} {pte : Nat} :
    (s.migrationFails g pte).Canonical :=
  .update (.onPart (.setLeaf h) _ _)

theorem Out.From.execMigrationCopyDone {s : State} : Out.From s (execMigrationCopyDone s) := by
  unfold Machine.execMigrationCopyDone
  dsimp only
  split
  · exact .next id
  · split
    · exact .next id
    · split
      · exact .next fun h => .migrationFails h
      · split
        · exact .next id
        · split
          · split
            · refine .next fun h => .copyErr (.migrationFails ?_)
              exact .ite h (.refusedOp h)
            · refine .next fun h => .migrationFails ?_
              exact .ite h (.refusedOp h)
          · split
            · exact .next fun h => .copyPhase (.onRun (.pageMoved h))
            · exact .next fun h => .pageMoved h

theorem Out.From.execMovedCompletion {s : State} : Out.From s (execMovedCompletion s) := by
  unfold Machine.execMovedCompletion
  dsimp only
  split
  · exact .next id
  · split
    · exact .next id
    · split
      · exact .next id
      · exact .next fun h => .foldl (fun _ _ h1 => .enqueue h1) _ (.onCore_frame h fun _ => rfl)

theorem State.Canonical.copyStep {s : State} (h : s.Canonical) {c : CoreId} {x : Ctx} {r : CopyRun} :
    (s.copyStep c x r).Canonical := by
  unfold State.copyStep
  dsimp only
  split
  · split
    · exact .copyPhase h
    · split
      · exact .rowRequest h
      · exact .fopRequest h
      · exact .prefRow h
      · exact .decompSteps h
      · exact .kvputStep h
      · exact .toManager h
      · exact .toManager h
      · exact .relayStep h
      · exact .recastBegin h
      · exact .migrBegin h
      · exact .copyPhase h
  · exact .recastBegin h
  · exact .kvFreed h
  · exact .ite (.copyPhase h) (.ite (.relayOpen h) (.ite (.onRun h) h))
  · exact h

theorem Out.From.execCopyRequestIssue {s : State} : Out.From s (execCopyRequestIssue s) := by
  unfold Machine.execCopyRequestIssue
  dsimp only
  split
  · exact .next id
  · split
    · split
      · exact .next fun h => .onRun h
      · split
        · exact .next fun h => .copyStep h
        · exact .next fun h => .onCore_frame (.onRun (.copyStep h)) fun _ => by simp
    · split
      · exact .next fun h => .onRun h
      · split
        · exact .next fun h => .copyStep h
        · exact .next fun h => .onCore_frame (.onRun (.copyStep h)) fun _ => rfl

theorem State.Canonical.publish {s : State} (h : s.Canonical) {c : CoreId} {m : CopyCmd} :
    (s.publish c m).Canonical := by
  unfold State.publish
  exact .onMem h fun _ a => Memory.wf_writeNum a _ _ _

theorem Core.completeCmd_wf {y : Core} (hy : y.scratch.wf = true) {x : Ctx} {m : CopyCmd} {err : Option Nat}
    {fl : Flags} :
    (y.completeCmd x m err fl).scratch.wf = true := by
  unfold Core.completeCmd
  dsimp only
  split
  · exact Core.push_wf hy _ _
  · exact hy

theorem State.Canonical.takeBanksOn {s : State} (h : s.Canonical) {c : CoreId} {now : W} {unit : Nat}
    {offs : List Nat} :
    (s.onCore c (·.takeBanks now unit offs)).Canonical := h.onCore_frame fun _ => Core.takeBanks_scratch

theorem State.Canonical.completeOn {s : State} (h : s.Canonical) {c : CoreId} {x : Ctx} {m : CopyCmd}
    {err : Option Nat}
    {fl : Flags} : (s.onCore c fun y => y.completeCmd x m err fl).Canonical :=
  h.onCore c (Core.completeCmd_wf (h.2.1 c))

theorem Out.From.execCopyCommandComplete {s : State} : Out.From s (execCopyCommandComplete s) := by
  unfold Machine.execCopyCommandComplete
  dsimp only
  split
  · exact .next id
  · refine .ite (.next id) (.ite (.next fun h => .onRun h) ?_)
    split
    · exact .next fun h => .copyStuck h
    · rename_i e
      refine .next fun h => ?_
      have ht := h.engineWrite e
      refine .ite (.onCore_frame ?_ fun _ => rfl) ?_ <;>
        exact .foldl (fun _ _ hu => hu.completeOn.onCtx) _ (.onCtx
            (.completeOn (.ite ht.takeBanksOn.publish ht.takeBanksOn)))

theorem Out.From.execStreamReadDeliver {s : State} : Out.From s (execStreamReadDeliver s) := by
  unfold Machine.execStreamReadDeliver
  dsimp only
  split
  · exact .ite (.next id) (.ite (.next id) (.next (fun h => .copyPhase h)))
  · exact .next id

theorem Out.From.execStreamReadTimeout {s : State} : Out.From s (execStreamReadTimeout s) := by
  unfold Machine.execStreamReadTimeout
  dsimp only
  split
  · exact .ite (.next (fun h => .copyErr h)) (.next id)
  · exact .next id

theorem Out.From.execPromiseWrite {s : State} : Out.From s (execPromiseWrite s) := by
  unfold Machine.execPromiseWrite
  dsimp only
  split
  · split
    · exact .next fun h => .onCore_frame h fun _ => rfl
    · exact .next id
  · exact .next id

theorem Out.From.execSignatureVerifyEnd {s : State} : Out.From s (execSignatureVerifyEnd s) := by
  unfold Machine.execSignatureVerifyEnd
  dsimp only
  split
  · exact .next id
  · split
    · exact .next id
    · split
      · refine .next fun h => .onPart (.setStream ?_) _ _
        exact .ite h (.refusedOp h)
      · refine .next fun h => .onTele (.setStream ?_)
        exact .ite h (.refusedOp h)

end Sys2Proof.Machine
end

section
/-! # Traps, control registers and loading of images: what keeps the form -/

namespace Sys2Proof.Machine

theorem State.Canonical.stageTrap {s : State} (h : s.Canonical) {t : Trap} : (s.stageTrap t).Canonical :=
  .update (.trap h)

theorem State.Canonical.withSync {s : State} (h : s.Canonical) : s.withSync.Canonical := .update h

theorem State.Canonical.deliverTrap {s : State} (h : s.Canonical) {t : Trap} {forwarded : Bool} :
    (s.deliverTrap t forwarded).Canonical := by
  unfold State.deliverTrap
  refine .stageTrap ?_
  exact .ite h (.mapCore_frame h fun _ => rfl)

theorem State.Canonical.writeFabctl {s : State} (h : s.Canonical) {d : Die} {v : W} : (s.writeFabctl d v).Canonical :=
  .onFab h _ _

theorem State.Canonical.writeXbarwt {s : State} (h : s.Canonical) {d : Die} {v : W} : (s.writeXbarwt d v).Canonical :=
  .onXbar h _ _

theorem State.Canonical.writeSchedwt {s : State} (h : s.Canonical) {d : Die} {v : W} :
    (s.writeSchedwt d v).Canonical :=
  .onSched h _

theorem State.Canonical.writeXlatinv {s : State} (h : s.Canonical) {d : Die} {v : W} :
    (s.writeXlatinv d v).Canonical :=
  .ite h (.ite (.update h) (.update (.dropTlb h)))

theorem State.Canonical.writeRange {s : State} (h : s.Canonical) {p : PartId} {i : Nat} {r : Range} :
    (s.writeRange p i r).Canonical :=
  .onPart (.rangeChanged (.rangeChanged h)) _ _

theorem State.Canonical.writeKvgeom {s : State} (h : s.Canonical) {p : PartId} {v : W} :
    (s.writeKvgeom p v).Canonical := by
  unfold State.writeKvgeom
  dsimp only
  split
  · exact .onPart h _ _
  · split
    · exact .onPart h _ _
    · exact .onPart (.onMem h (fun _ a => Memory.wf_foldl _ (fun _ _ a2 => Memory.wf_writeNum a2 _ _ _) _ a)) _ _

theorem State.Canonical.writeKvqrel {s : State} (h : s.Canonical) {p : PartId} {v : W} :
    (s.writeKvqrel p v).Canonical :=
  .ite (.kvReturn (.onPart h _ _)) h

theorem State.Canonical.kvWrite {s : State} (h : s.Canonical) {p : PartId} {o : Nat} {v : W} :
    (s.kvWrite p o v).Canonical := by
  unfold State.kvWrite
  split
  · exact .writeKvgeom h
  · exact .onPart h _ _
  · exact .onPart h _ _
  · exact .onPart h _ _
  · exact .onPart h _ _
  · exact .onPart h _ _
  · exact .onPart h _ _
  · exact .onPart h _ _
  · exact .writeKvqrel h
  · exact h

theorem State.Canonical.partWrite {s : State} (h : s.Canonical) {p : PartId} {r : Nat} {v : W} :
    (s.partWrite p r v).Canonical := by
  unfold State.partWrite
  dsimp only
  split
  · exact .onPart h _ _
  · exact .onPart h _ _
  · exact .onPart h _ _
  · exact .onPart h _ _
  · exact .ite (.onPart h _ _) h
  · exact .ite (.kvWrite h) h

theorem State.Canonical.clearRooms {s : State} (h : s.Canonical) {old : CoreId → Option PartId} :
    (s.clearRooms old).Canonical :=
  h.onCores _ fun _ _ => Memory.empty_wf

theorem State.Canonical.regWrite {s : State} (h : s.Canonical) {pa : Nat} {v : W} : (s.regWrite pa v).Canonical := by
  unfold State.regWrite
  refine .ite (.clearRooms (.update h)) (.ite ?_ (.ite h.partWrite (.ite h.writeRange h)))
  split
  · exact h.writeFabctl
  · exact h.writeSchedwt
  · exact h.writeXbarwt
  · exact h.writeXlatinv
  · exact h

theorem State.Canonical.ctlStore {s : State} (h : s.Canonical) {l : List (Nat × Byte × Byte)} :
    (s.ctlStore l).Canonical :=
  .foldl (fun _ _ h1 => .regWrite h1) _ h

theorem Out.From.execPageWalkDone {s : State} : Out.From s (execPageWalkDone s) := by
  unfold Machine.execPageWalkDone
  split
  · exact .next id
  · split
    · exact .next fun h => .tlbFill (.update h)
    · exact .next fun h => .update h

theorem Out.From.execBoot {s : State} : Out.From s (execBoot s) :=
  .next fun h => .onFab (.onFab (.update h) _ _) _ _

theorem State.Canonical.throttle {s : State} (h : s.Canonical) {l : List PartId} : (s.throttle l).Canonical :=
  .update h

theorem Out.From.execHbmRowRepair {s : State} : Out.From s (execHbmRowRepair s) :=
  .ite (.next id) (.next (fun h => .onTele (.update h)))

theorem Out.From.execCorrectableError {s : State} : Out.From s (execCorrectableError s) := by
  unfold Machine.execCorrectableError
  dsimp only
  split
  · exact .next fun h => .onTele h
  · exact .next fun h => .onXbar (.onXbar (.onCores_frame (.onTele h) fun _ => by rfl) _ _) _ _

theorem Out.From.execFreezeEnd {s : State} : Out.From s (execFreezeEnd s) := by
  unfold Machine.execFreezeEnd
  refine .next fun h => .onCore_frame h fun x => ?_
  split <;> rfl

/-- A state keeps the form when its satchels are replaced by others that have it. -/
theorem State.Canonical.withSatchels {s : State} (h : s.Canonical) {l : List Satchel}
    (hl : ∀ k ∈ l, k.ctx.scratch.wf = true) : State.Canonical { s with satchels := l } := ⟨h.1, h.2.1, hl⟩

theorem State.Canonical.mapSatchels {s : State} (h : s.Canonical) {f : Satchel → Satchel}
    (hf : ∀ k, (f k).ctx.scratch = k.ctx.scratch) : State.Canonical { s with satchels := s.satchels.map f } :=
  h.withSatchels (List.forall_mem_map.2 fun k hk => by rw [hf]; exact h.2.2 k hk)

theorem Out.From.execWordPoisoned {s : State} : Out.From s (execWordPoisoned s) := by
  unfold Machine.execWordPoisoned
  refine .next fun h => ?_
  dsimp only
  split
  · exact .update (h.onTele.onMem fun _ hm => Memory.wf_poisonAt hm _)
  · exact h.onTele.onCore _ (Memory.wf_poisonAt (h.2.1 _) _)
  · exact h.onTele.onCore_frame fun _ => rfl
  · exact h.onTele.onCore_frame fun _ => rfl
  · refine h.onTele.mapSatchels fun k => ?_
    split <;> rfl
  · exact h.onTele.onCore_frame fun _ => rfl

theorem State.Canonical.mailboxEnd {s : State} (h : s.Canonical) {ok : Bool} {f : Firmware → Firmware} :
    (s.mailboxEnd ok f).Canonical := by
  unfold State.mailboxEnd
  refine .update ?_
  exact .ite (.update h) h

theorem State.Canonical.keyCommand {s : State} (h : s.Canonical) {ok : Bool} {f : Firmware → Firmware} :
    (s.keyCommand ok f).Canonical :=
  .ite (.mailboxEnd (.refusedOp h)) (.mailboxEnd h)

theorem Out.From.execRevoke {s : State} : Out.From s (execRevoke s) := by
  unfold Machine.execRevoke
  refine .next fun h => ?_
  exact .ite (.update (.keyCommand h)) (.keyCommand h)

theorem State.Canonical.loadExtent {s : State} (h : s.Canonical) {p : PartId} {e : ExtentRec} {q : ExtentPlace}
    {r : Range} : (s.loadExtent p e q r).Canonical := by
  unfold State.loadExtent
  dsimp only
  split
  · exact .writeRange h
  · split
    · exact .onMem (.onMem (.writeRange h)
        (fun _ a => Memory.wf_writeBytes _ _ (Memory.wf_zeroRange a _ _))) fun _ a => Memory.wf_writeBytes _ _
            (Memory.wf_zeroRange a _ _)
    · exact .onMem (.writeRange h) fun _ a => Memory.wf_writeBytes _ _ (Memory.wf_zeroRange a _ _)

theorem Out.From.execGraphLoad {s : State} : Out.From s (execGraphLoad s) := by
  unfold Machine.execGraphLoad
  dsimp only
  split
  · exact .next id
  · split
    · exact .next id
    · refine .next fun h => .onSched ?_ _
      split
      · exact .writeKvgeom (.onPart (.foldl (fun _ _ h1 => .loadExtent h1) _ h) _ _)
      · exact .foldl (fun _ _ h1 => .loadExtent h1) _ h

end Sys2Proof.Machine
end

section
/-! # The scheduler: what keeps the form -/

namespace Sys2Proof.Machine

theorem State.Canonical.schedFail {s : State} (h : s.Canonical) {id code reason : Nat} {info : W} :
    (s.schedFail id code reason info).Canonical := by
  unfold State.schedFail
  split
  · exact h
  · exact .failChain (.releaseCores h)

theorem Out.From.execRecordStart {s : State} : Out.From s (execRecordStart s) := by
  unfold Machine.execRecordStart
  dsimp only
  split
  · exact .next id
  · split
    · exact .next id
    · split
      · exact .next id
      · refine .next fun h => ?_
        split
        · refine .endRecord (.onSched
            (.foldl (fun s1 a h1 => ?_) _ (.foldl (fun s1 a h1 => ?_) _ (.onSched (.onQueue h) _))) _)
          · exact .ite (.makeReady h1) h1
          · exact .ite (.schedFail h1) h1
        · refine .foldl (fun s1 a h1 => ?_) _ (.foldl (fun s1 a h1 => ?_) _ (.onSched (.onQueue h) _))
          · exact .ite (.makeReady h1) h1
          · exact .ite (.schedFail h1) h1

theorem State.Canonical.place {s : State} (h : s.Canonical) {i : Inst} {n : NodeDesc} {first : Nat} :
    (s.place i n first).Canonical := by
  unfold State.place
  dsimp only
  split
  · exact .foldl (fun _ _ h1 => .foldl (fun _ _ h2 => .onCore_frame h2 fun _ => by rfl) _ h1) _ h
  · split
    · exact .onSched (.foldl (fun _ _ h1 => .foldl (fun _ _ h2 => .onCore_frame h2 fun _ => by rfl) _ h1) _ h) _
    · split
      · exact .foldl (fun _ _ h1 => .foldl (fun _ _ h2 => .onCore_frame h2 fun _ => by rfl) _ h1) _ h
      · exact .onInst (.onSched
          (.foldl (fun _ _ h1 => .foldl (fun _ _ h2 => .onCore_frame h2 fun _ => by rfl) _ h1) _ h) _)

theorem State.Canonical.dispatch {s : State} (h : s.Canonical) {i : Inst} {n : NodeDesc} {first : Nat} :
    (s.dispatch i n first).Canonical := by
  unfold State.dispatch
  refine .onSched (.onInst (.leavePool (.place ?_))) _
  exact .ite h (.onSched (.takeFree h) _)

theorem Out.From.execDispatchDecision {s : State} : Out.From s (execDispatchDecision s) := by
  unfold Machine.execDispatchDecision
  dsimp only
  split
  · exact .next id
  · split
    · exact .next fun h => .schedFail (.onSched (.fillPool h) _)
    · split
      · exact .next fun h => .fillPool h
      · refine .next fun h => ?_
        split
        · exact .onSched (.onSched (.fillPool h) _) _
        · split
          · exact .onSched (.onSched (.fillPool h) _) _
          · exact .dispatch (.onSched (.onSched (.fillPool h) _) _)

theorem Out.From.execFreeCoreSummary {s : State} : Out.From s (execFreeCoreSummary s) :=
  .ite (.next id) (.next (fun h => .onSched h _))

theorem Out.From.execPoolMove {s : State} : Out.From s (execPoolMove s) := by
  unfold Machine.execPoolMove
  split
  · exact .next id
  · split
    · exact .next id
    · exact .ite (.next (fun h => .onInst (.leavePool h))) (.next id)

theorem Out.From.execPlacementReserve {s : State} : Out.From s (execPlacementReserve s) := by
  unfold Machine.execPlacementReserve
  split
  · exact .next id
  · split
    · exact .next id
    · dsimp only
      split
      · exact .next id
      · split
        · exact .next id
        · exact .next fun h => .onSched h _

theorem State.startedCore_wf {s : State} (h : s.Canonical) {i : Inst} {n : NodeDesc} {g : Graph} {c : CoreId} :
    (s.startedCore i n g c).scratch.wf = true := by
  have hm : Memory.wf (match i.saved with
      | some v => let (l, bad) := v.scratch.getD (s.coreAt c).node.seat ([], []);
          (s.coreAt c).restoreKept n.keepmap l bad
      | none => (s.coreAt c).scratch) = true := by
    split
    · exact Core.restoreKept_wf (h.2.1 c) _ _ _
    · exact h.2.1 c
  exact Memory.wf_filterPoison (Memory.wf_writeBytes _ _ hm) hm _

theorem State.Canonical.startCores {s : State} (h : s.Canonical) {i : Inst} {n : NodeDesc} {g : Graph} :
    (s.startCores i n g).Canonical := by
  unfold State.startCores
  exact .onCores_frame (.foldl (fun _ c hu => hu.setCoreAt c (State.startedCore_wf hu)) _ h) fun _ => rfl

theorem Out.From.execNodeStart {s : State} : Out.From s (execNodeStart s) := by
  unfold Machine.execNodeStart
  split
  · exact .next id
  · split
    · split
      · exact .next id
      · split
        · exact .next fun h => .schedFail h
        · exact .next fun h => .onInst (.startCores h)
    · exact .next id

@[simp] theorem Core.takeStatus_scratch {t : TaskReq} {v : W} {x : Core} :
    (x.takeStatus t v).scratch = x.scratch := by
  unfold Core.takeStatus
  split
  · rfl
  · split
    · rfl
    · split <;> rfl

theorem State.Canonical.taskStatus {s : State} (h : s.Canonical) {t : TaskReq} {v : W} :
    (s.taskStatus t v).Canonical := by
  unfold State.taskStatus
  refine .mapSatchels (.onInst (.onCores_frame h fun _ => Core.takeStatus_scratch)) fun k => ?_
  exact Core.takeStatus_scratch

theorem Out.From.execTaskPoolInsert {s : State} : Out.From s (execTaskPoolInsert s) := by
  unfold Machine.execTaskPoolInsert
  split
  · exact .next id
  · split
    · exact .next id
    · dsimp only
      split
      · exact .next fun h => .taskStatus (.onSched h _)
      · split
        · exact .next fun h => .taskStatus (.onSched h _)
        · split
          · exact .next fun h => .finishRecord (.taskStatus (.onSched h _))
          · refine .next fun h => ?_
            split
            · exact .schedFail (.taskStatus (.makeReady (.onSched (.onSched h _) _)))
            · exact .taskStatus (.makeReady (.onSched (.onSched h _) _))

theorem Core.wf_ite {c : Prop} [Decidable c] {x y : Core} (hx : x.scratch.wf = true) (hy : y.scratch.wf = true) :
    (if c then x else y).scratch.wf = true := by
  split
  · exact hx
  · exact hy

theorem State.Canonical.rollCall {s : State} (h : s.Canonical) {e : BitVec 8} {l : List CoreId} {swap : Bool} :
    (s.rollCall e l swap).Canonical := by
  unfold State.rollCall
  refine .foldl (fun _ _ hu => hu.makeReady) _ (.onCores (.setRels (.onSched h _)) _ fun x hx => ?_)
  have swapped : (if swap then x.swapBanks else x).scratch.wf = true := Core.wf_ite (Core.swapBanks_wf hx) hx
  exact Core.wf_ite swapped swapped

theorem Out.From.execRollCallComplete {s : State} : Out.From s (execRollCallComplete s) := by
  unfold Machine.execRollCallComplete
  dsimp only
  split
  · exact .next id
  · exact .ite (.next id) (.next (fun h => .rollCall h))

end Sys2Proof.Machine
end

section
/-! # Faults, swaps and dumps: what keeps the form -/

namespace Sys2Proof.Machine

theorem Out.From.execTrapEntry {s : State} : Out.From s (execTrapEntry s) := by
  unfold Machine.execTrapEntry
  dsimp only
  split
  · exact .next fun h => .update h
  · split
    · exact .next fun h => .update h
    · exact .next fun h => .deliverTrap (.update h)

theorem Out.From.execStampOverrun {s : State} : Out.From s (execStampOverrun s) := by
  unfold Machine.execStampOverrun
  dsimp only
  split
  · exact .next fun h => .withSync (.update h)
  · split
    · exact .next fun h => .withSync (.update h)
    · split
      · exact .next fun h => .withSync (.update h)
      · split
        · exact .next fun h => .stageTrap (.withSync (.update h))
        · exact .next fun h => .withSync (.update h)

theorem Out.From.execProducerFill {s : State} : Out.From s (execProducerFill s) := by
  unfold Machine.execProducerFill
  dsimp only
  split
  · exact .next fun h => .update h
  · split
    · exact .next fun h => .update h
    · split
      · split
        · exact .next fun h => .update h
        · exact .next fun h => .mapCore_frame (.update h) fun _ => by rfl
      · split
        · split
          · exact .next fun h => .update h
          · refine .next fun h => ?_
            split
            · exact .forward (.mapCore_frame (.update h) fun _ => by rfl)
            · exact .mapCore_frame (.update h) fun _ => by rfl
        · exact .next fun h => .update h
      · exact .next fun h => .update h

theorem Out.From.execTsUpdateArrive {s : State} : Out.From s (execTsUpdateArrive s) := by
  unfold Machine.execTsUpdateArrive
  dsimp only
  split
  · exact .next id
  · exact .ite (.next id) (.next (fun h => .onCore_frame h fun _ => rfl))

theorem Out.From.execSlackStallRelease {s : State} : Out.From s (execSlackStallRelease s) := by
  unfold Machine.execSlackStallRelease
  refine .next fun h => .onCore_frame h fun x => ?_
  split <;> rfl

theorem Out.From.execHalfRetentionEntry {s : State} : Out.From s (execHalfRetentionEntry s) := by
  unfold Machine.execHalfRetentionEntry
  refine .next fun h => .onCore_frame h fun x => ?_
  dsimp only
  split <;> rfl

theorem Satchel.stay_ctx {now : W} (k : Satchel) : (k.stay now).ctx = k.ctx := by
  unfold Satchel.stay
  split <;> rfl

theorem State.Canonical.swapOut {s : State} (h : s.Canonical) {p : PartId} : (s.swapOut p).Canonical := by
  unfold State.swapOut
  refine .ite h (.onPart (.onCores_frame ?_ Core.halt_scratch) _ _)
  exact .mapSatchels (s := { s with ms := _ }) (.update h) fun k => by
    split
    · exact congrArg Core.scratch k.stay_ctx
    · rfl

theorem Out.From.execThermalShutdown {s : State} : Out.From s (execThermalShutdown s) := by
  unfold Machine.execThermalShutdown
  generalize List.finRange 8 = l
  exact .next fun h => .update (.foldl (fun _ _ hu => hu.swapOut) l h)

theorem Out.From.execWatchdogExpiry {s : State} : Out.From s (execWatchdogExpiry s) := by
  unfold Machine.execWatchdogExpiry
  split
  · exact .next id
  · exact .ite (.next id) (.next (fun h => .swapOut (.onInst h)))

theorem State.Canonical.expire {s : State} (h : s.Canonical) {i : Inst} : (s.expire i).Canonical := .failChain h

theorem State.Canonical.returnPart {s : State} (h : s.Canonical) {p : PartId} : (s.returnPart p).Canonical :=
  .mapSatchels (.onPart h _ _) fun _ => by split <;> rfl

theorem Out.From.execSwapQuiesceEnd {s : State} : Out.From s (execSwapQuiesceEnd s) := by
  unfold Machine.execSwapQuiesceEnd
  refine .ite (.next id) ?_
  have saved : s.Canonical → State.Canonical { s with satchels := s.satchels ++ (s.runCores s.inp.part).map fun c =>
      (⟨c, s.inp.part, (s.coreAt c).context, [], s.cyc + 2560, false⟩ : Satchel) } := fun h =>
    h.withSatchels (List.forall_mem_append.2 ⟨h.2.2, List.forall_mem_map.2 fun c _ => Core.context_wf (h.2.1 c)⟩)
  dsimp only
  split
  · exact .next fun h => .onCores_frame (saved h) fun _ => by rfl
  · exact .next fun h => .returnPart (.foldl (fun _ _ hu => hu.expire) _ (.onCores_frame (saved h) fun _ => by rfl))

theorem State.Canonical.filterSatchels {s : State} (h : s.Canonical) {p : Satchel → Bool} :
    State.Canonical { s with satchels := s.satchels.filter p } :=
  h.withSatchels fun k hk => h.2.2 k (List.mem_of_mem_filter hk)

theorem State.Canonical.resumeNode {s : State} (h : s.Canonical) {i : Inst} {n : NodeDesc} {first : Nat}
    {l : List Satchel} (hl : ∀ k ∈ l, k.ctx.scratch.wf = true) : (s.resumeNode i n first l).Canonical := by
  unfold State.resumeNode
  have moved : State.Canonical (l.foldl (fun s t =>
      let c := replicaCore t.ctx.node.replica (toCore (first + t.ctx.node.seat))
      (s.onFab .e (·.moveRelays t c)).onFab .w (·.moveRelays t c))
      { s with satchels := s.satchels.filter fun t => !l.contains t }) :=
    .foldl (fun _ _ hu => .onFab (.onFab hu _ _) _ _) l
      h.filterSatchels
  have seated := List.foldlRecOn (motive := State.Canonical) l (fun s t =>
      let lead := toCore (first + t.ctx.node.seat)
      let c := replicaCore t.ctx.node.replica lead
      s.setCoreAt c (s.resumedCore i.vf t.ctx c lead)) moved fun _ hu k hk => hu.setCoreAt _ (hl k hk)
  dsimp only at moved seated ⊢
  split
  · split
    · exact .onSched (.onInst seated) _
    · exact .onInst seated
  · split
    · exact .update (.failNode (.update (.onCore_frame (.onSched (.onInst seated) _) fun _ => by rfl)))
    · exact .update (.failNode (.update (.onCore_frame (.onInst seated) fun _ => by rfl)))

theorem State.Canonical.resumeAll {s : State} (h : s.Canonical) {p : PartId} : (s.resumeAll p).Canonical := by
  unfold State.resumeAll
  refine .foldl (fun u i hu => ?_) _ h
  dsimp only
  split
  · split
    · exact hu
    · split
      · exact hu
      · exact hu.resumeNode fun k hk => hu.2.2 k (List.mem_of_mem_filter hk)
  · exact hu

theorem Out.From.execSwapResume {s : State} : Out.From s (execSwapResume s) :=
  .ite (.next id) (.next (fun h => .resumeAll (.returnPart h)))

theorem Memory.wf_ite {c : Prop} [Decidable c] {m k : Memory} (hm : m.wf = true) (hk : k.wf = true) :
    (if c then m else k).wf = true := by
  split
  · exact hm
  · exact hk

theorem State.Canonical.writeDump {s : State} (h : s.Canonical) {p : PartId} {i : Inst} {ncore : Nat} :
    (s.writeDump p i ncore).Canonical := by
  unfold State.writeDump
  refine .takeFree (.onMem h fun m hm => ?_)
  refine Memory.wf_ite (Memory.wf_writeBytes _ _ ?_) ?_ <;>
    exact Memory.wf_foldl _ (fun _ _ g => Memory.wf_writeBytes _ _ g) _
      (Memory.wf_writeBytes _ _ (Memory.wf_writeBytes _ _ hm))

/-- A dump is written, or finds its address outside HBM and HEATH: no other event can fault. -/
theorem execDumpWritten_cases (s : State) : Out.From s (execDumpWritten s) ∨
    execDumpWritten s = .fault (.hole (s.partAt s.inp.part).dumpbase.toNat) ∧
      paInHbm (s.partAt s.inp.part).dumpbase.toNat = false ∧ paInHeath
          (s.partAt s.inp.part).dumpbase.toNat = false := by
  unfold execDumpWritten
  dsimp only
  split
  · exact .inl (.next id)
  · split
    · rename_i hmap
      simp only [Bool.not_eq_true', Bool.or_eq_false_iff] at hmap
      exact .inr ⟨rfl, hmap⟩
    · refine .inl (.next fun h => .foldl (fun _ _ hu => hu.releaseCores) _ ?_)
      exact .filterSatchels (.onSched (.ite h (.onPart h.writeDump _ _)) _)

end Sys2Proof.Machine
end

section
/-! # Vector operations: what keeps the form -/

namespace Sys2Proof.Machine

theorem Out.From.arith {s : State} {i : Instr} {op : VOp} {d a b c : BitVec 6} {z : Bool} :
    Out.From s (arith i op d a b c z s) := by
  unfold Machine.arith
  exact .vRun

theorem Out.From.vcmp {s : State} {i : Instr} {op : VCmp} {k : BitVec 3} {a b : Src} :
    Out.From s (vcmp i op k a b s) :=
  .vRun

theorem Out.From.pairRun {s : State} {i : Instr} {src : List (BitVec 6)} {ok : Nat → Bool} {body : State → State}
    (hb : ∀ u, u.Canonical → (body u).Canonical) : Out.From s (pairRun i src ok body s) :=
  .withReady fun _ => .ite .axisCollision (.ite .illegalOp (.next fun h => .ite (hb _ h) h))

theorem Out.From.execVWiden {s : State} {d : BitVec 6} {a : Src} {q : Bool} {f : BitVec 5} {z : Bool} :
    Out.From s (execVWiden d a q f z s) := by
  unfold Machine.execVWiden
  exact .pairRun fun _ hu => .foldl (fun _ _ h => .orFlags (.mapRegs h _)) _ hu

theorem Out.From.execVNarrow {s : State} {d : BitVec 6} {a : Src} {q : Bool} {f : BitVec 5} {z : Bool} :
    Out.From s (execVNarrow d a q f z s) := by
  unfold Machine.execVNarrow
  exact .pairRun fun _ hu => .orFlags (.mapRegs hu _)

theorem Out.From.fmtRun {s : State} {i : Instr} {l : List Nat} {d : BitVec 6} {a : Src} {z : Bool}
    {g : VEnv → VReg → VReg → VReg × Flags} : Out.From s (fmtRun i l d a z g s) := by
  unfold Machine.fmtRun
  refine .withReady fun s1 => ?_
  exact .ite .illegalOp .vRun

theorem Out.From.execVSetfmt {s : State} {a : Src} : Out.From s (execVSetfmt a s) :=
  .withReady fun _ => .untagged (.next (fun h => .mapCsr h _))

theorem Out.From.vred {s : State} {i : Instr} {op : VRed} {d : BitVec 6} {a : Src} {z : Bool} :
    Out.From s (vred i op d a z s) :=
  .vRun

theorem Out.From.vsfu {s : State} {i : Instr} {op : Sfu} {d : BitVec 6} {a : Src} {z : Bool} :
    Out.From s (vsfu i op d a z s) :=
  .vRun

theorem Out.From.execVRda {s : State} {d : BitVec 6} {a : Src} {n : BitVec 3} {z : Bool} :
    Out.From s (execVRda d a n z s) := by
  unfold Machine.execVRda
  refine .withReady fun s1 => ?_
  exact .ite .illegalOp (.ite .hold .vRun)

theorem Out.From.accWrite {s : State} {i : Instr} {d : BitVec 6} {a : Src} {n : BitVec 3}
    {g : VEnv → VReg → VReg → VReg × Flags} : Out.From s (accWrite i d a n g s) := by
  unfold Machine.accWrite
  refine .withReady fun s1 => ?_
  dsimp only
  split
  · exact .illegalOp
  · split
    · exact .axisCollision
    · split
      · exact .axisOverflow
      · split
        · exact .hold
        · exact .next fun h => .overMembers h (fun _ _ h1 => .orFlags
            (.mapCore_frame h1 fun _ => by rfl)) fun _ _ h1 => h1

theorem Out.From.execVQpop {s : State} {d : BitVec 6} {q : BitVec 4} {z : Bool} : Out.From s (execVQpop d q z s) := by
  unfold Machine.execVQpop
  refine .withReady fun _ => .onQueueOp (.readEntry fun u => ?_)
  split
  · exact .axisOverflow
  · exact .next fun h => .mapRegs (.mapCore_frame h fun _ => by rfl) _

theorem Out.From.execVQpush {s : State} {q : BitVec 4} {a : Src} : Out.From s (execVQpush q a s) := by
  unfold Machine.execVQpush
  refine .withReady fun s1 => .onQueueOp ?_
  dsimp only
  split
  · exact .axisOverflow
  · exact .pushAll

theorem Out.From.kRun {s : State} {i : Instr} {cls : List VClass} {ks : List (BitVec 3)} {d : Opd}
    {g : Nat → Bool → List KReg → VReg} : Out.From s (kRun i cls ks d g s) := by
  unfold Machine.kRun
  refine .withReady fun s1 => ?_
  dsimp only
  split
  · exact .illegalOp
  · split
    · exact .axisOverflow
    · exact .next fun h => .overMembers h (fun _ _ h1 => .mapRegs h1 _) fun _ _ h1 => .mapRegs h1 _

theorem Out.From.execVLred {s : State} {d : BitVec 6} {a : Src} {k : BitVec 3} {t : BitVec 2} {z : Bool} :
    Out.From s (execVLred d a k t z s) := by
  unfold Machine.execVLred
  refine .withReady fun s1 => ?_
  dsimp only
  split
  · exact .illegalOp
  · split
    · exact .axisOverflow
    · exact .next fun h => .overMembers h (fun _ _ h1 => .orFlags (.mapRegs h1 _)) fun _ _ h1 => .mapRegs h1 _

theorem Out.From.execVLpick {s : State} {d : BitVec 6} {a b : Src} {z : Bool} :
    Out.From s (execVLpick d a b z s) := by
  unfold Machine.execVLpick
  refine .withReady fun s1 => ?_
  dsimp only
  split
  · exact .axisCollision
  · split
    · exact .axisOverflow
    · split
      · exact .axisOverflow
      · exact .next fun h => .overMembers h (fun _ _ h1 => .mapRegs h1 _) fun _ _ h1 => .mapRegs h1 _

theorem Out.From.execVLbcast {s : State} {d : BitVec 6} {a : Src} {t : BitVec 2} {z : Bool} :
    Out.From s (execVLbcast d a t z s) := by
  unfold Machine.execVLbcast
  refine .withReady fun s1 => ?_
  dsimp only
  split
  · exact .axisOverflow
  · split
    · exact .axisOverflow
    · exact .next fun h => .overMembers h (fun _ _ h1 => .mapRegs h1 _) fun _ _ h1 => .mapRegs h1 _

end Sys2Proof.Machine
end

section
/-! # Matrix operations and time: what keeps the form -/

namespace Sys2Proof.Machine

theorem State.Canonical.foldParams {s : State} (h : s.Canonical) : s.foldParams.Canonical := .foldSig h

theorem Out.From.execMSetp {s : State} {p : BitVec 3} {a : BitVec 6} : Out.From s (execMSetp p a s) := by
  unfold Machine.execMSetp
  refine .withReady fun s1 => ?_
  dsimp only
  split
  · exact .axisOverflow
  · exact .next fun h => .foldParams (.mapCore_frame
      (.overMembers h (fun _ _ h1 => .mapRegs h1 _) (fun _ _ h1 => .mapRegs h1 _)) fun _ => rfl)

theorem Out.From.execMGetp {s : State} {p : BitVec 3} {d : BitVec 6} : Out.From s (execMGetp p d s) := by
  unfold Machine.execMGetp
  refine .withReady fun s1 => ?_
  dsimp only
  split
  · exact .axisOverflow
  · exact .next fun h => .overMembers h (fun _ _ h1 => .mapCore_frame h1 fun _ => rfl) fun _ _ h1 => .mapRegs h1 _

theorem State.Canonical.issueTm {s : State} (h : s.Canonical) {op : MOp} {prof : Nat}
    {pm : Nat → W × Option (Fin 8)} : (s.issueTm op prof pm).Canonical :=
  .mapCore_frame h fun _ => rfl

theorem Out.From.callOp {s : State} {i : Instr} {c : CallFields} {gang : Bool} : Out.From s (callOp i c gang s) := by
  unfold Machine.callOp
  refine .withReady fun s1 => ?_
  dsimp only
  split
  · exact .illegalOp
  · split
    · exact .hold
    · split
      · exact .ite .illegalOp (.next (fun h => .foldl (fun _ _ h1 => .issueTm h1) _ (.takeLock h)))
      · split
        · exact .illegalOp
        · exact .next fun h => .foldl (fun _ _ h1 => .foldParams (.issueTm h1)) _ (.takeLock h)

theorem Out.From.execMZacc {s : State} {b : BitVec 3} : Out.From s (execMZacc b s) := by
  unfold Machine.execMZacc
  refine .withReady fun s1 => ?_
  exact .ite .hold (.next (fun h => .issueTm (.takeLock h)))

theorem Out.From.execMUld {s : State} {b : BitVec 3} {a : BitVec 6} {f : BitVec 5} :
    Out.From s (execMUld b a f s) := by
  unfold Machine.execMUld
  refine .withReady fun s1 => ?_
  dsimp only
  split
  · exact .axisCollision
  · split
    · exact .illegalOp
    · exact .ite .illegalOp (.ite .raise (.ite .hold (.next (fun h => .issueTm (.takeLock h)))))

theorem Core.zeroBank_scratch {x : Core} {b : BitVec 3} : (x.zeroBank b).scratch = x.scratch :=
  Core.foldl_scratch (by intro _ _; rfl) _ _

@[simp] theorem Core.startCall_scratch {x : Core} {m : MCmd} {k : CallFields} {now : W} :
    (x.startCall m k now).scratch = x.scratch := by
  unfold Core.startCall
  dsimp only
  split
  · exact Core.zeroBank_scratch
  · rfl

theorem Out.From.execMatrixCallStart {s : State} : Out.From s (execMatrixCallStart s) := by
  unfold Machine.execMatrixCallStart
  dsimp only
  split
  · exact .next id
  · refine .ite (.next fun h => .onCore_frame h fun _ => Core.startCall_scratch) (.ite (.next fun h => ?_) (.next id))
    refine .foldl (fun u g hu => ?_) _ h
    split
    · exact .onCore_frame hu fun _ => Core.startCall_scratch
    · exact hu

theorem State.Canonical.startAcc {s : State} (h : s.Canonical) {c : CoreId} : (s.startAcc c).Canonical := by
  unfold State.startAcc
  dsimp only
  split
  · exact .ite h (.onCore_frame h fun _ => rfl)
  · exact h

@[simp] theorem Core.tmDone_scratch {x : Core} {n : Nat} : (x.tmDone n).scratch = x.scratch := rfl

theorem Core.roundBank_scratch {x : Core} {b : BitVec 3} {p : Profile} {acc : List (Nat × FVal)} :
    (x.roundBank b p acc).1.scratch = x.scratch :=
  Core.foldl_scratch (by intro _ _; rfl) _ _

@[simp] theorem Core.endCall_scratch {x : Core} {r : MRun} {k : CallFields} {now : W} :
    (x.endCall r k now).scratch = x.scratch := by
  unfold Core.endCall
  dsimp only
  split
  · exact Core.roundBank_scratch
  · exact Core.roundBank_scratch

theorem Out.From.execMatrixCallComplete {s : State} : Out.From s (execMatrixCallComplete s) := by
  unfold Machine.execMatrixCallComplete
  dsimp only
  split
  · exact .next id
  · refine .ite (.next fun h => .onCore_frame h fun _ => Core.endCall_scratch) (.ite (.next fun h => ?_) (.next id))
    refine .foldl (fun u g hu => ?_) _ h
    split
    · exact .onCore_frame hu fun _ => Core.endCall_scratch
    · exact hu

theorem Out.From.execZaccComplete {s : State} : Out.From s (execZaccComplete s) := by
  unfold Machine.execZaccComplete
  dsimp only
  split
  · split
    · exact .ite (.next fun h => .onCore_frame h fun _ => Core.tmDone_scratch.trans Core.zeroBank_scratch) (.next id)
    · exact .next id
  · exact .next id

theorem Out.From.execUldComplete {s : State} : Out.From s (execUldComplete s) := by
  unfold Machine.execUldComplete
  dsimp only
  split
  · split
    · split
      · exact .next id
      · exact .next fun h => .onCore_frame (.foldl (fun _ _ h1 => .writePlaces h1) _ h) fun _ => rfl
    · exact .next id
  · exact .next id

theorem Out.From.execGetpWrite {s : State} : Out.From s (execGetpWrite s) := by
  unfold Machine.execGetpWrite
  dsimp only
  split
  · split
    · exact .next fun h => .onCore_frame h fun _ => rfl
    · exact .next id
  · exact .next id

@[simp] theorem Core.tick_scratch {now : W} {n : Nat} {x : Core} : (Core.tick now n x).scratch = x.scratch := by
  unfold Core.tick
  dsimp only
  split <;> simp

theorem State.Canonical.tick {s : State} (h : s.Canonical) {n : Nat} : (State.tick n s).Canonical :=
  .fillPool (.lookups (.update (.onXbar (.onXbar (.onCores_frame h (fun _ => (by simp))) _ _) _ _)))

end Sys2Proof.Machine
end

section
/-! # The crossbar: what keeps the form -/

namespace Sys2Proof.Machine

theorem State.Canonical.respond {s : State} (h : s.Canonical) {d : Die} {port : Fin 128} {k : Pkt} {b : PBody} :
    (s.respond d port k b).Canonical :=
  .enqueue h

theorem State.Canonical.serveAt {s : State} (h : s.Canonical) {d : Die} {port : Fin 128} {k : Pkt} :
    (s.serveAt d port k).Canonical := .respond h.performPkt

theorem State.Canonical.deskAnswer {s : State} (h : s.Canonical) {k : Pkt} : (s.deskAnswer k).Canonical := by
  unfold State.deskAnswer
  dsimp only
  split
  · exact .loadArrive h
  · exact .ite (.storeAck h) (.peerFail h)
  · exact .ite (.peerFail h) (.copyArrive h)
  · exact .ite (.peerFail h) (.copyArrive h)
  · exact .copyArrive h
  · exact .copyArrive h
  · exact .peerData h
  · exact .ite (.wbAck h) (.peerFail h)
  · exact h

theorem State.Canonical.movedAnswer {s : State} (h : s.Canonical) {k : Pkt} {m : Migration} :
    (s.movedAnswer k m).Canonical :=
  .onCore_frame h fun _ => rfl

theorem State.Canonical.deliver {s : State} (h : s.Canonical) {d : Die} {port : Fin 128} {k : Pkt} :
    (s.deliver d port k).Canonical := by
  unfold State.deliver
  dsimp only
  split
  · split
    · exact .deskAnswer h
    · exact .deskAnswer h
    · exact .outboxFor (.inboxPut h)
    · exact .serveAt h
  · split
    · split
      · exact .movedAnswer h
      · exact .serveAt h
    · split
      · exact .fabricSend h
      · split
        · exact .enqueue h
        · split
          · exact .respond h
          · exact .respond (.ctlStore h)
          · exact .respond h

theorem State.Canonical.grant {s : State} (h : s.Canonical) {d : Die} {port : Fin 128} {k : Pkt} :
    (s.grant d port k).Canonical := by
  unfold State.grant
  dsimp only
  split
  · split
    · exact .movedAnswer (.onXbar h _ _)
    · exact .onXbar (.onXbar h _ _) _ _
  · exact .onXbar (.onXbar h _ _) _ _

theorem State.Canonical.takeArrived {s : State} (h : s.Canonical) {d : Die} {port : Fin 128} :
    (s.takeArrived d port).Canonical := by
  unfold State.takeArrived
  refine .foldl (fun s1 a h1 => ?_) _ h
  exact .ite h1 (.deliver (.onXbar h1 _ _))

theorem State.Canonical.takeWindow {s : State} (h : s.Canonical) {d : Die} {k : Pkt} :
    (s.takeWindow d k).Canonical := by
  unfold State.takeWindow
  exact .ite h (.deliver (.onCore_frame (.onXbar h _ _) fun _ => by rfl))

theorem State.Canonical.takeWindows {s : State} (h : s.Canonical) {d : Die} : (s.takeWindows d).Canonical :=
  .foldl (fun _ _ h1 => .takeWindow h1) _ h

theorem Out.From.execXbarArbitrate {s : State} : Out.From s (execXbarArbitrate s) := by
  unfold Machine.execXbarArbitrate
  refine .next fun h => .takeArrived ?_
  split
  · exact h
  · exact .grant (.onXbar h _ _)

theorem Out.From.execSliceTakePacket {s : State} : Out.From s (execSliceTakePacket s) := by
  unfold Machine.execSliceTakePacket
  dsimp only
  split
  · exact .next id
  · split
    · exact .next fun h => .onXbar (.performPkt h) _ _
    · split
      · exact .next id
      · exact .ite (.next id) (.next (fun h => .onXbar h _ _))

theorem Out.From.execSliceReadData {s : State} : Out.From s (execSliceReadData s) := by
  unfold Machine.execSliceReadData
  dsimp only
  split
  · exact .ite (.next id) (.next (fun h => .respond (.onXbar h _ _)))
  · exact .next id

theorem Out.From.execSliceWriteComplete {s : State} : Out.From s (execSliceWriteComplete s) := by
  unfold Machine.execSliceWriteComplete
  dsimp only
  split
  · exact .ite (.next id) (.next (fun h => .respond (.performPkt (.onXbar h _ _))))
  · exact .next id

theorem Out.From.execSliceRefreshStart {s : State} : Out.From s (execSliceRefreshStart s) :=
  .next fun h => .onXbar h _ _

theorem Out.From.execSliceRefreshEnd {s : State} : Out.From s (execSliceRefreshEnd s) :=
  .next fun h => .onXbar h _ _

theorem Out.From.execLoadDataReturn {s : State} : Out.From s (execLoadDataReturn s) := by
  unfold Machine.execLoadDataReturn
  dsimp only
  split
  · exact .next fun h => .update h
  · split
    · exact .next fun h => .update h
    · exact .next fun h => .pumpStores (.finishLoad (.mapCore_frame (.update h) fun _ => by rfl))

theorem Out.From.execWriteAcknowledgement {s : State} : Out.From s (execWriteAcknowledgement s) := by
  unfold Machine.execWriteAcknowledgement
  dsimp only
  split
  · exact .next fun h => .update h
  · split
    · exact .next fun h => .pumpStores (.update h)
    · exact .next fun h => .pumpStores (.mapCore_frame (.update h) fun _ => rfl)

end Sys2Proof.Machine
end

section
/-! # Rows of a matrix call: what keeps the form -/

namespace Sys2Proof.Machine

theorem State.Canonical.onMRun {s : State} (h : s.Canonical) {c : CoreId} {f : MRun → MRun} :
    (s.onMRun c f).Canonical :=
  .onCore_frame h fun _ => rfl

theorem State.Canonical.onPipe {s : State} (h : s.Canonical) {c : CoreId} {i : Fin 4} {f : PipeRun → PipeRun} :
    (s.onPipe c i f).Canonical :=
  .onMRun h

/-- What a row gives where it asks: a state that keeps the form. -/
def RowGot.Keeps (g : RowGot) : Prop := ∀ t, g = .asked t → t.Canonical

theorem RowGot.Keeps.row {codes : List (Nat × Nat)} {fmt k : Nat} {typed bad : Bool} :
    (RowGot.row codes fmt k typed bad).Keeps := fun _ e => by cases e
theorem RowGot.Keeps.stop {t : Trap} : (RowGot.stop t).Keeps := fun _ e => by cases e
theorem RowGot.Keeps.wait : RowGot.wait.Keeps := fun _ e => by cases e
theorem RowGot.Keeps.asked {s : State} (h : s.Canonical) : (RowGot.asked s).Keeps := fun _ e => by
  cases e
  exact h

theorem RowGot.Keeps.ite {c : Prop} [Decidable c] {a b : RowGot} (ha : a.Keeps) (hb : b.Keeps) :
    (if c then a else b).Keeps := by
  split
  · exact ha
  · exact hb

theorem RowGot.Keeps.rowStuck {r : Reach} : (rowStuck r).Keeps := by
  unfold Machine.rowStuck
  split
  · exact .stop
  · exact .wait

theorem RowGot.Keeps.pipeRead {s : State} (h : s.Canonical) {c : CoreId} {i : Fin 4} {q : PipeRun} {vas : List W}
    {k : List Byte → RowGot} (hk : ∀ l, (k l).Keeps) : (s.pipeRead c i q vas k).Keeps := by
  unfold State.pipeRead
  split
  · exact .rowStuck
  · refine .ite .wait (.ite (.ite .wait (.asked (.onPipe ?_))) (.ite .stop ?_))
    · refine .foldl_fst (fun _ _ hp => ?_) _ h
      exact hp.post
    · split
      · exact .stop
      · exact hk _

theorem RowGot.Keeps.memRow {s : State} (h : s.Canonical) {c : CoreId} {i : Fin 4} {q : PipeRun} :
    (s.memRow c i q).Keeps := by
  unfold State.memRow
  dsimp only
  split
  · refine .ite .stop (.ite .stop (.ite .stop ?_))
    split
    · refine .ite ?_ (.ite ?_ (.ite .stop (.pipeRead h fun _ => .row)))
      · split
        · exact .stop
        · exact .asked (.onPipe (Kept.of_some h.claim ‹_›))
      · split
        · exact .ite (.asked h.onPipe) (.ite .stop .wait)
        · exact .asked h.onPipe
    · exact .ite .stop (.pipeRead h fun _ => .row)
  · exact .rowStuck

theorem RowGot.Keeps.scaleRow {s : State} (h : s.Canonical) {c : CoreId} {i : Fin 4} {q : PipeRun} :
    (s.scaleRow c i q).Keeps := .pipeRead h fun _ => .row

theorem RowGot.Keeps.kvRow {s : State} (h : s.Canonical) {c : CoreId} {i : Fin 4} {q : PipeRun} :
    (s.kvRow c i q).Keeps := by
  unfold State.kvRow
  dsimp only
  refine .ite .stop ?_
  split
  · exact .asked h.onPipe
  · refine .ite .stop ?_
    split
    · exact .stop
    · refine .ite .stop ?_
      split
      · exact .stop
      · refine .ite (.asked (.onCore_frame h.onPipe fun _ => rfl)) ?_
        split
        · exact .asked h.kvQuarantine.onPipe
        · exact .row

theorem State.Canonical.shareRow {s : State} (h : s.Canonical) {c : CoreId} {r : MRun} {q : PipeRun} {f : FwdRow} :
    (s.shareRow c r q f).Canonical := by
  unfold State.shareRow
  refine .foldl (fun s1 a h1 => ?_) _ (.foldl (fun _ _ h1 => .onCore_frame h1 fun _ => by rfl) _ h)
  split
  · exact .onCore_frame h1 fun _ => by rfl
  · exact h1

theorem State.Canonical.requestRow {s : State} (h : s.Canonical) {c : CoreId} {i : Fin 4} {q : PipeRun} :
    (s.requestRow c i q).Canonical := by
  unfold State.requestRow
  exact .ite h (.ite (.ite h (.onCore_frame h.onPipe fun _ => by rfl)) h.onPipe)

theorem State.Canonical.rowStep {s : State} (h : s.Canonical) {c : CoreId} {i : Fin 4} {r : MRun} {q : PipeRun} :
    (s.rowStep c i r q).Canonical := by
  unfold State.rowStep
  refine .ite ?_ (.ite h ?_)
  · split
    · exact h
    · split
      · exact h.onPipe
      · exact h.shareRow.onMRun
  · dsimp only
    split
    · exact .ite h h.shareRow.onMRun
    · exact .ite h.onPipe h.onPipe.shareRow
    · exact h
    · rename_i e
      revert e
      split
      · exact fun e => RowGot.Keeps.scaleRow h _ e
      · split
        · exact fun e => RowGot.Keeps.memRow h _ e
        · exact fun e => RowGot.Keeps.kvRow h _ e

theorem Out.From.execMatrixRowComplete {s : State} : Out.From s (execMatrixRowComplete s) := by
  unfold Machine.execMatrixRowComplete
  dsimp only
  split
  · split
    · exact .next fun h => .rowStep (.requestRow h)
    · exact .next id
  · exact .next id

theorem State.Canonical.matrixReport {s : State} (h : s.Canonical) {c : CoreId} : (s.matrixReport c).Canonical := by
  unfold State.matrixReport
  dsimp only
  split
  · exact h
  · split
    · exact h
    · split
      · exact h
      · refine .onCore_frame ?_ fun _ => by rfl
        exact .ite (.foldl (fun _ _ h1 => .onCore_frame h1 fun _ => by rfl) _ (.onMRun h)) (.onMRun h)

end Sys2Proof.Machine
end

section
/-! # Micro-words: what keeps the form -/

namespace Sys2Proof.Machine

theorem Out.From.micro {s : State} {f : MRun → State → Out} (hf : ∀ r, Out.From s (f r s)) :
    Out.From s (micro f s) := by
  unfold Machine.micro
  split
  · exact .next id
  · exact hf _

theorem State.Canonical.setMRun {s : State} (h : s.Canonical) {r : MRun} : (s.setMRun r).Canonical := .onMRun h

theorem State.Canonical.microDone {s : State} (h : s.Canonical) {r : MRun} : (s.microDone r).Canonical :=
  .setMRun h

theorem State.Canonical.microStop {s : State} (h : s.Canonical) {t : Trap} : (s.microStop t).Canonical :=
  .onMRun h

theorem State.Canonical.microIllegal {s : State} (h : s.Canonical) {r : MRun} : (s.microIllegal r).Canonical :=
  .microStop h

theorem Out.From.uLoad {s : State} {pipe : Fin 4} {l : LoadFields} : Out.From s (uLoad pipe l s) :=
  .micro fun _ => .ite (.next id) (.ite (.next fun h => .microIllegal h) (.next fun h => .microDone h))

theorem Out.From.execUScale {s : State} {b : BitVec 2} {p : BitVec 3} : Out.From s (execUScale b p s) := by
  unfold Machine.execUScale
  refine .micro fun r => ?_
  exact .ite (.next id) (.ite (.next (fun h => .microIllegal h)) (.next (fun h => .microDone h)))

theorem MRun.product_scratch {r : MRun} {x : Core} {va vb : List (List Num)} {isInt : Bool} {off k s ro co : Nat} :
    (r.product x va vb isInt off k s ro co).2.scratch = x.scratch := by
  unfold MRun.product
  refine apply_ite (fun p : MRun × Core => p.2.scratch) _ _ _ |>.trans ?_
  split
  · exact Core.foldl_scratch (by intro _ _; rfl) _ _
  · refine List.foldlRecOn (motive := fun p : MRun × Core => p.2.scratch = x.scratch) _ _ rfl fun p hp a _ => ?_
    dsimp only
    split
    · exact hp
    · exact hp

theorem MRun.mma_scratch {r r' : MRun} {x y : Core} {a b : Fin 4} {ks n off ro co : Nat}
    (e : r.mma x a b ks n off ro co = some (r', y)) : y.scratch = x.scratch := by
  unfold MRun.mma at e
  dsimp only at e
  split at e
  · cases e
    rfl
  · split at e
    · cases e
    · replace e := Option.some.inj e
      change (r', y).2.scratch = x.scratch
      rw [← e]
      exact MRun.product_scratch

theorem Out.From.execUMma {s : State} {a b : BitVec 2} {k : BitVec 8} : Out.From s (execUMma a b k s) := by
  unfold Machine.execUMma
  refine .micro fun r => .ite (.next id) ?_
  split
  · exact .next fun h => .microIllegal h
  · rename_i e
    exact .next fun h => .microDone (.setCore_frame h (MRun.mma_scratch e))

theorem Out.From.execUStep {s : State} {d i : BitVec 3} : Out.From s (execUStep d i s) :=
  .micro fun _ => .next fun h => .microDone h

theorem Out.From.execULoop {s : State} {c : BitVec 3} {l : BitVec 12} : Out.From s (execULoop c l s) := by
  unfold Machine.execULoop
  refine .micro fun r => ?_
  dsimp only
  split
  · exact .next fun h => .microIllegal h
  · split
    · exact .next fun h => .setMRun h
    · exact .ite (.next (fun h => .microIllegal h)) (.next (fun h => .microDone h))

theorem Out.From.execUEndl {s : State} : Out.From s (execUEndl s) := by
  unfold Machine.execUEndl
  refine .micro fun r => ?_
  split
  · exact .next fun h => .microIllegal h
  · exact .ite (.next (fun h => .setMRun h)) (.next (fun h => .microDone h))

theorem Out.From.execUEnd {s : State} : Out.From s (execUEnd s) := .micro fun _ => .next fun h => .microDone h

theorem Out.From.onMicroQueue {s : State} {q : BitVec 4} {n : Nat} {f : MRun → State → Out}
    (hf : ∀ r, Out.From s (f r s)) : Out.From s (onMicroQueue q n f s) :=
  .micro fun r => .ite (.next fun h => .microIllegal h) (hf r)

theorem Out.From.execUGate {s : State} {q n : BitVec 4} : Out.From s (execUGate q n s) := by
  unfold Machine.execUGate
  refine .onMicroQueue fun r => ?_
  exact .ite (.next id) (.next (fun h => .microDone h))

theorem Out.From.execUPop {s : State} {q n : BitVec 4} : Out.From s (execUPop q n s) := by
  unfold Machine.execUPop
  refine .onMicroQueue fun r => ?_
  exact .ite (.next id) (.next (fun h => .microDone (.mapCore_frame h fun _ => by rfl)))

theorem State.Canonical.pushOn {s : State} (h : s.Canonical) {q : BitVec 4} {v : VReg} :
    (s.mapCore fun x => x.push q v).Canonical := h.mapCore (Core.push_wf h.core q v)

theorem Out.From.execUPush {s : State} {q : BitVec 4} {p : BitVec 3} : Out.From s (execUPush q p s) := by
  unfold Machine.execUPush
  refine .onMicroQueue fun _ => ?_
  exact .ite (.next id) (.next fun h => .microDone h.pushOn)

theorem Out.From.execUChk {s : State} {b : BitVec 2} : Out.From s (execUChk b s) := by
  unfold Machine.execUChk
  refine .micro fun r => ?_
  exact .ite (.next id) (.next (fun h => .microDone h))

theorem Out.From.execUSig {s : State} {p : BitVec 3} : Out.From s (execUSig p s) :=
  .micro fun _ => .next fun h => .microDone (.mapCore_frame h fun _ => by rfl)

/-- Where rows have been written: a state that keeps the form. -/
def Wrote.Keeps (w : Wrote) : Prop := ∀ t out wd, w = .done t out wd → t.Canonical

theorem Wrote.Keeps.done {s : State} {out : List (Nat × W)} {wd : Option (Nat × Nat × Nat)} (h : s.Canonical) :
    (Wrote.done s out wd).Keeps := fun _ _ _ e => by
  cases e
  exact h
theorem Wrote.Keeps.stop {t : Trap} : (Wrote.stop t).Keeps := fun _ _ _ e => by cases e
theorem Wrote.Keeps.wait : Wrote.wait.Keeps := fun _ _ _ e => by cases e

theorem Wrote.Keeps.ite {c : Prop} [Decidable c] {a b : Wrote} (ha : a.Keeps) (hb : b.Keeps) :
    (if c then a else b).Keeps := by
  split
  · exact ha
  · exact hb

theorem Wrote.Keeps.put {s : State} (h : s.Canonical) {c : CoreId}
    {found : List (W × List Byte × Except Reach (List (W × Nat × Bool)))} {wd : Option (Nat × Nat × Nat)} :
    (State.wbRows.put c s found wd).Keeps := by
  unfold State.wbRows.put
  refine .done (.foldl_fst (fun p a hp => ?_) _ h)
  dsimp only
  split
  · exact hp
  · split
    · exact hp.writePlaces
    · split
      · exact hp
      · refine .foldl_fst (fun q w hq => ?_) _ hp
        exact hq.post

/-- What stands in the way of a row is a fault or a wait. -/
theorem Wrote.Keeps.of_findSome {α : Type} {f : α → Option Wrote} (hf : ∀ a w, f a = some w → w.Keeps) {l : List α}
    {w : Wrote}
    (e : l.findSome? f = some w) : w.Keeps := by
  obtain ⟨a, _, ha⟩ := List.exists_of_findSome?_eq_some e
  exact hf a w ha

theorem Wrote.Keeps.wbRows {s : State} (h : s.Canonical) {c : CoreId} {align : Nat} {rows : List (W × List Byte)} :
    (s.wbRows c align rows).Keeps := by
  unfold State.wbRows
  dsimp only
  split
  · rename_i e
    refine .of_findSome (fun a w hw => ?_) e
    split at hw
    · split at hw <;> cases hw
      exact .stop
    · cases hw
      exact .wait
    · split at hw <;> cases hw
      exact .stop
  · refine .ite (.put h) ?_
    split
    · refine .ite .stop ?_
      split
      · exact .stop
      · exact .ite (.put (Kept.of_some h.claim ‹_›)) .wait
    · exact .ite .wait (.put h)

theorem Out.From.afterWb {s : State} {r : MRun} {w : Wrote} (hw : s.Canonical → w.Keeps) :
    Out.From s (afterWb r s w) := by
  unfold Machine.afterWb
  split
  · exact .next fun h => .microDone (hw h _ _ _ rfl)
  · exact .next fun h => .microStop h
  · exact .next id

theorem Out.From.execUWb {s : State} {p : BitVec 3} {f : BitVec 5} : Out.From s (execUWb p f s) := by
  unfold Machine.execUWb
  refine .micro fun r => ?_
  dsimp only
  split
  · exact .next fun h => .microIllegal h
  · exact .ite (.next fun h => .microIllegal h) (.afterWb fun h => .wbRows h)

theorem Out.From.libTranspose {s : State} {fmt : Nat} {r : MRun} : Out.From s (libTranspose fmt r s) := by
  unfold Machine.libTranspose
  refine .ite (.next fun h => .microIllegal h) ?_
  dsimp only
  split
  · rename_i e
    refine .next fun h => .microDone (.mapCore_frame (Wrote.Keeps.wbRows h _ _ _ e) fun x => ?_)
    exact Core.foldl_scratch (by intro _ _; rfl) _ _
  · exact .next fun h => .microStop h
  · exact .next id

theorem Out.From.libPhase {s : State} : Out.From s (libPhase s) := by
  unfold Machine.libPhase
  refine .micro fun r => ?_
  split
  · exact .next fun h => .microStop h
  · split
    · exact .next fun h => .setMRun h
    · exact .ite (.next id) (.next fun h => .microDone h.takeFree)
    · refine .ite (.next id) ?_
      split
      · exact .next fun h => .microIllegal h
      · rename_i e
        exact .next fun h => .microDone (.setCore_frame h (MRun.mma_scratch e))
    · exact .ite (.next id) .libTranspose

theorem Out.From.execEngineCommandStart {s : State} : Out.From s (execEngineCommandStart s) := by
  unfold Machine.execEngineCommandStart
  dsimp only
  split
  · exact .next fun h => .startCopy h
  · exact .next fun h => .startCopy h
  · exact .next fun h => .startAcc h
  · exact .next id
  · exact .next id

theorem State.Canonical.copyReport {s : State} (h : s.Canonical) {c : CoreId} {x : Ctx} :
    (s.copyReport c x).Canonical := by
  unfold State.copyReport
  dsimp only
  split
  · split
    · split
      · exact h
      · exact .onCore_frame h fun _ => rfl
    · exact h
  · exact h

theorem Out.From.execEngineFaultReport {s : State} : Out.From s (execEngineFaultReport s) := by
  unfold Machine.execEngineFaultReport
  dsimp only
  split
  · exact .next fun h => .copyReport h
  · exact .next fun h => .copyReport h
  · exact .next fun h => .matrixReport h
  · exact .next id
  · exact .next id

end Sys2Proof.Machine
end

section
/-! # The host: what keeps the form -/

namespace Sys2Proof.Machine

theorem State.Canonical.hostAway {s : State} (h : s.Canonical) {p : PartId} {off : Nat} {write : Bool}
    {places : List Nat}
    {known : List (Nat × Byte)} {val : Nat → Byte} : (s.hostAway p off write places known val).Canonical := by
  unfold State.hostAway
  refine .update (.foldl_fst (fun _ _ hp => ?_) _ (.update h))
  exact .request (.update hp)

theorem Out.From.execWindowDRead {s : State} : Out.From s (execWindowDRead s) := by
  unfold Machine.execWindowDRead
  dsimp only
  split
  · exact .next id
  · split
    · exact .next id
    · exact .next fun h => .update h
    · split
      · exact .next fun h => .update h
      · exact .ite (.next (fun h => .hostAway h)) (.next (fun h => .update h))

theorem State.Canonical.windowDWrite {s : State} (h : s.Canonical) {p : PartId} {off : Nat} {bytes : List Byte} :
    Kept (s.windowDWrite p off bytes) := by
  unfold State.windowDWrite
  dsimp only
  split
  · exact .none
  · exact .some h.fnErr
  · refine .ite (.some h.fnErr) ?_
    split
    · split
      · exact .some h.fnErr
      · have hc := Kept.of_some h.claim ‹_›
        exact .some (.wdone (.ite hc.writePlaces.hostAway hc.writePlaces))
    · exact .some (.ite h.writePlaces.hostAway h.writePlaces)

theorem State.Canonical.haltQueue {s : State} (h : s.Canonical) {p : PartId} {q : Fin 16} {k err : Nat} {tag : W} :
    (s.haltQueue p q k err tag).Canonical :=
  .ite (.update h) (.onQueue h)

theorem State.Canonical.orphan {s : State} (h : s.Canonical) {p : PartId} {q : Fin 16} : (s.orphan p q).Canonical :=
  .onSched h _

theorem State.Canonical.writeLqcfg {s : State} (h : s.Canonical) {p : PartId} {q : Fin 16} {v : W} :
    (s.writeLqcfg p q v).Canonical :=
  .ite (.ite h (.onQueue h)) (.ite (.onQueue h) (.ite (.onQueue (.orphan h)) (.onQueue h)))

theorem State.Canonical.skipQueue {s : State} (h : s.Canonical) {p : PartId} {q : Fin 16} :
    (s.skipQueue p q).Canonical := by
  unfold State.skipQueue
  dsimp only
  split
  · exact .onQueue h
  · exact .update h

theorem State.Canonical.windowCWrite {s : State} (h : s.Canonical) {f : Fin 9} {off : Nat} {v : W} :
    (s.windowCWrite f off v).Canonical := by
  unfold State.windowCWrite
  split
  · exact .ite (.update h) h
  · refine .ite (.onVf h _ _) (.ite (.onVf h _ _) (.ite ?_ h))
    dsimp only
    split
    · exact h.onQueue
    · exact h.writeLqcfg
    · exact h.onQueue
    · exact .ite h.skipQueue h
    · exact h

theorem State.Canonical.readC {s : State} (h : s.Canonical) {f : Fin 9} {off : Nat} : (s.readC f off).Canonical :=
  .ite h (.update h)

theorem State.Canonical.performHost {s : State} (h : s.Canonical) {w : HostWrite} : Kept (s.performHost w) := by
  unfold State.performHost
  refine .ite ?_ (.some h.windowCWrite)
  split
  · exact .some h
  · exact h.windowDWrite

theorem State.Canonical.postWrite {s : State} (h : s.Canonical) {w : HostWrite} {relaxed : Bool} :
    (s.postWrite w relaxed).Canonical := .ite (.update h) (.getD_of_kept h.performHost (.update h))

theorem Out.From.postC {s : State} {f : Fin 9} {off : Nat} {v : W} : Out.From s (s.postC f off v) :=
  .next fun h => .postWrite h

theorem Out.From.execHostWriteForward {s : State} : Out.From s (execHostWriteForward s) := by
  unfold Machine.execHostWriteForward
  split
  · exact .next id
  · split
    · exact .next id
    · rename_i e
      exact .next fun h => .update (h.performHost.of_some e)

theorem Out.From.execRegisterWrite {s : State} : Out.From s (execRegisterWrite s) := by
  unfold Machine.execRegisterWrite
  dsimp only
  split
  · exact .next fun h => .regWrite h
  · exact .postC
  · exact .next fun h => .onFab h _ _
  · exact .next fun h => .onFab h _ _
  · exact .next fun h => .onPart h _ _
  · exact .next fun h => .onPart h _ _

theorem Out.From.execLaunchRecordRead {s : State} : Out.From s (execLaunchRecordRead s) := by
  unfold Machine.execLaunchRecordRead
  dsimp only
  split
  · exact .next id
  · split
    · exact .next id
    · exact .next id
    · exact .next fun h => .haltQueue h
    · split
      · exact .next fun h => .haltQueue h
      · exact .ite (.next (fun h => .haltQueue h)) (.next (fun h => .onQueue h))

theorem State.Canonical.flr {s : State} (h : s.Canonical) {p : PartId} : (s.flr p).Canonical :=
  .onVf (.quiesce h) _ _

theorem Out.From.execPfFlr {s : State} : Out.From s (execPfFlr s) :=
  .next fun h => .foldl (fun _ _ h1 => .flr h1) _ h

end Sys2Proof.Machine
end

section
/-! # Issue: what keeps the form -/

namespace Sys2Proof.Machine

theorem State.Canonical.fence {s : State} (h : s.Canonical) {k : FenceKind} {sc : BitVec 3} :
    (s.fence k sc).Canonical := by
  unfold State.fence
  refine .mapCore_frame ?_ fun _ => rfl
  exact .ite (.scopeMiss h) h

theorem Out.From.execSFence {s : State} {k : FenceKind} {sc : BitVec 3} : Out.From s (execSFence k sc s) := by
  unfold Machine.execSFence
  refine .withReady fun s1 => ?_
  exact .ite (.next (fun h => .fence h)) (.comparePoint (fun _ => .next (fun h => .fence h)))

theorem Out.From.execSRdcyc {s : State} {d : BitVec 6} : Out.From s (execSRdcyc d s) := by
  unfold Machine.execSRdcyc
  refine .withReady fun s1 => ?_
  split
  · exact .next fun h => .awaitForward h
  · refine .next fun h => ?_
    exact .ite (.sendFwd (.mapRegs h _)) (.mapRegs h _)

@[simp] theorem Core.launch_scratch {now : W} {g : Group} {shares : Nat → Bool} {x : Core} {k : Nat} :
    (Core.launch now g shares x k).scratch = x.scratch := by
  unfold Core.launch
  split
  · rfl
  · split
    · simp only [Core.startVec]
    · dsimp only

@[simp] theorem Core.issued_scratch {x : Core} {now : W} {g : Group} {shares : Nat → Bool} :
    (x.issued now g shares).scratch = x.scratch := Core.foldl_scratch (fun _ _ => Core.launch_scratch) _ _

theorem State.Canonical.beginGroup {s : State} (h : s.Canonical) {g : Group} : (s.beginGroup g).Canonical :=
  .update (.mapCore_frame h fun _ => by rfl)

theorem State.Canonical.commit {s : State} (h : s.Canonical) {g : Group} {prev : Option (BitVec 32 × BitVec 12)}
    {hm : Bool} :
    (s.commit g prev hm).Canonical := by
  unfold State.commit
  dsimp only
  split
  · exact .trap (.update (.mapCore_frame h fun _ => by simp only [Core.issued_scratch]))
  · exact .update (.mapCore_frame h fun _ => by simp only [Core.issued_scratch])

theorem State.Canonical.failGroup {s : State} (h : s.Canonical) {t : State} : (s.failGroup t).Canonical := by
  unfold State.failGroup
  dsimp only
  split
  · exact .withSync (.update h)
  · exact .update (.trap (.withSync (.update h)))

theorem State.Canonical.waiting {s : State} (h : s.Canonical) : s.waiting.Canonical := .update h

theorem State.Canonical.holdGroup {s : State} (h : s.Canonical) {t : State} : (s.holdGroup t).Canonical :=
  .waiting (.update h)

theorem State.Canonical.arrive {s : State} (h : s.Canonical) {t : State} {kind : Nat} : (s.arrive t kind).Canonical :=
  .waiting (.mapCore_frame h fun _ => rfl)

theorem State.Canonical.chargeDebt {s : State} (h : s.Canonical) {n : Nat} : (State.chargeDebt n s).Canonical :=
  .onCores_frame h fun _ => rfl

theorem Out.From.finishGroup {s : State} {g : Group} {prev : Option (BitVec 32 × BitVec 12)} {o : Out}
    (ho : Out.From s o) : Out.From s (s.finishGroup g prev o) := by
  obtain ⟨t, rfl, ht⟩ := ho
  unfold State.finishGroup
  refine .ite (.next fun h => h.holdGroup) (.ite (.next fun h => h.failGroup) ?_)
  split
  · exact .next fun h => h.arrive
  · exact .next fun h => (ht h).commit

end Sys2Proof.Machine
end

section
/-! # Every operation and event but the writing of a dump -/

namespace Sys2Proof.Machine

/-- Every instruction and event but the writing of a dump gives a next state, whose memories keep the form. -/
theorem Out.From.exec {i : Instr} {s : State} (hi : i ≠ .dumpWritten) : Out.From s (exec i s) := by
  unfold Machine.exec
  cases i
  case dumpWritten => exact absurd rfl hi
  case sAdd | sSub | sMul | sMulh | sMulhn | sDiv | sDivn | sRem | sRemn | sAnd | sOr | sXor | sAndn | sSll | sSrl |
      sSra | sMin | sMax | sMinn | sMaxn | sSlt | sSltn | sSel | sMov | sClz | sCtz | sPopc | sBswap | sAddi | sMuli
      | sAndi | sOri | sXori | sSlli | sSrli | sSrai | sSlti | sSltni | sLi | sLih => exact .sRun
  case sLdB | sLdBn | sLdH | sLdHn | sLdW | sLdWn | sLdD | sLdAcqW | sLdAcqD => exact .sLoad
  case sStB | sStH | sStW | sStD | sStRelW | sStRelD => exact .sStore
  case sCmpEq | sCmpNe | sCmpLt | sCmpGe | sCmpLtn | sCmpGen | sCmpiEq | sCmpiNe | sCmpiLt | sCmpiGe => exact .pRun
  case sFence => exact .execSFence
  case sCsrr | sCsrw | sCsrs | sCsrc => exact .csrOp
  case sRdcyc => exact .execSRdcyc
  case bBr => exact .execBBr
  case bBp => exact .execBBp
  case bJal => exact .execBJal
  case bJr => exact .execBJr
  case bLoop => exact .execBLoop
  case bLoopi => exact .execBLoopi
  case bTrap => exact .execBTrap
  case bTask => exact .execBTask
  case bSwap => exact .execBSwap
  case bSleep => exact .execBSleep
  case bPark => exact .execBPark
  case vFadd | vFsub | vFmul | vFma | vFms | vFmin | vFmax | vFabs | vFneg | vAdd | vSub | vMul | vMulh | vMulhn |
      vAnd | vOr | vXor | vAndn | vShl | vShr | vSra | vMin | vMax | vMinn | vMaxn | vAbs | vAddsat | vSubsat =>
      exact .arith
  case vFcmpEq | vFcmpLt | vFcmpLe | vFcmpUn | vIcmpEq | vIcmpLt | vIcmpLtn => exact .vcmp
  case vMov | vSel | vBcast | vIns | vExt | vIota | vPerm | vRot | vZip | vUnzip | vCvt | vPack6 | vScanAdd |
      vScanFadd | vKset => exact .vRun
  case vWiden => exact .execVWiden
  case vNarrow => exact .execVNarrow
  case vUnpack6 | vPackq4 | vUnpackq4 => exact .fmtRun
  case vSetfmt => exact .execVSetfmt
  case vRadd | vRmax | vRmin | vRfadd | vRfmax | vRfmin => exact .vred
  case vRcp | vRsqrt | vSqrt | vExp2 | vLog2 | vTanh | vErf => exact .vsfu
  case vLd | vLdx | vLds => exact .vLoad
  case vSt | vStx | vSts => exact .vStore
  case vRda => exact .execVRda
  case vWra | vAdda => exact .accWrite
  case vQpop => exact .execVQpop
  case vQpush => exact .execVQpush
  case vKand | vKor | vKxor | vKnot | vKpopc | vKfirst => exact .kRun
  case vLred => exact .execVLred
  case vLpick => exact .execVLpick
  case vLbcast => exact .execVLbcast
  case mCall | mGang => exact .callOp
  case mSetp => exact .execMSetp
  case mGetp => exact .execMGetp
  case mZacc => exact .execMZacc
  case mUld => exact .execMUld
  case cCopy | cCopyi | cGath | cScat | cFill | cPref | cRelay | cDecomp | cAccAdd | cAccFadd | cAccMax | cAccMin |
      cAccOr | cAccAnd | cFopAdd | cFopMin | cFopMax | cFopAnd | cFopOr | cFopXor | cFopSwap | cFopCas | cGet | cPut
      | cKvput | cKvapp | cKvinv | cRecast | cSbar | cMigr => exact .copyOp
  case qQcfg => exact .execQQcfg
  case qQpush => exact .execQQpush
  case qQpop => exact .execQQpop
  case qQpeek => exact .execQQpeek
  case qQcnt => exact .execQQcnt
  case qTlwait => exact .execQTlwait
  case qTlsig => exact .execQTlsig
  case qTlrd => exact .execQTlrd
  case qTlwaitx => exact .execQTlwaitx
  case qBar => exact .execQBar
  case qSlack => exact .execQSlack
  case qFin => exact .execQFin
  case qFout => exact .execQFout
  case qPromise => exact .execQPromise
  case qLift => exact .execQLift
  case qLmask => exact .execQLmask
  case uLda | uLdb | uLdk | uLdv => exact .uLoad
  case uMma => exact .execUMma
  case uStep => exact .execUStep
  case uLoop => exact .execULoop
  case uGate => exact .execUGate
  case uPop => exact .execUPop
  case uPush => exact .execUPush
  case uScale => exact .execUScale
  case uChk => exact .execUChk
  case uWb => exact .execUWb
  case uSig => exact .execUSig
  case bTret => exact .execBTret
  case bDone => exact .execBDone
  case bYield => exact .execBYield
  case bTrig => exact .execBTrig
  case bJoin => exact .execBJoin
  case qFrame => exact .execQFrame
  case qIfence => exact .execQIfence
  case qLend => exact .execQLend
  case uEndl => exact .execUEndl
  case uEnd => exact .execUEnd
  case boot => exact .execBoot
  case thermalAlarm | thermalRecovery | fabricLaneFailure | unsupportedRequest | accessTableWrite | xlatinvComplete
      | sleepWake => exact .next fun h => .update h
  case thermalShutdown => exact .execThermalShutdown
  case hbmRowRepair => exact .execHbmRowRepair
  case correctableError => exact .execCorrectableError
  case freezeEnd => exact .execFreezeEnd
  case wordPoisoned => exact .execWordPoisoned
  case flitReplay => exact .execFlitReplay
  case routerPacketArrive => exact .execRouterPacketArrive
  case creditReturn => exact .execCreditReturn
  case hedgeQueueAssign => exact .execHedgeQueueAssign
  case hedgeQueueRelease => exact .execHedgeQueueRelease
  case congestionNotice | hedgeReleaseNotice => exact .next fun h => .noticed h
  case readRequest => exact .execReadRequest
  case writeRequest => exact .execWriteRequest
  case accumulateRequest => exact .execAccumulateRequest
  case fetchOpRequest => exact .execFetchOpRequest
  case readResponse => exact .execReadResponse
  case completionAcknowledgement => exact .execCompletionAcknowledgement
  case relayData => exact .execRelayData
  case inboxWord => exact .execInboxWord
  case inboxRefusal => exact .execInboxRefusal
  case outboxResend => exact .execOutboxResend
  case outboxSend => exact .execOutboxSend
  case requestTimeout => exact .execRequestTimeout
  case relayOpenRetry => exact .execRelayOpenRetry
  case relayStallTimeout => exact .execRelayStallTimeout
  case fabctlWrite => exact .next fun h => .writeFabctl h
  case registerWrite => exact .execRegisterWrite
  case windowDRead => exact .execWindowDRead
  case windowDWrite => exact .next fun h => .postWrite h
  case hostWriteForward => exact .execHostWriteForward
  case fnerrWrite | lqcfgWrite | lqpiWrite | skip => exact .postC
  case launchRecordRead => exact .execLaunchRecordRead
  case recordStart => exact .execRecordStart
  case vfFlr => exact .next fun h => .flr h
  case pfFlr => exact .execPfFlr
  case owner => exact .next fun h => .mailboxEnd h
  case install => exact .next fun h => .keyCommand h
  case revoke => exact .execRevoke
  case partmapWrite => exact .next fun h => .regWrite h
  case signatureVerifyEnd => exact .execSignatureVerifyEnd
  case xlatinvWrite => exact .next fun h => .writeXlatinv h
  case rangeEntryWrite => exact .next fun h => .writeRange h
  case pageWalkDone => exact .execPageWalkDone
  case streamReadDeliver => exact .execStreamReadDeliver
  case streamReadTimeout => exact .execStreamReadTimeout
  case recastDrainEnd => exact .execRecastDrainEnd
  case recastRewriteEnd => exact .execRecastRewriteEnd
  case migrationPolicy => exact .execMigrationPolicy
  case migrationPortsClosed => exact .execMigrationPortsClosed
  case migrationCopyDone => exact .execMigrationCopyDone
  case movedCompletion => exact .execMovedCompletion
  case kvgeomWrite | kvqlognWrite | kvqrelWrite => exact .next fun h => .kvWrite h
  case poolManagerRequest => exact .execPoolManagerRequest
  case graphLoad => exact .execGraphLoad
  case dispatchDecision => exact .execDispatchDecision
  case freeCoreSummary => exact .execFreeCoreSummary
  case poolMove => exact .execPoolMove
  case placementReserve => exact .execPlacementReserve
  case nodeStart => exact .execNodeStart
  case taskPoolInsert => exact .execTaskPoolInsert
  case rollCallComplete => exact .execRollCallComplete
  case watchdogExpiry => exact .execWatchdogExpiry
  case stampOverrun => exact .execStampOverrun
  case trapEntry => exact .execTrapEntry
  case engineFaultReport => exact .execEngineFaultReport
  case forcedSwap => exact .next fun h => .swapOut h
  case swapQuiesceEnd => exact .execSwapQuiesceEnd
  case swapResume => exact .execSwapResume
  case dumpackWrite => exact .next fun h => .partWrite h
  case halfRetentionEntry => exact .execHalfRetentionEntry
  case retentionExitEnd => exact .next fun h => .onCore_frame h fun _ => rfl
  case producerFill => exact .execProducerFill
  case loadDataReturn => exact .execLoadDataReturn
  case writeAcknowledgement => exact .execWriteAcknowledgement
  case compareVerdict => exact .execCompareVerdict
  case forwardedValueArrive => exact .execForwardedValueArrive
  case engineCommandStart => exact .execEngineCommandStart
  case slackStallRelease => exact .execSlackStallRelease
  case promiseWrite => exact .execPromiseWrite
  case copyRequestIssue => exact .execCopyRequestIssue
  case copyCommandComplete => exact .execCopyCommandComplete
  case tsUpdateArrive => exact .execTsUpdateArrive
  case xbarArbitrate => exact .execXbarArbitrate
  case xbarwtWrite => exact .next fun h => .writeXbarwt h
  case sliceTakePacket => exact .execSliceTakePacket
  case sliceReadData => exact .execSliceReadData
  case sliceWriteComplete => exact .execSliceWriteComplete
  case sliceRefreshStart => exact .execSliceRefreshStart
  case sliceRefreshEnd => exact .execSliceRefreshEnd
  case matrixCallStart => exact .execMatrixCallStart
  case matrixRowComplete => exact .execMatrixRowComplete
  case matrixCallComplete => exact .execMatrixCallComplete
  case zaccComplete => exact .execZaccComplete
  case uldComplete => exact .execUldComplete
  case getpWrite => exact .execGetpWrite

end Sys2Proof.Machine
end

section
/-! # From words to operations: no word is an event -/

namespace Sys2Proof.Machine

theorem zchk_eq_ok {z : Nat} {i j : Instr} : zchk z i = .ok j ↔ z = 0 ∧ i = j := by
  unfold zchk
  split <;> simp [*]

theorem decodeS_ne_dumpWritten (w : Nat) : decodeS w ≠ .ok .dumpWritten := by
  unfold decodeS
  split <;> simp [zchk_eq_ok]

theorem decodeB_ne_dumpWritten (w : Nat) : decodeB w ≠ .ok .dumpWritten := by
  unfold decodeB
  split <;> simp [zchk_eq_ok]

theorem decodeV_ne_dumpWritten (w : Nat) : decodeV w ≠ .ok .dumpWritten := by
  unfold decodeV
  split <;> simp [zchk_eq_ok]

theorem decodeM_ne_dumpWritten (w : Nat) : decodeM w ≠ .ok .dumpWritten := by
  unfold decodeM
  split <;> simp [zchk_eq_ok]

theorem decodeC_ne_dumpWritten (w : Nat) : decodeC w ≠ .ok .dumpWritten := by
  unfold decodeC
  split <;> simp [zchk_eq_ok]

theorem decodeQ_ne_dumpWritten (w : Nat) : decodeQ w ≠ .ok .dumpWritten := by
  unfold decodeQ
  split <;> simp [zchk_eq_ok]

theorem decodeU_ne_dumpWritten (w : Nat) : decodeU w ≠ .ok .dumpWritten := by
  unfold decodeU
  split <;> simp [zchk_eq_ok]

theorem decodeFields_ne_dumpWritten (w : Nat) : decodeFields w ≠ .ok .dumpWritten := by
  unfold decodeFields
  split
  · exact decodeS_ne_dumpWritten w
  · exact decodeB_ne_dumpWritten w
  · exact decodeV_ne_dumpWritten w
  · exact decodeM_ne_dumpWritten w
  · exact decodeC_ne_dumpWritten w
  · exact decodeQ_ne_dumpWritten w
  · nofun

theorem decodeMicro_ne_dumpWritten (w : Nat) : decodeMicro w ≠ .ok .dumpWritten := by
  intro e
  unfold decodeMicro checked at e
  split at e
  · rename_i i hi
    split at e <;> cases e
    exact decodeU_ne_dumpWritten w hi
  · cases e

theorem opSlots_ne_dumpWritten {sl : List SlotAt} {prof : Option Nat} {o : Instr × OpCtx}
    (ho : o ∈ (opSlots sl prof).filterMap (·.2)) : o.1 ≠ .dumpWritten := by
  obtain ⟨p, hp, ho⟩ := List.mem_filterMap.1 ho
  unfold opSlots at hp
  obtain ⟨⟨x, k⟩, _, rfl⟩ := List.mem_map.1 hp
  dsimp only at ho
  split at ho <;> cases ho
  rename_i j hj
  rintro rfl
  exact decodeFields_ne_dumpWritten _ hj

/-- A decoded group holds operations alone. -/
theorem ops_ne_dumpWritten {s : State} {g : Group} (hg : s.nextGroup = .ok g) : ∀ o ∈ g.ops, o.1 ≠ .dumpWritten := by
  unfold State.nextGroup decodeGroup at hg
  dsimp only at hg
  split at hg
  · cases hg
  · split at hg <;> cases hg
    exact fun o ho => opSlots_ne_dumpWritten ho

end Sys2Proof.Machine
end

section
/-! # Turns -/

namespace Sys2Proof.Machine

theorem Out.From.runOps : ∀ {l : List (Instr × OpCtx)} {s : State}, (∀ o ∈ l, o.1 ≠ .dumpWritten) →
    Out.From s (runOps l s)
  | [], _, _ => .next id
  | (i, c) :: r, s, hl => by
    obtain ⟨hi, hr⟩ := List.forall_mem_cons.1 hl
    obtain ⟨t, e, ht⟩ := Out.From.exec (s := { s with issue := { s.issue with ctx := c } }) hi
    unfold Machine.runOps
    rw [e]
    exact .mono (fun h => ht (.update h)) (Out.From.runOps hr)

theorem Out.From.runGroup {s : State} {g : Group} {prev : Option (BitVec 32 × BitVec 12)}
    (hg : ∀ o ∈ g.ops, o.1 ≠ .dumpWritten) : Out.From s (runGroup g prev s) := by
  unfold Machine.runGroup
  exact .ite (.next fun h => h.waiting) (.finishGroup (.mono (fun h => h.beginGroup) (.runOps hg)))

theorem Out.From.earlyGroup {s : State} {g : Group} (hg : ∀ o ∈ g.ops, o.1 ≠ .dumpWritten) :
    Out.From s (earlyGroup g s) := by
  unfold Machine.earlyGroup
  refine .ite (.next fun h => h.waiting) ?_
  obtain ⟨t, e, -⟩ := Out.From.runOps (s := s.beginGroup g) hg
  rw [e]
  refine .ite (.next fun h => h.waiting) ?_
  split
  · exact .next fun h => h.arrive
  · exact .next fun h => h.waiting

theorem Out.From.issueGroup {s : State} {g : Group} (hg : ∀ o ∈ g.ops, o.1 ≠ .dumpWritten) :
    Out.From s (issueGroup g s) := by
  unfold Machine.issueGroup
  dsimp only
  split
  · exact .ite (.next fun h => h.stageTrap) (.next fun h => .mapCore_frame h fun _ => rfl)
  · split
    · exact .runGroup hg
    · refine .ite (.next fun h => h.withSync.stageTrap) ?_
      split
      · exact .earlyGroup hg
      · exact .next fun h => h.withSync.stageTrap
      · exact .runGroup hg

theorem Out.From.seqTurn {s : State} {c : CoreId} : Out.From s (seqTurn c s) := by
  refine .mono (u := { s with cur := c, issue := Issue.idle }) (fun h => .update h) ?_
  unfold Machine.seqTurn
  refine .ite (.next fun h => h.waiting) ?_
  split
  · exact .next fun h => h.deliverTrap
  · refine .ite (.next fun h => h.waiting) ?_
    split
    · exact .next fun h => h.stageTrap
    · rename_i e
      dsimp only
      split
      · exact .next fun h => .stageTrap (.ite h h.takeFree)
      · exact .mono (fun h => .ite h h.takeFree) (.issueGroup (ops_ne_dumpWritten e))

theorem Out.From.microTurn {s : State} {c : CoreId} : Out.From s (microTurn c s) := by
  refine .mono (u := { s with cur := c, issue := Issue.idle }) (fun h => .update h) ?_
  unfold Machine.microTurn
  dsimp only
  split
  · exact .next id
  · refine .ite .libPhase (.ite (.next fun h => h.microStop) ?_)
    split
    · rename_i i e
      exact .exec fun hi => decodeMicro_ne_dumpWritten _ (hi ▸ e)
    · exact .next fun h => h.microStop

/-- A turn other than the writing of a dump. -/
theorem Out.From.takeTurn {s : State} {t : Turn} (ht : ∀ a, t ≠ .ev .dumpWritten a) : Out.From s (takeTurn t s) := by
  cases t with
  | seq c => exact .seqTurn
  | micro c => exact .microTurn
  | ev i a =>
    have hi : i ≠ .dumpWritten := fun e => ht a (e ▸ rfl)
    exact .mono (u := { s with inp := a, issue := Issue.idle }) (fun h => .update h) (.exec hi)
  | plan k => exact .next fun h => .update h
  | tick n => exact .next fun h => h.chargeDebt.tick
  | window d => exact .next fun h => h.takeWindows
  | readC f off => exact .next fun h => h.readC
  | power l => exact .next fun h => h.throttle

/-- The step of a state whose next turn is no writing of a dump; a new round begins with a plan. -/
theorem Out.From.step {s : State} (hs : ∀ a l, s.order ≠ .ev .dumpWritten a :: l) : Out.From s (step s) := by
  unfold Machine.step nextStep
  split
  · rename_i t r e
    refine .mono (u := { s with order := r }) (fun h => .update h) (.takeTurn fun a ha => hs a r ?_)
    rw [e, ha]
  · exact .next fun h => .update h

/-- The step of a state whose next turn is the writing of a dump. -/
theorem step_dumpWritten {s : State} {a : EventArgs} {l : List Turn} (e : s.order = .ev .dumpWritten a :: l) :
    step s = execDumpWritten { s with order := l, inp := a, issue := Issue.idle } := by
  unfold step nextStep
  rw [e]
  rfl

theorem step_keeps {s t : State} (h : s.Canonical) (e : step s = .next t) : t.Canonical := by
  by_cases hs : ∃ a l, s.order = .ev .dumpWritten a :: l
  · obtain ⟨a, l, ho⟩ := hs
    rw [step_dumpWritten ho] at e
    obtain hf | ⟨hf, -⟩ := execDumpWritten_cases { s with order := l, inp := a, issue := Issue.idle }
    · exact hf.keeps e (.update h)
    · rw [hf] at e
      cases e
  · exact Out.From.keeps (.step fun a l ho => hs ⟨a, l, ho⟩) e h

theorem Out.From.ne_refused {s : State} {o : Out} (ho : Out.From s o) (r : Refusal) : o ≠ .refused r := by
  obtain ⟨t, rfl, -⟩ := ho
  nofun

theorem Out.From.ne_fault {s : State} {o : Out} (ho : Out.From s o) (f : Fault) : o ≠ .fault f := by
  obtain ⟨t, rfl, -⟩ := ho
  nofun

theorem execDumpWritten_ne_refused (s : State) (r : Refusal) : execDumpWritten s ≠ .refused r := by
  obtain hf | ⟨hf, -⟩ := execDumpWritten_cases s
  · exact hf.ne_refused r
  · rw [hf]
    nofun

theorem execDumpWritten_fault {s : State} {f : Fault} (e : execDumpWritten s = .fault f) :
    ∃ a, f = .hole a ∧ a = (s.partAt s.inp.part).dumpbase.toNat ∧ paInHbm a = false ∧ paInHeath a = false := by
  obtain hf | ⟨hf, hmap⟩ := execDumpWritten_cases s
  · exact absurd e (hf.ne_fault f)
  · rw [hf] at e
    cases e
    exact ⟨_, rfl, rfl, hmap⟩

/-- Settles O59: every step is a turn, and every turn goes through updates that keep the form. -/
theorem stepKeepsMemories : Obligations.StepKeepsMemories := fun _ _ h e => step_keeps h e

/-- Settles O58. The one event that can stop the machine is the writing of a dump to an address that the map leaves
empty: the fault is the model's own choice (log entry 40, DESIGN CHOICE), R74 says nothing of dumps. -/
theorem noStepRefuses : Obligations.NoStepRefuses := by
  refine ⟨fun i s => ?_, fun s f e => execDumpWritten_fault e, fun s => ?_⟩
  · by_cases hi : i = .dumpWritten
    · subst hi
      exact ⟨execDumpWritten_ne_refused s, fun h => absurd rfl h⟩
    · obtain ⟨t, e, ht⟩ := Out.From.exec (s := s) hi
      exact ⟨Out.From.ne_refused ⟨t, e, ht⟩, fun _ => ⟨t, e⟩⟩
  · by_cases hs : ∃ a l, s.order = .ev .dumpWritten a :: l
    · obtain ⟨a, l, ho⟩ := hs
      rw [step_dumpWritten ho]
      exact ⟨execDumpWritten_ne_refused _, fun _ _ => ⟨a, l, ho⟩⟩
    · have hf : Out.From s (step s) := .step fun a l ho => hs ⟨a, l, ho⟩
      exact ⟨hf.ne_refused, fun f e => absurd e (hf.ne_fault f)⟩

end Sys2Proof.Machine
end

section
/-!
SUPPORT. The data of a recast that changes no format (04_spaces R64, R79), and O52.
-/

namespace Sys2Proof.Machine

/-- A recast changes no memory with its entry. -/
theorem State.recastFlip_ms_mem {s : State} {c : CoreId} {x : Ctx} {m : CopyCmd} {j : Nat} {r : Range} {size : Nat}
    {ovf nan : Bool} : (s.recastFlip c x m j r size ovf nan).ms.mem = s.ms.mem := by
  simp only [State.recastFlip, State.recastEnd, State.onRun, State.onCtx, State.rangeChanged, State.dropRange, State.dropTlb,
    State.onCore_ms, State.onCores_ms, State.onPart_ms]

/-- The data of an extent whose format stays is not converted. -/
theorem rewriteData_same (m : Memory) (r : Range) (a point : Nat) : rewriteData m r r.fmt a point = (m, r.size, false, false) := by
  unfold rewriteData
  rw [if_neg (by omega), if_neg (by omega)]

/-- A recast on this module into the immutable role that changes no format copies the extent's data to die W (R64). -/
theorem exec_recastRewriteEnd_copies {s : State} {j : Nat} {q : CopyRun} {r : Range}
    (hq : s.runOf s.inp.core s.inp.ctx = some q) (hj : q.phase = .recastRewrite j)
    (hr : (s.partAt (s.coreAt s.inp.core).csr.part.toFin).rangeIx j = some r) (htier : fld r.attr.toNat 51 50 ≠ 2)
    (hfmt : rcFmt q.cmd r = r.fmt) (hto : rcTo q.cmd = 1) (hrepl : r.has 49 = true) :
    ∃ t : State, exec .recastRewriteEnd s = .next t ∧
      t.ms.mem = s.ms.mem.copyRange r.pbase.toNat (r.pbase.toNat + 0x4000000000) r.size := by
  obtain ⟨m, ph⟩ := q
  obtain rfl : ph = .recastRewrite j := hj
  refine ⟨_, ?_, State.recastFlip_ms_mem (s := { s with ms := { s.ms with
    mem := s.ms.mem.copyRange r.pbase.toNat (r.pbase.toNat + 0x4000000000) r.size } })
    (c := s.inp.core) (x := s.inp.ctx) (m := m) (j := j) (r := r) (size := r.size) (ovf := false) (nan := false)⟩
  show execRecastRewriteEnd s = _
  unfold execRecastRewriteEnd
  simp only [hq, hr, if_neg htier, hfmt, rewriteData_same, hto, hrepl, and_self, if_true]

/-! ### A memory that lists a byte twice -/

/-- Byte 0x10000 of HBM is listed twice: it reads as 1, and a copy of it as 2. -/
def twiceListed : Memory := ⟨[(0x10000, 1), (0x10000, 2)], []⟩

theorem twiceListed_copy :
    (twiceListed.copyRange 0x10000 0x4000010000 8).read 0x4000010000 ≠ twiceListed.read 0x10000 := by
  decide

/-- An untyped extent of 8 bytes at 0x10000, with REPL. -/
def replExtent : Range := ⟨0, 8, 0x10000, .ofNat 64 (2 ^ 63 + 2 ^ 49)⟩

/-- Its recast into the immutable role, drained. -/
def replRecast : CopyRun where
  cmd := ⟨.cRecast 2 3 true 2 3, 1, [0, 0, 0x1000000000000000, 0], false, false, 3, none, 0, [], (0, 0), false, none, false⟩
  phase := .recastRewrite 0
  row := 0
  pos := 0
  bytes := 0
  rd := noRead
  out := []
  wd := none
  err := none
  stop := none
  behind := none
  flags := 0
  aux := 0
  crc := 0
  res := []
  since := 0
  bank := none
  sent := 0

/-- Context 0 of core 0 runs it, over that memory. -/
def recastTwice : State :=
  let s := (State.reset.onPart 0 fun p => { p with ranges := [(0, replExtent)] }).onCtx 0 0 fun k => { k with run := some replRecast }
  { s with ms := { s.ms with mem := twiceListed } }

theorem recastTwice_run : recastTwice.runOf recastTwice.inp.core recastTwice.inp.ctx = some replRecast := by
  decide +kernel

theorem recastTwice_range :
    (recastTwice.partAt (recastTwice.coreAt recastTwice.inp.core).csr.part.toFin).rangeIx 0 = some replExtent := by
  decide +kernel

/-- Refutes O52: a recast into the immutable role need not copy the bytes to die W, for the claim of recasts does not ask that the
memory be in its canonical form (`State.Canonical`). `recastTwice` lists byte 0x10000 twice, as 1 and then as 2. A read gives the
first; the copy writes both in turn, so the byte of the copy on die W is 2. No run from reset meets such a memory (O59, O60): what
fails is the statement over all states. -/
theorem not_pagesMove : ¬ Obligations.PagesMove := by
  rintro ⟨-, hrecasts, -⟩
  obtain ⟨-, hrewrite⟩ := hrecasts recastTwice 0 replRecast replExtent recastTwice_run recastTwice_range
  obtain ⟨hsame, -⟩ := hrewrite rfl (by decide)
  obtain ⟨t, ht, -, -, -, hcopied⟩ := hsame (.inl (by decide)) (.inl (by decide))
  obtain ⟨u, hu, hmem⟩ := exec_recastRewriteEnd_copies recastTwice_run rfl recastTwice_range (by decide) (by decide) (by decide)
    (by decide)
  obtain rfl : t = u := Host.Outcome.next.inj (ht.symm.trans hu)
  have hread := (hcopied (by decide) ⟨by decide, by decide⟩).1 0 (by decide)
  rw [hmem] at hread
  exact twiceListed_copy hread

end Sys2Proof.Machine
end

section
/-!
SUPPORT. The state at reset (06_scheduler R111, 07_faults R148, 10_core R197 to R203, R218, 20_prog_chase R379), and O60.
-/

namespace Sys2Proof.Machine

@[simp] theorem State.coreAt_reset (c : CoreId) : State.reset.coreAt c = Core.reset (.ofNat 8 c.val) := by
  rw [State.coreAt, vector_get]
  exact tabulate_getElem _ _ c.isLt

theorem reset_canonical : State.reset.Canonical := by
  refine ⟨reset_mem_wf, fun c => ?_, fun k hk => absurd hk List.not_mem_nil⟩
  rw [State.coreAt_reset]
  rfl

/-- The module at reset, seen from a core. -/
def resetAt (c : CoreId) : State := { State.reset with cur := c }

theorem resetAt_core (c : CoreId) : (resetAt c).core = Core.reset (.ofNat 8 c.val) := State.coreAt_reset c

theorem resetAt_csrWas (c : CoreId) : (resetAt c).csrWas = Csr.reset (.ofNat 8 c.val) :=
  congrArg Core.csr (resetAt_core c)

theorem resetAt_lift (c : CoreId) : (resetAt c).lift = Lift.reset := congrArg Core.lift (resetAt_core c)

theorem resetAt_regs (c : CoreId) : (resetAt c).regs = Regs.reset := congrArg Core.regs (resetAt_core c)

/-! The control registers that the rules name read at reset alike on every core. -/

theorem csr_reset_status (n : BitVec 8) : fld (Csr.reset n).status.toNat 5 0 = 0 := by
  simp [Csr.status, Csr.reset, b2n, fld]
theorem csr_reset_vfmt (n : BitVec 8) : (Csr.reset n).vfmt = 0 := by simp [Csr.vfmt, Csr.reset, b2n]
theorem csr_reset_slack (n : BitVec 8) : (Csr.reset n).slack = 0x0000FFFF00000000 := by simp [Csr.slack, Csr.reset]
theorem lift_reset_liftx : Lift.reset.liftx = 4 := rfl

theorem regs_reset_getP_zero : Regs.reset.getP 0 = true := rfl

theorem resetAt_registers (c : CoreId) : let s := resetAt c
    (∃ v, s.readCsr 0x00 = some v ∧ fld v.toNat 5 0 = 0) ∧ s.readCsr 0x06 = some 0 ∧ s.readCsr 0x07 = some 0 ∧
    s.readCsr 0x08 = some 0 ∧ s.readCsr 0x09 = some 0x0000FFFF00000000 ∧ s.readCsr 0x0E = some 4 ∧
    s.readCsr 0x0F = some 0xFFFFFFFFFFFFFFFF ∧ s.regs.getP 0 = true ∧ s.regs.getK 0 = BitVec.allOnes 1024 ∧
    s.regs.getS 0 = 0 := by
  simp only [State.readCsr, resetAt_csrWas, resetAt_lift, resetAt_regs]
  exact ⟨⟨_, rfl, csr_reset_status _⟩, congrArg some (csr_reset_vfmt _), rfl, rfl, congrArg some (csr_reset_slack _),
    congrArg some lift_reset_liftx, rfl, regs_reset_getP_zero, rfl, rfl⟩

theorem cfg_reset (p : PartId) : (State.reset.partAt p).cfg p = .ofNat 64 p.val := by
  have hp : State.reset.partAt p = Part.reset := by simp [State.partAt, State.reset, vector_get]
  simp [hp, Part.cfg, Part.reset, b2n]

theorem xbar_wt_reset (d : Die) : (State.reset.xbarAt d).wt = 0x2414 := by
  simp [State.xbarAt, State.reset, vector_get, Xbar.reset]

theorem sched_wt_reset (d : Die) : State.reset.sched.wt.get (dieIx d) = 1 := by
  simp [State.reset, Sched.reset, vector_get]

/-- Settles O60: the memories of reset are empty, and its values are read off core by core, partition by partition and die by
die. -/
theorem resetState : Obligations.ResetState :=
  ⟨reset_canonical, resetAt_registers, cfg_reset, fun d => ⟨xbar_wt_reset d, sched_wt_reset d⟩⟩

end Sys2Proof.Machine
end

section
/-!
SUPPORT. Roll calls (06_scheduler R118, 08_ordering R167, 10_core R210): when one completes, and what it does to cores, to
their exchange banks and to parked nodes.
-/

namespace Sys2Proof.Machine

/-! ### Clearing blocks of a memory -/

theorem cellsRead_filter (p : Nat → Bool) (l : List Host.Cell) (b : Nat) :
    cellsRead (l.filter fun c => p c.1) b = if p b = true then cellsRead l b else unlisted := by
  induction l with
  | nil => simp [cellsRead]
  | cons c l ih =>
    obtain ⟨k, v⟩ := c
    by_cases hk : k = b
    · subst hk
      by_cases hp : p k = true
      · simp [List.filter_cons_of_pos, hp, cellsRead]
      · rw [List.filter_cons_of_neg (by simpa using hp), ih, if_neg hp, if_neg hp]
    · rw [List.filter_cons]
      split <;> simp only [cellsRead, if_neg hk, ih]

theorem Memory.read_zeroRange (m : Memory) (a n b : Nat) :
    (m.zeroRange a n).read b = if a ≤ b ∧ b < a + n then 0 else m.read b := by
  have h := cellsRead_filter (fun k => decide (k < a) || decide (a + n ≤ k)) m.cells b
  unfold Memory.read Memory.zeroRange
  refine h.trans ?_
  by_cases hb : a ≤ b ∧ b < a + n
  · rw [if_pos hb, if_neg (by simp; omega)]
    rfl
  · rw [if_neg hb, if_pos (by simp; omega)]

/-- Several ranges of one length that are cleared one after another. -/
theorem Memory.read_zeroRanges (n b : Nat) (l : List Nat) (m : Memory) :
    (l.foldl (fun m a => m.zeroRange a n) m).read b = if ∃ a ∈ l, a ≤ b ∧ b < a + n then 0 else m.read b := by
  induction l generalizing m with
  | nil => simp
  | cons a l ih =>
    rw [List.foldl_cons, ih, Memory.read_zeroRange]
    by_cases ha : a ≤ b ∧ b < a + n <;> simp [ha]

/-! ### The exchange of banks (R210) -/

/-- An address of a block that XCLR names of the live bank. -/
def Core.clears (x : Core) (a : Nat) : Prop :=
  ∃ i, i < 8 ∧ x.csr.xclr.getLsbD i = true ∧ (if x.live1 = true then 0x280000 else 0x200000) + i * 0x10000 ≤ a ∧
    a < (if x.live1 = true then 0x280000 else 0x200000) + i * 0x10000 + 0x10000

theorem Core.clears_iff (x : Core) (a : Nat) : x.clears a ↔ ∃ k ∈ x.clearedBlocks, k ≤ a ∧ a < k + 0x10000 := by
  unfold Core.clears Core.clearedBlocks
  simp only [List.mem_map, List.mem_filter, List.mem_range, bitOf_eq_testBit]
  constructor
  · rintro ⟨i, hi, hb, hlo, hhi⟩
    exact ⟨_, ⟨i, ⟨hi, hb⟩, rfl⟩, hlo, hhi⟩
  · rintro ⟨_, ⟨i, ⟨hi, hb⟩, rfl⟩, hlo, hhi⟩
    exact ⟨i, hi, hb, hlo, hhi⟩

theorem Core.swapBanks_cleared {x : Core} {a : Nat} (h : x.clears a) : x.swapBanks.scratch.read a = 0 :=
  (Memory.read_zeroRanges 0x10000 a x.clearedBlocks x.scratch).trans (if_pos ((x.clears_iff a).1 h))

theorem Core.swapBanks_kept {x : Core} {a : Nat} (h : ¬ x.clears a) : x.swapBanks.scratch.read a = x.scratch.read a :=
  (Memory.read_zeroRanges 0x10000 a x.clearedBlocks x.scratch).trans (if_neg fun g => h ((x.clears_iff a).2 g))

/-- A core that is held at an entry's roll call goes on. -/
def Core.goOn (e : BitVec 8) (x : Core) : Core := if x.seq.held.any (·.1 == e) then x.rollOn else x

section
variable (e : BitVec 8) (x : Core)

theorem Core.goOn_regs : (x.goOn e).regs = x.regs := by unfold Core.goOn; split <;> rfl
theorem Core.goOn_csr : (x.goOn e).csr = x.csr := by unfold Core.goOn; split <;> rfl
theorem Core.goOn_scratch : (x.goOn e).scratch = x.scratch := by unfold Core.goOn; split <;> rfl
theorem Core.goOn_live1 : (x.goOn e).live1 = x.live1 := by unfold Core.goOn; split <;> rfl

theorem Core.goOn_held {e : BitVec 8} {b : Bool} {x : Core} (h : x.seq.held = some (e, b)) :
    (x.goOn e).seq.held = none ∧ (x.goOn e).seq.rolled = true := by
  simp [Core.goOn, h, Core.rollOn, Core.onSeq]
end

/-- What a roll call does to a core that stands for a member. -/
def Core.afterRoll (e : BitVec 8) (swap : Bool) (x : Core) : Core := (if swap then x.swapBanks else x).goOn e

/-! ### Nodes that become ready again -/

theorem State.instAt_none_iff (s : State) (id : Nat) : s.instAt id = none ↔ ∀ i ∈ s.sched.insts, i.id ≠ id := by
  simp [State.instAt]

theorem State.id_of_instAt {s : State} {id : Nat} {i : Inst} (h : s.instAt id = some i) : i.id = id :=
  beq_iff_eq.1 (List.find?_some (p := fun i : Inst => i.id == id) h)

/-- An update of the nodes of a number changes what that number finds, and nothing that another finds. -/
theorem State.instAt_onInst (s : State) {f : Inst → Inst} (hf : ∀ i, (f i).id = i.id) (id k : Nat) :
    (s.onInst id f).instAt k = (s.instAt k).map fun i => if i.id == id then f i else i := by
  show List.find? _ (s.sched.insts.map fun i => if i.id == id then f i else i) = _
  rw [List.find?_map]
  congr 2
  funext i
  simp only [Function.comp]
  split
  · rw [hf]
  · rfl

theorem State.makeReady_none {s : State} {id : Nat} (h : s.instAt id = none) (d : Die) : s.makeReady id d = s := by
  simp [State.makeReady, h]

/-- A node that becomes ready is updated under its number. -/
theorem State.makeReady_some {s : State} {id : Nat} {i : Inst} (h : s.instAt id = some i) (d : Die) :
    ∃ f : Inst → Inst, (∀ i, (f i).state = .ready) ∧ s.makeReady id d = s.onInst id f := by
  simp only [State.makeReady, h]
  exact ⟨_, fun _ => rfl, rfl⟩

/-- What making nodes ready leaves alone. -/
structure ReadyFrame (s t : State) : Prop where
  cores : t.cores = s.cores
  ms : t.ms = s.ms
  groups : t.sched.groups = s.sched.groups
  ready : ∀ k, (∀ j ∈ s.sched.insts, j.id = k → j.state = .ready) →
    ∀ j ∈ t.sched.insts, j.id = k → j.state = .ready

theorem ReadyFrame.refl (s : State) : ReadyFrame s s := ⟨rfl, rfl, rfl, fun _ h => h⟩

theorem ReadyFrame.trans {s t u : State} (h : ReadyFrame s t) (g : ReadyFrame t u) : ReadyFrame s u :=
  ⟨g.cores.trans h.cores, g.ms.trans h.ms, g.groups.trans h.groups, fun k hk => g.ready k (h.ready k hk)⟩

theorem State.makeReady_frame (s : State) (id : Nat) (d : Die) : ReadyFrame s (s.makeReady id d) := by
  cases h : s.instAt id with
  | none =>
    rw [State.makeReady_none h]
    exact .refl s
  | some i =>
    obtain ⟨f, hf, e⟩ := State.makeReady_some h d
    rw [e]
    refine ⟨rfl, rfl, rfl, fun k hk j hj => ?_⟩
    obtain ⟨i, hi, rfl⟩ := List.mem_map.1 hj
    split
    · exact fun _ => hf i
    · exact hk i hi

/-- The instances of the number are ready. -/
theorem State.makeReady_ready (s : State) (id : Nat) (d : Die) :
    ∀ j ∈ (s.makeReady id d).sched.insts, j.id = id → j.state = .ready := by
  cases h : s.instAt id with
  | none =>
    rw [State.makeReady_none h]
    exact fun j hj hid => absurd hid ((s.instAt_none_iff id).1 h j hj)
  | some i =>
    obtain ⟨f, hf, e⟩ := State.makeReady_some h d
    rw [e]
    intro j hj
    obtain ⟨i, hi, rfl⟩ := List.mem_map.1 hj
    split
    · exact fun _ => hf i
    · next hne => exact fun hid => absurd (beq_iff_eq.2 hid) hne

/-- Several nodes become ready, one after another. -/
def State.readyAll (s : State) (l : List Inst) : State := l.foldl (fun s i => s.makeReady i.id i.die) s

theorem State.readyAll_frame (l : List Inst) (s : State) : ReadyFrame s (s.readyAll l) := by
  induction l generalizing s with
  | nil => exact .refl s
  | cons i l ih => exact (s.makeReady_frame i.id i.die).trans (ih _)

theorem State.readyAll_ready {l : List Inst} {i : Inst} (h : i ∈ l) (s : State) :
    ∀ j ∈ (s.readyAll l).sched.insts, j.id = i.id → j.state = .ready := by
  induction l generalizing s with
  | nil => exact absurd h List.not_mem_nil
  | cons k l ih =>
    rcases List.mem_cons.1 h with rfl | h
    · exact (State.readyAll_frame l _).ready _ (s.makeReady_ready i.id i.die)
    · exact ih h _

/-! ### Completing a roll call (R118) -/

/-- The phase of an entry rises. -/
def raisePhase (e : BitVec 8) (l : List (BitVec 8 × GroupEnt)) : List (BitVec 8 × GroupEnt) :=
  l.map fun g => if g.1 == e then (e, { g.2 with phase := g.2.phase + 1 }) else g

theorem find?_raisePhase {e : BitVec 8} {g : GroupEnt} {l : List (BitVec 8 × GroupEnt)}
    (h : l.find? (·.1 == e) = some (e, g)) :
    (raisePhase e l).find? (·.1 == e) = some (e, { g with phase := g.phase + 1 }) := by
  have hkey : ((fun x : BitVec 8 × GroupEnt => x.1 == e) ∘ fun x => if x.1 == e then (e, { x.2 with phase := x.2.phase + 1 })
      else x) = fun x => x.1 == e := by
    funext x
    simp only [Function.comp]
    split
    · next hx => rw [hx, beq_self_eq_true]
    · rfl
  rw [raisePhase, List.find?_map, hkey, h]
  simp

/-- The state in which the phase has risen, release sequences have ended and the cores go on. -/
def State.rolled (s : State) (e : BitVec 8) (l : List CoreId) (swap : Bool) : State :=
  ((s.onSched fun h => { h with groups := raisePhase e h.groups }).setRels (s.ms.rels.filter fun r =>
    !(if swap then l.flatMap fun c => (s.coreAt c).clearedBlocks.map (scratchPlace c) else []).any
      fun a => a ≤ r.1 && r.1 < a + 0x10000)).onCores (fun c _ => l.contains c) (Core.afterRoll e swap)

/-- A node is parked on another phase of an entry than the one the entry has. -/
def Inst.parkedPast (i : Inst) (e : BitVec 8) (p : BitVec 32) : Bool :=
  match i.state with
  | .parked e' k => e' == e && p != k
  | _ => false

theorem Inst.parkedPast_of {i : Inst} {e : BitVec 8} {p k : BitVec 32} (h : i.state = .parked e k) (hk : k ≠ p) :
    i.parkedPast e p = true := by
  simp [Inst.parkedPast, h, hk.symm]

theorem State.rollCall_eq (s : State) (e : BitVec 8) (l : List CoreId) (swap : Bool) : s.rollCall e l swap =
    (s.rolled e l swap).readyAll ((s.rolled e l swap).sched.insts.filter fun i =>
      i.parkedPast e ((s.rolled e l swap).phase e)) := rfl

theorem State.coreAt_rolled (s : State) (e : BitVec 8) (l : List CoreId) (swap : Bool) (c : CoreId) :
    (s.rolled e l swap).coreAt c = if c ∈ l then (s.coreAt c).afterRoll e swap else s.coreAt c := by
  unfold State.rolled
  rw [State.coreAt_onCores]
  simp only [List.contains_iff_mem]
  rfl

theorem State.sched_rolled (s : State) (e : BitVec 8) (l : List CoreId) (swap : Bool) :
    (s.rolled e l swap).sched = { s.sched with groups := raisePhase e s.sched.groups } := by
  unfold State.rolled
  rw [State.onCores_sched]
  rfl

theorem State.mem_rolled (s : State) (e : BitVec 8) (l : List CoreId) (swap : Bool) :
    (s.rolled e l swap).ms.mem = s.ms.mem := by
  unfold State.rolled
  rw [State.onCores_ms]
  rfl

theorem State.rollCall_frame (s : State) (e : BitVec 8) (l : List CoreId) (swap : Bool) :
    ReadyFrame (s.rolled e l swap) (s.rollCall e l swap) := by
  rw [State.rollCall_eq]
  exact State.readyAll_frame _ _

theorem State.coreAt_rollCall (s : State) (e : BitVec 8) (l : List CoreId) (swap : Bool) (c : CoreId) :
    (s.rollCall e l swap).coreAt c = if c ∈ l then (s.coreAt c).afterRoll e swap else s.coreAt c := by
  rw [State.coreAt, (s.rollCall_frame e l swap).cores]
  exact s.coreAt_rolled e l swap c

theorem State.groups_rollCall (s : State) (e : BitVec 8) (l : List CoreId) (swap : Bool) :
    (s.rollCall e l swap).sched.groups = raisePhase e s.sched.groups := by
  rw [(s.rollCall_frame e l swap).groups, State.sched_rolled]

theorem State.mem_rollCall (s : State) (e : BitVec 8) (l : List CoreId) (swap : Bool) :
    (s.rollCall e l swap).ms.mem = s.ms.mem := by
  rw [(s.rollCall_frame e l swap).ms, State.mem_rolled]

/-- Nodes parked on another phase than the new one are ready. -/
theorem State.rollCall_ready {s : State} {e : BitVec 8} {g : GroupEnt} (h : s.sched.groups.find? (·.1 == e) = some (e, g))
    (l : List CoreId) (swap : Bool) {i : Inst} (hi : i ∈ s.sched.insts) {k : BitVec 32} (hp : i.state = .parked e k)
    (hk : k ≠ g.phase + 1) : ∀ j ∈ (s.rollCall e l swap).sched.insts, j.id = i.id → j.state = .ready := by
  have hphase : (s.rolled e l swap).phase e = g.phase + 1 := by
    rw [State.phase, State.sched_rolled, find?_raisePhase h]
    rfl
  rw [State.rollCall_eq, hphase]
  refine State.readyAll_ready (List.mem_filter.2 ⟨?_, Inst.parkedPast_of hp hk⟩) _
  rw [State.sched_rolled]
  exact hi

/-! ### When a roll call completes -/

/-- The cores that stand for the members of an entry. -/
def State.rollCores (s : State) (g : GroupEnt) : List CoreId :=
  ((allCores.filter fun c => g.members.getLsbD c.val).flatMap s.memberCores).eraseDups

/-- One of them swaps its banks. -/
def State.rollSwaps (s : State) (e : BitVec 8) (l : List CoreId) : Bool :=
  l.any fun c => (s.coreAt c).seq.held.any fun h => h.1 == e && h.2

theorem State.rollSwaps_iff (s : State) (e : BitVec 8) (l : List CoreId) :
    s.rollSwaps e l = true ↔ ∃ c ∈ l, (s.coreAt c).seq.held = some (e, true) := by
  simp [State.rollSwaps, Option.any_eq_true]

theorem State.heldAt_iff (s : State) (e : BitVec 8) (c : CoreId) : s.heldAt e c = true ↔
    (∃ b, (s.coreAt c).seq.held = some (e, b)) ∨
      ((s.coreAt c).seq.mode = .done ∧ ∃ i, s.instOf c = some i ∧ i.entry = some e) := by
  simp [State.heldAt, Option.any_eq_true]

theorem State.rollReady_iff (s : State) (swap : Bool) (c : CoreId) : s.rollReady swap c = true ↔
    (s.coreAt c).openIds = [] ∧ (swap = true → s.shadowCopy c 0 = false ∧ s.shadowCopy c 1 = false ∧
      ∀ r, (s.coreAt c).matrix.run = some r → r.wbOut = []) := by
  cases swap <;> simp [State.rollReady, and_assoc, Option.all_eq_true]

theorem members_isEmpty (g : GroupEnt) :
    (allCores.filter fun c => g.members.getLsbD c.val).isEmpty = true ↔ g.members = 0 := by
  rw [List.isEmpty_iff]
  constructor
  · intro h
    refine BitVec.eq_of_getLsbD_eq fun i hi => ?_
    have hn := List.filter_eq_nil_iff.1 h ⟨i, hi⟩ (mem_allCores _)
    simpa using hn
  · intro h
    simp [h]

/-- A roll call that waits: there is no member, the partition is swapped out, a member has not arrived, or the earlier accesses
of one are not performed. -/
def State.rollWaits (s : State) (e : BitVec 8) (g : GroupEnt) : Prop :=
  g.members = 0 ∨ (s.partAt g.part).swapped = true ∨ ¬ (∀ c ∈ s.rollCores g, s.heldAt e c = true) ∨
    ¬ ∀ c ∈ s.rollCores g, s.rollReady (s.rollSwaps e (s.rollCores g)) c = true

theorem exec_rollCallComplete {s : State} {e : BitVec 8} {g : GroupEnt} (he : .ofNat 8 s.inp.n = e)
    (h : s.sched.groups.find? (·.1 == e) = some (e, g)) : exec .rollCallComplete s =
      if (allCores.filter fun c => g.members.getLsbD c.val).isEmpty = true ∨ (s.partAt g.part).swapped = true ∨
        (!(s.rollCores g).all (s.heldAt e)) = true ∨
        (!(s.rollCores g).all (s.rollReady (s.rollSwaps e (s.rollCores g)))) = true then .next s
      else .next (s.rollCall e (s.rollCores g) (s.rollSwaps e (s.rollCores g))) := by
  subst he
  show execRollCallComplete s = _
  have hbits : ∀ c : CoreId, bitOf g.members.toNat c.val = g.members.getLsbD c.val := fun c => bitOf_eq_testBit _ _
  unfold execRollCallComplete
  simp only [h, hbits]
  rfl

theorem State.rollWaits_iff (s : State) (e : BitVec 8) (g : GroupEnt) : s.rollWaits e g ↔
    (allCores.filter fun c => g.members.getLsbD c.val).isEmpty = true ∨ (s.partAt g.part).swapped = true ∨
      (!(s.rollCores g).all (s.heldAt e)) = true ∨
      (!(s.rollCores g).all (s.rollReady (s.rollSwaps e (s.rollCores g)))) = true := by
  rw [members_isEmpty, Bool.not_eq_true', Bool.not_eq_true', ← Bool.not_eq_true, ← Bool.not_eq_true, List.all_eq_true,
    List.all_eq_true, State.rollWaits]

theorem exec_rollCallComplete_waits {s : State} {e : BitVec 8} {g : GroupEnt} (he : .ofNat 8 s.inp.n = e)
    (h : s.sched.groups.find? (·.1 == e) = some (e, g)) (hw : s.rollWaits e g) : exec .rollCallComplete s = .next s :=
  (exec_rollCallComplete he h).trans (if_pos ((s.rollWaits_iff e g).1 hw))

theorem exec_rollCallComplete_goes {s : State} {e : BitVec 8} {g : GroupEnt} (he : .ofNat 8 s.inp.n = e)
    (h : s.sched.groups.find? (·.1 == e) = some (e, g)) (hw : ¬ s.rollWaits e g) : exec .rollCallComplete s =
      .next (s.rollCall e (s.rollCores g) (s.rollSwaps e (s.rollCores g))) :=
  (exec_rollCallComplete he h).trans (if_neg fun g' => hw ((s.rollWaits_iff e g).2 g'))

/-! ### What a roll call does to its members -/

section
variable {s : State} {e : BitVec 8} {l : List CoreId} {c : CoreId}

theorem State.rollCall_member (hc : c ∈ l) (swap : Bool) :
    (∀ b, (s.coreAt c).seq.held = some (e, b) →
      ((s.rollCall e l swap).coreAt c).seq.held = none ∧ ((s.rollCall e l swap).coreAt c).seq.rolled = true) ∧
    ((s.rollCall e l swap).coreAt c).regs = (s.coreAt c).regs ∧
    ((s.rollCall e l swap).coreAt c).csr = (s.coreAt c).csr := by
  rw [State.coreAt_rollCall, if_pos hc, Core.afterRoll, Core.goOn_regs, Core.goOn_csr]
  cases swap
  · exact ⟨fun b hb => Core.goOn_held hb, rfl, rfl⟩
  · exact ⟨fun b hb => Core.goOn_held (x := (s.coreAt c).swapBanks) hb, rfl, rfl⟩

/-- Of a swap the members exchange their banks. -/
theorem State.rollCall_swaps (hc : c ∈ l) : ((s.rollCall e l true).coreAt c).live1 = !(s.coreAt c).live1 ∧
    ∀ a, ((s.coreAt c).clears a → ((s.rollCall e l true).coreAt c).scratch.read a = 0) ∧
      (¬ (s.coreAt c).clears a → ((s.rollCall e l true).coreAt c).scratch.read a = (s.coreAt c).scratch.read a) := by
  rw [State.coreAt_rollCall, if_pos hc, Core.afterRoll, Core.goOn_live1, Core.goOn_scratch]
  exact ⟨rfl, fun a => ⟨Core.swapBanks_cleared, Core.swapBanks_kept⟩⟩

theorem State.rollCall_plain (s : State) (e : BitVec 8) (l : List CoreId) (c : CoreId) :
    ((s.rollCall e l false).coreAt c).scratch = (s.coreAt c).scratch ∧
    ((s.rollCall e l false).coreAt c).live1 = (s.coreAt c).live1 := by
  rw [State.coreAt_rollCall]
  split
  · rw [Core.afterRoll, Core.goOn_live1, Core.goOn_scratch]
    exact ⟨rfl, rfl⟩
  · exact ⟨rfl, rfl⟩
end

/-- The claim of roll calls. -/
theorem claim_rollCalls : Claim.RollCalls := by
  intro s g e l swap held quiet base cleared hg
  have hl : l = s.rollCores g := rfl
  have hswap : s.rollSwaps e l = true ↔ swap := s.rollSwaps_iff e l
  have hheld : (∀ c ∈ l, s.heldAt e c = true) ↔ held := forall₂_congr fun c _ => s.heldAt_iff e c
  have hquiet : (∀ c ∈ l, s.rollReady (s.rollSwaps e l) c = true) ↔ quiet :=
    forall₂_congr fun c _ => by rw [State.rollReady_iff, hswap]
  have hwaits : s.rollWaits e g ↔ g.members = 0 ∨ (s.partAt g.part).swapped = true ∨ ¬ held ∨ ¬ quiet := by
    rw [← hheld, ← hquiet]
    rfl
  refine ⟨fun h => exec_rollCallComplete_waits rfl hg (hwaits.2 h), fun hm hp hh hq =>
    ⟨_, exec_rollCallComplete_goes rfl hg ?go, ?phase, fun c hc => State.rollCall_member hc _, fun hs c hc => ?swaps,
      fun hs => ?plain, fun c hc => ?others, fun i hi k hk hne => State.rollCall_ready hg _ _ hi hk hne,
      State.mem_rollCall _ _ _ _⟩⟩
  case go =>
    rw [hwaits, hp]
    rintro (h | h | h | h)
    · exact hm h
    · exact Bool.noConfusion h
    · exact h hh
    · exact h hq
  case phase =>
    rw [State.groups_rollCall, find?_raisePhase hg]
    rfl
  case swaps =>
    rw [← hl, hswap.2 hs]
    exact State.rollCall_swaps hc
  case plain =>
    rw [← hl, Bool.eq_false_iff.2 (mt hswap.1 hs)]
    exact State.rollCall_plain s e l
  case others => exact (State.coreAt_rollCall _ _ _ _ _).trans (if_neg hc)

end Sys2Proof.Machine
end

section
/-!
SUPPORT. Forced swaps (07_faults R142, R145): the halting of a partition's cores, and the saving of their contexts.
-/

namespace Sys2Proof.Machine

/-! ### Halting -/

theorem Core.halt_acc (x : Core) : x.halt.acc = x.acc := by
  obtain ⟨r, c, l, h⟩ := x.drain_eq
  simp [Core.halt, h]

theorem Core.halt_pc (x : Core) : x.halt.seq.pc = x.seq.pc := by
  obtain ⟨r, c, l, h⟩ := x.drain_eq
  simp [Core.halt, h]

theorem Core.halt_locks (x : Core) : x.halt.locks = [] := rfl

/-- R145: what a core keeps as it is halted. -/
theorem Core.halt_effect (x : Core) : (x.seq.mode = .running → x.halt.seq.mode = .halted) ∧
    (x.seq.mode ≠ .running → x.halt.seq.mode = x.seq.mode) ∧ x.halt.locks = [] ∧ x.halt.scratch = x.scratch ∧
    x.halt.acc = x.acc ∧ x.halt.seq.pc = x.seq.pc :=
  ⟨fun h => x.halt_mode.trans (if_pos h), fun h => x.halt_mode.trans (if_neg h), x.halt_locks, x.halt_scratch, x.halt_acc,
    x.halt_pc⟩

/-- R145: steps 1 and 2 of a forced swap. -/
theorem State.swapOut_effect {s : State} {p : PartId} (h : (s.partAt p).swapped = false) :
    (s.swapOut p).partAt p = { s.partAt p with swapped := true } ∧
    (∀ c ∈ s.runCores p, (s.swapOut p).coreAt c = (s.coreAt c).halt) ∧
    (∀ c, c ∉ s.runCores p → (s.swapOut p).coreAt c = s.coreAt c) ∧
    (s.swapOut p).ms.mem = s.ms.mem ∧ (s.swapOut p).sched = s.sched := by
  refine ⟨?_, fun c hc => ?_, fun c hc => ?_, (s.swapOut_frame p).mem, (s.swapOut_frame p).sched⟩
  · rw [State.swapOut_running h, State.partAt_onPart, if_pos rfl]
    simp [State.partAt, State.withdrawn]
  · rw [State.coreAt_swapOut h, if_pos hc]
  · rw [State.coreAt_swapOut h, if_neg hc]

/-! ### Saving contexts -/

/-- The satchel in which a core's context is saved. -/
def State.satchelOf (s : State) (p : PartId) (c : CoreId) : Satchel :=
  ⟨c, p, (s.coreAt c).context, [], s.cyc + 2560, false⟩

/-- The state in which the contexts of a partition are saved and its cores run nothing. -/
def State.swapSaved (s : State) (p : PartId) : State :=
  { s with satchels := s.satchels ++ (s.runCores p).map (s.satchelOf p) }.onCores
    (fun c _ => (s.runCores p).contains c) Core.vacate

theorem State.coreAt_swapSaved (s : State) (p : PartId) (c : CoreId) :
    (s.swapSaved p).coreAt c = if c ∈ s.runCores p then (s.coreAt c).vacate else s.coreAt c := by
  unfold State.swapSaved
  rw [State.coreAt_onCores]
  simp only [List.contains_iff_mem]
  rfl

theorem State.swapSaved_sched (s : State) (p : PartId) : (s.swapSaved p).sched = s.sched := by
  rw [State.swapSaved, State.onCores_sched]
theorem State.swapSaved_ms (s : State) (p : PartId) : (s.swapSaved p).ms = s.ms := by
  rw [State.swapSaved, State.onCores_ms]
theorem State.swapSaved_parts (s : State) (p : PartId) : (s.swapSaved p).parts = s.parts := by
  rw [State.swapSaved, State.onCores_parts]
theorem State.swapSaved_satchels (s : State) (p : PartId) :
    (s.swapSaved p).satchels = s.satchels ++ (s.runCores p).map (s.satchelOf p) := by
  rw [State.swapSaved, State.onCores_satchels]

/-- The running nodes of a partition whose watchdog has expired. -/
def State.expiredOf (s : State) (p : PartId) : List Inst :=
  s.sched.insts.filter fun i => i.expired && i.vf == p && i.state == .running

theorem exec_swapQuiesceEnd_waits {s : State} (h : (s.partAt s.inp.part).swapped = false ∨
    ¬ ∀ c ∈ s.runCores s.inp.part, s.quiet c = true) : exec .swapQuiesceEnd s = .next s := by
  show execSwapQuiesceEnd s = _
  unfold execSwapQuiesceEnd
  refine if_pos (h.imp (fun h => ?_) fun h => ?_)
  · rw [h]
    rfl
  · rw [Bool.not_eq_true', ← Bool.not_eq_true, List.all_eq_true]
    exact h

theorem State.expiredOf_swapSaved (s : State) (p : PartId) : (s.swapSaved p).expiredOf p = s.expiredOf p := by
  rw [State.expiredOf, State.swapSaved_sched]
  rfl

/-- The end of a swap: after a watchdog's the nodes fail, and firmware returns the partition. -/
def State.afterSave (s : State) (p : PartId) : State :=
  match s.expiredOf p with
  | [] => s
  | l => (l.foldl State.expire s).returnPart p

theorem State.afterSave_nil {s : State} {p : PartId} (h : s.expiredOf p = []) : s.afterSave p = s := by
  simp [State.afterSave, h]

theorem State.afterSave_one {s : State} {p : PartId} {i : Inst} (h : s.expiredOf p = [i]) :
    s.afterSave p = (s.expire i).returnPart p := by
  simp [State.afterSave, h]

theorem exec_swapQuiesceEnd {s : State} (hp : (s.partAt s.inp.part).swapped = true)
    (hq : ∀ c ∈ s.runCores s.inp.part, s.quiet c = true) :
    exec .swapQuiesceEnd s = .next ((s.swapSaved s.inp.part).afterSave s.inp.part) := by
  show execSwapQuiesceEnd s = _
  unfold execSwapQuiesceEnd
  dsimp only
  rw [if_neg (by simp [hp, List.all_eq_true.2 hq])]
  show (match (s.swapSaved s.inp.part).expiredOf s.inp.part with
    | [] => .next (s.swapSaved s.inp.part)
    | l => .next ((l.foldl State.expire (s.swapSaved s.inp.part)).returnPart s.inp.part) : Out) = _
  unfold State.afterSave
  cases (s.swapSaved s.inp.part).expiredOf s.inp.part <;> rfl

/-! ### The claim -/

/-- The context of a core keeps its registers, its lift, its queues and its sequencer as they are. -/
theorem Core.context_keeps (x : Core) : x.context.regs = x.regs ∧ x.context.seq = x.seq ∧ x.context.lift = x.lift ∧
    x.context.queues = x.queues := ⟨rfl, rfl, rfl, rfl⟩

/-- R142, R145: a core whose context is saved runs nothing, and the context stands in a satchel. -/
theorem State.swapSaved_core {s : State} {p : PartId} {c : CoreId} (hc : c ∈ s.runCores p) :
    ((s.swapSaved p).coreAt c).node.inst = none ∧ ((s.swapSaved p).coreAt c).seq.mode = .idle ∧
    ∃ q ∈ (s.swapSaved p).satchels, q.core = c ∧ q.part = p ∧ q.ctx.regs = (s.coreAt c).regs ∧
      q.ctx.seq = (s.coreAt c).seq ∧ q.ctx.lift = (s.coreAt c).lift ∧ q.ctx.queues = (s.coreAt c).queues ∧
      q.ready = s.cyc + 2560 ∧ q.leaving = false ∧ q.poison = [] := by
  obtain ⟨hregs, hseq, hlift, hqueues⟩ := (s.coreAt c).context_keeps
  rw [State.coreAt_swapSaved, if_pos hc, State.swapSaved_satchels]
  exact ⟨rfl, rfl, s.satchelOf p c, List.mem_append_right _ (List.mem_map_of_mem hc), rfl, rfl, hregs, hseq, hlift,
    hqueues, rfl, rfl, rfl⟩

/-- The claim of forced swaps. -/
theorem claim_swaps : Claim.Swaps := by
  intro s p runs quiet
  have hruns : ∀ c, runs c ↔ c ∈ s.runCores p := fun c => (s.mem_runCores p c).symm
  have hquiet : quiet ↔ ∀ c ∈ s.runCores p, s.quiet c = true := forall_congr' fun c => by rw [hruns]
  refine ⟨fun h => congrArg _ (State.swapOut_swapped h), fun h => ⟨s.swapOut p, rfl, ?_⟩,
    fun h => exec_swapQuiesceEnd_waits (h.imp_right (mt hquiet.2)), fun hp hq he => ⟨s.swapSaved p, ?saves, ?_⟩⟩
  case saves =>
    have hnone : s.expiredOf p = [] := List.filter_eq_nil_iff.2 fun i hi => by simp [he i hi]
    rw [exec_swapQuiesceEnd hp (hquiet.1 hq), State.afterSave_nil ((s.expiredOf_swapSaved p).trans hnone)]
  · obtain ⟨hpart, hin, hout, hmem, hsched⟩ := State.swapOut_effect h
    refine ⟨hpart, fun c hc => ?_, fun c hc => hout c (mt (hruns c).2 hc), hmem, hsched⟩
    rw [hin c ((hruns c).1 hc)]
    exact (s.coreAt c).halt_effect
  · refine ⟨fun c hc => State.swapSaved_core ((hruns c).1 hc), fun q hq => ?_, fun c hc => ?_, s.swapSaved_sched p,
      s.swapSaved_ms p⟩
    · rw [State.swapSaved_satchels]
      exact List.mem_append_left _ hq
    · rw [State.coreAt_swapSaved, if_neg (mt (hruns c).2 hc)]

end Sys2Proof.Machine
end

section
/-!
SUPPORT. Failing nodes and watchdogs (06_scheduler R110, 07_faults R149 to R151): what the failure of a node leaves alone in a
partition that dumps failed nodes.
-/

namespace Sys2Proof.Machine

/-! ### What a failure leaves alone -/

/-- The node that a number finds has failed. -/
def State.hasFailed (s : State) (id : Nat) : Prop := (s.instAt id).map (·.state) = some .failed

/-- What the failure of a node leaves: memory and partitions; a core that runs nothing still does, and a node that has failed
still has. -/
structure FailFrame (s t : State) : Prop where
  parts : t.parts = s.parts
  mem : t.ms.mem = s.ms.mem
  idle : ∀ c, (s.coreAt c).node.inst = none → (t.coreAt c).node.inst = none
  found : ∀ id, s.instAt id ≠ none → t.instAt id ≠ none
  failed : ∀ id, s.hasFailed id → t.hasFailed id

theorem FailFrame.refl (s : State) : FailFrame s s := ⟨rfl, rfl, fun _ h => h, fun _ h => h, fun _ h => h⟩

theorem FailFrame.trans {s t u : State} (h : FailFrame s t) (g : FailFrame t u) : FailFrame s u where
  parts := g.parts.trans h.parts
  mem := g.mem.trans h.mem
  idle c hc := g.idle c (h.idle c hc)
  found id hi := g.found id (h.found id hi)
  failed id hi := g.failed id (h.failed id hi)

/-- An update that leaves the instances and cores. -/
theorem FailFrame.of_insts {s t : State} (hi : t.sched.insts = s.sched.insts) (hc : t.cores = s.cores)
    (hp : t.parts = s.parts) (hm : t.ms = s.ms) : FailFrame s t := by
  have hat : ∀ id, t.instAt id = s.instAt id := fun id => by rw [State.instAt, hi]; rfl
  refine ⟨hp, by rw [hm], fun c h => ?_, fun id h => by rwa [hat], fun id h => ?_⟩
  · rwa [State.coreAt, hc]
  · rwa [State.hasFailed, hat]

/-- An update of nodes under which one that has failed still has. -/
theorem FailFrame.onInst (s : State) (id : Nat) {f : Inst → Inst} (hid : ∀ i, (f i).id = i.id)
    (hf : ∀ i, i.state = .failed → (f i).state = .failed) : FailFrame s (s.onInst id f) := by
  refine ⟨rfl, rfl, fun _ h => h, fun k h => ?_, fun k h => ?_⟩
  · simpa [State.instAt_onInst s hid] using h
  · obtain ⟨i, hi, hs⟩ := Option.map_eq_some_iff.1 h
    rw [State.hasFailed, State.instAt_onInst s hid, hi]
    refine congrArg some ?_
    dsimp only
    split
    · exact hf i hs
    · exact hs

theorem FailFrame.foldl {α : Type} {f : State → α → State} (hf : ∀ s a, FailFrame s (f s a)) (l : List α) (s : State) :
    FailFrame s (l.foldl f s) := by
  induction l generalizing s with
  | nil => exact .refl s
  | cons a l ih => exact (hf s a).trans (ih _)

/-! ### The parts of a failure -/

theorem FailFrame.leavePool (s : State) (id : Nat) : FailFrame s (s.leavePool id) := by
  unfold State.leavePool
  split
  · exact .refl s
  · split
    · exact (FailFrame.onInst s id (f := fun i => { i with pooled := false }) (fun _ => rfl) fun _ h => h).trans
        (.of_insts rfl rfl rfl rfl)
    · exact .refl s

theorem FailFrame.endRecord (s : State) (p : PartId) (q : Fin 16) (k : Nat) (b : Bool) :
    FailFrame s (s.endRecord p q k b) := by
  unfold State.endRecord
  dsimp only
  split
  · split
    · exact .of_insts rfl rfl rfl rfl
    · exact .refl s
  · exact .of_insts rfl rfl rfl rfl

theorem FailFrame.finishRecord (s : State) (i : Inst) : FailFrame s (s.finishRecord i) := by
  unfold State.finishRecord
  dsimp only
  split
  · refine .trans ?_ (FailFrame.endRecord _ _ _ _ _)
    exact .of_insts rfl rfl rfl rfl
  · exact .refl s

theorem FailFrame.freeEntry (s : State) (i : Inst) : FailFrame s (s.freeEntry i) := by
  unfold State.freeEntry
  split
  · exact .refl s
  · exact .of_insts rfl rfl rfl rfl

/-- A node is marked as failed. -/
theorem FailFrame.fails (s : State) (id : Nat) : FailFrame s (s.onInst id fun i => { i with state := .failed }) :=
  .onInst s id (fun _ => rfl) fun _ _ => rfl

theorem FailFrame.failRound (s : State) : FailFrame s s.failRound := by
  unfold State.failRound
  refine .foldl (fun s j => ?_) _ s
  exact ((FailFrame.leavePool s j.id).trans (.fails _ j.id)).trans (.of_insts rfl rfl rfl rfl)

theorem FailFrame.failRounds (n : Nat) (s : State) : FailFrame s (State.failRounds n s) := by
  induction n generalizing s with
  | zero => exact .refl s
  | succ n ih => exact (FailFrame.failRound s).trans (ih _)

theorem FailFrame.releaseCores (s : State) (id : Nat) : FailFrame s (s.releaseCores id) := by
  refine ⟨by simp [State.releaseCores], by simp [State.releaseCores], fun c h => ?_, fun _ h => h, fun _ h => h⟩
  unfold State.releaseCores
  rw [State.coreAt_onCores]
  split
  · rfl
  · exact h

theorem State.hasFailed_onInst {s : State} {id : Nat} (h : s.instAt id ≠ none) :
    (s.onInst id fun i => { i with state := .failed }).hasFailed id := by
  obtain ⟨i, hi⟩ := Option.ne_none_iff_exists'.1 h
  rw [State.hasFailed, s.instAt_onInst (f := fun i => { i with state := .failed }) (fun _ => rfl), hi]
  simp [State.id_of_instAt hi]

/-- R110: a node that fails has failed. -/
theorem State.failInst_effect {s : State} {id : Nat} (h : s.instAt id ≠ none) :
    FailFrame s (s.failInst id) ∧ (s.failInst id).hasFailed id := by
  obtain ⟨i, hi⟩ := Option.ne_none_iff_exists'.1 h
  have hpool := FailFrame.leavePool s id
  have hmark := hpool.trans (.fails _ id)
  have hrest : FailFrame ((s.leavePool id).onInst id fun i => { i with state := .failed }) (s.failInst id) := by
    unfold State.failInst
    rw [hi]
    refine .trans (.trans (.trans ?_ (FailFrame.failRounds _ _)) (FailFrame.freeEntry _ i)) (FailFrame.finishRecord _ i)
    exact .of_insts rfl rfl rfl rfl
  exact ⟨hmark.trans hrest, hrest.failed id (State.hasFailed_onInst (hpool.found id h))⟩

/-- R150, R151: a node of a partition that dumps failed nodes fails. -/
theorem State.failChain_effect {s : State} {i : Inst} (hf : (s.partAt i.vf).fatal = false) (hi : s.instAt i.id ≠ none)
    (recs : List CauseRec) : FailFrame s (s.failChain i recs) ∧ (s.failChain i recs).hasFailed i.id := by
  have hrecs : FailFrame s (s.onSched fun h => { h with causes := h.causes ++ recs }) := .of_insts rfl rfl rfl rfl
  obtain ⟨hframe, hfailed⟩ := State.failInst_effect (hrecs.found i.id hi)
  suffices h : FailFrame ((s.onSched fun h => { h with causes := h.causes ++ recs }).failInst i.id) (s.failChain i recs) from
    ⟨hrecs.trans (hframe.trans h), h.failed i.id hfailed⟩
  unfold State.failChain
  rw [hf]
  dsimp only
  rw [if_neg Bool.false_ne_true]
  split
  · exact (FailFrame.releaseCores _ _).trans (.of_insts rfl rfl rfl rfl)
  · exact .of_insts rfl rfl rfl rfl

/-! ### Watchdogs (R149) -/

/-- A node's watchdog expires: it has run for WDOG · 64 us, and one of its seats has executed none of b.done, b.park and
b.yield. -/
def State.watchdogDue (s : State) (i : Inst) : Prop :=
  i.state = .running ∧ (s.partAt i.vf).wdog ≠ 0 ∧ (s.partAt i.vf).swapped = false ∧
    96000 * (s.partAt i.vf).wdog.toNat ≤ (s.cyc - i.started).toNat ∧
    ∃ c ∈ s.instCores i.id, (s.coreAt c).node.stood = false ∧ (s.coreAt c).redun.retired = false

/-- Every seat of a node has executed one of b.done, b.park and b.yield. -/
def State.allStood (s : State) (id : Nat) : Bool :=
  (s.instCores id).all fun c => (s.coreAt c).node.stood || (s.coreAt c).redun.retired

theorem State.allStood_eq_false (s : State) (id : Nat) : s.allStood id = false ↔
    ∃ c ∈ s.instCores id, (s.coreAt c).node.stood = false ∧ (s.coreAt c).redun.retired = false := by
  simp [State.allStood]

theorem State.watchdogDue_iff (s : State) (i : Inst) : s.watchdogDue i ↔
    ¬ ((s.partAt i.vf).wdog.toNat = 0 ∨ (i.state != .running) = true ∨
      (s.cyc - i.started).toNat < us (64 * (s.partAt i.vf).wdog.toNat) ∨ (s.partAt i.vf).swapped = true ∨
      s.allStood i.id = true ∨ (s.instCores i.id).isEmpty = true) := by
  have hus : us (64 * (s.partAt i.vf).wdog.toNat) = 96000 * (s.partAt i.vf).wdog.toNat := by
    unfold us
    omega
  have hzero : (s.partAt i.vf).wdog.toNat = 0 ↔ (s.partAt i.vf).wdog = 0 := BitVec.toNat_eq (y := 0).symm
  have hempty : s.allStood i.id = false → (s.instCores i.id).isEmpty = false := by
    rw [State.allStood_eq_false]
    rintro ⟨c, hc, -⟩
    exact List.isEmpty_eq_false_iff_exists_mem.2 ⟨c, hc⟩
  unfold State.watchdogDue
  rw [← State.allStood_eq_false, hus, hzero]
  simp only [not_or, Nat.not_lt, bne_iff_ne, ne_eq, not_not, Bool.not_eq_true]
  constructor
  · rintro ⟨hr, hw, hs, ht, hn⟩
    exact ⟨hw, hr, ht, hs, hn, hempty hn⟩
  · rintro ⟨hw, hr, ht, hs, hn, -⟩
    exact ⟨hr, hw, hs, ht, hn⟩

/-- The state in which a node is marked as expired. -/
def State.marked (s : State) (id : Nat) : State := s.onInst id fun i => { i with expired := true }

theorem exec_watchdogExpiry {s : State} {i : Inst} (h : s.instAt s.inp.n = some i) :
    (¬ s.watchdogDue i → exec .watchdogExpiry s = .next s) ∧
    (s.watchdogDue i → exec .watchdogExpiry s = .next ((s.marked i.id).swapOut i.vf)) := by
  rw [State.watchdogDue_iff]
  show (_ → execWatchdogExpiry s = _) ∧ (_ → execWatchdogExpiry s = _)
  unfold execWatchdogExpiry
  rw [h]
  exact ⟨fun hn => if_pos (not_not.1 hn), fun hn => if_neg hn⟩

theorem State.instAt_marked (s : State) (id k : Nat) :
    (s.marked id).instAt k = (s.instAt k).map fun i => if i.id == id then { i with expired := true } else i :=
  s.instAt_onInst (f := fun i => { i with expired := true }) (fun _ => rfl) id k

/-- What runs for a partition still does when a node is marked. -/
theorem State.instOf_marked {s : State} {c : CoreId} {j : Inst} (h : s.instOf c = some j) (id : Nat) :
    ∃ k, (s.marked id).instOf c = some k ∧ k.vf = j.vf := by
  obtain ⟨k, hk, hj⟩ := Option.bind_eq_some_iff.1 h
  refine ⟨if j.id == id then { j with expired := true } else j, Option.bind_eq_some_iff.2 ⟨k, hk, ?_⟩, ?_⟩
  · rw [State.instAt_marked, hj]
    rfl
  · split <;> rfl

/-- R149: an expiry marks the node and swaps its partition out. -/
theorem watchdogExpiry_effect {s : State} {i : Inst} (h : s.instAt i.id = some i) (hs : (s.partAt i.vf).swapped = false) :
    let t := (s.marked i.id).swapOut i.vf
    (t.partAt i.vf).swapped = true ∧ (t.instAt i.id).map (·.expired) = some true ∧
    (∀ c j, s.instOf c = some j → j.vf = i.vf → (s.coreAt c).seq.mode = .running → (t.coreAt c).seq.mode = .halted) ∧
    t.ms.mem = s.ms.mem := by
  have hs' : ((s.marked i.id).partAt i.vf).swapped = false := hs
  have hframe := (s.marked i.id).swapOut_frame i.vf
  refine ⟨by rw [State.swapped_swapOut]; simp, ?_, fun c j hj hv hr => ?_, hframe.mem⟩
  · have hat : ((s.marked i.id).swapOut i.vf).instAt i.id = (s.marked i.id).instAt i.id := by
      rw [State.instAt, hframe.sched]
      rfl
    rw [hat, State.instAt_marked, h]
    simp
  · obtain ⟨k, hk, hkv⟩ := State.instOf_marked hj i.id
    rw [State.coreAt_swapOut hs', if_pos ((State.mem_runCores _ _ c).2 ⟨k, hk, hkv.trans hv⟩)]
    exact (s.coreAt c).halt_effect.1 hr

/-- R149: once the contexts are saved, the marked node fails and firmware returns the partition. -/
theorem State.expire_returned {s : State} {p : PartId} {i : Inst} (hi : s.instAt i.id ≠ none) (hv : i.vf = p)
    (hf : (s.partAt p).fatal = false) :
    let t := (s.expire i).returnPart p
    t.hasFailed i.id ∧ (t.partAt p).swapped = false ∧
    (∀ c, (s.coreAt c).node.inst = none → (t.coreAt c).node.inst = none) ∧
    t.ms.mem = s.ms.mem := by
  subst hv
  obtain ⟨hframe, hfailed⟩ := State.failChain_effect hf hi
    [s.causeRec 0x1E 0 (4 * 1024) (.ofNat 64 i.node) (some i) 0 false,
     s.causeRec 0x1F 0 (4 * 1024) (.ofNat 64 i.node) (some i) 0 false]
  exact ⟨hfailed, by simp [State.returnPart, State.partAt, State.onPart, vector_get], hframe.idle, hframe.mem⟩

/-- The claim of watchdogs. -/
theorem claim_watchdogs : Claim.Watchdogs := by
  intro s
  refine ⟨fun i hi => ?_, fun i hone hp hq hf => ?_⟩
  · obtain ⟨hstay, hswap⟩ := exec_watchdogExpiry hi
    refine ⟨hstay, fun hdue => ⟨_, hswap hdue, watchdogExpiry_effect (State.id_of_instAt hi ▸ hi) ?_⟩⟩
    obtain ⟨-, -, hs, -⟩ := hdue
    exact hs
  · have hmem : i ∈ s.expiredOf s.inp.part := by
      rw [State.expiredOf, hone]
      exact List.mem_singleton_self i
    obtain ⟨hi, hv⟩ := List.mem_filter.1 hmem
    have hv : i.vf = s.inp.part := by
      simp only [Bool.and_eq_true, beq_iff_eq] at hv
      exact hv.1.2
    have hat : (s.swapSaved s.inp.part).instAt i.id ≠ none := by
      intro hnone
      refine (State.instAt_none_iff _ _).1 hnone i ?_ rfl
      rwa [State.swapSaved_sched]
    have hf' : ((s.swapSaved s.inp.part).partAt s.inp.part).fatal = false := by
      rwa [State.partAt, State.swapSaved_parts]
    obtain ⟨hfailed, hback, hidle, hms⟩ := State.expire_returned hat hv hf'
    have hquiet : ∀ c ∈ s.runCores s.inp.part, s.quiet c = true := fun c hc => by
      obtain ⟨j, hj, hjv⟩ := (s.mem_runCores _ c).1 hc
      exact hq c j hj hjv
    refine ⟨_, (exec_swapQuiesceEnd hp hquiet).trans
      (congrArg _ (State.afterSave_one ((s.expiredOf_swapSaved _).trans hone))), hfailed, hback, fun c j hj hjv => ?_, ?_⟩
    · exact hidle c (State.swapSaved_core ((s.mem_runCores _ c).2 ⟨j, hj, hjv⟩)).1
    · rw [hms, State.swapSaved_ms]

end Sys2Proof.Machine
end

section
/-!
SUPPORT. Resumption of a partition (01_module R11, 07_faults R142, R147): its satchels leave retention, and its nodes come
back on placements.
-/

namespace Sys2Proof.Machine

/-! ### The return of a partition -/

/-- An update that leaves a partition's registers as they are leaves the module as it is. -/
theorem State.onPart_same {s : State} {p : PartId} {f : Part → Part} (h : f (s.partAt p) = s.partAt p) :
    s.onPart p f = s := by
  unfold State.onPart
  rw [h]
  simp [State.partAt, vector_get]

/-- A satchel of a returned partition begins to leave retention. -/
def Satchel.leave (now : W) (p : PartId) (t : Satchel) : Satchel :=
  if t.part = p ∧ !t.leaving then { t with
    leaving := true, ready := (if now.toNat < t.ready.toNat then t.ready else now) + 2560 } else t

theorem State.returnPart_eq (s : State) (p : PartId) : s.returnPart p =
    { s.onPart p fun x => { x with swapped := false } with satchels := s.satchels.map (Satchel.leave s.cyc p) } := rfl

theorem State.partAt_returnPart (s : State) (p : PartId) :
    (s.returnPart p).partAt p = { s.partAt p with swapped := false } := by
  show (s.onPart p fun x => { x with swapped := false }).partAt p = _
  rw [State.partAt_onPart, if_pos rfl]

/-- The satchels of a partition that has come back are leaving retention: nothing is left to do. -/
theorem State.returnPart_same {s : State} {p : PartId} (hp : (s.partAt p).swapped = false)
    (hl : ∀ t ∈ s.satchels, t.part = p → t.leaving = true) : s.returnPart p = s := by
  have hsat : s.satchels.map (Satchel.leave s.cyc p) = s.satchels := by
    refine (List.map_congr_left fun t ht => ?_).trans (List.map_id _)
    refine if_neg ?_
    rintro ⟨htp, hn⟩
    rw [hl t ht htp] at hn
    exact absurd hn (by decide)
  rw [State.returnPart_eq, hsat, State.onPart_same]
  rw [← hp]

theorem Satchel.leave_retained {now : W} {t : Satchel} (hl : t.leaving = false) : t.leave now t.part =
    { t with leaving := true, ready := .ofNat 64 (max t.ready.toNat now.toNat + 2560) } := by
  have hready : (if now.toNat < t.ready.toNat then t.ready else now) + 2560 =
      (.ofNat 64 (max t.ready.toNat now.toNat + 2560) : W) := by
    apply BitVec.eq_of_toNat_eq
    split <;> simp [BitVec.toNat_add] <;> congr 2 <;> omega
  rw [Satchel.leave, if_pos ⟨rfl, by simp [hl]⟩, hready]

/-! ### Which nodes resume -/

/-- One node of a partition resumes, when its satchels have left retention and it has a placement. -/
def State.resumeOne (p : PartId) (s : State) (i : Inst) : State :=
  let l := s.satchels.filter fun t => t.part == p && t.ctx.node.inst == some i.id
  match l, s.descOf i with
  | _ :: _, some n =>
    if (i.tt ∧ s.cyc.toNat % 64 ≠ 0) ∨ l.any fun t => !t.leaving || decide (s.cyc.toNat < t.ready.toNat) then s
    else match s.choose i n (s.placements { i with die := .e } n .e [] ++ s.placements i n .w []) with
      | none => s
      | some c => s.resumeNode i n c l
  | _, _ => s

theorem State.resumeAll_eq (s : State) (p : PartId) : s.resumeAll p =
    (s.sched.insts.filter fun i => i.vf == p && i.state == .running).foldl (State.resumeOne p) s := rfl

/-- No node resumes while the satchels of its partition are in retention. -/
theorem State.resumeOne_waits {s : State} {p : PartId} (h : ∀ t ∈ s.satchels, t.part = p → s.cyc.toNat < t.ready.toNat)
    (i : Inst) : State.resumeOne p s i = s := by
  unfold State.resumeOne
  dsimp only
  split
  · next t r n hl _ =>
    have ht : t ∈ s.satchels ∧ t.part = p := by
      have hmem := List.mem_filter.1 (hl ▸ List.mem_cons_self : t ∈ _)
      simp only [Bool.and_eq_true, beq_iff_eq] at hmem
      exact ⟨hmem.1, hmem.2.1⟩
    rw [hl]
    exact if_pos (.inr (by simp [h t ht.1 ht.2]))
  · rfl

theorem State.resumeAll_waits {s : State} {p : PartId} (h : ∀ t ∈ s.satchels, t.part = p → s.cyc.toNat < t.ready.toNat) :
    s.resumeAll p = s := by
  rw [State.resumeAll_eq]
  induction s.sched.insts.filter fun i => i.vf == p && i.state == .running with
  | nil => rfl
  | cons i l ih => rw [List.foldl_cons, State.resumeOne_waits h, ih]

/-- Among free placements there is a choice. -/
theorem State.choose_isSome (s : State) (i : Inst) (n : NodeDesc) {l : List Nat} (h : l ≠ []) :
    ∃ c, s.choose i n l = some c := by
  rw [← Option.isSome_iff_exists]
  cases l with
  | nil => exact absurd rfl h
  | cons a l =>
    unfold State.choose
    rw [List.foldl_cons]
    refine List.foldlRecOn (motive := fun o : Option Nat => o.isSome = true) l _ rfl fun o ho c _ => ?_
    obtain ⟨b, rfl⟩ := Option.isSome_iff_exists.1 ho
    exact (apply_ite Option.isSome _ _ _).trans (ite_self _)

/-- The placements of a node that resumes, on either die. -/
abbrev State.resumePlaces (s : State) (i : Inst) (n : NodeDesc) : List Nat :=
  s.placements { i with die := .e } n .e [] ++ s.placements i n .w []

/-- The node of a single satchel that is leaving retention. -/
theorem State.resumeOne_single {s : State} {p : PartId} {q : Satchel} {i : Inst} {n : NodeDesc} (hs : s.satchels = [q])
    (hp : q.part = p) (hl : q.leaving = true) (hi : q.ctx.node.inst = some i.id) (hn : s.descOf i = some n) :
    (¬ (q.ready.toNat ≤ s.cyc.toNat ∧ (i.tt = true → s.cyc.toNat % 64 = 0) ∧ s.resumePlaces i n ≠ []) →
      State.resumeOne p s i = s) ∧
    (q.ready.toNat ≤ s.cyc.toNat → (i.tt = true → s.cyc.toNat % 64 = 0) → s.resumePlaces i n ≠ [] →
      ∃ c, s.choose i n (s.resumePlaces i n) = some c ∧ State.resumeOne p s i = s.resumeNode i n c [q]) := by
  have hone : State.resumeOne p s i = if (i.tt = true ∧ s.cyc.toNat % 64 ≠ 0) ∨ s.cyc.toNat < q.ready.toNat then s
      else match s.choose i n (s.resumePlaces i n) with
        | none => s
        | some c => s.resumeNode i n c [q] := by
    simp [State.resumeOne, hs, hp, hl, hi, hn]
  rw [hone]
  constructor
  · intro hnot
    split
    · rfl
    · next hdue =>
      have hempty : s.resumePlaces i n = [] := by
        by_contra hne
        exact hnot ⟨by omega, fun ht => by_contra fun h64 => hdue (.inl ⟨ht, h64⟩), hne⟩
      rw [hempty]
      rfl
  · intro hready htt hne
    obtain ⟨c, hc⟩ := s.choose_isSome i n hne
    refine ⟨c, hc, ?_⟩
    rw [if_neg, hc]
    rintro (⟨ht, h64⟩ | hearly)
    · exact h64 (htt ht)
    · omega

/-! ### What a resumed node finds -/

/-- R147: a seat's registers and sequencer are those of its context, and it runs where it was halted. -/
theorem State.resumedCore_effect (s : State) (p : PartId) (x : Core) (c lead : CoreId) :
    let y := s.resumedCore p x c lead
    y.regs = x.regs ∧ y.lift = x.lift ∧ y.queues = x.queues ∧ y.scratch = x.scratch ∧ y.acc = x.acc ∧
    y.node.inst = x.node.inst ∧ y.seq.pc = x.seq.pc ∧ y.csr.coreno.toNat = lead.val ∧
    (x.seq.mode = .halted → x.redun.retired = false → y.seq.mode = .running) ∧
    (x.seq.mode ≠ .halted → y.seq.mode = x.seq.mode) := by
  refine ⟨rfl, rfl, rfl, rfl, rfl, rfl, rfl, Nat.mod_eq_of_lt lead.isLt, fun hm hr => ?_, fun hm => ?_⟩
  · simp [State.resumedCore, hm, hr]
  · simp [State.resumedCore, hm]

/-- The state in which a satchel is free, and the relay chains of its core have followed it to a core. -/
def State.unpacked (s : State) (q : Satchel) (c : CoreId) : State :=
  ({ s with satchels := s.satchels.filter fun t => !([q].contains t) }.onFab .e (·.moveRelays q c)).onFab .w
    (·.moveRelays q c)

/-- The resumption of a node from one satchel without poison: its core is seated, the node placed, its satchel
free. -/
theorem State.resumeNode_single {s : State} {q : Satchel} (hq : q.poison = []) (i : Inst) (n : NodeDesc) (first : Nat) :
    let lead := toCore (first + q.ctx.node.seat)
    let k := replicaCore q.ctx.node.replica lead
    let u := s.unpacked q k
    let t := s.resumeNode i n first [q]
    t.cores = (u.setCoreAt k (u.resumedCore i.vf q.ctx k lead)).cores ∧
    t.sched.insts = (s.onInst i.id fun i => { i with first := first, started := s.cyc }).sched.insts ∧
    t.satchels = u.satchels ∧ t.ms = s.ms := by
  have hfind : [q].find? (fun t => !t.poison.isEmpty) = none := by simp [hq]
  unfold State.resumeNode
  rw [hfind]
  cases i.entry <;> exact ⟨rfl, rfl, rfl, rfl⟩

/-- A node keeps its placement and the cycle of its resumption. -/
theorem State.instAt_placed {s t : State} {i : Inst} (hi : i ∈ s.sched.insts) {first : Nat} (h : t.sched.insts =
    (s.onInst i.id fun i => { i with first := first, started := s.cyc }).sched.insts) :
    (t.instAt i.id).map (·.first) = some first ∧ (t.instAt i.id).map (·.started) = some s.cyc := by
  obtain ⟨j, hj⟩ := Option.ne_none_iff_exists'.1 fun hn => (s.instAt_none_iff i.id).1 hn i hi rfl
  have hat : t.instAt i.id = some { j with first := first, started := s.cyc } := by
    rw [State.instAt, h]
    refine (s.instAt_onInst (f := fun i => { i with first := first, started := s.cyc }) (fun _ => rfl) i.id i.id).trans ?_
    rw [hj]
    simp [State.id_of_instAt hj]
  rw [hat]
  exact ⟨rfl, rfl⟩

theorem exec_swapResume_waits {s : State} (h : s.fw.hot = true ∨
    ((s.partAt s.inp.part).swapped = true ∧ s.runCores s.inp.part ≠ [])) : exec .swapResume s = .next s := by
  refine if_pos (h.imp_right fun ⟨hs, hr⟩ => ⟨hs, ?_⟩)
  rwa [Bool.not_eq_true', List.isEmpty_eq_false_iff]

theorem exec_swapResume_goes {s : State} (hhot : s.fw.hot = false)
    (h : (s.partAt s.inp.part).swapped = false ∨ s.runCores s.inp.part = []) :
    exec .swapResume s = .next ((s.returnPart s.inp.part).resumeAll s.inp.part) := by
  refine if_neg ?_
  rw [hhot]
  rintro (hh | ⟨hs, hr⟩)
  · exact Bool.noConfusion hh
  · rcases h with h | h
    · rw [h] at hs
      exact Bool.noConfusion hs
    · rw [h] at hr
      exact Bool.noConfusion hr

/-- The satchels of a partition that comes back. -/
theorem State.satchels_returnPart {s : State} {p : PartId} (h : ∀ q ∈ s.satchels, q.part = p → q.leaving = false) :
    (s.returnPart p).satchels = s.satchels.map fun q => if q.part = p then
      { q with leaving := true, ready := .ofNat 64 (max q.ready.toNat s.cyc.toNat + 2560) } else q := by
  refine List.map_congr_left fun q hq => ?_
  by_cases hp : q.part = p
  · rw [if_pos hp, ← hp]
    exact Satchel.leave_retained (h q hq hp)
  · rw [if_neg hp]
    exact if_neg fun g => hp g.1

/-- A partition that comes back resumes no node in the same cycle. -/
theorem State.resumeAll_returned {s : State} {p : PartId}
    (h : ∀ q ∈ s.satchels, q.part = p → q.leaving = false ∧ q.ready.toNat < 2 ^ 63) (hc : s.cyc.toNat < 2 ^ 63) :
    (s.returnPart p).resumeAll p = s.returnPart p := by
  refine State.resumeAll_waits fun t ht htp => ?_
  rw [State.satchels_returnPart fun q hq hp => (h q hq hp).1] at ht
  obtain ⟨q, hq, rfl⟩ := List.mem_map.1 ht
  by_cases hp : q.part = p
  · have hr := (h q hq hp).2
    show s.cyc.toNat < _
    rw [if_pos hp, BitVec.toNat_ofNat, Nat.mod_eq_of_lt] <;> omega
  · rw [if_neg hp] at htp
    exact absurd htp hp

/-- The claim of resumptions. -/
theorem claim_resumes : Claim.Resumes := by
  intro s p runs
  have hruns : runs ↔ s.runCores p ≠ [] := by
    rw [← List.isEmpty_eq_false_iff, List.isEmpty_eq_false_iff_exists_mem]
    exact exists_congr fun c => (s.mem_runCores p c).symm
  refine ⟨fun h => exec_swapResume_waits (h.imp_right fun ⟨hs, hr⟩ => ⟨hs, hruns.1 hr⟩), fun hhot hr hq hc => ?_,
    fun q i n hhot hp hs hqp hl hpoison hqi hone hn hv => ?_⟩
  · refine ⟨s.returnPart p, ?_, ?_, State.satchels_returnPart fun t ht htp => (hq t ht htp).1, rfl, rfl, rfl⟩
    · rw [exec_swapResume_goes hhot (.inr (not_not.1 (mt hruns.2 hr)))]
      exact congrArg _ (State.resumeAll_returned hq hc)
    · exact s.partAt_returnPart p
  · have hreturned : s.returnPart p = s := State.returnPart_same hp fun t ht _ => by
      rw [hs] at ht
      rw [List.mem_singleton.1 ht, hl]
    have hexec : exec .swapResume s = .next (State.resumeOne p s i) := by
      rw [exec_swapResume_goes hhot (.inl hp)]
      show Host.Outcome.next ((s.returnPart p).resumeAll p) = _
      rw [hreturned, State.resumeAll_eq, hone]
      rfl
    have hmem : i ∈ s.sched.insts := (List.mem_filter.1 (hone ▸ List.mem_singleton_self i)).1
    obtain ⟨hstay, hgo⟩ := State.resumeOne_single hs hqp hl hqi hn
    refine ⟨fun hnot => hexec.trans (congrArg _ (hstay hnot)), fun ⟨hready, htt, hne⟩ => ?_⟩
    obtain ⟨c, hc, hnode⟩ := hgo hready htt hne
    obtain ⟨hcores, hinsts, hsat, hms⟩ := State.resumeNode_single (s := s) hpoison i n c
    obtain ⟨hfirst, hstarted⟩ := State.instAt_placed hmem hinsts
    refine ⟨_, c, hexec.trans (congrArg _ hnode), hc, ?_, ?_, hfirst, hstarted, hms⟩
    · rw [hsat]
      simp [State.unpacked, State.onFab, hs]
    · intro lead k x
      have hat : ∀ d, (s.resumeNode i n c [q]).coreAt d = if k = d then (s.unpacked q k).resumedCore i.vf q.ctx k lead
          else s.coreAt d := fun d => by
        rw [State.coreAt, hcores]
        exact State.coreAt_setCoreAt _ k d _
      have hx : x = (s.unpacked q k).resumedCore i.vf q.ctx k lead := (hat k).trans (if_pos rfl)
      obtain ⟨hregs, hlift, hqueues, hscratch, hacc, hinst, hpc, hno, hrun, hmode⟩ :=
        (s.unpacked q k).resumedCore_effect i.vf q.ctx k lead
      rw [hx]
      exact ⟨hregs, hlift, hqueues, hscratch, hacc, hinst.trans hqi, hpc, hno, hrun, hmode,
        fun d hd => (hat d).trans (if_neg hd.symm)⟩

end Sys2Proof.Machine
end

section
/-!
SUPPORT. Dumps (07_faults R150, R151): which node is dumped, what is written, what is freed.
-/

namespace Sys2Proof.Machine

/-! ### Bytes that are written and read -/

theorem length_leBytes (n v : Nat) : (leBytes n v).length = n := by
  induction n generalizing v with
  | zero => rfl
  | succ n ih => rw [leBytes, List.length_cons, ih]

theorem Memory.read_writeBytes_other (l : List Byte) (m : Memory) {a b : Nat} (h : b < a ∨ a + l.length ≤ b) :
    (m.writeBytes a l).read b = m.read b := by
  induction l generalizing m a with
  | nil => rfl
  | cons v l ih =>
    rw [List.length_cons] at h
    rw [Memory.writeBytes, ih _ (by omega), Memory.read_write, if_neg (by omega)]

theorem Memory.bytes_congr {m k : Memory} {a n : Nat} (h : ∀ b, a ≤ b → b < a + n → m.read b = k.read b) :
    m.bytes a n = k.bytes a n := by
  induction n generalizing a with
  | zero => rfl
  | succ n ih => rw [Memory.bytes, Memory.bytes, h a (by omega) (by omega), ih fun b h1 h2 => h b (by omega) (by omega)]

/-- Bytes that are written read as written. -/
theorem Memory.bytes_writeBytes (l : List Byte) (m : Memory) (a : Nat) : (m.writeBytes a l).bytes a l.length = l := by
  induction l generalizing m a with
  | nil => rfl
  | cons v l ih =>
    rw [Memory.writeBytes, List.length_cons, Memory.bytes, ih, Memory.read_writeBytes_other _ _ (by omega),
      Memory.read_write, if_pos rfl]

/-- Some of the bytes that a memory holds from an address. -/
theorem Memory.bytes_part {m : Memory} {a : Nat} {l : List Byte} (h : m.bytes a l.length = l) {k n : Nat}
    (hk : k + n ≤ l.length) : m.bytes (a + k) n = (l.drop k).take n := by
  obtain ⟨r, hr⟩ := Nat.exists_eq_add_of_le hk
  rw [hr, Memory.bytes_add, Memory.bytes_add] at h
  rw [← h, List.append_assoc, List.drop_left' (Memory.length_bytes _ _ _), List.take_left' (Memory.length_bytes _ _ _)]

/-- A little-endian number among them. -/
theorem Memory.num_part {m : Memory} {a : Nat} {l : List Byte} (h : m.bytes a l.length = l) {k n v : Nat}
    (hk : k + n ≤ l.length) (hl : (l.drop k).take n = leBytes n v) : m.num (a + k) n = v % 256 ^ n := by
  rw [Memory.num, Memory.bytes_part h hk, hl, leNat_leBytes]

/-- Two memories read alike outside a range. -/
def Memory.AlikeOff (lo hi : Nat) (m k : Memory) : Prop := ∀ a, a < lo ∨ hi ≤ a → k.read a = m.read a

theorem Memory.AlikeOff.refl (lo hi : Nat) (m : Memory) : m.AlikeOff lo hi m := fun _ _ => rfl

theorem Memory.AlikeOff.trans {lo hi : Nat} {m k n : Memory} (h : m.AlikeOff lo hi k) (g : k.AlikeOff lo hi n) :
    m.AlikeOff lo hi n := fun a ha => (g a ha).trans (h a ha)

theorem Memory.AlikeOff.mono {lo lo' hi : Nat} {m k : Memory} (h : m.AlikeOff lo hi k) (hle : lo' ≤ lo) :
    m.AlikeOff lo' hi k := fun a ha => h a (by omega)

/-! ### The dump area -/

/-- Bytes at a place of a dump area, and no further than the area goes. -/
def dumpPut (base size : Nat) (m : Memory) (off : Nat) (b : List Byte) : Memory :=
  m.writeBytes (base + off) (b.take (size - off))

theorem dumpPut_alike (base size : Nat) (m : Memory) {off lo : Nat} (h : lo ≤ off) (b : List Byte) :
    m.AlikeOff (base + lo) (base + size) (dumpPut base size m off b) := by
  intro a ha
  have hlen : (b.take (size - off)).length ≤ size - off := List.length_take_le _ _
  by_cases hoff : off ≤ size
  · exact Memory.read_writeBytes_other _ _ (by omega)
  · rw [dumpPut, Nat.sub_eq_zero_of_le (by omega)]
    rfl

/-- The header of a dump: its number, its counts of cores and of causes, the places of its images, of its causes and of its
translations, its length, the node and the cycle. -/
def dumpHeader (no cores causes ctx cause xlat len node cyc : Nat) : List Byte :=
  leBytes 8 no ++ leBytes 4 cores ++ leBytes 4 causes ++ leBytes 8 ctx ++ leBytes 8 cause ++ leBytes 8 xlat ++
    leBytes 8 len ++ leBytes 8 node ++ leBytes 8 cyc

theorem dumpHeader_fields {m : Memory} {base no cores causes ctx cause xlat len node cyc : Nat}
    (h : m.bytes base 64 = dumpHeader no cores causes ctx cause xlat len node cyc) :
    m.num base 8 = no % 2 ^ 64 ∧ m.num (base + 8) 4 = cores % 2 ^ 32 ∧ m.num (base + 12) 4 = causes % 2 ^ 32 ∧
    m.num (base + 16) 8 = ctx % 2 ^ 64 ∧ m.num (base + 48) 8 = node % 2 ^ 64 ∧ m.num (base + 56) 8 = cyc % 2 ^ 64 := by
  have hlen : (dumpHeader no cores causes ctx cause xlat len node cyc).length = 64 := rfl
  rw [← hlen] at h
  exact ⟨Memory.num_part (k := 0) h (by omega) rfl, Memory.num_part h (by omega) rfl, Memory.num_part h (by omega) rfl,
    Memory.num_part h (by omega) rfl, Memory.num_part h (by omega) rfl, Memory.num_part h (by omega) rfl⟩

/-- The parts of a dump behind its header leave the header as it is. -/
theorem dumpParts_alike (base size : Nat) (m : Memory) {ctx cause xlat : Nat} (hctx : 64 ≤ ctx) (hcause : 64 ≤ cause)
    (hxlat : 64 ≤ xlat) (images : Nat → List Byte) (n : Nat) (causes table : List Byte) (fits : Bool) :
    let k := (List.range n).foldl (fun k i => dumpPut base size k (ctx + i * 0x100000) (images i))
      (dumpPut base size m cause causes)
    m.AlikeOff (base + 64) (base + size) (if fits then dumpPut base size k xlat table else k) := by
  have himages : ∀ (l : List Nat) (k : Memory), k.AlikeOff (base + 64) (base + size)
      (l.foldl (fun k i => dumpPut base size k (ctx + i * 0x100000) (images i)) k) := by
    intro l
    induction l with
    | nil => exact fun k => .refl _ _ k
    | cons i l ih => exact fun k => (dumpPut_alike base size k (by omega) (images i)).trans (ih _)
  have hrest := (dumpPut_alike base size m hcause causes).trans (himages (List.range n) _)
  dsimp only
  split
  · exact hrest.trans (dumpPut_alike base size _ hxlat table)
  · exact hrest

theorem CauseRec.length_bytes (r : CauseRec) (k : Nat) : (r.bytes k).length = 32 := rfl

theorem length_flatMap_const {α : Type} {f : α → List Byte} {n : Nat} (h : ∀ a, (f a).length = n) (l : List α) :
    (l.flatMap f).length = l.length * n := by
  induction l with
  | nil => simp
  | cons a l ih => rw [List.flatMap_cons, List.length_append, h, ih, List.length_cons, Nat.succ_mul, Nat.add_comm]

theorem length_causeBytes (l : List CauseRec) : (causeBytes l).length = l.length * 32 := by
  rw [causeBytes, length_flatMap_const fun x => x.1.length_bytes x.2]
  simp

theorem Part.length_rangeBytes (x : Part) : x.rangeBytes.length = 65536 := by
  have hrow : ∀ r : Range, ((List.range 4).flatMap fun k => leBytes 8 (r.word k).toNat).length = 32 := fun r => by
    rw [length_flatMap_const fun k => length_leBytes 8 _, List.length_range]
  rw [Part.rangeBytes, length_flatMap_const fun i => hrow _, List.length_range]

/-- R150, R151: a dump is a header, and what stands behind it within the dump area. -/
theorem State.writeDump_mem (s : State) (p : PartId) (i : Inst) (n : Nat) :
    let x := s.partAt p
    let records := (s.sched.causes.filter fun r => r.part == p).length
    ∃ cores ctx cause xlat len,
      (dumpPut x.dumpbase.toNat x.dumpsz.toNat s.ms.mem 0 (dumpHeader (x.dumpno + 1) cores records ctx cause xlat len
        (i.node % 65536 * 2 ^ 48 + i.record % 2 ^ 48) s.cyc.toNat)).AlikeOff (x.dumpbase.toNat + 64)
        (x.dumpbase.toNat + x.dumpsz.toNat) (s.writeDump p i n).ms.mem ∧
      (64 + n * 0x100000 + 65552 + 32 * records ≤ x.dumpsz.toNat → cores = n ∧ ctx = 64) := by
  have hcauses := length_causeBytes (s.sched.causes.filter fun r => r.part == p)
  have htable : ((s.partAt p).rangeBytes ++ (leBytes 8 (s.ms.xlatinv.get 0).toNat ++
      leBytes 8 (s.ms.xlatinv.get 1).toNat)).length = 65552 := by
    simp [Part.length_rangeBytes, length_leBytes]
  refine ⟨_, _, _, _, _, dumpParts_alike _ _ _ ?_ ?_ (by omega) _ _ _ _ _, fun hfits => ?_⟩
  · split <;> omega
  · split <;> omega
  · have hfull : decide (64 + n * 0x100000 + ((s.partAt p).rangeBytes ++ (leBytes 8 (s.ms.xlatinv.get 0).toNat ++
        leBytes 8 (s.ms.xlatinv.get 1).toNat)).length + (causeBytes (s.sched.causes.filter (·.part == p))).length ≤
        (s.partAt p).dumpsz.toNat) = true := decide_eq_true (by omega)
    exact ⟨if_pos hfull, if_pos hfull⟩

/-- Outside the dump area a dump leaves memory as it is. -/
theorem State.writeDump_outside (s : State) (p : PartId) (i : Inst) (n : Nat) :
    s.ms.mem.AlikeOff (s.partAt p).dumpbase.toNat ((s.partAt p).dumpbase.toNat + (s.partAt p).dumpsz.toNat)
      (s.writeDump p i n).ms.mem := by
  obtain ⟨cores, ctx, cause, xlat, len, hrest, -⟩ := s.writeDump_mem p i n
  exact (dumpPut_alike _ _ s.ms.mem (Nat.zero_le 0) _).trans (hrest.mono (Nat.le_add_right _ 64))

/-- The header of a dump whose area has room for it. -/
theorem State.writeDump_header (s : State) (p : PartId) (i : Inst) (n : Nat) (h : 64 ≤ (s.partAt p).dumpsz.toNat) :
    let x := s.partAt p
    let base := x.dumpbase.toNat
    let records := (s.sched.causes.filter fun r => r.part == p).length
    let m := (s.writeDump p i n).ms.mem
    m.num base 8 = (x.dumpno + 1) % 2 ^ 64 ∧ m.num (base + 12) 4 = records % 2 ^ 32 ∧
    m.num (base + 48) 8 = i.node % 65536 * 2 ^ 48 + i.record % 2 ^ 48 ∧ m.num (base + 56) 8 = s.cyc.toNat ∧
    (64 + n * 0x100000 + 65552 + 32 * records ≤ x.dumpsz.toNat →
      m.num (base + 8) 4 = n % 2 ^ 32 ∧ m.num (base + 16) 8 = 64) := by
  intro x base records m
  obtain ⟨cores, ctx, cause, xlat, len, hrest, hroom⟩ := s.writeDump_mem p i n
  have hput : ∀ head : List Byte, head.length = 64 →
      (dumpPut base x.dumpsz.toNat s.ms.mem 0 head).bytes base 64 = head := fun head hlen => by
    rw [dumpPut, List.take_of_length_le (i := x.dumpsz.toNat - 0) (hlen.trans_le h), ← hlen]
    exact Memory.bytes_writeBytes head s.ms.mem base
  have hhead : m.bytes base 64 = dumpHeader (x.dumpno + 1) cores records ctx cause xlat len
      (i.node % 65536 * 2 ^ 48 + i.record % 2 ^ 48) s.cyc.toNat :=
    (Memory.bytes_congr fun b _ hb => hrest b (.inl hb)).trans (hput _ rfl)
  obtain ⟨hno, hcores, hcauses, hctx, hnode, hcyc⟩ := dumpHeader_fields hhead
  refine ⟨hno, hcauses, hnode.trans (Nat.mod_eq_of_lt (by omega)), hcyc.trans (Nat.mod_eq_of_lt s.cyc.isLt),
    fun hfits => ?_⟩
  obtain ⟨rfl, rfl⟩ := hroom hfits
  exact ⟨hcores, hctx⟩

/-! ### Freeing the cores of failed nodes -/

theorem State.mem_instCores (s : State) (id : Nat) (c : CoreId) :
    c ∈ s.instCores id ↔ (s.coreAt c).node.inst = some id := by
  unfold State.instCores
  rw [State.coresWhere_eq]
  simp

/-- A core that is freed. -/
def Core.released (x : Core) : Core := { x with
  seq := { x.seq with mode := .idle, held := none, pend := [] }
  mail := { x.mail with inbox := [] }
  fills := [], locks := [], bankq := []
  node := { x.node with inst := none, stood := false } }

theorem State.coreAt_releaseCores (s : State) (id : Nat) (c : CoreId) :
    (s.releaseCores id).coreAt c = if (s.coreAt c).node.inst = some id then (s.coreAt c).released else s.coreAt c := by
  unfold State.releaseCores
  rw [State.coreAt_onCores]
  simp only [beq_iff_eq]
  rfl

/-- The cores of several nodes are freed. -/
def State.releaseAll (s : State) (l : List Inst) : State := l.foldl (fun s i => s.releaseCores i.id) s

theorem State.releaseAll_rest (l : List Inst) (s : State) : (s.releaseAll l).ms = s.ms ∧ (s.releaseAll l).parts = s.parts ∧
    (s.releaseAll l).sched = s.sched ∧ (s.releaseAll l).satchels = s.satchels := by
  induction l generalizing s with
  | nil => exact ⟨rfl, rfl, rfl, rfl⟩
  | cons i l ih =>
    obtain ⟨hms, hparts, hsched, hsat⟩ := ih (s.releaseCores i.id)
    exact ⟨hms.trans (by simp [State.releaseCores]), hparts.trans (by simp [State.releaseCores]),
      hsched.trans (by simp [State.releaseCores]), hsat.trans (by simp [State.releaseCores])⟩

theorem State.coreAt_releaseAll_other {l : List Inst} {s : State} {c : CoreId}
    (h : ∀ j ∈ l, (s.coreAt c).node.inst ≠ some j.id) : (s.releaseAll l).coreAt c = s.coreAt c := by
  induction l generalizing s with
  | nil => rfl
  | cons i l ih =>
    have hi : (s.releaseCores i.id).coreAt c = s.coreAt c :=
      (s.coreAt_releaseCores i.id c).trans (if_neg (h i List.mem_cons_self))
    exact (ih (s := s.releaseCores i.id) fun j hj => hi ▸ h j (List.mem_cons_of_mem i hj)).trans hi

theorem State.coreAt_releaseAll_same {l : List Inst} {j : Inst} (hj : j ∈ l) {s : State} {c : CoreId}
    (h : (s.coreAt c).node.inst = some j.id) : (s.releaseAll l).coreAt c = (s.coreAt c).released := by
  induction l generalizing s with
  | nil => exact absurd hj List.not_mem_nil
  | cons i l ih =>
    have hi := s.coreAt_releaseCores i.id c
    by_cases hid : (s.coreAt c).node.inst = some i.id
    · rw [if_pos hid] at hi
      refine (State.coreAt_releaseAll_other (s := s.releaseCores i.id) fun k _ => ?_).trans hi
      rw [hi]
      exact (Option.some_ne_none _).symm
    · rw [if_neg hid] at hi
      have hjl : j ∈ l := (List.mem_cons.1 hj).resolve_left fun e => hid (e ▸ h)
      exact (ih hjl (s := s.releaseCores i.id) (hi ▸ h)).trans (congrArg _ hi)

/-! ### The dump of a node (R150) -/

/-- The cores and satchels that a node holds. -/
def State.holdings (s : State) (i : Inst) : Nat :=
  (s.instCores i.id).length + (s.satchels.filter fun t => t.ctx.node.inst == some i.id).length

/-- The failed nodes of a partition that hold cores or satchels. -/
def State.heldNodes (s : State) (p : PartId) : List Inst :=
  s.sched.insts.filter fun i => i.vf == p && i.state == .failed && s.holdings i != 0

/-- A failed node of a partition whose own record is not told. -/
def State.untold (s : State) (p : PartId) (i : Inst) : Bool :=
  i.vf == p && i.state == .failed &&
    s.sched.causes.any fun r => r.code == 0x1F && r.part == p && r.node == i.node && r.record == i.record

/-- The node whose dump is written next. -/
def State.dumpPick (s : State) (p : PartId) : Option Inst :=
  (s.heldNodes p).head?.orElse fun _ => s.sched.insts.find? (s.untold p)

theorem State.dumpPick_eq_some_iff (s : State) (p : PartId) (i : Inst) : s.dumpPick p = some i ↔
    (s.heldNodes p).head? = some i ∨ (s.heldNodes p = [] ∧ s.sched.insts.find? (s.untold p) = some i) := by
  unfold State.dumpPick
  cases s.heldNodes p <;> simp

/-- The state in which the dump of a node is written, while no dump is left to acknowledge. -/
def State.withDump (s : State) (p : PartId) (i : Inst) : State :=
  if (s.partAt p).dumpPend then s
  else (s.writeDump p i (s.holdings i)).onPart p fun x => { x with dumpPend := true, dumpno := x.dumpno + 1 }

/-- Then the partition's cause records are told, and the satchels of its failed nodes are free. -/
def State.toldOf (s : State) (p : PartId) (l : List Inst) : State :=
  { s.onSched fun h => { h with causes := h.causes.filter (·.part != p) } with
    satchels := s.satchels.filter fun t => !(t.ctx.node.inst.any (l.map (·.id)).contains) }

/-- The dump of a node, with what it frees. -/
def State.dumped (s : State) (p : PartId) (i : Inst) : State :=
  ((s.withDump p i).toldOf p (s.heldNodes p)).releaseAll (s.heldNodes p)

theorem exec_dumpWritten (s : State) : exec .dumpWritten s = match s.dumpPick s.inp.part with
    | none => .next s
    | some i => if (!(paInHbm (s.partAt s.inp.part).dumpbase.toNat || paInHeath (s.partAt s.inp.part).dumpbase.toNat)) = true
      then .fault (.hole (s.partAt s.inp.part).dumpbase.toNat) else .next (s.dumped s.inp.part i) := by
  show execDumpWritten s = _
  unfold execDumpWritten State.dumped State.toldOf State.withDump State.releaseAll
  rfl

/-- A dump changes memory, and no other part of the machine. -/
theorem State.writeDump_eq (s : State) (p : PartId) (i : Inst) (n : Nat) :
    ∃ f, s.writeDump p i n = (s.onMem f).takeFree := by
  unfold State.writeDump
  exact ⟨_, rfl⟩

theorem State.withDump_rest (s : State) (p : PartId) (i : Inst) : (s.withDump p i).cores = s.cores ∧
    (s.withDump p i).sched = s.sched ∧ (s.withDump p i).satchels = s.satchels := by
  unfold State.withDump
  split
  · exact ⟨rfl, rfl, rfl⟩
  · obtain ⟨f, h⟩ := s.writeDump_eq p i (s.holdings i)
    rw [h]
    exact ⟨rfl, rfl, rfl⟩

theorem State.withDump_pending {s : State} {p : PartId} (h : (s.partAt p).dumpPend = true) (i : Inst) :
    s.withDump p i = s := if_pos h

theorem State.withDump_writes {s : State} {p : PartId} (h : (s.partAt p).dumpPend = false) (i : Inst) :
    s.withDump p i = (s.writeDump p i (s.holdings i)).onPart p fun x => { x with dumpPend := true, dumpno := x.dumpno + 1 } :=
  if_neg (by simp [h])

theorem State.partAt_withDump {s : State} {p : PartId} (h : (s.partAt p).dumpPend = false) (i : Inst) :
    (s.withDump p i).partAt p = { s.partAt p with dumpPend := true, dumpno := (s.partAt p).dumpno + 1 } := by
  obtain ⟨f, hf⟩ := s.writeDump_eq p i (s.holdings i)
  rw [State.withDump_writes h, State.partAt_onPart, if_pos rfl, hf]
  rfl

section
variable (s : State) (p : PartId) (i : Inst)

theorem State.dumped_ms : (s.dumped p i).ms = (s.withDump p i).ms := (State.releaseAll_rest _ _).1

theorem State.dumped_partAt : (s.dumped p i).partAt p = (s.withDump p i).partAt p := by
  rw [State.partAt, State.dumped, (State.releaseAll_rest _ _).2.1]
  rfl

/-- The cause records of the partition are told, and no other. -/
theorem State.dumped_causes : (s.dumped p i).sched.causes = s.sched.causes.filter (·.part != p) := by
  obtain ⟨-, hsched, -⟩ := s.withDump_rest p i
  rw [State.dumped, (State.releaseAll_rest _ _).2.2.1]
  show (s.withDump p i).sched.causes.filter _ = _
  rw [hsched]

/-- The satchels of the failed nodes are free. -/
theorem State.dumped_satchels {j : Inst} (hj : j ∈ s.heldNodes p) :
    ∀ q ∈ (s.dumped p i).satchels, q.ctx.node.inst ≠ some j.id := by
  intro q hq hid
  rw [State.dumped, (State.releaseAll_rest _ _).2.2.2] at hq
  have hkept := (List.mem_filter.1 hq).2
  rw [hid, Option.any_some, List.contains_iff_mem.2 (List.mem_map.2 ⟨j, hj, rfl⟩)] at hkept
  exact Bool.noConfusion hkept

theorem State.coreAt_toldOf (c : CoreId) : ((s.withDump p i).toldOf p (s.heldNodes p)).coreAt c = s.coreAt c := by
  obtain ⟨hcores, -, -⟩ := s.withDump_rest p i
  show State.coreAt _ c = _
  rw [State.coreAt, State.toldOf]
  show (s.withDump p i).cores.get c = _
  rw [hcores]
  rfl

/-- The cores of the failed nodes are free, and no other core changes. -/
theorem State.dumped_core {j : Inst} (hj : j ∈ s.heldNodes p) {c : CoreId} (hc : c ∈ s.instCores j.id) :
    ((s.dumped p i).coreAt c).node.inst = none ∧ ((s.dumped p i).coreAt c).seq.mode = .idle := by
  have hid := (s.mem_instCores j.id c).1 hc
  rw [← s.coreAt_toldOf p i c] at hid
  rw [State.dumped, State.coreAt_releaseAll_same hj hid]
  exact ⟨rfl, rfl⟩

theorem State.dumped_core_other {c : CoreId} (hc : ∀ j ∈ s.heldNodes p, c ∉ s.instCores j.id) :
    (s.dumped p i).coreAt c = s.coreAt c := by
  rw [State.dumped, State.coreAt_releaseAll_other, State.coreAt_toldOf]
  intro j hj
  rw [State.coreAt_toldOf]
  exact mt (s.mem_instCores j.id c).2 (hc j hj)
end

theorem mapped_iff (a : Nat) : (a < 0x8000000000 ∨ paInHeath a = true) ↔
    ¬ (!(paInHbm a || paInHeath a)) = true := by
  simp [paInHbm, or_iff_not_imp_left]

/-- The claim of dumps. -/
theorem claim_dumps : Claim.Dumps := by
  intro s p x base cores bad told mapped pick records
  have hpick : ∀ i, pick i ↔ s.dumpPick p = some i := fun i => (s.dumpPick_eq_some_iff p i).symm
  have hmapped : mapped ↔ ¬ (!(paInHbm base || paInHeath base)) = true := mapped_iff base
  refine ⟨fun hnone => ?_, fun i hi hm => ?_, fun i hi hm => ⟨s.dumped p i, ?dumps, ?pend, ?told, ?others,
    fun j hj c hc => s.dumped_core p i hj hc, fun j hj => s.dumped_satchels p i hj, fun c hc => s.dumped_core_other p i hc,
    fun hd => ?stays, fun hd => ?written⟩⟩
  · have hno : s.dumpPick p = none := Option.eq_none_iff_forall_ne_some.2 fun i hi => hnone i ((hpick i).2 hi)
    rw [exec_dumpWritten, hno]
  · rw [exec_dumpWritten, (hpick i).1 hi]
    exact if_pos (not_not.1 (mt hmapped.2 hm))
  case dumps =>
    rw [exec_dumpWritten, (hpick i).1 hi]
    exact if_neg (hmapped.1 hm)
  case pend =>
    rw [State.dumped_partAt]
    cases hd : (s.partAt p).dumpPend with
    | true => rw [State.withDump_pending hd, hd]
    | false => rw [State.partAt_withDump hd]
  case told =>
    intro r hr
    rw [State.dumped_causes] at hr
    exact bne_iff_ne.1 (List.mem_filter.1 hr).2
  case others =>
    intro r hr hp
    rw [State.dumped_causes]
    exact List.mem_filter.2 ⟨hr, bne_iff_ne.2 hp⟩
  case stays =>
    rw [State.dumped_ms, State.dumped_partAt, State.withDump_pending hd]
    exact ⟨rfl, rfl⟩
  case written =>
    have hms : (s.dumped p i).ms = (s.writeDump p i (s.holdings i)).ms := by
      rw [State.dumped_ms, State.withDump_writes hd]
      rfl
    rw [State.dumped_partAt, State.partAt_withDump hd, hms]
    exact ⟨rfl, fun hsize => s.writeDump_header p i (s.holdings i) hsize, s.writeDump_outside p i (s.holdings i)⟩

/-- Settles O50: roll calls, swaps, resumptions, watchdogs and dumps, each from what its event does to a core, to a node
and to memory. Three of the claims are the model's reading and not the rules' words: members that swap and members that do not
at one roll call all swap (log entry 46), CORENUM of a resumed seat is the new leader's (log entry 47), and a dump to an address
that the map leaves empty is a fault (log entry 40). -/
theorem rollCallsSwapsAndDumps : Obligations.RollCallsSwapsAndDumps :=
  ⟨claim_rollCalls, claim_swaps, claim_resumes, claim_watchdogs, claim_dumps⟩

end Sys2Proof.Machine
end

section
/-!
SUPPORT. The canonical form of a memory determines it, and poison clears by whole words (00_scope R3, 07_faults R141).
-/

namespace Sys2Proof.Machine

/-! ### Two memories in the canonical form that read alike are one -/

/-- Cells that rise from a bound list nothing below it. -/
theorem cellsRead_below : ∀ (l : List Host.Cell) {lo a : Nat}, cellsOk lo l = true → a < lo → cellsRead l a = unlisted
  | [], _, _, _, _ => rfl
  | (k, v) :: r, lo, a, h, ha => by
    simp only [cellsOk, Bool.and_eq_true, decide_eq_true_eq] at h
    obtain ⟨⟨hk, -⟩, hr⟩ := h
    rw [cellsRead, if_neg (by omega)]
    exact cellsRead_below r hr (by omega)

/-- The first cell of a list in the form reads as what it lists, which is not the unlisted byte. -/
theorem cellsRead_head (k : Nat) (v : Byte) (r : List Host.Cell) : cellsRead ((k, v) :: r) k = v := if_pos rfl

theorem cellsOk_cons {lo k : Nat} {v : Byte} {r : List Host.Cell} :
    cellsOk lo ((k, v) :: r) = true ↔ lo ≤ k ∧ v ≠ unlisted ∧ cellsOk (k + 1) r = true := by
  simp [cellsOk, and_assoc]

/-- Lists of cells in the form that read alike list the same: the lower first address would read as unlisted in the other. -/
theorem cells_ext : ∀ (l m : List Host.Cell) {lo lo' : Nat}, cellsOk lo l = true → cellsOk lo' m = true →
    (∀ x, cellsRead l x = cellsRead m x) → l = m
  | [], [], _, _, _, _, _ => rfl
  | [], (k, v) :: r, _, _, _, hm, h => by
    have hv := (cellsOk_cons.1 hm).2.1
    exact absurd ((h k).trans (cellsRead_head k v r)).symm hv
  | (k, v) :: r, [], _, _, hl, _, h => by
    have hv := (cellsOk_cons.1 hl).2.1
    exact absurd ((cellsRead_head k v r).symm.trans (h k)) hv
  | (k, v) :: l, (j, w) :: m, lo, lo', hl, hm, h => by
    obtain ⟨-, hv, hl'⟩ := cellsOk_cons.1 hl
    obtain ⟨-, hw, hm'⟩ := cellsOk_cons.1 hm
    have hkj : ¬ k < j := fun hlt => hv <| by
      rw [← cellsRead_head k v l, h k]
      exact cellsRead_below ((j, w) :: m) (lo := j) (cellsOk_cons.2 ⟨Nat.le_refl j, hw, hm'⟩) hlt
    have hjk : ¬ j < k := fun hlt => hw <| by
      rw [← cellsRead_head j w m, ← h j]
      exact cellsRead_below ((k, v) :: l) (lo := k) (cellsOk_cons.2 ⟨Nat.le_refl k, hv, hl'⟩) hlt
    obtain rfl : k = j := by omega
    have hhead : v = w := by rw [← cellsRead_head k v l, h k, cellsRead_head]
    have htail : l = m := by
      refine cells_ext l m hl' hm' fun x => ?_
      by_cases hx : k = x
      · subst hx
        rw [cellsRead_below l hl' (by omega), cellsRead_below m hm' (by omega)]
      · have hat := h x
        rwa [cellsRead, cellsRead, if_neg hx, if_neg hx] at hat
    rw [hhead, htail]

theorem Memory.ext_of_wf {m n : Memory} (hm : m.wf = true) (hn : n.wf = true) (hr : ∀ x, m.read x = n.read x)
    (hp : m.poison = n.poison) : m = n := by
  have hc : m.cells = n.cells := cells_ext _ _ ((m.wf_iff).1 hm).1 ((n.wf_iff).1 hn).1 hr
  cases m; cases n
  simp only at hc hp
  rw [hc, hp]

/-- The claim of bytes read after a write. -/
theorem claim_memoryReadAfterWrite : Claim.MemoryReadAfterWrite := fun m a b v h =>
  ⟨m.read_write a b v, Memory.wf_write h a v, fun _ hm hr hp => Memory.ext_of_wf hm h hr hp⟩

/-! ### Poison (R141) -/

theorem Memory.poison_writeList : ∀ (l : List (Nat × Byte × Byte)) (m : Memory), (m.writeList l).poison = m.poison
  | [], _ => rfl
  | (_, _, _) :: r, _ => (Memory.poison_writeList r _).trans rfl

theorem Memory.isPoisoned_clearAt (m : Memory) (a b : Nat) :
    (m.clearAt a).isPoisoned b = (m.isPoisoned b && (b / 8 * 8 != a / 8 * 8)) := by
  rw [Bool.eq_iff_iff]
  simp [Memory.isPoisoned, Memory.clearAt, numRemove]

/-- Clearing words leaves a word's poison unless the word is one of them. -/
theorem Memory.isPoisoned_clearAll (l : List Nat) (m : Memory) (b : Nat) :
    (l.foldl Memory.clearAt m).isPoisoned b = (m.isPoisoned b && !(l.map (· / 8 * 8)).contains (b / 8 * 8)) := by
  induction l generalizing m with
  | nil => simp
  | cons a l ih =>
    rw [List.foldl_cons, ih, Memory.isPoisoned_clearAt, List.map_cons, List.contains_cons, Bool.not_or, Bool.and_assoc]
    rfl

theorem mem_wordsOf {l : List Nat} {w : Nat} : w ∈ wordsOf l ↔ ∃ a ∈ l, a / 8 * 8 = w := by
  simp [wordsOf]

/-- A write that covers a word writes its first byte. -/
theorem coversWord_first {l : List (Nat × Byte × Byte)} {w : Nat} (h : coversWord l w = true) : ∃ x ∈ l, x.1 = w := by
  have h0 := List.all_eq_true.1 h 0 (by decide)
  obtain ⟨x, hx, hat⟩ := List.any_eq_true.1 h0
  rw [Bool.and_eq_true, beq_iff_eq] at hat
  exact ⟨x, hx, hat.1⟩

/-- The words that a store clears are those it covers. -/
theorem Memory.isPoisoned_store (m : Memory) (l : List (Nat × Byte × Byte)) {w : Nat} (hw : w % 8 = 0) :
    (m.store l).isPoisoned w = (m.isPoisoned w && !coversWord l w) := by
  have h8 : w / 8 * 8 = w := by omega
  have hcleared : (((wordsOf (l.map (·.1))).filter (coversWord l)).map (· / 8 * 8)).contains (w / 8 * 8) = coversWord l w := by
    rw [Bool.eq_iff_iff, List.contains_iff_mem, List.mem_map, h8]
    constructor
    · rintro ⟨a, ha, rfl⟩
      obtain ⟨hmem, hcov⟩ := List.mem_filter.1 ha
      obtain ⟨b, -, rfl⟩ := mem_wordsOf.1 hmem
      rwa [show b / 8 * 8 / 8 * 8 = b / 8 * 8 by omega]
    · intro hcov
      obtain ⟨x, hx, hat⟩ := coversWord_first hcov
      exact ⟨w, List.mem_filter.2 ⟨mem_wordsOf.2 ⟨x.1, List.mem_map_of_mem hx, by rw [hat, h8]⟩, hcov⟩, h8⟩
  have hkept : (m.writeList l).isPoisoned w = m.isPoisoned w := by
    rw [Memory.isPoisoned, Memory.poison_writeList, Memory.isPoisoned]
  rw [Memory.store, Memory.isPoisoned_clearAll, hcleared, hkept]

/-- A poisoned word that a write touches and does not cover is met. -/
theorem Memory.partialPoison_isSome {m : Memory} {l : List (Nat × Byte × Byte)} {w : Nat} (hp : m.isPoisoned w = true)
    (hc : coversWord l w = false) (ht : ∃ x ∈ l, x.1 / 8 * 8 = w) : (m.partialPoison l).isSome = true := by
  obtain ⟨x, hx, hat⟩ := ht
  rw [Memory.partialPoison, List.find?_isSome]
  exact ⟨w, mem_wordsOf.2 ⟨x.1, List.mem_map_of_mem hx, hat⟩, by rw [hp, hc]; rfl⟩

/-- The claim of poisoned words. -/
theorem claim_poisonedWords : Claim.PoisonedWords := by
  intro m l w _ hw
  refine ⟨m.isPoisoned_poisonAt_same rfl, fun hc => ?_, fun hc => ?_, fun hp hc ht => Memory.partialPoison_isSome hp hc ht⟩
  · rw [m.isPoisoned_store l hw, hc, Bool.not_true, Bool.and_false]
  · rw [m.isPoisoned_store l hw, hc, Bool.not_false, Bool.and_true]

/-- Settles O9: a write changes the one byte it names, the canonical form leaves one memory for what is read, and a store
clears the poison of the words it covers. -/
theorem memoryReadAfterWrite : Obligations.MemoryReadAfterWrite := ⟨claim_memoryReadAfterWrite, claim_poisonedWords⟩

end Sys2Proof.Machine
end

section
/-!
SUPPORT. Taking a trap (07_faults R128 to R135): what a core holds when a handler is entered, and what is left of a group that
failed a check.
-/

namespace Sys2Proof.Machine

/-! ### The words of the trap registers (R130) -/

theorem Pc.word_toNat (p : Pc) :
    p.word.toNat = (if p.half = true then 2 ^ 14 else 0) + p.bundle % 4096 * 4 + p.slot % 4 := by
  have hhalf : b2n p.half * 2 ^ 14 = if p.half = true then 2 ^ 14 else 0 := by cases p.half <;> rfl
  rw [Pc.word, BitVec.toNat_ofNat, hhalf]
  split <;> omega

theorem Trap.cause_toNat (t : Trap) (sync : Bool) : (t.cause sync).toNat =
    (if t.async = true then 2 ^ 63 else 0) + t.engine % 8 * 2 ^ 60 + (if sync = true then 2 ^ 59 else 0) +
      t.reason % 256 * 256 + t.code % 256 := by
  have hasync : b2n t.async * 2 ^ 63 = if t.async = true then 2 ^ 63 else 0 := by cases t.async <;> rfl
  have hsync : b2n sync * 2 ^ 59 = if sync = true then 2 ^ 59 else 0 := by cases sync <;> rfl
  rw [Trap.cause, BitVec.toNat_ofNat, hasync, hsync]
  split <;> split <;> omega

theorem Trap.cause_code (t : Trap) (sync : Bool) : (t.cause sync).toNat % 256 = t.code % 256 := by
  rw [Trap.cause_toNat]
  split <;> split <;> omega

/-- SYNCDONE. -/
theorem Trap.cause_sync (t : Trap) (sync : Bool) : (t.cause sync).getLsbD 59 = sync := by
  rw [lqcfg_bit, bitOf, Trap.cause_toNat]
  cases sync <;> cases t.async <;> simp <;> omega

/-- FAULTMASK is no part of a trap's class. -/
theorem Trap.cls_marked (t : Trap) (m : Nat) : ({ t with mask := m } : Trap).cls = t.cls := rfl

/-! ### Entering a handler (R134) -/

/-- A core that waits for no producer drains none. -/
theorem Core.drain_none {x : Core} (h : x.fills = []) : x.drain = x := by
  cases x
  cases h
  rfl

theorem Core.drainEnd_none {x : Core} (h : x.fills = []) (now : W) : x.drainEnd now = now := by
  rw [Core.drainEnd, h]
  rfl

/-- Clearing an error bit changes timelines alone. -/
theorem Core.clearErr_eq (x : Core) (t : Trap) : x.clearErr t = { x with tl := (x.clearErr t).tl } := by
  unfold Core.clearErr
  split <;> rfl

theorem Core.clearErr_other {t : Trap} (h : t.code ≠ 0x10) (x : Core) : x.clearErr t = x := if_neg h

/-- The core in the handler of a trap, when no producer is outstanding. -/
theorem Core.enterHandler_eq {x : Core} (h : x.fills = []) (t : Trap) (sync : Bool) (pc : Pc) (now : W) :
    x.enterHandler t sync pc now = { x with
      tl := (x.clearErr t).tl
      csr := { x.csr.record t sync pc with hm := true }
      redun := { x.redun with groups := x.redun.groups + 1 }
      seq := { x.seq with
        pc := ⟨bitOf x.csr.tvec.toNat 14, x.csr.tvec.toNat / 4 % 4096, 0⟩
        npc := ⟨bitOf x.csr.tvec.toNat 14, x.csr.tvec.toNat / 4 % 4096, 0⟩
        savedLoops := x.seq.loops, loops := [], rolled := false, skipSync := false, held := none, next := now + 6
        took := (now, #v[((x.clearErr t).tlAt 0).issued.toNat, ((x.clearErr t).tlAt 1).issued.toNat]) }
      locks := [] } := by
  unfold Core.enterHandler
  rw [Core.drain_none h, Core.drainEnd_none h, Core.clearErr_eq]
  rfl

/-! ### Where a trap is taken (R131, R134, R135) -/

section
variable {s : State} {t : Trap} {pc : Pc}

/-- Without replicas a trap is taken at once. -/
theorem State.trap_alone (h : s.csr.nrep.toNat ≤ 1) : s.trap t pc = s.takeTrap t pc := if_pos h

/-- Outside handler mode, with a handler set, a trap that is not of class F enters the handler. -/
theorem State.takeTrap_enters (hm : s.csr.hm = false) (hv : bitOf s.csr.tvec.toNat 63 = true) (hf : t.cls ≠ .f) :
    s.takeTrap t pc = s.setCore (s.core.enterHandler t s.issue.synced pc s.cyc) := by
  have hm' : ¬ s.core.csr.hm = true := by rw [show s.core.csr.hm = false from hm]; exact Bool.false_ne_true
  have hv' : ¬ (t.cls = .f ∨ (!bitOf s.core.csr.tvec.toNat 63) = true) := by
    rw [show bitOf s.core.csr.tvec.toNat 63 = true from hv]
    simp [hf]
  exact (if_neg hm').trans (if_neg hv')

/-- Outside handler mode, with no handler set or a trap of class F, the trap registers are written and the node fails. -/
theorem State.takeTrap_fails (hm : s.csr.hm = false) (hf : t.cls = .f ∨ bitOf s.csr.tvec.toNat 63 = false)
    (hd : s.core.fills = []) : s.takeTrap t pc =
      (s.setCore ((s.core.clearErr t).onCsr (·.record t s.issue.synced pc))).failNode t (s.rootRecs t pc) := by
  have hm' : ¬ s.core.csr.hm = true := by rw [show s.core.csr.hm = false from hm]; exact Bool.false_ne_true
  have hf' : t.cls = .f ∨ (!bitOf s.core.csr.tvec.toNat 63) = true := hf.imp id fun h => by
    rw [show bitOf s.core.csr.tvec.toNat 63 = false from h]; rfl
  rw [← Core.drain_none hd]
  exact (if_neg hm').trans (if_pos hf')

/-- So it does without replicas: the core is in the handler, and nothing else changes. -/
theorem State.trap_enters (h1 : s.csr.nrep.toNat ≤ 1) (hm : s.csr.hm = false) (hv : bitOf s.csr.tvec.toNat 63 = true)
    (hf : t.cls ≠ .f) : (s.trap t pc).core = s.core.enterHandler t s.issue.synced pc s.cyc ∧
      (∀ c, c ≠ s.cur → (s.trap t pc).coreAt c = s.coreAt c) ∧ (s.trap t pc).ms = s.ms ∧ (s.trap t pc).cur = s.cur := by
  rw [State.trap_alone h1, State.takeTrap_enters hm hv hf]
  exact ⟨s.core_setCore _, fun c hc => by rw [State.coreAt_setCore, if_neg hc.symm], rfl, rfl⟩

/-- In handler mode a second trap fails the node with DOUBLE_TRAP. -/
theorem State.takeTrap_again (hm : s.csr.hm = true) (hd : s.core.fills = []) : ∃ recs,
    s.takeTrap t pc = (s.setCore (s.core.onCsr
      (·.record { t with code := 0x1D, info := .ofNat 64 t.code } s.issue.synced s.core.seq.pc))).failNode
        { t with code := 0x1D, info := .ofNat 64 t.code } recs := by
  have hm' : s.core.csr.hm = true := hm
  unfold State.takeTrap
  dsimp only
  rw [Core.drain_none hd, if_pos hm']
  exact ⟨_, rfl⟩

end

/-- A group of which one operation failed its check: the trap is taken before the group, with that operation marked. -/
theorem State.failGroup_one (s : State) {t : State} {f : Failure} (h : t.issue.fails = [f]) :
    s.failGroup t = { (State.withSync { s with ms := { s.ms with walks := t.ms.walks } }).trap
      { f.trap with mask := 2 ^ f.idx } s.core.seq.pc with issue := Issue.idle } := by
  have hmask : (0 : Nat) ||| 2 ^ f.idx = 2 ^ f.idx := Nat.zero_or _
  unfold State.failGroup
  rw [h]
  dsimp only [List.head?_cons, List.foldl_cons, List.foldl_nil]
  rw [hmask, ite_self]
  rfl

/-- A group that does not hold and has a failed check fails. -/
theorem State.finishGroup_fails (s : State) (g : Group) (prev : Option (BitVec 32 × BitVec 12)) {t : State} {f : Failure}
    (hh : t.issue.held = false) (hf : t.issue.fails = [f]) : s.finishGroup g prev (.next t) = .next (s.failGroup t) := by
  simp [State.finishGroup, hh, hf]

/-- Settles O13: what the group's operations left is dropped but for the walks they asked for, and the handler of the trap is
entered in the state before the group. -/
theorem failingGroupHasNoEffect : Obligations.FailingGroupHasNoEffect := by
  intro s t u g prev f hheld hfails _ hrep hm hv hcls hcode hdrain hu
  rw [s.finishGroup_fails g prev hheld hfails, s.failGroup_one hfails] at hu
  obtain rfl := Host.Outcome.next.inj hu
  have hcls' : ({ f.trap with mask := 2 ^ f.idx } : Trap).cls ≠ .f := by rwa [f.trap.cls_marked]
  let v : State := State.withSync { s with ms := { s.ms with walks := t.ms.walks } }
  obtain ⟨hself, hothers, hms, hcur⟩ := State.trap_enters (s := v) (pc := s.core.seq.pc) hrep hm hv hcls'
  have hself' := hself.trans (Core.enterHandler_eq hdrain _ _ _ _)
  rw [Core.clearErr_other (t := { f.trap with mask := 2 ^ f.idx }) hcode] at hself'
  have field {α : Type} (p : Core → α) := congrArg p hself'
  exact ⟨field Core.regs, field Core.queues, field Core.tl, field Core.scratch, field Core.acc, field Core.copy,
    field Core.matrix, field Core.lift, (congrArg MemSys.mem hms :), hothers, field (·.csr.hm), field (·.csr.trappc),
    field (·.csr.trapinfo), field (·.csr.faultmask)⟩

/-- The claim of trap entry. -/
theorem claim_trapEntry : Claim.TrapEntry := by
  intro s t pc hm hv hcls hdrain
  rw [State.takeTrap_enters hm hv hcls]
  have field {α : Type} (p : Core → α) :=
    congrArg p ((s.core_setCore _).trans (Core.enterHandler_eq hdrain t s.issue.synced pc s.cyc))
  exact ⟨field (·.csr.trappc), field (·.csr.trapcause), field (·.csr.trapinfo), field (·.csr.faultmask), field (·.csr.hm),
    field (·.seq.pc), (field (·.seq.npc)).trans (field (·.seq.pc)).symm, field (·.seq.next), field (·.seq.savedLoops),
    field (·.seq.loops), field (·.csr.tvec), field Core.regs, field Core.lift, field Core.scratch, rfl,
    fun c hc => by rw [State.coreAt_setCore, if_neg hc.symm]⟩

/-! ### A core that runs no node (O14) -/

/-- The failure of a core that runs no node is told to telemetry, and no record joins the chain of causes. -/
theorem State.failNode_idle {s : State} (h : s.instOf s.cur = none) (t : Trap) (prior : List CauseRec) :
    (s.failNode t prior).sched = s.sched := by
  unfold State.failNode
  rw [h]
  rfl

/-- Core 0 of the module at reset, which runs no node, in handler mode. -/
def idleInHandler : State := State.reset.mapCsr fun c => { c with hm := true }

theorem idleInHandler_core : idleInHandler.core = { Core.reset 0 with csr := { Csr.reset 0 with hm := true } } := by
  have hreset : State.reset.core = Core.reset 0 := State.coreAt_reset 0
  rw [idleInHandler, State.mapCsr, State.core_mapCore, hreset]
  rfl

theorem State.instOf_idle {s : State} {c : CoreId} (h : (s.coreAt c).node.inst = none) : s.instOf c = none := by
  rw [State.instOf, h]
  rfl

/-- A second trap of a core that runs no node leaves the chain of causes as it was. -/
theorem State.takeTrap_again_idle {s : State} (hm : s.csr.hm = true) (hd : s.core.fills = []) (hn : s.core.node.inst = none)
    (t : Trap) (pc : Pc) : (s.takeTrap t pc).sched = s.sched := by
  obtain ⟨recs, htrap⟩ := State.takeTrap_again (t := t) (pc := pc) hm hd
  rw [htrap]
  refine State.failNode_idle (State.instOf_idle ?_) _ recs
  show (State.core (s.setCore _)).node.inst = none
  rw [State.core_setCore]
  exact hn

/-- Refutes O14: its first half holds, and its second says of every core in handler mode that a second trap lengthens the chain
of causes. On core 0 at reset with HM set, which runs no node, the chain is empty before and after. -/
theorem not_trapEntry : ¬ Obligations.TrapEntry := by
  intro h
  have hm : idleInHandler.csr.hm = true := congrArg (·.csr.hm) idleInHandler_core
  have hd : idleInHandler.core.fills = [] := congrArg Core.fills idleInHandler_core
  have hn : idleInHandler.core.node.inst = none := congrArg (·.node.inst) idleInHandler_core
  have hchain : idleInHandler.sched.causes = [] := rfl
  obtain ⟨-, -, -, a, b, hgrown, -⟩ := h.2 idleInHandler { code := 2 } ⟨false, 0, 0⟩ hm hd
  rw [State.takeTrap_again_idle hm hd hn, hchain] at hgrown
  exact List.cons_ne_nil a b hgrown.symm

end Sys2Proof.Machine
end

section
/-!
SUPPORT. A step (10_core R191 to R195, 12_encoding R239 to R241): a lone slot forms a group, the sequencer's turn issues it, and
what the other turns are.
-/

namespace Sys2Proof.Machine

/-! ### A lone slot (12_encoding R239 to R241) -/

theorem Half.fetch_settled {h : Half} (hs : h.stale = []) (free : Nat) : h.fetch free = h.bundle := by
  funext b
  rw [Half.fetch, hs]
  rfl

/-- A slot whose stop bit is set ends its group. -/
theorem gather_stop {fetch : Nat → Nat} {b s : Nat} (n : Nat) (h : bitOf (fetch b / 2 ^ (32 * s) % 2 ^ 32) 31 = true) :
    gather fetch (n + 1) b s = ([⟨b, s, fetch b / 2 ^ (32 * s) % 2 ^ 32⟩], false) := by
  rw [gather]
  exact if_pos h

section
variable {x : SlotAt} (hop : x.isOp = true)
include hop

theorem SlotAt.isHeader_of_op : x.isHeader = false := by
  have hclass : slotClass x.w < 6 := of_decide_eq_true (Bool.and_eq_true_iff.1 hop).1
  exact beq_false_of_ne (by omega)

theorem SlotAt.isPrefix_of_op : x.isPrefix = false := by
  have hclass : slotClass x.w < 6 := of_decide_eq_true (Bool.and_eq_true_iff.1 hop).1
  exact beq_false_of_ne (by omega)

theorem headerOf_lone (b : Nat) : headerOf [x] b = none := by
  simp [headerOf, SlotAt.isHeader_of_op hop]

theorem prefixesOf_lone (y : SlotAt) : prefixesOf [x] y = [] := by
  simp [prefixesOf, SlotAt.isPrefix_of_op hop]

theorem groupSync_lone : groupSync [x] = 0 := by
  simp [groupSync, SlotAt.isHeader_of_op hop]

theorem groupTimed_lone : groupTimed [x] = none := by
  simp [groupTimed, SlotAt.isHeader_of_op hop]

theorem opSlots_lone {i : Instr} (hd : decodeFields x.w = .ok i) :
    opSlots [x] none = [(x, some (i, ctxOf [x] 0 0 none x))] := by
  simp [opSlots, hop, hd]

/-- Nothing is lent to a lone slot. -/
theorem ctxOf_lone : (ctxOf [x] 0 0 none x).idx = 0 ∧ (ctxOf [x] 0 0 none x).raw = x.w ∧
    (ctxOf [x] 0 0 none x).mask = 0 ∧ (ctxOf [x] 0 0 none x).ovr = 0 := by
  simp [ctxOf, headerOf_lone hop]

end

/-- A word that decodes with its fields in range has fields that decode. -/
theorem decodeFields_of_decodeSlot {w : Nat} {i : Instr} (h : decodeSlot w = .ok i) : decodeFields w = .ok i := by
  unfold decodeSlot checked at h
  split at h
  · next j hj =>
    split at h
    · rw [hj]; exact h
    · cases h
  · cases h

/-- An operation that decodes, and whose control register is listed, violates nothing of its own. -/
theorem slotViolation_none {x : SlotAt} {i : Instr} (hd : decodeSlot x.w = .ok i) (hc : csrNamed i = true) :
    slotViolation x = [] := by
  rw [slotViolation, hd]
  dsimp only
  split <;> simp_all [csrNamed]

theorem violations_lone {x : SlotAt} {i : Instr} (hop : x.isOp = true) (hd : decodeSlot x.w = .ok i)
    (hc : csrNamed i = true) (hm : Bool) : violations hm [x] false = [] := by
  have hlimit : classLimit (opClass x.w) ≠ 0 := by cases opClass x.w <;> decide
  simp [violations, SlotAt.isHeader_of_op hop, SlotAt.isPrefix_of_op hop, hop, slotViolation_none hd hc, hlimit,
    groupSync_lone hop, groupTimed_lone hop, opSlots_lone hop (decodeFields_of_decodeSlot hd)]
  split <;> rfl

/-- The group of a lone slot. -/
theorem decodeGroup_lone {fetch : Nat → Nat} {b s : Nat} {x : SlotAt} {i : Instr} (hx : x = ⟨b, s, fetch b / 2 ^ (32 * s) % 2 ^ 32⟩)
    (hb : b ≤ 4095) (hstop : bitOf x.w 31 = true) (hop : x.isOp = true) (hd : decodeSlot x.w = .ok i)
    (hc : csrNamed i = true) (hm : Bool) : decodeGroup hm fetch b s = .ok (loneGroup i x) := by
  have hgather : gather fetch 16 b s = ([x], false) := by
    subst hx
    exact gather_stop 15 hstop
  rw [decodeGroup, if_neg (by omega), hgather]
  dsimp only
  rw [violations_lone hop hd hc, groupTimed_lone hop, groupSync_lone hop]
  dsimp only [Option.map_none]
  rw [opSlots_lone hop (decodeFields_of_decodeSlot hd)]
  subst hx
  cases i <;> rfl

/-- The claim of the slot that is fetched. -/
theorem claim_slotIsFetched : Claim.SlotIsFetched := by
  intro s i x hstale hb hs hstop hop hd hc
  refine ⟨?_, ctxOf_lone hop⟩
  have hfetch := Half.fetch_settled hstale s.freeCtr
  exact decodeGroup_lone (by rw [hfetch]; rfl) hb hstop hop hd hc s.core.csr.hm

/-! ### The sequencer's turn (10_core R191 to R195) -/

/-- The turn of a core that nothing keeps from its next group is the issue of that group. -/
theorem seqTurn_issues {s t : State} {c : CoreId} {g : Group} (ht : { s with cur := c, issue := Issue.idle } = t)
    (hmay : t.mayIssue) (hg : t.nextGroup = .ok g) : seqTurn c s = issueGroup g t := by
  obtain ⟨hlive, hdue, hheld, hbehind, hdebt, hnext, hstale, hpoison⟩ := hmay
  have hfree : ¬ (t.core.seq.held.isSome = true ∨ (!t.behindLeader) = true ∨
      ((!t.core.csr.tt) = true ∧ t.core.csr.limit ≠ 0xFFFF ∧ t.core.csr.limit.toNat < t.core.csr.debt.toNat) ∨
      t.cyc.toNat < t.core.seq.next.toNat) := by
    rw [hheld, hbehind]
    rintro (h | h | ⟨htt, hlimit, hover⟩ | h)
    · cases h
    · cases h
    · rcases hdebt with h | h | h
      · rw [show t.core.csr.tt = true from h] at htt
        cases htt
      · exact hlimit h
      · exact absurd (show t.core.csr.debt.toNat ≤ t.core.csr.limit.toNat from h) (by omega)
    · omega
  unfold seqTurn
  rw [ht]
  dsimp only
  rw [hlive, Bool.not_true, if_neg Bool.false_ne_true, hdue]
  dsimp only
  rw [if_neg hfree, hg]
  dsimp only
  rw [hstale, hpoison]
  rfl

/-- With its roll call completed, or none asked for, and no stamp to wait for, the group runs. -/
theorem issueGroup_runs {g : Group} {s : State}
    (hsync : g.sync = none ∨ s.core.seq.rolled = true ∨ s.core.seq.skipSync = true)
    (hstamp : g.stamp = none ∨ s.core.csr.tt = false) : issueGroup g s = runGroup g none s := by
  have hs : (if s.core.seq.rolled = true ∨ s.core.seq.skipSync = true then none else g.sync) = none := by
    split
    · rfl
    · next h => exact hsync.resolve_right h
  have ht : (if s.core.csr.tt = true then g.stamp else none) = none := by
    split
    · next h => exact hstamp.resolve_right (by rw [h]; decide)
    · rfl
  unfold issueGroup
  dsimp only
  rw [hs, ht]

theorem State.groupWaits_iff (s : State) (g : Group) : s.groupWaits g = true ↔
    g.ops.any (s.core.waitsFor s.cyc) = true ∨ s.core.vecFull s.cyc (s.fw.lostVec.contains s.cur) g = true ∨
      (g.hasVector = true ∧ s.core.csr.tt = false ∧ s.core.csr.part.toFin ∈ s.fw.throttled) := by
  simp [State.groupWaits, State.throttledAt, State.core, or_assoc]

/-- What a group that runs leaves, by what its operations left. -/
theorem State.finishGroup_next (s u : State) (g : Group) (prev : Option (BitVec 32 × BitVec 12)) :
    (u.issue.held = true → s.finishGroup g prev (.next u) = .next (s.holdGroup u)) ∧
    (u.issue.held = false → u.issue.fails ≠ [] → s.finishGroup g prev (.next u) = .next (s.failGroup u)) ∧
    (u.issue.held = false → u.issue.fails = [] → ∀ k, u.issue.compare = some k →
      s.finishGroup g prev (.next u) = .next (s.arrive u k)) ∧
    (u.issue.held = false → u.issue.fails = [] → u.issue.compare = none →
      s.finishGroup g prev (.next u) = .next (u.commit g prev s.csr.hm)) := by
  refine ⟨fun hh => ?_, fun hh hf => ?_, fun hh hf k hk => ?_, fun hh hf hk => ?_⟩
  · simp [State.finishGroup, hh]
  · simp [State.finishGroup, hh, hf]
  · simp [State.finishGroup, hh, hf, hk]
  · simp [State.finishGroup, hh, hf, hk]

theorem runOps_single (i : Instr) (x : OpCtx) (s : State) {u : State}
    (h : exec i { s with issue := { s.issue with ctx := x } } = .next u) : runOps [(i, x)] s = .next u := by
  rw [runOps_cons, h]
  rfl

/-- The claim of groups that issue. -/
theorem claim_groupIssues : Claim.GroupIssues := by
  intro s c l g horder t waits hmay hg hsync hstamp
  have hrun : step s = runGroup g none t := by
    rw [step_cons _ _ _ horder]
    exact (seqTurn_issues (s := { s with order := l }) rfl hmay hg).trans (issueGroup_runs hsync hstamp)
  have hwaits : t.groupWaits g = true ↔ waits := t.groupWaits_iff g
  have hgo (h : ¬ waits) : step s = t.finishGroup g none (runOps g.ops (t.beginGroup g)) :=
    hrun.trans (if_neg (mt hwaits.1 h))
  refine ⟨fun h => hrun.trans (if_pos (hwaits.2 h)), fun h => ⟨hgo h, fun i x hops u hu => ?_⟩⟩
  rw [hgo h, hops, runOps_single i x _ hu]
  exact t.finishGroup_next u g none

/-! ### The other turns -/

/-- Without a call that is ready, the matrix engine's turn does nothing. -/
theorem microTurn_none {s t : State} {c : CoreId} (ht : { s with cur := c, issue := Issue.idle } = t)
    (h : t.microReady c = none) : microTurn c s = .next t := by
  unfold microTurn
  rw [ht]
  dsimp only
  rw [h]

/-- The next word of a routine that is no library's is executed, or stops the call when it decodes to none. -/
theorem microTurn_word {s t : State} {c : CoreId} {r : MRun} (ht : { s with cur := c, issue := Issue.idle } = t)
    (hr : t.microReady c = some r) (hlib : 5 ≤ r.routine.toNat) (hat : (t.core.routineAt r.routine).1 + r.upc ≤ 4095) :
    let w := t.core.microWord ((t.core.routineAt r.routine).1 + r.upc)
    (∀ i, decodeMicro w = .ok i → microTurn c s = exec i t) ∧
    (∀ e, decodeMicro w = .error e → microTurn c s = .next (t.microStop (illegalMicro w))) := by
  have hown : r.isLib = false := decide_eq_false (by omega)
  unfold microTurn
  rw [ht]
  dsimp only
  rw [hr]
  dsimp only
  rw [hown, if_neg Bool.false_ne_true, if_neg (by omega)]
  exact ⟨fun i hi => by rw [hi], fun e he => by rw [he]⟩

/-- The claim of the other turns. -/
theorem claim_otherTurns : Claim.OtherTurns := by
  intro s l u
  have hcons (t : Turn) (h : s.order = t :: l) : step s = takeTurn t u := step_cons s t l h
  refine ⟨fun c r h => ⟨fun hr => ?idle, fun hr hlib hat => ?word⟩, fun i a h => hcons _ h,
    fun n h => hcons _ h, fun d h => hcons _ h, fun f off h => ⟨fun hp => ?behind, fun hp => ?reads⟩, fun ps h => ?power,
    fun k h => hcons _ h, fun h => ?round⟩
  case idle => exact (hcons _ h).trans (microTurn_none (s := u) rfl hr)
  case word =>
    rw [hcons _ h]
    exact microTurn_word (s := u) (t := s.atTurn c l) rfl hr hlib hat
  case behind => rw [hcons _ h, takeTurn, State.readC, if_pos hp]
  case reads => rw [hcons _ h, takeTurn, State.readC, if_neg (by rw [hp]; exact Bool.false_ne_true)]
  case power => exact ⟨u.throttle ps, hcons _ h, rfl, rfl, rfl, rfl⟩
  case round =>
    unfold step nextStep
    rw [h]
    rfl

/-- Settles O55: a lone slot that decodes is the next group, the sequencer's turn runs the group's operations and ends it by what
they left, and every other turn is what its case says. -/
theorem stepRunsDecodedInstruction : Obligations.StepRunsDecodedInstruction :=
  ⟨claim_slotIsFetched, claim_groupIssues, claim_otherTurns⟩

end Sys2Proof.Machine
end

section
/-!
SUPPORT. A fault that fails the node of its core (07_faults R131, R150, R151): what the failure leaves of the cores, and the
records that join the chain of causes.
-/

namespace Sys2Proof.Machine

/-! ### What a failure leaves of the cores and of the chain of causes -/

/-- Every core is as before, and the chain of causes has only grown. -/
structure ChainFrame (s t : State) : Prop where
  cores : t.cores = s.cores
  grown : ∃ l, t.sched.causes = s.sched.causes ++ l

theorem ChainFrame.of_causes {s t : State} (hc : t.cores = s.cores) (hs : t.sched.causes = s.sched.causes) : ChainFrame s t :=
  ⟨hc, [], by rw [hs, List.append_nil]⟩

theorem ChainFrame.refl (s : State) : ChainFrame s s := .of_causes rfl rfl

theorem ChainFrame.trans {s t u : State} (h : ChainFrame s t) (g : ChainFrame t u) : ChainFrame s u := by
  obtain ⟨l, hl⟩ := h.grown
  obtain ⟨k, hk⟩ := g.grown
  exact ⟨g.cores.trans h.cores, l ++ k, by rw [hk, hl, List.append_assoc]⟩

theorem ChainFrame.foldl {α : Type} {f : State → α → State} (hf : ∀ s a, ChainFrame s (f s a)) (l : List α) (s : State) :
    ChainFrame s (l.foldl f s) := by
  induction l generalizing s with
  | nil => exact .refl s
  | cons a l ih => exact (hf s a).trans (ih _)

theorem ChainFrame.leavePool (s : State) (id : Nat) : ChainFrame s (s.leavePool id) := by
  unfold State.leavePool
  split
  · exact .refl s
  · split
    · exact .of_causes rfl rfl
    · exact .refl s

theorem ChainFrame.failRound (s : State) : ChainFrame s s.failRound := by
  unfold State.failRound
  refine .foldl (fun s (j : Inst) => ?_) _ s
  have hlast (l : List CauseRec) (u : State) : ChainFrame u (u.onSched fun h => { h with causes := h.causes ++ l }) :=
    ⟨rfl, l, rfl⟩
  refine .trans ?_ (hlast _ _)
  exact (ChainFrame.leavePool s j.id).trans (.of_causes rfl rfl)

theorem ChainFrame.failRounds (n : Nat) (s : State) : ChainFrame s (State.failRounds n s) := by
  induction n generalizing s with
  | zero => exact .refl s
  | succ n ih => exact (ChainFrame.failRound s).trans (ih _)

theorem ChainFrame.freeEntry (s : State) (i : Inst) : ChainFrame s (s.freeEntry i) := by
  unfold State.freeEntry
  split
  · exact .refl s
  · exact .of_causes rfl rfl

theorem ChainFrame.endRecord (s : State) (p : PartId) (q : Fin 16) (k : Nat) (b : Bool) :
    ChainFrame s (s.endRecord p q k b) := by
  unfold State.endRecord
  dsimp only
  split
  · split
    · exact .of_causes rfl rfl
    · exact .refl s
  · exact .of_causes rfl rfl

theorem ChainFrame.finishRecord (s : State) (i : Inst) : ChainFrame s (s.finishRecord i) := by
  unfold State.finishRecord
  dsimp only
  split
  · refine .trans ?_ (ChainFrame.endRecord _ _ _ _ _)
    exact .of_causes rfl rfl
  · exact .refl s

theorem ChainFrame.failInst (s : State) (id : Nat) : ChainFrame s (s.failInst id) := by
  unfold State.failInst
  split
  · exact .refl s
  · next i _ =>
    refine .trans (.trans (.trans ?_ (ChainFrame.failRounds _ _)) (ChainFrame.freeEntry _ i)) (ChainFrame.finishRecord _ i)
    exact (ChainFrame.leavePool s id).trans (.of_causes rfl rfl)

/-! ### The records of a failure (R151) -/

/-- Ending a chain marks its records, and drops none. -/
theorem mem_endLast {l : List CauseRec} {r : CauseRec} (h : r ∈ l) : ∃ e, { r with ends := e } ∈ endLast l := by
  obtain ⟨k, hk, rfl⟩ := List.getElem_of_mem h
  refine ⟨_, List.mem_map.2 ⟨(l[k], k), ?_, rfl⟩⟩
  have hlen : k < (l.zip (List.range l.length)).length := by simpa using hk
  have hat : (l.zip (List.range l.length))[k] = (l[k], k) := by simp
  exact hat ▸ List.getElem_mem hlen

/-- A node of a partition that dumps failed nodes and holds no dump fails: the cores keep what they hold, and its records join
the chain. -/
theorem State.failChain_records {s : State} {i : Inst} (hf : (s.partAt i.vf).fatal = false)
    (hp : (s.partAt i.vf).dumpPend = false) (recs : List CauseRec) : (s.failChain i recs).cores = s.cores ∧
      ∀ r ∈ recs, ∃ e, { r with ends := e } ∈ (s.failChain i recs).sched.causes := by
  let v := s.onSched fun h => { h with causes := h.causes ++ recs }
  obtain ⟨hcores, l, hl⟩ := ChainFrame.failInst v i.id
  have hpart : ((v.failInst i.id).partAt i.vf).dumpPend = false := by
    by_cases hi : v.instAt i.id = none
    · rw [State.failInst, hi]; exact hp
    · rw [State.partAt, (State.failInst_effect hi).1.parts]; exact hp
  have hchain : s.failChain i recs = (v.failInst i.id).onSched fun h => { h with
      causes := h.causes.take s.sched.causes.length ++ endLast ((v.failInst i.id).sched.causes.drop s.sched.causes.length) } := by
    unfold State.failChain
    rw [hf, if_neg Bool.false_ne_true]
    dsimp only
    rw [hpart, if_neg Bool.false_ne_true]
  have htail : (v.failInst i.id).sched.causes.drop s.sched.causes.length = recs ++ l := by
    rw [hl, show v.sched.causes = s.sched.causes ++ recs from rfl, List.append_assoc, List.drop_left]
  rw [hchain]
  refine ⟨hcores, fun r hr => ?_⟩
  obtain ⟨e, he⟩ := mem_endLast (List.mem_append_left l hr)
  exact ⟨e, List.mem_append_right _ (htail ▸ he)⟩

/-! ### The failure of a core's node -/

/-- A core halts. -/
def Core.halted (x : Core) : Core := { x with seq := { x.seq with mode := .halted } }

/-- The record of a trap of the executing core, whose node is that of i. -/
def State.trapRec (s : State) (t : Trap) (i : Inst) : CauseRec :=
  s.causeRec t.code t.reason (t.origin s.cur) t.info (some i) s.core.csr.trappc.toNat false

/-- The node of the executing core fails: its cores halt as they stand, the node has failed, memory keeps its bytes, and the trap
is in the chain of causes. -/
theorem State.failNode_effect {s : State} {i : Inst} (h : dumps s s.cur i) (t : Trap) (prior : List CauseRec) :
    (∀ d, (s.failNode t prior).coreAt d =
      if (s.coreAt d).node.inst = some i.id then (s.coreAt d).halted else s.coreAt d) ∧
    (s.failNode t prior).hasFailed i.id ∧ (s.failNode t prior).ms.mem = s.ms.mem ∧
    ∃ e, { s.trapRec t i with ends := e } ∈ (s.failNode t prior).sched.causes := by
  obtain ⟨hinst, hfatal, hpend⟩ := h
  obtain ⟨id, -, hid⟩ := Option.bind_eq_some_iff.1 hinst
  have hfound : s.instAt i.id ≠ none := by rw [State.id_of_instAt hid, hid]; exact Option.some_ne_none i
  let v := s.onCores (fun _ x => x.node.inst == some i.id) Core.halted
  have hfail : ∃ recs, s.trapRec t i ∈ recs ∧ s.failNode t prior = v.failChain i recs := by
    unfold State.failNode
    rw [hinst]
    exact ⟨_, List.mem_append_right _ (List.mem_cons_self ..), rfl⟩
  obtain ⟨recs, hmem, hfail⟩ := hfail
  obtain ⟨hcores, hrecs⟩ := State.failChain_records (s := v) hfatal hpend recs
  obtain ⟨hframe, hfailed⟩ := State.failChain_effect (s := v) hfatal hfound recs
  rw [hfail]
  refine ⟨fun d => ?_, hfailed, hframe.mem, hrecs _ hmem⟩
  rw [State.coreAt, hcores]
  exact (s.coreAt_onCores d _ _).trans (by simp only [beq_iff_eq])

/-- What a trap that fails the node of its core leaves. -/
structure TrapFails (s u : State) (t : Trap) (pc : Pc) (i : Inst) : Prop where
  csr : (u.coreAt s.cur).csr = s.csr.record t s.issue.synced pc
  regs : (u.coreAt s.cur).regs = s.regs
  fails : nodeFails s u i
  mem : u.ms.mem = s.ms.mem
  told : ∃ e, { s.causeRec t.code t.reason (t.origin s.cur) t.info (some i) pc.word.toNat false with ends := e } ∈
    u.sched.causes

/-- Without replicas and outside handler mode, a trap of class F or one without a handler fails the node. -/
theorem State.trap_fails {s : State} {t : Trap} {pc : Pc} {i : Inst} (h1 : s.csr.nrep.toNat ≤ 1) (hm : s.csr.hm = false)
    (hf : t.cls = .f ∨ bitOf s.csr.tvec.toNat 63 = false) (hd : s.core.fills = []) (hi : dumps s s.cur i) :
    TrapFails s (s.trap t pc) t pc i := by
  let x := (s.core.clearErr t).onCsr (·.record t s.issue.synced pc)
  let v := s.setCore x
  have hx : x.node = s.core.node ∧ x.csr = s.csr.record t s.issue.synced pc ∧ x.regs = s.regs := by
    show ((s.core.clearErr t).onCsr _).node = _ ∧ ((s.core.clearErr t).onCsr _).csr = _ ∧ ((s.core.clearErr t).onCsr _).regs = _
    rw [Core.clearErr_eq]
    exact ⟨rfl, rfl, rfl⟩
  obtain ⟨hxnode, hxcsr, hxregs⟩ := hx
  have hself : v.core = x := s.core_setCore x
  have hnode : ∀ d, (v.coreAt d).node = (s.coreAt d).node := fun d => by
    rw [State.coreAt_setCore]
    split
    · next h => rw [hxnode, ← h]; rfl
    · rfl
  have hdumps : dumps v v.cur i := ⟨(State.instOf_congr (s := s) (t := v) rfl (hnode s.cur)).trans hi.1, hi.2⟩
  obtain ⟨hcores, hfailed, hmem, hrec⟩ := State.failNode_effect hdumps t (s.rootRecs t pc)
  rw [State.trap_alone h1, State.takeTrap_fails hm hf hd]
  have hcur := hcores s.cur
  have hkept : ((v.failNode t (s.rootRecs t pc)).coreAt s.cur).csr = x.csr ∧
      ((v.failNode t (s.rootRecs t pc)).coreAt s.cur).regs = x.regs := by
    rw [hcur, show v.coreAt s.cur = x from hself]
    split <;> exact ⟨rfl, rfl⟩
  refine ⟨hkept.1.trans hxcsr, hkept.2.trans hxregs, ⟨hfailed, fun d hd => ?_⟩, hmem, ?_⟩
  · rw [hcores d, hnode d, if_pos hd]
    rfl
  · have hpc : v.core.csr.trappc = pc.word := by rw [hself, hxcsr]; rfl
    rw [State.trapRec, hpc] at hrec
    exact hrec

end Sys2Proof.Machine
end

section
/-!
SUPPORT. Traps between groups (07_faults R131 to R136, 10_core R207): the trap that waits at a core, and the timed group whose
cycle has passed.
-/

namespace Sys2Proof.Machine

/-! ### Traps that wait (R134, R136) -/

/-- The state in which an event acts on its core, with no group being issued. -/
def State.atEventCore (s : State) : State := { s with cur := s.inp.core, issue := Issue.idle }

theorem Core.dueTrap_none {x : Core} (ht : x.redun.traps = []) (h : x.seq.pend = [] ∨ x.csr.hm = true) :
    x.dueTrap = none := by
  rw [Core.dueTrap, Core.trapAt, ht]
  dsimp only
  rcases h with h | h
  · rw [h]
  · rw [h]
    cases x.seq.pend <;> rfl

theorem Core.dueTrap_pend {x : Core} {f : Trap} {r : List Trap} (ht : x.redun.traps = []) (hp : x.seq.pend = f :: r)
    (hm : x.csr.hm = false) : x.dueTrap = some (f, false) := by
  rw [Core.dueTrap, Core.trapAt, ht]
  dsimp only
  rw [hp, hm]

/-- A core that does not run, or at which no trap is due, takes none. -/
theorem execTrapEntry_idle {s t : State} (ht : ({ s with cur := s.inp.core, issue := Issue.idle } : State) = t)
    (h : t.core.live = false ∨ t.core.dueTrap = none) : execTrapEntry s = .next t := by
  unfold execTrapEntry
  rw [ht]
  dsimp only
  rcases h with h | h
  · rw [h]; rfl
  · rw [h]; exact ite_self _

theorem execTrapEntry_due {s t : State} (ht : ({ s with cur := s.inp.core, issue := Issue.idle } : State) = t) {f : Trap}
    (hl : t.core.live = true) (hd : t.core.dueTrap = some (f, false)) : execTrapEntry s = .next (t.deliverTrap f false) := by
  unfold execTrapEntry
  rw [ht]
  dsimp only
  rw [hl, hd]
  rfl

/-- The core whose first waiting trap is being taken. -/
def Core.popTrap (x : Core) : Core := x.onSeq fun q => { q with pend := q.pend.drop 1 }

/-- A trap that waits is taken in the state without it, before the next group. -/
theorem State.deliverTrap_pend (s : State) (f : Trap) :
    s.deliverTrap f false = { (s.mapCore Core.popTrap).trap f s.core.seq.pc with issue := Issue.idle } := by
  have hpc : (s.mapCore Core.popTrap).core.seq.pc = s.core.seq.pc := by rw [State.core_mapCore]; rfl
  rw [← hpc]
  rfl

theorem Core.live_running {x : Core} (h : x.live = true) : x.seq.mode = .running := by
  simp only [Core.live, Bool.and_eq_true, beq_iff_eq] at h
  obtain ⟨⟨⟨hmode, -⟩, -⟩, -⟩ := h
  exact hmode

/-- TRAPCAUSE of a trap before whose group no roll call has completed. -/
theorem Trap.cause_unsynced (t : Trap) : (t.cause false).toNat =
    (if t.async = true then 2 ^ 63 else 0) + t.engine % 8 * 2 ^ 60 + t.reason % 256 * 256 + t.code % 256 := by
  rw [Trap.cause_toNat]
  simp

/-- The claim of traps that wait. -/
theorem claim_pendingTraps : Claim.PendingTraps := by
  intro s c x recorded
  let t := s.atEventCore
  have hidle (h : t.core.live = false ∨ t.core.dueTrap = none) :
      ∃ t : State, exec .trapEntry s = .next t ∧ t.cores = s.cores ∧ t.ms = s.ms :=
    ⟨t, execTrapEntry_idle rfl h, rfl, rfl⟩
  refine ⟨fun hl => hidle (.inl hl), fun ht h => hidle (.inr (Core.dueTrap_none ht h)),
    fun f r hl hrep ht hp hm hcls hfills => ?_⟩
  let w := t.mapCore Core.popTrap
  have hw : w.core = x.popTrap := t.core_mapCore _
  have hexec : exec .trapEntry s = .next { w.trap f x.seq.pc with issue := Issue.idle } :=
    (execTrapEntry_due (t := t) rfl hl (Core.dueTrap_pend ht hp hm)).trans (congrArg _ (t.deliverTrap_pend f))
  have held {α : Type} (p : Core → α) := congrArg p hw
  have hcsr : w.csr = x.csr := held Core.csr
  have hfills' : w.core.fills = [] := (held Core.fills).trans hfills
  have hothers : ∀ d, d ≠ c → w.coreAt d = s.coreAt d := fun d hd => by
    exact (t.coreAt_mapCore d _).trans (if_neg (Ne.symm hd))
  have hpc := x.seq.pc.word_toNat
  refine ⟨fun hv => ?handler, fun i hv hi => ?fails⟩
  case handler =>
    have hv' : bitOf w.csr.tvec.toNat 63 = true := by rw [hcsr, ← lqcfg_bit]; exact hv
    obtain ⟨hself, hother, hms, hcur⟩ := State.trap_enters (s := w) (t := f) (pc := x.seq.pc) (by rw [hcsr]; exact hrep)
      (by rw [hcsr]; exact hm) hv' hcls
    rw [Core.enterHandler_eq hfills', hw] at hself
    have hself' : (w.trap f x.seq.pc).coreAt c = (w.trap f x.seq.pc).core := by rw [State.core, hcur]; rfl
    have field {α : Type} (p : Core → α) := congrArg p (hself'.trans hself)
    refine ⟨_, hexec, ⟨⟨?_, field (·.csr.trapinfo), ?_, field Core.regs⟩, field (·.csr.hm), ?_, ?_, field (·.seq.loops),
      field (·.seq.savedLoops), ?_, field (·.seq.next), field Core.locks, field Core.scratch⟩,
      fun d hd => (hother d hd).trans (hothers d hd), hms⟩
    · exact (congrArg BitVec.toNat (field (·.csr.trappc))).trans hpc
    · exact (congrArg BitVec.toNat (field (·.csr.trapcause))).trans f.cause_unsynced
    · exact (field (·.seq.pend)).trans (congrArg (List.drop 1) hp)
    · exact (field (·.seq.mode)).trans (Core.live_running (x := x) hl)
    · rw [lqcfg_bit]
      exact field (·.seq.pc)
  case fails =>
    have hv' : bitOf w.csr.tvec.toNat 63 = false := by rw [hcsr, ← lqcfg_bit]; exact hv
    have hnode : (w.coreAt c).node = (s.coreAt c).node := held Core.node
    have hi' : dumps w w.cur i := ⟨(State.instOf_congr (s := s) (t := w) rfl hnode).trans hi.1, hi.2⟩
    have hfail := State.trap_fails (t := f) (pc := x.seq.pc) (by rw [hcsr]; exact hrep) (by rw [hcsr]; exact hm) (.inr hv')
      hfills' hi'
    have hkept := hfail.csr.trans (congrArg (·.record f false x.seq.pc) hcsr)
    have field {α : Type} (p : Csr → α) := congrArg p hkept
    obtain ⟨hfailed, hhalted⟩ := hfail.fails
    refine ⟨_, hexec, ⟨?_, field Csr.trapinfo, ?_, hfail.regs.trans (held Core.regs)⟩, (field Csr.hm).trans hm,
      ⟨hfailed, fun d hd => hhalted d ?_⟩, hfail.mem⟩
    · exact (congrArg BitVec.toNat (field Csr.trappc)).trans hpc
    · exact (congrArg BitVec.toNat (field Csr.trapcause)).trans f.cause_unsynced
    · by_cases hdc : d = c
      · subst hdc
        exact (held (·.node.inst)).trans hd
      · rw [hothers d hdc]
        exact hd

/-! ### Timed groups (R132, R133, 10_core R207, R208) -/

theorem Core.late_iff (x : Core) (st : BitVec 12) : x.late st = true ↔ x.csr.flen.toNat < st.toNat ∨
    (timeTarget x.seq st).1.toNat * 4096 + (timeTarget x.seq st).2.toNat < x.csr.fnum.toNat * 4096 + x.csr.cnt.toNat := by
  rw [Core.late, Csr.timeNow, Bool.or_eq_true, decide_eq_true_eq, beq_iff_eq, Nat.compare_eq_gt]

section
variable {s t : State} (ht : State.withSync { s with cur := s.inp.core } = t) (htt : t.core.csr.tt = true)
  (hmode : t.core.seq.mode = .running) (hfreeze : t.core.seq.freeze = 0) {g : Group} (hg : t.nextGroup = .ok g) {st : BitVec 12}
  (hst : g.stamp = some st)
include ht htt hmode hfreeze hg hst

/-- A running timetable core whose next group is timed overruns its stamp when that is past, and does nothing before. -/
theorem execStampOverrun_timed : execStampOverrun s = if t.core.late st then
    .next (t.stageTrap { t.core.csr.overrun st with mask := 2 ^ g.ops.length - 1 }) else .next t := by
  unfold execStampOverrun
  rw [ht]
  dsimp only
  rw [if_neg (by simp [htt, hmode, hfreeze]), hg]
  dsimp only
  rw [hst]

end

/-- The claim of stamps that pass. -/
theorem claim_stampOverruns : Claim.StampOverruns := by
  intro s g st i c x u due late htt hmode hfreeze hrep hg hst
  have hdue : (timeTarget x.seq st).1.toNat * 4096 + (timeTarget x.seq st).2.toNat = due := by
    unfold timeTarget
    dsimp only [due]
    rcases x.seq.prev with - | ⟨f, p⟩
    · simp
    · dsimp only
      split <;> rfl
  have hlate : x.late st = true ↔ late := by rw [Core.late_iff, hdue]
  let f : Trap := { x.csr.overrun st with mask := 2 ^ g.ops.length - 1 }
  have hexec : exec .stampOverrun s = if x.late st then .next (u.stageTrap f) else .next u :=
    execStampOverrun_timed (t := u) rfl htt hmode hfreeze hg hst
  refine ⟨fun h => ⟨u, hexec.trans (if_neg (mt hlate.1 h)), rfl, rfl, rfl⟩, fun h hm hfills hi => ?_⟩
  rw [if_pos (hlate.2 h)] at hexec
  have hcls : f.cls = .f := Trap.cls_marked _ _
  have hfail := State.trap_fails (s := u) (t := f) (pc := x.seq.pc) hrep hm (.inl hcls) hfills hi
  have field {α : Type} (p : Csr → α) := congrArg p hfail.csr
  obtain ⟨e, he⟩ := hfail.told
  refine ⟨_, hexec, ⟨?code, ?sync, ?stamp, field Csr.trappc, (field Csr.hm).trans hm, hfail.regs⟩, hfail.fails,
    ⟨_, he, rfl, rfl, rfl, rfl⟩, hfail.mem⟩
  case code => exact (congrArg (BitVec.toNat · % 256) (field Csr.trapcause)).trans (f.cause_code _)
  case sync => exact (congrArg (BitVec.getLsbD · 59) (field Csr.trapcause)).trans (f.cause_sync _)
  case stamp =>
    refine (congrArg (BitVec.toNat · / 2 ^ 32) (field Csr.trapinfo)).trans ?_
    show (BitVec.ofNat 64 (st.toNat * 2 ^ 32 + x.csr.framecnt.toNat % 2 ^ 32)).toNat / 2 ^ 32 = st.toNat
    rw [BitVec.toNat_ofNat]
    have := st.isLt
    omega

end Sys2Proof.Machine
end

section
/-!
SUPPORT. What a core waits for and gets between its groups: the values of producers and promises (07_faults R139, 15_copy R318,
16_sync R359), the end of its debt, of a sleep, and ts values of other cores (10_core R206, 14_scalar R317, 16_sync R350).
-/

namespace Sys2Proof.Machine

/-! ### Producers (R139, R318, R359) -/

/-- The core whose producer f is done: its register holds v. -/
def Core.filled (x : Core) (f : PendFill) (v : VReg) : Core :=
  { x.onRegs (·.fill f.file f.reg v) with fills := x.fills.erase f }

theorem Core.filled_fills {x : Core} {f : PendFill} {r : List PendFill} (h : x.fills = f :: r) (v : VReg) :
    (x.filled f v).fills = r := by
  rw [Core.filled, h, List.erase_cons_head]

section
variable {s t : State} {f : PendFill} {r : List PendFill} (ht : ({ s with cur := s.inp.core } : State) = t)
include ht

theorem execProducerFill_frozen (h : t.core.seq.freeze ≠ 0) : execProducerFill s = .next t := by
  unfold execProducerFill
  rw [ht]
  dsimp only
  split
  · rfl
  · exact if_pos h

variable (hf : t.core.fills = f :: r) (hfile : f.file = t.inp.file) (hreg : f.reg = t.inp.reg)
include hf hfile hreg

/-- A value that is known is written once it is due. -/
theorem execProducerFill_value {v : VReg} {fl : Flags} (hsrc : f.src = .value v fl) (hlive : t.core.seq.freeze = 0) :
    execProducerFill s = if t.cyc.toNat < f.due.toNat then .next t else .next (t.mapCore fun x => { x.filled f v with
      csr := { x.csr with fpflags := x.csr.fpflags ||| fl } }) := by
  unfold execProducerFill
  rw [ht]
  dsimp only
  rw [hf, List.find?_cons_of_pos (by simp [hfile, hreg])]
  dsimp only
  rw [if_neg (not_not.2 hlive), hsrc]
  rfl

theorem execProducerFill_noWord (hsrc : f.src = .fin none) (h : t.core.mail.inbox = []) : execProducerFill s = .next t := by
  unfold execProducerFill
  rw [ht]
  dsimp only
  rw [hf, List.find?_cons_of_pos (by simp [hfile, hreg])]
  dsimp only
  rw [hsrc, h]
  exact ite_self _

/-- The oldest q.fin takes the oldest word of the inbox. -/
theorem execProducerFill_fin (hsrc : f.src = .fin none) (hlive : t.core.seq.freeze = 0) {w : W} {n : BitVec 3}
    {m : List (W × BitVec 3)} (h : t.core.mail.inbox = (w, n) :: m) : execProducerFill s =
      .next (t.mapCore fun x => { x.filled f (ofS w) with mail := { x.mail with inbox := m } }) := by
  have hfirst : t.core.firstFin f = true := by simp [Core.firstFin, hf, hsrc]
  unfold execProducerFill
  rw [ht]
  dsimp only
  rw [hf, List.find?_cons_of_pos (by simp [hfile, hreg])]
  dsimp only
  rw [if_neg (not_not.2 hlive), hsrc]
  dsimp only
  rw [h]
  dsimp only
  rw [hfirst]
  rfl

end

theorem execPromiseWrite_frozen {s : State} (h : (s.coreAt s.inp.core).seq.freeze ≠ 0) : execPromiseWrite s = .next s := by
  have hfrozen : ((s.coreAt s.inp.core).seq.freeze == 0) = false := beq_false_of_ne h
  unfold execPromiseWrite
  dsimp only
  rw [List.find?_eq_none.2 fun f _ => by simp [hfrozen]]

/-- The oldest promise of a context is written into its register once it is due. -/
theorem execPromiseWrite_due {s : State} {f : PendFill} {r : List PendFill} (hf : (s.coreAt s.inp.core).fills = f :: r)
    {v : VReg} {fl : Flags} (hsrc : f.src = .value v fl) (hs : f.file = .s) (hctx : v.toNat / 2 ^ 62 % 4 = s.inp.ctx.val)
    (hdue : f.due.toNat ≤ s.cyc.toNat) (hlive : (s.coreAt s.inp.core).seq.freeze = 0) :
    execPromiseWrite s = .next (s.onCore s.inp.core (·.filled f v)) := by
  have hctx' : fld v.toNat 63 62 = s.inp.ctx.val := hctx
  unfold execPromiseWrite
  dsimp only
  rw [hf, List.find?_cons_of_pos (by simp [hlive, hs, hsrc, hctx', hdue])]
  dsimp only
  rw [hsrc]
  unfold Core.filled
  rw [hs]

/-- The claim of producers. -/
theorem claim_producersFill : Claim.ProducersFill := by
  intro s f r c x idle only hf
  let t : State := { s with cur := c }
  have hidle {a : Instr} (h : exec a s = .next t) : idle a := ⟨t, h, rfl, rfl⟩
  have honly {g : Core → Core} (hfills : (g x).fills = r) (hscratch : (g x).scratch = x.scratch) : only (s.onCore c g) :=
    ⟨(congrArg Core.fills (s.coreAt_onCore_same c g)).trans hfills,
      (congrArg Core.scratch (s.coreAt_onCore_same c g)).trans hscratch, fun d hd => s.coreAt_onCore_other g hd, rfl⟩
  refine ⟨fun hfile hreg => ⟨fun h => hidle (execProducerFill_frozen rfl h), fun v fl hsrc => ⟨fun h => ?early, fun h hlive => ?due⟩,
    fun hsrc => ⟨fun h => hidle (execProducerFill_noWord rfl hf hfile hreg hsrc h), fun w sc m h hlive => ?word⟩⟩,
    fun h => ⟨s, execPromiseWrite_frozen h, rfl, rfl⟩, fun v fl hsrc hs hctx hdue hlive => ?promise⟩
  case early =>
    by_cases hlive : x.seq.freeze = 0
    · exact hidle ((execProducerFill_value (t := t) rfl hf hfile hreg hsrc hlive).trans (if_pos h))
    · exact hidle (execProducerFill_frozen rfl hlive)
  case due =>
    let g := fun x : Core => { x.filled f v with csr := { x.csr with fpflags := x.csr.fpflags ||| fl } }
    have field {α : Type} (p : Core → α) := congrArg p (s.coreAt_onCore_same c g)
    have honly' := honly (g := g) (Core.filled_fills hf v) rfl
    obtain ⟨hfills, hscratch, hothers, hms⟩ := honly'
    exact ⟨_, (execProducerFill_value (t := t) rfl hf hfile hreg hsrc hlive).trans (if_neg (Nat.not_lt.2 h)), field Core.regs,
      field Core.csr, field Core.mail, hfills, hscratch, hothers, hms⟩
  case word =>
    let g := fun x : Core => { x.filled f (ofS w) with mail := { x.mail with inbox := m } }
    have field {α : Type} (p : Core → α) := congrArg p (s.coreAt_onCore_same c g)
    exact ⟨_, execProducerFill_fin (t := t) rfl hf hfile hreg hsrc hlive h, field Core.regs, field Core.csr, field Core.mail,
      honly (g := g) (Core.filled_fills hf (ofS w)) rfl⟩
  case promise =>
    have hself := s.coreAt_onCore_same c (·.filled f v)
    refine ⟨_, execPromiseWrite_due hf hsrc hs hctx hdue hlive, ?_, (congrArg Core.csr hself :),
      honly (Core.filled_fills hf v) rfl⟩
    rw [← hs]
    exact (congrArg Core.regs hself :)

/-! ### Debts, sleeps and ts values (10_core R206, 14_scalar R317, 16_sync R350) -/

/-- A core that stands still for its debt, its command queues empty, clears it. -/
theorem Core.slackRelease_iff (x : Core) :
    (!x.csr.tt && x.csr.limit != 0xFFFF#16 && decide (x.csr.limit.toNat < x.csr.debt.toNat) && x.matrix.queue.isEmpty &&
      (x.copy.get 0).queue.isEmpty && (x.copy.get 1).queue.isEmpty) = true ↔
    x.csr.tt = false ∧ x.csr.limit ≠ 0xFFFF#16 ∧ x.csr.limit.toNat < x.csr.debt.toNat ∧ x.matrix.queue = [] ∧
      (x.copy.get 0).queue = [] ∧ (x.copy.get 1).queue = [] := by
  simp [and_assoc]

section
variable {s : State} {at_ v : W} (hlog : (s.coreAt s.inp.core).tsLog = [(at_, v)])
include hlog

theorem execTsUpdateArrive_single : execTsUpdateArrive s =
    if at_.toNat + (if dieOf s.inp.core = dieOf s.inp.dst then 8 else 40) ≤ s.cyc.toNat ∧
      (s.coreAt s.inp.core).node.inst.isSome = true ∧ (s.coreAt s.inp.core).csr.part = (s.coreAt s.inp.dst).csr.part
    then .next (s.onCore s.inp.dst fun x => { x with tsSeen := (s.inp.core, v) :: x.tsSeen.filter (·.1 != s.inp.core) })
    else .next s := by
  unfold execTsUpdateArrive
  dsimp only
  rw [hlog, List.find?_singleton]
  simp only [beq_iff_eq, decide_eq_true_eq]
  by_cases hdue : at_.toNat + (if dieOf s.inp.core = dieOf s.inp.dst then 8 else 40) ≤ s.cyc.toNat
  · rw [if_pos hdue]
    dsimp only
    rw [← ite_not]
    exact if_congr (by simp [hdue, Option.isSome_iff_ne_none]) rfl rfl
  · rw [if_neg hdue, if_neg fun h => hdue h.1]

end

/-- The claim of waits. -/
theorem claim_waitsEnd : Claim.WaitsEnd := by
  intro s c x stands
  have hstands := x.slackRelease_iff
  refine ⟨fun h => ?clear, fun h => ?stays, rfl, fun at_ v hlog => ⟨fun h => ?early, fun hdue hnode hpart => ?arrives⟩⟩
  case clear =>
    exact ⟨_, rfl, (State.coreAt_onCore_same s c _).trans (if_pos (hstands.2 h)),
      fun d hd => State.coreAt_onCore_other s _ hd, rfl⟩
  case stays =>
    refine ⟨_, rfl, fun d => ?_, rfl⟩
    by_cases hd : d = c
    · subst hd
      exact (State.coreAt_onCore_same s c _).trans (if_neg (mt hstands.1 h))
    · exact State.coreAt_onCore_other s _ hd
  case early =>
    refine (execTsUpdateArrive_single hlog).trans (if_neg ?_)
    rintro ⟨hdue, hnode, hpart⟩
    rcases h with h | h | h
    · exact Nat.not_le.2 h hdue
    · rw [h] at hnode
      cases hnode
    · exact h hpart
  case arrives =>
    exact ⟨_, (execTsUpdateArrive_single hlog).trans (if_pos ⟨hdue, hnode, hpart⟩), State.coreAt_onCore_same s _ _,
      fun e he => State.coreAt_onCore_other s _ he, rfl⟩

end Sys2Proof.Machine
end

section
/-!
SUPPORT. The end of loads and stores (08_ordering R158, R160, 10_core R195): what a load writes into its register, and which stores
leave the store buffer or are sent.
-/

namespace Sys2Proof.Machine

/-! ### What a scalar load writes (14_scalar R295) -/

/-- Of a scalar register's value the low 64 bits are kept. -/
theorem Regs.fill_s_congr (r : Regs) (d : BitVec 6) {v w : VReg} (h : v.setWidth 64 = w.setWidth 64) :
    r.fill .s d v = r.fill .s d w := by
  unfold Regs.fill
  dsimp only
  rw [h]

theorem ofS_setWidth (w : W) : (ofS w).setWidth 64 = w := by
  rw [ofS, BitVec.setWidth_setWidth_of_le w (by decide), BitVec.setWidth_eq]

/-- A sign-extended number of n bytes, as a scalar load computes it. -/
theorem signExtend_bytes {n v : Nat} (hn : n ≤ 8) (hv : v < 2 ^ (8 * n)) :
    BitVec.ofNat 64 (if 2 ^ (8 * n - 1) ≤ v then v + 2 ^ 64 - 2 ^ (8 * n) else v) =
      (BitVec.ofNat (8 * n) v).signExtend 64 := by
  have hwidth : 2 ^ (8 * n) ≤ 2 ^ 64 := Nat.pow_le_pow_right (by decide) (by omega)
  refine BitVec.eq_of_toNat_eq ?_
  rw [BitVec.toNat_signExtend, BitVec.msb_eq_decide, BitVec.toNat_setWidth, BitVec.toNat_ofNat, BitVec.toNat_ofNat,
    Nat.mod_eq_of_lt hv, Nat.mod_eq_of_lt (by omega : v < 2 ^ 64)]
  generalize 2 ^ (8 * n) = p at *
  by_cases h : 2 ^ (8 * n - 1) ≤ v
  · simp only [h, if_true, decide_true]
    omega
  · simp only [h, if_false, decide_false, Bool.false_eq_true]
    omega

/-- The low 64 bits of what a scalar load of n bytes gives, and its flags. -/
theorem loadValue_scalar {n v : Nat} (sx : Bool) (old : VReg) (hn : n ≤ 8) (hv : v < 2 ^ (8 * n)) :
    (loadValue (.scalar n sx) old v).1.setWidth 64 =
      (if sx = true then (BitVec.ofNat (8 * n) v).signExtend 64 else .ofNat 64 v) ∧
    (loadValue (.scalar n sx) old v).2 = 0 := by
  refine ⟨?_, rfl⟩
  unfold loadValue
  dsimp only
  rw [BitVec.setWidth_ofNat_of_le (by decide), Nat.mod_eq_of_lt hv]
  cases sx
  · simp
  · simpa using signExtend_bytes hn hv

/-! ### Stores that are sent (08_ordering R158) -/

/-- Only packets have left. -/
structure SentOnly (s t : State) : Prop where
  cores : ∀ d, t.coreAt d = s.coreAt d
  ms : t.ms = s.ms
  cur : t.cur = s.cur

theorem SentOnly.refl (s : State) : SentOnly s s := ⟨fun _ => rfl, rfl, rfl⟩

theorem SentOnly.trans {s t u : State} (h : SentOnly s t) (g : SentOnly t u) : SentOnly s u :=
  ⟨fun d => (g.cores d).trans (h.cores d), g.ms.trans h.ms, g.cur.trans h.cur⟩

/-- A packet of unit 0 leaves no mark on its core. -/
theorem SentOnly.post (s : State) (c : CoreId) (req : Nat) (vc : Fin 4) (p : PartId) (place : Nat) (b : PBody) :
    SentOnly s (s.post c 0 req vc p place b).1 := by
  refine ⟨fun d => ?_, rfl, rfl⟩
  unfold State.post
  dsimp only
  rw [State.coreAt_onCore]
  split
  · next h => subst h; rfl
  · rfl

/-- Packets that are sent one after another are as many as the bodies. -/
theorem SentOnly.foldl {β : Type} {f : State × List Nat → β → State × List Nat}
    (hf : ∀ a b, SentOnly a.1 (f a b).1 ∧ (f a b).2.length = a.2.length + 1) (l : List β) (a : State × List Nat) :
    SentOnly a.1 (l.foldl f a).1 ∧ (l.foldl f a).2.length = a.2.length + l.length := by
  induction l generalizing a with
  | nil => exact ⟨.refl _, rfl⟩
  | cons b l ih =>
    obtain ⟨hone, hlen⟩ := hf a b
    obtain ⟨hrest, hlen'⟩ := ih (f a b)
    exact ⟨hone.trans hrest, by rw [List.foldl_cons, hlen', hlen, List.length_cons]; omega⟩

/-- The core whose store q has been sent in the packets l. -/
def Core.sentStore (x : Core) (q : StoreReq) (l : List Nat) : Core :=
  { x with stores := x.stores.map fun r => if r.id == q.id then { r with sent := true, left := l } else r }

/-- A store is sent in one packet per beat. -/
theorem State.sendStore_effect (s : State) (q : StoreReq) : ∃ (u : State) (l : List Nat),
    s.sendStore q = u.mapCore (·.sentStore q l) ∧ SentOnly s u ∧ l.length = (beatsW q.bytes).length := by
  unfold State.sendStore
  dsimp only
  refine ⟨_, _, rfl, ?_⟩
  rw [← Nat.zero_add (beatsW q.bytes).length]
  exact SentOnly.foldl (fun a b => ⟨SentOnly.post .., List.length_append⟩) _ (s, [])

theorem State.pumpStores_none {s : State} (h : s.core.stores = []) : s.pumpStores = s := by
  unfold State.pumpStores
  rw [h]
  rfl

/-- A store that is alone in its buffer is sent, or waits. -/
theorem State.pumpStores_one {s : State} {q : StoreReq} (h : s.core.stores = [q]) : s.pumpStores =
    if q.sent = true ∨ s.cyc.toNat < q.from_.toNat ∨ q.after.any s.core.openIds.contains = true then s else s.sendStore q := by
  unfold State.pumpStores
  rw [h]
  rfl

/-! ### Loads that end (R195) -/

/-- The old register that a vector load keeps elements of. -/
def Core.oldOf (x : Core) (f : RFile) (d : BitVec 6) : VReg := match f with | .s => 0 | .v => x.regs.getV d

/-- The core whose load has brought value and flags r for a register. -/
def Core.loaded (x : Core) (f : RFile) (d : BitVec 6) (r : VReg × Flags) : Core :=
  { x.onRegs (·.fill f d r.1) with csr := { x.csr with fpflags := x.csr.fpflags ||| r.2 } }

theorem Core.loaded_noFlags (x : Core) {f : RFile} {d : BitVec 6} {r : VReg × Flags} (h : r.2 = 0) :
    (x.loaded f d r).csr = x.csr := by
  have hflags : x.csr.fpflags ||| r.2 = x.csr.fpflags := by simp [h]
  unfold Core.loaded
  rw [hflags]

/-- A load that is not forwarded writes its register. -/
theorem State.finishLoad_own (s : State) {q : LoadReq} {f : RFile} {d : BitVec 6} (hdst : q.dst = some (f, d))
    (hfwd : q.fwd = none) : s.finishLoad q =
      s.mapCore (·.loaded f d (loadValue q.kind (s.core.oldOf f d) (leNat (q.bytes.map fun b => b.2.getD 0)))) := by
  unfold State.finishLoad
  rw [hdst, hfwd]
  cases f <;> rfl

/-- A load leaves the core's open loads. -/
def Core.endLoad (x : Core) (q : LoadReq) : Core := { x with loads := x.loads.filter (·.id != q.id) }.pruneFences

/-- A store leaves the store buffer. -/
def Core.endStore (x : Core) (q : StoreReq) : Core := { x with stores := x.stores.filter (·.id != q.id) }.pruneFences

section
variable {s t : State} (ht : ({ s with cur := s.inp.core } : State) = t)
include ht

theorem execLoadDataReturn_ends {q : LoadReq} {f : RFile} {d : BitVec 6} (hloads : t.core.loads = [q]) (hid : q.id = t.inp.n)
    (hleft : q.left = []) (hfixed : q.fixed = true) (hdst : q.dst = some (f, d)) (hfwd : q.fwd = none)
    (hstores : t.core.stores = []) (hlive : t.core.seq.freeze = 0) : execLoadDataReturn s =
      .next ((t.mapCore (·.endLoad q)).mapCore
        (·.loaded f d (loadValue q.kind (t.core.oldOf f d) (leNat (q.bytes.map fun b => b.2.getD 0))))) := by
  unfold execLoadDataReturn
  rw [ht]
  dsimp only
  rw [hloads, List.find?_cons_of_pos (by simp [hid])]
  dsimp only
  rw [if_neg (by simp [hleft, hfixed, hlive])]
  have hcore : (t.mapCore (·.endLoad q)).core = t.core.endLoad q := t.core_mapCore _
  have hload := State.finishLoad_own (t.mapCore (·.endLoad q)) hdst hfwd
  rw [hcore] at hload
  have hempty : (State.finishLoad (t.mapCore (·.endLoad q)) q).core.stores = [] := by
    rw [hload, State.core_mapCore, hcore]
    exact hstores
  exact congrArg _ ((State.pumpStores_none hempty).trans hload)

theorem execLoadDataReturn_waits {q : LoadReq} (hfind : t.core.loads.find? (fun r => r.id == t.inp.n) = some q)
    (h : q.left ≠ [] ∨ t.core.seq.freeze ≠ 0) : execLoadDataReturn s = .next t := by
  unfold execLoadDataReturn
  rw [ht]
  dsimp only
  rw [hfind]
  dsimp only
  rw [if_pos]
  rcases h with h | h
  · exact .inl (by simpa using h)
  · exact .inr (.inr h)

variable {q : StoreReq} (hstores : t.core.stores = [q]) (hid : q.id = t.inp.n)
include hstores hid

theorem execWriteAcknowledgement_ends (hsent : q.sent = true) (hleft : q.left = []) :
    execWriteAcknowledgement s = .next (t.mapCore (·.endStore q)) := by
  unfold execWriteAcknowledgement
  rw [ht]
  dsimp only
  rw [hstores, List.find?_cons_of_pos (by simp [hid])]
  dsimp only
  rw [if_neg (by simp [hleft, hsent])]
  have hcore : (t.mapCore (·.endStore q)).core = t.core.endStore q := t.core_mapCore _
  have hempty : (t.mapCore (·.endStore q)).core.stores = [] := by
    rw [hcore]
    show t.core.stores.filter (·.id != q.id) = []
    rw [hstores]
    simp
  exact congrArg _ (State.pumpStores_none hempty)

theorem execWriteAcknowledgement_pumps (h : q.sent = false ∨ q.left ≠ []) :
    execWriteAcknowledgement s = .next t.pumpStores := by
  unfold execWriteAcknowledgement
  rw [ht]
  dsimp only
  rw [hstores, List.find?_cons_of_pos (by simp [hid])]
  dsimp only
  rw [if_pos]
  rcases h with h | h
  · exact .inl (by simpa using h)
  · exact .inr (by simpa using h)

end

/-- The claim of accesses that end. -/
theorem claim_accessesEnd : Claim.AccessesEnd := by
  intro s c x kept
  let t : State := { s with cur := c }
  have hkept {u : State} {y : Core} (hself : u.coreAt c = y) (hscratch : y.scratch = x.scratch)
      (hothers : ∀ g, g ≠ c → u.coreAt g = s.coreAt g) (hmem : u.ms.mem = s.ms.mem) : kept u :=
    ⟨(congrArg Core.scratch hself).trans hscratch, hothers, hmem⟩
  have hother (u : State) (hu : u.cur = c) (h : Core → Core) {g : CoreId} (hg : g ≠ c) :
      (u.mapCore h).coreAt g = u.coreAt g := (u.coreAt_mapCore g h).trans (if_neg (hu ▸ hg.symm))
  refine ⟨fun q f d hloads hid hleft hfixed hdst hfwd hstores hlive => ?load,
    fun q hfind h => ⟨t, execLoadDataReturn_waits (t := t) rfl hfind h, rfl, rfl⟩, fun q hstores hid =>
      ⟨fun hsent hleft => ?ends, fun hsent hleft => ?unanswered, fun hsent h => ?held, fun hsent hfrom hafter => ?sent⟩⟩
  case load =>
    intro v old
    let w := t.mapCore (·.endLoad q)
    let u := w.mapCore (·.loaded f d (loadValue q.kind old v))
    have hself : u.coreAt c = (x.endLoad q).loaded f d (loadValue q.kind old v) :=
      (w.core_mapCore _).trans (congrArg (Core.loaded · f d _) (t.core_mapCore _))
    have field {α : Type} (p : Core → α) := congrArg p hself
    refine ⟨u, execLoadDataReturn_ends (t := t) rfl hloads hid hleft hfixed hdst hfwd hstores hlive, ?_,
      hkept hself rfl (fun g hg => (hother w rfl _ hg).trans (hother t rfl _ hg)) rfl, field Core.regs, field Core.csr,
      fun n sx hkind hlen _ hn hf => ?_⟩
    · refine (field Core.loads).trans ?_
      show x.loads.filter (·.id != q.id) = []
      rw [hloads]
      simp
    · have hlt : v < 2 ^ (8 * n) := by
        have := leNat_lt (q.bytes.map fun b => b.2.getD 0)
        rw [List.length_map, hlen] at this
        rwa [Nat.pow_mul]
      obtain ⟨hvalue, hflags⟩ := loadValue_scalar sx old hn hlt
      rw [← hkind] at hvalue hflags
      subst hf
      exact ⟨(field Core.regs).trans (Regs.fill_s_congr x.regs d (hvalue.trans (ofS_setWidth _).symm)),
        (field Core.csr).trans ((x.endLoad q).loaded_noFlags hflags)⟩
  case ends =>
    have hself : (t.mapCore (·.endStore q)).coreAt c = x.endStore q := t.core_mapCore _
    have field {α : Type} (p : Core → α) := congrArg p hself
    refine ⟨_, execWriteAcknowledgement_ends (t := t) rfl hstores hid hsent hleft, ?_, field Core.regs, field Core.csr,
      field Core.loads, hkept hself rfl (fun g hg => hother t rfl _ hg) rfl⟩
    refine (field Core.stores).trans ?_
    show x.stores.filter (·.id != q.id) = []
    rw [hstores]
    simp
  case unanswered =>
    refine ⟨t, (execWriteAcknowledgement_pumps (t := t) rfl hstores hid (.inr hleft)).trans ?_, rfl, rfl⟩
    rw [State.pumpStores_one (s := t) hstores, if_pos (.inl hsent)]
  case held =>
    have hwaits : t.cyc.toNat < q.from_.toNat ∨ q.after.any t.core.openIds.contains = true := h.imp id fun ⟨n, hn, hopen⟩ =>
      List.any_eq_true.2 ⟨n, hn, List.contains_iff_mem.2 hopen⟩
    refine ⟨t, (execWriteAcknowledgement_pumps (t := t) rfl hstores hid (.inl hsent)).trans ?_, rfl, rfl⟩
    rw [State.pumpStores_one (s := t) hstores, if_pos (.inr hwaits)]
  case sent =>
    have hgo : ¬ (q.sent = true ∨ t.cyc.toNat < q.from_.toNat ∨ q.after.any t.core.openIds.contains = true) := by
      rintro (h | h | h)
      · rw [hsent] at h
        cases h
      · exact Nat.not_lt.2 hfrom h
      · obtain ⟨n, hn, hopen⟩ := List.any_eq_true.1 h
        exact hafter n hn (List.contains_iff_mem.1 hopen)
    obtain ⟨u, l, hsend, ⟨hcores, hms, hcur⟩, hlen⟩ := t.sendStore_effect q
    have hself : (u.mapCore (·.sentStore q l)).coreAt c = x.sentStore q l := by
      rw [State.coreAt_mapCore, if_pos hcur, State.core, hcur]
      exact congrArg (Core.sentStore · q l) (hcores c)
    have field {α : Type} (p : Core → α) := congrArg p hself
    refine ⟨_, l, (execWriteAcknowledgement_pumps (t := t) rfl hstores hid (.inl hsent)).trans ?_, ?_, hlen, field Core.regs,
      field Core.csr, hkept hself rfl (fun g hg => (hother u hcur _ hg).trans (hcores g)) (congrArg MemSys.mem hms)⟩
    · rw [State.pumpStores_one (s := t) hstores, if_neg hgo, hsend]
    · refine (field Core.stores).trans ?_
      show x.stores.map _ = _
      rw [hstores]
      simp

end Sys2Proof.Machine
end

section
/-!
SUPPORT. Redundant nodes (09_redundancy R178 to R187): values that reach followers, and what the verdict on a compare leaves of the
replicas.
-/

namespace Sys2Proof.Machine

/-! ### Values the leader forwards (R178) -/

/-- The core whose register has been filled by the value of number n, which is the first that came from the leader. -/
def Core.forwardFilled (x : Core) (f : PendFill) (n : Nat) (v : VReg) (fl : Flags) : Core :=
  { x.onRegs (·.fill f.file f.reg v) with
    csr := { x.csr with fpflags := x.csr.fpflags ||| fl }
    fills := x.fills.filter (· != f)
    redun := { x.redun with inflight := x.redun.inflight.filter (·.1 != n) } }

section
variable {s t : State} (ht : ({ s with cur := s.inp.core } : State) = t)
include ht

theorem execForwardedValueArrive_frozen (h : t.core.seq.freeze ≠ 0) : execForwardedValueArrive s = .next t := by
  unfold execForwardedValueArrive
  rw [ht]
  dsimp only
  rw [if_neg h]

/-- The first value that comes fills the register that waits for it. -/
theorem execForwardedValueArrive_first {f : PendFill} {n : Nat} {v : VReg} {fl : Flags} {r : List PendFill}
    {m : List (Nat × VReg × Flags)} (hfills : t.core.fills = f :: r) (hsrc : f.src = .forwarded n)
    (hin : t.core.redun.inflight = (n, v, fl) :: m) (hlive : t.core.seq.freeze = 0) : execForwardedValueArrive s =
      .next (t.mapCore (·.forwardFilled f n v fl)) := by
  unfold execForwardedValueArrive
  rw [ht]
  dsimp only
  rw [if_pos hlive, hfills, List.findSome?_cons, hsrc, hin]
  dsimp only
  rw [List.find?_cons_of_pos (by simp)]
  rfl

end

/-! ### The replicas of a seat (R181) -/

theorem allCores_nodup : allCores.Nodup := List.nodup_finRange _

theorem State.mem_replicas {s : State} {g : CoreId} : g ∈ s.replicas ↔
    s.core.node.inst.isSome = true ∧ (s.coreAt g).node.inst = s.core.node.inst ∧ g ≠ s.cur ∧
      (s.coreAt g).node.seat = s.core.node.seat ∧ (s.coreAt g).redun.retired = false := by
  unfold State.replicas
  cases hinst : s.core.node.inst with
  | none => simp
  | some id => simp [State.mem_instCores, and_assoc]

theorem State.running_nodup (s : State) : s.running.Nodup := by
  have hself : s.cur ∉ s.replicas := fun h => by
    obtain ⟨-, -, hne, -⟩ := State.mem_replicas.1 h
    exact hne rfl
  refine List.nodup_cons.2 ⟨hself, ?_⟩
  unfold State.replicas
  split
  · exact List.nodup_nil
  · refine List.Nodup.filter _ ?_
    rw [State.instCores, State.coresWhere_eq]
    exact allCores_nodup.filter _

/-- A replica at a compare point of its group sends its signature and the compare's kind. -/
theorem Core.sent_eq {x : Core} {kind : Nat} (h : x.redun.arrived = some (kind, none)) : x.sent = (x.redun.sig, kind, none) := by
  rw [Core.sent, h]
  rfl

/-! ### Replicas that agree (R184) -/

/-- A replica goes on after a compare that agrees, its next group issuing no earlier than a cycle. -/
def Core.agreesAt (x : Core) (at_ : W) : Core := { x with
  seq := { x.seq with next := if x.seq.next.toNat < at_.toNat then at_ else x.seq.next }
  redun := { x.redun with arrived := none, sig := BitVec.allOnes 64, cmpn := x.redun.cmpn + 1, agreed := true, sbuf := [], used := 0 } }

/-- The buffer of a replica is cleared. -/
def Core.bufferless (x : Core) : Core := { x with redun := { x.redun with sbuf := [], used := 0 } }

theorem State.drainBuffer_empty {s : State} (h : s.core.redun.sbuf = []) : s.drainBuffer = s.mapCore Core.bufferless := by
  unfold State.drainBuffer
  rw [h]
  rfl

/-- Only core c is other than it was, and it holds y. -/
structure OnlyCore (s t : State) (c : CoreId) (y : Core) : Prop where
  self : t.coreAt c = y
  others : ∀ d, d ≠ c → t.coreAt d = s.coreAt d
  ms : t.ms = s.ms
  cyc : t.cyc = s.cyc
  cur : t.cur = s.cur

theorem OnlyCore.mapCore {s t : State} {y : Core} (h : OnlyCore s t s.cur y) (f : Core → Core) :
    OnlyCore s (t.mapCore f) s.cur (f y) := by
  obtain ⟨hself, hothers, hms, hcyc, hcur⟩ := h
  refine ⟨?_, fun d hd => ?_, hms, hcyc, hcur⟩
  · rw [State.coreAt_mapCore, if_pos hcur, State.core, hcur, hself]
  · rw [State.coreAt_mapCore, if_neg fun h => hd (h.symm.trans hcur), hothers d hd]

/-- With an empty buffer only the replica itself changes. -/
theorem State.agreed_only {s : State} {kind : Nat} (harr : s.core.redun.arrived = some (kind, none))
    (hbuf : s.core.redun.sbuf = []) (used : Nat) :
    OnlyCore s (State.agreed used s) s.cur (s.core.agreesAt (s.cyc + drainTime used)) := by
  have hsame : OnlyCore s s s.cur s.core := ⟨rfl, fun _ _ => rfl, rfl, rfl, rfl⟩
  unfold State.agreed
  rw [harr]
  dsimp only
  split
  · rw [State.drainBuffer_empty]
    · exact ((hsame.mapCore _).mapCore _).mapCore _
    · rw [State.mapSeq, State.core_mapCore, State.core_mapCore]
      exact hbuf
  · exact ((hsame.mapCore _).mapCore _).mapCore _

/-- A replica has come to a compare point of its group, its buffer empty. -/
def Core.emptyAt (x : Core) (kind : Nat) : Prop := x.redun.arrived = some (kind, none) ∧ x.redun.sbuf = []

theorem State.foldl_agreed {kind : Nat} (used : Nat) {l : List CoreId} (hl : l.Nodup) :
    ∀ s : State, (∀ g ∈ l, (s.coreAt g).emptyAt kind) →
      let t := l.foldl (fun (s : State) c => State.agreed used { s with cur := c }) s
      (∀ g ∈ l, t.coreAt g = (s.coreAt g).agreesAt (s.cyc + drainTime used)) ∧
        (∀ g, g ∉ l → t.coreAt g = s.coreAt g) ∧ t.ms = s.ms := by
  induction l with
  | nil => exact fun s _ => ⟨fun g hg => (List.not_mem_nil hg).elim, fun g _ => rfl, rfl⟩
  | cons c l ih =>
    intro s h
    obtain ⟨hc, hl⟩ := List.nodup_cons.1 hl
    obtain ⟨harr, hbuf⟩ := h c List.mem_cons_self
    obtain ⟨hself, hothers, hms, hcyc, -⟩ := State.agreed_only (s := { s with cur := c }) harr hbuf used
    have hrest : ∀ g ∈ l, (State.agreed used { s with cur := c }).coreAt g = s.coreAt g := fun g hg =>
      hothers g fun (heq : g = c) => hc (heq ▸ hg)
    obtain ⟨hin, hout, hms'⟩ := ih hl (State.agreed used { s with cur := c }) fun g hg => by
      rw [hrest g hg]
      exact h g (List.mem_cons_of_mem c hg)
    refine ⟨fun g hg => ?_, fun g hg => ?_, hms'.trans hms⟩
    · rcases List.mem_cons.1 hg with rfl | hg
      · exact (hout g hc).trans hself
      · exact (hin g hg).trans (by rw [hrest g hg, hcyc])
    · exact (hout g fun h => hg (List.mem_cons_of_mem c h)).trans (hothers g fun (h : g = c) => hg (h ▸ List.mem_cons_self))

/-- Replicas that agree go on, and nothing else changes. -/
theorem State.allAgreed_effect {s : State} {kind : Nat} {l : List CoreId} (hl : l.Nodup)
    (h : ∀ g ∈ l, (s.coreAt g).emptyAt kind) : ∃ at_, (∀ g ∈ l, (s.allAgreed l).coreAt g = (s.coreAt g).agreesAt at_) ∧
      (∀ g, g ∉ l → (s.allAgreed l).coreAt g = s.coreAt g) ∧ (s.allAgreed l).ms = s.ms :=
  ⟨_, State.foldl_agreed _ hl s h⟩

/-! ### The verdict (R182, R186, R187) -/

theorem verdict_agree {α : Type} [BEq α] {x : CoreId × α} {r : List (CoreId × α)} (h : ∀ y ∈ r, (y.2 == x.2) = true) :
    verdict (x :: r) = .agree := if_pos (List.all_eq_true.2 h)

theorem verdict_two {α : Type} [BEq α] {x y : CoreId × α} (h : (y.2 == x.2) = false) : verdict [x, y] = .mismatch := by
  simp [verdict, h]

theorem verdict_odd {α : Type} [BEq α] {x y z : CoreId × α} (hxy : (x.2 == y.2) = true) (hz : (z.2 == x.2) = false) :
    verdict [x, y, z] = .retire z.1 := by
  simp [verdict, hxy, hz]

theorem State.verdictKnown_iff {s : State} {l : List CoreId} : s.verdictKnown l = true ↔
    ∀ c ∈ l, (s.coreAt c).redun.arrived.isSome = true ∧ (s.coreAt c).redun.since.toNat + 24 ≤ s.cyc.toNat := by
  simp [State.verdictKnown]

/-- A replica has come to a compare point of its group, 24 cycles ago (R182). -/
def Core.comeTo (x : Core) (kind : Nat) (now : W) : Prop :=
  x.redun.arrived = some (kind, none) ∧ x.redun.since.toNat + 24 ≤ now.toNat

theorem State.verdictKnown_of_comeTo {s : State} {kind : Nat} {l : List CoreId} (h : ∀ g ∈ l, (s.coreAt g).comeTo kind s.cyc) :
    s.verdictKnown l = true := State.verdictKnown_iff.2 fun g hg => by
  obtain ⟨harr, hsince⟩ := h g hg
  exact ⟨by rw [harr]; rfl, hsince⟩

/-- What the invigilators compare. -/
def State.compared (s : State) : List (CoreId × W × Nat × Option (W × W × W)) := s.running.map fun c => (c, (s.coreAt c).sent)

/-- The kind of a compare is its leader's. -/
def State.compareKind (s : State) : Nat := ((s.coreAt (s.leaderOf s.running)).redun.arrived.map (·.1)).getD 0

/-- What follows from a verdict. -/
def State.onVerdict (s : State) : Verdict → State
  | .agree => s.allAgreed s.running
  | .mismatch => s.mismatch s.compareKind s.compared
  | .retire d => (s.retire d).allAgreed (s.running.filter (· != d))

section
variable {s t : State} (ht : ({ s with cur := s.inp.core } : State) = t)
include ht

/-- Without replicas, or before the verdict is known, a compare goes on. -/
theorem execCompareVerdict_idle (h : t.csr.nrep.toNat ≤ 1 ∨ t.verdictKnown t.running = false) :
    execCompareVerdict s = .next t := by
  unfold execCompareVerdict
  rw [ht]
  exact if_pos (h.imp id fun h => by rw [h]; rfl)

variable (hrep : 1 < t.csr.nrep.toNat) (hknown : t.verdictKnown t.running = true)
include hrep hknown

theorem execCompareVerdict_known : execCompareVerdict s = .next (if t.inp.split = true
    then t.mismatch t.compareKind t.compared true else t.onVerdict (verdict t.compared)) := by
  have hsplit : s.inp.split = t.inp.split := by rw [← ht]
  unfold execCompareVerdict
  rw [ht]
  dsimp only
  rw [if_neg (by simp [hrep, hknown]), hsplit, ← State.compared]
  cases t.inp.split with
  | true => rfl
  | false => cases verdict t.compared <;> rfl

end

/-! ### Two replicas that differ (R186) -/

theorem mismatchInfo_toNat (kind out cmpn : Nat) :
    (mismatchInfo kind out cmpn).toNat = kind % 16 * 2 ^ 60 + out % 8 * 2 ^ 53 + cmpn % 2 ^ 48 := by
  rw [mismatchInfo, BitVec.toNat_ofNat]
  omega

/-- A replica whose compare has failed, by the trap t. -/
def Core.mismatched (y : Core) (t : Trap) : Core :=
  { y.onCsr (·.record t false y.seq.pc) with redun := { y.redun with sbuf := [], used := 0, arrived := none } }

/-- REPLICA_MISMATCH of a twin, of which core g follows. -/
def State.twinTrap (s : State) (kind : Nat) (g : CoreId) (split : Bool) : Trap :=
  { code := 0x1B, info := mismatchInfo kind (if split = true then 7 else 2 ^ (s.coreAt g).csr.self.toNat)
      (s.core.redun.cmpn + 1) }

theorem State.leaderOf_head {s : State} {c : CoreId} (h : (s.coreAt c).csr.self = (s.coreAt c).csr.lead) (l : List CoreId) :
    s.leaderOf (c :: l) = c := by
  have hfind : (c :: l).find? (fun c => (s.coreAt c).csr.self == (s.coreAt c).csr.lead) = some c :=
    List.find?_cons_of_pos (beq_iff_eq.2 h)
  rw [State.leaderOf, hfind]
  rfl

/-- Of a twin that differs both replicas record the mismatch, and the leader's node fails. -/
theorem State.mismatch_twin {α : Type} [BEq α] [LawfulBEq α] (s : State) (kind : Nat) {g : CoreId} {u v : α} {split : Bool}
    (hlead : s.csr.self = s.csr.lead) (hdiff : split = true ∨ u ≠ v) :
    s.mismatch kind [(s.cur, u), (g, v)] split =
      { (State.failNode ((s.onCore s.cur (·.mismatched (s.twinTrap kind g split))).onCore g
        (·.mismatched (s.twinTrap kind g split))) (s.twinTrap kind g split)) with cur := s.cur } := by
  let l : List (CoreId × α) := [(s.cur, u), (g, v)]
  have hleads : s.leaderOf (l.map (·.1)) = s.cur := State.leaderOf_head hlead [g]
  have hfind : l.find? (·.1 == s.cur) = some (s.cur, u) := List.find?_cons_of_pos (by simp)
  have hout : (if split = true then 7 else (l.map fun x =>
      if (some (s.cur, u)).any (·.2 == x.2) then 0 else 2 ^ (s.coreAt x.1).csr.self.toNat).sum) =
      if split = true then 7 else 2 ^ (s.coreAt g).csr.self.toNat := by
    rcases hdiff with h | h
    · rw [if_pos h, if_pos h]
    · simp [l, h]
  show s.mismatch kind l split = _
  unfold State.mismatch
  dsimp only
  rw [hleads, hfind, hout]
  rfl

theorem Trap.cause_mismatch {t : Trap} (h : t.code = 0x1B ∧ t.async = false ∧ t.engine = 0 ∧ t.reason = 0) :
    (t.cause false).toNat = 0x1B := by
  obtain ⟨hcode, hasync, hengine, hreason⟩ := h
  rw [Trap.cause_toNat, hcode, hasync, hengine, hreason]
  rfl

/-- The node of a twin that differs fails, and the mismatch stands in both trap registers. -/
theorem State.mismatch_twin_effect {α : Type} [BEq α] [LawfulBEq α] {s : State} {g : CoreId} {i : Inst} {u v : α} {split : Bool}
    (hlead : s.csr.self = s.csr.lead) (hdiff : split = true ∨ u ≠ v) (hg : g ≠ s.cur) (hi : dumps s s.cur i) (kind : Nat) :
    let t := s.mismatch kind [(s.cur, u), (g, v)] split
    nodeFails s t i ∧ t.ms.mem = s.ms.mem ∧ ∀ k, k = s.cur ∨ k = g →
      (t.coreAt k).csr = (s.coreAt k).csr.record (s.twinTrap kind g split) false (s.coreAt k).seq.pc ∧
      (t.coreAt k).redun.sbuf = [] ∧ (t.coreAt k).regs = (s.coreAt k).regs := by
  let f := s.twinTrap kind g split
  let w := (s.onCore s.cur (·.mismatched f)).onCore g (·.mismatched f)
  have hboth : ∀ k, k = s.cur ∨ k = g → w.coreAt k = (s.coreAt k).mismatched f := by
    rintro k (rfl | rfl)
    · rw [State.coreAt_onCore_other _ _ hg.symm, State.coreAt_onCore_same]
    · rw [State.coreAt_onCore_same, State.coreAt_onCore_other _ _ hg]
  have hothers : ∀ k, ¬ (k = s.cur ∨ k = g) → w.coreAt k = s.coreAt k := fun k hk => by
    obtain ⟨hcur, hkg⟩ := not_or.1 hk
    rw [State.coreAt_onCore_other _ _ hkg, State.coreAt_onCore_other _ _ hcur]
  have hnode : ∀ k, (w.coreAt k).node = (s.coreAt k).node := fun k => by
    by_cases hk : k = s.cur ∨ k = g
    · rw [hboth k hk]; rfl
    · rw [hothers k hk]
  have hdumps : dumps w w.cur i := ⟨(State.instOf_congr (s := s) (t := w) rfl (hnode s.cur)).trans hi.1, hi.2⟩
  obtain ⟨hcores, hfailed, hmem, -⟩ := State.failNode_effect hdumps f []
  intro t
  have ht : t = { (w.failNode f) with cur := s.cur } := State.mismatch_twin s kind hlead hdiff
  rw [ht]
  refine ⟨⟨hfailed, fun d hd => ?_⟩, hmem, fun k hk => ?_⟩
  · exact (congrArg (·.seq.mode) (hcores d)).trans (by rw [hnode d, if_pos hd])
  · have hself : (w.failNode f).coreAt k = (s.coreAt k).mismatched f ∨
        (w.failNode f).coreAt k = ((s.coreAt k).mismatched f).halted := by
      rw [hcores k, hboth k hk]
      split
      · exact .inr rfl
      · exact .inl rfl
    rcases hself with h | h <;>
      exact ⟨congrArg Core.csr h, congrArg (·.redun.sbuf) h, (congrArg Core.regs h :)⟩

/-! ### The odd one of three (R187) -/

/-- A core of a replica that is retired. -/
def Core.outOf (x : Core) : Core := { x with
  seq := { x.seq with mode := .halted }
  redun := { x.redun with sbuf := [], used := 0, arrived := none, retired := true } }

/-- A core of a replica that goes on in a twin. -/
def Core.survives (x : Core) (lead : BitVec 2 → BitVec 2) : Core := x.onCsr fun k => { k with nrep := 2, lead := lead k.lead }

/-- The state in which the replica of core d, of the node numbered id, has been taken out, and said to be. -/
def State.withoutReplica (s : State) (d : CoreId) (id : Nat) : State :=
  let s' := s.onSched fun h => { h with
    causes := h.causes ++ [s.causeRec 0x1C 0 d.val (.ofNat 64 (s.coreAt d).node.replica) (s.instOf d) 0 true] }
  (s'.onTele fun t => { t with replicas := t.replicas ++ [(d, id)] }).onCores
    (fun _ x => x.node.inst == some id && x.node.replica == (s.coreAt d).node.replica) Core.outOf

theorem State.coreAt_withoutReplica (s : State) (d : CoreId) (id : Nat) (g : CoreId) : (s.withoutReplica d id).coreAt g =
    if (s.coreAt g).node.inst = some id ∧ (s.coreAt g).node.replica = (s.coreAt d).node.replica then (s.coreAt g).outOf
    else s.coreAt g :=
  (State.coreAt_onCores _ g _ _).trans (if_congr (Bool.and_eq_true_iff.trans (and_congr beq_iff_eq beq_iff_eq)) rfl rfl)

/-- Who leads after core d's replica of the node numbered id: the lowest survivor, if it led. -/
def State.leadAfter (s : State) (d : CoreId) (id : Nat) (k : BitVec 2) : BitVec 2 :=
  if (s.coreAt d).csr.self == (s.coreAt d).csr.lead then
    let u := s.withoutReplica d id
    .ofNat 2 (((u.instCores id).filter fun c => !(u.coreAt c).redun.retired).foldl
      (fun m c => min m (u.coreAt c).node.replica) 3)
  else k

theorem State.retire_eq {s : State} {d : CoreId} {id : Nat} (hd : (s.coreAt d).node.inst = some id) :
    s.retire d = (s.withoutReplica d id).onCores (fun _ x => x.node.inst == some id && !x.redun.retired)
      (·.survives (s.leadAfter d id)) := by
  unfold State.retire
  rw [hd]
  rfl

section
variable (s : State) {d : CoreId} {id : Nat} (hd : (s.coreAt d).node.inst = some id) (g : CoreId)
include hd

/-- Other nodes keep their cores. -/
theorem State.retire_elsewhere (h : (s.coreAt g).node.inst ≠ some id) : (s.retire d).coreAt g = s.coreAt g := by
  have hg : (s.withoutReplica d id).coreAt g = s.coreAt g :=
    (s.coreAt_withoutReplica d id g).trans (if_neg fun hg => h hg.1)
  rw [State.retire_eq hd, State.coreAt_onCores, hg]
  exact if_neg (by simp [h])

/-- The retired replica halts. -/
theorem State.retire_self : (s.retire d).coreAt d = (s.coreAt d).outOf := by
  have hg : (s.withoutReplica d id).coreAt d = (s.coreAt d).outOf :=
    (s.coreAt_withoutReplica d id d).trans (if_pos ⟨hd, rfl⟩)
  rw [State.retire_eq hd, State.coreAt_onCores, hg]
  exact if_neg (by simp [Core.outOf])

/-- The others of its node go on as a twin. -/
theorem State.retire_survivor (h : (s.coreAt g).node.inst = some id)
    (hrep : (s.coreAt g).node.replica ≠ (s.coreAt d).node.replica) (hret : (s.coreAt g).redun.retired = false) :
    (s.retire d).coreAt g = (s.coreAt g).survives (s.leadAfter d id) := by
  have hg : (s.withoutReplica d id).coreAt g = s.coreAt g :=
    (s.coreAt_withoutReplica d id g).trans (if_neg fun hg => hrep hg.2)
  rw [State.retire_eq hd, State.coreAt_onCores, hg]
  exact if_pos (by simp [h, hret])

theorem State.retire_ms : (s.retire d).ms = s.ms := by
  rw [State.retire_eq hd]
  rfl

end

/-- Of a triplet that the executing core belongs to, core d is retired and the two others go on. -/
theorem State.triplet_effect {s : State} {b d : CoreId} {kind : Nat} (hrun : s.running = [s.cur, b, d])
    (h : ∀ g ∈ s.running, (s.coreAt g).emptyAt kind) (had : s.core.node.replica ≠ (s.coreAt d).node.replica)
    (hbd : (s.coreAt b).node.replica ≠ (s.coreAt d).node.replica) (hret : s.core.redun.retired = false) :
    let t := (s.retire d).allAgreed [s.cur, b]
    ∃ at_ lead, (∀ g ∈ [s.cur, b], t.coreAt g = ((s.coreAt g).survives lead).agreesAt at_) ∧
      t.coreAt d = (s.coreAt d).outOf ∧ (∀ g, (s.coreAt g).node.inst ≠ s.core.node.inst → t.coreAt g = s.coreAt g) ∧
      t.ms = s.ms := by
  have hreplicas : s.replicas = [b, d] := (List.cons.inj hrun).2
  obtain ⟨hnode, hbnode, hbc, -, hbret⟩ := State.mem_replicas.1 (hreplicas ▸ List.mem_cons_self : b ∈ s.replicas)
  obtain ⟨-, hdnode, hdc, -, -⟩ := State.mem_replicas.1 (by rw [hreplicas]; simp : d ∈ s.replicas)
  obtain ⟨id, hid⟩ := Option.isSome_iff_exists.1 hnode
  have hd : (s.coreAt d).node.inst = some id := hdnode.trans hid
  have hlive : ∀ g ∈ [s.cur, b], (s.retire d).coreAt g = (s.coreAt g).survives (s.leadAfter d id) := fun g hg => by
    rcases List.mem_pair.1 hg with rfl | rfl
    · exact s.retire_survivor hd _ hid had hret
    · exact s.retire_survivor hd _ (hbnode.trans hid) hbd hbret
  have hempty : ∀ g ∈ [s.cur, b], ((s.retire d).coreAt g).emptyAt kind := fun g hg => by
    rw [hlive g hg]
    exact h g (by rw [hrun]; exact List.mem_append_left [d] hg)
  have hnodup : [s.cur, b].Nodup := List.nodup_cons.2 ⟨fun h => hbc (List.mem_singleton.1 h).symm, List.nodup_singleton b⟩
  obtain ⟨at_, hin, hout, hms⟩ := State.allAgreed_effect hnodup hempty
  have hdout : d ∉ [s.cur, b] := fun h => (List.mem_pair.1 h).elim hdc fun h => hbd (by rw [h])
  refine ⟨at_, s.leadAfter d id, fun g hg => by rw [hin g hg, hlive g hg], (hout d hdout).trans (s.retire_self hd),
    fun g hg => (hout g fun h => ?_).trans (s.retire_elsewhere hd g (hid ▸ hg)), hms.trans (s.retire_ms hd)⟩
  rcases List.mem_pair.1 h with rfl | rfl
  · exact hg rfl
  · exact hg hbnode

/-! ### What the verdict does (R182) -/

section
variable {s t : State} (ht : ({ s with cur := s.inp.core } : State) = t) (hrep : 1 < t.csr.nrep.toNat) {kind : Nat}
  (hcome : ∀ g ∈ t.running, (t.coreAt g).comeTo kind t.cyc)
include ht hrep hcome

/-- Replicas with one signature go on. -/
theorem execCompareVerdict_same (hsplit : t.inp.split = false)
    (hsig : ∀ g ∈ t.running, (t.coreAt g).redun.sig = t.core.redun.sig) :
    execCompareVerdict s = .next (t.allAgreed t.running) := by
  have hsent : ∀ g ∈ t.running, (t.coreAt g).sent = (t.core.redun.sig, kind, none) := fun g hg => by
    rw [Core.sent_eq (hcome g hg).1, hsig g hg]
  have hverdict : verdict t.compared = .agree := verdict_agree fun y hy => by
    obtain ⟨g, hg, rfl⟩ := List.mem_map.1 hy
    exact beq_iff_eq.2 ((hsent g (List.mem_cons_of_mem t.cur hg)).trans (hsent t.cur List.mem_cons_self).symm)
  rw [execCompareVerdict_known ht hrep (State.verdictKnown_of_comeTo hcome), hsplit, if_neg Bool.false_ne_true, hverdict]
  rfl

/-- Of a twin that differs, led by the core itself, the compare is a mismatch. -/
theorem execCompareVerdict_twin {g : CoreId} (hrun : t.running = [t.cur, g]) (hlead : t.csr.self = t.csr.lead)
    (hdiff : t.inp.split = true ∨ t.core.sent ≠ (t.coreAt g).sent) : execCompareVerdict s =
      .next (t.mismatch kind [(t.cur, t.core.sent), (g, (t.coreAt g).sent)] t.inp.split) := by
  have harr : (t.coreAt t.cur).redun.arrived = some (kind, none) := (hcome t.cur List.mem_cons_self).1
  have hkind : t.compareKind = kind := by
    rw [State.compareKind, hrun, State.leaderOf_head (s := t) (c := t.cur) hlead [g], harr]
    rfl
  have hcompared : t.compared = [(t.cur, t.core.sent), (g, (t.coreAt g).sent)] := by
    rw [State.compared, hrun]
    rfl
  rw [execCompareVerdict_known ht hrep (State.verdictKnown_of_comeTo hcome), hkind]
  cases hs : t.inp.split with
  | true => rw [if_pos rfl, hcompared]
  | false =>
    have hsent := hdiff.resolve_left (by rw [hs]; exact Bool.false_ne_true)
    rw [if_neg Bool.false_ne_true, hcompared, verdict_two (beq_false_of_ne hsent.symm), State.onVerdict, hcompared, hkind]

/-- Of three the one whose signature differs is retired, and the others go on. -/
theorem execCompareVerdict_triplet (hsplit : t.inp.split = false) {b d : CoreId} (hrun : t.running = [t.cur, b, d])
    (hsame : t.core.redun.sig = (t.coreAt b).redun.sig) (hodd : (t.coreAt d).redun.sig ≠ t.core.redun.sig) :
    execCompareVerdict s = .next ((t.retire d).allAgreed [t.cur, b]) := by
  have hsent {g : CoreId} (hg : g ∈ [t.cur, b, d]) : (t.coreAt g).sent = ((t.coreAt g).redun.sig, kind, none) :=
    Core.sent_eq (hcome g (hrun ▸ hg)).1
  have ha := hsent (g := t.cur) (by simp)
  have hb : (t.coreAt b).sent = (t.core.redun.sig, kind, none) := by rw [hsent (g := b) (by simp), hsame]
  have hd := hsent (g := d) (by simp)
  have hverdict : verdict t.compared = .retire d := by
    rw [State.compared, hrun]
    refine verdict_odd (beq_iff_eq.2 ?_) (beq_false_of_ne ?_)
    · exact ha.trans hb.symm
    · show (t.coreAt d).sent ≠ (t.coreAt t.cur).sent
      rw [ha, hd]
      exact fun h => hodd (congrArg Prod.fst h)
  have hleft : t.running.filter (· != d) = [t.cur, b] := by
    have hnodup := t.running_nodup
    rw [hrun] at hnodup
    simp only [List.nodup_cons, List.mem_cons, List.not_mem_nil, or_false, not_or] at hnodup
    obtain ⟨⟨-, hcd⟩, hbd, -⟩ := hnodup
    simp [hrun, hcd, hbd]
  rw [execCompareVerdict_known ht hrep (State.verdictKnown_of_comeTo hcome), hsplit, if_neg Bool.false_ne_true, hverdict,
    State.onVerdict, hleft]

end

/-- The claim of redundant nodes. -/
theorem claim_replicaEvents : Claim.ReplicaEvents := by
  intro s c x l idle arrived goesOn
  let t : State := { s with cur := c }
  have hagree {u : State} {g : CoreId} {at_ : W} (h : u.coreAt g = (s.coreAt g).agreesAt at_) : goesOn u g := by
    show (u.coreAt g).redun.arrived = none ∧ _
    rw [h]
    exact ⟨rfl, rfl, rfl, rfl, rfl⟩
  refine ⟨fun f n v fl r m hfills hr hsrc hin hm => ⟨fun h => ⟨t, execForwardedValueArrive_frozen (t := t) rfl h, rfl, rfl⟩,
    fun hlive => ?forwarded⟩, fun h => ⟨t, execCompareVerdict_idle (t := t) rfl (h.imp id ?unknown), rfl, rfl, rfl⟩, ?agree,
    ?differ, ?retire⟩
  case forwarded =>
    let g := fun x : Core => x.forwardFilled f n v fl
    have field {α : Type} (p : Core → α) := congrArg p (t.core_mapCore g : (t.mapCore g).coreAt c = g x)
    refine ⟨_, execForwardedValueArrive_first (t := t) rfl hfills hsrc hin hlive, field Core.regs, (field Core.fills).trans ?_,
      (field (·.redun.inflight)).trans ?_, field Core.csr, field Core.scratch,
      fun d hd => (t.coreAt_mapCore d g).trans (if_neg (Ne.symm hd)), rfl⟩
    · show x.fills.filter (· != f) = r
      rw [hfills, List.filter_cons_of_neg (by simp)]
      exact List.filter_eq_self.2 fun e he => bne_iff_ne.2 fun h => hr (h ▸ he)
    · show x.redun.inflight.filter (·.1 != n) = m
      rw [hin, List.filter_cons_of_neg (by simp)]
      exact List.filter_eq_self.2 fun e he => bne_iff_ne.2 (hm e he)
  case unknown =>
    rintro ⟨g, hg, h⟩
    refine Bool.eq_false_iff.2 fun hknown => ?_
    obtain ⟨harr, hsince⟩ := State.verdictKnown_iff.1 hknown g hg
    rcases h with h | h
    · rw [show (t.coreAt g).redun.arrived = none from h] at harr
      cases harr
    · exact Nat.not_lt.2 hsince h
  case agree =>
    intro kind hrep hsplit h
    have hcome : ∀ g ∈ t.running, (t.coreAt g).comeTo kind t.cyc := fun g hg => (h g hg).1
    have hempty : ∀ g ∈ t.running, (t.coreAt g).emptyAt kind := fun g hg => ⟨(hcome g hg).1, (h g hg).2.1⟩
    obtain ⟨at_, hin, hout, hms⟩ := State.allAgreed_effect t.running_nodup hempty
    exact ⟨_, execCompareVerdict_same (t := t) rfl hrep hcome hsplit fun g hg => (h g hg).2.2, fun g hg => hagree (hin g hg),
      hout, hms⟩
  case differ =>
    intro kind g i hrep hl hc hg hdiff hlead hi
    have hrun : t.running = [t.cur, g] := hl
    have hcome : ∀ k ∈ t.running, (t.coreAt k).comeTo kind t.cyc := fun k hk => by
      rw [hrun, List.mem_pair] at hk
      rcases hk with rfl | rfl
      · exact hc
      · exact hg
    have hgc : g ≠ t.cur := by
      have hnodup := t.running_nodup
      rw [hrun] at hnodup
      exact fun h => (List.nodup_cons.1 hnodup).1 (List.mem_singleton.2 h.symm)
    have hdiff' : t.inp.split = true ∨ t.core.sent ≠ (t.coreAt g).sent := hdiff.imp id fun h heq => by
      rw [show t.core.sent = _ from Core.sent_eq hc.1, show (t.coreAt g).sent = _ from Core.sent_eq hg.1] at heq
      exact h (congrArg Prod.fst heq).symm
    obtain ⟨hfails, hmem, hboth⟩ := State.mismatch_twin_effect (s := t) hlead hdiff' hgc hi kind
    refine ⟨_, execCompareVerdict_twin (t := t) rfl hrep hcome hrun hlead hdiff', hfails, fun k hk => ?_, hmem⟩
    rw [hl, List.mem_pair] at hk
    obtain ⟨hcsr, hbuf, hregs⟩ := hboth k hk
    refine ⟨(congrArg (·.trapcause.toNat) hcsr).trans (Trap.cause_mismatch ⟨rfl, rfl, rfl, rfl⟩),
      (congrArg (·.trapinfo.toNat) hcsr).trans ((mismatchInfo_toNat _ _ _).trans ?_), hbuf, hregs⟩
    congr 3
    split <;> rfl
  case retire =>
    intro kind a b d hrep hsplit hl h had hbd hab hodd hret
    obtain ⟨rfl, -⟩ : c = a ∧ t.replicas = [b, d] := List.cons.inj hl
    have hcome : ∀ g ∈ t.running, (t.coreAt g).comeTo kind t.cyc := fun g hg => (h g hg).1
    have hempty : ∀ g ∈ t.running, (t.coreAt g).emptyAt kind := fun g hg => ⟨(h g hg).1.1, (h g hg).2⟩
    obtain ⟨at_, lead, hin, hself, hout, hms⟩ := State.triplet_effect (s := t) hl hempty had hbd hret
    refine ⟨_, execCompareVerdict_triplet (t := t) rfl hrep hcome hsplit hl hab hodd, congrArg (·.redun.retired) hself,
      congrArg (·.seq.mode) hself, fun g hg => ?_, hout, hms⟩
    have field {α : Type} (p : Core → α) := congrArg p (hin g (List.mem_pair.2 hg))
    exact ⟨⟨field (·.redun.arrived), field (·.redun.sig), field (·.redun.agreed), field (·.redun.cmpn), field Core.regs⟩,
      field (·.csr.nrep), field (·.seq.mode)⟩

end Sys2Proof.Machine
end

section
/-!
SUPPORT. What reaches a core between its groups, as one statement (07_faults, 09_redundancy, 10_core R195, R206 to R208, 16_sync).
-/

namespace Sys2Proof.Machine

/-- Settles O51: each of its claims is an event's equation in the cases that the claim names, and the frame of the update that
the event then makes. -/
theorem coreEvents : Obligations.CoreEvents :=
  ⟨claim_pendingTraps, claim_stampOverruns, claim_producersFill, claim_accessesEnd, claim_replicaEvents, claim_waitsEnd⟩

end Sys2Proof.Machine
end
